-- ==== Sys2Proof/Word.lean ====
section
/-! DEFINITION. The word types of the machine and their plainest arithmetic (R5, R6, R47). -/

namespace Sys2Proof

/-- One byte of memory. -/
abbrev Byte := BitVec 8
/-- A 32-bit register value or instruction word (R47, R100). -/
abbrev Word := BitVec 32
/-- A 64-bit value: a pair of registers, a virtual address, an object name. -/
abbrev DWord := BitVec 64
/-- One bit per lane of a warp (R35, R102). -/
abbrev LaneMask := BitVec 96
/-- A program counter: branch targets are taken modulo 2^57 (R49). -/
abbrev Pc := BitVec 57
/-- One warp-register: 32 bits in each of 96 lanes (R98). -/
abbrev VReg := Vector Word 96
/-- A lane number of a warp, 0 to 95 (R26). -/
abbrev Lane := Fin 96

/-- Whether lane `l` belongs to the mask. -/
def LaneMask.has (m : LaneMask) (l : Lane) : Bool := BitVec.getLsbD m l.val

/-- The mask of the lanes that satisfy `f`. -/
def LaneMask.ofFn (f : Lane → Bool) : LaneMask :=
  (List.finRange 96).foldl (fun m l => if f l then m ||| (1#96 <<< l.val) else m) 0#96

/-- The lanes of a mask in ascending order (R6). -/
def LaneMask.lanes (m : LaneMask) : List Lane := (List.finRange 96).filter (LaneMask.has m)

/-- The lowest lane of a mask. -/
def LaneMask.lowest (m : LaneMask) : Option Lane := (LaneMask.lanes m).head?

/-- Part `k` of a mask: lanes 32k to 32k + 31 (R100, R128). -/
def LaneMask.part (m : LaneMask) (k : Nat) : Word := BitVec.extractLsb' (32 * k) 32 m

/-- Three words as a mask, the lowest lanes first (R128). -/
def LaneMask.ofParts (a b c : Word) : LaneMask := c ++ b ++ a

/-- The 64-bit value of a low and a high word (R5). -/
def joinWords (lo hi : Word) : DWord := hi ++ lo
def lowWord (v : DWord) : Word := BitVec.extractLsb' 0 32 v
def highWord (v : DWord) : Word := BitVec.extractLsb' 32 32 v

/-- A virtual address as the program counter keeps it: bits [56:0]. -/
def toPc (v : DWord) : Pc := BitVec.setWidth 57 v
def ofPc (p : Pc) : DWord := BitVec.setWidth 64 p

/-- The next instruction's address (R49). -/
def Pc.next (p : Pc) : Pc := p + 4#57

/-- Bytes of a number in little-endian order (R5). -/
def leBytes : Nat → Nat → List Byte
  | 0, _ => []
  | n + 1, v => BitVec.ofNat 8 v :: leBytes n (v / 256)

/-- The number that little-endian bytes hold (R5). -/
def ofLeBytes : List Byte → Nat
  | [] => 0
  | b :: bs => b.toNat + 256 * ofLeBytes bs

/-- Two's complement reading of the low `w` bits of `v`. -/
def signedOf (w v : Nat) : Int :=
  let u := v % 2 ^ w
  if 2 * u < 2 ^ w then (u : Int) else (u : Int) - 2 ^ w

/-- An integer kept modulo 2^w (R6). -/
def wrapTo (w : Nat) (v : Int) : Nat := (v % (2 ^ w : Int)).toNat

/-- Bits [h:l] of a number, `len` of them from `lo` up (R6). -/
def bitsOf (v lo len : Nat) : Nat := (v / 2 ^ lo) % 2 ^ len

/-- Exact base-2 logarithm rounded down, 0 for 0. -/
def floorLog2 (n : Nat) : Nat := Nat.log2 n

end Sys2Proof
end

