-- ==== Sys2Proof/Syntax.lean ====
section
/-! DEFINITION. The instructions and steps of the machine: one inductive, one constructor for each row of
spec/opcode_table.json, and the named codes their fields take (R50, R51, R63, R109, R392). -/

namespace Sys2Proof

/-- A register field: register 0 to 127 (R48). -/
abbrev Reg := Fin 128
/-- A predicate field, p0 to p7 (R48, R102). -/
abbrev PReg := Fin 8
/-- A queue-program register, k0 to k15 (R375). -/
abbrev KReg := Fin 16

/-- The type codes of R51, in code order 0 to 18. -/
inductive Ty where
  | i8x4 | n8x4 | i16x2 | n16x2 | i32 | n32 | i64 | n64
  | b8 | b16 | b32 | b64 | b128
  | f16x2 | bf16x2 | f32 | f64 | e4m3x4 | e5m2x4
deriving DecidableEq, Repr

/-- A rounding field, codes 0 to 6 (R50, R63, R90): `dflt` is code 0. -/
inductive Rm where
  | dflt | rne | rtz | rup | rdn | rna | sr
deriving DecidableEq, Repr

/-- The logical group codes 0 to 5 (R50). -/
inductive GroupCode where
  | g96 | g48 | g32 | g16 | g8 | g4
deriving DecidableEq, Repr

/-- The scope codes 0 to 9 (R50, R243). -/
inductive Scope where
  | thread | warp | group | core | cluster | die | device | host | peer | system
deriving DecidableEq, Repr

/-- The ordering codes 0 to 3 (R50). -/
inductive Ordering4 where
  | relaxed | acquire | release | acqRel
deriving DecidableEq, Repr

/-- Conditions of SCMP (R117). -/
inductive SCond where
  | eq | ne | lt | le | ltn | len
deriving DecidableEq, Repr

/-- Conditions of VCMP (R123). -/
inductive VCond where
  | eq | ne | lt | le | gt | ge
deriving DecidableEq, Repr

/-- Conditions of FCMP (R141). -/
inductive FCond where
  | eq | ne | lt | le | gt | ge | un | ord
deriving DecidableEq, Repr

/-- Conditions of WAITCMP (R237). -/
inductive WCond where
  | eq | ne | geu | ltu | ges | lts
deriving DecidableEq, Repr

/-- Operations of XREDUCE, XSCANI, XSCANE and collectives (R156, R426). -/
inductive XOp where
  | add | min | max | and | or | xor
deriving DecidableEq, Repr

/-- Lock modes 0 to 6 (R265). -/
inductive LkMode where
  | nl | is | ix | s | six | i | x
deriving DecidableEq, Repr

/-- The four typed buffers (R198). -/
inductive Buf where
  | sb | ab | cb | wb
deriving DecidableEq, Repr

/-- The special registers of R109, each under its name. -/
inductive SpecReg where
  | lane | tidx | field (k : Fin 6) | wid | widhi | rctr | rctrhi
  | warpidx | nwarps | wglin | wglinhi | clrank | clsize | allot | fflags | clausest
  | cycle | cyclehi | lclock | lclockhi | rngseed | rngseedhi | rngstream
  | trapcause | trappc | trappchi | trapaddr | trapaddrhi | trapmask
  | splitid | nsplits | lklast | age | agehi | barcount | agex | trapli | traplihi
deriving DecidableEq, Repr

/-- The privileged registers of R392. -/
inductive PrivReg where
  | ctxnum | trapbase | trapbasehi | errcount | scrubstat
deriving DecidableEq, Repr

/-- The fields of a CLAUSE word (R50): `count` 0 means 16, `rm` keeps both codes of RNE. -/
structure ClauseWord where
  count : Fin 16
  neg   : Bool
  guard : PReg
  ty    : Ty
  rm    : Rm
  grp   : GroupCode
  scope : Scope
  ord   : Ordering4
deriving DecidableEq, Repr

/-- The name of a launch: its context and its 24-bit sequence (R372). -/
structure LaunchKey where
  ctx : Nat
  seq : Nat
deriving DecidableEq, Repr

/-- The name of a workgroup: its launch and its linear index WGLIN (R25, R400). -/
structure WgKey where
  ctx   : Nat
  seq   : Nat
  wglin : Nat
deriving DecidableEq, Repr

/-- The name of a warp: its workgroup and WARPIDX (R26, R400). -/
structure WarpKey where
  ctx   : Nat
  seq   : Nat
  wglin : Nat
  widx  : Nat
deriving DecidableEq, Repr

def WarpKey.wg (k : WarpKey) : WgKey := ⟨k.ctx, k.seq, k.wglin⟩
def WarpKey.launch (k : WarpKey) : LaunchKey := ⟨k.ctx, k.seq⟩
def WgKey.launch (k : WgKey) : LaunchKey := ⟨k.ctx, k.seq⟩
def WgKey.warp (k : WgKey) (i : Nat) : WarpKey := ⟨k.ctx, k.seq, k.wglin, i⟩

/-- An atomic that the host or a peer sends to the port unit (R230, R231): the form's opcode, its type, the operand, and the
comparand of an ACAS. -/
structure OuterAtomic where
  opcode : Nat
  ty     : Ty
  v      : Nat
  c      : Nat
deriving DecidableEq, Repr

/-- A host access (R258): a read, or a write of the little-endian bytes given, to a virtual address of a
context (`window` false) or to an offset of the coherent window (`window` true). -/
structure HostAccess where
  ctx    : Nat
  window : Bool
  addr   : Nat
  len    : Nat
  write  : Option (List Byte)
  /-- An atomic that the member's port unit serves (R231), in place of a read or write. -/
  atomic : Option OuterAtomic
deriving DecidableEq, Repr

/-- What a peer's access does at the port unit (R425): a read, a write, an atomic add of 32 or 64 bits, or any atomic of
R230. -/
inductive PeerOp where
  | read (len : Nat)
  | write (bytes : List Byte)
  | add (wide : Bool) (v : DWord)
  | atomic (a : OuterAtomic)
deriving DecidableEq, Repr

/-- A peer's access to a physical address of this member (R258, R425). -/
structure PeerAccess where
  addr : Nat
  op   : PeerOp
deriving DecidableEq, Repr

/-- Every step of spec/opcode_table.json, one constructor a row. Rows with a word are
instructions of encoding revision 1 (R62, R63); rows without one are the part's other steps, each
with the operands that name its subject (spec/95_what_each_step_holds.md). -/
inductive Instr where
  /-- UNDEF (R65). -/
  | undef (w : Word)
  /-- ROLLBACK (R416). -/
  | rollback (ctx : Nat)
  /-- CHECKPOINT (R415). -/
  | checkpoint (ctx : Nat)
  /-- CLAUSE (R50). -/
  | clause (c : ClauseWord)
  /-- BRA (R168). -/
  | bra (imm : BitVec 25)
  /-- BRNZ (R168). -/
  | brnz (d : Reg) (imm : BitVec 18)
  /-- BRZ (R168). -/
  | brz (d : Reg) (imm : BitVec 18)
  /-- BRV (R169). -/
  | brv (neg : Bool) (p : PReg) (imm : BitVec 18)
  /-- BRX (R170). -/
  | brx (a : Reg)
  /-- CALL (R171). -/
  | call (d : Reg) (imm : BitVec 18)
  /-- CALLX (R171). -/
  | callx (d a : Reg)
  /-- RET (R170). -/
  | ret (a : Reg)
  /-- TRAP (R388). -/
  | trap (imm : BitVec 18)
  /-- SLEEP (R177). -/
  | sleep (imm : BitVec 18)
  /-- SLEEP_EXPIRY (R177). -/
  | sleepExpiry (w : WarpKey) (sp : Fin 4)
  /-- SADD (R114). -/
  | sadd (d a b : Reg)
  /-- SSUB (R114). -/
  | ssub (d a b : Reg)
  /-- SMUL (R114). -/
  | smul (d a b : Reg)
  /-- SMULHI (R114). -/
  | smulhi (d a b : Reg)
  /-- SMULHIN (R114). -/
  | smulhin (d a b : Reg)
  /-- SAND (R114). -/
  | sand (d a b : Reg)
  /-- SOR (R114). -/
  | sor (d a b : Reg)
  /-- SXOR (R114). -/
  | sxor (d a b : Reg)
  /-- SSHL (R114). -/
  | sshl (d a b : Reg)
  /-- SSHR (R114). -/
  | sshr (d a b : Reg)
  /-- SSAR (R114). -/
  | ssar (d a b : Reg)
  /-- SMIN (R114). -/
  | smin (d a b : Reg)
  /-- SMAX (R114). -/
  | smax (d a b : Reg)
  /-- SMINN (R114). -/
  | sminn (d a b : Reg)
  /-- SMAXN (R114). -/
  | smaxn (d a b : Reg)
  /-- SANDN (R114). -/
  | sandn (d a b : Reg)
  /-- SADDI (R115). -/
  | saddi (d a : Reg) (imm : BitVec 11)
  /-- SANDI (R115). -/
  | sandi (d a : Reg) (imm : BitVec 11)
  /-- SORI (R115). -/
  | sori (d a : Reg) (imm : BitVec 11)
  /-- SXORI (R115). -/
  | sxori (d a : Reg) (imm : BitVec 11)
  /-- SSHLI (R115). -/
  | sshli (d a : Reg) (imm : BitVec 11)
  /-- SSHRI (R115). -/
  | sshri (d a : Reg) (imm : BitVec 11)
  /-- SSARI (R115). -/
  | ssari (d a : Reg) (imm : BitVec 11)
  /-- SMOVI (R116). -/
  | smovi (d : Reg) (imm : BitVec 18)
  /-- SLUI (R116). -/
  | slui (d : Reg) (imm : BitVec 18)
  /-- SCMP (R117). -/
  | scmp (d a b : Reg) (c : SCond)
  /-- SSEL (R117). -/
  | ssel (d a b : Reg)
  /-- SPOPC (R118). -/
  | spopc (d a : Reg)
  /-- SCLZ (R118). -/
  | sclz (d a : Reg)
  /-- SCTZ (R118). -/
  | sctz (d a : Reg)
  /-- SBREV (R118). -/
  | sbrev (d a : Reg)
  /-- SBFE (R118). -/
  | sbfe (d a b : Reg)
  /-- SBFI (R118). -/
  | sbfi (d a b : Reg)
  /-- SADD64 (R118). -/
  | sadd64 (d a b : Reg)
  /-- SSUB64 (R118). -/
  | ssub64 (d a b : Reg)
  /-- SMOV (R116). -/
  | smov (d a : Reg)
  /-- TLBINV (R192). -/
  | tlbinv (a b : Reg)
  /-- SRDP (R392). -/
  | srdp (d : Reg) (n : PrivReg)
  /-- SWRP (R392). -/
  | swrp (a : Reg) (n : PrivReg)
  /-- VADD (R119). -/
  | vadd (d a b : Reg)
  /-- VSUB (R119). -/
  | vsub (d a b : Reg)
  /-- VMUL (R119). -/
  | vmul (d a b : Reg)
  /-- VMULHI (R119). -/
  | vmulhi (d a b : Reg)
  /-- VAND (R119). -/
  | vand (d a b : Reg)
  /-- VOR (R119). -/
  | vor (d a b : Reg)
  /-- VXOR (R119). -/
  | vxor (d a b : Reg)
  /-- VANDN (R119). -/
  | vandn (d a b : Reg)
  /-- VSHL (R119). -/
  | vshl (d a b : Reg)
  /-- VSHR (R119). -/
  | vshr (d a b : Reg)
  /-- VSAR (R119). -/
  | vsar (d a b : Reg)
  /-- VMIN (R119). -/
  | vmin (d a b : Reg)
  /-- VMAX (R119). -/
  | vmax (d a b : Reg)
  /-- VADDSAT (R119). -/
  | vaddsat (d a b : Reg)
  /-- VSUBSAT (R119). -/
  | vsubsat (d a b : Reg)
  /-- VABSD (R119). -/
  | vabsd (d a b : Reg)
  /-- VADD_SCALAR (R119). -/
  | vaddScalar (d a b : Reg)
  /-- VSUB_SCALAR (R119). -/
  | vsubScalar (d a b : Reg)
  /-- VMUL_SCALAR (R119). -/
  | vmulScalar (d a b : Reg)
  /-- VMULHI_SCALAR (R119). -/
  | vmulhiScalar (d a b : Reg)
  /-- VAND_SCALAR (R119). -/
  | vandScalar (d a b : Reg)
  /-- VOR_SCALAR (R119). -/
  | vorScalar (d a b : Reg)
  /-- VXOR_SCALAR (R119). -/
  | vxorScalar (d a b : Reg)
  /-- VANDN_SCALAR (R119). -/
  | vandnScalar (d a b : Reg)
  /-- VSHL_SCALAR (R119). -/
  | vshlScalar (d a b : Reg)
  /-- VSHR_SCALAR (R119). -/
  | vshrScalar (d a b : Reg)
  /-- VSAR_SCALAR (R119). -/
  | vsarScalar (d a b : Reg)
  /-- VMIN_SCALAR (R119). -/
  | vminScalar (d a b : Reg)
  /-- VMAX_SCALAR (R119). -/
  | vmaxScalar (d a b : Reg)
  /-- VADDSAT_SCALAR (R119). -/
  | vaddsatScalar (d a b : Reg)
  /-- VSUBSAT_SCALAR (R119). -/
  | vsubsatScalar (d a b : Reg)
  /-- VABSD_SCALAR (R119). -/
  | vabsdScalar (d a b : Reg)
  /-- VMAD (R121). -/
  | vmad (d a b : Reg)
  /-- VMADHI (R121). -/
  | vmadhi (d a b : Reg)
  /-- VDOT4 (R122). -/
  | vdot4 (d a b : Reg)
  /-- VCMP (R123). -/
  | vcmp (p : PReg) (a b : Reg) (c : VCond)
  /-- VSEL (R123). -/
  | vsel (d a b : Reg) (neg : Bool) (p : PReg)
  /-- VPOPC (R124). -/
  | vpopc (d a : Reg)
  /-- VCLZ (R124). -/
  | vclz (d a : Reg)
  /-- VCTZ (R124). -/
  | vctz (d a : Reg)
  /-- VBREV (R124). -/
  | vbrev (d a : Reg)
  /-- VBFE (R124). -/
  | vbfe (d a b : Reg)
  /-- VBFI (R124). -/
  | vbfi (d a b : Reg)
  /-- VPERMB (R124). -/
  | vpermb (d a b : Reg)
  /-- VNOT (R124). -/
  | vnot (d a : Reg)
  /-- VNEG (R124). -/
  | vneg (d a : Reg)
  /-- VABS (R124). -/
  | vabs (d a : Reg)
  /-- VADDC (R124). -/
  | vaddc (d a b : Reg)
  /-- VSUBB (R124). -/
  | vsubb (d a b : Reg)
  /-- VLEA (R124). -/
  | vlea (d a b : Reg)
  /-- VSEXT (R124). -/
  | vsext (d a : Reg) (k : Fin 4)
  /-- VZEXT (R124). -/
  | vzext (d a : Reg) (k : Fin 4)
  /-- VADDI (R120). -/
  | vaddi (d a : Reg) (imm : BitVec 11)
  /-- VANDI (R120). -/
  | vandi (d a : Reg) (imm : BitVec 11)
  /-- VORI (R120). -/
  | vori (d a : Reg) (imm : BitVec 11)
  /-- VSHLI (R120). -/
  | vshli (d a : Reg) (imm : BitVec 11)
  /-- VSHRI (R120). -/
  | vshri (d a : Reg) (imm : BitVec 11)
  /-- VSARI (R120). -/
  | vsari (d a : Reg) (imm : BitVec 11)
  /-- VMOVI (R120). -/
  | vmovi (d : Reg) (imm : BitVec 18)
  /-- VDIV (R125). -/
  | vdiv (d a b : Reg) (la : Fin 16)
  /-- VREM (R125). -/
  | vrem (d a b : Reg) (la : Fin 16)
  /-- FADD (R136). -/
  | fadd (d a b : Reg) (rm : Rm)
  /-- FSUB (R136). -/
  | fsub (d a b : Reg) (rm : Rm)
  /-- FMUL (R136). -/
  | fmul (d a b : Reg) (rm : Rm)
  /-- FFMA (R136). -/
  | ffma (d a b : Reg) (rm : Rm)
  /-- FFMS (R136). -/
  | ffms (d a b : Reg) (rm : Rm)
  /-- FNFMA (R136). -/
  | fnfma (d a b : Reg) (rm : Rm)
  /-- FMIN (R137). -/
  | fmin (d a b : Reg)
  /-- FMAX (R137). -/
  | fmax (d a b : Reg)
  /-- FMINNUM (R137). -/
  | fminnum (d a b : Reg)
  /-- FMAXNUM (R137). -/
  | fmaxnum (d a b : Reg)
  /-- FSGNJ (R138). -/
  | fsgnj (d a b : Reg)
  /-- FSGNJN (R138). -/
  | fsgnjn (d a b : Reg)
  /-- FABS (R138). -/
  | fabs (d a : Reg)
  /-- FNEG (R138). -/
  | fneg (d a : Reg)
  /-- FCLASS (R139). -/
  | fclass (d a : Reg)
  /-- FSCALE (R140). -/
  | fscale (d a b : Reg)
  /-- FCMP (R141). -/
  | fcmp (p : PReg) (a b : Reg) (c : FCond)
  /-- FDOT2 (R142). -/
  | fdot2 (d a b : Reg) (rm : Rm)
  /-- FRCP (R143). -/
  | frcp (d a : Reg) (la : Fin 16)
  /-- FRSQ (R143). -/
  | frsq (d a : Reg) (la : Fin 16)
  /-- FSQRT (R143). -/
  | fsqrt (d a : Reg) (la : Fin 16)
  /-- FEXP2 (R143). -/
  | fexp2 (d a : Reg) (la : Fin 16)
  /-- FLOG2 (R143). -/
  | flog2 (d a : Reg) (la : Fin 16)
  /-- FSIN (R143). -/
  | fsin (d a : Reg) (la : Fin 16)
  /-- FCOS (R143). -/
  | fcos (d a : Reg) (la : Fin 16)
  /-- FTANH (R143). -/
  | ftanh (d a : Reg) (la : Fin 16)
  /-- FDIV (R145). -/
  | fdiv (d a b : Reg) (la : Fin 16)
  /-- FRND (R147). -/
  | frnd (d a : Reg) (rm : Rm)
  /-- CVT (R148). -/
  | cvt (d a : Reg) (ty : Ty) (rm : Rm)
  /-- FPACK (R150). -/
  | fpack (d a b : Reg) (rm : Rm)
  /-- RND (R348). -/
  | rnd (d : Reg)
  /-- RNDF (R348). -/
  | rndf (d : Reg)
  /-- RNDSKIP (R348). -/
  | rndskip (a : Reg)
  /-- XSHFL (R158). -/
  | xshfl (d a b : Reg) (la : Fin 16)
  /-- XROT (R158). -/
  | xrot (d a b : Reg) (la : Fin 16)
  /-- XBCAST (R158). -/
  | xbcast (d a b : Reg) (la : Fin 16)
  /-- XREDUCE (R161). -/
  | xreduce (d a : Reg) (op : XOp) (la : Fin 16)
  /-- XSCANI (R161). -/
  | xscani (d a : Reg) (op : XOp) (la : Fin 16)
  /-- XSCANE (R161). -/
  | xscane (d a : Reg) (op : XOp) (la : Fin 16)
  /-- XMADD (R162). -/
  | xmadd (d a b : Reg) (la : Fin 16)
  /-- XMMIN (R162). -/
  | xmmin (d a b : Reg) (la : Fin 16)
  /-- XMMAX (R162). -/
  | xmmax (d a b : Reg) (la : Fin 16)
  /-- XMOR (R162). -/
  | xmor (d a b : Reg) (la : Fin 16)
  /-- XBALLOT (R163). -/
  | xballot (d : Reg) (p : PReg) (la : Fin 16)
  /-- XANY (R163). -/
  | xany (q p : PReg) (la : Fin 16)
  /-- XALL (R163). -/
  | xall (q p : PReg) (la : Fin 16)
  /-- XCOUNT (R163). -/
  | xcount (d : Reg) (p : PReg) (la : Fin 16)
  /-- XFIRST (R163). -/
  | xfirst (d : Reg) (p : PReg) (la : Fin 16)
  /-- LKACQ (R277). -/
  | lkacq (d a : Reg) (m : LkMode)
  /-- LKTRY (R277). -/
  | lktry (d a : Reg) (m : LkMode)
  /-- LKUP (R278). -/
  | lkup (d a : Reg) (m : LkMode)
  /-- LKDOWN (R278). -/
  | lkdown (d a : Reg) (m : LkMode)
  /-- LKREL (R279). -/
  | lkrel (d a : Reg)
  /-- LKSTAT (R280). -/
  | lkstat (d a : Reg)
  /-- LKTAB (R281). -/
  | lktab (d a : Reg)
  /-- REVOCATION (R272). -/
  | revocation (w : WarpKey)
  /-- BAR (R340). -/
  | bar (n : Fin 16)
  /-- BARARR (R340). -/
  | bararr (n : Fin 16)
  /-- BARWAIT (R340). -/
  | barwait (n : Fin 16)
  /-- TKWAIT (R343). -/
  | tkwait (d : Reg) (k : Fin 4)
  /-- TKPASS (R343). -/
  | tkpass (d : Reg) (k : Fin 4)
  /-- TKPASS_POISON (R343). -/
  | tkpassPoison (d : Reg) (k : Fin 4)
  /-- FENCE (R251). -/
  | fence (p q : BitVec 6)
  /-- HMAKE (R208). -/
  | hmake (d a : Reg) (buf : Buf)
  /-- HGIVE (R209). -/
  | hgive (d a b : Reg)
  /-- HTAKE (R210). -/
  | htake (d a : Reg)
  /-- HDROP (R211). -/
  | hdrop (d a : Reg)
  /-- HQUERY (R212). -/
  | hquery (d a : Reg)
  /-- VMOV (R126). -/
  | vmov (d a : Reg)
  /-- VMOVS (R126). -/
  | vmovs (d a : Reg)
  /-- VRDL (R126). -/
  | vrdl (d a b : Reg)
  /-- VWRL (R126). -/
  | vwrl (d a b : Reg)
  /-- PAND (R127). -/
  | pand (d a b : PReg)
  /-- POR (R127). -/
  | por (d a b : PReg)
  /-- PXOR (R127). -/
  | pxor (d a b : PReg)
  /-- PNOT (R127). -/
  | pnot (d a : PReg)
  /-- PSET (R127). -/
  | pset (d : PReg)
  /-- PCLR (R127). -/
  | pclr (d : PReg)
  /-- PMOVS (R128). -/
  | pmovs (p : PReg) (a : Reg)
  /-- SMOVP (R128). -/
  | smovp (d : Reg) (p : PReg)
  /-- GROW (R106). -/
  | grow (imm : BitVec 18)
  /-- SHRINK (R106). -/
  | shrink (imm : BitVec 18)
  /-- SRD (R110). -/
  | srd (d : Reg) (n : SpecReg)
  /-- SWR (R110). -/
  | swr (a : Reg) (n : SpecReg)
  /-- FFLAGS_WRITE (R110). -/
  | fflagsWrite (a : Reg)
  /-- CLAUSEST_WRITE (R54). -/
  | clausestWrite (a : Reg)
  /-- TRAPMASK_WRITE (R384). -/
  | trapmaskWrite (a : Reg)
  /-- ACTIVITY_MASK_WRITE (R100). -/
  | activityMaskWrite (k : Fin 3) (a : Reg)
  /-- CYCLEHI_READ (R111). -/
  | cyclehiRead (d : Reg) (clock : Bool)
  /-- TRAPBASE_WRITE (R392). -/
  | trapbaseWrite (hi : Bool) (a : Reg)
  /-- CPY (R295). -/
  | cpy (d a b : Reg) (stream : Fin 16)
  /-- MMA (R325). -/
  | mma (d a b : Reg) (stream : Fin 16)
  /-- COLL (R426). -/
  | coll (d a b : Reg) (stream : Fin 16)
  /-- TGLOAD (R298). -/
  | tgload (d a b : Reg)
  /-- SWAIT (R296). -/
  | swait (d b : Reg) (stream : Fin 16)
  /-- SPOLL (R297). -/
  | spoll (d b : Reg) (stream : Fin 16)
  /-- LDG (R224). -/
  | ldg (d a b : Reg) (la : Fin 16)
  /-- STG (R224). -/
  | stg (d a b : Reg) (la : Fin 16)
  /-- LDGS (R227). -/
  | ldgs (d a b : Reg) (la : Fin 16)
  /-- STGS (R227). -/
  | stgs (d a b : Reg) (la : Fin 16)
  /-- LDSB (R224). -/
  | ldsb (d a b : Reg) (la : Fin 16)
  /-- STSB (R224). -/
  | stsb (d a b : Reg) (la : Fin 16)
  /-- LDAB (R224). -/
  | ldab (d a b : Reg) (la : Fin 16)
  /-- STAB (R224). -/
  | stab (d a b : Reg) (la : Fin 16)
  /-- LDCB (R224). -/
  | ldcb (d a b : Reg) (la : Fin 16)
  /-- STCB (R224). -/
  | stcb (d a b : Reg) (la : Fin 16)
  /-- LDH (R213). -/
  | ldh (d a b : Reg) (la : Fin 16)
  /-- STH (R213). -/
  | sth (d a b : Reg) (la : Fin 16)
  /-- PREF (R228). -/
  | pref (l2 : Bool) (a b : Reg)
  /-- CFLUSH (R228). -/
  | cflush (a b : Reg)
  /-- CINV (R228). -/
  | cinv (a b : Reg)
  /-- AADD (R230). -/
  | aadd (d a b : Reg) (la : Fin 16)
  /-- AMIN (R230). -/
  | amin (d a b : Reg) (la : Fin 16)
  /-- AMAX (R230). -/
  | amax (d a b : Reg) (la : Fin 16)
  /-- AAND (R230). -/
  | aand (d a b : Reg) (la : Fin 16)
  /-- AOR (R230). -/
  | aor (d a b : Reg) (la : Fin 16)
  /-- AXOR (R230). -/
  | axor (d a b : Reg) (la : Fin 16)
  /-- AXCHG (R230). -/
  | axchg (d a b : Reg) (la : Fin 16)
  /-- ACAS (R230). -/
  | acas (d a b : Reg) (la : Fin 16)
  /-- AINCW (R230). -/
  | aincw (d a b : Reg) (la : Fin 16)
  /-- AFADD (R230). -/
  | afadd (d a b : Reg) (la : Fin 16)
  /-- AFMIN (R230). -/
  | afmin (d a b : Reg) (la : Fin 16)
  /-- AFMAX (R230). -/
  | afmax (d a b : Reg) (la : Fin 16)
  /-- WAITCMP (R237). -/
  | waitcmp (d a b : Reg) (c : WCond)
  /-- WAITCMP_RECHECK (R237). -/
  | waitcmpRecheck (w : WarpKey) (sp : Fin 4)
  /-- MONITOR_REPOLL (R239). -/
  | monitorRepoll (w : WarpKey) (sp : Fin 4)
  /-- REDUCTION_PERFORM (R235). -/
  | reductionPerform (w : WarpKey)
  /-- LONG_COMPLETE (R58). -/
  | longComplete (w : WarpKey)
  /-- COW_SERVICE (R195). -/
  | cowService (id : Nat)
  /-- POOL_REPLAY (R196). -/
  | poolReplay (id : Nat)
  /-- TRAP_ENTRY (R383). -/
  | trapEntry (w : WarpKey)
  /-- WORKGROUP_PLACE (R31). -/
  | workgroupPlace (l : LaunchKey) (core : Nat) (halves : BitVec 12)
  /-- CLUSTER_PLACE (R32). -/
  | clusterPlace (l : LaunchKey) (coreCluster : Nat) (cores : List Nat) (halves : List (BitVec 12))
  /-- SWAP_OUT (R44). -/
  | swapOut (g : WgKey)
  /-- QUANTUM_COMMIT (R354). -/
  | quantumCommit (ctx : Nat)
  /-- ENGINE_COMMAND_START (R289). -/
  | engineCommandStart (g : WgKey) (stream : Fin 16)
  /-- COPY_CHUNK (R309). -/
  | copyChunk (g : WgKey) (stream : Fin 16)
  /-- MMA_CHUNK_COMMIT (R328). -/
  | mmaChunkCommit (g : WgKey) (stream : Fin 16)
  /-- ENGINE_COMMAND_COMPLETE (R289). -/
  | engineCommandComplete (g : WgKey) (stream : Fin 16)
  /-- COLL_INSTANCE_COMPLETE (R427). -/
  | collInstanceComplete (ctx : Nat) (group : Nat) (tag : Word)
  /-- LAUNCH (R369). -/
  | launch (q : Nat)
  /-- ILAUNCH (R379). -/
  | ilaunch (q : Nat)
  /-- CALLBUF (R367). -/
  | callbuf (q : Nat)
  /-- RETBUF (R367). -/
  | retbuf (q : Nat)
  /-- JOIN (R368). -/
  | join (q : Nat)
  /-- SIGNAL (R369). -/
  | signal (q : Nat)
  /-- WAITVAL (R369). -/
  | waitval (q : Nat)
  /-- WAITVAL_SATISFIED (R369). -/
  | waitvalSatisfied (q : Nat)
  /-- PROGRAM (R377). -/
  | program (q : Nat)
  /-- MARK (R369). -/
  | mark (q : Nat)
  /-- LOOKAHEAD_READ (R367). -/
  | lookaheadRead (q : Nat)
  /-- QP_DONE (R376). -/
  | qpDone (q : Nat)
  /-- QP_CANCEL (R376). -/
  | qpCancel (q : Nat)
  /-- QP_REPEAT (R379). -/
  | qpRepeat (q : Nat)
  /-- QP_MOVI (R376). -/
  | qpMovi (q : Nat) (d : KReg) (imm : BitVec 32)
  /-- QP_LUI (R376). -/
  | qpLui (q : Nat) (d : KReg) (imm : BitVec 32)
  /-- QP_MOV (R376). -/
  | qpMov (q : Nat) (d a : KReg)
  /-- QP_ADD (R376). -/
  | qpAdd (q : Nat) (d a b : KReg)
  /-- QP_SUB (R376). -/
  | qpSub (q : Nat) (d a b : KReg)
  /-- QP_MUL (R376). -/
  | qpMul (q : Nat) (d a b : KReg)
  /-- QP_AND (R376). -/
  | qpAnd (q : Nat) (d a b : KReg)
  /-- QP_OR (R376). -/
  | qpOr (q : Nat) (d a b : KReg)
  /-- QP_XOR (R376). -/
  | qpXor (q : Nat) (d a b : KReg)
  /-- QP_SHL (R376). -/
  | qpShl (q : Nat) (d a b : KReg)
  /-- QP_SHR (R376). -/
  | qpShr (q : Nat) (d a b : KReg)
  /-- QP_ADDI (R376). -/
  | qpAddi (q : Nat) (d a : KReg) (imm : BitVec 32)
  /-- QP_DIVU (R376). -/
  | qpDivu (q : Nat) (d a b : KReg)
  /-- QP_REMU (R376). -/
  | qpRemu (q : Nat) (d a b : KReg)
  /-- QP_MINU (R376). -/
  | qpMinu (q : Nat) (d a b : KReg)
  /-- QP_MAXU (R376). -/
  | qpMaxu (q : Nat) (d a b : KReg)
  /-- QP_LD64 (R376). -/
  | qpLd64 (q : Nat) (d a : KReg) (win : Fin 4) (imm : BitVec 32)
  /-- QP_LD32 (R376). -/
  | qpLd32 (q : Nat) (d a : KReg) (win : Fin 4) (imm : BitVec 32)
  /-- QP_ST64 (R376). -/
  | qpSt64 (q : Nat) (d a : KReg) (win : Fin 4) (imm : BitVec 32)
  /-- QP_ST32 (R376). -/
  | qpSt32 (q : Nat) (d a : KReg) (win : Fin 4) (imm : BitVec 32)
  /-- QP_HWR (R376). -/
  | qpHwr (q : Nat) (a : KReg) (off : BitVec 8) (size : Fin 4)
  /-- QP_HRD (R376). -/
  | qpHrd (q : Nat) (d : KReg) (off : BitVec 8) (size : Fin 4)
  /-- QP_RPT (R376). -/
  | qpRpt (q : Nat) (d : KReg)
  /-- QP_BEQ (R376). -/
  | qpBeq (q : Nat) (a b : KReg) (imm : BitVec 32)
  /-- QP_BNE (R376). -/
  | qpBne (q : Nat) (a b : KReg) (imm : BitVec 32)
  /-- QP_BLTU (R376). -/
  | qpBltu (q : Nat) (a b : KReg) (imm : BitVec 32)
  /-- QP_LOOP (R376). -/
  | qpLoop (q : Nat) (d : KReg) (imm : BitVec 32)
  /-- QP_ARG (R376). -/
  | qpArg (q : Nat) (d : KReg) (k : Fin 8)
  /-- QP_NOP (R376). -/
  | qpNop (q : Nat)
  /-- CREATE (R419). -/
  | create (record : Nat)
  /-- DESTROY (R423). -/
  | destroy (ctx : Nat)
  /-- QUEUE (R362). -/
  | queue (ctx q : Nat) (desc : Nat)
  /-- PREEMPT (R394). -/
  | preempt (ctx : Nat) (save : Nat)
  /-- PLANT (R408). -/
  | plant (ctx : Nat) (image : Nat)
  /-- ANSWER (R191). -/
  | answer (id : Nat) (ctx : Nat) (deliver : Bool)
  /-- KEYLOAD (R421): the key slot, the wrapped key's address, and the quadword after the two operands, which a
  well-formed command leaves zero (R3, R418; log entry 92). -/
  | keyload (slot : Nat) (key : Nat) (unused : Nat)
  /-- ATTEST (R422). -/
  | attest (nonce : DWord) (report : Nat)
  /-- GROUP (R427). -/
  | group (ctx group : Nat) (record : Nat)
  /-- SCRUB_COMPLETE (R423). -/
  | scrubComplete
  /-- HOST_ACCESS (R258). -/
  | hostAccess (a : HostAccess)
  /-- PEER_ACCESS (R425). -/
  | peerAccess (peer : Nat) (a : PeerAccess)
  /-- LINK_DROP (R425). -/
  | linkDrop (peer : Nat)
  /-- RESET (R431). -/
  | reset
  /-- QUEUE_RESTART (R374). -/
  | queueRestart (q : Nat)
  /-- QUEUE_DESTROY (R361). -/
  | queueDestroy (q : Nat)
  /-- NOP (R176). -/
  | nop
  /-- EXIT (R174). -/
  | exit
  /-- TRET (R389). -/
  | tret
  /-- YIELD (R176). -/
  | yield
  /-- BKPT (R391). -/
  | bkpt
  /-- ICINV (R393). -/
  | icinv
  /-- CBAR (R340). -/
  | cbar
deriving DecidableEq, Repr

end Sys2Proof
end

