-- ==== Sys2Proof/WellFormed.lean ====
section
/-! DEFINITION. The limits that R48 and the forms' own rules set on register and immediate fields, whatever the
state: a word that breaks one is UNDEF (R65). -/

namespace Sys2Proof

/-- A field that names a pair is even (R48). -/
def Reg.isPair (r : Reg) : Bool := r.val % 2 == 0
/-- A field that names a quad is a multiple of 4 (R48). -/
def Reg.isQuad (r : Reg) : Bool := r.val % 4 == 0
/-- A field that names three scalars is at most 125 (R48). -/
def Reg.isTriple (r : Reg) : Bool := decide (r.val ≤ 125)
/-- GROW and SHRINK counts: a multiple of 8 from 8 to 120 (R106). -/
def countOk (imm : BitVec 18) : Bool := imm.toNat % 8 == 0 && decide (8 ≤ imm.toNat) && decide (imm.toNat ≤ 120)
/-- Registers that SWR may write (R109, R110). -/
def SpecReg.writable : SpecReg → Bool
  | .rctr | .rctrhi | .fflags | .clausest | .rngstream | .trappc | .trappchi | .trapmask | .barcount => true
  | _ => false
/-- Registers that SWRP may write (R392). -/
def PrivReg.writable : PrivReg → Bool
  | .trapbase | .trapbasehi => true
  | _ => false
/-- The bits category of R51. -/
def Ty.isBits : Ty → Bool
  | .b8 | .b16 | .b32 | .b64 | .b128 => true
  | _ => false

/-- Well-formedness of an instruction (R48, R65, R106, R110, R115, R120, R251, R293, R392). Steps without a word
carry no encoding; UNDEF is the step of a word that is no instruction. -/
def Instr.wf : Instr → Bool
  | .brx a | .ret a => a.isPair
  | .call d _ => d.isPair
  | .callx d a => d.isPair && a.isPair
  | .sadd64 d a b | .ssub64 d a b => d.isPair && a.isPair && b.isPair
  | .sshli _ _ imm | .sshri _ _ imm | .ssari _ _ imm => decide (imm.toNat < 32)
  | .vshli _ _ imm | .vshri _ _ imm | .vsari _ _ imm => decide (imm.toNat < 64)
  | .tlbinv a _ => a.isPair
  | .swrp _ n => n.writable
  | .vlea d a _ => d.isPair && a.isPair
  | .cvt _ _ ty _ => !ty.isBits
  | .xmadd _ _ b _ | .xmmin _ _ b _ | .xmmax _ _ b _ | .xmor _ _ b _ => b.isTriple
  | .xballot d _ _ => d.isTriple
  | .lkacq _ a _ | .lktry _ a _ | .lkup _ a _ | .lkdown _ a _ => a.isPair
  | .lkrel _ a | .lkstat _ a | .lktab _ a => a.isPair
  | .fence p q => p != 0 && q != 0
  | .hmake _ a _ => a.isPair
  | .hquery d _ => d.isTriple
  | .pmovs _ a => a.isTriple
  | .smovp d _ => d.isTriple
  | .grow imm | .shrink imm => countOk imm
  | .swr _ n => n.writable
  | .cpy _ a _ _ | .mma _ a _ _ | .coll _ a _ _ => a.isPair
  | .tgload _ a _ => a.isPair
  | .spoll d b _ => d != b || d == 0
  | .ldg _ _ b _ | .stg _ _ b _ | .ldgs _ _ b _ | .stgs _ _ b _ => b.isPair
  | .ldsb _ _ b _ | .stsb _ _ b _ | .ldab _ _ b _ | .stab _ _ b _ => b.isPair
  | .ldcb _ _ b _ | .stcb _ _ b _ | .ldh _ _ b _ | .sth _ _ b _ => b.isPair
  | .pref _ _ b => b.isPair
  | .cflush _ b | .cinv _ b => b.isPair
  | .aadd _ _ b _ | .amin _ _ b _ | .amax _ _ b _ | .aand _ _ b _ | .aor _ _ b _ | .axor _ _ b _ => b.isPair
  | .axchg _ _ b _ | .acas _ _ b _ | .aincw _ _ b _ | .afadd _ _ b _ | .afmin _ _ b _ | .afmax _ _ b _ => b.isPair
  | .waitcmp _ _ b _ => b.isPair
  | .undef _ => false
  | _ => true

end Sys2Proof
end

