-- ==== Sys2Proof/Decode.lean ====
section
/-! DEFINITION. Decoding a 32-bit instruction word (R47 to R51, R62 to R65) and the encoder written from the same
tables. Every word that the opcode map does not assign is rejected by name (R65). -/

namespace Sys2Proof

/-- Why a word is UNDEF (R65). -/
inductive DecodeError where
  /-- Opcode 0x00 or a reserved opcode. -/
  | reservedOpcode
  /-- A minor, condition or operation code that R63 does not list. -/
  | badMinor
  /-- A code of a field that its table calls UNDEF. -/
  | badCode
  /-- A nonzero reserved field or bit. -/
  | reservedField
  /-- A register or immediate field that breaks R48 or its own limits. -/
  | badRegister
deriving DecidableEq, Repr

/-! Fields of the formats of R47. -/

def fOp (w : Word) : BitVec 7 := w.extractLsb' 25 7
def fD (w : Word) : Reg := (w.extractLsb' 18 7).toFin
def fA (w : Word) : Reg := (w.extractLsb' 11 7).toFin
def fB (w : Word) : Reg := (w.extractLsb' 4 7).toFin
def fX (w : Word) : Fin 16 := (w.extractLsb' 0 4).toFin
def fImm11 (w : Word) : BitVec 11 := w.extractLsb' 0 11
def fImm18 (w : Word) : BitVec 18 := w.extractLsb' 0 18
def fImm25 (w : Word) : BitVec 25 := w.extractLsb' 0 25

def packRRR (op : BitVec 7) (d a b : Reg) (x : Fin 16) : Word :=
  op ++ (BitVec.ofFin d : BitVec 7) ++ (BitVec.ofFin a : BitVec 7) ++ (BitVec.ofFin b : BitVec 7) ++
    (BitVec.ofFin x : BitVec 4)
def packRRI (op : BitVec 7) (d a : Reg) (imm : BitVec 11) : Word :=
  op ++ (BitVec.ofFin d : BitVec 7) ++ (BitVec.ofFin a : BitVec 7) ++ imm
def packRI (op : BitVec 7) (d : Reg) (imm : BitVec 18) : Word :=
  op ++ (BitVec.ofFin d : BitVec 7) ++ imm
def packJ (op : BitVec 7) (imm : BitVec 25) : Word := op ++ imm

/-! Codes of the named fields. -/

def Ty.code : Ty → Nat
  | .i8x4 => 0 | .n8x4 => 1 | .i16x2 => 2 | .n16x2 => 3 | .i32 => 4 | .n32 => 5 | .i64 => 6 | .n64 => 7
  | .b8 => 8 | .b16 => 9 | .b32 => 10 | .b64 => 11 | .b128 => 12
  | .f16x2 => 13 | .bf16x2 => 14 | .f32 => 15 | .f64 => 16 | .e4m3x4 => 17 | .e5m2x4 => 18
/-- R51; codes 19 upwards are UNDEF. -/
def Ty.ofCode : Nat → Option Ty
  | 0 => some .i8x4 | 1 => some .n8x4 | 2 => some .i16x2 | 3 => some .n16x2 | 4 => some .i32 | 5 => some .n32
  | 6 => some .i64 | 7 => some .n64 | 8 => some .b8 | 9 => some .b16 | 10 => some .b32 | 11 => some .b64
  | 12 => some .b128 | 13 => some .f16x2 | 14 => some .bf16x2 | 15 => some .f32 | 16 => some .f64
  | 17 => some .e4m3x4 | 18 => some .e5m2x4 | _ => none
def Rm.code : Rm → Nat
  | .dflt => 0 | .rne => 1 | .rtz => 2 | .rup => 3 | .rdn => 4 | .rna => 5 | .sr => 6
/-- R63; code 7 is UNDEF and x[3] is reserved. -/
def Rm.ofCode : Nat → Option Rm
  | 0 => some .dflt | 1 => some .rne | 2 => some .rtz | 3 => some .rup | 4 => some .rdn | 5 => some .rna
  | 6 => some .sr | _ => none
def GroupCode.code : GroupCode → Nat
  | .g96 => 0 | .g48 => 1 | .g32 => 2 | .g16 => 3 | .g8 => 4 | .g4 => 5
def GroupCode.ofCode : Nat → Option GroupCode
  | 0 => some .g96 | 1 => some .g48 | 2 => some .g32 | 3 => some .g16 | 4 => some .g8 | 5 => some .g4 | _ => none
def Scope.code : Scope → Nat
  | .thread => 0 | .warp => 1 | .group => 2 | .core => 3 | .cluster => 4 | .die => 5 | .device => 6 | .host => 7
  | .peer => 8 | .system => 9
def Scope.ofCode : Nat → Option Scope
  | 0 => some .thread | 1 => some .warp | 2 => some .group | 3 => some .core | 4 => some .cluster | 5 => some .die
  | 6 => some .device | 7 => some .host | 8 => some .peer | 9 => some .system | _ => none
def Ordering4.code : Ordering4 → Nat
  | .relaxed => 0 | .acquire => 1 | .release => 2 | .acqRel => 3
def Ordering4.ofCode : Nat → Option Ordering4
  | 0 => some .relaxed | 1 => some .acquire | 2 => some .release | 3 => some .acqRel | _ => none
def SCond.code : SCond → Nat
  | .eq => 0 | .ne => 1 | .lt => 2 | .le => 3 | .ltn => 4 | .len => 5
def SCond.ofCode : Nat → Option SCond
  | 0 => some .eq | 1 => some .ne | 2 => some .lt | 3 => some .le | 4 => some .ltn | 5 => some .len | _ => none
def VCond.code : VCond → Nat
  | .eq => 0 | .ne => 1 | .lt => 2 | .le => 3 | .gt => 4 | .ge => 5
def VCond.ofCode : Nat → Option VCond
  | 0 => some .eq | 1 => some .ne | 2 => some .lt | 3 => some .le | 4 => some .gt | 5 => some .ge | _ => none
def FCond.code : FCond → Nat
  | .eq => 0 | .ne => 1 | .lt => 2 | .le => 3 | .gt => 4 | .ge => 5 | .un => 6 | .ord => 7
def FCond.ofCode : Nat → Option FCond
  | 0 => some .eq | 1 => some .ne | 2 => some .lt | 3 => some .le | 4 => some .gt | 5 => some .ge | 6 => some .un
  | 7 => some .ord | _ => none
def WCond.code : WCond → Nat
  | .eq => 0 | .ne => 1 | .geu => 2 | .ltu => 3 | .ges => 4 | .lts => 5
def WCond.ofCode : Nat → Option WCond
  | 0 => some .eq | 1 => some .ne | 2 => some .geu | 3 => some .ltu | 4 => some .ges | 5 => some .lts | _ => none
def XOp.code : XOp → Nat
  | .add => 0 | .min => 1 | .max => 2 | .and => 3 | .or => 4 | .xor => 5
def XOp.ofCode : Nat → Option XOp
  | 0 => some .add | 1 => some .min | 2 => some .max | 3 => some .and | 4 => some .or | 5 => some .xor | _ => none
def LkMode.code : LkMode → Nat
  | .nl => 0 | .is => 1 | .ix => 2 | .s => 3 | .six => 4 | .i => 5 | .x => 6
/-- R63; mode 7 and a nonzero b[6:3] are UNDEF (R274). -/
def LkMode.ofCode : Nat → Option LkMode
  | 0 => some .nl | 1 => some .is | 2 => some .ix | 3 => some .s | 4 => some .six | 5 => some .i | 6 => some .x
  | _ => none
def Buf.code : Buf → Nat
  | .sb => 0 | .ab => 1 | .cb => 2 | .wb => 3
def Buf.ofCode : Nat → Option Buf
  | 0 => some .sb | 1 => some .ab | 2 => some .cb | 3 => some .wb | _ => none
def PrivReg.code : PrivReg → Nat
  | .ctxnum => 0 | .trapbase => 1 | .trapbasehi => 2 | .errcount => 3 | .scrubstat => 4
/-- R392; an unlisted number is UNDEF. -/
def PrivReg.ofCode : Nat → Option PrivReg
  | 0 => some .ctxnum | 1 => some .trapbase | 2 => some .trapbasehi | 3 => some .errcount | 4 => some .scrubstat
  | _ => none
/-- The number of a special register (R109). -/
def SpecReg.number : SpecReg → Nat
  | .lane => 0 | .tidx => 1 | .field k => 2 + k.val | .wid => 8 | .widhi => 9 | .rctr => 10 | .rctrhi => 11
  | .warpidx => 64 | .nwarps => 65 | .wglin => 66 | .wglinhi => 67 | .clrank => 68 | .clsize => 69 | .allot => 70
  | .fflags => 71 | .clausest => 72 | .cycle => 73 | .cyclehi => 74 | .lclock => 75 | .lclockhi => 76
  | .rngseed => 77 | .rngseedhi => 78 | .rngstream => 79 | .trapcause => 80 | .trappc => 81 | .trappchi => 82
  | .trapaddr => 83 | .trapaddrhi => 84 | .trapmask => 85 | .splitid => 86 | .nsplits => 87 | .lklast => 88
  | .age => 89 | .agehi => 90 | .barcount => 91 | .agex => 92 | .trapli => 93 | .traplihi => 94
/-- The register a number names; an unassigned number is UNDEF (R109, R110). -/
def SpecReg.ofNumber : Nat → Option SpecReg
  | 0 => some .lane | 1 => some .tidx | 2 => some (.field 0) | 3 => some (.field 1) | 4 => some (.field 2)
  | 5 => some (.field 3) | 6 => some (.field 4) | 7 => some (.field 5) | 8 => some .wid | 9 => some .widhi
  | 10 => some .rctr | 11 => some .rctrhi
  | 64 => some .warpidx | 65 => some .nwarps | 66 => some .wglin | 67 => some .wglinhi | 68 => some .clrank
  | 69 => some .clsize | 70 => some .allot | 71 => some .fflags | 72 => some .clausest | 73 => some .cycle
  | 74 => some .cyclehi | 75 => some .lclock | 76 => some .lclockhi | 77 => some .rngseed | 78 => some .rngseedhi
  | 79 => some .rngstream | 80 => some .trapcause | 81 => some .trappc | 82 => some .trappchi | 83 => some .trapaddr
  | 84 => some .trapaddrhi | 85 => some .trapmask | 86 => some .splitid | 87 => some .nsplits | 88 => some .lklast
  | 89 => some .age | 90 => some .agehi | 91 => some .barcount | 92 => some .agex | 93 => some .trapli
  | 94 => some .traplihi | _ => none

/-! Slots of a word that hold something narrower than a register number. -/

def finSlot {k : Nat} (v : Fin k) : Reg := Fin.ofNat 128 v.val
def codeSlot (n : Nat) : Reg := Fin.ofNat 128 n
def codeX (n : Nat) : Fin 16 := Fin.ofNat 16 n
def maskSlot (m : BitVec 6) : Reg := Fin.ofNat 128 m.toNat
def boolSlot (b : Bool) : Reg := if b then 1 else 0
/-- A predicate with its negation in bit 3 (R48). -/
def predNegSlot (neg : Bool) (p : PReg) : Reg := Fin.ofNat 128 (p.val + if neg then 8 else 0)
def predNegX (neg : Bool) (p : PReg) : Fin 16 := Fin.ofNat 16 (p.val + if neg then 8 else 0)

abbrev Decoded := Except DecodeError Instr

def zero {n : Nat} (r : Fin n) (k : Decoded) : Decoded := if r.val = 0 then k else .error .reservedField
def asFin {n : Nat} (m : Nat) (r : Fin n) (k : Fin m → Decoded) : Decoded :=
  if h : r.val < m then k ⟨r.val, h⟩ else .error .reservedField
def asMask (r : Reg) (k : BitVec 6 → Decoded) : Decoded :=
  if r.val < 64 then k (BitVec.ofNat 6 r.val) else .error .reservedField
def asBool (r : Reg) (k : Bool → Decoded) : Decoded :=
  if r.val < 2 then k (r.val == 1) else .error .reservedField
def asPredNeg (r : Reg) (k : Bool → PReg → Decoded) : Decoded :=
  if r.val < 16 then k (8 ≤ r.val) (Fin.ofNat 8 r.val) else .error .reservedField
def asPredNegX (r : Fin 16) (k : Bool → PReg → Decoded) : Decoded := k (8 ≤ r.val) (Fin.ofNat 8 r.val)
def asCode {α : Type} (f : Nat → Option α) (n : Nat) (k : α → Decoded) : Decoded :=
  match f n with
  | some a => k a
  | none => .error .badCode

/-- CLAUSE's word (R50). -/
def packClause (c : ClauseWord) : Word :=
  0x02#7 ++ (BitVec.ofFin c.count : BitVec 4) ++ BitVec.ofBool c.neg ++ (BitVec.ofFin c.guard : BitVec 3) ++
    BitVec.ofNat 5 c.ty.code ++ BitVec.ofNat 3 c.rm.code ++ BitVec.ofNat 3 c.grp.code ++
    BitVec.ofNat 4 c.scope.code ++ BitVec.ofNat 2 c.ord.code

def decodeClause (w : Word) : Decoded :=
  asCode Ty.ofCode (w.extractLsb' 12 5).toNat fun ty =>
  asCode Rm.ofCode (w.extractLsb' 9 3).toNat fun rm =>
  asCode GroupCode.ofCode (w.extractLsb' 6 3).toNat fun grp =>
  asCode Scope.ofCode (w.extractLsb' 2 4).toNat fun scope =>
  asCode Ordering4.ofCode (w.extractLsb' 0 2).toNat fun ord =>
  .ok (.clause ⟨(w.extractLsb' 21 4).toFin, w.getLsbD 20, (w.extractLsb' 17 3).toFin, ty, rm, grp, scope, ord⟩)

/-- The fields of a word by the opcode map of R62 and R63, before the limits of R48 are checked. -/
def decodeFields (w : Word) : Decoded :=
  match (fOp w).toNat with
  | 0x02 => decodeClause w
  | 0x01 => zero (fD w) <| zero (fA w) <| zero (fB w) <| zero (fX w) <| .ok .nop
  | 0x03 => .ok (.bra (fImm25 w))
  | 0x04 => .ok (.brnz (fD w) (fImm18 w))
  | 0x05 => .ok (.brz (fD w) (fImm18 w))
  | 0x06 => asPredNeg (fD w) fun neg p => .ok (.brv neg p (fImm18 w))
  | 0x07 => zero (fD w) <| zero (fB w) <| zero (fX w) <| .ok (.brx (fA w))
  | 0x08 => .ok (.call (fD w) (fImm18 w))
  | 0x09 => zero (fB w) <| zero (fX w) <| .ok (.callx (fD w) (fA w))
  | 0x0A => zero (fD w) <| zero (fB w) <| zero (fX w) <| .ok (.ret (fA w))
  | 0x0B => zero (fD w) <| zero (fA w) <| zero (fB w) <| zero (fX w) <| .ok .exit
  | 0x0C => zero (fD w) <| .ok (.trap (fImm18 w))
  | 0x0D => zero (fD w) <| zero (fA w) <| zero (fB w) <| zero (fX w) <| .ok .tret
  | 0x0E => zero (fD w) <| zero (fA w) <| zero (fB w) <| zero (fX w) <| .ok .yield
  | 0x0F => zero (fD w) <| .ok (.sleep (fImm18 w))
  | 0x10 => match (fX w).val with
    | 0 => .ok (.sadd (fD w) (fA w) (fB w))
    | 1 => .ok (.ssub (fD w) (fA w) (fB w))
    | 2 => .ok (.smul (fD w) (fA w) (fB w))
    | 3 => .ok (.smulhi (fD w) (fA w) (fB w))
    | 4 => .ok (.smulhin (fD w) (fA w) (fB w))
    | 5 => .ok (.sand (fD w) (fA w) (fB w))
    | 6 => .ok (.sor (fD w) (fA w) (fB w))
    | 7 => .ok (.sxor (fD w) (fA w) (fB w))
    | 8 => .ok (.sshl (fD w) (fA w) (fB w))
    | 9 => .ok (.sshr (fD w) (fA w) (fB w))
    | 10 => .ok (.ssar (fD w) (fA w) (fB w))
    | 11 => .ok (.smin (fD w) (fA w) (fB w))
    | 12 => .ok (.smax (fD w) (fA w) (fB w))
    | 13 => .ok (.sminn (fD w) (fA w) (fB w))
    | 14 => .ok (.smaxn (fD w) (fA w) (fB w))
    | 15 => .ok (.sandn (fD w) (fA w) (fB w))
    | _ => .error .badMinor
  | 0x11 => .ok (.saddi (fD w) (fA w) (fImm11 w))
  | 0x12 => .ok (.sandi (fD w) (fA w) (fImm11 w))
  | 0x13 => .ok (.sori (fD w) (fA w) (fImm11 w))
  | 0x14 => .ok (.sxori (fD w) (fA w) (fImm11 w))
  | 0x15 => .ok (.sshli (fD w) (fA w) (fImm11 w))
  | 0x16 => .ok (.sshri (fD w) (fA w) (fImm11 w))
  | 0x17 => .ok (.ssari (fD w) (fA w) (fImm11 w))
  | 0x18 => .ok (.smovi (fD w) (fImm18 w))
  | 0x19 => .ok (.slui (fD w) (fImm18 w))
  | 0x1A => asCode SCond.ofCode (fX w).val fun c => .ok (.scmp (fD w) (fA w) (fB w) c)
  | 0x1B => zero (fX w) <| .ok (.ssel (fD w) (fA w) (fB w))
  | 0x1C => match (fX w).val with
    | 0 => zero (fB w) <| .ok (.spopc (fD w) (fA w))
    | 1 => zero (fB w) <| .ok (.sclz (fD w) (fA w))
    | 2 => zero (fB w) <| .ok (.sctz (fD w) (fA w))
    | 3 => zero (fB w) <| .ok (.sbrev (fD w) (fA w))
    | 4 => .ok (.sbfe (fD w) (fA w) (fB w))
    | 5 => .ok (.sbfi (fD w) (fA w) (fB w))
    | 6 => .ok (.sadd64 (fD w) (fA w) (fB w))
    | 7 => .ok (.ssub64 (fD w) (fA w) (fB w))
    | _ => .error .badMinor
  | 0x1D => zero (fB w) <| zero (fX w) <| .ok (.smov (fD w) (fA w))
  | 0x1E => match (fX w).val with
    | 0 => zero (fD w) <| .ok (.tlbinv (fA w) (fB w))
    | 1 => zero (fA w) <| asCode PrivReg.ofCode (fB w).val fun n => .ok (.srdp (fD w) n)
    | 2 => zero (fD w) <| asCode PrivReg.ofCode (fB w).val fun n => .ok (.swrp (fA w) n)
    | 3 => zero (fD w) <| zero (fA w) <| zero (fB w) <| .ok .bkpt
    | 4 => zero (fD w) <| zero (fA w) <| zero (fB w) <| .ok .icinv
    | _ => .error .badMinor
  | 0x20 => match (fX w).val with
    | 0 => .ok (.vadd (fD w) (fA w) (fB w))
    | 1 => .ok (.vsub (fD w) (fA w) (fB w))
    | 2 => .ok (.vmul (fD w) (fA w) (fB w))
    | 3 => .ok (.vmulhi (fD w) (fA w) (fB w))
    | 4 => .ok (.vand (fD w) (fA w) (fB w))
    | 5 => .ok (.vor (fD w) (fA w) (fB w))
    | 6 => .ok (.vxor (fD w) (fA w) (fB w))
    | 7 => .ok (.vandn (fD w) (fA w) (fB w))
    | 8 => .ok (.vshl (fD w) (fA w) (fB w))
    | 9 => .ok (.vshr (fD w) (fA w) (fB w))
    | 10 => .ok (.vsar (fD w) (fA w) (fB w))
    | 11 => .ok (.vmin (fD w) (fA w) (fB w))
    | 12 => .ok (.vmax (fD w) (fA w) (fB w))
    | 13 => .ok (.vaddsat (fD w) (fA w) (fB w))
    | 14 => .ok (.vsubsat (fD w) (fA w) (fB w))
    | 15 => .ok (.vabsd (fD w) (fA w) (fB w))
    | _ => .error .badMinor
  | 0x21 => match (fX w).val with
    | 0 => .ok (.vaddScalar (fD w) (fA w) (fB w))
    | 1 => .ok (.vsubScalar (fD w) (fA w) (fB w))
    | 2 => .ok (.vmulScalar (fD w) (fA w) (fB w))
    | 3 => .ok (.vmulhiScalar (fD w) (fA w) (fB w))
    | 4 => .ok (.vandScalar (fD w) (fA w) (fB w))
    | 5 => .ok (.vorScalar (fD w) (fA w) (fB w))
    | 6 => .ok (.vxorScalar (fD w) (fA w) (fB w))
    | 7 => .ok (.vandnScalar (fD w) (fA w) (fB w))
    | 8 => .ok (.vshlScalar (fD w) (fA w) (fB w))
    | 9 => .ok (.vshrScalar (fD w) (fA w) (fB w))
    | 10 => .ok (.vsarScalar (fD w) (fA w) (fB w))
    | 11 => .ok (.vminScalar (fD w) (fA w) (fB w))
    | 12 => .ok (.vmaxScalar (fD w) (fA w) (fB w))
    | 13 => .ok (.vaddsatScalar (fD w) (fA w) (fB w))
    | 14 => .ok (.vsubsatScalar (fD w) (fA w) (fB w))
    | 15 => .ok (.vabsdScalar (fD w) (fA w) (fB w))
    | _ => .error .badMinor
  | 0x22 => match (fX w).val with
    | 0 => .ok (.vmad (fD w) (fA w) (fB w))
    | 1 => .ok (.vmadhi (fD w) (fA w) (fB w))
    | _ => .error .badMinor
  | 0x23 => zero (fX w) <| .ok (.vdot4 (fD w) (fA w) (fB w))
  | 0x24 => asFin 8 (fD w) fun p => asCode VCond.ofCode (fX w).val fun c => .ok (.vcmp p (fA w) (fB w) c)
  | 0x25 => asPredNegX (fX w) fun neg p => .ok (.vsel (fD w) (fA w) (fB w) neg p)
  | 0x26 => match (fX w).val with
    | 0 => zero (fB w) <| .ok (.vpopc (fD w) (fA w))
    | 1 => zero (fB w) <| .ok (.vclz (fD w) (fA w))
    | 2 => zero (fB w) <| .ok (.vctz (fD w) (fA w))
    | 3 => zero (fB w) <| .ok (.vbrev (fD w) (fA w))
    | 4 => .ok (.vbfe (fD w) (fA w) (fB w))
    | 5 => .ok (.vbfi (fD w) (fA w) (fB w))
    | 6 => .ok (.vpermb (fD w) (fA w) (fB w))
    | 7 => zero (fB w) <| .ok (.vnot (fD w) (fA w))
    | 8 => zero (fB w) <| .ok (.vneg (fD w) (fA w))
    | 9 => zero (fB w) <| .ok (.vabs (fD w) (fA w))
    | 10 => .ok (.vaddc (fD w) (fA w) (fB w))
    | 11 => .ok (.vsubb (fD w) (fA w) (fB w))
    | 12 => .ok (.vlea (fD w) (fA w) (fB w))
    | 13 => asFin 4 (fB w) fun k => .ok (.vsext (fD w) (fA w) k)
    | 14 => asFin 4 (fB w) fun k => .ok (.vzext (fD w) (fA w) k)
    | _ => .error .badMinor
  | 0x27 => .ok (.vaddi (fD w) (fA w) (fImm11 w))
  | 0x28 => .ok (.vandi (fD w) (fA w) (fImm11 w))
  | 0x29 => .ok (.vori (fD w) (fA w) (fImm11 w))
  | 0x2A => .ok (.vshli (fD w) (fA w) (fImm11 w))
  | 0x2B => .ok (.vshri (fD w) (fA w) (fImm11 w))
  | 0x2C => .ok (.vsari (fD w) (fA w) (fImm11 w))
  | 0x2D => .ok (.vmovi (fD w) (fImm18 w))
  | 0x2E => .ok (.vdiv (fD w) (fA w) (fB w) (fX w))
  | 0x2F => .ok (.vrem (fD w) (fA w) (fB w) (fX w))
  | 0x30 => asCode Rm.ofCode (fX w).val fun rm => .ok (.fadd (fD w) (fA w) (fB w) rm)
  | 0x31 => asCode Rm.ofCode (fX w).val fun rm => .ok (.fsub (fD w) (fA w) (fB w) rm)
  | 0x32 => asCode Rm.ofCode (fX w).val fun rm => .ok (.fmul (fD w) (fA w) (fB w) rm)
  | 0x33 => asCode Rm.ofCode (fX w).val fun rm => .ok (.ffma (fD w) (fA w) (fB w) rm)
  | 0x34 => asCode Rm.ofCode (fX w).val fun rm => .ok (.ffms (fD w) (fA w) (fB w) rm)
  | 0x35 => asCode Rm.ofCode (fX w).val fun rm => .ok (.fnfma (fD w) (fA w) (fB w) rm)
  | 0x36 => match (fX w).val with
    | 0 => .ok (.fmin (fD w) (fA w) (fB w))
    | 1 => .ok (.fmax (fD w) (fA w) (fB w))
    | 2 => .ok (.fminnum (fD w) (fA w) (fB w))
    | 3 => .ok (.fmaxnum (fD w) (fA w) (fB w))
    | 4 => .ok (.fsgnj (fD w) (fA w) (fB w))
    | 5 => .ok (.fsgnjn (fD w) (fA w) (fB w))
    | 6 => zero (fB w) <| .ok (.fabs (fD w) (fA w))
    | 7 => zero (fB w) <| .ok (.fneg (fD w) (fA w))
    | 8 => zero (fB w) <| .ok (.fclass (fD w) (fA w))
    | 9 => .ok (.fscale (fD w) (fA w) (fB w))
    | _ => .error .badMinor
  | 0x37 => asFin 8 (fD w) fun p => asCode FCond.ofCode (fX w).val fun c => .ok (.fcmp p (fA w) (fB w) c)
  | 0x38 => asCode Rm.ofCode (fX w).val fun rm => .ok (.fdot2 (fD w) (fA w) (fB w) rm)
  | 0x39 => match (fB w).val with
    | 0 => .ok (.frcp (fD w) (fA w) (fX w))
    | 1 => .ok (.frsq (fD w) (fA w) (fX w))
    | 2 => .ok (.fsqrt (fD w) (fA w) (fX w))
    | 3 => .ok (.fexp2 (fD w) (fA w) (fX w))
    | 4 => .ok (.flog2 (fD w) (fA w) (fX w))
    | 5 => .ok (.fsin (fD w) (fA w) (fX w))
    | 6 => .ok (.fcos (fD w) (fA w) (fX w))
    | 7 => .ok (.ftanh (fD w) (fA w) (fX w))
    | _ => .error .badMinor
  | 0x3A => .ok (.fdiv (fD w) (fA w) (fB w) (fX w))
  | 0x3B => zero (fB w) <| asCode Rm.ofCode (fX w).val fun rm => .ok (.frnd (fD w) (fA w) rm)
  | 0x3C => asCode Ty.ofCode (fB w).val fun ty => asCode Rm.ofCode (fX w).val fun rm => .ok (.cvt (fD w) (fA w) ty rm)
  | 0x3D => asCode Rm.ofCode (fX w).val fun rm => .ok (.fpack (fD w) (fA w) (fB w) rm)
  | 0x3F => match (fB w).val with
    | 0 => zero (fA w) <| zero (fX w) <| .ok (.rnd (fD w))
    | 1 => zero (fA w) <| zero (fX w) <| .ok (.rndf (fD w))
    | 2 => zero (fD w) <| zero (fX w) <| .ok (.rndskip (fA w))
    | _ => .error .badMinor
  | 0x40 => .ok (.xshfl (fD w) (fA w) (fB w) (fX w))
  | 0x41 => .ok (.xrot (fD w) (fA w) (fB w) (fX w))
  | 0x42 => .ok (.xbcast (fD w) (fA w) (fB w) (fX w))
  | 0x43 => asCode XOp.ofCode (fB w).val fun op => .ok (.xreduce (fD w) (fA w) op (fX w))
  | 0x44 => asCode XOp.ofCode (fB w).val fun op => .ok (.xscani (fD w) (fA w) op (fX w))
  | 0x45 => asCode XOp.ofCode (fB w).val fun op => .ok (.xscane (fD w) (fA w) op (fX w))
  | 0x46 => .ok (.xmadd (fD w) (fA w) (fB w) (fX w))
  | 0x47 => .ok (.xmmin (fD w) (fA w) (fB w) (fX w))
  | 0x48 => .ok (.xmmax (fD w) (fA w) (fB w) (fX w))
  | 0x49 => .ok (.xmor (fD w) (fA w) (fB w) (fX w))
  | 0x4A => match (fB w).val with
    | 0 => asFin 8 (fA w) fun p => .ok (.xballot (fD w) p (fX w))
    | 1 => asFin 8 (fD w) fun q => asFin 8 (fA w) fun p => .ok (.xany q p (fX w))
    | 2 => asFin 8 (fD w) fun q => asFin 8 (fA w) fun p => .ok (.xall q p (fX w))
    | 3 => asFin 8 (fA w) fun p => .ok (.xcount (fD w) p (fX w))
    | 4 => asFin 8 (fA w) fun p => .ok (.xfirst (fD w) p (fX w))
    | _ => .error .badMinor
  | 0x4C => match (fX w).val with
    | 0 => asCode LkMode.ofCode (fB w).val fun m => .ok (.lkacq (fD w) (fA w) m)
    | 1 => asCode LkMode.ofCode (fB w).val fun m => .ok (.lktry (fD w) (fA w) m)
    | 2 => asCode LkMode.ofCode (fB w).val fun m => .ok (.lkup (fD w) (fA w) m)
    | 3 => asCode LkMode.ofCode (fB w).val fun m => .ok (.lkdown (fD w) (fA w) m)
    | 4 => zero (fB w) <| .ok (.lkrel (fD w) (fA w))
    | 5 => zero (fB w) <| .ok (.lkstat (fD w) (fA w))
    | 6 => zero (fB w) <| .ok (.lktab (fD w) (fA w))
    | _ => .error .badMinor
  | 0x4D => match (fX w).val with
    | 0 => zero (fD w) <| zero (fB w) <| asFin 16 (fA w) fun n => .ok (.bar n)
    | 1 => zero (fD w) <| zero (fB w) <| asFin 16 (fA w) fun n => .ok (.bararr n)
    | 2 => zero (fD w) <| zero (fB w) <| asFin 16 (fA w) fun n => .ok (.barwait n)
    | 3 => zero (fD w) <| zero (fA w) <| zero (fB w) <| .ok .cbar
    | 4 => zero (fB w) <| asFin 4 (fA w) fun k => .ok (.tkwait (fD w) k)
    | 5 => match (fB w).val with
      | 0 => asFin 4 (fA w) fun k => .ok (.tkpass (fD w) k)
      | 1 => asFin 4 (fA w) fun k => .ok (.tkpassPoison (fD w) k)
      | _ => .error .reservedField
    | 6 => zero (fD w) <| asMask (fA w) fun p => asMask (fB w) fun q => .ok (.fence p q)
    | _ => .error .badMinor
  | 0x4E => match (fX w).val with
    | 0 => asCode Buf.ofCode (fB w).val fun buf => .ok (.hmake (fD w) (fA w) buf)
    | 1 => .ok (.hgive (fD w) (fA w) (fB w))
    | 2 => zero (fB w) <| .ok (.htake (fD w) (fA w))
    | 3 => zero (fB w) <| .ok (.hdrop (fD w) (fA w))
    | 4 => zero (fB w) <| .ok (.hquery (fD w) (fA w))
    | _ => .error .badMinor
  | 0x50 => zero (fB w) <| zero (fX w) <| .ok (.vmov (fD w) (fA w))
  | 0x51 => zero (fB w) <| zero (fX w) <| .ok (.vmovs (fD w) (fA w))
  | 0x52 => zero (fX w) <| .ok (.vrdl (fD w) (fA w) (fB w))
  | 0x53 => zero (fX w) <| .ok (.vwrl (fD w) (fA w) (fB w))
  | 0x54 => match (fX w).val with
    | 0 => asFin 8 (fD w) fun d => asFin 8 (fA w) fun a => asFin 8 (fB w) fun b => .ok (.pand d a b)
    | 1 => asFin 8 (fD w) fun d => asFin 8 (fA w) fun a => asFin 8 (fB w) fun b => .ok (.por d a b)
    | 2 => asFin 8 (fD w) fun d => asFin 8 (fA w) fun a => asFin 8 (fB w) fun b => .ok (.pxor d a b)
    | 3 => zero (fB w) <| asFin 8 (fD w) fun d => asFin 8 (fA w) fun a => .ok (.pnot d a)
    | 4 => zero (fA w) <| zero (fB w) <| asFin 8 (fD w) fun d => .ok (.pset d)
    | 5 => zero (fA w) <| zero (fB w) <| asFin 8 (fD w) fun d => .ok (.pclr d)
    | _ => .error .badMinor
  | 0x55 => zero (fB w) <| zero (fX w) <| asFin 8 (fD w) fun p => .ok (.pmovs p (fA w))
  | 0x56 => zero (fB w) <| zero (fX w) <| asFin 8 (fA w) fun p => .ok (.smovp (fD w) p)
  | 0x57 => zero (fD w) <| .ok (.grow (fImm18 w))
  | 0x58 => zero (fD w) <| .ok (.shrink (fImm18 w))
  | 0x59 => zero (fA w) <| asCode SpecReg.ofNumber (fImm11 w).toNat fun n => .ok (.srd (fD w) n)
  | 0x5A => zero (fD w) <| asCode SpecReg.ofNumber (fImm11 w).toNat fun n => .ok (.swr (fA w) n)
  | 0x5B => .ok (.cpy (fD w) (fA w) (fB w) (fX w))
  | 0x5C => .ok (.mma (fD w) (fA w) (fB w) (fX w))
  | 0x5D => .ok (.coll (fD w) (fA w) (fB w) (fX w))
  | 0x5E => zero (fX w) <| .ok (.tgload (fD w) (fA w) (fB w))
  | 0x5F => zero (fA w) <| .ok (.swait (fD w) (fB w) (fX w))
  | 0x60 => .ok (.ldg (fD w) (fA w) (fB w) (fX w))
  | 0x61 => .ok (.stg (fD w) (fA w) (fB w) (fX w))
  | 0x62 => .ok (.ldgs (fD w) (fA w) (fB w) (fX w))
  | 0x63 => .ok (.stgs (fD w) (fA w) (fB w) (fX w))
  | 0x64 => .ok (.ldsb (fD w) (fA w) (fB w) (fX w))
  | 0x65 => .ok (.stsb (fD w) (fA w) (fB w) (fX w))
  | 0x66 => .ok (.ldab (fD w) (fA w) (fB w) (fX w))
  | 0x67 => .ok (.stab (fD w) (fA w) (fB w) (fX w))
  | 0x68 => .ok (.ldcb (fD w) (fA w) (fB w) (fX w))
  | 0x69 => .ok (.stcb (fD w) (fA w) (fB w) (fX w))
  | 0x6A => .ok (.ldh (fD w) (fA w) (fB w) (fX w))
  | 0x6B => .ok (.sth (fD w) (fA w) (fB w) (fX w))
  | 0x6C => zero (fX w) <| asBool (fD w) fun l2 => .ok (.pref l2 (fA w) (fB w))
  | 0x6D => zero (fD w) <| zero (fX w) <| .ok (.cflush (fA w) (fB w))
  | 0x6E => zero (fD w) <| zero (fX w) <| .ok (.cinv (fA w) (fB w))
  | 0x6F => zero (fA w) <| .ok (.spoll (fD w) (fB w) (fX w))
  | 0x70 => .ok (.aadd (fD w) (fA w) (fB w) (fX w))
  | 0x71 => .ok (.amin (fD w) (fA w) (fB w) (fX w))
  | 0x72 => .ok (.amax (fD w) (fA w) (fB w) (fX w))
  | 0x73 => .ok (.aand (fD w) (fA w) (fB w) (fX w))
  | 0x74 => .ok (.aor (fD w) (fA w) (fB w) (fX w))
  | 0x75 => .ok (.axor (fD w) (fA w) (fB w) (fX w))
  | 0x76 => .ok (.axchg (fD w) (fA w) (fB w) (fX w))
  | 0x77 => .ok (.acas (fD w) (fA w) (fB w) (fX w))
  | 0x78 => .ok (.aincw (fD w) (fA w) (fB w) (fX w))
  | 0x79 => .ok (.afadd (fD w) (fA w) (fB w) (fX w))
  | 0x7A => .ok (.afmin (fD w) (fA w) (fB w) (fX w))
  | 0x7B => .ok (.afmax (fD w) (fA w) (fB w) (fX w))
  | 0x7C => asCode WCond.ofCode (fX w).val fun c => .ok (.waitcmp (fD w) (fA w) (fB w) c)
  | _ => .error .reservedOpcode

/-- The instruction of a word, or why the word is UNDEF (R47, R48, R62, R63, R65). -/
def decode (w : Word) : Decoded :=
  match decodeFields w with
  | .ok i => if i.wf then .ok i else .error .badRegister
  | .error e => .error e

/-- The word that four bytes hold, the lowest address first (R47). -/
def wordOfBytes (b0 b1 b2 b3 : Byte) : Word := b3 ++ b2 ++ b1 ++ b0

/-- The instruction in the first four of a list of bytes, with the bytes after it. -/
def decodeBytes : List Byte → Option (Decoded × List Byte)
  | b0 :: b1 :: b2 :: b3 :: rest => some (decode (wordOfBytes b0 b1 b2 b3), rest)
  | _ => none

/-- The table's numbering of a word: bit 0 is the least significant bit of the first word. -/
def decodeTableWord (_nbits w : Nat) : Option Instr :=
  match decodeBytes (leBytes 4 w) with
  | some (.ok i, _) => some i
  | _ => none

/-- The word of an instruction, by the encoding tables of the spec (R47, R50, R62, R63); none for the
steps that have no word. -/
def encode : Instr → Option Word
  | .clause c => some (packClause c)
  | .nop => some (packRRR 0x01#7 0 0 0 0)
  | .bra imm => some (packJ 0x03#7 imm)
  | .brnz d imm => some (packRI 0x04#7 d imm)
  | .brz d imm => some (packRI 0x05#7 d imm)
  | .brv neg p imm => some (packRI 0x06#7 (predNegSlot neg p) imm)
  | .brx a => some (packRRR 0x07#7 0 a 0 0)
  | .call d imm => some (packRI 0x08#7 d imm)
  | .callx d a => some (packRRR 0x09#7 d a 0 0)
  | .ret a => some (packRRR 0x0A#7 0 a 0 0)
  | .exit => some (packRRR 0x0B#7 0 0 0 0)
  | .trap imm => some (packRI 0x0C#7 0 imm)
  | .tret => some (packRRR 0x0D#7 0 0 0 0)
  | .yield => some (packRRR 0x0E#7 0 0 0 0)
  | .sleep imm => some (packRI 0x0F#7 0 imm)
  | .sadd d a b => some (packRRR 0x10#7 d a b 0)
  | .ssub d a b => some (packRRR 0x10#7 d a b 1)
  | .smul d a b => some (packRRR 0x10#7 d a b 2)
  | .smulhi d a b => some (packRRR 0x10#7 d a b 3)
  | .smulhin d a b => some (packRRR 0x10#7 d a b 4)
  | .sand d a b => some (packRRR 0x10#7 d a b 5)
  | .sor d a b => some (packRRR 0x10#7 d a b 6)
  | .sxor d a b => some (packRRR 0x10#7 d a b 7)
  | .sshl d a b => some (packRRR 0x10#7 d a b 8)
  | .sshr d a b => some (packRRR 0x10#7 d a b 9)
  | .ssar d a b => some (packRRR 0x10#7 d a b 10)
  | .smin d a b => some (packRRR 0x10#7 d a b 11)
  | .smax d a b => some (packRRR 0x10#7 d a b 12)
  | .sminn d a b => some (packRRR 0x10#7 d a b 13)
  | .smaxn d a b => some (packRRR 0x10#7 d a b 14)
  | .sandn d a b => some (packRRR 0x10#7 d a b 15)
  | .saddi d a imm => some (packRRI 0x11#7 d a imm)
  | .sandi d a imm => some (packRRI 0x12#7 d a imm)
  | .sori d a imm => some (packRRI 0x13#7 d a imm)
  | .sxori d a imm => some (packRRI 0x14#7 d a imm)
  | .sshli d a imm => some (packRRI 0x15#7 d a imm)
  | .sshri d a imm => some (packRRI 0x16#7 d a imm)
  | .ssari d a imm => some (packRRI 0x17#7 d a imm)
  | .smovi d imm => some (packRI 0x18#7 d imm)
  | .slui d imm => some (packRI 0x19#7 d imm)
  | .scmp d a b c => some (packRRR 0x1A#7 d a b (codeX c.code))
  | .ssel d a b => some (packRRR 0x1B#7 d a b 0)
  | .spopc d a => some (packRRR 0x1C#7 d a 0 0)
  | .sclz d a => some (packRRR 0x1C#7 d a 0 1)
  | .sctz d a => some (packRRR 0x1C#7 d a 0 2)
  | .sbrev d a => some (packRRR 0x1C#7 d a 0 3)
  | .sbfe d a b => some (packRRR 0x1C#7 d a b 4)
  | .sbfi d a b => some (packRRR 0x1C#7 d a b 5)
  | .sadd64 d a b => some (packRRR 0x1C#7 d a b 6)
  | .ssub64 d a b => some (packRRR 0x1C#7 d a b 7)
  | .smov d a => some (packRRR 0x1D#7 d a 0 0)
  | .tlbinv a b => some (packRRR 0x1E#7 0 a b 0)
  | .srdp d n => some (packRRR 0x1E#7 d 0 (codeSlot n.code) 1)
  | .swrp a n => some (packRRR 0x1E#7 0 a (codeSlot n.code) 2)
  | .bkpt => some (packRRR 0x1E#7 0 0 0 3)
  | .icinv => some (packRRR 0x1E#7 0 0 0 4)
  | .vadd d a b => some (packRRR 0x20#7 d a b 0)
  | .vsub d a b => some (packRRR 0x20#7 d a b 1)
  | .vmul d a b => some (packRRR 0x20#7 d a b 2)
  | .vmulhi d a b => some (packRRR 0x20#7 d a b 3)
  | .vand d a b => some (packRRR 0x20#7 d a b 4)
  | .vor d a b => some (packRRR 0x20#7 d a b 5)
  | .vxor d a b => some (packRRR 0x20#7 d a b 6)
  | .vandn d a b => some (packRRR 0x20#7 d a b 7)
  | .vshl d a b => some (packRRR 0x20#7 d a b 8)
  | .vshr d a b => some (packRRR 0x20#7 d a b 9)
  | .vsar d a b => some (packRRR 0x20#7 d a b 10)
  | .vmin d a b => some (packRRR 0x20#7 d a b 11)
  | .vmax d a b => some (packRRR 0x20#7 d a b 12)
  | .vaddsat d a b => some (packRRR 0x20#7 d a b 13)
  | .vsubsat d a b => some (packRRR 0x20#7 d a b 14)
  | .vabsd d a b => some (packRRR 0x20#7 d a b 15)
  | .vaddScalar d a b => some (packRRR 0x21#7 d a b 0)
  | .vsubScalar d a b => some (packRRR 0x21#7 d a b 1)
  | .vmulScalar d a b => some (packRRR 0x21#7 d a b 2)
  | .vmulhiScalar d a b => some (packRRR 0x21#7 d a b 3)
  | .vandScalar d a b => some (packRRR 0x21#7 d a b 4)
  | .vorScalar d a b => some (packRRR 0x21#7 d a b 5)
  | .vxorScalar d a b => some (packRRR 0x21#7 d a b 6)
  | .vandnScalar d a b => some (packRRR 0x21#7 d a b 7)
  | .vshlScalar d a b => some (packRRR 0x21#7 d a b 8)
  | .vshrScalar d a b => some (packRRR 0x21#7 d a b 9)
  | .vsarScalar d a b => some (packRRR 0x21#7 d a b 10)
  | .vminScalar d a b => some (packRRR 0x21#7 d a b 11)
  | .vmaxScalar d a b => some (packRRR 0x21#7 d a b 12)
  | .vaddsatScalar d a b => some (packRRR 0x21#7 d a b 13)
  | .vsubsatScalar d a b => some (packRRR 0x21#7 d a b 14)
  | .vabsdScalar d a b => some (packRRR 0x21#7 d a b 15)
  | .vmad d a b => some (packRRR 0x22#7 d a b 0)
  | .vmadhi d a b => some (packRRR 0x22#7 d a b 1)
  | .vdot4 d a b => some (packRRR 0x23#7 d a b 0)
  | .vcmp p a b c => some (packRRR 0x24#7 (finSlot p) a b (codeX c.code))
  | .vsel d a b neg p => some (packRRR 0x25#7 d a b (predNegX neg p))
  | .vpopc d a => some (packRRR 0x26#7 d a 0 0)
  | .vclz d a => some (packRRR 0x26#7 d a 0 1)
  | .vctz d a => some (packRRR 0x26#7 d a 0 2)
  | .vbrev d a => some (packRRR 0x26#7 d a 0 3)
  | .vbfe d a b => some (packRRR 0x26#7 d a b 4)
  | .vbfi d a b => some (packRRR 0x26#7 d a b 5)
  | .vpermb d a b => some (packRRR 0x26#7 d a b 6)
  | .vnot d a => some (packRRR 0x26#7 d a 0 7)
  | .vneg d a => some (packRRR 0x26#7 d a 0 8)
  | .vabs d a => some (packRRR 0x26#7 d a 0 9)
  | .vaddc d a b => some (packRRR 0x26#7 d a b 10)
  | .vsubb d a b => some (packRRR 0x26#7 d a b 11)
  | .vlea d a b => some (packRRR 0x26#7 d a b 12)
  | .vsext d a k => some (packRRR 0x26#7 d a (finSlot k) 13)
  | .vzext d a k => some (packRRR 0x26#7 d a (finSlot k) 14)
  | .vaddi d a imm => some (packRRI 0x27#7 d a imm)
  | .vandi d a imm => some (packRRI 0x28#7 d a imm)
  | .vori d a imm => some (packRRI 0x29#7 d a imm)
  | .vshli d a imm => some (packRRI 0x2A#7 d a imm)
  | .vshri d a imm => some (packRRI 0x2B#7 d a imm)
  | .vsari d a imm => some (packRRI 0x2C#7 d a imm)
  | .vmovi d imm => some (packRI 0x2D#7 d imm)
  | .vdiv d a b la => some (packRRR 0x2E#7 d a b la)
  | .vrem d a b la => some (packRRR 0x2F#7 d a b la)
  | .fadd d a b rm => some (packRRR 0x30#7 d a b (codeX rm.code))
  | .fsub d a b rm => some (packRRR 0x31#7 d a b (codeX rm.code))
  | .fmul d a b rm => some (packRRR 0x32#7 d a b (codeX rm.code))
  | .ffma d a b rm => some (packRRR 0x33#7 d a b (codeX rm.code))
  | .ffms d a b rm => some (packRRR 0x34#7 d a b (codeX rm.code))
  | .fnfma d a b rm => some (packRRR 0x35#7 d a b (codeX rm.code))
  | .fmin d a b => some (packRRR 0x36#7 d a b 0)
  | .fmax d a b => some (packRRR 0x36#7 d a b 1)
  | .fminnum d a b => some (packRRR 0x36#7 d a b 2)
  | .fmaxnum d a b => some (packRRR 0x36#7 d a b 3)
  | .fsgnj d a b => some (packRRR 0x36#7 d a b 4)
  | .fsgnjn d a b => some (packRRR 0x36#7 d a b 5)
  | .fabs d a => some (packRRR 0x36#7 d a 0 6)
  | .fneg d a => some (packRRR 0x36#7 d a 0 7)
  | .fclass d a => some (packRRR 0x36#7 d a 0 8)
  | .fscale d a b => some (packRRR 0x36#7 d a b 9)
  | .fcmp p a b c => some (packRRR 0x37#7 (finSlot p) a b (codeX c.code))
  | .fdot2 d a b rm => some (packRRR 0x38#7 d a b (codeX rm.code))
  | .frcp d a la => some (packRRR 0x39#7 d a 0 la)
  | .frsq d a la => some (packRRR 0x39#7 d a 1 la)
  | .fsqrt d a la => some (packRRR 0x39#7 d a 2 la)
  | .fexp2 d a la => some (packRRR 0x39#7 d a 3 la)
  | .flog2 d a la => some (packRRR 0x39#7 d a 4 la)
  | .fsin d a la => some (packRRR 0x39#7 d a 5 la)
  | .fcos d a la => some (packRRR 0x39#7 d a 6 la)
  | .ftanh d a la => some (packRRR 0x39#7 d a 7 la)
  | .fdiv d a b la => some (packRRR 0x3A#7 d a b la)
  | .frnd d a rm => some (packRRR 0x3B#7 d a 0 (codeX rm.code))
  | .cvt d a ty rm => some (packRRR 0x3C#7 d a (codeSlot ty.code) (codeX rm.code))
  | .fpack d a b rm => some (packRRR 0x3D#7 d a b (codeX rm.code))
  | .rnd d => some (packRRR 0x3F#7 d 0 0 0)
  | .rndf d => some (packRRR 0x3F#7 d 0 1 0)
  | .rndskip a => some (packRRR 0x3F#7 0 a 2 0)
  | .xshfl d a b la => some (packRRR 0x40#7 d a b la)
  | .xrot d a b la => some (packRRR 0x41#7 d a b la)
  | .xbcast d a b la => some (packRRR 0x42#7 d a b la)
  | .xreduce d a op la => some (packRRR 0x43#7 d a (codeSlot op.code) la)
  | .xscani d a op la => some (packRRR 0x44#7 d a (codeSlot op.code) la)
  | .xscane d a op la => some (packRRR 0x45#7 d a (codeSlot op.code) la)
  | .xmadd d a b la => some (packRRR 0x46#7 d a b la)
  | .xmmin d a b la => some (packRRR 0x47#7 d a b la)
  | .xmmax d a b la => some (packRRR 0x48#7 d a b la)
  | .xmor d a b la => some (packRRR 0x49#7 d a b la)
  | .xballot d p la => some (packRRR 0x4A#7 d (finSlot p) 0 la)
  | .xany q p la => some (packRRR 0x4A#7 (finSlot q) (finSlot p) 1 la)
  | .xall q p la => some (packRRR 0x4A#7 (finSlot q) (finSlot p) 2 la)
  | .xcount d p la => some (packRRR 0x4A#7 d (finSlot p) 3 la)
  | .xfirst d p la => some (packRRR 0x4A#7 d (finSlot p) 4 la)
  | .lkacq d a m => some (packRRR 0x4C#7 d a (codeSlot m.code) 0)
  | .lktry d a m => some (packRRR 0x4C#7 d a (codeSlot m.code) 1)
  | .lkup d a m => some (packRRR 0x4C#7 d a (codeSlot m.code) 2)
  | .lkdown d a m => some (packRRR 0x4C#7 d a (codeSlot m.code) 3)
  | .lkrel d a => some (packRRR 0x4C#7 d a 0 4)
  | .lkstat d a => some (packRRR 0x4C#7 d a 0 5)
  | .lktab d a => some (packRRR 0x4C#7 d a 0 6)
  | .bar n => some (packRRR 0x4D#7 0 (finSlot n) 0 0)
  | .bararr n => some (packRRR 0x4D#7 0 (finSlot n) 0 1)
  | .barwait n => some (packRRR 0x4D#7 0 (finSlot n) 0 2)
  | .cbar => some (packRRR 0x4D#7 0 0 0 3)
  | .tkwait d k => some (packRRR 0x4D#7 d (finSlot k) 0 4)
  | .tkpass d k => some (packRRR 0x4D#7 d (finSlot k) 0 5)
  | .tkpassPoison d k => some (packRRR 0x4D#7 d (finSlot k) 1 5)
  | .fence p q => some (packRRR 0x4D#7 0 (maskSlot p) (maskSlot q) 6)
  | .hmake d a buf => some (packRRR 0x4E#7 d a (codeSlot buf.code) 0)
  | .hgive d a b => some (packRRR 0x4E#7 d a b 1)
  | .htake d a => some (packRRR 0x4E#7 d a 0 2)
  | .hdrop d a => some (packRRR 0x4E#7 d a 0 3)
  | .hquery d a => some (packRRR 0x4E#7 d a 0 4)
  | .vmov d a => some (packRRR 0x50#7 d a 0 0)
  | .vmovs d a => some (packRRR 0x51#7 d a 0 0)
  | .vrdl d a b => some (packRRR 0x52#7 d a b 0)
  | .vwrl d a b => some (packRRR 0x53#7 d a b 0)
  | .pand d a b => some (packRRR 0x54#7 (finSlot d) (finSlot a) (finSlot b) 0)
  | .por d a b => some (packRRR 0x54#7 (finSlot d) (finSlot a) (finSlot b) 1)
  | .pxor d a b => some (packRRR 0x54#7 (finSlot d) (finSlot a) (finSlot b) 2)
  | .pnot d a => some (packRRR 0x54#7 (finSlot d) (finSlot a) 0 3)
  | .pset d => some (packRRR 0x54#7 (finSlot d) 0 0 4)
  | .pclr d => some (packRRR 0x54#7 (finSlot d) 0 0 5)
  | .pmovs p a => some (packRRR 0x55#7 (finSlot p) a 0 0)
  | .smovp d p => some (packRRR 0x56#7 d (finSlot p) 0 0)
  | .grow imm => some (packRI 0x57#7 0 imm)
  | .shrink imm => some (packRI 0x58#7 0 imm)
  | .srd d n => some (packRRI 0x59#7 d 0 (BitVec.ofNat 11 n.number))
  | .swr a n => some (packRRI 0x5A#7 0 a (BitVec.ofNat 11 n.number))
  | .cpy d a b stream => some (packRRR 0x5B#7 d a b stream)
  | .mma d a b stream => some (packRRR 0x5C#7 d a b stream)
  | .coll d a b stream => some (packRRR 0x5D#7 d a b stream)
  | .tgload d a b => some (packRRR 0x5E#7 d a b 0)
  | .swait d b stream => some (packRRR 0x5F#7 d 0 b stream)
  | .spoll d b stream => some (packRRR 0x6F#7 d 0 b stream)
  | .ldg d a b la => some (packRRR 0x60#7 d a b la)
  | .stg d a b la => some (packRRR 0x61#7 d a b la)
  | .ldgs d a b la => some (packRRR 0x62#7 d a b la)
  | .stgs d a b la => some (packRRR 0x63#7 d a b la)
  | .ldsb d a b la => some (packRRR 0x64#7 d a b la)
  | .stsb d a b la => some (packRRR 0x65#7 d a b la)
  | .ldab d a b la => some (packRRR 0x66#7 d a b la)
  | .stab d a b la => some (packRRR 0x67#7 d a b la)
  | .ldcb d a b la => some (packRRR 0x68#7 d a b la)
  | .stcb d a b la => some (packRRR 0x69#7 d a b la)
  | .ldh d a b la => some (packRRR 0x6A#7 d a b la)
  | .sth d a b la => some (packRRR 0x6B#7 d a b la)
  | .pref l2 a b => some (packRRR 0x6C#7 (boolSlot l2) a b 0)
  | .cflush a b => some (packRRR 0x6D#7 0 a b 0)
  | .cinv a b => some (packRRR 0x6E#7 0 a b 0)
  | .aadd d a b la => some (packRRR 0x70#7 d a b la)
  | .amin d a b la => some (packRRR 0x71#7 d a b la)
  | .amax d a b la => some (packRRR 0x72#7 d a b la)
  | .aand d a b la => some (packRRR 0x73#7 d a b la)
  | .aor d a b la => some (packRRR 0x74#7 d a b la)
  | .axor d a b la => some (packRRR 0x75#7 d a b la)
  | .axchg d a b la => some (packRRR 0x76#7 d a b la)
  | .acas d a b la => some (packRRR 0x77#7 d a b la)
  | .aincw d a b la => some (packRRR 0x78#7 d a b la)
  | .afadd d a b la => some (packRRR 0x79#7 d a b la)
  | .afmin d a b la => some (packRRR 0x7A#7 d a b la)
  | .afmax d a b la => some (packRRR 0x7B#7 d a b la)
  | .waitcmp d a b c => some (packRRR 0x7C#7 d a b (codeX c.code))
  | .sleepExpiry _ _ => none
  | .revocation _ => none
  | .fflagsWrite _ => none
  | .clausestWrite _ => none
  | .trapmaskWrite _ => none
  | .activityMaskWrite _ _ => none
  | .cyclehiRead _ _ => none
  | .trapbaseWrite _ _ => none
  | .waitcmpRecheck _ _ => none
  | .monitorRepoll _ _ => none
  | .reductionPerform _ => none
  | .longComplete _ => none
  | .cowService _ => none
  | .poolReplay _ => none
  | .trapEntry _ => none
  | .workgroupPlace _ _ _ => none
  | .clusterPlace _ _ _ _ => none
  | .swapOut _ => none
  | .quantumCommit _ => none
  | .engineCommandStart _ _ => none
  | .copyChunk _ _ => none
  | .mmaChunkCommit _ _ => none
  | .engineCommandComplete _ _ => none
  | .collInstanceComplete _ _ _ => none
  | .launch _ => none
  | .ilaunch _ => none
  | .callbuf _ => none
  | .retbuf _ => none
  | .join _ => none
  | .signal _ => none
  | .waitval _ => none
  | .waitvalSatisfied _ => none
  | .program _ => none
  | .mark _ => none
  | .lookaheadRead _ => none
  | .qpDone _ => none
  | .qpCancel _ => none
  | .qpRepeat _ => none
  | .qpMovi _ _ _ => none
  | .qpLui _ _ _ => none
  | .qpMov _ _ _ => none
  | .qpAdd _ _ _ _ => none
  | .qpSub _ _ _ _ => none
  | .qpMul _ _ _ _ => none
  | .qpAnd _ _ _ _ => none
  | .qpOr _ _ _ _ => none
  | .qpXor _ _ _ _ => none
  | .qpShl _ _ _ _ => none
  | .qpShr _ _ _ _ => none
  | .qpAddi _ _ _ _ => none
  | .qpDivu _ _ _ _ => none
  | .qpRemu _ _ _ _ => none
  | .qpMinu _ _ _ _ => none
  | .qpMaxu _ _ _ _ => none
  | .qpLd64 _ _ _ _ _ => none
  | .qpLd32 _ _ _ _ _ => none
  | .qpSt64 _ _ _ _ _ => none
  | .qpSt32 _ _ _ _ _ => none
  | .qpHwr _ _ _ _ => none
  | .qpHrd _ _ _ _ => none
  | .qpRpt _ _ => none
  | .qpBeq _ _ _ _ => none
  | .qpBne _ _ _ _ => none
  | .qpBltu _ _ _ _ => none
  | .qpLoop _ _ _ => none
  | .qpArg _ _ _ => none
  | .qpNop _ => none
  | .create _ => none
  | .destroy _ => none
  | .queue _ _ _ => none
  | .preempt _ _ => none
  | .plant _ _ => none
  | .answer _ _ _ => none
  | .keyload _ _ _ => none
  | .attest _ _ => none
  | .group _ _ _ => none
  | .checkpoint _ => none
  | .rollback _ => none
  | .scrubComplete => none
  | .hostAccess _ => none
  | .peerAccess _ _ => none
  | .linkDrop _ => none
  | .reset => none
  | .undef _ => none
  | .queueRestart _ => none
  | .queueDestroy _ => none

/-- The word TRAPADDR reports for an instruction (R381); 0 for a step without a word. -/
def wordOf : Instr → Word
  | .undef w => w
  | i => (encode i).getD 0

/-- The instructions of one 32-bit word: the rows of the table that have bits. -/
def Instr.hasWord (i : Instr) : Bool := (encode i).isSome

end Sys2Proof
end

