-- ==== Sys2Proof/Machine/Aes.lean ====
section
/-! DEFINITION. AES-256 in the XTS mode, which encrypts the lines of protected frames (R421). The spec names the cipher; its
steps are those of the standards of that name (log entry 78). Bytes are numbers below 256 here. -/

namespace Sys2Proof.Machine

/-! The field of 256 elements. -/

def gfDouble (a : Nat) : Nat := if 2 * a < 256 then 2 * a else (2 * a) ^^^ 0x11B
def gfMul (a b : Nat) : Nat :=
  (List.range 8).foldr (fun i r => gfDouble r ^^^ if bitsOf b i 1 = 1 then a else 0) 0
/-- The power 254: the inverse, and 0 of 0. -/
def gfInverse (a : Nat) : Nat :=
  ((List.range 7).foldl (fun (x : Nat × Nat) _ => (gfMul x.1 x.1, gfMul x.2 (gfMul x.1 x.1))) (a, 1)).2
def turnByte (a n : Nat) : Nat := (a * 2 ^ n + a / 2 ^ (8 - n)) % 256

def aesSub (a : Nat) : Nat :=
  let b := gfInverse a
  [1, 2, 3, 4].foldl (fun x n => x ^^^ turnByte b n) (b ^^^ 0x63)
def aesUnsub (a : Nat) : Nat := gfInverse (turnByte a 1 ^^^ turnByte a 3 ^^^ turnByte a 6 ^^^ 0x05)

/-! Rounds: sixteen bytes, column after column. -/

def xorBytes (a b : List Nat) : List Nat := List.zipWith (· ^^^ ·) a b
/-- Row `r` turns by `r` columns, forward or back. -/
def aesTurnRows (back : Bool) (b : List Nat) : List Nat :=
  (List.range 16).map fun k => b.getD (4 * ((k / 4 + if back then 16 - k % 4 else k % 4) % 4) + k % 4) 0
/-- Each column times a circulant matrix. -/
def aesMix (row : List Nat) (b : List Nat) : List Nat :=
  (List.range 16).map fun k =>
    (List.range 4).foldl (fun x j => x ^^^ gfMul (row.getD ((j + 4 - k % 4) % 4) 0) (b.getD (4 * (k / 4) + j) 0)) 0

/-- The words of the key schedule, newest first. -/
def aesExtend : Nat → List (List Nat) → List (List Nat)
  | 0, w => w
  | n + 1, w =>
    let i := w.length
    let last := w.getD 0 []
    let t :=
      if i % 8 = 0 then
        xorBytes ((last.drop 1 ++ last.take 1).map aesSub) [2 ^ (i / 8 - 1), 0, 0, 0]
      else if i % 8 = 4 then last.map aesSub else last
    aesExtend n (xorBytes (w.getD 7 []) t :: w)
/-- The fifteen round keys of a key of 32 bytes. -/
def aesKeys (key : List Nat) : List (List Nat) :=
  let w := (aesExtend 52 ((List.range 8).map fun i => (key.drop (4 * i)).take 4).reverse).reverse
  (List.range 15).map fun r => ((w.drop (4 * r)).take 4).flatten

def aesEncrypt (key b : List Nat) : List Nat :=
  let ks := aesKeys key
  let b := (List.range 13).foldl (fun b r =>
    xorBytes (aesMix [2, 3, 1, 1] (aesTurnRows false (b.map aesSub))) (ks.getD (r + 1) [])) (xorBytes b (ks.getD 0 []))
  xorBytes (aesTurnRows false (b.map aesSub)) (ks.getD 14 [])
def aesDecrypt (key b : List Nat) : List Nat :=
  let ks := aesKeys key
  let b := (List.range 13).foldl (fun b r =>
    aesMix [14, 11, 13, 9] (xorBytes ((aesTurnRows true b).map aesUnsub) (ks.getD (13 - r) []))) (xorBytes b (ks.getD 14 []))
  xorBytes ((aesTurnRows true b).map aesUnsub) (ks.getD 0 [])

/-! The mode: a data unit is one 64-byte line, its tweak the line's number (R421). -/

def natBytes (n v : Nat) : List Nat := (List.range n).map fun i => bitsOf v (8 * i) 8
def ofNatBytes (l : List Nat) : Nat := l.foldr (fun b n => b + 256 * n) 0
/-- The next block's tweak. -/
def nextTweak (t : Nat) : Nat := if 2 * t < 2 ^ 128 then 2 * t else (2 * t - 2 ^ 128) ^^^ 0x87
/-- The tweak of block `j` of a line, under a key of 64 bytes. -/
def lineTweak (key line j : Nat) : Nat :=
  (List.range j).foldl (fun t _ => nextTweak t) (ofNatBytes (aesEncrypt ((natBytes 64 key).drop 32) (natBytes 16 line)))

/-- One 16-byte block of a line enciphered, or deciphered. -/
def xtsBlock (back : Bool) (key line j : Nat) (b : List Byte) : List Byte :=
  let t := natBytes 16 (lineTweak key line j)
  let x := xorBytes (b.map (·.toNat)) t
  let k := (natBytes 64 key).take 32
  (xorBytes (if back then aesDecrypt k x else aesEncrypt k x) t).map fun n => BitVec.ofNat 8 n

/-- The 16-byte block at a multiple of 16 as a reader under `key` has it of a line written under `tag`: what the one
enciphered, the other deciphers. `get` gives the bytes as they were written. -/
def blockThrough (get : Nat → Byte) (key tag : Option Nat) (at_ : Nat) : List Byte :=
  let b := (List.range 16).map fun i => get (at_ + i)
  let b := match tag with
    | some t => xtsBlock false t (at_ / 64) (at_ / 16 % 4) b
    | none => b
  match key with
  | some k => xtsBlock true k (at_ / 64) (at_ / 16 % 4) b
  | none => b
/-- The byte at `pa` so read. -/
def readThrough (get : Nat → Byte) (key tag : Option Nat) (pa : Nat) : Byte :=
  if tag = key then get pa else (blockThrough get key tag (pa / 16 * 16)).getD (pa % 16) 0

end Sys2Proof.Machine
end

