-- ==== Sys2Proof/Config.lean ====
section
/-! DEFINITION. What a member fixes (R15), and the free values: constants with no body that stand for what the spec
leaves open. Nothing is known of a free value; a statement about one holds for every value. -/

namespace Sys2Proof

/-- The four members of the family (R15). -/
inductive Member where
  | g960 | g480 | g120 | g48
deriving DecidableEq, Repr

namespace Config

def cores : Member → Nat
  | .g960 => 960 | .g480 => 480 | .g120 => 120 | .g48 => 48
/-- Eight cores form a core-cluster (R12). -/
def clusters (m : Member) : Nat := cores m / 8
def slices : Member → Nat
  | .g960 => 320 | .g480 => 160 | .g120 => 40 | .g48 => 12
/-- Compute dies (R15). -/
def dies : Member → Nat
  | .g960 => 8 | .g480 => 4 | .g120 => 1 | .g48 => 1
/-- Bytes of local memory (R15): 1024, 512, 128 and 64 GiB. -/
def memoryBytes : Member → Nat
  | .g960 => 2 ^ 40 | .g480 => 2 ^ 39 | .g120 => 2 ^ 37 | .g48 => 2 ^ 36
def hbmStacks : Member → Nat
  | .g960 => 16 | .g480 => 8 | .g120 => 2 | .g48 => 1
def peerPorts : Member → Nat
  | .g960 => 24 | .g480 => 12 | .g120 => 4 | .g48 => 2
def lanesPerPipe : Member → Nat
  | .g48 => 8 | _ => 32
def arrayColumns : Member → Nat
  | .g48 => 16 | _ => 64
/-- Members with the coherent host window; the others have the mailbox engine (R15, R258). -/
def windowed : Member → Bool
  | .g960 | .g480 => false
  | .g120 | .g48 => true
/-- Lock-manager entries of one L2 slice (R12). -/
def lockEntries : Nat := 8192
/-- Monitors of one L2 slice (R12). -/
def monitors : Nat := 4096

/-- A free bit pattern (R4): what a read of an undefined value gives; the state's `fresh` counter chooses which. -/
opaque freeByte : Nat → Byte
/-- What a read returns of a byte bound to an object held under I (R257, R282): the time, the lane or piece, the physical address. -/
opaque underI : Nat → Nat → Nat → Byte
/-- The energy of a block in microjoules at a time (R430): outside R1. -/
opaque energy : Nat → Nat → DWord
/-- KEYLOAD's unwrapping of a wrapped key under the device key (R421): the 64 bytes of an AES-256-XTS key as a number. The
wrapped form is not stated. -/
opaque unwrapKey : List Byte → Nat
/-- The 7,856-byte signature the device identity key makes over a message (R422), byte by byte. -/
opaque deviceSignature : List Byte → Nat → Byte
/-- The SHA-256 measurements of firmware and device identity (R422). -/
opaque firmwareMeasurement : Nat → Byte
opaque identityMeasurement : Nat → Byte
/-- The algorithm identifiers of the PROTECT capability record (R429): named, not numbered, by the spec. -/
opaque algorithmIds : DWord
end Config

end Sys2Proof
end

