-- ==== Sys2Proof/Machine/State.lean ====
section
/-! DEFINITION. Everything the spec gives the machine, as plain data, and the machine right after reset. -/

namespace Sys2Proof.Machine

/-- The initiators' routes to memory and buffers (R14, R242). -/
inductive Path where
  | ls | cp | mx | cl | ho | pg
deriving DecidableEq, Repr

/-- The trap causes of R381, codes 0x01 to 0x15. -/
inductive Cause where
  | undef | regbound | type | align | page | access | attr | bufspace | handle | lockproto | wound | locklost
  | hazard | fpe | brk | user | ecc | growdead | pagepool | engine | doublefault
deriving DecidableEq, Repr

/-- What an access does, by the codes of the fault record (R191). -/
inductive AccessKind where
  | load | store | fetch | atomic | copyRead | copyWrite | collective
deriving DecidableEq, Repr

/-- The open clause of a split: its fields and the count of instructions it still governs, 1 to 16 (R52). -/
structure Clause where
  word : ClauseWord
  left : Nat
deriving DecidableEq, Repr

/-- A lane that WAITCMP still checks: its address, where it reads, under which key, and its comparand (R237). -/
structure WaitLane where
  lane  : Lane
  va    : Nat
  pa    : Nat
  key   : Option Nat
  /-- Size of the page it was translated through (R192). -/
  page  : Nat
  value : Nat
deriving DecidableEq, Repr

/-- What a split waits in (R40, R351); `ready` when in none. -/
inductive Wait where
  | ready
  /-- SLEEP until this cycle (R177). -/
  | sleep (till : Nat)
  /-- BAR, BARWAIT or CBAR: blocked until this phase of the barrier completes; 16 is the cluster barrier (R340). -/
  | barrier (n : Nat) (phase : Nat)
  /-- WAITCMP: its condition and width in bytes, and the lanes not yet satisfied (R237). -/
  | waitcmp (c : WCond) (width : Nat) (pend : List WaitLane)
  /-- LKACQ (`up` false) or LKUP waiting for a grant or an entry (R277, R278); its destination is not known while the code of a
  planted one cannot be read (R284). -/
  | lock (d : Option Reg) (name : DWord) (mode : LkMode) (up : Bool)
  /-- HTAKE waiting for a give (R210). -/
  | htake (d : Reg) (filter : Word)
  /-- HGIVE or HDROP waiting for commands that reach the handle's bytes (R209, R211); TLBINV, for reductions of other contexts
  (R437). -/
  | hgive
  /-- TKWAIT waiting for its turn (R343). -/
  | ticket (d : Reg) (k : Fin 4)
  /-- GROW waiting for the reserve or the pool (R106). -/
  | grow (n : Nat)
  /-- SWAIT waiting for its stream to reach a number (R296). -/
  | swait (d : Reg) (target : Word) (stream : Fin 16)
  /-- An engine instruction waiting for a window entry (R291). -/
  | window
  /-- A branch waiting on the overflow entry (R36). -/
  | overflow
  /-- Waiting for buffered reductions to be committed (R436): the warp's own, or for TLBINV those up to this quantum of any
  warp (R437). -/
  | commit (upTo : Option Nat)
  /-- Parked at a fault offered for service, or at a copy-on-write service (R191, R195); a long instruction holds the other
  splits back (R57, R226). -/
  | parked (id : Nat) (long : Bool)
deriving DecidableEq, Repr

/-- A trap that waits to enter (R395, R436): its cause, TRAPADDR, TRAPPC and TRAPLI. -/
structure PendingTrap where
  cause : Cause
  addr  : DWord
  pc    : Pc
  li    : Pc
deriving DecidableEq, Repr

/-- A split as it stood before the trap whose handler it has not yet fetched from (R387). -/
structure EntrySave where
  pc        : Pc
  clause    : Option Clause
  trapcause : Word
  trappc    : DWord
  trapaddr  : DWord
  trapli    : DWord
  clausest  : Word
  mask      : Bool
  hold      : Option (Fin 4)
  cause     : Cause
deriving DecidableEq, Repr

/-- A live split (R35, R101). -/
structure Split where
  pc     : Pc
  member : LaneMask
  active : LaneMask
  clause : Option Clause
  wait   : Wait
  /-- Lanes of a partly performed atomic that are done (R226). -/
  done   : LaneMask
  trap   : Option PendingTrap
  entry  : Option EntrySave
deriving DecidableEq, Repr

/-- A split number in use by no split reads as this one. -/
def Split.empty : Split := ⟨0, 0, 0, none, .ready, 0, none, none⟩

/-- The overflow entry (R39). -/
structure Overflow where
  pc     : Pc
  member : LaneMask
  active : LaneMask
  clause : Option Clause
deriving DecidableEq, Repr

/-- A register that an instruction reads or writes (R56). -/
inductive RegName where
  | v (r : Nat) | s (r : Nat) | p (r : Nat)
deriving DecidableEq, Repr

/-- What a long instruction writes when it completes. -/
inductive WriteBack where
  | v (r : Reg) (lanes : LaneMask) (vals : VReg)
  | s (r : Reg) (val : Word)
  | p (r : PReg) (lanes : LaneMask) (bits : LaneMask)
deriving DecidableEq, Repr

/-- A place of memory: a physical address and the key of its mapping, or an offset of a workgroup's buffer. -/
inductive Spot where
  | global (pa : Nat) (key : Option Nat)
  | buffer (g : WgKey) (b : Buf) (off : Nat)
deriving DecidableEq, Repr

/-- `n` bytes at one place share a byte with `m` bytes at another. -/
def Spot.meets (a : Spot) (n : Nat) (b : Spot) (m : Nat) : Bool :=
  match a, b with
  | .global x _, .global y _ => decide (x < y + m) && decide (y < x + n)
  | .buffer g c x, .buffer h d y => g == h && c == d && decide (x < y + m) && decide (y < x + n)
  | _, _ => false

/-- Which halves of a word an operation acts on: those of the pairs of 16-bit floats are operations of their own (R234). -/
inductive Halves where
  | both | low | high
deriving DecidableEq, Repr

/-- One lane of an access that is performed after its instruction has issued: `va` is its address as a trap names it, `part`
tells free values apart, `words` are an atomic's operand (R230). -/
structure LateLane where
  lane  : Lane
  part  : Nat
  spot  : Spot
  va    : DWord
  words : List Word
deriving DecidableEq, Repr

/-- An access that has issued and is not yet performed (R242 to R250): a load, or an atomic with return whose lanes stand in
the order they are applied, which may acquire (R230, R247). `half` holds which halves alone have been applied, and what they
returned (R234, R241). -/
inductive Late where
  | load (dst : Reg) (regs bytes : Nat) (scalar narrow : Bool) (lanes : List LateLane)
  | atomic (dst : Reg) (opcode : Nat) (ty : Ty) (scope : Scope) (acquire : Bool) (lanes : List LateLane)
      (half : Option (Halves × List Nat))
deriving DecidableEq, Repr

/-- An outstanding long instruction and its lookahead window (R55 to R58). -/
structure LongOp where
  split  : Fin 4
  pc     : Pc
  /-- Instructions its window still admits. -/
  left   : Nat
  wb     : List WriteBack
  /-- Flags it raises into FFLAGS at completion (R56): NV, DZ, OF, UF, NX from bit 0. -/
  flags  : BitVec 5
  trap   : Option (Cause × DWord)
  reads  : List RegName
  writes : List RegName
  /-- Its access, while that is not yet performed. -/
  late   : Option Late
deriving DecidableEq, Repr

/-- It has completed, though its window may still be open and the trap it ends with undelivered (R57, R58). -/
def LongOp.done (l : LongOp) : Bool := l.wb == [] && l.flags == 0 && l.late == none

/-- A reduction that has issued and is not yet performed (R235, R354): one record a merge lane, in issue order.
`place` is the physical address found at issue (R437), or the offset in SB. -/
structure Reduction where
  clock   : Nat
  index   : Nat
  lane    : Lane
  opcode  : Nat
  ty      : Ty
  scope   : Scope
  sb      : Bool
  va      : DWord
  place   : Nat
  key     : Option Nat
  /-- Size of the page it was translated through (R192, R437). -/
  page    : Nat
  operand : List Word
  /-- Its translation after planting waits at this service (R437). -/
  parked  : Option Nat
  /-- The halves of its word that are still to be done (R234, R241). -/
  left    : Halves
deriving DecidableEq, Repr

/-- A standing wound (R271): the first conflict's name, the deadline in cycles or logical counts, the delivery point of
deterministic mode, whether it has reached its warp though blocked (R285), and whether WOUND is still to enter. -/
structure Wound where
  name      : DWord
  deadline  : Nat
  delivered : Option Nat
  reached   : Bool
  pending   : Bool
deriving DecidableEq, Repr

/-- The power counters and clocks aside, all that a warp holds (R35, R98 to R111, R382, R402). -/
structure Warp where
  key       : WarpKey
  live      : Bool
  core      : Nat
  half      : Bool
  /-- Lanes that hold threads (R26). -/
  threads   : LaneMask
  splits    : Vector (Option Split) 4
  /-- The running split. -/
  cur       : Fin 4
  overflow  : Option Overflow
  vregs     : Vector VReg 128
  sregs     : Vector Word 128
  preds     : Vector LaneMask 8
  allot     : Nat
  fflags    : Word
  clausest  : Word
  barcount  : Word
  trapcause : Word
  trappc    : DWord
  trapaddr  : DWord
  trapli    : DWord
  trapmask  : Bool
  hold      : Option (Fin 4)
  lklast    : Word
  /-- LCLOCK: logical clock, or instructions retired (R109). -/
  clock     : DWord
  cycleHi   : Option Word
  lclockHi  : Option Word
  rngstream : BitVec 16
  counters  : Vector (BitVec 48) 96
  outstanding : List LongOp
  reds      : List Reduction
  wound     : Option Wound
  revoked   : Option DWord
  /-- Instructions issued: the index that orders reductions and MMAs (R354, R406). -/
  issued    : Nat
  /-- The cycle since which the warp has been waiting long (R43). -/
  longSince : Option Nat
  /-- The split passed over by YIELD (R176), and whether the warp is to be passed over at its half. -/
  yielded   : Option (Fin 4)
  passed    : Bool
deriving DecidableEq, Repr

/-- A typed buffer of a workgroup: its size and the bytes that are not zero, by ascending offset (R200). -/
structure BufferMem where
  size  : Nat
  cells : List Host.Cell
deriving DecidableEq, Repr

/-- The state of a handle slot (R206). -/
inductive HState where
  | free
  | held (r : Nat)
  | transit (dst giver : Nat)
deriving DecidableEq, Repr

structure HandleSlot where
  state : HState
  gen   : Nat
  buf   : Buf
  base  : Nat
  size  : Nat
deriving DecidableEq, Repr

/-- A barrier (R337): the arrival set, each thread's number with its warp's clock as it arrived (R353), the phase, the first
arrival's BARCOUNT. -/
structure Barrier where
  arrived : List (Nat × Nat)
  phase   : Nat
  first   : Option Word
deriving DecidableEq, Repr

def Barrier.threads (b : Barrier) : List Nat := b.arrived.map (·.1)
/-- The largest clock among the arrivals (R353, R404). -/
def Barrier.clock (b : Barrier) : Nat := b.arrived.foldl (fun m a => max m a.2) 0

/-- One page entry of a completion record (R308). -/
structure PageEntry where
  outcome : Nat
  frame   : Nat
  print   : Nat
deriving DecidableEq, Repr

/-- What a copy has recorded so far for its completion record (R307, R308): digest fields as f64 codes. -/
structure Tally where
  count  : Nat
  nans   : Nat
  infs   : Nat
  maxAbs : Nat
  sum    : Nat
  squares : Nat
  zeros  : Nat
  base   : Nat
  bins   : List Nat
  flags  : Nat
  bytes  : Nat
  pages  : List PageEntry
deriving DecidableEq, Repr

def Tally.zero : Tally := ⟨0, 0, 0, 0, 0, 0, 0, 0, [], 0, 0, []⟩

/-- Which engine carries out a command (R289). -/
inductive EngineKind where
  | copy | mma | coll
deriving DecidableEq, Repr

/-- An issued command (R289, R295): captured descriptor and graph, progress and what it has recorded so far. -/
structure Command where
  kind    : EngineKind
  seq     : Word
  desc    : List Byte
  graph   : List Byte
  running : Bool
  /-- Progress C or P (R309, R328). -/
  progress : Nat
  tally   : Tally
  /-- Parked at a fault offered for service. -/
  parked  : Option Nat
  /-- The issuing warp, its instruction index and the quantum of issue (R333). -/
  warp    : WarpKey
  index   : Nat
  quantum : Nat
  /-- COLL: contributed to its instance. -/
  contributed : Bool
  /-- The run-time code it has failed with and the address its record reports (R290); code 0 while it has not. -/
  fail    : Nat × Nat
  /-- The whole chunks of its write order, known once it has started (R309). -/
  whole   : Nat
  /-- MMA: its next chunk has been read and computed, and waits to commit (R328, R332): CB offsets with their words, and the
  tally. -/
  ahead   : Option (List (Nat × Nat) × Tally)
  /-- Copy: its record after the last whole chunk, which an image holds (R309), and what it had recorded where its last access
  stopped (R308). -/
  kept    : Tally
  stopped : Option Tally
  /-- Copy: its destination overlaps its own inputs or its record, which is undefined (R310). -/
  spoilt  : Bool
deriving DecidableEq, Repr

/-- A stream of a workgroup (R288). -/
structure Stream where
  last    : Word
  counter : Word
  err     : Word
  /-- The failed command's sequence number while `err` is not 0. -/
  errSeq  : Word
  commands : List Command
deriving DecidableEq, Repr

/-- Where a workgroup stands (R401); `planted` waits for room with the state that its image gave it (R408). -/
inductive WgState where
  | resident | swapped | zombie | draining | planted
deriving DecidableEq, Repr

/-- A placed workgroup (R29, R105, R198, R205, R287, R336). -/
structure Workgroup where
  key      : WgKey
  core     : Nat
  state    : WgState
  reserve  : Nat
  entitlement : Nat
  /-- Warp-registers charged to each half's pool. -/
  charge0  : Nat
  charge1  : Nat
  bufs     : Vector BufferMem 4
  handles  : Vector HandleSlot 16
  barriers : Vector Barrier 16
  streams  : Vector Stream 16
  /-- Graph records of 256 bytes; the empty list is an empty slot. -/
  graphs   : Vector (List Byte) 16
  /-- Ticket sequences passed (R344). -/
  passed   : BitVec 4
  /-- A warp left by EXIT with traps masked (R344). -/
  faulted  : Bool
  /-- The largest clock that a warp of it had as it exited (R353; log entry 81). -/
  exitClock : Nat
deriving DecidableEq, Repr

/-- A launch header's 256 bytes (R23), with the fields the launch supplied. -/
structure Header where
  bytes : List Byte
deriving DecidableEq, Repr

/-- A ticket sequence of a launch (R342). -/
structure Ticket where
  value    : Nat
  poisoned : Bool
  deferred : List Nat
  /-- Faulted workgroups whose turn poisons the sequence when it comes (R344). -/
  poisonAt : List Nat
deriving DecidableEq, Repr

/-- A launch that has been issued and not completed (R401). -/
structure Launch where
  key      : LaunchKey
  queue    : Nat
  /-- Position in the device's issue order, and priority (R371). -/
  order    : Nat
  priority : Nat
  hdr      : Header
  next     : Nat
  retired  : Nat
  signal   : DWord
  signalValue : DWord
  trapBase : DWord
  tickets  : Vector Ticket 4
  cbars    : List (Nat × Barrier)
  graphs   : Vector (List Byte) 16
deriving DecidableEq, Repr

/-- A lock domain slot (R262, R266). -/
structure Domain where
  base   : DWord
  size   : Nat
  tile   : Nat
  matrix : BitVec 36
  entry  : List Byte
deriving DecidableEq, Repr

/-- A holding of the lock manager (R264). -/
structure Holding where
  name : DWord
  warp : WarpKey
  mode : LkMode
deriving DecidableEq, Repr

/-- A waiting request or escalation (R269); `entry` says that it holds an entry of its home and is queued. -/
structure LockReq where
  name  : DWord
  warp  : WarpKey
  mode  : LkMode
  up    : Bool
  entry : Bool
deriving DecidableEq, Repr

/-- What an image has no field for of a workgroup: the clock its warps have exited with (R353), and whether it has faulted
(R344). -/
structure KeptGroup where
  key       : WgKey
  exitClock : Nat
  faulted   : Bool
deriving DecidableEq, Repr

/-- What an image has no field for of a launch: the turns at which its ticket sequences will be poisoned (R344), and the graphs it
gives to its workgroups (R298). -/
structure KeptLaunch where
  key      : LaunchKey
  poisonAt : Vector (List Nat) 4
  graphs   : Vector (List Byte) 16
deriving DecidableEq, Repr

/-- What the member keeps beside an image, by the CYCLE it was written at, so that its context goes on as it would have done
(R411; log entry 52). -/
structure Kept where
  cycle    : Nat
  groups   : List KeptGroup
  launches : List KeptLaunch
deriving DecidableEq, Repr

/-- A context (R180, R415, R419). Its page descriptor stays in memory, at `pages`. -/
structure Context where
  num        : Nat
  system     : Bool
  protect    : Bool
  keySlot    : Nat
  interval   : Nat
  pages      : Nat
  faultSave  : Nat
  areaA      : Nat
  areaB      : Nat
  /-- The current checkpoint area; `none` before the first checkpoint. -/
  current    : Option Bool
  logBase    : Nat
  logSize    : Nat
  logCount   : Nat
  logged     : List Nat
  /-- Lines first written since the log had no room, with their bytes: a checkpoint is due at once (R415). -/
  spill      : List (Nat × List Byte)
  /-- The area for lock entries that a home slice cannot take (R409). -/
  excess     : Nat
  programKey : Option (List Byte)
  nextSeq    : Nat
  domains    : List (Nat × Domain)
  holdings   : List Holding
  waiting    : List LockReq
  /-- How planted waits ended whose instruction could not be read yet, until it is (R284). -/
  answered   : List (LockReq × Word)
  quanta     : Nat
  errcount   : Word
  /-- Killed by DOUBLEFAULT (R387); frozen and written out (R394). -/
  dead       : Bool
  frozen     : Bool
  /-- Pre-emption has been requested, to these save addresses, and its canonical point is not yet reached (R394, R357). -/
  saves      : List Nat
  /-- A checkpoint is due, and its canonical point is not yet reached (R415). -/
  checkDue   : Bool
  /-- CYCLE = now + cycleBase (R109, R408), modulo 2^64. -/
  cycleBase  : Int
  /-- The last checkpoint's cycle. -/
  lastCheck  : Nat
  /-- What its images have no field for (log entry 52). -/
  kept       : List Kept
  /-- Programs loaded by a protected context, by their SHA-256 (R422). -/
  measured   : List (List Byte)
deriving DecidableEq, Repr

/-- A loaded queue program (R375). -/
structure QProgram where
  windows : List (Nat × Nat × Bool)
  words   : List DWord
deriving DecidableEq, Repr

/-- An ILAUNCH's prologue (R376 to R380). -/
structure Prologue where
  regs    : Vector DWord 16
  pc      : Nat
  repeats : Nat
  steps   : Nat
  header  : List Byte
deriving DecidableEq, Repr

/-- A call-buffer level (R367): buffer address, next position, count. -/
structure BufLevel where
  addr : Nat
  pos  : Nat
  count : Nat
deriving DecidableEq, Repr

/-- A queue (R362, R374, R380): descriptor, indices, issue position, prologue, programs, and what the look-ahead has read.
`err` is the code of the error record the queue halted with. -/
structure Queue where
  num       : Nat
  ctx       : Nat
  desc      : List Byte
  read      : Nat
  published : Nat
  issued    : Nat
  halted    : Bool
  err       : Nat
  levels    : List BufLevel
  prologue  : Option Prologue
  slots     : Vector (Option QProgram) 16
  /-- Packets read ahead, in order (R367). -/
  ahead     : List (List Byte)
  /-- The look-ahead holds at a JOIN (R368). -/
  joinHold  : Bool
  /-- A WAITVAL that has been reached and is not satisfied: armed. -/
  armed     : Bool
  parked    : Option Nat
  /-- The error record of the halt, while it is not yet written (R374). -/
  record    : Option (List Byte)
  /-- The slot of the packet at the issue position was written over before its release (R366): that packet and the one written
  over it are free bytes. -/
  spoilt    : Bool
  /-- The slots that have been found VALID and are not yet released, by index, with their bytes; and those among them whose bytes
  have changed since (R366). -/
  valid     : List (Nat × List Byte)
  rewritten : List Nat
deriving DecidableEq, Repr

/-- Who waits at a fault offered for service (R191). -/
inductive Requester where
  | warp (w : WarpKey) (sp : Fin 4)
  | command (g : WgKey) (stream : Fin 16)
  | queue (q : Nat)
  /-- A buffered reduction of this warp, translated afresh at planting (R437). -/
  | reduction (w : WarpKey)
deriving DecidableEq, Repr

/-- An access that is parked: at PAGE, ATTR or PAGEPOOL, or (cause `none`) at a copy-on-write service. -/
structure Park where
  id     : Nat
  ctx    : Nat
  who    : Requester
  cause  : Option Cause
  kind   : AccessKind
  va     : DWord
  /-- The access was a long instruction's (R226). -/
  long   : Bool
deriving DecidableEq, Repr

/-- What the member tells the host through the event ring (R418). -/
inductive HostEvent where
  | faultRecord (id : Nat) (bytes : List Byte)
  | poolSkip (ctx : Nat) (entry : DWord)
  | answer (code : Nat) (ok : Bool)
  | plantStatus (ctx : Nat) (code : Nat)
  | imageWritten (ctx : Nat) (addr : Nat)
  | rolledBack (ctx : Nat)
  | death (ctx : Nat)
  | eccError (line : Nat)
  | coreRetired (core : Nat)
  | read (bytes : List Byte)
  | refusedAccess
  | queueHalted (q code : Nat)
deriving DecidableEq, Repr

/-- A byte that a cluster cache or the L2 holds: `dirty` when its agents have written it (R244). -/
structure CacheByte where
  addr  : Nat
  val   : Byte
  dirty : Bool
  /-- The key and the context it is written back under (R415, R421), and in deterministic mode the clock of the warp that
  stored it (R353). -/
  key   : Option Nat
  ctx   : Option Nat
  clock : Option Nat
  /-- The warp that stored it, and whether that warp has released it since (R247, R249). -/
  warp  : Option WarpKey
  given : Bool
deriving DecidableEq, Repr

/-- A write that has issued and is not yet performed (R242 to R254): the warp that made it, with the lane and the address that a
trap names, or none for a command of the workgroup, with its stream and whether that is an MMA; the cluster cache it passes, and
the clock of its warp in deterministic mode (R353). -/
structure LateWrite where
  warp    : Option WarpKey
  group   : WgKey
  cluster : Nat
  narrow  : Bool
  spot    : Spot
  bytes   : List Byte
  clock   : Option Nat
  lane    : Option Lane
  va      : DWord
  /-- The stream, once the step that wrote has ended. -/
  stream  : Option (Fin 16)
  mma     : Bool
deriving DecidableEq, Repr

/-- A cached translation (R189): the core that holds it, or the core-cluster in a translation cache, and the fields of the leaf
it was filled from. -/
structure TlbEntry where
  core  : Nat
  ctx   : Nat
  vpage : Nat
  size  : Nat
  leaf  : DWord
deriving DecidableEq, Repr

/-- An instruction word held by a core's instruction cache (R78, R393). -/
structure ICacheWord where
  core : Nat
  ctx  : Nat
  addr : Nat
  word : Word
deriving DecidableEq, Repr

/-- A line as it stood before a write of a launch: when it was written, and its bytes as they were stored, under which key. -/
structure CodeLine where
  time  : Nat
  line  : Nat
  key   : Option Nat
  bytes : List Byte
deriving DecidableEq, Repr
/-- Code of a context is fetched as it stood at `time`, by one core or by all, at one 4,096-byte page of addresses or at all
(R78). -/
structure CodeSince where
  ctx  : Nat
  core : Option Nat
  page : Option Nat
  time : Nat
deriving DecidableEq, Repr

/-- A loaded key slot (R420); it is the protected context's whose record names it (R419). -/
structure KeySlot where
  slot : Nat
  key  : Nat
deriving DecidableEq, Repr

/-- A collective group of a context (R427): the contiguous range of slots of each member, as peer number, first slot and
count. -/
structure CollGroup where
  ctx    : Nat
  num    : Nat
  ranges : List (Nat × Nat × Nat)
deriving DecidableEq, Repr

/-- A slot contributed to an instance (R427): its vector, each register's worth as a number, and the command of this member
that contributed it, with its context's CYCLE then. -/
structure CollSlot where
  slot  : Nat
  vec   : List Nat
  owner : Option (WgKey × Fin 16 × Word)
  cycle : Int
deriving DecidableEq, Repr

/-- An instance of a collective (R427); a completed one is kept, to recognise a contribution that is repeated. -/
structure CollInstance where
  ctx   : Nat
  group : Nat
  tag   : Word
  slots : List CollSlot
  done  : Bool
deriving DecidableEq, Repr

/-- A scrub in progress (R423, R424): the frames it zeroes, by address and size, the bytes of buffers beside them, how many bytes
of the frames it has zeroed, and the queue numbers and cores that are not given out until it ends. -/
structure Scrub where
  ctx       : Nat
  slot      : Option Nat
  frames    : List (Nat × Nat)
  buffers   : Nat
  zeroed    : Nat
  queues    : List Nat
  cores     : List Nat
  restarted : Bool
deriving DecidableEq, Repr

/-- A monitor armed for a waiting split (R237, R239): the physical address and width, whether it is served by re-polling,
whether a write has been performed there since, and in deterministic mode the waker's clock (R353). -/
structure Monitor where
  warp  : WarpKey
  split : Fin 4
  addr  : Nat
  width : Nat
  poll  : Bool
  fired : Bool
  clock : Option Nat
deriving DecidableEq, Repr

/-- A peer the host has assigned (R412, R425). -/
structure Peer where
  num  : Nat
  size : Nat
  up   : Bool
deriving DecidableEq, Repr

/-- Which agent moves next: one entry a step (R2, R33). With none left, a fixed policy moves. -/
inductive Turn where
  /-- A half issues from this warp. -/
  | issue (w : WarpKey)
  /-- A step of the table without a word. -/
  | event (i : Instr)
  /-- The same, with the accesses that it makes left to be performed later (R242 to R254). -/
  | issueLate (w : WarpKey)
  | eventLate (i : Instr)
  /-- A write that was left is performed: the `k`th. -/
  | performWrite (k : Nat)
  /-- The access of a warp's `k`th outstanding long instruction is performed, or one of the halves of an atomic on pairs of
  16-bit floats (R234, R241). -/
  | performLong (w : WarpKey) (k : Nat) (h : Halves)
  /-- The low, or the high, halves of the warp's oldest reduction are done (R234, R241). -/
  | reductionHalf (w : WarpKey) (high : Bool)
  /-- An MMA reads and computes its next chunk, and commits it later (R328, R332). -/
  | mmaRead (g : WgKey) (stream : Fin 16)
  /-- Cycles pass. -/
  | elapse (n : Nat)
  /-- The scrub engine zeroes the next bytes of the first scrub (R423, R424). -/
  | scrub (bytes : Nat)
  /-- A cluster cache writes back, or drops, its copy of a byte (R244). -/
  | writeBack (cluster addr : Nat)
  | dropCopy (cluster addr : Nat)
  /-- The L2 of a window member writes back, or drops, a byte (R258). -/
  | l2WriteBack (addr : Nat)
  | l2Drop (addr : Nat)
  /-- The L2 of a window member takes a copy of a byte. -/
  | l2Fill (addr : Nat)
  /-- The `k`th translation held by a core's TLB, or by a core-cluster's translation cache, is replaced; a cached instruction
  word (R189). -/
  | tlbDrop (core k : Nat)
  | xlatDrop (cluster k : Nat)
  | icacheDrop (core : Nat)
  /-- A read of a context meets a transient error; a lasting error of a memory line (R413). -/
  | eccTransient (ctx : Nat)
  | eccLine (ctx line : Nat)
  /-- A split's read, or a command's, meets a lasting error of a line of a cluster cache: the line is disabled (R413, R414).
  `va` is the address it read. -/
  | eccCache (w : WarpKey) (sp : Fin 4) (line : Nat) (va : DWord)
  /-- A split's fetch meets a lasting error of its core's instruction cache: the line is disabled (R413, R414). -/
  | eccFetch (w : WarpKey) (sp : Fin 4)
  /-- A split's read, or a running command's, meets a lasting error of a line of L2: the line is disabled (R413, R414). -/
  | eccL2 (w : WarpKey) (sp : Fin 4) (line : Nat) (va : DWord)
  | eccL2Engine (g : WgKey) (stream : Fin 16) (line : Nat)
  /-- A running command's read meets a lasting error of a buffer word of its core (R413, R414). -/
  | eccEngine (g : WgKey) (stream : Fin 16)
  /-- A split's read meets a lasting error of a register (`addr` all ones) or a buffer word (`addr` in the form of R202). -/
  | eccCore (w : WarpKey) (sp : Fin 4) (addr : DWord)
  /-- The host assigns a peer number at bring-up, or finishes bring-up (R425, R431). -/
  | assignPeer (num size : Nat)
  | bringUp (self : Nat)
  /-- The host writes bytes at a physical address, as a device-scope write. -/
  | hostPhys (addr : Nat) (bytes : List Byte)
  /-- The host writes a command of 64 bytes to the mailbox or the command ring (R418). -/
  | hostCommand (bytes : List Byte)
  /-- Another member contributes a slot to an instance (R427). -/
  | contribute (ctx group : Nat) (tag : Word) (slot : Nat) (vec : List Nat)
deriving DecidableEq, Repr

/-- Memory cells in canonical form: addresses strictly rising, no cell equal to what an unlisted address reads as. -/
abbrev Memory := List Host.Cell

/-- What an unlisted byte reads as: no value is given for local memory after reset (DESIGN CHOICE, log entry 3). -/
def Memory.default : Byte := 0#8

/-- The canonical form of Memory. -/
def Memory.wf (m : Memory) : Bool :=
  decide (m.Pairwise fun x y => x.1 < y.1) && m.all fun c => c.2 != Memory.default

/-- The machine. -/
structure State where
  member   : Member
  /-- Bring-up has ended: the mailbox or the window's command ring is open (R431). -/
  up       : Bool
  /-- Cycles of the 3 GHz clock since reset. -/
  now      : Nat
  /-- The model's own: the next free value and the next identifier. -/
  fresh    : Nat
  /-- The model's own: which agents move next. -/
  agenda   : List Turn
  mem      : Memory
  /-- Lines not written in the clear: line number and the key they are stored under (R421). -/
  lineKeys : List (Nat × Nat)
  /-- The L2's bytes on a window member, where they differ in effect from memory's (R258). -/
  l2       : List CacheByte
  caches   : List (Nat × List CacheByte)
  /-- Writes that have issued and are not yet performed, in issue order. -/
  late     : List LateWrite
  /-- The model's own: the accesses of the step that is made are performed later. -/
  slow     : Bool
  tlb      : List TlbEntry
  /-- The translation caches of the core-clusters (R189). -/
  xlats    : List TlbEntry
  /-- Frames of local memory that walks and the free pools of a context have named: context, address, size (R423). -/
  named    : List (Nat × Nat × Nat)
  icache   : List ICacheWord
  /-- Lines as they stood before they were written during a launch, oldest first, and what has been fetched fresh since when
  (R78). -/
  codeLines : List CodeLine
  codeSince : List CodeSince
  contexts : List Context
  launches : List Launch
  groups   : List Workgroup
  /-- The running warp, then every other live warp. -/
  warp     : Warp
  others   : List Warp
  queues   : List Queue
  /-- The queue served last, for each priority (R371). -/
  lastQueue : Vector Nat 4
  parks    : List Park
  events   : List HostEvent
  keys     : List KeySlot
  collGroups : List CollGroup
  instances : List CollInstance
  scrubs   : List Scrub
  scrubRestarted : Bool
  poisoned : List Nat
  retiredCores : List Nat
  errors   : Word
  peers    : List Peer
  /-- This member's own peer number (R425). -/
  selfPeer : Nat
  /-- Monitors armed at the L2 slices (R239). -/
  monitors : List Monitor
deriving DecidableEq, Repr

/-- Why the machine stops with a fault. -/
inductive Fault where
  /-- Raised by no meaning: the spec gives every step an effect, and a read of an address that names no memory gives all
  ones (R412). It stands here so that the type of faults has a name for a stop. Safe. -/
  | noEffectGiven
deriving DecidableEq, Repr

/-- Why an instruction is refused. -/
inductive Refusal where
  /-- The instruction has no meaning in the model yet; raised by Dispatch only. Safe. -/
  | notModelled (mnemonic : String)
deriving DecidableEq, Repr

def VReg.zero : VReg := Vector.replicate 96 0#32

/-- A slot that holds no warp: no split, every register 0. -/
def Warp.idle : Warp where
  key := ⟨0, 0, 0, 0⟩
  live := false
  core := 0
  half := false
  threads := 0
  splits := Vector.replicate 4 none
  cur := 0
  overflow := none
  vregs := Vector.replicate 128 VReg.zero
  sregs := Vector.replicate 128 0
  preds := Vector.replicate 8 0
  allot := 8
  fflags := 0
  clausest := 0
  barcount := 0
  trapcause := 0
  trappc := 0
  trapaddr := 0
  trapli := 0
  trapmask := false
  hold := none
  lklast := 0
  clock := 0
  cycleHi := none
  lclockHi := none
  rngstream := 0
  counters := Vector.replicate 96 0
  outstanding := []
  reds := []
  wound := none
  revoked := none
  issued := 0
  longSince := none
  yielded := none
  passed := false

/-- The machine right after reset (R431): no context, no queue, no warp, memory with nothing listed, the mailbox closed.
The member is a choice of the model's (log entry 1). -/
def State.reset : State where
  member := .g48
  up := false
  now := 0
  fresh := 0
  agenda := []
  mem := []
  lineKeys := []
  l2 := []
  caches := []
  late := []
  slow := false
  tlb := []
  xlats := []
  named := []
  icache := []
  codeLines := []
  codeSince := []
  contexts := []
  launches := []
  groups := []
  warp := Warp.idle
  others := []
  queues := []
  lastQueue := Vector.replicate 4 0
  parks := []
  events := []
  keys := []
  collGroups := []
  instances := []
  scrubs := []
  scrubRestarted := false
  poisoned := []
  retiredCores := []
  errors := 0
  peers := []
  selfPeer := 0
  monitors := []

end Sys2Proof.Machine
end

