-- ==== Sys2Proof/Machine/Memory.lean ====
section
/-! DEFINITION. Physical memory and the caches before it (R12, R229, R244, R258, R412, R415, R421), and translation
(R179 to R192). -/

namespace Sys2Proof.Machine

/-! Sparse bytes. -/

/-- The byte at `a`. -/
def cellGet : List Host.Cell → Nat → Byte
  | [], _ => Memory.default
  | c :: cs, a => if c.1 = a then c.2 else cellGet cs a

/-- Write `b` at `a`, keeping addresses rising and listing nothing that an unlisted byte reads as. -/
def cellSet : List Host.Cell → Nat → Byte → List Host.Cell
  | [], a, b => if b = Memory.default then [] else [(a, b)]
  | c :: cs, a, b =>
    if a < c.1 then (if b = Memory.default then c :: cs else (a, b) :: c :: cs)
    else if a = c.1 then (if b = Memory.default then cs else (a, b) :: cs)
    else c :: cellSet cs a b

def cellsGet (m : List Host.Cell) (a n : Nat) : List Byte := (List.range n).map fun i => cellGet m (a + i)
def cellsSet : List Host.Cell → Nat → List Byte → List Host.Cell
  | m, _, [] => m
  | m, a, b :: bs => cellsSet (cellSet m a b) (a + 1) bs

/-! The physical map (R412). -/

inductive Place where
  | local | host | peer (p : Nat) | identity | power | window | nothing
deriving DecidableEq, Repr

def hostBase : Nat := 0x4000000000000
def peerBase : Nat := 0x8000000000000
def identityBase : Nat := 0xF000000000000
def powerBase : Nat := 0xF000000001000
def windowBase : Nat := 0xF000000010000
def windowSize : Nat := 65536
/-- Entries of the power counter page: cores, slices, stacks, fabric blocks, Flerek ports with the host's (R430). -/
def powerEntries (m : Member) : Nat :=
  Config.cores m + Config.slices m + Config.hbmStacks m + 6 + (Config.peerPorts m + 1)
/-- Whole pages that hold them (log entry 79). -/
def powerSize (m : Member) : Nat := (16 * powerEntries m + 4095) / 4096 * 4096

/-- Where a physical address lies (R412). -/
def State.place (s : State) (pa : Nat) : Place :=
  if pa < Config.memoryBytes s.member then .local
  else if hostBase ≤ pa ∧ pa < peerBase then .host
  else if peerBase ≤ pa ∧ pa < peerBase + 256 * 2 ^ 41 then
    match s.peers.find? fun p => p.num == (pa - peerBase) / 2 ^ 41 with
    | some p => if (pa - peerBase) % 2 ^ 41 < p.size then .peer p.num else .nothing
    | none => .nothing
  else if identityBase ≤ pa ∧ pa < identityBase + 4096 then .identity
  else if powerBase ≤ pa ∧ pa < powerBase + powerSize s.member then .power
  else if Config.windowed s.member ∧ windowBase ≤ pa ∧ pa < windowBase + windowSize then .window
  else .nothing

/-- A frame names memory (R412). -/
def State.namesMemory (s : State) (pa : Nat) : Bool := s.place pa != .nothing

/-- One capability record (R429): payload items are quadwords (log entry 5). -/
def capRecord (ty : Nat) (payload : List Nat) (offset : Nat) (isLast : Bool) : List Byte :=
  let len := 1 + payload.length
  leBytes 8 (ty + 1 * 2 ^ 16 + len * 2 ^ 24 + (if isLast then 0 else (offset + 8 * len) * 2 ^ 32)) ++
    payload.flatMap (leBytes 8)

def State.keyMask (s : State) : Nat := s.keys.foldl (fun m k => m ||| 2 ^ k.slot) 0
def memberNumber : Member → Nat
  | .g960 => 960 | .g480 => 480 | .g120 => 120 | .g48 => 48

/-- The capability list at offset 0 of the identity page (R429). -/
def State.capabilities (s : State) : List Byte :=
  let m := s.member
  let recs : List (Nat × List Nat) := [
    (1, [memberNumber m, Config.cores m, Config.clusters m, Config.lanesPerPipe m, Config.arrayColumns m,
         s.retiredCores.length]),
    (2, [Config.memoryBytes m, Config.hbmStacks m, Config.slices m]),
    (3, [if Config.windowed m then 1 else 0, if Config.windowed m then windowBase else 0]),
    (4, [Config.peerPorts m, s.selfPeer]),
    (5, [8, 16]),
    (6, [64, s.keyMask, Config.algorithmIds.toNat]),
    (7, [1, 1]),
    (8, [32, 4096, 16])]
  (recs.foldl (fun (acc : List Byte × Nat) r =>
    (acc.1 ++ capRecord r.1 r.2 acc.1.length (acc.2 == 7), acc.2 + 1)) ([], 0)).1

/-- The blocks of the power counter page in order (R430): kind and index. -/
def powerBlock (m : Member) (k : Nat) : Option (Nat × Nat) :=
  let c := Config.cores m; let l := Config.slices m; let h := Config.hbmStacks m; let f := 6
  let p := Config.peerPorts m + 1
  if k < c then some (1, k) else if k < c + l then some (2, k - c) else if k < c + l + h then some (3, k - c - l)
  else if k < c + l + h + f then some (4, k - c - l - h)
  else if k < c + l + h + f + p then some (5, k - c - l - h - f) else none

def State.powerByte (s : State) (o : Nat) : Byte :=
  match powerBlock s.member (o / 16) with
  | none => 0
  | some (kind, idx) =>
    if o % 16 < 8 then (leBytes 8 (kind + idx * 256)).getD (o % 16) 0
    else (leBytes 8 (Config.energy (o / 16) s.now).toNat).getD (o % 8) 0

/-! Bytes at the home slice or at memory. -/

/-- The key a line's bytes are stored under (R421). -/
def State.lineKey (s : State) (pa : Nat) : Option Nat := (s.lineKeys.find? fun k => k.1 == pa / 64).map (·.2)

def cacheGet (c : List CacheByte) (a : Nat) : Option CacheByte := c.find? fun x => x.addr == a
def cacheDrop (c : List CacheByte) (a : Nat) : List CacheByte := c.filter fun x => x.addr != a
def cachePut (c : List CacheByte) (x : CacheByte) : List CacheByte := x :: cacheDrop c x.addr

/-- A byte of memory proper, as stored, behind the L2. -/
def State.rawByte (s : State) (pa : Nat) : Byte :=
  match s.place pa with
  | .nothing => 0xFF#8
  | .identity => s.capabilities.getD (pa - identityBase) 0
  | .power => s.powerByte (pa - powerBase)
  | _ => cellGet s.mem pa

/-- The byte that an access at the home slice sees: the L2's on a window member where it has one. -/
def State.storedByte (s : State) (pa : Nat) : Byte :=
  match if Config.windowed s.member then cacheGet s.l2 pa else none with
  | some c => c.val
  | none => s.rawByte pa

/-- A byte read at the home slice through key `key` (R421). -/
def State.homeByte (s : State) (key : Option Nat) (pa : Nat) : Byte :=
  readThrough s.storedByte key (s.lineKey pa) pa

def State.homeBytes (s : State) (key : Option Nat) (pa n : Nat) : List Byte :=
  (List.range n).map fun i => s.homeByte key (pa + i)
/-- A number read at the home slice through the PG path (R190). -/
def State.homeNat (s : State) (pa n : Nat) : Nat := ofLeBytes (s.homeBytes none pa n)

/-- Which agent writes: its context, the key of its mapping, its warp's clock in deterministic mode (R353), and the warp. -/
structure Writer where
  ctx   : Option Nat
  key   : Option Nat
  clock : Option Nat
  warp  : Option WarpKey
deriving DecidableEq, Repr

def Writer.device : Writer := ⟨none, none, none, none⟩

/-- Store a byte where the home slice keeps it: the L2 on a window member's cached memory, else memory (R258). -/
def State.putStored (s : State) (pa : Nat) (b : Byte) : State :=
  match s.place pa with
  | .nothing | .identity | .power => s
  | .local =>
    if Config.windowed s.member then { s with l2 := cachePut s.l2 ⟨pa, b, true, none, none, none, none, false⟩ }
    else { s with mem := cellSet s.mem pa b }
  | _ => { s with mem := cellSet s.mem pa b }

/-- Give a line the key `key`: its other bytes become what they read as under it (R421). -/
def State.rekeyLine (s : State) (pa : Nat) (key : Option Nat) : State :=
  if s.lineKey pa = key then s
  else
    let base := pa / 64 * 64
    let bytes := (List.range 4).flatMap fun j => blockThrough s.storedByte key (s.lineKey pa) (base + 16 * j)
    let s := (List.range 64).foldl (fun s i => s.putStored (base + i) (bytes.getD i 0)) s
    { s with lineKeys := (match key with | none => [] | some k => [(pa / 64, k)]) ++
                         s.lineKeys.filter fun k => k.1 != pa / 64 }

def State.context (s : State) (c : Nat) : Option Context := s.contexts.find? fun x => x.num == c
def State.modContext (s : State) (c : Nat) (f : Context → Context) : State :=
  { s with contexts := s.contexts.map fun x => if x.num == c then f x else x }

/-! Page entries (R180 to R184). -/

/-- Fields of a page entry (R182). -/
def entryBit (e : DWord) (i : Nat) : Bool := BitVec.getLsbD e i
def entryFrame (e : DWord) : Nat := (BitVec.extractLsb' 12 40 e).toNat * 4096
def entrySlot (e : DWord) : Nat := (BitVec.extractLsb' 52 6 e).toNat
def entryLayout (e : DWord) : Nat := (BitVec.extractLsb' 8 2 e).toNat

/-- Index bits, table size and leaf size of the levels A, B, C, D as 0, 1, 2, 3 (R181). -/
def levelIndex (l va : Nat) : Nat :=
  match l with
  | 0 => bitsOf va 44 13 | 1 => bitsOf va 33 11 | 2 => bitsOf va 21 12 | _ => bitsOf va 12 9
def tableSize : Nat → Nat
  | 0 => 65536 | 1 => 16384 | 2 => 32768 | _ => 4096
def leafSize : Nat → Nat
  | 1 => 2 ^ 33 | 2 => 2 ^ 21 | 3 => 4096 | _ => 2 ^ 44

/-- A valid entry is malformed (R183, R184, R412). -/
def State.malformed (s : State) (l idx : Nat) (e : DWord) : Bool :=
  let leaf := entryBit e 1
  let frame := entryFrame e
  let run := entryBit e 4
  let place := s.place frame
  (BitVec.extractLsb' 58 6 e != 0) || entryBit e 11 ||
  (leaf && l == 0) || (!leaf && l == 3) ||
  (!leaf && ((BitVec.extractLsb' 2 9 e != 0) || entrySlot e != 0 || frame % tableSize (l + 1) != 0)) ||
  (leaf && frame % leafSize l != 0) ||
  entryLayout e == 3 ||
  (run && l != 2 && l != 3) ||
  (entryBit e 5 && !(leaf && l == 3 && !run)) ||
  (!entryBit e 7 && entrySlot e != 0) ||
  place == .nothing ||
  (leaf && run && l == 3 && bitsOf frame 12 4 != idx % 16) ||
  (leaf && run && l == 2 && bitsOf frame 21 7 != idx % 128) ||
  (leaf && place != .local && (entryBit e 10 || entryBit e 5 || entryBit e 7)) ||
  (leaf && (place == .identity || place == .power) && (entryBit e 2 || entryBit e 3))

/-- The address of a context's page descriptor (R180). -/
def State.pageDesc (s : State) (ctx : Nat) : Nat := ((s.context ctx).map (·.pages)).getD 0
def State.descNat (s : State) (ctx off n : Nat) : Nat := s.homeNat (s.pageDesc ctx + off) n

/-! The frames of a context (R415, R423). -/

/-- The entries of a table that may be valid, by address: of what nothing has written every byte reads as 0, and no entry of
that is. -/
def State.entryAddrs (s : State) (table size : Nat) : List Nat :=
  let keyed : List Nat := s.lineKeys.flatMap fun k => (List.range 8).map fun i => 64 * k.1 + 8 * i
  ((s.mem.map (·.1) ++ s.l2.map (·.addr) ++ keyed).filterMap fun a =>
    if table ≤ a ∧ a < table + size then some (table + (a - table) / 8 * 8) else none).eraseDups

/-- The tables from one of level `l` down, with their sizes. -/
def State.tablesFrom (s : State) : Nat → Nat → Nat → List (Nat × Nat)
  | 0, _, _ => []
  | fuel + 1, l, table =>
    (table, tableSize l) :: (s.entryAddrs table (tableSize l)).flatMap fun a =>
      let e : DWord := BitVec.ofNat 64 (s.homeNat a 8)
      if !entryBit e 0 || s.malformed l ((a - table) / 8) e || entryBit e 1 then []
      else State.tablesFrom s fuel (l + 1) (entryFrame e)
/-- Local frames that a context's tables name, with their sizes: leaves, and the tables below. -/
def State.framesFrom (s : State) : Nat → Nat → Nat → List (Nat × Nat)
  | 0, _, _ => []
  | fuel + 1, l, table =>
    (s.entryAddrs table (tableSize l)).flatMap fun a =>
      let e : DWord := BitVec.ofNat 64 (s.homeNat a 8)
      let f := entryFrame e
      if !entryBit e 0 || s.malformed l ((a - table) / 8) e then []
      else if entryBit e 1 then (if s.place f == .local then [(f, leafSize l)] else [])
      else (if s.place f == .local then [(f, tableSize (l + 1))] else []) ++ State.framesFrom s fuel (l + 1) f

/-- A ring entry that can be taken: a frame of local memory. -/
def State.ringEntryOk (s : State) (e : Nat) : Bool := decide (e < 2 ^ 40) && s.place (e * 4096) == .local
/-- Where its free pool lies, and its size (R196). -/
def State.poolRing (s : State) (ctx : Nat) : Nat × Nat := (s.descNat ctx 0x18 8, 8 * min (s.descNat ctx 0x20 4) (2 ^ 24))
/-- Frames that its free pool names. -/
def State.poolFrames (s : State) (ctx : Nat) : List (Nat × Nat) :=
  let size := min (s.descNat ctx 0x20 4) (2 ^ 24)
  (List.range (min size (s.descNat ctx 0x28 4))).filterMap fun i =>
    let e := s.homeNat (s.descNat ctx 0x18 8 + 8 * i) 8
    if s.ringEntryOk e then some (e * 4096, 4096) else none
/-- What its tables and its free pool name now. -/
def State.namedNow (s : State) (ctx : Nat) : List (Nat × Nat) := s.framesFrom 4 0 (s.descNat ctx 0 8) ++ s.poolFrames ctx

def rangesMeet (a n b m : Nat) : Bool := decide (a < b + m) && decide (b < a + n)
/-- Bytes that name frames for a context: its page descriptor, its tables, its free pool. -/
def State.namesAt (s : State) (ctx lo n : Nat) : Bool :=
  ((s.pageDesc ctx, 64) :: s.poolRing ctx :: s.tablesFrom 4 0 (s.descNat ctx 0 8)).any fun x => rangesMeet x.1 x.2 lo n
/-- A write to such bytes: what they have named so far stays among the frames that the context has named (R423). -/
def State.keepNamed (s : State) (lo n : Nat) : State :=
  s.contexts.foldl (fun s c =>
    if s.namesAt c.num lo n then
      { s with named := (((s.namedNow c.num).map fun f => (c.num, f.1, f.2)).filter fun f => !s.named.contains f).eraseDups ++ s.named }
    else s) s

/-- The context names the frame of an address, or has named it (R423). -/
def State.hasNamed (s : State) (ctx pa : Nat) : Bool :=
  (s.named.any fun f => f.1 == ctx && decide (f.2.1 ≤ pa ∧ pa < f.2.1 + f.2.2)) ||
    (s.namedNow ctx).any fun f => decide (f.1 ≤ pa ∧ pa < f.1 + f.2)

/-- The first write to a 64-byte line of a checkpointed context's frames logs it, by any path: its own agents' and those of
the host and the peers (R415), with its bytes as they are stored, in the clear or not (R421). An append that would fill the log
is kept beside it, and a checkpoint is due (log entry 41). -/
def State.logLine (s : State) (c : Context) (pa : Nat) : State :=
  if c.interval = 0 ∨ c.current = none ∨ c.logged.contains (pa / 64) then s
  else
    let base := pa / 64 * 64
    let old := s.homeBytes none base 64
    if c.logSize ≤ 72 * (c.logCount + 1) then
      s.modContext c.num fun c => { c with
        spill := (base, old) :: c.spill, logged := pa / 64 :: c.logged, checkDue := true }
    else
      let s := { s with mem := cellsSet s.mem (c.logBase + 72 * c.logCount) (leBytes 8 base ++ old) }
      s.modContext c.num fun c => { c with logCount := c.logCount + 1, logged := pa / 64 :: c.logged }
def State.logWrite (s : State) (w : Writer) (pa : Nat) : State :=
  if s.place pa ≠ .local then s
  else (s.contexts.filter fun c => c.interval != 0 && (w.ctx == some c.num || s.hasNamed c.num pa)).foldl (fun s c => s.logLine c pa) s

/-- The waits that block a split in deterministic mode (R351). -/
def Wait.blocks : Wait → Bool
  | .barrier _ _ | .waitcmp _ _ _ | .lock _ _ _ _ | .htake _ _ | .ticket _ _ | .window => true
  | _ => false

def Monitor.covers (m : Monitor) (pa : Nat) : Bool := decide (m.addr ≤ pa) && decide (pa < m.addr + m.width)

/-- A blocked warp whose monitor a write of clock `c` fires takes the larger clock in the same step (R438). -/
def Warp.wakeClock (w : Warp) (c : Nat) : Warp :=
  let blocked := (List.finRange 4).all fun i => match w.splits[i] with
    | some p => p.wait.blocks
    | none => true
  if blocked && decide (w.clock.toNat < c) then { w with clock := BitVec.ofNat 64 c } else w

/-- A write of `w` at `pa` fires the monitor; one served by re-polling is fired by deterministic mode's writes alone, which
keep the order of R438. -/
def Monitor.firedBy (m : Monitor) (w : Writer) (pa : Nat) : Bool := m.covers pa && !m.fired && (!m.poll || w.clock.isSome)

/-- A write performed at `pa` fires the monitors armed there (R237, R438). -/
def State.fireAt (s : State) (w : Writer) (pa : Nat) : State :=
  if s.monitors.any fun m => m.firedBy w pa then
    let wakeIt (x : Warp) : Warp := match w.clock with
      | some c => if x.live && s.monitors.any fun m => m.firedBy w pa && m.warp == x.key then x.wakeClock c else x
      | none => x
    { s with
      monitors := s.monitors.map fun m => if m.firedBy w pa then { m with fired := true, clock := w.clock } else m
      warp := wakeIt s.warp
      others := s.others.map wakeIt }
  else s

/-- A line about to be written while a launch runs is kept as it stands, for cores that have not executed ICINV since (R78):
once for every moment from which code is fetched fresh. -/
def State.keepCode (s : State) (pa : Nat) : State :=
  let last := s.codeSince.foldl (fun m x => max m x.time) 0
  if s.launches.isEmpty || s.codeLines.any fun c => c.line == pa / 64 && decide (last < c.time) then s
  else
    let bytes := (List.range 64).map fun i => s.storedByte (pa / 64 * 64 + i)
    { s with codeLines := s.codeLines ++ [⟨s.now, pa / 64, s.lineKey pa, bytes⟩] }

/-- One byte written at the home slice. -/
def State.homeWriteByte (s : State) (w : Writer) (pa : Nat) (b : Byte) : State :=
  let s := (s.keepCode pa).logWrite w pa
  let s := if s.place pa = .local then s.rekeyLine pa w.key else s
  (s.putStored pa b).fireAt w pa

def State.homeWriteBytes (s : State) (w : Writer) : Nat → List Byte → State
  | _, [] => s
  | pa, b :: bs => State.homeWriteBytes (s.homeWriteByte w pa b) w (pa + 1) bs
/-- Bytes written at the home slices. -/
def State.homeWrite (s : State) (w : Writer) (pa : Nat) (bytes : List Byte) : State :=
  (s.keepNamed pa bytes.length).homeWriteBytes w pa bytes

/-! The cluster cache (R244). -/

def State.cacheOf (s : State) (cl : Nat) : List CacheByte :=
  ((s.caches.find? fun c => c.1 == cl).map (·.2)).getD []
def State.setCache (s : State) (cl : Nat) (c : List CacheByte) : State :=
  { s with caches := (cl, c) :: s.caches.filter fun x => x.1 != cl }

/-- Write one copy back: only a written byte carries (R244), with the clock of the warp that stored it (R353). -/
def State.writeBackByte (s : State) (cl pa : Nat) : State :=
  match cacheGet (s.cacheOf cl) pa with
  | some c =>
    if c.dirty then
      let s := (s.keepNamed pa 1).homeWriteByte ⟨c.ctx, c.key, c.clock, c.warp⟩ pa c.val
      s.setCache cl (cachePut (s.cacheOf cl) { c with dirty := false })
    else s
  | none => s

def State.dropCopyByte (s : State) (cl pa : Nat) : State := s.setCache cl (cacheDrop (s.cacheOf cl) pa)

end Sys2Proof.Machine

namespace Sys2Proof

/-- Scopes whose LS accesses are performed in the cluster cache (R243). -/
def Scope.narrow : Scope → Bool
  | .thread | .warp | .group | .core | .cluster => true
  | _ => false

end Sys2Proof

namespace Sys2Proof.Machine
/-- The cluster caches hold bytes of memory: what names none, and the pages that only read, are reached directly (R412). -/
def State.cacheable (s : State) (pa : Nat) : Bool :=
  match s.place pa with
  | .nothing | .identity | .power => false
  | _ => true

/-- One byte of an LS read (R243, R244). -/
def State.lsReadByte (s : State) (w : Writer) (cl : Nat) (narrow : Bool) (pa : Nat) : Byte × State :=
  if !s.cacheable pa then (s.homeByte w.key pa, s)
  else if narrow then
    match cacheGet (s.cacheOf cl) pa with
    | some c => (c.val, s)
    | none =>
      let b := s.homeByte w.key pa
      (b, s.setCache cl (cachePut (s.cacheOf cl) ⟨pa, b, false, w.key, w.ctx, none, none, false⟩))
  else
    let s := s.writeBackByte cl pa
    let b := s.homeByte w.key pa
    match cacheGet (s.cacheOf cl) pa with
    | some c => (b, s.setCache cl (cachePut (s.cacheOf cl) { c with val := b }))
    | none => (b, s)

def State.lsRead (s : State) (w : Writer) (cl : Nat) (narrow : Bool) : Nat → Nat → List Byte × State
  | _, 0 => ([], s)
  | pa, n + 1 =>
    let (b, s) := s.lsReadByte w cl narrow pa
    let (bs, s) := State.lsRead s w cl narrow (pa + 1) n
    (b :: bs, s)

/-- One byte of an LS write (R243, R244). -/
def State.lsWriteByte (s : State) (w : Writer) (cl : Nat) (narrow : Bool) (pa : Nat) (b : Byte) : State :=
  if !s.cacheable pa then s.homeWriteByte w pa b
  else if narrow then s.setCache cl (cachePut (s.cacheOf cl) ⟨pa, b, true, w.key, w.ctx, w.clock, w.warp, false⟩)
  else
    let s := (s.writeBackByte cl pa).homeWriteByte w pa b
    match cacheGet (s.cacheOf cl) pa with
    | some c => s.setCache cl (cachePut (s.cacheOf cl) { c with val := b })
    | none => s

def State.lsWriteBytes (s : State) (w : Writer) (cl : Nat) (narrow : Bool) : Nat → List Byte → State
  | _, [] => s
  | pa, b :: bs => State.lsWriteBytes (s.lsWriteByte w cl narrow pa b) w cl narrow (pa + 1) bs
def State.lsWrite (s : State) (w : Writer) (cl : Nat) (narrow : Bool) (pa : Nat) (bytes : List Byte) : State :=
  (if narrow && s.cacheable pa then s else s.keepNamed pa bytes.length).lsWriteBytes w cl narrow pa bytes

/-- Write back every written byte of a cluster cache that satisfies `p` (R247, R256). -/
def State.writeBackWhere (s : State) (cl : Nat) (p : Nat → Bool) : State :=
  ((s.cacheOf cl).filter fun c => c.dirty && p c.addr).foldl (fun s c => s.writeBackByte cl c.addr) s
/-- Drop the copies of a cluster cache that satisfy `p`, written bytes first written back (R228, R247). -/
def State.dropWhere (s : State) (cl : Nat) (p : Nat → Bool) : State :=
  let s := s.writeBackWhere cl p
  s.setCache cl ((s.cacheOf cl).filter fun c => !p c.addr)
def State.writeBackAll (s : State) (p : Nat → Bool) : State :=
  (s.caches.map (·.1)).foldl (fun s cl => s.writeBackWhere cl p) s
/-- No cluster cache keeps a copy, once written bytes are back. -/
def State.dropAll (s : State) (p : Nat → Bool) : State :=
  (s.caches.map (·.1)).foldl (fun s cl => s.dropWhere cl p) s

/-- Every written byte of every cluster cache is written back, and no copy stays. -/
def State.emptyCaches (s : State) : State := { (s.writeBackAll fun _ => true) with caches := [] }

/-- The L2's copy of a byte written back to memory, and dropped (R228, R258). -/
def State.l2Back (s : State) (pa : Nat) (drop : Bool) : State :=
  match cacheGet s.l2 pa with
  | none => s
  | some c =>
    let s := if c.dirty then { s with mem := cellSet s.mem pa c.val } else s
    { s with l2 := if drop then cacheDrop s.l2 pa else cachePut s.l2 { c with dirty := false } }

/-! Translation. -/

/-- Why a translated access does not proceed (R185, R191, R413, R425). -/
inductive XFault where
  | page (level : Nat) (malformed : Bool)
  | access
  | attr (level : Nat)
  | refused
  | cow
  | pool
  | ecc
  | link
deriving DecidableEq, Repr

/-- A translated address: the address, where it lies and under which key, and the size of its page. -/
structure Xlat where
  va   : Nat
  pa   : Nat
  key  : Option Nat
  page : Nat
deriving DecidableEq, Repr

/-- The walk from level `l` of the table at `table` (R181 to R183): the leaf, its level and where the entry lies. Of a run of
entries (R184) an access uses its own address's (log entry 89). -/
def State.walkFrom (s : State) (va : Nat) : Nat → Nat → Nat → Except XFault (DWord × Nat × Nat)
  | 0, l, _ => .error (.page l false)
  | fuel + 1, l, table =>
    let idx := levelIndex l va
    let at_ := table + 8 * idx
    let e : DWord := BitVec.ofNat 64 (s.homeNat at_ 8)
    if !entryBit e 0 then .error (.page l false)
    else if s.malformed l idx e then .error (.page l true)
    else if entryBit e 1 then .ok (e, l, at_)
    else State.walkFrom s va fuel (l + 1) (entryFrame e)

def State.walk (s : State) (ctx va : Nat) : Except XFault (DWord × Nat × Nat) :=
  s.walkFrom va 4 0 (s.descNat ctx 0 8)

/-- The frame-table record of a local frame (R186). -/
def State.frameRecAddr (s : State) (ctx frame : Nat) : Nat := s.descNat ctx 0x30 8 + 8 * (frame / 4096)
def State.frameTag (s : State) (ctx frame : Nat) : Bool := bitsOf (s.homeNat (s.frameRecAddr ctx frame) 8) 32 1 == 1

/-- The layout's permutation of a page offset (R187). -/
def layoutOffset (layout o : Nat) : Nat :=
  let o := o % 4096
  match layout with
  | 1 => o - bitsOf o 4 2 * 16 + (bitsOf o 4 2 ^^^ bitsOf o 6 2) * 16
  | 2 => o - bitsOf o 4 4 * 16 + (bitsOf o 4 4 ^^^ bitsOf o 8 4) * 16
  | _ => o

/-- The level of a leaf of a size. -/
def leafLevel (size : Nat) : Nat := if size = leafSize 1 then 1 else if size = leafSize 2 then 2 else 3

def AccessKind.writes : AccessKind → Bool
  | .store | .atomic | .copyWrite => true
  | _ => false

/-- Accesses that return what they read: a poisoned line fails them (R414). -/
def AccessKind.reads : AccessKind → Bool
  | .store | .copyWrite => false
  | _ => true

/-- The key of a context's own slot, when that is loaded (R420). -/
def State.keyOf (s : State) (ctx : Nat) : Option KeySlot :=
  match s.context ctx with
  | some c => if c.protect then s.keys.find? fun k => k.slot == c.keySlot else none
  | none => none
/-- The key a protected leaf is read under, when the context owns its slot (R185, R420). -/
def State.leafKey (s : State) (ctx : Nat) (e : DWord) : Except XFault (Option Nat) :=
  if !entryBit e 7 then .ok none
  else match (s.keyOf ctx).filter fun k => k.slot == entrySlot e with
    | some k => .ok (some k.key)
    | none => .error .access

def State.leafPa (e : DWord) (size va : Nat) : Nat :=
  entryFrame e + (va % size / 4096) * 4096 + layoutOffset (entryLayout e) va

/-- The checks of R185 on a leaf, in order; `fresh` says that a walk filled the translation (R186). -/
def State.checkLeaf (s : State) (ctx va : Nat) (kind : AccessKind) (ho fresh : Bool) (e : DWord) (size : Nat) :
    Except XFault Xlat :=
  if kind == .fetch && !entryBit e 3 then .error .access
  else if kind.writes && !entryBit e 2 then .error .access
  else
    match s.leafKey ctx e with
    | .error x => .error x
    | .ok key =>
      if ho && !entryBit e 6 then .error .refused
      else if fresh && s.place (entryFrame e) == .local && entryBit e 10 != s.frameTag ctx (entryFrame e) then
        .error (.attr (leafLevel size))
      else if kind.writes && entryBit e 5 then .error .cow
      else
        let pa := State.leafPa e size va
        match s.place pa with
        | .peer p => if s.peers.any fun x => x.num == p && x.up then .ok ⟨va, pa, key, size⟩ else .error .link
        | _ => if kind.reads && s.poisoned.contains (pa / 64) then .error .ecc else .ok ⟨va, pa, key, size⟩

/-- Cores hold translations by number; the fabric's agents (front end, engines, host, collectives) hold theirs together, as a
core beyond every core-cluster (log entry 80). -/
def fabric : Nat := 65535

def TlbEntry.covers (t : TlbEntry) (holder ctx va : Nat) : Bool := t.core == holder && t.ctx == ctx && va / t.size == t.vpage
/-- The newest `n` translations of a holder stay, and all of the others (R189). -/
def newestOf (holder : Nat) : Nat → List TlbEntry → List TlbEntry
  | _, [] => []
  | n, t :: ts =>
    if t.core = holder then
      match n with
      | 0 => newestOf holder 0 ts
      | n + 1 => t :: newestOf holder n ts
    else t :: newestOf holder n ts
def tlbEntries : Nat := 512
def xlatEntries : Nat := 8192
/-- A translation enters the TLB of its core, and the translation cache of its core-cluster (R189). -/
def State.fillTlb (s : State) (t : TlbEntry) : State :=
  if t.core = fabric then s else { s with tlb := t :: newestOf t.core (tlbEntries - 1) s.tlb }
def State.fillXlat (s : State) (t : TlbEntry) : State :=
  let t := { t with core := t.core / 8 }
  { s with xlats := t :: newestOf t.core (xlatEntries - 1) s.xlats }
/-- A walk has named a frame of local memory for the context (R423). -/
def State.nameFrame (s : State) (ctx frame size : Nat) : State :=
  if s.place frame == .local && !s.named.contains (ctx, frame, size) then { s with named := (ctx, frame, size) :: s.named } else s

/-- One access to a virtual address of a context (R179, R185, R189, R190): through the core's TLB, else the core-cluster's
translation cache, else a walk. -/
def State.translate (s : State) (core ctx : Nat) (va : DWord) (kind : AccessKind) (ho : Bool) :
    Except XFault Xlat × State :=
  let a := va.toNat
  if 2 ^ 57 ≤ a then (.error .access, s)
  else
    match s.tlb.find? (TlbEntry.covers · core ctx a) with
    | some t => (s.checkLeaf ctx a kind ho false t.leaf t.size, s)
    | none =>
      match s.xlats.find? (TlbEntry.covers · (core / 8) ctx a) with
      | some t => (s.checkLeaf ctx a kind ho false t.leaf t.size, s.fillTlb { t with core := core })
      | none =>
        match s.walk ctx a with
        | .error x => (.error x, s)
        | .ok (e, l, _) =>
          let r := s.checkLeaf ctx a kind ho true e (leafSize l)
          let s := s.nameFrame ctx (entryFrame e) (leafSize l)
          match r with
          | .ok _ =>
            let t : TlbEntry := ⟨core, ctx, a / leafSize l, leafSize l, e⟩
            (r, (s.fillXlat t).fillTlb t)
          | .error _ => (r, s)

/-- TLBINV's control word and address select the translation of a page of a context (R192). -/
def selects (sel ctx va : Nat) (c vpage size : Nat) : Bool :=
  match sel with
  | 0 => c == ctx && va % 2 ^ 57 / size == vpage
  | 1 => c == ctx
  | _ => true
def TlbEntry.selected (t : TlbEntry) (sel ctx va : Nat) : Bool := selects sel ctx va t.ctx t.vpage t.size
/-- TLBINV's drop of the translations that cover an address, or of a context, or of all, from every TLB and translation cache
(R192). -/
def State.tlbInvalidate (s : State) (sel ctx va : Nat) : State :=
  { s with
    tlb := s.tlb.filter fun t => !t.selected sel ctx va
    xlats := s.xlats.filter fun t => !t.selected sel ctx va }

/-! Reads under I (R257, R282). -/

/-- The parts of a lock name (R261). -/
def lkDomain (n : DWord) : Nat := bitsOf n.toNat 52 12
def lkTile (n : DWord) : Nat := bitsOf n.toNat 16 36
def lkLine (n : DWord) : Nat := bitsOf n.toNat 0 16
def allTiles : Nat := 2 ^ 36 - 1
def allLines : Nat := 2 ^ 16 - 1

def Context.domain (c : Context) (k : Nat) : Option Domain := (c.domains.find? fun d => d.1 == k).map (·.2)

/-- The object's bound region: its first address and the one after its last (R263). -/
def Context.region (c : Context) (n : DWord) : Option (Nat × Nat) :=
  (c.domain (lkDomain n)).map fun d =>
    let base := d.base.toNat
    let tile := base + lkTile n * 2 ^ d.tile
    if lkTile n = allTiles then (base, base + d.size)
    else if lkLine n = allLines then (tile, tile + 2 ^ d.tile)
    else (tile + 128 * lkLine n, tile + 128 * lkLine n + 128)

/-- The leaves below a table that map addresses from `lo` up to `hi`: address, size, entry. `base` is the first address of the
table, at level `l`. -/
def State.leavesIn (s : State) (lo hi : Nat) : Nat → Nat → Nat → Nat → List (Nat × Nat × DWord)
  | 0, _, _, _ => []
  | fuel + 1, l, table, base =>
    let first := (max lo base - base) / leafSize l
    let last := min ((hi - 1 - base) / leafSize l) (tableSize l / 8 - 1)
    ((List.range (last + 1 - first)).map (first + ·)).flatMap fun idx =>
      let e : DWord := BitVec.ofNat 64 (s.homeNat (table + 8 * idx) 8)
      if !entryBit e 0 || s.malformed l idx e then []
      else if entryBit e 1 then [(base + idx * leafSize l, leafSize l, e)]
      else State.leavesIn s lo hi fuel (l + 1) (entryFrame e) (base + idx * leafSize l)

/-- A leaf, and the part of its page that lies in a region. -/
structure OpenSpan where
  lo   : Nat
  hi   : Nat
  va   : Nat
  size : Nat
  leaf : DWord
deriving DecidableEq, Repr

/-- What is mapped of the regions of objects that any warp holds under I. -/
def State.openSpans (s : State) : List OpenSpan :=
  s.contexts.flatMap fun c => (c.holdings.filter fun h => h.mode == .i).flatMap fun h =>
    match c.region h.name with
    | none => []
    | some (lo, hi) => (s.leavesIn lo hi 4 0 (s.descNat c.num 0 8) 0).map fun x => ⟨lo, hi, x.1, x.2.1, x.2.2⟩
/-- A physical byte lies in the span: the layouts' permutations are their own inverses (R187). -/
def OpenSpan.holds (x : OpenSpan) (pa : Nat) : Bool :=
  let o := pa - entryFrame x.leaf
  let va := x.va + o / 4096 * 4096 + layoutOffset (entryLayout x.leaf) o
  decide (entryFrame x.leaf ≤ pa ∧ o < x.size ∧ x.lo ≤ va ∧ va < x.hi)

/-- What a read returns of bytes from a physical address on: free values for those bound to an object held under I, whatever
the mapping and the reader (R188, R257, R263). -/
def State.seen (s : State) (part pa : Nat) (bytes : List Byte) : List Byte :=
  match s.openSpans with
  | [] => bytes
  | l => bytes.zipIdx.map fun b =>
      if l.any fun x => x.holds (pa + b.2) then Config.underI s.now part (pa + b.2) else b.1

/-- Bytes of a virtual range in pieces that no layout or page boundary cuts: addresses and lengths of at most 16. -/
def chunks16 : Nat → Nat → Nat → List (Nat × Nat)
  | 0, _, _ => []
  | fuel + 1, a, n =>
    if n = 0 then [] else
    let k := min n (16 - a % 16)
    (a, k) :: chunks16 fuel (a + k) (n - k)

/-- Reads of an agent that goes to the home slice (R244): engines, front end, host. -/
def State.homeReadVa (s : State) (core ctx : Nat) (kind : AccessKind) (ho : Bool) (va n : Nat) :
    Except (XFault × Nat) (List Byte) × State :=
  (chunks16 (n + 1) va n).foldl (fun acc c =>
    match acc with
    | (.error e, s) => (.error e, s)
    | (.ok bs, s) =>
      match s.translate core ctx (BitVec.ofNat 64 c.1) kind ho with
      | (.error x, s) => (.error (x, c.1), s)
      | (.ok t, s) => (.ok (bs ++ s.seen 0 t.pa (s.homeBytes t.key t.pa c.2)), s)) (.ok [], s)

/-- Writes of such an agent; on a fault the pieces before it stay written. -/
def State.homeWriteVa (s : State) (core ctx : Nat) (kind : AccessKind) (ho : Bool) (va : Nat) (bytes : List Byte) :
    Option (XFault × Nat) × State :=
  (chunks16 (bytes.length + 1) va bytes.length).foldl (fun acc c =>
    match acc with
    | (some e, s) => (some e, s)
    | (none, s) =>
      match s.translate core ctx (BitVec.ofNat 64 c.1) kind ho with
      | (.error x, s) => (some (x, c.1), s)
      | (.ok t, s) => (none, s.homeWrite ⟨some ctx, t.key, none, none⟩ t.pa ((bytes.drop (c.1 - va)).take c.2))) (none, s)

/-- The home slice of a physical address (R229). -/
def homeSlice (m : Member) (pa : Nat) : Nat :=
  let p := (pa / 128 * 0x9E3779B97F4A7C15) % 2 ^ 64
  (p / 2 ^ 32) * Config.slices m / 2 ^ 32
/-- The home slice of a lock object, from its name (R263). -/
def lockSlice (m : Member) (name : DWord) : Nat :=
  let p := (name.toNat * 0x9E3779B97F4A7C15) % 2 ^ 64
  (p / 2 ^ 32) * Config.slices m / 2 ^ 32

end Sys2Proof.Machine
end

