-- ==== Sys2Proof/Machine/Operands.lean ====
section
/-! DEFINITION. The operand forms: registers of a warp, its masks, guard and clause type, and the launch header and the
other records an instruction looks up. -/

namespace Sys2Proof.Machine

/-! The launch header (R23). -/

def Header.num (h : Header) (off len : Nat) : Nat := ofLeBytes ((h.bytes.drop off).take len)
def Header.code (h : Header) : Nat := h.num 0x00 8
def Header.shape (h : Header) : Nat := h.num 0x08 8
def Header.width (h : Header) (i : Nat) : Nat := bitsOf h.shape (6 * i) 6
def Header.nfields (h : Header) : Nat := bitsOf h.shape 36 3
def Header.g (h : Header) : Nat := bitsOf h.shape 39 3
def Header.c (h : Header) : Nat := bitsOf h.shape 42 3
def Header.extent (h : Header) (i : Nat) : Nat := h.num (0x10 + 4 * i) 4
def Header.base (h : Header) : Nat := h.num 0x28 8
def Header.allot (h : Header) : Nat := 8 * h.num 0x30 1
def Header.streams (h : Header) : Nat := h.num 0x31 1
def Header.tickets (h : Header) : Nat := h.num 0x32 1
def Header.q (h : Header) : Nat := h.num 0x33 1
def Header.flags (h : Header) : Nat := h.num 0x34 4
def Header.det (h : Header) : Bool := bitsOf h.flags 0 1 == 1
def Header.debug (h : Header) : Bool := bitsOf h.flags 1 1 == 1
def Header.overlap (h : Header) : Bool := bitsOf h.flags 2 1 == 1
def Header.bufBytes (h : Header) (k : Nat) : Nat := h.num (0x38 + 4 * k) 4
def Header.args (h : Header) : Nat := h.num 0x48 8
def Header.trapBase (h : Header) : Nat := h.num 0x50 8
def Header.domTable (h : Header) : Nat := h.num 0x58 8
def Header.domCount (h : Header) : Nat := h.num 0x60 4
def Header.seed (h : Header) : DWord := BitVec.ofNat 64 (h.num 0x68 8)
def Header.graphTable (h : Header) : Nat := h.num 0x70 8
def Header.swapUs (h : Header) : Nat := h.num 0x78 4
/-- Wound grace; 0 selects 65,536 cycles (R23). -/
def Header.grace (h : Header) : Nat := if h.num 0x7C 4 = 0 then 65536 else h.num 0x7C 4

/-- The product of the extents of fields `lo` to `hi - 1` (R24, R25). -/
def Header.product (h : Header) (lo hi : Nat) : Nat :=
  (List.range (hi - lo)).foldl (fun p i => p * h.extent (lo + i)) 1
/-- Threads per workgroup T (R24). -/
def Header.threads (h : Header) : Nat := h.product 0 h.g
def Header.warps (h : Header) : Nat := (h.threads + 95) / 96
/-- CLSIZE (R25). -/
def Header.clsize (h : Header) : Nat := if h.c = 0 then 1 else h.product h.g h.c
def Header.workgroups (h : Header) : Nat := h.product h.g h.nfields
def Header.clustersOf (h : Header) : Nat := h.workgroups / h.clsize
def Header.rank (h : Header) (wglin : Nat) : Nat := wglin % h.clsize
/-- The digit of field `i` in a mixed-radix index over the fields from `lo` (R25). -/
def Header.digit (h : Header) (lo i idx : Nat) : Nat := idx / h.product lo i % h.extent i
/-- The value of field `i` of a thread (R25). -/
def Header.field (h : Header) (i tidx wglin : Nat) : Nat :=
  if h.nfields ≤ i then 0 else if i < h.g then h.digit 0 i tidx else h.digit h.g i wglin
/-- The first bit of field `i` (R22). -/
def Header.fieldPos (h : Header) (i : Nat) : Nat := (List.range i).foldl (fun p k => p + h.width k) 0
/-- The work identifier of R22. -/
def Header.workId (h : Header) (tidx wglin : Nat) : DWord :=
  BitVec.ofNat 64 ((List.range h.nfields).foldl (fun v i => v ||| h.field i tidx wglin * 2 ^ h.fieldPos i) h.base)
/-- Lanes of warp `i` that hold threads (R26). -/
def Header.threadMask (h : Header) (i : Nat) : LaneMask :=
  BitVec.ofNat 96 (2 ^ (min 96 (h.threads - 96 * i)) - 1)

/-! The running warp. -/

def Warp.sp (w : Warp) : Split := w.splits[w.cur].getD Split.empty
def Warp.setSp (w : Warp) (p : Split) : Warp := { w with splits := w.splits.set w.cur (some p) }
def Warp.modSp (w : Warp) (f : Split → Split) : Warp := w.setSp (f w.sp)

/-- Scalar register read: s0 is zero, s120 to s122 are the activity mask (R100). -/
def Warp.s (w : Warp) (r : Reg) : Word :=
  if r.val = 0 then 0
  else if 120 ≤ r.val ∧ r.val ≤ 122 then w.sp.active.part (r.val - 120)
  else w.sregs[r]

/-- Part `k` of a mask replaced. -/
def maskWithPart (m : LaneMask) (k : Nat) (v : Word) : LaneMask :=
  LaneMask.ofParts (if k = 0 then v else m.part 0) (if k = 1 then v else m.part 1) (if k = 2 then v else m.part 2)

/-- A write of part `k` of the activity mask keeps it within the membership (R100). -/
def Split.writeActive (p : Split) (k : Nat) (v : Word) : Split :=
  { p with active := maskWithPart p.active k v &&& p.member ||| p.active &&& ~~~(maskWithPart 0 k (~~~0)) }

/-- Scalar register write (R100). -/
def Warp.setS (w : Warp) (r : Reg) (v : Word) : Warp :=
  if r.val = 0 then w
  else if 120 ≤ r.val ∧ r.val ≤ 122 then w.modSp fun p => p.writeActive (r.val - 120) v
  else { w with sregs := w.sregs.set r v }

/-- The pair named by an even field, low word first (R5, R48). -/
def Warp.s64 (w : Warp) (r : Reg) : DWord := joinWords (w.s r) (w.s (r + 1))
def Warp.setS64 (w : Warp) (r : Reg) (v : DWord) : Warp := (w.setS r (lowWord v)).setS (r + 1) (highWord v)

/-- Vector register, one lane (R98). -/
def Warp.v (w : Warp) (r : Reg) (l : Lane) : Word := w.vregs[r][l]
def Warp.v64 (w : Warp) (r : Reg) (l : Lane) : DWord := joinWords (w.v r l) (w.v (r + 1) l)

def VReg.write (old : VReg) (m : LaneMask) (f : Lane → Word) : VReg :=
  Vector.ofFn fun l => if m.has l then f l else old[l]

/-- Write a vector register in the lanes of a mask; the other lanes keep their value (R7). -/
def Warp.setV (w : Warp) (r : Reg) (m : LaneMask) (f : Lane → Word) : Warp :=
  { w with vregs := w.vregs.set r (VReg.write w.vregs[r] m f) }
def Warp.setV64 (w : Warp) (r : Reg) (m : LaneMask) (f : Lane → DWord) : Warp :=
  (w.setV r m fun l => lowWord (f l)).setV (r + 1) m fun l => highWord (f l)

/-- Predicate read: p0 is true in every lane (R102). -/
def Warp.p (w : Warp) (k : PReg) : LaneMask := if k.val = 0 then ~~~0 else w.preds[k]
/-- Predicate write in the lanes of a mask; p0 ignores it (R102). -/
def Warp.setP (w : Warp) (k : PReg) (m bits : LaneMask) : Warp :=
  if k.val = 0 then w else { w with preds := w.preds.set k (w.preds[k] &&& ~~~m ||| bits &&& m) }

/-- The lanes active for an instruction that takes the guard (R7, R53). -/
def Warp.guarded (w : Warp) : LaneMask :=
  match w.sp.clause with
  | none => w.sp.active
  | some c => w.sp.active &&& (if c.word.neg then ~~~(w.p c.word.guard) else w.p c.word.guard)

def Warp.guardUse (w : Warp) : List Nat :=
  match w.sp.clause with
  | some c => [c.word.guard.val]
  | none => []

/-- The clause type, or the default (R53). -/
def Warp.ty (w : Warp) (dflt : Ty) : Ty := (w.sp.clause.map (·.word.ty)).getD dflt
def Warp.clauseRm (w : Warp) : Rm := (w.sp.clause.map (·.word.rm)).getD .rne
/-- The rounding mode of an instruction with a rounding field (R53). -/
def Warp.rm (w : Warp) (f : Rm) : Rm :=
  let m := if f = .dflt then w.clauseRm else f
  if m = .dflt then .rne else m
def Warp.group (w : Warp) : GroupCode := (w.sp.clause.map (·.word.grp)).getD .g96
/-- Scope() (R8). -/
def Warp.scope (w : Warp) : Scope := (w.sp.clause.map (·.word.scope)).getD .device
def Warp.ord (w : Warp) : Ordering4 := (w.sp.clause.map (·.word.ord)).getD .relaxed
end Sys2Proof.Machine

namespace Sys2Proof

def Ordering4.acquires : Ordering4 → Bool
  | .acquire | .acqRel => true | _ => false
def Ordering4.releases : Ordering4 → Bool
  | .release | .acqRel => true | _ => false

/-! Types (R51, R81, R112). -/

/-- Integer types. -/
def Ty.isInt : Ty → Bool
  | .i8x4 | .n8x4 | .i16x2 | .n16x2 | .i32 | .n32 | .i64 | .n64 => true | _ => false
def Ty.isFloat : Ty → Bool
  | .f16x2 | .bf16x2 | .f32 | .f64 | .e4m3x4 | .e5m2x4 => true | _ => false
def Ty.signed : Ty → Bool
  | .i8x4 | .i16x2 | .i32 | .i64 => true | _ => false
/-- Element width in bits. -/
def Ty.elemBits : Ty → Nat
  | .i8x4 | .n8x4 | .b8 | .e4m3x4 | .e5m2x4 => 8
  | .i16x2 | .n16x2 | .b16 | .f16x2 | .bf16x2 => 16
  | .i32 | .n32 | .b32 | .f32 => 32
  | .i64 | .n64 | .b64 | .f64 => 64
  | .b128 => 128
/-- Elements of a lane's operand. -/
def Ty.elems : Ty → Nat
  | .i8x4 | .n8x4 | .e4m3x4 | .e5m2x4 => 4
  | .i16x2 | .n16x2 | .f16x2 | .bf16x2 => 2
  | _ => 1
/-- Registers of an operand. -/
def Ty.regs : Ty → Nat
  | .i64 | .n64 | .b64 | .f64 => 2
  | .b128 => 4
  | _ => 1
def Ty.is64 (t : Ty) : Bool := t.regs == 2
/-- Bytes of an access of a bits type (R219). -/
def Ty.bytes (t : Ty) : Nat := if t.isBits then t.elemBits / 8 else 4 * t.regs

end Sys2Proof

namespace Sys2Proof.Machine
/-- The register numbers of an operand that begins at `r`. -/
def span (r : Reg) (n : Nat) : List Nat := (List.range n).map fun i => r.val + i

/-- An operand of `n` registers of a lane, as one number. -/
def Warp.vNat (w : Warp) (r : Reg) (n : Nat) (l : Lane) : Nat :=
  match n with
  | 2 => (w.v64 r l).toNat
  | 4 => (w.v64 r l).toNat + (w.v64 (r + 2) l).toNat * 2 ^ 64
  | _ => (w.v r l).toNat
def Warp.setVNat (w : Warp) (r : Reg) (n : Nat) (m : LaneMask) (f : Lane → Nat) : Warp :=
  match n with
  | 2 => w.setV64 r m fun l => BitVec.ofNat 64 (f l)
  | 4 => (w.setV64 r m fun l => BitVec.ofNat 64 (f l)).setV64 (r + 2) m fun l => BitVec.ofNat 64 (f l / 2 ^ 64)
  | _ => w.setV r m fun l => BitVec.ofNat 32 (f l)
/-- A scalar operand of `n` registers. -/
def Warp.sNat (w : Warp) (r : Reg) (n : Nat) : Nat :=
  match n with
  | 2 => (w.s64 r).toNat
  | 4 => (w.s64 r).toNat + (w.s64 (r + 2)).toNat * 2 ^ 64
  | _ => (w.s r).toNat
def Warp.setSNat (w : Warp) (r : Reg) (n : Nat) (v : Nat) : Warp :=
  match n with
  | 2 => w.setS64 r (BitVec.ofNat 64 v)
  | 4 => (w.setS64 r (BitVec.ofNat 64 v)).setS64 (r + 2) (BitVec.ofNat 64 (v / 2 ^ 64))
  | _ => w.setS r (BitVec.ofNat 32 v)

/-! Records of the state. -/

def State.modWarp (s : State) (f : Warp → Warp) : State := { s with warp := f s.warp }
/-- Every live warp. -/
def State.warps (s : State) : List Warp := (s.warp :: s.others).filter (·.live)
def State.warpAt (s : State) (k : WarpKey) : Option Warp := s.warps.find? fun w => w.key == k
def State.modWarps (s : State) (p : Warp → Bool) (f : Warp → Warp) : State :=
  { s with warp := if p s.warp then f s.warp else s.warp, others := s.others.map fun w => if p w then f w else w }
def State.modWarpAt (s : State) (k : WarpKey) (f : Warp → Warp) : State :=
  s.modWarps (fun w => w.live && w.key == k) f

/-- Make another warp the running one; a warp that is not live leaves the list. -/
def State.focus (s : State) (k : WarpKey) : State :=
  if s.warp.live && s.warp.key == k then s
  else
    match s.others.find? fun w => w.live && w.key == k with
    | none => s
    | some w =>
      let rest := s.others.filter fun x => !(x.live && x.key == k)
      { s with warp := w, others := if s.warp.live then rest ++ [s.warp] else rest }

/-- Work in another warp's split, then come back to the running one. -/
def State.inSplit (s : State) (k : WarpKey) (i : Fin 4) (f : State → State) : State :=
  let back := s.warp.key
  let s := s.focus k
  let cur := s.warp.cur
  let s := f (s.modWarp fun w => { w with cur := i })
  (s.modWarp fun w => { w with cur := cur }).focus back

def State.launch (s : State) (k : LaunchKey) : Option Launch := s.launches.find? fun l => l.key == k
def State.modLaunch (s : State) (k : LaunchKey) (f : Launch → Launch) : State :=
  { s with launches := s.launches.map fun l => if l.key == k then f l else l }
def Header.none : Header := ⟨[]⟩
/-- The launch header of a launch (R23). -/
def State.hdrOf (s : State) (k : LaunchKey) : Header := ((s.launch k).map (·.hdr)).getD Header.none
/-- The launch header of the running warp's launch. -/
def State.hdr (s : State) : Header := s.hdrOf s.warp.key.launch
def State.group? (s : State) (k : WgKey) : Option Workgroup := s.groups.find? fun g => g.key == k
def State.modGroup (s : State) (k : WgKey) (f : Workgroup → Workgroup) : State :=
  { s with groups := s.groups.map fun g => if g.key == k then f g else g }
def Workgroup.blank (k : WgKey) : Workgroup where
  key := k
  core := 0
  state := .resident
  reserve := 0
  entitlement := 0
  charge0 := 0
  charge1 := 0
  bufs := Vector.replicate 4 ⟨0, []⟩
  handles := Vector.replicate 16 ⟨.free, 0, .sb, 0, 0⟩
  barriers := Vector.replicate 16 ⟨[], 0, none⟩
  streams := Vector.replicate 16 ⟨0, 0, 0, 0, []⟩
  graphs := Vector.replicate 16 []
  passed := 0
  faulted := false
  exitClock := 0
/-- The running warp's workgroup. -/
def State.wg (s : State) : Workgroup := (s.group? s.warp.key.wg).getD (Workgroup.blank s.warp.key.wg)
def State.modWg (s : State) (f : Workgroup → Workgroup) : State := s.modGroup s.warp.key.wg f
def State.ctxOf (s : State) (c : Nat) : Option Context := s.context c
def Context.blank (c : Nat) : Context where
  num := c
  system := false
  protect := false
  keySlot := 0
  interval := 0
  pages := 0
  faultSave := 0
  areaA := 0
  areaB := 0
  current := none
  logBase := 0
  logSize := 0
  logCount := 0
  logged := []
  spill := []
  excess := 0
  programKey := none
  nextSeq := 1
  domains := []
  holdings := []
  waiting := []
  answered := []
  quanta := 0
  errcount := 0
  dead := false
  frozen := false
  saves := []
  checkDue := false
  cycleBase := 0
  lastCheck := 0
  kept := []
  measured := []
/-- The running warp's context. -/
def State.ctx (s : State) : Context := (s.context s.warp.key.ctx).getD (Context.blank s.warp.key.ctx)
/-- The core-cluster of the running warp (R12). -/
def State.cluster (s : State) : Nat := s.warp.core / 8
def State.det (s : State) : Bool := s.hdr.det
/-- CLRANK of the running warp (R25). -/
def State.rank (s : State) : Nat := s.hdr.rank s.warp.key.wglin
/-- The launch cluster's workgroup keys, by rank (R204). -/
def Header.clusterKeys (h : Header) (k : WgKey) : List WgKey :=
  (List.range h.clsize).map fun r => ⟨k.ctx, k.seq, k.wglin / h.clsize * h.clsize + r⟩
def State.clusterMate (s : State) (k : WgKey) (r : Nat) : WgKey :=
  let h := s.hdrOf k.launch
  ⟨k.ctx, k.seq, k.wglin / h.clsize * h.clsize + r⟩

/-! Ages (R268, R372). -/

/-- Serial comparison modulo 2^24 (R372). -/
def seqEarlier (a b : Nat) : Bool :=
  let d := (b + 2 ^ 24 - a % 2 ^ 24) % 2 ^ 24
  decide (1 ≤ d ∧ d < 2 ^ 23)
/-- Warp `a` is older than warp `b` (R268); equal ages go by context number. -/
def older (a b : WarpKey) : Bool :=
  if a.seq ≠ b.seq then seqEarlier a.seq b.seq
  else if a.wglin ≠ b.wglin then decide (a.wglin < b.wglin)
  else if a.widx ≠ b.widx then decide (a.widx < b.widx)
  else decide (a.ctx < b.ctx)
end Sys2Proof.Machine

namespace Sys2Proof

/-- The AGE register of a warp (R268). -/
def WarpKey.age (k : WarpKey) : DWord :=
  BitVec.ofNat 64 (k.seq % 2 ^ 24 * 2 ^ 40 + k.wglin % 2 ^ 32 * 256 + k.widx % 256)
def WarpKey.agex (k : WarpKey) : Word := BitVec.ofNat 32 (k.wglin / 2 ^ 32 % 65536)

end Sys2Proof

namespace Sys2Proof.Machine
/-- Insertion by an order, before the first element that is not below. -/
def insertBy {α : Type} (le : α → α → Bool) (x : α) : List α → List α
  | [] => [x]
  | y :: ys => if le x y then x :: y :: ys else y :: insertBy le x ys
def sortBy {α : Type} (le : α → α → Bool) (l : List α) : List α := l.foldr (insertBy le) []
/-- Keys oldest first. -/
def sortOldest (l : List WarpKey) : List WarpKey := sortBy (fun a b => !older b a) l

/-! The clause in the form of CLAUSEST (R54). -/

def Clause.toWord (c : Clause) : Word :=
  BitVec.ofNat 32 (c.left + c.word.guard.val * 32 + (if c.word.neg then 256 else 0) + c.word.ty.code * 512 +
    c.word.rm.code * 2 ^ 14 + c.word.grp.code * 2 ^ 17 + c.word.scope.code * 2 ^ 20 + c.word.ord.code * 2 ^ 24)
def clauseWordOpt (c : Option Clause) : Word := (c.map Clause.toWord).getD 0

/-- A CLAUSEST value read back: `none` when a field holds an UNDEF code or the count exceeds 16 (R54). -/
def clausestFields (v : Word) : Option (ClauseWord × Nat) :=
  let n := v.toNat
  match Ty.ofCode (bitsOf n 9 5), Rm.ofCode (bitsOf n 14 3), GroupCode.ofCode (bitsOf n 17 3),
        Scope.ofCode (bitsOf n 20 4), Ordering4.ofCode (bitsOf n 24 2) with
  | some ty, some rm, some grp, some scope, some ord =>
    if bitsOf n 0 5 ≤ 16 then
      some (⟨Fin.ofNat 16 (bitsOf n 0 5), bitsOf n 8 1 == 1, Fin.ofNat 8 (bitsOf n 5 3), ty, rm, grp, scope, ord⟩,
        bitsOf n 0 5)
    else none
  | _, _, _, _, _ => none
/-- The clause TRET puts back: a remaining count of 0 opens none (R389). -/
def clauseOfWord (v : Word) : Option Clause :=
  match clausestFields v with
  | some (c, n) => if n = 0 then none else some ⟨c, n⟩
  | none => none


end Sys2Proof.Machine
end

