-- ==== Sys2Proof/Machine/Boundary.lean ====
section
/-! DEFINITION. The end of an instruction (R49, R52, R109) and the instruction boundary of a warp (R38, R39, R177). -/

namespace Sys2Proof.Machine

/-! Retirement. -/

/-- The clause after one more governed instruction (R52). -/
def Clause.step (c : Clause) : Option Clause := if c.left ≤ 1 then none else some { c with left := c.left - 1 }

/-- An instruction retires: clocks, windows and the record of the handler's first fetch (R109, R350, R57). -/
def Warp.retired (w : Warp) : Warp :=
  { w with
    clock := w.clock + 1
    issued := w.issued + 1
    outstanding := w.outstanding.map fun l => if l.split = w.cur then { l with left := l.left - 1 } else l }
/-- The split after it: PC + 4, one instruction fewer in its clause (R49, R52). -/
def Split.advance (p : Split) : Split :=
  { p with pc := p.pc.next, clause := p.clause.bind Clause.step, wait := .ready, done := 0, entry := none }
/-- The split at a taken branch's target: its clause ends (R52). -/
def Split.goTo (p : Split) (t : Pc) : Split :=
  { p with pc := t, clause := none, wait := .ready, done := 0, entry := none }
/-- The split `k` retires its instruction out of a wait, after `f`; a warp released takes the waker's clock if later, and its
own count of 1 (R353). -/
def Warp.completeWait (w : Warp) (k : Fin 4) (clock : Option Nat) (f : Warp → Warp) : Warp :=
  let cur := w.cur
  let w := f { w with cur := k }
  let c := match clock with
    | some c => if w.clock.toNat < c then BitVec.ofNat 64 c else w.clock
    | none => w.clock
  let w := (({ w with clock := c } : Warp).modSp Split.advance).retired
  { w with cur := cur }

/-- Complete every split of a warp whose wait satisfies `p`. -/
def Warp.completeWaits (w : Warp) (p : Wait → Bool) (clock : Option Nat) (f : Warp → Warp) : Warp :=
  (List.finRange 4).foldl (fun w k => match w.splits[k] with
    | some x => if p x.wait then w.completeWait k clock f else w
    | none => w) w

/-- WOUND is due to enter (R385): it has reached its warp (R271, R285). -/
def Warp.woundDue (w : Warp) : Bool :=
  !w.trapmask && match w.wound with
    | some x => x.pending && x.reached
    | none => false

/-! The instruction boundary. -/

/-- The lowest split number in use by no split (R36). -/
def Warp.freeSplit (w : Warp) : Option (Fin 4) := (List.finRange 4).find? fun k => (w.splits[k]).isNone

/-- Equal clause states: the fields and the remaining count (R38), not the count a clause was opened with. -/
def Clause.sameState (a b : Option Clause) : Bool :=
  match a, b with
  | none, none => true
  | some a, some b => { a.word with count := 0 } == { b.word with count := 0 } && a.left == b.left
  | _, _ => false
/-- In none of the waits of R40: a wait on the overflow entry is over once that is empty. -/
def Warp.unblocked (w : Warp) : Wait → Bool
  | .ready => true
  | .overflow => w.overflow.isNone
  | _ => false

/-- Two splits qualify to merge (R38, R384). -/
def Warp.mayMerge (w : Warp) (i j : Fin 4) : Bool :=
  match w.splits[i], w.splits[j] with
  | some p, some q =>
    i != j && w.hold != some i && w.hold != some j && p.pc == q.pc && Clause.sameState p.clause q.clause &&
      p.trap == none && q.trap == none && p.entry == none && q.entry == none &&
      match p.wait with
      | .barrier n ph => q.wait == .barrier n ph
      | x => w.unblocked x && w.unblocked q.wait
  | _, _ => false

/-- Split `j` joins the lower-numbered split `i`. A yield of either is the merged split's (R176; log entry 98). -/
def Warp.mergeInto (w : Warp) (i j : Fin 4) : Warp :=
  match w.splits[i], w.splits[j] with
  | some p, some q =>
    { w with
      splits := (w.splits.set i (some { p with
        wait := if w.unblocked p.wait then .ready else p.wait
        member := p.member ||| q.member, active := p.active ||| q.active, done := p.done ||| q.done })).set j none
      cur := if w.cur = j then i else w.cur
      yielded := if w.yielded = some j then some i else w.yielded
      outstanding := w.outstanding.map fun l => if l.split = j then { l with split := i } else l }
  | _, _ => w

def splitPairs : List (Fin 4 × Fin 4) := [(0, 1), (0, 2), (0, 3), (1, 2), (1, 3), (2, 3)]

/-- Merge one qualifying pair. -/
def Warp.mergeOnce (w : Warp) : Warp :=
  match splitPairs.find? fun p => w.mayMerge p.1 p.2 with
  | some (i, j) => w.mergeInto i j
  | none => w

/-- The overflow entry becomes a split under the lowest free number (R38). -/
def Warp.promote (w : Warp) : Warp :=
  match w.overflow, w.freeSplit with
  | some o, some k =>
    { w with splits := w.splits.set k (some ⟨o.pc, o.member, o.active, o.clause, .ready, 0, none, none⟩), overflow := none }
  | _, _ => w

/-- The waits of R40; a split parked at a fault is in none of them (R38). -/
def Wait.blockedForExchange : Wait → Bool
  | .ready | .parked _ _ => false
  | _ => true

/-- The waiting split that R39 exchanges: the highest PC, then the highest number; not a trap handler, which keeps its number
while its hold lasts (R384). -/
def Warp.exchangeSplit (w : Warp) : Option (Fin 4) :=
  (List.finRange 4).foldl (fun best k =>
    match w.splits[k] with
    | some p =>
      if p.wait == .overflow && w.hold != some k then
        match best with
        | some b => if decide (((w.splits[b]).getD Split.empty).pc.toNat ≤ p.pc.toNat) then some k else best
        | none => some k
      else best
    | none => best) none

/-- The exchange of R39. -/
def Warp.exchange (w : Warp) : Warp :=
  let allBlocked := (List.finRange 4).all fun k => match w.splits[k] with
    | some p => p.wait.blockedForExchange
    | none => true
  match w.overflow, w.exchangeSplit with
  | some o, some k =>
    if allBlocked then
      let p := (w.splits[k]).getD Split.empty
      { w with
        overflow := some ⟨p.pc, p.member, p.active, p.clause⟩
        splits := w.splits.set k (some ⟨o.pc, o.member, o.active, o.clause, .ready, 0, none, none⟩) }
    else w
  | _, _ => w

/-- A wait in LKACQ or LKUP, for the object named or for any. -/
def isLockWait (n : Option DWord) : Wait → Bool
  | .lock _ x _ _ => n.all (· == x)
  | _ => false
def Warp.inLockWait (w : Warp) : Bool := (List.finRange 4).any fun k => match w.splits[k] with
  | some p => isLockWait none p.wait
  | none => false

/-- A wound of deterministic mode reaches its warp at the first boundary at its delivery point; one that waits in LKACQ or LKUP
it reaches with the global minimum (R285). -/
def Warp.meetWound (w : Warp) : Warp :=
  { w with wound := w.wound.map fun v =>
      match v.delivered with
      | some d => { v with reached := v.reached || (decide (d ≤ w.clock.toNat) && !w.inLockWait) }
      | none => v }

/-- Every SLEEP of the warp ends: it retires. -/
def Warp.endSleeps (w : Warp) : Warp := w.completeWaits (fun x => match x with | .sleep _ => true | _ => false) none id
/-- A WOUND that is due ends every SLEEP of the warp (R177). -/
def Warp.wakeSleep (w : Warp) : Warp := if w.woundDue then w.endSleeps else w
/-- A long instruction whose window closes before the warp issues further (R58); a split that a handler holds back closes
none (R384). -/
def Warp.dueWindow (w : Warp) : Option LongOp := w.outstanding.find? fun l => l.left == 0 && w.hold.all (· == l.split)

/-- Everything a boundary does, in the order of R38, then R39. Three merges at most can take place. -/
def Warp.boundary (w : Warp) : Warp := w.meetWound.wakeSleep.mergeOnce.mergeOnce.mergeOnce.promote.exchange

end Sys2Proof.Machine
end

