-- ==== Sys2Proof/Machine/Flags.lean ====
section
/-! DEFINITION. The number formats and RoundTo with its flags (R8, R79 to R96), and every flag computation of the
floating forms (R9, R151). Values are exact; flags are NV, DZ, OF, UF, NX as bits 0 to 4 of a number. -/

namespace Sys2Proof.Machine

def flNV : Nat := 1
def flDZ : Nat := 2
def flOF : Nat := 4
def flUF : Nat := 8
def flNX : Nat := 16

/-- A binary format: exponent bits, bias, fraction bits, and what its top codes mean (R83, R84). -/
structure FFmt where
  eb   : Nat
  bias : Nat
  fb   : Nat
  /-- Has infinities and IEEE NaNs. -/
  inf  : Bool
  /-- Has NaN codes but no infinity: E4M3. -/
  nan  : Bool
deriving DecidableEq, Repr

def f64F : FFmt := ⟨11, 1023, 52, true, true⟩
def f32F : FFmt := ⟨8, 127, 23, true, true⟩
def f16F : FFmt := ⟨5, 15, 10, true, true⟩
def bf16F : FFmt := ⟨8, 127, 7, true, true⟩
def e4m3F : FFmt := ⟨4, 7, 3, false, true⟩
def e5m2F : FFmt := ⟨5, 15, 2, true, true⟩
def e2m3F : FFmt := ⟨2, 1, 3, false, false⟩
def e3m2F : FFmt := ⟨3, 3, 2, false, false⟩
def e2m1F : FFmt := ⟨2, 1, 1, false, false⟩

def FFmt.bits (f : FFmt) : Nat := 1 + f.eb + f.fb
/-- Precision in bits. -/
def FFmt.prec (f : FFmt) : Nat := f.fb + 1
/-- Exponent of the last place of a subnormal. -/
def FFmt.emin (f : FFmt) : Int := 1 - (f.bias : Int) - f.fb
def FFmt.signBit (f : FFmt) : Nat := 2 ^ (f.eb + f.fb)
/-- The largest finite code, without its sign (R84). -/
def FFmt.maxCode (f : FFmt) : Nat :=
  if f.inf then 2 ^ (f.eb + f.fb) - 2 ^ f.fb - 1 else if f.nan then 2 ^ (f.eb + f.fb) - 2 else 2 ^ (f.eb + f.fb) - 1
def FFmt.infCode (f : FFmt) : Nat := 2 ^ (f.eb + f.fb) - 2 ^ f.fb
/-- The canonical NaN (R89); +0 in a format without a NaN (R93). -/
def FFmt.nanCode (f : FFmt) : Nat :=
  if f = e4m3F then 0x7F else if f = e5m2F then 0x7E
  else if f.inf then f.infCode + 2 ^ (f.fb - 1) else 0

/-- An exact value: `fin neg m e` is ± m × 2^e. -/
inductive FVal where
  | nan (signalling : Bool)
  | inf (neg : Bool)
  | fin (neg : Bool) (m : Nat) (e : Int)
deriving DecidableEq, Repr

def FVal.isNan : FVal → Bool
  | .nan _ => true | _ => false
def FVal.isSnan : FVal → Bool
  | .nan b => b | _ => false
def FVal.neg : FVal → Bool
  | .nan _ => false | .inf n => n | .fin n _ _ => n
def FVal.negate : FVal → FVal
  | .nan b => .nan b | .inf n => .inf (!n) | .fin n m e => .fin (!n) m e
def FVal.isZero : FVal → Bool
  | .fin _ m _ => m == 0 | _ => false

/-- The value of a code (R83, R84). The NaNs of E4M3 and E5M2 are quiet. -/
def FFmt.decode (f : FFmt) (c : Nat) : FVal :=
  let neg := bitsOf c (f.eb + f.fb) 1 == 1
  let ex := bitsOf c f.fb f.eb
  let fr := bitsOf c 0 f.fb
  if f.inf && ex == 2 ^ f.eb - 1 then
    if fr == 0 then .inf neg else .nan (f.eb + f.fb != 7 && bitsOf fr (f.fb - 1) 1 == 0)
  else if f.nan && !f.inf && ex == 2 ^ f.eb - 1 && fr == 2 ^ f.fb - 1 then .nan false
  else if ex == 0 then .fin neg fr f.emin
  else .fin neg (2 ^ f.fb + fr) (f.emin + ex - 1)

/-- A magnitude to be rounded: m × 2^e, or strictly between m and m + 1 times 2^e when `more`. -/
structure Mag where
  m    : Nat
  e    : Int
  more : Bool
deriving DecidableEq, Repr

/-- Whole part and remainder of a magnitude in units of 2^q: quotient, remainder, unit. -/
def Mag.split (x : Mag) (q : Int) : Nat × Nat × Nat :=
  let sh := q - x.e
  if sh ≤ 0 then (x.m * 2 ^ (-sh).toNat, 0, 1)
  else (x.m / 2 ^ sh.toNat, x.m % 2 ^ sh.toNat, 2 ^ sh.toNat)

/-- Whether the magnitude rounds away (R90, R91): quotient, remainder, unit, sticky. `r` is the draw's low 24 bits. -/
def roundsUp (rm : Rm) (neg : Bool) (n rem unit : Nat) (more : Bool) (r : Nat) : Bool :=
  let inexact := rem != 0 || more
  match rm with
  | .dflt | .rne => decide (unit < 2 * rem) || (2 * rem == unit && (more || n % 2 == 1))
  | .rna => decide (unit ≤ 2 * rem)
  | .rtz => false
  | .rup => inexact && !neg
  | .rdn => inexact && neg
  | .sr => inexact && decide (2 ^ 24 ≤ rem * 2 ^ 24 / unit + r)

/-- floor(log2) of a nonzero magnitude. -/
def Mag.top (x : Mag) : Int := (floorLog2 x.m : Int) + x.e

/-- The exponent of the last place that a magnitude is rounded in. -/
def FFmt.quantum (f : FFmt) (x : Mag) : Int := max (x.top - f.fb) f.emin

/-- RoundTo for a finite value (R8, R90 to R93): the code and the flags. -/
def FFmt.round (f : FFmt) (rm : Rm) (r : Nat) (neg : Bool) (x : Mag) : Nat × Nat :=
  let sign := if neg then f.signBit else 0
  if x.m = 0 ∧ !x.more then (sign, 0)
  else
    let x := if x.m = 0 then ⟨1, x.e - 60, true⟩ else x
    let q := f.quantum x
    let (n, rem, unit) := x.split q
    let inexact := rem != 0 || x.more
    let n := if roundsUp rm neg n rem unit x.more r then n + 1 else n
    let code := if n < 2 ^ f.fb then n else (q - f.emin).toNat * 2 ^ f.fb + n
    if f.maxCode < code then
      let toInf := match rm with
        | .rtz => false | .rup => !neg | .rdn => neg | _ => true
      (sign + (if f.inf && toInf then f.infCode else f.maxCode), flOF ||| flNX)
    else
      let (tn, trem, tunit) := x.split (x.top - f.fb)
      let tn := if roundsUp rm neg tn trem tunit x.more r then tn + 1 else tn
      let tiny := decide (x.top < f.emin + f.fb) && !(x.top == f.emin + f.fb - 1 && tn == 2 ^ (f.fb + 1))
      (sign + code, if inexact then (if tiny then flUF ||| flNX else flNX) else 0)

/-- A NaN or an infinity narrowed to a format (R89, R93). -/
def FFmt.special (f : FFmt) : FVal → Nat × Nat
  | .nan s => (f.nanCode, if s || !f.nan then flNV else 0)
  | .inf n => if f.inf then ((if n then f.signBit else 0) + f.infCode, 0)
              else ((if n then f.signBit else 0) + f.maxCode, flNV)
  | .fin _ _ _ => (0, 0)

/-- RoundTo (R8). -/
def FFmt.ofVal (f : FFmt) (rm : Rm) (r : Nat) : FVal → Nat × Nat
  | .fin n m e => f.round rm r n ⟨m, e, false⟩
  | v => f.special v

/-! Exact arithmetic. -/

/-- The signed integer that a finite value is, in units of 2^q, for q at most its exponent. -/
def unitsOf (neg : Bool) (m : Nat) (e q : Int) : Int :=
  let v : Int := (m * 2 ^ (e - q).toNat : Nat)
  if neg then -v else v

def FVal.ofInt (i : Int) (e : Int) (zeroNeg : Bool) : FVal :=
  if i = 0 then .fin zeroNeg 0 e else .fin (decide (i < 0)) i.natAbs e

/-- Outcome of an operation before rounding: a value, and the flags raised so far. -/
abbrev FOut := FVal × Nat

def nvNan : FOut := (.nan false, flNV)
def anyNan (l : List FVal) : FOut := (.nan false, if l.any FVal.isSnan then flNV else 0)

/-- Exact sum; a zero sum of opposite signs is -0 under RDN only (R132). -/
def FVal.add (rm : Rm) (a b : FVal) : FOut :=
  match a, b with
  | .nan _, _ | _, .nan _ => anyNan [a, b]
  | .inf x, .inf y => if x = y then (.inf x, 0) else nvNan
  | .inf x, _ | _, .inf x => (.inf x, 0)
  | .fin n1 m1 e1, .fin n2 m2 e2 =>
    let q := min e1 e2
    let t := unitsOf n1 m1 e1 q + unitsOf n2 m2 e2 q
    let zn := if m1 = 0 ∧ m2 = 0 ∧ n1 = n2 then n1 else rm = .rdn
    (FVal.ofInt t q zn, 0)

/-- Exact product. -/
def FVal.mul (a b : FVal) : FOut :=
  match a, b with
  | .inf x, .fin y m _ | .fin y m _, .inf x => if m = 0 then nvNan else (.inf (x != y), 0)
  | .nan _, _ | _, .nan _ => anyNan [a, b]
  | .inf x, .inf y => (.inf (x != y), 0)
  | .fin n1 m1 e1, .fin n2 m2 e2 => (.fin (n1 != n2) (m1 * m2) (e1 + e2), 0)

/-- ± a × b + c as one exact value, in the order of R136. -/
def FVal.fma (rm : Rm) (negProd : Bool) (a b c : FVal) : FOut :=
  let zeroTimesInf := match a, b with
    | .inf _, .fin _ m _ | .fin _ m _, .inf _ => m == 0
    | _, _ => false
  if zeroTimesInf then nvNan
  else if a.isNan || b.isNan || c.isNan then anyNan [a, b, c]
  else
    let p := (FVal.mul a b).1
    FVal.add rm (if negProd then p.negate else p) c

/-- Value order of numbers: a < b. -/
def FVal.lt (a b : FVal) : Bool :=
  match a, b with
  | .inf x, .inf y => x && !y
  | .inf x, _ => x
  | _, .inf y => !y
  | .fin n1 m1 e1, .fin n2 m2 e2 =>
    let q := min e1 e2
    decide (unitsOf n1 m1 e1 q < unitsOf n2 m2 e2 q)
  | _, _ => false

/-! Conversion to integers (R94). -/

/-- A finite magnitude rounded to an integer by the mode: the integer and whether it was inexact. -/
def roundInt (rm : Rm) (r : Nat) (neg : Bool) (x : Mag) : Nat × Bool :=
  let (n, rem, unit) := x.split 0
  (if roundsUp rm neg n rem unit x.more r then n + 1 else n, rem != 0 || x.more)

def intMin (w : Nat) (signed : Bool) : Int := if signed then -(2 ^ (w - 1) : Int) else 0
def intMax (w : Nat) (signed : Bool) : Int := if signed then (2 ^ (w - 1) : Int) - 1 else (2 ^ w : Int) - 1

/-- A floating value narrowed to an integer type of `w` bits. -/
def toIntType (w : Nat) (signed : Bool) (rm : Rm) (r : Nat) : FVal → Nat × Nat
  | .nan _ => (0, flNV)
  | .inf n => (wrapTo w (if n then intMin w signed else intMax w signed), flNV)
  | .fin n m e =>
    let (k, inexact) := roundInt rm r n ⟨m, e, false⟩
    let v : Int := if n then -(k : Int) else k
    if v < intMin w signed then (wrapTo w (intMin w signed), flNV)
    else if intMax w signed < v then (wrapTo w (intMax w signed), flNV)
    else (wrapTo w v, if inexact then flNX else 0)

/-! TS8 (R85, R86, R93). -/

def ts8Term (t : Nat) : Int :=
  if t % 16 = 8 then 0 else if 8 ≤ t % 16 then -(2 ^ (t % 8) : Int) else 2 ^ (t % 8)
def ts8Value (c : Nat) : Int := ts8Term (c / 16) + ts8Term c

def ts8Terms (c : Nat) : Nat := (if ts8Term (c / 16) = 0 then 0 else 1) + (if ts8Term c = 0 then 0 else 1)
/-- How a code ranks among those of one value (R86): smaller is preferred. -/
def ts8Rank (c : Nat) : Nat :=
  let hi := (ts8Term (c / 16)).natAbs
  let lo := (ts8Term c).natAbs
  ts8Terms c * 2 ^ 20 + (if hi < lo then 2 ^ 19 else 0) + hi * 2
/-- The canonical code of a TS8 value (R86). -/
def ts8Code (v : Int) : Option Nat :=
  ((List.range 256).filter fun c => ts8Value c == v).foldl
    (fun best c => match best with
      | none => some c
      | some b => if ts8Rank c < ts8Rank b then some c else some b) none

/-- The magnitudes of the TS8 values of one sign in ascending order, with the overflow neighbour 320 (R93). No term is worth
−1, so the two signs have different odd values (R85). -/
def ts8Mags (neg : Bool) : List Nat :=
  (List.range 257).filter (fun (k : Nat) => (ts8Code (if neg then -(k : Int) else k)).isSome) ++ [320]

/-- RoundTo TS8. A tie goes to the smaller magnitude under RNE (R90). -/
def ts8Round (rm : Rm) (r : Nat) (neg : Bool) (x : Mag) : Nat × Nat :=
  let (n, rem, unit) := x.split 0
  let inexactFrac := rem != 0 || x.more
  let sgn (k : Nat) : Int := if neg then -(k : Int) else k
  let code (k : Nat) : Nat := (ts8Code (sgn k)).getD 0x88
  let top := if neg then 0xFF else 0x77
  if 320 ≤ n then (top, flOF ||| flNX)
  else
    let lo := ((ts8Mags neg).filter (· ≤ n)).getLastD 0
    if lo = n ∧ !inexactFrac then (code n, 0)
    else
      let hi := ((ts8Mags neg).find? (n < ·)).getD 320
      -- position of |x| between lo and hi, in units of 1/unit
      let pos := (n - lo) * unit + rem
      let width := (hi - lo) * unit
      let up := match rm with
        | .dflt | .rne => decide (width < 2 * pos) || (2 * pos == width && x.more)
        | .rna => decide (width ≤ 2 * pos)
        | .rtz => false
        | .rup => !neg
        | .rdn => neg
        | .sr => decide (2 ^ 24 ≤ pos * 2 ^ 24 / width + r)
      let k := if up then hi else lo
      if k = 320 then (top, flOF ||| flNX) else (code k, flNX)

def ts8OfVal (rm : Rm) (r : Nat) : FVal → Nat × Nat
  | .nan _ => (0x88, flNV)
  | .inf n => (if n then 0xFF else 0x77, flNV)
  | .fin n m e => ts8Round rm r n ⟨m, e, false⟩

/-! Types of the clause as formats. -/

/-- The element format of a floating type (R51). -/
def tyFmt : Ty → FFmt
  | .f16x2 => f16F | .bf16x2 => bf16F | .f64 => f64F | .e4m3x4 => e4m3F | .e5m2x4 => e5m2F | _ => f32F

/-! Random draws (R346, R347). -/

def rotl32 (x : Word) (n : Nat) : Word := BitVec.rotateLeft x n

def mixRound (seed : DWord) (st : Word × Word × Word × Word) (i : Nat) : Word × Word × Word × Word :=
  let (x0, x1, x2, x3) := st
  let k := (if i % 2 = 0 then lowWord seed else highWord seed) + BitVec.ofNat 32 (i * 0x9E3779B9)
  let x0 := x0 + x1 + k
  let x3 := rotl32 (x3 ^^^ x0) 16
  let x2 := x2 + x3
  let x1 := rotl32 (x1 ^^^ x2) 12
  let x0 := x0 + x1
  let x3 := rotl32 (x3 ^^^ x0) 8
  let x2 := x2 + x3
  let x1 := rotl32 (x1 ^^^ x2) 7
  (x0, x1, x2, x3)

/-- Mix (R347). -/
def mix (seed sid : DWord) (ctr : BitVec 48) : Word :=
  let st := (BitVec.extractLsb' 0 32 ctr, lowWord sid, highWord sid, BitVec.setWidth 32 (BitVec.extractLsb' 32 16 ctr))
  let (x0, x1, x2, x3) := (List.range 8).foldl (mixRound seed) st
  x0 ^^^ x1 ^^^ x2 ^^^ x3 ^^^ lowWord seed

/-- The stream identifier of a lane (R346): the launch-wide linear index, under the warp's RNGSTREAM. -/
def streamId (h : Header) (w : Warp) (l : Lane) : DWord :=
  BitVec.ofNat 64 ((w.key.wglin * h.threads + w.key.widx * 96 + l.val) % 2 ^ 48 + w.rngstream.toNat * 2 ^ 48)

/-- The draw a lane takes at `n` draws past its counter (R347). -/
def drawAt (h : Header) (w : Warp) (l : Lane) (n : Nat) : Word :=
  mix h.seed (streamId h w l) (w.counters[l] + BitVec.ofNat 48 n)

/-- Counters after each lane of `m` takes `n l` draws, and whether one wrapped to zero (R8). -/
def Warp.advance (w : Warp) (m : LaneMask) (n : Lane → Nat) : Warp :=
  let wrapped := (List.finRange 96).any fun l => m.has l && decide (2 ^ 48 ≤ w.counters[l].toNat + n l)
  { w with
    counters := Vector.ofFn fun l => if m.has l then w.counters[l] + BitVec.ofNat 48 (n l) else w.counters[l]
    fflags := if wrapped then w.fflags ||| 0x20#32 else w.fflags }

/-- OR raised flags into FFLAGS (R9). -/
def Warp.raiseFlags (w : Warp) (f : Nat) : Warp := { w with fflags := w.fflags ||| BitVec.ofNat 32 (f % 32) }
/-- A raised flag's trap enable is set (R9, R152). -/
def Warp.flagTrap (w : Warp) (f : Nat) : Bool := (bitsOf w.fflags.toNat 8 5 &&& f) != 0

end Sys2Proof.Machine
end

