-- ==== Sys2Proof/Machine/Elements.lean ====
section
/-! DEFINITION. Elements of packed operands (R81, R112), the min and max of R137, and the operations of atomics (R230). -/

namespace Sys2Proof.Machine

/-- Element `i` of `w` bits (R81). -/
def elemOf (w i v : Nat) : Nat := bitsOf v (w * i) w
def packElems (w : Nat) (l : List Nat) : Nat := l.foldr (fun e acc => e % 2 ^ w + acc * 2 ^ w) 0

/-- Each element of an operand of `n` elements, computed on its own (R112, R131). -/
def mapElems (w n : Nat) (f : Nat → Nat) : Nat := packElems w ((List.range n).map f)

end Sys2Proof.Machine

namespace Sys2Proof

/-- Val: an element as an integer, by the type (R112). -/
def Ty.val (t : Ty) (x : Nat) : Int := if t.signed then signedOf t.elemBits x else ((x % 2 ^ t.elemBits : Nat) : Int)
/-- Sat: clamped to the type's range (R112). -/
def Ty.sat (t : Ty) (v : Int) : Nat :=
  let w := t.elemBits
  let lo : Int := if t.signed then -(2 ^ (w - 1) : Int) else 0
  let hi : Int := if t.signed then (2 ^ (w - 1) : Int) - 1 else (2 ^ w : Int) - 1
  wrapTo w (max lo (min hi v))

end Sys2Proof

namespace Sys2Proof.Machine

/-- FMIN, FMAX (`num` false) and FMINNUM, FMAXNUM on one element (R137): bits and flags. -/
def fMinMax (f : FFmt) (isMax num : Bool) (a b : Nat) : Nat × Nat :=
  let x := f.decode a
  let y := f.decode b
  let fl := if x.isSnan || y.isSnan then flNV else 0
  if x.isNan && y.isNan then (f.nanCode, fl)
  else if x.isNan then (if num then b else f.nanCode, fl)
  else if y.isNan then (if num then a else f.nanCode, fl)
  else
    -- -0 is below +0
    let less := x.lt y || (x.isZero && y.isZero && x.neg && !y.neg)
    let greater := y.lt x || (x.isZero && y.isZero && y.neg && !x.neg)
    (if isMax then (if less then b else a) else (if greater then b else a), fl)

/-- The operations of atomics (R230). -/
inductive AOp where
  | add | min | max | and | or | xor | xchg | cas | incw | fadd | fmin | fmax
deriving DecidableEq, Repr

def AOp.opcode : AOp → Nat
  | .add => 0x70 | .min => 0x71 | .max => 0x72 | .and => 0x73 | .or => 0x74 | .xor => 0x75 | .xchg => 0x76
  | .cas => 0x77 | .incw => 0x78 | .fadd => 0x79 | .fmin => 0x7A | .fmax => 0x7B
def AOp.ofOpcode : Nat → AOp
  | 0x70 => .add | 0x71 => .min | 0x72 => .max | 0x73 => .and | 0x74 => .or | 0x75 => .xor | 0x76 => .xchg
  | 0x77 => .cas | 0x78 => .incw | 0x79 => .fadd | 0x7A => .fmin | _ => .fmax

/-- The types an atomic accepts (R230). -/
def AOp.accepts (op : AOp) (t : Ty) : Bool :=
  match op with
  | .add | .min | .max | .incw => t == .i32 || t == .n32 || t == .i64 || t == .n64
  | .and | .or | .xor | .xchg | .cas => t == .b32 || t == .b64
  | .fadd | .fmin | .fmax => t == .f32 || t == .f64 || t == .f16x2 || t == .bf16x2
def AOp.default : AOp → Ty
  | .add | .min | .max | .incw => .i32
  | .and | .or | .xor | .xchg | .cas => .b32
  | .fadd | .fmin | .fmax => .f32

/-- The value an atomic's memory operand takes: `m` the old value, `v` the operand, `c` ACAS's comparand (R230). -/
def AOp.apply (op : AOp) (t : Ty) (m v c : Nat) : Nat :=
  let w := 32 * t.regs
  match op with
  | .add => (m + v) % 2 ^ w
  | .min => if t.val v < t.val m then v else m
  | .max => if t.val m < t.val v then v else m
  | .incw => if v ≤ m then 0 else m + 1
  | .and => m &&& v
  | .or => m ||| v
  | .xor => m ^^^ v
  | .xchg => v
  | .cas => if m = c then v else m
  | .fadd =>
    let f := tyFmt t
    mapElems f.bits t.elems fun i =>
      (f.ofVal .rne 0 (FVal.add .rne (f.decode (elemOf f.bits i m)) (f.decode (elemOf f.bits i v))).1).1
  | .fmin | .fmax =>
    let f := tyFmt t
    mapElems f.bits t.elems fun i => (fMinMax f (op == .fmax) true (elemOf f.bits i m) (elemOf f.bits i v)).1

end Sys2Proof.Machine
end

