-- ==== Sys2Proof/Machine/Sha.lean ====
section
/-! DEFINITION. SHA-256, which fingerprints pages, images and queue programs (R193, R398, R422). The spec names the
function; its constants and steps are those of the standard of that name (log entry 6). -/

namespace Sys2Proof.Machine

/-- Word `i` of eight packed in a number, the first the most significant. -/
def packedWord (n i : Nat) : Nat := bitsOf n (32 * (7 - i)) 32

/-- The addend of each round: the fractions of the cube roots of the first 64 primes, eight rounds a number. -/
def shaAddends : List Nat := [
  0x428A2F9871374491B5C0FBCFE9B5DBA53956C25B59F111F1923F82A4AB1C5ED5,
  0xD807AA9812835B01243185BE550C7DC372BE5D7480DEB1FE9BDC06A7C19BF174,
  0xE49B69C1EFBE47860FC19DC6240CA1CC2DE92C6F4A7484AA5CB0A9DC76F988DA,
  0x983E5152A831C66DB00327C8BF597FC7C6E00BF3D5A7914706CA635114292967,
  0x27B70A852E1B21384D2C6DFC53380D13650A7354766A0ABB81C2C92E92722C85,
  0xA2BFE8A1A81A664BC24B8B70C76C51A3D192E819D6990624F40E3585106AA070,
  0x19A4C1161E376C082748774C34B0BCB5391C0CB34ED8AA4A5B9CCA4F682E6FF3,
  0x748F82EE78A5636F84C878148CC7020890BEFFFAA4506CEBBEF9A3F7C67178F2]
def shaAddend (i : Nat) : Word := BitVec.ofNat 32 (packedWord (shaAddends.getD (i / 8) 0) (i % 8))

/-- The chaining value at the start: the fractions of the square roots of the first 8 primes. -/
def shaInit : List Word := (List.range 8).map fun i => BitVec.ofNat 32 (packedWord
  0x6A09E667BB67AE853C6EF372A54FF53A510E527F9B05688C1F83D9AB5BE0CD19 i)

def rotr (x : Word) (n : Nat) : Word := BitVec.rotateRight x n

/-- The message schedule, newest word first. -/
def shaExtend : Nat → List Word → List Word
  | 0, w => w
  | n + 1, w =>
    let a := w.getD 14 0
    let b := w.getD 1 0
    let s0 := rotr a 7 ^^^ rotr a 18 ^^^ (a >>> 3)
    let s1 := rotr b 17 ^^^ rotr b 19 ^^^ (b >>> 10)
    shaExtend n ((w.getD 15 0 + s0 + w.getD 6 0 + s1) :: w)

def shaRound (h : List Word) (kw : Word) : List Word :=
  match h with
  | [a, b, c, d, e, f, g, i] =>
    let s1 := rotr e 6 ^^^ rotr e 11 ^^^ rotr e 25
    let ch := (e &&& f) ^^^ (~~~e &&& g)
    let t1 := i + s1 + ch + kw
    let s0 := rotr a 2 ^^^ rotr a 13 ^^^ rotr a 22
    let mj := (a &&& b) ^^^ (a &&& c) ^^^ (b &&& c)
    [t1 + (s0 + mj), a, b, c, d + t1, e, f, g]
  | l => l

def beWord (l : List Byte) : Word := BitVec.ofNat 32 (l.foldl (fun n b => n * 256 + b.toNat) 0)

def shaBlock (h : List Word) (block : List Byte) : List Word :=
  let w := (List.range 16).map fun i => beWord ((block.drop (4 * i)).take 4)
  let ws := (shaExtend 48 w.reverse).reverse
  let h' := (List.range 64).foldl (fun h i => shaRound h (shaAddend i + ws.getD i 0)) h
  (List.range 8).map fun i => h.getD i 0 + h'.getD i 0

def shaBlocks : Nat → List Word → List Byte → List Word
  | 0, h, _ => h
  | n + 1, h, m => shaBlocks n (shaBlock h (m.take 64)) (m.drop 64)

/-- SHA-256 of a message: 32 bytes, most significant first in each word. -/
def sha256 (m : List Byte) : List Byte :=
  let n := m.length
  let pad := (119 - n % 64) % 64
  let msg := m ++ [0x80#8] ++ List.replicate pad 0 ++ (leBytes 8 (8 * n)).reverse
  (shaBlocks (msg.length / 64) shaInit msg).flatMap fun w => (leBytes 4 w.toNat).reverse

end Sys2Proof.Machine
end

