-- ==== Sys2Proof/Machine/Image.lean ====
section
/-! DEFINITION. The Tolor image written out (R398 to R407, R432 to R434). -/

namespace Sys2Proof.Machine

/-- Threads of a warp that have not exited (R35). -/
def Warp.liveMask (w : Warp) : LaneMask :=
  let sp := (List.finRange 4).foldl (fun m k => match w.splits[k] with | some p => m ||| p.member | none => m) 0#96
  match w.overflow with
  | some o => sp ||| o.member
  | none => sp

def State.warpsOf (s : State) (k : WgKey) : List Warp := s.warps.filter fun w => w.key.wg == k
/-- Live threads of a workgroup (R337). -/
def State.liveThreads (s : State) (k : WgKey) : Nat :=
  (s.warpsOf k).foldl (fun n w => n + (LaneMask.lanes w.liveMask).length) 0

/-- E of a barrier's current phase (R337): 0 while no thread has arrived. -/
def Barrier.expected (b : Barrier) (live : Nat) : Nat :=
  match b.first with
  | none => 0
  | some v => if v = 0 then live else v.toNat % 2 ^ 14

def State.clusterLive (s : State) (k : WgKey) : Nat :=
  ((s.hdrOf k.launch).clusterKeys k).foldl (fun n g => n + s.liveThreads g) 0

def zeros (n : Nat) : List Byte := List.replicate n 0#8
def maskBytes (m : LaneMask) : List Byte := leBytes 12 m.toNat

/-- A record: type, and the bytes after its prefix, padded to a multiple of 8 (R399). -/
def imageRecord (ty : Nat) (body : List Byte) : List Byte :=
  let pad := (8 - body.length % 8) % 8
  leBytes 8 (ty + (body.length + pad + 8) * 2 ^ 32) ++ body ++ zeros pad

def warpKeyBytes (k : WarpKey) : List Byte :=
  leBytes 3 k.seq ++ [0] ++ leBytes 1 k.widx ++ zeros 3 ++ leBytes 8 k.wglin
def wgKeyBytes (k : WgKey) : List Byte := warpKeyBytes (k.warp 0)

def Header.withTrapBase (h : Header) (b : DWord) : List Byte :=
  h.bytes.take 0x50 ++ leBytes 8 b.toNat ++ h.bytes.drop 0x58

def launchBody (l : Launch) : List Byte :=
  leBytes 4 l.key.seq ++ leBytes 2 l.queue ++ zeros 2 ++
    leBytes 8 (if l.hdr.c = 0 then l.next else l.next / l.hdr.clsize) ++ leBytes 8 l.retired ++
    leBytes 8 l.signal.toNat ++ leBytes 8 l.signalValue.toNat ++ zeros 24 ++ l.hdr.withTrapBase l.trapBase

def WgState.code : WgState → Nat
  | .resident | .planted => 0 | .swapped => 1 | .zombie => 2 | .draining => 3

/-- A workgroup that waits for its first place after planting is draining when no warp of it is left. -/
def State.stateCode (s : State) (g : Workgroup) : Nat :=
  if g.state = .planted ∧ s.warpsOf g.key = [] then WgState.draining.code else g.state.code
def State.wgroupBody (s : State) (g : Workgroup) : List Byte :=
  wgKeyBytes g.key ++ leBytes 1 (s.stateCode g) ++ leBytes 1 g.passed.toNat ++ zeros 2 ++ leBytes 4 g.reserve ++
    leBytes 4 g.entitlement ++ zeros 4

def Cause.code : Cause → Nat
  | .undef => 1 | .regbound => 2 | .type => 3 | .align => 4 | .page => 5 | .access => 6 | .attr => 7 | .bufspace => 8
  | .handle => 9 | .lockproto => 10 | .wound => 11 | .locklost => 12 | .hazard => 13 | .fpe => 14 | .brk => 15
  | .user => 16 | .ecc => 17 | .growdead => 18 | .pagepool => 19 | .engine => 20 | .doublefault => 21

/-- Which split of which warp a DOUBLEFAULT names, and its cause (R387). -/
abbrev FaultMark := Option (WarpKey × Fin 4 × Cause)

/-- A split record's state, pending cause, done mask and pending TRAPADDR (R402). -/
def splitState (mark : FaultMark) (k : WarpKey) (i : Fin 4) (p : Split) : Nat × Nat × LaneMask × DWord :=
  match mark.filter fun m => m.1 = k ∧ m.2.1 = i with
  | some (_, _, c) => (4, c.code, 0, 0)
  | none =>
    match p.trap with
    | some t => (3, t.cause.code, 0, t.addr)
    | none =>
      match p.wait with
      | .lock _ _ _ _ => (1, 0, 0, 0)
      | _ => if p.done != 0 then (2, 0, p.done, 0) else (0, 0, 0, 0)

def splitBytes (mark : FaultMark) (k : WarpKey) (i : Fin 4) : Option Split → List Byte
  | none => zeros 64
  | some p =>
    let (st, cause, done, addr) := splitState mark k i p
    leBytes 8 p.pc.toNat ++ maskBytes p.member ++ maskBytes p.active ++ leBytes 4 (clauseWordOpt p.clause).toNat ++
      leBytes 1 st ++ leBytes 1 cause ++ zeros 2 ++ maskBytes done ++ zeros 4 ++ leBytes 8 addr.toNat

def pendingLi (w : Warp) : Nat :=
  (List.finRange 4).foldl (fun n k => match w.splits[k] with
    | some p => (match p.trap with | some t => t.li.toNat | none => n)
    | none => n) 0

def warpBody (mark : FaultMark) (w : Warp) : List Byte :=
  let live := (List.finRange 4).foldl (fun n k => if (w.splits[k]).isSome then n + 2 ^ k.val else n) 0
  warpKeyBytes w.key ++ leBytes 1 (live + if w.overflow.isSome then 16 else 0) ++ leBytes 1 (w.allot / 8) ++
    leBytes 1 ((if w.trapmask then 1 else 0) + (match w.hold with | some k => 2 + 4 * k.val | none => 0) + 16) ++
    zeros 1 ++ leBytes 4 w.fflags.toNat ++ leBytes 4 w.barcount.toNat ++ leBytes 4 w.trapcause.toNat ++
    leBytes 8 w.trappc.toNat ++ leBytes 8 w.trapaddr.toNat ++ leBytes 8 w.clock.toNat ++ leBytes 8 w.trapli.toNat ++
    ((List.finRange 4).flatMap fun k => splitBytes mark w.key k w.splits[k]) ++
    (match w.overflow with
     | some o => leBytes 8 o.pc.toNat ++ maskBytes o.member ++ maskBytes o.active
     | none => zeros 32) ++
    leBytes 4 w.clausest.toNat ++ leBytes 4 w.lklast.toNat ++ leBytes 4 (w.cycleHi.getD 0).toNat ++
    leBytes 4 (w.lclockHi.getD 0).toNat ++
    leBytes 1 ((if w.cycleHi.isSome then 1 else 0) + if w.lclockHi.isSome then 2 else 0) ++ zeros 3 ++
    leBytes 4 (match w.overflow with | some o => (clauseWordOpt o.clause).toNat | none => 0) ++
    leBytes 8 (pendingLi w)

def vregBody (w : Warp) : List Byte :=
  warpKeyBytes w.key ++ ((List.finRange 128).filter (fun k => k.val < w.allot)).flatMap fun k =>
    (w.vregs[k]).toList.flatMap fun x => leBytes 4 x.toNat
def sregBody (w : Warp) : List Byte :=
  warpKeyBytes w.key ++ (List.finRange 128).flatMap fun k =>
    leBytes 4 (if k.val = 0 ∨ (120 ≤ k.val ∧ k.val ≤ 122) then 0 else (w.sregs[k]).toNat)
def predBody (w : Warp) : List Byte :=
  warpKeyBytes w.key ++ (List.finRange 8).flatMap fun k => maskBytes (if k.val = 0 then 0 else w.preds[k])
def rngBody (w : Warp) : List Byte :=
  warpKeyBytes w.key ++ leBytes 4 w.rngstream.toNat ++ zeros 4 ++ w.counters.toList.flatMap fun c => leBytes 8 c.toNat

def bufBodies (g : Workgroup) : List (List Byte) :=
  (List.finRange 4).filterMap fun k =>
    let b := g.bufs[k]
    if b.size = 0 then none
    else some (wgKeyBytes g.key ++ leBytes 1 k.val ++ zeros 7 ++ leBytes 8 b.size ++ cellsGet b.cells 0 b.size)

def handleBodies (g : Workgroup) : List (List Byte) :=
  (List.finRange 16).filterMap fun k =>
    let h := g.handles[k]
    let (st, holder, giver) := match h.state with
      | .free => (0, 0, 0) | .held r => (1, r, 0) | .transit d gv => (2, d, gv)
    if st = 0 ∧ h.gen = 0 then none
    else some (wgKeyBytes g.key ++ leBytes 1 k.val ++ leBytes 1 st ++ leBytes 1 holder ++ leBytes 1 giver ++
      leBytes 2 h.gen ++ leBytes 1 h.buf.code ++ zeros 1 ++ leBytes 4 h.base ++ leBytes 4 h.size)

/-- An arrival set in whole quadwords (R404, R433). -/
def arrivalBytes (threads : Nat) (l : List Nat) : List Byte :=
  leBytes (8 * ((threads + 63) / 64)) (l.foldl (fun n t => n ||| 2 ^ t) 0)

def barrierBody (k : WgKey) (n threads live : Nat) (det : Bool) (b : Barrier) : List Byte :=
  wgKeyBytes k ++ leBytes 1 n ++ zeros 3 ++ leBytes 4 b.phase ++ leBytes 4 (b.expected live) ++
    leBytes 4 (b.first.getD 0).toNat ++ leBytes 8 (if det then b.clock else 0) ++ arrivalBytes threads b.threads

def State.barrierBodies (s : State) (g : Workgroup) : List (List Byte) :=
  let h := s.hdrOf g.key.launch
  (List.finRange 16).filterMap fun n =>
    let b : Barrier := g.barriers[n]
    if b.phase = 0 ∧ b.arrived = [] then none
    else some (barrierBody g.key n.val h.threads (s.liveThreads g.key) h.det b)
/-- The cluster barriers of a launch, under the key of rank 0, whether or not it has retired (R404). -/
def State.clusterBodies (s : State) (l : Launch) : List (List Byte) :=
  let h := l.hdr
  l.cbars.filterMap fun c =>
    let k : WgKey := ⟨l.key.ctx, l.key.seq, c.1 * h.clsize⟩
    if c.2.phase = 0 ∧ c.2.arrived = [] then none
    else some (barrierBody k 16 (h.clsize * h.threads) (s.clusterLive k) h.det c.2)

def ticketBodies (l : Launch) : List (List Byte) :=
  ((List.finRange 4).filter fun k => k.val < l.hdr.tickets).map fun k =>
    let t := l.tickets[k]
    leBytes 4 l.key.seq ++ leBytes 1 k.val ++ leBytes 1 (if t.poisoned then 1 else 0) ++ zeros 2 ++
      leBytes 8 t.value ++ leBytes 8 t.deferred.length ++ (sortBy (fun a b => decide (a ≤ b)) t.deferred).flatMap (leBytes 8)

def ageBytes (w : WarpKey) : List Byte := leBytes 8 w.age.toNat
def agexBytes (w : WarpKey) : List Byte := leBytes 8 w.agex.toNat

/-- An object's queue (R269): escalations in ascending age, then ordinary requests as they arrived. -/
def Context.queueOf (c : Context) (name : DWord) : List LockReq :=
  let q := c.waiting.filter fun r => r.name == name
  sortBy (fun a b => !older b.warp a.warp) (q.filter (·.up)) ++ q.filter fun r => !r.up && r.entry
/-- The names awaited, each once. -/
def Context.awaited (c : Context) : List DWord := (c.waiting.map (·.name)).eraseDups
/-- All that wait for an object, those that wait for an entry last. -/
def Context.waitersOf (c : Context) (name : DWord) : List LockReq :=
  c.queueOf name ++ c.waiting.filter fun r => r.name == name && !r.up && !r.entry

def lockRecords (now : Nat) (mode : Holding → LkMode) (c : Context) (ws : List Warp) : List Byte :=
  (c.domains.flatMap fun d =>
    imageRecord 1 (zeros 2 ++ leBytes 2 d.1 ++ zeros 4 ++ leBytes 8 d.2.matrix.toNat ++ zeros 16 ++ d.2.entry)) ++
  (c.holdings.flatMap fun h =>
    imageRecord 2 (leBytes 1 (mode h).code ++ zeros 7 ++ leBytes 8 h.name.toNat ++ ageBytes h.warp ++ zeros 8 ++
      agexBytes h.warp ++ zeros 24)) ++
  ((c.awaited.flatMap fun n => (c.waitersOf n).zipIdx).flatMap fun (q, i) =>
    imageRecord 3 (leBytes 1 (q.mode.code + if q.up then 8 else 0) ++ zeros 3 ++ leBytes 4 i ++ leBytes 8 q.name.toNat ++
      ageBytes q.warp ++ zeros 8 ++ agexBytes q.warp ++ zeros 24)) ++
  (ws.flatMap fun w => match w.wound with
    | none => []
    | some x =>
      let left := match x.delivered with
        | none => x.deadline - now
        | some d => x.deadline - d
      imageRecord 4 (leBytes 1 ((if x.reached then 1 else 0) + if x.pending then 2 else 0) ++
        zeros 7 ++ leBytes 8 x.name.toNat ++ ageBytes w.key ++ leBytes 8 left ++ agexBytes w.key ++
        leBytes 8 (x.delivered.getD 0) ++ zeros 16)) ++
  (ws.flatMap fun w => match w.revoked with
    | none => []
    | some n => imageRecord 5 (zeros 8 ++ leBytes 8 n.toNat ++ ageBytes w.key ++ zeros 8 ++ agexBytes w.key ++ zeros 24))

/-- The completion record of a copy (R308). -/
def Command.record (c : Command) (stream : Nat) (status addr : Nat) : List Byte :=
  let t := c.tally
  leBytes 2 status ++ leBytes 1 stream ++ leBytes 1 t.flags ++ leBytes 4 c.seq.toNat ++ leBytes 8 t.bytes ++
    leBytes 8 addr ++ leBytes 8 t.count ++ leBytes 8 t.nans ++ leBytes 8 t.infs ++ leBytes 8 t.maxAbs ++
    leBytes 8 t.sum ++ leBytes 8 t.squares ++ leBytes 4 t.zeros ++ leBytes 2 t.base ++ leBytes 2 t.pages.length ++
    ((List.range 64).flatMap fun k => leBytes 4 (t.bins.getD k 0)) ++
    t.pages.flatMap fun p => leBytes 16 (p.print + p.frame * 2 ^ 64 + p.outcome * 2 ^ 104)

/-- The completion record of an MMA (R329): counts stand in its tally's `count`, `nans` and `infs`. -/
def Command.mmaRecord (c : Command) (stream status : Nat) : List Byte :=
  leBytes 2 status ++ leBytes 1 stream ++ leBytes 1 c.tally.flags ++ leBytes 4 c.seq.toNat ++ leBytes 8 c.tally.count ++
    leBytes 8 c.tally.nans ++ leBytes 8 c.tally.infs ++ leBytes 4 c.progress ++ zeros 28

/-- A collective's completion record: the fields that R308 and R329 share (log entry 43). -/
def Command.collRecord (c : Command) (stream status : Nat) : List Byte :=
  leBytes 2 status ++ leBytes 1 stream ++ leBytes 1 c.tally.flags ++ leBytes 4 c.seq.toNat ++ zeros 56

/-- A command's completion record. -/
def Command.recordBytes (c : Command) (stream status at_ : Nat) : List Byte :=
  match c.kind with
  | .copy => c.record stream status at_
  | .mma => c.mmaRecord stream status
  | .coll => c.collRecord stream status

/-- Progress C or P as an image records it: a copy's counts whole chunks (R309). -/
def Command.recorded (c : Command) : Nat := if c.kind = .copy then min c.progress c.whole else c.progress
/-- The command as an image records it: with what it had recorded after that chunk (R309). -/
def Command.imaged (c : Command) : Command := if c.kind = .copy ∧ c.whole < c.progress then { c with tally := c.kept } else c

def padTo (n : Nat) (l : List Byte) : List Byte := (l ++ zeros n).take n

def streamRecords (h : Header) (g : Workgroup) : List Byte :=
  let det := h.det
  ((List.finRange 16).flatMap fun k =>
    let st := g.streams[k]
    if h.streams ≤ k.val then [] else
    imageRecord 1 (wgKeyBytes g.key ++ leBytes 1 k.val ++ zeros 3 ++ leBytes 4 st.counter.toNat ++
      leBytes 4 st.last.toNat ++ leBytes 4 st.err.toNat)) ++
  ((List.finRange 16).flatMap fun k =>
    if g.graphs[k] = [] then [] else
    imageRecord 2 (wgKeyBytes g.key ++ leBytes 1 k.val ++ zeros 15 ++ padTo 256 g.graphs[k])) ++
  ((List.finRange 16).flatMap fun k => (g.streams[k]).commands.flatMap fun c =>
    imageRecord 3 (wgKeyBytes g.key ++ leBytes 1 k.val ++ leBytes 1 (if c.running then 1 else 0) ++
      leBytes 2 c.imaged.tally.pages.length ++ leBytes 4 c.seq.toNat ++ leBytes 8 c.recorded ++ padTo 128 c.desc ++
      padTo 256 c.graph ++ c.imaged.recordBytes k.val 0 0) ++
    (if det ∧ c.kind = .mma then
      imageRecord 4 (wgKeyBytes g.key ++ leBytes 1 k.val ++ zeros 3 ++ leBytes 4 c.seq.toNat ++ leBytes 8 c.quantum ++
        warpKeyBytes c.warp ++ leBytes 4 c.index ++ zeros 4)
     else []))

def queueRecords (q : Queue) : List Byte :=
  let lv := (List.range 4).flatMap fun k => match q.levels[k]? with
    | some l => leBytes 8 l.addr ++ leBytes 4 l.pos ++ leBytes 4 l.count
    | none => zeros 16
  let p : Prologue := q.prologue.getD ⟨Vector.replicate 16 0, 0, 0, 0, []⟩
  imageRecord 1 (leBytes 2 q.num ++
      leBytes 1 ((if q.joinHold then 1 else 0) + (if q.halted then 2 else 0) + if q.prologue.isSome then 4 else 0) ++
      leBytes 1 q.levels.length ++ zeros 4 ++ leBytes 8 q.read ++ leBytes 8 q.published ++ leBytes 8 q.issued ++
      padTo 64 lv ++ (p.regs.toList.flatMap fun k => leBytes 8 k.toNat) ++ leBytes 4 p.repeats ++ leBytes 4 p.steps ++
      leBytes 8 0 ++ padTo 256 p.header) ++
  ((List.finRange 16).flatMap fun k => match q.slots[k] with
    | none => []
    | some pr =>
      imageRecord 2 (leBytes 2 q.num ++ leBytes 1 k.val ++ leBytes 1 pr.windows.length ++ leBytes 4 pr.words.length ++
        zeros 8 ++ padTo 64 (pr.windows.flatMap fun w =>
          leBytes 8 w.1 ++ leBytes 4 w.2.1 ++ leBytes 4 (if w.2.2 then 1 else 0)) ++
        pr.words.flatMap fun w => leBytes 8 w.toNat))

/-- Commit order (R354), in quanta of `q` counts: quantum, warp, issue order; one buffered late goes with the next quantum. -/
def commitBefore (q quanta : Nat) (a b : Warp × Reduction) : Bool :=
  let qa := max quanta (a.2.clock / q)
  let qb := max quanta (b.2.clock / q)
  if qa ≠ qb then decide (qa ≤ qb) else if a.1.key ≠ b.1.key then older a.1.key b.1.key else decide (a.2.index ≤ b.2.index)

def dmodeRecords (q quanta : Nat) (ws : List Warp) : List Byte :=
  imageRecord 1 (leBytes 1 q ++ zeros 7 ++ leBytes 8 quanta) ++
  (((sortBy (commitBefore (2 ^ q) quanta) (ws.flatMap fun w => w.reds.map fun r => (w, r))).flatMap fun (w, r) =>
    imageRecord 2 (warpKeyBytes w.key ++ leBytes 8 r.clock ++ leBytes 4 r.index ++ leBytes 1 r.lane.val ++
      leBytes 1 r.opcode ++ leBytes 1 r.ty.code ++ leBytes 1 (r.scope.code + if r.sb then 16 else 0) ++
      leBytes 8 r.va.toNat ++ padTo 16 (r.operand.flatMap fun x => leBytes 4 x.toNat))))

/-- Count the records of a section's bytes. -/
def countRecords : Nat → List Byte → Nat
  | 0, _ => 0
  | fuel + 1, l =>
    if l = [] then 0 else
    let len := ofLeBytes ((l.drop 4).take 4)
    if len = 0 then 0 else 1 + countRecords fuel (l.drop len)

/-- The pages a context touched most recently, as hints: those whose translations stand (R407). -/
def State.pageHints (s : State) (ctx : Nat) : List (Nat × Nat) :=
  (((s.tlb ++ s.xlats).filter fun t => t.ctx == ctx).map fun t => (t.vpage * t.size, Nat.log2 t.size)).eraseDups

/-- The sections of a context's image in type order, 1 to 16 (R399), with the workgroups of `only` when it names some: a
swap-out image (R44). -/
def State.sections (s : State) (ctx : Nat) (mark : FaultMark) (only : Option (List WgKey)) : List (List Byte) :=
  let c := (s.context ctx).getD (Context.blank ctx)
  let within (k : WgKey) : Bool := only.all (·.contains k)
  let gs := s.groups.filter fun g => g.key.ctx == ctx && within g.key
  let ws := s.warps.filter fun w => w.key.ctx == ctx && within w.key.wg
  let ls := s.launches.filter fun l => l.key.ctx == ctx && (only.isNone || gs.any fun g => g.key.launch == l.key)
  let det := ls.any fun l => l.hdr.det
  let q := ((ls.find? fun l => l.hdr.det).map fun l => l.hdr.q).getD 0
  let hints := s.pageHints ctx
  [ ls.flatMap fun l => imageRecord 1 (launchBody l),
    gs.flatMap fun g => imageRecord 1 (s.wgroupBody g),
    ws.flatMap fun w => imageRecord 1 (warpBody mark w),
    ws.flatMap fun w => imageRecord 1 (vregBody w),
    ws.flatMap fun w => imageRecord 1 (sregBody w),
    ws.flatMap fun w => imageRecord 1 (predBody w),
    gs.flatMap fun g => (bufBodies g).flatMap (imageRecord 1),
    gs.flatMap fun g => (handleBodies g).flatMap (imageRecord 1),
    (gs.flatMap fun g => (s.barrierBodies g).flatMap (imageRecord 1)) ++
      ls.flatMap fun l => (s.clusterBodies l).flatMap (imageRecord 1),
    ls.flatMap fun l => (ticketBodies l).flatMap (imageRecord 1),
    lockRecords s.now (·.mode) c ws,
    gs.flatMap fun g => streamRecords (s.hdrOf g.key.launch) g,
    (s.queues.filter fun q => q.ctx == ctx && only.isNone).flatMap queueRecords,
    ws.flatMap fun w => imageRecord 1 (rngBody w),
    if det then dmodeRecords q c.quanta ws else [],
    imageRecord 1 (s.homeBytes none c.pages 64 ++ leBytes 8 s.selfPeer ++ leBytes 8 hints.length ++
      hints.flatMap fun h => leBytes 8 h.1 ++ leBytes 8 h.2) ]

/-- Lay the sections out, each 64-byte aligned, from offset `base`: the table's entries and the sections' bytes. An empty
section's offset is that of the next entry (R432). -/
def layoutSections : List (List Byte) → Nat → Nat → List Byte × List Byte
  | [], _, _ => ([], [])
  | b :: bs, ty, base =>
    let pad := (64 - b.length % 64) % 64
    let (t, rest) := layoutSections bs (ty + 1) (base + b.length + pad)
    (leBytes 2 ty ++ zeros 2 ++ leBytes 4 (countRecords b.length b) ++ leBytes 8 base ++ leBytes 8 b.length ++ t,
      b ++ zeros pad ++ rest)

/-- CYCLE of a context: cycles since its creation (R109), continuing from an image's value (R408). -/
def State.cycle (s : State) (c : Context) : DWord := BitVec.ofInt 64 ((s.now : Int) + c.cycleBase)

/-- What the image that is written now has no field for is kept beside it (R411; log entry 52). -/
def State.keepBeside (s : State) (ctx : Nat) : State :=
  s.modContext ctx fun c =>
    let k : Kept :=
      { cycle := (s.cycle c).toNat
        groups := (s.groups.filter fun g => g.key.ctx == ctx).map fun g => ⟨g.key, g.exitClock, g.faulted⟩
        launches := (s.launches.filter fun l => l.key.ctx == ctx).map fun l => ⟨l.key, l.tickets.map (·.poisonAt), l.graphs⟩ }
    { c with kept := k :: c.kept.filter fun x => x.cycle != k.cycle }

/-- The whole image of a context (R398): the table lies at 0x80, the sections at 0x200. -/
def State.image (s : State) (ctx : Nat) (mark : FaultMark) (only : Option (List WgKey)) : List Byte :=
  let c := (s.context ctx).getD (Context.blank ctx)
  let (table, body) := layoutSections (s.sections ctx mark only) 1 0x200
  let det := s.launches.any fun l => l.key.ctx == ctx && l.hdr.det
  let tail := table ++ body
  [0x54, 0x4F, 0x4C, 0x52] ++ leBytes 2 1 ++ leBytes 2 1 ++ leBytes 4 16 ++
    leBytes 4 ((if det then 1 else 0) + (if mark.isSome then 2 else 0) + (if c.protect then 4 else 0) +
      if only.isSome then 8 else 0) ++
    leBytes 8 0x80 ++ leBytes 8 (0x80 + tail.length) ++ leBytes 8 (s.cycle c).toNat ++ sha256 tail ++ leBytes 8 0 ++
    zeros 0x30 ++ tail

end Sys2Proof.Machine
end

