-- ==== Sys2Proof/Machine/Late.lean ====
section
/-! DEFINITION. Long instructions and their windows (R55 to R58), atomics (R230 to R234), and the accesses that are performed
after their instruction has issued: loads, stores, atomics and reductions (R235, R242 to R250). -/

namespace Sys2Proof.Machine

/-! Long instructions (R55 to R58). -/

def WriteBack.apply (w : Warp) : WriteBack → Warp
  | .v r m vals => w.setV r m fun l => vals[l]
  | .s r x => w.setS r x
  | .p r m bits => w.setP r m bits

/-- A long instruction completes: it writes its results and raises its flags (R56). It stays in its window, done, with the
trap it ends with, if any. -/
def Warp.completeLong (w : Warp) (l : LongOp) : Warp × LongOp :=
  let back := w.cur
  let w := l.wb.foldl WriteBack.apply { w with cur := l.split }
  let w := { (w.raiseFlags l.flags.toNat) with cur := back }
  let fpe := if w.flagTrap l.flags.toNat then some (Cause.fpe, BitVec.ofNat 64 l.flags.toNat) else none
  (w, { l with wb := [], flags := 0, trap := l.trap.or fpe })

/-- Complete in place, oldest first, the outstanding long instructions that satisfy `p`. -/
def Warp.completeList (p : LongOp → Bool) : List LongOp → Warp → Warp
  | [], w => w
  | l :: ls, w =>
    let (w, l) := if p l then w.completeLong l else (w, l)
    Warp.completeList p ls { w with outstanding := w.outstanding ++ [l] }
def Warp.complete (w : Warp) (p : LongOp → Bool) : Warp := Warp.completeList p w.outstanding { w with outstanding := [] }

/-- The windows that satisfy `p` close: the long instruction whose trap is delivered (R58), and what stays outstanding. The
trap of a further one stays due at the next boundary. -/
def closeWindows (p : LongOp → Bool) : List LongOp → Option LongOp × List LongOp
  | [] => (none, [])
  | l :: ls =>
    let (t, rest) := closeWindows p ls
    if !p l then (t, l :: rest)
    else if l.trap.isNone then (t, rest)
    else (some l, match t with
      | some m => { m with left := 0 } :: rest
      | none => rest)

/-- Complete those that satisfy `p` and close their windows: the trap that is delivered, and its long instruction. -/
def Warp.drain (w : Warp) (p : LongOp → Bool) : Warp × Option (Cause × DWord × Pc) :=
  let w := w.complete p
  let (t, rest) := closeWindows p w.outstanding
  ({ w with outstanding := rest }, t.bind fun l => l.trap.map fun x => (x.1, x.2, l.pc))

/-! Writers and the point of an access. -/

/-- The running warp as a writer: its clock counts in deterministic mode (R353). -/
def State.writer (s : State) (key : Option Nat) : Writer :=
  ⟨some s.warp.key.ctx, key, if s.det then some s.warp.clock.toNat else none, some s.warp.key⟩

/-! Memory as an access reaches it. -/

/-- The buffer of a workgroup by its place in R198's order. -/
def Buf.index : Buf → Fin 4
  | .sb => 0 | .ab => 1 | .cb => 2 | .wb => 3
def State.bufRead (s : State) (k : WgKey) (b : Buf) (o n : Nat) : List Byte :=
  cellsGet (((s.group? k).getD (Workgroup.blank k)).bufs[Buf.index b]).cells o n
def State.bufWrite (s : State) (k : WgKey) (b : Buf) (o : Nat) (bytes : List Byte) : State :=
  s.modGroup k fun g => { g with
    bufs := g.bufs.set (Buf.index b) { g.bufs[Buf.index b] with cells := cellsSet g.bufs[Buf.index b].cells o bytes } }

/-- Bytes read at a place by an access of the LS path, through a cluster's cache (R243). -/
def State.readSpot (s : State) (w : Writer) (cl : Nat) (narrow : Bool) (p : Spot) (n : Nat) : List Byte × State :=
  match p with
  | .global pa key => s.lsRead { w with key := key } cl narrow pa n
  | .buffer g b o => (s.bufRead g b o n, s)
def State.writeSpot (s : State) (w : Writer) (cl : Nat) (narrow : Bool) (p : Spot) (bytes : List Byte) : State :=
  match p with
  | .global pa key => s.lsWrite { w with key := key } cl narrow pa bytes
  | .buffer g b o => s.bufWrite g b o bytes
/-- What a read there returns: free values for bytes of an object held under I (R257). -/
def State.seenAt (s : State) (part : Nat) (p : Spot) (bytes : List Byte) : List Byte :=
  match p with
  | .global pa _ => s.seen part pa bytes
  | .buffer _ _ _ => bytes

/-! Atomics (R230 to R234). -/

/-- Where an atomic executes (R231). -/
inductive AtomicPlace where
  | banks | clusterUnit | homeSlice | portUnit
deriving DecidableEq, Repr

/-- The place of an atomic on global memory, by its scope (R231). -/
def Scope.atomicPlace : Scope → AtomicPlace
  | .thread | .warp | .group | .core | .cluster => .clusterUnit
  | .die | .device => .homeSlice
  | .host | .peer | .system => .portUnit

/-- The new value of a word, of which the halves named take the operation's result. -/
def AOp.applyHalves (op : AOp) (t : Ty) (h : Halves) (m v c : Nat) : Nat :=
  let n := op.apply t m v c
  match h with
  | .both => n
  | .low => m / 2 ^ 16 * 2 ^ 16 + n % 2 ^ 16
  | .high => n / 2 ^ 16 * 2 ^ 16 + m % 2 ^ 16

/-- Perform one lane of an atomic at its place (R231): the old value, and the state after. One order holds for each word
whatever place executes it (R233), so what any other place holds of the word is carried there first: the cluster unit works in
its own cluster's cache and leaves the word there; the home slice and the port units leave it at home. A 64-bit operation is
one step on both its words; the halves of a pair of 16-bit floats may be done apart (R234, R241; log entry 9). -/
def State.atomicAt (s : State) (w : Writer) (cl : Nat) (place : AtomicPlace) (op : AOp) (t : Ty) (h : Halves) (p : Spot)
    (v c : Nat) : Nat × State :=
  let n := 4 * t.regs
  let next (m : Nat) : List Byte := leBytes n (op.applyHalves t h m v c)
  match p with
  | .buffer g b o =>
    let m := ofLeBytes (s.bufRead g b o n)
    (m, s.bufWrite g b o (next m))
  | .global pa key =>
    let w := { w with key := key }
    let narrow := place == .clusterUnit
    let inWord (a : Nat) : Bool := decide (pa ≤ a ∧ a < pa + n)
    let s := if narrow then ((s.caches.map (·.1)).filter (· != cl)).foldl (fun s k => s.dropWhere k inWord) s
             else s.writeBackAll inWord
    -- a clean copy may be stale, so that the word is read at home unless this cluster has written it
    let s := if narrow then s.setCache cl ((s.cacheOf cl).filter fun x => x.dirty || !inWord x.addr) else s
    let (bs, s) := s.lsRead w cl narrow pa n
    let m := ofLeBytes bs
    (m, s.lsWrite w cl narrow pa (next m))

/-- The comparand and operand of an atomic's data registers: ACAS takes two (R230). -/
def atomicOperands (op : AOp) (t : Ty) (words : List Word) : Nat × Nat :=
  let num (l : List Word) : Nat := l.foldr (fun x n => x.toNat + n * 2 ^ 32) 0
  if op = .cas then (num (words.take t.regs), num ((words.drop t.regs).take t.regs)) else (0, num (words.take t.regs))

/-! Accesses that are performed after their instruction has issued (R242 to R250). -/

/-- The split that takes the trap of an access that its warp has issued: that which holds the lane (log entry 95), else the
lowest-numbered live one (R437); one with a trap pending already gives way to the next. -/
def Warp.dropSplit (w : Warp) (lane : Option Lane) : Option (Fin 4) :=
  let free (i : Fin 4) : Bool := (w.splits[i]).any fun p => p.trap.isNone
  ((List.finRange 4).find? fun i => free i && lane.any fun l => (w.splits[i]).any fun p => p.member.has l).or
    ((List.finRange 4).find? free)
/-- The trap of an access that its warp has issued before is pending entry. -/
def Warp.pendTrap (w : Warp) (lane : Option Lane) (c : Cause) (va : DWord) : Warp :=
  match w.dropSplit lane with
  | some i => { w with splits := w.splits.set i ((w.splits[i]).map fun p => { p with trap := some ⟨c, va, p.pc, 0⟩ }) }
  | none => w

/-- Why an access that has translated fails where it is performed: its peer has dropped its link (R425), or it reads a line that
has been poisoned since (R414). -/
def State.spotFault (s : State) (p : Spot) (reads : Bool) : Option Cause :=
  match p with
  | .buffer _ _ _ => none
  | .global pa _ => match s.place pa with
    | .peer n => if s.peers.any fun x => x.num == n && x.up then none else some .page
    | .local => if reads && s.poisoned.contains (pa / 64) then some .ecc else none
    | _ => none

/-- Perform a write that was left: a warp's on the LS path, a command's at the home slice. -/
def State.performLate (s : State) (x : LateWrite) : State :=
  let w : Writer := ⟨some x.group.ctx, none, x.clock, x.warp⟩
  match x.warp, x.spot with
  | none, .global pa key => s.homeWrite { w with key := key } pa x.bytes
  | _, _ => s.writeSpot w x.cluster x.narrow x.spot x.bytes
/-- Perform, in issue order, the writes that satisfy `p`. -/
def State.performWrites (s : State) (p : LateWrite → Bool) : State :=
  let due := s.late.filter p
  due.foldl State.performLate { s with late := s.late.filter fun x => !p x }

/-- The writes that the commands of a workgroup have left. -/
def State.performEngines (s : State) (k : WgKey) : State := s.performWrites fun x => x.group == k && x.warp.isNone
/-- The writes that the commands of one stream have left. -/
def State.performStream (s : State) (k : WgKey) (st : Fin 16) : State :=
  s.performWrites fun x => x.group == k && x.warp.isNone && x.stream == some st
/-- The writes that the step being made has left. -/
def State.performStep (s : State) (k : WgKey) : State :=
  s.performWrites fun x => x.group == k && x.warp.isNone && x.stream.isNone
/-- The tiles that a workgroup's MMAs have left to be written, which the MX path sees whole (R332). -/
def State.performTiles (s : State) (k : WgKey) : State :=
  s.performWrites fun x => x.group == k && x.warp.isNone && x.mma

/-- An acquire at die scope or wider drops the copies of its cluster cache (R247). -/
def State.acquireAt (s : State) (sc : Scope) : State :=
  if Scope.narrow sc then s else s.dropWhere s.cluster fun _ => true

/-- Apply an atomic's lanes in order to the halves given: what each returned. -/
def State.applyLanes (s : State) (w : Writer) (cl : Nat) (place : AtomicPlace) (op : AOp) (t : Ty) (h : Halves)
    (l : List LateLane) : List Nat × State :=
  l.foldl (fun acc x =>
    let (c, v) := atomicOperands op t x.words
    let (m, s) := acc.2.atomicAt w cl place op t h x.spot v c
    (acc.1 ++ [ofLeBytes (s.seenAt x.part x.spot (leBytes (4 * t.regs) m))], s)) ([], s)

/-- Values by lane, for a write-back. -/
def laneVals (l : List (Lane × Nat)) (x : Lane) : Nat := ((l.find? fun p => p.1 == x).map (·.2)).getD 0
def laneMask (l : List (Lane × Nat)) : LaneMask := LaneMask.ofFn fun x => l.any fun p => p.1 == x
/-- A vector register's new value, to be written at completion. -/
def wbV (r : Reg) (m : LaneMask) (f : Lane → Word) : WriteBack := .v r m (Vector.ofFn f)
/-- An operand of `n` registers written at completion. -/
def wbNat (r : Reg) (n : Nat) (m : LaneMask) (f : Lane → Nat) : List WriteBack :=
  (List.range n).map fun k => wbV (r + Fin.ofNat 128 k) m fun l => BitVec.ofNat 32 (f l / 2 ^ (32 * k))
def wbSNat (r : Reg) (n : Nat) (v : Nat) : List WriteBack :=
  (List.range n).map fun k => .s (r + Fin.ofNat 128 k) (BitVec.ofNat 32 (v / 2 ^ (32 * k)))
def wbLanes (r : Reg) (n : Nat) (vals : List (Lane × Nat)) : List WriteBack := wbNat r n (laneMask vals) (laneVals vals)

/-- An atomic on pairs of 16-bit floats: its halves are operations of their own (R234). -/
def pairsOfHalves (op : AOp) (t : Ty) : Bool :=
  (t == .f16x2 || t == .bf16x2) && (op == .fadd || op == .fmin || op == .fmax)

/-- The halves that are left once some are done. -/
def Halves.rest : Halves → Halves
  | .both => .both
  | .low => .high
  | .high => .low
/-- What a word's two halves returned, `x` from the halves `h` and `y` from the others. -/
def joinHalves (h : Halves) (x y : Nat) : Nat :=
  if h = .high then x / 2 ^ 16 * 2 ^ 16 + y % 2 ^ 16 else y / 2 ^ 16 * 2 ^ 16 + x % 2 ^ 16

/-- The lanes that can be performed, up to the first that fails, and that one's cause and address (R226, R414, R425). -/
def State.reachable (s : State) : List LateLane → List LateLane × Option (Cause × DWord)
  | [] => ([], none)
  | x :: xs => match s.spotFault x.spot true with
    | some c => ([], some (c, x.va))
    | none => let (l, t) := State.reachable s xs; (x :: l, t)

/-- The access of one of the running warp's long instructions is performed, or one of the two halves of its atomic. A load that
fails writes nothing, an atomic what its earlier lanes returned; the instruction ends in the trap (R58, R226). -/
def State.performOp (s : State) (l : LongOp) (h : Halves) : LongOp × State :=
  let w := s.warp
  match l.late with
  | none => (l, s)
  | some (.load d n bytes scalar narrow lanes) =>
    if h != .both then (l, s)
    else match (s.reachable lanes).2 with
      | some t => ({ l with late := none, trap := some t }, s)
      | none =>
        let (vals, s) := lanes.foldl (fun (acc : List (Lane × Nat) × State) x =>
          let (bs, s) := acc.2.readSpot (acc.2.writer none) acc.2.cluster narrow x.spot bytes
          (acc.1 ++ [(x.lane, ofLeBytes (s.seenAt x.part x.spot bs))], s)) ([], s)
        ({ l with late := none, wb := if scalar then wbSNat d n ((vals.head?.map (·.2)).getD 0) else wbLanes d n vals }, s)
  | some (.atomic d code t sc acq lanes half) =>
    let op := AOp.ofOpcode code
    let (lanes, trap) := s.reachable lanes
    let run (h : Halves) : List Nat × State := s.applyLanes (s.writer none) (w.core / 8) (Scope.atomicPlace sc) op t h lanes
    if h != .both then
      if pairsOfHalves op t && half.isNone && trap.isNone then
        let (vals, s) := run h
        ({ l with late := some (.atomic d code t sc acq lanes (some (h, vals))) }, s)
      else (l, s)
    else
      let (vals, s) := match half with
        | none => run .both
        | some (g, a) =>
          let (b, s) := run (Halves.rest g)
          (List.zipWith (joinHalves g) a b, s)
      ({ l with late := none, trap := l.trap.or trap, wb := l.wb ++ wbLanes d t.regs ((lanes.map (·.lane)).zip vals) },
        if acq then s.acquireAt sc else s)

/-- Perform, oldest first, the accesses of the running warp's long instructions that satisfy `p`. -/
def State.performOps (p : LongOp → Bool) : List LongOp → State → State
  | [], s => s
  | l :: ls, s =>
    let (l, s) := if p l then s.performOp l .both else (l, s)
    State.performOps p ls (s.modWarp fun w => { w with outstanding := w.outstanding ++ [l] })
def State.performLong (s : State) (p : LongOp → Bool) : State :=
  if s.warp.outstanding.any fun l => p l && l.late.isSome then
    State.performOps p s.warp.outstanding (s.modWarp fun w => { w with outstanding := [] })
  else s

/-- Its access is an atomic that acquires: no later access of its warp comes before it (R247). -/
def LongOp.acquires (l : LongOp) : Bool :=
  match l.late with
  | some (.atomic _ _ _ _ acq _ _) => acq
  | _ => false

/-- Complete in place the running warp's long instructions that satisfy `p`. -/
def State.complete (s : State) (p : LongOp → Bool) : State := (s.performLong p).modWarp fun w => w.complete p

def State.drain (s : State) (p : LongOp → Bool) : State × Option (Cause × DWord × Pc) :=
  let s := s.performLong p
  let (w, t) := s.warp.drain p
  ({ s with warp := w }, t)

/-- Close the running split's windows; the other splits' long instructions complete in theirs (R57, R58). -/
def State.drainSplit (s : State) : State × Option (Cause × DWord × Pc) :=
  let s := s.complete fun _ => true
  s.drain fun l => l.split == s.warp.cur

/-- An access of a long instruction that is not yet performed touches the bytes. -/
def LongOp.touches (o : LongOp) (l : List (Spot × Nat)) : Bool :=
  match o.late with
  | none => false
  | some (.load _ _ n _ _ lanes) => lanes.any fun x => l.any fun y => y.1.meets y.2 x.spot n
  | some (.atomic _ _ t _ _ lanes _) => lanes.any fun x => l.any fun y => y.1.meets y.2 x.spot (4 * t.regs)
/-- The same of a write that a warp has left. -/
def LateWrite.touches (x : LateWrite) (k : WarpKey) (l : List (Spot × Nat)) : Bool :=
  x.warp == some k && l.any fun y => y.1.meets y.2 x.spot x.bytes.length
/-- A load, store or atomic of a warp that is not yet performed touches the bytes. -/
def State.touchesOf (s : State) (w : Warp) (l : List (Spot × Nat)) : Bool :=
  s.late.any (·.touches w.key l) || w.outstanding.any (·.touches l)
/-- The same of the running warp. -/
def State.ownTouches (s : State) (l : List (Spot × Nat)) : Bool := s.touchesOf s.warp l
/-- What a warp has issued on the bytes, and not yet performed, is performed: program order there (R245, R249). -/
def State.performOn (s : State) (k : WarpKey) (l : List (Spot × Nat)) : State :=
  match s.warpAt k with
  | none => s
  | some w =>
    if s.touchesOf w l then
      (s.inSplit k w.cur fun s => s.performLong (·.touches l)).performWrites (·.touches k l)
    else s

/-! Reductions (R235, R354). -/

/-- Where a reduction is performed. -/
def Reduction.spot (r : Reduction) (k : WgKey) : Spot := if r.sb then .buffer k .sb r.place else .global r.place r.key

/-- Perform halves of a warp's reduction at its place. -/
def State.performHalf (s : State) (w : Warp) (clock : Option Nat) (r : Reduction) (h : Halves) : State :=
  let op := AOp.ofOpcode r.opcode
  let (c, v) := atomicOperands op r.ty r.operand
  (s.atomicAt ⟨some w.key.ctx, none, clock, some w.key⟩ (w.core / 8) (Scope.atomicPlace r.scope) op r.ty h (r.spot w.key.wg) v c).2
/-- Perform what is left of a warp's reduction, after what its warp has issued on its bytes (R249); one that fails where it is
performed is dropped, and its trap is pending entry (R414, R425, R437). -/
def State.performRed (s : State) (w : Warp) (clock : Option Nat) (r : Reduction) : State :=
  let p := r.spot w.key.wg
  let s := s.performOn w.key [(p, 4 * r.ty.regs)]
  match s.spotFault p true with
  | some c => s.modWarpAt w.key fun x => x.pendTrap (some r.lane) c r.va
  | none => s.performHalf w clock r r.left

/-- Perform every reduction the running warp has issued, in issue order. -/
def State.flushReds (s : State) : State :=
  let s' := s.warp.reds.foldl (fun s' r => s'.performRed s.warp none r) s
  s'.modWarp fun w => { w with reds := [] }

/-- Perform every load, atomic and write that the running warp has issued. -/
def State.flushPlain (s : State) : State :=
  (s.performLong fun _ => true).performWrites fun x => x.warp == some s.warp.key
/-- Perform every access that the running warp has issued. -/
def State.flushOwn (s : State) : State := s.flushPlain.flushReds

/-- The bytes of a warp's reduction meet a list of places. -/
def Reduction.touches (r : Reduction) (k : WgKey) (l : List (Spot × Nat)) : Bool :=
  l.any fun x => x.1.meets x.2 (r.spot k) (4 * r.ty.regs)

/-! Translations that are dropped (R192, R195). -/

/-- A WAITCMP with a lane that satisfies `hit` executes afresh, from its first check. -/
def State.redoLanes (s : State) (hit : WarpKey → WaitLane → Bool) : State :=
  s.modWarps (fun w => w.live) fun w =>
    { w with splits := Vector.ofFn fun i => w.splits[i].map fun p => match p.wait with
        | .waitcmp _ _ l => if l.any (hit w.key) then { p with wait := .ready } else p
        | _ => p }
/-- A WAITCMP that waits on a translation that is dropped executes afresh, from a new translation, whether or not any TLB still
holds the old one (R192, R240). -/
def State.redoWaits (s : State) (sel ctx va : Nat) : State :=
  s.redoLanes fun k x => selects sel ctx va k.ctx (x.va / x.page) x.page
/-- The accesses that have translated to a range of memory and are not yet performed are, but for reductions. -/
def State.performWithin (s : State) (pa n : Nat) : State :=
  let l := [(Spot.global pa none, n)]
  let s := s.performWrites fun x => l.any fun y => y.1.meets y.2 x.spot x.bytes.length
  s.warps.foldl (fun s w =>
    if w.outstanding.any (·.touches l) then s.inSplit w.key w.cur fun s => s.performLong (·.touches l) else s) s

end Sys2Proof.Machine
end

