-- ==== Sys2Proof/Machine/Frames.lean ====
section
/-! DEFINITION. The page engine's frames: the free pool, the frame records, the dedup index and copy-on-write (R186, R193 to
R197). -/

namespace Sys2Proof.Machine

/-- How the page engine writes: at the home slices, for a context. -/
def pageWriter (ctx : Nat) : Writer := ⟨some ctx, none, none, none⟩

/-! TakeFrame (R196). -/

/-- The pool is empty when head equals tail. -/
def State.poolCount (s : State) (ctx : Nat) : Nat :=
  (s.descNat ctx 0x28 4 + 2 ^ 32 - s.descNat ctx 0x24 4) % 2 ^ 32

/-- The next frame of the pool; entries that cannot be taken are skipped and reported. -/
def State.takeFrameFuel (ctx : Nat) : Nat → State → Option Nat × State
  | 0, s => (none, s)
  | fuel + 1, s =>
    if s.poolCount ctx = 0 then (none, s)
    else
      let head := s.descNat ctx 0x24 4
      let size := s.descNat ctx 0x20 4
      let e := s.homeNat (s.descNat ctx 0x18 8 + 8 * (head % size)) 8
      let s := s.homeWrite (pageWriter ctx) (s.pageDesc ctx + 0x24) (leBytes 4 (head + 1))
      if s.ringEntryOk e then (some (e * 4096), s.nameFrame ctx (e * 4096) 4096)
      else State.takeFrameFuel ctx fuel { s with events := s.events ++ [.poolSkip ctx (BitVec.ofNat 64 e)] }

/-- TakeFrame: the frame's physical address. -/
def State.takeFrame (s : State) (ctx : Nat) : Option Nat × State := State.takeFrameFuel ctx (s.poolCount ctx) s

/-! Frame records (R186). -/

structure FrameRec where
  count   : Nat
  tag     : Bool
  indexed : Bool
  bucket  : Nat
deriving DecidableEq, Repr

def FrameRec.ofNat (n : Nat) : FrameRec := ⟨bitsOf n 0 32, bitsOf n 32 1 == 1, bitsOf n 33 1 == 1, bitsOf n 34 24⟩
def FrameRec.toNat (r : FrameRec) : Nat :=
  r.count + (if r.tag then 2 ^ 32 else 0) + (if r.indexed then 2 ^ 33 else 0) + r.bucket * 2 ^ 34
def State.frameRec (s : State) (ctx frame : Nat) : FrameRec := FrameRec.ofNat (s.homeNat (s.frameRecAddr ctx frame) 8)
def State.setFrameRec (s : State) (ctx frame : Nat) (r : FrameRec) : State :=
  s.homeWrite (pageWriter ctx) (s.frameRecAddr ctx frame) (leBytes 8 r.toNat)

/-! The dedup index (R193). -/

def State.bucketAddr (s : State) (ctx b i : Nat) : Nat := s.descNat ctx 0x08 8 + 128 * b + 16 * i
/-- An index entry: valid, fingerprint, frame address. -/
def State.bucketEntry (s : State) (ctx b i : Nat) : Bool × Nat × Nat :=
  let a := s.bucketAddr ctx b i
  let v := s.homeNat (a + 8) 8
  (bitsOf v 63 1 == 1, s.homeNat a 8, bitsOf v 0 40 * 4096)
def State.setBucketEntry (s : State) (ctx b i : Nat) (valid : Bool) (print frame : Nat) : State :=
  s.homeWrite (pageWriter ctx) (s.bucketAddr ctx b i)
    (leBytes 8 print ++ leBytes 8 (frame / 4096 + if valid then 2 ^ 63 else 0))
/-- Clear a frame's index entry: both quadwords become zero (R311). -/
def State.unindex (s : State) (ctx b frame : Nat) : State :=
  (List.range 8).foldl (fun s i =>
    let (valid, _, f) := s.bucketEntry ctx b i
    if valid && f == frame then s.setBucketEntry ctx b i false 0 0 else s) s

/-! Copy-on-write (R195). -/

def entryWithFrame (e : DWord) (frame : Nat) : DWord :=
  BitVec.ofNat 64 (e.toNat - bitsOf e.toNat 12 40 * 4096 + frame)
def clearCow (e : DWord) : DWord := e &&& ~~~(0x20#64)

/-- The service of one access: false when the pool is empty. An entry already cleared needs none. What has read through the old
translation is performed first, and a WAITCMP that waits on it executes afresh (R192). -/
def State.cowServe (s : State) (ctx : Nat) (va : DWord) : Bool × State :=
  match s.walk ctx (va.toNat % 2 ^ 57) with
  | .error _ => (true, s)
  | .ok (e, _, place) =>
    if !entryBit e 5 then (true, s)
    else
      let f := entryFrame e
      let s := s.performWithin f 4096
      let r := s.frameRec ctx f
      let write (s : State) (e : DWord) : State := s.homeWrite (pageWriter ctx) place (leBytes 8 e.toNat)
      let drop (s : State) : State := (s.redoWaits 0 ctx va.toNat).tlbInvalidate 0 ctx va.toNat
      if 1 < r.count then
        match s.takeFrame ctx with
        | (none, s) => (false, s)
        | (some g, s) =>
          let key := match s.leafKey ctx e with
            | .ok k => k
            | .error _ => none
          -- no cluster cache hides the copied bytes behind what it holds of the frame
          let s := (s.dropAll fun a => decide (g ≤ a ∧ a < g + 4096)).homeWrite ⟨some ctx, key, none, none⟩ g (s.homeBytes key f 4096)
          let s := s.setFrameRec ctx g ⟨1, r.tag, false, 0⟩
          let s := write s (clearCow (entryWithFrame e g))
          (true, drop (s.setFrameRec ctx f { r with count := r.count - 1 }))
      else
        let s := if r.indexed then (s.unindex ctx r.bucket f).setFrameRec ctx f { r with indexed := false } else s
        (true, drop (write s (clearCow e)))

/-! Writes of the front end and the engines: a copy-on-write in their way is served at once. -/

/-- A write at the home slices that the page engine serves on its way; what stops it, if anything. -/
def State.servedWriteFuel (ctx : Nat) (kind : AccessKind) (va : Nat) (bytes : List Byte) :
    Nat → State → Option (XFault × Nat) × State
  | 0, s => s.homeWriteVa fabric ctx kind false va bytes
  | fuel + 1, s =>
    match s.homeWriteVa fabric ctx kind false va bytes with
    | (some (.cow, a), s) =>
      match s.cowServe ctx (BitVec.ofNat 64 a) with
      | (true, s) => State.servedWriteFuel ctx kind va bytes fuel s
      | (false, s) => (some (.pool, a), s)
    | r => r

/-- A write that crosses no more than `bytes.length / 4096 + 2` pages. -/
def State.servedWrite (s : State) (ctx : Nat) (kind : AccessKind) (va : Nat) (bytes : List Byte) :
    Option (XFault × Nat) × State :=
  State.servedWriteFuel ctx kind va bytes (bytes.length / 4096 + 2) s

end Sys2Proof.Machine
end

