-- ==== Sys2Proof/Machine/Ops.lean ====
section
/-! DEFINITION. The shared operations: logical time, waits, parking at a fault, taking an exception and returning from one, and
the frame in which every instruction of a warp issues. -/

namespace Sys2Proof.Machine

/-- `n` bytes that the spec leaves undefined: free values. -/
def State.freeBytes (s : State) (n : Nat) : List Byte × State :=
  ((List.range n).map fun i => Config.freeByte (s.fresh + i), { s with fresh := s.fresh + n })

/-! Logical time (R350 to R355). -/

/-- A split waits in one of the places of R351. A monitor that has fired unblocks its WAITCMP (R438). -/
def State.splitBlocked (s : State) (k : WarpKey) (i : Fin 4) (p : Split) : Bool :=
  p.wait.blocks && !(s.monitors.any fun m => m.warp == k && m.split == i && m.fired)
def State.warpBlocked (s : State) (w : Warp) : Bool :=
  (List.finRange 4).all fun i => match w.splits[i] with
    | none => true
    | some p => s.splitBlocked w.key i p

def State.resident (s : State) (k : WgKey) : Bool := ((s.group? k).map fun g => g.state == .resident).getD false
/-- The planted reductions of a warp that wait for their translation (R437). -/
def Warp.untranslated (w : Warp) : List Reduction := w.reds.filter fun r => r.parked.isSome
/-- The non-blocked warps of a context (R351); a swapped-out one counts once its monitor has fired (R438), one that waits for
its first place after planting does not (log entry 50). -/
def State.running (s : State) (ctx : Nat) : List Warp :=
  s.warps.filter fun w => w.key.ctx == ctx && (!s.warpBlocked w || w.untranslated != []) &&
    !((s.group? w.key.wg).any fun g => g.state == .planted)

/-- (clock, age) order, with the clocks that count. -/
def clockBefore (c d : Nat) (a b : Warp) : Bool := if c ≠ d then decide (c < d) else older a.key b.key

/-- What a warp that waits for a commit waits for (R436, R437): the last quantum among its own reductions, or that TLBINV
names. -/
def Warp.awaits (w : Warp) (q quanta : Nat) : Option Nat :=
  (List.finRange 4).foldl (fun m i => match w.splits[i] with
    | some p => match p.wait with
      | .commit up => (w.reds.map fun r => max quanta (r.clock / q)).foldl (fun m n => some (max (m.getD 0) n))
          (match up with
           | some n => some (max (m.getD 0) n)
           | none => m)
      | _ => m
    | none => m) none
/-- The clock that a warp counts with (R355, R436): one that waits for a commit never holds it back. While a planted reduction
waits for its translation, its quantum cannot commit, and what follows that commit waits (R357, R437; log entry 34). -/
def Warp.countClock (w : Warp) (q quanta : Nat) : Nat :=
  match w.untranslated with
  | [] => match w.awaits q quanta with
    | some n => max w.clock.toNat ((n + 1) * q)
    | none => w.clock.toNat
  | l => l.foldl (fun m r => min m r.clock) w.clock.toNat
/-- The same, of a warp of the state. -/
def State.counted (s : State) (w : Warp) : Nat :=
  w.countClock (2 ^ (s.hdrOf w.key.launch).q) (((s.context w.key.ctx).map (·.quanta)).getD 0)

/-- The running warp holds the global minimum (R351, R352). -/
def State.holdsMin (s : State) : Bool :=
  (s.running s.warp.key.ctx).all fun w =>
    w.key == s.warp.key || clockBefore (s.counted s.warp) (s.counted w) s.warp w
def State.minClock (s : State) (ctx : Nat) : Option Nat :=
  (s.running ctx).foldl (fun m w => match m with
    | none => some (s.counted w)
    | some c => some (min c (s.counted w))) none
def State.quantum (s : State) : Nat := 2 ^ s.hdr.q

/-- A clock lies beyond the global minimum's plus two quanta (R355). -/
def State.beyond (s : State) (next : Nat) : Bool :=
  match s.minClock s.warp.key.ctx with
  | none => false
  | some c => decide (c + 2 * s.quantum < next)
/-- Deterministic mode holds the instruction back: a synchronising operation until its warp holds the global minimum
(R352), any instruction that would pass the minimum by more than two quanta (R355). -/
def State.gated (s : State) (sync : Bool) : Bool :=
  s.det && ((sync && !s.holdsMin) || s.beyond (s.warp.clock.toNat + 1))

/-- The clock at the end of its quantum (R355, R436). -/
def State.quantumEnd (s : State) (c : DWord) : DWord := BitVec.ofNat 64 (s.quantum * (c.toNat / s.quantum + 1))

/-- The clock of a warp that is to wait for its buffered reductions: the end of its quantum when it holds one of that quantum
(R436). -/
def State.commitClock (s : State) : DWord :=
  if s.warp.reds.any fun r => r.clock / s.quantum == s.warp.clock.toNat / s.quantum then s.quantumEnd s.warp.clock
  else s.warp.clock
/-- Wait for buffered reductions to be committed (R436), the warp's own and, for TLBINV, those up to a quantum; not yet when
the clock would pass the global minimum by more than two quanta (R355). -/
def State.commitWaitFor (s : State) (upTo : Option Nat) : State :=
  let c := s.commitClock
  if s.beyond (c.toNat + 1) then s
  else s.modWarp fun w => ({ w with clock := c } : Warp).modSp fun p => { p with wait := .commit upTo }
def State.commitWait (s : State) : State := s.commitWaitFor none
/-- The instruction must wait so: deterministic mode, with a reduction buffered (R259, R436). -/
def State.mustCommit (s : State) : Bool := s.det && !s.warp.reds.isEmpty

/-! Waiting and waking. -/

def State.setWait (s : State) (x : Wait) : State := s.modWarp fun w => w.modSp fun p => { p with wait := x }

/-- Wake every split whose wait satisfies `p`: it executes its instruction afresh. In deterministic mode its warp takes the
waker's clock where that is later (R353). -/
def State.wake (s : State) (who : Warp → Bool) (p : Wait → Bool) (clock : Option Nat) : State :=
  s.modWarps who fun w =>
    let hit := (List.finRange 4).any fun i => match w.splits[i] with | some x => p x.wait | none => false
    if !hit then w else
    { w with
      splits := Vector.ofFn fun i => w.splits[i].map fun x => if p x.wait then { x with wait := .ready } else x
      clock := match clock with
        | some c => if w.clock.toNat < c then BitVec.ofNat 64 c else w.clock
        | none => w.clock }

/-- The clock that wakes: the running warp's in deterministic mode. -/
def State.wakeClock (s : State) : Option Nat := if s.det then some s.warp.clock.toNat else none

/-! Parking at a fault that is offered for service (R191, R195). -/

def AccessKind.code : AccessKind → Nat
  | .load => 0 | .store => 1 | .fetch => 2 | .atomic => 3 | .copyRead => 4 | .copyWrite => 5 | .collective => 6

/-- The 32-byte fault record (R191). -/
def faultRecord (va : DWord) (ctx : Nat) (c : Cause) (k : AccessKind) (level : Nat) (malformed : Bool)
    (req age2 : Nat) : List Byte :=
  leBytes 8 va.toNat ++ leBytes 2 ctx ++ leBytes 1 c.code ++ leBytes 1 k.code ++
    leBytes 1 (level + if malformed then 4 else 0) ++ zeros 3 ++ leBytes 8 req ++ leBytes 8 age2

/-- The fields at 0x10 and 0x18 of a requester's fault record (R191, R362). -/
def State.requesterFields (s : State) : Requester → Nat × Nat
  | .warp w _ | .reduction w => (w.age.toNat, w.agex.toNat)
  | .command g st => (st.val + 2 ^ 32 * (match s.group? g with
      | some x => ((x.streams[st]).commands.head?.map fun c : Command => c.seq.toNat).getD 0
      | none => 0), 0)
  | .queue q => (q, 0)

/-- Park a requester; a cause posts its record to the host, copy-on-write goes to the page engine (R195). -/
def State.parkAt (s : State) (who : Requester) (ctx : Nat) (c : Option Cause) (k : AccessKind) (va : DWord) (long : Bool)
    (level : Nat) (malformed : Bool) : Nat × State :=
  let id := s.fresh
  let (req, age2) := s.requesterFields who
  let s := { s with fresh := id + 1, parks := s.parks ++ [⟨id, ctx, who, c, k, va, long⟩] }
  (id, match c with
    | some c => { s with events := s.events ++ [.faultRecord id (faultRecord va ctx c k level malformed req age2)] }
    | none => s)

/-- Park the running split. -/
def State.parkSplit (s : State) (c : Option Cause) (k : AccessKind) (va : DWord) (long : Bool) (level : Nat)
    (malformed : Bool) : State :=
  let (id, s) := s.parkAt (.warp s.warp.key s.warp.cur) s.warp.key.ctx c k va long level malformed
  s.setWait (.parked id long)

/-! Halting a queue (R374). -/

def Queue.num64 (q : Queue) (off len : Nat) : Nat := ofLeBytes ((q.desc.drop off).take len)

/-- Park a queue at a front-end access that faulted (R362). -/
def State.parkQueue (s : State) (q : Nat) (ctx : Nat) (x : XFault) (kind : AccessKind) (va : Nat) : State :=
  let (cause, level, malformed) := match x with
    | .page l m => (Cause.page, l, m)
    | .attr l => (Cause.attr, l, false)
    | _ => (Cause.pagepool, 3, false)
  let (id, s) := s.parkAt (.queue q) ctx (some cause) kind (BitVec.ofNat 64 va) false level malformed
  { s with queues := s.queues.map fun x => if x.num == q then { x with parked := some id } else x }

/-- A fault that is offered for service (R191). -/
def XFault.offered : XFault → Bool
  | .page _ _ | .attr _ | .pool | .cow => true
  | _ => false

/-- Write the error record that a halted queue still has to write (R374); a fault of that store is offered for service, any
other gives it up (log entry 96). -/
def State.writeQueueRecord (s : State) (n : Nat) : State :=
  match s.queues.find? fun q => q.num == n with
  | none => s
  | some q => match q.record with
    | none => s
    | some bytes =>
      let wrote (s : State) : State :=
        { s with queues := s.queues.map fun x => if x.num == n then { x with record := none } else x }
      match s.servedWrite q.ctx .store (q.num64 0x20 8) bytes with
      | (none, s) => wrote s
      | (some (x, a), s) => if x.offered then s.parkQueue n q.ctx x .store a else wrote s

/-- Halt a queue and write its error record (R374). -/
def State.haltQueue (s : State) (n code detail : Nat) : State :=
  match s.queues.find? fun q => q.num == n with
  | none => s
  | some q =>
    let pos := ((q.levels.getLast?).map (·.pos)).getD 0
    let bytes := leBytes 4 code ++ zeros 4 ++ leBytes 8 q.issued ++ leBytes 1 q.levels.length ++ zeros 3 ++
      leBytes 4 pos ++ leBytes 8 detail
    ({ s with
      queues := s.queues.map fun x => if x.num == n then
        { x with halted := true, err := code, ahead := [], prologue := none, armed := false, joinHold := false, parked := none,
                 record := some bytes, spoilt := false }
        else x
      events := s.events ++ [.queueHalted n code] } : State).writeQueueRecord n

/-! The canonical point (R394, R395). -/

/-- Step 2 of R394: the context's accesses are performed, its long instructions complete, and outside deterministic mode its
reductions are performed. What the cluster caches hold is carried to memory: an image holds no cache (R400). -/
def State.quiet (s : State) (ctx : Nat) : State :=
  let s := s.performWrites fun x => x.group.ctx == ctx
  State.emptyCaches <| s.warps.foldl (fun s w =>
    if w.key.ctx ≠ ctx then s
    else
      s.inSplit w.key w.cur fun s =>
        let s := s.complete fun _ => true
        if s.det then s else s.flushReds) s

/-- The first trap that the long instructions of each split end with is pending entry (R395); while traps are masked its
cause is recorded as DOUBLEFAULT, but for a split that a handler holds back, whose trap enters once the hold is over (R384,
R411). -/
def Warp.recordTraps (w : Warp) : Warp :=
  { w with
    outstanding := []
    splits := Vector.ofFn fun i => w.splits[i].map fun p =>
      match (w.outstanding.filter fun l => l.split == i).findSome? fun l => l.trap.map fun t => (t, l.pc) with
      | some (t, li) =>
        if p.trap.isSome then p
        else { p with trap := some ⟨if w.trapmask && w.hold.all (· == i) then .doublefault else t.1, t.2, p.pc, li⟩ }
      | none => p }

/-- A warp as its image records it: a SLEEP in progress has retired (R178, R396), and it stands at a boundary, so that splits
have merged and the overflow entry is promoted (R38, R434); one that a DOUBLEFAULT names stands as it was. -/
def Warp.recorded (w : Warp) (mark : FaultMark) : Warp :=
  let w := w.recordTraps.endSleeps
  if mark.any fun m => m.1 == w.key then w else w.boundary
def State.recorded (s : State) (ctx : Nat) (mark : FaultMark) : State :=
  s.modWarps (fun w => w.live && w.key.ctx == ctx) fun w => w.recorded mark

/-- Write the image of a context at its canonical point. -/
def State.saveImage (s : State) (ctx addr : Nat) (mark : FaultMark) : State :=
  let s := s.quiet ctx
  let bytes := (s.recorded ctx mark).image ctx mark none
  let s := (s.keepBeside ctx).homeWrite Writer.device addr bytes
  { s with events := s.events ++ [.imageWritten ctx addr] }

/-! Exceptions. -/

/-- DOUBLEFAULT (R387): the context is frozen at once, an image that names the warp is written at the fault save area, every
queue halts with QDEAD and the host is told. For a fault on the handler's first fetch the split stands as it did
before its trap. -/
def State.doubleFault (s : State) (c : Cause) : State :=
  let ctx := s.warp.key.ctx
  let (s, c) := match s.warp.sp.entry with
    | none => (s, c)
    | some e =>
      (s.modWarp fun w => { (w.modSp fun p => { p with pc := e.pc, clause := e.clause, entry := none }) with
        trapcause := e.trapcause, trappc := e.trappc, trapaddr := e.trapaddr, trapli := e.trapli,
        clausest := e.clausest, trapmask := e.mask, hold := e.hold
        wound := if e.cause = Cause.wound then w.wound.map fun (x : Wound) => { x with pending := true } else w.wound }, e.cause)
  let s := s.saveImage ctx s.ctx.faultSave (some (s.warp.key, s.warp.cur, c))
  let s := s.modContext ctx fun x => { x with dead := true, saves := [], checkDue := false }
  let s := (s.queues.filter fun q => q.ctx == ctx).foldl (fun s q => s.haltQueue q.num 0x0D 0) s
  { s with events := s.events ++ [.death ctx] }

/-- Trap base of the running warp's launch (R392). -/
def State.trapBase (s : State) : DWord := ((s.launch s.warp.key.launch).map (·.trapBase)).getD 0

/-- The saved registers, the mask, the hold and the handler's address (R383 steps 2 to 5, R384). -/
def Warp.enter (w : Warp) (base : DWord) (c : Cause) (addr : DWord) (pc li : Pc) : Warp :=
  let p := w.sp
  let save : EntrySave := ⟨p.pc, p.clause, w.trapcause, w.trappc, w.trapaddr, w.trapli, w.clausest, w.trapmask, w.hold, c⟩
  let w := { w with
    trapcause := BitVec.ofNat 32 (c.code + if c = Cause.wound then 256 else 0)
    trappc := ofPc pc
    trapaddr := addr
    trapli := ofPc li
    clausest := clauseWordOpt p.clause
    trapmask := true
    hold := some w.cur }
  w.setSp { p with
    pc := toPc (base + BitVec.ofNat 64 (64 * c.code)), clause := none, wait := .ready, done := 0, entry := some save }

/-- An access of another split of the running warp is parked at a fault: until it is served no trap enters (R57, R235,
R383). -/
def State.accessParked (s : State) : Bool := (List.finRange 4).any fun j => j != s.warp.cur && match s.warp.splits[j] with
  | some p => match p.wait with
    | .parked _ long => long
    | _ => false
  | none => false

/-- Taking an exception in the running split (R383, R387): every long instruction of the warp completes, the reductions are
performed, or in deterministic mode the entry waits for their commit (R436); it waits while an access of another split is parked. -/
def State.takeTrap (s : State) (c : Cause) (addr : DWord) (pc li : Pc) : State :=
  let s := s.complete fun _ => true
  if (s.warp.trapmask && c != Cause.wound) || c == Cause.doublefault then s.doubleFault c
  else if s.mustCommit then
    (s.commitWait).modWarp fun w => w.modSp fun p => { p with trap := some ⟨c, addr, pc, li⟩ }
  else if s.accessParked then s.modWarp fun w => w.modSp fun p => { p with trap := some ⟨c, addr, pc, li⟩ }
  else
    let s := s.flushOwn
    s.modWarp fun w => w.enter s.trapBase c addr pc li

/-- A synchronous cause of the instruction at the PC (R58, R383): the warp's long instructions complete first, and a trap
that one of them ends with enters instead. -/
def State.trapHere (s : State) (c : Cause) (addr : DWord) : State :=
  let (s, t) := s.drainSplit
  match t with
  | some (c, a, li) => s.takeTrap c a s.warp.sp.pc li
  | none => s.takeTrap c addr s.warp.sp.pc 0

/-- A cause that an event raises in the instruction in which the running split waits: a split that another's hold keeps back
takes it when the hold is over (R384), unless traps are masked (R387). -/
def State.trapWaiting (s : State) (c : Cause) (addr : DWord) : State :=
  let s := s.setWait .ready
  if s.warp.hold.any (· != s.warp.cur) && !s.warp.trapmask then
    s.modWarp fun w => w.modSp fun p => { p with trap := some (p.trap.getD ⟨c, addr, p.pc, 0⟩) }
  else s.trapHere c addr

/-- The cause that a rule ends in: `s` is the state before the rule, `t` after it. Where a long instruction of the split ends
with a trap, that one enters first and the instruction has not executed (R58). -/
def State.raise (s t : State) (c : Cause) (addr : DWord) : State :=
  match s.drainSplit with
  | (s, some (c, a, li)) => s.takeTrap c a s.warp.sp.pc li
  | (_, none) => t.trapHere c addr

/-- The return from an exception (R389). -/
def Warp.trapReturn (w : Warp) : Warp :=
  let w := w.modSp fun p => { p with pc := toPc w.trappc, clause := clauseOfWord w.clausest, wait := .ready }
  { w with trapmask := false, hold := if w.hold = some w.cur then none else w.hold }

/-! Issue. -/

/-- The registers an instruction reads and writes (R56, R104). -/
structure Use where
  vr : List Nat := []
  vw : List Nat := []
  sr : List Nat := []
  sw : List Nat := []
  pr : List Nat := []
  pw : List Nat := []
deriving DecidableEq, Repr

def Use.reads (u : Use) : List RegName := u.vr.map .v ++ u.sr.map .s ++ u.pr.map .p
/-- Registers written; s0 and p0 ignore writes (R100, R102). -/
def Use.writes (u : Use) : List RegName := u.vw.map .v ++ (u.sw.filter (· ≠ 0)).map .s ++ (u.pw.filter (· ≠ 0)).map .p
/-- s120 to s122, which every instruction on active lanes reads (R56). -/
def maskUse : List Nat := [120, 121, 122]

/-- Latency classes (R55). -/
inductive Cls where
  | s | l | b
deriving DecidableEq, Repr

/-- What is checked of an instruction before its own rule (R61). -/
structure Form where
  cls   : Cls := .s
  /-- A synchronising operation (R352). -/
  sync  : Bool := false
  /-- First waits for every long instruction, and closes no window (R106). -/
  waits : Bool := false
  /-- A register field that the clause type makes ill-formed (R48). -/
  undef : Bool := false
  use   : Use := {}
  /-- The clause type is not one it accepts (R53). -/
  badType : Bool := false
deriving DecidableEq, Repr

/-- What an instruction's own rule ends in. -/
inductive Res where
  /-- It retires and the split goes on at PC + 4. -/
  | done (s : State)
  /-- It retires; the rule has moved the split itself. -/
  | moved (s : State)
  /-- It has not executed: the split waits. -/
  | stay (s : State)
  /-- It raises a cause. -/
  | trap (s : State) (c : Cause) (addr : DWord)

/-- The first cause of R61, up to HAZARD, with its TRAPADDR (R60, R381). -/
def State.firstCause (s : State) (i : Instr) (f : Form) : Option (Cause × DWord) :=
  let word : DWord := BitVec.setWidth 64 (wordOf i)
  if f.undef then some (.undef, word)
  else if (f.use.vr ++ f.use.vw).any fun r => s.warp.allot ≤ r then some (.regbound, word)
  else if f.badType then some (.type, word)
  else if !s.hdr.debug then none
  else
    let violated (l : LongOp) : Bool :=
      l.split == s.warp.cur &&
      (f.use.reads.any (fun r => l.writes.contains r) ||
       f.use.writes.any (fun r => l.writes.contains r || l.reads.contains r))
    (s.warp.outstanding.find? violated).map fun l => (.hazard, ofPc l.pc)

def State.retire (s : State) : State := s.modWarp fun w => (w.modSp Split.advance).retired

/-- The end of an instruction's rule. -/
def State.finish (s : State) : Res → State
  | .done t => t.retire
  | .moved t => t.modWarp Warp.retired
  | .stay t => t
  | .trap t c a => t.trapHere c a

/-- Which windows close before an instruction issues (R55, R57): those of its split that are at their end, all of them
for a B-class form. A ninth long instruction waits until one has completed. -/
def State.mustDrain (s : State) (f : Form) (l : LongOp) : Bool := l.split == s.warp.cur && (f.cls == .b || l.left == 0)

/-- An instruction of the running split issues: deterministic mode's gate, an acquire that is still to be performed, the windows
that close before it, the causes that every instruction shares, then its own rule. -/
def State.issue (s : State) (i : Instr) (f : Form) (rule : State → Res) : State :=
  if s.gated f.sync then s
  else
    let full := f.cls == .l && decide (8 ≤ (s.warp.outstanding.filter fun l => !l.done).length)
    let cur := s.warp.cur
    let s := s.performLong LongOp.acquires
    let s := s.complete fun l => full || f.cls == .b || f.waits || l.split != cur
    let (s, t) := s.drain (s.mustDrain f)
    match t with
    | some (c, a, li) => s.takeTrap c a s.warp.sp.pc li
    | none =>
      match s.firstCause i f with
      | some (c, a) => s.trapHere c a
      | none => match rule s with
        | .trap t c a => s.raise t c a
        | r => s.finish r

/-- A rule that only computes on the warp's registers. -/
def State.compute (s : State) (i : Instr) (f : Form) (g : Warp → Warp) : State :=
  s.issue i f fun s => .done (s.modWarp g)

/-- A long instruction's rule: its results wait in the window of `la` instructions (R55). -/
def Warp.pushLong (w : Warp) (la : Nat) (u : Use) (wb : List WriteBack) (flags : Nat) (trap : Option (Cause × DWord)) :
    Warp :=
  { w with outstanding := w.outstanding ++
      [⟨w.cur, w.sp.pc, la + 1, wb, BitVec.ofNat 5 flags, trap, u.reads, u.writes, none⟩] }
/-- The same with an access that is performed later. -/
def Warp.pushLate (w : Warp) (la : Nat) (u : Use) (x : Late) : Warp :=
  { w with outstanding := w.outstanding ++ [⟨w.cur, w.sp.pc, la + 1, [], 0, none, u.reads, u.writes, some x⟩] }

end Sys2Proof.Machine
end

