-- ==== Sys2Proof/Machine/Fetch.lean ====
section
/-! DEFINITION. Faults of an access (R185, R191, R386, R414, R425), fetching an instruction (R78, R386) and which split issues (R40, R41, R384, R385). -/

namespace Sys2Proof.Machine

/-- What becomes of the running split at a translation that does not proceed: PAGE, ATTR and PAGEPOOL are first offered for
service, a copy-on-write goes to the page engine, a dropped link delivers PAGE (R185, R191, R195, R425); a read of a poisoned line raises ECC (R414). -/
def State.faultRes (s : State) (x : XFault) (kind : AccessKind) (va : DWord) (long : Bool) : Res :=
  match x with
  | .page level malformed => .stay (s.parkSplit (some .page) kind va long level malformed)
  | .attr level => .stay (s.parkSplit (some .attr) kind va long level false)
  | .cow => .stay (s.parkSplit none kind va long 3 false)
  | .pool => .stay (s.parkSplit (some .pagepool) kind va long 3 false)
  | .access | .refused => .trap s .access va
  | .ecc => .trap s .ecc va
  | .link =>
    -- a long instruction retires with its trap, which enters at its window's end (R58); under a mask it has not executed (R387)
    if long && !s.warp.trapmask then .done (s.modWarp fun w => w.pushLong 0 {} [] 0 (some (.page, va)))
    else .trap s .page va

/-- From when a core's fetches at a page of addresses of a context are fresh (R78). -/
def State.freshSince (s : State) (core ctx page : Nat) : Nat :=
  (s.codeSince.filter fun x => x.ctx == ctx && x.core.all (· == core) && x.page.all (· == page)).foldl (fun m x => max m x.time) 0
/-- An instruction's bytes as the home slices held them at that time (R78). -/
def State.codeBytes (s : State) (since : Nat) (key : Option Nat) (pa : Nat) : List Byte :=
  match s.codeLines.find? fun c => c.line == pa / 64 && decide (since < c.time) with
  | some c => (List.range 4).map fun i => readThrough (fun a => c.bytes.getD (a % 64) 0) key c.key (pa + i)
  | none => s.homeBytes key pa 4

/-- The word at the running split's PC: from its core's instruction cache, or through the home slices (R386). Code that was
written since the launch started, or since its core's last ICINV, is not visible to it (R78; log entry 87). -/
def State.fetch (s : State) : Except XFault Word × State :=
  let core := s.warp.core
  let ctx := s.warp.key.ctx
  let va := s.warp.sp.pc
  match s.icache.find? fun c => c.core == core && c.ctx == ctx && c.addr == va.toNat with
  | some c => (.ok c.word, s)
  | none =>
    match s.translate core ctx (ofPc va) .fetch false with
    | (.error x, s) => (.error x, s)
    | (.ok t, s) =>
      let word := BitVec.ofNat 32 (ofLeBytes (s.codeBytes (s.freshSince core ctx (va.toNat / 4096)) t.key t.pa))
      (.ok word, { s with icache := ⟨core, ctx, va.toNat, word⟩ :: s.icache })

/-! Which split issues. -/

/-- A long access that is parked is outstanding: the warp's other splits are not ready (R57, R226). -/
def Wait.holdsOthers : Wait → Bool
  | .parked _ long => long
  | _ => false

/-- The split may issue (R36, R40, R57, R226, R384); a warp whose planted reduction waits for its translation is parked (R437). -/
def Warp.splitReady (w : Warp) (k : Fin 4) : Bool :=
  match w.splits[k] with
  | none => false
  | some p =>
    (w.hold == none || w.hold == some k) &&
    w.outstanding.all (fun l => l.split == k || l.done) && w.untranslated == [] &&
    ((List.finRange 4).all fun j => j == k || match w.splits[j] with
      | some q => !q.wait.holdsOthers
      | none => true) &&
    match p.wait with
    | .ready => true
    | .overflow => w.overflow.isNone
    | _ => false

def Wait.isBarrier : Wait → Bool
  | .barrier _ _ => true
  | _ => false

/-- The lowest PC among the splits that satisfy `p`; ties go to the lower number. -/
def Warp.lowestPc (w : Warp) (p : Fin 4 → Bool) : Option (Fin 4) :=
  (List.finRange 4).foldl (fun best k =>
    match w.splits[k] with
    | none => best
    | some x =>
      if p k then
        match best with
        | some b => if x.pc.toNat < ((w.splits[b]).getD Split.empty).pc.toNat then some k else best
        | none => some k
      else best) none

/-- The split that R40 or R41 runs next, when it is ready. One that has yielded is passed over by its number (R176; log entry
98). -/
def Warp.candidate (w : Warp) (det : Bool) : Option (Fin 4) :=
  if det then
    let live (k : Fin 4) : Bool := match w.splits[k] with
      | some p => !p.wait.isBarrier && (w.hold == none || w.hold == some k)
      | none => false
    match w.lowestPc live with
    | some k => if w.splitReady k then some k else none
    | none => none
  else
    match w.lowestPc fun k => w.splitReady k && w.yielded != some k with
    | some k => some k
    | none => w.lowestPc w.splitReady

/-- A freeze of the context has been asked for and its canonical point is not yet reached (R394, R415). -/
def State.freezing (s : State) (ctx : Nat) : Bool := (s.context ctx).any fun c => c.saves != [] || c.checkDue

/-- The instruction of a word; a word that is none runs as UNDEF (R65). -/
def instrOf (w : Word) : Instr :=
  match decode w with
  | .ok i => i
  | .error _ => .undef w

/-- A synchronising operation by its form (R352). -/
def instrSyncs : Instr → Bool
  | .lkacq _ _ _ | .lktry _ _ _ | .lkup _ _ _ | .lkdown _ _ _ | .lkrel _ _ | .lkstat _ _ | .lktab _ _ => true
  | .htake _ _ | .hgive _ _ _ | .hdrop _ _ | .tkwait _ _ | .tkpass _ _ | .tkpassPoison _ _ | .waitcmp _ _ _ _ => true
  | .aadd _ _ _ la | .amin _ _ _ la | .amax _ _ _ la | .aand _ _ _ la | .aor _ _ _ la | .axor _ _ _ la => la != 15
  | .axchg _ _ _ la | .acas _ _ _ la | .aincw _ _ _ la | .afadd _ _ _ la | .afmin _ _ _ la | .afmax _ _ _ la => la != 15
  | _ => false

/-- The next instruction of a warp is a synchronising operation. -/
def State.nextSyncs (s : State) (w : Warp) : Bool :=
  let w := w.boundary
  match w.candidate (s.hdrOf w.key.launch).det with
  | none => false
  | some k => match ({ s with warp := { w with cur := k } }).fetch.1 with
    | .ok word => instrSyncs (instrOf word)
    | .error _ => false

/-- While its context is being frozen, deterministic mode stops a warp at a quantum boundary (R357). The warp with the global
minimum goes on while another, short of its boundary, waits for that minimum (log entry 51). -/
def State.heldBack (s : State) (w : Warp) : Bool :=
  let q := 2 ^ (s.hdrOf w.key.launch).q
  (s.hdrOf w.key.launch).det && s.freezing w.key.ctx && w.clock.toNat % q == 0 &&
    !((s.running w.key.ctx).all (fun v => v.key == w.key || clockBefore (s.counted w) (s.counted v) w v) &&
      (s.running w.key.ctx).any fun v => v.clock.toNat % q != 0 && s.nextSyncs v)

/-- A warp may issue: live and resident, in a context that runs and does not hold it back. -/
def State.mayIssue (s : State) (w : Warp) : Bool :=
  w.live && s.resident w.key.wg &&
    (match s.context w.key.ctx with
    | some c => !c.dead && !c.frozen
    | none => false) && !s.heldBack w

/-- WOUND enters in the running split; in deterministic mode its reductions are committed first (R383, R385, R436). The split's
windows close, and the trap of a long instruction in them enters ahead of WOUND, as it does for a synchronous cause (log entry
99). -/
def State.enterWound (s : State) : State :=
  if s.mustCommit then s.commitWait
  else if s.accessParked then s
  else
    let name := match s.warp.wound with
      | some x => x.name
      | none => 0
    let (s, t) := s.drainSplit
    match t with
    | some (c, a, li) => s.takeTrap c a s.warp.sp.pc li
    | none =>
      (s.takeTrap .wound name s.warp.sp.pc 0).modWarp fun w => { w with wound := w.wound.map fun x => { x with pending := false } }

/-- The boundary before a warp's next instruction: windows that have closed complete, with the trap one of them ends with;
splits merge and the overflow entry is promoted or exchanged; then the split that issues, if any, becomes the running one. A
trap of it that waits to enter does so, ahead of WOUND (R383, R385; log entry 99). -/
def State.atBoundary (s : State) : State × Bool :=
  let (s, t) := match s.warp.dueWindow with
    | some l => (s.modWarp fun w => { w with cur := l.split }).drain fun x => x.left == 0 && x.split == l.split
    | none => (s, none)
  match t with
  | some (c, a, li) => (s.takeTrap c a s.warp.sp.pc li, false)
  | none =>
    let s := s.modWarp Warp.boundary
    match s.warp.candidate s.det with
    | none => (s, false)
    | some k =>
      let s := s.modWarp fun w => { w with cur := k, yielded := none }
      match s.warp.sp.trap with
      | some t =>
        -- one that arose as its split's handler was entered waits for that handler
        if s.warp.trapmask && s.warp.hold == some k && t.cause != .doublefault then (s, true)
        else ((s.modWarp fun w => w.modSp fun p => { p with trap := none }).takeTrap t.cause t.addr t.pc t.li, false)
      | none => if s.warp.woundDue then (s.enterWound, false) else (s, true)

/-- A fetch, and the split once its handler's first fetch has been made (R387). -/
def State.fetched (s : State) : Except XFault Word × State :=
  match s.fetch with
  | (.ok w, s) => (.ok w, s.modWarp fun x => x.modSp fun p => { p with entry := none })
  | (.error x, s) => (.error x, s)

/-- The fetch faulted (R386). -/
def State.fetchFault (s : State) (x : XFault) : State :=
  s.finish (s.faultRes x .fetch (ofPc s.warp.sp.pc) false)

end Sys2Proof.Machine
end

