-- ==== Sys2Proof/Machine/Scalar.lean ====
section
/-! DEFINITION. The scalar instructions (R113 to R118). -/

namespace Sys2Proof.Machine

/-- An SALU result: two scalars in, one out, once per warp (R7, R114). -/
def State.salu (s : State) (i : Instr) (d a b : Reg) (f : Word → Word → Word) : State :=
  s.compute i { use := { sr := [a.val, b.val], sw := [d.val] } } fun w => w.setS d (f (w.s a) (w.s b))

/-- A scalar result of one scalar and a constant. -/
def State.sun (s : State) (i : Instr) (d a : Reg) (f : Word → Word) : State :=
  s.compute i { use := { sr := [a.val], sw := [d.val] } } fun w => w.setS d (f (w.s a))

def sImm (imm : BitVec 11) : Word := BitVec.signExtend 32 imm
def shl32 (a b : Word) : Word := if 32 ≤ b.toNat then 0 else a <<< b.toNat
def shr32 (a b : Word) : Word := if 32 ≤ b.toNat then 0 else a >>> b.toNat
def sar32 (a b : Word) : Word := BitVec.sshiftRight a (min b.toNat 31)

/-- Leading zeros of a value of `w` bits; `w` for zero. -/
def clz (w v : Nat) : Nat := if v = 0 then w else w - 1 - floorLog2 v
/-- Trailing zeros of a value of `w` bits; `w` for zero. -/
def ctz (w v : Nat) : Nat := ((List.range w).find? fun i => bitsOf v i 1 == 1).getD w
def popc (w v : Nat) : Nat := ((List.range w).filter fun i => bitsOf v i 1 == 1).length
def brev (w v : Nat) : Nat := (List.range w).foldl (fun n i => n + bitsOf v i 1 * 2 ^ (w - 1 - i)) 0

/-- BFE (R118): a field of `a` under the control word `c`, for elements of `w` bits. -/
def bfe (w : Nat) (signed : Bool) (a c : Nat) : Nat :=
  let o := bitsOf c 0 6
  let n := min (bitsOf c 8 7) w
  let ext : Int := if signed then signedOf w a else ((a % 2 ^ w : Nat) : Int)
  let f := wrapTo n (ext / 2 ^ o)
  if n = 0 then 0 else if signed then wrapTo w (signedOf n f) else f
/-- BFI (R118). -/
def bfi (w : Nat) (d a c : Nat) : Nat :=
  let o := bitsOf c 0 6
  let n := min (bitsOf c 8 7) w
  let m := ((2 ^ n - 1) * 2 ^ o) % 2 ^ w
  (d &&& (2 ^ w - 1 - m)) ||| ((a * 2 ^ o) &&& m)

/-- SADD (R114). -/
def execSadd (d a b : Reg) (s : State) : Host.Outcome State Fault Refusal :=
  .next (s.salu (.sadd d a b) d a b fun a b => a + b)

/-- SSUB (R114). -/
def execSsub (d a b : Reg) (s : State) : Host.Outcome State Fault Refusal :=
  .next (s.salu (.ssub d a b) d a b fun a b => a - b)

/-- SMUL (R114). -/
def execSmul (d a b : Reg) (s : State) : Host.Outcome State Fault Refusal :=
  .next (s.salu (.smul d a b) d a b fun a b => a * b)

/-- SMULHI (R114). -/
def execSmulhi (d a b : Reg) (s : State) : Host.Outcome State Fault Refusal :=
  .next (s.salu (.smulhi d a b) d a b fun a b => BitVec.ofInt 32 (a.toInt * b.toInt / 2 ^ 32))

/-- SMULHIN (R114). -/
def execSmulhin (d a b : Reg) (s : State) : Host.Outcome State Fault Refusal :=
  .next (s.salu (.smulhin d a b) d a b fun a b => BitVec.ofNat 32 (a.toNat * b.toNat / 2 ^ 32))

/-- SAND (R114). -/
def execSand (d a b : Reg) (s : State) : Host.Outcome State Fault Refusal :=
  .next (s.salu (.sand d a b) d a b fun a b => a &&& b)

/-- SOR (R114). -/
def execSor (d a b : Reg) (s : State) : Host.Outcome State Fault Refusal :=
  .next (s.salu (.sor d a b) d a b fun a b => a ||| b)

/-- SXOR (R114). -/
def execSxor (d a b : Reg) (s : State) : Host.Outcome State Fault Refusal :=
  .next (s.salu (.sxor d a b) d a b fun a b => a ^^^ b)

/-- SSHL (R114). -/
def execSshl (d a b : Reg) (s : State) : Host.Outcome State Fault Refusal :=
  .next (s.salu (.sshl d a b) d a b fun a b => shl32 a b)

/-- SSHR (R114). -/
def execSshr (d a b : Reg) (s : State) : Host.Outcome State Fault Refusal :=
  .next (s.salu (.sshr d a b) d a b fun a b => shr32 a b)

/-- SSAR (R114). -/
def execSsar (d a b : Reg) (s : State) : Host.Outcome State Fault Refusal :=
  .next (s.salu (.ssar d a b) d a b fun a b => sar32 a b)

/-- SMIN (R114). -/
def execSmin (d a b : Reg) (s : State) : Host.Outcome State Fault Refusal :=
  .next (s.salu (.smin d a b) d a b fun a b => if a.toInt ≤ b.toInt then a else b)

/-- SMAX (R114). -/
def execSmax (d a b : Reg) (s : State) : Host.Outcome State Fault Refusal :=
  .next (s.salu (.smax d a b) d a b fun a b => if a.toInt ≤ b.toInt then b else a)

/-- SMINN (R114). -/
def execSminn (d a b : Reg) (s : State) : Host.Outcome State Fault Refusal :=
  .next (s.salu (.sminn d a b) d a b fun a b => if a.toNat ≤ b.toNat then a else b)

/-- SMAXN (R114). -/
def execSmaxn (d a b : Reg) (s : State) : Host.Outcome State Fault Refusal :=
  .next (s.salu (.smaxn d a b) d a b fun a b => if a.toNat ≤ b.toNat then b else a)

/-- SANDN (R114). -/
def execSandn (d a b : Reg) (s : State) : Host.Outcome State Fault Refusal :=
  .next (s.salu (.sandn d a b) d a b fun a b => a &&& ~~~b)

/-- SADDI (R115). -/
def execSaddi (d a : Reg) (imm : BitVec 11) (s : State) : Host.Outcome State Fault Refusal :=
  .next (s.sun (.saddi d a imm) d a fun a => a + sImm imm)

/-- SANDI (R115). -/
def execSandi (d a : Reg) (imm : BitVec 11) (s : State) : Host.Outcome State Fault Refusal :=
  .next (s.sun (.sandi d a imm) d a fun a => a &&& sImm imm)

/-- SORI (R115). -/
def execSori (d a : Reg) (imm : BitVec 11) (s : State) : Host.Outcome State Fault Refusal :=
  .next (s.sun (.sori d a imm) d a fun a => a ||| sImm imm)

/-- SXORI (R115). -/
def execSxori (d a : Reg) (imm : BitVec 11) (s : State) : Host.Outcome State Fault Refusal :=
  .next (s.sun (.sxori d a imm) d a fun a => a ^^^ sImm imm)

/-- SSHLI (R115). -/
def execSshli (d a : Reg) (imm : BitVec 11) (s : State) : Host.Outcome State Fault Refusal :=
  .next (s.sun (.sshli d a imm) d a fun a => shl32 a (sImm imm))

/-- SSHRI (R115). -/
def execSshri (d a : Reg) (imm : BitVec 11) (s : State) : Host.Outcome State Fault Refusal :=
  .next (s.sun (.sshri d a imm) d a fun a => shr32 a (sImm imm))

/-- SSARI (R115). -/
def execSsari (d a : Reg) (imm : BitVec 11) (s : State) : Host.Outcome State Fault Refusal :=
  .next (s.sun (.ssari d a imm) d a fun a => sar32 a (sImm imm))

/-- SMOVI (R116). -/
def execSmovi (d : Reg) (imm : BitVec 18) (s : State) : Host.Outcome State Fault Refusal :=
  .next (s.compute (.smovi d imm) { use := { sw := [d.val] } } fun w => w.setS d (BitVec.signExtend 32 imm))

/-- SLUI (R116). -/
def execSlui (d : Reg) (imm : BitVec 18) (s : State) : Host.Outcome State Fault Refusal :=
  .next (s.compute (.slui d imm) { use := { sr := [d.val], sw := [d.val] } } fun w =>
    w.setS d (BitVec.setWidth 32 imm <<< 14 ||| (w.s d &&& 0x3FFF#32)))

/-- SMOV (R116). -/
def execSmov (d a : Reg) (s : State) : Host.Outcome State Fault Refusal :=
  .next (s.sun (.smov d a) d a fun a => a)

/-- The conditions of SCMP (R117). -/
def SCond.holds (c : SCond) (a b : Word) : Bool :=
  match c with
  | .eq => a == b
  | .ne => a != b
  | .lt => decide (a.toInt < b.toInt)
  | .le => decide (a.toInt ≤ b.toInt)
  | .ltn => decide (a.toNat < b.toNat)
  | .len => decide (a.toNat ≤ b.toNat)

/-- SCMP (R117). -/
def execScmp (d a b : Reg) (c : SCond) (s : State) : Host.Outcome State Fault Refusal :=
  .next (s.salu (.scmp d a b c) d a b fun a b => if SCond.holds c a b then 1 else 0)

/-- SSEL (R117). -/
def execSsel (d a b : Reg) (s : State) : Host.Outcome State Fault Refusal :=
  .next (s.compute (.ssel d a b) { use := { sr := [d.val, a.val, b.val], sw := [d.val] } } fun w =>
    w.setS d (if w.s d ≠ 0 then w.s a else w.s b))

/-- SPOPC (R118). -/
def execSpopc (d a : Reg) (s : State) : Host.Outcome State Fault Refusal :=
  .next (s.sun (.spopc d a) d a fun a => BitVec.ofNat 32 (popc 32 a.toNat))

/-- SCLZ (R118). -/
def execSclz (d a : Reg) (s : State) : Host.Outcome State Fault Refusal :=
  .next (s.sun (.sclz d a) d a fun a => BitVec.ofNat 32 (clz 32 a.toNat))

/-- SCTZ (R118). -/
def execSctz (d a : Reg) (s : State) : Host.Outcome State Fault Refusal :=
  .next (s.sun (.sctz d a) d a fun a => BitVec.ofNat 32 (ctz 32 a.toNat))

/-- SBREV (R118). -/
def execSbrev (d a : Reg) (s : State) : Host.Outcome State Fault Refusal :=
  .next (s.sun (.sbrev d a) d a fun a => BitVec.ofNat 32 (brev 32 a.toNat))

/-- SBFE (R118). -/
def execSbfe (d a b : Reg) (s : State) : Host.Outcome State Fault Refusal :=
  .next (s.salu (.sbfe d a b) d a b fun a c => BitVec.ofNat 32 (bfe 32 (c.getLsbD 16) a.toNat c.toNat))

/-- SBFI (R118). -/
def execSbfi (d a b : Reg) (s : State) : Host.Outcome State Fault Refusal :=
  .next (s.compute (.sbfi d a b) { use := { sr := [d.val, a.val, b.val], sw := [d.val] } } fun w =>
    w.setS d (BitVec.ofNat 32 (bfi 32 (w.s d).toNat (w.s a).toNat (w.s b).toNat)))

/-- Pairs of scalars in and out (R118). -/
def State.salu64 (s : State) (i : Instr) (d a b : Reg) (f : DWord → DWord → DWord) : State :=
  s.compute i { use := { sr := span a 2 ++ span b 2, sw := span d 2 } } fun w => w.setS64 d (f (w.s64 a) (w.s64 b))

/-- SADD64 (R118). -/
def execSadd64 (d a b : Reg) (s : State) : Host.Outcome State Fault Refusal :=
  .next (s.salu64 (.sadd64 d a b) d a b fun a b => a + b)

/-- SSUB64 (R118). -/
def execSsub64 (d a b : Reg) (s : State) : Host.Outcome State Fault Refusal :=
  .next (s.salu64 (.ssub64 d a b) d a b fun a b => a - b)

end Sys2Proof.Machine
end

