-- ==== Sys2Proof/Machine/VectorInt.lean ====
section
/-! DEFINITION. The vector integer instructions (R112, R113, R119 to R125). -/

namespace Sys2Proof.Machine

/-- The form of a vector instruction of one operand type: `n` registers for each of the named vector fields, an odd field of a
pair or a field that is no multiple of 4 of a quad being UNDEF (R48, R53, R104, R112). Under a type that the form rejects each
field counts as one register for REGBOUND (log entry 86). -/
def State.vform (s : State) (ok : Bool) (t : Ty) (cls : Cls) (reads writes : List Reg) (sr : List Nat) : Form :=
  let n := if ok then t.regs else 1
  { cls := cls
    undef := ok && (reads ++ writes).any fun r => r.val % n != 0
    badType := !ok
    use := {
      vr := reads.flatMap fun r => span r n
      vw := writes.flatMap fun r => span r n
      sr := sr ++ maskUse
      pr := s.warp.guardUse } }

/-- The element operations of R119: the type, then an element of a and of b. -/
abbrev ElemOp := Ty → Nat → Nat → Nat

/-- Each element of a lane's operands (R112). -/
def ElemOp.lane (f : ElemOp) (t : Ty) (a b : Nat) : Nat :=
  mapElems t.elemBits t.elems fun e => f t (elemOf t.elemBits e a) (elemOf t.elemBits e b)

/-- An integer instruction of two vector operands (R119). -/
def State.valu (s : State) (i : Instr) (d a b : Reg) (f : ElemOp) : State :=
  let t := s.warp.ty .i32
  s.compute i (s.vform t.isInt t .s [a, b] [d] []) fun w =>
    w.setVNat d t.regs w.guarded fun l => f.lane t (w.vNat a t.regs l) (w.vNat b t.regs l)

/-- The same with a scalar b, which stands for b in every lane (R119). -/
def State.valuScalar (s : State) (i : Instr) (d a b : Reg) (f : ElemOp) : State :=
  let t := s.warp.ty .i32
  let form := s.vform t.isInt t .s [a] [d] (span b t.regs)
  s.compute i { form with undef := form.undef || (t.isInt && b.val % t.regs != 0) } fun w =>
    w.setVNat d t.regs w.guarded fun l => f.lane t (w.vNat a t.regs l) (w.sNat b t.regs)

def eAdd : ElemOp := fun t a b => wrapTo t.elemBits (t.val a + t.val b)
def eSub : ElemOp := fun t a b => wrapTo t.elemBits (t.val a - t.val b)
def eMul : ElemOp := fun t a b => wrapTo t.elemBits (t.val a * t.val b)
def eMulhi : ElemOp := fun t a b => wrapTo t.elemBits (t.val a * t.val b / 2 ^ t.elemBits)
def eAnd : ElemOp := fun _ a b => a &&& b
def eOr : ElemOp := fun _ a b => a ||| b
def eXor : ElemOp := fun _ a b => a ^^^ b
def eAndn : ElemOp := fun t a b => a &&& (2 ^ t.elemBits - 1 - b)
def eShl : ElemOp := fun t a n => if t.elemBits ≤ n then 0 else a * 2 ^ n % 2 ^ t.elemBits
def eShr : ElemOp := fun t a n => if t.elemBits ≤ n then 0 else a / 2 ^ n
def eSar : ElemOp := fun t a n => wrapTo t.elemBits (signedOf t.elemBits a / 2 ^ min n t.elemBits)
def eMin : ElemOp := fun t a b => if t.val a ≤ t.val b then a else b
def eMax : ElemOp := fun t a b => if t.val a ≤ t.val b then b else a
def eAddsat : ElemOp := fun t a b => t.sat (t.val a + t.val b)
def eSubsat : ElemOp := fun t a b => t.sat (t.val a - t.val b)
def eAbsd : ElemOp := fun t a b => (t.val a - t.val b).natAbs % 2 ^ t.elemBits

/-- VADD (R119). -/
def execVadd (d a b : Reg) (s : State) : Host.Outcome State Fault Refusal :=
  .next (s.valu (.vadd d a b) d a b eAdd)

/-- VSUB (R119). -/
def execVsub (d a b : Reg) (s : State) : Host.Outcome State Fault Refusal :=
  .next (s.valu (.vsub d a b) d a b eSub)

/-- VMUL (R119). -/
def execVmul (d a b : Reg) (s : State) : Host.Outcome State Fault Refusal :=
  .next (s.valu (.vmul d a b) d a b eMul)

/-- VMULHI (R119). -/
def execVmulhi (d a b : Reg) (s : State) : Host.Outcome State Fault Refusal :=
  .next (s.valu (.vmulhi d a b) d a b eMulhi)

/-- VAND (R119). -/
def execVand (d a b : Reg) (s : State) : Host.Outcome State Fault Refusal :=
  .next (s.valu (.vand d a b) d a b eAnd)

/-- VOR (R119). -/
def execVor (d a b : Reg) (s : State) : Host.Outcome State Fault Refusal :=
  .next (s.valu (.vor d a b) d a b eOr)

/-- VXOR (R119). -/
def execVxor (d a b : Reg) (s : State) : Host.Outcome State Fault Refusal :=
  .next (s.valu (.vxor d a b) d a b eXor)

/-- VANDN (R119). -/
def execVandn (d a b : Reg) (s : State) : Host.Outcome State Fault Refusal :=
  .next (s.valu (.vandn d a b) d a b eAndn)

/-- VSHL (R119). -/
def execVshl (d a b : Reg) (s : State) : Host.Outcome State Fault Refusal :=
  .next (s.valu (.vshl d a b) d a b eShl)

/-- VSHR (R119). -/
def execVshr (d a b : Reg) (s : State) : Host.Outcome State Fault Refusal :=
  .next (s.valu (.vshr d a b) d a b eShr)

/-- VSAR (R119). -/
def execVsar (d a b : Reg) (s : State) : Host.Outcome State Fault Refusal :=
  .next (s.valu (.vsar d a b) d a b eSar)

/-- VMIN (R119). -/
def execVmin (d a b : Reg) (s : State) : Host.Outcome State Fault Refusal :=
  .next (s.valu (.vmin d a b) d a b eMin)

/-- VMAX (R119). -/
def execVmax (d a b : Reg) (s : State) : Host.Outcome State Fault Refusal :=
  .next (s.valu (.vmax d a b) d a b eMax)

/-- VADDSAT (R119). -/
def execVaddsat (d a b : Reg) (s : State) : Host.Outcome State Fault Refusal :=
  .next (s.valu (.vaddsat d a b) d a b eAddsat)

/-- VSUBSAT (R119). -/
def execVsubsat (d a b : Reg) (s : State) : Host.Outcome State Fault Refusal :=
  .next (s.valu (.vsubsat d a b) d a b eSubsat)

/-- VABSD (R119). -/
def execVabsd (d a b : Reg) (s : State) : Host.Outcome State Fault Refusal :=
  .next (s.valu (.vabsd d a b) d a b eAbsd)

/-- VADD with a scalar b (R119). -/
def execVaddScalar (d a b : Reg) (s : State) : Host.Outcome State Fault Refusal :=
  .next (s.valuScalar (.vaddScalar d a b) d a b eAdd)

/-- VSUB with a scalar b (R119). -/
def execVsubScalar (d a b : Reg) (s : State) : Host.Outcome State Fault Refusal :=
  .next (s.valuScalar (.vsubScalar d a b) d a b eSub)

/-- VMUL with a scalar b (R119). -/
def execVmulScalar (d a b : Reg) (s : State) : Host.Outcome State Fault Refusal :=
  .next (s.valuScalar (.vmulScalar d a b) d a b eMul)

/-- VMULHI with a scalar b (R119). -/
def execVmulhiScalar (d a b : Reg) (s : State) : Host.Outcome State Fault Refusal :=
  .next (s.valuScalar (.vmulhiScalar d a b) d a b eMulhi)

/-- VAND with a scalar b (R119). -/
def execVandScalar (d a b : Reg) (s : State) : Host.Outcome State Fault Refusal :=
  .next (s.valuScalar (.vandScalar d a b) d a b eAnd)

/-- VOR with a scalar b (R119). -/
def execVorScalar (d a b : Reg) (s : State) : Host.Outcome State Fault Refusal :=
  .next (s.valuScalar (.vorScalar d a b) d a b eOr)

/-- VXOR with a scalar b (R119). -/
def execVxorScalar (d a b : Reg) (s : State) : Host.Outcome State Fault Refusal :=
  .next (s.valuScalar (.vxorScalar d a b) d a b eXor)

/-- VANDN with a scalar b (R119). -/
def execVandnScalar (d a b : Reg) (s : State) : Host.Outcome State Fault Refusal :=
  .next (s.valuScalar (.vandnScalar d a b) d a b eAndn)

/-- VSHL with a scalar b (R119). -/
def execVshlScalar (d a b : Reg) (s : State) : Host.Outcome State Fault Refusal :=
  .next (s.valuScalar (.vshlScalar d a b) d a b eShl)

/-- VSHR with a scalar b (R119). -/
def execVshrScalar (d a b : Reg) (s : State) : Host.Outcome State Fault Refusal :=
  .next (s.valuScalar (.vshrScalar d a b) d a b eShr)

/-- VSAR with a scalar b (R119). -/
def execVsarScalar (d a b : Reg) (s : State) : Host.Outcome State Fault Refusal :=
  .next (s.valuScalar (.vsarScalar d a b) d a b eSar)

/-- VMIN with a scalar b (R119). -/
def execVminScalar (d a b : Reg) (s : State) : Host.Outcome State Fault Refusal :=
  .next (s.valuScalar (.vminScalar d a b) d a b eMin)

/-- VMAX with a scalar b (R119). -/
def execVmaxScalar (d a b : Reg) (s : State) : Host.Outcome State Fault Refusal :=
  .next (s.valuScalar (.vmaxScalar d a b) d a b eMax)

/-- VADDSAT with a scalar b (R119). -/
def execVaddsatScalar (d a b : Reg) (s : State) : Host.Outcome State Fault Refusal :=
  .next (s.valuScalar (.vaddsatScalar d a b) d a b eAddsat)

/-- VSUBSAT with a scalar b (R119). -/
def execVsubsatScalar (d a b : Reg) (s : State) : Host.Outcome State Fault Refusal :=
  .next (s.valuScalar (.vsubsatScalar d a b) d a b eSubsat)

/-- VABSD with a scalar b (R119). -/
def execVabsdScalar (d a b : Reg) (s : State) : Host.Outcome State Fault Refusal :=
  .next (s.valuScalar (.vabsdScalar d a b) d a b eAbsd)

/-- An immediate form: k is imm11 sign-extended, then wrapped to the element (R120). -/
def State.valuImm (s : State) (i : Instr) (d a : Reg) (imm : BitVec 11) (f : ElemOp) : State :=
  let t := s.warp.ty .i32
  s.compute i (s.vform t.isInt t .s [a] [d] []) fun w =>
    w.setVNat d t.regs w.guarded fun l =>
      mapElems t.elemBits t.elems fun e => f t (elemOf t.elemBits e (w.vNat a t.regs l)) (wrapTo t.elemBits imm.toInt)

/-- VADDI (R120). -/
def execVaddi (d a : Reg) (imm : BitVec 11) (s : State) : Host.Outcome State Fault Refusal :=
  .next (s.valuImm (.vaddi d a imm) d a imm eAdd)

/-- VANDI (R120). -/
def execVandi (d a : Reg) (imm : BitVec 11) (s : State) : Host.Outcome State Fault Refusal :=
  .next (s.valuImm (.vandi d a imm) d a imm eAnd)

/-- VORI (R120). -/
def execVori (d a : Reg) (imm : BitVec 11) (s : State) : Host.Outcome State Fault Refusal :=
  .next (s.valuImm (.vori d a imm) d a imm eOr)

/-- VSHLI: the count is imm11, 0 to 63 (R120). -/
def execVshli (d a : Reg) (imm : BitVec 11) (s : State) : Host.Outcome State Fault Refusal :=
  .next (s.valuImm (.vshli d a imm) d a imm fun t x _ => eShl t x imm.toNat)

/-- VSHRI: the count is imm11, 0 to 63 (R120). -/
def execVshri (d a : Reg) (imm : BitVec 11) (s : State) : Host.Outcome State Fault Refusal :=
  .next (s.valuImm (.vshri d a imm) d a imm fun t x _ => eShr t x imm.toNat)

/-- VSARI: the count is imm11, 0 to 63 (R120). -/
def execVsari (d a : Reg) (imm : BitVec 11) (s : State) : Host.Outcome State Fault Refusal :=
  .next (s.valuImm (.vsari d a imm) d a imm fun t x _ => eSar t x imm.toNat)

/-- VMOVI: one register of any type (R120). -/
def execVmovi (d : Reg) (imm : BitVec 18) (s : State) : Host.Outcome State Fault Refusal :=
  .next (s.compute (.vmovi d imm) (s.vform true .b32 .s [] [d] []) fun w =>
    w.setV d w.guarded fun _ => BitVec.signExtend 32 imm)

/-- An integer instruction that also reads d (R121). -/
def State.vmadBy (s : State) (i : Instr) (d a b : Reg) (f : Ty → Nat → Nat → Nat → Nat) : State :=
  let t := s.warp.ty .i32
  s.compute i (s.vform t.isInt t .s [a, b, d] [d] []) fun w =>
    w.setVNat d t.regs w.guarded fun l =>
      mapElems t.elemBits t.elems fun e =>
        f t (elemOf t.elemBits e (w.vNat d t.regs l)) (elemOf t.elemBits e (w.vNat a t.regs l))
          (elemOf t.elemBits e (w.vNat b t.regs l))

/-- VMAD (R121). -/
def execVmad (d a b : Reg) (s : State) : Host.Outcome State Fault Refusal :=
  .next (s.vmadBy (.vmad d a b) d a b fun t x a b => wrapTo t.elemBits (t.val a * t.val b + t.val x))

/-- VMADHI (R121). -/
def execVmadhi (d a b : Reg) (s : State) : Host.Outcome State Fault Refusal :=
  .next (s.vmadBy (.vmadhi d a b) d a b fun t x a b => wrapTo t.elemBits ((t.val a * t.val b + t.val x) / 2 ^ t.elemBits))

def Ty.packed (t : Ty) : Bool := t.isInt && t.elems != 1
/-- i32, n32, i64 and n64. -/
def Ty.wide (t : Ty) : Bool := t.isInt && t.elems == 1

/-- VDOT4 (R122). -/
def execVdot4 (d a b : Reg) (s : State) : Host.Outcome State Fault Refusal :=
  let t := s.warp.ty .i32
  .next (s.compute (.vdot4 d a b) (s.vform (Ty.packed t) t .s [a, b, d] [d] []) fun w =>
    w.setV d w.guarded fun l =>
      w.v d l + BitVec.ofInt 32 (((List.range t.elems).map fun e =>
        t.val (elemOf t.elemBits e (w.v a l).toNat) * t.val (elemOf t.elemBits e (w.v b l).toNat)).sum))

/-- The conditions of VCMP (R123). -/
def VCond.holds (c : VCond) (a b : Int) : Bool :=
  match c with
  | .eq => a == b
  | .ne => a != b
  | .lt => decide (a < b)
  | .le => decide (a ≤ b)
  | .gt => decide (b < a)
  | .ge => decide (b ≤ a)

/-- VCMP (R123). -/
def execVcmp (p : PReg) (a b : Reg) (c : VCond) (s : State) : Host.Outcome State Fault Refusal :=
  let t := s.warp.ty .i32
  let form := s.vform (Ty.wide t) t .s [a, b] [] []
  .next (s.compute (.vcmp p a b c) { form with use := { form.use with pw := [p.val] } } fun w =>
    w.setP p w.guarded (LaneMask.ofFn fun l => VCond.holds c (t.val (w.vNat a t.regs l)) (t.val (w.vNat b t.regs l))))

/-- VSEL (R123). -/
def execVsel (d a b : Reg) (neg : Bool) (p : PReg) (s : State) : Host.Outcome State Fault Refusal :=
  let t := s.warp.ty .b32
  let form := s.vform t.isBits t .s [a, b] [d] []
  .next (s.compute (.vsel d a b neg p) { form with use := { form.use with pr := p.val :: form.use.pr } } fun w =>
    w.setVNat d t.regs w.guarded fun l => if LaneMask.has (w.p p) l != neg then w.vNat a t.regs l else w.vNat b t.regs l)

/-- A unary element operation on every integer type (R124). -/
def State.vbit1 (s : State) (i : Instr) (d a : Reg) (f : Ty → Nat → Nat) : State :=
  let t := s.warp.ty .i32
  s.compute i (s.vform t.isInt t .s [a] [d] []) fun w =>
    w.setVNat d t.regs w.guarded fun l =>
      mapElems t.elemBits t.elems fun e => f t (elemOf t.elemBits e (w.vNat a t.regs l))

/-- VPOPC (R124). -/
def execVpopc (d a : Reg) (s : State) : Host.Outcome State Fault Refusal :=
  .next (s.vbit1 (.vpopc d a) d a fun t x => popc t.elemBits x)

/-- VCLZ (R124). -/
def execVclz (d a : Reg) (s : State) : Host.Outcome State Fault Refusal :=
  .next (s.vbit1 (.vclz d a) d a fun t x => clz t.elemBits x)

/-- VCTZ (R124). -/
def execVctz (d a : Reg) (s : State) : Host.Outcome State Fault Refusal :=
  .next (s.vbit1 (.vctz d a) d a fun t x => ctz t.elemBits x)

/-- VBREV (R124). -/
def execVbrev (d a : Reg) (s : State) : Host.Outcome State Fault Refusal :=
  .next (s.vbit1 (.vbrev d a) d a fun t x => brev t.elemBits x)

/-- VNOT (R124). -/
def execVnot (d a : Reg) (s : State) : Host.Outcome State Fault Refusal :=
  .next (s.vbit1 (.vnot d a) d a fun t x => 2 ^ t.elemBits - 1 - x)

/-- VNEG (R124). -/
def execVneg (d a : Reg) (s : State) : Host.Outcome State Fault Refusal :=
  .next (s.vbit1 (.vneg d a) d a fun t x => wrapTo t.elemBits (-t.val x))

/-- VABS (R124). -/
def execVabs (d a : Reg) (s : State) : Host.Outcome State Fault Refusal :=
  .next (s.vbit1 (.vabs d a) d a fun t x => (t.val x).natAbs % 2 ^ t.elemBits)

/-- VBFE: the control word is the lane's b, the even register of a pair (R124). -/
def execVbfe (d a b : Reg) (s : State) : Host.Outcome State Fault Refusal :=
  let t := s.warp.ty .i32
  .next (s.compute (.vbfe d a b) (s.vform (Ty.wide t) t .s [a, b] [d] []) fun w =>
    w.setVNat d t.regs w.guarded fun l => bfe t.elemBits t.signed (w.vNat a t.regs l) (w.v b l).toNat)

/-- VBFI (R124). -/
def execVbfi (d a b : Reg) (s : State) : Host.Outcome State Fault Refusal :=
  let t := s.warp.ty .i32
  .next (s.compute (.vbfi d a b) (s.vform (Ty.wide t) t .s [a, b, d] [d] []) fun w =>
    w.setVNat d t.regs w.guarded fun l => bfi t.elemBits (w.vNat d t.regs l) (w.vNat a t.regs l) (w.v b l).toNat)

def permByte (pool sel : Nat) : Nat := if bitsOf sel 3 1 = 1 then 0 else elemOf 8 (sel % 8) pool

/-- VPERMB (R124). -/
def execVpermb (d a b : Reg) (s : State) : Host.Outcome State Fault Refusal :=
  let t := s.warp.ty .i32
  .next (s.compute (.vpermb d a b) (s.vform (t == .i32 || t == .n32) t .s [a, b, d] [d] []) fun w =>
    w.setV d w.guarded fun l =>
      BitVec.ofNat 32 (mapElems 8 4 fun k =>
        permByte ((w.v a l).toNat + (w.v d l).toNat * 2 ^ 32) (elemOf 8 k (w.v b l).toNat)))

/-- The carry forms, which read and write p6 (R102, R124). -/
def State.vcarry (s : State) (i : Instr) (d a b : Reg) (f : Nat → Nat → Nat → Nat × Bool) : State :=
  let t := s.warp.ty .i32
  let form := s.vform (t == .i32 || t == .n32) t .s [a, b] [d] []
  s.compute i { form with use := { form.use with pr := 6 :: form.use.pr, pw := [6] } } fun w =>
    let r (l : Lane) : Nat × Bool := f (w.v a l).toNat (w.v b l).toNat (if LaneMask.has (w.p 6) l then 1 else 0)
    (w.setV d w.guarded fun l => BitVec.ofNat 32 (r l).1).setP 6 w.guarded (LaneMask.ofFn fun l => (r l).2)

/-- VADDC (R124). -/
def execVaddc (d a b : Reg) (s : State) : Host.Outcome State Fault Refusal :=
  .next (s.vcarry (.vaddc d a b) d a b fun a b c => (a + b + c, decide (2 ^ 32 ≤ a + b + c)))

/-- VSUBB (R124). -/
def execVsubb (d a b : Reg) (s : State) : Host.Outcome State Fault Refusal :=
  .next (s.vcarry (.vsubb d a b) d a b fun a b c => (a + 2 ^ 33 - b - c, decide (a < b + c)))

/-- VLEA (R124). -/
def execVlea (d a b : Reg) (s : State) : Host.Outcome State Fault Refusal :=
  let t := s.warp.ty .i32
  let form : Form := {
    badType := !t.isInt
    use := { vr := span a 2 ++ [b.val], vw := span d 2, sr := maskUse, pr := s.warp.guardUse } }
  .next (s.compute (.vlea d a b) form fun w =>
    w.setV64 d w.guarded fun l =>
      let x : DWord := if t.signed then BitVec.signExtend 64 (w.v b l) else BitVec.setWidth 64 (w.v b l)
      w.v64 a l + x * BitVec.ofNat 64 (t.elemBits / 8))

/-- Widening of one element: to 32 bits, or to a pair for the 32-bit types (R124). -/
def State.vwiden (s : State) (i : Instr) (d a : Reg) (k : Fin 4) (signed : Bool) : State :=
  let t := s.warp.ty .i32
  let ok := t.isInt && !t.is64
  let n := if t.elemBits = 32 then 2 else 1
  let form : Form := {
    undef := ok && d.val % n != 0
    badType := !ok
    use := { vr := [a.val], vw := span d (if ok then n else 1), sr := maskUse, pr := s.warp.guardUse } }
  s.compute i form fun w =>
    w.setVNat d n w.guarded fun l =>
      let e := elemOf t.elemBits (k.val % t.elems) (w.v a l).toNat
      if signed then wrapTo (32 * n) (signedOf t.elemBits e) else e

/-- VSEXT (R124). -/
def execVsext (d a : Reg) (k : Fin 4) (s : State) : Host.Outcome State Fault Refusal :=
  .next (s.vwiden (.vsext d a k) d a k true)

/-- VZEXT (R124). -/
def execVzext (d a : Reg) (k : Fin 4) (s : State) : Host.Outcome State Fault Refusal :=
  .next (s.vwiden (.vzext d a k) d a k false)

/-- Quotient and remainder of an element (R125). -/
def divRem (t : Ty) (a b : Nat) : Nat × Nat :=
  let w := t.elemBits
  if t.val b = 0 then (2 ^ w - 1, a)
  else
    let q := Int.tdiv (t.val a) (t.val b)
    (wrapTo w q, wrapTo w (t.val a - q * t.val b))

/-- A long division: operands are read at issue, the result waits in its window (R125). -/
def State.vdivBy (s : State) (i : Instr) (d a b : Reg) (la : Fin 16) (f : Ty → Nat → Nat → Nat) : State :=
  let t := s.warp.ty .i32
  let form := s.vform (Ty.wide t) t .l [a, b] [d] []
  s.compute i form fun w =>
    w.pushLong la.val form.use
      (wbNat d t.regs w.guarded fun l => f t (w.vNat a t.regs l) (w.vNat b t.regs l)) 0 none

/-- VDIV (R125). -/
def execVdiv (d a b : Reg) (la : Fin 16) (s : State) : Host.Outcome State Fault Refusal :=
  .next (s.vdivBy (.vdiv d a b la) d a b la fun t a b => (divRem t a b).1)

/-- VREM (R125). -/
def execVrem (d a b : Reg) (la : Fin 16) (s : State) : Host.Outcome State Fault Refusal :=
  .next (s.vdivBy (.vrem d a b la) d a b la fun t a b => (divRem t a b).2)

end Sys2Proof.Machine
end

