-- ==== Sys2Proof/Machine/Moves.lean ====
section
/-! DEFINITION. Moves, predicates and random draws (R126 to R128, R346 to R348). -/

namespace Sys2Proof.Machine

/-- VMOV (R126). -/
def execVmov (d a : Reg) (s : State) : Host.Outcome State Fault Refusal :=
  .next (s.compute (.vmov d a) (s.vform true .b32 .s [a] [d] []) fun w => w.setV d w.guarded fun l => w.v a l)

/-- VMOVS (R126). -/
def execVmovs (d a : Reg) (s : State) : Host.Outcome State Fault Refusal :=
  .next (s.compute (.vmovs d a) (s.vform true .b32 .s [] [d] [a.val]) fun w => w.setV d w.guarded fun _ => w.s a)

/-- The lane that a scalar names, if it is below 96 (R126). -/
def laneOf (v : Word) : Option Lane := if h : v.toNat < 96 then some ⟨v.toNat, h⟩ else none

/-- VRDL reads any lane (R126). -/
def execVrdl (d a b : Reg) (s : State) : Host.Outcome State Fault Refusal :=
  .next (s.compute (.vrdl d a b) { use := { vr := [a.val], sr := [b.val], sw := [d.val] } } fun w =>
    w.setS d (match laneOf (w.s b) with
      | some l => w.v a l
      | none => 0))

/-- VWRL writes a lane of the activity mask (R126). -/
def execVwrl (d a b : Reg) (s : State) : Host.Outcome State Fault Refusal :=
  .next (s.compute (.vwrl d a b) { use := { vw := [d.val], sr := [a.val, b.val] ++ maskUse } } fun w =>
    match laneOf (w.s b) with
    | some l => w.setV d (w.sp.active &&& (1#96 <<< l.val)) fun _ => w.s a
    | none => w)

/-- A PALU result in the active lanes (R127). -/
def State.palu (s : State) (i : Instr) (d : PReg) (reads : List PReg) (f : Warp → LaneMask) : State :=
  s.compute i { use := { pr := reads.map (·.val) ++ s.warp.guardUse, pw := [d.val], sr := maskUse } } fun w =>
    w.setP d w.guarded (f w)

/-- PAND (R127). -/
def execPand (d a b : PReg) (s : State) : Host.Outcome State Fault Refusal :=
  .next (s.palu (.pand d a b) d [a, b] fun w => w.p a &&& w.p b)

/-- POR (R127). -/
def execPor (d a b : PReg) (s : State) : Host.Outcome State Fault Refusal :=
  .next (s.palu (.por d a b) d [a, b] fun w => w.p a ||| w.p b)

/-- PXOR (R127). -/
def execPxor (d a b : PReg) (s : State) : Host.Outcome State Fault Refusal :=
  .next (s.palu (.pxor d a b) d [a, b] fun w => w.p a ^^^ w.p b)

/-- PNOT (R127). -/
def execPnot (d a : PReg) (s : State) : Host.Outcome State Fault Refusal :=
  .next (s.palu (.pnot d a) d [a] fun w => ~~~(w.p a))

/-- PSET (R127). -/
def execPset (d : PReg) (s : State) : Host.Outcome State Fault Refusal :=
  .next (s.palu (.pset d) d [] fun _ => ~~~0)

/-- PCLR (R127). -/
def execPclr (d : PReg) (s : State) : Host.Outcome State Fault Refusal :=
  .next (s.palu (.pclr d) d [] fun _ => 0)

/-- PMOVS: the lanes of the activity mask take their bits from three scalars (R128). -/
def execPmovs (p : PReg) (a : Reg) (s : State) : Host.Outcome State Fault Refusal :=
  .next (s.compute (.pmovs p a) { use := { sr := span a 3 ++ maskUse, pw := [p.val] } } fun w =>
    w.setP p w.sp.active (LaneMask.ofParts (w.s a) (w.s (a + 1)) (w.s (a + 2))))

/-- SMOVP: all 96 lanes into three scalars (R128). -/
def execSmovp (d : Reg) (p : PReg) (s : State) : Host.Outcome State Fault Refusal :=
  .next (s.compute (.smovp d p) { use := { pr := [p.val], sw := span d 3 } } fun w =>
    let m := w.p p
    ((w.setS d (m.part 0)).setS (d + 1) (m.part 1)).setS (d + 2) (m.part 2))

/-- RND (R348). -/
def execRnd (d : Reg) (s : State) : Host.Outcome State Fault Refusal :=
  let h := s.hdr
  .next (s.compute (.rnd d) (s.vform true .b32 .s [] [d] []) fun w =>
    (w.setV d w.guarded fun l => drawAt h w l 0).advance w.guarded fun _ => 1)

/-- RNDF: u[31:8] × 2^-24 as f32, exactly (R348). -/
def execRndf (d : Reg) (s : State) : Host.Outcome State Fault Refusal :=
  let h := s.hdr
  .next (s.compute (.rndf d) (s.vform true .b32 .s [] [d] []) fun w =>
    (w.setV d w.guarded fun l =>
      BitVec.ofNat 32 (f32F.round .rne 0 false ⟨(drawAt h w l 0).toNat / 256, -24, false⟩).1).advance w.guarded fun _ => 1)

/-- RNDSKIP (R348). -/
def execRndskip (a : Reg) (s : State) : Host.Outcome State Fault Refusal :=
  .next (s.compute (.rndskip a) (s.vform true .b32 .s [a] [] []) fun w => w.advance w.guarded fun l => (w.v a l).toNat)

end Sys2Proof.Machine
end

