-- ==== Sys2Proof/Machine/Special.lean ====
section
/-! DEFINITION. Special registers (R109 to R111), GROW and SHRINK (R104 to R108). -/

namespace Sys2Proof.Machine

/-! Reading. -/

/-- Thread linear index of a lane (R26). -/
def Warp.tidx (w : Warp) (l : Lane) : Nat := w.key.widx * 96 + l.val

/-- A per-lane special register (R109). -/
def State.laneSpecial (s : State) (n : SpecReg) (l : Lane) : Word :=
  let w := s.warp
  let h := s.hdr
  match n with
  | .lane => BitVec.ofNat 32 l.val
  | .tidx => BitVec.ofNat 32 (w.tidx l)
  | .field k => BitVec.ofNat 32 (h.field k.val (w.tidx l) w.key.wglin)
  | .wid => lowWord (h.workId (w.tidx l) w.key.wglin)
  | .widhi => highWord (h.workId (w.tidx l) w.key.wglin)
  | .rctr => BitVec.setWidth 32 w.counters[l]
  | .rctrhi => BitVec.setWidth 32 (BitVec.extractLsb' 32 16 w.counters[l])
  | _ => 0

/-- A warp-uniform special register (R109, R382). -/
def State.warpSpecial (s : State) (n : SpecReg) : Word :=
  let w := s.warp
  let h := s.hdr
  match n with
  | .warpidx => BitVec.ofNat 32 w.key.widx
  | .nwarps => BitVec.ofNat 32 h.warps
  | .wglin => BitVec.ofNat 32 w.key.wglin
  | .wglinhi => BitVec.ofNat 32 (w.key.wglin / 2 ^ 32)
  | .clrank => BitVec.ofNat 32 s.rank
  | .clsize => BitVec.ofNat 32 h.clsize
  | .allot => BitVec.ofNat 32 w.allot
  | .fflags => w.fflags
  | .clausest => w.clausest
  | .cycle => lowWord (s.cycle s.ctx)
  | .cyclehi => w.cycleHi.getD (highWord (s.cycle s.ctx))
  | .lclock => lowWord w.clock
  | .lclockhi => w.lclockHi.getD (highWord w.clock)
  | .rngseed => lowWord h.seed
  | .rngseedhi => highWord h.seed
  | .rngstream => BitVec.setWidth 32 w.rngstream
  | .trapcause => w.trapcause
  | .trappc => lowWord w.trappc
  | .trappchi => highWord w.trappc
  | .trapaddr => lowWord w.trapaddr
  | .trapaddrhi => highWord w.trapaddr
  | .trapmask => if w.trapmask then 1 else 0
  | .splitid => BitVec.ofNat 32 w.cur.val
  | .nsplits => BitVec.ofNat 32 ((List.finRange 4).filter fun k => (w.splits[k]).isSome).length
  | .lklast => w.lklast
  | .age => lowWord w.key.age
  | .agehi => highWord w.key.age
  | .barcount => w.barcount
  | .agex => w.key.agex
  | .trapli => lowWord w.trapli
  | .traplihi => highWord w.trapli
  | _ => 0

/-- Numbers 0 to 63 are per lane (R109). -/
def SpecReg.perLane (n : SpecReg) : Bool := decide (n.number < 64)

/-- The high word that an SRD of CYCLE or LCLOCK latches (R111). -/
def State.latch (s : State) (n : SpecReg) (w : Warp) : Warp :=
  match n with
  | .cycle => { w with cycleHi := some (highWord (s.cycle s.ctx)) }
  | .lclock => { w with lclockHi := some (highWord s.warp.clock) }
  | _ => w

/-- The read of a special register (R110). -/
def State.specialRead (s : State) (i : Instr) (d : Reg) (n : SpecReg) : State :=
  let form : Form :=
    if SpecReg.perLane n then { use := { vw := [d.val], sr := maskUse } } else { use := { sw := [d.val] } }
  s.issue i form fun s => .done (s.modWarp fun w =>
    s.latch n (if SpecReg.perLane n then w.setV d w.sp.active (s.laneSpecial n) else w.setS d (s.warpSpecial n)))

/-- SRD (R110). -/
def execSrd (d : Reg) (n : SpecReg) (s : State) : Host.Outcome State Fault Refusal :=
  .next (s.specialRead (.srd d n) d n)

/-- SRD of CYCLEHI, or of LCLOCKHI (R111). -/
def execCyclehiRead (d : Reg) (clock : Bool) (s : State) : Host.Outcome State Fault Refusal :=
  let n : SpecReg := if clock then .lclockhi else .cyclehi
  .next (s.specialRead (.srd d n) d n)

/-! Writing. -/

/-- A value written to a warp-uniform special register; reserved bits are ignored (R109, R110, R382). -/
def Warp.writeSpecial (w : Warp) (n : SpecReg) (v : Word) : Warp :=
  match n with
  | .fflags => { w with fflags := v &&& 0x1F3F#32 }
  | .clausest => { w with clausest := v &&& 0x03FFFFFF#32 }
  | .rngstream => { w with rngstream := BitVec.setWidth 16 v }
  | .trappc => { w with trappc := joinWords (v &&& 0xFFFFFFFC#32) (highWord w.trappc) }
  | .trappchi => { w with trappc := joinWords (lowWord w.trappc) (v &&& 0x01FFFFFF#32) }
  | .trapmask => { w with trapmask := v.getLsbD 0 }
  | .barcount => { w with barcount := v &&& 0x3FFF#32 }
  | _ => w

/-- A lane's random counter written (R109). -/
def counterWrite (hi : Bool) (old : BitVec 48) (v : Word) : BitVec 48 :=
  if hi then BitVec.setWidth 16 v ++ BitVec.setWidth 32 old else BitVec.extractLsb' 32 16 old ++ v

def Warp.writeLaneSpecial (w : Warp) (n : SpecReg) (a : Reg) : Warp :=
  { w with counters := Vector.ofFn fun l =>
      if w.sp.active.has l then counterWrite (n == .rctrhi) w.counters[l] (w.v a l) else w.counters[l] }

/-- The write of a special register; a CLAUSEST value with an UNDEF code or a count above 16 is UNDEF (R54, R110). That UNDEF
depends on the operand's value, and ranks after HAZARD as the instruction's own cause (log entry 83). -/
def State.specialWrite (s : State) (i : Instr) (a : Reg) (n : SpecReg) : State :=
  let form : Form :=
    if SpecReg.perLane n then { undef := !SpecReg.writable n, use := { vr := [a.val], sr := maskUse } }
    else { undef := !SpecReg.writable n, use := { sr := [a.val] } }
  s.issue i form fun s =>
    if SpecReg.perLane n then .done (s.modWarp fun w => w.writeLaneSpecial n a)
    else if n == .clausest && (clausestFields (s.warp.s a)).isNone then .trap s .undef (BitVec.setWidth 64 (wordOf i))
    else .done (s.modWarp fun w => w.writeSpecial n (w.s a))

/-- SWR (R110). -/
def execSwr (a : Reg) (n : SpecReg) (s : State) : Host.Outcome State Fault Refusal :=
  .next (s.specialWrite (.swr a n) a n)

/-- SWR of FFLAGS raises no FPE (R110). -/
def execFflagsWrite (a : Reg) (s : State) : Host.Outcome State Fault Refusal :=
  .next (s.specialWrite (.swr a .fflags) a .fflags)

/-- SWR of CLAUSEST (R54). -/
def execClausestWrite (a : Reg) (s : State) : Host.Outcome State Fault Refusal :=
  .next (s.specialWrite (.swr a .clausest) a .clausest)

/-- SWR of TRAPMASK changes only the mask (R384). -/
def execTrapmaskWrite (a : Reg) (s : State) : Host.Outcome State Fault Refusal :=
  .next (s.specialWrite (.swr a .trapmask) a .trapmask)

/-- A write of s120, s121 or s122 (R100), as SMOV makes it. -/
def execActivityMaskWrite (k : Fin 3) (a : Reg) (s : State) : Host.Outcome State Fault Refusal :=
  let d : Reg := ⟨120 + k.val, by omega⟩
  .next (s.sun (.smov d a) d a fun a => a)

/-! GROW and SHRINK. -/

/-- Warp-registers of a half's pool (R99). -/
def poolSize : Nat := 2048
def Workgroup.charge (g : Workgroup) (half : Bool) : Nat := if half then g.charge1 else g.charge0
def Workgroup.addCharge (g : Workgroup) (half : Bool) (n : Nat) : Workgroup :=
  if half then { g with charge1 := g.charge1 + n } else { g with charge0 := g.charge0 + n }
/-- Registers given back: to the warp's half first, the rest to the other, which lent them through the reserve (R105). -/
def Workgroup.subCharge (g : Workgroup) (half : Bool) (n : Nat) : Workgroup :=
  let own := min n (g.charge half)
  let rest := n - own
  if half then { g with charge1 := g.charge1 - own, charge0 := g.charge0 - rest }
  else { g with charge0 := g.charge0 - own, charge1 := g.charge1 - rest }

/-- A workgroup's warps hold slots and registers on its core. -/
def Workgroup.holdsCore (g : Workgroup) : Bool := g.state == .resident
/-- Warp-registers free in a half's pool (R99). -/
def State.poolFree (s : State) (core : Nat) (half : Bool) : Nat :=
  poolSize - ((s.groups.filter fun g => g.core == core && g.holdsCore).map (·.charge half)).sum

/-- A context whose work the device runs. -/
def State.contextRuns (s : State) (ctx : Nat) : Bool :=
  match s.context ctx with
  | some c => !c.dead && !c.frozen
  | none => false

def Wait.growing : Wait → Bool
  | .grow _ => true
  | _ => false
/-- The lowest-numbered split of a warp that waits in GROW: it takes GROWDEAD where several wait (log entry 10). -/
def Warp.growSplit (w : Warp) : Option (Fin 4) := (List.finRange 4).find? fun k => match w.splits[k] with
  | some p => p.wait.growing
  | none => false
/-- An older GROW waits for the pool of the same half (R106). -/
def State.olderGrow (s : State) (w : Warp) : Bool :=
  s.warps.any fun x => x.core == w.core && x.half == w.half && x.growSplit.isSome && older x.key w.key

/-- The grant of GROW n to the running warp, when the reserve and the pool supply it (R106) and its allotment stays within 128
(R98). -/
def State.growGrant (s : State) (n : Nat) : Option State :=
  let take := min n s.wg.reserve
  let need := n - take
  if 128 < s.warp.allot + n then none
  else if need = 0 ∨ (need ≤ s.poolFree s.warp.core s.warp.half ∧ !s.olderGrow s.warp) then
    let half := s.warp.half
    let s := s.modWg fun g => ({ g with reserve := g.reserve - take } : Workgroup).addCharge half need
    some (s.modWarp fun w =>
      { w with
        vregs := Vector.ofFn fun r => if w.allot ≤ r.val ∧ r.val < w.allot + n then VReg.zero else w.vregs[r]
        allot := w.allot + n })
  else none

/-- A waiting GROW is tried again: its wait ends by the grant alone (R106), which one that another split's grant has made too
large does not get (R98; log entry 82). -/
def State.retryGrow (s : State) (k : WarpKey) (i : Fin 4) : State :=
  match (s.warpAt k).bind (·.splits[i]) with
  | none => s
  | some p => match p.wait with
    | .grow n => s.inSplit k i fun s => match s.growGrant n with
      | some s => s.retire
      | none => s
    | _ => s
/-- The waiting GROWs are tried again, oldest first (R106); those of one warp, equal in age, by split number (log entry 82). -/
def State.retryGrows (s : State) : State :=
  (sortOldest ((s.warps.filter fun w => w.growSplit.isSome && s.contextRuns w.key.ctx).map (·.key))).foldl (fun s k =>
    (List.finRange 4).foldl (fun s i => s.retryGrow k i) s) s

/-- A wait that only the split's own workgroup could end: GROW, the occupied overflow entry, a barrier of the workgroup. -/
def Warp.waitsWithin (w : Warp) (k : Fin 4) : Bool :=
  match w.splits[k] with
  | some p => match p.wait with
    | .grow _ => true
    | .overflow => w.overflow.isSome
    | .barrier n _ => decide (n < 16)
    | _ => false
  | none => true
/-- A warp that waits in GROW (R107; log entry 10): a split of it does, and of those that may issue (R38, R41, R384) none can
go on of itself. -/
def Warp.stuckInGrow (w : Warp) (det : Bool) : Bool :=
  let w := w.boundary
  w.growSplit.isSome && match w.hold with
    | some h => w.waitsWithin h
    | none =>
      let next := w.lowestPc fun k => match w.splits[k] with
        | some p => !p.wait.isBarrier
        | none => false
      match det, next with
      | true, some k => w.waitsWithin k
      | _, _ => (List.finRange 4).all w.waitsWithin
/-- The split in which GROWDEAD is raised: the handler's while its hold lasts, where that is in GROW, else the lowest-numbered
one in GROW (log entry 10). -/
def Warp.deadSplit (w : Warp) : Option (Fin 4) :=
  match w.hold with
  | none => w.growSplit
  | some h => if ((w.splits[h]).map fun p => p.wait.growing).getD false then some h else w.growSplit

/-- GROWDEAD in the waiting warp with the highest WARPIDX, when every live warp of the workgroup waits in GROW (R107). -/
def State.growDead (s : State) (g : WgKey) : State :=
  let ws := s.warpsOf g
  if ws ≠ [] ∧ ws.all fun w => w.stuckInGrow (s.hdrOf g.launch).det then
    let top := ws.foldl (fun (m : Nat) w => max m w.key.widx) 0
    match ws.find? fun w => w.key.widx == top with
    | some w => match w.deadSplit with
      | some i => s.inSplit w.key i fun s => s.trapWaiting .growdead 0
      | none => s
    | none => s
  else s
/-- GROWs at a step: those that wait are tried again, and a workgroup that waits in GROW alone meets GROWDEAD. -/
def State.growTime (s : State) : State :=
  let s := s.retryGrows
  ((s.warps.filter fun w => w.growSplit.isSome && s.contextRuns w.key.ctx).map (·.key.wg)).eraseDups.foldl State.growDead s

/-- GROW (R106). -/
def execGrow (imm : BitVec 18) (s : State) : Host.Outcome State Fault Refusal :=
  let i : Instr := .grow imm
  .next (s.issue i { cls := .b } fun s =>
    if 128 < s.warp.allot + imm.toNat then .trap s .regbound (BitVec.setWidth 64 (wordOf i))
    else match s.growGrant imm.toNat with
      | some s => .done s
      | none => .stay ((s.setWait (.grow imm.toNat)).growDead s.warp.key.wg))

/-- SHRINK (R106). -/
def execShrink (imm : BitVec 18) (s : State) : Host.Outcome State Fault Refusal :=
  let i : Instr := .shrink imm
  .next (s.issue i { waits := true } fun s =>
    if s.warp.allot < imm.toNat + 8 then .trap s .regbound (BitVec.setWidth 64 (wordOf i))
    else
      let s := s.modWarp fun w => { w with
        vregs := Vector.ofFn fun r => if w.allot - imm.toNat ≤ r.val ∧ r.val < w.allot then VReg.zero else w.vregs[r]
        allot := w.allot - imm.toNat }
      .moved ((s.modWg fun g => { g with reserve := g.reserve + imm.toNat }).modWarp fun w => w.modSp Split.advance).retryGrows)

end Sys2Proof.Machine
end

