-- ==== Sys2Proof/Machine/Sync.lean ====
section
/-! DEFINITION. Release and acquire (R247, R255), barriers (R336 to R341), tickets (R342 to R345) and FENCE (R251). -/

namespace Sys2Proof.Machine

/-! Release and acquire. -/

/-- What the warp has stored in its cluster cache may from now on happen before what others do (R249). -/
def State.giveOwn (s : State) : State :=
  if (s.cacheOf s.cluster).any fun c => c.warp == some s.warp.key && !c.given then
    s.setCache s.cluster ((s.cacheOf s.cluster).map fun c => if c.warp == some s.warp.key then { c with given := true } else c)
  else s
/-- The written bytes of the cluster cache that a release carries on: all of them, or only those that happen before it, which
its own warp stored or theirs has released (R247; log entry 8). -/
def State.carried (s : State) (a : Nat) : Bool :=
  !s.slow || (cacheGet (s.cacheOf s.cluster) a).any (·.given)

/-- A release at a scope by the running warp: every access it has issued is performed at the point of that scope, and at die
scope or wider its cluster cache's written bytes are written back (R243, R247). -/
def State.releaseAt (s : State) (sc : Scope) : State :=
  let narrow := Scope.narrow sc
  let mine (x : LateWrite) : Bool := x.warp == some s.warp.key
  let s := { s with late := s.late.map fun x => if mine x then { x with narrow := x.narrow || narrow } else x }
  let s := s.flushOwn.giveOwn
  if narrow then s else s.writeBackWhere s.cluster s.carried

/-! Barriers. -/

def Barrier.empty : Barrier := ⟨[], 0, none⟩

/-- Barrier `n` of a workgroup; 16 is the cluster barrier of its launch cluster (R336). -/
def State.barrier (s : State) (k : WgKey) (n : Nat) : Barrier :=
  if h : n < 16 then (((s.group? k).getD (Workgroup.blank k)).barriers)[n]
  else
    match s.launch k.launch with
    | none => Barrier.empty
    | some l => ((l.cbars.find? fun c => c.1 == k.wglin / l.hdr.clsize).map (·.2)).getD Barrier.empty

def State.setBarrier (s : State) (k : WgKey) (n : Nat) (b : Barrier) : State :=
  if h : n < 16 then s.modGroup k fun g => { g with barriers := g.barriers.set n b }
  else s.modLaunch k.launch fun l =>
    let c := k.wglin / l.hdr.clsize
    { l with cbars := (c, b) :: l.cbars.filter fun x => x.1 != c }

/-- The workgroups in a barrier's scope. -/
def State.barrierScope (s : State) (k : WgKey) (n : Nat) : List WgKey :=
  if n < 16 then [k] else (s.hdrOf k.launch).clusterKeys k
/-- The number a thread of a lane has in an arrival set (R404). -/
def State.arrivalOf (s : State) (n : Nat) (l : Lane) : Nat :=
  (if n < 16 then 0 else s.rank * s.hdr.threads) + s.warp.tidx l

/-- Threads leave a phase by exiting; with none left it stands as though none had come (R175, R337). -/
def Barrier.without (b : Barrier) (gone : List Nat) : Barrier :=
  let left := b.arrived.filter fun t => !gone.contains t.1
  if left = [] then { b with arrived := [], first := none } else { b with arrived := left }

/-- The arrival of the running split's members (R337, R339). -/
def Barrier.arrive (b : Barrier) (ids : List Nat) (barcount : Word) (clock : Nat) : Barrier :=
  { b with
    arrived := b.arrived ++ (ids.filter fun t => !b.threads.contains t).map fun t => (t, clock)
    first := if b.arrived = [] then some barcount else b.first }

/-- The phase is complete (R338). -/
def Barrier.complete (b : Barrier) (live : Nat) : Bool := b.arrived != [] && decide (b.expected live ≤ b.arrived.length)

/-- Live threads in a barrier's scope (R337). -/
def State.scopeLive (s : State) (k : WgKey) (n : Nat) : Nat := if n < 16 then s.liveThreads k else s.clusterLive k

/-- The test after an arrival or an exit (R338): a complete phase releases its waiters and the next begins. `clock` is the
clock of an exiting warp (R175). -/
def State.testBarrier (s : State) (k : WgKey) (n clock : Nat) : State :=
  let b := s.barrier k n
  if b.complete (s.scopeLive k n) then
    let ks := s.barrierScope k n
    let waker := if (s.hdrOf k.launch).det then some (max b.clock clock) else none
    (s.modWarps (fun w => w.live && ks.contains w.key.wg) fun w =>
      w.completeWaits (fun x => x == .barrier n b.phase) waker id).setBarrier k n ⟨[], b.phase + 1, none⟩
  else s

/-- An arrival at a barrier: a release (R255). -/
def State.arrive (s : State) (n : Nat) : State :=
  let k := s.warp.key.wg
  let s := s.releaseAt (if n < 16 then .group else .cluster)
  let ids := (LaneMask.lanes s.warp.sp.member).map (s.arrivalOf n)
  s.setBarrier k n ((s.barrier k n).arrive ids s.warp.barcount s.warp.clock.toNat)

/-- Wait for the phase that holds the split's members (R340). -/
def State.barrierWait (s : State) (n : Nat) : Res :=
  let b := s.barrier s.warp.key.wg n
  if (LaneMask.lanes s.warp.sp.member).any fun l => b.threads.contains (s.arrivalOf n l) then
    .stay (s.setWait (.barrier n b.phase))
  else .done s

/-- BAR and CBAR: arrive, then wait (R340); in deterministic mode the arrival is a release that waits for the warp's
reductions (R259). -/
def State.barRule (s : State) (n : Nat) : Res :=
  if s.mustCommit then .stay s.commitWait
  else
    let k := s.warp.key.wg
    let s := s.arrive n
    match s.barrierWait n with
    | .stay s => .stay (s.testBarrier k n 0)
    | r => r

/-- BAR (R340). -/
def execBar (n : Fin 16) (s : State) : Host.Outcome State Fault Refusal :=
  .next (s.issue (.bar n) { cls := .b } fun s => s.barRule n.val)

/-- BARARR (R340). -/
def execBararr (n : Fin 16) (s : State) : Host.Outcome State Fault Refusal :=
  .next (s.issue (.bararr n) {} fun s =>
    if s.mustCommit then .stay s.commitWait
    else .done ((s.arrive n.val).testBarrier s.warp.key.wg n.val 0))

/-- BARWAIT (R340): a warp whose phase is already complete goes on. -/
def execBarwait (n : Fin 16) (s : State) : Host.Outcome State Fault Refusal :=
  .next (s.issue (.barwait n) { cls := .b } fun s => s.barrierWait n.val)

/-- CBAR (R340). -/
def execCbar (s : State) : Host.Outcome State Fault Refusal :=
  .next (s.issue .cbar { cls := .b } fun s => s.barRule 16)

/-! Tickets. -/

def tkTurn : Word := 0
def tkPoison : Word := 1
def tkNoseq : Word := 2
def tkNoturn : Word := 3
def tkPassed : Word := 4

def State.ticket (s : State) (k : LaunchKey) (i : Fin 4) : Ticket :=
  match s.launch k with
  | some l => l.tickets[i]
  | none => ⟨0, false, [], []⟩
def State.setTicket (s : State) (k : LaunchKey) (i : Fin 4) (t : Ticket) : State :=
  s.modLaunch k fun l => { l with tickets := l.tickets.set i t }

/-- A faulted workgroup's turn poisons the sequence when it comes (R344). -/
def Ticket.poisonDue (t : Ticket) : Ticket := if t.poisonAt.contains t.value then { t with poisoned := true } else t

/-- Advance(k) (R343): the deferred passes that are due. -/
def Ticket.advance : Nat → Ticket → Ticket
  | 0, t => t
  | n + 1, t =>
    if t.deferred.contains t.value then
      Ticket.advance n { t with value := t.value + 1, deferred := t.deferred.filter (· != t.value) }
    else t.poisonDue
/-- V(k) := W + 1, then Advance(k). -/
def Ticket.pass (t : Ticket) (w : Nat) : Ticket := Ticket.advance (t.deferred.length + 1) { t with value := w + 1 }

/-- What TKWAIT answers, if it need not wait (R343). -/
def Ticket.answer (t : Ticket) (w : Nat) : Option Word :=
  if t.poisoned then some tkPoison
  else if w < t.value then some tkPassed
  else if t.value = w then some tkTurn
  else none

/-- The waiters of a sequence whose wait is over complete; a turn that has come is an acquire (R343, R255). -/
def State.serveTickets (s : State) (k : LaunchKey) (i : Fin 4) (clock : Option Nat) : State :=
  let ks := ((s.warps.filter fun w => w.key.launch == k).filter fun w => (List.finRange 4).any fun j => match w.splits[j] with
    | some p => match p.wait with
      | .ticket _ x => x == i
      | _ => false
    | none => false).map (·.key)
  ks.foldl (fun s key =>
    match (s.ticket k i).answer key.wglin with
    | none => s
    | some st =>
      let cl := ((s.warpAt key).map fun w => w.core / 8).getD 0
      let s := if st = tkTurn then s.dropWhere cl fun _ => true else s
      s.modWarpAt key fun w => (List.finRange 4).foldl (fun w j => match w.splits[j] with
        | some p => match p.wait with
          | .ticket d x => if x == i then w.completeWait j clock fun w => w.setS d st else w
          | _ => w
        | none => w) w) s

/-- TKWAIT (R343). -/
def execTkwait (d : Reg) (k : Fin 4) (s : State) : Host.Outcome State Fault Refusal :=
  .next (s.issue (.tkwait d k) { cls := .b, sync := true, use := { sw := [d.val] } } fun s =>
    if s.hdr.tickets ≤ k.val then .done (s.modWarp fun w => w.setS d tkNoseq)
    else
      match (s.ticket s.warp.key.launch k).answer s.warp.key.wglin with
      | none => .stay (s.setWait (.ticket d k))
      | some st =>
        let s := if st = tkTurn then s.acquireAt .device else s
        .done (s.modWarp fun w => w.setS d st))

/-- TKPASS and its poisoning form (R343). -/
def State.tkpassRule (s : State) (d : Reg) (k : Fin 4) (poison : Bool) : Res :=
  let key := s.warp.key
  let t := s.ticket key.launch k
  let answer (s : State) (st : Word) : Res := .done (s.modWarp fun w => w.setS d st)
  if s.hdr.tickets ≤ k.val then answer s tkNoseq
  else if t.poisoned then answer s tkPoison
  else if t.value < key.wglin then answer s tkNoturn
  else if key.wglin < t.value then answer s tkPassed
  else if s.mustCommit then .stay s.commitWait
  else
    let s := s.releaseAt .device
    let s := s.setTicket key.launch k (if poison then { t with poisoned := true } else t.pass key.wglin)
    let s := if poison then s else s.modWg fun g => { g with passed := g.passed ||| (1#4 <<< k.val) }
    answer (s.serveTickets key.launch k s.wakeClock) tkTurn

/-- TKPASS (R343). -/
def execTkpass (d : Reg) (k : Fin 4) (s : State) : Host.Outcome State Fault Refusal :=
  .next (s.issue (.tkpass d k) { sync := true, use := { sw := [d.val] } } fun s => s.tkpassRule d k false)

/-- TKPASS.poison (R343). -/
def execTkpassPoison (d : Reg) (k : Fin 4) (s : State) : Host.Outcome State Fault Refusal :=
  .next (s.issue (.tkpassPoison d k) { sync := true, use := { sw := [d.val] } } fun s => s.tkpassRule d k true)

/-- What a workgroup's retirement does to the launch's sequences (R344). -/
def State.retireTickets (s : State) (g : Workgroup) (clock : Option Nat) : State :=
  let k := g.key.launch
  let w := g.key.wglin
  ((List.finRange 4).filter fun i => decide (i.val < (s.hdrOf k).tickets) && !g.passed.getLsbD i.val).foldl (fun s i =>
    let t := s.ticket k i
    let t' :=
      if g.faulted ∧ t.value ≤ w then Ticket.poisonDue { t with poisonAt := w :: t.poisonAt }
      else if t.value = w then t.pass w
      else if t.value < w then { t with deferred := w :: t.deferred }
      else t
    (s.setTicket k i t').serveTickets k i clock) s

/-! FENCE. -/

def lkLost : Word := 4

/-- A path mask names one of the paths that reach memory at the home slice: CP, MX, CL, HO, PG (R63, R244). -/
def homePaths (m : BitVec 6) : Bool := m &&& 0x3E#6 != 0
/-- What a FENCE orders (R252, R253): the warp's accesses are released at the scope; what the commands of the workgroup have
written is performed, and no copy of the cluster cache hides it; what the cluster cache has been given is carried to where the
paths after it look; and an acquire at the scope follows. -/
def State.fenceRule (s : State) (p q : BitVec 6) (sc : Scope) : State :=
  let s := if p.getLsbD 0 then s.releaseAt sc else s
  let s := if homePaths p then
      (s.performEngines s.warp.key.wg).dropWhere s.cluster fun _ => true
    else s
  let s := if homePaths q then s.writeBackWhere s.cluster fun _ => true else s
  if q.getLsbD 0 then s.acquireAt sc else s

/-- FENCE (R251, R252, R273): its before set is performed at Scope(), its after set follows. -/
def execFence (p q : BitVec 6) (s : State) : Host.Outcome State Fault Refusal :=
  .next (s.issue (.fence p q) { cls := .b } fun s =>
    match s.warp.revoked, s.warp.trapmask with
    | some n, false => .trap (s.modWarp fun w => { w with revoked := none }) .locklost n
    | _, _ =>
      if p.getLsbD 0 && s.mustCommit then .stay s.commitWait
      else
        let s := if s.warp.revoked.isSome then s.modWarp fun w => { w with revoked := none, lklast := lkLost } else s
        .done (s.fenceRule p q s.warp.scope))

end Sys2Proof.Machine
end

