-- ==== Sys2Proof/Machine/Locks.lean ====
section
/-! DEFINITION. The lock manager and the lock instructions (R261 to R286). -/

namespace Sys2Proof.Machine

/-! Names and modes. -/

def lkName (d t l : Nat) : DWord := BitVec.ofNat 64 (d * 2 ^ 52 + t * 2 ^ 16 + l)

/-- The parent of an object (R261). -/
def lkParent (n : DWord) : Option DWord :=
  if lkLine n ≠ allLines then some (lkName (lkDomain n) (lkTile n) allLines)
  else if lkTile n ≠ allTiles then some (lkName (lkDomain n) allTiles allLines)
  else none
/-- 0 for a tensor, 1 for a tile, 2 for a line. -/
def lkDepth (n : DWord) : Nat := if lkLine n ≠ allLines then 2 else if lkTile n ≠ allTiles then 1 else 0

/-- A malformed name (R261). -/
def Context.lkMalformed (c : Context) (count : Nat) (n : DWord) : Bool :=
  decide (count ≤ lkDomain n) ||
  match c.domain (lkDomain n) with
  | none => true
  | some d =>
    if lkTile n = allTiles then lkLine n != allLines
    else decide (d.size / 2 ^ d.tile ≤ lkTile n) || (lkLine n != allLines && decide (2 ^ (d.tile - 7) ≤ lkLine n))

end Sys2Proof.Machine

namespace Sys2Proof

/-- X, SIX and I (R265). -/
def LkMode.writes : LkMode → Bool
  | .x | .six | .i => true
  | _ => false
/-- R267: the parent's mode allows this mode on its child. -/
def LkMode.allows (parent child : LkMode) : Bool :=
  match child with
  | .nl => true
  | .is | .s => parent == .is || parent == .ix || parent == .s || parent == .six || parent == .x
  | .ix | .six | .i | .x => parent == .ix || parent == .six
/-- R278's table. -/
def LkMode.mayUp (held new : LkMode) : Bool :=
  match held with
  | .is => new == .ix || new == .s || new == .six || new == .i || new == .x
  | .ix | .s => new == .six || new == .x
  | .six | .i => new == .x
  | _ => false
def LkMode.mayDown (held new : LkMode) : Bool :=
  match held with
  | .ix | .s | .i => new == .is
  | .six => new == .ix || new == .s || new == .is
  | .x => new == .six || new == .ix || new == .s || new == .i || new == .is
  | _ => false

end Sys2Proof

namespace Sys2Proof.Machine

/-- The domain's matrix (R266): compatible with a holding, or with a waiter, in mode `h`. -/
def Context.compatible (c : Context) (n : DWord) (h q : LkMode) : Bool :=
  match c.domain (lkDomain n) with
  | some d => d.matrix.getLsbD (6 * (h.code - 1) + (q.code - 1))
  | none => false

def Context.heldBy (c : Context) (w : WarpKey) (n : DWord) : Option LkMode :=
  (c.holdings.find? fun h => h.name == n && h.warp == w).map (·.mode)
def Context.holdersOf (c : Context) (n : DWord) : List Holding := c.holdings.filter fun h => h.name == n
/-- The parent rule of R267 for a mode the warp asks for. -/
def Context.parentOk (c : Context) (w : WarpKey) (n : DWord) (m : LkMode) : Bool :=
  match lkParent n with
  | none => true
  | some p => match c.heldBy w p with
    | some h => LkMode.allows h m
    | none => false
/-- The holdings a warp has on an object's children. -/
def Context.childrenOf (c : Context) (w : WarpKey) (n : DWord) : List Holding :=
  c.holdings.filter fun h => h.warp == w && lkParent h.name == some n

/-- The holding replaced by a mode, or added (R277, R278); so are two grants of one object to splits of one warp (log entry
84). -/
def Context.hold (c : Context) (w : WarpKey) (n : DWord) (m : LkMode) : Context :=
  if (c.heldBy w n).isSome then
    { c with holdings := c.holdings.map fun h => if h.name == n && h.warp == w then { h with mode := m } else h }
  else { c with holdings := c.holdings ++ [⟨n, w, m⟩] }
def Context.unhold (c : Context) (w : WarpKey) (n : DWord) : Context :=
  { c with holdings := c.holdings.filter fun h => !(h.name == n && h.warp == w) }

/-! Grants. -/

/-- The entries ahead of a request in its queue. -/
def aheadOf (r : LockReq) : List LockReq → List LockReq
  | [] => []
  | x :: xs => if x == r then [] else x :: aheadOf r xs

/-- The request is granted by a scan (R269). -/
def Context.grantable (c : Context) (r : LockReq) : Bool :=
  (c.holdersOf r.name).all (fun h => h.warp == r.warp || c.compatible r.name h.mode r.mode) &&
  (aheadOf r (c.queueOf r.name)).all fun x => !(older x.warp r.warp && !c.compatible r.name x.mode r.mode)


/-- Entries in use at a slice (R264): one for each holding and each queued LKACQ, over all contexts. -/
def State.entriesUsed (s : State) (slice : Nat) : Nat :=
  s.contexts.foldl (fun n c =>
    n + (c.holdings.filter fun h => lockSlice s.member h.name == slice).length +
      (c.waiting.filter fun r => !r.up && r.entry && lockSlice s.member r.name == slice).length) 0
def State.entryFree (s : State) (n : DWord) : Bool :=
  decide (s.entriesUsed (lockSlice s.member n) < Config.lockEntries)

/-- A status in s[d] and LKLAST (R275). -/
def Warp.lkStatus (w : Warp) (d : Reg) (st : Word) : Warp := { (w.setS d st) with lklast := st }

/-- The split of the warp that waits for the request. -/
def Warp.waitingSplit (w : Warp) (r : LockReq) : Option (Fin 4) := (List.finRange 4).find? fun k => match w.splits[k] with
  | some p => (match p.wait with
    | .lock _ n m up => n == r.name && m == r.mode && up == r.up
    | _ => false)
  | none => false
def Warp.waitsFor (w : Warp) (r : LockReq) : Bool := (w.waitingSplit r).isSome
/-- A queue entry of the warp for which no split of it waits yet: the wait of a planted instruction takes it up (R284). An entry
for the object named comes first. -/
def State.leftEntry (s : State) (w : Warp) (n : DWord) (m : LkMode) (up : Bool) : Option LockReq :=
  let l := (((s.context w.key.ctx).map (·.waiting)).getD []).filter fun r =>
    r.warp == w.key && r.mode == m && r.up == up && !w.waitsFor r
  (l.find? (·.name == n)).or l.head?

/-- The first grantable entry of any queue, in queue order. -/
def State.nextGrant (s : State) (c : Context) : Option LockReq :=
  (c.awaited.flatMap c.queueOf).find? fun r => c.grantable r && (s.warpAt r.warp).any fun w => w.waitsFor r

/-- The lock waits of a warp that satisfy `p` end with a status. One whose instruction could not be read yet goes on to it. -/
def Warp.endLockWaits (w : Warp) (p : DWord → LkMode → Bool → Bool) (clock : Option Nat) (st : Word) : Warp :=
  (List.finRange 4).foldl (fun w k => match w.splits[k] with
    | some x => match x.wait with
      | .lock d n m up => if !p n m up then w else match d with
        | some d => w.completeWait k clock fun w => w.lkStatus d st
        | none => { w with
            splits := w.splits.set k (some { x with wait := .ready })
            clock := match clock with
              | some c => if w.clock.toNat < c then BitVec.ofNat 64 c else w.clock
              | none => w.clock }
      | _ => w
    | none => w) w
/-- The lock waits that satisfy `p` whose instruction could not be read yet. -/
def Warp.unreadWaits (w : Warp) (p : DWord → LkMode → Bool → Bool) : List LockReq :=
  (List.finRange 4).filterMap fun k => match w.splits[k] with
    | some x => match x.wait with
      | .lock none n m up => if p n m up then some ⟨n, w.key, m, up, true⟩ else none
      | _ => none
    | none => none
/-- The lock waits of a warp that satisfy `p` end with a status; an instruction that could not be read yet takes its own as it
issues (R284). -/
def State.endLocks (s : State) (k : WarpKey) (p : DWord → LkMode → Bool → Bool) (clock : Option Nat) (st : Word) : State :=
  let s := match (s.warpAt k).map fun w => w.unreadWaits p with
    | none | some [] => s
    | some l => s.modContext k.ctx fun c => { c with answered := c.answered ++ l.map fun r => (r, st) }
  s.modWarpAt k fun w => w.endLockWaits p clock st

def lkGranted : Word := 0
def lkBusy : Word := 1
def lkFull : Word := 2
def lkWounded : Word := 3
def lkInuse : Word := 5

/-- The copies of the acquirer's cluster cache are dropped (R256, R277; log entry 23). -/
def State.lockAcquire (s : State) (w : WarpKey) : State :=
  match s.warpAt w with
  | some x => s.dropWhere (x.core / 8) fun _ => true
  | none => s
/-- The written bytes of every cluster cache are written back (R256, R279; log entry 23). -/
def State.lockRelease (s : State) : State := s.writeBackAll fun _ => true

/-- Grant a request. -/
def State.grant (s : State) (ctx : Nat) (clock : Option Nat) (r : LockReq) : State :=
  let s := s.lockAcquire r.warp
  let s := s.modContext ctx fun c => { (c.hold r.warp r.name r.mode) with waiting := c.waiting.filter (· != r) }
  s.endLocks r.warp (fun n m up => n == r.name && m == r.mode && up == r.up) clock lkGranted
/-- A request that may be granted breaks the hierarchy rule, which is checked as it is granted too: it leaves the queue, and its
instruction raises LOCKPROTO (R267). -/
def State.refuseGrant (s : State) (ctx : Nat) (r : LockReq) : State :=
  let s := s.modContext ctx fun c => { c with waiting := c.waiting.filter (· != r) }
  match (s.warpAt r.warp).bind fun w => w.waitingSplit r with
  | some i => s.inSplit r.warp i fun s => s.trapWaiting .lockproto r.name
  | none => s

/-! Wounds (R270, R271, R285). -/

/-- A waiting entry and a younger incompatible holder not yet wounded. -/
def State.nextWound (s : State) (c : Context) : Option (LockReq × WarpKey) :=
  (c.awaited.flatMap c.queueOf).findSome? fun r =>
    (c.holdersOf r.name).findSome? fun h =>
      if h.warp != r.warp && !c.compatible r.name h.mode r.mode && older r.warp h.warp &&
          ((s.warpAt h.warp).map fun w => w.wound.isNone).getD false then some (r, h.warp)
      else none

/-- The wound reaches a warp that waits in a lock instruction: the wait ends WOUNDED. -/
def State.woundWait (s : State) (w : WarpKey) (clock : Option Nat) : State :=
  let s := s.modContext w.ctx fun c => { c with waiting := c.waiting.filter fun r => r.warp != w }
  (s.endLocks w (fun _ _ _ => true) clock lkWounded).modWarpAt w fun x =>
    { x with wound := x.wound.map fun v => { v with pending := false, reached := true } }

/-- A multiple of Q at or beyond. -/
def roundUpTo (q n : Nat) : Nat := (n + q - 1) / q * q

/-- Wound a holder (R271); in deterministic mode the wound has a delivery point (R285). -/
def State.woundWarp (s : State) (r : LockReq) (w : WarpKey) : State :=
  let h := s.hdrOf w.launch
  if h.det then
    let own := ((s.warpAt r.warp).map fun x => x.clock.toNat).getD 0
    let d := roundUpTo (2 ^ h.q) (own + 2 * 2 ^ h.q)
    s.modWarpAt w fun x => { x with wound := some ⟨r.name, d + h.grace, some d, false, true⟩ }
  else
    let waits := ((s.warpAt w).map Warp.inLockWait).getD false
    let s := s.modWarpAt w fun x => { x with wound := some ⟨r.name, s.now + h.grace, none, true, true⟩ }
    if waits then s.woundWait w none else s

/-- The first request of the context that waits for an entry and finds one at its home (log entry 85). -/
def State.nextEntry (s : State) (c : Context) : Option LockReq :=
  c.waiting.find? fun r => !r.up && !r.entry && s.entryFree r.name

/-- What the manager does of itself at a step, to the end (R269, R270): grants, then wounds, then entries taken. -/
def State.lockSettle (ctx : Nat) (clock : Option Nat) : Nat → State → State
  | 0, s => s
  | fuel + 1, s =>
    match s.context ctx with
    | none => s
    | some c =>
      if c.dead then s else
      match s.nextGrant c with
      | some r => State.lockSettle ctx clock fuel (if c.parentOk r.warp r.name r.mode then s.grant ctx clock r else s.refuseGrant ctx r)
      | none =>
        match s.nextWound c with
        | some (r, w) => State.lockSettle ctx clock fuel (s.woundWarp r w)
        | none =>
          match s.nextEntry c with
          | some r => State.lockSettle ctx clock fuel (s.modContext ctx fun c =>
              { c with waiting := c.waiting.filter (· != r) ++ [{ r with entry := true }] })
          | none => s

/-- Enough rounds for every grant, wound and entry. -/
def State.settleLocks (s : State) (ctx : Nat) (clock : Option Nat) : State :=
  match s.context ctx with
  | none => s
  | some c => State.lockSettle ctx clock (3 * c.waiting.length + c.holdings.length + s.warps.length + 1) s

/-- The wound is cleared when the warp's holdings become empty (R272). -/
def State.clearWound (s : State) (w : WarpKey) : State :=
  match s.context w.ctx with
  | none => s
  | some c => if c.holdings.any fun h => h.warp == w then s else s.modWarpAt w fun x => { x with wound := none }

/-- A holding goes (R279). -/
def State.dropHolding (s : State) (w : WarpKey) (n : DWord) (clock : Option Nat) : State :=
  let s := s.lockRelease
  let s := s.modContext w.ctx fun c => c.unhold w n
  (s.clearWound w).settleLocks w.ctx clock

/-- A warp's holdings, children before parents. -/
def State.holdingsOf (s : State) (w : WarpKey) : List Holding :=
  let hs := ((s.context w.ctx).map fun c => c.holdings.filter fun h => h.warp == w).getD []
  sortBy (fun a b => decide (lkDepth b.name ≤ lkDepth a.name)) hs

/-- A warp's exit releases its holdings (R283). -/
def State.exitLocks (s : State) (w : WarpKey) (clock : Option Nat) : State :=
  let s := s.modContext w.ctx fun c => { c with
    waiting := c.waiting.filter fun r => r.warp != w, answered := c.answered.filter fun a => a.1.warp != w }
  ((s.holdingsOf w).foldl (fun s h => s.dropHolding w h.name clock) s).modWarpAt w fun x => { x with wound := none }

/-! Revocation. -/

/-- A lock wait that a revocation ends meets LOCKLOST at once (R273): LOST where traps are masked. An instruction that could not
be read yet meets it as it issues. -/
def State.revokedWait (s : State) (d : Option Reg) (name : DWord) : State :=
  match s.warp.trapmask, d with
  | true, some d => s.modWarp fun x => x.completeWait x.cur none fun x => { (x.lkStatus d lkLost) with revoked := none }
  | true, none => s.setWait .ready
  | false, _ => (s.modWarp fun x => { x with revoked := none }).trapWaiting .locklost name

/-- Revoke every holding of a wounded warp (R272, R273); the scans that follow grant with its clock, as those of its release
would (log entry 100). -/
def State.revoke (s : State) (w : WarpKey) (clock : Option Nat) : State :=
  match (s.warpAt w).bind (·.wound) with
  | none => s
  | some v =>
    let s := s.lockRelease
    let s := s.modContext w.ctx fun c => { c with
      holdings := c.holdings.filter fun h => h.warp != w
      waiting := c.waiting.filter fun r => r.warp != w }
    let s := s.modWarpAt w fun x => { x with wound := none, revoked := some v.name }
    let s := s.settleLocks w.ctx clock
    (List.finRange 4).foldl (fun s k => match (s.warpAt w).bind (·.splits[k]) with
      | some p => match p.wait with
        | .lock d _ _ _ => s.inSplit w k fun s => s.revokedWait d v.name
        | _ => s
      | none => s) s

/-- Every live warp of a context is blocked (R285). -/
def State.allBlocked (s : State) (ctx : Nat) : Bool := s.running ctx == []

/-- The deadline of a wound has passed (R272, R285): in deterministic mode when the minimum clock has passed it. -/
def State.revokeDue (s : State) (w : Warp) : Bool :=
  match w.wound with
  | none => false
  | some v =>
    match v.delivered with
    | none => decide (v.deadline ≤ s.now)
    | some _ => match s.minClock w.key.ctx with
      | none => true
      | some c =>
        let q := 2 ^ (s.hdrOf w.key.launch).q
        decide (v.deadline ≤ c / q * q)

/-- Deterministic mode: a wound reaches a warp that is blocked, or that waits in a lock instruction, when the global minimum
reaches its delivery point, or at once when every warp is blocked (R285). A scan that follows the end of such a wait grants with
the clock of the delivery point (log entry 100). -/
def State.woundReach (s : State) (w : Warp) : State :=
  match w.wound with
  | some v => match v.delivered with
    | some d =>
      let due := match s.minClock w.key.ctx with
        | none => true
        | some c => decide (d ≤ c)
      if v.reached || !due || !(s.warpBlocked w || w.inLockWait) then s
      else if w.inLockWait then (s.woundWait w.key (some d)).settleLocks w.key.ctx (some d)
      else s.modWarpAt w.key fun x => { x with wound := x.wound.map fun v => { v with reached := true } }
    | none => s
  | none => s

/-- What the manager does of itself at a step, in the contexts that run (R284): requests that wait for an entry take one that
any context has freed (R264, R277); wounds are delivered and revocations made where they are due. -/
def State.lockTime (s : State) : State :=
  let s := s.contexts.foldl (fun s c =>
    if s.contextRuns c.num && (s.nextEntry c).isSome then s.settleLocks c.num none else s) s
  (sortOldest ((s.warps.filter fun w => w.wound.isSome && s.contextRuns w.key.ctx).map (·.key))).foldl (fun s k =>
    match s.warpAt k with
    | none => s
    | some x =>
      let s := s.woundReach x
      match s.warpAt k with
      | some x =>
        if s.revokeDue x then s.revoke k (if (s.hdrOf k.launch).det then some x.clock.toNat else none) else s
      | none => s) s

/-! The instructions. -/

/-- How a planted wait of the running warp for the request ended, for the instruction that could not be read before (R284). -/
def State.lockAnswer (s : State) (n : DWord) (m : LkMode) (up : Bool) : Option (LockReq × Word) :=
  s.ctx.answered.find? fun a => a.1.warp == s.warp.key && a.1.name == n && a.1.mode == m && a.1.up == up
/-- The wait of a planted LKACQ or LKUP goes on from where it stood, if it was under way. -/
def State.resumed (s : State) (d : Reg) (n : DWord) (m : LkMode) (up : Bool) (rule : Res) : Res :=
  let ctx := s.warp.key.ctx
  match s.lockAnswer n m up with
  | some a => .done ((s.modContext ctx fun c => { c with answered := c.answered.erase a }).modWarp fun w => w.lkStatus d a.2)
  | none => match s.leftEntry s.warp n m up with
    | some r => .stay ((s.setWait (.lock (some d) r.name m up)).settleLocks ctx none)
    | none => rule

/-- What every lock form but LKSTAT does first (R273, R276). -/
def State.lockForm (s : State) (d : Reg) (rule : State → Res) : Res :=
  match s.warp.revoked with
  | none => rule s
  | some n =>
    let s := s.modWarp fun w => { w with revoked := none }
    if s.warp.trapmask then .done (s.modWarp fun w => w.lkStatus d lkLost)
    else .trap s .locklost n

def lkUse (d a : Reg) : Use := { sr := [a.val, a.val + 1], sw := [d.val] }
def lkFormOf (d a : Reg) : Form := { cls := .b, sync := true, use := lkUse d a }

/-- LKACQ and LKTRY (R277). -/
def State.lockRequest (s : State) (d a : Reg) (m : LkMode) (isTry : Bool) : Res :=
  s.lockForm d fun s =>
    let n := s.warp.s64 a
    let key := s.warp.key
    let afresh : Res :=
      if m = .nl ∨ s.ctx.lkMalformed s.hdr.domCount n ∨ (s.ctx.heldBy key n).isSome ∨ !s.ctx.parentOk key n m then
        .trap s .lockproto n
      else
        let r : LockReq := ⟨n, key, m, false, false⟩
        if isTry then
          let queued : Context := { s.ctx with waiting := s.ctx.waiting ++ [{ r with entry := true }] }
          if !s.entryFree n then .done (s.modWarp fun w => w.lkStatus d lkFull)
          else if queued.grantable { r with entry := true } then
            let s := (s.lockAcquire key).modContext key.ctx fun c => c.hold key n m
            -- a holding has changed: the queue is scanned, and its waiters' conflicts are settled
            .done ((s.settleLocks key.ctx s.wakeClock).modWarp fun w => w.lkStatus d lkGranted)
          else .done (s.modWarp fun w => w.lkStatus d lkBusy)
        else
          let s := (s.setWait (.lock (some d) n m false)).modContext key.ctx fun c => { c with waiting := c.waiting ++ [r] }
          .stay (s.settleLocks key.ctx none)
    if isTry then afresh else s.resumed d n m false afresh

/-- LKACQ (R277). -/
def execLkacq (d a : Reg) (m : LkMode) (s : State) : Host.Outcome State Fault Refusal :=
  .next (s.issue (.lkacq d a m) (lkFormOf d a) fun s => s.lockRequest d a m false)

/-- LKTRY (R277). -/
def execLktry (d a : Reg) (m : LkMode) (s : State) : Host.Outcome State Fault Refusal :=
  .next (s.issue (.lktry d a m) (lkFormOf d a) fun s => s.lockRequest d a m true)

/-- LKUP (R278). -/
def execLkup (d a : Reg) (m : LkMode) (s : State) : Host.Outcome State Fault Refusal :=
  .next (s.issue (.lkup d a m) (lkFormOf d a) fun s => s.lockForm d fun s =>
    let n := s.warp.s64 a
    let key := s.warp.key
    s.resumed d n m true <|
    if s.ctx.lkMalformed s.hdr.domCount n ∨ !((s.ctx.heldBy key n).any fun h => LkMode.mayUp h m) ∨
        !s.ctx.parentOk key n m then .trap s .lockproto n
    else
      let s := (s.setWait (.lock (some d) n m true)).modContext key.ctx fun c =>
        { c with waiting := c.waiting ++ [⟨n, key, m, true, true⟩] }
      .stay (s.settleLocks key.ctx none))

/-- LKDOWN (R278): out of a write-capable mode into one that is not, it is a release (R256, R259). -/
def execLkdown (d a : Reg) (m : LkMode) (s : State) : Host.Outcome State Fault Refusal :=
  .next (s.issue (.lkdown d a m) (lkFormOf d a) fun s => s.lockForm d fun s =>
    let n := s.warp.s64 a
    let key := s.warp.key
    let held := (s.ctx.heldBy key n).getD .nl
    if s.ctx.lkMalformed s.hdr.domCount n ∨ !LkMode.mayDown held m ∨
        (s.ctx.childrenOf key n).any (fun h => !LkMode.allows m h.mode) then .trap s .lockproto n
    else
      let releases := LkMode.writes held && !LkMode.writes m
      if releases && s.mustCommit then .stay s.commitWait
      else
        let s := if releases then s.flushOwn.lockRelease else s
        let s := s.modContext key.ctx fun c => c.hold key n m
        .done ((s.settleLocks key.ctx s.wakeClock).modWarp fun w => w.lkStatus d lkGranted))

/-- LKREL (R279). -/
def execLkrel (d a : Reg) (s : State) : Host.Outcome State Fault Refusal :=
  .next (s.issue (.lkrel d a) (lkFormOf d a) fun s => s.lockForm d fun s =>
    let n := s.warp.s64 a
    let key := s.warp.key
    if s.ctx.lkMalformed s.hdr.domCount n ∨ (s.ctx.heldBy key n).isNone ∨ s.ctx.childrenOf key n ≠ [] then
      .trap s .lockproto n
    else if s.mustCommit then .stay s.commitWait
    else .done ((s.flushOwn.dropHolding key n s.wakeClock).modWarp fun w => w.lkStatus d lkGranted))

def sat255 (n : Nat) : Nat := min n 255

/-- LKSTAT (R280). -/
def execLkstat (d a : Reg) (s : State) : Host.Outcome State Fault Refusal :=
  .next (s.issue (.lkstat d a) (lkFormOf d a) fun s =>
    let n := s.warp.s64 a
    let key := s.warp.key
    if s.ctx.lkMalformed s.hdr.domCount n then .trap s .lockproto n
    else
      let hs := s.ctx.holdersOf n
      let modes := hs.foldl (fun x h => if h.warp == key then x else x ||| 2 ^ (23 + h.mode.code)) 0
      let v := modes + sat255 (s.ctx.waitersOf n).length * 2 ^ 16 + sat255 hs.length * 2 ^ 8 +
        (if s.warp.revoked.isSome then 16 else 0) + (if s.warp.wound.isSome then 8 else 0) +
        ((s.ctx.heldBy key n).getD .nl).code
      .done (s.modWarp fun w => { (w.setS d (BitVec.ofNat 32 v)) with lklast := lkGranted }))

/-- A symmetric matrix (R266). -/
def matrixOk (m : Nat) : Bool :=
  (List.range 6).all fun i => (List.range 6).all fun j => bitsOf m (6 * i + j) 1 == bitsOf m (6 * j + i) 1

/-- LKTAB (R281). -/
def execLktab (d a : Reg) (s : State) : Host.Outcome State Fault Refusal :=
  .next (s.issue (.lktab d a) (lkFormOf d a) fun s => s.lockForm d fun s =>
    let v := s.warp.s64 a
    let k := lkDomain v
    let m := bitsOf v.toNat 0 36
    if s.hdr.domCount ≤ k ∨ bitsOf v.toNat 36 16 ≠ 0 ∨ !matrixOk m then .trap s .lockproto v
    else if (s.ctx.holdings.any fun h => lkDomain h.name == k) ∨ (s.ctx.waiting.any fun r => lkDomain r.name == k) then
      .done (s.modWarp fun w => w.lkStatus d lkInuse)
    else
      .done ((s.modContext s.warp.key.ctx fun c => { c with
        domains := c.domains.map fun x => if x.1 == k then (k, { x.2 with matrix := BitVec.ofNat 36 m }) else x }).modWarp
          fun w => w.lkStatus d lkGranted))

/-- REVOCATION (R272): the manager acts on a wound whose deadline has passed. -/
def execRevocation (w : WarpKey) (s : State) : Host.Outcome State Fault Refusal :=
  .next (match s.warpAt w with
    | some x =>
      if s.contextRuns w.ctx && s.revokeDue x then s.revoke w (if (s.hdrOf w.launch).det then some x.clock.toNat else none)
      else s
    | none => s)

end Sys2Proof.Machine
end

