-- ==== Sys2Proof/Machine/Handles.lean ====
section
/-! DEFINITION. Buffer handles (R205 to R218) and the checks of a buffer access (R201, R202, R213, R214). -/

namespace Sys2Proof.Machine

/-- A little-endian field of a record. -/
def bytesAt (l : List Byte) (off len : Nat) : Nat := ofLeBytes ((l.drop off).take len)
def zeroAt (l : List Byte) (off len : Nat) : Bool := ((l.drop off).take len).all (· == 0)

/-! Handle values (R206). -/

def handleValue (gen rank slot : Nat) : Word := BitVec.ofNat 32 (2 ^ 31 + gen * 2 ^ 16 + rank * 16 + slot)

/-- A handle that is live in the caller's launch cluster: its home and slot. -/
def State.liveHandle (s : State) (k : WgKey) (h : Word) : Option (WgKey × Fin 16) :=
  let n := h.toNat
  let rank := bitsOf n 4 3
  let slot : Fin 16 := Fin.ofNat 16 n
  if bitsOf n 31 1 = 1 ∧ bitsOf n 7 9 = 0 ∧ rank < (s.hdrOf k.launch).clsize then
    let home := s.clusterMate k rank
    match s.group? home with
    | some g =>
      let x := g.handles[slot]
      if x.state ≠ .free ∧ x.gen = bitsOf n 16 15 then some (home, slot) else none
    | none => none
  else none

def State.slotOf (s : State) (home : WgKey) (i : Fin 16) : HandleSlot :=
  ((s.group? home).getD (Workgroup.blank home)).handles[i]
def State.setSlot (s : State) (home : WgKey) (i : Fin 16) (f : HandleSlot → HandleSlot) : State :=
  s.modGroup home fun g => { g with handles := g.handles.set i (f g.handles[i]) }
/-- The handle a workgroup holds under a value. -/
def State.heldHandle (s : State) (k : WgKey) (h : Word) : Option (WgKey × Fin 16) :=
  match s.liveHandle k h with
  | some (home, i) => if (s.slotOf home i).state = .held ((s.hdrOf k.launch).rank k.wglin) then some (home, i) else none
  | none => none

/-- A rank has retired (R209, R217). -/
def State.rankRetired (s : State) (k : WgKey) (r : Nat) : Bool :=
  match s.group? (s.clusterMate k r) with
  | some g => g.state == .zombie
  | none => true

/-! Buffers. -/

/-- TRAPADDR of a buffer cause (R202). -/
def bufAddr (b : Buf) (viaHandle : Bool) (o : Nat) : DWord :=
  BitVec.ofNat 64 (o % 2 ^ 32 + (Buf.index b).val * 2 ^ 34 + if viaHandle then 2 ^ 36 else 0)

/-- The bytes meet a region of the workgroup whose handle another member holds, or that is in transit (R214). -/
def State.lentOut (s : State) (k : WgKey) (b : Buf) (o w : Nat) : Bool :=
  let g := (s.group? k).getD (Workgroup.blank k)
  let rank := (s.hdrOf k.launch).rank k.wglin
  g.handles.toList.any fun h =>
    h.state != .free && h.state != .held rank && h.buf == b && decide (o < h.base + h.size) && decide (h.base < o + w)

def State.bufSize (s : State) (k : WgKey) (b : Buf) : Nat :=
  (((s.group? k).getD (Workgroup.blank k)).bufs[Buf.index b]).size
/-! HMAKE. -/

def hOk : Word := 0
def hExited : Word := 1
def hFull : Word := 2
def hOverlap : Word := 3
def hNorank : Word := 4

/-- HMAKE (R208). -/
def execHmake (d a : Reg) (buf : Buf) (s : State) : Host.Outcome State Fault Refusal :=
  .next (s.issue (.hmake d a buf) { cls := .b, use := { sr := [a.val, a.val + 1], sw := [d.val] } } fun s =>
    let base := (s.warp.s a).toNat
    let size := (s.warp.s (a + 1)).toNat
    let k := s.warp.key.wg
    if base % 128 ≠ 0 ∨ size % 128 ≠ 0 ∨ size = 0 ∨ s.bufSize k buf < base + size then
      .trap s .bufspace (bufAddr buf false base)
    else
      let answer (s : State) (v : Word) : Res := .done (s.modWarp fun w => w.setS d v)
      let hs := s.wg.handles
      if hs.toList.any fun h => h.state != .free && h.buf == buf && decide (base < h.base + h.size) &&
          decide (h.base < base + size) then answer s hOverlap
      else
        match (List.finRange 16).find? fun i => hs[i].state == .free with
        | none => answer s hFull
        | some i =>
          let gen := (hs[i].gen + 1) % 2 ^ 15
          answer (s.setSlot k i fun _ => ⟨.held s.rank, gen, buf, base, size⟩) (handleValue gen s.rank i.val))

/-! HTAKE. -/

def anySource : Word := 0xFFFFFFFF

/-- The handles in transit to a member from a giver that the filter names: giver, home rank, slot. -/
def State.inTransit (s : State) (k : WgKey) (filter : Word) : List (Nat × Nat × Fin 16) :=
  let h := s.hdrOf k.launch
  let me := h.rank k.wglin
  (List.range h.clsize).flatMap fun r =>
    (List.finRange 16).filterMap fun i => match (s.slotOf (s.clusterMate k r) i).state with
      | .transit dst g => if dst = me ∧ (filter = anySource ∨ filter.toNat = g) then some (g, r, i) else none
      | _ => none

/-- What HTAKE does at once: its result and the state after; `none` while it must wait (R210). -/
def State.tryTake (s : State) (k : WgKey) (filter : Word) : Option (Word × State) :=
  let h := s.hdrOf k.launch
  let me := h.rank k.wglin
  if filter ≠ anySource ∧ (h.clsize ≤ filter.toNat ∨ filter.toNat = me) then some (hNorank, s)
  else
    let l := sortBy (fun (a b : Nat × Nat × Fin 16) => decide (a.1 < b.1) || (a.1 == b.1 && (decide (a.2.1 < b.2.1) ||
      (a.2.1 == b.2.1 && decide (a.2.2.val ≤ b.2.2.val))))) (s.inTransit k filter)
    match l with
    | (_, r, i) :: _ =>
      let home := s.clusterMate k r
      some (handleValue (s.slotOf home i).gen r i.val, s.setSlot home i fun x => { x with state := .held me })
    | [] =>
      let others := (List.range h.clsize).filter fun r => r != me && (filter == anySource || r == filter.toNat)
      if others.all fun r => s.rankRetired k r then some (hExited, s) else none

/-- The order in which waiting HTAKEs are tried: oldest first, in deterministic mode in (clock, age) order (R216, R352). -/
def State.takers (s : State) (k : WgKey) : List WarpKey :=
  let keys := (s.hdrOf k.launch).clusterKeys k
  let ws := s.warps.filter fun w => keys.contains w.key.wg
  if (s.hdrOf k.launch).det then
    (sortBy (fun a b => !clockBefore b.clock.toNat a.clock.toNat b a) ws).map (·.key)
  else sortOldest (ws.map (·.key))
/-- The waiting HTAKEs of a launch cluster are tried again; one that is served takes the giver's clock (R210, R353). -/
def State.serveTakes (s : State) (k : WgKey) (clock : Option Nat) : State :=
  (s.takers k).foldl (fun s key =>
    (List.finRange 4).foldl (fun s j =>
      match (s.warpAt key).bind (·.splits[j]) with
      | some p => match p.wait with
        | .htake d filter => match s.tryTake key.wg filter with
          | some (v, s) => s.modWarpAt key fun w => w.completeWait j clock fun w => w.setS d v
          | none => s
        | _ => s
      | none => s) s) s

/-- HTAKE (R210). -/
def execHtake (d a : Reg) (s : State) : Host.Outcome State Fault Refusal :=
  .next (s.issue (.htake d a) { cls := .b, sync := true, use := { sr := [a.val], sw := [d.val] } } fun s =>
    let filter := s.warp.s a
    match s.tryTake s.warp.key.wg filter with
    | some (v, s) => .done (s.modWarp fun w => w.setS d v)
    | none => .stay (s.setWait (.htake d filter)))

/-! HGIVE and HDROP. -/

/-- A started command may reach a handle's bytes (R209; log entry 104): a copy through the handle, or by the home (`mine`) a copy
or MMA that names its buffer. -/
def Command.reaches (c : Command) (mine : Bool) (h : Word) (b : Buf) : Bool :=
  let names (space field : Nat) : Bool :=
    (bytesAt c.desc space 1 == 5 && bytesAt c.desc field 4 == h.toNat) || (mine && bytesAt c.desc space 1 == (Buf.index b).val + 1)
  c.running && match c.kind with
    | .copy => names 0x20 0x28 || names 0x21 0x30
    | .mma => mine && b != .sb
    | .coll => false
/-- Commands of the caller that still reach the handle's bytes (R209). -/
def State.handleBusy (s : State) (k : WgKey) (h : Word) (home : WgKey) (i : Fin 16) : Bool :=
  ((s.group? k).getD (Workgroup.blank k)).streams.toList.any fun st =>
    st.commands.any fun c => c.reaches (home == k) h (s.slotOf home i).buf
/-- The buffered reductions of the home's other warps on the region (R209): those of its own a warp commits first. -/
def State.regionReds (s : State) (k home : WgKey) (i : Fin 16) : List (Warp × Reduction) :=
  let x := s.slotOf home i
  if home ≠ k ∨ x.buf ≠ .sb then []
  else (s.warpsOf k).flatMap fun w => if w.key = s.warp.key then [] else
    (w.reds.filter fun r => r.sb && rangesMeet r.place (4 * r.ty.regs) x.base x.size).map fun r => (w, r)

/-- The last quantum, of the running warp's context, among reductions that it waits for. -/
def State.lastQuantum (s : State) (l : List (Warp × Reduction)) : Option Nat :=
  (l.filter fun x => x.1.key.ctx == s.warp.key.ctx).foldl (fun m x =>
    some (max (m.getD 0) (max s.ctx.quanta (x.2.clock / s.quantum)))) none
/-- A wait for buffered reductions of other warps to be committed: of the context's own it waits as R436 states, of others as it
stands (R437). -/
def State.othersWait (s : State) (l : List (Warp × Reduction)) : State :=
  match s.lastQuantum l with
  | some q => s.commitWaitFor (some q)
  | none => s.setWait .hgive

/-- Every access that the workgroup's warps have issued is performed; in deterministic mode their reductions stay for their
commit. -/
def State.flushGroup (s : State) (k : WgKey) : State :=
  let s := s.performWrites fun x => x.group == k
  (s.warpsOf k).foldl (fun s w => s.inSplit w.key w.cur fun s =>
    let s := s.performLong fun _ => true
    if s.det then s else s.flushReds) s

/-- The wait of R209, then the rule. -/
def State.afterAccesses (s : State) (h : Word) (home : WgKey) (i : Fin 16) (rule : State → Res) : Res :=
  let k := s.warp.key.wg
  if s.mustCommit then .stay s.commitWait
  else if s.det ∧ s.regionReds k home i ≠ [] then .stay (s.othersWait (s.regionReds k home i))
  else if s.handleBusy k h home i then .stay (s.setWait .hgive)
  else rule (s.flushGroup k)

def handleTrap (h : Word) : DWord := BitVec.setWidth 64 h

/-- HGIVE (R209). -/
def execHgive (d a b : Reg) (s : State) : Host.Outcome State Fault Refusal :=
  .next (s.issue (.hgive d a b) { cls := .b, sync := true, use := { sr := [a.val, b.val], sw := [d.val] } } fun s =>
    let h := s.warp.s a
    let r := (s.warp.s b).toNat
    let k := s.warp.key.wg
    let answer (s : State) (v : Word) : Res := .done (s.modWarp fun w => w.setS d v)
    match s.heldHandle k h with
    | none => .trap s .handle (handleTrap h)
    | some (home, i) =>
      if s.hdr.clsize ≤ r ∨ r = s.rank then answer s hNorank
      else if s.rankRetired k r then answer s hExited
      else s.afterAccesses h home i fun s =>
        let s := s.setSlot home i fun x => { x with state := .transit r s.rank }
        answer (s.serveTakes k s.wakeClock) hOk)

/-- A zombie home with no slot made ends (R217). -/
def State.zombieEnd (s : State) (home : WgKey) : State :=
  match s.group? home with
  | some g =>
    if g.state = .zombie ∧ g.handles.toList.all (fun h => h.state == .free) then
      { s with groups := s.groups.filter fun x => x.key != home }
    else s
  | none => s

/-- A handle goes back to its home; one whose home is a zombie frees its slot (R211, R217). -/
def State.returnHandle (s : State) (home : WgKey) (i : Fin 16) : State :=
  match s.group? home with
  | none => s
  | some g =>
    if g.state = .zombie then (s.setSlot home i fun x => { x with state := .free }).zombieEnd home
    else s.setSlot home i fun x => { x with state := .held ((s.hdrOf home.launch).rank home.wglin) }

/-- HDROP (R211). -/
def execHdrop (d a : Reg) (s : State) : Host.Outcome State Fault Refusal :=
  .next (s.issue (.hdrop d a) { cls := .b, sync := true, use := { sr := [a.val], sw := [d.val] } } fun s =>
    let h := s.warp.s a
    let k := s.warp.key.wg
    match s.heldHandle k h with
    | none => .trap s .handle (handleTrap h)
    | some (home, i) => s.afterAccesses h home i fun s =>
      let s := if home = k then s.setSlot home i fun x => { x with state := .free } else s.returnHandle home i
      .done (s.modWarp fun w => w.setS d hOk))

/-- HQUERY (R212). -/
def execHquery (d a : Reg) (s : State) : Host.Outcome State Fault Refusal :=
  .next (s.issue (.hquery d a) { cls := .b, use := { sr := [a.val], sw := [d.val, d.val + 1, d.val + 2] } } fun s =>
    let k := s.warp.key.wg
    let put (v base size : Nat) : Res := .done (s.modWarp fun w =>
      ((w.setS d (BitVec.ofNat 32 v)).setS (d + 1) (BitVec.ofNat 32 base)).setS (d + 2) (BitVec.ofNat 32 size))
    match s.liveHandle k (s.warp.s a) with
    | none => put 0 0 0
    | some (home, i) =>
      let x := s.slotOf home i
      let zombie := ((s.group? home).map fun g => g.state == .zombie).getD false
      let (transit, who) := match x.state with
        | .transit r _ => (true, r)
        | .held r => (false, r)
        | .free => (false, 0)
      put (2 ^ 31 + (if !transit && who == s.rank then 4096 else 0) + (if zombie then 2048 else 0) +
        (s.hdr.rank home.wglin) * 256 + (Buf.index x.buf).val * 16 + (if transit then 8 else 0) + who) x.base x.size)

/-- What a member's retirement does to handles (R217): those it holds, or that are in transit to it, go home; those of its own
that it holds become free. Whether the member becomes a zombie home. -/
def State.retireHandles (s : State) (k : WgKey) : State × Bool :=
  let h := s.hdrOf k.launch
  let me := h.rank k.wglin
  let s := ((List.range h.clsize).flatMap fun r => (List.finRange 16).map fun i => (r, i)).foldl (fun s (r, i) =>
    let home := s.clusterMate k r
    let mine := match (s.slotOf home i).state with
      | .held x => x == me
      | .transit x _ => x == me
      | .free => false
    if !mine then s
    else if r = me then s.setSlot home i fun x => { x with state := .free }
    else s.returnHandle home i) s
  (s, (((s.group? k).getD (Workgroup.blank k)).handles).toList.any fun x => x.state != .free)

end Sys2Proof.Machine
end

