-- ==== Sys2Proof/Machine/Pages.lean ====
section
/-! DEFINITION. The end of a service: a parked access is performed afresh (R191, R195, R196). -/

namespace Sys2Proof.Machine

/-! The end of a service. -/

def State.parkOf (s : State) (id : Nat) : Option Park := s.parks.find? fun p => p.id == id
def State.dropPark (s : State) (id : Nat) : State := { s with parks := s.parks.filter fun p => p.id != id }

def Wait.isPark (id : Nat) : Wait → Bool
  | .parked x _ => x == id
  | _ => false

/-- From now on a context's code is fetched fresh, by a core or by all, at a page of addresses or at all (R78). -/
def State.freshCode (s : State) (ctx : Nat) (core page : Option Nat) : State :=
  { s with
    icache := s.icache.filter fun c => !(c.ctx == ctx && core.all (· == c.core) && page.all (· == c.addr / 4096))
    codeSince := ⟨ctx, core, page, s.now⟩ :: s.codeSince.filter fun x => !(x.ctx == ctx && (core.isNone || x.core == core) &&
      (page.isNone || x.page == page)) }
/-- Code of a page that was not there to be fetched is fetched as it is once the fault has been answered. -/
def State.freshPark (s : State) (p : Park) : State :=
  if p.kind = .fetch then s.freshCode p.ctx none (some (p.va.toNat / 4096)) else s

/-- The access of a park is performed afresh (R191). -/
def State.replay (s : State) (p : Park) : State :=
  let s := (s.dropPark p.id).freshPark p
  match p.who with
  | .warp w sp => s.modWarpAt w fun x =>
    match x.splits[sp] with
    | some y => if y.wait.isPark p.id then { x with splits := x.splits.set sp (some { y with wait := .ready }) } else x
    | none => x
  | .command g st => s.modGroup g fun x => { x with
      streams := x.streams.set st { x.streams[st] with
        commands := (x.streams[st]).commands.map fun c => if c.parked = some p.id then { c with parked := none } else c } }
  | .queue q =>
    ({ s with queues := s.queues.map fun x => if x.num == q then { x with parked := none } else x } : State).writeQueueRecord q
  | .reduction _ => s

/-- A copy-on-write whose pool is empty is offered for service as PAGEPOOL (R196). -/
def State.offerPool (s : State) (p : Park) : State :=
  let (req, age2) := s.requesterFields p.who
  { s with
    parks := s.parks.map fun x => if x.id == p.id then { x with cause := some .pagepool } else x
    events := s.events ++ [.faultRecord p.id (faultRecord p.va p.ctx .pagepool p.kind 3 false req age2)] }

/-- COW_SERVICE (R195): the page engine serves a parked write and replays it. -/
def execCowService (id : Nat) (s : State) : Host.Outcome State Fault Refusal :=
  .next (match s.parkOf id with
    | some p =>
      if p.cause = none then
        match s.cowServe p.ctx p.va with
        | (true, s) => s.replay p
        | (false, s) => s.offerPool p
      else s
    | none => s)

/-- POOL_REPLAY (R196): once the host has supplied frames, the page engine replays the access. -/
def execPoolReplay (id : Nat) (s : State) : Host.Outcome State Fault Refusal :=
  .next (match s.parkOf id with
    | some p => if p.cause = some .pagepool ∧ s.poolCount p.ctx ≠ 0 then s.replay p else s
    | none => s)

end Sys2Proof.Machine
end

