-- ==== Sys2Proof/Machine/Retire.lean ====
section
/-! DEFINITION. What the exit of a warp, the retirement of a workgroup and the completion of a launch do (R29, R105, R174,
R217, R255, R283, R292, R344, R369). -/

namespace Sys2Proof.Machine

/-! Completion of a launch. -/

/-- A front-end access that did not proceed: PAGE, ATTR and PAGEPOOL are offered for service, any other is a QFAULT (R374). -/
def State.queueFault (s : State) (q : Nat) (ctx : Nat) (x : XFault) (kind : AccessKind) (va : Nat) : State :=
  if x.offered then s.parkQueue q ctx x kind va else s.haltQueue q 0x0C va

def State.queueParked (s : State) (q : Nat) : Bool := s.queues.any fun x => x.num == q && x.parked.isSome

/-- Every access of the launch is carried to the home slices and, on a member with the coherent window, to memory, and no
cluster cache keeps a copy (R255, R258, R370; log entry 24). -/
def State.carryAll (s : State) : State :=
  let s := (s.performWrites fun _ => true).emptyCaches
  (s.l2.map (·.addr)).foldl (fun s a => s.l2Back a false) s

/-- A launch whose every workgroup has retired completes: its completion signal is written as a SIGNAL store (R255, R369).
A fault of that write is offered for service, and the launch completes after it; one that is not halts the queue, and the launch
completes (log entry 60). -/
def State.completeLaunch (s : State) (k : LaunchKey) : State :=
  match s.launch k with
  | none => s
  | some l =>
    if l.retired < l.hdr.workgroups ∨ s.queueParked l.queue then s
    else
      let s := s.carryAll
      let done (s : State) : State := { s with launches := s.launches.filter fun x => x.key != k }
      if l.signal = 0 then done s
      else
        match s.servedWrite k.ctx .store l.signal.toNat (leBytes 8 l.signalValue.toNat) with
        | (none, s) => done s
        | (some (x, a), s) =>
          let s := s.queueFault l.queue k.ctx x .store a
          if x.offered then s else done s

/-! Retirement of a workgroup. -/

/-- No command is issued and unfinished on a workgroup's streams: a stream in error has discarded its commands (R290). -/
def Workgroup.drained (g : Workgroup) : Bool := g.streams.toList.all fun st => st.commands.isEmpty

/-- A zombie home keeps its buffers and handle slots (R217). -/
def Workgroup.toZombie (g : Workgroup) : Workgroup :=
  { Workgroup.blank g.key with core := g.core, state := .zombie, bufs := g.bufs, handles := g.handles, passed := g.passed }

/-- The retirement of a workgroup whose warps have exited and whose streams have drained (R29, R217, R292, R344). In
deterministic mode its clock is the largest with which a warp of it exited (R353; log entry 81). -/
def State.retireGroup (s : State) (k : WgKey) : State :=
  match s.group? k with
  | none => s
  | some g =>
    let clock := if (s.hdrOf k.launch).det then some g.exitClock else none
    let s := (s.performWrites fun x => x.group == k).writeBackWhere (g.core / 8) fun _ => true
    let (s, loans) := s.retireHandles k
    let s :=
      if loans then s.modGroup k Workgroup.toZombie
      else { s with groups := s.groups.filter fun x => x.key != k }
    let s := s.retireTickets g clock
    let s := s.serveTakes k clock
    let s := s.modLaunch k.launch fun l => { l with
      retired := l.retired + 1
      cbars :=
        if (l.hdr.clusterKeys k).all fun m => match s.group? m with
          | some x => x.state == .zombie
          | none => true
        then l.cbars.filter fun c => c.1 != k.wglin / l.hdr.clsize else l.cbars }
    (s.retryGrows).completeLaunch k.launch

/-- A draining workgroup whose last command has ended retires (R292). -/
def State.drainGroup (s : State) (k : WgKey) : State :=
  match s.group? k with
  | some g => if g.state = .draining ∧ g.drained then s.retireGroup k else s
  | none => s

/-! Exit of a warp. -/

/-- The running warp has no live split and an empty overflow entry (R42). -/
def Warp.ended (w : Warp) : Bool := (List.finRange 4).all (fun k => (w.splits[k]).isNone) && w.overflow.isNone

/-- The warp exits: its locks are released, with the clock of its EXIT (R285), its slot and allotment return to its half (R29,
R105, R283), and with the last warp of its workgroup the workgroup retires once its streams have drained. -/
def State.exitWarp (s : State) (clock : Option Nat) : State :=
  let w := s.warp
  let k := w.key.wg
  let s := s.exitLocks w.key clock
  let s := s.modGroup k fun g => { (g.subCharge w.half w.allot) with
    entitlement := g.entitlement - w.allot
    exitClock := max g.exitClock w.clock.toNat }
  let s := { s with
    warp := Warp.idle
    monitors := s.monitors.filter fun m => m.warp != w.key }
  let s := s.retryGrows.growDead k
  if s.warpsOf k = [] then
    let s := s.modGroup k fun g => { g with state := .draining, charge0 := 0, charge1 := 0, reserve := 0 }
    (s.retryGrows).drainGroup k
  else s

/-- The threads of the lanes leave every barrier of their workgroup and cluster, and each is then tested (R174, R175). -/
def State.leaveBarriers (s : State) (k : WgKey) (w : Warp) (gone : LaneMask) (clock : Nat) : State :=
  let h := s.hdrOf k.launch
  let lanes := LaneMask.lanes gone
  (List.range 17).foldl (fun s n =>
    let ids := lanes.map fun l => (if n < 16 then 0 else h.rank k.wglin * h.threads) + w.tidx l
    let b := s.barrier k n
    if b.arrived = [] then s else (s.setBarrier k n (b.without ids)).testBarrier k n clock) s

/-- EXIT's own rule (R174): the active lanes leave the split, unless a reduction that it waited for has failed: its trap enters
first (R414, R425). -/
def State.exitRule (s : State) : Res :=
  if s.mustCommit then .stay s.commitWait
  else if s.accessParked then .stay s
  else
    let s := s.flushOwn.giveOwn
    if s.warp.sp.trap.isSome then .stay s else
    let w := s.warp
    let p := w.sp
    let k := w.key.wg
    let left := p.member &&& ~~~p.active
    let clock := s.wakeClock
    let s := if w.trapmask then s.modWg fun g => { g with faulted := true } else s
    let s := s.modWarp fun w =>
      if left ≠ 0 then w.modSp fun p => { p.advance with member := left, active := left }
      else
        let w : Warp := { w with splits := w.splits.set w.cur none }
        if w.hold = some w.cur then { w with hold := none, trapmask := false } else w
    let s := s.modWarp Warp.retired
    let s := if p.active = 0 then s else s.leaveBarriers k w p.active w.clock.toNat
    .stay (if s.warp.ended then s.exitWarp clock else s)

/-- EXIT (R174). -/
def execExit (s : State) : Host.Outcome State Fault Refusal :=
  .next (s.issue .exit { cls := .b } State.exitRule)

end Sys2Proof.Machine
end

