-- ==== Sys2Proof/Machine/Control.lean ====
section
/-! DEFINITION. The control instructions (R166 to R178), the trap instructions (R388 to R391), CLAUSE (R50, R52), and the
steps by which a warp's own waits and traps end. -/

namespace Sys2Proof.Machine

/-! Uniform branches. -/

/-- Target of a branch offset (R49). -/
def branchTarget (pc : Pc) (imm : Nat) (bits : Nat) : Pc := pc + BitVec.ofInt 57 (4 * signedOf bits imm)

/-- The split goes to a target (R52). -/
def State.jump (s : State) (t : Pc) : Res := .moved (s.modWarp fun w => w.modSp fun p => p.goTo t)

def State.uniform (s : State) (taken : Bool) (imm : BitVec 18) : Res :=
  if taken then s.jump (branchTarget s.warp.sp.pc imm.toNat 18) else .done s

/-- NOP (R176). -/
def execNop (s : State) : Host.Outcome State Fault Refusal := .next (s.issue .nop {} fun s => .done s)

/-- CLAUSE (R50, R52): it opens a clause at once and does not count. -/
def execClause (c : ClauseWord) (s : State) : Host.Outcome State Fault Refusal :=
  .next (s.issue (.clause c) {} fun s => .moved (s.modWarp fun w => w.modSp fun p =>
    { p.advance with clause := some ⟨c, if c.count.val = 0 then 16 else c.count.val⟩ }))

/-- BRA (R168). -/
def execBra (imm : BitVec 25) (s : State) : Host.Outcome State Fault Refusal :=
  .next (s.issue (.bra imm) {} fun s => s.jump (branchTarget s.warp.sp.pc imm.toNat 25))

/-- BRNZ (R168). -/
def execBrnz (d : Reg) (imm : BitVec 18) (s : State) : Host.Outcome State Fault Refusal :=
  .next (s.issue (.brnz d imm) { use := { sr := [d.val] } } fun s => s.uniform (s.warp.s d != 0) imm)

/-- BRZ (R168). -/
def execBrz (d : Reg) (imm : BitVec 18) (s : State) : Host.Outcome State Fault Refusal :=
  .next (s.issue (.brz d imm) { use := { sr := [d.val] } } fun s => s.uniform (s.warp.s d == 0) imm)

/-- The link, written in the lanes of a mask (R171). -/
def Warp.link (w : Warp) (d : Reg) (m : LaneMask) : Warp := w.setV64 d m fun _ => ofPc w.sp.pc.next

/-- CALL (R171). -/
def execCall (d : Reg) (imm : BitVec 18) (s : State) : Host.Outcome State Fault Refusal :=
  .next (s.issue (.call d imm) { use := { vw := span d 2, sr := maskUse } } fun s =>
    let t := branchTarget s.warp.sp.pc imm.toNat 18
    (s.modWarp fun w => w.link d w.sp.active).jump t)

/-! Per-lane branches. -/

/-- The lanes `stay` leave the running split for `pc`, as a split or as the overflow entry; the others go to `t` (R36, R37,
R101). With the overflow entry occupied the branch waits, not executed. -/
def State.diverge (s : State) (stay : LaneMask) (pc t : Pc) (f : Warp → Warp) : Res :=
  let go (w : Warp) : Warp := (f w).modSp fun p =>
    { p.goTo t with member := p.member &&& ~~~stay, active := p.active &&& ~~~stay }
  match s.warp.freeSplit with
  | some k => .moved (s.modWarp fun w =>
      let w := go w
      { w with splits := w.splits.set k (some { Split.empty with pc := pc, member := stay, active := stay }) })
  | none =>
    if s.warp.overflow.isNone then
      .moved (s.modWarp fun w => { (go w) with overflow := some ⟨pc, stay, stay, none⟩ })
    else .stay (s.setWait .overflow)

/-- A branch that divides its split first waits for the split's long instructions (R57); the trap of one enters instead. -/
def State.drained (s : State) (rule : State → Res) : Res :=
  let (s, t) := s.drain fun l => l.split == s.warp.cur
  match t with
  | some (c, a, li) => .stay (s.takeTrap c a s.warp.sp.pc li)
  | none => rule s
def State.windowsOpen (s : State) : Bool := s.warp.outstanding.any fun l => l.split == s.warp.cur

/-- The lanes that BRV takes (R169). -/
def Warp.takes (w : Warp) (neg : Bool) (p : PReg) : LaneMask :=
  w.sp.active &&& (if neg then ~~~(w.p p) else w.p p)

/-- BRV's decision (R169). -/
def State.brvRule (s : State) (neg : Bool) (p : PReg) (imm : BitVec 18) : Res :=
  let t := branchTarget s.warp.sp.pc imm.toNat 18
  let take := s.warp.takes neg p
  let rest := s.warp.sp.active &&& ~~~take
  if take = 0 then .done s
  else if rest = 0 then s.jump t
  else s.diverge rest s.warp.sp.pc.next t id

/-- BRV (R169). -/
def execBrv (neg : Bool) (p : PReg) (imm : BitVec 18) (s : State) : Host.Outcome State Fault Refusal :=
  .next (s.issue (.brv neg p imm) { use := { pr := [p.val], sr := maskUse } } fun s =>
    let take := s.warp.takes neg p
    if take ≠ 0 ∧ s.warp.sp.active &&& ~~~take ≠ 0 ∧ s.windowsOpen then s.drained fun s => s.brvRule neg p imm
    else s.brvRule neg p imm)

/-- A target that raises ALIGN (R170). -/
def targetBad (t : DWord) : Bool := BitVec.extractLsb' 0 2 t != 0 || BitVec.extractLsb' 57 7 t != 0

/-- The target of the lowest active lane and the active lanes that name it (R37, R170). -/
def Warp.targets (w : Warp) (a : Reg) : Option (DWord × LaneMask) :=
  (LaneMask.lowest w.sp.active).map fun l0 =>
    let t0 := w.v64 a l0
    (t0, LaneMask.ofFn fun l => w.sp.active.has l && w.v64 a l == t0)

/-- BRX, RET and CALLX after the wait (R170, R171): `f` gets the lanes that go. -/
def State.indirectRule (s : State) (a : Reg) (f : LaneMask → Warp → Warp) : Res :=
  let w := s.warp
  match (LaneMask.lanes w.sp.active).find? fun l => targetBad (w.v64 a l) with
  | some l => .trap s .align (w.v64 a l)
  | none =>
    match w.targets a with
    | none => .done s
    | some (t0, g) =>
      let stay := w.sp.active &&& ~~~g
      if stay = 0 then (s.modWarp (f g)).jump (toPc t0)
      else s.diverge stay w.sp.pc (toPc t0) (f g)

/-- A branch to each lane's address (R170). -/
def State.indirect (s : State) (i : Instr) (a : Reg) (u : Use) (f : LaneMask → Warp → Warp) : State :=
  s.issue i { use := u } fun s =>
    let divides := match s.warp.targets a with
      | some (_, g) => s.warp.sp.active &&& ~~~g != 0
      | none => false
    if divides && s.windowsOpen then s.drained fun s => s.indirectRule a f else s.indirectRule a f

/-- BRX (R170). -/
def execBrx (a : Reg) (s : State) : Host.Outcome State Fault Refusal :=
  .next (s.indirect (.brx a) a { vr := span a 2, sr := maskUse } fun _ w => w)

/-- RET (R170). -/
def execRet (a : Reg) (s : State) : Host.Outcome State Fault Refusal :=
  .next (s.indirect (.ret a) a { vr := span a 2, sr := maskUse } fun _ w => w)

/-- CALLX (R171). -/
def execCallx (d a : Reg) (s : State) : Host.Outcome State Fault Refusal :=
  .next (s.indirect (.callx d a) a { vr := span a 2, vw := span d 2, sr := maskUse } fun g w => w.link d g)

/-! YIELD and SLEEP. -/

/-- YIELD (R176): the split, and its warp at its half, are passed over once. -/
def execYield (s : State) : Host.Outcome State Fault Refusal :=
  .next (s.issue .yield {} fun s => .done (s.modWarp fun w => { w with yielded := some w.cur, passed := true }))

/-- SLEEP (R177): its split does not issue for 16 × n cycles, and it retires when they have passed. -/
def execSleep (imm : BitVec 18) (s : State) : Host.Outcome State Fault Refusal :=
  .next (s.issue (.sleep imm) { cls := .b } fun s =>
    if imm = 0 then .done s else .stay (s.setWait (.sleep (s.now + 16 * imm.toNat))))

/-- SLEEP_EXPIRY (R177). -/
def execSleepExpiry (w : WarpKey) (sp : Fin 4) (s : State) : Host.Outcome State Fault Refusal :=
  .next (s.modWarpAt w fun x => match x.splits[sp] with
    | some p => match p.wait with
      | .sleep t => if t ≤ s.now then x.completeWait sp none id else x
      | _ => x
    | none => x)

/-! Traps. -/

/-- UNDEF (R65). -/
def execUndef (w : Word) (s : State) : Host.Outcome State Fault Refusal :=
  .next (s.issue (.undef w) { undef := true } fun s => .done s)

/-- TRAP's entry (R388): it counts towards the clause that CLAUSEST saves, and TRAPPC names the next instruction. -/
def Warp.userTrap (w : Warp) (base : DWord) (code : DWord) : Warp :=
  let c := w.sp.clause
  ((w.modSp fun p => { p with clause := c.bind Clause.step }).enter base .user code w.sp.pc.next 0).modSp fun p =>
    { p with entry := p.entry.map fun e => { e with clause := c } }

/-- TRAP (R388). -/
def execTrap (imm : BitVec 18) (s : State) : Host.Outcome State Fault Refusal :=
  let code : DWord := BitVec.setWidth 64 imm
  .next (s.issue (.trap imm) { cls := .b } fun s =>
    if s.warp.trapmask then .trap s .user code
    else if s.mustCommit then .stay s.commitWait
    else if s.accessParked then .stay s
    else .stay (s.flushOwn.modWarp fun w => w.userTrap s.trapBase code))

/-- TRET (R389). -/
def execTret (s : State) : Host.Outcome State Fault Refusal :=
  .next (s.issue .tret { cls := .b } fun s => .moved (s.modWarp Warp.trapReturn))

/-- BKPT (R391). -/
def execBkpt (s : State) : Host.Outcome State Fault Refusal :=
  .next (s.issue .bkpt {cls := .b} fun s => .trap s .brk 0)

/-- TRAP_ENTRY (R383, R385): a trap that waits to enter does so at the warp's next boundary. -/
def execTrapEntry (w : WarpKey) (s : State) : Host.Outcome State Fault Refusal :=
  let t := s.focus w
  let due := t.warp.boundary.woundDue || (List.finRange 4).any fun k => match t.warp.splits[k] with
    | some p => p.trap.isSome
    | none => false
  .next (if t.warp.key = w ∧ t.mayIssue t.warp ∧ due then t.atBoundary.1 else s)

/-- The warp's oldest long instruction that has not completed. -/
def Warp.oldestLong (w : Warp) : Option LongOp := w.outstanding.find? fun l => !l.done

/-- LONG_COMPLETE (R56, R58): the warp's oldest outstanding long instruction completes, its access performed first. -/
def execLongComplete (w : WarpKey) (s : State) : Host.Outcome State Fault Refusal :=
  .next (match (s.warpAt w).bind Warp.oldestLong with
    | some l => s.inSplit w l.split fun s =>
      let s := s.performLong (· == l)
      match s.warp.oldestLong with
      | some x => s.modWarp fun w => w.complete (· == x)
      | none => s
    | none => s)

/-- The lanes of the running warp's oldest merge group of reductions, which are performed as one step (R232). -/
def Warp.oldestReds (w : Warp) : List Reduction :=
  match w.reds with
  | [] => []
  | r :: _ => w.reds.takeWhile fun y => y.index == r.index && y.place == r.place && y.sb == r.sb

/-- REDUCTION_PERFORM (R235): outside deterministic mode, the warp's oldest reduction is performed at its place. -/
def execReductionPerform (w : WarpKey) (s : State) : Host.Outcome State Fault Refusal :=
  .next (match s.warpAt w with
    | some x =>
      if (s.hdrOf w.launch).det then s
      else (x.oldestReds.foldl (fun s y => s.performRed x none y) s).modWarpAt w fun x =>
        { x with reds := x.reds.drop x.oldestReds.length }
    | none => s)

/-- One half alone of the words of the oldest merge group is performed (R234, R241), where that can be done; the other follows
with it. -/
def State.reductionHalf (s : State) (w : WarpKey) (high : Bool) : State :=
  match s.warpAt w with
  | none => s
  | some x =>
    let grp := x.oldestReds
    let h : Halves := if high then .high else .low
    if (s.hdrOf w.launch).det ∨ !(grp.all fun r => pairsOfHalves (AOp.ofOpcode r.opcode) r.ty && r.left == .both &&
        (s.spotFault (r.spot w.wg) true).isNone) then s
    else
      let s := s.performOn w (grp.map fun r => (r.spot w.wg, 4 * r.ty.regs))
      (grp.foldl (fun s r => s.performHalf x none r h) s).modWarpAt w fun x =>
        { x with reds := grp.map (fun r => { r with left := Halves.rest h }) ++ x.reds.drop grp.length }

end Sys2Proof.Machine
end

