-- ==== Sys2Proof/Machine/Access.lean ====
section
/-! DEFINITION. Loads and stores (R219 to R227), and PREF, CFLUSH and CINV (R228). -/

namespace Sys2Proof.Machine

/-! Addresses and checks. -/

def sext32 (x : Word) : DWord := BitVec.signExtend 64 x

/-- The address, or the offset, that a base and a lane's offset register form (R220). -/
def Warp.laneAddr (w : Warp) (base : DWord) (a : Reg) (l : Lane) : DWord := base + sext32 (w.v a l)

/-- Translate each address in turn. -/
def State.translateEach (s : State) (kind : AccessKind) {α : Type} (l : List (α × DWord)) :
    List (α × DWord × Except XFault Xlat) × State :=
  l.foldl (fun acc x =>
    let (r, s) := acc.2.translate acc.2.warp.core acc.2.warp.key.ctx x.2 kind false
    (acc.1 ++ [(x.1, x.2, r)], s)) ([], s)

/-- The first address that did not translate. -/
def firstFault {α : Type} (l : List (α × DWord × Except XFault Xlat)) : Option (XFault × DWord) :=
  l.findSome? fun x => match x.2.2 with
    | .error e => some (e, x.2.1)
    | .ok _ => none
def translated {α : Type} (l : List (α × DWord × Except XFault Xlat)) : List (α × Xlat) :=
  l.filterMap fun x => match x.2.2 with
    | .ok t => some (x.1, t)
    | .error _ => none

/-- ALIGN, then ACCESS for high bits, in lane order each (R222, R225). -/
def globalCause {α : Type} (w : Nat) (l : List (α × DWord)) : Option (Cause × DWord) :=
  match l.find? fun x => x.2.toNat % w != 0 with
  | some x => some (.align, x.2)
  | none => (l.find? fun x => 2 ^ 57 ≤ x.2.toNat).map fun x => (.access, x.2)

/-- The handle over the region that a direct access meets (R213, R214). -/
def State.lendingHandle (s : State) (k : WgKey) (b : Buf) (o w : Nat) : Word :=
  let g := (s.group? k).getD (Workgroup.blank k)
  let rank := (s.hdrOf k.launch).rank k.wglin
  match (List.finRange 16).find? fun i =>
      let h := g.handles[i]
      h.state != .free && h.state != .held rank && h.buf == b && decide (o < h.base + h.size) && decide (h.base < o + w) with
  | some i => handleValue (g.handles[i]).gen rank i.val
  | none => 0

/-- The checks of a direct buffer access, cause by cause (R201, R202, R225). -/
def State.bufCause (s : State) (b : Buf) (w : Nat) {α : Type} (l : List (α × Nat)) : Option (Cause × DWord) :=
  let k := s.warp.key.wg
  match l.find? fun x => decide (s.bufSize k b < x.2 + w) with
  | some x => some (.bufspace, bufAddr b false x.2)
  | none =>
    match l.find? fun x => s.lentOut k b x.2 w with
    | some x => some (.handle, BitVec.ofNat 64 ((s.lendingHandle k b x.2 w).toNat + x.2 % 2 ^ 32 * 2 ^ 32))
    | none => (l.find? fun x => x.2 % w != 0).map fun x => (.align, bufAddr b false x.2)

/-- One lane of an access whose place is known, with its address as a trap names it; `none` for the one access of a scalar
form. -/
structure PlacedLane where
  lane : Option Lane
  spot : Spot
  va   : DWord
deriving DecidableEq, Repr

/-- Program order on the bytes of an access (R245, R249): what the warp has issued there and not yet performed is performed
first. In deterministic mode an access to a word of its thread's own buffered reduction waits for that to be committed (log
entry 90). -/
def State.inOrder (s : State) (n : Nat) (l : List PlacedLane) (rule : State → Res) : Res :=
  let spots := l.map fun x => (x.spot, n)
  let k := s.warp.key.wg
  let mine (r : Reduction) : Bool := l.any fun x => x.lane.all (· == r.lane) && r.touches k [(x.spot, n)]
  if s.det then
    if s.warp.reds.any mine then .stay s.commitWait
    else rule (if s.ownTouches spots then s.flushPlain else s)
  else rule (if s.ownTouches spots || s.warp.reds.any fun r => r.touches k spots then s.flushOwn else s)

/-! The frame of a load or store. -/

/-- The clause's type, its width in bytes and registers, and the form (R219, R223). A type that the form rejects still names the
registers of its own width for REGBOUND (log entry 86). -/
structure MemShape where
  ty    : Ty
  bytes : Nat
  regs  : Nat
deriving DecidableEq, Repr

def Warp.memShape (w : Warp) : MemShape := let t := w.ty .b32; ⟨t, t.bytes, t.regs⟩

/-- The form of a load: a rejected type's own count of registers stands for REGBOUND (log entry 86). -/
def Warp.loadForm (w : Warp) (d a b : Reg) (extra : List Nat) : Form :=
  let m := w.memShape
  { cls := .l, undef := m.ty.isBits && d.val % m.regs != 0, badType := !m.ty.isBits
    use := { vr := [a.val], vw := span d m.regs, sr := extra ++ [b.val, b.val + 1] ++ maskUse, pr := w.guardUse } }
def Warp.storeForm (w : Warp) (d a b : Reg) (extra : List Nat) : Form :=
  let m := w.memShape
  { cls := .l, undef := m.ty.isBits && d.val % m.regs != 0, badType := !m.ty.isBits
    use := { vr := a.val :: span d m.regs, sr := extra ++ [b.val, b.val + 1] ++ maskUse, pr := w.guardUse } }

/-- An acquire's end (R224, R247). -/
def State.acquired (s : State) : State := if s.warp.ord.acquires then s.acquireAt s.warp.scope else s

/-- The places of a load are read, in lane order: an object held under I gives free values (R257). -/
def State.readEach (s : State) (n : Nat) (l : List PlacedLane) : List (Option Lane × Nat) × State :=
  l.foldl (fun acc x =>
    let (bs, s) := acc.2.readSpot (acc.2.writer none) acc.2.cluster (Scope.narrow acc.2.warp.scope) x.spot n
    (acc.1 ++ [(x.lane, ofLeBytes (s.seenAt acc.1.length x.spot bs))], s)) ([], s)

/-- The registers that a load writes: a scalar form's one value, or a value a lane. -/
def loadBack (d : Reg) (m : MemShape) (scalar : Bool) (vals : List (Option Lane × Nat)) : List WriteBack :=
  if scalar then wbSNat d m.regs ((vals.head?.map (·.2)).getD 0)
  else wbLanes d m.regs (vals.filterMap fun x => x.1.map fun l => (l, x.2))

/-- A load whose places are known: its values wait in the window, and an acquire takes place (R224, R247). It may be left to
be performed later (R242), unless it acquires. -/
def State.loadAt (s : State) (f : Form) (la : Fin 16) (d : Reg) (m : MemShape) (scalar : Bool) (l : List PlacedLane) : Res :=
  s.inOrder m.bytes l fun s =>
    if s.slow && !s.warp.ord.acquires then
      .done (s.modWarp fun w => w.pushLate la.val f.use (.load d m.regs m.bytes scalar (Scope.narrow w.scope)
        (l.zipIdx.map fun x => ⟨x.1.lane.getD 0, x.2, x.1.spot, x.1.va, []⟩)))
    else
      let (vals, s) := s.readEach m.bytes l
      .done (s.acquired.modWarp fun w => w.pushLong la.val f.use (loadBack d m scalar vals) 0 none)

/-- A lane's place written now, or left to be written later (R242). -/
def State.writeAt (s : State) (x : PlacedLane) (bytes : List Byte) : State :=
  let w := s.writer none
  let narrow := Scope.narrow s.warp.scope
  if s.slow then
    { s with late := s.late ++
        [⟨some s.warp.key, s.warp.key.wg, s.cluster, narrow, x.spot, bytes, w.clock, x.lane, x.va, none, false⟩] }
  else s.writeSpot w s.cluster narrow x.spot bytes

/-- A store whose places are known, in lane order (R224): in deterministic mode a release waits for the warp's reductions, and
a release comes first (R247, R259). -/
def State.storeAt (s : State) (f : Form) (la : Fin 16) (m : MemShape) (l : List PlacedLane) (v : Option Lane → Nat) : Res :=
  if s.warp.ord.releases && s.mustCommit then .stay s.commitWait
  else
    let s := if s.warp.ord.releases then s.releaseAt s.warp.scope else s
    s.inOrder m.bytes l fun s =>
      .done ((l.foldl (fun s x => s.writeAt x (leBytes m.bytes (v x.lane))) s).modWarp fun w =>
        w.pushLong la.val f.use [] 0 none)

/-! Global loads and stores. -/

/-- The places of translated addresses. -/
def placed (l : List (Option Lane × Xlat)) : List PlacedLane := l.map fun x => ⟨x.1, .global x.2.pa x.2.key, BitVec.ofNat 64 x.2.va⟩
/-- The addresses of the active lanes (R220). -/
def Warp.globalLanes (w : Warp) (a b : Reg) : List (Option Lane × DWord) :=
  (LaneMask.lanes w.guarded).map fun l => (some l, w.laneAddr (w.s64 b) a l)
/-- The one address of a scalar form (R227). -/
def Warp.scalarAddr (w : Warp) (a b : Reg) : List (Option Lane × DWord) := [(none, w.s64 b + sext32 (w.s a))]
/-- The data of a store: a lane's, or the scalar form's. -/
def Warp.storeData (w : Warp) (d : Reg) (m : MemShape) : Option Lane → Nat
  | some l => w.vNat d m.regs l
  | none => w.sNat d m.regs

/-- Check and translate, then go on (R224, R225). -/
def State.checked (s : State) {α : Type} (w : Nat) (kind : AccessKind) (long : Bool) (l : List (α × DWord))
    (rule : List (α × Xlat) → State → Res) : Res :=
  match globalCause w l with
  | some (c, a) => .trap s c a
  | none =>
    let (r, s) := s.translateEach kind l
    match firstFault r with
    | some (x, va) => s.faultRes x kind va long
    | none => rule (translated r) s

def State.ldgRule (s : State) (f : Form) (d a b : Reg) (la : Fin 16) : Res :=
  let m := s.warp.memShape
  s.checked m.bytes .load true (s.warp.globalLanes a b) fun l s => s.loadAt f la d m false (placed l)

def State.stgRule (s : State) (f : Form) (d a b : Reg) (la : Fin 16) : Res :=
  let m := s.warp.memShape
  s.checked m.bytes .store true (s.warp.globalLanes a b) fun l s => s.storeAt f la m (placed l) (s.warp.storeData d m)

/-- LDG (R224). -/
def execLdg (d a b : Reg) (la : Fin 16) (s : State) : Host.Outcome State Fault Refusal :=
  let f := s.warp.loadForm d a b []
  .next (s.issue (.ldg d a b la) f fun s => s.ldgRule f d a b la)

/-- STG (R224). -/
def execStg (d a b : Reg) (la : Fin 16) (s : State) : Host.Outcome State Fault Refusal :=
  let f := s.warp.storeForm d a b []
  .next (s.issue (.stg d a b la) f fun s => s.stgRule f d a b la)

/-- The form of LDGS and STGS: scalar data, one access a warp, no guard (R223, R227). -/
def Warp.scalarForm (w : Warp) (d a b : Reg) (load : Bool) : Form :=
  let m := w.memShape
  { cls := .l, undef := m.ty.isBits && d.val % m.regs != 0, badType := !m.ty.isBits
    use := if load then { sr := [a.val, b.val, b.val + 1], sw := span d m.regs }
           else { sr := [a.val, b.val, b.val + 1] ++ span d m.regs } }

/-- LDGS (R227). -/
def execLdgs (d a b : Reg) (la : Fin 16) (s : State) : Host.Outcome State Fault Refusal :=
  let f := s.warp.scalarForm d a b true
  .next (s.issue (.ldgs d a b la) f fun s =>
    let m := s.warp.memShape
    s.checked m.bytes .load true (s.warp.scalarAddr a b) fun l s => s.loadAt f la d m true (placed l))

/-- STGS (R227). -/
def execStgs (d a b : Reg) (la : Fin 16) (s : State) : Host.Outcome State Fault Refusal :=
  let f := s.warp.scalarForm d a b false
  .next (s.issue (.stgs d a b la) f fun s =>
    let m := s.warp.memShape
    s.checked m.bytes .store true (s.warp.scalarAddr a b) fun l s => s.storeAt f la m (placed l) (s.warp.storeData d m))

/-! Buffer loads and stores. -/

/-- The lanes' offsets in a buffer (R220). -/
def Warp.bufLanes (w : Warp) (a b : Reg) : List (Lane × Nat) :=
  (LaneMask.lanes w.guarded).map fun l => (l, (w.laneAddr (w.s64 b) a l).toNat)
/-- The places of offsets in a buffer of a workgroup. -/
def inBuffer (g : WgKey) (b : Buf) (base : Nat) (l : List (Lane × Nat)) : List PlacedLane :=
  l.map fun x => ⟨some x.1, .buffer g b (base + x.2), bufAddr b false (base + x.2)⟩

def State.bufLoadRule (s : State) (f : Form) (buf : Buf) (d a b : Reg) (la : Fin 16) : Res :=
  let m := s.warp.memShape
  let lanes := s.warp.bufLanes a b
  match s.bufCause buf m.bytes lanes with
  | some (c, t) => .trap s c t
  | none => s.loadAt f la d m false (inBuffer s.warp.key.wg buf 0 lanes)

def State.bufStoreRule (s : State) (f : Form) (buf : Buf) (d a b : Reg) (la : Fin 16) : Res :=
  let m := s.warp.memShape
  let lanes := s.warp.bufLanes a b
  match s.bufCause buf m.bytes lanes with
  | some (c, t) => .trap s c t
  | none => s.storeAt f la m (inBuffer s.warp.key.wg buf 0 lanes) (s.warp.storeData d m)

/-- LDSB (R224). -/
def execLdsb (d a b : Reg) (la : Fin 16) (s : State) : Host.Outcome State Fault Refusal :=
  let f := s.warp.loadForm d a b []
  .next (s.issue (.ldsb d a b la) f fun s => s.bufLoadRule f .sb d a b la)
/-- STSB (R224). -/
def execStsb (d a b : Reg) (la : Fin 16) (s : State) : Host.Outcome State Fault Refusal :=
  let f := s.warp.storeForm d a b []
  .next (s.issue (.stsb d a b la) f fun s => s.bufStoreRule f .sb d a b la)
/-- LDAB (R224). -/
def execLdab (d a b : Reg) (la : Fin 16) (s : State) : Host.Outcome State Fault Refusal :=
  let f := s.warp.loadForm d a b []
  .next (s.issue (.ldab d a b la) f fun s => s.bufLoadRule f .ab d a b la)
/-- STAB (R224). -/
def execStab (d a b : Reg) (la : Fin 16) (s : State) : Host.Outcome State Fault Refusal :=
  let f := s.warp.storeForm d a b []
  .next (s.issue (.stab d a b la) f fun s => s.bufStoreRule f .ab d a b la)
/-- LDCB (R224). -/
def execLdcb (d a b : Reg) (la : Fin 16) (s : State) : Host.Outcome State Fault Refusal :=
  let f := s.warp.loadForm d a b []
  .next (s.issue (.ldcb d a b la) f fun s => s.bufLoadRule f .cb d a b la)
/-- STCB (R224). -/
def execStcb (d a b : Reg) (la : Fin 16) (s : State) : Host.Outcome State Fault Refusal :=
  let f := s.warp.storeForm d a b []
  .next (s.issue (.stcb d a b la) f fun s => s.bufStoreRule f .cb d a b la)

/-! Handle loads and stores. -/

/-- The checks of an access through a handle (R201, R213), then the rule on its home and slot. -/
def State.viaHandle (s : State) (h : Word) (w : Nat) (lanes : List (Lane × Nat)) (rule : WgKey → HandleSlot → Res) : Res :=
  match lanes with
  | [] => rule s.warp.key.wg ⟨.free, 0, .sb, 0, 0⟩
  | first :: _ =>
    match s.heldHandle s.warp.key.wg h with
    | none => .trap s .handle (BitVec.ofNat 64 (h.toNat + first.2 % 2 ^ 32 * 2 ^ 32))
    | some (home, i) =>
      let x := s.slotOf home i
      if x.buf = .wb then .trap s .bufspace (bufAddr x.buf true first.2)
      else
        match lanes.find? fun y => decide (x.size < y.2 + w) with
        | some y => .trap s .bufspace (bufAddr x.buf true y.2)
        | none =>
          match lanes.find? fun y => y.2 % w != 0 with
          | some y => .trap s .align (bufAddr x.buf true y.2)
          | none => rule home x

/-- The lanes' offsets in a handle's region (R220). -/
def Warp.handleLanes (w : Warp) (a b : Reg) : List (Lane × Nat) :=
  (LaneMask.lanes w.guarded).map fun l => (l, (w.laneAddr (BitVec.setWidth 64 (w.s (b + 1))) a l).toNat)

/-- LDH (R213, R224). -/
def execLdh (d a b : Reg) (la : Fin 16) (s : State) : Host.Outcome State Fault Refusal :=
  let f := s.warp.loadForm d a b []
  .next (s.issue (.ldh d a b la) f fun s =>
    let m := s.warp.memShape
    let lanes := s.warp.handleLanes a b
    s.viaHandle (s.warp.s b) m.bytes lanes fun home x => s.loadAt f la d m false (inBuffer home x.buf x.base lanes))

/-- STH (R213, R224). -/
def execSth (d a b : Reg) (la : Fin 16) (s : State) : Host.Outcome State Fault Refusal :=
  let f := s.warp.storeForm d a b []
  .next (s.issue (.sth d a b la) f fun s =>
    let m := s.warp.memShape
    let lanes := s.warp.handleLanes a b
    s.viaHandle (s.warp.s b) m.bytes lanes fun home x =>
      s.storeAt f la m (inBuffer home x.buf x.base lanes) (s.warp.storeData d m))

/-! PREF, CFLUSH and CINV. -/

def Warp.lineForm (w : Warp) (cls : Cls) (a b : Reg) : Form :=
  { cls := cls, badType := !(w.ty .b32).isBits
    use := { vr := [a.val], sr := [b.val, b.val + 1] ++ maskUse, pr := w.guardUse } }

/-- PREF (R228): a hint with no architected effect. -/
def execPref (l2 : Bool) (a b : Reg) (s : State) : Host.Outcome State Fault Refusal :=
  .next (s.issue (.pref l2 a b) (s.warp.lineForm .s a b) fun s => .done s)

/-- The scopes at which a line also moves between L2 and memory (R228). -/
def Scope.beyondDevice : Scope → Bool
  | .host | .peer | .system => true
  | _ => false

/-- CFLUSH and CINV on the 128-byte lines of the active lanes' addresses (R228). -/
def State.lineRule (s : State) (drop : Bool) (a b : Reg) : Res :=
  s.checked 1 .load false (s.warp.globalLanes a b) fun l s =>
    let lines := l.map fun x => (x.1, { x.2 with pa := x.2.pa / 128 * 128 })
    s.inOrder 128 (placed lines) fun s =>
      .done (l.foldl (fun s x =>
        let inLine (p : Nat) : Bool := p / 128 == x.2.pa / 128
        let s := if drop then s.dropWhere s.cluster inLine else s.writeBackWhere s.cluster inLine
        if Scope.beyondDevice s.warp.scope then
          ((s.l2.map (·.addr)).filter inLine).foldl (fun s p => s.l2Back p drop) s
        else s) s)

/-- CFLUSH (R228). -/
def execCflush (a b : Reg) (s : State) : Host.Outcome State Fault Refusal :=
  .next (s.issue (.cflush a b) (s.warp.lineForm .b a b) fun s => s.lineRule false a b)

/-- CINV (R228). -/
def execCinv (a b : Reg) (s : State) : Host.Outcome State Fault Refusal :=
  .next (s.issue (.cinv a b) (s.warp.lineForm .b a b) fun s => s.lineRule true a b)

end Sys2Proof.Machine
end

