-- ==== Sys2Proof/Machine/Atomics.lean ====
section
/-! DEFINITION. Atomics and reductions (R230 to R236), and WAITCMP (R237 to R240). -/

namespace Sys2Proof.Machine

/-! Atomics. -/

/-- A lane's data registers: ACAS takes two operands (R230). -/
def AOp.operandRegs (op : AOp) (t : Ty) : Nat := if op = .cas then 2 * t.regs else t.regs

/-- Scopes that an SB atomic accepts (R231). -/
def Scope.inCore : Scope → Bool
  | .thread | .warp | .group | .core => true
  | _ => false

/-- The form of an atomic (R223, R230, R231): one that returns is a synchronising operation (R236), a reduction (x = 15) opens
no window and writes nothing (R235). A rejected type's own count of registers stands for REGBOUND (log entry 86). -/
def Warp.atomicForm (w : Warp) (op : AOp) (d a b : Reg) (la : Fin 16) : Form :=
  let t := w.ty op.default
  let n := op.operandRegs t
  let red := la.val == 15
  { cls := if red then .s else .l
    sync := !red
    undef := op.accepts t && d.val % n != 0
    badType := !op.accepts t || (b.val == 0 && !Scope.inCore w.scope)
    use := { vr := a.val :: span d n, vw := if red then [] else span d t.regs
             sr := (if b.val = 0 then [] else [b.val, b.val + 1]) ++ maskUse, pr := w.guardUse } }

/-- A lane of an atomic whose place is known. -/
structure AtomicLane where
  lane  : Lane
  va    : DWord
  place : Nat
  key   : Option Nat
  page  : Nat
deriving DecidableEq, Repr

/-- Lanes by merge group, each group at its lowest lane (R232). -/
def mergeGroups (l : List AtomicLane) : List AtomicLane :=
  l.flatMap fun x =>
    if l.any fun y => y.va == x.va && decide (y.lane.val < x.lane.val) then [] else l.filter fun y => y.va == x.va

/-- A lane's operand words, lowest register first. -/
def Warp.words (w : Warp) (d : Reg) (n : Nat) (l : Lane) : List Word :=
  (List.range n).map fun k => w.v (d + Fin.ofNat 128 k) l

/-- Where an atomic's lane acts. -/
def AtomicLane.spot (x : AtomicLane) (k : WgKey) (sb : Bool) : Spot := if sb then .buffer k .sb x.place else .global x.place x.key
/-- The lanes of an atomic with return, in the order they are applied, with their operands. -/
def Warp.atomicLanes (w : Warp) (op : AOp) (t : Ty) (sb : Bool) (d : Reg) (l : List AtomicLane) : List LateLane :=
  l.map fun x => ⟨x.lane, x.lane.val, x.spot w.key.wg sb, x.va, w.words d (op.operandRegs t) x.lane⟩

/-- Buffer the lanes of a reduction, in order, with the clock and the index of their instruction (R354). -/
def Warp.bufferLanes (w : Warp) (op : AOp) (t : Ty) (sb : Bool) (d : Reg) (l : List AtomicLane) : Warp :=
  { w with reds := w.reds ++ l.map fun x =>
      ⟨w.clock.toNat, w.issued, x.lane, op.opcode, t, w.scope, sb, x.va, x.place, x.key, x.page, w.words d (op.operandRegs t) x.lane,
        none, .both⟩ }

/-- The lanes are in the split's done mask (R226). -/
def Warp.markDone (w : Warp) (l : List AtomicLane) : Warp :=
  w.modSp fun p => { p with done := p.done ||| LaneMask.ofFn fun x => l.any fun y => y.lane == x }

/-- The lanes that are ready are performed or buffered; then the instruction retires, or parks at its fault with the done
lanes' results written (R226, R235, R437). They may be left to be performed later (R241, R242): an acquire then, and what the
lanes of a parked instruction return, come no later than the warp's next instruction or its completion. -/
def State.atomicRun (s : State) (f : Form) (op : AOp) (t : Ty) (sb : Bool) (d : Reg) (la : Fin 16) (ready : List AtomicLane)
    (fault : Option (XFault × DWord)) : Res :=
  let red := la.val == 15
  let s := if s.warp.ord.releases then s.releaseAt s.warp.scope else s
  if red then
    match fault with
    | some (x, va) =>
      if s.det then s.faultRes x .atomic va true
      else (s.modWarp fun w => (w.bufferLanes op t sb d (mergeGroups ready)).markDone ready).faultRes x .atomic va true
    | none => .done (s.modWarp fun w => w.bufferLanes op t sb d (mergeGroups ready))
  else
    let sc := s.warp.scope
    let spots := ready.map fun x => (x.spot s.warp.key.wg sb, 4 * t.regs)
    -- in deterministic mode an atomic sees no reduction of a quantum that has not committed (R354)
    let s := if !(s.ownTouches spots || s.warp.reds.any fun r => r.touches s.warp.key.wg spots) then s
             else if s.det then s.flushPlain else s.flushOwn
    let lanes := s.warp.atomicLanes op t sb d (mergeGroups ready)
    let late (s : State) (u : Use) : State := s.modWarp fun w =>
      w.pushLate la.val u (.atomic d op.opcode t sc w.ord.acquires lanes none)
    match fault with
    | some (x, va) =>
      if s.slow && !s.det then ((late s {}).modWarp fun w => w.markDone ready).faultRes x .atomic va true
      else
        let (vals, s) := s.applyLanes (s.writer none) s.cluster (Scope.atomicPlace sc) op t .both lanes
        let wb := wbLanes d t.regs ((lanes.map (·.lane)).zip vals)
        (s.modWarp fun w => (wb.foldl WriteBack.apply w).markDone ready).faultRes x .atomic va true
    | none =>
      if s.slow && !s.det then .done (late s f.use)
      else
        let (vals, s) := s.applyLanes (s.writer none) s.cluster (Scope.atomicPlace sc) op t .both lanes
        .done (s.acquired.modWarp fun w => w.pushLong la.val f.use (wbLanes d t.regs ((lanes.map (·.lane)).zip vals)) 0 none)

/-- An atomic's own rule (R225, R226, R230 to R236). -/
def State.atomicRule (s : State) (f : Form) (op : AOp) (d a b : Reg) (la : Fin 16) : Res :=
  let t := s.warp.ty op.default
  let w := 4 * t.regs
  let active := LaneMask.lanes (s.warp.guarded &&& ~~~s.warp.sp.done)
  let gate (rule : Res) : Res := if s.warp.ord.releases && s.mustCommit then .stay s.commitWait else rule
  if b.val = 0 then
    let lanes := active.map fun l => (l, (s.warp.v a l).toNat)
    match s.bufCause .sb w lanes with
    | some (c, x) => .trap s c x
    | none => gate (s.atomicRun f op t true d la (lanes.map fun x => ⟨x.1, BitVec.ofNat 64 x.2, x.2, none, 0⟩) none)
  else
    let base := s.warp.s64 b
    let lanes := active.map fun l => (l, s.warp.laneAddr base a l)
    match globalCause w lanes with
    | some (c, x) => .trap s c x
    | none => gate (
      let (r, s) := s.translateEach .atomic lanes
      let ready : List AtomicLane := r.filterMap fun x => match x.2.2 with
        | .ok t => some ⟨x.1, x.2.1, t.pa, t.key, t.page⟩
        | .error _ => none
      match firstFault r with
      | none => s.atomicRun f op t false d la ready none
      | some (x, va) =>
        match x with
        | .access | .refused | .ecc | .link => s.faultRes x .atomic va true
        | _ => s.atomicRun f op t false d la ready (some (x, va)))

/-- AADD (R230). -/
def execAadd (d a b : Reg) (la : Fin 16) (s : State) : Host.Outcome State Fault Refusal :=
  let f := s.warp.atomicForm .add d a b la
  .next (s.issue (.aadd d a b la) f fun s => s.atomicRule f .add d a b la)
/-- AMIN (R230). -/
def execAmin (d a b : Reg) (la : Fin 16) (s : State) : Host.Outcome State Fault Refusal :=
  let f := s.warp.atomicForm .min d a b la
  .next (s.issue (.amin d a b la) f fun s => s.atomicRule f .min d a b la)
/-- AMAX (R230). -/
def execAmax (d a b : Reg) (la : Fin 16) (s : State) : Host.Outcome State Fault Refusal :=
  let f := s.warp.atomicForm .max d a b la
  .next (s.issue (.amax d a b la) f fun s => s.atomicRule f .max d a b la)
/-- AAND (R230). -/
def execAand (d a b : Reg) (la : Fin 16) (s : State) : Host.Outcome State Fault Refusal :=
  let f := s.warp.atomicForm .and d a b la
  .next (s.issue (.aand d a b la) f fun s => s.atomicRule f .and d a b la)
/-- AOR (R230). -/
def execAor (d a b : Reg) (la : Fin 16) (s : State) : Host.Outcome State Fault Refusal :=
  let f := s.warp.atomicForm .or d a b la
  .next (s.issue (.aor d a b la) f fun s => s.atomicRule f .or d a b la)
/-- AXOR (R230). -/
def execAxor (d a b : Reg) (la : Fin 16) (s : State) : Host.Outcome State Fault Refusal :=
  let f := s.warp.atomicForm .xor d a b la
  .next (s.issue (.axor d a b la) f fun s => s.atomicRule f .xor d a b la)
/-- AXCHG (R230). -/
def execAxchg (d a b : Reg) (la : Fin 16) (s : State) : Host.Outcome State Fault Refusal :=
  let f := s.warp.atomicForm .xchg d a b la
  .next (s.issue (.axchg d a b la) f fun s => s.atomicRule f .xchg d a b la)
/-- ACAS (R230). -/
def execAcas (d a b : Reg) (la : Fin 16) (s : State) : Host.Outcome State Fault Refusal :=
  let f := s.warp.atomicForm .cas d a b la
  .next (s.issue (.acas d a b la) f fun s => s.atomicRule f .cas d a b la)
/-- AINCW (R230). -/
def execAincw (d a b : Reg) (la : Fin 16) (s : State) : Host.Outcome State Fault Refusal :=
  let f := s.warp.atomicForm .incw d a b la
  .next (s.issue (.aincw d a b la) f fun s => s.atomicRule f .incw d a b la)
/-- AFADD (R230). -/
def execAfadd (d a b : Reg) (la : Fin 16) (s : State) : Host.Outcome State Fault Refusal :=
  let f := s.warp.atomicForm .fadd d a b la
  .next (s.issue (.afadd d a b la) f fun s => s.atomicRule f .fadd d a b la)
/-- AFMIN (R230). -/
def execAfmin (d a b : Reg) (la : Fin 16) (s : State) : Host.Outcome State Fault Refusal :=
  let f := s.warp.atomicForm .fmin d a b la
  .next (s.issue (.afmin d a b la) f fun s => s.atomicRule f .fmin d a b la)
/-- AFMAX (R230). -/
def execAfmax (d a b : Reg) (la : Fin 16) (s : State) : Host.Outcome State Fault Refusal :=
  let f := s.warp.atomicForm .fmax d a b la
  .next (s.issue (.afmax d a b la) f fun s => s.atomicRule f .fmax d a b la)

/-! WAITCMP. -/

/-- The condition on the memory value against the comparand (R237). -/
def WCond.holds (c : WCond) (w m d : Nat) : Bool :=
  match c with
  | .eq => m == d
  | .ne => m != d
  | .geu => decide (d ≤ m)
  | .ltu => decide (m < d)
  | .ges => decide (signedOf (8 * w) d ≤ signedOf (8 * w) m)
  | .lts => decide (signedOf (8 * w) m < signedOf (8 * w) d)

/-- A monitor at an address, or re-polling where none is free or the address is homed off the member (R239). -/
def State.armMonitor (s : State) (pa w : Nat) : State :=
  let k := s.warp.key
  if s.monitors.any fun m => m.warp == k && m.split == s.warp.cur && m.addr == pa then
    { s with monitors := s.monitors.map fun m =>
        if m.warp == k && m.split == s.warp.cur && m.addr == pa then { m with fired := false, clock := none } else m }
  else
    let slice := homeSlice s.member pa
    let used := (s.monitors.filter fun m => !m.poll && homeSlice s.member m.addr == slice).length
    let poll := s.place pa != .local || decide (Config.monitors ≤ used)
    { s with monitors := s.monitors ++ [⟨k, s.warp.cur, pa, w, poll, false, none⟩] }
def State.freeMonitor (s : State) (pa : Nat) : State :=
  { s with monitors := s.monitors.filter fun m => !(m.warp == s.warp.key && m.split == s.warp.cur && m.addr == pa) }

/-- The running split has no monitor armed. -/
def State.noMonitors (s : State) : State :=
  { s with monitors := s.monitors.filter fun m => !(m.warp == s.warp.key && m.split == s.warp.cur) }

/-- The check of one address: its lanes, when every one is satisfied, are removed; else a monitor is armed (R237). Where R237's
prose has each lane complete at the first read that satisfies it, this is its pseudocode, by physical address (log entry
101). -/
def State.checkAddr (s : State) (c : WCond) (w : Nat) (l : List WaitLane) (pa : Nat) : List WaitLane × State :=
  let here := l.filter (·.pa == pa)
  let key := (here.head?.bind (·.key))
  let (bs, s) := s.lsRead (s.writer key) s.cluster false pa w
  let m (x : WaitLane) : Nat := ofLeBytes (s.seen x.lane.val pa bs)
  if here.all fun x => WCond.holds c w (m x) x.value then (l.filter (·.pa != pa), s.freeMonitor pa)
  else (l, s.armMonitor pa w)

/-- Check each address once. -/
def State.checkLanes (s : State) (c : WCond) (w : Nat) (l : List WaitLane) : List WaitLane × State :=
  ((l.map (·.pa)).eraseDups).foldl (fun acc pa => acc.2.checkAddr c w acc.1 pa) (l, s)

/-- WAITCMP's first check (R237). -/
def State.waitcmpRule (s : State) (d a b : Reg) (c : WCond) : Res :=
  let m := s.warp.memShape
  let active := LaneMask.lanes s.warp.guarded
  match active with
  | [] => .done s
  | l0 :: _ =>
    if b.val = 0 then .trap s .bufspace (bufAddr .sb false (s.warp.v a l0).toNat)
    else
      s.checked m.bytes .load false (s.warp.globalLanes a b) fun l s => s.inOrder m.bytes (placed l) fun s =>
        let lanes : List WaitLane := l.filterMap fun x => x.1.map fun y =>
          ⟨y, x.2.va, x.2.pa, x.2.key, x.2.page, s.warp.vNat d m.regs y⟩
        let (left, s) := s.noMonitors.checkLanes c m.bytes lanes
        if left = [] then .done s.acquired else .stay (s.setWait (.waitcmp c m.bytes left))

/-- WAITCMP (R237): it accepts b32 and b64; each check is a synchronising operation (R240). -/
def execWaitcmp (d a b : Reg) (c : WCond) (s : State) : Host.Outcome State Fault Refusal :=
  let t := s.warp.ty .b32
  let ok := t == .b32 || t == .b64
  .next (s.issue (.waitcmp d a b c)
    { cls := .b, sync := true, undef := ok && d.val % t.regs != 0, badType := !ok
      use := { vr := a.val :: span d t.regs, sr := [b.val, b.val + 1] ++ maskUse, pr := s.warp.guardUse } }
    fun s => s.waitcmpRule d a b c)

/-- A re-check of the running split's WAITCMP (R237): whether it completed it, and the state after. One whose read fails, at a
poisoned line or a dropped link, executes afresh and meets the fault there (R414, R425). -/
def State.recheck (s : State) : Bool × State :=
  match s.warp.sp.wait with
  | .waitcmp c w l =>
    let fired := s.monitors.filter fun m => m.warp == s.warp.key && m.split == s.warp.cur && (m.fired || m.poll)
    if fired.any fun m => (s.spotFault (.global m.addr none) true).isSome then (false, s.setWait .ready)
    else
    let (left, s) := (fired.map (·.addr)).foldl (fun acc pa => acc.2.checkAddr c w acc.1 pa) (l, s)
    if left = [] then
      (true, s.acquired.modWarp fun w => w.completeWait w.cur none id)
    else (false, s.setWait (.waitcmp c w left))
  | _ => (false, s)

end Sys2Proof.Machine
end

