-- ==== Sys2Proof/Machine/System.lean ====
section
/-! DEFINITION. The re-checks of WAITCMP (R237 to R240, R438), the privileged instructions (R66, R192, R392, R393). -/

namespace Sys2Proof.Machine

/-! Re-checks. -/

/-- A warp's re-check may be made: its context runs, and in deterministic mode it holds the global minimum (R438). -/
def State.mayRecheck (s : State) (k : WarpKey) : Bool :=
  (s.warpAt k).isSome && s.contextRuns k.ctx &&
    (!(s.hdrOf k.launch).det || (s.focus k).holdsMin || s.allBlocked k.ctx)
/-- A re-check of a split's WAITCMP when a monitor of it satisfies `p`. -/
def State.recheckIf (s : State) (k : WarpKey) (i : Fin 4) (p : Monitor → Bool) : State :=
  if s.mayRecheck k ∧ (s.monitors.any fun m => m.warp == k && m.split == i && p m) then
    s.inSplit k i fun s => s.recheck.2
  else s

/-! Privileged instructions. -/

/-- A privileged form outside a system context raises ACCESS (R66, R390). -/
def State.privileged (s : State) (i : Instr) (rule : State → Res) : Res :=
  if s.ctx.system then rule s else .trap s .access (BitVec.setWidth 64 (wordOf i))

/-- A warp's buffered reduction was translated through a translation that is dropped, by whatever holder, and whether or not it
still holds it (R192, R437). -/
def redDropped (sel ctx va : Nat) (w : Warp) (r : Reduction) : Bool :=
  !r.sb && selects sel ctx va w.key.ctx (r.va.toNat / r.page) r.page

/-- Every access that has translated is performed (R192); reductions of deterministic mode stay for their commit. -/
def State.flushAll (s : State) : State :=
  let s := s.performWrites fun _ => true
  s.warps.foldl (fun s w => s.inSplit w.key w.cur fun s =>
    let s := s.performLong fun _ => true
    if s.det then s else s.flushReds) s

/-- TLBINV (R192, R437): accesses already translated are performed first. -/
def execTlbinv (a b : Reg) (s : State) : Host.Outcome State Fault Refusal :=
  let i : Instr := .tlbinv a b
  .next (s.issue i { cls := .b, use := { sr := [a.val, a.val + 1, b.val] } } fun s => s.privileged i fun s =>
    let va := (s.warp.s64 a).toNat
    let c := (s.warp.s b).toNat
    let sel := bitsOf c 16 2
    let ctx := bitsOf c 0 16
    let s := s.flushAll
    let held := s.warps.flatMap fun w => (w.reds.filter fun r => redDropped sel ctx va w r).map fun r => (w, r)
    if held ≠ [] then .stay (s.othersWait held)
    else .done ((s.redoWaits sel ctx va).tlbInvalidate sel ctx va))

/-- Bytes a scrub has still to zero (R424). -/
def Scrub.bytes (x : Scrub) : Nat := (x.frames.map (·.2)).sum + x.buffers - x.zeroed
/-- The scrub register (R424): the first scrub's key slot, 0 where it has none, and the whole MiB left to all of them. -/
def State.scrubStat (s : State) : Word :=
  match s.scrubs.head? with
  | some x => BitVec.ofNat 32 (2 ^ 31 + (if x.restarted then 2 ^ 30 else 0) + x.slot.getD 0 % 64 * 2 ^ 24 +
      min ((s.scrubs.map Scrub.bytes).sum / 2 ^ 20) (2 ^ 24 - 1))
  | none => if s.scrubRestarted then 0x40000000 else 0

/-- A privileged register (R392). -/
def State.privReg (s : State) : PrivReg → Word
  | .ctxnum => BitVec.ofNat 32 (s.warp.key.ctx % 65536)
  | .trapbase => lowWord s.trapBase
  | .trapbasehi => highWord s.trapBase
  | .errcount => s.ctx.errcount
  | .scrubstat => s.scrubStat

/-- SRDP (R392). -/
def execSrdp (d : Reg) (n : PrivReg) (s : State) : Host.Outcome State Fault Refusal :=
  let i : Instr := .srdp d n
  .next (s.issue i { use := { sw := [d.val] } } fun s => s.privileged i fun s =>
    .done (s.modWarp fun w => w.setS d (s.privReg n)))

/-- The trap base with one word written; its reserved bits stay zero (R392). -/
def trapBaseWith (old : DWord) (hi : Bool) (v : Word) : DWord :=
  if hi then joinWords (lowWord old) (v &&& 0x01FFFFFF#32) else joinWords (v &&& 0xFFFFFFC0#32) (highWord old)

/-- SWRP's rule: a register that it may not write makes the word UNDEF; else the trap base of the warp's launch (R392). -/
def State.privWrite (s : State) (i : Instr) (a : Reg) (n : PrivReg) : State :=
  s.issue i { undef := !PrivReg.writable n, use := { sr := [a.val] } } fun s => s.privileged i fun s =>
    .done (s.modLaunch s.warp.key.launch fun l =>
      { l with trapBase := trapBaseWith l.trapBase (n == .trapbasehi) (s.warp.s a) })

/-- SWRP (R392). -/
def execSwrp (a : Reg) (n : PrivReg) (s : State) : Host.Outcome State Fault Refusal :=
  .next (s.privWrite (.swrp a n) a n)

/-- SWRP of TRAPBASE, or of TRAPBASEHI (R392). -/
def execTrapbaseWrite (hi : Bool) (a : Reg) (s : State) : Host.Outcome State Fault Refusal :=
  let n : PrivReg := if hi then .trapbasehi else .trapbase
  .next (s.privWrite (.swrp a n) a n)

/-- ICINV (R393): the warp's accesses are performed at device scope, then its core's instruction cache drops the context's
lines. -/
def execIcinv (s : State) : Host.Outcome State Fault Refusal :=
  .next (s.issue .icinv { cls := .b } fun s => s.privileged .icinv fun s =>
    if s.mustCommit then .stay s.commitWait
    else
      let s := s.releaseAt .device
      .done (s.freshCode s.warp.key.ctx (some s.warp.core) none))

end Sys2Proof.Machine
end

