-- ==== Sys2Proof/Machine/Streams.lean ====
section
/-! DEFINITION. Streams and the engine instructions (R287 to R302, R325, R326, R426): issue, the checks of descriptors and
graphs, TGLOAD, SWAIT and SPOLL. -/

namespace Sys2Proof.Machine

/-! Codes of R294, R317 and R426. -/

def eBadStream : Nat := 0x01
def eErrStream : Nat := 0x02
def eBadDesc : Nat := 0x03
def eBadFmt : Nat := 0x04
def eTagAhead : Nat := 0x05
def eBadGraph : Nat := 0x06
def eMisalign : Nat := 0x07
def eBufPath : Nat := 0x10
def eBufBound : Nat := 0x11
def eHandle : Nat := 0x12
def eFault : Nat := 0x13
def eTagErr : Nat := 0x14
def eIndex : Nat := 0x15
def eSlot : Nat := 0x16
def ePageCount : Nat := 0x17
def eBadRec : Nat := 0x20
def eCollGroup : Nat := 0x28
def eCollSlot : Nat := 0x29
def eCollPeer : Nat := 0x2A
def eEccErr : Nat := 0x2F

/-- TRAPADDR of ENGINE (R294). -/
def engineAddr (seq code stream : Nat) : DWord := BitVec.ofNat 64 (seq % 2 ^ 32 * 2 ^ 32 + code % 256 * 256 + stream % 16)

/-- A serial number `c` has reached `n` (R288). -/
def seqReached (c n : Word) : Bool := decide ((c - n).toNat < 2 ^ 31)

/-! Storage formats (R79, R80, R87). -/

/-- The element format of a code: itself, or that of a block-scaled form. -/
def fmtElem (c : Nat) : Nat := if c < 17 then c else [4, 5, 6, 7, 8, 11, 13, 10].getD ((c - 17) % 8) 4
def fmtScaled (c : Nat) : Bool := decide (17 ≤ c ∧ c ≤ 32)
/-- Bits per element. -/
def fmtBits (c : Nat) : Nat := [64, 32, 16, 16, 8, 8, 6, 6, 4, 8, 8, 8, 8, 4, 4, 2, 2].getD (fmtElem c) 8

/-! Graphs (R302, R303). -/

structure GNode where
  op : Nat
  p  : Nat
  h  : Nat
  w  : Nat
  q  : Nat
deriving DecidableEq, Repr

def graphCount (g : List Byte) : Nat := bytesAt g 0 1
def graphNodes (g : List Byte) : List GNode :=
  (List.range (graphCount g)).map fun k =>
    let o := 0x40 + 16 * k
    ⟨bytesAt g o 1, bytesAt g (o + 1) 1, bytesAt g (o + 2) 2, bytesAt g (o + 4) 4, bytesAt g (o + 8) 8⟩

/-- A node's parameters are within their limits, the others zero (R303). -/
def GNode.ok (n : GNode) : Bool :=
  match n.op with
  | 1 | 9 | 11 | 12 => n.p == 0 && n.h == 0 && n.w == 0 && n.q == 0
  | 2 => n.p == 0 && n.w == 0 && n.q == 0 && decide (-512 ≤ signedOf 16 n.h ∧ signedOf 16 n.h ≤ 511)
  | 3 => decide (n.p ≤ 5) && n.h == 0 && n.w == 0 && n.q == 0
  | 4 => n.p == 0 && decide (n.q < 2 ^ 48) && bitsOf n.w 0 16 != 0 && bitsOf n.w 16 16 != 0 && n.h != 0
  | 5 | 6 => n.p == 0 && n.h == 0 && decide (1 ≤ n.w ∧ n.w ≤ 2 ^ 24)
  | 7 => decide (n.p ≤ 16) && n.p != 9 && decide (n.h ≤ 5) && n.w == 0 && n.q == 0
  | 8 => decide (n.p ≤ 4) && n.h == 0 && n.w == 0 && n.q == 0
  | 10 => n.p == 0 && n.w == 0 && n.q == 0 && decide (-1100 ≤ signedOf 16 n.h ∧ signedOf 16 n.h ≤ 1100)
  | _ => false

def countOp (l : List Nat) (k : Nat) : Nat := (l.filter (· == k)).length

/-- The operators form a byte graph or a value graph (R302). -/
def graphShapeOk (ops : List Nat) : Bool :=
  match ops with
  | [] => true
  | [11] | [12] => true
  | 1 :: rest =>
    let afterEncode := (rest.dropWhile (· != 8)).drop 1
    countOp rest 1 == 0 && decide (countOp rest 9 ≤ 1 ∧ countOp rest 10 ≤ 1 ∧ countOp rest 8 ≤ 1) &&
      afterEncode.all (· == 11) && rest.dropLast.all fun k => k != 11 && k != 12
  | _ => false

/-- A graph record is well formed (R302). -/
def graphOk (g : List Byte) : Bool :=
  let n := graphCount g
  decide (n ≤ 8) && zeroAt g 1 0x3F && zeroAt g (0x40 + 16 * n) (256 - (0x40 + 16 * n)) &&
    (graphNodes g).all GNode.ok && graphShapeOk ((graphNodes g).map (·.op))

/-- A shape of three extents. -/
structure Shape where
  x0 : Nat
  x1 : Nat
  x2 : Nat
deriving DecidableEq, Repr

def Shape.get (s : Shape) (j : Nat) : Nat := match j with | 0 => s.x0 | 1 => s.x1 | _ => s.x2
def Shape.size (s : Shape) : Nat := s.x0 * s.x1 * s.x2
/-- Output dimension j takes input dimension π(j) (R303). -/
def permOf (p : Nat) : List Nat :=
  [[0, 1, 2], [1, 0, 2], [0, 2, 1], [2, 1, 0], [1, 2, 0], [2, 0, 1]].getD p [0, 1, 2]
def sliceOrigin (n : GNode) (j : Nat) : Nat := bitsOf n.q (16 * j) 16
def sliceExtent (n : GNode) (j : Nat) : Nat := match j with | 0 => bitsOf n.w 0 16 | 1 => bitsOf n.w 16 16 | _ => n.h

/-- The shape after a node; `none` when SLICE cannot take its input (R303). -/
def GNode.shape (n : GNode) (s : Shape) : Option Shape :=
  match n.op with
  | 3 => let p := permOf n.p; some ⟨s.get (p.getD 0 0), s.get (p.getD 1 1), s.get (p.getD 2 2)⟩
  | 4 =>
    if (List.range 3).all fun j => decide (sliceOrigin n j + sliceExtent n j ≤ s.get j) then
      some ⟨sliceExtent n 0, sliceExtent n 1, sliceExtent n 2⟩
    else none
  | 5 | 6 => some ⟨n.w, s.x1, s.x2⟩
  | _ => some s
def shapeAfter (l : List GNode) (s : Shape) : Option Shape := l.foldl (fun a n => a.bind n.shape) (some s)

/-! Descriptors (R299, R300, R326, R426). -/

structure AfterTag where
  seq    : Word
  stream : Fin 16
deriving DecidableEq, Repr

/-- The valid after-tags of a descriptor. -/
def descTags (d : List Byte) : List AfterTag :=
  [0x08, 0x10].filterMap fun o =>
    let t := bytesAt d o 8
    if bitsOf t 31 1 = 1 then some ⟨BitVec.ofNat 32 (bitsOf t 32 32), Fin.ofNat 16 t⟩ else none

def wantsRecord (d : List Byte) : Bool := bitsOf (bytesAt d 1 1) 0 1 == 1
def recordAddr (d : List Byte) : Nat := bytesAt d 0x18 8

/-- The prefix is as R299 states for this kind. -/
def prefixOk (d : List Byte) (kind : Nat) : Bool :=
  bytesAt d 0 1 == kind && decide (bytesAt d 1 1 < 2) && zeroAt d 2 6 &&
    ([0x08, 0x10].all fun o =>
      let t := bytesAt d o 8
      bitsOf t 4 27 == 0 && (bitsOf t 31 1 == 1 || t == 0)) &&
    (!wantsRecord d || recordAddr d % 64 == 0)

/-- An after-tag names no stream of the workgroup, or a number not yet assigned (R294). -/
def Workgroup.tagAhead (g : Workgroup) (streams : Nat) (t : AfterTag) : Bool :=
  decide (streams ≤ t.stream.val) || !seqReached (g.streams[t.stream]).last t.seq

/-- The fields of a copy descriptor (R300). -/
structure CopyDesc where
  ss  : Nat
  sd  : Nat
  fs  : Nat
  fd  : Nat
  rm  : Rm
  src : Nat
  dst : Nat
  box : Shape
  s1  : Nat
  s2  : Nat
  d1  : Nat
  d2  : Nat
  scale : Nat
deriving DecidableEq, Repr

def narrowMode (n : Nat) : Rm := match n with | 2 => .rtz | 3 => .rup | 4 => .rdn | 5 => .rna | _ => .rne

def copyDesc (d : List Byte) : CopyDesc where
  ss := bytesAt d 0x20 1
  sd := bytesAt d 0x21 1
  fs := bytesAt d 0x22 1
  fd := bytesAt d 0x23 1
  rm := narrowMode (bytesAt d 0x24 1)
  src := bytesAt d 0x28 8
  dst := bytesAt d 0x30 8
  box := ⟨bytesAt d 0x38 4, bytesAt d 0x3C 4, bytesAt d 0x40 4⟩
  s1 := bytesAt d 0x48 8
  s2 := bytesAt d 0x50 8
  d1 := bytesAt d 0x58 8
  d2 := bytesAt d 0x60 8
  scale := bytesAt d 0x68 8

/-- The offset that an address field holds in its space: a handle's offset lies in the upper word. -/
def spaceOffset (space v : Nat) : Nat := if space = 0 then v else if space = 5 then v / 2 ^ 32 else v % 2 ^ 32

/-- Limits of a copy descriptor's fields, for BADDESC. -/
def copyFieldsOk (d : List Byte) (encode : Bool) : Bool :=
  let c := copyDesc d
  let n := bytesAt d 0x24 1
  let dimOk (x : Nat) : Bool := decide (1 ≤ x ∧ x ≤ 2 ^ 24)
  let addrOk (space v : Nat) : Bool := !(decide (1 ≤ space ∧ space ≤ 4)) || decide (v < 2 ^ 32)
  decide (c.ss ≤ 5 ∧ c.sd ≤ 5 ∧ c.fs < 64 ∧ c.fd < 64 ∧ n ≤ 5) && zeroAt d 0x25 3 && zeroAt d 0x44 4 && zeroAt d 0x70 16 &&
    addrOk c.ss c.src && addrOk c.sd c.dst && dimOk c.box.x0 && dimOk c.box.x1 && dimOk c.box.x2 &&
    (fmtScaled c.fs || c.scale == 0) && (!encode || c.sd == 0 || c.sd == 4 || c.sd == 5)

/-- An address or stride of a box that breaks the alignment of its element format (R300). -/
def boxMisaligned (fmt at_ a b : Nat) : Bool :=
  let w := fmtBits fmt
  if 16 ≤ w then at_ % (w / 8) != 0 || a % (w / 8) != 0 || b % (w / 8) != 0
  else w == 6 && (a % 3 != 0 || b % 3 != 0)

/-- The codes that a copy's checks fail with (R294, R300 to R306). `graph` is `none` when the selector names no graph. A destination
format outside the table fails under ENCODE too, which ignores the field otherwise (log entry 106). -/
def copyCodes (d : List Byte) (graph : Option (List Byte)) : List Nat :=
  let c := copyDesc d
  let nodes := graphNodes (graph.getD [])
  let ops := nodes.map (·.op)
  let encode := ops.contains 8
  let value := ops.head? == some 1
  let out := shapeAfter nodes c.box
  if !prefixOk d 1 || !copyFieldsOk d encode then [eBadDesc]
  else if 33 ≤ c.fs ∨ 33 ≤ c.fd then [eBadFmt]
  else
    (if (graph.isSome && !value && c.fs != c.fd) || (value && !encode && (c.fd == 9 || fmtScaled c.fd)) then [eBadFmt] else []) ++
    (match out with
     | none => [eBadGraph]
     | some s => if encode && s.x0 % 16 != 0 then [eBadGraph] else []) ++
    (if boxMisaligned c.fs (spaceOffset c.ss c.src) c.s1 c.s2 ||
        (if encode then spaceOffset c.sd c.dst % 8 != 0 else boxMisaligned c.fd (spaceOffset c.sd c.dst) c.d1 c.d2) then
      [eMisalign] else [])

/-- The fields of an MMA descriptor (R326). -/
structure MmaDesc where
  a : Nat
  b : Nat
  c : Nat
  m : Nat
  k : Nat
  fmt : Nat
  zeroFirst : Bool
  int  : Bool
  slot : Nat
  sa : Nat
  sb : Nat
  sc : Nat
deriving DecidableEq, Repr

def mmaDesc (d : List Byte) : MmaDesc where
  a := bytesAt d 0x20 4
  b := bytesAt d 0x24 4
  c := bytesAt d 0x28 4
  m := bytesAt d 0x2C 2
  k := bytesAt d 0x2E 2
  fmt := bytesAt d 0x30 1
  zeroFirst := bitsOf (bytesAt d 0x31 1) 0 1 == 1
  int := bitsOf (bytesAt d 0x31 1) 1 1 == 1
  slot := bytesAt d 0x32 1
  sa := bytesAt d 0x34 4
  sb := bytesAt d 0x38 4
  sc := bytesAt d 0x3C 4

/-- Bytes of a record of a class (R314). -/
def recordBytes (cls : Nat) : Nat := [24, 32, 32, 48, 64].getD cls 64
/-- Bytes of an activation (R326). -/
def actBytes (fmt : Nat) : Nat := if fmt = 2 ∨ fmt = 3 then 2 else 1

def mmaCodes (d : List Byte) : List Nat :=
  let x := mmaDesc d
  let known := [2, 3, 4, 5, 11].contains x.fmt
  let fields := decide (x.a % 16 = 0 ∧ x.b % 8 = 0 ∧ x.c % 16 = 0 ∧ 4 ≤ x.m ∧ x.m ≤ 256 ∧ x.m % 4 = 0 ∧ 16 ≤ x.k ∧ x.k ≤ 4096 ∧
    x.k % 16 = 0 ∧ x.fmt < 64 ∧ bytesAt d 0x31 1 < 4 ∧ x.slot ≤ 4 ∧ bytesAt d 0x33 1 = 0 ∧ x.sa % 16 = 0 ∧ x.sb % 8 = 0 ∧
    x.k / 16 * recordBytes x.slot ≤ x.sb ∧ x.sc % 16 = 0 ∧ 256 ≤ x.sc)
  (if prefixOk d 2 && fields && (!known || decide (x.k * actBytes x.fmt ≤ x.sa)) then [] else [eBadDesc]) ++
    (if known && (!x.int || x.fmt == 11) then [] else [eBadFmt])

/-- The fields of a collective descriptor (R426). -/
structure CollDesc where
  group : Nat
  op    : Nat
  ty    : Nat
  tag   : Word
  src   : Nat
  dst   : Nat
  elems : Nat
  first : Nat
  slots : Nat
deriving DecidableEq, Repr

def collDesc (d : List Byte) : CollDesc where
  group := bytesAt d 0x20 2
  op := bytesAt d 0x22 1
  ty := bytesAt d 0x23 1
  tag := BitVec.ofNat 32 (bytesAt d 0x24 4)
  src := bytesAt d 0x28 8
  dst := bytesAt d 0x30 8
  elems := bytesAt d 0x38 4
  first := bytesAt d 0x3C 2
  slots := bytesAt d 0x3E 2

/-- The type of a collective (R426). -/
def collType (code : Nat) : Option Ty :=
  ([.i32, .n32, .i64, .n64, .f16x2, .bf16x2, .f32, .f64] : List Ty).find? fun t => t.code == code
def collOp (n : Nat) : XOp :=
  match n with | 0 => .add | 1 => .min | 2 => .max | 3 => .and | 4 => .or | _ => .xor

def State.collCodes (s : State) (ctx : Nat) (d : List Byte) : List Nat :=
  let x := collDesc d
  let ty := collType x.ty
  let w := ((ty.map Ty.elemBits).getD 8) / 8
  let fields := decide (x.group ≤ 63 ∧ 1 ≤ x.elems ∧ x.elems ≤ 2 ^ 24 ∧ 1 ≤ x.slots ∧ x.first + x.slots ≤ 4096 ∧
    x.src % w = 0 ∧ x.dst % w = 0)
  (if prefixOk d 3 && fields then [] else [eBadDesc]) ++
    (match ty with
     | none => [eBadFmt]
     | some t => if 5 < x.op ∨ (3 ≤ x.op ∧ t.isFloat) then [eBadFmt] else []) ++
    (if s.collGroups.any fun g => g.ctx == ctx && g.num == x.group then [] else [eCollGroup])

/-! Issue (R293 to R295). -/

def EngineKind.code : EngineKind → Nat
  | .copy => 1 | .mma => 2 | .coll => 3
def EngineKind.descBytes : EngineKind → Nat
  | .copy => 128 | _ => 64

/-- Commands of this kind that occupy a window entry of the core, or for COLL of its compute die (R287, R291, R324, R428): an MMA
leaves the array queue when its workgroup is swapped out. -/
def State.windowUsed (s : State) (kind : EngineKind) (core : Nat) : Nat :=
  let perDie := Config.cores s.member / Config.dies s.member
  ((s.groups.filter fun g => (g.state != .swapped || kind == .copy) && g.state != .planted &&
      (if kind = .coll then g.core / perDie == core / perDie else g.core == core)).map fun g =>
    (g.streams.toList.map fun st => (st.commands.filter fun c => c.kind == kind).length).sum).sum
def EngineKind.window : EngineKind → Nat
  | .copy => 128 | .mma => 16 | .coll => 32

/-- A record that an engine instruction reads: ALIGN unless 64-byte aligned, faults as a load; its bytes are read as relaxed
LS loads (R295, R298). While the read is parked the warp's other splits may issue (log entry 107). -/
def State.readRecord (s : State) (va : DWord) (n : Nat) (rule : List Byte → State → Res) : Res :=
  if va.toNat % 64 ≠ 0 then .trap s .align va
  else
    let (r, s) := s.translateEach .load ((List.range (n / 16)).map fun k => ((none : Option Lane), va + BitVec.ofNat 64 (16 * k)))
    match firstFault r with
    | some (x, a) => s.faultRes x .load a false
    | none =>
      let places := placed (translated r)
      s.inOrder 16 places fun s =>
        let (vals, s) := s.readEach 16 places
        rule (vals.flatMap fun x => leBytes 16 x.2) s

/-- The graph that CPY's selector names: `none` when it names none (R297). -/
def Workgroup.graphOf (g : Workgroup) (sel : Nat) : Option (List Byte) :=
  if sel = 0 then some []
  else if sel ≤ 16 then
    let x := g.graphs[(Fin.ofNat 16 (sel - 1))]
    if x = [] then none else some x
  else none

/-- Codes of every check of an issue. -/
def State.issueCodes (s : State) (kind : EngineKind) (d : List Byte) (sel : Nat) : List Nat :=
  let g := s.wg
  (match kind with
   | .copy =>
     if 32 ≤ sel then eBadDesc :: copyCodes d none
     else (if (g.graphOf sel).isNone then [eBadGraph] else []) ++ copyCodes d (g.graphOf sel)
   | .mma => (if sel ≠ 0 then [eBadDesc] else []) ++ mmaCodes d
   | .coll => (if sel ≠ 0 then [eBadDesc] else []) ++ s.collCodes s.warp.key.ctx d) ++
  (if (descTags d).any fun t => g.tagAhead s.hdr.streams t then [eTagAhead] else [])

def lowestCode (l : List Nat) : Option Nat := l.foldl (fun m c => match m with
  | none => some c
  | some x => some (min x c)) none

def Command.new (kind : EngineKind) (seq : Word) (d graph : List Byte) (w : WarpKey) (index quantum : Nat) : Command where
  kind := kind
  seq := seq
  desc := d
  graph := graph
  running := false
  progress := 0
  tally := Tally.zero
  parked := none
  warp := w
  index := index
  quantum := quantum
  contributed := false
  fail := (0, 0)
  whole := 0
  ahead := none
  kept := Tally.zero
  stopped := none
  spoilt := false

/-- CPY, MMA and COLL (R295). -/
def State.engineRule (s : State) (kind : EngineKind) (d a b : Reg) (x : Fin 16) : Res :=
  let trap (s : State) (code : Nat) : Res := .trap s .engine (engineAddr 0 code x.val)
  if s.hdr.streams ≤ x.val then trap s eBadStream
  else if (s.wg.streams[x]).err ≠ 0 then trap s eErrStream
  else s.readRecord (s.warp.s64 a) kind.descBytes fun desc s =>
    let sel := (s.warp.s b).toNat
    match lowestCode (s.issueCodes kind desc sel) with
    | some c => trap s c
    | none =>
      if kind.window ≤ s.windowUsed kind s.warp.core then .stay (s.setWait .window)
      else
        let n := (s.wg.streams[x]).last + 1
        let graph := if kind = .copy then (s.wg.graphOf sel).getD [] else []
        let cmd := Command.new kind n desc graph s.warp.key s.warp.issued (s.warp.clock.toNat / s.quantum)
        let s := s.modWg fun g => { g with
          streams := g.streams.set x { g.streams[x] with last := n, commands := (g.streams[x]).commands ++ [cmd] } }
        .done (s.modWarp fun w => w.setS d n)

def engineUse (d a b : Reg) : Use := { sr := [a.val, a.val + 1, b.val], sw := [d.val] }

/-- CPY (R295). -/
def execCpy (d a b : Reg) (stream : Fin 16) (s : State) : Host.Outcome State Fault Refusal :=
  .next (s.issue (.cpy d a b stream) { use := engineUse d a b } fun s => s.engineRule .copy d a b stream)

/-- MMA (R325). -/
def execMma (d a b : Reg) (stream : Fin 16) (s : State) : Host.Outcome State Fault Refusal :=
  .next (s.issue (.mma d a b stream) { use := engineUse d a b } fun s => s.engineRule .mma d a b stream)

/-- COLL (R426). -/
def execColl (d a b : Reg) (stream : Fin 16) (s : State) : Host.Outcome State Fault Refusal :=
  .next (s.issue (.coll d a b stream) { use := engineUse d a b } fun s => s.engineRule .coll d a b stream)

/-- TGLOAD (R298). -/
def execTgload (d a b : Reg) (s : State) : Host.Outcome State Fault Refusal :=
  .next (s.issue (.tgload d a b) { cls := .b, use := engineUse d a b } fun s =>
    s.readRecord (s.warp.s64 a) 256 fun rec s =>
      let slot := (s.warp.s b).toNat
      if 16 ≤ slot ∨ !graphOk rec then .trap s .engine (engineAddr 0 eBadGraph 0)
      else
        let n := graphCount rec
        .done ((s.modWg fun g => { g with graphs := g.graphs.set (Fin.ofNat 16 slot) (if n = 0 then [] else rec) }).modWarp
          fun w => w.setS d (BitVec.ofNat 32 n)))

/-! SWAIT and SPOLL. -/

/-- What SWAIT meets on its stream: its error, its counter, or neither yet (R296). -/
inductive Swait where
  | error (addr : DWord)
  | reached (c : Word)
  | wait
deriving DecidableEq, Repr

def Stream.swait (st : Stream) (x : Nat) (t : Word) : Swait :=
  if st.err ≠ 0 ∧ seqReached t st.errSeq then .error (engineAddr st.errSeq.toNat (bitsOf st.err.toNat 8 8) x)
  else if seqReached st.counter t then .reached st.counter
  else .wait

/-- The clock with which a SWAIT counts and retires in deterministic mode (R355): 1 less here, for its own count. -/
def State.swaitClock (s : State) (w : Warp) : Warp := if s.det then { w with clock := s.quantumEnd w.clock - 1 } else w

/-- SWAIT (R296). -/
def execSwait (d b : Reg) (stream : Fin 16) (s : State) : Host.Outcome State Fault Refusal :=
  .next (s.issue (.swait d b stream) { cls := .b, use := { sr := [b.val], sw := [d.val] } } fun s =>
    let t := s.warp.s b
    if s.hdr.streams ≤ stream.val then .trap s .engine (engineAddr 0 eBadStream stream.val)
    else
      let st := s.wg.streams[stream]
      if !seqReached st.last t then .trap s .engine (engineAddr 0 eTagAhead stream.val)
      else match st.swait stream.val t with
        | .error a => .trap s .engine a
        | _ => if s.det && s.beyond (s.quantumEnd s.warp.clock).toNat then .stay s else match st.swait stream.val t with
        | .error a => .trap s .engine a
        | .reached c => .done ((s.modWarp s.swaitClock).modWarp fun w => w.setS d c)
        | .wait =>
          .stay ((s.modWarp fun w => if s.det then { w with clock := s.quantumEnd w.clock } else w).setWait (.swait d t stream)))

/-- SPOLL (R297). -/
def execSpoll (d b : Reg) (stream : Fin 16) (s : State) : Host.Outcome State Fault Refusal :=
  .next (s.issue (.spoll d b stream) { use := { sw := [d.val, b.val] } } fun s =>
    if s.hdr.streams ≤ stream.val then .trap s .engine (engineAddr 0 eBadStream stream.val)
    else
      let st := s.wg.streams[stream]
      .done (s.modWarp fun w => (w.setS d st.counter).setS b st.err))

end Sys2Proof.Machine
end

