-- ==== Sys2Proof/Machine/Formats.lean ====
section
/-! DEFINITION. Storage formats as exact values (R79 to R94), the lattice of sorted groups (R96) and the sorted-group record,
written and read (R306, R313 to R317). -/

namespace Sys2Proof.Machine

/-- The binary format of a floating storage code (R83, R84). -/
def fmtFloat (c : Nat) : Option FFmt := [f64F, f32F, f16F, bf16F, e4m3F, e5m2F, e2m3F, e3m2F, e2m1F][c]?

/-- Range of an integer storage code 11 to 16 (R82). -/
def fmtRange (c : Nat) : Int × Int :=
  match c with
  | 11 => (-128, 127) | 12 => (0, 255) | 13 => (-8, 7) | 14 => (0, 15) | 15 => (-2, 1) | _ => (-1, 1)
def fmtInt (c : Nat) : Bool := decide (11 ≤ c ∧ c ≤ 16)

/-- The integer that a code of an integer format stands for (R82). -/
def fmtIntVal (c x : Nat) : Int :=
  match c with
  | 11 => signedOf 8 x | 12 => ((x % 256 : Nat) : Int) | 13 => signedOf 4 x | 14 => ((x % 16 : Nat) : Int)
  | 15 => signedOf 2 x
  | _ => match x % 4 with | 1 => 1 | 3 => -1 | _ => 0

/-- An element of a plain format as an exact value (R82 to R85). -/
def fmtDecode (c x : Nat) : FVal :=
  match fmtFloat c with
  | some f => f.decode x
  | none =>
    if c = 9 then (if x % 256 = 255 then .nan false else .fin false 1 ((x % 256 : Nat) - 127))
    else if c = 10 then FVal.ofInt (ts8Value (x % 256)) 0 false
    else FVal.ofInt (fmtIntVal c x) 0 false

/-- An element of a block-scaled form with its scale byte (R87); `e4m3` says which scale. A NaN scale makes a NaN of any
element, an E5M2 infinity with them (log entry 88). -/
def scaledValue (e4m3 : Bool) (v : FVal) (scale : Nat) : FVal :=
  let s := if e4m3 then e4m3F.decode scale else fmtDecode 9 scale
  match s, v with
  | .nan _, _ => .nan false
  | _, .nan b => .nan b
  | s, .inf n => .inf (n != s.neg)
  | s, .fin n m e => match s with
    | .fin sn 0 _ => .fin (n && !sn) 0 e
    | .fin sn k ex => .fin (n != sn) (m * k) (e + ex)
    | _ => .nan false

/-- A value narrowed to an integer storage format: an integer value saturates and raises nothing, a floating one follows the
mode and raises NV or NX (R94). -/
def fmtIntEncode (c : Nat) (rm : Rm) (int : Bool) (v : FVal) : Nat × Nat :=
  let (lo, hi) := fmtRange c
  let w := fmtBits c
  match v with
  | .nan _ => (0, flNV)
  | .inf n => (wrapTo w (if n then lo else hi), flNV)
  | .fin n m e =>
    let (k, inexact) := roundInt rm 0 n ⟨m, e, false⟩
    let x : Int := if n then -(k : Int) else k
    if x < lo then (wrapTo w lo, if int then 0 else flNV)
    else if hi < x then (wrapTo w hi, if int then 0 else flNV)
    else (wrapTo w x, if inexact then flNX else 0)

/-- RoundTo a plain storage format (R304): code and flags. `int` says that the values are integers. -/
def fmtEncode (c : Nat) (rm : Rm) (int : Bool) (v : FVal) : Nat × Nat :=
  match fmtFloat c with
  | some f => f.ofVal rm 0 v
  | none => if c = 10 then ts8OfVal rm 0 v else fmtIntEncode c rm int v

/-! The lattice (R96). -/

/-- A finite value in units of 2^e, by RNE, and whether that was inexact. -/
def levelOf (v : FVal) (e : Int) : Int × Bool :=
  match v with
  | .fin n m x =>
    let (k, i) := roundInt .rne 0 n ⟨m, x - e, false⟩
    (if n then -(k : Int) else k, i)
  | _ => (0, false)

def latticeMax : Int := 2 ^ 23 - 1

/-- A group on the lattice: levels, exponent code, saturated, inexact. -/
structure Lattice where
  q    : List Int
  code : Nat
  sat  : Bool
  inexact : Bool
deriving DecidableEq, Repr

def FVal.finite : FVal → Bool
  | .fin _ _ _ => true
  | _ => false

/-- floor(log2) of a nonzero finite value. -/
def FVal.log2? : FVal → Option Int
  | .fin _ m e => if m = 0 then none else some ((floorLog2 m : Int) + e)
  | _ => none
def maxLog2 (l : List FVal) : Option Int :=
  l.foldl (fun a v => match a, v.log2? with
    | some x, some y => some (max x y)
    | none, y => y
    | x, none => x) none

/-- The mapping of R96. -/
def toLattice (w : List FVal) : Lattice :=
  let levels (e : Int) : List (Int × Bool) := w.map fun v => levelOf v e
  let big (l : List (Int × Bool)) (p : Nat → Bool) : Bool := l.any fun x => p x.1.natAbs
  if !w.all FVal.finite then ⟨w.map fun _ => 0, 0xFF, false, false⟩
  else match maxLog2 w with
    | none => ⟨w.map fun _ => 0, 0, false, false⟩
    | some top =>
      let e := if big (levels (top - 22)) (· == 2 ^ 23) then top - 21 else top - 22
      let e := if e < -127 then -127 else e
      let l := levels e
      if 127 < e ∨ big l (2 ^ 23 ≤ ·) then
        ⟨l.map fun x => max (-latticeMax) (min latticeMax x.1), 254, true, l.any (·.2)⟩
      else ⟨l.map (·.1), (e + 127).toNat, false, l.any (·.2)⟩

/-! The record (R313, R314, R316, R317). -/

/-- Width of a class's difference codes. -/
def classWidth (cls : Nat) : Nat := [4, 8, 8, 16, 24].getD cls 24

/-- 2^h divides every difference, h at most 23 (R316). -/
def commonShift (d : List Int) : Nat :=
  if d.all (· == 0) then 0
  else ((List.range 24).filter fun h => d.all fun x => x % 2 ^ h == 0).getLastD 0

/-- The class of a group's units (R316). -/
def classOf (u : List Int) : Nat :=
  if u.all (· ≤ 15) then 0 else if u.all (· ≤ 255) then 1
  else if u.all fun x => (ts8Code x).isSome then 2 else if u.all (· ≤ 65535) then 3 else 4

def twos (w : Nat) (v : Int) : Nat := wrapTo w v

/-- A group encoded: the record's bytes, its class, and bits 5 and 6 of the completion flags (R306, R316). -/
def encodeGroup (w : List FVal) : List Byte × Nat × Nat :=
  let t := toLattice w
  let order := sortBy (fun a b => decide (t.q.getD a 0 < t.q.getD b 0) || (t.q.getD a 0 == t.q.getD b 0 && decide (a ≤ b)))
    (List.range 16)
  let q (k : Nat) : Int := t.q.getD (order.getD k 0) 0
  let d := (List.range 15).map fun k => q (k + 1) - q k
  let h := commonShift d
  let u := d.map fun x => x / 2 ^ h
  let cls := classOf u
  let width := classWidth cls
  let codes := u.map fun x => if cls = 2 then (ts8Code x).getD 0x88 else x.toNat
  let fl := (if t.sat then 0x20 else 0) + if t.inexact then 0x40 else 0
  let hdr := twos 24 (q 15) * 2 ^ 40 + t.code * 2 ^ 32 + cls * 2 ^ 29 + h * 2 ^ 24 + fl
  let perm := packElems 4 order
  (leBytes 8 hdr ++ leBytes 8 perm ++ leBytes (recordBytes cls - 16) (packElems width codes), cls, fl)

/-- A record as the array reads it: the largest level, the exponent code, the permutation, the differences. -/
structure GroupRec where
  base : Int
  code : Nat
  perm : List Nat
  d    : List Int
deriving DecidableEq, Repr

/-- The record in a slot, given the slot's bytes; `none` when it is malformed (R317). -/
def parseRecord (slot : List Byte) (slotClass : Nat) : Option GroupRec :=
  let hdr := bytesAt slot 0 8
  let perm := bytesAt slot 8 8
  let cls := bitsOf hdr 29 3
  let h := bitsOf hdr 24 5
  let w := classWidth cls
  if 4 < cls ∨ recordBytes slotClass < recordBytes cls ∨ 24 ≤ h ∨ bitsOf hdr 7 17 ≠ 0 ∨ bitsOf hdr 0 5 ≠ 0 then none
  else
    let region := bytesAt slot 16 (recordBytes cls - 16)
    let p := (List.range 16).map fun k => bitsOf perm (4 * k) 4
    let u : List Int := (List.range 15).map fun k =>
      let c := bitsOf region (w * k) w
      if cls = 2 then ts8Value c else (c : Int)
    let d := u.map (· * 2 ^ h)
    let base := signedOf 24 (bitsOf hdr 40 24)
    if region / 2 ^ (15 * w) ≠ 0 ∨ !((List.range 16).all fun j => p.contains j) ∨ u.any (· < 0) ∨
        base - d.foldl (· + ·) 0 < -latticeMax then none
    else some ⟨base, bitsOf hdr 32 8, p, d⟩

end Sys2Proof.Machine
end

