-- ==== Sys2Proof/Machine/Copy.lean ====
section
/-! DEFINITION. What the copy engine does in one chunk of its write order (R193, R194, R300 to R312). -/

namespace Sys2Proof.Machine

/-- What stops an engine's access: a translation that does not proceed, or a run-time failure with its code and address
(R290, R294). -/
inductive Stop where
  | fault (x : XFault) (kind : AccessKind) (va : Nat)
  | fail (code at_ : Nat)
deriving DecidableEq, Repr

/-! Accesses on the CP path (R187, R198, R201, R213). -/

/-- Where a byte lies (R310): in memory, behind a mapping yet to be made or split, or in a buffer. -/
inductive BytePlace where
  | mem (pa : Nat)
  | page (va : Nat)
  | buf (home : WgKey) (b : Buf) (o : Nat)
deriving DecidableEq, Repr

/-- A copy as it is carried out: the state, its workgroup and its descriptor's fields. -/
structure CopyEnv where
  s : State
  g : WgKey
  st : Fin 16
  c : CopyDesc
  /-- Where the copy's own source, tables and record lie, when its destination overlaps them (R310). -/
  own : List BytePlace

/-- A copy goes on from a state; one that overwrites its own inputs reads them as they were (R310). -/
def CopyEnv.on (e : CopyEnv) (s : State) : CopyEnv := if e.own.isEmpty then { e with s := s } else e

def bufOfSpace (n : Nat) : Buf := match n with | 1 => .sb | 2 => .ab | 3 => .cb | _ => .wb

/-- The checks of a direct buffer access by a command (R201). -/
def State.cpCheck (s : State) (g : WgKey) (b : Buf) (o n : Nat) (write : Bool) : Option Stop :=
  if b = .wb ∧ !write then some (.fail eBufPath o)
  else if s.bufSize g b < o + n then some (.fail eBufBound o)
  else if s.lentOut g b o n then some (.fail eHandle o)
  else none

/-- The checks of an access through a handle (R213): the home, the buffer and the offset in it. -/
def State.cpHandle (s : State) (g : WgKey) (h o n : Nat) (write : Bool) : Except Stop (WgKey × Buf × Nat) :=
  match s.heldHandle g (BitVec.ofNat 32 h) with
  | none => .error (.fail eHandle o)
  | some (home, i) =>
    let x := s.slotOf home i
    if x.buf = .wb ∧ !write then .error (.fail eBufPath o)
    else if x.size < o + n then .error (.fail eBufBound o)
    else .ok (home, x.buf, x.base + o)

/-- Bytes of a global address. -/
def State.cpGlobal (s : State) (ctx va n : Nat) (kind : AccessKind) : Except Stop (List Byte) :=
  match (s.homeReadVa fabric ctx kind false (va % 2 ^ 64) n).1 with
  | .ok b => .ok b
  | .error (x, a) => .error (.fault x kind a)

/-- Bytes of a space, from offset or address `o`; `v` is the descriptor's field, which holds a handle's value. -/
def State.cpRead (s : State) (g : WgKey) (space v o n : Nat) : Except Stop (List Byte) :=
  if space = 0 then s.cpGlobal g.ctx o n .copyRead
  else if space = 5 then
    match s.cpHandle g (v % 2 ^ 32) o n false with
    | .error e => .error e
    | .ok (home, b, at_) => .ok (s.bufRead home b at_ n)
  else
    match s.cpCheck g (bufOfSpace space) o n false with
    | some e => .error e
    | none => .ok (s.bufRead g (bufOfSpace space) o n)

/-- A command's write at a place: now, or left to be performed later (R242). `mma` says that it belongs to a tile. -/
def State.enginePut (s : State) (g : WgKey) (mma : Bool) (p : Spot) (bytes : List Byte) : State :=
  let x : LateWrite := ⟨none, g, 0, false, p, bytes, none, none, 0, none, mma⟩
  if s.slow then { s with late := s.late ++ [x] } else s.performLate x
def State.cpPut (s : State) (g : WgKey) (p : Spot) (bytes : List Byte) : State := s.enginePut g false p bytes
/-- A write to a buffer, in the naturally aligned pieces of 16 bytes that another path may see apart (R203). -/
def State.cpPutBuf (s : State) (g home : WgKey) (b : Buf) (o : Nat) (bytes : List Byte) : State :=
  (chunks16 (bytes.length + 1) o bytes.length).foldl (fun s c =>
    s.cpPut g (.buffer home b c.1) ((bytes.drop (c.1 - o)).take c.2)) s

/-- Write bytes at a global address piece by piece; a copy-on-write in the way is served. -/
def State.cpWriteGlobal (s : State) (g : WgKey) (va : Nat) (bytes : List Byte) : Option Stop × State :=
  (chunks16 (bytes.length + 1) va bytes.length).foldl (fun acc c =>
    match acc with
    | (some e, s) => (some e, s)
    | (none, s) =>
      let a : DWord := BitVec.ofNat 64 c.1
      let put (t : Xlat) (s : State) : State := s.cpPut g (.global t.pa t.key) ((bytes.drop (c.1 - va)).take c.2)
      match s.translate fabric g.ctx a .copyWrite false with
      | (.ok t, s) => (none, put t s)
      | (.error .cow, s) => match s.cowServe g.ctx a with
        | (false, s) => (some (.fault .pool .copyWrite c.1), s)
        | (true, s) => match s.translate fabric g.ctx a .copyWrite false with
          | (.ok t, s) => (none, put t s)
          | (.error x, s) => (some (.fault x .copyWrite c.1), s)
      | (.error x, s) => (some (.fault x .copyWrite c.1), s)) (none, s)

/-- Write bytes to a space. -/
def State.cpWrite (s : State) (g : WgKey) (space v o : Nat) (bytes : List Byte) : Option Stop × State :=
  let n := bytes.length
  if space = 0 then s.cpWriteGlobal g (o % 2 ^ 64) bytes
  else if space = 5 then
    match s.cpHandle g (v % 2 ^ 32) o n true with
    | .error e => (some e, s)
    | .ok (home, b, at_) => (none, s.cpPutBuf g home b at_ bytes)
  else
    match s.cpCheck g (bufOfSpace space) o n true with
    | some e => (some e, s)
    | none => (none, s.cpPutBuf g g (bufOfSpace space) o bytes)

/-- The byte that a masked write keeps bits of. -/
def State.cpOld (s : State) (g : WgKey) (space v o : Nat) : Byte :=
  if space = 0 then match s.cpGlobal g.ctx o 1 .copyRead with
    | .ok b => b.getD 0 0
    | .error _ => 0
  else if space = 5 then match s.cpHandle g (v % 2 ^ 32) o 1 true with
    | .ok (home, b, at_) => (s.bufRead home b at_ 1).getD 0 0
    | .error _ => 0
  else (s.bufRead g (bufOfSpace space) o 1).getD 0 0

/-- The place of a space's byte (R310). -/
def State.placeOf (s : State) (g : WgKey) (space v o : Nat) : BytePlace :=
  if space = 0 then
    let a := o % 2 ^ 64
    match s.walk g.ctx a with
    | .ok (e, l, _) => if entryBit e 5 then .page a else .mem (State.leafPa e (leafSize l) a)
    | .error _ => .page a
  else if space = 5 then
    match s.heldHandle g (BitVec.ofNat 32 (v % 2 ^ 32)) with
    | some (home, i) => .buf home (s.slotOf home i).buf ((s.slotOf home i).base + o)
    | none => .page o
  else .buf g (bufOfSpace space) o

/-- Bytes with the bits of each that are written (R303, R309). -/
abbrev Masked := List (Byte × Byte)

/-- Write masked bytes of stream `st`'s command: whole ones together, the others one by one, at once, with the bits they keep. -/
def State.cpWriteMasked (s : State) (g : WgKey) (st : Fin 16) (space v o : Nat) (l : Masked) : Option Stop × State :=
  if l.all fun x => x.2 == 0xFF#8 then s.cpWrite g space v o (l.map (·.1))
  else
    let slow := s.slow
    let s := { (s.performStream g st).performStep g with slow := false }
    let d := l.zipIdx.foldl (fun (acc : Option Stop × State) (x : (Byte × Byte) × Nat) =>
    match acc with
    | (some e, s) => (some e, s)
    | (none, s) =>
      if x.1.2 = 0 then (none, s)
      else s.cpWrite g space v (o + x.2) [(x.1.1 &&& x.1.2) ||| (s.cpOld g space v (o + x.2) &&& ~~~x.1.2)]) (none, s)
    (d.1, { d.2 with slow := slow })
/-- Bytes of a write from `o` on that stand when it is stopped. -/
def Stop.after (x : Stop) (o : Nat) : Nat :=
  match x with
  | .fault _ _ va => va - o % 2 ^ 64
  | .fail _ at_ => at_ - o

/-- What a copy reads. -/
def CopyEnv.read (e : CopyEnv) (space v o n : Nat) : Except Stop (List Byte) := e.s.cpRead e.g space v o n

/-! The value stream (R303). -/

/-- A node with the shape it takes and the index table it reads. -/
structure LoadedNode where
  n     : GNode
  input : Shape
  table : List Nat
deriving DecidableEq, Repr

/-- Nodes with their shapes and tables; the tables are read on the CP path. -/
def CopyEnv.load (e : CopyEnv) : List GNode → Shape → Except Stop (List LoadedNode)
  | [], _ => .ok []
  | n :: ns, sh =>
    let count := match n.op with
      | 5 => n.w
      | 6 => sh.x0
      | _ => 0
    match e.read 0 0 n.q (4 * count) with
    | .error x => .error x
    | .ok bytes =>
      let table := (List.range count).map fun k => bytesAt bytes (4 * k) 4
      match CopyEnv.load e ns ((n.shape sh).getD sh) with
      | .error x => .error x
      | .ok rest => .ok (⟨n, sh, table⟩ :: rest)

/-- The bits of a source element. -/
def CopyEnv.srcBits (e : CopyEnv) (i0 i1 i2 : Nat) : Except Stop Nat :=
  let w := fmtBits e.c.fs
  let row := spaceOffset e.c.ss e.c.src + i1 * e.c.s1 + i2 * e.c.s2
  let lo := i0 * w / 8
  let hi := (i0 * w + w + 7) / 8
  match e.read e.c.ss e.c.src (row + lo) (hi - lo) with
  | .error x => .error x
  | .ok b => .ok (bitsOf (ofLeBytes b) (i0 * w - 8 * lo) w)

/-- A source element as an exact value, its block's scale applied (R87, R300). -/
def CopyEnv.srcValue (e : CopyEnv) (i0 i1 i2 : Nat) : Except Stop FVal :=
  match e.srcBits i0 i1 i2 with
  | .error x => .error x
  | .ok b =>
    let v := fmtDecode (fmtElem e.c.fs) b
    if !fmtScaled e.c.fs then .ok v
    else
      let at_ := e.c.scale + (i2 * e.c.box.x1 + i1) * ((e.c.box.x0 + 15) / 16) + i0 / 16
      match e.read 0 0 at_ 1 with
      | .error x => .error x
      | .ok s => .ok (scaledValue (decide (25 ≤ e.c.fs)) v (ofLeBytes s))

/-- The mode of a CAST (R303). -/
def castMode (n : GNode) (mode : Rm) : Rm :=
  match n.h % 8 with | 1 => .rne | 2 => .rtz | 3 => .rup | 4 => .rdn | 5 => .rna | _ => mode

/-- The values that enter a list of nodes are integers (R94): those of an integer format, until SCALE or CAST. `l` is in
reverse order. -/
def valuesInt (fs : Nat) : List LoadedNode → Bool
  | [] => fmtInt fs
  | t :: ts => if t.n.op = 2 then false else if t.n.op = 7 then fmtInt t.n.p else valuesInt fs ts

/-- SCALE and CAST on one value; `int` says that the value is an integer's. -/
def GNode.point (n : GNode) (mode : Rm) (int : Bool) (v : FVal) : FVal :=
  match n.op with
  | 2 => match v with
    | .fin s m x => if m = 0 then v else .fin s m (x + signedOf 16 n.h)
    | v => v
  | 7 => fmtDecode n.p (fmtEncode n.p (castMode n mode) int v).1
  | _ => v

def GNode.pointwise (n : GNode) : Bool := !(n.op == 3 || n.op == 4 || n.op == 5 || n.op == 6)

/-- The value that leaves a list of nodes, in reverse order, at an index; `none` where SCATTER has put nothing. -/
def CopyEnv.valueAt (e : CopyEnv) : List LoadedNode → Nat → Nat → Nat → Except Stop (Option FVal)
  | [], i0, i1, i2 => match e.srcValue i0 i1 i2 with
    | .error x => .error x
    | .ok v => .ok (some v)
  | t :: ts, i0, i1, i2 =>
    match t.n.op with
    | 3 =>
      let p := permOf t.n.p
      let out (m : Nat) : Nat := match p.idxOf m with | 0 => i0 | 1 => i1 | _ => i2
      CopyEnv.valueAt e ts (out 0) (out 1) (out 2)
    | 4 => CopyEnv.valueAt e ts (sliceOrigin t.n 0 + i0) (sliceOrigin t.n 1 + i1) (sliceOrigin t.n 2 + i2)
    | 5 =>
      let k := t.table.getD i0 0
      if t.input.x0 ≤ k then .error (.fail eIndex 0) else CopyEnv.valueAt e ts k i1 i2
    | 6 =>
      if t.table.any (t.n.w ≤ ·) then .error (.fail eIndex 0)
      else match ((List.range t.input.x0).filter fun k => t.table.getD k 0 == i0).getLast? with
        | some k => CopyEnv.valueAt e ts k i1 i2
        | none => .ok none
    | _ =>
      match CopyEnv.valueAt e ts i0 i1 i2 with
      | .ok (some v) => .ok (some (t.n.point e.c.rm (valuesInt e.c.fs ts) v))
      | r => r

/-! Digest and histogram (R307). -/

/-- Every index of a shape, dimension 0 fastest. -/
def Shape.indices (s : Shape) : List (Nat × Nat × Nat) :=
  (List.range s.size).map fun k => (k % s.x0, k / s.x0 % s.x1, k / s.x0 / s.x1)

/-- The values that have entered a node when `hi` of `total` bytes of the write order are done: in ascending index, as many as
is that part of them (log entry 42). The nodes before it are in reverse order. -/
def CopyEnv.entering (e : CopyEnv) (hi total : Nat) (t : LoadedNode) (before : List LoadedNode) : Except Stop (List FVal) :=
  ((Shape.indices t.input).take ((hi * t.input.size + total - 1) / total)).foldl (fun acc i =>
    match acc with
    | .error x => .error x
    | .ok l => match e.valueAt before i.1 i.2.1 i.2.2 with
      | .error x => .error x
      | .ok (some v) => .ok (v :: l)
      | .ok none => .ok l) (.ok [])

def f64Of (v : FVal) : Nat := (f64F.ofVal .rne 0 v).1
def FVal.magnitude : FVal → FVal
  | .fin _ m e => .fin false m e
  | v => v
def FVal.square : FVal → FVal
  | .fin _ m e => .fin false (m * m) (2 * e)
  | v => v
def exactSum (l : List FVal) : FVal := l.foldl (fun a v => (FVal.add .rne a v).1) (.fin false 0 0)
def sat32 (n : Nat) : Nat := min n (2 ^ 32 - 1)

/-- DIGEST's fields (R307). -/
def Tally.digest (t : Tally) (l : List FVal) : Tally :=
  let fin := l.filter FVal.finite
  { t with
    count := l.length
    nans := (l.filter FVal.isNan).length
    infs := l.length - fin.length - (l.filter FVal.isNan).length
    maxAbs := f64Of (fin.foldl (fun a v => if FVal.lt a v.magnitude then v.magnitude else a) (.fin false 0 0))
    sum := f64Of (exactSum fin)
    squares := f64Of (exactSum (fin.map FVal.square)) }

/-- HIST's fields (R307). -/
def Tally.hist (t : Tally) (h : Nat) (l : List FVal) : Tally :=
  let base := signedOf 16 h
  let bin (v : FVal) : Option Nat := v.log2?.map fun x => (max 0 (min 63 (x - base))).toNat
  let bins := l.filterMap bin
  { t with
    base := h
    zeros := sat32 (l.filter FVal.isZero).length
    bins := (List.range 64).map fun k => sat32 (bins.filter (· == k)).length }

/-- What a copy has recorded of its values when `hi` of `total` bytes of the write order are done (R307, R309; log entry 42):
digest, histogram and the flags of CAST. `before` is in reverse order. -/
def CopyEnv.stats (e : CopyEnv) (hi total : Nat) : List LoadedNode → List LoadedNode → Tally → Except Stop Tally
  | [], _, t => .ok t
  | x :: xs, before, t =>
    if x.n.op = 9 ∨ x.n.op = 10 ∨ x.n.op = 7 then
      match e.entering hi total x before with
      | .error s => .error s
      | .ok l =>
        let t :=
          if x.n.op = 9 then t.digest l
          else if x.n.op = 10 then t.hist x.n.h l
          else { t with flags := l.foldl (fun f v =>
            f ||| (fmtEncode x.n.p (castMode x.n e.c.rm) (valuesInt e.c.fs before) v).2) t.flags }
        CopyEnv.stats e hi total xs (x :: before) t
    else CopyEnv.stats e hi total xs (x :: before) t

/-! The write order (R309). -/

/-- A copy ready to write: its nodes, its output shape and the bits of an output element. -/
structure CopyPlan where
  nodes  : List LoadedNode
  ops    : List Nat
  out    : Shape
  width  : Nat
deriving DecidableEq, Repr

def CopyPlan.value (p : CopyPlan) : Bool := p.ops.head? == some 1
def CopyPlan.encode (p : CopyPlan) : Option Nat := (p.nodes.find? fun t => t.n.op == 8).map (·.n.p)
def CopyPlan.tail (p : CopyPlan) : Nat := if p.ops.getLast? = some 11 then 11 else if p.ops.getLast? = some 12 then 12 else 0
/-- The nodes in reverse order, ENCODE and what follows it left out. -/
def CopyPlan.before (p : CopyPlan) : List LoadedNode := (p.nodes.takeWhile fun t => t.n.op != 8).reverse
/-- The SCATTER that the write order follows: the last node that moves values. -/
def CopyPlan.scatter (p : CopyPlan) : Option LoadedNode :=
  if p.encode.isSome ∨ p.tail = 12 then none
  else match (p.before.dropWhile fun t => t.n.pointwise).head? with
    | some t => if t.n.op = 6 then some t else none
    | none => none

def rowBytes (x0 w : Nat) : Nat := (x0 * w + 7) / 8
/-- The box whose rows the write order goes through. -/
def CopyPlan.orderBox (p : CopyPlan) : Shape := ((p.scatter).map (·.input)).getD p.out
/-- Bytes of the write order. -/
def CopyPlan.total (p : CopyPlan) : Nat :=
  match p.encode with
  | some k => p.out.size / 16 * recordBytes k
  | none => let b := p.orderBox; rowBytes b.x0 p.width * b.x1 * b.x2
/-- Bytes of the destination (R305). -/
def CopyPlan.outBytes (p : CopyPlan) : Nat :=
  match p.encode with
  | some k => p.out.size / 16 * recordBytes k
  | none => rowBytes p.out.x0 p.width * p.out.x1 * p.out.x2
/-- Pages of the destination (R305). -/
def CopyPlan.pages (p : CopyPlan) : Nat := p.outBytes / 4096
/-- Chunks, or for DEDUP pages. -/
def CopyPlan.chunks (p : CopyPlan) : Nat := (p.total + 4095) / 4096

def copyOps (graph : List Byte) : List Nat := (graphNodes graph).map (·.op)
/-- The plan without its tables: shapes only. -/
def barePlan (c : CopyDesc) (graph : List Byte) : CopyPlan :=
  let nodes := graphNodes graph
  let load := (nodes.foldl (fun (acc : List LoadedNode × Shape) n =>
    (acc.1 ++ [⟨n, acc.2, []⟩], (n.shape acc.2).getD acc.2)) ([], c.box))
  ⟨load.1, copyOps graph, load.2, fmtBits (if (copyOps graph).head? = some 1 then c.fd else c.fs)⟩

/-- The code and flags of an output element: its bits moved, or its value narrowed (R301, R304). -/
def CopyEnv.outElem (e : CopyEnv) (p : CopyPlan) (i0 i1 i2 : Nat) : Except Stop (Option (Nat × Nat)) :=
  if !p.value then
    match e.srcBits i0 i1 i2 with
    | .error x => .error x
    | .ok b => .ok (some (b, 0))
  else
    match e.valueAt p.before i0 i1 i2 with
    | .error x => .error x
    | .ok none => .ok none
    | .ok (some v) => .ok (some (fmtEncode (fmtElem e.c.fd) e.c.rm (valuesInt e.c.fs p.before) v))

/-- Bytes `lo` to `hi - 1` of an output row, with the flags of their elements. -/
def CopyEnv.rowPart (e : CopyEnv) (p : CopyPlan) (i1 i2 lo hi : Nat) : Except Stop (Masked × Nat) :=
  let w := p.width
  let e0 := 8 * lo / w
  let e1 := min p.out.x0 ((8 * hi + w - 1) / w)
  let all := (List.range (e1 - e0)).foldl (fun (acc : Except Stop (Nat × Nat × Nat)) k =>
    match acc with
    | .error x => .error x
    | .ok (data, mask, fl) => match e.outElem p (e0 + k) i1 i2 with
      | .error x => .error x
      | .ok none => .ok (data, mask, fl)
      | .ok (some (b, f)) =>
        .ok (data + b % 2 ^ w * 2 ^ (w * k), mask + (2 ^ w - 1) * 2 ^ (w * k), fl ||| f)) (.ok (0, 0, 0))
  match all with
  | .error x => .error x
  | .ok (data, mask, fl) =>
    let sh := 8 * lo - e0 * w
    .ok ((List.range (hi - lo)).map fun k =>
      (BitVec.ofNat 8 (data / 2 ^ (sh + 8 * k)), BitVec.ofNat 8 (mask / 2 ^ (sh + 8 * k))), fl)

/-- The pieces of rows that bytes `lo` to `hi - 1` of an order of rows of `rb` bytes cover: row, and bytes within it. -/
def rowPieces (rb lo hi : Nat) : List (Nat × Nat × Nat) :=
  if rb = 0 ∨ hi ≤ lo then [] else
  (List.range ((hi - 1) / rb + 1 - lo / rb)).map fun k =>
    let r := lo / rb + k
    (r, max lo (r * rb) - r * rb, min hi (r * rb + rb) - r * rb)

/-- The offset of an output row. -/
def CopyEnv.dstRow (e : CopyEnv) (i1 i2 : Nat) : Nat := spaceOffset e.c.sd e.c.dst + i1 * e.c.d1 + i2 * e.c.d2

/-- A chunk's progress so far: what stopped it, the state, the tally. -/
abbrev Done := Option Stop × State × Tally

/-- Go on unless stopped. -/
def Done.andThen (d : Done) (f : State → Tally → Done) : Done :=
  match d with
  | (some e, s, t) => (some e, s, t)
  | (none, s, t) => f s t

/-- Bytes of the destination that overlap the copy's own inputs are undefined (R310). -/
def CopyEnv.spoil (e : CopyEnv) (o : Nat) (l : Masked) (s : State) : Masked × State :=
  if e.own.isEmpty then (l, s)
  else
    (l.zipIdx.map fun x =>
      if e.own.contains (s.placeOf e.g e.c.sd e.c.dst (o + x.2)) then (Config.freeByte (s.fresh + x.2), x.1.2) else x.1,
     { s with fresh := s.fresh + l.length })

/-- Write masked bytes of the destination and count them: those that stand, when the write is stopped (R308). -/
def CopyEnv.put (e : CopyEnv) (o : Nat) (l : Masked) (fl : Nat) (s : State) (t : Tally) : Done :=
  let (l, s) := e.spoil o l s
  match s.cpWriteMasked e.g e.st e.c.sd e.c.dst o l with
  | (some x, s) => (some x, s, { t with bytes := t.bytes + x.after o })
  | (none, s) => (none, s, { t with bytes := t.bytes + l.length, flags := t.flags ||| fl })

/-- Output rows, bytes `lo` to `hi - 1` of the order. -/
def CopyEnv.writeRows (e : CopyEnv) (p : CopyPlan) (lo hi : Nat) (s : State) (t : Tally) : Done :=
  (rowPieces (rowBytes p.out.x0 p.width) lo hi).foldl (fun d x =>
    d.andThen fun s t =>
      let i1 := x.1 % p.out.x1
      let i2 := x.1 / p.out.x1
      match (e.on s).rowPart p i1 i2 x.2.1 x.2.2 with
      | .error z => (some z, s, t)
      | .ok (l, fl) => e.put (e.dstRow i1 i2 + x.2.1) l fl s t) (none, s, t)

/-- One element written at an output index, its neighbours in its bytes kept. -/
def CopyEnv.putElem (e : CopyEnv) (p : CopyPlan) (i0 i1 i2 : Nat) (b fl : Nat) (s : State) (t : Tally) : Done :=
  let w := p.width
  let lo := i0 * w / 8
  let n := (i0 * w + w + 7) / 8 - lo
  let sh := i0 * w - 8 * lo
  let l : Masked := (List.range n).map fun k =>
    (BitVec.ofNat 8 (b % 2 ^ w * 2 ^ sh / 2 ^ (8 * k)), BitVec.ofNat 8 ((2 ^ w - 1) * 2 ^ sh / 2 ^ (8 * k)))
  let d : Done := e.put (e.dstRow i1 i2 + lo) l fl s t
  (d.1, d.2.1, { d.2.2 with bytes := t.bytes })

/-- SCATTER's inputs in ascending order: those that begin in bytes `lo` to `hi - 1` of the order. Bytes written are counted in that
order, those of an element for each time that one is put there (log entry 102). -/
def CopyEnv.writeScatter (e : CopyEnv) (p : CopyPlan) (x : LoadedNode) (lo hi : Nat) (s : State) (t : Tally) : Done :=
  let w := p.width
  let post := p.before.takeWhile fun y => y.n.pointwise
  let pre := (p.before.dropWhile fun y => y.n.pointwise).drop 1
  let rb := rowBytes x.input.x0 w
  let d := (rowPieces rb lo hi).foldl (fun (d : Done) (r, b0, b1) =>
    let i1 := r % x.input.x1
    let i2 := r / x.input.x1
    let e0 := (8 * b0 + w - 1) / w
    let e1 := min x.input.x0 ((8 * b1 + w - 1) / w)
    (List.range (e1 - e0)).foldl (fun (d : Done) k => d.andThen fun s t =>
      let i0 := e0 + k
      let j := x.table.getD i0 0
      if x.n.w ≤ j then (some (.fail eIndex 0), s, t)
      else match (e.on s).valueAt pre i0 i1 i2 with
        | .error z => (some z, s, t)
        | .ok none => (none, s, t)
        | .ok (some v) =>
          let v := post.reverse.foldl (fun (a : FVal × List LoadedNode) y =>
            (y.n.point e.c.rm (valuesInt e.c.fs a.2) a.1, y :: a.2)) (v, x :: pre)
          let (b, fl) := fmtEncode (fmtElem e.c.fd) e.c.rm (valuesInt e.c.fs p.before) v.1
          (e.putElem p j i1 i2 b fl s t).andThen fun s t =>
            (none, s, { t with bytes := max t.bytes (r * rb + ((i0 + 1) * w + 7) / 8) })) d) ((none, s, t) : Done)
  match d with
  | (none, s, t) => (none, s, { t with bytes := hi })
  | d => d

/-- The values of a group, in order, with a `none` where SCATTER has put nothing. -/
def CopyEnv.groupValues (e : CopyEnv) (p : CopyPlan) (g : Nat) : Except Stop (List (Option FVal)) :=
  let per := p.out.x0 / 16
  let i1 := g / per % p.out.x1
  let i2 := g / per / p.out.x1
  (List.range 16).foldl (fun acc k =>
    match acc with
    | .error x => .error x
    | .ok l => match e.valueAt p.before (16 * (g % per) + k) i1 i2 with
      | .error x => .error x
      | .ok v => .ok (l ++ [v])) (.ok [])

/-- The bytes of a record's slot, its flags and how many free bytes it takes (R306, R316). A group that SCATTER leaves
incomplete has a record the spec does not state: its bytes are free. -/
def recordSlot (fresh k : Nat) (w : List (Option FVal)) : Except Stop (List Byte × Nat × Nat) :=
  let n := recordBytes k
  if w.any Option.isNone then .ok ((List.range n).map fun i => Config.freeByte (fresh + i), 0, n)
  else
    let (bytes, cls, fl) := encodeGroup (w.filterMap id)
    if n < recordBytes cls then .error (.fail eSlot 0) else .ok (bytes ++ zeros (n - bytes.length), fl, 0)

/-- Records, bytes `lo` to `hi - 1` of the order. -/
def CopyEnv.writeRecords (e : CopyEnv) (p : CopyPlan) (k lo hi : Nat) (s : State) (t : Tally) : Done :=
  (rowPieces (recordBytes k) lo hi).foldl (fun d (r, b0, b1) => d.andThen fun s t =>
    match (e.on s).groupValues p r with
    | .error z => (some z, s, t)
    | .ok w => match recordSlot s.fresh k w with
      | .error z => (some z, s, t)
      | .ok (bytes, fl, used) =>
        let part := (bytes.drop b0).take (b1 - b0)
        e.put (spaceOffset e.c.sd e.c.dst + r * recordBytes k + b0) (part.map fun b => (b, 0xFF)) fl
          { s with fresh := s.fresh + used } t) (none, s, t)

/-! HASH and DEDUP (R193, R194, R305, R311, R312). -/

/-- A page's fingerprint (R193). -/
def fingerprint (bytes : List Byte) : Nat := ofLeBytes ((sha256 bytes).take 8)

def State.bucketOf (s : State) (ctx print : Nat) : Nat := print % 2 ^ s.descNat ctx 0x10 4

/-- What DEDUP finds at a page: a translation in place, or an invalid D entry with its address and index. -/
inductive PageSlot where
  | mapped
  | template (place idx : Nat) (e : DWord)
  | missing (level : Nat) (malformed : Bool)
deriving DecidableEq, Repr

/-- The walk towards a page's D entry (R194). -/
def State.pageSlot (s : State) (va : Nat) : Nat → Nat → Nat → PageSlot
  | 0, l, _ => .missing l false
  | fuel + 1, l, table =>
    let idx := levelIndex l va
    let at_ := table + 8 * idx
    let e : DWord := BitVec.ofNat 64 (s.homeNat at_ 8)
    if !entryBit e 0 then (if l = 3 then .template at_ idx e else .missing l false)
    else if s.malformed l idx e then .missing l true
    else if entryBit e 1 then .mapped
    else State.pageSlot s va fuel (l + 1) (entryFrame e)

/-- The leaf made from a template (R311). -/
def templateLeaf (t : DWord) (frame : Nat) (cow : Bool) : DWord :=
  let keep : Nat := bitsOf t.toNat 2 9 * 4 + bitsOf t.toNat 52 6 * 2 ^ 52
  let e : DWord := BitVec.ofNat 64 keep &&& ~~~(0x30#64)
  e ||| 3#64 ||| (if cow then 0x20#64 else 0) ||| BitVec.ofNat 64 frame

/-- A page's bytes in a frame, as a leaf presents them (R187). -/
def State.framePage (s : State) (key : Option Nat) (e : DWord) (frame : Nat) : List Byte :=
  (List.range 4096).map fun o => s.homeByte key (frame + layoutOffset (entryLayout e) o)
def State.writeFramePage (s : State) (ctx : Nat) (key : Option Nat) (e : DWord) (frame : Nat) (bytes : List Byte) : State :=
  (bytes.zipIdx).foldl (fun s b =>
    s.homeWriteByte ⟨some ctx, key, none, none⟩ (frame + layoutOffset (entryLayout e) b.2) b.1) (s.keepNamed frame 4096)

/-- A page written in place; its fingerprint and frame afterwards. What its record says of it comes with its outcome (R312). -/
def CopyEnv.dedupInPlace (e : CopyEnv) (va : Nat) (l : Masked) (s : State) (t : Tally) : Done :=
  match e.put va l 0 s t with
  | (none, s, u) =>
    match s.cpGlobal e.g.ctx va 4096 .copyRead, s.translate fabric e.g.ctx (BitVec.ofNat 64 va) .copyRead false with
    | .ok b, (.ok x, _) => (none, s, { u with pages := u.pages ++ [⟨3, x.pa / 4096, fingerprint b⟩] })
    | .error z, _ => (some z, s, t)
    | _, (.error x, _) => (some (.fault x .copyRead va), s, t)
  | (some z, s, _) => (some z, s, t)

/-- One page of a DEDUP copy (R194). A template meets, of the checks of R185, that of a protected page's key, whether or not the
page would be shared; its `writable` bit stops no write of the page engine's (log entry 103). -/
def CopyEnv.dedupPage (e : CopyEnv) (va : Nat) (l : Masked) (s : State) (t : Tally) : Done :=
  let ctx := e.g.ctx
  if 2 ^ 57 ≤ va then (some (.fault .access .copyWrite va), s, t)
  else match s.pageSlot va 4 0 (s.descNat ctx 0 8) with
  | .mapped => e.dedupInPlace va l s t
  | .missing level bad => (some (.fault (.page level bad) .copyWrite va), s, t)
  | .template place idx tmpl =>
    -- a template that no leaf can be made from is a malformed entry, before any check of a leaf (R185, R311)
    if s.malformed 3 idx (templateLeaf tmpl 0 false) then (some (.fault (.page 3 true) .copyWrite va), s, t)
    else match s.leafKey ctx tmpl with
    | .error x => (some (.fault x .copyWrite va), s, t)
    | .ok key =>
      let page := l.map fun x => x.1 &&& x.2
      let print := fingerprint page
      let w := pageWriter ctx
      let map (s : State) (frame : Nat) (cow : Bool) : State :=
        s.homeWrite w place (leBytes 8 (templateLeaf tmpl frame cow).toNat)
      let entry (outcome frame : Nat) (t : Tally) : Tally :=
        { t with pages := t.pages ++ [⟨outcome, frame / 4096, print⟩], bytes := t.bytes + if outcome = 1 then 0 else 4096 }
      let noIndex := s.descNat ctx 0x08 8 = 0
      let b := s.bucketOf ctx print
      let found := if noIndex then none else (List.range 8).findSome? fun i =>
        let (valid, f, frame) := s.bucketEntry ctx b i
        if valid && f == print && decide ((s.frameRec ctx frame).count < 2 ^ 32 - 1) &&
          s.framePage key tmpl frame == page then some frame else none
      let bad (frame : Nat) (cow : Bool) : Bool := s.malformed 3 idx (templateLeaf tmpl frame cow)
      match found with
      | some frame =>
        if bad frame true then (some (.fault (.page 3 true) .copyWrite va), s, t)
        else
          let r := s.frameRec ctx frame
          (none, map (s.setFrameRec ctx frame { r with count := r.count + 1 }) frame true, entry 1 frame t)
      | none =>
        let free := if noIndex then none else (List.range 8).find? fun i => !(s.bucketEntry ctx b i).1
        if bad 0 free.isSome then (some (.fault (.page 3 true) .copyWrite va), s, t)
        else match s.takeFrame ctx with
          | (none, s) => (some (.fault .pool .copyWrite va), s, t)
          | (some f, s) =>
            let s := s.writeFramePage ctx key tmpl f page
            let tag := entryBit tmpl 10
            match free with
            | some i =>
              let s := s.setFrameRec ctx f ⟨1, tag, true, b⟩
              (none, map (s.setBucketEntry ctx b i true print f) f true, entry 0 f t)
            | none => (none, map (s.setFrameRec ctx f ⟨1, tag, false, 0⟩) f false, entry 2 f t)

/-- The masked bytes `lo` to `hi - 1` of the order, for a page of DEDUP. -/
def CopyEnv.orderBytes (e : CopyEnv) (p : CopyPlan) (lo hi : Nat) : Except Stop (Masked × Nat) :=
  (rowPieces (rowBytes p.out.x0 p.width) lo hi).foldl (fun acc x =>
    match acc with
    | .error z => .error z
    | .ok (l, fl) => match e.rowPart p (x.1 % p.out.x1) (x.1 / p.out.x1) x.2.1 x.2.2 with
      | .error z => .error z
      | .ok (m, f) => .ok (l ++ m, fl ||| f)) (.ok ([], 0))

/-- HASH: the fingerprints of destination pages whose writes are done (R305): page `k` of the order's own, or with SCATTER all of
them after the last chunk. -/
def CopyEnv.hashPages (e : CopyEnv) (pages : List Nat) (s : State) (t : Tally) : Done :=
  pages.foldl (fun d k => d.andThen fun s t =>
    match s.cpGlobal e.g.ctx (e.c.dst + 4096 * k) 4096 .copyRead with
    | .error z => (some z, s, t)
    | .ok b => (none, s, { t with pages := t.pages ++ [⟨0xFF, 0, fingerprint b⟩] })) (none, (s.performStream e.g e.st).performStep e.g, t)

/-- A copy with HASH or DEDUP breaks R305. -/
def CopyPlan.pageCountBad (p : CopyPlan) (c : CopyDesc) : Bool :=
  let rb := rowBytes p.out.x0 p.width
  p.tail != 0 &&
    (c.sd != 0 || c.dst % 4096 != 0 || (p.encode.isNone && (c.d1 != rb || c.d2 != p.out.x1 * rb)) ||
      p.outBytes % 4096 != 0 || p.outBytes == 0 || decide (256 * 4096 < p.outBytes))

/-- Bytes of a box from its offset on, with row strides (R300). -/
def boxReach (off rows0 : Nat) (b : Shape) (st1 st2 : Nat) : Nat := off + (b.x1 - 1) * st1 + (b.x2 - 1) * st2 + rows0

/-- The checks of a copy when it starts (R213, R300, R305, R306); through a handle, all of its boxes are checked against the
region (log entry 97). -/
def State.copyStart (s : State) (g : WgKey) (desc graph : List Byte) : Option Stop :=
  let c := copyDesc desc
  let p := barePlan c graph
  let handle (v reach : Nat) (write encode : Bool) : Option Stop :=
    match s.heldHandle g (BitVec.ofNat 32 (v % 2 ^ 32)) with
    | none => some (.fail eHandle (v / 2 ^ 32))
    | some (home, i) =>
      let b := (s.slotOf home i).buf
      if (b = .wb ∧ !write) ∨ (encode ∧ b ≠ .wb) then some (.fail eBufPath (v / 2 ^ 32))
      else if (s.slotOf home i).size < reach then some (.fail eBufBound (v / 2 ^ 32)) else none
  let from_ := boxReach (c.src / 2 ^ 32) (rowBytes c.box.x0 (fmtBits c.fs)) c.box c.s1 c.s2
  let to_ := match p.encode with
    | some _ => c.dst / 2 ^ 32 + p.total
    | none => boxReach (c.dst / 2 ^ 32) (rowBytes p.out.x0 p.width) p.out c.d1 c.d2
  (if c.ss = 4 then some (Stop.fail eBufPath (c.src % 2 ^ 32)) else if c.ss = 5 then handle c.src from_ false false else none).or
    ((if c.sd = 5 then handle c.dst to_ true p.encode.isSome else none).or
      (if p.pageCountBad c then some (.fail ePageCount 0) else none))

/-! Overlap within a copy (R310). -/

/-- The index tables' ranges: space, descriptor field, offset, length. -/
def copyTables (p : CopyPlan) : List (Nat × Nat × Nat × Nat) := p.nodes.filterMap fun t =>
  match t.n.op with
  | 5 => some (0, 0, t.n.q, 4 * t.n.w)
  | 6 => some (0, 0, t.n.q, 4 * t.input.x0)
  | _ => none
/-- The ranges a copy reads, with its completion record: space, descriptor field, offset, length. -/
def copyOwnRanges (desc graph : List Byte) : List (Nat × Nat × Nat × Nat) :=
  let c := copyDesc desc
  let p := barePlan c graph
  let rows := (List.range c.box.x2).flatMap fun i2 => (List.range c.box.x1).map fun i1 =>
    (c.ss, c.src, spaceOffset c.ss c.src + i1 * c.s1 + i2 * c.s2, rowBytes c.box.x0 (fmtBits c.fs))
  let scales := if p.value && fmtScaled c.fs then [(0, 0, c.scale, (c.box.x0 + 15) / 16 * c.box.x1 * c.box.x2)] else []
  let record := if wantsRecord desc then [(0, 0, recordAddr desc, 0x150 + if p.tail = 0 then 0 else 16 * p.pages)] else []
  rows ++ scales ++ record ++ copyTables p
def State.placesOf (s : State) (g : WgKey) (l : List (Nat × Nat × Nat × Nat)) : List BytePlace :=
  l.flatMap fun (sp, v, o, n) => (List.range n).map fun i => s.placeOf g sp v (o + i)
def State.copyOwn (s : State) (g : WgKey) (desc graph : List Byte) : List BytePlace :=
  s.placesOf g (copyOwnRanges desc graph)

/-- A value reaches an output index: SCATTER leaves out those it names nowhere. Nodes in reverse order. -/
def reaches : List LoadedNode → Nat → Nat → Nat → Bool
  | [], _, _, _ => true
  | t :: ts, i0, i1, i2 =>
    match t.n.op with
    | 3 =>
      let out (m : Nat) : Nat := match (permOf t.n.p).idxOf m with | 0 => i0 | 1 => i1 | _ => i2
      reaches ts (out 0) (out 1) (out 2)
    | 4 => reaches ts (sliceOrigin t.n 0 + i0) (sliceOrigin t.n 1 + i1) (sliceOrigin t.n 2 + i2)
    | 5 => reaches ts (t.table.getD i0 0) i1 i2
    | 6 =>
      match ((List.range t.input.x0).filter fun k => t.table.getD k 0 == i0).getLast? with
      | some k => reaches ts k i1 i2
      | none => false
    | _ => reaches ts i0 i1 i2

/-- The bits of a row's byte that the copy writes. -/
def CopyPlan.rowMask (p : CopyPlan) (i1 i2 b : Nat) : Byte :=
  (List.finRange 8).foldl (fun m k =>
    let i0 := (8 * b + k.val) / p.width
    if i0 < p.out.x0 ∧ (!p.value || reaches p.before i0 i1 i2) then m ||| BitVec.ofNat 8 (2 ^ k.val) else m) 0

/-- The bytes of the destination's records or rows, with the bits written. -/
def CopyPlan.written (p : CopyPlan) (c : CopyDesc) : List (Nat × Byte) :=
  match p.encode with
  | some _ => (List.range p.total).map fun i => (spaceOffset c.sd c.dst + i, 0xFF)
  | none => (List.range p.out.x2).flatMap fun i2 => (List.range p.out.x1).flatMap fun i1 =>
      (List.range (rowBytes p.out.x0 p.width)).map fun b =>
        (spaceOffset c.sd c.dst + i1 * c.d1 + i2 * c.d2 + b, p.rowMask i1 i2 b)

/-- The bytes of the destination that lie in the copy's own source, scale array, index tables or record. -/
def State.copyOverlap (s : State) (g : WgKey) (desc graph : List Byte) : List (Nat × Byte) :=
  let c := copyDesc desc
  match ({ s := s, g := g, st := 0, c := c, own := [] } : CopyEnv).load (graphNodes graph) c.box with
  | .error _ => []
  | .ok nodes =>
    let own := s.copyOwn g desc graph
    (CopyPlan.written { barePlan c graph with nodes := nodes } c).filter fun x =>
      x.2 != 0 && own.contains (s.placeOf g c.sd c.dst x.1)
def State.copyOverlaps (s : State) (g : WgKey) (desc graph : List Byte) : Bool := !(s.copyOverlap g desc graph).isEmpty

/-- The overlapping bytes of a destination take free values (R310). -/
def State.copySpoil (s : State) (g : WgKey) (st : Fin 16) (c : CopyDesc) (l : List (Nat × Byte)) : State :=
  l.foldl (fun s x =>
    let s' := (s.cpWriteMasked g st c.sd c.dst x.1 [(Config.freeByte s.fresh, x.2)]).2
    { s' with fresh := s'.fresh + 1 }) s

/-- The pages of a range of global addresses. -/
def pagesOf (va n : Nat) : List Nat := if n = 0 then [] else (List.range ((va + n - 1) / 4096 + 1 - va / 4096)).map (va / 4096 + ·)
/-- The translations of what a copy reads in memory are kept by the fabric (R190; log entry 80). -/
def State.copyWarm (s : State) (g : WgKey) (desc graph : List Byte) : State :=
  let c := copyDesc desc
  let rows := if c.ss ≠ 0 then [] else (List.range c.box.x2).flatMap fun i2 => (List.range c.box.x1).flatMap fun i1 =>
    pagesOf (c.src + i1 * c.s1 + i2 * c.s2) (rowBytes c.box.x0 (fmtBits c.fs))
  let tables := (copyTables (barePlan c graph)).flatMap fun x => pagesOf x.2.2.1 x.2.2.2
  (rows ++ tables).eraseDups.foldl (fun s p => (s.translate fabric g.ctx (BitVec.ofNat 64 (4096 * p)) .copyRead false).2) s

/-- The writes of one chunk, or for DEDUP of one page: chunk number `k` (R309). -/
def CopyEnv.writes (e : CopyEnv) (p : CopyPlan) (k : Nat) (s : State) (t : Tally) : Done :=
  let lo := 4096 * k
  let hi := min (4096 * k + 4096) p.total
  if p.tail = 12 then
    match (e.on s).orderBytes p lo hi with
    | .error z => (some z, s, t)
    | .ok (l, fl) =>
      let slow := s.slow
      let (l, s) := e.spoil (e.c.dst + lo) l { s with slow := false }
      let d := (e.on s).dedupPage (e.c.dst + lo) l s t
      (d.1, { d.2.1 with slow := slow }, { d.2.2 with flags := if d.1.isNone then d.2.2.flags ||| fl else d.2.2.flags })
  else
    let t := { t with bytes := lo }
    let d := match p.encode, p.scatter with
      | some cls, _ => e.writeRecords p cls lo hi s t
      | none, some x => e.writeScatter p x lo hi s t
      | none, none => e.writeRows p lo hi s t
    if p.tail ≠ 11 then d
    else if p.scatter.isNone then d.andThen (e.hashPages [k])
    else if k + 1 = p.chunks then d.andThen (e.hashPages (List.range p.pages)) else d

/-- One chunk of a copy: its writes, then what the values that have entered the graph by then leave in its record; where the
chunk is stopped, those of the part that is done (R307, R308; log entry 42). -/
def CopyEnv.chunk (e : CopyEnv) (graph : List Byte) (k : Nat) (s : State) (t : Tally) : Done :=
  match (e.on s).load (graphNodes graph) e.c.box with
  | .error z => (some z, s, t)
  | .ok nodes =>
    let p := { barePlan e.c graph with nodes := nodes }
    match e.writes p k s t with
    | (none, u, t) => match (e.on s).stats (min (4096 * k + 4096) p.total) p.total nodes [] t with
      | .error z => (some z, u, t)
      | .ok t => (none, u, t)
    | (some z, u, t) =>
      let part := if p.tail = 12 then 4096 * k else t.bytes
      (some z, u, ((e.on s).stats part p.total nodes [] t).toOption.getD t)

/-- One chunk of a copy that overwrites none of its own inputs (R309). -/
def State.copyChunk (s : State) (g : WgKey) (st : Fin 16) (desc graph : List Byte) (k : Nat) (t : Tally) : Done :=
  let s := s.copyWarm g desc graph
  ({ s := s, g := g, st := st, c := copyDesc desc, own := [] } : CopyEnv).chunk graph k s t
/-- Every chunk from `k` on of a copy that overwrites some of its inputs or its record: it reads what stood there before, and the
bytes that overlap take free values (R310; log entry 72). -/
def State.copyWhole (s : State) (g : WgKey) (st : Fin 16) (desc graph : List Byte) (k : Nat) (t : Tally) : Done :=
  let s := (s.performStream g st).copyWarm g desc graph
  let c := copyDesc desc
  let e : CopyEnv := { s := s, g := g, st := st, c := c, own := s.copyOwn g desc graph }
  let chunks := (barePlan c graph).chunks
  match ((List.range (chunks - k)).map (k + ·)).foldl (fun (d : Done) k => d.andThen fun s t => e.chunk graph k s t) ((none, s, t) : Done) with
  | (some z, u, t) => (some z, u.copySpoil g st c (s.copyOverlap g desc graph), t)
  | d => d

end Sys2Proof.Machine
end

