-- ==== Sys2Proof/Machine/FloatMath.lean ====
section
/-! DEFINITION. Division, square root and the special functions, correctly rounded (R143 to R145): each exact value is
enclosed between integers at a scale 2^-P, and P doubles until both ends round alike. -/

namespace Sys2Proof.Machine

/-- The integer square root, one bit at a time. -/
def isqrtStep : Nat → Nat → Nat → Nat
  | 0, _, r => r
  | k + 1, n, r =>
    let t := r + 2 ^ k
    isqrtStep k n (if t * t ≤ n then t else r)
def isqrt (n : Nat) : Nat := isqrtStep (floorLog2 n / 2 + 1) n 0

/-- a ÷ b as a magnitude with its remainder kept as `more`; b nonzero. -/
def divMag (m1 : Nat) (e1 : Int) (m2 : Nat) (e2 : Int) : Mag :=
  let k := 200 + floorLog2 m2
  ⟨m1 * 2 ^ k / m2, e1 - e2 - k, m1 * 2 ^ k % m2 != 0⟩

/-- √(m × 2^e). -/
def sqrtMag (m : Nat) (e : Int) : Mag :=
  let k : Nat := 400 + (if (e - 400) % 2 = 0 then 0 else 1)
  let v := m * 2 ^ k
  let r := isqrt v
  ⟨r, (e - k) / 2, r * r != v⟩

/-- 1 ÷ √(m × 2^e), where m is no power of two or the exponent is odd: it lies strictly between two units. -/
def rsqMag (m : Nat) (e : Int) : Mag :=
  let l := floorLog2 m
  let k : Nat := 400 + l + (if (e + l) % 2 = 0 then 0 else 1)
  ⟨isqrt (2 ^ k / m), (-e - k) / 2, true⟩

/-! Fixed-point enclosures. An interval is a pair of integers at scale 2^-P that the value lies between. -/

abbrev Ival := Int × Int

def Ival.add (a b : Ival) : Ival := (a.1 + b.1, a.2 + b.2)
def Ival.neg (a : Ival) : Ival := (-a.2, -a.1)
/-- Product at scale 2^-P. -/
def Ival.mul (p : Nat) (a b : Ival) : Ival :=
  let ps := [a.1 * b.1, a.1 * b.2, a.2 * b.1, a.2 * b.2]
  let lo := ps.foldl min (a.1 * b.1)
  let hi := ps.foldl max (a.1 * b.1)
  (lo / 2 ^ p, hi / 2 ^ p + 1)
def Ival.divNat (a : Ival) (n : Nat) : Ival := (a.1 / n, a.2 / n + 1)

/-- Σ y^(2k+1) / (2k+1) with alternating signs or not, for |y| ≤ 1/2, `k` terms from index `i`. -/
def oddSeries (p : Nat) (alt : Bool) (y2 : Ival) : Nat → Nat → Ival → Ival → Ival
  | 0, _, t, acc => (acc.1 - t.1.natAbs - t.2.natAbs - 1, acc.2 + t.1.natAbs + t.2.natAbs + 1)
  | k + 1, i, t, acc =>
    let term := t.divNat (2 * i + 1)
    let acc := acc.add (if alt && i % 2 == 1 then term.neg else term)
    oddSeries p alt y2 k (i + 1) (Ival.mul p t y2) acc

/-- atanh (alt false) or atan (alt true) of n / d with n / d ≤ 1/2. -/
def atanhRat (p : Nat) (alt : Bool) (n d : Nat) : Ival :=
  let y : Ival := ((n * 2 ^ p / d : Nat), (n * 2 ^ p / d + 1 : Nat))
  oddSeries p alt (Ival.mul p y y) (p + 4) 0 y (0, 0)

def ln2 (p : Nat) : Ival := let a := atanhRat p false 1 3; a.add a
/-- π by Machin's formula. -/
def piIval (p : Nat) : Ival :=
  let a := atanhRat p true 1 5
  let b := atanhRat p true 1 239
  (16 * a.1 - 4 * b.2, 16 * a.2 - 4 * b.1)

/-- Σ x^i / i! stepping by `step` factors, from term `t` of index `i`. -/
def powerSeries (p step : Nat) (alt : Bool) (xs : Ival) : Nat → Nat → Ival → Ival → Ival
  | 0, _, t, acc => (acc.1 - t.1.natAbs - t.2.natAbs - 1, acc.2 + t.1.natAbs + t.2.natAbs + 1)
  | k + 1, i, t, acc =>
    let acc := acc.add t
    let t := (Ival.mul p t xs).divNat ((List.range step).foldl (fun f j => f * (i + 1 + j)) 1)
    powerSeries p step alt xs k (i + step) (if alt then t.neg else t) acc

/-- e^x for |x| ≤ 1. -/
def expIval (p : Nat) (x : Ival) : Ival := powerSeries p 1 false x (p / 3 + 20) 0 (2 ^ p, 2 ^ p) (0, 0)
def cosIval (p : Nat) (x : Ival) : Ival := powerSeries p 2 true (Ival.mul p x x) (p / 5 + 20) 0 (2 ^ p, 2 ^ p) (0, 0)
def sinIval (p : Nat) (x : Ival) : Ival := powerSeries p 2 true (Ival.mul p x x) (p / 5 + 20) 1 x (0, 0)

/-- The argument m × 2^e at scale 2^-P, signed. -/
def argIval (p : Nat) (neg : Bool) (m : Nat) (e : Int) : Ival :=
  let sh := (p : Int) + e
  let v : Ival := if 0 ≤ sh then ((m * 2 ^ sh.toNat : Nat), (m * 2 ^ sh.toNat : Nat))
    else ((m / 2 ^ (-sh).toNat : Nat), (m / 2 ^ (-sh).toNat + 1 : Nat))
  if neg then Ival.neg v else v

/-- 2^a at scale 2^-P: an enclosure of the fractional part's power, and the exponent to add. -/
def exp2At (p : Nat) (neg : Bool) (m : Nat) (e : Int) : Ival × Int :=
  let x := argIval p neg m e
  let n := x.1 / 2 ^ p
  let f : Ival := (x.1 - n * 2 ^ p, x.2 - n * 2 ^ p)
  (expIval p (Ival.mul p f (ln2 p)), n)

/-- log2 (m × 2^e), m nonzero, at scale 2^-P. -/
def log2At (p : Nat) (m : Nat) (e : Int) : Ival :=
  let t := floorLog2 m
  let a := atanhRat p false (m - 2 ^ t) (m + 2 ^ t)
  let num : Ival := (2 * a.1 * 2 ^ p, 2 * a.2 * 2 ^ p)
  let l := ln2 p
  let n : Int := e + t
  (num.1 / l.2 + n * 2 ^ p, num.2 / l.1 + 1 + n * 2 ^ p)

/-- sin (k odd quadrant offset 0) or cos (offset 1) of ± m × 2^e. -/
def trigAt (p : Nat) (isCos neg : Bool) (m : Nat) (e : Int) : Ival :=
  let big := p + (max 0 (e + floorLog2 m)).toNat + 8
  let pi := piIval big
  let x := argIval big neg m e
  -- quadrant: nearest multiple of π/2
  let k := (2 * x.1 + pi.1 / 2) / pi.1
  let r : Ival := if 0 ≤ k then (x.1 - (k * pi.2 / 2 + 1), x.2 - k * pi.1 / 2)
    else (x.1 - (k * pi.1 / 2 + 1), x.2 - k * pi.2 / 2)
  let d : Nat := big - p
  let r : Ival := (r.1 / 2 ^ d, r.2 / 2 ^ d + 1)
  let q := (k + if isCos then 1 else 0) % 4
  let v := if q % 2 = 0 then sinIval p r else cosIval p r
  if q = 2 ∨ q = 3 then v.neg else v

/-- tanh of m × 2^e, positive and below 64. -/
def tanhAt (p : Nat) (m : Nat) (e : Int) : Ival :=
  -- t = e^(2a) = 2^(2a / ln 2)
  let x := argIval p false m (e + 1)
  let l := ln2 p
  let y : Ival := (x.1 * 2 ^ p / l.2, x.2 * 2 ^ p / l.1 + 1)
  let n := y.1 / 2 ^ p
  let f : Ival := (y.1 - n * 2 ^ p, y.2 - n * 2 ^ p)
  let t := expIval p (Ival.mul p f l)
  let t : Ival := (t.1 * 2 ^ n.toNat, t.2 * 2 ^ n.toNat)
  let one : Int := 2 ^ p
  -- (t - 1) / (t + 1) rises with t
  ((t.1 - one) * one / (t.1 + one), (t.2 - one) * one / (t.2 + one) + 1)

/-- Round an enclosure once both of its ends round alike. -/
def FFmt.roundIval (f : FFmt) (rm : Rm) (r : Nat) (p : Nat) (v : Ival) (ex : Int) : Option (Nat × Nat) :=
  let go (neg : Bool) (lo hi : Nat) : Option (Nat × Nat) :=
    if lo = 0 then none else
    let a := f.round rm r neg ⟨lo, ex - p, true⟩
    let b := f.round rm r neg ⟨hi, ex - p, true⟩
    if a = b then some a else none
  if 0 < v.1 then go false v.1.toNat (v.2 - 1).toNat
  else if v.2 < 0 then go true (-v.2).toNat (-v.1 - 1).toNat
  else none

/-- Try precisions P, 2P, 4P, … -/
def refine (f : Nat → Option (Nat × Nat)) : Nat → Nat → Nat × Nat
  | 0, _ => (0, 0)
  | k + 1, p => match f p with
    | some x => x
    | none => refine f k (2 * p)

/-- A magnitude just below m × 2^e: between it and 2^-100 of a unit less. -/
def justBelow (m : Nat) (e : Int) : Mag := ⟨m * 2 ^ 100 - 1, e - 100, true⟩
def justAbove (m : Nat) (e : Int) : Mag := ⟨m * 2 ^ 100, e - 100, true⟩

/-- The eight FSFU functions (R143). -/
inductive Sfu where
  | rcp | rsq | sqrt | exp2 | log2 | sin | cos | tanh
deriving DecidableEq, Repr

/-- A power of two: its exponent. -/
def pow2Exp (m : Nat) (e : Int) : Option Int :=
  if m ≠ 0 ∧ m = 2 ^ floorLog2 m then some (e + floorLog2 m) else none

/-- One element of an FSFU form (R143, R144): bits and flags. -/
def FFmt.sfu (f : FFmt) (op : Sfu) (rm : Rm) (r : Nat) (v : FVal) : Nat × Nat :=
  let inf (n : Bool) : Nat := (if n then f.signBit else 0) + f.infCode
  let zero (n : Bool) : Nat := if n then f.signBit else 0
  let one (n : Bool) : Nat := (f.round .rne 0 n ⟨1, 0, false⟩).1
  let nanV : Nat × Nat := (f.nanCode, flNV)
  match v with
  | .nan s => (f.nanCode, if s then flNV else 0)
  | .inf n =>
    match op with
    | .rcp => (zero n, 0)
    | .rsq => if n then nanV else (zero false, 0)
    | .sqrt => if n then nanV else (inf false, 0)
    | .exp2 => if n then (zero false, 0) else (inf false, 0)
    | .log2 => if n then nanV else (inf false, 0)
    | .sin | .cos => nanV
    | .tanh => (one n, 0)
  | .fin n m e =>
    if m = 0 then
      match op with
      | .rcp | .rsq => (inf n, flDZ)
      | .sqrt | .sin | .tanh => (zero n, 0)
      | .exp2 | .cos => (one false, 0)
      | .log2 => (inf true, flDZ)
    else
      let tiny := decide (e + floorLog2 m < -60)
      match op with
      | .rcp => f.round rm r n (divMag 1 0 m e)
      | .rsq => if n then nanV else
          match pow2Exp m e with
          | some k => if k % 2 = 0 then f.round rm r false ⟨1, -(k / 2), false⟩
                      else f.round rm r false (rsqMag m e)
          | none => f.round rm r false (rsqMag m e)
      | .sqrt => if n then nanV else f.round rm r false (sqrtMag m e)
      | .exp2 =>
        if 0 ≤ e ∨ m % 2 ^ (-e).toNat = 0 then
          -- an integer exponent, held within what the format can tell apart
          let k : Int := if 0 ≤ e then (m * 2 ^ (min e.toNat 20) : Nat) else (m / 2 ^ (-e).toNat : Nat)
          let k := min k 65536
          f.round rm r false ⟨1, if n then -k else k, false⟩
        else if tiny then f.round rm r false (if n then justBelow 1 0 else justAbove 1 0)
        else if 16 ≤ e + floorLog2 m then f.round rm r false ⟨1, if n then -65536 else 65536, true⟩
        else refine (fun p => let (v, k) := exp2At p n m e; f.roundIval rm r p v k) 10 160
      | .log2 => if n then nanV else
          match pow2Exp m e with
          | some k => if k = 0 then (zero false, 0) else f.round rm r (decide (k < 0)) ⟨k.natAbs, 0, false⟩
          | none => refine (fun p => f.roundIval rm r p (log2At p m e) 0) 10 160
      | .sin => if tiny then f.round rm r n (justBelow m e)
          else refine (fun p => f.roundIval rm r p (trigAt p false n m e) 0) 10 160
      | .cos => if tiny then f.round rm r false (justBelow 1 0)
          else refine (fun p => f.roundIval rm r p (trigAt p true n m e) 0) 10 160
      | .tanh => if tiny then f.round rm r n (justBelow m e)
          else if 6 ≤ e + floorLog2 m then f.round rm r n (justBelow 1 0)
          else refine (fun p =>
                 let v := tanhAt p m e
                 f.roundIval rm r p (if n then Ival.neg v else v) 0) 10 160

/-- One element of FDIV (R145). -/
def FFmt.div (f : FFmt) (rm : Rm) (r : Nat) (a b : FVal) : Nat × Nat :=
  let sgn := a.neg != b.neg
  let s := if sgn then f.signBit else 0
  match a, b with
  | .nan _, _ | _, .nan _ => (f.nanCode, (anyNan [a, b]).2)
  | .inf _, .inf _ => (f.nanCode, flNV)
  | .inf _, _ => (s + f.infCode, 0)
  | _, .inf _ => (s, 0)
  | .fin _ m1 e1, .fin _ m2 e2 =>
    if m2 = 0 then (if m1 = 0 then (f.nanCode, flNV) else (s + f.infCode, flDZ))
    else if m1 = 0 then (s, 0)
    else f.round rm r sgn (divMag m1 e1 m2 e2)

end Sys2Proof.Machine
end

