-- ==== Sys2Proof/Machine/Float.lean ====
section
/-! DEFINITION. The floating-point instructions (R129 to R153). -/

namespace Sys2Proof.Machine

/-- f16x2, bf16x2, f32 and f64 (R129). -/
def Ty.arith (t : Ty) : Bool := t == .f16x2 || t == .bf16x2 || t == .f32 || t == .f64
/-- f16x2, bf16x2 and f32 (R129). -/
def Ty.transc (t : Ty) : Bool := t == .f16x2 || t == .bf16x2 || t == .f32

/-- What a lane's instruction computes for its elements: bits and flags, given each element's draw (R134). -/
abbrev LaneOp := Lane → (Nat → Nat) → List (Nat × Nat)

/-- The results of the active lanes, in ascending lane and element order (R131). -/
def laneResults (h : Header) (w : Warp) (sr : Bool) (f : LaneOp) : Vector (List (Nat × Nat)) 96 :=
  Vector.ofFn fun l =>
    if LaneMask.has w.guarded l then f l fun e => if sr then (drawAt h w l e).toNat % 2 ^ 24 else 0 else []

/-- The flags raised, ORed over lanes and elements (R152). -/
def gatherFlags (r : Vector (List (Nat × Nat)) 96) : Nat :=
  r.toList.foldl (fun n l => l.foldl (fun n x => n ||| x.2) n) 0

/-- The draws a floating instruction takes: `k` in each active lane under SR (R134). -/
def Warp.drew (w : Warp) (sr : Bool) (k : Nat) : Warp := if sr then w.advance w.guarded fun _ => k else w

/-- A short floating instruction: results and flags are written, then an enabled flag raises FPE (R9, R152). -/
def State.floatOp (s : State) (i : Instr) (form : Form) (rm : Rm) (draws : Nat) (f : Warp → LaneOp)
    (write : Warp → Vector (List (Nat × Nat)) 96 → Warp) : State :=
  s.issue i form fun s =>
    let sr := rm == .sr
    let r := laneResults s.hdr s.warp sr (f s.warp)
    let fl := gatherFlags r
    let s := s.modWarp fun w => ((write w r).drew sr draws).raiseFlags fl
    if s.warp.flagTrap fl then .trap s .fpe (BitVec.ofNat 64 fl) else .done s

/-- The elements' bits as an operand of `n` registers (R81). -/
def Warp.writeElems (w : Warp) (d : Reg) (n bits : Nat) (r : Vector (List (Nat × Nat)) 96) : Warp :=
  w.setVNat d n w.guarded fun l => packElems bits (r[l].map (·.1))

/-- An element operation on a format: mode, draw, and the elements of d, a and b. -/
abbrev FOp := FFmt → Rm → Nat → Nat → Nat → Nat → Nat × Nat

/-- Each element of a lane, d, a and b having the registers of the type (R131). -/
def FOp.lane (f : FOp) (t : Ty) (rm : Rm) (d a b : Reg) (w : Warp) : LaneOp := fun l draw =>
  let k := (tyFmt t).bits
  (List.range t.elems).map fun e =>
    f (tyFmt t) rm (draw e) (elemOf k e (w.vNat d t.regs l)) (elemOf k e (w.vNat a t.regs l)) (elemOf k e (w.vNat b t.regs l))

/-- A form whose operands all have the clause type (R130). -/
def State.fpu (s : State) (i : Instr) (ok : Ty → Bool) (rm : Rm) (draws : Bool) (reads : List Reg) (d a b : Reg) (f : FOp) :
    State :=
  let t := s.warp.ty .f32
  s.floatOp i (s.vform (ok t) t .s reads [d] []) rm (if draws then t.elems else 0) (f.lane t rm d a b) fun w r =>
    w.writeElems d t.regs (tyFmt t).bits r

/-- RoundTo of an exact outcome, with the flags raised before rounding. -/
def FFmt.finish (f : FFmt) (rm : Rm) (r : Nat) (x : FOut) : Nat × Nat :=
  let y := f.ofVal rm r x.1
  (y.1, y.2 ||| x.2)

def fAdd : FOp := fun f rm r _ a b => f.finish rm r (FVal.add rm (f.decode a) (f.decode b))
def fSub : FOp := fun f rm r _ a b => f.finish rm r (FVal.add rm (f.decode a) (f.decode b).negate)
def fMul : FOp := fun f rm r _ a b => f.finish rm r (FVal.mul (f.decode a) (f.decode b))
def fFma : FOp := fun f rm r d a b => f.finish rm r (FVal.fma rm false (f.decode a) (f.decode b) (f.decode d))
def fFms : FOp := fun f rm r d a b => f.finish rm r (FVal.fma rm false (f.decode a) (f.decode b) (f.decode d).negate)
def fNfma : FOp := fun f rm r d a b => f.finish rm r (FVal.fma rm true (f.decode a) (f.decode b) (f.decode d))

/-- FADD (R136). -/
def execFadd (d a b : Reg) (rm : Rm) (s : State) : Host.Outcome State Fault Refusal :=
  .next (s.fpu (.fadd d a b rm) Ty.arith (s.warp.rm rm) true [a, b] d a b fAdd)

/-- FSUB (R136). -/
def execFsub (d a b : Reg) (rm : Rm) (s : State) : Host.Outcome State Fault Refusal :=
  .next (s.fpu (.fsub d a b rm) Ty.arith (s.warp.rm rm) true [a, b] d a b fSub)

/-- FMUL (R136). -/
def execFmul (d a b : Reg) (rm : Rm) (s : State) : Host.Outcome State Fault Refusal :=
  .next (s.fpu (.fmul d a b rm) Ty.arith (s.warp.rm rm) true [a, b] d a b fMul)

/-- FFMA (R136). -/
def execFfma (d a b : Reg) (rm : Rm) (s : State) : Host.Outcome State Fault Refusal :=
  .next (s.fpu (.ffma d a b rm) Ty.arith (s.warp.rm rm) true [a, b, d] d a b fFma)

/-- FFMS (R136). -/
def execFfms (d a b : Reg) (rm : Rm) (s : State) : Host.Outcome State Fault Refusal :=
  .next (s.fpu (.ffms d a b rm) Ty.arith (s.warp.rm rm) true [a, b, d] d a b fFms)

/-- FNFMA (R136). -/
def execFnfma (d a b : Reg) (rm : Rm) (s : State) : Host.Outcome State Fault Refusal :=
  .next (s.fpu (.fnfma d a b rm) Ty.arith (s.warp.rm rm) true [a, b, d] d a b fNfma)

/-- FMIN (R137). -/
def execFmin (d a b : Reg) (s : State) : Host.Outcome State Fault Refusal :=
  .next (s.fpu (.fmin d a b) Ty.arith .rne false [a, b] d a b fun f _ _ _ x y => fMinMax f false false x y)

/-- FMAX (R137). -/
def execFmax (d a b : Reg) (s : State) : Host.Outcome State Fault Refusal :=
  .next (s.fpu (.fmax d a b) Ty.arith .rne false [a, b] d a b fun f _ _ _ x y => fMinMax f true false x y)

/-- FMINNUM (R137). -/
def execFminnum (d a b : Reg) (s : State) : Host.Outcome State Fault Refusal :=
  .next (s.fpu (.fminnum d a b) Ty.arith .rne false [a, b] d a b fun f _ _ _ x y => fMinMax f false true x y)

/-- FMAXNUM (R137). -/
def execFmaxnum (d a b : Reg) (s : State) : Host.Outcome State Fault Refusal :=
  .next (s.fpu (.fmaxnum d a b) Ty.arith .rne false [a, b] d a b fun f _ _ _ x y => fMinMax f true true x y)

/-- An element with the sign bit given (R138). -/
def withSign (f : FFmt) (neg : Bool) (x : Nat) : Nat := x % f.signBit + if neg then f.signBit else 0
def signOf (f : FFmt) (x : Nat) : Bool := decide (f.signBit ≤ x)

/-- FSGNJ (R138). -/
def execFsgnj (d a b : Reg) (s : State) : Host.Outcome State Fault Refusal :=
  .next (s.fpu (.fsgnj d a b) Ty.isFloat .rne false [a, b] d a b fun f _ _ _ x y => (withSign f (signOf f y) x, 0))

/-- FSGNJN (R138). -/
def execFsgnjn (d a b : Reg) (s : State) : Host.Outcome State Fault Refusal :=
  .next (s.fpu (.fsgnjn d a b) Ty.isFloat .rne false [a, b] d a b fun f _ _ _ x y => (withSign f (!signOf f y) x, 0))

/-- FABS (R138). -/
def execFabs (d a : Reg) (s : State) : Host.Outcome State Fault Refusal :=
  .next (s.fpu (.fabs d a) Ty.isFloat .rne false [a] d a a fun f _ _ _ x _ => (withSign f false x, 0))

/-- FNEG (R138). -/
def execFneg (d a : Reg) (s : State) : Host.Outcome State Fault Refusal :=
  .next (s.fpu (.fneg d a) Ty.isFloat .rne false [a] d a a fun f _ _ _ x _ => (withSign f (!signOf f x) x, 0))

/-- The class bit of an element (R139). -/
def classBit (f : FFmt) (x : Nat) : Nat :=
  match f.decode x with
  | .nan s => if s then 8 else 9
  | .inf n => if n then 0 else 7
  | .fin n m _ =>
    if m = 0 then (if n then 3 else 4)
    else if m < 2 ^ f.fb then (if n then 2 else 5)
    else if n then 1 else 6

/-- FCLASS: one register of masks in every type (R139). -/
def execFclass (d a : Reg) (s : State) : Host.Outcome State Fault Refusal :=
  let t := s.warp.ty .f32
  let form := s.vform (Ty.arith t) t .s [a] [] []
  .next (s.floatOp (.fclass d a) { form with use := { form.use with vw := [d.val] } } .rne 0
    (fun w l _ => (List.range t.elems).map fun e =>
      (2 ^ classBit (tyFmt t) (elemOf (tyFmt t).bits e (w.vNat a t.regs l)), 0))
    fun w r => w.writeElems d 1 16 r)

/-- FSCALE's element (R140): the exponent is held to where every format has overflowed or vanished. -/
def fScale (f : FFmt) (rm : Rm) (r a : Nat) (n : Int) : Nat × Nat :=
  match f.decode a with
  | .nan s => (f.nanCode, if s then flNV else 0)
  | .inf _ => (a, 0)
  | .fin neg m e => if m = 0 then (a, 0) else f.round rm r neg ⟨m, e + max (-5000) (min 5000 n), false⟩

/-- FSCALE: b names one register in every type (R130, R140). -/
def execFscale (d a b : Reg) (s : State) : Host.Outcome State Fault Refusal :=
  let t := s.warp.ty .f32
  let rm := s.warp.rm .dflt
  let form := s.vform (Ty.arith t) t .s [a] [d] []
  .next (s.floatOp (.fscale d a b) { form with use := { form.use with vr := b.val :: form.use.vr } } rm t.elems
    (fun w l draw => (List.range t.elems).map fun e =>
      let k := (tyFmt t).bits
      fScale (tyFmt t) rm (draw e) (elemOf k e (w.vNat a t.regs l))
        (if t.elems = 1 then (w.v b l).toInt else signedOf 16 (elemOf 16 e (w.v b l).toNat)))
    fun w r => w.writeElems d t.regs (tyFmt t).bits r)

/-- FCMP's outcome and flags (R141). -/
def FCond.holds (c : FCond) (x y : FVal) : Bool × Nat :=
  let un := x.isNan || y.isNan
  let eq := !un && !(x.lt y) && !(y.lt x)
  let fl (quiet : Bool) : Nat := if (un && !quiet) || x.isSnan || y.isSnan then flNV else 0
  match c with
  | .eq => (eq, fl true)
  | .ne => (!eq, fl true)
  | .lt => (!un && x.lt y, fl false)
  | .le => (!un && !(y.lt x), fl false)
  | .gt => (!un && y.lt x, fl false)
  | .ge => (!un && !(x.lt y), fl false)
  | .un => (un, fl true)
  | .ord => (!un, fl true)

/-- FCMP (R141). -/
def execFcmp (p : PReg) (a b : Reg) (c : FCond) (s : State) : Host.Outcome State Fault Refusal :=
  let t := s.warp.ty .f32
  let form := s.vform (t == .f32 || t == .f64) t .s [a, b] [] []
  .next (s.floatOp (.fcmp p a b c) { form with use := { form.use with pw := [p.val] } } .rne 0
    (fun w l _ =>
      let h := FCond.holds c ((tyFmt t).decode (w.vNat a t.regs l)) ((tyFmt t).decode (w.vNat b t.regs l))
      [(if h.1 then 1 else 0, h.2)])
    fun w r => w.setP p w.guarded (LaneMask.ofFn fun l => r[l].any fun x => x.1 == 1))

/-- FDOT2's exact value over its three terms (R142). -/
def dot2 (f : FFmt) (rm : Rm) (d a b : Nat) : FOut :=
  let acc := f32F.decode d
  let x (i : Nat) : FVal := f.decode (elemOf 16 i a)
  let y (i : Nat) : FVal := f.decode (elemOf 16 i b)
  let p0 := FVal.mul (x 0) (y 0)
  let p1 := FVal.mul (x 1) (y 1)
  let zeroInf (u v : FVal) : Bool := match u, v with
    | .inf _, .fin _ m _ | .fin _ m _, .inf _ => m == 0
    | _, _ => false
  if zeroInf (x 0) (y 0) || zeroInf (x 1) (y 1) then nvNan
  else if [acc, x 0, x 1, y 0, y 1].any FVal.isNan then anyNan [acc, x 0, x 1, y 0, y 1]
  else
    let u := FVal.add rm acc p0.1
    let v := FVal.add rm u.1 p1.1
    if u.1.isNan then nvNan else v

/-- FDOT2: d, a and b name one register each (R142). -/
def execFdot2 (d a b : Reg) (rm : Rm) (s : State) : Host.Outcome State Fault Refusal :=
  let t := s.warp.ty .f32
  let rm' := s.warp.rm rm
  .next (s.floatOp (.fdot2 d a b rm) (s.vform (t == .f16x2 || t == .bf16x2) t .s [a, b, d] [d] []) rm' 1
    (fun w l draw =>
      [f32F.finish rm' (draw 0) (dot2 (tyFmt t) rm' (w.v d l).toNat (w.v a l).toNat (w.v b l).toNat)])
    fun w r => w.writeElems d 1 32 r)

/-- A long floating form: operands and draws at issue, results and flags at completion (R146). -/
def State.longFloat (s : State) (i : Instr) (ok : Ty → Bool) (reads : List Reg) (d a b : Reg) (la : Fin 16) (f : FOp) :
    State :=
  let t := s.warp.ty .f32
  let rm := s.warp.rm .dflt
  let form := s.vform (ok t) t .l reads [d] []
  s.issue i form fun s =>
    let r := laneResults s.hdr s.warp (rm == .sr) (f.lane t rm d a b s.warp)
    .done (s.modWarp fun w =>
      (w.pushLong la.val form.use
        (wbNat d t.regs w.guarded fun l => packElems (tyFmt t).bits (r[l].map (·.1))) (gatherFlags r) none).drew
        (rm == .sr) t.elems)

def fSfu (op : Sfu) : FOp := fun f rm r _ a _ => f.sfu op rm r (f.decode a)

/-- FRCP (R143, R144). -/
def execFrcp (d a : Reg) (la : Fin 16) (s : State) : Host.Outcome State Fault Refusal :=
  .next (s.longFloat (.frcp d a la) Ty.arith [a] d a a la (fSfu .rcp))

/-- FRSQ (R143, R144). -/
def execFrsq (d a : Reg) (la : Fin 16) (s : State) : Host.Outcome State Fault Refusal :=
  .next (s.longFloat (.frsq d a la) Ty.arith [a] d a a la (fSfu .rsq))

/-- FSQRT (R143, R144). -/
def execFsqrt (d a : Reg) (la : Fin 16) (s : State) : Host.Outcome State Fault Refusal :=
  .next (s.longFloat (.fsqrt d a la) Ty.arith [a] d a a la (fSfu .sqrt))

/-- FEXP2 (R143, R144). -/
def execFexp2 (d a : Reg) (la : Fin 16) (s : State) : Host.Outcome State Fault Refusal :=
  .next (s.longFloat (.fexp2 d a la) Ty.transc [a] d a a la (fSfu .exp2))

/-- FLOG2 (R143, R144). -/
def execFlog2 (d a : Reg) (la : Fin 16) (s : State) : Host.Outcome State Fault Refusal :=
  .next (s.longFloat (.flog2 d a la) Ty.transc [a] d a a la (fSfu .log2))

/-- FSIN (R143, R144). -/
def execFsin (d a : Reg) (la : Fin 16) (s : State) : Host.Outcome State Fault Refusal :=
  .next (s.longFloat (.fsin d a la) Ty.transc [a] d a a la (fSfu .sin))

/-- FCOS (R143, R144). -/
def execFcos (d a : Reg) (la : Fin 16) (s : State) : Host.Outcome State Fault Refusal :=
  .next (s.longFloat (.fcos d a la) Ty.transc [a] d a a la (fSfu .cos))

/-- FTANH (R143, R144). -/
def execFtanh (d a : Reg) (la : Fin 16) (s : State) : Host.Outcome State Fault Refusal :=
  .next (s.longFloat (.ftanh d a la) Ty.transc [a] d a a la (fSfu .tanh))

/-- FDIV (R145). -/
def execFdiv (d a b : Reg) (la : Fin 16) (s : State) : Host.Outcome State Fault Refusal :=
  .next (s.longFloat (.fdiv d a b la) Ty.arith [a, b] d a b la fun f rm r _ x y => f.div rm r (f.decode x) (f.decode y))

/-- FRND's element (R147). -/
def fRnd (f : FFmt) (rm : Rm) (r a : Nat) : Nat × Nat :=
  match f.decode a with
  | .nan s => (f.nanCode, if s then flNV else 0)
  | .inf _ => (a, 0)
  | .fin neg m e =>
    if m = 0 ∨ 0 ≤ e then (a, 0)
    else
      let k := roundInt rm r neg ⟨m, e, false⟩
      ((f.round .rne 0 neg ⟨k.1, 0, false⟩).1, if k.2 then flNX else 0)

/-- FRND (R147). -/
def execFrnd (d a : Reg) (rm : Rm) (s : State) : Host.Outcome State Fault Refusal :=
  .next (s.fpu (.frnd d a rm) Ty.arith (s.warp.rm rm) true [a] d a a fun f rm r _ x _ => fRnd f rm r x)

/-! Conversion (R148, R149). -/

/-- One element from type `t` to type `u` (R149). -/
def cvtElem (t u : Ty) (rm : Rm) (r x : Nat) : Nat × Nat :=
  if t.isInt then
    if u.isInt then (u.sat (t.val x), 0)
    else
      let v := t.val x
      (tyFmt u).round rm r (decide (v < 0)) ⟨v.natAbs, 0, false⟩
  else
    let v := (tyFmt t).decode x
    if u.isInt then toIntType u.elemBits u.signed rm r v
    else (tyFmt u).ofVal rm r v

/-- Destination bits of CVT (R148). -/
def cvtBits (t u : Ty) : Nat := t.elems * u.elemBits
def cvtRegs (t u : Ty) : Nat := if cvtBits t u ≤ 32 then 1 else cvtBits t u / 32

/-- CVT: the clause type names the source (R148, R149). -/
def execCvt (d a : Reg) (ty : Ty) (rm : Rm) (s : State) : Host.Outcome State Fault Refusal :=
  let t := s.warp.ty .i32
  let rm' := s.warp.rm rm
  let ok := t.isInt || t.isFloat
  let nd := if ok then cvtRegs t ty else 1
  let form := s.vform ok t .s [a] [] []
  .next (s.floatOp (.cvt d a ty rm)
    { form with
      undef := form.undef || (ok && (decide (128 < cvtBits t ty) || d.val % nd != 0))
      use := { form.use with vw := span d (min nd 4) } }
    rm' (if t.isInt && ty.isInt then 0 else t.elems)
    (fun w l draw => (List.range t.elems).map fun e =>
      cvtElem t ty rm' (draw e) (elemOf t.elemBits e (w.vNat a t.regs l)))
    fun w r => w.writeElems d nd ty.elemBits r)

/-- FPACK: f32 sources into the clause type's elements (R150). -/
def execFpack (d a b : Reg) (rm : Rm) (s : State) : Host.Outcome State Fault Refusal :=
  let t := s.warp.ty .f32
  let rm' := s.warp.rm rm
  let ok := t == .f16x2 || t == .bf16x2 || t == .e4m3x4 || t == .e5m2x4
  let n := if ok then t.elems / 2 else 1
  let form : Form := {
    undef := ok && (a.val % n != 0 || b.val % n != 0)
    badType := !ok
    use := { vr := span a n ++ span b n, vw := [d.val], sr := maskUse, pr := s.warp.guardUse } }
  .next (s.floatOp (.fpack d a b rm) form rm' t.elems
    (fun w l draw => (List.range t.elems).map fun e =>
      let src := elemOf 32 (e % n) (if e < n then w.vNat a n l else w.vNat b n l)
      (tyFmt t).ofVal rm' (draw e) (f32F.decode src))
    fun w r => w.writeElems d 1 (tyFmt t).bits r)

end Sys2Proof.Machine
end

