-- ==== Sys2Proof/Machine/Lanes.lean ====
section
/-! DEFINITION. The cross-lane instructions (R154 to R165). -/

namespace Sys2Proof.Machine

/-- Logical group sizes (R154). -/
def GroupCode.size : GroupCode → Nat
  | .g96 => 96 | .g48 => 48 | .g32 => 32 | .g16 => 16 | .g8 => 8 | .g4 => 4

/-- The logical group size in force (R53). -/
def Warp.groupSize (w : Warp) : Nat := GroupCode.size w.group

/-- The balanced pairwise tree over `n` positions from `lo` (R159). -/
def tree {α : Type} (op : α → α → α) (leaf : Nat → Option α) : Nat → Nat → Nat → Option α
  | 0, lo, _ => leaf lo
  | fuel + 1, lo, n =>
    if n ≤ 1 then leaf lo
    else
      match tree op leaf fuel lo (n / 2), tree op leaf fuel (lo + n / 2) (n - n / 2) with
      | some x, some y => some (op x y)
      | some x, none => some x
      | none, y => y

/-- An operation of R160 on one element: bits and flags. -/
def xElem (op : XOp) (t : Ty) (rm : Rm) (x y : Nat) : Nat × Nat :=
  if t.isFloat then
    let f := tyFmt t
    match op with
    | .min => fMinMax f false false x y
    | .max => fMinMax f true false x y
    | _ => f.finish rm 0 (FVal.add rm (f.decode x) (f.decode y))
  else
    match op with
    | .add => (eAdd t x y, 0)
    | .min => (eMin t x y, 0)
    | .max => (eMax t x y, 0)
    | .and => (x &&& y, 0)
    | .or => (x ||| y, 0)
    | .xor => (x ^^^ y, 0)

/-- The operation on whole operands, with the flags of both sides and of the node (R160, R164). -/
def xNode (op : XOp) (t : Ty) (rm : Rm) (x y : Nat × Nat) : Nat × Nat :=
  let es := (List.range t.elems).map fun e => xElem op t rm (elemOf t.elemBits e x.1) (elemOf t.elemBits e y.1)
  (packElems t.elemBits (es.map (·.1)), es.foldl (fun n e => n ||| e.2) (x.2 ||| y.2))

/-- Empty(op) (R161). -/
def xEmpty (op : XOp) (t : Ty) : Nat :=
  let f := tyFmt t
  mapElems t.elemBits t.elems fun _ =>
    match op with
    | .add | .or | .xor => 0
    | .and => 2 ^ t.elemBits - 1
    | .min => if t.isFloat then f.infCode else t.sat (2 ^ 64)
    | .max => if t.isFloat then f.signBit + f.infCode else t.sat (-(2 ^ 64))

/-- The rounding mode of a cross-lane add: SR becomes RNE (R160). -/
def Warp.xRm (w : Warp) : Rm := if w.rm .dflt = .sr then .rne else w.rm .dflt

/-- Types of the combining forms (R157). -/
def xAccepts (op : XOp) (t : Ty) : Bool :=
  match op with
  | .and | .or | .xor => t.isInt
  | _ => t.isInt || Ty.arith t

/-- The lane of a group position. -/
def laneAt (base j : Nat) : Lane := Fin.ofNat 96 (base + j)

/-! Moves between lanes (R158). -/

/-- A move: the source position of each active lane, from the lane's position and its own b. -/
def State.xmove (s : State) (i : Instr) (d a : Reg) (la : Fin 16) (vr sr : List Nat) (src : Warp → Nat → Lane → Nat) :
    State :=
  let t := s.warp.ty .b32
  let form := s.vform t.isBits t .l [a] [d] sr
  s.compute i { form with use := { form.use with vr := vr ++ form.use.vr } } fun w =>
    let g := w.groupSize
    w.pushLong la.val { form.use with vr := vr ++ form.use.vr }
      (wbNat d t.regs w.guarded fun l =>
        let p := laneAt (l.val - l.val % g) (src w g l % g)
        if LaneMask.has w.guarded p then w.vNat a t.regs p else 0) 0 none

/-- XSHFL (R158). -/
def execXshfl (d a b : Reg) (la : Fin 16) (s : State) : Host.Outcome State Fault Refusal :=
  .next (s.xmove (.xshfl d a b la) d a la [b.val] [] fun w _ l => (w.v b l).toNat)

/-- XROT (R158). -/
def execXrot (d a b : Reg) (la : Fin 16) (s : State) : Host.Outcome State Fault Refusal :=
  .next (s.xmove (.xrot d a b la) d a la [] [b.val] fun w g l => l.val % g + (w.s b).toNat)

/-- XBCAST (R158). -/
def execXbcast (d a b : Reg) (la : Fin 16) (s : State) : Host.Outcome State Fault Refusal :=
  .next (s.xmove (.xbcast d a b la) d a la [] [b.val] fun w _ _ => (w.s b).toNat)

/-! Reductions and scans (R161). -/

/-- A combining form: which positions of lane `l`'s group are present. -/
def State.xcombine (s : State) (i : Instr) (d a : Reg) (op : XOp) (la : Fin 16) (present : Nat → Nat → Bool) : State :=
  let t := s.warp.ty .i32
  let form := s.vform (xAccepts op t) t .l [a] [d] []
  s.compute i form fun w =>
    let g := w.groupSize
    let val (l : Lane) : Nat × Nat :=
      if LaneMask.has w.guarded l then
        (tree (xNode op t w.xRm) (fun j =>
          let p := laneAt (l.val - l.val % g) j
          if LaneMask.has w.guarded p && present j (l.val % g) then some (w.vNat a t.regs p, 0) else none) 7 0 g).getD
          (xEmpty op t, 0)
      else (0, 0)
    let fl := (List.finRange 96).foldl (fun n l => n ||| (val l).2) 0
    w.pushLong la.val form.use (wbNat d t.regs w.guarded fun l => (val l).1) fl none

/-- XREDUCE (R161). -/
def execXreduce (d a : Reg) (op : XOp) (la : Fin 16) (s : State) : Host.Outcome State Fault Refusal :=
  .next (s.xcombine (.xreduce d a op la) d a op la fun _ _ => true)

/-- XSCANI (R161). -/
def execXscani (d a : Reg) (op : XOp) (la : Fin 16) (s : State) : Host.Outcome State Fault Refusal :=
  .next (s.xcombine (.xscani d a op la) d a op la fun j k => decide (j ≤ k))

/-- XSCANE (R161). -/
def execXscane (d a : Reg) (op : XOp) (la : Fin 16) (s : State) : Host.Outcome State Fault Refusal :=
  .next (s.xcombine (.xscane d a op la) d a op la fun j k => decide (j < k))

/-! Match forms (R162). -/

/-- Whether lane `m` is in the class of lane `l`. -/
def sameClass (w : Warp) (g : Nat) (a : Reg) (l m : Lane) : Bool :=
  LaneMask.has w.guarded m && l.val / g == m.val / g && w.v a l == w.v a m

def State.xmatch (s : State) (i : Instr) (t : Ty) (ok : Bool) (d a b : Reg) (la : Fin 16)
    (node : Rm → Nat × Nat → Nat × Nat → Nat × Nat) : State :=
  let form := s.vform ok t .l [d] [d] []
  let use := { form.use with vr := a.val :: form.use.vr, sw := span b 3 }
  s.compute i { form with use := use } fun w =>
    let g := w.groupSize
    let val (l : Lane) : Nat × Nat :=
      if LaneMask.has w.guarded l then
        (tree (node w.xRm) (fun j =>
          let p := laneAt (l.val - l.val % g) j
          if sameClass w g a l p then some (w.vNat d t.regs p, 0) else none) 7 0 g).getD (0, 0)
      else (0, 0)
    let fl := (List.finRange 96).foldl (fun n l => n ||| (val l).2) 0
    let leaders := LaneMask.ofFn fun l =>
      LaneMask.has w.guarded l && (List.finRange 96).all fun m => !(decide (m.val < l.val) && sameClass w g a l m)
    w.pushLong la.val use
      (wbNat d t.regs w.guarded (fun l => (val l).1) ++
        (List.range 3).map fun k => WriteBack.s (b + Fin.ofNat 128 k) (leaders.part k)) fl none

/-- XMADD (R162). -/
def execXmadd (d a b : Reg) (la : Fin 16) (s : State) : Host.Outcome State Fault Refusal :=
  let t := s.warp.ty .i32
  .next (s.xmatch (.xmadd d a b la) t (xAccepts .add t) d a b la (xNode .add t))

/-- XMMIN (R162). -/
def execXmmin (d a b : Reg) (la : Fin 16) (s : State) : Host.Outcome State Fault Refusal :=
  let t := s.warp.ty .i32
  .next (s.xmatch (.xmmin d a b la) t (xAccepts .min t) d a b la (xNode .min t))

/-- XMMAX (R162). -/
def execXmmax (d a b : Reg) (la : Fin 16) (s : State) : Host.Outcome State Fault Refusal :=
  let t := s.warp.ty .i32
  .next (s.xmatch (.xmmax d a b la) t (xAccepts .max t) d a b la (xNode .max t))

/-- XMOR on whole registers of the bits types (R157, R162). -/
def execXmor (d a b : Reg) (la : Fin 16) (s : State) : Host.Outcome State Fault Refusal :=
  let t := s.warp.ty .b32
  .next (s.xmatch (.xmor d a b la) t t.isBits d a b la fun _ x y => (x.1 ||| y.1, 0))

/-! Votes (R163). -/

/-- The lanes of lane `l`'s group that are in the mask. -/
def groupLanes (g : Nat) (m : LaneMask) (l : Lane) : List Lane := m.lanes.filter fun p => p.val / g == l.val / g

/-- A vote: the predicate's true active lanes, and the active lanes. -/
def State.xvote (s : State) (i : Instr) (p : PReg) (la : Fin 16) (writes : Use)
    (f : Warp → LaneMask → LaneMask → List WriteBack) : State :=
  let use := { writes with pr := p.val :: s.warp.guardUse, sr := maskUse }
  s.compute i { cls := .l, use := use } fun w =>
    w.pushLong la.val use (f w (w.p p &&& w.guarded) w.guarded) 0 none

/-- XBALLOT (R163). -/
def execXballot (d : Reg) (p : PReg) (la : Fin 16) (s : State) : Host.Outcome State Fault Refusal :=
  .next (s.xvote (.xballot d p la) p la { sw := span d 3 } fun _ v _ =>
    (List.range 3).map fun k => WriteBack.s (d + Fin.ofNat 128 k) (v.part k))

/-- XANY (R163). -/
def execXany (q p : PReg) (la : Fin 16) (s : State) : Host.Outcome State Fault Refusal :=
  .next (s.xvote (.xany q p la) p la { pw := [q.val] } fun w v act =>
    [.p q act (LaneMask.ofFn fun l => groupLanes w.groupSize v l != [])])

/-- XALL (R163). -/
def execXall (q p : PReg) (la : Fin 16) (s : State) : Host.Outcome State Fault Refusal :=
  .next (s.xvote (.xall q p la) p la { pw := [q.val] } fun w v act =>
    [.p q act (LaneMask.ofFn fun l => groupLanes w.groupSize v l == groupLanes w.groupSize act l)])

/-- XCOUNT (R163). -/
def execXcount (d : Reg) (p : PReg) (la : Fin 16) (s : State) : Host.Outcome State Fault Refusal :=
  .next (s.xvote (.xcount d p la) p la { vw := [d.val] } fun w v act =>
    [wbV d act fun l => BitVec.ofNat 32 (groupLanes w.groupSize v l).length])

/-- XFIRST (R163). -/
def execXfirst (d : Reg) (p : PReg) (la : Fin 16) (s : State) : Host.Outcome State Fault Refusal :=
  .next (s.xvote (.xfirst d p la) p la { vw := [d.val] } fun w v act =>
    [wbV d act fun l => match (groupLanes w.groupSize v l).head? with
      | some m => BitVec.ofNat 32 (m.val % w.groupSize)
      | none => 0xFFFFFFFF#32])

end Sys2Proof.Machine
end

