-- ==== Sys2Proof/Machine/Array.lean ====
section
/-! DEFINITION. The matrix array: one chunk of an MMA (R318 to R332). -/

namespace Sys2Proof.Machine

/-- A group of activations (R318): the kind, and for an ordinary group the aligned elements and the exponent of their
last place. -/
inductive ActGroup where
  | nan
  | zero
  | ord (x : List Int) (e : Int)
deriving DecidableEq, Repr

/-- The code of an activation format, as a storage format (R326). -/
def actGroup (fmt : Nat) (int : Bool) (codes : List Nat) : ActGroup :=
  let a := codes.map (fmtDecode fmt)
  if !a.all FVal.finite then .nan
  else if int then
    let x := codes.map (fmtIntVal fmt)
    if x.all (· == 0) then .zero else .ord x 0
  else match maxLog2 a with
    | none => .zero
    | some top => .ord (a.map fun v => (levelOf v (top - 30)).1) (top - 30)

/-- The sum of products of a group, by parts (R319, R320). -/
def groupSum (r : GroupRec) (x : List Int) : Int :=
  let y := r.perm.map fun k => x.getD k 0
  let s := y.foldl (fun (acc : List Int × Int) v => (acc.1 ++ [acc.2 + v], acc.2 + v)) ([], 0)
  r.base * s.2 - ((List.range 15).map fun k => r.d.getD k 0 * s.1.getD k 0).foldl (· + ·) 0

/-- SAT in byte 3 of the completion record (R329). -/
def flSAT : Nat := 0x20

/-- One group enters an accumulator in floating mode (R320): the accumulator and the flags. -/
def accFloat (r : GroupRec) (g : ActGroup) (c : Nat) : Nat × Nat :=
  match g with
  | .nan => (f32F.nanCode, flNV)
  | .zero => (c, 0)
  | .ord x e =>
    if r.code = 0xFF then (f32F.nanCode, flNV)
    else
      let v := groupSum r x
      if v = 0 then (c, 0)
      else f32F.finish .rne 0 (FVal.add .rne (f32F.decode c) (FVal.ofInt v (e + (r.code : Int) - 127) false))

/-- One group enters an accumulator in integer mode (R321). -/
def accInt (r : GroupRec) (g : ActGroup) (c : Nat) : Nat × Nat :=
  match g with
  | .ord x _ =>
    if r.code = 0xFF then (c, flNV)
    else
      let (v, inexact) := levelOf (FVal.ofInt (groupSum r x) ((r.code : Int) - 127) false) 0
      let t := signedOf 32 c + v
      let u := max (-(2 ^ 31 : Int)) (min (2 ^ 31 - 1) t)
      (wrapTo 32 u, (if inexact then flNX else 0) + if u = t then 0 else flSAT)
  | _ => (c, 0)

/-- The bytes that an MMA's operands reach: buffer, offset, length, of each row or column (R327). -/
def MmaDesc.extents (x : MmaDesc) : List (Buf × Nat × Nat) :=
  ((List.range x.m).map fun i => (Buf.ab, x.a + i * x.sa, x.k * actBytes x.fmt)) ++
  ((List.range 64).map fun n => (Buf.wb, x.b + n * x.sb, x.k / 16 * recordBytes x.slot)) ++
  ((List.range x.m).map fun i => (Buf.cb, x.c + i * x.sc, 256))

/-- The checks of an MMA when it starts (R201, R214, R327). -/
def State.mmaStart (s : State) (g : WgKey) (desc : List Byte) : Option Stop :=
  let l := (mmaDesc desc).extents
  match l.find? fun e => decide (s.bufSize g e.1 < e.2.1 + e.2.2) with
  | some e => some (.fail eBufBound e.2.1)
  | none => (l.find? fun e => s.lentOut g e.1 e.2.1 e.2.2).map fun e => .fail eHandle e.2.1

/-- Where the CB ranges of two MMAs overlap (R333). -/
def MmaDesc.cbRange (x : MmaDesc) : Nat × Nat := (x.c, x.c + (x.m - 1) * x.sc + 256)
def MmaDesc.overlaps (x y : MmaDesc) : Bool :=
  let a := x.cbRange
  let b := y.cbRange
  decide (a.1 < b.2 ∧ b.1 < a.2)

def MmaDesc.chunks (x : MmaDesc) : Nat := (x.k / 16 + 15) / 16
/-- The groups of chunk `c` (R328). -/
def MmaDesc.groups (x : MmaDesc) (c : Nat) : List Nat :=
  (List.range (min (16 * c + 16) (x.k / 16) - 16 * c)).map fun i => 16 * c + i

/-- The activations of row `i`, group `g` (R327). -/
def State.mmaActs (s : State) (k : WgKey) (x : MmaDesc) (i g : Nat) : ActGroup :=
  let w := actBytes x.fmt
  let bytes := s.bufRead k .ab (x.a + i * x.sa + 16 * g * w) (16 * w)
  actGroup x.fmt x.int ((List.range 16).map fun j => bytesAt bytes (j * w) w)

/-- The record of column `n`, group `g` (R327). -/
def State.mmaRecord (s : State) (k : WgKey) (x : MmaDesc) (n g : Nat) : Option GroupRec :=
  parseRecord (s.bufRead k .wb (x.b + n * x.sb + g * recordBytes x.slot) (recordBytes x.slot)) x.slot

/-- The counts of one group on one element (R329): evaluated, skipped, zero steps. -/
def groupCounts (r : GroupRec) (g : ActGroup) : Nat × Nat × Nat :=
  match g with
  | .zero => (0, 1, 0)
  | .nan => (1, 0, 0)
  | .ord _ _ => (1, 0, (r.d.filter (· == 0)).length)

/-- One element's chunk: the accumulator, and the tally with its flags and counts. MMA counts stand in the tally's
`count`, `nans` and `infs`: evaluations, skipped groups, zero steps. -/
def accElement (int : Bool) (l : List (GroupRec × ActGroup)) (c : Nat) (t : Tally) : Nat × Tally :=
  l.foldl (fun acc x =>
    let (c, f) := if int then accInt x.1 x.2 acc.1 else accFloat x.1 x.2 acc.1
    let (a, b, z) := groupCounts x.1 x.2
    let t := acc.2
    (c, { t with flags := t.flags ||| f, count := t.count + a, nans := t.nans + b, infs := t.infs + z })) (c, t)

/-- What chunk `c` of an MMA computes (R328): every record of the chunk is read and checked, then each element's value, by its
offset in CB, and the tally. -/
def State.mmaCompute (s : State) (k : WgKey) (desc : List Byte) (c : Nat) (t : Tally) : Except Stop (List (Nat × Nat) × Tally) :=
  let x := mmaDesc desc
  let gs := x.groups c
  let recs := (List.range 64).map fun n => gs.map fun g => s.mmaRecord k x n g
  if recs.any fun l => l.any Option.isNone then .error (.fail eBadRec 0)
  else
    let cols := recs.map fun l => l.filterMap id
    .ok ((List.range x.m).foldl (fun (acc : List (Nat × Nat) × Tally) i =>
      let acts := gs.map fun g => s.mmaActs k x i g
      cols.zipIdx.foldl (fun acc col =>
        let o := x.c + i * x.sc + 4 * col.2
        let c0 := if c = 0 ∧ x.zeroFirst then 0 else ofLeBytes (s.bufRead k .cb o 4)
        let (v, t) := accElement x.int (col.1.zip acts) c0 acc.2
        (acc.1 ++ [(o, v)], t)) acc) ([], t))

/-- A chunk's commit (R328, R332): the whole tile. Other paths may see its elements appear one by one. -/
def State.mmaCommit (s : State) (k : WgKey) (l : List (Nat × Nat)) : State :=
  l.foldl (fun s x => s.enginePut k true (.buffer k .cb x.1) (leBytes 4 x.2)) s

/-- Chunk `c` of an MMA (R328): what it has read ahead commits, else it reads, computes and commits in this step. Its path sees
earlier tiles whole (R332), and of what the other paths have left to be written nothing (R203). -/
def State.mmaChunk (s : State) (k : WgKey) (desc : List Byte) (ahead : Option (List (Nat × Nat) × Tally)) (c : Nat) (t : Tally) :
    Done :=
  let s := s.performTiles k
  match ahead with
  | some (l, t) => (none, s.mmaCommit k l, t)
  | none =>
    match s.mmaCompute k desc c t with
    | .error e => (some e, s, t)
    | .ok (l, t) => (none, s.mmaCommit k l, t)

end Sys2Proof.Machine
end

