-- ==== Sys2Proof/Machine/Collect.lean ====
section
/-! DEFINITION. The collective engine: contributions and results (R426, R427). -/

namespace Sys2Proof.Machine

def State.collGroup (s : State) (ctx num : Nat) : Option CollGroup := s.collGroups.find? fun g => g.ctx == ctx && g.num == num
/-- The slot is in a member's range. -/
def CollGroup.has (g : CollGroup) (peer slot : Nat) : Bool :=
  g.ranges.any fun r => r.1 == peer && decide (r.2.1 ≤ slot ∧ slot < r.2.1 + r.2.2)
/-- Every slot that is assigned to some member. -/
def CollGroup.assigned (g : CollGroup) : List Nat := g.ranges.flatMap fun r => (List.range r.2.2).map (r.2.1 + ·)

def CollInstance.is (i : CollInstance) (ctx group : Nat) (tag : Word) : Bool :=
  i.ctx == ctx && i.group == group && i.tag == tag
def State.instance? (s : State) (ctx group : Nat) (tag : Word) : Option CollInstance :=
  s.instances.find? fun i => i.is ctx group tag
def State.setInstance (s : State) (i : CollInstance) : State :=
  { s with instances := i :: s.instances.filter fun x => !x.is i.ctx i.group i.tag }

def CollInstance.slot? (i : CollInstance) (k : Nat) : Option CollSlot := i.slots.find? fun x => x.slot == k

/-- Bytes of a register's worth of the type. -/
def CollDesc.width (x : CollDesc) : Nat := 4 * ((collType x.ty).getD .i32).regs

/-- A member of the group other than this one has lost its link (R425, R426). -/
def State.groupBroken (s : State) (g : CollGroup) : Bool :=
  g.ranges.any fun r => r.1 != s.selfPeer && s.peers.any fun p => p.num == r.1 && !p.up

/-- The contribution of a COLL (R427): its slots, each a vector of registers' worths. One that the command, or the context
before a rollback or planting, has made is recognised by group, tag and slot, and not made twice. -/
def State.collContribute (s : State) (g : WgKey) (st : Fin 16) (cmd : Command) : Option Stop × State :=
  let x := collDesc cmd.desc
  let owner := some (g, st, cmd.seq)
  let slots := (List.range x.slots).map (x.first + ·)
  match s.collGroup g.ctx x.group with
  | none => (some (.fail eCollPeer 0), s)
  | some grp =>
    let i := (s.instance? g.ctx x.group x.tag).getD ⟨g.ctx, x.group, x.tag, [], false⟩
    let mine (k : Nat) : Bool := (i.slot? k).any fun y => y.owner == owner || y.owner == none
    let i : CollInstance := if i.done && !slots.any mine then ⟨g.ctx, x.group, x.tag, [], false⟩ else i
    if slots.any fun k => !grp.has s.selfPeer k || ((i.slot? k).isSome && !mine k) then (some (.fail eCollSlot 0), s)
    else if s.groupBroken grp then (some (.fail eCollPeer 0), s)
    else
      let w := x.width
      match s.homeReadVa fabric g.ctx .collective false x.src (x.slots * x.elems * w) with
      | (.error (f, a), s) => (some (.fault f .collective a), s)
      | (.ok bytes, s) =>
        let vec (k : Nat) : List Nat := (List.range x.elems).map fun e => bytesAt bytes (((k - x.first) * x.elems + e) * w) w
        let cycle : Int := s.now + ((s.context g.ctx).map (·.cycleBase)).getD 0
        let new := (slots.filter fun k => (i.slot? k).isNone).map fun k => (⟨k, vec k, owner, cycle⟩ : CollSlot)
        let old := i.slots.map fun y => if slots.contains y.slot then { y with owner := owner, cycle := cycle } else y
        (none, s.setInstance { i with slots := old ++ new })

/-- What a context has contributed after the CYCLE of an image that is planted, by a rollback or not, may be contributed again by
whichever command (R427). -/
def State.forgetOwners (s : State) (ctx : Nat) (cycle : Int) : State :=
  { s with instances := s.instances.map fun i =>
      if i.ctx == ctx then { i with slots := i.slots.map fun y => if cycle < y.cycle then { y with owner := none } else y } else i }

/-- Every assigned slot has been contributed (R427). -/
def State.collReady (s : State) (i : CollInstance) : Bool :=
  match s.collGroup i.ctx i.group with
  | some g => g.assigned != [] && g.assigned.all fun k => (i.slot? k).isSome
  | none => false

/-- The result: each element is Tree(0, 4,096) with absent slots absent, and its flags (R159, R427). -/
def collResult (x : CollDesc) (i : CollInstance) : List Nat × Nat :=
  let t := (collType x.ty).getD .i32
  let r := (List.range x.elems).map fun e =>
    (tree (xNode (collOp x.op) t .rne) (fun k => (i.slot? k).map fun y => (y.vec.getD e 0, 0)) 12 0 4096).getD (0, 0)
  (r.map (·.1), r.foldl (fun f y => f ||| y.2) 0)

/-- Write the result to a COLL's destination. -/
def State.collWrite (s : State) (ctx : Nat) (x : CollDesc) (v : List Nat) : Option Stop × State :=
  match s.servedWrite ctx .copyWrite x.dst (v.flatMap (leBytes x.width)) with
  | (none, s) => (none, s)
  | (some (f, a), s) => (some (.fault f .collective a), s)

end Sys2Proof.Machine
end

