-- ==== Sys2Proof/Machine/Commands.lean ====
section
/-! DEFINITION. The life of a command (R289 to R292, R299, R308, R309, R327 to R333, R427): start, chunks, completion, failure. -/

namespace Sys2Proof.Machine

/-- The command at the head of a stream. -/
def State.head? (s : State) (g : WgKey) (st : Fin 16) : Option Command :=
  (s.group? g).bind fun x => (x.streams[st]).commands.head?
def State.modStream (s : State) (g : WgKey) (st : Fin 16) (f : Stream → Stream) : State :=
  s.modGroup g fun x => { x with streams := x.streams.set st (f x.streams[st]) }
def State.modHead (s : State) (g : WgKey) (st : Fin 16) (f : Command → Command) : State :=
  s.modStream g st fun x => { x with commands := match x.commands with
    | c :: cs => f c :: cs
    | [] => [] }

/-- The device carries out the group's commands. -/
def State.engineRuns (s : State) (g : WgKey) : Bool :=
  s.contextRuns g.ctx && ((s.group? g).map fun x => x.state == .resident || x.state == .draining).getD false

/-! What a change of a stream does to those that wait. -/

/-- The SWAITs of a workgroup whose streams have reached their targets complete; those that meet an error
execute afresh, and raise it when their split may issue (R296, R355, R384). -/
def State.serveSwaits (s : State) (g : WgKey) : State :=
  (sortOldest ((s.warpsOf g).map (·.key))).foldl (fun s k =>
    (List.finRange 4).foldl (fun s i => match (s.warpAt k).bind (·.splits[i]) with
      | some p => match p.wait with
        | .swait d t st =>
          match (s.group? g).map fun (x : Workgroup) => Stream.swait x.streams[st] st.val t with
          | some (.reached c) => s.modWarpAt k fun w =>
              ({ w with clock := if (s.hdrOf g.launch).det then w.clock - 1 else w.clock } : Warp).completeWait i none
                fun w => w.setS d c
          | some (.error _) => s.inSplit k i fun s => s.setWait .ready
          | _ => s
        | _ => s
      | none => s) s) s

/-- After a change of a stream: waiters on it, on a window entry and on its accesses go on, and a draining workgroup may
retire (R209, R291, R292). -/
def State.streamChanged (s : State) (g : WgKey) : State :=
  let s := s.serveSwaits g
  let s := s.wake (fun _ => true) (· == .window) none
  let s := s.wake (fun w => w.key.wg == g) (· == .hgive) none
  s.drainGroup g

/-! Failure (R290). -/

/-- The stream enters error: its error word names the head command, and what follows it is discarded. -/
def State.streamError (s : State) (g : WgKey) (st : Fin 16) (code : Nat) : State :=
  ((s.performStream g st).modStream g st fun x => { x with
    err := BitVec.ofNat 32 (code * 256 + st.val)
    errSeq := (x.commands.head?.map fun c : Command => c.seq).getD 0
    commands := [] }).streamChanged g

/-- A command parks at a fault that is offered for service (R191). -/
def State.parkCommand (s : State) (g : WgKey) (st : Fin 16) (c : Cause) (kind : AccessKind) (va level : Nat) (bad : Bool) : State :=
  let (id, s) := s.parkAt (.command g st) g.ctx (some c) kind (BitVec.ofNat 64 va) false level bad
  s.modHead g st fun c => { c with parked := some id }

/-- The run-time code of a translation that fails a command at once, and the address its record reports (R290, R308, R414,
R425). -/
def XFault.code (x : XFault) (va : Nat) : Nat × Nat :=
  match x with
  | .ecc => (eEccErr, 0)
  | .link => (eCollPeer, 0)
  | _ => (eFault, va)

/-- Write the head command's completion record, when its prefix asks for one (R308, R310, R329). -/
def State.writeRecord (s : State) (g : WgKey) (st : Fin 16) (c : Command) : Option Stop × State :=
  if !wantsRecord c.desc then (none, s)
  else
    let bytes := c.recordBytes st.val c.fail.1 c.fail.2
    let (bytes, s) := if c.spoilt then s.freeBytes bytes.length else (bytes, s)
    match s.servedWrite g.ctx .copyWrite (recordAddr c.desc) bytes with
    | (none, s) => (none, s)
    | (some (x, a), s) => (some (.fault x .copyWrite a), s)

/-- A failed command writes its record, then its stream enters error; a record that cannot be written is left out. -/
def State.finishFail (s : State) (g : WgKey) (st : Fin 16) : State :=
  match s.head? g st with
  | none => s
  | some c =>
    match s.writeRecord g st c with
    | (some (.fault (.page l m) k a), s) => s.parkCommand g st .page k a l m
    | (some (.fault (.attr l) k a), s) => s.parkCommand g st .attr k a l false
    | (some (.fault .pool k a), s) => s.parkCommand g st .pagepool k a 3 false
    | (_, s) => s.streamError g st c.fail.1

/-- A command fails with a run-time code. -/
def State.failCommand (s : State) (g : WgKey) (st : Fin 16) (code at_ : Nat) : State :=
  (s.modHead g st fun c => { c with fail := (code, at_) }).finishFail g st

/-- The code and the address that a stop fails its command with. -/
def Stop.code : Stop → Nat × Nat
  | .fail code a => (code, a)
  | .fault x _ va => x.code va

/-- A stop that is offered for service (R191). -/
def Stop.parks : Stop → Bool
  | .fail _ _ => false
  | .fault x _ _ => x.offered

/-- A command's access or check has stopped it (R191, R290). -/
def State.stopCommand (s : State) (g : WgKey) (st : Fin 16) : Stop → State
  | .fail code a => s.failCommand g st code a
  | .fault x kind va =>
    match x with
    | .page l m => s.parkCommand g st .page kind va l m
    | .attr l => s.parkCommand g st .attr kind va l false
    | .pool | .cow => s.parkCommand g st .pagepool kind va 3 false
    | _ => s.failCommand g st (x.code va).1 (x.code va).2

/-! Start (R289, R299, R333). -/

/-- What the after-tags of a command allow. -/
inductive TagState where
  | ready | waiting | failed
deriving DecidableEq, Repr

def Workgroup.tagState (g : Workgroup) (st : Fin 16) (c : Command) : TagState :=
  let one (t : AfterTag) : TagState :=
    let x := g.streams[t.stream]
    if t.stream = st ∨ seqReached x.counter t.seq then .ready
    else if x.err ≠ 0 ∧ seqReached t.seq x.errSeq then .failed
    else .waiting
  let l := (descTags c.desc).map one
  if l.any (· == .failed) then .failed else if l.any (· == .waiting) then .waiting else .ready

/-- Every command outstanding on a workgroup's streams, with its stream. -/
def Workgroup.outstanding (g : Workgroup) : List (Fin 16 × Command) :=
  (List.finRange 16).flatMap fun st => (g.streams[st]).commands.map fun c => (st, c)

/-- Command `a` comes after command `b`, by its stream or by after-tags (R289, R299). -/
def Workgroup.ordersAfter (g : Workgroup) (b : Fin 16 × Command) : Nat → Fin 16 × Command → Bool
  | 0, _ => false
  | n + 1, a =>
    let before := g.outstanding.filter fun x =>
      (x.1 == a.1 && x.2.seq != a.2.seq && seqReached a.2.seq x.2.seq) ||
      (descTags a.2.desc).any fun t => t.stream == x.1 && t.stream != a.1 && seqReached t.seq x.2.seq
    before.any fun x => x == b || Workgroup.ordersAfter g b n x

/-- The order of R333: quantum of issue, stream, issuing warp, issue order. -/
def mmaBefore (a b : Fin 16 × Command) : Bool :=
  if a.2.quantum ≠ b.2.quantum then decide (a.2.quantum < b.2.quantum)
  else if a.1 ≠ b.1 then decide (a.1 < b.1)
  else if a.2.warp ≠ b.2.warp then older a.2.warp b.2.warp
  else decide (a.2.index < b.2.index)

/-- Deterministic mode's start rule for an MMA (R333). -/
def State.mmaHeld (s : State) (g : Workgroup) (st : Fin 16) (c : Command) : Bool :=
  let h := s.hdrOf g.key.launch
  h.det && (decide (((s.context g.key.ctx).map (·.quanta)).getD 0 ≤ c.quantum) ||
    g.outstanding.any fun o => o.2.kind == .mma && o != (st, c) && (mmaDesc o.2.desc).overlaps (mmaDesc c.desc) &&
      mmaBefore o (st, c) && !g.ordersAfter (st, c) g.outstanding.length o)

/-- The operator slots of the core's transform stage that its running copies take (R287). -/
def State.operatorSlots (s : State) (core : Nat) : Nat :=
  ((s.groups.filter fun g => g.core == core && (g.state == .resident || g.state == .draining)).map fun g =>
    (g.outstanding.map fun o => if o.2.kind = .copy ∧ o.2.running then graphCount o.2.graph else 0).sum).sum
/-- The transform slots of a core (R11, R287). -/
def transformSlots : Nat := 8

/-- A command whose tags are satisfied still waits to start: an MMA of deterministic mode (R333), a copy without room in its core's
transform stage. -/
def State.startHeld (s : State) (g : Workgroup) (st : Fin 16) (c : Command) : Bool :=
  match c.kind with
  | .mma => s.mmaHeld g st c
  | .copy => decide (transformSlots < s.operatorSlots g.core + graphCount c.graph)
  | .coll => false

/-- ENGINE_COMMAND_START (R289): the head command of a stream starts once its tags are satisfied, or fails. -/
def execEngineCommandStart (g : WgKey) (stream : Fin 16) (s : State) : Host.Outcome State Fault Refusal :=
  .next (match s.group? g, s.head? g stream with
    | some x, some c =>
      if c.running ∨ c.parked.isSome ∨ c.fail.1 ≠ 0 ∨ !s.engineRuns g then s
      else match x.tagState stream c with
        | .waiting => s
        | .failed => s.failCommand g stream eTagErr 0
        | .ready =>
          if s.startHeld x stream c then s
          else
            let start (s : State) : State := s.modHead g stream fun c => { c with running := true }
            match c.kind with
            | .copy => match s.copyStart g c.desc c.graph with
              | some e => s.stopCommand g stream e
              | none => (start s).modHead g stream fun c =>
                  { c with whole := (barePlan (copyDesc c.desc) c.graph).total / 4096 }
            | .mma => match s.mmaStart g c.desc with
              | some e => s.stopCommand g stream e
              | none => start s
            | .coll => match s.collContribute g stream c with
              | (some e, s) => s.stopCommand g stream e
              | (none, s) => (start s).modHead g stream fun c => { c with contributed := true }
    | _, _ => s)

/-! Chunks. -/

/-- Chunks of a command: those of its write order, those of its product, or one for the result of a collective. -/
def Command.chunks (c : Command) : Nat :=
  match c.kind with
  | .copy => (barePlan (copyDesc c.desc) c.graph).chunks
  | .mma => (mmaDesc c.desc).chunks
  | .coll => 1

/-- The head command of a stream, when it is of this kind, running and not at its end. -/
def State.atChunk (s : State) (g : WgKey) (st : Fin 16) (kind : EngineKind) : Option Command :=
  (s.head? g st).filter fun c =>
    c.kind == kind && c.running && c.parked.isNone && c.fail.1 == 0 && decide (c.progress < c.chunks) && s.engineRuns g

/-- A chunk is done. -/
def Command.onward (c : Command) (t : Tally) : Command :=
  { c with
    tally := t
    progress := c.progress + 1
    kept := if c.progress < c.whole then t else c.kept
    ahead := none
    stopped := none
    spoilt := false }

/-- The writes that a step of a stream's head command has left are its stream's (R254). -/
def State.stampStep (s : State) (g : WgKey) (st : Fin 16) : State :=
  { s with late := s.late.map fun x => if x.group = g ∧ x.warp = none ∧ x.stream = none then { x with stream := some st } else x }

/-- One chunk of the head command. A chunk that parks is carried out again in full (R191, R309); what it has recorded is kept for
the case that it is not (R308). -/
def State.chunkStep (s : State) (g : WgKey) (st : Fin 16) (kind : EngineKind) (f : Command → Done) : State :=
  match s.atChunk g st kind with
  | none => s
  | some c =>
    match f c with
    | (none, s, t) => (s.stampStep g st).modHead g st fun c => c.onward t
    | (some e, s, t) =>
      ((s.stampStep g st).modHead g st fun c => if e.parks then { c with stopped := some t } else { c with tally := t }).stopCommand
        g st e

/-- What the MMAs of a workgroup have read ahead of CB elements that a commit of another writes is read afresh (R332). -/
def State.dropAhead (s : State) (g : WgKey) (st : Fin 16) (x : MmaDesc) : State :=
  s.modGroup g fun w => { w with streams := Vector.ofFn fun k => { w.streams[k] with
    commands := (w.streams[k]).commands.map fun c =>
      if k ≠ st ∧ c.kind = .mma ∧ (mmaDesc c.desc).overlaps x then { c with ahead := none } else c } }

/-- MMA_CHUNK_COMMIT (R328). -/
def execMmaChunkCommit (g : WgKey) (stream : Fin 16) (s : State) : Host.Outcome State Fault Refusal :=
  .next (s.chunkStep g stream .mma fun c =>
    let d := s.mmaChunk g c.desc c.ahead c.progress c.tally
    (d.1, d.2.1.dropAhead g stream (mmaDesc c.desc), d.2.2))

/-- An MMA reads and computes its next chunk, and commits it at a later step (R328, R332). -/
def State.mmaRead (s : State) (g : WgKey) (st : Fin 16) : State :=
  match s.atChunk g st .mma with
  | none => s
  | some c =>
    let s := s.performTiles g
    match s.mmaCompute g c.desc c.progress c.tally with
    | .error _ => s
    | .ok r => s.modHead g st fun c => { c with ahead := some r }

/-- The running COLLs of an instance that have not had its result (R427). -/
def State.collCommands (s : State) (ctx group : Nat) (tag : Word) : List (WgKey × Fin 16) :=
  (s.groups.filter fun g => g.key.ctx == ctx).flatMap fun g => (List.finRange 16).filterMap fun st =>
    match (g.streams[st]).commands.head? with
    | some c =>
      let x := collDesc c.desc
      if c.kind = .coll ∧ c.running ∧ c.parked = none ∧ c.fail.1 = 0 ∧ c.progress = 0 ∧ x.group = group ∧ x.tag = tag ∧
          s.engineRuns g.key then some (g.key, st)
      else none
    | none => none

/-- COLL_INSTANCE_COMPLETE (R427): every assigned slot is in, and the destinations take the result. -/
def execCollInstanceComplete (ctx : Nat) (group : Nat) (tag : Word) (s : State) : Host.Outcome State Fault Refusal :=
  .next (match s.instance? ctx group tag with
    | none => s
    | some i =>
      if !s.collReady i then s
      else (s.collCommands ctx group tag).foldl (fun s k => match s.head? k.1 k.2 with
        | none => s
        | some c =>
          let x := collDesc c.desc
          let (v, fl) := collResult x i
          match s.collWrite ctx x v with
          | (some e, s) => s.stopCommand k.1 k.2 e
          | (none, s) => s.modHead k.1 k.2 fun c => { c with progress := 1, tally := { c.tally with flags := fl } })
        (s.setInstance { i with done := true }))

/-! Completion (R289, R308, R329). -/

/-- The head command has completed: every write of it is performed, and the counter advances past it. -/
def State.completeCommand (s : State) (g : WgKey) (st : Fin 16) : State :=
  ((s.performStream g st).modStream g st fun x => { x with
    counter := (x.commands.head?.map fun c : Command => c.seq).getD x.counter
    commands := x.commands.drop 1 }).streamChanged g

/-- COPY_CHUNK (R309). A copy whose destination overlaps its own inputs or its record is carried out and completed in this one step,
or not begun (R310; log entry 72). -/
def execCopyChunk (g : WgKey) (stream : Fin 16) (s : State) : Host.Outcome State Fault Refusal :=
  .next (match s.atChunk g stream .copy with
    | some c =>
      if !s.copyOverlaps g c.desc c.graph then
        s.chunkStep g stream .copy fun c => s.copyChunk g stream c.desc c.graph c.progress c.tally
      else
        let slow := s.slow
        let d := ({ s with slow := false } : State).copyWhole g stream c.desc c.graph c.progress c.tally
        let again (t : Tally) (e : Stop) : State :=
          (s.modHead g stream fun c => { c with stopped := some t, spoilt := true }).stopCommand g stream e
        match d.1.filter Stop.parks with
        | some e => again d.2.2 e
        | none =>
          let fail := match d.1 with
            | none => (0, 0)
            | some x => x.code
          let u := ({ d.2.1 with slow := slow } : State).modHead g stream fun c =>
            { c with tally := d.2.2, spoilt := true, fail := fail, progress := if d.1.isNone then c.chunks else c.progress }
          match u.writeRecord g stream ((u.head? g stream).getD c) with
          | (some e, v) =>
            if e.parks then again d.2.2 e
            else v.streamError g stream (if fail.1 = 0 then e.code.1 else fail.1)
          | (none, v) => if fail.1 = 0 then v.completeCommand g stream else v.streamError g stream fail.1
    | none => s)

/-- ENGINE_COMMAND_COMPLETE (R289): the last chunk is done, the record is written and the counter advances; a failed command
whose record had to wait ends so too. -/
def execEngineCommandComplete (g : WgKey) (stream : Fin 16) (s : State) : Host.Outcome State Fault Refusal :=
  .next (match s.head? g stream with
    | none => s
    | some c =>
      if c.parked.isSome ∨ !s.engineRuns g then s
      else if c.fail.1 ≠ 0 then s.finishFail g stream
      else if !c.running ∨ c.progress < c.chunks then s
      else match s.writeRecord g stream c with
        | (none, s) => s.completeCommand g stream
        | (some (.fault .access _ _), s) => s.streamError g stream eFault
        | (some e, s) => s.stopCommand g stream e)

/-- A command's parked access is answered "deliver": its stream ends in error (R191). -/
def State.deliverCommand (s : State) (g : WgKey) (st : Fin 16) (va : Nat) : State :=
  let s := s.modHead g st fun c => { c with parked := none }
  match s.head? g st with
  | none => s
  | some c =>
    if c.fail.1 ≠ 0 then s.streamError g st c.fail.1
    else if c.running ∧ c.chunks ≤ c.progress then s.streamError g st eFault
    else
      -- the record covers what the chunk did before it stopped (R308)
      (s.modHead g st fun c => { c with tally := c.stopped.getD c.tally }).failCommand g st eFault va

end Sys2Proof.Machine
end

