-- ==== Sys2Proof/Machine/Placement.lean ====
section
/-! DEFINITION. Placement, swap-out and planting again (R27 to R32, R43 to R46, R371), and the commit of a quantum (R354). -/

namespace Sys2Proof.Machine

/-! Room (R30). -/

def slotsPerHalf : Nat := 24
/-- Bytes of a core's buffers SB, AB, CB, WB (R198). -/
def bufMax (k : Nat) : Nat := [0x40000, 0x80000, 0x40000, 0x180000].getD k 0

/-- Live warps that hold a slot of a half of a core (R28). -/
def State.slotsUsed (s : State) (core : Nat) (half : Bool) : Nat :=
  (s.warps.filter fun w => w.core == core && w.half == half && s.resident w.key.wg).length
/-- The workgroups that are swapped together: one, or those of a launch cluster that stand. -/
def State.swapUnit (s : State) (k : WgKey) : List Workgroup :=
  ((s.hdrOf k.launch).clusterKeys k).filterMap s.group?
/-- The workgroup, or its cluster, is off its core. -/
def State.offCore (s : State) (g : Workgroup) : Bool :=
  let off (x : Workgroup) : Bool := x.state == .swapped || x.state == .planted
  off g || (g.state == .zombie && (s.swapUnit g.key).any off)
/-- Bytes free in a core's buffer: a zombie home keeps its own, a workgroup that is off its core holds none (R29, R44, R199). -/
def State.bufFree (s : State) (core k : Nat) : Nat :=
  bufMax k - ((s.groups.filter fun g => g.core == core && !s.offCore g).map fun g =>
    (g.bufs.toList.map (·.size)).getD k 0).sum
/-- The core takes placement: it is not retired (R413), and no scrub holds it (R423). -/
def State.coreUp (s : State) (core : Nat) : Bool :=
  decide (core < Config.cores s.member) && !s.retiredCores.contains core && !s.scrubs.any fun x => x.cores.contains core

/-- What a half takes up: how many of a list of warps are on it, and their registers. -/
def onHalf (half : Bool) (l : List (Bool × Nat)) : Nat × Nat :=
  let mine := l.filter fun x => x.1 == half
  (mine.length, (mine.map (·.2)).sum)
/-- The core has room for warps with these halves and allotments, a reserve, and buffer bytes (R30). -/
def State.roomOn (s : State) (core : Nat) (warps : List (Bool × Nat)) (reserve : Nat) (bufs : List Nat) : Bool :=
  let a := onHalf false warps
  let b := onHalf true warps
  let free (h : Bool) (n : Nat) : Nat := s.poolFree core h - n
  s.coreUp core &&
    decide (s.slotsUsed core false + a.1 ≤ slotsPerHalf ∧ s.slotsUsed core true + b.1 ≤ slotsPerHalf) &&
    decide (a.2 ≤ s.poolFree core false ∧ b.2 ≤ s.poolFree core true) &&
    decide (reserve ≤ free false a.2 + free true b.2) &&
    (List.range 4).all fun k => decide (bufs.getD k 0 ≤ s.bufFree core k)

/-- The warps of a fresh workgroup, by half. -/
def Header.newWarps (h : Header) (halves : BitVec 12) : List (Bool × Nat) :=
  (List.range h.warps).map fun i => (halves.getLsbD i, h.allot)
def Header.bufList (h : Header) : List Nat := (List.range 4).map h.bufBytes
def State.hasRoom (s : State) (core : Nat) (h : Header) (halves : BitVec 12) : Bool :=
  s.roomOn core (h.newWarps halves) 0 h.bufList

/-! A workgroup at its start. -/

/-- A warp at its start (R27). -/
def startWarp (h : Header) (k : WarpKey) (core : Nat) (half : Bool) : Warp :=
  let m := h.threadMask k.widx
  let w : Warp := { Warp.idle with
    key := k
    live := true
    core := core
    half := half
    threads := m
    splits := (Vector.replicate 4 none).set 0 (some ⟨BitVec.ofNat 57 h.code, m, m, none, .ready, 0, none, none⟩)
    allot := h.allot }
  w.setS64 2 (BitVec.ofNat 64 h.args)

/-- A workgroup at its start (R105, R200, R298). -/
def startGroup (l : Launch) (k : WgKey) (core : Nat) (halves : BitVec 12) : Workgroup :=
  let h := l.hdr
  { Workgroup.blank k with
    core := core
    entitlement := h.allot * h.warps
    charge0 := (onHalf false (h.newWarps halves)).2
    charge1 := (onHalf true (h.newWarps halves)).2
    bufs := Vector.ofFn fun i => ⟨h.bufBytes i.val, []⟩
    graphs := l.graphs }

def State.startOn (s : State) (l : Launch) (wglin core : Nat) (halves : BitVec 12) : State :=
  let k : WgKey := ⟨l.key.ctx, l.key.seq, wglin⟩
  { s with
    groups := s.groups ++ [startGroup l k core halves]
    others := s.others ++ (List.range l.hdr.warps).map fun i => startWarp l.hdr (k.warp i) core (halves.getLsbD i) }

/-! Order of placement (R31, R370, R371). -/

/-- The launch is served before the other. -/
def Launch.before (a b : Launch) : Bool :=
  if a.priority ≠ b.priority then decide (b.priority < a.priority) else decide (a.order < b.order)

/-- The workgroup waits for room: it is planted, or a wait of it or of its cluster has ended while swapped out (R45, R240). -/
def State.dueBack (s : State) (g : Workgroup) : Bool :=
  (g.state == .planted) || g.state == .swapped && ((s.hdrOf g.key.launch).clusterKeys g.key).any fun k => (s.warpsOf k).any fun w =>
    (List.finRange 4).any fun i => match w.splits[i] with
      | some p => !p.wait.blocks
      | none => false

/-- Work of the context is in another mode, or of another quantum (log entry 44). -/
def State.otherMode (s : State) (l : Launch) : Bool :=
  s.launches.any fun x => x.key.ctx == l.key.ctx && x.key != l.key && decide (x.retired < x.next) &&
    (x.hdr.det != l.hdr.det || (l.hdr.det && x.hdr.q != l.hdr.q))

/-- The launch has workgroups that wait to be placed, and may place them (R370). -/
def State.waitsToPlace (s : State) (l : Launch) : Bool :=
  !s.freezing l.key.ctx && decide (l.next < l.hdr.workgroups) && s.contextRuns l.key.ctx &&
    (l.hdr.overlap || !s.launches.any fun x => x.queue == l.queue && decide (x.order < l.order)) && !s.otherMode l

/-- The launch is the one whose workgroup is placed next. -/
def State.placesNext (s : State) (l : Launch) : Bool :=
  s.waitsToPlace l && !(s.groups.any fun g => g.key.ctx == l.key.ctx && s.dueBack g) &&
    !s.launches.any fun x => x.key != l.key && x.before l && s.waitsToPlace x

/-- Before a launch's first workgroup its context's cached instructions are dropped from every core (R78), and no cluster cache
hides from it what the front end and its prologue have stored (R376); a deterministic launch that starts alone in its context
counts its quanta from 0 (log entry 45). -/
def State.firstPlace (s : State) (l : Launch) : State :=
  if l.next ≠ 0 then s
  else
    let s := (s.freshCode l.key.ctx none none).emptyCaches
    if s.groups.any fun g => g.key.ctx == l.key.ctx then s
    else s.modContext l.key.ctx fun c => { c with quanta := 0 }

/-- WORKGROUP_PLACE (R31): a core with room takes the launch's next workgroup. -/
def State.placeGroup (s : State) (k : LaunchKey) (core : Nat) (halves : BitVec 12) : State :=
  match s.launch k with
  | some l =>
    if s.placesNext l ∧ l.hdr.c = 0 ∧ s.hasRoom core l.hdr halves then
      ((s.firstPlace l).startOn l l.next core halves).modLaunch k fun l => { l with next := l.next + 1 }
    else s
  | none => s
def execWorkgroupPlace (l : LaunchKey) (core : Nat) (halves : BitVec 12) (s : State) : Host.Outcome State Fault Refusal :=
  .next (s.placeGroup l core halves)

/-- CLUSTER_PLACE (R32): the members of the launch's next cluster, one a core, each by its own halves, in one step. -/
def State.placeCluster (s : State) (k : LaunchKey) (cc : Nat) (cores : List Nat) (halves : List (BitVec 12)) : State :=
  match s.launch k with
  | some l =>
    let at_ := cores.zip halves
    if s.placesNext l ∧ l.hdr.c ≠ 0 ∧ at_.length = l.hdr.clsize ∧ cores.Nodup ∧
        (at_.all fun c => c.1 / 8 == cc && s.hasRoom c.1 l.hdr c.2) then
      let s := (at_.zipIdx).foldl (fun s c => s.startOn l (l.next + c.2) c.1.1 c.1.2) (s.firstPlace l)
      s.modLaunch k fun l => { l with next := l.next + l.hdr.clsize }
    else s
  | none => s
def execClusterPlace (l : LaunchKey) (coreCluster : Nat) (cores : List Nat) (halves : List (BitVec 12)) (s : State) :
    Host.Outcome State Fault Refusal :=
  .next (s.placeCluster l coreCluster cores halves)

/-! Swap-out (R43, R44). -/

def Wait.long : Wait → Bool
  | .waitcmp _ _ _ | .barrier _ _ => true
  | _ => false
/-- Waiting long (R43): a monitor that fires and whose check fails does not interrupt it (R240). -/
def Warp.waitsLong (w : Warp) : Bool :=
  w.overflow.isNone && (List.finRange 4).all fun i => match w.splits[i] with
    | some p => Wait.long p.wait
    | none => true
/-- The cycle since which each warp has waited long. -/
def State.markLong (s : State) : State :=
  s.modWarps (·.live) fun w =>
    { w with longSince := if w.waitsLong then some (w.longSince.getD s.now) else none }

/-- The swap threshold in cycles of 3 GHz; `none` disables swap-out (R23). -/
def Header.swapCycles (h : Header) : Option Nat :=
  if h.swapUs = 0xFFFFFFFF then Option.none else some (3000 * if h.swapUs = 0 then 50 else h.swapUs)

/-- The workgroup is one whose warps have all waited for the threshold (R43). -/
def State.swapReady (s : State) (g : Workgroup) : Bool :=
  let h := s.hdrOf g.key.launch
  match h.swapCycles with
  | none => false
  | some t =>
    (g.state == .zombie) || (g.state == .resident &&
      (s.warpsOf g.key).all fun w => (!h.det || w.reds.isEmpty) &&
        match w.longSince with
        | some c => w.waitsLong && decide (c + t ≤ s.now)
        | none => false)

/-- A workgroup's commands as pre-emption treats them: an MMA goes back to its last commit (R44, R328). -/
def Workgroup.rollBack (g : Workgroup) : Workgroup :=
  { g with streams := g.streams.map fun (st : Stream) => { st with commands := st.commands.map fun c => { c with ahead := none } } }

/-- The canonical point of some workgroups (R44): their commands and warps have performed what they have issued, and no cluster
cache holds any of it. -/
def State.quietGroups (s : State) (keys : List WgKey) : State :=
  let s := keys.foldl (fun s k => s.modGroup k Workgroup.rollBack) s
  let s := s.performWrites fun x => keys.contains x.group
  State.emptyCaches <| (s.warps.filter fun w => keys.contains w.key.wg).foldl (fun s w => s.inSplit w.key w.cur fun s =>
    let s := s.complete fun _ => true
    if s.det then s else s.flushReds) s

/-- SWAP_OUT (R44): the workgroup, or its cluster, comes to its canonical point, its image sections go to the context's save
area (log entry 93), and it leaves its core. Its warps stay, without slots, registers or buffer bytes charged; its monitors stay
armed and its commands stand still. -/
def State.swapOut (s : State) (k : WgKey) : State :=
  let unit := s.swapUnit k
  if s.contextRuns k.ctx ∧ (unit.any fun g => g.state == .resident) ∧ unit.all s.swapReady then
    let keys := unit.map (·.key)
    let s := s.quietGroups keys
    let at_ : State := s.modWarps (fun w => w.live && keys.contains w.key.wg) fun w => w.recorded none
    let s := s.homeWrite Writer.device (((s.context k.ctx).map (·.faultSave)).getD 0) (at_.image k.ctx none (some keys))
    let s := keys.foldl (fun s k => s.modGroup k fun g =>
      if g.state = .resident then { g with state := .swapped, charge0 := 0, charge1 := 0 } else g) s
    -- what it frees: registers for a GROW (R106), window entries (R291)
    s.retryGrows.wake (fun _ => true) (· == .window) none
  else s
def execSwapOut (g : WgKey) (s : State) : Host.Outcome State Fault Refusal := .next (s.swapOut g)

/-! Planting again (R45). -/

/-- Ways of putting `n` warps on the halves: by turns, then each count on the first half. -/
def halfChoices (n : Nat) : List (BitVec 12) :=
  BitVec.ofNat 12 (0xAAA % 2 ^ n) :: (List.range (n + 1)).map fun k => BitVec.ofNat 12 (2 ^ n - 2 ^ k)
/-- Every way. -/
def allHalves (n : Nat) : List (BitVec 12) := BitVec.ofNat 12 (0xAAA % 2 ^ n) :: (List.range (2 ^ n)).map (BitVec.ofNat 12)

/-- The warps of a workgroup that comes back, with their halves by WARPIDX. -/
def State.backWarps (s : State) (g : Workgroup) (halves : BitVec 12) : List (Bool × Nat) :=
  (s.warpsOf g.key).map fun w => (halves.getLsbD w.key.widx, w.allot)
/-- The halves that give a workgroup room on a core. -/
def State.backHalves (s : State) (g : Workgroup) (core : Nat) : Option (BitVec 12) :=
  (allHalves (s.hdrOf g.key.launch).warps).find? fun h =>
    s.roomOn core (s.backWarps g h) g.reserve (g.bufs.toList.map (·.size))

/-- Put a workgroup back on a core: slots, registers, its reserve first from the first half. Room is what R30 names; the entries of
the copy window, the array queue and the transform slots that its commands hold may pass the core's count (log entry 105). -/
def State.putBack (s : State) (k : WgKey) (core : Nat) (halves : BitVec 12) : State :=
  match s.group? k with
  | none => s
  | some g =>
    if g.state ≠ .swapped ∧ g.state ≠ .planted then s.modGroup k fun g => { g with core := core }
    else
      let ws := s.backWarps g halves
      let a := (onHalf false ws).2
      let r0 := min g.reserve (s.poolFree core false - a)
      let s := s.modGroup k fun g => { g with
        core := core, state := if ws = [] then .draining else .resident, charge0 := a + r0, charge1 := (onHalf true ws).2 + (g.reserve - r0) }
      s.modWarps (fun w => w.live && w.key.wg == k) fun w => { w with core := core, half := halves.getLsbD w.key.widx, longSince := none }

/-- Distinct cores that give each of some workgroups room, with their halves. -/
def State.backCores (s : State) : List Workgroup → List Nat → Option (List (WgKey × Nat × BitVec 12))
  | [], _ => some []
  | g :: gs, cores => cores.findSome? fun c =>
      (s.backHalves g c).bind fun h => (State.backCores s gs (cores.erase c)).map ((g.key, c, h) :: ·)

/-- Plant a workgroup again on the first core with room, or a cluster on cores of the first core-cluster with room. -/
def State.plantBack (s : State) (k : WgKey) : State :=
  let unit := s.swapUnit k
  let all := List.range (Config.cores s.member)
  let ways := if (s.hdrOf k.launch).c = 0 then all.map fun c => [c]
    else (List.range (Config.clusters s.member)).map fun cc => all.filter fun c => c / 8 == cc
  match ways.findSome? (s.backCores unit) with
  | some l => l.foldl (fun s x => s.putBack x.1 x.2.1 x.2.2) s
  | none => s

/-- Ascending launch, then WGLIN. -/
def groupBefore (a b : WgKey) : Bool :=
  decide (a.ctx < b.ctx ∨ (a.ctx = b.ctx ∧ (a.seq < b.seq ∨ (a.seq = b.seq ∧ a.wglin ≤ b.wglin))))
/-- The workgroup is off its core still. -/
def State.isOut (s : State) (k : WgKey) : Bool := (s.group? k).any fun g => g.state == .swapped || g.state == .planted
/-- Plant again what is due, in ascending order within each launch: one without room holds back what follows it there (R31, R45,
R408). -/
def State.plantDue (s : State) : State :=
  let due := sortBy groupBefore ((s.groups.filter fun g => s.contextRuns g.key.ctx && s.dueBack g).map (·.key))
  (due.foldl (fun (acc : State × List LaunchKey) k =>
    let (s, held) := acc
    if held.contains k.launch ∨ !s.isOut k then (s, held)
    else
      let s := s.plantBack k
      (s, if s.isOut k then k.launch :: held else held)) (s, [])).1

/-- WAITCMP_RECHECK (R237, R240): a monitor has fired; a workgroup that is swapped out is planted again when the check
completes its WAITCMP. -/
def execWaitcmpRecheck (w : WarpKey) (sp : Fin 4) (s : State) : Host.Outcome State Fault Refusal :=
  .next (s.recheckIf w sp fun m => m.fired).plantDue

/-- MONITOR_REPOLL (R239): the slice, or the issuing die, looks again. -/
def execMonitorRepoll (w : WarpKey) (sp : Fin 4) (s : State) : Host.Outcome State Fault Refusal :=
  .next (s.recheckIf w sp fun m => m.poll).plantDue

/-! The commit of quanta (R354). -/

def Wait.commits : Wait → Bool
  | .commit _ => true
  | _ => false

/-- The deterministic launches of a context that have workgroups. -/
def State.detLaunch (s : State) (ctx : Nat) : Option Launch :=
  s.launches.find? fun l => l.key.ctx == ctx && l.hdr.det && decide (l.retired < l.next)

/-- The clocks with which warps have exited whose workgroups still have MMAs to start (R333; log entry 29). -/
def State.exitClocks (s : State) (ctx : Nat) : List Nat :=
  (s.groups.filter fun g => g.key.ctx == ctx && g.outstanding.any fun o => o.2.kind == .mma && !o.2.running).map (·.exitClock)

/-- How many quanta have committed once those that can commit have. -/
def State.commitTarget (s : State) (ctx q quanta : Nat) : Nat :=
  let ws := s.warps.filter fun w => w.key.ctx == ctx
  match s.running ctx with
  | [] =>
    let tops := ws.map (·.clock.toNat) ++ ws.flatMap (fun w => w.reds.map (·.clock)) ++ s.exitClocks ctx
    tops.foldl (fun m n => max m (n / q + 1)) quanta
  | w :: rest => max quanta (rest.foldl (fun m w => min m (s.counted w)) (s.counted w) / q)

/-- Commit every quantum of a context that can commit: its reductions are performed, each with the end of its quantum as the
waker's clock, and what waited for them goes on: a TLBINV may wait for those of another context (R437). -/
def State.commitQuanta (s : State) (ctx : Nat) : State :=
  match s.detLaunch ctx, s.context ctx with
  | some l, some c =>
    let q := 2 ^ l.hdr.q
    let target := s.commitTarget ctx q c.quanta
    if target = c.quanta ∨ !s.contextRuns ctx then s
    else
      let all := (s.warps.filter fun w => w.key.ctx == ctx).flatMap fun w => w.reds.map fun r => (w, r)
      let due := sortBy (commitBefore q c.quanta) (all.filter fun x => decide (max c.quanta (x.2.clock / q) < target))
      let s := due.foldl (fun s x => s.performRed x.1 (some ((max c.quanta (x.2.clock / q) + 1) * q)) x.2) s
      let s := s.modWarps (fun w => w.live && w.key.ctx == ctx) fun w =>
        { w with reds := w.reds.filter fun r => !decide (max c.quanta (r.clock / q) < target) }
      let s := s.modContext ctx fun c => { c with quanta := target }
      s.wake (fun _ => true) (fun x => Wait.commits x || x == .hgive) none
  | _, _ => s

/-- QUANTUM_COMMIT (R354). -/
def execQuantumCommit (ctx : Nat) (s : State) : Host.Outcome State Fault Refusal := .next (s.commitQuanta ctx)

end Sys2Proof.Machine
end

