-- ==== Sys2Proof/Machine/Frontend.lean ====
section
/-! DEFINITION. The front end (R361 to R374): the look-ahead stage, the packets, the checks of a launch and its issue. -/

namespace Sys2Proof.Machine

def State.queue? (s : State) (q : Nat) : Option Queue := s.queues.find? fun x => x.num == q
def State.modQueue (s : State) (q : Nat) (f : Queue → Queue) : State :=
  { s with queues := s.queues.map fun x => if x.num == q then f x else x }

/-! The descriptor (R362). -/

def Queue.ring (x : Queue) : Nat := x.num64 0x00 8
def Queue.size (x : Queue) : Nat := x.num64 0x08 4
def Queue.priority (x : Queue) : Nat := x.num64 0x0C 1
def Queue.interval (x : Queue) : Nat := x.num64 0x0D 1 + 1
def Queue.publishedAt (x : Queue) : Nat := x.num64 0x18 8
def Queue.markAt (x : Queue) : Nat := x.num64 0x28 8
def Queue.slotAt (x : Queue) (i : Nat) : Nat := x.ring + 64 * (i % x.size)

/-! Positions: the ring index, and the levels below it (R367). -/

/-- The position after a packet that is no CALLBUF or RETBUF. -/
def levelsNext : List BufLevel → Bool × List BufLevel
  | [] => (true, [])
  | l :: ls =>
    match ls with
    | [] => if l.pos + 1 < l.count then (false, [{ l with pos := l.pos + 1 }]) else (true, [])
    | _ =>
      let (up, rest) := levelsNext ls
      if !up then (false, l :: rest)
      else if l.pos + 1 < l.count then (false, [{ l with pos := l.pos + 1 }])
      else (true, [])

/-- The position after a packet: whether the ring index moves, and the levels. -/
def afterPacket (p : List Byte) (ls : List BufLevel) : Bool × List BufLevel :=
  match bytesAt p 0 1 with
  | 3 => (false, ls ++ [⟨bytesAt p 8 8, 0, bytesAt p 0x10 4⟩])
  | 4 => levelsNext ls.dropLast
  | _ => levelsNext ls

/-- Where the look-ahead stands: past the packets it has read. -/
def Queue.lookAt (x : Queue) : Nat × List BufLevel :=
  x.ahead.foldl (fun p k => let (up, ls) := afterPacket k p.2; (if up then p.1 + 1 else p.1, ls)) (x.issued, x.levels)

/-- The address of the packet at a position. -/
def Queue.addrAt (x : Queue) (p : Nat × List BufLevel) : Nat :=
  match p.2.getLast? with
  | some l => l.addr + 64 * l.pos
  | none => x.slotAt p.1

/-! Publication and release (R366). -/

/-- The front end works for the queue. While its context is being frozen, only a prologue that runs goes on (R380). -/
def State.queueRuns (s : State) (x : Queue) : Bool :=
  !x.halted && x.parked.isNone && s.contextRuns x.ctx && (x.prologue.isSome || !s.freezing x.ctx)

/-- A read of the front end, at the home slices. -/
def State.queueLoad (s : State) (x : Queue) (va n : Nat) : Except (XFault × Nat) (List Byte) × State :=
  s.homeReadVa fabric x.ctx .load false va n
/-- A store of the front end. -/
def State.queueStore (s : State) (x : Queue) (va : Nat) (bytes : List Byte) : Option (XFault × Nat) × State :=
  s.servedWrite x.ctx .store va bytes

/-- Whether a store or an atomic at the address would proceed; a copy-on-write in its way is served. -/
def State.probe (s : State) (ctx : Nat) (kind : AccessKind) (va : Nat) : Option (XFault × Nat) × State :=
  match s.translate fabric ctx (BitVec.ofNat 64 va) kind false with
  | (.ok _, s) => (none, s)
  | (.error .cow, s) => match s.cowServe ctx (BitVec.ofNat 64 va) with
    | (true, s) => (none, s)
    | (false, s) => (some (.pool, va), s)
  | (.error e, s) => (some (e, va), s)

/-- Write R to the published read index. -/
def State.publish (s : State) (x : Queue) : State :=
  match s.queueStore x x.publishedAt (leBytes 8 x.read) with
  | (none, s) => s.modQueue x.num fun x => { x with published := x.read }
  | (some (f, a), s) => s.queueFault x.num x.ctx f .store a

/-- What the end of a packet does: nothing to the ring, its slot is released, or its slot is released and R published. The slot's
header says whether PUBLISH is set. -/
inductive Ending where
  | inside | release | publish
deriving DecidableEq, Repr
def State.ending (s : State) (x : Queue) (p : List Byte) : Ending :=
  if !(afterPacket p x.levels).1 then .inside
  else
    let set := match (s.queueLoad x (x.slotAt x.issued) 8).1 with
      | .ok h => bitsOf (ofLeBytes h) 9 1 == 1
      | .error _ => false
    if set || (x.read + 1) % x.interval == 0 then .publish else .release

/-- Before a packet's rule runs, the stores that its end makes are known to proceed: a fault of one is offered for service while
nothing of the packet has been done. -/
def State.assured (s : State) (x : Queue) (p : List Byte) (rule : State → Option State) : Option State :=
  let probe (va : Nat) (go : State → Option State) (s : State) : Option State :=
    match s.probe x.ctx .store va with
    | (some (f, a), s) => some (s.queueFault x.num x.ctx f .store a)
    | (none, s) => go s
  match s.ending x p with
  | .inside => rule s
  | .release => probe (x.slotAt x.issued) rule s
  | .publish => probe (x.slotAt x.issued) (probe x.publishedAt rule) s

/-- The packet at the issue position has issued: the position moves, and a ring slot that is done with is released. A slot that
was written over holds free bytes then (R366). -/
def State.finishPacket (s : State) (q : Nat) : State :=
  match s.queue? q with
  | none => s
  | some x =>
    match x.ahead with
    | [] => s
    | p :: rest =>
      let e := s.ending x p
      let s := s.modQueue q fun x =>
        { x with ahead := rest, levels := (afterPacket p x.levels).2, armed := false, prologue := none, spoilt := false }
      if e = .inside then s
      else
        let (bytes, s) := if x.spoilt || x.rewritten.contains x.issued then s.freeBytes 64 else (zeros 8, s)
        let (_, s) := s.queueStore x (x.slotAt x.issued) bytes
        let s := s.modQueue q fun x => { x with issued := x.issued + 1, read := x.read + 1 }
        if e = .publish then s.publish { x with read := x.read + 1 } else s

/-! Packets (R363, R369). -/

/-- The first bad field of a packet's header quadword (R363). -/
def headerBad (h : Nat) : Option Nat :=
  let ty := bitsOf h 0 8
  if ty = 0 ∨ 9 < ty then some 0
  else if bitsOf h 10 1 ≠ 0 ∨ bitsOf h 13 3 ≠ 0 ∨ (2 < ty ∧ bitsOf h 11 2 ≠ 0) then some 1
  else if bitsOf h 16 48 ≠ 0 then some 2
  else none

/-- The first of a list of conditions that fails, with its offset. -/
def firstBad (l : List (Nat × Bool)) : Option Nat := (l.find? fun x => !x.2).map (·.1)

/-- The first bad field of a packet's body, in ascending offset (R367 to R369). -/
def bodyBad (p : List Byte) (protect : Bool) : Option Nat :=
  let f (o n : Nat) : Nat := bytesAt p o n
  match f 0 1 with
  | 1 => firstBad [(0x08, f 8 8 % 256 == 0), (0x20, f 0x20 8 % 8 == 0), (0x38, f 0x38 8 == 0)]
  | 2 => firstBad [(0x08, f 8 8 % 256 == 0), (0x20, f 0x20 8 % 8 == 0), (0x38, decide (f 0x38 8 < 16))]
  | 3 => firstBad [(0x08, f 8 8 % 64 == 0), (0x10, decide (1 ≤ f 0x10 4 ∧ f 0x10 4 ≤ 65536)), (0x14, zeroAt p 0x14 44)]
  | 6 => firstBad [(0x08, f 8 8 % 8 == 0), (0x18, decide (f 0x18 8 < 2)), (0x20, zeroAt p 0x20 32)]
  | 7 => firstBad [(0x08, f 8 8 % 8 == 0), (0x20, decide (f 0x20 8 < 4)), (0x28, zeroAt p 0x28 24)]
  | 8 => firstBad [(0x08, f 8 8 % 64 == 0), (0x10, decide (1 ≤ f 0x10 4 ∧ f 0x10 4 ≤ 1024)), (0x14, decide (f 0x14 4 < 16)),
      (0x18, f 0x18 8 % 16 == 0), (0x20, decide (f 0x20 8 ≤ 4)), (0x28, !protect || f 0x28 8 % 8 == 0), (0x30, zeroAt p 0x30 16)]
  | 9 => firstBad [(0x10, zeroAt p 0x10 48)]
  | _ => firstBad [(0x08, zeroAt p 8 56)]

def packetBad (p : List Byte) (protect : Bool) : Option Nat := (headerBad (bytesAt p 0 8)).or (bodyBad p protect)

/-! The look-ahead stage (R365, R367, R368). -/

/-- The bytes of a ring slot at the home slices; none where it has no translation. -/
def State.ringSlot (s : State) (x : Queue) (i : Nat) : Option (List Byte) :=
  (List.range 4).foldr (fun k acc =>
    match acc, (s.translate fabric x.ctx (BitVec.ofNat 64 (x.slotAt i + 16 * k)) .load false).1 with
    | some l, .ok t => some (s.homeBytes t.key t.pa 16 ++ l)
    | _, _ => none) (some [])
/-- A queue's slots not yet released: one that is found VALID is kept, and one whose bytes have changed since then has been
written over (R366; log entry 73). -/
def State.watchRing (s : State) (x : Queue) : Queue :=
  let slots := (List.range x.size).map (x.read + ·)
  let kept (i : Nat) : Option (Nat × List Byte) := x.valid.find? fun v => v.1 == i
  { x with
    valid := slots.filterMap fun i => (kept i).or
      (((s.ringSlot x i).filter fun b => bitsOf (bytesAt b 0 8) 8 1 == 1).map fun b => (i, b))
    rewritten := x.rewritten.filter (fun i => decide (x.read ≤ i)) ++ slots.filter fun i =>
      !x.rewritten.contains i && (kept i).any fun v => (s.ringSlot x i).any (· != v.2) }
def State.watchRings (s : State) : State := { s with queues := s.queues.map s.watchRing }

/-- LOOKAHEAD_READ: the look-ahead stage reads its next packet, never a slot that is not yet released (R364, R366). A packet that
is no packet halts the queue once the issue stage has reached it; a fault is taken up there too (log entry 46). A slot that was
written over reads as free bytes (R366; log entry 73). `none` when there is nothing to do. -/
def State.lookahead (s : State) (q : Nat) : Option State :=
  match s.queue? q with
  | none => none
  | some x =>
    let at_ := x.lookAt
    if !s.queueRuns x ∨ (x.joinHold ∧ x.ahead ≠ []) ∨ 64 ≤ x.ahead.length ∨ 4 < at_.2.length ∨
        (at_.2 = [] ∧ x.read + x.size ≤ at_.1) then none
    else if at_.2 = [] ∧ x.rewritten.contains at_.1 then
      let (b, s) := s.freeBytes 64
      some (s.modQueue q fun x => { x with ahead := x.ahead ++ [b] })
    else
      let a := x.addrAt at_
      let head := x.ahead.isEmpty
      match s.queueLoad x a 8 with
      | (.error (f, va), s) => if head then some (s.queueFault q x.ctx f .load va) else none
      | (.ok h, s) =>
        let h := ofLeBytes h
        if bitsOf h 8 1 = 0 then
          if !head then none
          else if at_.2 ≠ [] then some (s.haltQueue q 0x01 1)
          else if x.published ≠ x.read then some (s.publish x)
          else none
        else if bitsOf h 0 8 = 0 ∨ 9 < bitsOf h 0 8 then (if head then some (s.haltQueue q 0x01 0) else none)
        else if !head ∧ ((bitsOf h 0 8 = 3 ∧ 4 ≤ at_.2.length) ∨ (bitsOf h 0 8 = 4 ∧ at_.2 = [])) then none
        else
          match s.queueLoad x a 64 with
          | (.error (f, va), s) => if head then some (s.queueFault q x.ctx f .load va) else none
          | (.ok p, s) => some (s.modQueue q fun x => { x with ahead := x.ahead ++ [p], joinHold := bitsOf h 0 8 == 5 })
def execLookaheadRead (q : Nat) (s : State) : Host.Outcome State Fault Refusal := .next ((s.lookahead q).getD s)

/-! Readiness and turns (R368 to R371). -/

/-- Every earlier launch of the queue has completed (R255). -/
def State.launchesDone (s : State) (q : Nat) : Bool := !s.launches.any fun l => l.queue == q
/-- The next launch would lie too far past the context's oldest (R372). -/
def State.seqHeld (s : State) (ctx : Nat) : Bool :=
  let n := ((s.context ctx).map (·.nextSeq)).getD 1
  s.launches.any fun l => l.key.ctx == ctx && decide (2 ^ 23 ≤ (n + 2 ^ 24 - l.key.seq) % 2 ^ 24)
def State.protects (s : State) (ctx : Nat) : Bool := ((s.context ctx).map (·.protect)).getD false

/-- The condition of a WAITVAL. -/
def waitvalHolds (p : List Byte) (m : Nat) : Bool :=
  let mask := bytesAt p 0x18 8
  let x := m &&& mask
  let y := bytesAt p 0x10 8 &&& mask
  match bytesAt p 0x20 1 with
  | 0 => x == y
  | 1 => x != y
  | 2 => decide (y ≤ x)
  | _ => decide (x < y)
/-- A WAITVAL's condition holds, or its read faults. -/
def State.waitvalReady (s : State) (x : Queue) (p : List Byte) : Bool :=
  match (s.queueLoad x (bytesAt p 8 8) 8).1 with
  | .ok b => waitvalHolds p (ofLeBytes b)
  | .error _ => true

/-- The ring slot of the packet at the issue position was written over before its release (R366). -/
def Queue.overwritten (x : Queue) : Bool := x.rewritten.contains x.issued && !x.spoilt && x.levels == []

/-- The slot of an ILAUNCH's program. -/
def packetSlot (p : List Byte) : Fin 16 := Fin.ofNat 16 (bytesAt p 0x38 1)
/-- The packet at the queue's issue position does not wait under R368 to R370 and R372; one that is to halt the queue does not
wait either, nor one that was written over. -/
def State.packetReady (s : State) (x : Queue) (p : List Byte) : Bool :=
  x.overwritten || (packetBad p (s.protects x.ctx)).isSome || match bytesAt p 0 1 with
    | 1 => !s.seqHeld x.ctx
    | 2 => (x.slots[packetSlot p]).isNone || bitsOf (bytesAt p 0 8) 11 1 == 1 || s.launchesDone x.num
    | 5 | 6 => s.launchesDone x.num
    | 7 => s.waitvalReady x p
    | _ => true
/-- The packet that a queue has ready to issue. -/
def State.readyPacket (s : State) (x : Queue) : Option (List Byte) :=
  if s.queueRuns x && x.prologue.isNone then x.ahead.head?.filter (s.packetReady x) else none

/-- A queue's place in the rotation of its priority: ascending numbers, from the one after that served last (R371). -/
def State.turnOf (s : State) (x : Queue) : Nat :=
  if s.lastQueue[Fin.ofNat 4 x.priority] < x.num then x.num else x.num + 2 ^ 16
/-- The issue stage takes the queue's packet next: none is ready at a higher priority, nor before it in the rotation (R371). -/
def State.issuesNext (s : State) (x : Queue) : Bool :=
  !s.queues.any fun y => y.num != x.num && (s.readyPacket y).isSome &&
    (decide (x.priority < y.priority) || (y.priority == x.priority && decide (s.turnOf y < s.turnOf x)))

/-! Issue of a packet. -/

/-- The packet at the issue position becomes 64 free bytes (R366). -/
def State.spoilPacket (s : State) (q : Nat) : State :=
  let (b, s) := s.freeBytes 64
  s.modQueue q fun x => { x with ahead := b :: x.ahead.drop 1, spoilt := true }

/-- The issue stage takes the packet at its position, when that is of type `ty`, ready, and the queue's turn has come: the packet
is checked, the release of its slot is assured, and its rule runs. `none` when it does not issue. -/
def State.issuePacket (s : State) (q ty : Nat) (rule : Queue → List Byte → State → Option State) : Option State :=
  match s.queue? q with
  | none => none
  | some x =>
    match s.readyPacket x with
    | none => none
    | some p =>
      if bytesAt p 0 1 ≠ ty ∨ !s.issuesNext x then none
      else if x.overwritten then some (s.spoilPacket q)
      else
        let s := { s with lastQueue := s.lastQueue.set (Fin.ofNat 4 x.priority) q }
        match packetBad p (s.protects x.ctx) with
        | some off => some (s.haltQueue q 0x01 off)
        | none => s.assured x p (rule x p)

/-! The launch header (R22 to R24, R373). -/

/-- The product of the extents of fields `lo` to `hi − 1`, each at least 1. -/
def headerFields (h : Header) : List (Nat × Bool) :=
  let n := h.nfields
  let pt := h.fieldPos n
  [(0x00, h.code % 4 == 0 && decide (h.code < 2 ^ 57)),
   (0x08, h.shape / 2 ^ 45 == 0 && decide (1 ≤ n ∧ n ≤ 6 ∧ pt ≤ 64 ∧ h.g ≤ n) &&
      (List.range 6).all (fun i => decide (i < n) || h.width i == 0) && (h.c == 0 || decide (h.g < h.c ∧ h.c ≤ n))),
   (0x10, (List.range 6).all fun i =>
      if i < n then decide (1 ≤ h.extent i ∧ h.extent i ≤ 2 ^ h.width i) else h.extent i == 0),
   (0x10, decide (h.threads ≤ 1152 ∧ (h.c = 0 ∨ h.clsize ≤ 8) ∧ h.product 0 n ≤ 2 ^ 48)),
   (0x28, h.base % 2 ^ pt == 0),
   (0x30, decide (1 ≤ h.num 0x30 1 ∧ h.num 0x30 1 ≤ 16)),
   (0x31, decide (h.streams ≤ 16)),
   (0x32, decide (h.tickets ≤ 4)),
   (0x33, if h.det then decide (8 ≤ h.q ∧ h.q ≤ 16) else h.q == 0),
   (0x34, decide (h.flags < 16)),
   (0x38, h.bufBytes 0 % 1024 == 0 && decide (h.bufBytes 0 ≤ bufMax 0)),
   (0x3C, h.bufBytes 1 % 1024 == 0 && decide (h.bufBytes 1 ≤ bufMax 1)),
   (0x40, h.bufBytes 2 % 1024 == 0 && decide (h.bufBytes 2 ≤ bufMax 2)),
   (0x44, h.bufBytes 3 % 1024 == 0 && decide (h.bufBytes 3 ≤ bufMax 3)),
   (0x48, h.args % 8 == 0),
   (0x50, h.trapBase % 64 == 0),
   (0x60, decide (h.domCount ≤ 4096)),
   (0x64, h.num 0x64 4 == 0),
   (0x80, zeroAt h.bytes 0x80 128),
   (0x100, decide (h.warps ≤ 2 * min slotsPerHalf (poolSize / h.allot))),
   (0x58, h.domCount == 0 || h.domTable % 32 == 0)]

/-- The detail of the first check that a header fails, in the order of R373. -/
def Header.bad (h : Header) : Option Nat := firstBad (headerFields h)

/-! The lock domain table (R262). -/

def defaultMatrix : BitVec 36 := 0x0100450CF#36
def domainEntryOk (e : List Byte) : Bool :=
  let base := bytesAt e 0 8
  let size := bytesAt e 8 8
  let t := bytesAt e 0x10 1
  let m := bytesAt e 0x18 8
  base % 128 == 0 && decide (base < 2 ^ 57) && decide (7 ≤ t ∧ t ≤ 22) && zeroAt e 0x11 7 && size != 0 &&
    size % 2 ^ t == 0 && decide (size / 2 ^ t ≤ 2 ^ 36 - 1) && decide (m < 2 ^ 37) && matrixOk m
def domainOf (e : List Byte) : Domain where
  base := BitVec.ofNat 64 (bytesAt e 0 8)
  size := bytesAt e 8 8
  tile := bytesAt e 0x10 1
  matrix := if bitsOf (bytesAt e 0x18 8) 36 1 = 1 then BitVec.ofNat 36 (bytesAt e 0x18 8) else defaultMatrix
  entry := e

/-- A lock of the slot is held or awaited. -/
def Context.domainInUse (c : Context) (k : Nat) : Bool :=
  (c.holdings.any fun h => lkDomain h.name == k) || c.waiting.any fun r => lkDomain r.name == k
/-- An entry may be loaded into its slot. -/
def Context.domainOk (c : Context) (k : Nat) (e : List Byte) : Bool :=
  domainEntryOk e && (!c.domainInUse k || (c.domain k).any fun d => d.entry == e)

/-- Slots 0 to count − 1 take their entries. -/
def Context.loadDomains (c : Context) (es : List (List Byte)) : Context :=
  { c with domains := (es.zipIdx.map fun e => (e.2, domainOf e.1)) ++ c.domains.filter fun d => decide (es.length ≤ d.1) }

/-! The launch (R369, R372, R373). -/

/-- What stops a launch: a code and detail to halt with, or a fault of a read. -/
inductive LaunchStop where
  | halt (code detail : Nat)
  | fault (x : XFault) (va : Nat)
deriving DecidableEq, Repr

/-- The table entries that a launch reads. -/
def State.readEntries (s : State) (x : Queue) (base size n : Nat) : Except LaunchStop (List (List Byte)) × State :=
  match s.queueLoad x base (size * n) with
  | (.error (f, va), s) => (.error (.fault f va), s)
  | (.ok bs, s) => (.ok ((List.range n).map fun k => (bs.drop (size * k)).take size), s)

/-- The lock domain table of a launch: its entries, or what stops the launch (R262). -/
def State.launchDomains (s : State) (x : Queue) (h : Header) : Except LaunchStop (List (List Byte)) × State :=
  match if h.domCount = 0 then (.ok [], s) else s.readEntries x h.domTable 32 h.domCount with
  | (.error e, s) => (.error e, s)
  | (.ok es, s) =>
    let c := (s.context x.ctx).getD (Context.blank x.ctx)
    match es.zipIdx.find? fun e => !c.domainOk e.2 e.1 with
    | some e => (.error (.halt 0x03 e.2), s)
    | none => (.ok es, s)
/-- The graph table of a launch: its slots, or what stops the launch (R298). -/
def State.launchGraphs (s : State) (x : Queue) (h : Header) : Except LaunchStop (Vector (List Byte) 16) × State :=
  if h.graphTable = 0 then (.ok (Vector.replicate 16 []), s)
  else match s.readEntries x h.graphTable 256 16 with
    | (.error e, s) => (.error e, s)
    | (.ok gs, s) =>
      match gs.zipIdx.find? fun g => !graphOk g.1 with
      | some g => (.error (.halt 0x04 g.2), s)
      | none => (.ok (Vector.ofFn fun k => let g := gs.getD k.val []; if graphCount g = 0 then [] else g), s)

/-- The checks of R373 on a header: the domain entries and the graphs, or what stops the launch. -/
def State.launchCheck (s : State) (x : Queue) (h : Header) :
    Except LaunchStop (List (List Byte) × Vector (List Byte) 16) × State :=
  match h.bad with
  | some d => (.error (.halt 0x02 d), s)
  | none =>
    match s.launchDomains x h with
    | (.error e, s) => (.error e, s)
    | (.ok es, s) =>
      match s.launchGraphs x h with
      | (.error e, s) => (.error e, s)
      | (.ok gs, s) => (.ok (es, gs), s)

/-- The launch itself: it takes the next sequence, and the domain slots take their entries in the same step. -/
def State.startLaunch (s : State) (q : Queue) (h : Header) (signal value : DWord) (es : List (List Byte))
    (gs : Vector (List Byte) 16) : State :=
  let seq := ((s.context q.ctx).map (·.nextSeq)).getD 1
  let l : Launch := {
    key := ⟨q.ctx, seq⟩
    queue := q.num
    order := s.fresh
    priority := q.priority
    hdr := h
    next := 0
    retired := 0
    signal := signal
    signalValue := value
    trapBase := BitVec.ofNat 64 (h.trapBase % 2 ^ 57)
    tickets := Vector.replicate 4 ⟨0, false, [], []⟩
    cbars := []
    graphs := gs }
  ({ s with launches := s.launches ++ [l], fresh := s.fresh + 1 }).modContext q.ctx fun c =>
    { (c.loadDomains es) with nextSeq := (seq + 1) % 2 ^ 24 }

/-- A header is checked and launched, then the queue goes on by `next`; `none` while the sequence is held. -/
def State.tryLaunch (s : State) (q : Queue) (h : Header) (p : List Byte) (next : State → State) : Option State :=
  if s.seqHeld q.ctx then none
  else match s.launchCheck q h with
    | (.error (.halt code d), s) => some (s.haltQueue q.num code d)
    | (.error (.fault x va), s) => some (s.queueFault q.num q.ctx x .load va)
    | (.ok (es, gs), s) =>
      some (next (s.startLaunch q h (BitVec.ofNat 64 (bytesAt p 0x20 8)) (BitVec.ofNat 64 (bytesAt p 0x28 8)) es gs))

/-- Replace bytes of a list. -/
def putBytes (l : List Byte) (off : Nat) (b : List Byte) : List Byte := l.take off ++ b ++ l.drop (off + b.length)

/-- The header with the fields that the launch supplies and the packet's flags (R363, R369). -/
def suppliedHeader (p h : List Byte) : Header :=
  let h := putBytes h 0x28 ((p.drop 0x10).take 8)
  let h := putBytes h 0x48 ((p.drop 0x18).take 8)
  let h := putBytes h 0x78 ((p.drop 0x30).take 8)
  ⟨putBytes h 0x34 (leBytes 4 (bytesAt h 0x34 4 ||| (bitsOf (bytesAt p 0 8) 11 2 * 4)))⟩

/-- Read the launch header that a packet names, then go on with it. -/
def State.withHeader (s : State) (q : Queue) (p : List Byte) (go : Header → State → Option State) : Option State :=
  match s.queueLoad q (bytesAt p 8 8) 256 with
  | (.error (x, va), s) => some (s.queueFault q.num q.ctx x .load va)
  | (.ok h, s) => go (suppliedHeader p h) s

/-- LAUNCH (R369). -/
def State.launchPacket (s : State) (q : Nat) : Option State :=
  s.issuePacket q 1 fun x p s => s.withHeader x p fun h s => s.tryLaunch x h p fun s => s.finishPacket q
def execLaunch (q : Nat) (s : State) : Host.Outcome State Fault Refusal := .next ((s.launchPacket q).getD s)

/-! The other packets. -/

/-- CALLBUF (R367). -/
def State.callbufPacket (s : State) (q : Nat) : Option State :=
  s.issuePacket q 3 fun x _ s => some (if x.levels.length = 4 then s.haltQueue q 0x05 0 else s.finishPacket q)
def execCallbuf (q : Nat) (s : State) : Host.Outcome State Fault Refusal := .next ((s.callbufPacket q).getD s)

/-- RETBUF (R367). -/
def State.retbufPacket (s : State) (q : Nat) : Option State :=
  s.issuePacket q 4 fun x _ s => some (if x.levels = [] then s.haltQueue q 0x06 0 else s.finishPacket q)
def execRetbuf (q : Nat) (s : State) : Host.Outcome State Fault Refusal := .next ((s.retbufPacket q).getD s)

/-- JOIN (R368). -/
def State.joinPacket (s : State) (q : Nat) : Option State :=
  s.issuePacket q 5 fun _ _ s =>
    if s.launchesDone q then some ((s.modQueue q fun x => { x with joinHold := false }).finishPacket q) else none
def execJoin (q : Nat) (s : State) : Host.Outcome State Fault Refusal := .next ((s.joinPacket q).getD s)

/-- SIGNAL (R369): a release at host scope (log entry 24), then the store or the atomic add at the home slice. -/
def State.signalPacket (s : State) (q : Nat) : Option State :=
  s.issuePacket q 6 fun x p s =>
    if !s.launchesDone q then none
    else
      let va := bytesAt p 8 8
      let v := bytesAt p 0x10 8
      let add := bytesAt p 0x18 1 ≠ 0
      let kind : AccessKind := if add then .atomic else .store
      let s := s.carryAll
      match s.probe x.ctx kind va with
      | (some (f, a), s) => some (s.queueFault q x.ctx f kind a)
      | (none, s) =>
        let old := match (s.homeReadVa fabric x.ctx kind false va 8).1 with
          | .ok b => ofLeBytes b
          | .error _ => 0
        match s.servedWrite x.ctx kind va (leBytes 8 (if add then old + v else v)) with
        | (none, s) => some (s.finishPacket q)
        | (some (f, a), s) => some (s.queueFault q x.ctx f kind a)
def execSignal (q : Nat) (s : State) : Host.Outcome State Fault Refusal := .next ((s.signalPacket q).getD s)

/-- WAITVAL's check (R369): it issues when the condition holds; else it stays armed. `armed` says which step looks: the first
check, or a later one. -/
def State.waitvalCheck (s : State) (q : Nat) (armed : Bool) : Option State :=
  match s.queue? q with
  | none => none
  | some x =>
    if x.armed ≠ armed then none
    else
      let p := x.ahead.headD []
      if !armed ∧ s.queueRuns x ∧ x.prologue.isNone ∧ bytesAt p 0 1 = 7 ∧ !s.packetReady x p then
        some (s.modQueue q fun x => { x with armed := true })
      else s.issuePacket q 7 fun x p s => match s.queueLoad x (bytesAt p 8 8) 8 with
        | (.error (f, a), s) => some (s.queueFault q x.ctx f .load a)
        | (.ok _, s) => some (s.finishPacket q)

/-- WAITVAL (R369). -/
def execWaitval (q : Nat) (s : State) : Host.Outcome State Fault Refusal := .next ((s.waitvalCheck q false).getD s)

/-- WAITVAL_SATISFIED (R369): a write has met the condition of an armed WAITVAL. -/
def execWaitvalSatisfied (q : Nat) (s : State) : Host.Outcome State Fault Refusal := .next ((s.waitvalCheck q true).getD s)

/-- MARK (R369): a mark word address of 0 ignores it. -/
def State.markPacket (s : State) (q : Nat) : Option State :=
  s.issuePacket q 9 fun x p s =>
    if x.markAt = 0 then some (s.finishPacket q)
    else match s.queueStore x x.markAt ((p.drop 8).take 8) with
      | (none, s) => some (s.finishPacket q)
      | (some (f, a), s) => some (s.queueFault q x.ctx f .store a)
def execMark (q : Nat) (s : State) : Host.Outcome State Fault Refusal := .next ((s.markPacket q).getD s)

/-! Restart and destruction of a queue. -/

/-- QUEUE_RESTART (R374): a halted queue goes on from its read index, once its error record is written. -/
def execQueueRestart (q : Nat) (s : State) : Host.Outcome State Fault Refusal :=
  .next (match s.queue? q with
    | some x =>
      if x.halted ∧ s.contextRuns x.ctx then s.modQueue q fun x => { x with
        halted := false, err := 0, ahead := [], levels := [], prologue := none, armed := false, joinHold := false,
        parked := if x.record.isSome then x.parked else none, spoilt := false, issued := x.read }
      else s
    | none => s)

/-- A queue's parked access is given up. -/
def State.dropQueueParks (s : State) (q : Nat) : State := { s with parks := s.parks.filter fun p => p.who != .queue q }

/-- QUEUE_DESTROY (R361): the queue and its program slots are reclaimed. -/
def execQueueDestroy (q : Nat) (s : State) : Host.Outcome State Fault Refusal :=
  .next ({ s with queues := s.queues.filter fun x => x.num != q }.dropQueueParks q)

end Sys2Proof.Machine
end

