-- ==== Sys2Proof/Machine/Signature.lean ====
section
/-! DEFINITION. Whether an SLH-DSA-SHA2-128s signature verifies (R422). The spec names the scheme; its parameters and steps are
those of the standard of that name, in its pure form with an empty context (log entry 22). -/

namespace Sys2Proof.Machine.Slh

/-! Parameters: nodes of 16 bytes, 7 layers of trees of height 9, 14 trees of height 12 over the message, chains of 16. -/

def node : Nat := 16
def layers : Nat := 7
def height : Nat := 9
def forsTrees : Nat := 14
def forsHeight : Nat := 12
/-- Chains of a one-time key: 32 for the message, 3 for the checksum. -/
def chains : Nat := 35
def signatureBytes : Nat := 7856

def beBytes (n v : Nat) : List Byte := (leBytes n v).reverse
def beNat (l : List Byte) : Nat := ofLeBytes l.reverse
def slice (l : List Byte) (off len : Nat) : List Byte := (l.drop off).take len
/-- The `i`th node of a list of nodes. -/
def nth (l : List Byte) (i : Nat) : List Byte := slice l (node * i) node
/-- Digit `i` of `bits` bits, most significant first. -/
def digit (l : List Byte) (bits i : Nat) : Nat := bitsOf (beNat l) (8 * l.length - bits * (i + 1)) bits

/-- A hash address: the layer and the tree, what is hashed, and its three words. -/
structure Adr where
  layer : Nat
  tree  : Nat
  kind  : Nat
  pair  : Nat
  mid   : Nat
  last  : Nat
deriving DecidableEq, Repr

def Adr.bytes (a : Adr) : List Byte :=
  beBytes 1 a.layer ++ beBytes 8 a.tree ++ beBytes 1 a.kind ++ beBytes 4 a.pair ++ beBytes 4 a.mid ++ beBytes 4 a.last

/-- The tweakable hash. -/
def hash (seed : List Byte) (a : Adr) (m : List Byte) : List Byte :=
  (sha256 (seed ++ beBytes 48 0 ++ a.bytes ++ m)).take node

/-- The digest of a message, 30 bytes. -/
def digest (r seed root m : List Byte) : List Byte :=
  (sha256 (r ++ seed ++ sha256 (r ++ seed ++ root ++ m) ++ beBytes 4 0)).take 30

/-- From step `from_` to the end of a chain. -/
def chain (seed : List Byte) (a : Adr) (x : List Byte) (from_ : Nat) : List Byte :=
  (List.range (15 - from_)).foldl (fun x j => hash seed { a with last := from_ + j } x) x

/-- The digits that a node signs: its own, and those of the checksum. -/
def steps (m : List Byte) : List Nat :=
  let own := (List.range 32).map (digit m 4)
  let sum := (own.map (15 - ·)).sum * 16
  own ++ (List.range 3).map (digit (beBytes 2 sum) 4)

/-- The one-time key that a signature of a node gives. -/
def oneTimeKey (seed : List Byte) (a : Adr) (sig m : List Byte) : List Byte :=
  let tops := ((steps m).zipIdx).flatMap fun d => chain seed { a with kind := 0, mid := d.2 } (nth sig d.2) d.1
  hash seed { a with kind := 1, mid := 0, last := 0 } tops

/-- From a leaf up `path`, the root: `idx` is the leaf's number among those of its tree, `base` that of the tree's first. -/
def climb (seed : List Byte) (a : Adr) (idx base : Nat) (leaf path : List Byte) (n : Nat) : List Byte :=
  (List.range n).foldl (fun x j =>
    let a := { a with mid := j + 1, last := (base + idx) / 2 ^ (j + 1) }
    hash seed a (if idx / 2 ^ j % 2 = 0 then x ++ nth path j else nth path j ++ x)) leaf

/-- The key over the message digest. -/
def forsKey (seed : List Byte) (a : Adr) (sig md : List Byte) : List Byte :=
  let roots := (List.range forsTrees).flatMap fun i =>
    let part := slice sig (node * (forsHeight + 1) * i) (node * (forsHeight + 1))
    let idx := digit md forsHeight i
    let base := i * 2 ^ forsHeight
    let leaf := hash seed { a with kind := 3, mid := 0, last := base + idx } (nth part 0)
    climb seed { a with kind := 3 } idx base leaf (part.drop node) forsHeight
  hash seed { a with kind := 4, mid := 0, last := 0 } roots

/-- The root of one tree, from its leaf's signature of a node. -/
def treeRoot (seed : List Byte) (layer tree leaf : Nat) (sig m : List Byte) : List Byte :=
  let a : Adr := ⟨layer, tree, 0, leaf, 0, 0⟩
  climb seed { a with kind := 2, pair := 0 } leaf 0 (oneTimeKey seed a (sig.take (node * chains)) m)
    (sig.drop (node * chains)) height

/-- The signature verifies for a message under a public key of 32 bytes, seed and root. -/
def verifies (key m sig : List Byte) : Bool :=
  let seed := key.take node
  let root := (key.drop node).take node
  let d := digest (sig.take node) seed root ([0, 0] ++ m)
  let tree := bitsOf (beNat (slice d 21 7)) 0 54
  let leaf := bitsOf (beNat (slice d 28 2)) 0 9
  let forsBytes := node * forsTrees * (forsHeight + 1)
  let pk := forsKey seed ⟨0, tree, 3, leaf, 0, 0⟩ (slice sig node forsBytes) (d.take 21)
  let each := node * (height + chains)
  let top := (List.range layers).foldl (fun x j =>
    let all := tree * 2 ^ height + leaf
    treeRoot seed j (all / 2 ^ (height * (j + 1))) (all / 2 ^ (height * j) % 2 ^ height)
      (slice sig (node + forsBytes + each * j) each) x) pk
  sig.length == signatureBytes && key.length == 2 * node && top == root

end Sys2Proof.Machine.Slh
end

