-- ==== Sys2Proof/Machine/QueueProgram.lean ====
section
/-! DEFINITION. Queue programs (R375 to R379): PROGRAM, ILAUNCH and the operations of a prologue. -/

namespace Sys2Proof.Machine

/-! Words (R375). -/

def qpOp (w : DWord) : Nat := (BitVec.extractLsb' 56 8 w).toNat
def qpD (w : DWord) : KReg := Fin.ofNat 16 (BitVec.extractLsb' 52 4 w).toNat
def qpA (w : DWord) : KReg := Fin.ofNat 16 (BitVec.extractLsb' 48 4 w).toNat
def qpB (w : DWord) : KReg := Fin.ofNat 16 (BitVec.extractLsb' 44 4 w).toNat
def qpWin (w : DWord) : Fin 4 := Fin.ofNat 4 (BitVec.extractLsb' 44 2 w).toNat
def qpZero (w : DWord) : Nat := (BitVec.extractLsb' 32 12 w).toNat
def qpImm (w : DWord) : BitVec 32 := BitVec.extractLsb' 0 32 w
/-- HWR's and HRD's field. -/
def qpOff (w : DWord) : BitVec 8 := BitVec.extractLsb' 0 8 w
def qpSize (w : DWord) : Fin 4 := Fin.ofNat 4 (BitVec.extractLsb' 8 2 w).toNat
def qpArgK (w : DWord) : Fin 8 := Fin.ofNat 8 (BitVec.extractLsb' 0 3 w).toNat

/-- The word of an operation. -/
def qpWord (op : Nat) (d a b : KReg) (imm : BitVec 32) : DWord :=
  BitVec.ofNat 8 op ++ BitVec.ofNat 4 d.val ++ BitVec.ofNat 4 a.val ++ BitVec.ofNat 4 b.val ++ 0#12 ++ imm
def qpWinReg (w : Fin 4) : KReg := ⟨w.val, by omega⟩
def qpField (off : BitVec 8) (size : Fin 4) : BitVec 32 := BitVec.ofNat 32 (off.toNat + 256 * size.val)
def qpArgImm (k : Fin 8) : BitVec 32 := BitVec.ofNat 32 k.val

/-! Verification (R377). -/

/-- Which of d, a, b and imm an operation uses; `none` for no operation. -/
def qpUses (op : Nat) : Option (Bool × Bool × Bool × Bool) :=
  match op with
  | 0x01 | 0x02 | 0x03 | 0x20 => some (false, false, false, false)
  | 0x04 | 0x05 | 0x19 | 0x1E | 0x1F => some (true, false, false, true)
  | 0x06 => some (true, true, false, false)
  | 0x0F => some (true, true, false, true)
  | 0x14 | 0x15 | 0x16 | 0x17 => some (true, true, true, true)
  | 0x18 => some (false, true, false, true)
  | 0x1A => some (true, false, false, false)
  | 0x1B | 0x1C | 0x1D => some (false, true, true, true)
  | n => if (0x07 ≤ n ∧ n ≤ 0x0E) ∨ (0x10 ≤ n ∧ n ≤ 0x13) then some (true, true, true, false) else none

/-- The operation writes k[d]. -/
def qpWrites (op : Nat) : Bool :=
  match op with
  | 0x16 | 0x17 => false
  | _ => (qpUses op).any (·.1)

def qpBranches (op : Nat) : Bool := op == 0x1B || op == 0x1C || op == 0x1D || op == 0x1E

/-- The word at index `i` passes. -/
def qpWordOk (windows : List (Nat × Nat × Bool)) (words : List DWord) (i : Nat) (w : DWord) : Bool :=
  let op := qpOp w
  match qpUses op with
  | none => false
  | some (d, a, b, m) =>
    let imm := (qpImm w).toInt
    let target := (i : Int) + imm
    (d || (qpD w).val == 0) && (a || (qpA w).val == 0) && (b || (qpB w).val == 0) && (m || (qpImm w).toNat == 0) &&
      qpZero w == 0 &&
      (!(decide (0x14 ≤ op ∧ op ≤ 0x17)) || (decide ((qpB w).val < windows.length) &&
        (decide (op < 0x16) || (windows.getD (qpB w).val (0, 0, false)).2.2))) &&
      (!(op == 0x18 || op == 0x19) ||
        (decide ((qpImm w).toNat < 1024) && (qpOff w).toNat % 2 ^ (qpSize w).val == 0)) &&
      (op != 0x1F || decide ((qpImm w).toNat < 8)) &&
      (!qpBranches op || decide (0 ≤ target ∧ target < words.length)) &&
      (!(op == 0x1B || op == 0x1C || op == 0x1D) || decide (0 ≤ imm)) &&
      (op != 0x1E || (decide (imm < 0) &&
        ((words.drop target.toNat).take (i - target.toNat)).all fun x => !(qpWrites (qpOp x) && qpD x == qpD w)))

/-- A window table entry is in order (R375). -/
def windowOk (e : List Byte) : Bool := decide (8 ≤ bytesAt e 8 4 ∧ bytesAt e 8 4 ≤ 2 ^ 20 ∧ bytesAt e 0xC 4 < 2)

/-- The first thing that the program fails on: a window's number (log entry 47), or a word's index. -/
def programBad (table : List (List Byte)) (windows : List (Nat × Nat × Bool)) (words : List DWord) : Option Nat :=
  match table.zipIdx.find? fun e => !windowOk e.1 with
  | some e => some e.2
  | none => (words.zipIdx.find? fun w => !qpWordOk windows words w.2 w.1).map (·.2)

/-- The signature of a protected context's program verifies (R422; log entry 22). A fault of its read is answered as the front
end's. -/
def State.signatureOk (s : State) (x : Queue) (c : Context) (sig : Nat) (msg : List Byte) :
    Except (XFault × Nat) Bool × State :=
  match c.programKey with
  | none => (.ok false, s)
  | some key =>
    if sig = 0 then (.ok false, s)
    else match s.queueLoad x sig Slh.signatureBytes with
      | (.error e, s) => (.error e, s)
      | (.ok b, s) => (.ok (Slh.verifies key (sha256 msg) b), s)

/-- The window table of a PROGRAM packet, its windows, and its words, from the bytes read. -/
def programTable (p tab : List Byte) : List (List Byte) := (List.range (bytesAt p 0x20 8)).map fun k => (tab.drop (16 * k)).take 16
def programWindows (table : List (List Byte)) : List (Nat × Nat × Bool) :=
  table.map fun e => (bytesAt e 0 8, bytesAt e 8 4, bitsOf (bytesAt e 0xC 4) 0 1 == 1)
def programWords (p code : List Byte) : List DWord :=
  (List.range (bytesAt p 0x10 4)).map fun k => BitVec.ofNat 64 (bytesAt code (8 * k) 8)

/-- PROGRAM (R369, R377, R422). -/
def State.programPacket (s : State) (q : Nat) : Option State :=
  s.issuePacket q 8 fun x p s =>
    let c := (s.context x.ctx).getD (Context.blank x.ctx)
    let fault (f : XFault × Nat) (s : State) : Option State := some (s.queueFault q x.ctx f.1 .load f.2)
    match s.queueLoad x (bytesAt p 8 8) (8 * bytesAt p 0x10 4) with
    | (.error f, s) => fault f s
    | (.ok code, s) =>
      match s.queueLoad x (bytesAt p 0x18 8) (16 * bytesAt p 0x20 8) with
      | (.error f, s) => fault f s
      | (.ok tab, s) =>
        let windows := programWindows (programTable p tab)
        let words := programWords p code
        match programBad (programTable p tab) windows words with
        | some k => some (s.haltQueue q 0x07 k)
        | none =>
          let load (s : State) : State :=
            (s.modQueue q fun x => { x with slots := x.slots.set (Fin.ofNat 16 (bytesAt p 0x14 1)) (some ⟨windows, words⟩) }).finishPacket q
          if !c.protect then some (load s)
          else match s.signatureOk x c (bytesAt p 0x28 8) (code ++ tab) with
            | (.error f, s) => fault f s
            | (.ok false, s) => some (s.haltQueue q 0x07 (2 ^ 64 - 1))
            | (.ok true, s) => some (load (s.modContext x.ctx fun c => { c with measured := c.measured ++ [sha256 code] }))
def execProgram (q : Nat) (s : State) : Host.Outcome State Fault Refusal := .next ((s.programPacket q).getD s)

/-! ILAUNCH (R379): the prologue begins on a working copy of the header. -/

def State.ilaunchPacket (s : State) (q : Nat) : Option State :=
  s.issuePacket q 2 fun x p s =>
    if (x.slots[packetSlot p]).isNone then some (s.haltQueue q 0x08 (bytesAt p 0x38 1))
    else s.withHeader x p fun h s =>
      some (s.modQueue q fun x => { x with prologue := some ⟨Vector.replicate 16 0, 0, 0, 0, h.bytes⟩ })
def execIlaunch (q : Nat) (s : State) : Host.Outcome State Fault Refusal := .next ((s.ilaunchPacket q).getD s)

/-! A step of a prologue. -/

/-- A running prologue: its queue, packet, program and state. -/
structure QpRun where
  q   : Queue
  pkt : List Byte
  prg : QProgram
  p   : Prologue
deriving DecidableEq, Repr

def State.qpRun (s : State) (q : Nat) : Option QpRun :=
  match s.queue? q with
  | none => none
  | some x =>
    match x.prologue, x.ahead with
    | some p, k :: _ => (x.slots[packetSlot k]).bind fun g =>
        -- each run of the program without OVERLAP waits for the earlier launches (log entry 48)
        if s.queueRuns x && (p.pc != 0 || bitsOf (bytesAt p.header 0x34 1) 2 1 == 1 || s.launchesDone q) then
          some ⟨x, k, g, p⟩
        else none
    | _, _ => none

/-- The word that the prologue of a queue runs next; DONE when it has run off the end (R377). -/
def QpRun.word (r : QpRun) : DWord := r.prg.words.getD r.p.pc (qpWord 1 0 0 0 0)

def Prologue.k (p : Prologue) (r : KReg) : DWord := if r.val = 0 then 0 else p.regs[r]
def Prologue.setK (p : Prologue) (r : KReg) (v : DWord) : Prologue := if r.val = 0 then p else { p with regs := p.regs.set r v }
def State.setPrologue (s : State) (q : Nat) (p : Prologue) : State := s.modQueue q fun x => { x with prologue := some p }

/-- One word of a prologue, when `w` is the word it stands at: the step counts, a budget that is spent halts the queue (R378),
and the word's rule runs. `none` when the rule must wait. -/
def State.qpStep (s : State) (q : Nat) (w : DWord) (rule : QpRun → Option State) : State :=
  match s.qpRun q with
  | none => s
  | some r =>
    if r.word ≠ w then s
    else if r.prg.words.length ≤ r.p.pc then (rule r).getD s
    else if 4096 ≤ r.p.steps then s.haltQueue q 0x09 r.p.pc
    else (rule { r with p := { r.p with steps := r.p.steps + 1 } }).getD s

/-- The prologue goes on at the next word. -/
def Prologue.next (p : Prologue) : Prologue := { p with pc := p.pc + 1 }
def Prologue.jump (p : Prologue) (imm : BitVec 32) : Prologue := { p with pc := ((p.pc : Int) + imm.toInt).toNat }

/-- A word that only works on the prologue. -/
def State.qpCompute (s : State) (q : Nat) (w : DWord) (f : Prologue → Prologue) : State :=
  s.qpStep q w fun r => some (s.setPrologue q (f r.p))
/-- k[d] := f u v. -/
def State.qpAlu (s : State) (q op : Nat) (d a b : KReg) (imm : BitVec 32) (f : DWord → DWord → DWord) : State :=
  s.qpCompute q (qpWord op d a b imm) fun p => (p.setK d (f (p.k a) (p.k b))).next

/-! Ends of a prologue (R376, R379). -/

/-- QP_DONE: the working header is checked and launched. -/
def execQpDone (q : Nat) (s : State) : Host.Outcome State Fault Refusal :=
  .next (s.qpStep q (qpWord 0x01 0 0 0 0) fun r => s.assured r.q r.pkt fun s =>
    s.tryLaunch r.q ⟨r.p.header⟩ r.pkt fun s => s.finishPacket q)

/-- QP_CANCEL: the launch is not performed and completes at once, with its signal (R369). -/
def execQpCancel (q : Nat) (s : State) : Host.Outcome State Fault Refusal :=
  .next (s.qpStep q (qpWord 0x02 0 0 0 0) fun r => s.assured r.q r.pkt fun s =>
    let at_ := bytesAt r.pkt 0x20 8
    if at_ = 0 then some (s.finishPacket q)
    else match s.carryAll.queueStore r.q at_ ((r.pkt.drop 0x28).take 8) with
      | (none, s) => some (s.finishPacket q)
      | (some (f, a), s) => some (s.queueFault q r.q.ctx f .store a))

/-- QP_REPEAT (R379): the launch proceeds, and the program runs again from word 0; the 256th halts the queue. -/
def execQpRepeat (q : Nat) (s : State) : Host.Outcome State Fault Refusal :=
  .next (s.qpStep q (qpWord 0x03 0 0 0 0) fun r =>
    if 255 ≤ r.p.repeats then some (s.haltQueue q 0x0B 0)
    else s.tryLaunch r.q ⟨r.p.header⟩ r.pkt fun s => s.setPrologue q { r.p with pc := 0, repeats := r.p.repeats + 1 })

/-! Registers and arithmetic (R376). -/

/-- QP_MOVI. -/
def execQpMovi (q : Nat) (d : KReg) (imm : BitVec 32) (s : State) : Host.Outcome State Fault Refusal :=
  .next (s.qpCompute q (qpWord 0x04 d 0 0 imm) fun p => (p.setK d (BitVec.signExtend 64 imm)).next)
/-- QP_LUI. -/
def execQpLui (q : Nat) (d : KReg) (imm : BitVec 32) (s : State) : Host.Outcome State Fault Refusal :=
  .next (s.qpCompute q (qpWord 0x05 d 0 0 imm) fun p => (p.setK d (joinWords (lowWord (p.k d)) imm)).next)
/-- QP_MOV. -/
def execQpMov (q : Nat) (d a : KReg) (s : State) : Host.Outcome State Fault Refusal :=
  .next (s.qpAlu q 0x06 d a 0 0 fun u _ => u)
/-- QP_ADD. -/
def execQpAdd (q : Nat) (d a b : KReg) (s : State) : Host.Outcome State Fault Refusal :=
  .next (s.qpAlu q 0x07 d a b 0 fun u v => u + v)
/-- QP_SUB. -/
def execQpSub (q : Nat) (d a b : KReg) (s : State) : Host.Outcome State Fault Refusal :=
  .next (s.qpAlu q 0x08 d a b 0 fun u v => u - v)
/-- QP_MUL. -/
def execQpMul (q : Nat) (d a b : KReg) (s : State) : Host.Outcome State Fault Refusal :=
  .next (s.qpAlu q 0x09 d a b 0 fun u v => u * v)
/-- QP_AND. -/
def execQpAnd (q : Nat) (d a b : KReg) (s : State) : Host.Outcome State Fault Refusal :=
  .next (s.qpAlu q 0x0A d a b 0 fun u v => u &&& v)
/-- QP_OR. -/
def execQpOr (q : Nat) (d a b : KReg) (s : State) : Host.Outcome State Fault Refusal :=
  .next (s.qpAlu q 0x0B d a b 0 fun u v => u ||| v)
/-- QP_XOR. -/
def execQpXor (q : Nat) (d a b : KReg) (s : State) : Host.Outcome State Fault Refusal :=
  .next (s.qpAlu q 0x0C d a b 0 fun u v => u ^^^ v)
/-- QP_SHL. -/
def execQpShl (q : Nat) (d a b : KReg) (s : State) : Host.Outcome State Fault Refusal :=
  .next (s.qpAlu q 0x0D d a b 0 fun u v => u <<< (v.toNat % 64))
/-- QP_SHR. -/
def execQpShr (q : Nat) (d a b : KReg) (s : State) : Host.Outcome State Fault Refusal :=
  .next (s.qpAlu q 0x0E d a b 0 fun u v => u >>> (v.toNat % 64))
/-- QP_ADDI. -/
def execQpAddi (q : Nat) (d a : KReg) (imm : BitVec 32) (s : State) : Host.Outcome State Fault Refusal :=
  .next (s.qpAlu q 0x0F d a 0 imm fun u _ => u + BitVec.signExtend 64 imm)
/-- QP_DIVU. -/
def execQpDivu (q : Nat) (d a b : KReg) (s : State) : Host.Outcome State Fault Refusal :=
  .next (s.qpAlu q 0x10 d a b 0 fun u v => if v = 0 then ~~~0 else u / v)
/-- QP_REMU. -/
def execQpRemu (q : Nat) (d a b : KReg) (s : State) : Host.Outcome State Fault Refusal :=
  .next (s.qpAlu q 0x11 d a b 0 fun u v => if v = 0 then u else u % v)
/-- QP_MINU. -/
def execQpMinu (q : Nat) (d a b : KReg) (s : State) : Host.Outcome State Fault Refusal :=
  .next (s.qpAlu q 0x12 d a b 0 fun u v => if u.toNat ≤ v.toNat then u else v)
/-- QP_MAXU. -/
def execQpMaxu (q : Nat) (d a b : KReg) (s : State) : Host.Outcome State Fault Refusal :=
  .next (s.qpAlu q 0x13 d a b 0 fun u v => if u.toNat ≤ v.toNat then v else u)

/-! Memory through windows (R375, R376). -/

/-- The address of an access of `n` bytes at `off` in a window; `none` outside it, or misaligned. -/
def QpRun.access (r : QpRun) (win : Fin 4) (off : DWord) (n : Nat) : Option Nat :=
  let w := r.prg.windows.getD win.val (0, 0, false)
  let a := (w.1 + off.toNat) % 2 ^ 64
  if win.val < r.prg.windows.length ∧ off.toNat + n ≤ w.2.1 ∧ a % n = 0 then some a else none

def QpRun.offset (r : QpRun) (a : KReg) (imm : BitVec 32) : DWord := r.p.k a + BitVec.signExtend 64 imm

/-- LD64 and LD32: a load at device scope. -/
def State.qpLoad (s : State) (q op : Nat) (d a : KReg) (win : Fin 4) (imm : BitVec 32) (n : Nat) : State :=
  s.qpStep q (qpWord op d a (qpWinReg win) imm) fun r => match r.access win (r.offset a imm) n with
    | none => some (s.haltQueue q 0x0A r.p.pc)
    | some va => match s.queueLoad r.q va n with
      | (.error (f, x), s) => some (s.queueFault q r.q.ctx f .load x)
      | (.ok b, s) => some (s.setPrologue q (r.p.setK d (BitVec.ofNat 64 (ofLeBytes b))).next)
/-- ST64 and ST32: a store at device scope, into a writable window. -/
def State.qpStore (s : State) (q op : Nat) (d a : KReg) (win : Fin 4) (imm : BitVec 32) (n : Nat) : State :=
  s.qpStep q (qpWord op d a (qpWinReg win) imm) fun r => match r.access win (r.offset a imm) n with
    | none => some (s.haltQueue q 0x0A r.p.pc)
    | some va =>
      if !(r.prg.windows.getD win.val (0, 0, false)).2.2 then some (s.haltQueue q 0x0A r.p.pc)
      else match s.queueStore r.q va (leBytes n (r.p.k d).toNat) with
        | (none, s) => some (s.setPrologue q r.p.next)
        | (some (f, x), s) => some (s.queueFault q r.q.ctx f .store x)

/-- QP_LD64. -/
def execQpLd64 (q : Nat) (d a : KReg) (win : Fin 4) (imm : BitVec 32) (s : State) : Host.Outcome State Fault Refusal :=
  .next (s.qpLoad q 0x14 d a win imm 8)
/-- QP_LD32. -/
def execQpLd32 (q : Nat) (d a : KReg) (win : Fin 4) (imm : BitVec 32) (s : State) : Host.Outcome State Fault Refusal :=
  .next (s.qpLoad q 0x15 d a win imm 4)
/-- QP_ST64. -/
def execQpSt64 (q : Nat) (d a : KReg) (win : Fin 4) (imm : BitVec 32) (s : State) : Host.Outcome State Fault Refusal :=
  .next (s.qpStore q 0x16 d a win imm 8)
/-- QP_ST32. -/
def execQpSt32 (q : Nat) (d a : KReg) (win : Fin 4) (imm : BitVec 32) (s : State) : Host.Outcome State Fault Refusal :=
  .next (s.qpStore q 0x17 d a win imm 4)

/-! The working header, the packet and branches (R376). -/

/-- QP_HWR. -/
def execQpHwr (q : Nat) (a : KReg) (off : BitVec 8) (size : Fin 4) (s : State) : Host.Outcome State Fault Refusal :=
  .next (s.qpCompute q (qpWord 0x18 0 a 0 (qpField off size)) fun p =>
    { p with header := putBytes p.header off.toNat (leBytes (2 ^ size.val) (p.k a).toNat) }.next)
/-- QP_HRD. -/
def execQpHrd (q : Nat) (d : KReg) (off : BitVec 8) (size : Fin 4) (s : State) : Host.Outcome State Fault Refusal :=
  .next (s.qpCompute q (qpWord 0x19 d 0 0 (qpField off size)) fun p =>
    (p.setK d (BitVec.ofNat 64 (bytesAt p.header off.toNat (2 ^ size.val)))).next)
/-- QP_RPT. -/
def execQpRpt (q : Nat) (d : KReg) (s : State) : Host.Outcome State Fault Refusal :=
  .next (s.qpCompute q (qpWord 0x1A d 0 0 0) fun p => (p.setK d (BitVec.ofNat 64 p.repeats)).next)
/-- QP_BEQ. -/
def execQpBeq (q : Nat) (a b : KReg) (imm : BitVec 32) (s : State) : Host.Outcome State Fault Refusal :=
  .next (s.qpCompute q (qpWord 0x1B 0 a b imm) fun p => if p.k a = p.k b then p.jump imm else p.next)
/-- QP_BNE. -/
def execQpBne (q : Nat) (a b : KReg) (imm : BitVec 32) (s : State) : Host.Outcome State Fault Refusal :=
  .next (s.qpCompute q (qpWord 0x1C 0 a b imm) fun p => if p.k a ≠ p.k b then p.jump imm else p.next)
/-- QP_BLTU. -/
def execQpBltu (q : Nat) (a b : KReg) (imm : BitVec 32) (s : State) : Host.Outcome State Fault Refusal :=
  .next (s.qpCompute q (qpWord 0x1D 0 a b imm) fun p => if (p.k a).toNat < (p.k b).toNat then p.jump imm else p.next)
/-- QP_LOOP. -/
def execQpLoop (q : Nat) (d : KReg) (imm : BitVec 32) (s : State) : Host.Outcome State Fault Refusal :=
  .next (s.qpCompute q (qpWord 0x1E d 0 0 imm) fun p =>
    if p.k d = 0 then p.next
    else
      let p' := p.setK d (p.k d - 1)
      if p'.k d ≠ 0 then p'.jump imm else p'.next)
/-- QP_ARG: a quadword of the packet's body. Number 7 lies past the packet: its value is free (log entry 49). -/
def execQpArg (q : Nat) (d : KReg) (k : Fin 8) (s : State) : Host.Outcome State Fault Refusal :=
  .next (s.qpStep q (qpWord 0x1F d 0 0 (qpArgImm k)) fun r =>
    let (b, s) := if k.val = 7 then s.freeBytes 8 else ((r.pkt.drop (8 + 8 * k.val)).take 8, s)
    some (s.setPrologue q (r.p.setK d (BitVec.ofNat 64 (ofLeBytes b))).next))
/-- QP_NOP. -/
def execQpNop (q : Nat) (s : State) : Host.Outcome State Fault Refusal :=
  .next (s.qpCompute q (qpWord 0x20 0 0 0 0) Prologue.next)

/-- The step of a prologue at its current word; `none` when it waits. -/
def State.qpMove (s : State) (q : Nat) : Option State :=
  match s.qpRun q with
  | none => none
  | some r =>
    let w := r.word
    let d := qpD w
    let a := qpA w
    let b := qpB w
    let i := qpImm w
    let o := match qpOp w with
      | 0x01 => execQpDone q s
      | 0x02 => execQpCancel q s
      | 0x03 => execQpRepeat q s
      | 0x04 => execQpMovi q d i s
      | 0x05 => execQpLui q d i s
      | 0x06 => execQpMov q d a s
      | 0x07 => execQpAdd q d a b s
      | 0x08 => execQpSub q d a b s
      | 0x09 => execQpMul q d a b s
      | 0x0A => execQpAnd q d a b s
      | 0x0B => execQpOr q d a b s
      | 0x0C => execQpXor q d a b s
      | 0x0D => execQpShl q d a b s
      | 0x0E => execQpShr q d a b s
      | 0x0F => execQpAddi q d a i s
      | 0x10 => execQpDivu q d a b s
      | 0x11 => execQpRemu q d a b s
      | 0x12 => execQpMinu q d a b s
      | 0x13 => execQpMaxu q d a b s
      | 0x14 => execQpLd64 q d a (qpWin w) i s
      | 0x15 => execQpLd32 q d a (qpWin w) i s
      | 0x16 => execQpSt64 q d a (qpWin w) i s
      | 0x17 => execQpSt32 q d a (qpWin w) i s
      | 0x18 => execQpHwr q a (qpOff w) (qpSize w) s
      | 0x19 => execQpHrd q d (qpOff w) (qpSize w) s
      | 0x1A => execQpRpt q d s
      | 0x1B => execQpBeq q a b i s
      | 0x1C => execQpBne q a b i s
      | 0x1D => execQpBltu q a b i s
      | 0x1E => execQpLoop q d i s
      | 0x1F => execQpArg q d (qpArgK w) s
      | _ => execQpNop q s
    match o with
    | .next s' => if (qpOp w = 0x01 ∨ qpOp w = 0x03) ∧ s.seqHeld r.q.ctx then none else some s'
    | _ => none

/-- The queue's next move: a step of its prologue, the packet at its issue position, or a look-ahead read. -/
def State.queueMove (s : State) (q : Nat) : Option State :=
  match s.queue? q with
  | none => none
  | some x =>
    match x.ahead with
    | [] => s.lookahead q
    | p :: _ =>
      if x.prologue.isSome then s.qpMove q
      else match bytesAt p 0 1 with
        | 1 => s.launchPacket q
        | 2 => s.ilaunchPacket q
        | 3 => s.callbufPacket q
        | 4 => s.retbufPacket q
        | 5 => s.joinPacket q
        | 6 => s.signalPacket q
        | 7 => s.waitvalCheck q x.armed
        | 8 => s.programPacket q
        | 9 => s.markPacket q
        | ty => s.issuePacket q ty fun _ _ s => some s

end Sys2Proof.Machine
end

