-- ==== Sys2Proof/Machine/Plant.lean ====
section
/-! DEFINITION. Planting a Tolor image (R408 to R411): its checks, what it places, and how its work goes on. -/

namespace Sys2Proof.Machine

/-! Reading records (R399). -/

/-- A record of a section: its type, and the bytes after its prefix. -/
abbrev ImgRec := Nat × List Byte

/-- A section's bytes as records; `none` when they are malformed. -/
def parseRecords : Nat → List Byte → Option (List ImgRec)
  | _, [] => some []
  | 0, _ => none
  | fuel + 1, l =>
    let len := bytesAt l 4 4
    if l.length < 8 ∨ bytesAt l 2 2 ≠ 0 ∨ len < 8 ∨ len % 8 ≠ 0 ∨ l.length < len then none
    else (parseRecords fuel (l.drop len)).map fun r => (bytesAt l 0 2, (l.take len).drop 8) :: r

/-- Entry `i` of the section table, and its section: the padding to the next 64-byte boundary is zero, and an empty section lies
where the next one does, or at the image's end (R432). -/
def parseSection (img : List Byte) (table i : Nat) : Option (List ImgRec) :=
  let e := (img.drop (table + 24 * i)).take 24
  let count := bytesAt e 4 4
  let off := bytesAt e 8 8
  let size := bytesAt e 16 8
  let after := if i < 15 then bytesAt img (table + 24 * (i + 1) + 8) 8 else img.length
  if e.length ≠ 24 ∨ bytesAt e 0 2 ≠ i + 1 ∨ bytesAt e 2 2 ≠ 0 ∨ off % 64 ≠ 0 ∨ img.length < off + size ∨
      !zeroAt img (off + size) ((64 - size % 64) % 64) ∨ (size = 0 ∧ off ≠ after) then none
  else (parseRecords (size + 1) ((img.drop off).take size)).bind fun r => if r.length = count then some r else none

/-- Every section, 1 to 16 as 0 to 15. -/
def parseSections (img : List Byte) (table : Nat) : Option (List (List ImgRec)) :=
  (List.range 16).foldr (fun i acc => match acc, parseSection img table i with
    | some l, some r => some (r :: l)
    | _, _ => none) (some [])

/-! Reserved fields and lengths of each record (R400 to R407). -/

/-- A warp key's zero bytes. -/
def keyOk (b : List Byte) : Bool := zeroAt b 3 1 && zeroAt b 5 3
def groupKeyOk (b : List Byte) : Bool := keyOk b && zeroAt b 4 1

/-- The lengths of records are whole quadwords, padded with zeros. -/
def lenOk (b : List Byte) (n : Nat) : Bool := b.length == n + (8 - n % 8) % 8 && zeroAt b n 8

def causes : List Cause :=
  [.undef, .regbound, .type, .align, .page, .access, .attr, .bufspace, .handle, .lockproto, .wound, .locklost, .hazard,
   .fpe, .brk, .user, .ecc, .growdead, .pagepool, .engine, .doublefault]
def Cause.ofCode (n : Nat) : Option Cause := causes.find? fun c => c.code == n

/-- A PC, or a register that holds one (R382). -/
def pcOk (v : Nat) : Bool := decide (v < 2 ^ 57 ∧ v % 4 = 0)
/-- A clause state in the form of CLAUSEST (R54). -/
def clauseWordOk (v : Nat) : Bool := decide (v < 2 ^ 26) && (clausestFields (BitVec.ofNat 32 v)).isSome

/-- A split record; one at a DOUBLEFAULT stands only in an image that has the flag. -/
def splitOk (dead : Bool) (b : List Byte) : Bool :=
  let state := bytesAt b 0x24 1
  let cause := bytesAt b 0x25 1
  pcOk (bytesAt b 0 8) && decide (state ≤ if dead then 4 else 3) && zeroAt b 0x26 2 && zeroAt b 0x34 4 &&
    clauseWordOk (bytesAt b 0x20 4) && (decide (state < 3) || (Cause.ofCode cause).isSome)

def warpRecOk (dead : Bool) (b : List Byte) : Bool :=
  let split (k : Nat) : List Byte := (b.drop (0x40 + 64 * k)).take 64
  let pending := (List.range 4).any fun k => bytesAt (split k) 0x24 1 == 3
  lenOk b 384 && keyOk b && decide (bytesAt b 0x10 1 < 32 ∧ 1 ≤ bytesAt b 0x11 1 ∧ bytesAt b 0x11 1 ≤ 16) &&
    decide (16 ≤ bytesAt b 0x12 1 ∧ bytesAt b 0x12 1 < 32) && zeroAt b 0x13 1 &&
    bytesAt b 0x14 4 &&& 0x1F3F == bytesAt b 0x14 4 && decide (bytesAt b 0x18 4 < 2 ^ 14) &&
    decide (bytesAt b 0x1C 1 ≤ 21 ∧ bytesAt b 0x1C 4 < 2 ^ 9) && pcOk (bytesAt b 0x20 8) && pcOk (bytesAt b 0x38 8) &&
    ((List.range 4).all fun k => splitOk dead (split k)) && pcOk (bytesAt b 0x140 8) &&
    clauseWordOk (bytesAt b 0x160 4) && clauseWordOk (bytesAt b 0x174 4) &&
    decide (bytesAt b 0x170 1 < 4) && zeroAt b 0x171 3 &&
    if pending then pcOk (bytesAt b 0x178 8) else zeroAt b 0x178 8

def lockRecOk (r : ImgRec) : Bool :=
  let b := r.2
  lenOk b 64 && zeroAt b 1 1 &&
    match r.1 with
    | 1 => zeroAt b 0 1 && zeroAt b 4 4 && decide (bytesAt b 2 2 < 4096 ∧ bytesAt b 8 8 < 2 ^ 36) && zeroAt b 0x10 16 &&
        domainEntryOk ((b.drop 0x20).take 32)
    | 2 => decide (1 ≤ bytesAt b 0 1 ∧ bytesAt b 0 1 ≤ 6) && zeroAt b 2 6 && zeroAt b 0x18 8 && zeroAt b 0x22 30
    | 3 => decide (1 ≤ bytesAt b 0 1 % 8 ∧ bytesAt b 0 1 % 8 ≤ 6 ∧ bytesAt b 0 1 < 16) && zeroAt b 2 2 && zeroAt b 0x18 8 &&
        zeroAt b 0x22 30
    | 4 => decide (bytesAt b 0 1 < 4) && zeroAt b 2 6 && zeroAt b 0x22 6 && zeroAt b 0x30 16
    | 5 => zeroAt b 0 1 && zeroAt b 2 6 && zeroAt b 0x18 8 && zeroAt b 0x22 30
    | _ => false

/-- The captured descriptor and graph, and the length of the completion record, of a command record (R406). -/
def commandRecOk (b : List Byte) : Bool :=
  let desc := (b.drop 0x20).take 128
  let graph := (b.drop 0xA0).take 256
  match bytesAt b 0x20 1 with
  | 1 =>
    let g := if zeroAt b 0xA0 256 then none else some graph
    lenOk b (0x1A0 + 0x150 + 16 * bytesAt b 0x12 2) && copyCodes desc g == [] && g.all graphOk &&
      decide (bytesAt b 0x1A3 1 < 2 ^ 7) && (List.range (bytesAt b 0x12 2)).all fun k => zeroAt b (0x1A0 + 0x150 + 16 * k + 14) 2
  | 2 => lenOk b (0x1A0 + 64) && zeroAt b 0x12 2 && mmaCodes (desc.take 64) == [] && zeroAt b 0x60 0x140 && zeroAt b 0x1C4 28 &&
      bytesAt b 0x1A3 1 &&& 0xC2 == 0
  | 3 => lenOk b (0x1A0 + 64) && zeroAt b 0x12 2 && prefixOk desc 3 && zeroAt b 0x60 0x140 && zeroAt b 0x1A8 56
  | _ => false

def streamRecOk (r : ImgRec) : Bool :=
  let b := r.2
  groupKeyOk b && decide (bytesAt b 0x10 1 < 16) &&
    match r.1 with
    | 1 => lenOk b 0x20 && zeroAt b 0x11 3
    | 2 => lenOk b 0x120 && zeroAt b 0x11 15 && graphOk (b.drop 0x20)
    | 3 => decide (bytesAt b 0x11 1 < 2) && commandRecOk b
    | 4 => lenOk b 0x38 && zeroAt b 0x11 3 && keyOk (b.drop 0x20) && zeroAt b 0x34 4
    | _ => false

def imgProgram (b : List Byte) : QProgram where
  windows := (List.range (bytesAt b 3 1)).map fun k =>
    (bytesAt b (0x10 + 16 * k) 8, bytesAt b (0x18 + 16 * k) 4, bytesAt b (0x1C + 16 * k) 4 == 1)
  words := (List.range (bytesAt b 4 4)).map fun k => BitVec.ofNat 64 (bytesAt b (0x50 + 8 * k) 8)

def queueRecOk (r : ImgRec) : Bool :=
  let b := r.2
  match r.1 with
  | 1 => lenOk b 0x1F0 && decide (bytesAt b 2 1 < 8 ∧ bytesAt b 3 1 ≤ 4) && zeroAt b 4 4 && zeroAt b 0xE8 8
  | 2 =>
    let n := bytesAt b 3 1
    let p := imgProgram b
    lenOk b (0x50 + 8 * bytesAt b 4 4) && decide (bytesAt b 2 1 < 16 ∧ n ≤ 4) && zeroAt b 8 8 && zeroAt b (0x10 + 16 * n) (64 - 16 * n) &&
      (programBad ((List.range n).map fun k => (b.drop (0x10 + 16 * k)).take 16) p.windows p.words).isNone
  | _ => false

def dmodeRecOk (r : ImgRec) : Bool :=
  let b := r.2
  match r.1 with
  | 1 => lenOk b 16 && zeroAt b 1 7
  | 2 => lenOk b 0x38 && keyOk b && decide (bytesAt b 0x1C 1 < 96 ∧ bytesAt b 0x1F 1 < 32) &&
      (Ty.ofCode (bytesAt b 0x1E 1)).isSome && (Scope.ofCode (bytesAt b 0x1F 1 % 16)).isSome
  | _ => false

/-- A record of section `n`, 1 to 16; `dead`: the image has the DOUBLEFAULT flag. -/
def recordOk (dead : Bool) (n : Nat) (r : ImgRec) : Bool :=
  let b := r.2
  match n with
  | 1 => r.1 == 1 && lenOk b 0x140 && zeroAt b 3 1 && zeroAt b 6 2 && zeroAt b 0x28 24 &&
      (Header.bad ⟨(b.drop 0x40).take 256⟩).isNone && decide (bytesAt b 0x90 8 < 2 ^ 57)
  | 2 => r.1 == 1 && lenOk b 0x20 && groupKeyOk b && decide (bytesAt b 0x10 1 ≤ 3 ∧ bytesAt b 0x11 1 < 16) && zeroAt b 0x12 2 &&
      zeroAt b 0x1C 4
  | 3 => r.1 == 1 && warpRecOk dead b
  | 4 => r.1 == 1 && keyOk b && b.length % 384 == 16
  | 5 => r.1 == 1 && keyOk b && lenOk b (16 + 512)
  | 6 => r.1 == 1 && keyOk b && lenOk b (16 + 96)
  | 7 => r.1 == 1 && groupKeyOk b && decide (bytesAt b 0x10 1 < 4) && zeroAt b 0x11 7 && lenOk b (0x20 + bytesAt b 0x18 8)
  | 8 => r.1 == 1 && groupKeyOk b && lenOk b 0x20 && decide (bytesAt b 0x10 1 < 16 ∧ bytesAt b 0x11 1 ≤ 2 ∧ bytesAt b 0x16 1 < 4) &&
      zeroAt b 0x17 1
  | 9 => r.1 == 1 && groupKeyOk b && decide (bytesAt b 0x10 1 ≤ 16 ∧ bytesAt b 0x1C 4 < 2 ^ 14) && zeroAt b 0x11 3
  | 10 => r.1 == 1 && zeroAt b 3 1 && decide (bytesAt b 4 1 < 4 ∧ bytesAt b 5 1 < 2) && zeroAt b 6 2 &&
      lenOk b (0x18 + 8 * bytesAt b 0x10 8)
  | 11 => lockRecOk r
  | 12 => streamRecOk r
  | 13 => queueRecOk r
  | 14 => r.1 == 1 && keyOk b && lenOk b (16 + 776) && zeroAt b 0x12 6 && (List.range 96).all fun l => zeroAt b (0x1E + 8 * l) 2
  | 15 => dmodeRecOk r
  | _ => r.1 == 1 && lenOk b (0x50 + 16 * bytesAt b 0x48 8) && zeroAt b 0x14 4 && zeroAt b 0x2C 4 && zeroAt b 0x38 8 &&
      (List.range (bytesAt b 0x48 8)).all fun k => zeroAt b (0x59 + 16 * k) 7

/-! Names. -/

def recWarpKey (ctx : Nat) (b : List Byte) : WarpKey := ⟨ctx, bytesAt b 0 3, bytesAt b 8 8, bytesAt b 4 1⟩
def recWgKey (ctx : Nat) (b : List Byte) : WgKey := ⟨ctx, bytesAt b 0 3, bytesAt b 8 8⟩
/-- A warp by its AGE and AGEX (R268). -/
def ageKey (ctx : Nat) (b : List Byte) : WarpKey :=
  let a := bytesAt b 0x10 8
  ⟨ctx, bitsOf a 40 24, bitsOf a 8 32 + bytesAt b 0x20 2 * 2 ^ 32, bitsOf a 0 8⟩
def recHeader (b : List Byte) : Header := ⟨(b.drop 0x40).take 256⟩

/-- The records of section `n`. -/
def sectionAt (ss : List (List ImgRec)) (n : Nat) : List ImgRec := ss.getD (n - 1) []
/-- The launch record of a key. -/
def launchRec (ss : List (List ImgRec)) (b : List Byte) : Option (List Byte) :=
  ((sectionAt ss 1).find? fun r => bytesAt r.2 0 3 == bytesAt b 0 3).map (·.2)
/-- The record of section `n` that begins with this warp key. -/
def keyedRec (ss : List (List ImgRec)) (n : Nat) (b : List Byte) : Option (List Byte) :=
  ((sectionAt ss n).find? fun r => r.2.take 16 == b.take 16).map (·.2)

/-- A barrier's arrival set has the length of its threads, and no bit beyond them (R433); with no arrival there is no E and no
BARCOUNT, and a clock only in deterministic mode (R404). -/
def arrivalsOk (h : Header) (b : List Byte) : Bool :=
  let threads := if bytesAt b 0x10 1 = 16 then h.clsize * h.threads else h.threads
  let set := bytesAt b 0x28 (b.length - 0x28)
  b.length == 0x28 + 8 * ((threads + 63) / 64) && decide (set < 2 ^ threads) && (set != 0 || zeroAt b 0x18 16) && (h.det || zeroAt b 0x20 8)
/-- The command records of STREAMS: in deterministic mode that of an MMA is followed at once by its record of issue, and no other
record is (R406). -/
def issuesOk (det : List Byte → Bool) : List ImgRec → Bool
  | [] => true
  | r :: rs =>
    let mma := r.1 == 3 && bytesAt r.2 0x20 1 == 2 && det r.2
    if mma then match rs with
      | [] => false
      | x :: xs => x.1 == 4 && x.2.take 17 == r.2.take 17 && bytesAt x.2 0x14 4 == bytesAt r.2 0x14 4 && issuesOk det xs
    else r.1 != 4 && issuesOk det rs
/-- What kind 3 and kind 4 records of LOCKS say of their warp's record and launch (R405). -/
def lockCrossOk (ss : List (List ImgRec)) (r : ImgRec) : Bool :=
  match (sectionAt ss 3).find? fun w => recWarpKey 0 w.2 == ageKey 0 r.2 with
  | none => false
  | some w => match r.1 with
    | 3 => (List.range 4).any fun k => bytesAt w.2 (0x64 + 64 * k) 1 == 1
    | 4 => (launchRec ss w.2).any fun l => (recHeader l).det || zeroAt r.2 0x28 8
    | _ => true

/-- What the sections say of one another: a workgroup belongs to a launch, a warp to a workgroup, with one record in each
register section, and a lock's age names a warp. -/
def crossOk (ss : List (List ImgRec)) : Bool :=
  ((sectionAt ss 2).all fun r => (launchRec ss r.2).any fun l => decide (bytesAt r.2 8 8 < (recHeader l).workgroups)) &&
  ((sectionAt ss 3).all fun r =>
    ((launchRec ss r.2).any fun l => decide (bytesAt r.2 4 1 < (recHeader l).warps)) &&
      ((sectionAt ss 2).any fun g => recWgKey 0 g.2 == recWgKey 0 r.2) &&
      ((keyedRec ss 4 r.2).any fun v => v.length == 16 + 384 * (8 * bytesAt r.2 0x11 1)) &&
      (keyedRec ss 5 r.2).isSome && (keyedRec ss 6 r.2).isSome && (keyedRec ss 14 r.2).isSome) &&
  ((sectionAt ss 9).all fun r => (launchRec ss r.2).any fun l => arrivalsOk (recHeader l) r.2) &&
  ((sectionAt ss 11).all fun r => r.1 == 1 || lockCrossOk ss r) &&
  issuesOk (fun b => (launchRec ss b).any fun l => (recHeader l).det) (sectionAt ss 12) &&
  ((sectionAt ss 15).all fun r => r.1 == 1 || (sectionAt ss 3).any fun w => recWarpKey 0 w.2 == recWarpKey 0 r.2)

/-- The image's status (R410), in the order of its causes; its sections when it can be planted. -/
def imageStatus (owned : Bool) (img : List Byte) : Nat × List (List ImgRec) :=
  let table := bytesAt img 0x10 8
  let flags := bytesAt img 0xC 4
  if img.take 4 ≠ [0x54, 0x4F, 0x4C, 0x52] ∨ bytesAt img 4 2 ≠ 1 then (1, [])
  else if bytesAt img 6 2 ≠ 1 then (2, [])
  else if sha256 (img.drop table) ≠ (img.drop 0x28).take 32 then (3, [])
  else if bytesAt img 8 4 ≠ 16 ∨ 16 ≤ flags ∨ !zeroAt img 0x48 8 ∨ img.length < table + 384 then (4, [])
  else match parseSections img table with
    | none => (4, [])
    | some ss =>
      if !(ss.zipIdx.all fun s => s.1.all (recordOk (bitsOf flags 1 1 == 1) (s.2 + 1))) ∨ !crossOk ss ∨ (sectionAt ss 16).length ≠ 1 ∨
          (bitsOf flags 0 1 = 0 ∧ sectionAt ss 15 ≠ []) then (4, [])
      else if bitsOf flags 1 1 = 1 then (5, [])
      else if bitsOf flags 2 1 = 1 ∧ !owned then (6, [])
      else (0, ss)

/-! Locks and launches (R408 steps 2 and 3). -/

def imgMode (n : Nat) : LkMode := (LkMode.ofCode n).getD .nl

/-- The context's lock state. Queue entries beyond a slice's room are served from the save area (R409). -/
def Context.plantLocks (c : Context) (rs : List ImgRec) : Context :=
  { c with
    answered := []
    domains := rs.filterMap fun r => if r.1 ≠ 1 then none else
      some (bytesAt r.2 2 2, { domainOf ((r.2.drop 0x20).take 32) with matrix := BitVec.ofNat 36 (bytesAt r.2 8 8) })
    holdings := rs.filterMap fun r => if r.1 ≠ 2 then none else
      some ⟨BitVec.ofNat 64 (bytesAt r.2 8 8), ageKey c.num r.2, imgMode (bytesAt r.2 0 1)⟩
    waiting := rs.filterMap fun r => if r.1 ≠ 3 then none else
      some ⟨BitVec.ofNat 64 (bytesAt r.2 8 8), ageKey c.num r.2, imgMode (bytesAt r.2 0 1 % 8), bitsOf (bytesAt r.2 0 1) 3 1 == 1, true⟩ }

/-- The wound and revoked state of a warp. The grace left counts from now, or from its delivery point. -/
def State.plantWounds (s : State) (ctx : Nat) (rs : List ImgRec) : State :=
  rs.foldl (fun s r =>
    let name : DWord := BitVec.ofNat 64 (bytesAt r.2 8 8)
    let k := ageKey ctx r.2
    let left := bytesAt r.2 0x18 8
    let d := bytesAt r.2 0x28 8
    let bit (i : Nat) : Bool := bitsOf (bytesAt r.2 0 1) i 1 == 1
    match r.1 with
    | 4 => s.modWarpAt k fun w => { w with
        wound := some (if (s.hdrOf k.launch).det then ⟨name, d + left, some d, bit 0, bit 1⟩ else ⟨name, s.now + left, none, true, bit 1⟩) }
    | 5 => s.modWarpAt k fun w => { w with revoked := some name }
    | _ => s) s

/-- What this member has kept beside an image (log entry 52); of one that another has written, nothing. -/
def Context.keptAt (c : Context) (cycle : Nat) : Kept := (c.kept.find? fun x => x.cycle == cycle).getD ⟨cycle, [], []⟩

/-- A ticket sequence as recorded, with the turns at which faulted workgroups will poison it as kept (log entry 52). -/
def imgTicket (rs : List ImgRec) (kept : Option KeptLaunch) (seq : Nat) (k : Fin 4) : Ticket :=
  let later := (kept.map fun x => x.poisonAt[k]).getD []
  match rs.find? fun r => bytesAt r.2 0 3 == seq && bytesAt r.2 4 1 == k.val with
  | some r => ⟨bytesAt r.2 8 8, bytesAt r.2 5 1 == 1,
      (List.range (bytesAt r.2 0x10 8)).map fun i => bytesAt r.2 (0x18 + 8 * i) 8, later⟩
  | none => ⟨0, false, [], later⟩

/-- A barrier as recorded; its arrivals share the largest of their clocks (R404). -/
def imgBarrier (b : List Byte) : Barrier :=
  let set := bytesAt b 0x28 (b.length - 0x28)
  let arrived := (List.range (8 * (b.length - 0x28))).filter fun t => bitsOf set t 1 == 1
  ⟨arrived.map fun t => (t, bytesAt b 0x20 8), bytesAt b 0x14 4,
    if arrived = [] then none else some (BitVec.ofNat 32 (bytesAt b 0x1C 4))⟩

/-- The graphs that a launch gives workgroups not yet placed, where they have not been kept: its table, read again (log entry
53). -/
def State.imgGraphs (s : State) (ctx : Nat) (h : Header) : Vector (List Byte) 16 :=
  if h.graphTable = 0 then Vector.replicate 16 []
  else match (s.homeReadVa fabric ctx .load false h.graphTable 4096).1 with
    | .error _ => Vector.replicate 16 []
    | .ok b => Vector.ofFn fun k =>
        let g := (b.drop (256 * k.val)).take 256
        if graphOk g ∧ graphCount g ≠ 0 then g else []

def State.imgLaunch (s : State) (ctx : Nat) (kept : Kept) (ss : List (List ImgRec)) (b : List Byte) (order : Nat) : Launch :=
  let h := recHeader b
  let seq := bytesAt b 0 3
  let kept := kept.launches.find? fun x => x.key == ⟨ctx, seq⟩
  { key := ⟨ctx, seq⟩
    queue := bytesAt b 4 2
    order := order
    priority := ((s.queue? (bytesAt b 4 2)).map Queue.priority).getD 0
    hdr := h
    next := if h.c = 0 then bytesAt b 8 8 else bytesAt b 8 8 * h.clsize
    retired := bytesAt b 0x10 8
    signal := BitVec.ofNat 64 (bytesAt b 0x18 8)
    signalValue := BitVec.ofNat 64 (bytesAt b 0x20 8)
    trapBase := BitVec.ofNat 64 h.trapBase
    tickets := Vector.ofFn fun k => imgTicket (sectionAt ss 10) kept seq k
    cbars := (sectionAt ss 9).filterMap fun r =>
      if bytesAt r.2 0 3 = seq ∧ bytesAt r.2 0x10 1 = 16 then some (bytesAt r.2 8 8 / h.clsize, imgBarrier r.2) else none
    graphs := (kept.map (·.graphs)).getD (s.imgGraphs ctx h) }

/-- The launches, in their order; the context's next sequence follows the last (R372). -/
def State.plantLaunches (s : State) (ctx : Nat) (kept : Kept) (ss : List (List ImgRec)) : State :=
  let ls := (sectionAt ss 1).zipIdx.map fun r => s.imgLaunch ctx kept ss r.1.2 (s.fresh + r.2)
  ({ s with launches := s.launches ++ ls, fresh := s.fresh + ls.length }).modContext ctx fun c =>
    { c with nextSeq := match ls.getLast? with
        | some l => (l.key.seq + 1) % 2 ^ 24
        | none => c.nextSeq }

/-! Queues. -/

/-- A queue record into the enabled queue of its number (log entry 54). -/
def Queue.planted (x : Queue) (b : List Byte) : Queue :=
  let flag (i : Nat) : Bool := bitsOf (bytesAt b 2 1) i 1 == 1
  { x with
    read := bytesAt b 8 8
    published := bytesAt b 0x10 8
    issued := bytesAt b 0x18 8
    halted := flag 1
    levels := (List.range (bytesAt b 3 1)).map fun k =>
      ⟨bytesAt b (0x20 + 16 * k) 8, bytesAt b (0x28 + 16 * k) 4, bytesAt b (0x2C + 16 * k) 4⟩
    prologue := if flag 2 then
        some ⟨Vector.ofFn fun k => BitVec.ofNat 64 (bytesAt b (0x60 + 8 * k.val) 8), 0, bytesAt b 0xE0 4, bytesAt b 0xE4 4,
          (b.drop 0xF0).take 256⟩
      else none
    ahead := []
    joinHold := flag 0
    armed := false
    parked := none
    record := if flag 1 then x.record else none
    spoilt := false }

def State.plantQueues (s : State) (ctx : Nat) (rs : List ImgRec) : State :=
  { s with queues := s.queues.map fun x =>
      if x.ctx ≠ ctx then x
      else
        let x := { x with slots := Vector.replicate 16 none }
        let x := match rs.find? fun r => r.1 == 1 && bytesAt r.2 0 2 == x.num with
          | some r => x.planted r.2
          | none => x
        (rs.filter fun r => r.1 == 2 && bytesAt r.2 0 2 == x.num).foldl (fun x r =>
          { x with slots := x.slots.set (Fin.ofNat 16 (bytesAt r.2 2 1)) (some (imgProgram r.2)) }) x }

/-! Workgroups (R408 steps 4 and 5). -/

def imgBuffer (ss : List (List ImgRec)) (b : List Byte) (h : Header) (k : Nat) : BufferMem :=
  match (sectionAt ss 7).find? fun r => r.2.take 16 == b.take 16 && bytesAt r.2 0x10 1 == k with
  | some r => ⟨bytesAt r.2 0x18 8, cellsSet [] 0 ((r.2.drop 0x20).take (bytesAt r.2 0x18 8))⟩
  | none => ⟨h.bufBytes k, []⟩

def imgHandle (ss : List (List ImgRec)) (b : List Byte) (k : Fin 16) : HandleSlot :=
  match (sectionAt ss 8).find? fun r => r.2.take 16 == b.take 16 && bytesAt r.2 0x10 1 == k.val with
  | some r => ⟨match bytesAt r.2 0x11 1 with
      | 0 => .free
      | 1 => .held (bytesAt r.2 0x12 1)
      | _ => .transit (bytesAt r.2 0x12 1) (bytesAt r.2 0x13 1),
      bytesAt r.2 0x14 2, (Buf.ofCode (bytesAt r.2 0x16 1)).getD .sb, bytesAt r.2 0x18 4, bytesAt r.2 0x1C 4⟩
  | none => ⟨.free, 0, .sb, 0, 0⟩

/-- What a copy, or an MMA, has recorded (R308, R329). -/
def imgTally (kind : EngineKind) (b : List Byte) : Tally :=
  match kind with
  | .copy =>
    { count := bytesAt b 0x18 8, nans := bytesAt b 0x20 8, infs := bytesAt b 0x28 8, maxAbs := bytesAt b 0x30 8
      sum := bytesAt b 0x38 8, squares := bytesAt b 0x40 8, zeros := bytesAt b 0x48 4, base := bytesAt b 0x4C 2
      bins := (List.range 64).map fun k => bytesAt b (0x50 + 4 * k) 4
      flags := bytesAt b 3 1, bytes := bytesAt b 8 8
      pages := (List.range (bytesAt b 0x4E 2)).map fun k =>
        let v := bytesAt b (0x150 + 16 * k) 16
        ⟨bitsOf v 104 8, bitsOf v 64 40, bitsOf v 0 64⟩ }
  | .mma => { Tally.zero with count := bytesAt b 8 8, nans := bytesAt b 0x10 8, infs := bytesAt b 0x18 8, flags := bytesAt b 3 1 }
  | .coll => { Tally.zero with flags := bytesAt b 3 1 }

/-- A command. A COLL that had no result contributes again: a contribution that is there is recognised (R427). -/
def imgCommand (ctx : Nat) (rs : List ImgRec) (b : List Byte) : Command :=
  let kind : EngineKind := match bytesAt b 0x20 1 with | 1 => .copy | 2 => .mma | _ => .coll
  let desc := (b.drop 0x20).take (if kind = .copy then 128 else 64)
  let graph := if zeroAt b 0xA0 256 then [] else (b.drop 0xA0).take 256
  let running := bytesAt b 0x11 1 == 1
  let issue := (rs.find? fun r => r.1 == 4 && r.2.take 16 == b.take 16 && bytesAt r.2 0x10 1 == bytesAt b 0x10 1 &&
    bytesAt r.2 0x14 4 == bytesAt b 0x14 4).map (·.2)
  { kind := kind
    seq := BitVec.ofNat 32 (bytesAt b 0x14 4)
    desc := desc
    graph := graph
    running := running && (kind != .coll || bytesAt b 0x18 8 != 0)
    progress := bytesAt b 0x18 8
    tally := imgTally kind (b.drop 0x1A0)
    parked := none
    warp := (issue.map fun r => recWarpKey ctx (r.drop 0x20)).getD (recWarpKey ctx b)
    index := (issue.map fun r => bytesAt r 0x30 4).getD (bytesAt b 0x14 4)
    quantum := (issue.map fun r => bytesAt r 0x18 8).getD 0
    contributed := false
    fail := (0, 0)
    ahead := none
    kept := imgTally kind (b.drop 0x1A0)
    stopped := none
    spoilt := false
    whole := if kind = .copy ∧ running then (barePlan (copyDesc desc) graph).total / 4096 else 0 }

/-- A stream; the command that failed follows the counter (R290). -/
def imgStream (ctx : Nat) (rs : List ImgRec) (b : List Byte) (k : Nat) : Stream :=
  let mine (r : ImgRec) (ty : Nat) : Bool := r.1 == ty && r.2.take 16 == b.take 16 && bytesAt r.2 0x10 1 == k
  let cmds := (rs.filter fun r => mine r 3).map fun r => imgCommand ctx rs r.2
  match rs.find? fun r => mine r 1 with
  | some r =>
    let err : Word := BitVec.ofNat 32 (bytesAt r.2 0x1C 4)
    let c : Word := BitVec.ofNat 32 (bytesAt r.2 0x14 4)
    ⟨BitVec.ofNat 32 (bytesAt r.2 0x18 4), c, err, if err = 0 then 0 else c + 1, cmds⟩
  | none => ⟨0, 0, 0, 0, cmds⟩

/-- A workgroup of the image: it waits for room with its state, a zombie beside the others of its cluster. The clock its
warps have exited with, and that it has faulted, are as kept (log entry 52). -/
def imgGroup (ctx : Nat) (kept : Kept) (ss : List (List ImgRec)) (b : List Byte) : Workgroup :=
  let k := recWgKey ctx b
  let h := ((launchRec ss b).map recHeader).getD Header.none
  let kept := kept.groups.find? fun x => x.key == k
  { Workgroup.blank k with
    state := match bytesAt b 0x10 1 with
      | 2 => .zombie
      | _ => .planted
    passed := BitVec.ofNat 4 (bytesAt b 0x11 1)
    reserve := bytesAt b 0x14 4
    entitlement := bytesAt b 0x18 4
    exitClock := (kept.map (·.exitClock)).getD 0
    faulted := kept.any (·.faulted)
    bufs := Vector.ofFn fun i => imgBuffer ss b h i.val
    handles := Vector.ofFn fun i => imgHandle ss b i
    barriers := Vector.ofFn fun i => match (sectionAt ss 9).find? fun r => r.2.take 16 == b.take 16 && bytesAt r.2 0x10 1 == i.val with
      | some r => imgBarrier r.2
      | none => Barrier.empty
    streams := Vector.ofFn fun i => imgStream ctx (sectionAt ss 12) b i.val
    graphs := Vector.ofFn fun i => match (sectionAt ss 12).find? fun r => r.1 == 2 && r.2.take 16 == b.take 16 && bytesAt r.2 0x10 1 == i.val with
      | some r => (r.2.drop 0x20).take 256
      | none => [] }

/-! Warps. -/

def imgMask (b : List Byte) (off : Nat) : LaneMask := BitVec.ofNat 96 (bytesAt b off 12)

/-- A split record; a lock wait and a barrier wait are taken up again once every warp stands. -/
def imgSplit (b : List Byte) (li : Nat) : Split where
  pc := BitVec.ofNat 57 (bytesAt b 0 8)
  member := imgMask b 8
  active := imgMask b 0x14
  clause := clauseOfWord (BitVec.ofNat 32 (bytesAt b 0x20 4))
  wait := .ready
  done := if bytesAt b 0x24 1 = 2 then imgMask b 0x28 else 0
  trap := if bytesAt b 0x24 1 = 3 then
      (Cause.ofCode (bytesAt b 0x25 1)).map fun c =>
        ⟨c, BitVec.ofNat 64 (bytesAt b 0x38 8), BitVec.ofNat 57 (bytesAt b 0 8), BitVec.ofNat 57 li⟩
    else none
  entry := none

def imgWarp (ctx : Nat) (ss : List (List ImgRec)) (b : List Byte) : Warp :=
  let k := recWarpKey ctx b
  let h := ((launchRec ss b).map recHeader).getD Header.none
  let v := (keyedRec ss 4 b).getD []
  let sr := (keyedRec ss 5 b).getD []
  let pr := (keyedRec ss 6 b).getD []
  let rg := (keyedRec ss 14 b).getD []
  let word (o : Nat) : Word := BitVec.ofNat 32 (bytesAt b o 4)
  let quad (o : Nat) : DWord := BitVec.ofNat 64 (bytesAt b o 8)
  let flags := bytesAt b 0x12 1
  let splits : Vector (Option Split) 4 := Vector.ofFn fun i =>
    if bitsOf (bytesAt b 0x10 1) i.val 1 = 1 then some (imgSplit ((b.drop (0x40 + 64 * i.val)).take 64) (bytesAt b 0x178 8)) else none
  { Warp.idle with
    key := k
    live := true
    threads := h.threadMask k.widx
    splits := splits
    cur := ((List.finRange 4).find? fun i => (splits[i]).isSome).getD 0
    overflow := if bitsOf (bytesAt b 0x10 1) 4 1 = 1 then
        some ⟨BitVec.ofNat 57 (bytesAt b 0x140 8), imgMask b 0x148, imgMask b 0x154, clauseOfWord (word 0x174)⟩ else none
    vregs := Vector.ofFn fun r => Vector.ofFn fun l => BitVec.ofNat 32 (bytesAt v (16 + 384 * r.val + 4 * l.val) 4)
    sregs := Vector.ofFn fun r => if r.val = 0 ∨ (120 ≤ r.val ∧ r.val ≤ 122) then 0 else BitVec.ofNat 32 (bytesAt sr (16 + 4 * r.val) 4)
    preds := Vector.ofFn fun r => if r.val = 0 then 0 else imgMask pr (16 + 12 * r.val)
    allot := 8 * bytesAt b 0x11 1
    fflags := word 0x14
    clausest := word 0x160
    barcount := word 0x18
    trapcause := word 0x1C
    trappc := quad 0x20
    trapaddr := quad 0x28
    trapli := quad 0x38
    trapmask := bitsOf flags 0 1 == 1
    hold := if bitsOf flags 1 1 = 1 then some (Fin.ofNat 4 (bitsOf flags 2 2)) else none
    lklast := word 0x164
    clock := quad 0x30
    cycleHi := if bitsOf (bytesAt b 0x170 1) 0 1 = 1 then some (word 0x168) else none
    lclockHi := if bitsOf (bytesAt b 0x170 1) 1 1 = 1 then some (word 0x16C) else none
    rngstream := BitVec.ofNat 16 (bytesAt rg 0x10 4)
    counters := Vector.ofFn fun l => BitVec.ofNat 48 (bytesAt rg (0x18 + 8 * l.val) 8)
    issued := bytesAt b 0x30 8 }

/-- The waits that go on: a lock wait in its queue position, whether or not its code can be read (R284); the wait of a BAR or
CBAR all of whose threads have arrived, and that of a BARWAIT (R341). Any other that cannot be read yet issues afresh. -/
def State.imgWait (s : State) (w : Warp) (lockWait : Bool) (p : Split) : Wait :=
  match (s.homeReadVa fabric w.key.ctx .fetch false p.pc.toNat 4).1 with
  | .error _ =>
    if !lockWait then .ready
    else match (((s.context w.key.ctx).map (·.waiting)).getD []).find? fun r => r.warp == w.key && !w.waitsFor r with
      | some r => .lock none r.name r.mode r.up
      | none => .ready
  | .ok b =>
    let queued (d a : Reg) (m : LkMode) (up : Bool) : Wait :=
      match s.leftEntry w (w.s64 a) m up with
      | some r => if lockWait then .lock (some d) r.name m up else .ready
      | none => .ready
    let barrier (n : Nat) (arrives : Bool) : Wait :=
      let x := s.barrier w.key.wg n
      let h := s.hdrOf w.key.launch
      let id (l : Lane) : Nat := (if n < 16 then 0 else h.rank w.key.wglin * h.threads) + w.tidx l
      let lanes := LaneMask.lanes p.member
      let inSet (l : Lane) : Bool := x.threads.contains (id l)
      if lanes.any inSet && (!arrives || lanes.all inSet) then .barrier n x.phase else .ready
    match instrOf (BitVec.ofNat 32 (ofLeBytes b)) with
    | .lkacq d a m => queued d a m false
    | .lkup d a m => queued d a m true
    | .bar n => barrier n.val true
    | .barwait n => barrier n.val false
    | .cbar => barrier 16 true
    | _ => .ready

def State.imgWaits (s : State) (b : List Byte) (w : Warp) : Warp :=
  (List.finRange 4).foldl (fun w i => match w.splits[i] with
    | some p =>
      if p.trap.isSome then w
      else { w with splits := w.splits.set i (some { p with
        wait := s.imgWait { w with cur := i } (bytesAt b (0x64 + 64 * i.val) 1 == 1) p }) }
    | none => w) w

/-- Ascending launch sequence, then WGLIN (R408 step 4). -/
def groupRecBefore (a b : ImgRec) : Bool :=
  let x := recWgKey 0 a.2
  let y := recWgKey 0 b.2
  decide (x.seq < y.seq ∨ (x.seq = y.seq ∧ x.wglin ≤ y.wglin))
/-- The groups and warps of an image. -/
def State.plantGroups (s : State) (ctx : Nat) (kept : Kept) (ss : List (List ImgRec)) : State :=
  let gs := sortBy groupRecBefore (sectionAt ss 2)
  let s := { s with groups := s.groups ++ gs.map fun (r : ImgRec) => imgGroup ctx kept ss r.2 }
  let s := { s with others := s.others ++ (sectionAt ss 3).map fun (r : ImgRec) => imgWarp ctx ss r.2 }
  (sectionAt ss 3).foldl (fun s r => s.modWarpAt (recWarpKey ctx r.2) (s.imgWaits r.2)) s

/-! Buffered reductions (R437). -/

def imgReduction (b : List Byte) : Reduction :=
  let op := AOp.ofOpcode (bytesAt b 0x1D 1)
  let ty := (Ty.ofCode (bytesAt b 0x1E 1)).getD .i32
  let sb := bitsOf (bytesAt b 0x1F 1) 4 1 == 1
  let n := if op = .cas then 2 * ty.regs else ty.regs
  { clock := bytesAt b 0x10 8
    index := bytesAt b 0x18 4
    lane := Fin.ofNat 96 (bytesAt b 0x1C 1)
    opcode := bytesAt b 0x1D 1
    ty := ty
    scope := (Scope.ofCode (bytesAt b 0x1F 1 % 16)).getD .device
    sb := sb
    va := BitVec.ofNat 64 (bytesAt b 0x20 8)
    place := bytesAt b 0x20 8
    key := none
    page := 4096
    operand := (List.range n).map fun k => BitVec.ofNat 32 (bytesAt b (0x28 + 4 * k) 4)
    parked := none
    left := .both }

/-- A reduction is dropped: its trap is pending entry. While every split has one pending it stays, to be tried again. -/
def State.dropReduction (s : State) (k : WarpKey) (id : Nat) (c : Cause) (va : DWord) : State :=
  s.modWarpAt k fun w =>
    match (w.reds.find? fun r => r.parked == some id).bind fun r => w.dropSplit (some r.lane) with
    | some i => { w with
        reds := w.reds.filter fun r => r.parked != some id
        splits := w.splits.set i ((w.splits[i]).map fun p => { p with trap := some ⟨c, va, p.pc, 0⟩ }) }
    | none => w

/-- Translate afresh a reduction that waits for it under `id`: it is placed, parked at a fault, or dropped at one that is not
offered for service. -/
def State.translateReduction (s : State) (k : WarpKey) (id : Nat) : State :=
  match (s.warpAt k).bind fun w => w.reds.find? fun r => r.parked == some id with
  | none => s
  | some r =>
    let place (s : State) (t : Xlat) : State := s.modWarpAt k fun w =>
      { w with reds := w.reds.map fun x => if x.parked == some id then { x with place := t.pa, key := t.key, page := t.page, parked := none } else x }
    let park (s : State) (c : Cause) (level : Nat) (bad : Bool) : State :=
      let (n, s) := s.parkAt (.reduction k) k.ctx (some c) .atomic r.va true level bad
      s.modWarpAt k fun w => { w with reds := w.reds.map fun x => if x.parked == some id then { x with parked := some n } else x }
    let try2 (s : State) (x : XFault) : State := match x with
      | .page l m => park s .page l m
      | .attr l => park s .attr l false
      | .pool => park s .pagepool 3 false
      | .ecc => s.dropReduction k id .ecc r.va
      | .link => s.dropReduction k id .page r.va
      | _ => s.dropReduction k id .access r.va
    match s.translate fabric k.ctx r.va .atomic false with
    | (.ok t, s) => place s t
    | (.error .cow, s) =>
      match s.cowServe k.ctx r.va with
      | (false, s) => try2 s .pool
      | (true, s) => match s.translate fabric k.ctx r.va .atomic false with
        | (.ok t, s) => place s t
        | (.error x, s) => try2 s x
    | (.error x, s) => try2 s x

/-- Error records that a freeze left unwritten are written (R374). -/
def State.recordTime (s : State) : State :=
  (s.queues.filter fun q => q.record.isSome && q.parked.isNone && s.contextRuns q.ctx).foldl (fun s q => s.writeQueueRecord q.num) s

/-- The reductions that wait for a translation no service is asked for are tried again. -/
def State.redTime (s : State) : State :=
  (s.warps.filter fun w => s.contextRuns w.key.ctx).foldl (fun s w => (w.reds.filterMap (·.parked)).eraseDups.foldl (fun s id =>
    if s.parks.any fun p => p.id == id then s else s.translateReduction w.key id) s) s

/-- The reductions of the DMODE section, each translated afresh; one in SB keeps its offset. -/
def State.plantReductions (s : State) (ctx : Nat) (rs : List ImgRec) : State :=
  (rs.filter fun r => r.1 == 2).foldl (fun s r =>
    let k := recWarpKey ctx r.2
    let x := imgReduction r.2
    let add (s : State) (x : Reduction) : State := s.modWarpAt k fun w => { w with reds := w.reds ++ [x] }
    if x.sb then add s x
    else
      let id := s.fresh
      (add { s with fresh := id + 1 } { x with parked := some id }).translateReduction k id) s

/-! The planting (R408). -/

/-- Pending traps enter before any instruction issues (R395, R408 step 6): one a warp, and none in a split that a handler holds
back (R384); a cause recorded as DOUBLEFAULT takes effect. -/
def State.enterPending (s : State) (ctx : Nat) : State :=
  ((s.warps.filter fun w => w.key.ctx == ctx).map (·.key)).foldl (fun s k =>
    match (s.warpAt k).bind fun w => (List.finRange 4).find? fun i => w.hold.all (· == i) && (w.splits[i]).any fun p => p.trap.isSome with
    | none => s
    | some i => s.inSplit k i fun s => match s.warp.sp.trap with
      | none => s
      | some t => (s.modWarp fun w => w.modSp fun p => { p with trap := none }).takeTrap t.cause t.addr t.pc t.li) s

/-- Everything that an image holds enters a context. -/
def State.plantAll (s : State) (ctx : Nat) (img : List Byte) (ss : List (List ImgRec)) : State :=
  let s := s.modContext ctx fun c => { (c.plantLocks (sectionAt ss 11)) with
    quanta := (((sectionAt ss 15).find? fun r => r.1 == 1).map fun r => bytesAt r.2 8 8).getD 0
    frozen := false
    cycleBase := (bytesAt img 0x20 8 : Int) - s.now }
  let s := s.plantQueues ctx (sectionAt ss 13)
  let kept := ((s.context ctx).getD (Context.blank ctx)).keptAt (bytesAt img 0x20 8)
  let s := s.plantLaunches ctx kept ss
  let s := { (s.freshCode ctx none none).emptyCaches with
    tlb := s.tlb.filter fun t => t.ctx != ctx
    xlats := s.xlats.filter fun t => t.ctx != ctx }
  let s := (s.plantGroups ctx kept ss).forgetOwners ctx (bytesAt img 0x20 8)
  let s := s.plantWounds ctx (sectionAt ss 11)
  let s := s.plantReductions ctx (sectionAt ss 15)
  s.plantDue.enterPending ctx

/-- The image's bytes: its header says how many. An image larger than the largest memory is cut to its header. -/
def State.readImage (s : State) (addr : Nat) : List Byte :=
  let size := ofLeBytes (s.homeBytes none (addr + 0x18) 8)
  s.homeBytes none addr (if size ≤ 2 ^ 40 then max size 0x50 else 0x50)

/-- Plant an image into a context: the status (R410), and the state after. A failed planting places nothing. -/
def State.plantImage (s : State) (ctx addr : Nat) : Nat × State :=
  let img := s.readImage addr
  let owned := (s.keyOf ctx).isSome
  match imageStatus owned img with
  | (0, ss) => (0, s.plantAll ctx img ss)
  | (code, _) => (code, s)

/-- The context can take an image: it lives, and holds no work. -/
def State.plantable (s : State) (ctx : Nat) : Bool :=
  (s.context ctx).any (fun c => !c.dead && c.saves == [] && !c.checkDue) && !(s.launches.any fun l => l.key.ctx == ctx) &&
    !(s.groups.any fun g => g.key.ctx == ctx) && !(s.queues.any fun q => q.ctx == ctx && q.prologue.isSome)

/-- PLANT (R408, R418). -/
def execPlant (ctx : Nat) (image : Nat) (s : State) : Host.Outcome State Fault Refusal :=
  .next (if !s.up then s
    else if !s.plantable ctx then { s with events := s.events ++ [.answer 5 false] }
    else
      let (code, s) := s.plantImage ctx image
      { s with events := s.events ++ [.plantStatus ctx code, .answer 5 (code == 0)] })

end Sys2Proof.Machine
end

