-- ==== Sys2Proof/Machine/Tabard.lean ====
section
/-! DEFINITION. The Tabard engine (R357, R380, R394 to R397, R415 to R417): the canonical point, pre-emption, checkpoints and
rollback. -/

namespace Sys2Proof.Machine

/-! The canonical point. -/

def Wait.sleeps : Wait → Bool
  | .sleep _ => true
  | _ => false
/-- A warp of deterministic mode has come as far as a freeze lets it: it is held at a quantum boundary, or cannot issue. -/
def State.stopped (s : State) (w : Warp) : Bool :=
  s.heldBack w || !s.resident w.key.wg ||
    ((w.boundary.candidate true).isNone && (List.finRange 4).all fun i => !((w.splits[i]).any fun p => Wait.sleeps p.wait))

/-- The canonical point of a context (R357, R380, R394): no prologue is in the middle of its program, and in deterministic mode
every non-blocked warp has stopped. -/
def State.canonical (s : State) (ctx : Nat) : Bool :=
  (s.queues.all fun x => x.ctx != ctx || x.prologue.all fun p => p.pc == 0 && (s.qpRun x.num).isNone) &&
  (s.running ctx).all fun w => !(s.hdrOf w.key.launch).det || s.stopped w

/-- A queue whose reads ahead and prologue are dropped. -/
def Queue.stilled (x : Queue) : Queue :=
  { x with ahead := [], prologue := none, armed := false, parked := none, spoilt := false, valid := [] }

/-- The context's work leaves the device; its queues keep their descriptors and indices. What it frees goes to those that wait:
registers (R106) and window entries (R291) now, lock entries as the manager next moves (R264). -/
def State.dropWork (s : State) (ctx : Nat) : State :=
  let s := { s with
    launches := s.launches.filter fun l => l.key.ctx != ctx
    groups := s.groups.filter fun g => g.key.ctx != ctx
    warp := if s.warp.live && s.warp.key.ctx == ctx then Warp.idle else s.warp
    others := s.others.filter fun w => !(w.live && w.key.ctx == ctx)
    monitors := s.monitors.filter fun m => m.warp.ctx != ctx
    parks := s.parks.filter fun p => p.ctx != ctx
    late := s.late.filter fun x => x.group.ctx != ctx
    tlb := s.tlb.filter fun t => t.ctx != ctx
    xlats := s.xlats.filter fun t => t.ctx != ctx
    icache := s.icache.filter fun c => c.ctx != ctx
    queues := s.queues.map fun (x : Queue) => if x.ctx == ctx then x.stilled else x }
  let s := s.modContext ctx fun c => { c with
    domains := [], holdings := [], waiting := [], answered := [] }
  s.retryGrows.wake (fun _ => true) (· == .window) none

/-! Checkpoints (R415). -/

/-- The checkpoint itself: the image goes to the area that is not current, which then is, and the log is empty. The work goes
on where it stands. -/
def State.takeCheckpoint (s : State) (ctx : Nat) : State :=
  let s := s.quiet ctx
  let bytes := (s.recorded ctx none).image ctx none none
  match s.context ctx with
  | none => s
  | some c =>
    let toB := c.current == some false
    let s := (s.keepBeside ctx).homeWrite Writer.device (if toB then c.areaB else c.areaA) bytes
    s.modContext ctx fun c => { c with
      current := some toB, logCount := 0, logged := [], spill := [], checkDue := false, lastCheck := s.now }

/-- The pre-emption itself (R394): the image at every address asked for, and the context is out of the device. -/
def State.preemptNow (s : State) (ctx : Nat) : State :=
  match s.context ctx with
  | none => s
  | some c =>
    let s := c.saves.foldl (fun s a => s.saveImage ctx a none) s
    (s.dropWork ctx).modContext ctx fun c => { c with saves := [], frozen := true }

/-- A freeze that was asked for is carried out at the canonical point; a checkpoint completes first (R417). -/
def State.finishFreeze (s : State) (ctx : Nat) : State :=
  if !s.freezing ctx ∨ !s.contextRuns ctx ∨ !s.canonical ctx then s
  else
    let s := if (s.context ctx).any (·.checkDue) then s.takeCheckpoint ctx else s
    if (s.context ctx).any fun c => c.saves != [] then s.preemptNow ctx else s

/-- PREEMPT (R394): a second request joins the first. -/
def execPreempt (ctx : Nat) (save : Nat) (s : State) : Host.Outcome State Fault Refusal :=
  .next (if !s.up then s
    else if !s.contextRuns ctx then { s with events := s.events ++ [.answer 4 false] }
    else
      let s : State := { s with events := s.events ++ [.answer 4 true] }
      (s.modContext ctx fun c => { c with saves := c.saves ++ [save] }).finishFreeze ctx)

/-- A checkpoint of the context is due: its interval has gone by, or its log has filled. -/
def State.checkpointDue (s : State) (c : Context) : Bool :=
  c.interval != 0 && s.contextRuns c.num && (c.checkDue || decide (c.lastCheck + c.interval * 3000000 ≤ s.now))

/-- CHECKPOINT (R415). -/
def execCheckpoint (ctx : Nat) (s : State) : Host.Outcome State Fault Refusal :=
  .next (if (s.context ctx).any s.checkpointDue then
      (s.modContext ctx fun c => { c with checkDue := true }).finishFreeze ctx
    else s)

/-! Rollback (R416). -/

/-- A context with a checkpoint to go back to. -/
def State.canRollback (s : State) (ctx : Nat) : Bool :=
  s.contextRuns ctx && (s.context ctx).any fun c => c.interval != 0 && c.current.isSome

/-- A line as it was stored, in the clear or not. -/
def State.restoreLine (s : State) (base : Nat) (bytes : List Byte) : State :=
  (bytes.zipIdx).foldl (fun s b => s.putStored (base + b.2) b.1)
    { s with lineKeys := s.lineKeys.filter fun k => k.1 != base / 64 }

/-- The logged lines go back, the last logged first; what the cluster caches hold of the context's writes is dropped, and no copy
of a line hides what is restored. -/
def State.undoWrites (s : State) (c : Context) : State :=
  let s := ({ s with caches := s.caches.map fun (x : Nat × List CacheByte) =>
    (x.1, x.2.filter fun b => !(b.dirty && b.ctx == some c.num)) } : State).emptyCaches
  let s := c.spill.foldl (fun s l => s.restoreLine l.1 l.2) s
  (List.range c.logCount).reverse.foldl (fun s i =>
    let e := s.homeBytes none (c.logBase + 72 * i) 72
    s.restoreLine (bitsOf (bytesAt e 0 8) 6 46 * 64) (e.drop 8)) s

/-- ROLLBACK (R416): the log is unchanged. -/
def State.rollback (s : State) (ctx : Nat) : State :=
  match s.context ctx with
  | none => s
  | some c =>
    if !s.canRollback ctx then s
    else
      let s := (s.undoWrites c).dropWork ctx
      let s := { s with queues := s.queues.map fun (x : Queue) => if x.ctx == ctx then { x with rewritten := [] } else x }
      let (_, s) := s.plantImage ctx (if c.current == some true then c.areaB else c.areaA)
      { s with events := s.events ++ [.rolledBack ctx] }
def execRollback (ctx : Nat) (s : State) : Host.Outcome State Fault Refusal := .next (s.rollback ctx)

end Sys2Proof.Machine
end

