-- ==== Sys2Proof/Machine/HostCommands.lean ====
section
/-! DEFINITION. The host, the peers and reset (R191, R258, R361, R362, R413, R418 to R427, R431): the commands of the mailbox or
the command ring, accesses from outside, and what a reset leaves. -/

namespace Sys2Proof.Machine

/-- An entry of the host's event ring (R418). -/
def State.say (s : State) (e : HostEvent) : State := { s with events := s.events ++ [e] }
/-- A command's answer. -/
def State.reply (s : State) (code : Nat) (ok : Bool) : State := s.say (.answer code ok)
/-- A command, once the mailbox or the command ring is open (R431): the state it leaves, or `none` where it is refused. -/
def State.command (s : State) (code : Nat) (f : Option State) : State :=
  if !s.up then s
  else match f with
    | some s => s.reply code true
    | none => s.reply code false

/-! Contexts (R419, R422). -/

/-- The context record keeps its limits. -/
def contextRecordOk (b : List Byte) : Bool :=
  decide (bytesAt b 0 2 < 4096 ∧ bytesAt b 2 1 < 4 ∧ bytesAt b 3 1 < 64 ∧ bytesAt b 4 4 ≤ 1000 ∧ bytesAt b 0x30 8 % 72 = 0 ∧
    bytesAt b 0x40 8 % 8 = 0) && zeroAt b 0x48 56

/-- The context of a record. -/
def State.newContext (s : State) (b : List Byte) : Context :=
  let protect := bitsOf (bytesAt b 2 1) 1 1 == 1
  let key := bytesAt b 0x40 8
  { Context.blank (bytesAt b 0 2) with
    system := bitsOf (bytesAt b 2 1) 0 1 == 1
    protect := protect
    keySlot := bytesAt b 3 1
    interval := bytesAt b 4 4
    pages := bytesAt b 8 8
    faultSave := bytesAt b 0x10 8
    areaA := bytesAt b 0x18 8
    areaB := bytesAt b 0x20 8
    logBase := bytesAt b 0x28 8
    logSize := bytesAt b 0x30 8
    excess := bytesAt b 0x38 8
    programKey := if protect && key != 0 then some (s.homeBytes none key 32) else none
    cycleBase := -(s.now : Int)
    lastCheck := s.now }

/-- The page descriptor keeps its limits, and its unused bytes are zero (R180). -/
def pageDescOk (b : List Byte) : Bool :=
  bytesAt b 0 8 % 65536 == 0 && bytesAt b 8 8 % 128 == 0 && decide (bytesAt b 0x10 4 ≤ 24) && zeroAt b 0x14 4 &&
    bytesAt b 0x18 8 % 8 == 0 && ((List.range 25).any fun k => bytesAt b 0x20 4 == 2 ^ k) && zeroAt b 0x2C 4 &&
    bytesAt b 0x30 8 % 8 == 0 && zeroAt b 0x38 8

/-- The context may be made: its number is free and not being scrubbed, no scrub restarted by a reset runs (R424), its page
descriptor is well formed (R3, R180; log entry 109), and the key slot that a protected one names is not another's (R420). -/
def State.mayCreate (s : State) (c : Context) : Bool :=
  (s.context c.num).isNone && !(s.scrubs.any fun x => x.ctx == c.num || x.restarted) &&
    pageDescOk (s.homeBytes none c.pages 64) && !(c.protect && s.contexts.any fun x => x.protect && x.keySlot == c.keySlot)

/-- CREATE (R419). -/
def execCreate (record : Nat) (s : State) : Host.Outcome State Fault Refusal :=
  let b := s.homeBytes none record 128
  let c := s.newContext b
  .next (if !s.up ∧ s.scrubs ≠ [] then s.reply 1 false
    else s.command 1 (if contextRecordOk b && s.mayCreate c then some { s with contexts := s.contexts ++ [c] } else none))

/-! Queues (R361, R362). -/

def queueDescOk (b : List Byte) : Bool :=
  let z := bytesAt b 8 4
  bytesAt b 0 8 % 4096 == 0 && ((List.range 21).any fun k => decide (4 ≤ k) && z == 2 ^ k) && decide (bytesAt b 0xC 1 < 4) &&
    zeroAt b 0xE 2 && bytesAt b 0x10 8 % 8 == 0 && bytesAt b 0x18 8 % 8 == 0 && bytesAt b 0x20 8 % 32 == 0 &&
    bytesAt b 0x28 8 % 8 == 0 && zeroAt b 0x30 16

def newQueue (ctx q : Nat) (desc : List Byte) : Queue where
  num := q
  ctx := ctx
  desc := desc
  read := 0
  published := 0
  issued := 0
  halted := false
  err := 0
  levels := []
  prologue := none
  slots := Vector.replicate 16 none
  ahead := []
  joinHold := false
  armed := false
  parked := none
  record := none
  spoilt := false
  valid := []
  rewritten := []

/-- QUEUE (R361, R362): a free number takes the descriptor; a halted queue of the context takes a changed one. -/
def execQueue (ctx q : Nat) (desc : Nat) (s : State) : Host.Outcome State Fault Refusal :=
  let b := s.homeBytes none desc 64
  .next (s.command 3 (
    if !(s.context ctx).any (fun c => !c.dead) || !decide (q < 1024) || !queueDescOk b ||
        s.scrubs.any fun x => x.queues.contains q then none
    else match s.queue? q with
      | none => some { s with queues := s.queues ++ [newQueue ctx q b] }
      | some x => if x.ctx = ctx ∧ x.halted then some (s.modQueue q fun x => { x with desc := b, valid := [], rewritten := [] }) else none))

/-! Key slots (R420, R421). -/

/-- Bytes of a wrapped key (log entry 55). -/
def wrappedKeyBytes : Nat := 72
/-- KEYLOAD: a free slot takes the key, for the protected context whose record names it; a teardown has freed its slot as it
zeroised it (R423). R418's table gives it two operands: `unused` is the quadword after them, and one that is not zero is
refused (R3; log entry 92). -/
def execKeyload (slot : Nat) (key : Nat) (unused : Nat) (s : State) : Host.Outcome State Fault Refusal :=
  .next (s.command 7 (
    if unused ≠ 0 ∨ 64 ≤ slot ∨ s.keys.any fun k => k.slot == slot then none
    else some { s with keys := s.keys ++ [⟨slot, Config.unwrapKey (s.homeBytes none key wrappedKeyBytes)⟩] }))

/-! Attestation (R422). -/

/-- What the report measures and the nonce: each list of measurements after its count (log entry 56). -/
def State.measurements (s : State) (nonce : DWord) : List Byte :=
  let keys := (s.contexts.filter (·.protect)).filterMap fun c => c.programKey.map sha256
  let programs := (s.contexts.filter (·.protect)).flatMap (·.measured)
  (List.range 32).map Config.firmwareMeasurement ++ (List.range 32).map Config.identityMeasurement ++
    leBytes 8 keys.length ++ keys.flatten ++ leBytes 8 programs.length ++ programs.flatten ++ leBytes 8 nonce.toNat
/-- ATTEST. -/
def execAttest (nonce : DWord) (report : Nat) (s : State) : Host.Outcome State Fault Refusal :=
  let m := s.measurements nonce
  .next (s.command 8 (some (s.homeWrite Writer.device report (m ++ (List.range 7856).map (Config.deviceSignature m)))))

/-! Collective groups (R427). -/

/-- The ranges of a group record: a count, then peer, first slot and slot count (log entry 57). -/
def groupRanges (b : List Byte) (n : Nat) : List (Nat × Nat × Nat) :=
  (List.range n).map fun k => (bytesAt b (8 + 8 * k) 2, bytesAt b (10 + 8 * k) 2, bytesAt b (12 + 8 * k) 2)
/-- Ranges lie in the slots and do not meet; no member has two. -/
def rangesOk : List (Nat × Nat × Nat) → Bool
  | [] => true
  | r :: rs =>
    decide (r.1 < 256 ∧ 1 ≤ r.2.2 ∧ r.2.1 + r.2.2 ≤ 4096) &&
      (rs.all fun x => x.1 != r.1 && decide (x.2.1 + x.2.2 ≤ r.2.1 ∨ r.2.1 + r.2.2 ≤ x.2.1)) && rangesOk rs

/-- The running COLLs of the groups that a member belongs to fail: it left, or its link is lost. -/
def State.failColls (s : State) (p : CollGroup → Bool) : State :=
  let hit := s.groups.flatMap fun g => (List.finRange 16).filterMap fun st =>
    match (g.streams[st]).commands.head? with
    | some c => if c.kind = .coll ∧ c.running ∧ c.progress = 0 ∧
        (s.collGroups.any fun x => x.ctx == g.key.ctx && x.num == (collDesc c.desc).group && p x) then some (g.key, st) else none
    | none => none
  hit.foldl (fun s k => s.failCommand k.1 k.2 eCollPeer 0) s

/-- GROUP. -/
def execGroup (ctx group : Nat) (record : Nat) (s : State) : Host.Outcome State Fault Refusal :=
  let n := ofLeBytes (s.homeBytes none record 4)
  let b := s.homeBytes none record (8 + 8 * min n 256)
  let r := groupRanges b n
  .next (s.command 9 (
    if (s.context ctx).isNone ∨ 64 ≤ group ∨ 256 < n ∨ !rangesOk r then none
    else
      let left (x : CollGroup) : Bool := x.ctx == ctx && x.num == group && x.ranges.any fun y => !r.any fun z => z.1 == y.1
      let s := s.failColls left
      some { s with collGroups := ⟨ctx, group, r⟩ :: s.collGroups.filter fun x => !(x.ctx == ctx && x.num == group) }))

/-! Answers to fault records (R191, R226, R437). -/

/-- The trap of a parked access is delivered. A long instruction's enters at its boundary (R58): it has retired, with TRAPLI
naming it; while traps are masked it has not executed, and the DOUBLEFAULT is raised (R387). -/
def State.deliverTrap (s : State) (p : Park) (c : Cause) : State :=
  if p.long ∧ p.kind ≠ .fetch ∧ !s.warp.trapmask then
    ((s.setWait .ready).modWarp fun w => { w with outstanding := w.outstanding ++
      [⟨w.cur, w.sp.pc, 1, [], 0, some (c, p.va), [], [], none⟩] }).retire
  else s.trapWaiting c p.va

/-- A queue's parked access is answered "deliver": the queue halts, a launch whose completion signal it was completes, and an
error record that could not be written is given up. -/
def State.deliverQueue (s : State) (q va : Nat) (kind : AccessKind) : State :=
  let writing := s.queues.any fun x => x.num == q && x.record.isSome
  let s := if writing then s.modQueue q fun x => { x with record := none, parked := none } else s.haltQueue q 0x0C va
  match s.launches.find? fun l => l.queue == q && decide (l.hdr.workgroups ≤ l.retired) && kind == .store &&
      decide (l.signal.toNat ≤ va ∧ va < l.signal.toNat + 8) with
  | some l => (s.modLaunch l.key fun l => { l with signal := 0 }).completeLaunch l.key
  | none => s

/-- The answer "deliver". -/
def State.deliverPark (s : State) (p : Park) (c : Cause) : State :=
  let s := (s.dropPark p.id).freshPark p
  match p.who with
  | .warp w sp => s.inSplit w sp fun s => match s.warp.sp.wait with
    | .parked id _ => if s.warp.key = w ∧ id = p.id then s.deliverTrap p c else s
    | _ => s
  | .command g st => s.deliverCommand g st p.va.toNat
  | .queue q => s.deliverQueue q p.va.toNat p.kind
  | .reduction w => s.dropReduction w p.id c p.va

/-- The answer "replay". -/
def State.replayPark (s : State) (p : Park) : State :=
  match p.who with
  | .reduction w => (s.dropPark p.id).translateReduction w p.id
  | _ => s.replay p

/-- The requester of a fault record as a number: its field at 0x10, and above it that at 0x18 (R191). -/
def State.requesterNum (s : State) (p : Park) : Nat :=
  let f := s.requesterFields p.who
  f.1 + f.2 * 2 ^ 64
/-- ANSWER (R191, R418): the requester's oldest fault record. -/
def execAnswer (id : Nat) (ctx : Nat) (deliver : Bool) (s : State) : Host.Outcome State Fault Refusal :=
  .next (s.command 6 (match s.parks.find? fun p => p.cause.isSome && p.ctx == ctx && s.requesterNum p == id with
    | some p => p.cause.map fun c => if deliver then s.deliverPark p c else s.replayPark p
    | none => none))

/-! Teardown and scrub (R423, R424). -/

/-- The scrub of a context: every frame that its free pool and page tables have ever named (log entry 94). -/
def State.scrubOf (s : State) (c : Context) : Scrub :=
  let gs := s.groups.filter fun g => g.key.ctx == c.num
  { ctx := c.num
    slot := if c.protect then some c.keySlot else none
    frames := (s.namedNow c.num ++ (s.named.filter fun f => f.1 == c.num).map fun f => f.2).eraseDups
    buffers := (gs.map fun g => (g.bufs.toList.map (·.size)).sum).sum
    zeroed := 0
    queues := (s.queues.filter fun q => q.ctx == c.num).map (·.num)
    cores := (gs.map (·.core)).eraseDups
    restarted := false }

/-- DESTROY (R423, steps 1 and 2): the context, its work, queues and key slot are gone, and the scrub begins. -/
def execDestroy (ctx : Nat) (s : State) : Host.Outcome State Fault Refusal :=
  .next (s.command 2 ((s.context ctx).map fun c =>
    let x := s.scrubOf c
    let s := s.dropWork ctx
    { s with
      contexts := s.contexts.filter fun c => c.num != ctx
      queues := s.queues.filter fun q => q.ctx != ctx
      keys := s.keys.filter fun k => !(c.protect && k.slot == c.keySlot)
      named := s.named.filter fun f => f.1 != ctx
      collGroups := s.collGroups.filter fun g => g.ctx != ctx
      instances := s.instances.filter fun i => i.ctx != ctx
      caches := s.caches.map fun (k : Nat × List CacheByte) => (k.1, k.2.filter fun b => b.ctx != some ctx)
      scrubs := s.scrubs ++ [x] }))

/-- The scrub engine's write of a range of whole lines with zeros, which then are in the clear, and no cache holds a copy. It is a
write as any other to whoever shares the frame (R78, R238, R415). -/
def State.zeroFrame (s : State) (f : Nat × Nat) : State :=
  let out (a : Nat) : Bool := decide (a < f.1 ∨ f.1 + f.2 ≤ a)
  let s := s.keepNamed f.1 f.2
  let s := if s.launches.isEmpty && s.contexts.all (·.interval == 0) then s
    else (List.range (f.2 / 64)).foldl (fun s i => (s.keepCode (f.1 + 64 * i)).logWrite Writer.device (f.1 + 64 * i)) s
  let s : State := { s with
    mem := s.mem.filter fun c => out c.1
    l2 := s.l2.filter fun c => out c.addr
    caches := s.caches.map fun (k : Nat × List CacheByte) => (k.1, k.2.filter fun b => out b.addr)
    lineKeys := s.lineKeys.filter fun k => out (64 * k.1) }
  s.monitors.foldl (fun s m => if rangesMeet f.1 f.2 m.addr m.width then s.fireAt Writer.device (max f.1 m.addr) else s) s

/-- The next `n` bytes of a scrub's frames once `skip` are done: addresses and lengths. -/
def scrubPieces : List (Nat × Nat) → Nat → Nat → List (Nat × Nat)
  | [], _, _ => []
  | f :: fs, skip, n =>
    if f.2 ≤ skip then scrubPieces fs (skip - f.2) n
    else
      let k := min n (f.2 - skip)
      if k = 0 then [] else (f.1 + skip, k) :: scrubPieces fs 0 (n - k)
/-- Bytes of the frames of a scrub. -/
def Scrub.size (x : Scrub) : Nat := (x.frames.map (·.2)).sum
/-- The scrub engine zeroes the next lines of the first scrub (R423, R424; log entry 110). -/
def State.scrubSome (s : State) (bytes : Nat) : State :=
  match s.scrubs with
  | [] => s
  | x :: rest =>
    let n := min (bytes / 64 * 64) (x.size - x.zeroed)
    { ((scrubPieces x.frames x.zeroed n).foldl State.zeroFrame s) with scrubs := { x with zeroed := x.zeroed + n } :: rest }

/-- SCRUB_COMPLETE (R423, R424): the rest of the first scrub's frames is zeroed, and its cores, frames and numbers are free; with
the last one that a reset restarted the host's interface opens (R431). -/
def execScrubComplete (s : State) : Host.Outcome State Fault Refusal :=
  .next (match s.scrubs with
    | [] => s
    | x :: rest =>
      let s := (scrubPieces x.frames x.zeroed (x.size - x.zeroed)).foldl State.zeroFrame s
      { s with scrubs := rest, scrubRestarted := x.restarted, up := s.up || (x.restarted && !rest.any (·.restarted)) })

/-! Accesses of the host (R258). -/

/-- A byte of memory itself, behind the L2 (R421). -/
def State.memoryByte (s : State) (key : Option Nat) (pa : Nat) : Byte := readThrough s.rawByte key (s.lineKey pa) pa
/-- A byte written to memory itself; it fires the monitors there as any write does (R238). -/
def State.memoryWrite (s : State) (w : Writer) (pa : Nat) (b : Byte) : State :=
  let s := ((s.keepNamed pa 1).keepCode pa).logWrite w pa
  let s := if s.place pa = .local then s.rekeyLine pa w.key else s
  match s.place pa with
  | .nothing | .identity | .power => s
  | _ => ({ s with mem := cellSet s.mem pa b } : State).fireAt w pa

/-- The translated bytes of a host access, or why it is not made. -/
def State.hostPlaces (s : State) (ctx va n : Nat) (kind : AccessKind) : Except XFault (List (Nat × Option Nat)) × State :=
  (chunks16 (n + 1) va n).foldl (fun acc c => match acc with
    | (.error e, s) => (.error e, s)
    | (.ok l, s) => match s.translate fabric ctx (BitVec.ofNat 64 c.1) kind true with
      | (.error e, s) => (.error e, s)
      | (.ok t, s) => (.ok (l ++ (List.range c.2).map fun i => (t.pa + i, t.key)), s)) (.ok [], s)

/-- Lines that a host write rewrites whole lose their poison (R414). -/
def State.healLines (s : State) (places : List Nat) : State :=
  { s with poisoned := s.poisoned.filter fun l => !(List.range 64).all fun i => places.contains (64 * l + i) }

/-- Serve the copy-on-write pages in the way of a host write. -/
def State.hostCow (s : State) (ctx va n : Nat) : State :=
  (chunks16 (n + 1) va n).foldl (fun (s : State) c =>
    match s.translate fabric ctx (BitVec.ofNat 64 c.1) .store true with
    | (.error .cow, s) => (s.cowServe ctx (BitVec.ofNat 64 c.1)).2
    | (_, s) => s) s

/-- An atomic that the host or a peer sends, served by the member's own port unit (R231): what it returns is answered. One
that is not naturally aligned, or of a type that its form does not accept, is refused. -/
def State.outerAtomic (s : State) (ctx key : Option Nat) (pa : Nat) (a : OuterAtomic) : State :=
  let op := AOp.ofOpcode a.opcode
  if op.opcode ≠ a.opcode ∨ !op.accepts a.ty ∨ pa % (4 * a.ty.regs) ≠ 0 ∨ !s.cacheable pa then s.say .refusedAccess
  else
    let (m, s) := s.atomicAt ⟨ctx, none, none, none⟩ fabric .portUnit op a.ty .both (.global pa key) a.v a.c
    s.say (.read (s.seen 0 pa (leBytes (4 * a.ty.regs) m)))

/-- Bytes that a host access covers. -/
def hostSize (a : HostAccess) : Nat :=
  match a.atomic with
  | some x => 4 * x.ty.regs
  | none => (a.write.map List.length).getD a.len
/-- What a host access does. -/
def hostKind (a : HostAccess) : AccessKind :=
  if a.atomic.isSome then .atomic else if a.write.isSome then .store else .load

/-- A host access to memory of a context: at the home slices on a mailbox member, at memory behind the L2 on a window member;
an atomic at the port unit. -/
def State.hostMemory (s : State) (a : HostAccess) : State :=
  let s := if (hostKind a).writes then s.hostCow a.ctx a.addr (hostSize a) else s
  match s.hostPlaces a.ctx a.addr (hostSize a) (hostKind a) with
  | (.error _, s) => s.say .refusedAccess
  | (.ok places, s) =>
    let windowed := Config.windowed s.member
    match a.atomic, a.write with
    | some x, _ => match places.head? with
      | some p => s.outerAtomic (some a.ctx) p.2 p.1 x
      | none => s
    | none, none => s.say (.read (places.flatMap fun p =>
        s.seen 0 p.1 [if windowed then s.memoryByte p.2 p.1 else s.homeByte p.2 p.1]))
    | none, some bytes =>
      ((places.zip bytes).foldl (fun s p =>
        let w : Writer := ⟨some a.ctx, p.1.2, none, none⟩
        if windowed then s.memoryWrite w p.1.1 p.2 else s.homeWrite w p.1.1 [p.2]) s).healLines (places.map (·.1))

/-- A host access to the coherent window, which is the point of host scope for its bytes. -/
def State.hostWindow (s : State) (a : HostAccess) : State :=
  let at_ := windowBase + a.addr
  if !Config.windowed s.member ∨ windowSize < a.addr + (hostSize a) then s.say .refusedAccess
  else match a.atomic, a.write with
    | some x, _ => s.outerAtomic none none at_ x
    | none, none => s.say (.read (s.seen 0 at_ (s.homeBytes none at_ (hostSize a))))
    | none, some bytes => s.homeWrite Writer.device at_ bytes

/-- HOST_ACCESS (R231, R258). -/
def execHostAccess (a : HostAccess) (s : State) : Host.Outcome State Fault Refusal :=
  .next (if !s.up then s else if a.window then s.hostWindow a else s.hostMemory a)

/-! Peers (R258, R425). -/

/-- Bytes of local memory as a peer sees them at the home slices. -/
def State.peerBytes (s : State) (a n : Nat) : List Byte :=
  s.seen 0 a ((List.range n).map fun i => if s.place (a + i) = .local then s.homeByte none (a + i) else 0xFF#8)
def State.peerWrite (s : State) (a : Nat) (bytes : List Byte) : State :=
  (bytes.zipIdx).foldl (fun s b => if s.place (a + b.2) = .local then s.homeWrite Writer.device (a + b.2) [b.1] else s) s

/-- An atomic of a peer on local memory. -/
def State.peerAtomic (s : State) (pa : Nat) (a : OuterAtomic) : State :=
  if s.place pa = .local then s.outerAtomic none none pa a else s.say (.read (List.replicate (4 * a.ty.regs) 0xFF#8))

/-- PEER_ACCESS: a read, write or atomic of an assigned peer whose link is up is served at the home slices by the port unit. -/
def execPeerAccess (peer : Nat) (a : PeerAccess) (s : State) : Host.Outcome State Fault Refusal :=
  .next (if !(s.peers.any fun p => p.num == peer && p.up) then s
    else match a.op with
      | .read n => s.say (.read (s.peerBytes a.addr n))
      | .write bytes => s.peerWrite a.addr bytes
      | .add wide v => s.peerAtomic a.addr ⟨AOp.add.opcode, if wide then .n64 else .n32, v.toNat, 0⟩
      | .atomic x => s.peerAtomic a.addr x)

/-- A byte of a peer's memory. -/
def State.atPeer (s : State) (p : Nat) : Spot → Bool
  | .global pa _ => s.place pa == .peer p
  | .buffer _ _ _ => false
/-- An access of a long instruction to a peer's memory is not yet performed. -/
def LongOp.inFlight (l : LongOp) (at_ : Spot → Bool) : Bool :=
  match l.late with
  | none => false
  | some (.load _ _ _ _ _ lanes) => lanes.any fun x => at_ x.spot
  | some (.atomic _ _ _ _ _ lanes _) => lanes.any fun x => at_ x.spot
/-- A write to a peer whose link is lost fails: its warp's split takes PAGE, its command fails with COLLPEER (R425). -/
def State.failLate (s : State) (x : LateWrite) : State :=
  match x.warp, x.stream with
  | some w, _ => s.modWarpAt w fun w => w.pendTrap x.lane .page x.va
  | none, some st => s.failCommand x.group st eCollPeer 0
  | none, none => s
/-- The accesses in flight to a peer whose link is lost fail (R425). Reductions of deterministic mode are not under way until their
quantum commits, and fail then; a WAITCMP that waits there executes afresh, and fails. -/
def State.failInFlight (s : State) (p : Nat) : State :=
  let hit := s.late.filter fun x => s.atPeer p x.spot
  let s := hit.foldl State.failLate { s with late := s.late.filter fun x => !s.atPeer p x.spot }
  let s := s.warps.foldl (fun s w =>
    let due (r : Reduction) : Bool := !(s.hdrOf w.key.launch).det && s.atPeer p (r.spot w.key.wg)
    let s := s.inSplit w.key w.cur fun s => s.performLong fun l => l.inFlight (s.atPeer p)
    let s := (w.reds.filter due).foldl (fun s r => s.performRed w none r) s
    s.modWarpAt w.key fun w => { w with reds := w.reds.filter fun r => !due r }) s
  s.redoLanes fun _ x => s.atPeer p (.global x.pa x.key)

/-- LINK_DROP (R425): what is in flight to the peer's memory fails, later accesses to it do, and so do the collectives of its
groups. -/
def execLinkDrop (peer : Nat) (s : State) : Host.Outcome State Fault Refusal :=
  let s : State := { s with peers := s.peers.map fun p => if p.num == peer then { p with up := false } else p }
  .next ((s.failInFlight peer).failColls fun g => g.ranges.any fun r => r.1 == peer)

/-! Reset (R424, R431). -/

/-- RESET: what stood is gone but memory, its keys and poisoned lines, retired cores and the scrub list, which starts over
(log entry 58); the host's interface opens once no scrub is left to run. -/
def execReset (s : State) : Host.Outcome State Fault Refusal :=
  .next { State.reset with
    member := s.member
    fresh := s.fresh
    agenda := s.agenda
    mem := s.mem
    lineKeys := s.lineKeys
    poisoned := s.poisoned
    retiredCores := s.retiredCores
    scrubs := s.scrubs.map fun x => { x with zeroed := 0, restarted := true }
    scrubRestarted := s.scrubs != []
    up := s.scrubs == [] }

/-! Errors (R413, R414). -/

def satInc (x : Word) : Word := if x = ~~~0 then x else x + 1
/-- A read that met an error and succeeded on its second try. -/
def State.transientError (s : State) (ctx : Nat) : State :=
  ({ s with errors := satInc s.errors } : State).modContext ctx fun c => { c with errcount := satInc c.errcount }
/-- A lasting error of a line, met by a read of a context. -/
def State.lineError (s : State) (ctx line : Nat) : State :=
  let s := ({ s with poisoned := if s.poisoned.contains line then s.poisoned else line :: s.poisoned } : State).say (.eccError line)
  s.rollback ctx
/-- A core is retired (R413). -/
def State.retireCore (s : State) (core : Nat) : State :=
  ({ s with retiredCores := if s.retiredCores.contains core then s.retiredCores else core :: s.retiredCores } : State).say
    (.coreRetired core)
/-- A split's read has met a lasting error: its context rolls back, or the split takes ECC (R414). -/
def State.readError (s : State) (w : WarpKey) (sp : Fin 4) (addr : DWord) : State :=
  if s.canRollback w.ctx then s.rollback w.ctx
  else s.inSplit w sp fun s => if s.contextRuns w.ctx && s.warp.key == w && s.warp.splitReady sp then s.trapHere .ecc addr else s
/-- A lasting error of a register or a buffer word, met by a split's read: its core is retired. -/
def State.coreError (s : State) (w : WarpKey) (sp : Fin 4) (addr : DWord) : State :=
  match s.warpAt w with
  | none => s
  | some x => (s.retireCore x.core).readError w sp addr
/-- A lasting error of a line of a cluster cache, met by a split's read: the line is disabled with what it holds (log entry 108),
and memory's line is not poisoned. -/
def State.cacheError (s : State) (w : WarpKey) (sp : Fin 4) (line : Nat) (va : DWord) : State :=
  match s.warpAt w with
  | none => s
  | some x =>
    let cl := x.core / 8
    ((s.setCache cl ((s.cacheOf cl).filter fun c => c.addr / 64 != line)).say (.eccError line)).readError w sp va
/-- A line of an instruction cache is disabled: the words of its 64 bytes leave it (log entry 108). -/
def State.dropCode (s : State) (core ctx va : Nat) : State :=
  { s with icache := s.icache.filter fun c => !(c.core == core && c.ctx == ctx && c.addr / 64 == va / 64) }
/-- A lasting error of a line of an instruction cache, met by a split's fetch: the line is disabled, and memory's line is not
poisoned. -/
def State.fetchError (s : State) (w : WarpKey) (sp : Fin 4) : State :=
  match s.warpAt w with
  | none => s
  | some x => match x.splits[sp] with
    | none => s
    | some p =>
      let va := p.pc.toNat
      let line := match s.walk w.ctx va with
        | .ok (e, l, _) => State.leafPa e (leafSize l) va / 64
        | .error _ => va / 64
      ((s.dropCode x.core w.ctx va).say (.eccError line)).readError w sp (ofPc p.pc)
/-- A line of L2 is disabled with the copies it holds (log entry 108); a mailbox member's home slices answer for its bytes as before. -/
def State.dropL2 (s : State) (line : Nat) : State :=
  ({ s with l2 := s.l2.filter fun c => c.addr / 64 != line } : State).say (.eccError line)
/-- A lasting error of a line of L2, met by a split's read: memory's line is not poisoned. -/
def State.l2Error (s : State) (w : WarpKey) (sp : Fin 4) (line : Nat) (va : DWord) : State :=
  match s.warpAt w with
  | none => s
  | some _ => (s.dropL2 line).readError w sp va
/-- A running command's read has met a lasting error: its context rolls back, or it fails (R414). -/
def State.commandError (s : State) (g : WgKey) (st : Fin 16) (f : Workgroup → State → State) : State :=
  match s.group? g, s.head? g st with
  | some x, some c =>
    if !c.running ∨ c.parked.isSome ∨ c.fail.1 ≠ 0 ∨ !s.engineRuns g then s
    else
      let s := f x s
      if s.canRollback g.ctx then s.rollback g.ctx else s.failCommand g st eEccErr 0
  | _, _ => s
/-- A lasting error of a buffer word, met by the read of a running command: its core is retired. -/
def State.engineError (s : State) (g : WgKey) (st : Fin 16) : State := s.commandError g st fun x s => s.retireCore x.core

/-! The commands as the host writes them (R418). -/

/-- A command of 64 bytes, from the mailbox or the command ring: its code, then operands as quadwords in the order of the table
(log entry 92). One with a bad code or a nonzero unused byte is refused. -/
def State.hostCommand (s : State) (b : List Byte) : Host.Outcome State Fault Refusal :=
  let op (i : Nat) : Nat := bytesAt b (8 * i) 8
  let only (n : Nat) (o : Host.Outcome State Fault Refusal) : Host.Outcome State Fault Refusal :=
    if b.length = 64 ∧ zeroAt b 1 7 ∧ zeroAt b (8 + 8 * n) (56 - 8 * n) then o else .next (s.command (bytesAt b 0 1) none)
  match bytesAt b 0 1 with
  | 1 => only 1 (execCreate (op 1) s)
  | 2 => only 1 (execDestroy (op 1) s)
  | 3 => only 3 (execQueue (op 1) (op 2) (op 3) s)
  | 4 => only 2 (execPreempt (op 1) (op 2) s)
  | 5 => only 2 (execPlant (op 1) (op 2) s)
  | 6 => only 4 (if op 4 < 2 then execAnswer (op 1 + op 2 * 2 ^ 64) (op 3) (op 4 == 1) s else .next (s.command 6 none))
  | 7 => only 3 (execKeyload (op 1) (op 2) (op 3) s)
  | 8 => only 2 (execAttest (BitVec.ofNat 64 (op 1)) (op 2) s)
  | 9 => only 3 (execGroup (op 1) (op 2) (op 3) s)
  | n => .next (s.command n none)

end Sys2Proof.Machine
end

