-- ==== Sys2Proof/Machine/Dispatch.lean ====
section
/-! DEFINITION. The one match from an instruction or step to its meaning. -/

namespace Sys2Proof.Machine

/-- The meaning of every row of spec/opcode_table.json. -/
def exec (i : Instr) (s : State) : Host.Outcome State Fault Refusal :=
  match i with
  | .undef w => Sys2Proof.Machine.execUndef w s
  | .rollback ctx => Sys2Proof.Machine.execRollback ctx s
  | .checkpoint ctx => Sys2Proof.Machine.execCheckpoint ctx s
  | .clause c => Sys2Proof.Machine.execClause c s
  | .bra imm => Sys2Proof.Machine.execBra imm s
  | .brnz d imm => Sys2Proof.Machine.execBrnz d imm s
  | .brz d imm => Sys2Proof.Machine.execBrz d imm s
  | .brv neg p imm => Sys2Proof.Machine.execBrv neg p imm s
  | .brx a => Sys2Proof.Machine.execBrx a s
  | .call d imm => Sys2Proof.Machine.execCall d imm s
  | .callx d a => Sys2Proof.Machine.execCallx d a s
  | .ret a => Sys2Proof.Machine.execRet a s
  | .trap imm => Sys2Proof.Machine.execTrap imm s
  | .sleep imm => Sys2Proof.Machine.execSleep imm s
  | .sleepExpiry w sp => Sys2Proof.Machine.execSleepExpiry w sp s
  | .sadd d a b => Sys2Proof.Machine.execSadd d a b s
  | .ssub d a b => Sys2Proof.Machine.execSsub d a b s
  | .smul d a b => Sys2Proof.Machine.execSmul d a b s
  | .smulhi d a b => Sys2Proof.Machine.execSmulhi d a b s
  | .smulhin d a b => Sys2Proof.Machine.execSmulhin d a b s
  | .sand d a b => Sys2Proof.Machine.execSand d a b s
  | .sor d a b => Sys2Proof.Machine.execSor d a b s
  | .sxor d a b => Sys2Proof.Machine.execSxor d a b s
  | .sshl d a b => Sys2Proof.Machine.execSshl d a b s
  | .sshr d a b => Sys2Proof.Machine.execSshr d a b s
  | .ssar d a b => Sys2Proof.Machine.execSsar d a b s
  | .smin d a b => Sys2Proof.Machine.execSmin d a b s
  | .smax d a b => Sys2Proof.Machine.execSmax d a b s
  | .sminn d a b => Sys2Proof.Machine.execSminn d a b s
  | .smaxn d a b => Sys2Proof.Machine.execSmaxn d a b s
  | .sandn d a b => Sys2Proof.Machine.execSandn d a b s
  | .saddi d a imm => Sys2Proof.Machine.execSaddi d a imm s
  | .sandi d a imm => Sys2Proof.Machine.execSandi d a imm s
  | .sori d a imm => Sys2Proof.Machine.execSori d a imm s
  | .sxori d a imm => Sys2Proof.Machine.execSxori d a imm s
  | .sshli d a imm => Sys2Proof.Machine.execSshli d a imm s
  | .sshri d a imm => Sys2Proof.Machine.execSshri d a imm s
  | .ssari d a imm => Sys2Proof.Machine.execSsari d a imm s
  | .smovi d imm => Sys2Proof.Machine.execSmovi d imm s
  | .slui d imm => Sys2Proof.Machine.execSlui d imm s
  | .scmp d a b c => Sys2Proof.Machine.execScmp d a b c s
  | .ssel d a b => Sys2Proof.Machine.execSsel d a b s
  | .spopc d a => Sys2Proof.Machine.execSpopc d a s
  | .sclz d a => Sys2Proof.Machine.execSclz d a s
  | .sctz d a => Sys2Proof.Machine.execSctz d a s
  | .sbrev d a => Sys2Proof.Machine.execSbrev d a s
  | .sbfe d a b => Sys2Proof.Machine.execSbfe d a b s
  | .sbfi d a b => Sys2Proof.Machine.execSbfi d a b s
  | .sadd64 d a b => Sys2Proof.Machine.execSadd64 d a b s
  | .ssub64 d a b => Sys2Proof.Machine.execSsub64 d a b s
  | .smov d a => Sys2Proof.Machine.execSmov d a s
  | .tlbinv a b => Sys2Proof.Machine.execTlbinv a b s
  | .srdp d n => Sys2Proof.Machine.execSrdp d n s
  | .swrp a n => Sys2Proof.Machine.execSwrp a n s
  | .vadd d a b => Sys2Proof.Machine.execVadd d a b s
  | .vsub d a b => Sys2Proof.Machine.execVsub d a b s
  | .vmul d a b => Sys2Proof.Machine.execVmul d a b s
  | .vmulhi d a b => Sys2Proof.Machine.execVmulhi d a b s
  | .vand d a b => Sys2Proof.Machine.execVand d a b s
  | .vor d a b => Sys2Proof.Machine.execVor d a b s
  | .vxor d a b => Sys2Proof.Machine.execVxor d a b s
  | .vandn d a b => Sys2Proof.Machine.execVandn d a b s
  | .vshl d a b => Sys2Proof.Machine.execVshl d a b s
  | .vshr d a b => Sys2Proof.Machine.execVshr d a b s
  | .vsar d a b => Sys2Proof.Machine.execVsar d a b s
  | .vmin d a b => Sys2Proof.Machine.execVmin d a b s
  | .vmax d a b => Sys2Proof.Machine.execVmax d a b s
  | .vaddsat d a b => Sys2Proof.Machine.execVaddsat d a b s
  | .vsubsat d a b => Sys2Proof.Machine.execVsubsat d a b s
  | .vabsd d a b => Sys2Proof.Machine.execVabsd d a b s
  | .vaddScalar d a b => Sys2Proof.Machine.execVaddScalar d a b s
  | .vsubScalar d a b => Sys2Proof.Machine.execVsubScalar d a b s
  | .vmulScalar d a b => Sys2Proof.Machine.execVmulScalar d a b s
  | .vmulhiScalar d a b => Sys2Proof.Machine.execVmulhiScalar d a b s
  | .vandScalar d a b => Sys2Proof.Machine.execVandScalar d a b s
  | .vorScalar d a b => Sys2Proof.Machine.execVorScalar d a b s
  | .vxorScalar d a b => Sys2Proof.Machine.execVxorScalar d a b s
  | .vandnScalar d a b => Sys2Proof.Machine.execVandnScalar d a b s
  | .vshlScalar d a b => Sys2Proof.Machine.execVshlScalar d a b s
  | .vshrScalar d a b => Sys2Proof.Machine.execVshrScalar d a b s
  | .vsarScalar d a b => Sys2Proof.Machine.execVsarScalar d a b s
  | .vminScalar d a b => Sys2Proof.Machine.execVminScalar d a b s
  | .vmaxScalar d a b => Sys2Proof.Machine.execVmaxScalar d a b s
  | .vaddsatScalar d a b => Sys2Proof.Machine.execVaddsatScalar d a b s
  | .vsubsatScalar d a b => Sys2Proof.Machine.execVsubsatScalar d a b s
  | .vabsdScalar d a b => Sys2Proof.Machine.execVabsdScalar d a b s
  | .vmad d a b => Sys2Proof.Machine.execVmad d a b s
  | .vmadhi d a b => Sys2Proof.Machine.execVmadhi d a b s
  | .vdot4 d a b => Sys2Proof.Machine.execVdot4 d a b s
  | .vcmp p a b c => Sys2Proof.Machine.execVcmp p a b c s
  | .vsel d a b neg p => Sys2Proof.Machine.execVsel d a b neg p s
  | .vpopc d a => Sys2Proof.Machine.execVpopc d a s
  | .vclz d a => Sys2Proof.Machine.execVclz d a s
  | .vctz d a => Sys2Proof.Machine.execVctz d a s
  | .vbrev d a => Sys2Proof.Machine.execVbrev d a s
  | .vbfe d a b => Sys2Proof.Machine.execVbfe d a b s
  | .vbfi d a b => Sys2Proof.Machine.execVbfi d a b s
  | .vpermb d a b => Sys2Proof.Machine.execVpermb d a b s
  | .vnot d a => Sys2Proof.Machine.execVnot d a s
  | .vneg d a => Sys2Proof.Machine.execVneg d a s
  | .vabs d a => Sys2Proof.Machine.execVabs d a s
  | .vaddc d a b => Sys2Proof.Machine.execVaddc d a b s
  | .vsubb d a b => Sys2Proof.Machine.execVsubb d a b s
  | .vlea d a b => Sys2Proof.Machine.execVlea d a b s
  | .vsext d a k => Sys2Proof.Machine.execVsext d a k s
  | .vzext d a k => Sys2Proof.Machine.execVzext d a k s
  | .vaddi d a imm => Sys2Proof.Machine.execVaddi d a imm s
  | .vandi d a imm => Sys2Proof.Machine.execVandi d a imm s
  | .vori d a imm => Sys2Proof.Machine.execVori d a imm s
  | .vshli d a imm => Sys2Proof.Machine.execVshli d a imm s
  | .vshri d a imm => Sys2Proof.Machine.execVshri d a imm s
  | .vsari d a imm => Sys2Proof.Machine.execVsari d a imm s
  | .vmovi d imm => Sys2Proof.Machine.execVmovi d imm s
  | .vdiv d a b la => Sys2Proof.Machine.execVdiv d a b la s
  | .vrem d a b la => Sys2Proof.Machine.execVrem d a b la s
  | .fadd d a b rm => Sys2Proof.Machine.execFadd d a b rm s
  | .fsub d a b rm => Sys2Proof.Machine.execFsub d a b rm s
  | .fmul d a b rm => Sys2Proof.Machine.execFmul d a b rm s
  | .ffma d a b rm => Sys2Proof.Machine.execFfma d a b rm s
  | .ffms d a b rm => Sys2Proof.Machine.execFfms d a b rm s
  | .fnfma d a b rm => Sys2Proof.Machine.execFnfma d a b rm s
  | .fmin d a b => Sys2Proof.Machine.execFmin d a b s
  | .fmax d a b => Sys2Proof.Machine.execFmax d a b s
  | .fminnum d a b => Sys2Proof.Machine.execFminnum d a b s
  | .fmaxnum d a b => Sys2Proof.Machine.execFmaxnum d a b s
  | .fsgnj d a b => Sys2Proof.Machine.execFsgnj d a b s
  | .fsgnjn d a b => Sys2Proof.Machine.execFsgnjn d a b s
  | .fabs d a => Sys2Proof.Machine.execFabs d a s
  | .fneg d a => Sys2Proof.Machine.execFneg d a s
  | .fclass d a => Sys2Proof.Machine.execFclass d a s
  | .fscale d a b => Sys2Proof.Machine.execFscale d a b s
  | .fcmp p a b c => Sys2Proof.Machine.execFcmp p a b c s
  | .fdot2 d a b rm => Sys2Proof.Machine.execFdot2 d a b rm s
  | .frcp d a la => Sys2Proof.Machine.execFrcp d a la s
  | .frsq d a la => Sys2Proof.Machine.execFrsq d a la s
  | .fsqrt d a la => Sys2Proof.Machine.execFsqrt d a la s
  | .fexp2 d a la => Sys2Proof.Machine.execFexp2 d a la s
  | .flog2 d a la => Sys2Proof.Machine.execFlog2 d a la s
  | .fsin d a la => Sys2Proof.Machine.execFsin d a la s
  | .fcos d a la => Sys2Proof.Machine.execFcos d a la s
  | .ftanh d a la => Sys2Proof.Machine.execFtanh d a la s
  | .fdiv d a b la => Sys2Proof.Machine.execFdiv d a b la s
  | .frnd d a rm => Sys2Proof.Machine.execFrnd d a rm s
  | .cvt d a ty rm => Sys2Proof.Machine.execCvt d a ty rm s
  | .fpack d a b rm => Sys2Proof.Machine.execFpack d a b rm s
  | .rnd d => Sys2Proof.Machine.execRnd d s
  | .rndf d => Sys2Proof.Machine.execRndf d s
  | .rndskip a => Sys2Proof.Machine.execRndskip a s
  | .xshfl d a b la => Sys2Proof.Machine.execXshfl d a b la s
  | .xrot d a b la => Sys2Proof.Machine.execXrot d a b la s
  | .xbcast d a b la => Sys2Proof.Machine.execXbcast d a b la s
  | .xreduce d a op la => Sys2Proof.Machine.execXreduce d a op la s
  | .xscani d a op la => Sys2Proof.Machine.execXscani d a op la s
  | .xscane d a op la => Sys2Proof.Machine.execXscane d a op la s
  | .xmadd d a b la => Sys2Proof.Machine.execXmadd d a b la s
  | .xmmin d a b la => Sys2Proof.Machine.execXmmin d a b la s
  | .xmmax d a b la => Sys2Proof.Machine.execXmmax d a b la s
  | .xmor d a b la => Sys2Proof.Machine.execXmor d a b la s
  | .xballot d p la => Sys2Proof.Machine.execXballot d p la s
  | .xany q p la => Sys2Proof.Machine.execXany q p la s
  | .xall q p la => Sys2Proof.Machine.execXall q p la s
  | .xcount d p la => Sys2Proof.Machine.execXcount d p la s
  | .xfirst d p la => Sys2Proof.Machine.execXfirst d p la s
  | .lkacq d a m => Sys2Proof.Machine.execLkacq d a m s
  | .lktry d a m => Sys2Proof.Machine.execLktry d a m s
  | .lkup d a m => Sys2Proof.Machine.execLkup d a m s
  | .lkdown d a m => Sys2Proof.Machine.execLkdown d a m s
  | .lkrel d a => Sys2Proof.Machine.execLkrel d a s
  | .lkstat d a => Sys2Proof.Machine.execLkstat d a s
  | .lktab d a => Sys2Proof.Machine.execLktab d a s
  | .revocation w => Sys2Proof.Machine.execRevocation w s
  | .bar n => Sys2Proof.Machine.execBar n s
  | .bararr n => Sys2Proof.Machine.execBararr n s
  | .barwait n => Sys2Proof.Machine.execBarwait n s
  | .tkwait d k => Sys2Proof.Machine.execTkwait d k s
  | .tkpass d k => Sys2Proof.Machine.execTkpass d k s
  | .tkpassPoison d k => Sys2Proof.Machine.execTkpassPoison d k s
  | .fence p q => Sys2Proof.Machine.execFence p q s
  | .hmake d a buf => Sys2Proof.Machine.execHmake d a buf s
  | .hgive d a b => Sys2Proof.Machine.execHgive d a b s
  | .htake d a => Sys2Proof.Machine.execHtake d a s
  | .hdrop d a => Sys2Proof.Machine.execHdrop d a s
  | .hquery d a => Sys2Proof.Machine.execHquery d a s
  | .vmov d a => Sys2Proof.Machine.execVmov d a s
  | .vmovs d a => Sys2Proof.Machine.execVmovs d a s
  | .vrdl d a b => Sys2Proof.Machine.execVrdl d a b s
  | .vwrl d a b => Sys2Proof.Machine.execVwrl d a b s
  | .pand d a b => Sys2Proof.Machine.execPand d a b s
  | .por d a b => Sys2Proof.Machine.execPor d a b s
  | .pxor d a b => Sys2Proof.Machine.execPxor d a b s
  | .pnot d a => Sys2Proof.Machine.execPnot d a s
  | .pset d => Sys2Proof.Machine.execPset d s
  | .pclr d => Sys2Proof.Machine.execPclr d s
  | .pmovs p a => Sys2Proof.Machine.execPmovs p a s
  | .smovp d p => Sys2Proof.Machine.execSmovp d p s
  | .grow imm => Sys2Proof.Machine.execGrow imm s
  | .shrink imm => Sys2Proof.Machine.execShrink imm s
  | .srd d n => Sys2Proof.Machine.execSrd d n s
  | .swr a n => Sys2Proof.Machine.execSwr a n s
  | .fflagsWrite a => Sys2Proof.Machine.execFflagsWrite a s
  | .clausestWrite a => Sys2Proof.Machine.execClausestWrite a s
  | .trapmaskWrite a => Sys2Proof.Machine.execTrapmaskWrite a s
  | .activityMaskWrite k a => Sys2Proof.Machine.execActivityMaskWrite k a s
  | .cyclehiRead d clock => Sys2Proof.Machine.execCyclehiRead d clock s
  | .trapbaseWrite hi a => Sys2Proof.Machine.execTrapbaseWrite hi a s
  | .cpy d a b stream => Sys2Proof.Machine.execCpy d a b stream s
  | .mma d a b stream => Sys2Proof.Machine.execMma d a b stream s
  | .coll d a b stream => Sys2Proof.Machine.execColl d a b stream s
  | .tgload d a b => Sys2Proof.Machine.execTgload d a b s
  | .swait d b stream => Sys2Proof.Machine.execSwait d b stream s
  | .spoll d b stream => Sys2Proof.Machine.execSpoll d b stream s
  | .ldg d a b la => Sys2Proof.Machine.execLdg d a b la s
  | .stg d a b la => Sys2Proof.Machine.execStg d a b la s
  | .ldgs d a b la => Sys2Proof.Machine.execLdgs d a b la s
  | .stgs d a b la => Sys2Proof.Machine.execStgs d a b la s
  | .ldsb d a b la => Sys2Proof.Machine.execLdsb d a b la s
  | .stsb d a b la => Sys2Proof.Machine.execStsb d a b la s
  | .ldab d a b la => Sys2Proof.Machine.execLdab d a b la s
  | .stab d a b la => Sys2Proof.Machine.execStab d a b la s
  | .ldcb d a b la => Sys2Proof.Machine.execLdcb d a b la s
  | .stcb d a b la => Sys2Proof.Machine.execStcb d a b la s
  | .ldh d a b la => Sys2Proof.Machine.execLdh d a b la s
  | .sth d a b la => Sys2Proof.Machine.execSth d a b la s
  | .pref l2 a b => Sys2Proof.Machine.execPref l2 a b s
  | .cflush a b => Sys2Proof.Machine.execCflush a b s
  | .cinv a b => Sys2Proof.Machine.execCinv a b s
  | .aadd d a b la => Sys2Proof.Machine.execAadd d a b la s
  | .amin d a b la => Sys2Proof.Machine.execAmin d a b la s
  | .amax d a b la => Sys2Proof.Machine.execAmax d a b la s
  | .aand d a b la => Sys2Proof.Machine.execAand d a b la s
  | .aor d a b la => Sys2Proof.Machine.execAor d a b la s
  | .axor d a b la => Sys2Proof.Machine.execAxor d a b la s
  | .axchg d a b la => Sys2Proof.Machine.execAxchg d a b la s
  | .acas d a b la => Sys2Proof.Machine.execAcas d a b la s
  | .aincw d a b la => Sys2Proof.Machine.execAincw d a b la s
  | .afadd d a b la => Sys2Proof.Machine.execAfadd d a b la s
  | .afmin d a b la => Sys2Proof.Machine.execAfmin d a b la s
  | .afmax d a b la => Sys2Proof.Machine.execAfmax d a b la s
  | .waitcmp d a b c => Sys2Proof.Machine.execWaitcmp d a b c s
  | .waitcmpRecheck w sp => Sys2Proof.Machine.execWaitcmpRecheck w sp s
  | .monitorRepoll w sp => Sys2Proof.Machine.execMonitorRepoll w sp s
  | .reductionPerform w => Sys2Proof.Machine.execReductionPerform w s
  | .longComplete w => Sys2Proof.Machine.execLongComplete w s
  | .cowService id => Sys2Proof.Machine.execCowService id s
  | .poolReplay id => Sys2Proof.Machine.execPoolReplay id s
  | .trapEntry w => Sys2Proof.Machine.execTrapEntry w s
  | .workgroupPlace l core halves => Sys2Proof.Machine.execWorkgroupPlace l core halves s
  | .clusterPlace l coreCluster cores halves => Sys2Proof.Machine.execClusterPlace l coreCluster cores halves s
  | .swapOut g => Sys2Proof.Machine.execSwapOut g s
  | .quantumCommit ctx => Sys2Proof.Machine.execQuantumCommit ctx s
  | .engineCommandStart g stream => Sys2Proof.Machine.execEngineCommandStart g stream s
  | .copyChunk g stream => Sys2Proof.Machine.execCopyChunk g stream s
  | .mmaChunkCommit g stream => Sys2Proof.Machine.execMmaChunkCommit g stream s
  | .engineCommandComplete g stream => Sys2Proof.Machine.execEngineCommandComplete g stream s
  | .collInstanceComplete ctx group tag => Sys2Proof.Machine.execCollInstanceComplete ctx group tag s
  | .launch q => Sys2Proof.Machine.execLaunch q s
  | .ilaunch q => Sys2Proof.Machine.execIlaunch q s
  | .callbuf q => Sys2Proof.Machine.execCallbuf q s
  | .retbuf q => Sys2Proof.Machine.execRetbuf q s
  | .join q => Sys2Proof.Machine.execJoin q s
  | .signal q => Sys2Proof.Machine.execSignal q s
  | .waitval q => Sys2Proof.Machine.execWaitval q s
  | .waitvalSatisfied q => Sys2Proof.Machine.execWaitvalSatisfied q s
  | .program q => Sys2Proof.Machine.execProgram q s
  | .mark q => Sys2Proof.Machine.execMark q s
  | .lookaheadRead q => Sys2Proof.Machine.execLookaheadRead q s
  | .qpDone q => Sys2Proof.Machine.execQpDone q s
  | .qpCancel q => Sys2Proof.Machine.execQpCancel q s
  | .qpRepeat q => Sys2Proof.Machine.execQpRepeat q s
  | .qpMovi q d imm => Sys2Proof.Machine.execQpMovi q d imm s
  | .qpLui q d imm => Sys2Proof.Machine.execQpLui q d imm s
  | .qpMov q d a => Sys2Proof.Machine.execQpMov q d a s
  | .qpAdd q d a b => Sys2Proof.Machine.execQpAdd q d a b s
  | .qpSub q d a b => Sys2Proof.Machine.execQpSub q d a b s
  | .qpMul q d a b => Sys2Proof.Machine.execQpMul q d a b s
  | .qpAnd q d a b => Sys2Proof.Machine.execQpAnd q d a b s
  | .qpOr q d a b => Sys2Proof.Machine.execQpOr q d a b s
  | .qpXor q d a b => Sys2Proof.Machine.execQpXor q d a b s
  | .qpShl q d a b => Sys2Proof.Machine.execQpShl q d a b s
  | .qpShr q d a b => Sys2Proof.Machine.execQpShr q d a b s
  | .qpAddi q d a imm => Sys2Proof.Machine.execQpAddi q d a imm s
  | .qpDivu q d a b => Sys2Proof.Machine.execQpDivu q d a b s
  | .qpRemu q d a b => Sys2Proof.Machine.execQpRemu q d a b s
  | .qpMinu q d a b => Sys2Proof.Machine.execQpMinu q d a b s
  | .qpMaxu q d a b => Sys2Proof.Machine.execQpMaxu q d a b s
  | .qpLd64 q d a win imm => Sys2Proof.Machine.execQpLd64 q d a win imm s
  | .qpLd32 q d a win imm => Sys2Proof.Machine.execQpLd32 q d a win imm s
  | .qpSt64 q d a win imm => Sys2Proof.Machine.execQpSt64 q d a win imm s
  | .qpSt32 q d a win imm => Sys2Proof.Machine.execQpSt32 q d a win imm s
  | .qpHwr q a off size => Sys2Proof.Machine.execQpHwr q a off size s
  | .qpHrd q d off size => Sys2Proof.Machine.execQpHrd q d off size s
  | .qpRpt q d => Sys2Proof.Machine.execQpRpt q d s
  | .qpBeq q a b imm => Sys2Proof.Machine.execQpBeq q a b imm s
  | .qpBne q a b imm => Sys2Proof.Machine.execQpBne q a b imm s
  | .qpBltu q a b imm => Sys2Proof.Machine.execQpBltu q a b imm s
  | .qpLoop q d imm => Sys2Proof.Machine.execQpLoop q d imm s
  | .qpArg q d k => Sys2Proof.Machine.execQpArg q d k s
  | .qpNop q => Sys2Proof.Machine.execQpNop q s
  | .create record => Sys2Proof.Machine.execCreate record s
  | .destroy ctx => Sys2Proof.Machine.execDestroy ctx s
  | .queue ctx q desc => Sys2Proof.Machine.execQueue ctx q desc s
  | .preempt ctx save => Sys2Proof.Machine.execPreempt ctx save s
  | .plant ctx image => Sys2Proof.Machine.execPlant ctx image s
  | .answer id ctx deliver => Sys2Proof.Machine.execAnswer id ctx deliver s
  | .keyload slot key unused => Sys2Proof.Machine.execKeyload slot key unused s
  | .attest nonce report => Sys2Proof.Machine.execAttest nonce report s
  | .group ctx group record => Sys2Proof.Machine.execGroup ctx group record s
  | .scrubComplete => Sys2Proof.Machine.execScrubComplete s
  | .hostAccess a => Sys2Proof.Machine.execHostAccess a s
  | .peerAccess peer a => Sys2Proof.Machine.execPeerAccess peer a s
  | .linkDrop peer => Sys2Proof.Machine.execLinkDrop peer s
  | .reset => Sys2Proof.Machine.execReset s
  | .queueRestart q => Sys2Proof.Machine.execQueueRestart q s
  | .queueDestroy q => Sys2Proof.Machine.execQueueDestroy q s
  | .nop => Sys2Proof.Machine.execNop s
  | .exit => Sys2Proof.Machine.execExit s
  | .tret => Sys2Proof.Machine.execTret s
  | .yield => Sys2Proof.Machine.execYield s
  | .bkpt => Sys2Proof.Machine.execBkpt s
  | .icinv => Sys2Proof.Machine.execIcinv s
  | .cbar => Sys2Proof.Machine.execCbar s

end Sys2Proof.Machine
end

