-- ==== Sys2Proof/Machine/Policy.lean ====
section
/-! DEFINITION. What every step first does of itself, who moves when the agenda names nobody (R2, R33), and the turns that are
no row of the table. -/

namespace Sys2Proof.Machine

/-! What the device does of itself at every step. -/

/-- Ring slots are watched (R366), quanta commit (R354), GROWs are tried again (R106, R107), what waits for a translation or a record is taken up again (R374,
R437), wounds are delivered and deadlines met (R272, R285), long waiting is counted (R43), what is due comes back to the cores
(R45), and a freeze that was asked for ends at its canonical point (R394). -/
def State.settle (s : State) : State :=
  let s := (s.contexts.map (·.num)).foldl State.commitQuanta s
  let s := s.watchRings.growTime.redTime.recordTime.lockTime.markLong.plantDue
  (s.contexts.map (·.num)).foldl State.finishFreeze s

/-! A warp's turn. -/

/-- Deterministic mode holds back the next instruction of a warp, which nothing enters before (R352, R355). -/
def State.warpGated (s : State) (w : Warp) : Bool :=
  let b := w.boundary
  (s.focus w.key).gated (s.nextSyncs w) && !b.woundDue && match b.candidate (s.hdrOf w.key.launch).det with
    | some k => ((b.splits[k]).bind (·.trap)).isNone
    | none => true
/-- A warp that is ready at its half: a split of it may issue, or a window of it closes. -/
def State.readyWarp (s : State) (w : Warp) : Bool :=
  s.mayIssue w && (w.dueWindow.isSome || ((w.boundary.candidate (s.hdrOf w.key.launch).det).isSome && !s.warpGated w))
/-- Two warps share a half of a core. -/
def Warp.sharesHalf (w v : Warp) : Bool := v.core == w.core && v.half == w.half
/-- YIELD has the warp passed over while another of its half is ready (R176). -/
def State.passedOver (s : State) (w : Warp) : Bool :=
  w.passed && s.warps.any fun v => v.key != w.key && w.sharesHalf v && !v.passed && s.readyWarp v
/-- The running warp issues, and takes its half's issue cycle: no warp of the half is passed over any longer. -/
def State.takesCycle (s : State) : State :=
  if s.warps.any fun v => v.passed && s.warp.sharesHalf v then s.modWarps s.warp.sharesHalf fun v => { v with passed := false } else s
/-- The state in which a fetched instruction executes: one that deterministic mode holds back takes no issue cycle. -/
def State.issuing (s : State) (i : Instr) : State := if s.gated (instrSyncs i) then s else s.takesCycle

/-- The next warp to issue, in rotation (R33): the first that is ready after the one that issued last. -/
def State.pick (s : State) : Option WarpKey :=
  ((s.others ++ [s.warp]).find? fun w => s.readyWarp w && !s.passedOver w).map (·.key)

/-! Accesses that were left to be performed later (R242 to R254). -/

/-- The `k`th write is performed, and before it the earlier ones of the same warp, or of the same stream's commands, that it
meets (R245). -/
def State.performLateAt (s : State) (k : Nat) : State :=
  match s.late[k]? with
  | none => s
  | some x =>
    let goes (y : LateWrite) : Bool :=
      y.group == x.group && y.warp == x.warp && y.stream == x.stream && x.spot.meets x.bytes.length y.spot y.bytes.length
    let due := (s.late.take k).filter goes ++ [x]
    due.foldl State.performLate { s with late := (s.late.take k).filter (fun y => !goes y) ++ s.late.drop (k + 1) }
/-- The access of a warp's `k`th outstanding long instruction is performed, or one of its halves. -/
def State.performLongAt (s : State) (w : WarpKey) (k : Nat) (h : Halves) : State :=
  match (s.warpAt w).bind (·.outstanding[k]?) with
  | none => s
  | some l => s.inSplit w l.split fun s =>
    let (l, s) := s.performOp l h
    s.modWarp fun w => { w with outstanding := w.outstanding.set k l }

/-! The device's turn: the first of its moves that can be made. -/

def moved : Host.Outcome State Fault Refusal → Option State
  | .next s => some s
  | _ => none

/-- The live warps, that which issued last at the end. -/
def State.byTurn (s : State) : List Warp := (s.others ++ [s.warp]).filter (·.live)
/-- A long instruction completes. -/
def State.longMove (s : State) : Option State :=
  (s.byTurn.find? fun w => w.outstanding.any fun l => !l.done).bind fun w => moved (execLongComplete w.key s)
/-- A reduction is performed. -/
def State.redMove (s : State) : Option State :=
  (s.byTurn.find? fun w => !w.reds.isEmpty && !(s.hdrOf w.key.launch).det).bind fun w => moved (execReductionPerform w.key s)

/-- A sleep that is over. -/
def State.sleepMove (s : State) : Option State :=
  (s.warps.findSome? fun w => (List.finRange 4).findSome? fun i => match w.splits[i] with
    | some p => (match p.wait with
      | .sleep t => if t ≤ s.now then some (w.key, i) else none
      | _ => none)
    | none => none).bind fun x => moved (execSleepExpiry x.1 x.2 s)

/-- The re-check of a fired monitor, or of one that is served by re-polling. -/
def State.monitorMove (s : State) (poll : Bool) : Option State :=
  (s.monitors.find? fun m => (if poll then m.poll else m.fired) && s.mayRecheck m.warp).bind fun m =>
    moved (if poll then execMonitorRepoll m.warp m.split s else execWaitcmpRecheck m.warp m.split s)

/-- The page engine's services. -/
def State.pageMove (s : State) : Option State :=
  (s.parks.find? fun p => p.cause == none || (p.cause == some .pagepool && s.poolCount p.ctx != 0)).bind fun p =>
    moved (if p.cause = none then execCowService p.id s else execPoolReplay p.id s)

/-- The next step of a stream's head command. -/
def State.commandMove (s : State) (g : Workgroup) (st : Fin 16) : Option State :=
  match (g.streams[st]).commands.head? with
  | none => none
  | some c =>
    if c.parked.isSome ∨ !s.engineRuns g.key then none
    else if c.fail.1 ≠ 0 then moved (execEngineCommandComplete g.key st s)
    else if !c.running then
      if g.tagState st c = .waiting ∨ (g.tagState st c = .ready ∧ s.startHeld g st c) then none
      else moved (execEngineCommandStart g.key st s)
    else if c.chunks ≤ c.progress then moved (execEngineCommandComplete g.key st s)
    else match c.kind with
      | .copy => moved (execCopyChunk g.key st s)
      | .mma => moved (execMmaChunkCommit g.key st s)
      | .coll => none
def State.engineMove (s : State) : Option State :=
  s.groups.findSome? fun g => (List.finRange 16).findSome? fun st => s.commandMove g st

/-- A collective whose slots are all in. -/
def State.collMove (s : State) : Option State :=
  (s.instances.find? fun i => s.collReady i && (!i.done || s.collCommands i.ctx i.group i.tag != [])).bind fun i =>
    moved (execCollInstanceComplete i.ctx i.group i.tag s)

/-- A launch whose completion had to wait. -/
def State.completionMove (s : State) : Option State :=
  (s.launches.find? fun l => decide (l.hdr.workgroups ≤ l.retired) && !s.queueParked l.queue && s.contextRuns l.key.ctx).map
    fun l => s.completeLaunch l.key

/-- The queues by priority, and within one in the order of their turns (R371). -/
def State.queueOrder (s : State) : List Nat :=
  (sortBy (fun a b => decide (b.priority < a.priority ∨ (a.priority = b.priority ∧ s.turnOf a ≤ s.turnOf b))) s.queues).map (·.num)
def State.frontMove (s : State) : Option State := s.queueOrder.findSome? s.queueMove

/-- A core for the next workgroup of a launch, or cores of one core-cluster for its next cluster (R31, R32). -/
def State.placeMove (s : State) : Option State :=
  (s.launches.find? s.placesNext).bind fun l =>
    let h := l.hdr
    if h.c = 0 then
      (List.range (Config.cores s.member)).findSome? fun core =>
        ((halfChoices h.warps).find? (s.hasRoom core h)).map fun x => s.placeGroup l.key core x
    else
      (List.range (Config.clusters s.member)).findSome? fun cc =>
        let room := ((List.range 8).map (8 * cc + ·)).filterMap fun c => ((halfChoices h.warps).find? (s.hasRoom c h)).map fun x => (c, x)
        let at_ := room.take h.clsize
        if h.clsize ≤ room.length then some (s.placeCluster l.key cc (at_.map (·.1)) (at_.map (·.2))) else none

/-- A checkpoint whose interval has gone by. -/
def State.checkpointMove (s : State) : Option State :=
  (s.contexts.find? fun c => s.checkpointDue c && !s.freezing c.num).bind fun c => moved (execCheckpoint c.num s)

/-- The oldest write that is not yet performed. -/
def State.lateMove (s : State) : Option State := if s.late = [] then none else some (s.performLateAt 0)
/-- The cluster cache that was used longest ago writes back what it holds and drops its copies. -/
def State.cacheMove (s : State) : Option State :=
  (s.caches.reverse.find? fun c => c.2 != []).map fun c => s.dropWhere c.1 fun _ => true

/-- The moves that the device can make, by kind. -/
def State.deviceMoves (s : State) : List (Option State) :=
  [s.longMove, s.redMove, s.lateMove, s.sleepMove, s.monitorMove false, s.pageMove, s.engineMove, s.collMove, s.completionMove,
   s.frontMove, s.placeMove, s.checkpointMove, s.monitorMove true, s.cacheMove]
/-- The first move that the device can make. The kinds take turns at being the first: no kind waits for ever for the others, so
that within finite time every agent of a scope sees its writes (R244). -/
def State.deviceMove (s : State) : Option State :=
  let k := s.now / 2 % s.deviceMoves.length
  (s.deviceMoves.drop k ++ s.deviceMoves.take k).findSome? id

/-! The turns that are no row of the table. -/

/-- Bytes the host writes at a physical address before or beside any context (R258). -/
def State.hostPhysical (s : State) (addr : Nat) (bytes : List Byte) : State :=
  let s := if Config.windowed s.member then
      (bytes.zipIdx).foldl (fun (s : State) b => s.memoryWrite Writer.device (addr + b.2) b.1) s
    else s.homeWrite Writer.device addr bytes
  s.healLines ((List.range bytes.length).map (addr + ·))

/-- Another member's contribution to an instance, to a slot of its own range (R427). -/
def State.peerContribute (s : State) (ctx group : Nat) (tag : Word) (slot : Nat) (vec : List Nat) : State :=
  match s.collGroup ctx group with
  | none => s
  | some g =>
    if !g.assigned.contains slot ∨ g.has s.selfPeer slot then s
    else
      let i := (s.instance? ctx group tag).getD ⟨ctx, group, tag, [], false⟩
      if (i.slot? slot).isSome then s else s.setInstance { i with slots := i.slots ++ [⟨slot, vec, none, 0⟩] }

/-- A holder's `k`th translation is replaced (R189). -/
def dropHeld (holder : Nat) : Nat → List TlbEntry → List TlbEntry
  | _, [] => []
  | k, t :: ts =>
    if t.core = holder then
      match k with
      | 0 => ts
      | k + 1 => t :: dropHeld holder k ts
    else t :: dropHeld holder k ts

/-- The L2 of a window member takes a copy of a byte (R258). -/
def State.l2Fill (s : State) (a : Nat) : State :=
  if Config.windowed s.member ∧ s.place a = .local ∧ (cacheGet s.l2 a).isNone then
    { s with l2 := cachePut s.l2 ⟨a, s.rawByte a, false, none, none, none, none, false⟩ }
  else s

def State.otherTurn (t : Turn) (s : State) : State :=
  match t with
  | .issue _ | .event _ | .issueLate _ | .eventLate _ | .hostCommand _ => s
  | .performWrite k => s.performLateAt k
  | .performLong w k h => s.performLongAt w k h
  | .reductionHalf w high => s.reductionHalf w high
  | .mmaRead g st => s.mmaRead g st
  | .elapse n => { s with now := s.now + n }
  | .scrub bytes => s.scrubSome bytes
  | .writeBack cl a => s.writeBackByte cl a
  | .dropCopy cl a => (s.writeBackByte cl a).dropCopyByte cl a
  | .l2WriteBack a => s.l2Back a false
  | .l2Drop a => s.l2Back a true
  | .l2Fill a => s.l2Fill a
  | .tlbDrop core k => { s with tlb := dropHeld core k s.tlb }
  | .xlatDrop cluster k => { s with xlats := dropHeld cluster k s.xlats }
  | .icacheDrop core => { s with icache := s.icache.filter fun x => x.core != core }
  | .eccTransient ctx => s.transientError ctx
  | .eccLine ctx line => s.lineError ctx line
  | .eccCache w sp line va => s.cacheError w sp line va
  | .eccFetch w sp => s.fetchError w sp
  | .eccL2 w sp line va => s.l2Error w sp line va
  | .eccL2Engine g st line => s.commandError g st fun _ s => s.dropL2 line
  | .eccEngine g st => s.engineError g st
  | .eccCore w sp addr => s.coreError w sp addr
  | .assignPeer num size =>
    if num < 256 ∧ size ≤ 2 ^ 41 then { s with peers := ⟨num, size, true⟩ :: s.peers.filter fun p => p.num != num } else s
  | .bringUp self => { s with selfPeer := self, up := s.up || s.scrubs == [] }
  | .hostPhys addr bytes => s.hostPhysical addr bytes
  | .contribute ctx group tag slot vec => s.peerContribute ctx group tag slot vec

end Sys2Proof.Machine
end

