-- ==== Sys2Proof/Machine/Step.lean ====
section
/-! DEFINITION. One step of the machine: the agenda's next turn, or the policy's. -/

namespace Sys2Proof.Machine

/-- A half issues from a warp: its boundary, then the fetch, then the instruction (R33, R38, R386). -/
def issueFrom (k : WarpKey) (s : State) : Host.Outcome State Fault Refusal :=
  let s := s.focus k
  if s.warp.key = k ∧ s.mayIssue s.warp ∧ !s.passedOver s.warp then
    match s.atBoundary with
    | (s, false) => .next s
    | (s, true) =>
      match s.fetched with
      | (.ok w, s) => exec (instrOf w) (s.issuing (instrOf w))
      | (.error x, s) => .next (s.fetchFault x)
  else .next s

/-- A turn whose accesses are left to be performed later. -/
def later (s : State) (turn : State → Host.Outcome State Fault Refusal) : Host.Outcome State Fault Refusal :=
  match turn { s with slow := true } with
  | .next t => .next { t with slow := false }
  | o => o

def takeTurn (t : Turn) (s : State) : Host.Outcome State Fault Refusal :=
  match t with
  | .issue k => issueFrom k s
  | .event i => exec i s
  | .issueLate k => later s (issueFrom k)
  | .eventLate i => later s (exec i)
  | .hostCommand b => s.hostCommand b
  | t => .next (s.otherTurn t)

/-- The contexts whose write log a step fills: those that freeze already, and those whose log is empty, excepted (log
entry 41). -/
def State.logsFilled (s t : State) : List Nat :=
  (s.contexts.filter fun c => c.logCount != 0 && c.spill == [] && !s.freezing c.num &&
    (t.context c.num).any fun d => d.spill != []).map (·.num)
/-- A write that would fill the write log waits, and a checkpoint is due: the step is not made (R415). -/
def State.guardLog (s : State) (o : Host.Outcome State Fault Refusal) : Host.Outcome State Fault Refusal :=
  match o with
  | .next t => .next (match s.logsFilled t with
    | [] => t
    | l => l.foldl (fun s n => s.modContext n fun c => { c with checkDue := true }) s)
  | o => o

/-- Each step is at least one cycle of the 3 GHz clock (R109). -/
def State.tick (s : State) : State := { s with now := s.now + 1 }

/-- With nobody named, warps and the device move by turns (R33). -/
def State.anyone (s : State) : Host.Outcome State Fault Refusal :=
  let device : Host.Outcome State Fault Refusal := .next (s.deviceMove.getD s)
  match s.pick with
  | some k => if s.now % 2 = 0 ∧ s.deviceMove.isSome then device else issueFrom k s
  | none => device

/-- The machine as a step finds it: a cycle has passed, and the device has done what it does of itself. -/
def State.begun (s : State) : State := s.tick.settle

def step (s : State) : Host.Outcome State Fault Refusal :=
  s.begun.guardLog (match s.agenda with
    | t :: ts => takeTurn t { s.begun with agenda := ts }
    | [] => s.begun.anyone)

/-! A machine whose next step runs one given word: the launch that the host's part would have made. -/

def bootContext : Context := { Context.blank 0 with pages := 0x1000 }
/-- A header of one field of one bit's width and extent 1: one workgroup of one thread (R22 to R24). -/
def bootHeader : Header :=
  ⟨leBytes 8 0x20000 ++ leBytes 8 (1 + 1 * 2 ^ 36 + 1 * 2 ^ 39) ++ leBytes 4 1 ++ zeros 20 ++ zeros 8 ++
    leBytes 4 16 ++ zeros 28 ++ leBytes 8 0x30000 ++ zeros 168⟩
def bootKey : WarpKey := ⟨0, 1, 0, 0⟩
def bootLaunch : Launch where
  key := ⟨0, 1⟩
  queue := 0
  order := 0
  priority := 0
  hdr := bootHeader
  next := 1
  retired := 0
  signal := 0
  signalValue := 0
  trapBase := 0x30000
  tickets := Vector.replicate 4 ⟨0, false, [], []⟩
  cbars := []
  graphs := Vector.replicate 16 []
def bootWarp : Warp := { Warp.idle with
  key := bootKey
  live := true
  threads := 1
  splits := (Vector.replicate 4 none).set 0 (some ⟨0x20000, 1, 1, none, .ready, 0, none, none⟩)
  allot := 128 }

/-- The word placed where the very next step fetches (log entry 2): a context whose pages map the low 8 GiB, one workgroup of
one thread at the word, and the agenda naming its warp. -/
def State.withFetchWord (s : State) (nbits w : Nat) : State :=
  let s := { s with tlb := [], xlats := [], icache := [], codeSince := [], late := [], slow := false, contexts := bootContext :: s.contexts.filter fun c => c.num != 0 }
  let s := s.homeWrite Writer.device 0x1000 (leBytes 8 0x10000)
  let s := s.homeWrite Writer.device 0x10000 (leBytes 8 0x4001)
  let s := s.homeWrite Writer.device 0x4000 (leBytes 8 0xF)
  let s := s.homeWrite Writer.device 0x20000 (leBytes 4 (w % 2 ^ nbits))
  { s with
    launches := bootLaunch :: s.launches.filter fun l => l.key != ⟨0, 1⟩
    groups := Workgroup.blank ⟨0, 1, 0⟩ :: s.groups.filter fun g => g.key != ⟨0, 1, 0⟩
    codeLines := []
    warp := bootWarp
    agenda := .issue bootKey :: s.agenda }

end Sys2Proof.Machine
end

