-- ==== Sys2Proof/Safety.lean ====
section
/-! DEFINITION. The terms the statements use: what stands between a split and its instruction, which operands an instruction
may name, and what the state is after an instruction's own effect. -/

namespace Sys2Proof.Machine

/-- Val of an element `x` of type `t` (R112): two's complement or plain binary, by the type. -/
def Ty.value (t : Ty) (x : Nat) : Int :=
  if t.signed then (BitVec.ofNat t.elemBits x).toInt else ((BitVec.ofNat t.elemBits x).toNat : Int)
/-- Wrap: an integer as an element of type `t` (R112). -/
def Ty.wrap (t : Ty) (v : Int) : Nat := (BitVec.ofInt t.elemBits v).toNat

/-! Rounding, on exact rational values. -/

/-- ± m × 2^e. -/
def ratOf (neg : Bool) (m : Nat) (e : Int) : Rat := (if neg then -1 else 1) * m * 2 ^ e

/-- The magnitude of a code without its sign, the format's values continued beyond its largest finite one (R83, R84, R93). -/
def FFmt.magnitude (F : FFmt) (c : Nat) : Rat :=
  let unit : Int := 1 - (F.bias : Int) - F.fb
  if c < 2 ^ F.fb then c * 2 ^ unit else (2 ^ F.fb + c % 2 ^ F.fb : Nat) * 2 ^ (unit + (c / 2 ^ F.fb : Nat) - 1)

/-- A magnitude `x` strictly between the neighbours `lo` and `hi` is rounded to `hi` (R90, R91): `neg` is its sign, `odd` says
that `lo` has an odd last bit, `r` is the draw's low 24 bits. -/
def roundsAway (rm : Rm) (neg odd : Bool) (lo hi x : Rat) (r : Nat) : Bool :=
  match rm with
  | .dflt | .rne => decide (lo + hi < 2 * x) || (decide (2 * x = lo + hi) && odd)
  | .rtz => false
  | .rup => !neg
  | .rdn => neg
  | .rna => decide (lo + hi ≤ 2 * x)
  | .sr => decide (2 ^ 24 ≤ ⌊(x - lo) / (hi - lo) * 2 ^ 24⌋ + (r : Int))

/-- The magnitude is tiny after rounding: with the exponent's range unbounded it stays below the smallest normal (R8). -/
def FFmt.tinyRat (F : FFmt) (rm : Rm) (neg : Bool) (x : Rat) (r : Nat) : Bool :=
  let normal := F.magnitude (2 ^ F.fb)
  let below := normal - F.magnitude 1 / 2
  decide (x ≤ below) || (decide (x < normal) && !roundsAway rm neg true below normal x r)

/-- `y` is RoundTo of the value of sign `neg` and magnitude `x` (R8, R90, R91, R93): the code and the flags. -/
def FFmt.RoundsTo (F : FFmt) (rm : Rm) (r : Nat) (neg : Bool) (x : Rat) (y : Nat × Nat) : Prop :=
  ∃ k, F.magnitude k ≤ x ∧ x < F.magnitude (k + 1) ∧
    let exact : Bool := x = F.magnitude k
    let n := if !exact && roundsAway rm neg (k % 2 == 1) (F.magnitude k) (F.magnitude (k + 1)) x r then k + 1 else k
    let sign := if neg then 2 ^ (F.eb + F.fb) else 0
    let toInf : Bool := F.inf && match rm with
      | .rtz => false | .rup => !neg | .rdn => neg | _ => true
    y = if F.maxCode < n then (sign + (if toInf then F.infCode else F.maxCode), flOF ||| flNX)
        else (sign + n, if exact then 0 else if F.tinyRat rm neg x r then flUF ||| flNX else flNX)

/-- `y` is RoundTo of the square root of `v`, which lies among the format's normal values (R8, R90, R91); roots are compared by their
squares, and `r`, below 2^24, is the draw's low 24 bits. -/
def FFmt.RootRoundsTo (F : FFmt) (rm : Rm) (r : Nat) (v : Rat) (y : Nat × Nat) : Prop :=
  ∃ k, F.magnitude k ^ 2 ≤ v ∧ v < F.magnitude (k + 1) ^ 2 ∧
    let lo := F.magnitude k
    let hi := F.magnitude (k + 1)
    let exact : Bool := lo ^ 2 = v
    let up : Bool := match rm with
      | .dflt | .rne => decide ((lo + hi) ^ 2 < 4 * v) || (decide (4 * v = (lo + hi) ^ 2) && k % 2 == 1)
      | .rtz | .rdn => false
      | .rup => true
      | .rna => decide ((lo + hi) ^ 2 ≤ 4 * v)
      | .sr => decide ((lo + (hi - lo) * (1 - r / 2 ^ 24)) ^ 2 ≤ v)
    y = (if !exact && up then k + 1 else k, if exact then 0 else flNX)

/-- A step that stops nowhere. -/
def Runs (s : State) : Prop := ∃ t, step s = .next t

/-- Memory is in its canonical form. -/
def State.memWf (s : State) : Prop := Memory.wf s.mem = true

/-- Nothing comes before the running split's next instruction: deterministic mode does not hold the instruction back, as a
synchronising operation when `sync` (R352, R355), and no long instruction is outstanding (R55). -/
def State.clearFor (s : State) (sync : Bool) : Prop := s.gated sync = false ∧ s.warp.outstanding = []

/-- The fields may name vector operands of type `t`: a pair is even, a quad a multiple of 4 (R48), and every register of each
is below the allotment (R60). -/
def State.fits (s : State) (t : Ty) (rs : List Reg) : Prop :=
  ∀ r ∈ rs, r.val % t.regs = 0 ∧ r.val + t.regs ≤ s.warp.allot

/-- The registers are below the allotment (R60). -/
def State.within (s : State) (rs : List Reg) : Prop := ∀ r ∈ rs, r.val < s.warp.allot

/-- An instruction has had the effect `g` on the running warp and has retired: PC + 4, one instruction fewer in its clause
(R49, R52). -/
def State.after (s : State) (g : Warp → Warp) : State := (s.modWarp g).retire

/-- The instruction writes `v` to s[d], retires, and changes nothing else. -/
def State.writesS (s : State) (i : Instr) (d : Reg) (v : Word) : Prop := exec i s = .next (s.after fun w => w.setS d v)

/-- The instruction writes `f l` to v[d] in each active lane `l`, retires, and changes nothing else. -/
def State.writesV (s : State) (i : Instr) (d : Reg) (f : Lane → Word) : Prop :=
  exec i s = .next (s.after fun w => w.setV d s.warp.guarded f)

/-- The instruction writes an operand of type `t` to v[d] in each active lane `l`, whose element `e` is `f l e` (R81, R112),
retires, and changes nothing else. -/
def State.writesElems (s : State) (i : Instr) (d : Reg) (t : Ty) (f : Lane → Nat → Nat) : Prop :=
  ∃ g : Lane → Nat, exec i s = .next (s.after fun w => w.setVNat d t.regs s.warp.guarded g) ∧
    ∀ l, ∀ e < t.elems, elemOf t.elemBits e (g l) = f l e

/-- The instruction writes `m` to p[d] in the active lanes, retires, and changes nothing else. -/
def State.writesP (s : State) (i : Instr) (d : PReg) (m : LaneMask) : Prop :=
  exec i s = .next (s.after fun w => w.setP d s.warp.guarded m)

/-- The running split has gone to `t` after the effect `g`, and its clause has ended (R52). -/
def State.goes (s : State) (t : Pc) (g : Warp → Warp) : State :=
  s.modWarp fun w => ((g w).modSp fun p => p.goTo t).retired

/-- The target of a branch offset of `n` bits: PC + 4 × offset modulo 2^57 (R49). -/
def State.target (s : State) {n : Nat} (imm : BitVec n) : Pc := s.warp.sp.pc + BitVec.ofInt 57 (4 * imm.toInt)

/-- The state after a trap of cause `c` has entered at the running split's PC, when no trap is masked and no reduction is
buffered (R383). -/
def State.entered (s : State) (c : Cause) (addr : DWord) : State :=
  s.modWarp fun w => w.enter s.trapBase c addr w.sp.pc 0

/-- A trap can enter at once: traps are not masked, no reduction is buffered, no access of another split is parked at a fault,
and no write of the warp is left to be performed (R57, R383, R387, R436). -/
def State.mayEnter (s : State) : Prop :=
  s.warp.trapmask = false ∧ s.warp.reds = [] ∧ s.accessParked = false ∧ ∀ x ∈ s.late, x.warp ≠ some s.warp.key

/-- A long instruction of lookahead `la` retires at once and stays outstanding (R55); at its completion it will have the effect
`W` on the warp, raise the flags `fl`, and end in no trap. Nothing else changes. -/
def State.pends (s : State) (i : Instr) (la : Fin 16) (fl : Nat) (W : Warp → Warp) : Prop :=
  ∃ (u : Use) (wb : List WriteBack), (∀ w : Warp, wb.foldl WriteBack.apply w = W w) ∧
    exec i s = .next (s.after fun w => w.pushLong la.val u wb fl none)

/-- The addresses of the active lanes of a global access: the base in s[b] plus each lane's offset register (R220). -/
def State.laneAddrs (s : State) (a b : Reg) : List (Lane × DWord) :=
  (LaneMask.lanes s.warp.guarded).map fun l => (l, s.warp.s64 b + (s.warp.v a l).signExtend 64)

/-- The same, each lane as an access names it. -/
def State.globalAddrs (s : State) (a b : Reg) : List (Option Lane × DWord) :=
  (s.laneAddrs a b).map fun x => (some x.1, x.2)

/-- Nothing of the running warp is left to be performed: no reduction is buffered and no write waits (R235, R249). -/
def State.prompt (s : State) : Prop := s.warp.reds = [] ∧ ∀ x ∈ s.late, x.warp ≠ some s.warp.key

/-- Every address is a multiple of `w` below 2^57 and translates (R179, R222). -/
def State.reaches {α : Type} (s : State) (kind : AccessKind) (w : Nat) (l : List (α × DWord)) : Prop :=
  (∀ x ∈ l, x.2.toNat % w = 0 ∧ x.2.toNat < 2 ^ 57) ∧ ∀ x ∈ (s.translateEach kind l).1, ∃ t, x.2.2 = .ok t

/-- A release's and an acquire's part of the instruction's ordering (R224, R247). -/
def State.releasing (s : State) : State := if s.warp.ord.releases then s.releaseAt s.warp.scope else s
def State.acquiring (s : State) : State := if s.warp.ord.acquires then s.acquireAt s.warp.scope else s

/-- The places that the addresses translate to, and the state with the translations filled. -/
def State.places {α : Type} (s : State) (kind : AccessKind) (l : List (α × DWord)) : List (α × Xlat) × State :=
  (translated (s.translateEach kind l).1, (s.translateEach kind l).2)

/-- The flags that the elements of the active lanes raise, ORed (R152): `r l` lists lane `l`'s elements as bits and flags. -/
def State.raised (s : State) (r : Lane → List (Nat × Nat)) : Nat :=
  (LaneMask.lanes s.warp.guarded).foldl (fun n l => (r l).foldl (fun n x => n ||| x.2) n) 0

/-- The draw of element `e` of lane `l` under SR (R134), 0 under the other modes. -/
def State.draw (s : State) (rm : Rm) (l : Lane) (e : Nat) : Nat :=
  if rm = .sr then (drawAt s.hdr s.warp l e).toNat % 2 ^ 24 else 0

/-- A short floating instruction that writes through `write`, raises the flags of `r`, and takes `k` draws in each active lane
under SR: it retires, or, when a flag it raises is enabled, enters FPE after it has written (R152). -/
def State.floats (s : State) (i : Instr) (rm : Rm) (k : Nat) (r : Lane → List (Nat × Nat)) (write : Warp → Warp) : Prop :=
  let t := s.modWarp fun w => ((write w).drew (rm == .sr) k).raiseFlags (s.raised r)
  (s.warp.flagTrap (s.raised r) = false → exec i s = .next t.retire) ∧
  (s.warp.flagTrap (s.raised r) = true → s.mayEnter →
    exec i s = .next (t.entered .fpe (BitVec.ofNat 64 (s.raised r))))

/-- The same for a result of `n` registers whose elements have `bits` bits each. -/
def State.floatsTo (s : State) (i : Instr) (d : Reg) (n bits : Nat) (rm : Rm) (k : Nat) (r : Lane → List (Nat × Nat)) :
    Prop :=
  s.floats i rm k r fun w => w.setVNat d n s.warp.guarded fun l => packElems bits ((r l).map (·.1))

/-- The stores that the end of a packet makes are known to proceed; `u` is the state with what served them (R366, R374). -/
def State.assures (s : State) (x : Queue) (p : List Byte) (u : State) : Prop :=
  match s.ending x p with
  | .inside => u = s
  | .release => s.probe x.ctx .store (x.slotAt x.issued) = (none, u)
  | .publish => ∃ v, s.probe x.ctx .store (x.slotAt x.issued) = (none, v) ∧ v.probe x.ctx .store x.publishedAt = (none, u)

/-- The packet `p` stands at the issue position of queue `q`, which runs no prologue, and it is the queue's turn (R368, R371): it
has not been written over since it was read. -/
def State.atIssue (s : State) (q : Nat) (x : Queue) (p : List Byte) : Prop :=
  s.queue? q = some x ∧ s.queueRuns x = true ∧ x.prologue = none ∧ x.ahead.head? = some p ∧ s.issuesNext x = true ∧
    x.overwritten = false

/-- The queue of that packet was served last (R371). -/
def State.served (s : State) (q : Nat) (x : Queue) : State :=
  { s with lastQueue := s.lastQueue.set (Fin.ofNat 4 x.priority) q }

/-- The issue stage takes the packet at the issue position: it is well formed, of type `ty` and ready, and its end is assured. -/
def State.takes (s : State) (q : Nat) (x : Queue) (p : List Byte) (ty : Nat) (u : State) : Prop :=
  s.atIssue q x p ∧ bytesAt p 0 1 = ty ∧ packetBad p (s.protects x.ctx) = none ∧ s.packetReady x p = true ∧
    (s.served q x).assures x p u

end Sys2Proof.Machine
end

