-- ==== Sys2Proof/Certificates/Slice0/Obligations.lean ====
section
/-! DEFINITION. The statements for the provers, from the numbered rules. Where a statement gives the whole next state as an
equation, that equation is also the frame: everything it does not name is as it was. -/

open Sys2Proof Sys2Proof.Machine

/-- Each SALU instruction writes s[d] with the result of its row and retires (R114). In every state where nothing
stands before the instruction, each of the 16 SALU instructions answers the state in which s[d] holds the value of its
row of R114 and the instruction has retired; nothing else changes (a write to s0 is discarded, one to s120 to s122 is
kept within the membership, as the register write itself says). -/
def Obligations.ScalarArithmeticResults : Prop :=

  ∀ (s : State) (d a b : Reg), s.clearFor false →
    let x := s.warp.s a
    let y := s.warp.s b
    s.writesS (.sadd d a b) d (x + y) ∧ s.writesS (.ssub d a b) d (x - y) ∧ s.writesS (.smul d a b) d (x * y) ∧
    s.writesS (.smulhi d a b) d (BitVec.extractLsb' 32 32 (x.signExtend 64 * y.signExtend 64)) ∧
    s.writesS (.smulhin d a b) d (BitVec.extractLsb' 32 32 (x.setWidth 64 * y.setWidth 64)) ∧
    s.writesS (.sand d a b) d (x &&& y) ∧ s.writesS (.sor d a b) d (x ||| y) ∧ s.writesS (.sxor d a b) d (x ^^^ y) ∧
    s.writesS (.sshl d a b) d (if 32 ≤ y.toNat then 0 else x <<< y.toNat) ∧
    s.writesS (.sshr d a b) d (if 32 ≤ y.toNat then 0 else x >>> y.toNat) ∧
    s.writesS (.ssar d a b) d (if 32 ≤ y.toNat then (if x.msb then BitVec.allOnes 32 else 0) else x.sshiftRight y.toNat) ∧
    s.writesS (.smin d a b) d (if x.slt y then x else y) ∧ s.writesS (.smax d a b) d (if x.slt y then y else x) ∧
    s.writesS (.sminn d a b) d (if x.ult y then x else y) ∧ s.writesS (.smaxn d a b) d (if x.ult y then y else x) ∧
    s.writesS (.sandn d a b) d (x &&& ~~~y)

/-- The scalar immediate, move, compare, select and bit forms write s[d] as their rows say (R115, R116, R117, R118).
In every state where nothing stands before the instruction, SADDI, SANDI, SORI and SXORI take the sign-extended imm11,
SSHLI, SSHRI and SSARI a count of 0 to 31, SMOVI the sign-extended imm18, SLUI the shifted imm18 over the low 14 bits
of s[d], SMOV s[a], SCMP 1 or 0 by each of its six conditions, SSEL one of two scalars by s[d] as it was; SPOPC, SCLZ
and SCTZ write the counts of R118 (32 for the zero counts of 0), SBREV the reversed bits, SBFE the field of w bits at
offset o extended as c[16] selects, SBFI s[d] with that field replaced, SADD64 and SSUB64 the 64-bit sum and
difference of even pairs; each then retires with nothing else changed. -/
def Obligations.ScalarImmediateMoveSelectAndBitResults : Prop :=

  ∀ (s : State) (d a b : Reg) (imm : BitVec 11) (n : BitVec 18), s.clearFor false →
    let x := s.warp.s a
    let y := s.warp.s b
    let k : Word := imm.signExtend 32
    let bit (b : Bool) : Word := if b then 1 else 0
    s.writesS (.saddi d a imm) d (x + k) ∧ s.writesS (.sandi d a imm) d (x &&& k) ∧ s.writesS (.sori d a imm) d (x ||| k) ∧
    s.writesS (.sxori d a imm) d (x ^^^ k) ∧
    (imm.toNat ≤ 31 → s.writesS (.sshli d a imm) d (x <<< imm.toNat) ∧ s.writesS (.sshri d a imm) d (x >>> imm.toNat) ∧
      s.writesS (.ssari d a imm) d (x.sshiftRight imm.toNat)) ∧
    s.writesS (.smovi d n) d (n.signExtend 32) ∧
    s.writesS (.slui d n) d (n.setWidth 32 <<< 14 ||| (s.warp.s d &&& 0x3FFF#32)) ∧
    s.writesS (.smov d a) d x ∧
    s.writesS (.scmp d a b .eq) d (bit (x == y)) ∧ s.writesS (.scmp d a b .ne) d (bit (x != y)) ∧
    s.writesS (.scmp d a b .lt) d (bit (x.slt y)) ∧ s.writesS (.scmp d a b .le) d (bit (x.sle y)) ∧
    s.writesS (.scmp d a b .ltn) d (bit (x.ult y)) ∧ s.writesS (.scmp d a b .len) d (bit (x.ule y)) ∧
    s.writesS (.ssel d a b) d (if s.warp.s d ≠ 0 then x else y) ∧
    (let o := y.toNat % 64
     let w := min (y.toNat / 256 % 128) 32
     s.writesS (.spopc d a) d (BitVec.ofNat 32 ((List.range 32).filter fun i => x.getLsbD i).length) ∧
     (∃ n : Nat, s.writesS (.sclz d a) d (BitVec.ofNat 32 n) ∧
       if x = 0 then n = 32 else n < 32 ∧ x.getLsbD (31 - n) = true ∧ ∀ i < 32, 31 - n < i → x.getLsbD i = false) ∧
     (∃ n : Nat, s.writesS (.sctz d a) d (BitVec.ofNat 32 n) ∧
       if x = 0 then n = 32 else n < 32 ∧ x.getLsbD n = true ∧ ∀ i < n, x.getLsbD i = false) ∧
     (∃ v : Word, s.writesS (.sbrev d a) d v ∧ ∀ i < 32, v.getLsbD i = x.getLsbD (31 - i)) ∧
     s.writesS (.sbfe d a b) d (if y.getLsbD 16 then ((x.sshiftRight o).setWidth w).signExtend 32
       else ((x >>> o).setWidth w).setWidth 32) ∧
     (∃ v : Word, s.writesS (.sbfi d a b) d v ∧
       ∀ i < 32, v.getLsbD i = if o ≤ i ∧ i < o + w then x.getLsbD (i - o) else (s.warp.s d).getLsbD i) ∧
     exec (.sadd64 d a b) s = .next (s.after fun w => w.setS64 d (s.warp.s64 a + s.warp.s64 b)) ∧
     exec (.ssub64 d a b) s = .next (s.after fun w => w.setS64 d (s.warp.s64 a - s.warp.s64 b)))

/-- Each VALU instruction, with a vector or a scalar b, computes its element operation in every active lane (R119).
For every integer clause type and operands that fit it, each of the 16 VALU instructions and its scalar-b form answers
the state in which every active lane's d holds, element by element, the value of its row of R119, inactive lanes and
everything else keep their value, and the instruction has retired. -/
def Obligations.VectorArithmeticResults : Prop :=

  ∀ (s : State) (d a b : Reg), s.clearFor false → (s.warp.ty .i32).isInt = true →
    let t := s.warp.ty .i32
    let W := t.elemBits
    let lo : Int := if t.signed then -(2 ^ (W - 1)) else 0
    let hi : Int := if t.signed then 2 ^ (W - 1) - 1 else 2 ^ W - 1
    let sat (v : Int) : Nat := Ty.wrap t (max lo (min hi v))
    let both (i j : Instr) (f : Nat → Nat → Nat) : Prop :=
      (s.fits t [a, b, d] → s.writesElems i d t fun l e =>
        f (elemOf W e (s.warp.vNat a t.regs l)) (elemOf W e (s.warp.vNat b t.regs l))) ∧
      (s.fits t [a, d] → b.val % t.regs = 0 → s.writesElems j d t fun l e =>
        f (elemOf W e (s.warp.vNat a t.regs l)) (elemOf W e (s.warp.sNat b t.regs)))
    both (.vadd d a b) (.vaddScalar d a b) (fun x y => (x + y) % 2 ^ W) ∧
    both (.vsub d a b) (.vsubScalar d a b) (fun x y => (x + 2 ^ W - y) % 2 ^ W) ∧
    both (.vmul d a b) (.vmulScalar d a b) (fun x y => x * y % 2 ^ W) ∧
    both (.vmulhi d a b) (.vmulhiScalar d a b) (fun x y => Ty.wrap t (Ty.value t x * Ty.value t y / 2 ^ W)) ∧
    both (.vand d a b) (.vandScalar d a b) (fun x y => x &&& y) ∧
    both (.vor d a b) (.vorScalar d a b) (fun x y => x ||| y) ∧
    both (.vxor d a b) (.vxorScalar d a b) (fun x y => x ^^^ y) ∧
    both (.vandn d a b) (.vandnScalar d a b) (fun x y => (BitVec.ofNat W x &&& ~~~(BitVec.ofNat W y)).toNat) ∧
    both (.vshl d a b) (.vshlScalar d a b) (fun x n => if W ≤ n then 0 else (BitVec.ofNat W x <<< n).toNat) ∧
    both (.vshr d a b) (.vshrScalar d a b) (fun x n => if W ≤ n then 0 else (BitVec.ofNat W x >>> n).toNat) ∧
    both (.vsar d a b) (.vsarScalar d a b) (fun x n => ((BitVec.ofNat W x).sshiftRight n).toNat) ∧
    both (.vmin d a b) (.vminScalar d a b) (fun x y => if Ty.value t y < Ty.value t x then y else x) ∧
    both (.vmax d a b) (.vmaxScalar d a b) (fun x y => if Ty.value t x < Ty.value t y then y else x) ∧
    both (.vaddsat d a b) (.vaddsatScalar d a b) (fun x y => sat (Ty.value t x + Ty.value t y)) ∧
    both (.vsubsat d a b) (.vsubsatScalar d a b) (fun x y => sat (Ty.value t x - Ty.value t y)) ∧
    both (.vabsd d a b) (.vabsdScalar d a b) (fun x y => (Ty.value t x - Ty.value t y).natAbs)

/-- The vector immediate forms, VMAD, VMADHI and VDOT4 compute each element as their rows say (R120, R121, R122). With
an integer clause type and operands that fit it, in every active lane: VADDI, VANDI and VORI take imm11 sign-extended
and wrapped to the element, VSHLI, VSHRI and VSARI a count of 0 to 63, VMAD and VMADHI the low and the high W bits of
Val(a) x Val(b) + Val(d). VMOVI writes the sign-extended imm18 under every clause type. VDOT4, on the packed types,
adds the exact sum of the products of the elements to the 32-bit d. Each then retires with nothing else changed. -/
def Obligations.VectorImmediateAndMultiplyAddResults : Prop :=

  ∀ (s : State) (d a b : Reg) (imm : BitVec 11) (n : BitVec 18), s.clearFor false →
    let t := s.warp.ty .i32
    let W := t.elemBits
    let x (l : Lane) (e : Nat) : Nat := elemOf W e (s.warp.vNat a t.regs l)
    let y (l : Lane) (e : Nat) : Nat := elemOf W e (s.warp.vNat b t.regs l)
    let z (l : Lane) (e : Nat) : Nat := elemOf W e (s.warp.vNat d t.regs l)
    let c := imm.toNat
    let k := Ty.wrap t imm.toInt
    (t.isInt = true → s.fits t [a, d] →
      s.writesElems (.vaddi d a imm) d t (fun l e => (x l e + k) % 2 ^ W) ∧
      s.writesElems (.vandi d a imm) d t (fun l e => x l e &&& k) ∧
      s.writesElems (.vori d a imm) d t (fun l e => x l e ||| k) ∧
      (c ≤ 63 →
        s.writesElems (.vshli d a imm) d t (fun l e => if W ≤ c then 0 else (BitVec.ofNat W (x l e) <<< c).toNat) ∧
        s.writesElems (.vshri d a imm) d t (fun l e => if W ≤ c then 0 else (BitVec.ofNat W (x l e) >>> c).toNat) ∧
        s.writesElems (.vsari d a imm) d t (fun l e => ((BitVec.ofNat W (x l e)).sshiftRight c).toNat))) ∧
    (s.within [d] → s.writesV (.vmovi d n) d fun _ => n.signExtend 32) ∧
    (t.isInt = true → s.fits t [a, b, d] →
      s.writesElems (.vmad d a b) d t
        (fun l e => Ty.wrap t (Ty.value t (x l e) * Ty.value t (y l e) + Ty.value t (z l e))) ∧
      s.writesElems (.vmadhi d a b) d t
        (fun l e => Ty.wrap t ((Ty.value t (x l e) * Ty.value t (y l e) + Ty.value t (z l e)) / 2 ^ W))) ∧
    (t ∈ [Ty.i8x4, .n8x4, .i16x2, .n16x2] → s.within [a, b, d] →
      s.writesV (.vdot4 d a b) d fun l =>
        s.warp.v d l + BitVec.ofInt 32 (∑ e ∈ Finset.range t.elems, Ty.value t (x l e) * Ty.value t (y l e)))

/-- The VBIT forms count, reverse, complement, negate, extract, insert and permute within each element (R118, R124).
With an integer clause type and operands that fit it, in every active lane and element: VPOPC, VCLZ and VCTZ count (W
for the zero counts of 0), VBREV reverses, VNOT complements, VNEG wraps the negation, VABS takes the magnitude, VBFE
and VBFI (on the unpacked types) extract and insert the field that the control word of the lane's b gives with W as
the width's cap, VPERMB (on i32 and n32) picks bytes of the pool of a and d. Each then retires with nothing else
changed. -/
def Obligations.VectorBitResults : Prop :=

  ∀ (s : State) (d a b : Reg), s.clearFor false →
    let t := s.warp.ty .i32
    let W := t.elemBits
    let x (l : Lane) (e : Nat) : Nat := elemOf W e (s.warp.vNat a t.regs l)
    let o (l : Lane) : Nat := (s.warp.v b l).toNat % 64
    let w (l : Lane) : Nat := min ((s.warp.v b l).toNat / 256 % 128) W
    let field (l : Lane) : BitVec W :=
      let X := BitVec.ofNat W (x l 0)
      if t.signed then ((X.sshiftRight (o l)).setWidth (w l)).signExtend W
      else ((X >>> (o l)).setWidth (w l)).setWidth W
    (t.isInt = true → s.fits t [a, d] →
      s.writesElems (.vpopc d a) d t (fun l e => ((List.range W).filter fun i => (x l e).testBit i).length) ∧
      (∃ f, s.writesElems (.vclz d a) d t f ∧ ∀ l, ∀ e < t.elems,
        if x l e = 0 then f l e = W
        else f l e < W ∧ (x l e).testBit (W - 1 - f l e) = true ∧
          ∀ i < W, W - 1 - f l e < i → (x l e).testBit i = false) ∧
      (∃ f, s.writesElems (.vctz d a) d t f ∧ ∀ l, ∀ e < t.elems,
        if x l e = 0 then f l e = W
        else f l e < W ∧ (x l e).testBit (f l e) = true ∧ ∀ i < f l e, (x l e).testBit i = false) ∧
      (∃ f, s.writesElems (.vbrev d a) d t f ∧ ∀ l, ∀ e < t.elems, ∀ i < W,
        (f l e).testBit i = (x l e).testBit (W - 1 - i)) ∧
      s.writesElems (.vnot d a) d t (fun l e => (~~~(BitVec.ofNat W (x l e))).toNat) ∧
      s.writesElems (.vneg d a) d t (fun l e => Ty.wrap t (-(Ty.value t (x l e)))) ∧
      s.writesElems (.vabs d a) d t (fun l e => (Ty.value t (x l e)).natAbs)) ∧
    (t ∈ [Ty.i32, .n32, .i64, .n64] → s.fits t [a, b, d] →
      s.writesElems (.vbfe d a b) d t (fun l _ => (field l).toNat) ∧
      (∃ f, s.writesElems (.vbfi d a b) d t f ∧ ∀ l, ∀ i < W,
        (f l 0).testBit i = if o l ≤ i ∧ i < o l + w l then (x l 0).testBit (i - o l)
          else (s.warp.vNat d t.regs l).testBit i)) ∧
    (t ∈ [Ty.i32, .n32] → s.within [a, b, d] →
      ∃ f : Lane → Word, s.writesV (.vpermb d a b) d f ∧ ∀ l, ∀ k < 4,
        let sel := elemOf 8 k (s.warp.v b l).toNat
        elemOf 8 k (f l).toNat = if sel.testBit 3 then 0
          else if sel % 8 < 4 then elemOf 8 (sel % 8) (s.warp.v a l).toNat
          else elemOf 8 (sel % 8 - 4) (s.warp.v d l).toNat)

/-- VADDC and VSUBB carry through p6, VLEA forms an address, VSEXT and VZEXT widen one element (R112, R124). VADDC and
VSUBB, on i32 and n32, write the 32-bit sum or difference with the lane's p6 and then its carry or borrow to p6, in
active lanes only. VLEA adds the extended index times the element size to a 64-bit pair. VSEXT and VZEXT widen element
k modulo the number of elements, to one register or, from 32 bits, to a pair. Each then retires with nothing else
changed. The index of VLEA is extended by the type (R112), a reading the log names. -/
def Obligations.VectorCarryAddressAndWidenResults : Prop :=

  ∀ (s : State) (d a b : Reg) (k : Fin 4), s.clearFor false →
    let t := s.warp.ty .i32
    let W := t.elemBits
    let cin (l : Lane) : Nat := if (s.warp.p 6).getLsbD l.val then 1 else 0
    (t ∈ [Ty.i32, .n32] → s.within [a, b, d] →
      (∃ m : LaneMask, exec (.vaddc d a b) s = .next (s.after fun w =>
          (w.setV d s.warp.guarded fun l => s.warp.v a l + s.warp.v b l + BitVec.ofNat 32 (cin l)).setP 6 s.warp.guarded m) ∧
        ∀ l : Lane, m.getLsbD l.val = decide (2 ^ 32 ≤ (s.warp.v a l).toNat + (s.warp.v b l).toNat + cin l)) ∧
      (∃ m : LaneMask, exec (.vsubb d a b) s = .next (s.after fun w =>
          (w.setV d s.warp.guarded fun l => s.warp.v a l - s.warp.v b l - BitVec.ofNat 32 (cin l)).setP 6 s.warp.guarded m) ∧
        ∀ l : Lane, m.getLsbD l.val = decide ((s.warp.v a l).toNat < (s.warp.v b l).toNat + cin l))) ∧
    (t.isInt = true → s.fits .b64 [a, d] → s.within [b] →
      exec (.vlea d a b) s = .next (s.after fun w => w.setV64 d s.warp.guarded fun l =>
        s.warp.v64 a l + (if t.signed then (s.warp.v b l).signExtend 64 else (s.warp.v b l).setWidth 64) * BitVec.ofNat 64 (W / 8))) ∧
    (t ∈ [Ty.i8x4, .n8x4, .i16x2, .n16x2] → s.within [a, d] →
      let x (l : Lane) : BitVec W := BitVec.ofNat W (elemOf W (k.val % t.elems) (s.warp.v a l).toNat)
      s.writesV (.vsext d a k) d (fun l => (x l).signExtend 32) ∧
      s.writesV (.vzext d a k) d (fun l => (x l).setWidth 32)) ∧
    (t ∈ [Ty.i32, .n32] → s.within [a] → s.fits .b64 [d] →
      exec (.vsext d a k) s = .next (s.after fun w => w.setV64 d s.warp.guarded fun l => (s.warp.v a l).signExtend 64) ∧
      exec (.vzext d a k) s = .next (s.after fun w => w.setV64 d s.warp.guarded fun l => (s.warp.v a l).setWidth 64))

/-- VCMP writes a predicate bit for each active lane, VSEL picks one of two operands by a predicate (R123). VCMP on
i32, n32, i64 and n64 writes p[d] in the active lanes with its condition on Val(a) and Val(b) (p0 discards it). VSEL,
on the types of the bits category, writes v[a] where the predicate, negated when asked, holds and v[b] elsewhere, in
active lanes. Each then retires with nothing else changed. -/
def Obligations.VectorCompareAndSelectResults : Prop :=

  ∀ (s : State) (p : PReg) (d a b : Reg) (neg : Bool), s.clearFor false →
    (let t := s.warp.ty .i32
     let x (l : Lane) : Int := Ty.value t (s.warp.vNat a t.regs l)
     let y (l : Lane) : Int := Ty.value t (s.warp.vNat b t.regs l)
     let tests (c : VCond) (f : Lane → Bool) : Prop :=
       ∃ m : LaneMask, s.writesP (.vcmp p a b c) p m ∧ ∀ l : Lane, m.getLsbD l.val = f l
     t ∈ [Ty.i32, .n32, .i64, .n64] → s.fits t [a, b] →
       tests .eq (fun l => decide (x l = y l)) ∧ tests .ne (fun l => decide (x l ≠ y l)) ∧
       tests .lt (fun l => decide (x l < y l)) ∧ tests .le (fun l => decide (x l ≤ y l)) ∧
       tests .gt (fun l => decide (x l > y l)) ∧ tests .ge (fun l => decide (x l ≥ y l))) ∧
    (let t := s.warp.ty .b32
     t.isBits = true → s.fits t [a, b, d] →
       exec (.vsel d a b neg p) s = .next (s.after fun w => w.setVNat d t.regs s.warp.guarded fun l =>
         if (s.warp.p p).getLsbD l.val = !neg then s.warp.vNat a t.regs l else s.warp.vNat b t.regs l))

/-- VDIV and VREM read their operands at issue and leave the quotient or remainder in their window (R125). On i32,
n32, i64 and n64, VDIV and VREM retire at once with one long instruction outstanding whose lookahead is as encoded and
whose write-back holds, for each active lane, all ones and a for a zero divisor, a and 0 for the most negative
dividend over -1, else the quotient truncated toward zero and the remainder with the dividend's sign; no flag and no
trap is held, and nothing else changes. -/
def Obligations.VectorDivisionResults : Prop :=

  ∀ (s : State) (d a b : Reg) (la : Fin 16), s.clearFor false →
    let t := s.warp.ty .i32
    let W := t.elemBits
    let x (l : Lane) : Nat := s.warp.vNat a t.regs l
    let X (l : Lane) : Int := Ty.value t (x l)
    let Y (l : Lane) : Int := Ty.value t (s.warp.vNat b t.regs l)
    let pends (i : Instr) (f : Lane → Nat) : Prop :=
      ∃ (u : Use) (g : Lane → Nat), exec i s = .next (s.after fun w =>
          w.pushLong la.val u (wbNat d t.regs s.warp.guarded g) 0 none) ∧
        (∀ r, RegName.v r ∈ u.writes ↔ d.val ≤ r ∧ r < d.val + t.regs) ∧ ∀ l, g l % 2 ^ W = f l
    t ∈ [Ty.i32, .n32, .i64, .n64] → s.fits t [a, b, d] →
      pends (.vdiv d a b la) (fun l => if Y l = 0 then 2 ^ W - 1
        else if t.signed ∧ X l = -(2 ^ (W - 1)) ∧ Y l = -1 then x l
        else Ty.wrap t ((X l).tdiv (Y l))) ∧
      pends (.vrem d a b la) (fun l => if Y l = 0 then x l
        else if t.signed ∧ X l = -(2 ^ (W - 1)) ∧ Y l = -1 then 0
        else Ty.wrap t ((X l).tmod (Y l)))

/-- The vector moves, the predicate logic and the moves between predicates and scalars (R126, R127, R128). VMOV and
VMOVS copy a register or a scalar into the active lanes under every clause type; VRDL reads lane n of any register, 0
from n = 96 up; VWRL writes lane n when it is in the activity mask. PAND, POR, PXOR, PNOT, PSET and PCLR write p[d] in
the active lanes. PMOVS gives the lanes of the activity mask their bits from three scalars, SMOVP reads all 96 lanes
into three scalars. Each then retires with nothing else changed; p0 and s0 discard what is written to them. -/
def Obligations.MoveAndPredicateResults : Prop :=

  ∀ (s : State) (d a b : Reg) (p q r : PReg), s.clearFor false →
    let n := (s.warp.s b).toNat
    (s.within [a, d] → s.writesV (.vmov d a) d fun l => s.warp.v a l) ∧
    (s.within [d] → s.writesV (.vmovs d a) d fun _ => s.warp.s a) ∧
    (s.within [a] → s.writesS (.vrdl d a b) d (if h : n < 96 then s.warp.v a ⟨n, h⟩ else 0)) ∧
    (s.within [d] → exec (.vwrl d a b) s = .next (s.after fun w =>
      if n < 96 then w.setV d (s.warp.sp.active &&& (1#96 <<< n)) fun _ => s.warp.s a else w)) ∧
    s.writesP (.pand p q r) p (s.warp.p q &&& s.warp.p r) ∧ s.writesP (.por p q r) p (s.warp.p q ||| s.warp.p r) ∧
    s.writesP (.pxor p q r) p (s.warp.p q ^^^ s.warp.p r) ∧ s.writesP (.pnot p q) p (~~~(s.warp.p q)) ∧
    s.writesP (.pset p) p (BitVec.allOnes 96) ∧ s.writesP (.pclr p) p 0 ∧
    exec (.pmovs p a) s = .next (s.after fun w =>
      w.setP p s.warp.sp.active (s.warp.s (a + 2) ++ s.warp.s (a + 1) ++ s.warp.s a)) ∧
    exec (.smovp d p) s = .next (s.after fun w =>
      ((w.setS d (BitVec.extractLsb' 0 32 (s.warp.p p))).setS (d + 1) (BitVec.extractLsb' 32 32 (s.warp.p p))).setS (d + 2)
        (BitVec.extractLsb' 64 32 (s.warp.p p)))

/-- A register write reaches its register and its lanes; s0 and p0 discard writes; a retired instruction changes PC
and clause alone (R7, R49, R52, R98, R100, R102). For every warp: s0 reads 0 and discards writes; a scalar write is
read back, in s120 to s122 with the bits outside the split's membership cleared; every other scalar keeps its value.
After a vector write the masked lanes read the new words and every other lane and register its old ones, pairs and
quads included. After a predicate write the masked bits are the new ones, the others and the other predicates as they
were; p0 reads all ones and discards writes. FRAME of an instruction that writes registers and retires (State.after):
for a scalar, vector or predicate write, everything outside the running warp, the other register files, and the flags,
special registers, trap registers, allotment, window list, buffered reductions, threads and membership are as before;
the activity mask too, unless the write is to s120 to s122; PC has moved by 4. -/
def Obligations.RegisterWritesChangeNothingElse : Prop :=

  ∀ (s : State) (w : Warp) (r q : Reg) (k j : PReg) (m bits : LaneMask) (v : Word) (n : Nat) (h : Lane → Nat)
    (f : Lane → Word) (g : Lane → DWord) (l : Lane),
    (w.s 0 = 0 ∧ w.setS 0 v = w ∧
      (r ≠ 0 → (r.val < 120 ∨ 122 < r.val) → (w.setS r v).s r = v) ∧
      (120 ≤ r.val ∧ r.val ≤ 122 →
        (w.setS r v).s r = v &&& BitVec.extractLsb' (32 * (r.val - 120)) 32 w.sp.member) ∧
      (q ≠ r → (w.setS r v).s q = w.s q)) ∧
    ((w.setV r m f).v r l = (if m.getLsbD l.val then f l else w.v r l) ∧
      (q ≠ r → (w.setV r m f).v q l = w.v q l) ∧
      (w.setV64 r m g).v64 r l = (if m.getLsbD l.val then g l else w.v64 r l) ∧
      ((∀ i < max n 1, q.val ≠ (r.val + i) % 128) ∨ m.getLsbD l.val = false → (w.setVNat r n m h).v q l = w.v q l)) ∧
    (w.p 0 = BitVec.allOnes 96 ∧ w.setP 0 m bits = w ∧
      (k ≠ 0 → (w.setP k m bits).p k = (bits &&& m) ||| (w.p k &&& ~~~m)) ∧
      (j ≠ k → (w.setP k m bits).p j = w.p j)) ∧
    (∀ e : Warp → Warp,
      (e = (fun x => x.setS r v) ∨ e = (fun x => x.setVNat r n m h) ∨ e = (fun x => x.setP k m bits)) →
      let t := s.after e
      t = { s with warp := t.warp } ∧
      t.warp.key = s.warp.key ∧ t.warp.threads = s.warp.threads ∧ t.warp.allot = s.warp.allot ∧
      t.warp.fflags = s.warp.fflags ∧ t.warp.clausest = s.warp.clausest ∧ t.warp.barcount = s.warp.barcount ∧
      t.warp.trapcause = s.warp.trapcause ∧ t.warp.trappc = s.warp.trappc ∧ t.warp.trapaddr = s.warp.trapaddr ∧
      t.warp.trapli = s.warp.trapli ∧ t.warp.trapmask = s.warp.trapmask ∧ t.warp.hold = s.warp.hold ∧
      t.warp.lklast = s.warp.lklast ∧ t.warp.rngstream = s.warp.rngstream ∧ t.warp.counters = s.warp.counters ∧
      t.warp.reds = s.warp.reds ∧ t.warp.overflow = s.warp.overflow ∧ t.warp.cur = s.warp.cur ∧
      t.warp.sp.pc = s.warp.sp.pc + 4 ∧ t.warp.sp.member = s.warp.sp.member ∧
      (r.val < 120 ∨ 122 < r.val → t.warp.sp.active = s.warp.sp.active)) ∧
    ((s.after fun x => x.setS r v).warp.vregs = s.warp.vregs ∧ (s.after fun x => x.setS r v).warp.preds = s.warp.preds) ∧
    ((s.after fun x => x.setVNat r n m h).warp.sregs = s.warp.sregs ∧
      (s.after fun x => x.setVNat r n m h).warp.preds = s.warp.preds) ∧
    ((s.after fun x => x.setP k m bits).warp.vregs = s.warp.vregs ∧
      (s.after fun x => x.setP k m bits).warp.sregs = s.warp.sregs)

/-- BRA, BRNZ, BRZ, CALL, NOP, YIELD, CLAUSE and SLEEP move the split as their rules say (R49, R50, R52, R168, R171,
R176, R177). In every state where nothing stands before the instruction: BRA goes to PC + 4 x offset modulo 2^57, BRNZ
and BRZ go there when s[d] is not 0 or is 0 and else fall through, CALL writes PC + 4 to the pair v[d] in the active
lanes and goes; a taken branch ends the clause. NOP and YIELD fall through (YIELD marks the split and its warp to be
passed over), CLAUSE falls through with its clause open for its count of instructions (0 stands for 16), SLEEP 0 falls
through, SLEEP n waits until 16 x n cycles have passed and retires at SLEEP_EXPIRY then. -/
def Obligations.UniformControlTransfers : Prop :=

  ∀ (s : State) (d : Reg) (far : BitVec 25) (imm : BitVec 18) (c : ClauseWord), s.clearFor false →
    exec (.bra far) s = .next (s.goes (s.target far) id) ∧
    exec (.brnz d imm) s = .next (if s.warp.s d ≠ 0 then s.goes (s.target imm) id else s.after id) ∧
    exec (.brz d imm) s = .next (if s.warp.s d = 0 then s.goes (s.target imm) id else s.after id) ∧
    (s.fits .b64 [d] → exec (.call d imm) s = .next (s.goes (s.target imm) fun w =>
      w.setV64 d s.warp.sp.active fun _ => (s.warp.sp.pc + 4#57).setWidth 64)) ∧
    exec .nop s = .next (s.after id) ∧
    exec .yield s = .next (s.after fun w => { w with yielded := some w.cur, passed := true }) ∧
    exec (.clause c) s = .next (s.modWarp fun w => (w.modSp fun p =>
      { p.advance with clause := some ⟨c, if c.count.val = 0 then 16 else c.count.val⟩ }).retired) ∧
    exec (.sleep imm) s = .next (if imm = 0 then s.after id else s.setWait (.sleep (s.now + 16 * imm.toNat)))

/-- BRV, BRX, RET and CALLX split the warp where lanes differ, wait for the overflow entry or trap; boundaries merge,
promote and exchange (R36, R37, R38, R39, R167, R169, R170, R171). BRV falls through when no active lane takes it,
goes when all take it, and when some do the others leave as a split of the lowest free number at PC + 4. BRX, RET and
CALLX, with every active lane's address aligned and below 2^57, go with the lanes that share the lowest active lane's
target; the others stay at the PC as a split of the lowest free number; CALLX writes the link PC + 4 in the lanes that
go. With no lane active they fall through; an address of an active lane that is not aligned, or at or above 2^57,
enters ALIGN with the lowest such lane's address. Where no split number is free the lanes that leave become the
overflow entry, without a clause; where that is occupied the branch waits for it, not executed. At a boundary of a
warp that no wound has reached, first splits merge until no pair qualifies (same PC and clause state, neither waiting
nor parked or both in one barrier wait, and no trap or entry of either to come and neither a handler holding the
warp): the merged split keeps the lower number with the masks ORed and both splits' windows. Then the overflow entry
becomes a split under the lowest free number. Then, with the overflow entry still occupied and every live split
blocked, the split waiting for it with the highest PC, then number, changes places with it. -/
def Obligations.PerLaneControlTransfers : Prop :=

  ∀ (s : State) (neg : Bool) (p : PReg) (d a : Reg) (imm : BitVec 18), s.clearFor false →
    let act := s.warp.sp.active
    -- the lanes of `stay` leave the running split for `pc` under the free number `k`, the others go to `t`
    let divides (stay : LaneMask) (pc t : Pc) (k : Fin 4) (g : Warp → Warp) : State := s.modWarp fun w =>
      let w := (g w).modSp fun q => { q.goTo t with member := q.member &&& ~~~stay, active := q.active &&& ~~~stay }
      ({ w with splits := w.splits.set k (some { Split.empty with pc := pc, member := stay, active := stay }) } : Warp).retired
    -- the same, with no number free: they become the overflow entry
    let overflows (stay : LaneMask) (pc t : Pc) (g : Warp → Warp) : State := s.modWarp fun w =>
      let w := (g w).modSp fun q => { q.goTo t with member := q.member &&& ~~~stay, active := q.active &&& ~~~stay }
      ({ w with overflow := some ⟨pc, stay, stay, none⟩ } : Warp).retired
    -- what the branch answers when the lanes of `stay` leave
    let answers (i : Instr) (stay : LaneMask) (pc t : Pc) (g : Warp → Warp) : Prop :=
      (∀ k, s.warp.freeSplit = some k → exec i s = .next (divides stay pc t k g)) ∧
      (s.warp.freeSplit = none → s.warp.overflow = none → exec i s = .next (overflows stay pc t g)) ∧
      (s.warp.freeSplit = none → s.warp.overflow ≠ none → exec i s = .next (s.setWait .overflow))
    (let take := act &&& (if neg then ~~~(s.warp.p p) else s.warp.p p)
     let rest := act &&& ~~~take
     (take = 0 → exec (.brv neg p imm) s = .next (s.after id)) ∧
     (take ≠ 0 → rest = 0 → exec (.brv neg p imm) s = .next (s.goes (s.target imm) id)) ∧
     (take ≠ 0 → rest ≠ 0 → answers (.brv neg p imm) rest (s.warp.sp.pc + 4#57) (s.target imm) id)) ∧
    (s.fits .b64 [a] → s.fits .b64 [d] →
     let link (m : LaneMask) (w : Warp) : Warp := w.setV64 d m fun _ => (w.sp.pc + 4#57).setWidth 64
     (act = 0 → exec (.brx a) s = .next (s.after id) ∧ exec (.ret a) s = .next (s.after id) ∧
       exec (.callx d a) s = .next (s.after id)) ∧
     (∀ l : Lane, s.mayEnter →
       let bad (l : Lane) : Prop := act.getLsbD l.val = true ∧
         ¬((s.warp.v64 a l).toNat % 4 = 0 ∧ (s.warp.v64 a l).toNat < 2 ^ 57)
       bad l → (∀ j, j < l → ¬bad j) →
       ∀ i ∈ [Instr.brx a, .ret a, .callx d a], exec i s = .next (s.entered .align (s.warp.v64 a l))) ∧
     ∀ l0, LaneMask.lowest act = some l0 →
       (∀ l, act.getLsbD l.val = true → (s.warp.v64 a l).toNat % 4 = 0 ∧ (s.warp.v64 a l).toNat < 2 ^ 57) →
       let t := (s.warp.v64 a l0).setWidth 57
       ∃ go : LaneMask, (∀ l : Lane, go.getLsbD l.val = (act.getLsbD l.val && s.warp.v64 a l == s.warp.v64 a l0)) ∧
         let stay := act &&& ~~~go
         (stay = 0 → exec (.brx a) s = .next (s.goes t id) ∧ exec (.ret a) s = .next (s.goes t id) ∧
           exec (.callx d a) s = .next (s.goes t (link go))) ∧
         (stay ≠ 0 → answers (.brx a) stay s.warp.sp.pc t id ∧ answers (.ret a) stay s.warp.sp.pc t id ∧
           answers (.callx d a) stay s.warp.sp.pc t (link go))) ∧
    ∀ w : Warp,
      let merged := w.mergeOnce.mergeOnce.mergeOnce
      (w.wound = none → w.boundary = merged.promote.exchange) ∧ (∀ i j, i < j → merged.mayMerge i j = false) ∧
      (∀ (i j : Fin 4) (p q : Split), w.splits[i] = some p → w.splits[j] = some q → i ≠ j →
        let still (k : Fin 4) (x : Split) : Prop := w.hold ≠ some k ∧ x.trap = none ∧ x.entry = none
        (w.mayMerge i j = true ↔ still i p ∧ still j q ∧ p.pc = q.pc ∧ Clause.sameState p.clause q.clause = true ∧
          ((∃ n ph, p.wait = .barrier n ph ∧ q.wait = .barrier n ph) ∨
            (w.unblocked p.wait = true ∧ w.unblocked q.wait = true))) ∧
        ∃ p', (w.mergeInto i j).splits = (w.splits.set i (some p')).set j none ∧
          p'.pc = p.pc ∧ p'.clause = p.clause ∧ p'.member = p.member ||| q.member ∧ p'.active = p.active ||| q.active ∧
          (w.mergeInto i j).outstanding = w.outstanding.map fun l => if l.split = j then { l with split := i } else l) ∧
      (∀ (o : Overflow) (k : Fin 4), w.overflow = some o → w.splits[k] = none → (∀ j, j < k → w.splits[j] ≠ none) →
        w.promote = { w with
          splits := w.splits.set k (some ⟨o.pc, o.member, o.active, o.clause, .ready, 0, none, none⟩), overflow := none }) ∧
      ∀ (o : Overflow) (k : Fin 4) (p : Split), w.overflow = some o → w.splits[k] = some p →
        p.wait = .overflow → w.hold ≠ some k →
        (∀ (j : Fin 4) (q : Split), w.splits[j] = some q → q.wait ≠ .ready ∧ ∀ b c, q.wait ≠ .parked b c) →
        (∀ (j : Fin 4) (q : Split), w.splits[j] = some q → q.wait = .overflow → w.hold ≠ some j →
          q.pc.toNat < p.pc.toNat ∨ (q.pc = p.pc ∧ j ≤ k)) →
        w.exchange = { w with
          overflow := some ⟨p.pc, p.member, p.active, p.clause⟩
          splits := w.splits.set k (some ⟨o.pc, o.member, o.active, o.clause, .ready, 0, none, none⟩) }

/-- A trap saves PC, cause, address and clause, masks traps, holds the warp and goes to the handler; TRET undoes it
(R383, R384, R388, R389, R391). With traps not masked, no reduction buffered and nothing of the warp parked or left to
be performed: TRAP n enters with cause USER, the code as address and PC + 4 as return, and counts towards the clause
that CLAUSEST saves; BKPT enters with cause BRK at its own PC. An entry writes TRAPCAUSE, TRAPPC, TRAPADDR and TRAPLI,
saves the clause in CLAUSEST, masks traps, holds the warp on the split and sets the PC to the launch's trap base + 64
x code, with no clause open. TRET sets the PC from TRAPPC and the clause from CLAUSEST, and ends the mask and the
hold. -/
def Obligations.TrapEntryAndReturn : Prop :=

  ∀ (s : State) (imm : BitVec 18), s.clearFor false →
    let entry (t : State) (c : Cause) (addr : DWord) (pc : Pc) (cl : Option Clause) : Prop :=
      t.warp.trapcause = BitVec.ofNat 32 c.code ∧ t.warp.trappc = pc.setWidth 64 ∧ t.warp.trapaddr = addr ∧
      t.warp.trapli = 0 ∧ t.warp.clausest = clauseWordOpt cl ∧ t.warp.trapmask = true ∧ t.warp.hold = some s.warp.cur ∧
      t.warp.sp.pc = (s.trapBase + BitVec.ofNat 64 (64 * c.code)).setWidth 57 ∧ t.warp.sp.clause = none ∧
      t.warp.sp.member = s.warp.sp.member ∧ t.warp.sp.active = s.warp.sp.active ∧
      (∀ r, t.warp.s r = s.warp.s r) ∧ t.warp.vregs = s.warp.vregs ∧ t.warp.preds = s.warp.preds ∧
      t.warp.fflags = s.warp.fflags ∧ t.mem = s.mem ∧ t.caches = s.caches ∧ t.l2 = s.l2 ∧ t.groups = s.groups
    (s.mayEnter →
      (∃ t, exec (.trap imm) s = .next t ∧
        entry t .user (imm.setWidth 64) (s.warp.sp.pc + 4#57) (s.warp.sp.clause.bind Clause.step)) ∧
      (∃ t, exec .bkpt s = .next t ∧ entry t .brk 0 s.warp.sp.pc s.warp.sp.clause)) ∧
    (∃ t, exec .tret s = .next t ∧
      t.warp.sp.pc = s.warp.trappc.setWidth 57 ∧ t.warp.sp.clause = clauseOfWord s.warp.clausest ∧
      t.warp.trapmask = false ∧ t.warp.hold = (if s.warp.hold = some s.warp.cur then none else s.warp.hold) ∧
      t.warp.sp.active = s.warp.sp.active ∧ t.warp.sp.member = s.warp.sp.member ∧ (∀ r, t.warp.s r = s.warp.s r) ∧
      t.warp.vregs = s.warp.vregs ∧ t.warp.preds = s.warp.preds ∧ t.warp.trappc = s.warp.trappc ∧
      t.warp.trapcause = s.warp.trapcause ∧ t.warp.clausest = s.warp.clausest ∧ t.mem = s.mem ∧ t.caches = s.caches ∧
      t.l2 = s.l2 ∧ t.groups = s.groups)

/-- A word that is no instruction traps as UNDEF; VADD traps as UNDEF before REGBOUND and as REGBOUND before TYPE,
with its word as the address (R48, R53, R61, R65, R104). With traps not masked and nothing of the warp buffered,
parked or left to be performed, a word that is no instruction enters UNDEF; a vector addition whose pair field is odd
enters UNDEF whatever its registers are; with fields that may name its operands it enters REGBOUND when a register is
at or above the allotment; with the registers allotted and a clause type that is no integer type, it enters TYPE.
TRAPADDR holds the word. -/
def Obligations.SharedCausesTrapInOrder : Prop :=

  ∀ (s : State) (w : Word) (d a b : Reg), s.clearFor false → s.mayEnter →
    let t := s.warp.ty .i32
    let word : DWord := BitVec.setWidth 64 (wordOf (.vadd d a b))
    exec (.undef w) s = .next (s.entered .undef (w.setWidth 64)) ∧
    (t = .i64 ∨ t = .n64 → (d.val % 2 = 1 ∨ a.val % 2 = 1 ∨ b.val % 2 = 1) →
      exec (.vadd d a b) s = .next (s.entered .undef word)) ∧
    (t.isInt = true → (∀ r ∈ [d, a, b], r.val % t.regs = 0) → (∃ r ∈ [d, a, b], s.warp.allot < r.val + t.regs) →
      exec (.vadd d a b) s = .next (s.entered .regbound word)) ∧
    (t.isInt = false → s.within [d, a, b] → exec (.vadd d a b) s = .next (s.entered .type word))

/-- SRD gives each special register of the table its contents, per lane or warp-uniform (R109, R110, R111). In every
state where nothing stands before the instruction, SRD of a per-lane register writes v[d] in the lanes of the activity
mask, and SRD of a warp-uniform one writes s[d], with the contents of its row; a read of CYCLE or LCLOCK also latches
its high word, and CYCLEHI and LCLOCKHI (and the step that reads them) give the latched word, or the current high word
before any latch. Nothing else changes. -/
def Obligations.SpecialRegisterReads : Prop :=

  ∀ (s : State) (d : Reg) (k : Fin 6), s.clearFor false →
    let w := s.warp
    let h := s.hdr
    let lo (v : DWord) : Word := v.setWidth 32
    let hi (v : DWord) : Word := BitVec.extractLsb' 32 32 v
    let cyc : DWord := BitVec.ofInt 64 (s.now + s.ctx.cycleBase)
    let tidx (l : Lane) : Nat := w.key.widx * 96 + l.val
    let lane (n : SpecReg) (f : Lane → Word) : Prop :=
      s.within [d] → exec (.srd d n) s = .next (s.after fun w => w.setV d s.warp.sp.active f)
    let one (n : SpecReg) (v : Word) : Prop := s.writesS (.srd d n) d v
    lane .lane (fun l => BitVec.ofNat 32 l.val) ∧ lane .tidx (fun l => BitVec.ofNat 32 (tidx l)) ∧
    lane (.field k) (fun l => BitVec.ofNat 32 (h.field k.val (tidx l) w.key.wglin)) ∧
    lane .wid (fun l => lo (h.workId (tidx l) w.key.wglin)) ∧ lane .widhi (fun l => hi (h.workId (tidx l) w.key.wglin)) ∧
    lane .rctr (fun l => w.counters[l].setWidth 32) ∧
    lane .rctrhi (fun l => (BitVec.extractLsb' 32 16 w.counters[l]).setWidth 32) ∧
    one .warpidx (BitVec.ofNat 32 w.key.widx) ∧ one .nwarps (BitVec.ofNat 32 ((h.threads + 95) / 96)) ∧
    one .wglin (BitVec.ofNat 32 w.key.wglin) ∧ one .wglinhi (BitVec.ofNat 32 (w.key.wglin / 2 ^ 32)) ∧
    one .clrank (BitVec.ofNat 32 (w.key.wglin % h.clsize)) ∧ one .clsize (BitVec.ofNat 32 h.clsize) ∧
    one .allot (BitVec.ofNat 32 w.allot) ∧ one .fflags w.fflags ∧ one .clausest w.clausest ∧
    one .rngseed (lo h.seed) ∧ one .rngseedhi (hi h.seed) ∧ one .rngstream (w.rngstream.setWidth 32) ∧
    one .trapcause w.trapcause ∧ one .trappc (lo w.trappc) ∧ one .trappchi (hi w.trappc) ∧
    one .trapaddr (lo w.trapaddr) ∧ one .trapaddrhi (hi w.trapaddr) ∧ one .trapmask (if w.trapmask then 1 else 0) ∧
    one .trapli (lo w.trapli) ∧ one .traplihi (hi w.trapli) ∧ one .splitid (BitVec.ofNat 32 w.cur.val) ∧
    one .nsplits (BitVec.ofNat 32 ((List.finRange 4).filter fun j => (w.splits[j]).isSome).length) ∧
    one .lklast w.lklast ∧ one .barcount w.barcount ∧
    one .age (lo w.key.age) ∧ one .agehi (hi w.key.age) ∧ one .agex w.key.agex ∧
    exec (.srd d .cycle) s = .next (s.after fun w => { (w.setS d (lo cyc)) with cycleHi := some (hi cyc) }) ∧
    exec (.srd d .lclock) s = .next (s.after fun w => { (w.setS d (lo w.clock)) with lclockHi := some (hi w.clock) }) ∧
    one .cyclehi (w.cycleHi.getD (hi cyc)) ∧ one .lclockhi (w.lclockHi.getD (hi w.clock)) ∧
    s.writesS (.cyclehiRead d false) d (w.cycleHi.getD (hi cyc)) ∧
    s.writesS (.cyclehiRead d true) d (w.lclockHi.getD (hi w.clock))

/-- SWR sets each writable special register with its reserved bits ignored, and the mask write stays within the split
(R3, R54, R100, R109, R110, R384). In every state where nothing stands before the instruction, SWR sets FFLAGS (flags
and enables), RNGSTREAM, TRAPPC and TRAPPCHI, TRAPMASK[0], BARCOUNT, and RCTR or RCTRHI in the lanes of the activity
mask, and changes nothing else; CLAUSEST is set when its value holds codes that a clause word may hold and a count of
at most 16, else the write traps UNDEF; the writes named as steps of their own do the same; a write of s120 to s122
keeps the activity mask within the membership. -/
def Obligations.SpecialRegisterWrites : Prop :=

  ∀ (s : State) (a : Reg) (k : Fin 3), s.clearFor false →
    let v := s.warp.s a
    let sets (i : Instr) (g : Warp → Warp) : Prop := exec i s = .next (s.after g)
    let fflags (w : Warp) : Warp := { w with fflags := v &&& 0x1F3F#32 }
    let mask (w : Warp) : Warp := { w with trapmask := v.getLsbD 0 }
    let clausest (w : Warp) : Warp := { w with clausest := v &&& 0x03FFFFFF#32 }
    let counters (f : BitVec 48 → Word → BitVec 48) (w : Warp) : Warp :=
      let one (l : Lane) : BitVec 48 :=
        if s.warp.sp.active.getLsbD l.val then f w.counters[l] (w.v a l) else w.counters[l]
      { w with counters := Vector.ofFn one }
    sets (.swr a .fflags) fflags ∧ sets (.fflagsWrite a) fflags ∧
    sets (.swr a .trapmask) mask ∧ sets (.trapmaskWrite a) mask ∧
    sets (.swr a .rngstream) (fun w => { w with rngstream := v.setWidth 16 }) ∧
    sets (.swr a .barcount) (fun w => { w with barcount := v &&& 0x3FFF#32 }) ∧
    sets (.swr a .trappc) (fun w => { w with trappc := joinWords (v &&& 0xFFFFFFFC#32) (highWord w.trappc) }) ∧
    sets (.swr a .trappchi) (fun w => { w with trappc := joinWords (lowWord w.trappc) (v &&& 0x01FFFFFF#32) }) ∧
    ((clausestFields v).isSome = true → sets (.swr a .clausest) clausest ∧ sets (.clausestWrite a) clausest) ∧
    ((clausestFields v).isNone = true → s.mayEnter →
      exec (.swr a .clausest) s = .next (s.entered .undef (BitVec.setWidth 64 (wordOf (.swr a .clausest)))) ∧
      exec (.clausestWrite a) s = .next (s.entered .undef (BitVec.setWidth 64 (wordOf (.swr a .clausest))))) ∧
    (s.within [a] →
      sets (.swr a .rctr) (counters fun old x => BitVec.extractLsb' 32 16 old ++ x) ∧
      sets (.swr a .rctrhi) (counters fun old x => x.setWidth 16 ++ old.setWidth 32)) ∧
    (∃ t, exec (.activityMaskWrite k a) s = .next t ∧
      (∀ j : Nat, j ≤ 2 → LaneMask.part t.warp.sp.active j =
        if j = k.val then v &&& LaneMask.part s.warp.sp.member j else LaneMask.part s.warp.sp.active j) ∧
      t.warp.sp.member = s.warp.sp.member ∧ t.warp.sregs = s.warp.sregs ∧ t.warp.vregs = s.warp.vregs ∧
      t.warp.preds = s.warp.preds ∧ t.mem = s.mem)

/-- RND, RNDF and RNDSKIP draw from each active lane’s own stream and advance its counter (R346, R347, R348). RND
writes, in each active lane, Mix of the launch seed, the stream identifier that RNGSTREAM and the launch-wide thread
index form, and the lane's counter, and adds 1 to the counter; RNDF writes the f32 code of the number's top 24 bits
times 2^-24; RNDSKIP adds v[a] to the counter. A counter that wraps sets RNGWRAP; lanes that are not active neither
draw nor change; nothing else changes. -/
def Obligations.RandomDraws : Prop :=

  ∀ (s : State) (d a : Reg), s.clearFor false →
    let sid (l : Lane) : DWord := BitVec.ofNat 64
      ((s.warp.key.wglin * s.hdr.threads + s.warp.key.widx * 96 + l.val) % 2 ^ 48 + s.warp.rngstream.toNat * 2 ^ 48)
    let draw (l : Lane) : Word := mix s.hdr.seed (sid l) s.warp.counters[l]
    let act (l : Lane) : Bool := s.warp.guarded.getLsbD l.val
    -- the counters move on by `n`, with RNGWRAP where one wraps
    let moved (n : Lane → Nat) (w : Warp) : Warp :=
      let wraps := (List.finRange 96).any fun l => act l && decide (2 ^ 48 ≤ (w.counters[l]).toNat + n l)
      { w with
        counters := Vector.ofFn fun l => if act l then w.counters[l] + BitVec.ofNat 48 (n l) else w.counters[l]
        fflags := if wraps then w.fflags ||| 0x20#32 else w.fflags }
    (s.within [d] → exec (.rnd d) s = .next (s.after fun w => moved (fun _ => 1) (w.setV d s.warp.guarded draw)) ∧
      exec (.rndf d) s = .next (s.after fun w => moved (fun _ => 1) (w.setV d s.warp.guarded fun l =>
        BitVec.ofNat 32 (f32F.round .rne 0 false ⟨(draw l).toNat / 256, -24, false⟩).1))) ∧
    (s.within [a] → exec (.rndskip a) s = .next (s.after (moved fun l => (s.warp.v a l).toNat)))

/-- GROW takes registers from the reserve, then its half’s pool, else waits or is GROWDEAD; SHRINK gives them to the
reserve (R98, R104, R105, R106, R107, log entry 10). GROW n past an allotment of 128 traps REGBOUND. Else, where the
reserve and the pool of the warp's half supply n, and no older warp waits in GROW for that pool unless the reserve is
enough, it adds n to the allotment, takes what the reserve has, charges the rest to the half, and gives the new
registers the value 0. Where they do not supply it, it waits; a waiting GROW that is tried again does as it would
issued afresh, or goes on waiting. With every live warp of the workgroup waiting in GROW and the running one of the
highest WARPIDX, GROWDEAD enters at the GROW with the allotment as it was. Which warps wait in GROW, and which of
several waiting splits takes GROWDEAD, the lowest-numbered, are the model's choices (log entry 10). SHRINK n that
leaves at least 8 takes n from the allotment, clears those registers and adds n to the reserve; else it traps
REGBOUND. -/
def Obligations.GrowAndShrinkMoveTheAllotment : Prop :=

  ∀ (s : State) (imm : BitVec 18), s.clearFor false →
    let n := imm.toNat
    let word (i : Instr) : DWord := BitVec.setWidth 64 (wordOf i)
    let need := n - s.wg.reserve
    let supplied : Prop := need = 0 ∨ (need ≤ s.poolFree s.warp.core s.warp.half ∧
      ∀ x ∈ s.warps, x.core = s.warp.core → x.half = s.warp.half → x.growSplit ≠ none → older x.key s.warp.key = false)
    let waits := s.setWait (.grow n)
    -- the live warps of the workgroup, while this GROW waits
    let mates := waits.warpsOf s.warp.key.wg
    let stuck (w : Warp) : Bool := w.stuckInGrow (waits.hdrOf s.warp.key.wg.launch).det
    (s.warp.allot + n ≤ 128 → supplied → ∃ t, exec (.grow imm) s = .next t ∧
      t.warp.allot = s.warp.allot + n ∧ t.warp.sp.pc = s.warp.sp.pc + 4#57 ∧
      (∀ (r : Reg) (l : Lane), t.warp.v r l = if s.warp.allot ≤ r.val ∧ r.val < s.warp.allot + n then 0 else s.warp.v r l) ∧
      (∀ g, s.group? s.warp.key.wg = some g → ∃ g', t.group? s.warp.key.wg = some g' ∧
        g'.reserve = g.reserve - n ∧ g'.charge0 = g.charge0 + (if s.warp.half then 0 else need) ∧
        g'.charge1 = g.charge1 + (if s.warp.half then need else 0)) ∧
      t.warp.sregs = s.warp.sregs ∧ t.warp.preds = s.warp.preds ∧ t.mem = s.mem) ∧
    (128 < s.warp.allot + n → s.mayEnter → exec (.grow imm) s = .next (s.entered .regbound (word (.grow imm)))) ∧
    (s.warp.allot + n ≤ 128 → ¬supplied → (∃ w ∈ mates, stuck w = false) → exec (.grow imm) s = .next waits) ∧
    (s.warp.allot + n ≤ 128 → ¬supplied → s.warp.live = true → (∀ w ∈ mates, stuck w = true) →
      (∀ w ∈ mates, w.key.widx ≤ s.warp.key.widx) → (s.warp.hold = none ∨ s.warp.hold = some s.warp.cur) →
      waits.warp.growSplit = some s.warp.cur → s.mayEnter → exec (.grow imm) s = .next (s.entered .growdead 0)) ∧
    (s.warp.live = true → s.warp.sp.wait = .grow n → (s.warp.splits[s.warp.cur]).isSome = true →
      let again := s.retryGrow s.warp.key s.warp.cur
      (s.warp.allot + n ≤ 128 → supplied → exec (.grow imm) s = .next again) ∧
      (¬(s.warp.allot + n ≤ 128 ∧ supplied) → again = s)) ∧
    (n + 8 ≤ s.warp.allot → (∀ w ∈ s.warps, w.growSplit = none) → ∃ t, exec (.shrink imm) s = .next t ∧
      t.warp.allot = s.warp.allot - n ∧ t.warp.sp.pc = s.warp.sp.pc + 4#57 ∧
      (∀ (r : Reg) (l : Lane), t.warp.v r l = if s.warp.allot - n ≤ r.val ∧ r.val < s.warp.allot then 0 else s.warp.v r l) ∧
      (∀ g, s.group? s.warp.key.wg = some g → ∃ g', t.group? s.warp.key.wg = some g' ∧ g'.reserve = g.reserve + n) ∧
      t.warp.sregs = s.warp.sregs ∧ t.warp.preds = s.warp.preds ∧ t.mem = s.mem) ∧
    (s.warp.allot < n + 8 → s.mayEnter → exec (.shrink imm) s = .next (s.entered .regbound (word (.shrink imm))))

/-- The floating arithmetic forms round each element once, gather its flags, and draw under SR (R129, R131, R133,
R134, R136, R137, R147, R152). With a clause type that the form accepts and operands that fit it, in every active lane
and element: FADD, FSUB, FMUL, FFMA, FFMS and FNFMA round the exact value of their row once in the mode the rounding
field selects, FRND rounds to an integral value, FMIN, FMAX, FMINNUM and FMAXNUM pick an operand: the smaller or
larger by value with -0 below +0, unchanged, the canonical NaN where one is a NaN and the form is FMIN or FMAX or both
are, the number otherwise, NV for a signalling NaN; the flags raised are ORed into FFLAGS; the six and FRND take one
draw an element under SR. Each retires, or enters FPE after it has written when a flag it raises is enabled. Nothing
else changes. -/
def Obligations.FloatArithmeticResults : Prop :=

  ∀ (s : State) (d a b : Reg) (x : Rm), s.clearFor false →
    let t := s.warp.ty .f32
    let F := tyFmt t
    let rm := s.warp.rm x
    let el (r : Reg) (l : Lane) (e : Nat) : Nat := elemOf F.bits e (s.warp.vNat r t.regs l)
    -- RoundTo of an exact outcome, with the flags it already has
    let roundTo (m : Rm) (q : Nat) (z : FOut) : Nat × Nat := ((F.ofVal m q z.1).1, (F.ofVal m q z.1).2 ||| z.2)
    let v (r : Reg) (l : Lane) (e : Nat) : FVal := F.decode (el r l e)
    let elems (i : Instr) (m : Rm) (k : Nat) (f : Lane → Nat → Nat × Nat) : Prop :=
      s.floatsTo i d t.regs F.bits m k fun l => (List.range t.elems).map (f l)
    let exact (i : Instr) (z : Lane → Nat → FOut) : Prop :=
      elems i rm t.elems fun l e => roundTo rm (s.draw rm l e) (z l e)
    Ty.arith t = true →
      (s.fits t [a, b, d] →
        exact (.fadd d a b x) (fun l e => FVal.add rm (v a l e) (v b l e)) ∧
        exact (.fsub d a b x) (fun l e => FVal.add rm (v a l e) (v b l e).negate) ∧
        exact (.fmul d a b x) (fun l e => FVal.mul (v a l e) (v b l e)) ∧
        exact (.ffma d a b x) (fun l e => FVal.fma rm false (v a l e) (v b l e) (v d l e)) ∧
        exact (.ffms d a b x) (fun l e => FVal.fma rm false (v a l e) (v b l e) (v d l e).negate) ∧
        exact (.fnfma d a b x) (fun l e => FVal.fma rm true (v a l e) (v b l e) (v d l e)) ∧
        elems (.fmin d a b) .rne 0 (fun l e => fMinMax F false false (el a l e) (el b l e)) ∧
        elems (.fmax d a b) .rne 0 (fun l e => fMinMax F true false (el a l e) (el b l e)) ∧
        elems (.fminnum d a b) .rne 0 (fun l e => fMinMax F false true (el a l e) (el b l e)) ∧
        elems (.fmaxnum d a b) .rne 0 (fun l e => fMinMax F true true (el a l e) (el b l e))) ∧
      (s.fits t [a, d] → elems (.frnd d a x) rm t.elems fun l e => fRnd F rm (s.draw rm l e) (el a l e)) ∧
      -- the operand that the minimum and maximum forms pick, by infinity, value and sign of zero
      ∀ G ∈ [f16F, bf16F, f32F, f64F], ∀ (isMax num : Bool) (y z : Nat), y < 2 ^ G.bits → z < 2 ^ G.bits →
        let p := G.decode y
        let q := G.decode z
        let key (v : FVal) : Int × Rat × Int := match v with
          | .inf n => (if n then -1 else 1, 0, 0)
          | .fin n m e => (0, ratOf n m e, if n && m == 0 then -1 else 0)
          | .nan _ => (0, 0, 0)
        let below (v u : FVal) : Bool :=
          decide ((key v).1 < (key u).1) || (decide ((key v).1 = (key u).1) && (decide ((key v).2.1 < (key u).2.1) ||
            (decide ((key v).2.1 = (key u).2.1) && decide ((key v).2.2 < (key u).2.2))))
        fMinMax G isMax num y z =
          (if p.isNan && q.isNan then G.nanCode else if p.isNan then (if num then z else G.nanCode)
           else if q.isNan then (if num then y else G.nanCode)
           else if isMax then (if below p q then z else y) else (if below q p then z else y),
           if p.isSnan || q.isSnan then flNV else 0)

/-- The sign forms act on the sign bit alone; FCLASS, FSCALE, FCMP and FDOT2 follow their rows (R129, R130, R138,
R139, R140, R141, R142, R152). FSGNJ, FSGNJN, FABS and FNEG copy every bit of a but the sign bit, which they take from
b, its inverse, 0 or the inverse of a's, with no flag, on every floating type. FCLASS writes the one class bit of each
element into one register. FSCALE rounds a x 2^n in the clause's mode. FCMP, on f32 and f64, writes the predicate bits
of its condition with NV as its row says. FDOT2 rounds the exact sum of three terms once. Each retires, or enters FPE
after writing when a flag it raises is enabled; nothing else changes. The class bit of each code, the outcome and NV
of each condition by the order of the values, FSCALE's result and FDOT2's sum are given on the codes and on exact
rationals. -/
def Obligations.FloatSignClassScaleCompareResults : Prop :=

  ∀ (s : State) (d a b : Reg) (p : PReg) (c : FCond) (x : Rm), s.clearFor false →
    let t := s.warp.ty .f32
    let F := tyFmt t
    let el (r : Reg) (l : Lane) (e : Nat) : Nat := elemOf F.bits e (s.warp.vNat r t.regs l)
    let sign (y : Nat) : Bool := y.testBit (F.bits - 1)
    let signed (g : Bool) (y : Nat) : Nat := y % 2 ^ (F.bits - 1) + if g then 2 ^ (F.bits - 1) else 0
    let quiet (i : Instr) (f : Lane → Nat → Nat) : Prop :=
      s.floatsTo i d t.regs F.bits .rne 0 fun l => (List.range t.elems).map fun e => (f l e, 0)
    (Ty.isFloat t = true → s.fits t [a, b, d] →
      quiet (.fsgnj d a b) (fun l e => signed (sign (el b l e)) (el a l e)) ∧
      quiet (.fsgnjn d a b) (fun l e => signed (!sign (el b l e)) (el a l e))) ∧
    (Ty.isFloat t = true → s.fits t [a, d] →
      quiet (.fabs d a) (fun l e => signed false (el a l e)) ∧
      quiet (.fneg d a) (fun l e => signed (!sign (el a l e)) (el a l e))) ∧
    (Ty.arith t = true → s.fits t [a] → s.within [d] →
      s.floatsTo (.fclass d a) d 1 16 .rne 0 fun l => (List.range t.elems).map fun e => (2 ^ classBit F (el a l e), 0)) ∧
    (Ty.arith t = true → s.fits t [a, d] → s.within [b] →
      let rm := s.warp.rm .dflt
      s.floatsTo (.fscale d a b) d t.regs F.bits rm t.elems fun l => (List.range t.elems).map fun e =>
        fScale F rm (s.draw rm l e) (el a l e)
          (if t.elems = 1 then (s.warp.v b l).toInt else (BitVec.extractLsb' (16 * e) 16 (s.warp.v b l)).toInt)) ∧
    (t = .f32 ∨ t = .f64 → s.fits t [a, b] →
      let h (l : Lane) : Bool × Nat := FCond.holds c (F.decode (s.warp.vNat a t.regs l)) (F.decode (s.warp.vNat b t.regs l))
      ∃ m : LaneMask, (∀ l : Lane, s.warp.guarded.getLsbD l.val = true → m.getLsbD l.val = (h l).1) ∧
        s.floats (.fcmp p a b c) .rne 0 (fun l => [(0, (h l).2)]) fun w => w.setP p s.warp.guarded m) ∧
    (t = .f16x2 ∨ t = .bf16x2 → s.within [a, b, d] →
      let rm := s.warp.rm x
      s.floatsTo (.fdot2 d a b x) d 1 32 rm 1 fun l =>
        let z := dot2 F rm (s.warp.v d l).toNat (s.warp.v a l).toNat (s.warp.v b l).toNat
        [((f32F.ofVal rm (s.draw rm l 0) z.1).1, (f32F.ofVal rm (s.draw rm l 0) z.1).2 ||| z.2)]) ∧
    -- the class bits
    (∀ G ∈ [f16F, bf16F, f32F, f64F], ∀ y < 2 ^ G.bits,
      let neg := y.testBit (G.eb + G.fb)
      let ex := y / 2 ^ G.fb % 2 ^ G.eb
      let fr := y % 2 ^ G.fb
      classBit G y =
        if ex = 2 ^ G.eb - 1 then (if fr = 0 then (if neg then 0 else 7) else if fr < 2 ^ (G.fb - 1) then 8 else 9)
        else if ex = 0 then (if fr = 0 then (if neg then 3 else 4) else if neg then 2 else 5)
        else if neg then 1 else 6) ∧
    -- the conditions, by the order of the values
    (∀ y z : FVal,
      let key (v : FVal) : Int × Rat := match v with
        | .inf n => (if n then -1 else 1, 0)
        | .fin n m e => (0, ratOf n m e)
        | .nan _ => (0, 0)
      let below (v u : FVal) : Bool :=
        decide ((key v).1 < (key u).1) || (decide ((key v).1 = (key u).1) && decide ((key v).2 < (key u).2))
      let un := y.isNan || z.isNan
      let sn := if y.isSnan || z.isSnan then flNV else 0
      let qn := if un then flNV else 0
      FCond.holds .eq y z = (!un && !below y z && !below z y, sn) ∧ FCond.holds .ne y z = (un || below y z || below z y, sn) ∧
      FCond.holds .lt y z = (!un && below y z, qn) ∧ FCond.holds .le y z = (!un && !below z y, qn) ∧
      FCond.holds .gt y z = (!un && below z y, qn) ∧ FCond.holds .ge y z = (!un && !below y z, qn) ∧
      FCond.holds .un y z = (un, sn) ∧ FCond.holds .ord y z = (!un, sn)) ∧
    -- FSCALE and the sum of FDOT2
    (∀ G ∈ [f16F, bf16F, f32F, f64F], ∀ (rm : Rm) (r y : Nat) (N : Int), y < 2 ^ G.bits → match G.decode y with
      | .nan sig => fScale G rm r y N = (G.nanCode, if sig then flNV else 0)
      | .inf _ => fScale G rm r y N = (y, 0)
      | .fin n m e => if m = 0 then fScale G rm r y N = (y, 0) else G.RoundsTo rm r n (m * 2 ^ (e + N)) (fScale G rm r y N)) ∧
    (∀ G ∈ [f16F, bf16F], ∀ (rm : Rm) (x y z : Nat) n m e n0 m0 e0 n1 m1 e1 k0 p0 q0 k1 p1 q1, f32F.decode z = .fin n m e →
      G.decode (x % 2 ^ 16) = .fin n0 m0 e0 → G.decode (x / 2 ^ 16 % 2 ^ 16) = .fin n1 m1 e1 →
      G.decode (y % 2 ^ 16) = .fin k0 p0 q0 → G.decode (y / 2 ^ 16 % 2 ^ 16) = .fin k1 p1 q1 →
      ∃ nz mz ez, dot2 G rm z x y = (.fin nz mz ez, 0) ∧
        ratOf nz mz ez = ratOf n m e + ratOf n0 m0 e0 * ratOf k0 p0 q0 + ratOf n1 m1 e1 * ratOf k1 p1 q1)

/-- CVT converts every element to the destination type, FPACK packs binary32 values into narrow elements (R94, R112,
R130, R148, R149, R150, R152). CVT with a source type of the integer or floating category, whose destination fits in
128 bits and whose fields name operands of the counts its rule gives, writes every converted element at its place in
the destination registers, which one register, a pair or a quad hold; it draws once an element under SR unless both
types are integers. FPACK rounds the f32 values of a, then of b, into the elements of the clause type. Each retires,
or enters FPE after writing when a flag it raises is enabled; nothing else changes. One element converts by the first
rule of R149 for its pair of types: integers saturate without a flag, floating values are rounded to an integer and
saturate with NV, values and NaNs go to a floating type by RoundTo. -/
def Obligations.FloatConversionResults : Prop :=

  ∀ (s : State) (d a b : Reg) (u : Ty) (x : Rm), s.clearFor false →
    let rm := s.warp.rm x
    (let t := s.warp.ty .i32
     let bits := t.elems * u.elemBits
     let n := if bits ≤ 32 then 1 else bits / 32
     (t.isInt || t.isFloat) = true → bits ≤ 128 → s.fits t [a] → d.val % n = 0 → d.val + n ≤ s.warp.allot →
       s.floatsTo (.cvt d a u x) d n u.elemBits rm (if t.isInt && u.isInt then 0 else t.elems) fun l =>
         (List.range t.elems).map fun e =>
           cvtElem t u rm (s.draw rm l e) (elemOf t.elemBits e (s.warp.vNat a t.regs l))) ∧
    (let t := s.warp.ty .f32
     let F := tyFmt t
     let n := t.elems / 2
     let src (l : Lane) (e : Nat) : Nat :=
       if e < n then elemOf 32 e (s.warp.vNat a n l) else elemOf 32 (e - n) (s.warp.vNat b n l)
     t ∈ [Ty.f16x2, .bf16x2, .e4m3x4, .e5m2x4] → (∀ r ∈ [a, b], r.val % n = 0 ∧ r.val + n ≤ s.warp.allot) → s.within [d] →
       s.floatsTo (.fpack d a b x) d 1 F.bits rm t.elems fun l => (List.range t.elems).map fun e =>
         F.ofVal rm (s.draw rm l e) (f32F.decode (src l e))) ∧
    (∀ (t u : Ty) (rm : Rm) (r y : Nat),
      let W := u.elemBits
      let lo : Int := if u.signed then -(2 ^ (W - 1) : Int) else 0
      let hi : Int := if u.signed then (2 ^ (W - 1) : Int) - 1 else (2 ^ W : Int) - 1
      let v := Ty.value t y
      let sat (z : Int) (fl : Nat) : Nat × Nat :=
        if z < lo then (Ty.wrap u lo, flNV) else if hi < z then (Ty.wrap u hi, flNV) else (Ty.wrap u z, fl)
      (t.isInt = true → u.isInt = true → cvtElem t u rm r y = (Ty.wrap u (max lo (min hi v)), 0)) ∧
      (t.isInt = true → u.isFloat = true → (tyFmt u).RoundsTo rm r (decide (v < 0)) (v.natAbs : Rat) (cvtElem t u rm r y)) ∧
      (t.isFloat = true → u.isInt = true → match (tyFmt t).decode y with
        | .nan _ => cvtElem t u rm r y = (0, flNV)
        | .inf n => cvtElem t u rm r y = (Ty.wrap u (if n then lo else hi), flNV)
        | .fin n m e =>
          let q : Rat := m * 2 ^ e
          let k : Int := ⌊q⌋
          let exact : Bool := q = k
          let z := if !exact && roundsAway rm n (k % 2 == 1) k (k + 1) q r then k + 1 else k
          cvtElem t u rm r y = sat (if n then -z else z) (if exact then 0 else flNX)) ∧
      (t.isFloat = true → u.isFloat = true → cvtElem t u rm r y = (tyFmt u).ofVal rm r ((tyFmt t).decode y)))

/-- FSFU and FDIV leave their results and flags in their window and take their draws at issue (R55, R56, R129, R134,
R143, R145, R146). With a clause type that the form accepts and operands that fit it, each of the eight FSFU forms and
FDIV retires at once with one long instruction outstanding, whose lookahead is as encoded and which holds, for every
active lane, the results of its elements in the clause's mode and the flags they raise; under SR it has drawn once an
element; nothing else changes. -/
def Obligations.LongFloatResults : Prop :=

  ∀ (s : State) (d a b : Reg) (la : Fin 16), s.clearFor false →
    let t := s.warp.ty .f32
    let F := tyFmt t
    let rm := s.warp.rm .dflt
    let v (r : Reg) (l : Lane) (e : Nat) : FVal := F.decode (elemOf F.bits e (s.warp.vNat r t.regs l))
    let pends (i : Instr) (f : Lane → Nat → Nat × Nat) : Prop :=
      let r (l : Lane) : List (Nat × Nat) := (List.range t.elems).map (f l)
      ∃ (u : Use) (wb : List WriteBack), (∀ k, RegName.v k ∈ u.writes ↔ d.val ≤ k ∧ k < d.val + t.regs) ∧
        (∀ w : Warp, wb.foldl WriteBack.apply w = w.setVNat d t.regs s.warp.guarded fun l => packElems F.bits ((r l).map (·.1))) ∧
        exec i s = .next (s.after fun w => (w.pushLong la.val u wb (s.raised r) none).drew (rm == .sr) t.elems)
    (Ty.arith t = true → s.fits t [a, d] →
      pends (.frcp d a la) (fun l e => F.sfu .rcp rm (s.draw rm l e) (v a l e)) ∧
      pends (.frsq d a la) (fun l e => F.sfu .rsq rm (s.draw rm l e) (v a l e)) ∧
      pends (.fsqrt d a la) (fun l e => F.sfu .sqrt rm (s.draw rm l e) (v a l e))) ∧
    (Ty.transc t = true → s.fits t [a, d] →
      pends (.fexp2 d a la) (fun l e => F.sfu .exp2 rm (s.draw rm l e) (v a l e)) ∧
      pends (.flog2 d a la) (fun l e => F.sfu .log2 rm (s.draw rm l e) (v a l e)) ∧
      pends (.fsin d a la) (fun l e => F.sfu .sin rm (s.draw rm l e) (v a l e)) ∧
      pends (.fcos d a la) (fun l e => F.sfu .cos rm (s.draw rm l e) (v a l e)) ∧
      pends (.ftanh d a la) (fun l e => F.sfu .tanh rm (s.draw rm l e) (v a l e))) ∧
    (Ty.arith t = true → s.fits t [a, b, d] →
      pends (.fdiv d a b la) (fun l e => F.div rm (s.draw rm l e) (v a l e) (v b l e)))

/-- The special operands of the arithmetic forms, of FSFU and of FDIV give the results of their tables; finite ones
the exact value (R132, R136, R143, R144, R145, R147). For every format, mode and draw: infinity times zero gives the
canonical NaN and NV whatever the third operand; else any NaN operand gives the canonical NaN, with NV when one is
signalling; else adding two infinities of opposite sign, an infinite product included, gives the canonical NaN and NV;
else an infinite operand or product gives the infinity of its sign and no flag; finite operands give the exact sum or
product, a zero sum the sign that IEEE 754 gives it. FSFU's special operands give the results and flags of their
table, FDIV's those of its list; FRCP and FDIV of finite nonzero values give RoundTo of the exact quotient, FSQRT and
FRSQ of positive ones RoundTo of the exact root, FEXP2 of integers and FLOG2 of powers of two RoundTo of their exact
values, FRND a value's integer of the mode. -/
def Obligations.FloatArithmeticSpecialOperands : Prop :=

  ∀ (F : FFmt) (rm : Rm) (q : Nat) (neg : Bool) (a b c : FVal),
    let fma := FVal.fma rm neg a b c
    let zeroInf : Bool := match a, b with
      | .inf _, .fin _ m _ | .fin _ m _, .inf _ => m == 0
      | _, _ => false
    let anyNan : Bool := a.isNan || b.isNan || c.isNan
    let sNan : Bool := a.isSnan || b.isSnan || c.isSnan
    (zeroInf = true → fma = (.nan false, flNV)) ∧
    (zeroInf = false → anyNan = true → fma = (.nan false, if sNan then flNV else 0)) ∧
    (zeroInf = false → anyNan = false →
      (∀ n m, (a = .inf n ∨ b = .inf n) → c = .inf m → (m ≠ ((a.neg != b.neg) != neg)) → fma = (.nan false, flNV)) ∧
      (∀ m, c = .inf m → (∀ n, a ≠ .inf n ∧ b ≠ .inf n) → fma = (.inf m, 0)) ∧
      (∀ n, (a = .inf n ∨ b = .inf n) → (∀ m, c ≠ .inf m) → fma = (.inf ((a.neg != b.neg) != neg), 0))) ∧
    (∀ x y : FVal, (x.isNan || y.isNan) = true →
      FVal.add rm x y = (.nan false, if x.isSnan || y.isSnan then flNV else 0) ∧
      FVal.mul x y = (.nan false, if x.isSnan || y.isSnan then flNV else 0)) ∧
    (∀ m n, m ≠ n → FVal.add rm (.inf m) (.inf n) = (.nan false, flNV)) ∧
    (∀ m n e, FVal.mul (.inf m) (.fin n 0 e) = (.nan false, flNV) ∧ FVal.mul (.fin n 0 e) (.inf m) = (.nan false, flNV)) ∧
    (F.nan = true → F.ofVal rm q (.nan false) = (F.nanCode, 0)) ∧
    (F.inf = true → ∀ n, F.ofVal rm q (.inf n) = ((if n then F.signBit else 0) + F.infCode, 0)) ∧
    -- finite operands
    (∀ n1 m1 e1 n2 m2 e2, ∃ n m e, FVal.add rm (.fin n1 m1 e1) (.fin n2 m2 e2) = (.fin n m e, 0) ∧
      ratOf n m e = ratOf n1 m1 e1 + ratOf n2 m2 e2 ∧
      (m = 0 → n = if m1 = 0 ∧ m2 = 0 ∧ n1 = n2 then n1 else decide (rm = .rdn))) ∧
    (∀ n1 m1 e1 n2 m2 e2, ∃ m e, FVal.mul (.fin n1 m1 e1) (.fin n2 m2 e2) = (.fin (n1 != n2) m e, 0) ∧
      ratOf (n1 != n2) m e = ratOf n1 m1 e1 * ratOf n2 m2 e2) ∧
    (∀ n1 m1 e1 n2 m2 e2 n3 m3 e3, ∃ n m e, FVal.fma rm neg (.fin n1 m1 e1) (.fin n2 m2 e2) (.fin n3 m3 e3) = (.fin n m e, 0) ∧
      ratOf n m e = (if neg then -1 else 1) * (ratOf n1 m1 e1 * ratOf n2 m2 e2) + ratOf n3 m3 e3) ∧
    -- FSFU, FDIV and FRND
    (F ∈ [f16F, bf16F, f32F, f64F] →
      let sg (n : Bool) : Nat := if n then 2 ^ (F.eb + F.fb) else 0
      let inf (n : Bool) : Nat × Nat := (sg n + (2 ^ F.eb - 1) * 2 ^ F.fb, 0)
      let dz (n : Bool) : Nat × Nat := ((inf n).1, flDZ)
      let zero (n : Bool) : Nat × Nat := (sg n, 0)
      let one (n : Bool) : Nat × Nat := (sg n + F.bias * 2 ^ F.fb, 0)
      let nv : Nat × Nat := (F.nanCode, flNV)
      (∀ op sig, F.sfu op rm q (.nan sig) = (F.nanCode, if sig then flNV else 0)) ∧
      (∀ op, F.sfu op rm q (.inf true) = match op with
        | .rcp => zero true | .exp2 => zero false | .tanh => one true | _ => nv) ∧
      (∀ op, F.sfu op rm q (.inf false) = match op with
        | .rcp | .rsq => zero false | .sqrt | .exp2 | .log2 => inf false | .sin | .cos => nv | .tanh => one false) ∧
      (∀ op n e, F.sfu op rm q (.fin n 0 e) = match op with
        | .rcp | .rsq => dz n | .sqrt | .sin | .tanh => zero n | .exp2 | .cos => one false | .log2 => dz true) ∧
      (∀ op m e, m ≠ 0 → op = .rsq ∨ op = .sqrt ∨ op = .log2 → F.sfu op rm q (.fin true m e) = nv) ∧
      (∀ k : Nat, F.sfu .log2 rm q (.fin false (2 ^ k) (-(k : Int))) = zero false) ∧
      (∀ (n : Bool) (m : Nat) (e : Int), m ≠ 0 → F.RoundsTo rm q n (1 / (m * 2 ^ e)) (F.sfu .rcp rm q (.fin n m e))) ∧
      (∀ (m : Nat) (e : Int), m ≠ 0 → q < 2 ^ 24 → (∃ y < 2 ^ F.bits, F.decode y = .fin false m e) →
        F.RootRoundsTo rm q (m * 2 ^ e) (F.sfu .sqrt rm q (.fin false m e)) ∧
        F.RootRoundsTo rm q (1 / (m * 2 ^ e)) (F.sfu .rsq rm q (.fin false m e))) ∧
      (∀ (n : Bool) (m : Nat) (e k : Int), m ≠ 0 → (∃ y < 2 ^ F.bits, F.decode y = .fin n m e) → ratOf n m e = k →
        F.RoundsTo rm q false (2 ^ k) (F.sfu .exp2 rm q (.fin n m e))) ∧
      (∀ (m : Nat) (e k : Int), (∃ y < 2 ^ F.bits, F.decode y = .fin false m e) → (m : Rat) * 2 ^ e = 2 ^ k →
        F.RoundsTo rm q (decide (k < 0)) (k.natAbs : Rat) (F.sfu .log2 rm q (.fin false m e))) ∧
      (∀ x y : FVal,
        let n := x.neg != y.neg
        ((x.isNan || y.isNan) = true → F.div rm q x y = (F.nanCode, if x.isSnan || y.isSnan then flNV else 0)) ∧
        (∀ n1 n2 m e, F.div rm q (.inf n1) (.inf n2) = nv ∧ F.div rm q (.inf n1) (.fin n2 m e) = inf (n1 != n2) ∧
          F.div rm q (.fin n2 m e) (.inf n1) = zero (n1 != n2)) ∧
        (∀ n1 n2 m1 e1 e2, F.div rm q (.fin n1 m1 e1) (.fin n2 0 e2) = if m1 = 0 then nv else dz (n1 != n2)) ∧
        ∀ (n1 n2 : Bool) (m1 m2 : Nat) (e1 e2 : Int), m2 ≠ 0 →
          F.RoundsTo rm q (n1 != n2) (m1 * 2 ^ e1 / (m2 * 2 ^ e2)) (F.div rm q (.fin n1 m1 e1) (.fin n2 m2 e2))) ∧
      (∀ y < 2 ^ F.bits, match F.decode y with
        | .nan sig => fRnd F rm q y = (F.nanCode, if sig then flNV else 0)
        | .inf _ => fRnd F rm q y = (y, 0)
        | .fin n m e =>
          let x : Rat := m * 2 ^ e
          let k : Int := ⌊x⌋
          let exact : Bool := x = k
          let z := if !exact && roundsAway rm n (k % 2 == 1) k (k + 1) x q then k + 1 else k
          (exact = true → fRnd F rm q y = (y, 0)) ∧
          (exact = false → (fRnd F rm q y).2 = flNX ∧
            ∃ c, F.magnitude c = z ∧ (fRnd F rm q y).1 = sg n + c)))

/-- RoundTo picks between the two neighbours of a value by its mode, with the flags of overflow, underflow and
inexactness (R8, R83, R84, R89, R90, R91, R93). For each of the nine binary formats, with the parameters of its row: a
code up to the largest finite one stands for its magnitude and sign, the others for an infinity or a NaN. A finite
value is rounded as though the format's magnitudes went on beyond the largest finite one: it lies at one or between
two of them, stays unchanged or goes to the neighbour that its mode chooses, ties to the even code under RNE, and
under SR up exactly when the fraction in units of 2^-24 and the draw's low 24 bits carry; beyond the largest finite
magnitude it overflows to the infinity or the largest finite value; NX, OF and UF (tiny after rounding) are set
accordingly. NaNs and infinities go to the format's own, or to 0 or the largest finite value with NV where it has
none. Tininess under SR by the same draw is the model's reading. -/
def Obligations.RoundToFollowsTheModes : Prop :=

  ([f64F, f32F, f16F, bf16F, e4m3F, e5m2F, e2m3F, e3m2F, e2m1F].map fun F => (F.eb, F.bias, F.fb, F.maxCode, F.nanCode)) =
    [(11, 1023, 52, 0x7FEFFFFFFFFFFFFF, 0x7FF8000000000000), (8, 127, 23, 0x7F7FFFFF, 0x7FC00000), (5, 15, 10, 0x7BFF, 0x7E00),
     (8, 127, 7, 0x7F7F, 0x7FC0), (4, 7, 3, 0x7E, 0x7F), (5, 15, 2, 0x7B, 0x7E), (2, 1, 3, 0x1F, 0), (3, 3, 2, 0x1F, 0),
     (2, 1, 1, 0x7, 0)] ∧
  ∀ F ∈ [f64F, f32F, f16F, bf16F, e4m3F, e5m2F, e2m3F, e3m2F, e2m1F],
    (∀ y < 2 ^ F.bits,
      let neg := y.testBit (F.eb + F.fb)
      let c := y % 2 ^ (F.eb + F.fb)
      let ieee : Bool := F ∈ [f64F, f32F, f16F, bf16F]
      if c ≤ F.maxCode then ∃ m e, F.decode y = .fin neg m e ∧ (m : Rat) * 2 ^ e = F.magnitude c
      else if F.inf && c == (2 ^ F.eb - 1) * 2 ^ F.fb then F.decode y = .inf neg
      else F.decode y = .nan (ieee && !c.testBit (F.fb - 1))) ∧
    (∀ (rm : Rm) (r : Nat) (neg : Bool) (m : Nat) (e : Int), F.RoundsTo rm r neg (m * 2 ^ e) (F.ofVal rm r (.fin neg m e))) ∧
    ∀ (rm : Rm) (r : Nat),
      (∀ sig, F.ofVal rm r (.nan sig) = (F.nanCode, if sig || F ∈ [e2m3F, e3m2F, e2m1F] then flNV else 0)) ∧
      ∀ neg : Bool,
        let sign := if neg then 2 ^ (F.eb + F.fb) else 0
        F.ofVal rm r (.inf neg) =
          if F ∈ [e4m3F, e2m3F, e3m2F, e2m1F] then (sign + F.maxCode, flNV) else (sign + (2 ^ F.eb - 1) * 2 ^ F.fb, 0)

/-- The lane moves read the named position of the lane’s own group, the votes count the predicate in it (R55, R154,
R157, R158, R163). XSHFL, XROT and XBCAST, on the bits types, will give each active lane the operand of the position
its source names modulo the group size within its group, and 0 when that lane is not active. XBALLOT will put the
active lanes whose predicate is true into three scalars, XANY and XALL will tell each active lane whether some or
every active lane of its group holds it, XCOUNT how many do, and XFIRST the first position, or all ones. Each retires
at once with these results in its window; no flag is raised. -/
def Obligations.LaneMoveAndVoteResults : Prop :=

  ∀ (s : State) (d a b : Reg) (p q : PReg) (la : Fin 16), s.clearFor false →
    let G := s.warp.groupSize
    let act (l : Lane) : Bool := s.warp.guarded.getLsbD l.val
    let vote (l : Lane) : Bool := act l && (s.warp.p p).getLsbD l.val
    let group (l : Lane) : List Lane := (List.finRange 96).filter fun m => m.val / G == l.val / G
    (let t := s.warp.ty .b32
     let moves (i : Instr) (src : Lane → Nat) : Prop :=
       s.pends i la 0 fun w => w.setVNat d t.regs s.warp.guarded fun l =>
         let from_ : Lane := Fin.ofNat 96 (l.val - l.val % G + src l % G)
         if act from_ then s.warp.vNat a t.regs from_ else 0
     t.isBits = true → s.fits t [a, d] →
       (s.within [b] → moves (.xshfl d a b la) fun l => (s.warp.v b l).toNat) ∧
       moves (.xrot d a b la) (fun l => l.val % G + (s.warp.s b).toNat) ∧
       moves (.xbcast d a b la) (fun _ => (s.warp.s b).toNat)) ∧
    (∃ m : LaneMask, (∀ l : Lane, m.getLsbD l.val = vote l) ∧
      s.pends (.xballot d p la) la 0 fun w =>
        ((w.setS d (LaneMask.part m 0)).setS (d + 1) (LaneMask.part m 1)).setS (d + 2) (LaneMask.part m 2)) ∧
    (∃ m : LaneMask, (∀ l : Lane, m.getLsbD l.val = (group l).any vote) ∧
      s.pends (.xany q p la) la 0 fun w => w.setP q s.warp.guarded m) ∧
    (∃ m : LaneMask, (∀ l : Lane, m.getLsbD l.val = (group l).all fun k => vote k || !act k) ∧
      s.pends (.xall q p la) la 0 fun w => w.setP q s.warp.guarded m) ∧
    (s.within [d] →
      s.pends (.xcount d p la) la 0 (fun w => w.setV d s.warp.guarded fun l =>
        BitVec.ofNat 32 ((group l).filter vote).length) ∧
      s.pends (.xfirst d p la) la 0 (fun w => w.setV d s.warp.guarded fun l =>
        match (group l).find? vote with
        | some k => BitVec.ofNat 32 (k.val % G)
        | none => 0xFFFFFFFF#32))

/-- Reductions, scans and match forms combine the active lanes of each group in the balanced tree (R154, R157, R159,
R160, R161, R162, R164). XREDUCE, XSCANI and XSCANE, on the types their operation accepts, will give each active lane
the tree of its group over the active lanes, over those up to its own position, or over those before it (the
operation's empty value when none); XMADD, XMMIN, XMMAX and XMOR will give it the tree of d over the active lanes of
its group with the same a, and write the mask of each class's lowest lane to three scalars. The flags are those of
every tree, ORed. Each retires at once with its results in its window. The tree over n positions is its leaf for one,
and else the node of the trees of the lower floor(n / 2) and of the upper rest, an absent side passing the other
through; a node computes each element by its operation; the empty values are those of R161. -/
def Obligations.LaneCombineResults : Prop :=

  ∀ (s : State) (d a b : Reg) (op : XOp) (la : Fin 16), s.clearFor false →
    let G := s.warp.groupSize
    let act (l : Lane) : Bool := s.warp.guarded.getLsbD l.val
    let at_ (l : Lane) (j : Nat) : Lane := Fin.ofNat 96 (l.val - l.val % G + j)
    let flags (r : Lane → Nat × Nat) : Nat := (List.finRange 96).foldl (fun n l => n ||| if act l then (r l).2 else 0) 0
    (let t := s.warp.ty .i32
     let combines (i : Instr) (present : Nat → Nat → Bool) : Prop :=
       let r (l : Lane) : Nat × Nat := (tree (xNode op t s.warp.xRm) (fun j =>
         if act (at_ l j) && present j (l.val % G) then some (s.warp.vNat a t.regs (at_ l j), 0) else none) 7 0 G).getD
           (xEmpty op t, 0)
       s.pends i la (flags r) fun w => w.setVNat d t.regs s.warp.guarded fun l => (r l).1
     xAccepts op t = true → s.fits t [a, d] →
       combines (.xreduce d a op la) (fun _ _ => true) ∧ combines (.xscani d a op la) (fun j k => decide (j ≤ k)) ∧
       combines (.xscane d a op la) (fun j k => decide (j < k))) ∧
    (let matches_ (i : Instr) (t : Ty) (node : Nat × Nat → Nat × Nat → Nat × Nat) : Prop :=
       let same (l m : Lane) : Bool := act m && l.val / G == m.val / G && s.warp.v a l == s.warp.v a m
       let r (l : Lane) : Nat × Nat := (tree node (fun j =>
         if same l (at_ l j) then some (s.warp.vNat d t.regs (at_ l j), 0) else none) 7 0 G).getD (0, 0)
       s.fits t [d] → s.within [a] →
       ∃ lead : LaneMask, (∀ l : Lane, lead.getLsbD l.val =
           (act l && (List.finRange 96).all fun m => !(decide (m.val < l.val) && same l m))) ∧
         s.pends i la (flags r) fun w => (((w.setVNat d t.regs s.warp.guarded fun l => (r l).1).setS b (LaneMask.part lead 0)).setS
           (b + 1) (LaneMask.part lead 1)).setS (b + 2) (LaneMask.part lead 2)
     let t := s.warp.ty .i32
     (t.isInt || Ty.arith t) = true →
       matches_ (.xmadd d a b la) t (xNode .add t s.warp.xRm) ∧ matches_ (.xmmin d a b la) t (xNode .min t s.warp.xRm) ∧
       matches_ (.xmmax d a b la) t (xNode .max t s.warp.xRm)) ∧
    (let t := s.warp.ty .b32
     let same (l m : Lane) : Bool := act m && l.val / G == m.val / G && s.warp.v a l == s.warp.v a m
     let r (l : Lane) : Nat := ((tree (fun x y : Nat => x ||| y) (fun j =>
       if same l (at_ l j) then some (s.warp.vNat d t.regs (at_ l j)) else none) 7 0 G).getD 0)
     t.isBits = true → s.fits t [d] → s.within [a] →
       ∃ lead : LaneMask, (∀ l : Lane, lead.getLsbD l.val =
           (act l && (List.finRange 96).all fun m => !(decide (m.val < l.val) && same l m))) ∧
         s.pends (.xmor d a b la) la 0 fun w => (((w.setVNat d t.regs s.warp.guarded r).setS b (LaneMask.part lead 0)).setS
           (b + 1) (LaneMask.part lead 1)).setS (b + 2) (LaneMask.part lead 2)) ∧
    -- the tree
    (∀ (leaf : Nat → Option (Nat × Nat)) (node : Nat × Nat → Nat × Nat → Nat × Nat) (lo n : Nat), n ≤ 96 →
      let T := tree node leaf 7
      T lo n = if n ≤ 1 then leaf lo else match T lo (n / 2), T (lo + n / 2) (n - n / 2) with
        | some x, some y => some (node x y)
        | some x, none => some x
        | none, y => y) ∧
    -- its nodes
    (∀ (t : Ty) (rm : Rm) (x y : Nat × Nat), ∀ e < t.elems,
      let W := t.elemBits
      let F := tyFmt t
      let u := elemOf W e x.1
      let v := elemOf W e y.1
      let z (o : XOp) : Nat := elemOf W e (xNode o t rm x y).1
      let sum := FVal.add rm (F.decode u) (F.decode v)
      (t.isInt = true →
        z .add = Ty.wrap t (Ty.value t u + Ty.value t v) ∧ z .and = u &&& v ∧ z .or = u ||| v ∧ z .xor = u ^^^ v ∧
        z .min = (if Ty.value t u ≤ Ty.value t v then u else v) ∧ z .max = (if Ty.value t u < Ty.value t v then v else u) ∧
        ∀ o, (xNode o t rm x y).2 = x.2 ||| y.2) ∧
      (Ty.arith t = true →
        z .add = (F.ofVal rm 0 sum.1).1 % 2 ^ W ∧ z .min = (fMinMax F false false u v).1 % 2 ^ W ∧
        z .max = (fMinMax F true false u v).1 % 2 ^ W ∧
        (xNode .add t rm x y).2 = (List.range t.elems).foldl (fun n k =>
          let q := FVal.add rm (F.decode (elemOf W k x.1)) (F.decode (elemOf W k y.1))
          n ||| (F.ofVal rm 0 q.1).2 ||| q.2) (x.2 ||| y.2))) ∧
    -- the empty values
    (∀ (t : Ty), ∀ e < t.elems,
      let W := t.elemBits
      let z (o : XOp) : Nat := elemOf W e (xEmpty o t)
      (t.isInt = true → z .add = 0 ∧ z .or = 0 ∧ z .xor = 0 ∧ z .and = 2 ^ W - 1 ∧
        Ty.value t (z .min) = (if t.signed then (2 ^ (W - 1) : Int) - 1 else (2 ^ W : Int) - 1) ∧
        Ty.value t (z .max) = (if t.signed then -(2 ^ (W - 1) : Int) else 0)) ∧
      (Ty.arith t = true → z .add = 0 ∧ (tyFmt t).decode (z .min) = .inf false ∧ (tyFmt t).decode (z .max) = .inf true))

/-- Global loads leave what they read in their window, global stores write each active lane’s data, at aligned
addresses that translate (R219, R220, R222, R223, R224, R227, R247, log entry 8). With a bits clause type, fields that
fit it, nothing of the warp left to be performed and every address of the active lanes aligned, below 2^57 and
translating: LDG reads each lane's bytes at its place in ascending order of lanes and will write them, little-endian,
to the lanes' v[d]; STG writes each lane's v[d] at its place; LDGS and STGS do so once with scalars. An acquire
ordering takes effect after the reads, a release before the writes. The instruction retires at once with one long
instruction outstanding. The clauses on a step that leaves its accesses to be performed later, in which a load that
does not acquire holds its places and each write waits, are the model's choice (log entry 8). -/
def Obligations.GlobalLoadsAndStoresComplete : Prop :=

  ∀ (s : State) (d a b : Reg) (la : Fin 16), s.clearFor false → s.prompt →
    let t := s.warp.ty .b32
    let n := t.bytes
    let at_ (kind : AccessKind) (l : List (Option Lane × DWord)) : List PlacedLane :=
      (s.places kind l).1.map fun x => ⟨x.1, .global x.2.pa x.2.key, BitVec.ofNat 64 x.2.va⟩
    let loads (i : Instr) (scalar : Bool) (l : List (Option Lane × DWord)) (W : List (Option Lane × Nat) → Warp → Warp) : Prop :=
      s.reaches .load n l →
        let u := (s.places .load l).2
        let r := u.readEach n (at_ .load l)
        (s.slow = false ∨ s.warp.ord.acquires = true →
          ∃ (use : Use) (wb : List WriteBack), (∀ w : Warp, wb.foldl WriteBack.apply w = W r.1 w) ∧
            exec i s = .next (r.2.acquiring.after fun w => w.pushLong la.val use wb 0 none)) ∧
        (s.slow = true → s.warp.ord.acquires = false →
          ∃ use : Use, exec i s = .next (u.after fun w => w.pushLate la.val use (.load d t.regs n scalar (Scope.narrow w.scope)
            ((at_ .load l).zipIdx.map fun x => ⟨x.1.lane.getD 0, x.2, x.1.spot, x.1.va, []⟩))))
    let stores (i : Instr) (l : List (Option Lane × DWord)) (f : Option Lane → Nat) : Prop :=
      s.reaches .store n l →
        ∃ use : Use, exec i s = .next (((at_ .store l).foldl (fun s x => s.writeAt x (leBytes n (f x.lane)))
          (s.places .store l).2.releasing).after fun w => w.pushLong la.val use [] 0 none)
    let one : List (Option Lane × DWord) := [(none, s.warp.s64 b + (s.warp.s a).signExtend 64)]
    t.isBits = true →
      (s.fits t [d] → s.within [a] →
        loads (.ldg d a b la) false (s.globalAddrs a b)
          (fun vals w => w.setVNat d t.regs (LaneMask.ofFn fun l => vals.any fun x => x.1 == some l)
            fun l => ((vals.find? fun x => x.1 == some l).map (·.2)).getD 0) ∧
        stores (.stg d a b la) (s.globalAddrs a b) (fun l => s.warp.vNat d t.regs (l.getD 0))) ∧
      (d.val % t.regs = 0 →
        loads (.ldgs d a b la) true one (fun vals w => w.setSNat d t.regs ((vals.head?.map (·.2)).getD 0)) ∧
        stores (.stgs d a b la) one (fun _ => s.warp.sNat d t.regs))

/-- Buffer and handle loads and stores reach the bytes of their region at each active lane’s offset (R200, R201, R213,
R219, R220, R223, R224, R225, log entry 8). With a bits clause type, fields that fit it and nothing of the warp left
to be performed: where every offset passes the checks of a direct access, LDSB, LDAB and LDCB will write each active
lane's v[d] from its offset in SB, AB or CB of the own workgroup, and STSB, STAB and STCB write there in ascending
order of lanes; where every offset passes the checks of the held handle's region, LDH and STH do so at the region's
base in its home's buffer, and with no lane active they check no handle and move nothing. An acquire or a release
takes effect as for global accesses. Memory and the caches stay as they are under a relaxed ordering. The clauses on a
step that leaves its accesses to be performed later, in which a load holds its places and each write waits, are the
model's choice (log entry 8). -/
def Obligations.BufferAndHandleAccessesComplete : Prop :=

  ∀ (s : State) (d a b : Reg) (la : Fin 16), s.clearFor false → s.prompt →
    let t := s.warp.ty .b32
    let n := t.bytes
    let k := s.warp.key.wg
    -- the bytes of each lane at its offset of a buffer
    let loads (i : Instr) (home : WgKey) (buf : Buf) (l : List (Lane × Nat)) : Prop :=
      let vals := l.map fun x => (x.1, ofLeBytes (s.bufRead home buf x.2 n))
      (s.slow = false ∨ s.warp.ord.acquires = true →
        ∃ (u : Use) (wb : List WriteBack), (∀ w : Warp, wb.foldl WriteBack.apply w =
            w.setVNat d t.regs (LaneMask.ofFn fun l => vals.any fun x => x.1 == l)
              fun l => ((vals.find? fun x => x.1 == l).map (·.2)).getD 0) ∧
          exec i s = .next (s.acquiring.after fun w => w.pushLong la.val u wb 0 none)) ∧
      (s.slow = true → s.warp.ord.acquires = false →
        ∃ u : Use, exec i s = .next (s.after fun w => w.pushLate la.val u (.load d t.regs n false (Scope.narrow w.scope)
          (l.zipIdx.map fun x => ⟨x.1.1, x.2, .buffer home buf x.1.2, bufAddr buf false x.1.2, []⟩))))
    let stores (i : Instr) (home : WgKey) (buf : Buf) (l : List (Lane × Nat)) : Prop :=
      ∃ u : Use, exec i s = .next ((l.foldl (fun s' x =>
        s'.writeAt ⟨some x.1, .buffer home buf x.2, bufAddr buf false x.2⟩ (leBytes n (s.warp.vNat d t.regs x.1))) s.releasing).after fun w =>
          w.pushLong la.val u [] 0 none)
    let direct (buf : Buf) (i j : Instr) : Prop :=
      let l := (s.laneAddrs a b).map fun x => (x.1, x.2.toNat)
      s.bufCause buf n l = none → loads i k buf l ∧ stores j k buf l
    t.isBits = true → s.fits t [d] → s.within [a] →
      direct .sb (.ldsb d a b la) (.stsb d a b la) ∧ direct .ab (.ldab d a b la) (.stab d a b la) ∧
      direct .cb (.ldcb d a b la) (.stcb d a b la) ∧
      (let l := (LaneMask.lanes s.warp.guarded).map fun l =>
         (l, ((s.warp.s (b + 1)).setWidth 64 + (s.warp.v a l).signExtend 64 : DWord).toNat)
       (l = [] → loads (.ldh d a b la) k .sb [] ∧ stores (.sth d a b la) k .sb []) ∧
       ∀ home i, l ≠ [] → s.heldHandle k (s.warp.s b) = some (home, i) →
         let x := s.slotOf home i
         x.buf ≠ .wb → (∀ y ∈ l, y.2 + n ≤ x.size ∧ y.2 % n = 0) →
           let m := l.map fun y => (y.1, x.base + y.2)
           loads (.ldh d a b la) home x.buf m ∧ stores (.sth d a b la) home x.buf m)

/-- Global, buffer, handle and atomic accesses trap in the order of their checks, each naming its first faulting lane
(R179, R201, R202, R213, R214, R222, R225, R227, R231, R381). With traps not masked and nothing of the warp buffered,
parked or left to be performed: a global load, store or atomic whose active lanes hold a misaligned address enters
ALIGN with the first such address in lane order; with all aligned and one at or above 2^57, ACCESS with the first
such. A direct access to SB, AB or CB, and an atomic on SB, enters BUFSPACE with the first offset past the size; else
HANDLE with the first in a region that is lent; else ALIGN with the first misaligned one. LDH and STH enter HANDLE
with the value and the first lane's offset where the handle is not held, BUFSPACE over WB or past the region, else
ALIGN. An atomic on SB at a scope wider than core enters TYPE with its word. Nothing is read, written or translated
before. -/
def Obligations.AccessTrapsComeInOrder : Prop :=

  ∀ (s : State) (d a b : Reg) (la : Fin 16), s.warp.outstanding = [] → s.mayEnter → s.within [a] →
    let t := s.warp.ty .b32
    let k := s.warp.key.wg
    let addrs := (s.laneAddrs a b).map (·.2)
    let traps (is : List Instr) (c : Cause) (x : DWord) : Prop := ∀ i ∈ is, exec i s = .next (s.entered c x)
    -- an access of `n` bytes to global memory, and directly to a buffer
    let global (is : List Instr) (n : Nat) (l : List DWord) : Prop :=
      (∀ x, l.find? (fun y => y.toNat % n != 0) = some x → traps is .align x) ∧
      ((∀ y ∈ l, y.toNat % n = 0) → ∀ x, l.find? (fun y => decide (2 ^ 57 ≤ y.toNat)) = some x → traps is .access x)
    let direct (is : List Instr) (n : Nat) (buf : Buf) (l : List Nat) : Prop :=
      let past := l.find? fun o => decide (s.bufSize k buf < o + n)
      let lent := l.find? fun o => s.lentOut k buf o n
      (∀ o, past = some o → traps is .bufspace (bufAddr buf false o)) ∧
      (∀ o, past = none → lent = some o →
        traps is .handle (BitVec.ofNat 64 ((s.lendingHandle k buf o n).toNat + o % 2 ^ 32 * 2 ^ 32))) ∧
      (∀ o, past = none → lent = none → l.find? (fun o => o % n != 0) = some o → traps is .align (bufAddr buf false o))
    (s.gated false = false → t.isBits = true → d.val % t.regs = 0 →
      global [.ldgs d a b la, .stgs d a b la] t.bytes [s.warp.s64 b + (s.warp.s a).signExtend 64] ∧
      (d.val + t.regs ≤ s.warp.allot →
        let offs := addrs.map (·.toNat)
        global [.ldg d a b la, .stg d a b la] t.bytes addrs ∧
        direct [.ldsb d a b la, .stsb d a b la] t.bytes .sb offs ∧ direct [.ldab d a b la, .stab d a b la] t.bytes .ab offs ∧
        direct [.ldcb d a b la, .stcb d a b la] t.bytes .cb offs ∧
        (let is : List Instr := [.ldh d a b la, .sth d a b la]
         let h := s.warp.s b
         let l := (LaneMask.lanes s.warp.guarded).map fun l =>
           ((s.warp.s (b + 1)).setWidth 64 + (s.warp.v a l).signExtend 64 : DWord).toNat
         ∀ o os, l = o :: os →
           (s.heldHandle k h = none → traps is .handle (BitVec.ofNat 64 (h.toNat + o % 2 ^ 32 * 2 ^ 32))) ∧
           ∀ home i, s.heldHandle k h = some (home, i) →
             let x := s.slotOf home i
             (x.buf = .wb → traps is .bufspace (bufAddr .wb true o)) ∧
             (x.buf ≠ .wb → ∀ y, l.find? (fun y => decide (x.size < y + t.bytes)) = some y →
               traps is .bufspace (bufAddr x.buf true y)) ∧
             (x.buf ≠ .wb → (∀ y ∈ l, y + t.bytes ≤ x.size) → ∀ y, l.find? (fun y => y % t.bytes != 0) = some y →
               traps is .align (bufAddr x.buf true y))))) ∧
    (let atomic (i : Instr) (op : AOp) : Prop :=
       let t := s.warp.ty op.default
       let n := op.operandRegs t
       let inner := s.warp.scope = .thread ∨ s.warp.scope = .warp ∨ s.warp.scope = .group ∨ s.warp.scope = .core
       op.accepts t = true → d.val % n = 0 → d.val + n ≤ s.warp.allot →
         (b.val ≠ 0 → global [i] (4 * t.regs) addrs) ∧
         (b.val = 0 → inner → direct [i] (4 * t.regs) .sb ((LaneMask.lanes s.warp.guarded).map fun l => (s.warp.v a l).toNat)) ∧
         (b.val = 0 → ¬ inner → traps [i] .type ((wordOf i).setWidth 64))
     s.gated (la.val != 15) = false → s.warp.sp.done = 0 →
       atomic (.aadd d a b la) .add ∧ atomic (.amin d a b la) .min ∧ atomic (.amax d a b la) .max ∧
       atomic (.aand d a b la) .and ∧ atomic (.aor d a b la) .or ∧ atomic (.axor d a b la) .xor ∧
       atomic (.axchg d a b la) .xchg ∧ atomic (.acas d a b la) .cas ∧ atomic (.aincw d a b la) .incw ∧
       atomic (.afadd d a b la) .fadd ∧ atomic (.afmin d a b la) .fmin ∧ atomic (.afmax d a b la) .fmax)

/-- PREF only retires; CFLUSH writes back and CINV drops the cluster cache’s copies of the addressed lines (R228).
With a bits clause type and nothing of the warp left to be performed: PREF retires and changes nothing else; at
addresses that translate, CFLUSH writes back and CINV writes back and drops the cluster cache's bytes of each active
lane's 128-byte line, and at host, peer and system scope the L2's bytes of the line go to memory as well, dropped by
CINV. -/
def Obligations.CacheLineOperationsComplete : Prop :=

  ∀ (s : State) (l2 : Bool) (a b : Reg), s.clearFor false → s.prompt → (s.warp.ty .b32).isBits = true → s.within [a] →
    let far (x : State) : Bool := x.warp.scope == .host || x.warp.scope == .peer || x.warp.scope == .system
    let line (x : Xlat) (p : Nat) : Bool := p / 128 == x.pa / 128
    let toMemory (x : Xlat) (drop : Bool) (s : State) : State :=
      ((s.l2.map (·.addr)).filter (line x)).foldl (fun s p => s.l2Back p drop) s
    exec (.pref l2 a b) s = .next (s.after id) ∧
    (s.reaches .load 1 (s.globalAddrs a b) →
      let p := s.places .load (s.globalAddrs a b)
      exec (.cflush a b) s = .next ((p.1.foldl (fun s x =>
        let s := s.writeBackWhere s.cluster (line x.2)
        if far s then toMemory x.2 false s else s) p.2).after id) ∧
      exec (.cinv a b) s = .next ((p.1.foldl (fun s x =>
        let s := s.dropWhere s.cluster (line x.2)
        if far s then toMemory x.2 true s else s) p.2).after id))

/-- A written byte reads back and every other byte keeps its value, and the canonical form of memory is kept (R5, log
entry 3). For memory in its canonical form: after one byte is written the byte reads as written, every other address
as before, and the canonical form still holds; after bytes are written in a row each of them reads back, every address
outside them as before, and the form holds. A number written as little-endian bytes reads back as the number. The
canonical form is the model's own. -/
def Obligations.ByteMemoryReadAfterWrite : Prop :=

  ∀ (m : Memory), Memory.wf m = true → ∀ (a x : Nat) (v : Byte) (bs : List Byte) (n k : Nat),
    (cellGet (cellSet m a v) a = v ∧ (x ≠ a → cellGet (cellSet m a v) x = cellGet m x) ∧
      Memory.wf (cellSet m a v) = true) ∧
    ((∀ i, (h : i < bs.length) → cellGet (cellsSet m a bs) (a + i) = bs[i]) ∧
      (x < a ∨ a + bs.length ≤ x → cellGet (cellsSet m a bs) x = cellGet m x) ∧
      Memory.wf (cellsSet m a bs) = true) ∧
    ofLeBytes (leBytes n k) = k % 2 ^ (8 * n)

/-- A write at a narrow scope stays in the cluster cache, a write at device scope reaches its byte and no other (R243,
R244, log entry 8). A cacheable byte that a load-store unit writes at a scope up to cluster is read back there, and
changes no other byte of that cache, no other cache and neither the L2 nor memory. A byte written at a wider scope,
with no context checkpointed, no copy in the cluster cache and under the key its line has, is what the home slice then
holds, and every other address holds what it held. A place of an access is written so at once; that it waits, in order
and with its scope and clock, where the step leaves its accesses to be performed later, is the model's choice (log
entry 8). -/
def Obligations.CachedWritesFrame : Prop :=

  ∀ (s : State) (w : Writer) (cl pa x : Nat) (v : Byte),
    (s.cacheable pa = true → let t := s.lsWriteByte w cl true pa v
     (t.lsReadByte w cl true pa).1 = v ∧ t.mem = s.mem ∧ t.l2 = s.l2 ∧ t.groups = s.groups ∧ t.warp = s.warp ∧
     (x ≠ pa → cacheGet (t.cacheOf cl) x = cacheGet (s.cacheOf cl) x) ∧
     ∀ c, c ≠ cl → t.cacheOf c = s.cacheOf c) ∧
    (Memory.wf s.mem = true → s.place pa = .local → (∀ c ∈ s.contexts, c.interval = 0) →
     cacheGet (s.cacheOf cl) pa = none → s.lineKey pa = w.key →
     let t := s.lsWriteByte w cl false pa v
     t.storedByte pa = v ∧ (x ≠ pa → t.storedByte x = s.storedByte x) ∧ t.caches = s.caches ∧ t.groups = s.groups) ∧
    (∀ (p : PlacedLane) (bs : List Byte),
      (s.slow = true → s.writeAt p bs = { s with late := s.late ++ [⟨some s.warp.key, s.warp.key.wg, s.cluster,
        Scope.narrow s.warp.scope, p.spot, bs, if s.det then some s.warp.clock.toNat else none, p.lane, p.va, none, false⟩] }) ∧
      (s.slow = false → s.writeAt p bs = match p.spot with
        | .global pa key => s.lsWrite { s.writer none with key := key } s.cluster (Scope.narrow s.warp.scope) pa bs
        | .buffer g b o => s.bufWrite g b o bs))

/-- Each atomic form leaves in memory the value its rule gives: sums wrapped, the smaller or larger by type,
increments that wrap at v (R112, R230). With old value m and operand v of the type's width: AADD leaves Wrap(Val(m) +
Val(v)), AMIN and AMAX the smaller and the larger by Val, AINCW 0 when m is at least v unsigned and else m + 1, AAND,
AOR and AXOR the bitwise results, AXCHG v, ACAS v when m equals the comparand and else m; AFADD leaves RoundTo(m + v)
by RNE with R136's special cases, AFMIN and AFMAX the results of R137, per element. The types are those of R230's
table. -/
def Obligations.AtomicOperationsApply : Prop :=

  ∀ (t : Ty) (m v c : Nat), m < 2 ^ (32 * t.regs) → v < 2 ^ (32 * t.regs) →
    let F := tyFmt t
    let el (x e : Nat) : Nat := elemOf t.elemBits e x
    (AOp.accepts .add t = true →
      AOp.apply .add t m v c = Ty.wrap t (Ty.value t m + Ty.value t v) ∧
      AOp.apply .min t m v c ∈ [m, v] ∧ Ty.value t (AOp.apply .min t m v c) = min (Ty.value t m) (Ty.value t v) ∧
      AOp.apply .max t m v c ∈ [m, v] ∧ Ty.value t (AOp.apply .max t m v c) = max (Ty.value t m) (Ty.value t v) ∧
      AOp.apply .incw t m v c = if v ≤ m then 0 else m + 1) ∧
    (AOp.accepts .and t = true →
      AOp.apply .and t m v c = m &&& v ∧ AOp.apply .or t m v c = m ||| v ∧ AOp.apply .xor t m v c = m ^^^ v ∧
      AOp.apply .xchg t m v c = v ∧ AOp.apply .cas t m v c = if m = c then v else m) ∧
    (AOp.accepts .fadd t = true →
      ∀ e < t.elems,
        el (AOp.apply .fadd t m v c) e =
          (F.ofVal .rne 0 (FVal.add .rne (F.decode (el m e)) (F.decode (el v e))).1).1 % 2 ^ t.elemBits ∧
        el (AOp.apply .fmin t m v c) e = (fMinMax F false true (el m e) (el v e)).1 % 2 ^ t.elemBits ∧
        el (AOp.apply .fmax t m v c) e = (fMinMax F true true (el m e) (el v e)).1 % 2 ^ t.elemBits)

/-- Lanes of one atomic that name one address follow one another in lane order, and each SB atomic reads, changes and
leaves one word whole (R230, R231, R232, R234). For lanes in ascending order, the order in which an atomic performs
them holds exactly the same lanes, the lanes of any one address in ascending order and side by side. Each atomic of n
bytes at an offset of SB of a workgroup that exists, its cells in canonical form, returns the little-endian number
those bytes held and leaves there the form's result modulo 2^(8n), which the next one at the same offset returns;
every other byte of SB, every other buffer, memory, the caches and the warps are unchanged. On pairs of 16-bit floats,
the halves done one after the other, in either order, leave what both at once leave. -/
def Obligations.AtomicsOnOneWordStayTogether : Prop :=

  (∀ l : List AtomicLane, l.Pairwise (fun x y => x.lane.val < y.lane.val) →
    (∀ x, x ∈ mergeGroups l ↔ x ∈ l) ∧
    (∀ va, (mergeGroups l).filter (fun x => x.va == va) = l.filter (fun x => x.va == va)) ∧
    ∃ gs : List (List AtomicLane), mergeGroups l = gs.flatten ∧
      (∀ g ∈ gs, ∃ va, g = l.filter (fun x => x.va == va)) ∧
      gs.Pairwise fun g h => ∀ x ∈ g, ∀ y ∈ h, x.va ≠ y.va) ∧
  ∀ (s : State) (w : Writer) (cl : Nat) (place : AtomicPlace) (k : WgKey) (g : Workgroup) (op : AOp) (t : Ty) (o v c v' c' : Nat),
    s.group? k = some g → Memory.wf (g.bufs[(0 : Fin 4)]).cells = true →
    let n := 4 * t.regs
    let old := ofLeBytes (cellsGet (g.bufs[(0 : Fin 4)]).cells o n)
    let new := AOp.apply op t old v c % 2 ^ (8 * n)
    let (m, u) := s.atomicAt w cl place op t .both (.buffer k .sb o) v c
    m = old ∧ u.mem = s.mem ∧ u.caches = s.caches ∧ u.l2 = s.l2 ∧ u.warp = s.warp ∧ u.others = s.others ∧
    (∃ h, u.group? k = some h ∧ ofLeBytes (cellsGet (h.bufs[(0 : Fin 4)]).cells o n) = new ∧
      (∀ a, a < o ∨ o + n ≤ a → cellGet (h.bufs[(0 : Fin 4)]).cells a = cellGet (g.bufs[(0 : Fin 4)]).cells a) ∧
      (∀ b : Fin 4, b ≠ 0 → h.bufs[b] = g.bufs[b]) ∧ h.handles = g.handles) ∧
    (u.atomicAt w cl place op t .both (.buffer k .sb o) v' c').1 = new ∧
    ∀ x y z : Nat, x < 2 ^ 32 → pairsOfHalves op t = true →
      AOp.applyHalves op t .high (AOp.applyHalves op t .low x y z) y z = AOp.apply op t x y z ∧
      AOp.applyHalves op t .low (AOp.applyHalves op t .high x y z) y z = AOp.apply op t x y z

/-- A returning atomic performs its lanes and returns the old values at completion; a reduction is buffered and writes
no register (R220, R224, R226, R230, R231, R232, R235, R247, log entry 8). With a clause type the form accepts, fields
that fit it and nothing of the warp left to be performed: on global addresses that are aligned, below 2^57 and
translate, or on SB offsets that pass the checks of a direct access at a scope within the core, each of the twelve
forms applies its active lanes that are not done yet, merge group by merge group, at the place its scope names and
retires with one long instruction outstanding, which will write each lane's old value to v[d]. With x = 15 it retires
with its lanes buffered as reductions and no register written. A release takes effect before the operation, an acquire
of the returning form after it. That outside deterministic mode the step may leave a returning form's lanes to be
performed later, its acquire with them, is the model's choice (log entry 8): the instruction then holds them. A type
that the form does not accept, or SB at a scope wider than core, enters TYPE. -/
def Obligations.AtomicsComplete : Prop :=

  ∀ (s : State) (d a b : Reg) (la : Fin 16), s.clearFor (la.val != 15) → s.prompt → s.within [a] →
    let active := LaneMask.lanes (s.warp.guarded &&& ~~~s.warp.sp.done)
    let addrs : List (Lane × DWord) := active.map fun l => (l, s.warp.s64 b + (s.warp.v a l).signExtend 64)
    let inCore : Prop := s.warp.scope = .thread ∨ s.warp.scope = .warp ∨ s.warp.scope = .group ∨ s.warp.scope = .core
    let runs (i : Instr) (op : AOp) : Prop :=
      let t := s.warp.ty op.default
      let n := op.operandRegs t
      let does (sb : Bool) (u : State) (l : List AtomicLane) : Prop :=
        let v := u.releasing
        let lanes := v.warp.atomicLanes op t sb d (mergeGroups l)
        (la.val = 15 → exec i s = .next (v.after fun w => w.bufferLanes op t sb d (mergeGroups l))) ∧
        (la.val ≠ 15 → s.slow = false ∨ s.det = true →
          let r := v.applyLanes (v.writer none) v.cluster (Scope.atomicPlace v.warp.scope) op t .both lanes
          let vals := (lanes.map (·.lane)).zip r.1
          ∃ (use : Use) (wb : List WriteBack),
            (∀ w : Warp, wb.foldl WriteBack.apply w =
              w.setVNat d t.regs (LaneMask.ofFn fun l => vals.any fun x => x.1 == l)
                fun l => ((vals.find? fun x => x.1 == l).map (·.2)).getD 0) ∧
            exec i s = .next (r.2.acquiring.after fun w => w.pushLong la.val use wb 0 none)) ∧
        (la.val ≠ 15 → s.slow = true → s.det = false →
          ∃ use : Use, exec i s = .next (v.after fun w =>
            w.pushLate la.val use (.atomic d op.opcode t v.warp.scope v.warp.ord.acquires lanes none)))
      d.val + n ≤ s.warp.allot →
        (op.accepts t = true → d.val % n = 0 → b.val ≠ 0 → s.reaches .atomic (4 * t.regs) addrs →
          does false (s.translateEach .atomic addrs).2
            ((s.translateEach .atomic addrs).1.filterMap fun x => match x.2.2 with
              | .ok p => some ⟨x.1, x.2.1, p.pa, p.key, p.page⟩
              | .error _ => none)) ∧
        (op.accepts t = true → d.val % n = 0 → b.val = 0 → inCore →
          let l := active.map fun l => (l, (s.warp.v a l).toNat)
          s.bufCause .sb (4 * t.regs) l = none →
            does true s (l.map fun x => ⟨x.1, BitVec.ofNat 64 x.2, x.2, none, 0⟩)) ∧
        (op.accepts t = false ∨ (d.val % n = 0 ∧ b.val = 0 ∧ ¬inCore) → s.mayEnter →
          exec i s = .next (s.entered .type (BitVec.setWidth 64 (wordOf i))))
    runs (.aadd d a b la) .add ∧ runs (.amin d a b la) .min ∧ runs (.amax d a b la) .max ∧ runs (.aand d a b la) .and ∧
    runs (.aor d a b la) .or ∧ runs (.axor d a b la) .xor ∧ runs (.axchg d a b la) .xchg ∧ runs (.acas d a b la) .cas ∧
    runs (.aincw d a b la) .incw ∧ runs (.afadd d a b la) .fadd ∧ runs (.afmin d a b la) .fmin ∧ runs (.afmax d a b la) .fmax

/-- WAITCMP completes when its first check satisfies every lane, waits else, and a re-check that satisfies the rest
completes it (R237, R239, R240, R438). With type b32 or b64, fields that fit, nothing of the warp left to be performed
and addresses that translate: WAITCMP checks each distinct address in turn; when no lane is left it retires, with the
acquire part of its ordering, writing no register; else it waits with the lanes left, having armed a monitor. A re-
check of a waiting split that leaves no lane retires it; with lanes left it waits on; where its read would meet a
poisoned line or a link that is down the instruction executes afresh. A lane is satisfied by its condition on the
value read, unsigned or signed as its code says. WAITCMP_RECHECK after a fired monitor and MONITOR_REPOLL of a polled
one make that re-check, in deterministic mode while the warp holds the minimum or all are blocked, then plant again
what is due. -/
def Obligations.WaitcmpCompletesWhenSatisfied : Prop :=

  ∀ (s : State) (d a b : Reg) (c : WCond) (l0 : Lane) (ls : List Lane) (k : WarpKey) (sp : Fin 4),
    let t := s.warp.ty .b32
    let n := 4 * t.regs
    (s.clearFor true → s.prompt → t = .b32 ∨ t = .b64 → s.fits t [d] → s.within [a] → b.val ≠ 0 →
      LaneMask.lanes s.warp.guarded = l0 :: ls → s.reaches .load n (s.globalAddrs a b) →
      let p := s.places .load (s.globalAddrs a b)
      let r := p.2.noMonitors.checkLanes c n (p.1.filterMap fun x => x.1.map fun y =>
        ⟨y, x.2.va, x.2.pa, x.2.key, x.2.page, s.warp.vNat d t.regs y⟩)
      (r.1 = [] → exec (.waitcmp d a b c) s = .next (r.2.acquiring.after id)) ∧
      (r.1 ≠ [] → exec (.waitcmp d a b c) s = .next (r.2.setWait (.waitcmp c n r.1)))) ∧
    (∀ (m x : Nat), m < 2 ^ (8 * n) → x < 2 ^ (8 * n) →
      WCond.holds .eq n m x = decide (m = x) ∧ WCond.holds .ne n m x = decide (m ≠ x) ∧
      WCond.holds .geu n m x = decide (x ≤ m) ∧ WCond.holds .ltu n m x = decide (m < x) ∧
      WCond.holds .ges n m x = decide ((BitVec.ofNat (8 * n) x).toInt ≤ (BitVec.ofNat (8 * n) m).toInt) ∧
      WCond.holds .lts n m x = decide ((BitVec.ofNat (8 * n) m).toInt < (BitVec.ofNat (8 * n) x).toInt)) ∧
    (∀ l, s.warp.sp.wait = .waitcmp c n l →
      let due := (s.monitors.filter fun m => m.warp == s.warp.key && m.split == s.warp.cur && (m.fired || m.poll)).map (·.addr)
      let meets (pa : Nat) : Bool := (s.spotFault (.global pa none) true).isSome
      let r := due.foldl (fun x pa => x.2.checkAddr c n x.1 pa) (l, s)
      s.recheck.2 =
        if due.any meets then s.setWait .ready
        else if r.1 = [] then r.2.acquiring.modWarp fun w => w.completeWait w.cur none id
        else r.2.setWait (.waitcmp c n r.1)) ∧
    (s.mayRecheck k = true →
      ((∃ m ∈ s.monitors, m.warp = k ∧ m.split = sp ∧ m.fired = true) →
        exec (.waitcmpRecheck k sp) s = .next (s.inSplit k sp fun u => u.recheck.2).plantDue) ∧
      ((∃ m ∈ s.monitors, m.warp = k ∧ m.split = sp ∧ m.poll = true) →
        exec (.monitorRepoll k sp) s = .next (s.inSplit k sp fun u => u.recheck.2).plantDue))

/-- An arrival adds the threads that are not yet in the arrival set, keeps the first arrival’s count, and an exit
takes its threads out (R337, R339). An arrival at a barrier leaves in its arrival set the threads that were there and
those that arrive, each once; the first arrival of a phase sets its BARCOUNT, which later ones keep; E is the live
threads for a first BARCOUNT of 0 and else BARCOUNT[13:0]; threads that exit leave the set with the clocks they
arrived at, and with none left the phase stands as though none had come. The phase is complete when the set holds at
least E threads and is not empty. -/
def Obligations.BarrierArrivalsCountDistinctThreads : Prop :=

  ∀ (b : Barrier) (ids gone : List Nat) (bc : Word) (clk live : Nat), b.threads.Nodup → ids.Nodup →
    let u := b.arrive ids bc clk
    (∀ t, t ∈ u.threads ↔ t ∈ b.threads ∨ t ∈ ids) ∧ u.threads.Nodup ∧ u.phase = b.phase ∧
    (∀ x, x ∈ u.arrived ↔ x ∈ b.arrived ∨ (x.1 ∈ ids ∧ x.1 ∉ b.threads ∧ x.2 = clk)) ∧
    (b.arrived = [] → u.first = some bc) ∧ (b.arrived ≠ [] → u.first = b.first) ∧
    (b.first = some bc → b.expected live = if bc = 0 then live else (bc &&& 0x3FFF#32).toNat) ∧
    (∀ x, x ∈ (b.without gone).arrived ↔ x ∈ b.arrived ∧ x.1 ∉ gone) ∧
    ((b.without gone).arrived = [] → (b.without gone).first = none) ∧
    ((b.without gone).arrived ≠ [] → (b.without gone).first = b.first) ∧
    (b.complete live = true ↔ b.arrived ≠ [] ∧ b.expected live ≤ b.arrived.length)

/-- BAR and CBAR arrive and wait until the phase completes; the last arrival releases every waiter; BARARR goes on;
BARWAIT waits for its own (R338, R340). With nothing of the warp left to be performed: BAR n and CBAR add the split's
members to the arrival set; when the set then holds E threads, the phase ends: the barrier is emptied with its phase
count one higher, and the arriving split and every split blocked in this phase retire their instruction; else the
split is blocked for the phase. BARARR n arrives, tests and goes on. BARWAIT n is blocked when a member of the split
is in the arrival set, else completes at once. Registers and memory are unchanged. -/
def Obligations.BarriersCompleteOrWait : Prop :=

  ∀ (s : State) (p : Split) (n : Fin 16), s.clearFor false → s.prompt → s.warp.live = true →
    s.warp.splits[s.warp.cur] = some p → p.member ≠ 0 →
    let k := s.warp.key.wg
    let stays (i : Instr) (n : Nat) : Prop :=
      let u := s.arrive n
      let b := u.barrier k n
      let waker := if s.det then some b.clock else none
      (b.complete (u.scopeLive k n) = false → exec i s = .next (u.setWait (.barrier n b.phase))) ∧
      (b.complete (u.scopeLive k n) = true → ∃ t, exec i s = .next t ∧
        t.barrier k n = ⟨[], b.phase + 1, none⟩ ∧
        t.warp.splits[s.warp.cur] = some p.advance ∧ t.warp.cur = s.warp.cur ∧
        t.others = s.others.map (fun w => if w.live && (s.barrierScope k n).contains w.key.wg then
          w.completeWaits (fun x => x == .barrier n b.phase) waker id else w) ∧
        t.warp.sregs = s.warp.sregs ∧ t.warp.vregs = s.warp.vregs ∧ t.warp.preds = s.warp.preds ∧ t.mem = s.mem ∧
        t.caches = u.caches)
    let waits (n : Nat) : Prop := ∃ l ∈ LaneMask.lanes p.member, s.arrivalOf n l ∈ (s.barrier k n).threads
    ((s.group? k).isSome = true →
      stays (.bar n) n.val ∧
      exec (.bararr n) s = .next (((s.arrive n.val).testBarrier k n.val 0).after id)) ∧
    ((s.launch k.launch).isSome = true → s.hdr.clsize ≠ 0 → stays .cbar 16) ∧
    (waits n.val → exec (.barwait n) s = .next (s.setWait (.barrier n.val (s.barrier k n.val).phase))) ∧
    (¬ waits n.val → exec (.barwait n) s = .next (s.after id))

/-- TKWAIT answers POISON, PASSED or TURN or waits; TKPASS makes the pass only at the turn, and the poisoning form
poisons (R342, R343, R344, R255). With no reduction buffered and W the workgroup's WGLIN: at or above the header's
count both answer NOSEQ; on a poisoned sequence POISON. TKWAIT then answers PASSED above W, TURN at W with an acquire
at device scope, and waits below. TKPASS answers NOTURN while V(k) is below W and PASSED above; at W it releases at
device scope, sets V(k) to W + 1 and past every deferred pass that is then due, or sets the poison flag in the
poisoning form, serves the waiters and answers TURN. A refused pass changes nothing but s[d]. -/
def Obligations.TicketWaitsAndPasses : Prop :=

  ∀ (s : State) (d : Reg) (k : Fin 4), s.clearFor true → s.warp.reds = [] →
    let key := s.warp.key
    let t := s.ticket key.launch k
    let W := key.wglin
    let both (v : Word) : Prop := s.writesS (.tkpass d k) d v ∧ s.writesS (.tkpassPoison d k) d v
    let u := s.releaseAt .device
    let passed := (u.setTicket key.launch k (t.pass W)).modWg fun g => { g with passed := g.passed ||| (1#4 <<< k.val) }
    let poisoned := u.setTicket key.launch k { t with poisoned := true }
    (s.hdr.tickets ≤ k.val → s.writesS (.tkwait d k) d 2 ∧ both 2) ∧
    (k.val < s.hdr.tickets → t.poisoned = true → s.writesS (.tkwait d k) d 1 ∧ both 1) ∧
    (k.val < s.hdr.tickets → t.poisoned = false →
      (W < t.value → s.writesS (.tkwait d k) d 4 ∧ both 4) ∧
      (t.value = W → exec (.tkwait d k) s = .next ((s.acquireAt .device).after fun w => w.setS d 0) ∧
        exec (.tkpass d k) s = .next ((passed.serveTickets key.launch k passed.wakeClock).after fun w => w.setS d 0) ∧
        exec (.tkpassPoison d k) s = .next ((poisoned.serveTickets key.launch k poisoned.wakeClock).after fun w => w.setS d 0)) ∧
      (t.value < W → exec (.tkwait d k) s = .next (s.setWait (.ticket d k)) ∧ both 3)) ∧
    (let x := t.pass W
     W + 1 ≤ x.value ∧ x.value ∉ x.deferred ∧ (∀ y, W + 1 ≤ y → y < x.value → y ∈ t.deferred) ∧
     ∀ y, y ∈ x.deferred ↔ y ∈ t.deferred ∧ (y < W + 1 ∨ x.value < y))

/-- FENCE performs its before set at the clause’s scope and takes its after set; with a lock lost it traps LOCKLOST
(R247, R251, R252, R253, R273). With nothing of the warp left to be performed and no lock lost, FENCE with LS in its
before set releases at Scope(); with another path in it performs what the workgroup's commands have written and leaves
no copy in the cluster cache; with another path in its after set it writes the cluster cache back, with LS in it it
acquires at Scope(); it retires, writing no register. With a revocation standing, once a trap may enter it raises
LOCKLOST with the lost name and clears the revocation; with traps masked it sets LKLAST to LOST, clears the revocation
and orders as before. Between LS and LS at scopes up to cluster it moves no byte: only what the warp has stored in its
cluster cache is marked as released. -/
def Obligations.FenceOrdersAndDeliversLocklost : Prop :=

  ∀ (s : State) (p q : BitVec 6), s.clearFor false → s.prompt →
    let orders (x : State) : State :=
      let x := if p.getLsbD 0 then x.releaseAt s.warp.scope else x
      let x := if p &&& 0x3E#6 ≠ 0 then (x.performEngines s.warp.key.wg).dropWhere s.cluster (fun _ => true) else x
      let x := if q &&& 0x3E#6 ≠ 0 then x.writeBackWhere s.cluster (fun _ => true) else x
      if q.getLsbD 0 then x.acquireAt s.warp.scope else x
    let clear (x : State) : State := x.modWarp fun w => { w with revoked := none }
    (s.warp.revoked = none → exec (.fence p q) s = .next ((orders s).after id)) ∧
    (∀ n, s.warp.revoked = some n → s.mayEnter →
      exec (.fence p q) s = .next ((clear s).entered .locklost n)) ∧
    (∀ n, s.warp.revoked = some n → s.warp.trapmask = true →
      exec (.fence p q) s = .next ((orders ((clear s).modWarp fun w => { w with lklast := 4 })).after id)) ∧
    (s.warp.scope = .thread ∨ s.warp.scope = .warp ∨ s.warp.scope = .group ∨ s.warp.scope = .core ∨ s.warp.scope = .cluster →
      p &&& 0x3E#6 = 0 → q &&& 0x3E#6 = 0 → orders s = (if p.getLsbD 0 then s.giveOwn else s) ∧
        s.giveOwn.mem = s.mem ∧ s.giveOwn.l2 = s.l2 ∧ ∀ c a, (cacheGet (s.giveOwn.cacheOf c) a).map (fun x => (x.val, x.dirty)) =
          (cacheGet (s.cacheOf c) a).map fun x => (x.val, x.dirty))

/-- LKACQ, LKTRY and LKUP are granted when compatible with every other holder; else LKTRY answers BUSY or FULL and the
others wait (R264, R265, R266, R267, R269, R270, R271, R275, R276, R277, R278, R285). In a context that is not dead
and where nothing waits, on a well-formed name with the parent rule met and no lock lost: for a name the warp does not
hold, with a free entry at its home and the mode compatible by the domain's matrix with every holding of another warp,
LKACQ and LKTRY add the holding and answer GRANTED in s[d] and LKLAST; for an incompatible one LKTRY answers BUSY and
changes nothing else, and LKACQ waits in the queue, nothing granted; without a free entry LKTRY answers FULL and LKACQ
waits for one. LKUP replaces the held mode by a compatible target of its row, else waits with the old mode held. A
wait in the queue wounds every younger warp that holds the object in an incompatible mode, is not wounded yet and
waits in no lock instruction: its wound names the object, with the grace of its launch from now, or in deterministic
mode from a delivery point, a multiple of Q at least two quanta after the waiter's clock. Every other warp is as it
was. A breach raises LOCKPROTO with the name. -/
def Obligations.LockRequestsAreGrantedOrWait : Prop :=

  ∀ (s : State) (c : Context) (d a : Reg) (m : LkMode), s.clearFor true → s.warp.revoked = none → s.warp.live = true →
    s.warp.splits[s.warp.cur].isSome = true → s.warp.inLockWait = false → s.context s.warp.key.ctx = some c → c.waiting = [] →
    c.answered = [] → c.dead = false →
    let n := s.warp.s64 a
    let key := s.warp.key
    -- another warp's holding on the object forbids the mode
    let clash : Prop := ∃ h ∈ c.holdings, h.name = n ∧ h.warp ≠ key ∧ c.compatible n h.mode m = false
    let granted (i : Instr) (hs : List Holding) : Prop := ∃ t c', exec i s = .next t ∧ t.context key.ctx = some c' ∧
      c'.holdings = hs ∧ c'.waiting = [] ∧ t.warp.s d = 0 ∧ t.warp.lklast = 0 ∧
      t.warp.sp.pc = s.warp.sp.pc + 4#57 ∧ t.warp.sp.wait = .ready ∧ t.warp.vregs = s.warp.vregs ∧
      t.warp.preds = s.warp.preds ∧ (∀ r, r ≠ d → t.warp.s r = s.warp.s r)
    -- a younger warp `k` that holds the object in an incompatible mode, and the wound it gets
    let victim (k : WarpKey) : Prop := older key k = true ∧ ∃ h ∈ c.holdings, h.name = n ∧ h.warp = k ∧ c.compatible n h.mode m = false
    let wound (k : WarpKey) : Wound :=
      let h := s.hdrOf k.launch
      let q := 2 ^ h.q
      let p := (s.warp.clock.toNat + 2 * q + q - 1) / q * q
      if h.det then ⟨n, p + h.grace, some p, false, true⟩ else ⟨n, s.now + h.grace, none, true, true⟩
    let waits (i : Instr) (up entry : Bool) : Prop := ∃ t c', exec i s = .next t ∧ t.context key.ctx = some c' ∧
      c'.holdings = c.holdings ∧ c'.waiting = [⟨n, key, m, up, entry⟩] ∧ t.warp.sp.wait = .lock (some d) n m up ∧
      t.warp.sp.pc = s.warp.sp.pc ∧ t.warp.sregs = s.warp.sregs ∧
      ∀ k w, k ≠ key → s.warpAt k = some w → w.inLockWait = false →
        (entry = true → victim k → w.wound = none → t.warpAt k = some { w with wound := some (wound k) }) ∧
        (entry = false ∨ ¬ victim k ∨ w.wound ≠ none → t.warpAt k = some w)
    let answers (i : Instr) (v : Word) : Prop := exec i s = .next (s.after fun w => { (w.setS d v) with lklast := v })
    let proto (i : Instr) : Prop := s.mayEnter → exec i s = .next (s.entered .lockproto n)
    let bad : Prop := c.lkMalformed s.hdr.domCount n = true ∨ c.parentOk key n m = false
    (¬ bad → m ≠ .nl → c.heldBy key n = none →
      (s.entryFree n = true → ¬ clash →
        granted (.lkacq d a m) (c.holdings ++ [⟨n, key, m⟩]) ∧ granted (.lktry d a m) (c.holdings ++ [⟨n, key, m⟩])) ∧
      (s.entryFree n = true → clash → waits (.lkacq d a m) false true ∧ answers (.lktry d a m) 1) ∧
      (s.entryFree n = false → waits (.lkacq d a m) false false ∧ answers (.lktry d a m) 2)) ∧
    (∀ h, ¬ bad → c.heldBy key n = some h → LkMode.mayUp h m = true →
      (¬ clash → granted (.lkup d a m)
        (c.holdings.map fun x => if x.name == n && x.warp == key then { x with mode := m } else x)) ∧
      (clash → waits (.lkup d a m) true true)) ∧
    (bad ∨ m = .nl ∨ (c.heldBy key n).isSome = true → proto (.lkacq d a m) ∧ proto (.lktry d a m)) ∧
    (bad ∨ (∀ h, c.heldBy key n = some h → LkMode.mayUp h m = false) → proto (.lkup d a m))

/-- LKDOWN and LKREL change or give up a holding, LKSTAT reports, LKTAB loads a matrix; scans grant waiters, wounds
end waits or trap, revocation takes all (R269, R270, R271, R272, R273, R275, R278, R279, R280, R281). In a context
where nothing waits, with nothing of the warp left to be performed and no lock lost: LKDOWN replaces the held mode by
a target of its row that every child the warp holds allows; LKREL removes a holding that has no child; both answer
GRANTED. LKSTAT writes the report of its table and GRANTED to LKLAST, and changes nothing else. LKTAB answers INUSE
for a domain with a holder or waiter, else loads the matrix. A revocation whose deadline has passed, in a context that
runs, removes every holding of the warp, clears its wound and marks it revoked. A revoked warp's next lock form but
LKSTAT raises LOCKLOST, or with traps masked answers LOST. With others waiting: an object's queue is its escalations,
the oldest first (where launch serials compare as numbers), then the ordinary requests as they arrived; an entry is
grantable when its mode is compatible with every other warp's holding and with every older entry ahead of it. LKREL of
a name for which one grantable ordinary request waits grants it at once: the waiter's instruction retires with
GRANTED. A wound that meets a warp waiting in LKACQ or LKUP ends the wait WOUNDED with its request gone, the holdings
unchanged and no WOUND to come. A wound that is due enters WOUND at the boundary: TRAPCAUSE 0x0B, TRAPPC the next
instruction, TRAPADDR the object. -/
def Obligations.LockReleasesReportsAndRevocation : Prop :=

  ∀ (s : State) (c : Context) (d a : Reg) (m : LkMode), s.clearFor true → s.warp.live = true → s.prompt →
    s.context s.warp.key.ctx = some c → c.dead = false → (∀ h ∈ c.holdings, h.mode ≠ .nl) →
    let n := s.warp.s64 a
    let key := s.warp.key
    let v := s.warp.s64 a
    let dom := v.toNat / 2 ^ 52
    let status (x : Word) (w : Warp) : Warp := { (w.setS d x) with lklast := x }
    let granted (i : Instr) (hs : List Holding) : Prop := ∃ t c', exec i s = .next t ∧ t.context key.ctx = some c' ∧
      c'.holdings = hs ∧ c'.waiting = [] ∧ t.warp.s d = 0 ∧ t.warp.lklast = 0 ∧ t.warp.sp.pc = s.warp.sp.pc + 4#57 ∧
      t.warp.vregs = s.warp.vregs ∧ t.warp.preds = s.warp.preds ∧ (∀ r, r ≠ d → t.warp.s r = s.warp.s r)
    (c.waiting = [] →
      (c.lkMalformed s.hdr.domCount n = false → s.warp.revoked = none →
        (∀ h, c.heldBy key n = some h → LkMode.mayDown h m = true →
          (∀ x ∈ c.childrenOf key n, LkMode.allows m x.mode = true) →
          granted (.lkdown d a m) (c.holdings.map fun x => if x.name == n && x.warp == key then { x with mode := m } else x)) ∧
        ((c.heldBy key n).isSome = true → c.childrenOf key n = [] →
          granted (.lkrel d a) (c.holdings.filter fun x => !(x.name == n && x.warp == key)))) ∧
      (c.lkMalformed s.hdr.domCount n = false → ∃ r : Word,
        exec (.lkstat d a) s = .next (s.after fun w => { (w.setS d r) with lklast := 0 }) ∧
        (∀ q : LkMode, q ≠ .nl → (r.getLsbD (23 + q.code) = true ↔ ∃ h ∈ c.holdings, h.name = n ∧ h.warp ≠ key ∧ h.mode = q)) ∧
        (r >>> 16 &&& 255#32) = 0 ∧
        (r >>> 8 &&& 255#32).toNat = min 255 (c.holdings.filter fun h => h.name == n).length ∧
        r.getLsbD 4 = s.warp.revoked.isSome ∧ r.getLsbD 3 = s.warp.wound.isSome ∧
        (r &&& 7#32).toNat = ((c.heldBy key n).getD .nl).code ∧ r &&& 0xC00000E0#32 = 0) ∧
      (s.warp.revoked = none → dom < s.hdr.domCount → v.toNat / 2 ^ 36 % 2 ^ 16 = 0 → matrixOk (v.toNat % 2 ^ 36) = true →
        ((∃ h ∈ c.holdings, h.name.toNat / 2 ^ 52 = dom) → exec (.lktab d a) s = .next (s.after (status 5))) ∧
        ((∀ h ∈ c.holdings, h.name.toNat / 2 ^ 52 ≠ dom) → exec (.lktab d a) s = .next ((s.modContext key.ctx fun c =>
          { c with domains := c.domains.map fun x =>
              if x.1 == dom then (dom, { x.2 with matrix := v.setWidth 36 }) else x }).after (status 0)))) ∧
      (∀ x, s.warp.revoked = some x →
        (s.mayEnter → ∀ i ∈ [.lkacq d a m, .lktry d a m, .lkup d a m, .lkdown d a m, .lkrel d a, .lktab d a],
          exec i s = .next ((s.modWarp fun w => { w with revoked := none }).entered .locklost x)) ∧
        (s.warp.trapmask = true → ∀ i ∈ [.lkacq d a m, .lktry d a m, .lkup d a m, .lkdown d a m, .lkrel d a, .lktab d a],
          exec i s = .next (s.after fun w => { (status 4 w) with revoked := none }))) ∧
      (∀ x, s.warp.wound = some x → s.revokeDue s.warp = true → s.contextRuns key.ctx = true → s.warp.inLockWait = false →
        ∃ t c', exec (.revocation key) s = .next t ∧ t.context key.ctx = some c' ∧
          c'.holdings = (c.holdings.filter fun h => h.warp != key) ∧ t.warp.wound = none ∧ t.warp.revoked = some x.name ∧
          t.warp.sregs = s.warp.sregs)) ∧
    (∀ name, ∃ ups, c.queueOf name = ups ++ c.waiting.filter (fun r => r.name == name && !r.up && r.entry) ∧
      ups.Perm (c.waiting.filter fun r => r.name == name && r.up) ∧
      ((∀ r ∈ c.waiting, r.warp.seq < 2 ^ 23) → ups.Pairwise fun x y => older y.warp x.warp = false)) ∧
    (∀ r before behind, c.queueOf r.name = before ++ r :: behind → r ∉ before →
      (c.grantable r = true ↔
        (∀ h ∈ c.holdings, h.name = r.name → h.warp = r.warp ∨ c.compatible r.name h.mode r.mode = true) ∧
        ∀ x ∈ before, older x.warp r.warp = true → c.compatible r.name x.mode r.mode = true)) ∧
    -- the split `k` of the warp `x` is the one that waits in a lock instruction
    (let soleWait (x : Warp) (k : Fin 4) (p : Split) : Prop := x.splits[k] = some p ∧
       ∀ (j : Fin 4) (q : Split), x.splits[j] = some q → j ≠ k → isLockWait none q.wait = false
     -- that wait has ended with a status
     let ended (x y : Warp) (k : Fin 4) (p : Split) (e : Reg) (st : Word) : Prop :=
       (e.val < 120 → (e.val ≠ 0 → y.s e = st) ∧ ∀ r, r ≠ e → y.s r = x.s r) ∧ y.lklast = st ∧ y.vregs = x.vregs ∧ y.preds = x.preds ∧
         ∃ p', y.splits[k] = some p' ∧ p'.pc = p.pc + 4#57 ∧ p'.wait = .ready
     (∀ (r : LockReq) (x : Warp) (k : Fin 4) (p : Split) (e : Reg), c.waiting = [r] → r.name = n → r.warp ≠ key →
       r.warp.ctx = key.ctx → r.up = false → r.entry = true → c.heldBy r.warp n = none → c.parentOk r.warp n r.mode = true →
       (∀ h ∈ c.holdings, h.name = n → h.warp ≠ key → c.compatible n h.mode r.mode = true) →
       s.warpAt r.warp = some x → soleWait x k p → p.wait = .lock (some e) n r.mode false →
       c.lkMalformed s.hdr.domCount n = false → s.warp.revoked = none → (c.heldBy key n).isSome = true → c.childrenOf key n = [] →
       ∃ t c' y, exec (.lkrel d a) s = .next t ∧ t.context key.ctx = some c' ∧ c'.waiting = [] ∧
         c'.holdings = (c.holdings.filter fun h => !(h.name == n && h.warp == key)) ++ [⟨n, r.warp, r.mode⟩] ∧
         t.warp.s d = 0 ∧ t.warp.lklast = 0 ∧ t.warp.sp.pc = s.warp.sp.pc + 4#57 ∧
         t.warpAt r.warp = some y ∧ ended x y k p e 0) ∧
     ∀ (r : LockReq) (k : Fin 4) (p : Split) (e : Reg) (o : DWord) (q : LkMode) (up : Bool),
       r.warp.ctx = key.ctx → (s.hdrOf key.launch).det = false → s.warp.sp.wait = .lock (some e) o q up →
       soleWait s.warp k p → k = s.warp.cur →
       let t := s.woundWarp r key
       ∃ c', t.context key.ctx = some c' ∧ c'.holdings = c.holdings ∧ c'.waiting = (c.waiting.filter fun y => y.warp != key) ∧
         ended s.warp t.warp k p e 3 ∧
         t.warp.wound = some ⟨r.name, s.now + (s.hdrOf key.launch).grace, none, true, false⟩) ∧
    (∀ (v : Wound), s.warp.wound = some v → s.mayEnter →
      let t := s.enterWound
      t = (s.entered .wound v.name).modWarp (fun w => { w with wound := some { v with pending := false } }) ∧
      (t.warp.trapcause &&& 255#32) = 11#32 ∧ t.warp.trappc = s.warp.sp.pc.setWidth 64 ∧ t.warp.trapaddr = v.name) ∧
    ∀ k p, let u := s.modWarp Warp.boundary
      u.warp.candidate s.det = some k → u.warp.splits[k] = some p → p.trap = none → u.warp.woundDue = true →
        s.atBoundary = ((u.modWarp fun w => { w with cur := k, yielded := none }).enterWound, false)

/-- HMAKE fills the lowest free slot, HGIVE puts a held handle in transit, HTAKE takes the lowest one, HDROP gives it
back, HQUERY reports (R206, R207, R208, R209, R210, R211, R212, R436, log entry 104). HMAKE over a well-formed region
that meets no made slot of its buffer makes the handle in the lowest free slot with the generation one higher, held by
the caller; it answers OVERLAP, FULL or raises BUFSPACE as its rule says. HGIVE of a held handle to another live rank
puts it in transit and answers OK, NORANK or EXITED; HGIVE and HDROP wait while a started command of the caller
reaches the bytes, which a copy or MMA that names the buffer does by the model's choice (log entry 104), and in
deterministic mode for other warps' buffered reductions on the region in SB. HTAKE takes the transit with the lowest
giver, home and slot that its filter names, waits while one may still come, and answers EXITED or NORANK else. HDROP
frees the caller's own handle or returns another's. A handle not live or not held raises HANDLE. HQUERY writes its
report to three scalars. -/
def Obligations.HandlesAreMadeGivenTakenDroppedAndQueried : Prop :=

  ∀ (s : State) (d a b : Reg) (buf : Buf) (i : Fin 16) (home : WgKey), s.clearFor false → s.clearFor true → s.warp.reds = [] →
    let k := s.warp.key.wg
    let C := s.hdr.clsize
    let tells (x : Instr) (v : Word) : Prop := s.writesS x d v
    let base := (s.warp.s a).toNat
    let size := (s.warp.s (a + 1)).toNat
    let fitsIn : Prop := base % 128 = 0 ∧ size % 128 = 0 ∧ size ≠ 0 ∧ base + size ≤ s.bufSize k buf
    let meets : Prop := ∃ j : Fin 16, let x := s.wg.handles[j]
      x.state ≠ .free ∧ x.buf = buf ∧ base < x.base + x.size ∧ x.base < base + size
    -- HMAKE
    (¬ fitsIn → s.mayEnter → exec (.hmake d a buf) s = .next (s.entered .bufspace (bufAddr buf false base))) ∧
    (fitsIn → meets → tells (.hmake d a buf) 3) ∧
    (fitsIn → ¬ meets → (∀ j : Fin 16, (s.wg.handles[j]).state ≠ .free) → tells (.hmake d a buf) 2) ∧
    (fitsIn → ¬ meets → (s.wg.handles[i]).state = .free → (∀ j : Fin 16, j < i → (s.wg.handles[j]).state ≠ .free) →
      let gen := ((s.wg.handles[i]).gen + 1) % 2 ^ 15
      exec (.hmake d a buf) s = .next ((s.setSlot k i fun _ => ⟨.held s.rank, gen, buf, base, size⟩).after fun w =>
        w.setS d (BitVec.ofNat 32 (2 ^ 31 + gen * 2 ^ 16 + s.rank * 16 + i.val)))) ∧
    -- HGIVE and HDROP of a handle that is not held
    (s.heldHandle k (s.warp.s a) = none → s.mayEnter →
      exec (.hgive d a b) s = .next (s.entered .handle ((s.warp.s a).setWidth 64)) ∧
      exec (.hdrop d a) s = .next (s.entered .handle ((s.warp.s a).setWidth 64))) ∧
    (s.heldHandle k (s.warp.s a) = some (home, i) →
      let r := (s.warp.s b).toNat
      let x := s.slotOf home i
      let busy := s.handleBusy k (s.warp.s a) home i
      -- another warp of the home has a reduction buffered on the region
      let reds : Prop := s.det = true ∧ home = k ∧ x.buf = .sb ∧ ∃ w ∈ s.warpsOf k, w.key ≠ s.warp.key ∧
        ∃ q ∈ w.reds, q.sb = true ∧ rangesMeet q.place (4 * q.ty.regs) x.base x.size = true
      let u := s.flushGroup k
      let given := u.setSlot home i fun x => { x with state := .transit r u.rank }
      let dropped := if home = k then u.setSlot home i fun x => { x with state := .free } else u.returnHandle home i
      (C ≤ r ∨ r = s.rank → tells (.hgive d a b) 4) ∧
      (r < C → r ≠ s.rank → s.rankRetired k r = true → tells (.hgive d a b) 1) ∧
      (r < C → r ≠ s.rank → s.rankRetired k r = false →
        (¬ reds → busy = false →
          exec (.hgive d a b) s = .next ((given.serveTakes k given.wakeClock).after fun w => w.setS d 0)) ∧
        (¬ reds → busy = true → exec (.hgive d a b) s = .next (s.setWait .hgive)) ∧
        (reds → exec (.hgive d a b) s = .next (s.othersWait (s.regionReds k home i)))) ∧
      (¬ reds → busy = false → exec (.hdrop d a) s = .next (dropped.after fun w => w.setS d 0)) ∧
      (¬ reds → busy = true → exec (.hdrop d a) s = .next (s.setWait .hgive)) ∧
      (reds → exec (.hdrop d a) s = .next (s.othersWait (s.regionReds k home i)))) ∧
    -- HTAKE
    (let f := s.warp.s a
     let names (g : Nat) : Prop := f = 0xFFFFFFFF#32 ∨ f.toNat = g
     let comes (g r : Nat) (j : Fin 16) : Prop :=
       r < C ∧ names g ∧ (s.slotOf (s.clusterMate k r) j).state = .transit s.rank g
     (f ≠ 0xFFFFFFFF#32 → C ≤ f.toNat ∨ f.toNat = s.rank → tells (.htake d a) 4) ∧
     (f = 0xFFFFFFFF#32 ∨ (f.toNat < C ∧ f.toNat ≠ s.rank) →
       (∀ g r, comes g r i → (∀ g' r' j, comes g' r' j →
           g < g' ∨ g = g' ∧ (r < r' ∨ r = r' ∧ i ≤ j)) →
         let at_ := s.clusterMate k r
         exec (.htake d a) s = .next ((s.setSlot at_ i fun x => { x with state := .held s.rank }).after fun w =>
           w.setS d (BitVec.ofNat 32 (2 ^ 31 + (s.slotOf at_ i).gen * 2 ^ 16 + r * 16 + i.val)))) ∧
       ((∀ g r j, ¬ comes g r j) → (∀ r, r < C → r ≠ s.rank → names r → s.rankRetired k r = true) → tells (.htake d a) 1) ∧
       ((∀ g r j, ¬ comes g r j) → (∃ r, r < C ∧ r ≠ s.rank ∧ names r ∧ s.rankRetired k r = false) →
         exec (.htake d a) s = .next (s.setWait (.htake d f))))) ∧
    -- HQUERY
    (∃ r x y : Word, exec (.hquery d a) s = .next (s.after fun w => ((w.setS d r).setS (d + 1) x).setS (d + 2) y) ∧
      (s.liveHandle k (s.warp.s a) = none → r = 0 ∧ x = 0 ∧ y = 0) ∧
      (s.liveHandle k (s.warp.s a) = some (home, i) →
        let z := s.slotOf home i
        let (transit, who) := match z.state with
          | .transit r _ => (true, r)
          | .held r => (false, r)
          | .free => (false, 0)
        who < 8 → s.hdr.rank home.wglin < 8 →
          r.getLsbD 31 = true ∧ r.getLsbD 12 = (!transit && who == s.rank) ∧
          r.getLsbD 11 = (((s.group? home).map fun g => g.state == .zombie).getD false) ∧
          (r >>> 8 &&& 7#32).toNat = s.hdr.rank home.wglin ∧ (r >>> 4 &&& 3#32).toNat = (Buf.index z.buf).val ∧
          r.getLsbD 3 = transit ∧ (r &&& 7#32).toNat = who ∧ r &&& 0x7FFFE0C0#32 = 0 ∧
          x = BitVec.ofNat 32 z.base ∧ y = BitVec.ofNat 32 z.size))

/-- CPY, MMA and COLL append a command with the next sequence number; TGLOAD loads a graph; SWAIT waits for a number;
SPOLL reports (R288, R293, R294, R295, R296, R297, R298, R355). On a stream below the header's count that is not in
error, with a descriptor at a 64-byte aligned address that translates and passes every check, nothing of the warp left
to be performed, and a window entry free: CPY, MMA and COLL append to the stream a command that holds the descriptor,
the graph the selector names and the issuing warp, and write its number, one above the last, to s[d]; without an entry
they wait; a check that fails raises ENGINE with the lowest code. TGLOAD stores a well-formed record in its slot.
SWAIT writes the counter once it has reached s[b], in deterministic mode at the quantum's end, where R355's limit lets
its clock go, and SPOLL the counter and the error word. -/
def Obligations.EngineInstructionsIssueCommands : Prop :=

  ∀ (s : State) (d a b : Reg) (x : Fin 16), s.clearFor false →
    let va := s.warp.s64 a
    -- a record is read 16 bytes at a time
    let pieces (n : Nat) : List (Option Lane × DWord) := (List.range (n / 16)).map fun k => (none, va + BitVec.ofNat 64 (16 * k))
    let reads (n : Nat) : List (Option Lane × Nat) × State := (s.places .load (pieces n)).2.readEach 16
      ((s.places .load (pieces n)).1.map fun x => ⟨x.1, .global x.2.pa x.2.key, BitVec.ofNat 64 x.2.va⟩)
    let record (n : Nat) (rec : List Byte) (u : State) : Prop := va.toNat % 64 = 0 ∧ s.prompt ∧ s.reaches .load 16 (pieces n) ∧
      rec = (reads n).1.flatMap (fun x => leBytes 16 x.2) ∧ u = (reads n).2
    let sum (code : Nat) : DWord := BitVec.ofNat 64 (code * 256 + x.val)
    let traps (i : Instr) (u : State) (code : Nat) : Prop :=
      u.mayEnter → u.warp.outstanding = [] → exec i s = .next (u.entered .engine (sum code))
    let issues (i : Instr) (kind : EngineKind) (bytes : Nat) : Prop :=
      (s.hdr.streams ≤ x.val → traps i s 0x01) ∧
      (x.val < s.hdr.streams → (s.wg.streams[x]).err ≠ 0 → traps i s 0x02) ∧
      (∀ desc u, x.val < s.hdr.streams → (s.wg.streams[x]).err = 0 → record bytes desc u →
        let codes := u.issueCodes kind desc (u.warp.s b).toNat
        let n := (u.wg.streams[x]).last + 1
        let graph := if kind = .copy then (u.wg.graphOf (u.warp.s b).toNat).getD [] else []
        let cmd := Command.new kind n desc graph u.warp.key u.warp.issued (u.warp.clock.toNat / u.quantum)
        (∀ c ∈ codes, (∀ c' ∈ codes, c ≤ c') → c < 256 → traps i u c) ∧
        (codes = [] → u.windowUsed kind u.warp.core < kind.window →
          exec i s = .next ((u.modWg fun g => { g with streams := g.streams.set x { g.streams[x] with
            last := n, commands := (g.streams[x]).commands ++ [cmd] } }).after fun w => w.setS d n)) ∧
        (codes = [] → kind.window ≤ u.windowUsed kind u.warp.core → exec i s = .next (u.setWait .window)))
    issues (.cpy d a b x) .copy 128 ∧ issues (.mma d a b x) .mma 64 ∧ issues (.coll d a b x) .coll 64 ∧
    (∀ rec u, record 256 rec u →
      (∀ j : Fin 16, (u.warp.s b).toNat = j.val → graphOk rec = true →
        exec (.tgload d a b) s = .next ((u.modWg fun g =>
          { g with graphs := g.graphs.set j (if graphCount rec = 0 then [] else rec) }).after fun w =>
            w.setS d (BitVec.ofNat 32 (graphCount rec)))) ∧
      (16 ≤ (u.warp.s b).toNat ∨ graphOk rec = false → u.mayEnter → u.warp.outstanding = [] →
        exec (.tgload d a b) s = .next (u.entered .engine 0x600#64))) ∧
    (let st := s.wg.streams[x]
     -- a serial number has reached another (R288)
     let reached (c n : Word) : Prop := (c - n).toNat < 2 ^ 31
     (s.hdr.streams ≤ x.val → traps (.swait d b x) s 0x01 ∧ traps (.spoll d b x) s 0x01) ∧
     (s.det = true → s.beyond (s.quantumEnd s.warp.clock).toNat = true → x.val < s.hdr.streams → reached st.last (s.warp.s b) →
       st.err = 0 → exec (.swait d b x) s = .next s) ∧
     (x.val < s.hdr.streams →
       exec (.spoll d b x) s = .next (s.after fun w => (w.setS d st.counter).setS b st.err) ∧
       (¬ reached st.last (s.warp.s b) → traps (.swait d b x) s 0x05) ∧
       (reached st.last (s.warp.s b) → st.err = 0 ∨ ¬ reached (s.warp.s b) st.errSeq →
         (s.det = true → s.beyond (s.quantumEnd s.warp.clock).toNat = false) →
         (reached st.counter (s.warp.s b) → exec (.swait d b x) s = .next (s.after fun w =>
           { (w.setS d st.counter) with clock := if s.det then s.quantumEnd w.clock - 1 else w.clock })) ∧
         (¬ reached st.counter (s.warp.s b) → ∃ t, exec (.swait d b x) s = .next t ∧
           t.warp.sp.wait = .swait d (s.warp.s b) x ∧ t.warp.sp.pc = s.warp.sp.pc ∧ t.warp.sregs = s.warp.sregs ∧
           t.warp.clock = if s.det then s.quantumEnd s.warp.clock else s.warp.clock)) ∧
       (reached st.last (s.warp.s b) → st.err ≠ 0 → reached (s.warp.s b) st.errSeq → s.mayEnter →
         exec (.swait d b x) s = .next (s.entered .engine
           (BitVec.ofNat 64 (st.errSeq.toNat * 2 ^ 32 + st.err.toNat / 256 % 256 * 256 + x.val))))))

/-- A command starts when its tags are satisfied, commits its chunks one a step, and its completion advances the
stream’s counter (R11, R287, R289, R290, R299, R309, R310, R328, R332, R427, log entry 72). For the head command of a
stream of a workgroup whose context runs, not parked and not failed: ENGINE_COMMAND_START marks it running once its
after-tags are satisfied, a copy's operators find room in the transform stage's 8 slots, and its checks pass, and
leaves it waiting before; each COPY_CHUNK and MMA_CHUNK_COMMIT of a running command performs the chunk at its progress
and adds 1 to it; COLL_INSTANCE_COMPLETE of a ready instance marks it done; after the last chunk
ENGINE_COMMAND_COMPLETE performs what the stream's commands have left, takes the command off its stream, writes the
record it asked for, sets the counter to its number and wakes what waits on the stream. A copy that overlaps its own
inputs or record is undefined (R310): that it is carried out and completed in one step, its record free bytes, is the
model's choice (log entry 72). A failed tag ends the stream in error with TAGERR. -/
def Obligations.EngineCommandsProgress : Prop :=

  ∀ (s : State) (g : Workgroup) (st : Fin 16) (c : Command) (cs : List Command),
    s.group? g.key = some g → (g.streams[st]).commands = c :: cs → c.parked = none → c.fail.1 = 0 →
    s.engineRuns g.key = true →
    let k := g.key
    let running (u : State) : State := u.modHead k st fun c => { c with running := true }
    -- the writes of the stream's commands are performed, and the head has left it, whose counter is its number
    let done (u : State) : State := ((u.performStream k st).modStream k st fun x => { x with
      counter := (x.commands.head?.map fun c : Command => c.seq).getD x.counter, commands := x.commands.drop 1 }).streamChanged k
    -- the record of the command `z` is written, if it asked for one: free bytes where it is undefined
    let recorded (u : State) (z : Command) (w : State) : Prop :=
      (wantsRecord z.desc = false ∧ w = u) ∨ (wantsRecord z.desc = true ∧
        let bytes := z.recordBytes st.val z.fail.1 z.fail.2
        let v := if z.spoilt then u.freeBytes bytes.length else (bytes, u)
        v.2.servedWrite k.ctx .copyWrite (recordAddr z.desc) v.1 = (none, w))
    (c.running = false → g.tagState st c = .waiting → exec (.engineCommandStart k st) s = .next s) ∧
    (c.running = false → g.tagState st c = .failed → exec (.engineCommandStart k st) s = .next (s.failCommand k st 0x14 0)) ∧
    (c.running = false → g.tagState st c = .ready →
      let room : Prop := s.operatorSlots g.core + graphCount c.graph ≤ 8
      (c.kind = .copy → room → s.copyStart k c.desc c.graph = none → exec (.engineCommandStart k st) s =
        .next ((running s).modHead k st fun c => { c with whole := (barePlan (copyDesc c.desc) c.graph).total / 4096 })) ∧
      (c.kind = .copy → ¬ room → exec (.engineCommandStart k st) s = .next s) ∧
      (c.kind = .mma → s.mmaHeld g st c = false → s.mmaStart k c.desc = none →
        exec (.engineCommandStart k st) s = .next (running s)) ∧
      (c.kind = .mma → s.mmaHeld g st c = true → exec (.engineCommandStart k st) s = .next s) ∧
      (∀ u, c.kind = .coll → s.collContribute k st c = (none, u) →
        exec (.engineCommandStart k st) s = .next ((running u).modHead k st fun c => { c with contributed := true }))) ∧
    (c.running = true → c.progress < c.chunks →
      -- the chunk is done; what it left to be written is its stream's
      let onward (u : State) (t : Tally) : State := (u.stampStep k st).modHead k st fun c => { c with
        tally := t, progress := c.progress + 1, kept := if c.progress < c.whole then t else c.kept
        ahead := none, stopped := none, spoilt := false }
      (c.kind = .copy → s.copyOverlaps k c.desc c.graph = false →
        ∀ u t, s.copyChunk k st c.desc c.graph c.progress c.tally = (none, u, t) →
          exec (.copyChunk k st) s = .next (onward u t)) ∧
      (c.kind = .copy → s.copyOverlaps k c.desc c.graph = true →
        ∀ u t z w, ({ s with slow := false } : State).copyWhole k st c.desc c.graph c.progress c.tally = (none, u, t) →
          let v := ({ u with slow := s.slow } : State).modHead k st fun c =>
            { c with tally := t, spoilt := true, fail := (0, 0), progress := c.chunks }
          v.head? k st = some z → recorded v z w → exec (.copyChunk k st) s = .next (done w)) ∧
      (∀ u t, c.kind = .mma → s.mmaChunk k c.desc c.ahead c.progress c.tally = (none, u, t) →
        exec (.mmaChunkCommit k st) s = .next (onward (u.dropAhead k st (mmaDesc c.desc)) t)) ∧
      exec (.engineCommandComplete k st) s = .next s) ∧
    (c.running = true → c.chunks ≤ c.progress → ∀ w, recorded s c w →
      exec (.engineCommandComplete k st) s = .next (done w)) ∧
    (∀ i, s.instance? k.ctx i.group i.tag = some i → s.collReady i = true → s.collCommands k.ctx i.group i.tag = [] →
      exec (.collInstanceComplete k.ctx i.group i.tag) s = .next (s.setInstance { i with done := true })) ∧
    (∀ i vec fl u, s.instance? k.ctx i.group i.tag = some i → s.collReady i = true →
      s.collCommands k.ctx i.group i.tag = [(k, st)] →
      collResult (collDesc c.desc) i = (vec, fl) →
      (s.setInstance { i with done := true }).collWrite k.ctx (collDesc c.desc) vec = (none, u) →
      exec (.collInstanceComplete k.ctx i.group i.tag) s =
        .next (u.modHead k st fun c => { c with progress := 1, tally := { c.tally with flags := fl } }))

/-- TLBINV, SRDP, SWRP and ICINV complete in a system context, and raise ACCESS with the word in any other (R66, R78,
R190, R192, R390, R392, R393, R437). In a system context, with no reduction of the warp buffered: TLBINV first
performs every access that has translated; where reductions stay buffered that were translated through what its
control word and address select it waits for them, else it completes and drops exactly the translations selected from
every TLB and translation cache; a WAITCMP that waits on one executes afresh. SRDP completes and writes the context
number, the trap base's words, the error count or the scrub register. SWRP of TRAPBASE and TRAPBASEHI, and the step
that writes them, complete and set their word of the launch's trap base with its reserved bits zero; SWRP of a
register that is only read raises UNDEF. ICINV completes: it releases at device scope and drops the context's
instructions from its core, whose fetches see from then on what has been written. Nothing else changes. In any other
context each raises ACCESS with its word in TRAPADDR. -/
def Obligations.PrivilegedInstructions : Prop :=

  ∀ (s : State) (a b d : Reg) (n : PrivReg) (hi : Bool), s.clearFor false → s.warp.reds = [] →
    let word (i : Instr) : DWord := BitVec.setWidth 64 (wordOf i)
    let c := s.warp.s b
    let va := (s.warp.s64 a).toNat
    let ctx := (c &&& 0xFFFF#32).toNat
    let sel := (c >>> 16 &&& 3#32).toNat
    let covers (t : TlbEntry) : Bool := if sel = 0 then t.ctx == ctx && va % 2 ^ 57 / t.size == t.vpage
      else if sel = 1 then t.ctx == ctx else true
    let base := s.trapBase
    let privileged : PrivReg → Word
      | .ctxnum => BitVec.ofNat 32 (s.warp.key.ctx % 65536)
      | .trapbase => base.setWidth 32
      | .trapbasehi => BitVec.extractLsb' 32 32 base
      | .errcount => s.ctx.errcount
      | .scrubstat => s.scrubStat
    let based (hi : Bool) : State := s.modLaunch s.warp.key.launch fun l => { l with
      trapBase := if hi then (s.warp.s a &&& 0x01FFFFFF#32) ++ l.trapBase.setWidth 32
        else BitVec.extractLsb' 32 32 l.trapBase ++ (s.warp.s a &&& 0xFFFFFFC0#32) }
    (s.ctx.system = true →
      (let u := s.flushAll
       let held : List (Warp × Reduction) := u.warps.flatMap fun w => (w.reds.filter fun r => !r.sb &&
         (if sel = 0 then w.key.ctx == ctx && va % 2 ^ 57 / r.page == r.va.toNat / r.page
          else if sel = 1 then w.key.ctx == ctx else true)).map fun r => (w, r)
       let v := u.redoWaits sel ctx va
       (held = [] → exec (.tlbinv a b) s = .next (({ v with
          tlb := v.tlb.filter fun t => !covers t, xlats := v.xlats.filter fun t => !covers t } : State).after id)) ∧
       (held ≠ [] → exec (.tlbinv a b) s = .next (u.othersWait held))) ∧
      exec (.srdp d n) s = .next (s.after fun w => w.setS d (privileged n)) ∧
      exec (.swrp a .trapbase) s = .next ((based false).after id) ∧
      exec (.swrp a .trapbasehi) s = .next ((based true).after id) ∧
      exec (.trapbaseWrite hi a) s = .next ((based hi).after id) ∧
      (let u := s.releaseAt .device
       exec .icinv s = .next ((u.freshCode u.warp.key.ctx (some u.warp.core) none).after id) ∧
       (u.freshCode u.warp.key.ctx (some u.warp.core) none).icache =
         u.icache.filter fun x => !(x.core == u.warp.core && x.ctx == u.warp.key.ctx))) ∧
    (n ≠ .trapbase → n ≠ .trapbasehi → s.mayEnter →
      exec (.swrp a n) s = .next (s.entered .undef (word (.swrp a n)))) ∧
    (s.ctx.system = false → s.mayEnter →
      exec (.tlbinv a b) s = .next (s.entered .access (word (.tlbinv a b))) ∧
      exec (.srdp d n) s = .next (s.entered .access (word (.srdp d n))) ∧
      (n = .trapbase ∨ n = .trapbasehi → exec (.swrp a n) s = .next (s.entered .access (word (.swrp a n)))) ∧
      exec (.trapbaseWrite hi a) s = .next (s.entered .access (word (.swrp a (if hi then .trapbasehi else .trapbase)))) ∧
      exec .icinv s = .next (s.entered .access (word .icinv)))

/-- A sleep ends, a pending trap enters, a long instruction completes, a reduction is performed, a warp’s lanes exit
(R56, R174, R177, R235, R383, R385, R387, R395). SLEEP_EXPIRY of a split whose time has come retires its SLEEP: PC +
4, and one count of the clock. TRAP_ENTRY at a boundary enters the running split's pending trap with its recorded
registers. LONG_COMPLETE performs the access of the one outstanding long instruction, if it waits, and writes its
results; it stays in its window, done. REDUCTION_PERFORM performs the oldest reduction, outside deterministic mode.
EXIT, with nothing of the warp left to be performed or parked, takes the active lanes out of the split: those left go
on after it, and with none left the split ends; the lanes leave the barriers, and the last split's end exits the warp.
A second trap while traps are masked kills the context. -/
def Obligations.WarpStepsOfTheDevice : Prop :=

  ∀ (s : State) (sp : Fin 4) (p : Split), s.warp.live = true →
    let k := s.warp.key
    (∀ t, s.warp.splits[sp] = some p → p.wait = .sleep t → t ≤ s.now → ∃ u, exec (.sleepExpiry k sp) s = .next u ∧
      u.warp = { ({ s.warp with cur := sp } : Warp).modSp Split.advance |>.retired with cur := s.warp.cur } ∧ u.mem = s.mem ∧
      u.caches = s.caches ∧ u.groups = s.groups) ∧
    (∀ t, s.mayIssue s.warp = true → s.mayEnter → s.warp.outstanding = [] → s.warp.boundary = s.warp →
      s.warp.candidate s.det = some s.warp.cur → s.warp.woundDue = false → s.warp.splits[s.warp.cur] = some p → p.trap = some t →
      t.cause ≠ .doublefault →
      exec (.trapEntry k) s = .next (s.modWarp fun w =>
        (({ w with yielded := none } : Warp).modSp fun p => { p with trap := none }).enter s.trapBase t.cause t.addr t.pc t.li)) ∧
    (∀ l, s.warp.outstanding = [l] → l.done = false → l.flags = 0 →
      let x := State.performOp { s with warp := { s.warp with cur := l.split, outstanding := [] } } l .both
      ∃ u, exec (.longComplete k) s = .next u ∧
      (let w := x.1.wb.foldl WriteBack.apply x.2.warp
       u.warp.vregs = w.vregs ∧ u.warp.sregs = w.sregs ∧ u.warp.preds = w.preds ∧ u.warp.cur = s.warp.cur ∧
       (∃ y, u.warp.outstanding = [y] ∧ y.done = true ∧ y.left = l.left ∧ y.trap = x.1.trap)) ∧
      u.mem = x.2.mem ∧ u.caches = x.2.caches ∧ u.groups = x.2.groups) ∧
    (∀ r, s.det = false → s.warp.reds = [r] → exec (.reductionPerform k) s =
      .next ((s.performRed s.warp none r).modWarpAt k fun x => { x with reds := x.reds.drop 1 })) ∧
    (s.clearFor false → s.prompt → s.accessParked = false → s.warp.splits[s.warp.cur] = some p → p.trap = none →
      let left := p.member &&& ~~~p.active
      -- what the warp has stored happens before what its end lets go on (R249)
      let u := if s.warp.trapmask then s.giveOwn.modWg fun g => { g with faulted := true } else s.giveOwn
      let gone (u : State) : State := if p.active = 0 then u else u.leaveBarriers k.wg s.warp p.active s.warp.clock.toNat
      let exits (u : State) : State := if u.warp.ended then u.exitWarp s.wakeClock else u
      (left ≠ 0 → exec .exit s = .next (exits (gone (u.modWarp fun w =>
        ((w.modSp fun p => { p.advance with member := left, active := left }).retired))))) ∧
      (left = 0 → exec .exit s = .next (exits (gone (u.modWarp fun w => (
        let w : Warp := { w with splits := w.splits.set w.cur none }
        if w.hold = some w.cur then { w with hold := none, trapmask := false } else w).retired))))) ∧
    (s.clearFor false → s.warp.trapmask = true → (s.context k.ctx).isSome = true →
      ∃ u, exec .bkpt s = .next u ∧ (∃ c, u.context k.ctx = some c ∧ c.dead = true) ∧ u.events.getLast? = some (.death k.ctx))

/-- Each computing word of a prologue changes the registers, the header or the program counter as its row says, and
counts one step (R375, R376, R378, log entry 49). When the prologue of a queue runs, stands at the word within the
program and has steps left: MOVI to MAXU write k[d] with the value of their row, wrapping modulo 2^64, DIVU and REMU
by 0 giving all ones and u; HWR and HRD write and read the working header; RPT and ARG read the repeat count and the
packet; BEQ, BNE, BLTU and LOOP branch by imm words; NOP does nothing. Each counts one step and goes on at the next
word or the branch's. k0 reads 0 and ignores writes. Nothing but that queue's prologue changes. ARG 7 lies past the
packet: its value is free, which is the model's choice (log entry 49). -/
def Obligations.QueueProgramComputation : Prop :=

  ∀ (s : State) (q : Nat) (r : QpRun) (d a b : KReg) (imm : BitVec 32) (off : BitVec 8) (size : Fin 4) (j : Fin 8),
    s.qpRun q = some r → r.p.pc < r.prg.words.length → r.p.steps < 4096 →
    let k (x : KReg) : DWord := if x.val = 0 then 0 else r.p.regs[x]
    let u := k a
    let v := k b
    let put (v : DWord) : Vector DWord 16 := if d.val = 0 then r.p.regs else r.p.regs.set d v
    let sext : DWord := imm.signExtend 64
    let at_ (s : State) (p : Prologue) : State := s.modQueue q fun x => { x with prologue := some p }
    let goes (i : Instr) (w : DWord) (p : Prologue) : Prop :=
      r.word = w → exec i s = .next (at_ s { p with steps := r.p.steps + 1 })
    let sets (i : Instr) (w : DWord) (v : DWord) : Prop := goes i w { r.p with regs := put v, pc := r.p.pc + 1 }
    let jumps (i : Instr) (op : Nat) (taken : Prop) : Prop :=
      (taken → goes i (qpWord op 0 a b imm) { r.p with pc := ((r.p.pc : Int) + imm.toInt).toNat }) ∧
      (¬ taken → goes i (qpWord op 0 a b imm) { r.p with pc := r.p.pc + 1 })
    let n := 2 ^ size.val
    sets (.qpMovi q d imm) (qpWord 0x04 d 0 0 imm) sext ∧
    sets (.qpLui q d imm) (qpWord 0x05 d 0 0 imm) (imm ++ (k d).setWidth 32) ∧
    sets (.qpMov q d a) (qpWord 0x06 d a 0 0) u ∧ sets (.qpAdd q d a b) (qpWord 0x07 d a b 0) (u + v) ∧
    sets (.qpSub q d a b) (qpWord 0x08 d a b 0) (u - v) ∧ sets (.qpMul q d a b) (qpWord 0x09 d a b 0) (u * v) ∧
    sets (.qpAnd q d a b) (qpWord 0x0A d a b 0) (u &&& v) ∧ sets (.qpOr q d a b) (qpWord 0x0B d a b 0) (u ||| v) ∧
    sets (.qpXor q d a b) (qpWord 0x0C d a b 0) (u ^^^ v) ∧
    sets (.qpShl q d a b) (qpWord 0x0D d a b 0) (u <<< (v.toNat % 64)) ∧
    sets (.qpShr q d a b) (qpWord 0x0E d a b 0) (u >>> (v.toNat % 64)) ∧
    sets (.qpAddi q d a imm) (qpWord 0x0F d a 0 imm) (u + sext) ∧
    sets (.qpDivu q d a b) (qpWord 0x10 d a b 0) (if v = 0 then BitVec.allOnes 64 else BitVec.ofNat 64 (u.toNat / v.toNat)) ∧
    sets (.qpRemu q d a b) (qpWord 0x11 d a b 0) (if v = 0 then u else BitVec.ofNat 64 (u.toNat % v.toNat)) ∧
    sets (.qpMinu q d a b) (qpWord 0x12 d a b 0) (BitVec.ofNat 64 (min u.toNat v.toNat)) ∧
    sets (.qpMaxu q d a b) (qpWord 0x13 d a b 0) (BitVec.ofNat 64 (max u.toNat v.toNat)) ∧
    goes (.qpHwr q a off size) (qpWord 0x18 0 a 0 (qpField off size)) { r.p with
      header := r.p.header.take off.toNat ++ leBytes n u.toNat ++ r.p.header.drop (off.toNat + n), pc := r.p.pc + 1 } ∧
    sets (.qpHrd q d off size) (qpWord 0x19 d 0 0 (qpField off size))
      (BitVec.ofNat 64 (ofLeBytes ((r.p.header.drop off.toNat).take n))) ∧
    sets (.qpRpt q d) (qpWord 0x1A d 0 0 0) (BitVec.ofNat 64 r.p.repeats) ∧
    jumps (.qpBeq q a b imm) 0x1B (u = v) ∧ jumps (.qpBne q a b imm) 0x1C (u ≠ v) ∧
    jumps (.qpBltu q a b imm) 0x1D (u.toNat < v.toNat) ∧
    (let x := k d
     (x = 0 → goes (.qpLoop q d imm) (qpWord 0x1E d 0 0 imm) { r.p with pc := r.p.pc + 1 }) ∧
     (x = 1 → goes (.qpLoop q d imm) (qpWord 0x1E d 0 0 imm) { r.p with regs := put 0, pc := r.p.pc + 1 }) ∧
     (x ≠ 0 → x ≠ 1 → goes (.qpLoop q d imm) (qpWord 0x1E d 0 0 imm)
       { r.p with regs := put (x - 1), pc := ((r.p.pc : Int) + imm.toInt).toNat })) ∧
    (j.val < 7 → sets (.qpArg q d j) (qpWord 0x1F d 0 0 (qpArgImm j))
      (BitVec.ofNat 64 (ofLeBytes ((r.pkt.drop (8 + 8 * j.val)).take 8)))) ∧
    (r.word = qpWord 0x1F d 0 0 (qpArgImm 7) → ∃ v, exec (.qpArg q d 7) s = .next
      (at_ { s with fresh := s.fresh + 8 } { r.p with regs := put v, pc := r.p.pc + 1, steps := r.p.steps + 1 })) ∧
    goes (.qpNop q) (qpWord 0x20 0 0 0 0) { r.p with pc := r.p.pc + 1 }

/-- Loads and stores of a prologue go through their window, DONE and REPEAT launch, CANCEL completes at once, ILAUNCH
and PROGRAM begin (R369, R374, R375, R376, R377, R378, R379, R422, log entry 22, log entry 47). For a prologue that
runs with steps left: LD64 and LD32 write k[d] with the bytes at base + u + imm when those lie in the window and are
aligned, ST64 and ST32 store the low bytes of k[d] in a writable window, and outside the window the queue halts with
QWINDOW. DONE launches the working header, when it passes its checks, and the packet has issued; REPEAT launches it
and starts the program again, and the 256th halts with QREPEAT; CANCEL issues the packet, its signal written when it
has one, after every access is carried home; the 4,097th step halts with QBUDGET. An ILAUNCH begins its prologue with
all registers 0, or halts with QSLOT at an empty slot; a PROGRAM whose words pass is loaded into its slot, in a
protected context only under a signature that verifies with its key, else the queue halts with QVERIFY. That the
signed message is the SHA-256 of the words followed by the table, and the detail of a bad window, are the model's
choices (log entries 22 and 47). -/
def Obligations.QueueProgramMemoryAndEnds : Prop :=

  (∀ (s : State) (q : Nat) (r : QpRun) (d a : KReg) (w : Fin 4) (imm : BitVec 32),
    s.qpRun q = some r → r.p.pc < r.prg.words.length →
    let k (x : KReg) : DWord := if x.val = 0 then 0 else r.p.regs[x]
    let ran : Prologue := { r.p with steps := r.p.steps + 1 }
    let goes (u : State) (p : Prologue) : State := u.modQueue q fun x => { x with prologue := some p }
    let off := (k a + imm.signExtend 64).toNat
    let win := r.prg.windows.getD w.val (0, 0, false)
    let va := (win.1 + off) % 2 ^ 64
    let inside (n : Nat) : Prop := w.val < r.prg.windows.length ∧ off + n ≤ win.2.1 ∧ va % n = 0
    let word (op : Nat) : Prop := r.word = qpWord op d a (qpWinReg w) imm
    let load (i : Instr) (op n : Nat) : Prop := word op →
      (¬ inside n → exec i s = .next (s.haltQueue q 0x0A r.p.pc)) ∧
      (∀ b u, inside n → s.queueLoad r.q va n = (.ok b, u) → exec i s = .next (goes u { ran with
        regs := if d.val = 0 then r.p.regs else r.p.regs.set d (BitVec.ofNat 64 (ofLeBytes b)), pc := r.p.pc + 1 }))
    let store (i : Instr) (op n : Nat) : Prop := word op →
      (¬ inside n ∨ win.2.2 = false → exec i s = .next (s.haltQueue q 0x0A r.p.pc)) ∧
      (∀ u, inside n → win.2.2 = true → s.servedWrite r.q.ctx .store va (leBytes n (k d).toNat) = (none, u) →
        exec i s = .next (goes u { ran with pc := r.p.pc + 1 }))
    -- the working header passes its checks and is launched, from the state `u`
    let launched (i : Instr) (u : State) (next : State → State) : Prop := ∀ es gs v, u.seqHeld r.q.ctx = false →
      u.launchCheck r.q ⟨r.p.header⟩ = (.ok (es, gs), v) → exec i s = .next (next (v.startLaunch r.q ⟨r.p.header⟩
        (BitVec.ofNat 64 (bytesAt r.pkt 0x20 8)) (BitVec.ofNat 64 (bytesAt r.pkt 0x28 8)) es gs))
    (r.p.steps < 4096 →
      load (.qpLd64 q d a w imm) 0x14 8 ∧ load (.qpLd32 q d a w imm) 0x15 4 ∧
      store (.qpSt64 q d a w imm) 0x16 8 ∧ store (.qpSt32 q d a w imm) 0x17 4 ∧
      (∀ u, r.word = qpWord 0x01 0 0 0 0 → s.assures r.q r.pkt u → launched (.qpDone q) u fun v => v.finishPacket q) ∧
      (r.word = qpWord 0x03 0 0 0 0 → r.p.repeats < 255 →
        launched (.qpRepeat q) s fun v => goes v { ran with pc := 0, repeats := r.p.repeats + 1 }) ∧
      (r.word = qpWord 0x03 0 0 0 0 → 255 ≤ r.p.repeats → exec (.qpRepeat q) s = .next (s.haltQueue q 0x0B 0)) ∧
      (∀ u, r.word = qpWord 0x02 0 0 0 0 → s.assures r.q r.pkt u →
        (bytesAt r.pkt 0x20 8 = 0 → exec (.qpCancel q) s = .next (u.finishPacket q)) ∧
        (∀ v, bytesAt r.pkt 0x20 8 ≠ 0 →
          u.carryAll.servedWrite r.q.ctx .store (bytesAt r.pkt 0x20 8) ((r.pkt.drop 0x28).take 8) = (none, v) →
          exec (.qpCancel q) s = .next (v.finishPacket q)))) ∧
    (4096 ≤ r.p.steps → r.word = qpWord 0x20 0 0 0 0 → exec (.qpNop q) s = .next (s.haltQueue q 0x09 r.p.pc))) ∧
  ∀ (s u : State) (q : Nat) (x : Queue) (p : List Byte),
    (s.takes q x p 2 u →
      (x.slots[(Fin.ofNat 16 (bytesAt p 0x38 1))] = none →
        exec (.ilaunch q) s = .next (u.haltQueue q 0x08 (bytesAt p 0x38 1))) ∧
      (∀ g h v, x.slots[(Fin.ofNat 16 (bytesAt p 0x38 1))] = some g → u.queueLoad x (bytesAt p 8 8) 256 = (.ok h, v) →
        let pro : Prologue := ⟨Vector.replicate 16 0, 0, 0, 0, (suppliedHeader p h).bytes⟩
        exec (.ilaunch q) s = .next (v.modQueue q fun y => { y with prologue := some pro }))) ∧
    (s.takes q x p 8 u → ∀ code tab v w,
      let n := bytesAt p 0x10 4
      let m := bytesAt p 0x20 8
      u.queueLoad x (bytesAt p 8 8) (8 * n) = (.ok code, v) → v.queueLoad x (bytesAt p 0x18 8) (16 * m) = (.ok tab, w) →
      let words := (List.range n).map fun k => BitVec.ofNat 64 (bytesAt code (8 * k) 8)
      let table := (List.range m).map fun k => (tab.drop (16 * k)).take 16
      let windows := table.map fun e => (bytesAt e 0 8, bytesAt e 8 4, bytesAt e 0xC 4 % 2 == 1)
      let loaded (z : State) : State := (z.modQueue q fun y => { y with
        slots := y.slots.set (Fin.ofNat 16 (bytesAt p 0x14 1)) (some ⟨windows, words⟩) }).finishPacket q
      (∀ b, programBad table windows words = some b → exec (.program q) s = .next (w.haltQueue q 0x07 b)) ∧
      (programBad table windows words = none →
        (u.protects x.ctx = false → exec (.program q) s = .next (loaded w)) ∧
        -- a protected context takes only a program signed with its key (R422)
        (∀ c key sig z, u.context x.ctx = some c → c.protect = true → c.programKey = some key → bytesAt p 0x28 8 ≠ 0 →
          w.queueLoad x (bytesAt p 0x28 8) Slh.signatureBytes = (.ok sig, z) →
          exec (.program q) s = .next (if Slh.verifies key (sha256 (code ++ tab)) sig = true then
            loaded (z.modContext x.ctx fun c => { c with measured := c.measured ++ [sha256 code] })
            else z.haltQueue q 0x07 (2 ^ 64 - 1)))))

/-- The issue stage takes each packet of a queue that is ready: it launches, nests, joins, signals, waits for a value
or marks (R361, R363, R364, R366, R367, R368, R369, R371, R372, R373, R374, log entry 73). For the packet at the issue
position of a queue that runs and whose turn it is (R371), well formed, its slot and published index writable: LAUNCH
whose header passes every check starts the launch with the next sequence; CALLBUF nests and RETBUF returns, or halt
with QDEPTH and QRETBUF; JOIN waits for every earlier launch and lets the look-ahead go on; SIGNAL waits for them too
and stores, or adds, its value; WAITVAL issues when its condition holds and is armed else; MARK writes its word or is
ignored. A malformed packet halts the queue with QBADPKT; one whose ring slot was written over while it was not
released becomes 64 free bytes, which is the model's choice (log entry 73). The look-ahead takes the valid packet at
its position, in the ring or in a call buffer, free bytes at a slot that was written over; a halted queue restarts
from its read index; a destroyed queue is gone. -/
def Obligations.PacketsIssueInTheirOrder : Prop :=

  ∀ (s u : State) (q : Nat) (x : Queue) (p : List Byte),
    (∀ h es gs v w, s.takes q x p 1 u → u.queueLoad x (bytesAt p 8 8) 256 = (.ok h, v) → v.seqHeld x.ctx = false →
      v.launchCheck x (suppliedHeader p h) = (.ok (es, gs), w) →
      exec (.launch q) s = .next ((w.startLaunch x (suppliedHeader p h) (BitVec.ofNat 64 (bytesAt p 0x20 8))
        (BitVec.ofNat 64 (bytesAt p 0x28 8)) es gs).finishPacket q)) ∧
    (s.takes q x p 3 u → exec (.callbuf q) s =
      .next (if x.levels.length = 4 then u.haltQueue q 0x05 0 else u.finishPacket q)) ∧
    (s.takes q x p 4 u → exec (.retbuf q) s = .next (if x.levels = [] then u.haltQueue q 0x06 0 else u.finishPacket q)) ∧
    (s.takes q x p 5 u → u.launchesDone q = true → exec (.join q) s =
      .next ((u.modQueue q fun y => { y with joinHold := false }).finishPacket q)) ∧
    (∀ v w, s.takes q x p 6 u → u.launchesDone q = true →
      let at_ := bytesAt p 8 8
      let kind : AccessKind := if bytesAt p 0x18 1 = 0 then .store else .atomic
      u.carryAll.probe x.ctx kind at_ = (none, v) →
      let old := match (v.homeReadVa fabric x.ctx kind false at_ 8).1 with
        | .ok b => ofLeBytes b
        | .error _ => 0
      v.servedWrite x.ctx kind at_
        (leBytes 8 (if bytesAt p 0x18 1 = 0 then bytesAt p 0x10 8 else old + bytesAt p 0x10 8)) = (none, w) →
      exec (.signal q) s = .next (w.finishPacket q)) ∧
    (∀ b v, s.takes q x p 7 u → u.queueLoad x (bytesAt p 8 8) 8 = (.ok b, v) →
      (x.armed = false → exec (.waitval q) s = .next (v.finishPacket q)) ∧
      (x.armed = true → exec (.waitvalSatisfied q) s = .next (v.finishPacket q))) ∧
    (∀ v, s.takes q x p 9 u →
      (x.markAt = 0 → exec (.mark q) s = .next (u.finishPacket q)) ∧
      (x.markAt ≠ 0 → u.queueStore x x.markAt ((p.drop 8).take 8) = (none, v) →
        exec (.mark q) s = .next (v.finishPacket q))) ∧
    -- waits: JOIN and SIGNAL for the earlier launches, WAITVAL for its condition
    (s.queue? q = some x → x.ahead.head? = some p → packetBad p (s.protects x.ctx) = none → s.launchesDone q = false →
      (bytesAt p 0 1 = 5 → exec (.join q) s = .next s) ∧ (bytesAt p 0 1 = 6 → exec (.signal q) s = .next s)) ∧
    (∀ b, s.atIssue q x p → bytesAt p 0 1 = 7 → packetBad p (s.protects x.ctx) = none →
      (s.queueLoad x (bytesAt p 8 8) 8).1 = .ok b → waitvalHolds p (ofLeBytes b) = false →
      (x.armed = false → exec (.waitval q) s = .next (s.modQueue q fun y => { y with armed := true })) ∧
      (x.armed = true → exec (.waitvalSatisfied q) s = .next s)) ∧
    -- a packet that is malformed, and one that was written over since it was read
    (∀ off, s.atIssue q x p → packetBad p (s.protects x.ctx) = some off → x.armed = false →
      ∀ i ∈ [(1, Instr.launch q), (2, .ilaunch q), (3, .callbuf q), (4, .retbuf q), (5, .join q), (6, .signal q), (7, .waitval q),
          (8, .program q), (9, .mark q)],
        bytesAt p 0 1 = i.1 → exec i.2 s = .next ((s.served q x).haltQueue q 0x01 off)) ∧
    (s.queue? q = some x → s.queueRuns x = true → x.prologue = none → x.ahead.head? = some p → s.issuesNext x = true →
      x.rewritten.contains x.issued = true → x.spoilt = false → x.levels = [] → x.armed = false →
      ∀ i ∈ [(1, Instr.launch q), (2, .ilaunch q), (3, .callbuf q), (4, .retbuf q), (5, .join q), (6, .signal q), (7, .waitval q),
          (8, .program q), (9, .mark q)],
        bytesAt p 0 1 = i.1 → ∃ b : List Byte, b.length = 64 ∧ exec i.2 s = .next
          (({ s with fresh := s.fresh + 64 } : State).modQueue q fun y => { y with ahead := b :: y.ahead.drop 1, spoilt := true })) ∧
    -- the look-ahead stage, restart and destruction
    (let at_ := x.lookAt
     s.queue? q = some x → s.queueRuns x = true → x.joinHold = false ∨ x.ahead = [] → x.ahead.length < 64 →
       at_.2.length ≤ 4 → (at_.2 = [] → at_.1 < x.read + x.size) →
       let rewritten : Bool := at_.2 == [] && x.rewritten.contains at_.1
       (rewritten = true → ∃ b : List Byte, b.length = 64 ∧ exec (.lookaheadRead q) s = .next
         (({ s with fresh := s.fresh + 64 } : State).modQueue q fun y => { y with ahead := y.ahead ++ [b] })) ∧
       ∀ h v w, rewritten = false → s.queueLoad x (x.addrAt at_) 8 = (.ok h, v) → (ofLeBytes h).testBit 8 = true →
         let ty := ofLeBytes h % 256
         1 ≤ ty → ty ≤ 9 → x.ahead = [] ∨ ¬((ty = 3 ∧ 4 ≤ at_.2.length) ∨ (ty = 4 ∧ at_.2 = [])) →
         v.queueLoad x (x.addrAt at_) 64 = (.ok p, w) →
           exec (.lookaheadRead q) s = .next (w.modQueue q fun y => { y with ahead := y.ahead ++ [p], joinHold := ty == 5 })) ∧
    (s.queue? q = some x → x.halted = true → s.contextRuns x.ctx = true →
      exec (.queueRestart q) s = .next (s.modQueue q fun y => { y with
        halted := false, err := 0, ahead := [], levels := [], prologue := none, armed := false, joinHold := false,
        parked := if y.record.isSome then y.parked else none, spoilt := false, issued := y.read })) ∧
    (∃ t, exec (.queueDestroy q) s = .next t ∧ t.queues = s.queues.filter (fun y => y.num != q) ∧
      t.mem = s.mem ∧ t.contexts = s.contexts ∧ t.launches = s.launches)

/-- A core with room takes a launch’s next workgroup with its warps at their start; a swap-out frees the core; a
quantum commits its reductions (R27, R31, R32, R43, R44, R354, R425, log entry 27, log entry 28, log entry 29, log
entry 66, log entry 93). WORKGROUP_PLACE on a core with room, for a launch without clusters that is the one to place,
adds its next workgroup: handles free, barriers empty, the buffers of its header zero, the graphs of the launch, and
one warp for every 96 threads, each with its threads in one split at the launch's code address, s2:s3 holding the
argument address. CLUSTER_PLACE adds a whole cluster, one member a core, each by halves of its own. SWAP_OUT of a
workgroup that has waited long brings it to its canonical point, writes its image, with every warp recorded as at a
boundary, to the context's save area and takes it off its core. QUANTUM_COMMIT performs the reductions of every
quantum that can commit, in order, and wakes what waited. A reduction on a peer whose link is lost is not performed
and leaves PAGE pending in a split of its warp (R425). Each step leaves the state as it is where its condition fails.
How far the quanta commit, the order among reductions of one key, the canonical point and the save area are the
model's choices (log entries 27, 28, 29, 66 and 93). -/
def Obligations.PlacementSwapAndCommit : Prop :=

  ∀ (s : State) (l : Launch) (core cc ctx : Nat) (cores : List Nat) (halves : BitVec 12)
    (hs : List (BitVec 12)) (g : Workgroup) (c : Context) (k : LaunchKey) (wk : WgKey),
    (s.launch l.key = some l → s.placesNext l = true → l.hdr.c = 0 → s.hasRoom core l.hdr halves = true →
      let u := s.firstPlace l
      ∃ t, exec (.workgroupPlace l.key core halves) s = .next t ∧
        (∃ g, t.groups = s.groups ++ [g] ∧ g.key = ⟨l.key.ctx, l.key.seq, l.next⟩ ∧ g.core = core ∧ g.state = .resident ∧
          g.reserve = 0 ∧ g.entitlement = l.hdr.allot * l.hdr.warps ∧ g.graphs = l.graphs ∧
          (∀ b : Fin 4, (g.bufs[b]).cells = [] ∧ (g.bufs[b]).size = l.hdr.bufBytes b.val) ∧
          (∀ j : Fin 16, (g.handles[j]).state = .free ∧ (g.barriers[j]).arrived = [])) ∧
        (∃ ws, t.others = u.others ++ ws ∧ ws.length = l.hdr.warps ∧
          ∀ i, (h : i < ws.length) → ws[i].key = ⟨l.key.ctx, l.key.seq, l.next, i⟩ ∧ ws[i].live = true ∧ ws[i].core = core ∧
            ws[i].half = halves.getLsbD i ∧ ws[i].allot = l.hdr.allot ∧ ws[i].outstanding = [] ∧ ws[i].trapmask = false ∧
            (∃ p, ws[i].splits[0] = some p ∧ p.pc = BitVec.ofNat 57 l.hdr.code ∧ p.member = ws[i].threads ∧
              p.active = ws[i].threads ∧ p.wait = .ready) ∧
            (∀ j : Fin 4, j ≠ 0 → ws[i].splits[j] = none) ∧
            (∀ x : Lane, ws[i].threads.getLsbD x.val = decide (96 * i + x.val < l.hdr.threads)) ∧
            ws[i].s64 2 = BitVec.ofNat 64 l.hdr.args ∧
            (∀ (r : Reg) (x : Lane), ws[i].v r x = 0) ∧ (∀ r : Reg, r ≠ 2 → r ≠ 3 → r.val < 120 → ws[i].s r = 0)) ∧
        (l.next = 0 → ∀ x ∈ t.icache, x.ctx ≠ l.key.ctx) ∧ (l.next ≠ 0 → u = s) ∧ t.mem = u.mem ∧ t.caches = u.caches ∧
        t.warp = u.warp) ∧
    (s.launch l.key = some l → s.placesNext l = true → l.hdr.c ≠ 0 → cores.length = l.hdr.clsize → hs.length = l.hdr.clsize →
      cores.Nodup → (∀ x ∈ cores.zip hs, x.1 / 8 = cc ∧ s.hasRoom x.1 l.hdr x.2 = true) →
      exec (.clusterPlace l.key cc cores hs) s =
        .next ((((cores.zip hs).zipIdx).foldl (fun u x => u.startOn l (l.next + x.2) x.1.1 x.1.2) (s.firstPlace l)).modLaunch l.key
          fun l => { l with next := l.next + l.hdr.clsize })) ∧
    (s.contextRuns g.key.ctx = true → s.swapUnit g.key = [g] → g.state = .resident → s.swapReady g = true →
      let v := s.quietGroups [g.key]
      let save := ((v.context g.key.ctx).map (·.faultSave)).getD 0
      exec (.swapOut g.key) s = .next (((v.homeWrite Writer.device save ((v.modWarps (fun w => w.live && w.key.wg == g.key)
          fun w => w.recorded none).image g.key.ctx none (some [g.key]))).modGroup g.key
        fun x => if x.state = .resident then { x with state := .swapped, charge0 := 0, charge1 := 0 } else x).retryGrows.wake
          (fun _ => true) (· == .window) none)) ∧
    (s.detLaunch ctx = some l → s.context ctx = some c → s.contextRuns ctx = true →
      let q := 2 ^ l.hdr.q
      let target := s.commitTarget ctx q c.quanta
      let of (r : Reduction) : Nat := max c.quanta (r.clock / q)
      let all := (s.warps.filter fun w => w.key.ctx == ctx).flatMap fun w => w.reds.map fun r => (w, r)
      let due := sortBy (commitBefore q c.quanta) (all.filter fun x => decide (of x.2 < target))
      (target = c.quanta → exec (.quantumCommit ctx) s = .next s) ∧
      (target ≠ c.quanta → exec (.quantumCommit ctx) s = .next (
        (((due.foldl (fun u x => u.performRed x.1 (some ((of x.2 + 1) * q)) x.2) s).modWarps
          (fun w => w.live && w.key.ctx == ctx) fun w => { w with reds := w.reds.filter fun r => !decide (of r < target) }).modContext
          ctx fun c => { c with quanta := target }).wake (fun _ => true) (fun x => Wait.commits x || x == .hgive) none))) ∧
    -- a reduction at a peer whose link is down
    (∀ (w : Warp) (clock : Option Nat) (r : Reduction) (n : Nat), r.sb = false →
      let u := s.performOn w.key [(r.spot w.key.wg, 4 * r.ty.regs)]
      (∀ pa key, r.spot w.key.wg = .global pa key → u.place pa = .peer n) → (∀ y ∈ u.peers, y.num = n → y.up = false) →
      s.performRed w clock r = u.modWarpAt w.key fun x => x.pendTrap (some r.lane) .page r.va) ∧
    (∀ (w : Warp) (l : Lane) (c : Cause) (va : DWord) (i : Fin 4) (p : Split), w.splits[i] = some p → p.member.getLsbD l.val = true →
      p.trap = none → (∀ (j : Fin 4) (q : Split), w.splits[j] = some q → j ≠ i → q.member.getLsbD l.val = false) →
      w.pendTrap (some l) c va = { w with splits := w.splits.set i (some { p with trap := some ⟨c, va, p.pc, 0⟩ }) }) ∧
    -- where a step's condition fails
    ((∀ l, s.launch k = some l → s.placesNext l = false ∨ l.hdr.c ≠ 0 ∨ s.hasRoom core l.hdr halves = false) →
      exec (.workgroupPlace k core halves) s = .next s) ∧
    ((∀ l, s.launch k = some l → s.placesNext l = false ∨ l.hdr.c = 0 ∨ (cores.zip hs).length ≠ l.hdr.clsize ∨ ¬ cores.Nodup ∨
        ∃ x ∈ cores.zip hs, x.1 / 8 ≠ cc ∨ s.hasRoom x.1 l.hdr x.2 = false) →
      exec (.clusterPlace k cc cores hs) s = .next s) ∧
    (s.contextRuns wk.ctx = false ∨ (∀ g ∈ s.swapUnit wk, g.state ≠ .resident) ∨ (∃ g ∈ s.swapUnit wk, s.swapReady g = false) →
      exec (.swapOut wk) s = .next s) ∧
    (s.detLaunch ctx = none ∨ s.context ctx = none ∨ s.contextRuns ctx = false → exec (.quantumCommit ctx) s = .next s)

/-- Once its interface is open, the host creates and destroys contexts, enables queues, loads keys and groups,
attests, answers faults and accesses memory (R191, R361, R362, R418, R419, R420, R423, R431, log entry 55, log entry
56, log entry 57, log entry 92). With bring-up ended: CREATE of a record within its limits adds the context it
describes; QUEUE of a free number adds a queue with the descriptor, and a halted queue takes a changed one; KEYLOAD of
a free slot, its two operands alone, loads the key; GROUP of well-formed ranges replaces the group and fails the
collectives that a member's leaving stops; ATTEST writes the measurements with the device's signature after them;
ANSWER delivers or replays the parked access of the oldest fault record of its requester; DESTROY removes the context
with its work, queues, key and groups and begins its scrub; a refused command changes nothing but its answer, and
before the interface is open no command does anything. SCRUB_COMPLETE ends the first scrub, and with no context
checkpointed zeroes what is left of its frames and nothing else. A command of 64 bytes does what its code names. The
wrapped key's length (log entry 55), the report's and the group record's layouts (log entries 56, 57) and where a
command's operands lie (log entry 92) are the model's choices. -/
def Obligations.HostCommandsAct : Prop :=

  ∀ (s : State) (ctx q slot n record unused : Nat) (nonce : DWord) (p : Park) (deliver : Bool) (c : Context) (op : Fin 4 → DWord),
    let tells (s : State) (code : Nat) (ok : Bool) : State := { s with events := s.events ++ [.answer code ok] }
    let at_ (len : Nat) : List Byte := s.homeBytes none record len
    let made := s.newContext (at_ 128)
    let desc := at_ 64
    -- the group record's ranges, and a group that a member leaves by them
    let ranges := groupRanges (at_ (8 + 8 * n)) n
    let left (x : CollGroup) : Bool := x.ctx == ctx && x.num == slot && x.ranges.any fun y => !ranges.any fun z => z.1 == y.1
    (s.up = true →
    (contextRecordOk (at_ 128) = true → s.mayCreate made = true →
      exec (.create record) s = .next (tells { s with contexts := s.contexts ++ [made] } 1 true) ∧
      made.num = bytesAt (at_ 128) 0 2 ∧ made.pages = bytesAt (at_ 128) 8 8 ∧ made.dead = false ∧ made.frozen = false ∧
      made.holdings = [] ∧ made.nextSeq = 1) ∧
    (contextRecordOk (at_ 128) = false ∨ s.mayCreate made = false →
      exec (.create record) s = .next (tells s 1 false)) ∧
    ((s.context ctx).any (fun c => !c.dead) = true → q < 1024 → queueDescOk desc = true → s.queue? q = none →
      (∀ x ∈ s.scrubs, q ∉ x.queues) →
      exec (.queue ctx q record) s = .next (tells { s with queues := s.queues ++ [newQueue ctx q desc] } 3 true)) ∧
    (∀ x, (s.context ctx).any (fun c => !c.dead) = true → q < 1024 → queueDescOk desc = true → s.queue? q = some x →
      (∀ x ∈ s.scrubs, q ∉ x.queues) → exec (.queue ctx q record) s = .next (
        if x.ctx = ctx ∧ x.halted = true then
          tells (s.modQueue q fun x => { x with desc := desc, valid := [], rewritten := [] }) 3 true
        else tells s 3 false)) ∧
    (queueDescOk desc = false → exec (.queue ctx q record) s = .next (tells s 3 false)) ∧
    (slot < 64 → (∀ k ∈ s.keys, k.slot ≠ slot) → exec (.keyload slot record 0) s =
      .next (tells { s with keys := s.keys ++ [⟨slot, Config.unwrapKey (at_ 72)⟩] } 7 true)) ∧
    (unused ≠ 0 ∨ 64 ≤ slot ∨ (∃ k ∈ s.keys, k.slot = slot) → exec (.keyload slot record unused) s = .next (tells s 7 false)) ∧
    (exec (.attest nonce record) s = .next (tells (s.homeWrite Writer.device record
      (s.measurements nonce ++ (List.range 7856).map (Config.deviceSignature (s.measurements nonce)))) 8 true)) ∧
    (n = ofLeBytes (at_ 4) → n ≤ 256 → slot < 64 → (s.context ctx).isSome = true → rangesOk ranges = true →
      exec (.group ctx slot record) s = .next (tells { (s.failColls left) with
        collGroups := ⟨ctx, slot, ranges⟩ :: (s.failColls left).collGroups.filter fun x => !(x.ctx == ctx && x.num == slot) } 9 true)) ∧
    (n = ofLeBytes (at_ 4) → n ≤ 256 → 64 ≤ slot ∨ s.context ctx = none ∨ rangesOk ranges = false →
      exec (.group ctx slot record) s = .next (tells s 9 false)) ∧
    -- the oldest fault record of the requester that the command names
    (∀ a, s.parks.find? (fun x => x.cause.isSome && x.ctx == ctx && s.requesterNum x == n) = some p → p.cause = some a →
      exec (.answer n ctx deliver) s = .next (tells (if deliver then s.deliverPark p a else s.replayPark p) 6 true)) ∧
    ((∀ x ∈ s.parks, ¬ (x.cause.isSome = true ∧ x.ctx = ctx ∧ s.requesterNum x = n)) →
      exec (.answer n ctx deliver) s = .next (tells s 6 false)) ∧
    (s.context ctx = some c → ∃ t, exec (.destroy ctx) s = .next t ∧ t.context ctx = none ∧
      (∀ x ∈ t.queues, x.ctx ≠ ctx) ∧ t.keys = s.keys.filter (fun x => !(c.protect && x.slot == c.keySlot)) ∧
      (∀ x ∈ t.collGroups, x.ctx ≠ ctx) ∧
      (∀ x ∈ t.groups, x.key.ctx ≠ ctx) ∧ (∀ x ∈ t.launches, x.key.ctx ≠ ctx) ∧ (∀ x ∈ t.warps, x.key.ctx ≠ ctx) ∧
      t.scrubs = s.scrubs ++ [s.scrubOf c] ∧ t.mem = s.mem) ∧
    (s.context ctx = none → exec (.destroy ctx) s = .next (tells s 2 false)) ∧
    -- a command of 64 bytes is its code, then its operands
    (let bytes (code k : Nat) : List Byte := leBytes 8 code ++
       ((List.finRange 4).flatMap fun i => if i.val < k then leBytes 8 (op i).toNat else zeros 8) ++ zeros 24
     let v (i : Fin 4) : Nat := (op i).toNat
     s.hostCommand (bytes 1 1) = exec (.create (v 0)) s ∧ s.hostCommand (bytes 2 1) = exec (.destroy (v 0)) s ∧
     s.hostCommand (bytes 3 3) = exec (.queue (v 0) (v 1) (v 2)) s ∧ s.hostCommand (bytes 4 2) = exec (.preempt (v 0) (v 1)) s ∧
     s.hostCommand (bytes 5 2) = exec (.plant (v 0) (v 1)) s ∧
     (v 3 < 2 → s.hostCommand (bytes 6 4) = exec (.answer (v 0 + v 1 * 2 ^ 64) (v 2) (v 3 == 1)) s) ∧
     s.hostCommand (bytes 7 2) = exec (.keyload (v 0) (v 1) 0) s ∧
     s.hostCommand (bytes 8 2) = exec (.attest (op 0) (v 1)) s ∧ s.hostCommand (bytes 9 3) = exec (.group (v 0) (v 1) (v 2)) s)) ∧
    (s.up = false → s.scrubs = [] → ∀ i ∈ [Instr.create record, .destroy ctx, .queue ctx q record, .answer n ctx deliver,
      .keyload slot record unused, .attest nonce record, .group ctx slot record], exec i s = .next s) ∧
    (∀ x rest, s.scrubs = x :: rest → ∃ t, exec .scrubComplete s = .next t ∧ t.scrubs = rest ∧
      t.scrubRestarted = x.restarted ∧ t.up = (s.up || (x.restarted && !rest.any (·.restarted))) ∧
      ((∀ c ∈ s.contexts, c.interval = 0) →
        -- what the engine has left to zero: the frames past the bytes it has zeroed
        let pieces := scrubPieces x.frames x.zeroed (x.size - x.zeroed)
        (x.zeroed = 0 → ∀ f ∈ x.frames, ∀ a, f.1 ≤ a → a < f.1 + f.2 → cellGet t.mem a = 0) ∧
        (∀ f ∈ pieces, ∀ a, f.1 ≤ a → a < f.1 + f.2 → cellGet t.mem a = 0) ∧
        (∀ a, (∀ f ∈ pieces, a < f.1 ∨ f.1 + f.2 ≤ a) → cellGet t.mem a = cellGet s.mem a) ∧ t.contexts = s.contexts))

/-- Host and peer accesses reach what translates and is assigned, a dropped link fails its uses, a reset keeps memory,
keys, poison, retired cores, scrubs (R231, R257, R258, R412, R424, R425, R431, log entry 39, log entry 58). A
HOST_ACCESS read whose pieces translate with the host bit gives the bytes at their places, at the home slices on a
mailbox member and at memory on a window member; a write goes there, after copy-on-write pages in its way are served;
an atomic is performed by the port unit and gives the old value; a write to the coherent window goes to its bytes. A
byte of an engine's undefined result reads as a free one. One that does not translate is refused, which is the model's
choice (log entry 39). A PEER_ACCESS of an assigned peer whose link is up reads or writes at the home slices, or
performs an atomic of R230 there and gives the old value; of any other it does nothing. LINK_DROP marks the peer's
link down, fails what is in flight to it and the collectives of its groups. RESET leaves the state of a reset but for
memory, the lines' keys, poisoned lines, retired cores, the scrub list, which starts over, and the model's own fields,
the model's choice (log entry 58); the host's interface opens at once when no scrub was left. -/
def Obligations.OutsideAccessesAndReset : Prop :=

  ∀ (s : State) (ctx len addr peer : Nat) (bytes : List Byte) (v : DWord) (wide : Bool) (x : OuterAtomic),
    let tells (s : State) (e : HostEvent) : State := { s with events := s.events ++ [e] }
    let width := 4 * x.ty.regs
    let windowed := Config.windowed s.member
    -- the atomic at a place of the member, from the state `u`
    let performed (u : State) (who key : Option Nat) (pa : Nat) (t : State) : Prop :=
      let r := u.atomicAt ⟨who, none, none, none⟩ fabric .portUnit (AOp.ofOpcode x.opcode) x.ty .both (.global pa key) x.v x.c
      t = tells r.2 (.read (r.2.seen 0 pa (leBytes width r.1)))
    let served (u : State) (pa : Nat) : Prop :=
      (AOp.ofOpcode x.opcode).opcode = x.opcode ∧ (AOp.ofOpcode x.opcode).accepts x.ty = true ∧ pa % width = 0 ∧ u.cacheable pa = true
    (s.up = true →
      (∀ l u, s.hostPlaces ctx addr len .load = (.ok l, u) → exec (.hostAccess ⟨ctx, false, addr, len, none, none⟩) s =
        .next (tells u (.read (l.flatMap fun y => u.seen 0 y.1 [if windowed then u.memoryByte y.2 y.1 else u.homeByte y.2 y.1])))) ∧
      (∀ e u, s.hostPlaces ctx addr len .load = (.error e, u) →
        exec (.hostAccess ⟨ctx, false, addr, len, none, none⟩) s = .next (tells u .refusedAccess)) ∧
      (∀ l u, (s.hostCow ctx addr bytes.length).hostPlaces ctx addr bytes.length .store = (.ok l, u) →
        exec (.hostAccess ⟨ctx, false, addr, len, some bytes, none⟩) s = .next (((l.zip bytes).foldl (fun u y =>
          let w : Writer := ⟨some ctx, y.1.2, none, none⟩
          if Config.windowed u.member then u.memoryWrite w y.1.1 y.2 else u.homeWrite w y.1.1 [y.2]) u).healLines (l.map (·.1)))) ∧
      (∀ pa key l u, (s.hostCow ctx addr width).hostPlaces ctx addr width .atomic = (.ok ((pa, key) :: l), u) → served u pa →
        ∃ t, exec (.hostAccess ⟨ctx, false, addr, len, none, some x⟩) s = .next t ∧ performed u (some ctx) key pa t)) ∧
    (s.up = true → windowed = true → addr + bytes.length ≤ 65536 →
      exec (.hostAccess ⟨ctx, true, addr, len, some bytes, none⟩) s =
        .next (s.homeWrite Writer.device (0xF000000010000 + addr) bytes)) ∧
    (s.up = false → exec (.hostAccess ⟨ctx, false, addr, len, none, none⟩) s = .next s) ∧
    ((∃ y ∈ s.peers, y.num = peer ∧ y.up = true) →
      exec (.peerAccess peer ⟨addr, .read len⟩) s = .next (tells s (.read (s.peerBytes addr len))) ∧
      exec (.peerAccess peer ⟨addr, .write bytes⟩) s = .next (s.peerWrite addr bytes) ∧
      (s.place addr = .local → served s addr → ∃ t, exec (.peerAccess peer ⟨addr, .atomic x⟩) s = .next t ∧
        performed s none none addr t) ∧
      (s.place addr = .local → served s addr → x = ⟨0x70, if wide then .n64 else .n32, v.toNat, 0⟩ →
        ∃ t, exec (.peerAccess peer ⟨addr, .add wide v⟩) s = .next t ∧ performed s none none addr t)) ∧
    ((∀ y ∈ s.peers, y.num = peer → y.up = false) → ∀ a : PeerAccess, exec (.peerAccess peer a) s = .next s) ∧
    (let u : State := { s with peers := s.peers.map fun y => if y.num == peer then { y with up := false } else y }
     exec (.linkDrop peer) s = .next ((u.failInFlight peer).failColls fun g => g.ranges.any fun y => y.1 == peer)) ∧
    (exec .reset s = .next { State.reset with
      member := s.member, fresh := s.fresh, agenda := s.agenda, mem := s.mem, lineKeys := s.lineKeys, poisoned := s.poisoned,
      retiredCores := s.retiredCores, scrubs := s.scrubs.map (fun x => { x with zeroed := 0, restarted := true }),
      scrubRestarted := s.scrubs != [], up := s.scrubs == [] })

/-- Checkpoints write the image to the other area, a rollback plants the last one, a pre-emption freezes, a planting
places, the page engine serves (R191, R195, R196, R394, R408, R410, R415, R416, R417, R427). For a context that runs
and stands at its canonical point: a due CHECKPOINT writes the image to the area that is not current, which then is,
and empties the log; PREEMPT writes the image at the address asked for, takes the context's work out and freezes it.
ROLLBACK restores the logged lines, takes the work out and plants the current area's image; what its collectives had
contributed may be contributed again. PLANT of an image into a context that holds no work gives it the image's state,
or reports its status and places nothing. COW_SERVICE gives a parked write a frame of its own and replays it, or
offers it as PAGEPOOL; POOL_REPLAY replays an access once the pool has frames. -/
def Obligations.CheckpointRollbackPreemptPlantAndPages : Prop :=

  ∀ (s : State) (ctx a : Nat) (c : Context) (p : Park), s.context ctx = some c → s.contextRuns ctx = true →
    let dueNow := s.modContext ctx fun c => { c with checkDue := true }
    let asked := ({ s with events := s.events ++ [.answer 4 true] } : State).modContext ctx fun c =>
      { c with saves := c.saves ++ [a] }
    -- the image goes to the area that is not current
    let checkpoint (u : State) : State :=
      let u := u.quiet ctx
      let image := (u.recorded ctx none).image ctx none none
      match u.context ctx with
      | none => u
      | some c =>
        let toB := c.current == some false
        let v := (u.keepBeside ctx).homeWrite Writer.device (if toB then c.areaB else c.areaA) image
        v.modContext ctx fun c =>
          { c with current := some toB, logCount := 0, logged := [], spill := [], checkDue := false, lastCheck := v.now }
    (s.checkpointDue c = true → c.saves = [] → dueNow.canonical ctx = true →
      exec (.checkpoint ctx) s = .next (checkpoint dueNow)) ∧
    (s.checkpointDue c = false → exec (.checkpoint ctx) s = .next s) ∧
    (s.up = true → c.saves = [] → c.checkDue = false → asked.canonical ctx = true →
      exec (.preempt ctx a) s = .next (((asked.saveImage ctx a none).dropWork ctx).modContext ctx
        fun c => { c with saves := [], frozen := true })) ∧
    (s.up = true → c.saves = [] → c.checkDue = false → asked.canonical ctx = false → exec (.preempt ctx a) s = .next asked) ∧
    (s.canRollback ctx = true → exec (.rollback ctx) s = .next (
      let v := (s.undoWrites c).dropWork ctx
      let v : State := { v with queues := v.queues.map fun (x : Queue) => if x.ctx == ctx then { x with rewritten := [] } else x }
      let u := (v.plantImage ctx (if c.current == some true then c.areaB else c.areaA)).2
      { u with events := u.events ++ [.rolledBack ctx] })) ∧
    (s.canRollback ctx = false → exec (.rollback ctx) s = .next s) ∧
    (s.up = true → s.plantable ctx = true →
      let img := s.readImage a
      let status := imageStatus (c.protect && s.keys.any fun k => k.slot == c.keySlot) img
      let u := if status.1 = 0 then s.plantAll ctx img status.2 else s
      exec (.plant ctx a) s = .next
        { u with events := u.events ++ [.plantStatus ctx status.1, .answer 5 (status.1 == 0)] }) ∧
    (s.up = true → s.plantable ctx = false →
      exec (.plant ctx a) s = .next { s with events := s.events ++ [.answer 5 false] }) ∧
    (s.parkOf p.id = some p → p.cause = none →
      (∀ u, s.cowServe p.ctx p.va = (true, u) → exec (.cowService p.id) s = .next (u.replay p)) ∧
      (∀ u, s.cowServe p.ctx p.va = (false, u) → exec (.cowService p.id) s = .next (u.offerPool p))) ∧
    (s.parkOf p.id = some p → p.cause = some .pagepool →
      (s.poolCount p.ctx ≠ 0 → exec (.poolReplay p.id) s = .next (s.replay p)) ∧
      (s.poolCount p.ctx = 0 → exec (.poolReplay p.id) s = .next s))

/-- An instruction inside a window runs beside the long one; a closing one completes it first; debug mode finds the
violation (R55, R56, R57, R58, R60, R106, R247). For a split with one outstanding long instruction that raises no flag
and an instruction whose fields are well-formed and within the allotment: a B-class form, and any form once the window
admits no more, first writes the long instruction's results back, with its window closed, and then runs its own rule.
A form that only waits for long instructions has the results written back with the window still open. Any other form
runs its rule with the window open, and retiring counts one instruction off it. A long instruction that ended in a
trap delivers it where its window closes: the instruction there has not executed, TRAPPC is the PC and TRAPLI names
the long instruction; so it does where an instruction inside the window raises a cause. An access of the long
instruction that still waits is performed first, an atomic that acquires before any instruction of its warp. In a
debug launch an instruction inside the window that touches a register of it raises HAZARD with the long instruction's
address. No other split is ready before the long instruction has completed. -/
def Obligations.LongInstructionWindows : Prop :=

  ∀ (s : State) (i : Instr) (f : Form) (rule : State → Res) (l : LongOp),
    s.gated f.sync = false → s.warp.outstanding = [l] → l.split = s.warp.cur → l.flags = 0 →
    f.undef = false → f.badType = false → (∀ r ∈ f.use.vr ++ f.use.vw, r < s.warp.allot) →
    let closes : Prop := f.cls = .b ∨ l.left = 0
    -- the access performed, and then the results written
    let x := State.performOp { s with warp := { s.warp with outstanding := [] } } l .both
    let t := x.2.modWarp fun w => x.1.wb.foldl WriteBack.apply w
    let keeps (u : State) (l : LongOp) : State := u.modWarp fun w => { w with outstanding := [l] }
    -- the state in which an instruction inside the window runs
    let inside : State :=
      if f.waits = true then keeps t { x.1 with wb := [] }
      else if l.acquires = true then keeps x.2 x.1 else s
    let touches : Prop := (∃ r ∈ f.use.reads, r ∈ l.writes) ∨ ∃ r ∈ f.use.writes, r ∈ l.writes ∨ r ∈ l.reads
    (x.1.trap = none → closes → s.issue i f rule = t.finish (rule t)) ∧
    (x.1.trap = none → ¬closes → (s.hdr.debug = true → ¬touches) →
      s.issue i f rule = inside.finish (rule inside)) ∧
    (¬closes → s.hdr.debug = true → touches → s.issue i f rule = inside.trapHere .hazard (ofPc l.pc)) ∧
    (∀ c a, x.1.trap = some (c, a) → c ≠ .doublefault → s.mayEnter →
      closes ∨ ((s.hdr.debug = true → ¬touches) ∧ ∃ u c' a', rule inside = .trap u c' a') →
      s.issue i f rule = t.modWarp fun w => w.enter s.trapBase c a s.warp.sp.pc l.pc) ∧
    (s.retire).warp.outstanding = [{ l with left := l.left - 1 }] ∧
    (l.wb ≠ [] → ∀ k, k ≠ s.warp.cur → s.warp.splitReady k = false)

/-- After reset nothing is open, no context, queue or warp is left, and memory is in its canonical form (R431, log
entry 1, log entry 3, log entry 59). State.reset, the machine right after reset: the mailbox is not open, no context,
launch, workgroup, live warp, queue, parked access, key slot, collective, scrub or peer exists, nothing is cached,
translated or left to be performed. Memory lists nothing, so it has the canonical form and every byte reads as the
model's default (log entry 3, the model's choice, as is the member, log entry 1). In the running warp, which is not
live, every scalar, vector and predicate register, every special register and the random counters hold 0, which is the
model's choice (log entry 59). -/
def Obligations.ResetLeavesNothingRunning : Prop :=

  State.reset.up = false ∧ State.reset.contexts = [] ∧ State.reset.launches = [] ∧ State.reset.groups = [] ∧
    State.reset.warp.live = false ∧ State.reset.others = [] ∧ State.reset.queues = [] ∧ State.reset.parks = [] ∧
    State.reset.keys = [] ∧ State.reset.collGroups = [] ∧ State.reset.instances = [] ∧ State.reset.scrubs = [] ∧
    State.reset.peers = [] ∧ State.reset.caches = [] ∧ State.reset.l2 = [] ∧ State.reset.tlb = [] ∧
    State.reset.icache = [] ∧ State.reset.xlats = [] ∧ State.reset.late = [] ∧ State.reset.slow = false ∧
    State.reset.named = [] ∧ State.reset.monitors = [] ∧ State.reset.errors = 0 ∧
    State.reset.memWf ∧ (∀ a, cellGet State.reset.mem a = Memory.default) ∧
    (∀ r, State.reset.warp.s r = 0) ∧ (∀ r l, State.reset.warp.v r l = 0) ∧ (∀ r, r.val ≠ 0 → State.reset.warp.p r = 0) ∧
    (let w := State.reset.warp
     w.fflags = 0 ∧ w.clausest = 0 ∧ w.rngstream = 0 ∧ (∀ l : Lane, w.counters[l] = 0) ∧ w.trapcause = 0 ∧ w.trappc = 0 ∧
       w.trapaddr = 0 ∧ w.trapmask = false ∧ w.trapli = 0 ∧ w.lklast = 0 ∧ w.barcount = 0 ∧ w.clock = 0 ∧ w.issued = 0 ∧
       w.outstanding = [] ∧ w.reds = [] ∧ w.hold = none ∧ w.wound = none ∧ w.revoked = none)

/-- Every step that answers a next state keeps memory in its canonical form (R12, R412). For every state whose memory
lists rising addresses and no byte equal to what an unlisted address reads as: if a step answers a next state,
whatever it runs, its memory has that form too. Equal memories are then equal data. The form is the model's own. -/
def Obligations.EveryStepKeepsMemoryCanonical : Prop :=

  ∀ s t : State, s.memWf → step s = .next t → t.memWf

/-- A step runs what the word at the program counter decodes to (R33, R47, R65, R78, R176, R386, R415). When a step's
turn is a warp's, named by the agenda or picked, and that warp may issue and is not passed over after a YIELD: its
boundary chooses a split; the four bytes at the split's PC, the lowest address first, through the translation, are the
word, unless the core's instruction cache holds it or its line has been written while the launch runs; if the word
decodes to i, the step is exec i at the state after the fetch; if it is no instruction, it is UNDEF of that word; if
the fetch faults, the fault is taken. A boundary with nothing outstanding, nothing to merge or promote, no wound due
and no trap pending only makes the chosen split the running one. An instruction that deterministic mode does not hold
back takes its half's cycle, so that no warp there is passed over any longer. A warp that may not issue changes
nothing. A turn that is a step without a word is exec of it. A step that would fill a context's write log is not made,
and a checkpoint is due instead. Which agent moves is the model's (the spec leaves the order open). -/
def Obligations.AStepRunsTheDecodedInstruction : Prop :=

  ∀ (s : State) (k : WarpKey) (ts : List Turn),
    let b := s.begun
    let q := { b with agenda := ts }
    (s.agenda = .issue k :: ts → step s = b.guardLog (issueFrom k q)) ∧
    (s.agenda = .issueLate k :: ts → step s = b.guardLog (later q (issueFrom k))) ∧
    (s.agenda = [] → b.pick = some k → (b.now % 2 = 1 ∨ b.deviceMove = none) → step s = b.guardLog (issueFrom k b)) ∧
    (∀ t, s.agenda = [] → (b.pick = none ∨ b.now % 2 = 0) → b.deviceMove = some t → step s = b.guardLog (.next t)) ∧
    (∀ i, s.agenda = .event i :: ts → step s = b.guardLog (exec i q)) ∧
    (∀ t, b.guardLog (.next t) = .next (match b.logsFilled t with
      | [] => t
      | l => l.foldl (fun u n => u.modContext n fun c => { c with checkDue := true }) b)) ∧
    ∀ p : State,
      let v := p.focus k
      (¬(v.warp.key = k ∧ v.mayIssue v.warp = true ∧ v.passedOver v.warp = false) → issueFrom k p = .next v) ∧
      (v.warp.key = k → v.mayIssue v.warp = true → v.passedOver v.warp = false →
        (∀ t, v.atBoundary = (t, false) → issueFrom k p = .next t) ∧
        ∀ t, v.atBoundary = (t, true) →
          -- the state in which `i` executes: YIELD's passing over ends with the half's issue cycle
          let at_ (u : State) (i : Instr) : State := if u.gated (instrSyncs i) = true then u else u.takesCycle
          (∀ w u i, t.fetched = (.ok w, u) → decode w = .ok i → issueFrom k p = exec i (at_ u i)) ∧
          (∀ w u e, t.fetched = (.ok w, u) → decode w = .error e → issueFrom k p = exec (.undef w) (at_ u (.undef w))) ∧
          (∀ u : State, (∀ y ∈ u.warps, y.passed = false) → u.takesCycle = u) ∧
          (∀ x u, t.fetched = (.error x, u) → issueFrom k p = .next (u.fetchFault x)) ∧
          (∀ x y, (∀ c ∈ t.icache, ¬(c.core = t.warp.core ∧ c.ctx = t.warp.key.ctx ∧ c.addr = t.warp.sp.pc.toNat)) →
            (∀ c ∈ y.codeLines, c.line ≠ x.pa / 64) →
            t.translate t.warp.core t.warp.key.ctx (ofPc t.warp.sp.pc) .fetch false = (.ok x, y) →
            (t.fetched).1 = .ok (wordOfBytes (y.homeByte x.key x.pa) (y.homeByte x.key (x.pa + 1))
              (y.homeByte x.key (x.pa + 2)) (y.homeByte x.key (x.pa + 3))))) ∧
      (∀ j, v.warp.outstanding = [] → v.warp.boundary = v.warp → v.warp.candidate v.det = some j → v.warp.woundDue = false →
        (v.warp.splits[j].getD Split.empty).trap = none →
        v.atBoundary = (v.modWarp (fun w => { w with cur := j, yielded := none }), true))

/-- A word decodes to an instruction exactly when the instruction is well-formed and encodes to that word (R47, R48,
R62, R63, R65). For every instruction i and word w: decoding w gives i if and only if i is well-formed and its
encoding, by the tables, is w. So decoding an encoded well-formed instruction gives it back with every operand, every
decoded word is the encoding of its instruction, and no bit of a word is dropped. The steps without a word have no
encoding. -/
def Obligations.EncodedInstructionsDecodeToThemselves : Prop :=

  ∀ (i : Instr) (w : Word), decode w = .ok i ↔ i.wf = true ∧ encode i = some w

/-- Words written out by the formats of R47 decode to their instructions (R47, R48, R50, R62, R63, R65). A few words,
written as the fields of R47 with the opcodes and minors of R62 and R63, decode to the instruction they stand for;
opcode 0, a reserved opcode, an unlisted minor, a nonzero reserved field, an odd pair and a shift of 32 are refused by
name. -/
def Obligations.WordsOfTheEncodingDecode : Prop :=

  decode (0x01#7 ++ 0#25) = .ok .nop ∧
    decode (0x10#7 ++ 1#7 ++ 2#7 ++ 3#7 ++ 0#4) = .ok (.sadd 1 2 3) ∧
    decode (0x11#7 ++ 9#7 ++ 8#7 ++ 0x7FF#11) = .ok (.saddi 9 8 0x7FF) ∧
    decode (0x03#7 ++ 0x1FFFFFF#25) = .ok (.bra 0x1FFFFFF) ∧
    decode (0x08#7 ++ 4#7 ++ 5#18) = .ok (.call 4 5) ∧
    decode (0x02#7 ++ 3#4 ++ 1#1 ++ 5#3 ++ 15#5 ++ 2#3 ++ 0#3 ++ 6#4 ++ 1#2) =
      .ok (.clause ⟨3, true, 5, .f32, .rtz, .g96, .device, .acquire⟩) ∧
    decode (0x25#7 ++ 1#7 ++ 2#7 ++ 3#7 ++ 0xB#4) = .ok (.vsel 1 2 3 true 3) ∧
    decode (0x30#7 ++ 1#7 ++ 2#7 ++ 3#7 ++ 6#4) = .ok (.fadd 1 2 3 .sr) ∧
    decode (0x60#7 ++ 1#7 ++ 2#7 ++ 4#7 ++ 7#4) = .ok (.ldg 1 2 4 7) ∧
    decode (0x4D#7 ++ 0#7 ++ 63#7 ++ 1#7 ++ 6#4) = .ok (.fence 63 1) ∧
    decode (0x59#7 ++ 5#7 ++ 0#7 ++ 73#11) = .ok (.srd 5 .cycle) ∧
    decode (0#32) = .error .reservedOpcode ∧ decode (0x7F#7 ++ 0#25) = .error .reservedOpcode ∧
    decode (0x1C#7 ++ 0#21 ++ 8#4) = .error .badMinor ∧ decode (0x01#7 ++ 0#24 ++ 1#1) = .error .reservedField ∧
    decode (0x08#7 ++ 5#7 ++ 0#18) = .error .badRegister ∧
    decode (0x15#7 ++ 1#7 ++ 1#7 ++ 32#11) = .error .badRegister ∧
    decode (0x1A#7 ++ 1#7 ++ 1#7 ++ 1#7 ++ 6#4) = .error .badCode
end

