-- ==== Sys2Proof/Laws/Bits.lean ====
section
/-! SUPPORT. The helpers of the integer instructions, bit by bit and element by element (R81, R112, R114, R118, R124). -/

namespace Sys2Proof.Machine

/-! Bits of a number. -/

theorem bitsOf_one (v i : Nat) : (bitsOf v i 1 == 1) = v.testBit i := by
  simp only [bitsOf, Nat.testBit_eq_decide_div_mod_eq, pow_one]
  rfl

theorem wrapTo_lt (w : Nat) (v : Int) : wrapTo w v < 2 ^ w := by
  have h : (0 : Int) < 2 ^ w := by positivity
  have a := Int.emod_nonneg v (ne_of_gt h)
  have b := Int.emod_lt_of_pos v h
  have e : ((wrapTo w v : Nat) : Int) = v % (2 ^ w : Int) := Int.toNat_of_nonneg a
  have : ((wrapTo w v : Nat) : Int) < ((2 ^ w : Nat) : Int) := by rw [e]; push_cast; exact b
  exact_mod_cast this

theorem wrapTo_natCast (w n : Nat) : wrapTo w (n : Int) = n % 2 ^ w := by
  have e : ((n : Int) % (2 ^ w : Int)) = ((n % 2 ^ w : Nat) : Int) := by push_cast; rfl
  rw [wrapTo, e, Int.toNat_natCast]

theorem popc_eq (w v : Nat) : popc w v = ((List.range w).filter fun i => v.testBit i).length := by
  simp only [popc, bitsOf_one]

theorem brev_succ (w v n : Nat) (h : n ≤ w) :
    ((List.range n).foldl (fun x i => x + bitsOf v i 1 * 2 ^ (w - 1 - i)) 0) % 2 ^ (w - n) = 0 ∧
    ((List.range n).foldl (fun x i => x + bitsOf v i 1 * 2 ^ (w - 1 - i)) 0) < 2 ^ w ∧
    ∀ i < w, w - n ≤ i →
      ((List.range n).foldl (fun x i => x + bitsOf v i 1 * 2 ^ (w - 1 - i)) 0).testBit i = v.testBit (w - 1 - i) := by
  induction n with
  | zero =>
    refine ⟨by simp, by simp, fun i hi hw => by omega⟩
  | succ n ih =>
    obtain ⟨h1, h2, h3⟩ := ih (by omega)
    rw [List.range_succ, List.foldl_append, List.foldl_cons, List.foldl_nil]
    generalize (List.range n).foldl (fun x i => x + bitsOf v i 1 * 2 ^ (w - 1 - i)) 0 = x at *
    have e : w - n = (w - 1 - n) + 1 := by omega
    rw [e] at h1
    obtain ⟨k, hk⟩ : ∃ k, x = 2 ^ (w - 1 - n + 1) * k := ⟨x / 2 ^ (w - 1 - n + 1), by
      have := Nat.div_add_mod x (2 ^ (w - 1 - n + 1)); omega⟩
    have hb : bitsOf v n 1 = (v.testBit n).toNat := by
      rw [← bitsOf_one]
      have : bitsOf v n 1 < 2 := Nat.mod_lt _ (by norm_num)
      obtain h | h : bitsOf v n 1 = 0 ∨ bitsOf v n 1 = 1 := by omega
      all_goals simp [h]
    have hx : x + bitsOf v n 1 * 2 ^ (w - 1 - n) = 2 ^ (w - 1 - n) * (2 * k + (v.testBit n).toNat) := by
      rw [hk, hb, pow_succ]; ring
    have e2 : w - (n + 1) = w - 1 - n := by omega
    have ewn : 2 ^ w = 2 ^ (w - 1 - n + 1) * 2 ^ n := by rw [← pow_add]; congr 1; omega
    have hkb : k < 2 ^ n := by
      rw [hk, ewn] at h2
      exact Nat.lt_of_mul_lt_mul_left h2
    refine ⟨?_, ?_, ?_⟩
    · rw [hx, e2]; simp
    · rw [hx, ewn, pow_succ, mul_assoc]
      apply Nat.mul_lt_mul_of_pos_left _ (by positivity)
      have : (v.testBit n).toNat ≤ 1 := Bool.toNat_le _
      omega
    · intro i hi hw
      rw [hx, Nat.testBit_two_pow_mul]
      have : w - 1 - n ≤ i := by omega
      simp only [this, decide_true, Bool.true_and]
      by_cases hin : i = w - 1 - n
      · subst hin
        rw [show w - 1 - (w - 1 - n) = n by omega]
        simp only [Nat.sub_self, Nat.testBit_zero]
        cases v.testBit n <;> simp [Nat.add_mod]
      · have h4 := h3 i hi (by omega)
        rw [hk, Nat.testBit_two_pow_mul] at h4
        rw [← h4]
        have h5 : w - 1 - n + 1 ≤ i := by omega
        simp only [h5, decide_true, Bool.true_and]
        rw [show i - (w - 1 - n) = (i - (w - 1 - n + 1)) + 1 by omega, Nat.testBit_succ]
        congr 1
        cases v.testBit n <;> simp <;> omega

theorem testBit_brev (w v i : Nat) (h : i < w) : (brev w v).testBit i = v.testBit (w - 1 - i) :=
  (brev_succ w v w le_rfl).2.2 i h (by omega)
theorem brev_lt (w v : Nat) : brev w v < 2 ^ w := (brev_succ w v w le_rfl).2.1

theorem clz_zero (w : Nat) : clz w 0 = w := rfl
/-- The count of leading zeros of a value that is not 0: the bit below them is set, every bit above is clear. -/
theorem clz_spec (w v : Nat) (h0 : v ≠ 0) (h : v < 2 ^ w) :
    clz w v < w ∧ v.testBit (w - 1 - clz w v) = true ∧ ∀ i < w, w - 1 - clz w v < i → v.testBit i = false := by
  have hl : v.log2 < w := (Nat.log2_lt h0).2 h
  have e : clz w v = w - 1 - v.log2 := by simp [clz, h0, floorLog2]
  have e2 : w - 1 - clz w v = v.log2 := by omega
  refine ⟨by omega, ?_, ?_⟩
  · rw [e2, Nat.testBit_eq_decide_div_mod_eq]
    have a := Nat.log2_self_le h0
    have b := @Nat.lt_log2_self v
    have : v / 2 ^ v.log2 = 1 := by
      apply Nat.div_eq_of_lt_le <;> [simpa using a; (rw [show (1 + 1) * 2 ^ v.log2 = 2 ^ (v.log2 + 1) by ring]; exact b)]
    simp [this]
  · intro i hi hlt
    rw [e2] at hlt
    apply Nat.testBit_eq_false_of_lt
    exact lt_of_lt_of_le (@Nat.lt_log2_self v) (Nat.pow_le_pow_right (by norm_num) hlt)

theorem ctz_zero (w : Nat) : ctz w 0 = w := by
  unfold ctz
  rw [List.find?_eq_none.2]
  · rfl
  · intro x _; simp [bitsOf]
/-- The count of trailing zeros of a value that is not 0: the bit above them is set, every bit below is clear. -/
theorem ctz_spec (w v : Nat) (h0 : v ≠ 0) (h : v < 2 ^ w) :
    ctz w v < w ∧ v.testBit (ctz w v) = true ∧ ∀ i < ctz w v, v.testBit i = false := by
  unfold ctz
  simp only [bitsOf_one]
  cases e : (List.range w).find? fun i => v.testBit i with
  | none =>
    exfalso
    apply h0
    apply Nat.eq_of_testBit_eq
    intro i
    rw [Nat.zero_testBit]
    by_cases hi : i < w
    · have := List.find?_eq_none.1 e i (List.mem_range.2 hi)
      simpa using this
    · exact Nat.testBit_eq_false_of_lt (lt_of_lt_of_le h (Nat.pow_le_pow_right (by norm_num) (by omega)))
  | some c =>
    simp only [Option.getD_some]
    rw [List.find?_range_eq_some] at e
    refine ⟨by have := e.2.1; simpa using this, e.1, ?_⟩
    intro i hi
    simpa using e.2.2 i hi

/-! The bit-field forms (R118). -/

theorem bfi_testBit (w d a c i : Nat) (hd : d < 2 ^ w) :
    (bfi w d a c).testBit i =
      if bitsOf c 0 6 ≤ i ∧ i < bitsOf c 0 6 + min (bitsOf c 8 7) w ∧ i < w then a.testBit (i - bitsOf c 0 6)
      else d.testBit i := by
  unfold bfi
  simp only []
  generalize bitsOf c 0 6 = o
  generalize min (bitsOf c 8 7) w = n
  have hm : ((2 ^ n - 1) * 2 ^ o) % 2 ^ w < 2 ^ w := Nat.mod_lt _ (by positivity)
  have hbit : ∀ j, (((2 ^ n - 1) * 2 ^ o) % 2 ^ w).testBit j = decide (o ≤ j ∧ j < o + n ∧ j < w) := by
    intro j
    rw [Nat.testBit_mod_two_pow, mul_comm, Nat.testBit_two_pow_mul, Nat.testBit_two_pow_sub_one]
    by_cases h1 : o ≤ j <;> by_cases h2 : j < o + n <;> by_cases h3 : j < w <;>
      (simp [h1, h2, h3]; try omega)
  have hnot : ∀ j, (2 ^ w - 1 - ((2 ^ n - 1) * 2 ^ o) % 2 ^ w).testBit j =
      (decide (j < w) && !decide (o ≤ j ∧ j < o + n ∧ j < w)) := by
    intro j
    rw [show 2 ^ w - 1 - ((2 ^ n - 1) * 2 ^ o) % 2 ^ w = 2 ^ w - (((2 ^ n - 1) * 2 ^ o) % 2 ^ w + 1) by omega,
      Nat.testBit_two_pow_sub_succ hm, hbit]
  rw [Nat.testBit_or, Nat.testBit_and, Nat.testBit_and, hnot, hbit, mul_comm a, Nat.testBit_two_pow_mul]
  by_cases h : o ≤ i ∧ i < o + n ∧ i < w
  · simp [h]
  · by_cases hw : i < w
    · have h' : ¬(o ≤ i ∧ i < o + n) := fun e => h ⟨e.1, e.2, hw⟩
      by_cases h1 : o ≤ i
      · have h2 : ¬ i < o + n := fun e => h' ⟨h1, e⟩
        simp [h1, h2, hw]
      · simp [h1, hw]
    · have : d.testBit i = false :=
        Nat.testBit_eq_false_of_lt (lt_of_lt_of_le hd (Nat.pow_le_pow_right (by norm_num) (by omega)))
      simp [h, hw, this]

theorem bfi_lt (w d a c : Nat) (hd : d < 2 ^ w) : bfi w d a c < 2 ^ w := by
  apply Nat.lt_pow_two_of_testBit
  intro i hi
  rw [bfi_testBit _ _ _ _ _ hd, if_neg (by omega)]
  exact Nat.testBit_eq_false_of_lt (lt_of_lt_of_le hd (Nat.pow_le_pow_right (by norm_num) hi))

theorem signedOf_toNat {w : Nat} (x : BitVec w) : signedOf w x.toNat = x.toInt := by
  unfold signedOf
  rw [Nat.mod_eq_of_lt x.isLt, BitVec.toInt_eq_toNat_cond]
  simp only []
  split <;> simp

theorem wrapTo_eq_ofInt (w : Nat) (v : Int) : wrapTo w v = (BitVec.ofInt w v).toNat := by
  rw [BitVec.toNat_ofInt]
  unfold wrapTo
  norm_cast

/-- BFE of a value of `W` bits, as bit vectors: shift, keep the low `n` bits, extend. -/
theorem bfe_bits {W : Nat} (signed : Bool) (x : BitVec W) (c : Nat) :
    BitVec.ofNat W (bfe W signed x.toNat c) =
      if signed then BitVec.signExtend W (BitVec.setWidth (min (bitsOf c 8 7) W) (BitVec.sshiftRight x (bitsOf c 0 6)))
      else BitVec.setWidth W (BitVec.setWidth (min (bitsOf c 8 7) W) (x >>> bitsOf c 0 6)) := by
  unfold bfe
  simp only []
  generalize bitsOf c 0 6 = o
  have hn : min (bitsOf c 8 7) W ≤ W := Nat.min_le_right _ _
  revert hn
  generalize min (bitsOf c 8 7) W = n
  intro hn
  cases signed
  · simp only [Bool.false_eq_true, if_false]
    apply BitVec.eq_of_toNat_eq
    have e : ((x.toNat % 2 ^ W : Nat) : Int) / 2 ^ o = ((x.toNat / 2 ^ o : Nat) : Int) := by
      rw [Nat.mod_eq_of_lt x.isLt]; push_cast; rfl
    rw [e, wrapTo_natCast]
    simp only [BitVec.toNat_ofNat, BitVec.toNat_setWidth, BitVec.toNat_ushiftRight, Nat.shiftRight_eq_div_pow]
    split
    · next h => subst h; simp [Nat.mod_one]
    · rfl
  · simp only [if_true]
    have e : BitVec.ofInt n (x.toInt / 2 ^ o) = BitVec.setWidth n (x.sshiftRight o) := by
      have h1 : x.toInt / 2 ^ o = (x.sshiftRight o).toInt := by
        rw [BitVec.toInt_sshiftRight, Int.shiftRight_eq_div_pow]; norm_cast
      rw [h1]
      generalize x.sshiftRight o = y
      apply BitVec.eq_of_toInt_eq
      rw [BitVec.toInt_ofInt, BitVec.toInt_setWidth, BitVec.toInt_eq_toNat_bmod]
      rw [Int.bmod_bmod_of_dvd]
      exact_mod_cast pow_dvd_pow 2 hn
    rw [signedOf_toNat, wrapTo_eq_ofInt n, e, signedOf_toNat]
    split
    · next h =>
      subst h
      apply BitVec.eq_of_getLsbD_eq
      intro i hi
      simp [BitVec.getLsbD_signExtend, BitVec.msb_eq_getLsbD_last]
    · rw [wrapTo_eq_ofInt, BitVec.ofNat_toNat, BitVec.setWidth_eq]
      exact rfl

theorem popc_le (w v : Nat) : popc w v ≤ w := by
  rw [popc_eq]
  exact le_trans (List.length_filter_le _ _) (by simp)
theorem clz_le (w v : Nat) : clz w v ≤ w := by
  unfold clz
  split <;> omega
theorem ctz_le (w v : Nat) (h : v < 2 ^ w) : ctz w v ≤ w := by
  by_cases h0 : v = 0
  · subst h0; rw [ctz_zero]
  · exact le_of_lt (ctz_spec w v h0 h).1

theorem bfe_lt (W : Nat) (signed : Bool) (a c : Nat) : bfe W signed a c < 2 ^ W := by
  unfold bfe
  simp only []
  split
  · positivity
  · split
    · exact wrapTo_lt _ _
    · exact lt_of_lt_of_le (wrapTo_lt _ _) (Nat.pow_le_pow_right (by norm_num) (Nat.min_le_right _ _))

/-! The word forms of R114. -/

theorem smulhi_word (x y : Word) :
    BitVec.ofInt 32 (x.toInt * y.toInt / 2 ^ 32) = BitVec.extractLsb' 32 32 (x.signExtend 64 * y.signExtend 64) := by
  apply BitVec.eq_of_toNat_eq
  have h : (x.signExtend 64 * y.signExtend 64).toInt = x.toInt * y.toInt := by
    rw [BitVec.toInt_mul, BitVec.toInt_signExtend_of_le (by omega), BitVec.toInt_signExtend_of_le (by omega)]
    have hx := BitVec.toInt_lt (x := x); have hx' := BitVec.le_toInt (x := x)
    have hy := BitVec.toInt_lt (x := y); have hy' := BitVec.le_toInt (x := y)
    simp at hx hx' hy hy'
    have a : |x.toInt| ≤ 2147483648 := abs_le.2 ⟨hx', by omega⟩
    have b : |y.toInt| ≤ 2147483648 := abs_le.2 ⟨hy', by omega⟩
    have c : |x.toInt * y.toInt| ≤ 2147483648 * 2147483648 := by
      rw [abs_mul]; exact mul_le_mul a b (abs_nonneg _) (by norm_num)
    obtain ⟨c1, c2⟩ := abs_le.1 c
    apply Int.bmod_eq_of_le
    · norm_num; omega
    · norm_num; omega
  rw [← h]
  generalize x.signExtend 64 * y.signExtend 64 = z
  simp [BitVec.toInt_eq_toNat_cond, Nat.shiftRight_eq_div_pow]
  split <;> omega

theorem smulhin_word (x y : Word) :
    BitVec.ofNat 32 (x.toNat * y.toNat / 2 ^ 32) = BitVec.extractLsb' 32 32 (x.setWidth 64 * y.setWidth 64) := by
  apply BitVec.eq_of_toNat_eq
  have hx := x.isLt
  have hy := y.isLt
  simp [Nat.shiftRight_eq_div_pow]
  rw [Nat.mod_eq_of_lt (a := x.toNat * y.toNat)]
  nlinarith

theorem sar32_word (x y : Word) : sar32 x y =
    if 32 ≤ y.toNat then (if x.msb then BitVec.allOnes 32 else 0) else x.sshiftRight y.toNat := by
  unfold sar32
  split
  · rename_i h
    rw [Nat.min_eq_right (by omega)]
    have hmsb : x.msb = x.getLsbD 31 := rfl
    apply BitVec.eq_of_getLsbD_eq
    intro i hi
    rw [BitVec.getLsbD_sshiftRight]
    by_cases h0 : i = 0
    · subst h0
      simp only [hmsb]
      cases e : x.getLsbD 31 <;> simp [e]
    · simp only [show ¬ 32 ≤ i by omega, show ¬ 31 + i < 32 by omega, decide_false, Bool.not_false, Bool.true_and, if_false,
        hmsb]
      cases x.getLsbD 31
      · simp
      · rw [if_pos rfl, BitVec.getLsbD_allOnes]; simp [hi]
  · rename_i h
    rw [Nat.min_eq_left (by omega)]

theorem smin_word {α : Type} (x y : Word) (a b : α) (h : x = y → a = b) :
    (if x.toInt ≤ y.toInt then a else b) = if x.slt y then a else b := by
  rw [BitVec.slt_eq_decide]
  by_cases c : x.toInt < y.toInt
  · simp [c, le_of_lt c]
  · by_cases e : x.toInt = y.toInt
    · have e' := BitVec.eq_of_toInt_eq e
      subst e'
      simp [h rfl]
    · simp [c, show ¬ x.toInt ≤ y.toInt by omega]

theorem sminn_word {α : Type} (x y : Word) (a b : α) (h : x = y → a = b) :
    (if x.toNat ≤ y.toNat then a else b) = if x.ult y then a else b := by
  rw [BitVec.ult_eq_decide]
  by_cases c : x.toNat < y.toNat
  · simp [c, le_of_lt c]
  · by_cases e : x.toNat = y.toNat
    · have e' := BitVec.eq_of_toNat_eq e
      subst e'
      simp [h rfl]
    · simp [c, show ¬ x.toNat ≤ y.toNat by omega]

/-! Elements of a packed operand (R81, R112). -/

theorem elemOf_lt (w i v : Nat) : elemOf w i v < 2 ^ w := Nat.mod_lt _ (by positivity)

theorem elemOf_packElems (w : Nat) (l : List Nat) (i : Nat) (h : i < l.length) :
    elemOf w i (packElems w l) = l[i] % 2 ^ w := by
  induction l generalizing i with
  | nil => simp at h
  | cons x xs ih =>
    unfold elemOf bitsOf
    rw [packElems, List.foldr_cons]
    cases i with
    | zero => simp
    | succ i =>
      have := ih i (by simpa using h)
      unfold elemOf bitsOf at this
      rw [show w * (i + 1) = w + w * i by ring, pow_add, ← Nat.div_div_eq_div_mul]
      rw [Nat.add_mul_div_right _ _ (by positivity), Nat.div_eq_of_lt (Nat.mod_lt _ (by positivity)), Nat.zero_add]
      simpa [packElems] using this

theorem elemOf_mapElems (w n : Nat) (f : Nat → Nat) (i : Nat) (h : i < n) : elemOf w i (mapElems w n f) = f i % 2 ^ w := by
  unfold mapElems
  rw [elemOf_packElems _ _ _ (by simpa using h)]
  simp

theorem packElems_lt (w : Nat) (l : List Nat) : packElems w l < 2 ^ (w * l.length) := by
  induction l with
  | nil => simp [packElems]
  | cons x xs ih =>
    rw [packElems, List.foldr_cons, List.length_cons, show w * (xs.length + 1) = w + w * xs.length by ring, pow_add]
    have h1 : x % 2 ^ w < 2 ^ w := Nat.mod_lt _ (by positivity)
    change x % 2 ^ w + packElems w xs * 2 ^ w < _
    calc x % 2 ^ w + packElems w xs * 2 ^ w < 2 ^ w + packElems w xs * 2 ^ w := by omega
      _ = (packElems w xs + 1) * 2 ^ w := by ring
      _ ≤ 2 ^ (w * xs.length) * 2 ^ w := Nat.mul_le_mul_right _ ih
      _ = 2 ^ w * 2 ^ (w * xs.length) := by ring

theorem mapElems_lt (w n : Nat) (f : Nat → Nat) : mapElems w n f < 2 ^ (w * n) := by
  have := packElems_lt w ((List.range n).map f)
  simpa [mapElems] using this

/-- The elements of an integer type fill its registers. -/
theorem Ty.bits_elems (t : Ty) (h : t.isInt = true) : t.elemBits * t.elems = 32 * t.regs := by
  cases t <;> simp_all [Ty.isInt, Ty.elemBits, Ty.elems, Ty.regs]
theorem Ty.int_regs (t : Ty) (h : t.isInt = true) : t.regs = 1 ∨ t.regs = 2 := by
  cases t <;> simp_all [Ty.isInt, Ty.regs]

end Sys2Proof.Machine
end

