-- ==== Sys2Proof/Laws/Dispatch.lean ====
section
/-! SUPPORT. The arm of each instruction and step, one lemma a constructor, so that no proof unfolds the whole match. -/

namespace Sys2Proof.Machine

@[simp] theorem exec_undef (w : Word) (s : State) : exec (.undef w) s = execUndef w s := rfl
@[simp] theorem exec_rollback (ctx : Nat) (s : State) : exec (.rollback ctx) s = execRollback ctx s := rfl
@[simp] theorem exec_checkpoint (ctx : Nat) (s : State) : exec (.checkpoint ctx) s = execCheckpoint ctx s := rfl
@[simp] theorem exec_clause (c : ClauseWord) (s : State) : exec (.clause c) s = execClause c s := rfl
@[simp] theorem exec_bra (imm : BitVec 25) (s : State) : exec (.bra imm) s = execBra imm s := rfl
@[simp] theorem exec_brnz (d : Reg) (imm : BitVec 18) (s : State) : exec (.brnz d imm) s = execBrnz d imm s := rfl
@[simp] theorem exec_brz (d : Reg) (imm : BitVec 18) (s : State) : exec (.brz d imm) s = execBrz d imm s := rfl
@[simp] theorem exec_brv (neg : Bool) (p : PReg) (imm : BitVec 18) (s : State) : exec (.brv neg p imm) s = execBrv neg p imm s := rfl
@[simp] theorem exec_brx (a : Reg) (s : State) : exec (.brx a) s = execBrx a s := rfl
@[simp] theorem exec_call (d : Reg) (imm : BitVec 18) (s : State) : exec (.call d imm) s = execCall d imm s := rfl
@[simp] theorem exec_callx (d a : Reg) (s : State) : exec (.callx d a) s = execCallx d a s := rfl
@[simp] theorem exec_ret (a : Reg) (s : State) : exec (.ret a) s = execRet a s := rfl
@[simp] theorem exec_trap (imm : BitVec 18) (s : State) : exec (.trap imm) s = execTrap imm s := rfl
@[simp] theorem exec_sleep (imm : BitVec 18) (s : State) : exec (.sleep imm) s = execSleep imm s := rfl
@[simp] theorem exec_sleepExpiry (w : WarpKey) (sp : Fin 4) (s : State) : exec (.sleepExpiry w sp) s = execSleepExpiry w sp s := rfl
@[simp] theorem exec_sadd (d a b : Reg) (s : State) : exec (.sadd d a b) s = execSadd d a b s := rfl
@[simp] theorem exec_ssub (d a b : Reg) (s : State) : exec (.ssub d a b) s = execSsub d a b s := rfl
@[simp] theorem exec_smul (d a b : Reg) (s : State) : exec (.smul d a b) s = execSmul d a b s := rfl
@[simp] theorem exec_smulhi (d a b : Reg) (s : State) : exec (.smulhi d a b) s = execSmulhi d a b s := rfl
@[simp] theorem exec_smulhin (d a b : Reg) (s : State) : exec (.smulhin d a b) s = execSmulhin d a b s := rfl
@[simp] theorem exec_sand (d a b : Reg) (s : State) : exec (.sand d a b) s = execSand d a b s := rfl
@[simp] theorem exec_sor (d a b : Reg) (s : State) : exec (.sor d a b) s = execSor d a b s := rfl
@[simp] theorem exec_sxor (d a b : Reg) (s : State) : exec (.sxor d a b) s = execSxor d a b s := rfl
@[simp] theorem exec_sshl (d a b : Reg) (s : State) : exec (.sshl d a b) s = execSshl d a b s := rfl
@[simp] theorem exec_sshr (d a b : Reg) (s : State) : exec (.sshr d a b) s = execSshr d a b s := rfl
@[simp] theorem exec_ssar (d a b : Reg) (s : State) : exec (.ssar d a b) s = execSsar d a b s := rfl
@[simp] theorem exec_smin (d a b : Reg) (s : State) : exec (.smin d a b) s = execSmin d a b s := rfl
@[simp] theorem exec_smax (d a b : Reg) (s : State) : exec (.smax d a b) s = execSmax d a b s := rfl
@[simp] theorem exec_sminn (d a b : Reg) (s : State) : exec (.sminn d a b) s = execSminn d a b s := rfl
@[simp] theorem exec_smaxn (d a b : Reg) (s : State) : exec (.smaxn d a b) s = execSmaxn d a b s := rfl
@[simp] theorem exec_sandn (d a b : Reg) (s : State) : exec (.sandn d a b) s = execSandn d a b s := rfl
@[simp] theorem exec_saddi (d a : Reg) (imm : BitVec 11) (s : State) : exec (.saddi d a imm) s = execSaddi d a imm s := rfl
@[simp] theorem exec_sandi (d a : Reg) (imm : BitVec 11) (s : State) : exec (.sandi d a imm) s = execSandi d a imm s := rfl
@[simp] theorem exec_sori (d a : Reg) (imm : BitVec 11) (s : State) : exec (.sori d a imm) s = execSori d a imm s := rfl
@[simp] theorem exec_sxori (d a : Reg) (imm : BitVec 11) (s : State) : exec (.sxori d a imm) s = execSxori d a imm s := rfl
@[simp] theorem exec_sshli (d a : Reg) (imm : BitVec 11) (s : State) : exec (.sshli d a imm) s = execSshli d a imm s := rfl
@[simp] theorem exec_sshri (d a : Reg) (imm : BitVec 11) (s : State) : exec (.sshri d a imm) s = execSshri d a imm s := rfl
@[simp] theorem exec_ssari (d a : Reg) (imm : BitVec 11) (s : State) : exec (.ssari d a imm) s = execSsari d a imm s := rfl
@[simp] theorem exec_smovi (d : Reg) (imm : BitVec 18) (s : State) : exec (.smovi d imm) s = execSmovi d imm s := rfl
@[simp] theorem exec_slui (d : Reg) (imm : BitVec 18) (s : State) : exec (.slui d imm) s = execSlui d imm s := rfl
@[simp] theorem exec_scmp (d a b : Reg) (c : SCond) (s : State) : exec (.scmp d a b c) s = execScmp d a b c s := rfl
@[simp] theorem exec_ssel (d a b : Reg) (s : State) : exec (.ssel d a b) s = execSsel d a b s := rfl
@[simp] theorem exec_spopc (d a : Reg) (s : State) : exec (.spopc d a) s = execSpopc d a s := rfl
@[simp] theorem exec_sclz (d a : Reg) (s : State) : exec (.sclz d a) s = execSclz d a s := rfl
@[simp] theorem exec_sctz (d a : Reg) (s : State) : exec (.sctz d a) s = execSctz d a s := rfl
@[simp] theorem exec_sbrev (d a : Reg) (s : State) : exec (.sbrev d a) s = execSbrev d a s := rfl
@[simp] theorem exec_sbfe (d a b : Reg) (s : State) : exec (.sbfe d a b) s = execSbfe d a b s := rfl
@[simp] theorem exec_sbfi (d a b : Reg) (s : State) : exec (.sbfi d a b) s = execSbfi d a b s := rfl
@[simp] theorem exec_sadd64 (d a b : Reg) (s : State) : exec (.sadd64 d a b) s = execSadd64 d a b s := rfl
@[simp] theorem exec_ssub64 (d a b : Reg) (s : State) : exec (.ssub64 d a b) s = execSsub64 d a b s := rfl
@[simp] theorem exec_smov (d a : Reg) (s : State) : exec (.smov d a) s = execSmov d a s := rfl
@[simp] theorem exec_tlbinv (a b : Reg) (s : State) : exec (.tlbinv a b) s = execTlbinv a b s := rfl
@[simp] theorem exec_srdp (d : Reg) (n : PrivReg) (s : State) : exec (.srdp d n) s = execSrdp d n s := rfl
@[simp] theorem exec_swrp (a : Reg) (n : PrivReg) (s : State) : exec (.swrp a n) s = execSwrp a n s := rfl
@[simp] theorem exec_vadd (d a b : Reg) (s : State) : exec (.vadd d a b) s = execVadd d a b s := rfl
@[simp] theorem exec_vsub (d a b : Reg) (s : State) : exec (.vsub d a b) s = execVsub d a b s := rfl
@[simp] theorem exec_vmul (d a b : Reg) (s : State) : exec (.vmul d a b) s = execVmul d a b s := rfl
@[simp] theorem exec_vmulhi (d a b : Reg) (s : State) : exec (.vmulhi d a b) s = execVmulhi d a b s := rfl
@[simp] theorem exec_vand (d a b : Reg) (s : State) : exec (.vand d a b) s = execVand d a b s := rfl
@[simp] theorem exec_vor (d a b : Reg) (s : State) : exec (.vor d a b) s = execVor d a b s := rfl
@[simp] theorem exec_vxor (d a b : Reg) (s : State) : exec (.vxor d a b) s = execVxor d a b s := rfl
@[simp] theorem exec_vandn (d a b : Reg) (s : State) : exec (.vandn d a b) s = execVandn d a b s := rfl
@[simp] theorem exec_vshl (d a b : Reg) (s : State) : exec (.vshl d a b) s = execVshl d a b s := rfl
@[simp] theorem exec_vshr (d a b : Reg) (s : State) : exec (.vshr d a b) s = execVshr d a b s := rfl
@[simp] theorem exec_vsar (d a b : Reg) (s : State) : exec (.vsar d a b) s = execVsar d a b s := rfl
@[simp] theorem exec_vmin (d a b : Reg) (s : State) : exec (.vmin d a b) s = execVmin d a b s := rfl
@[simp] theorem exec_vmax (d a b : Reg) (s : State) : exec (.vmax d a b) s = execVmax d a b s := rfl
@[simp] theorem exec_vaddsat (d a b : Reg) (s : State) : exec (.vaddsat d a b) s = execVaddsat d a b s := rfl
@[simp] theorem exec_vsubsat (d a b : Reg) (s : State) : exec (.vsubsat d a b) s = execVsubsat d a b s := rfl
@[simp] theorem exec_vabsd (d a b : Reg) (s : State) : exec (.vabsd d a b) s = execVabsd d a b s := rfl
@[simp] theorem exec_vaddScalar (d a b : Reg) (s : State) : exec (.vaddScalar d a b) s = execVaddScalar d a b s := rfl
@[simp] theorem exec_vsubScalar (d a b : Reg) (s : State) : exec (.vsubScalar d a b) s = execVsubScalar d a b s := rfl
@[simp] theorem exec_vmulScalar (d a b : Reg) (s : State) : exec (.vmulScalar d a b) s = execVmulScalar d a b s := rfl
@[simp] theorem exec_vmulhiScalar (d a b : Reg) (s : State) : exec (.vmulhiScalar d a b) s = execVmulhiScalar d a b s := rfl
@[simp] theorem exec_vandScalar (d a b : Reg) (s : State) : exec (.vandScalar d a b) s = execVandScalar d a b s := rfl
@[simp] theorem exec_vorScalar (d a b : Reg) (s : State) : exec (.vorScalar d a b) s = execVorScalar d a b s := rfl
@[simp] theorem exec_vxorScalar (d a b : Reg) (s : State) : exec (.vxorScalar d a b) s = execVxorScalar d a b s := rfl
@[simp] theorem exec_vandnScalar (d a b : Reg) (s : State) : exec (.vandnScalar d a b) s = execVandnScalar d a b s := rfl
@[simp] theorem exec_vshlScalar (d a b : Reg) (s : State) : exec (.vshlScalar d a b) s = execVshlScalar d a b s := rfl
@[simp] theorem exec_vshrScalar (d a b : Reg) (s : State) : exec (.vshrScalar d a b) s = execVshrScalar d a b s := rfl
@[simp] theorem exec_vsarScalar (d a b : Reg) (s : State) : exec (.vsarScalar d a b) s = execVsarScalar d a b s := rfl
@[simp] theorem exec_vminScalar (d a b : Reg) (s : State) : exec (.vminScalar d a b) s = execVminScalar d a b s := rfl
@[simp] theorem exec_vmaxScalar (d a b : Reg) (s : State) : exec (.vmaxScalar d a b) s = execVmaxScalar d a b s := rfl
@[simp] theorem exec_vaddsatScalar (d a b : Reg) (s : State) : exec (.vaddsatScalar d a b) s = execVaddsatScalar d a b s := rfl
@[simp] theorem exec_vsubsatScalar (d a b : Reg) (s : State) : exec (.vsubsatScalar d a b) s = execVsubsatScalar d a b s := rfl
@[simp] theorem exec_vabsdScalar (d a b : Reg) (s : State) : exec (.vabsdScalar d a b) s = execVabsdScalar d a b s := rfl
@[simp] theorem exec_vmad (d a b : Reg) (s : State) : exec (.vmad d a b) s = execVmad d a b s := rfl
@[simp] theorem exec_vmadhi (d a b : Reg) (s : State) : exec (.vmadhi d a b) s = execVmadhi d a b s := rfl
@[simp] theorem exec_vdot4 (d a b : Reg) (s : State) : exec (.vdot4 d a b) s = execVdot4 d a b s := rfl
@[simp] theorem exec_vcmp (p : PReg) (a b : Reg) (c : VCond) (s : State) : exec (.vcmp p a b c) s = execVcmp p a b c s := rfl
@[simp] theorem exec_vsel (d a b : Reg) (neg : Bool) (p : PReg) (s : State) : exec (.vsel d a b neg p) s = execVsel d a b neg p s := rfl
@[simp] theorem exec_vpopc (d a : Reg) (s : State) : exec (.vpopc d a) s = execVpopc d a s := rfl
@[simp] theorem exec_vclz (d a : Reg) (s : State) : exec (.vclz d a) s = execVclz d a s := rfl
@[simp] theorem exec_vctz (d a : Reg) (s : State) : exec (.vctz d a) s = execVctz d a s := rfl
@[simp] theorem exec_vbrev (d a : Reg) (s : State) : exec (.vbrev d a) s = execVbrev d a s := rfl
@[simp] theorem exec_vbfe (d a b : Reg) (s : State) : exec (.vbfe d a b) s = execVbfe d a b s := rfl
@[simp] theorem exec_vbfi (d a b : Reg) (s : State) : exec (.vbfi d a b) s = execVbfi d a b s := rfl
@[simp] theorem exec_vpermb (d a b : Reg) (s : State) : exec (.vpermb d a b) s = execVpermb d a b s := rfl
@[simp] theorem exec_vnot (d a : Reg) (s : State) : exec (.vnot d a) s = execVnot d a s := rfl
@[simp] theorem exec_vneg (d a : Reg) (s : State) : exec (.vneg d a) s = execVneg d a s := rfl
@[simp] theorem exec_vabs (d a : Reg) (s : State) : exec (.vabs d a) s = execVabs d a s := rfl
@[simp] theorem exec_vaddc (d a b : Reg) (s : State) : exec (.vaddc d a b) s = execVaddc d a b s := rfl
@[simp] theorem exec_vsubb (d a b : Reg) (s : State) : exec (.vsubb d a b) s = execVsubb d a b s := rfl
@[simp] theorem exec_vlea (d a b : Reg) (s : State) : exec (.vlea d a b) s = execVlea d a b s := rfl
@[simp] theorem exec_vsext (d a : Reg) (k : Fin 4) (s : State) : exec (.vsext d a k) s = execVsext d a k s := rfl
@[simp] theorem exec_vzext (d a : Reg) (k : Fin 4) (s : State) : exec (.vzext d a k) s = execVzext d a k s := rfl
@[simp] theorem exec_vaddi (d a : Reg) (imm : BitVec 11) (s : State) : exec (.vaddi d a imm) s = execVaddi d a imm s := rfl
@[simp] theorem exec_vandi (d a : Reg) (imm : BitVec 11) (s : State) : exec (.vandi d a imm) s = execVandi d a imm s := rfl
@[simp] theorem exec_vori (d a : Reg) (imm : BitVec 11) (s : State) : exec (.vori d a imm) s = execVori d a imm s := rfl
@[simp] theorem exec_vshli (d a : Reg) (imm : BitVec 11) (s : State) : exec (.vshli d a imm) s = execVshli d a imm s := rfl
@[simp] theorem exec_vshri (d a : Reg) (imm : BitVec 11) (s : State) : exec (.vshri d a imm) s = execVshri d a imm s := rfl
@[simp] theorem exec_vsari (d a : Reg) (imm : BitVec 11) (s : State) : exec (.vsari d a imm) s = execVsari d a imm s := rfl
@[simp] theorem exec_vmovi (d : Reg) (imm : BitVec 18) (s : State) : exec (.vmovi d imm) s = execVmovi d imm s := rfl
@[simp] theorem exec_vdiv (d a b : Reg) (la : Fin 16) (s : State) : exec (.vdiv d a b la) s = execVdiv d a b la s := rfl
@[simp] theorem exec_vrem (d a b : Reg) (la : Fin 16) (s : State) : exec (.vrem d a b la) s = execVrem d a b la s := rfl
@[simp] theorem exec_fadd (d a b : Reg) (rm : Rm) (s : State) : exec (.fadd d a b rm) s = execFadd d a b rm s := rfl
@[simp] theorem exec_fsub (d a b : Reg) (rm : Rm) (s : State) : exec (.fsub d a b rm) s = execFsub d a b rm s := rfl
@[simp] theorem exec_fmul (d a b : Reg) (rm : Rm) (s : State) : exec (.fmul d a b rm) s = execFmul d a b rm s := rfl
@[simp] theorem exec_ffma (d a b : Reg) (rm : Rm) (s : State) : exec (.ffma d a b rm) s = execFfma d a b rm s := rfl
@[simp] theorem exec_ffms (d a b : Reg) (rm : Rm) (s : State) : exec (.ffms d a b rm) s = execFfms d a b rm s := rfl
@[simp] theorem exec_fnfma (d a b : Reg) (rm : Rm) (s : State) : exec (.fnfma d a b rm) s = execFnfma d a b rm s := rfl
@[simp] theorem exec_fmin (d a b : Reg) (s : State) : exec (.fmin d a b) s = execFmin d a b s := rfl
@[simp] theorem exec_fmax (d a b : Reg) (s : State) : exec (.fmax d a b) s = execFmax d a b s := rfl
@[simp] theorem exec_fminnum (d a b : Reg) (s : State) : exec (.fminnum d a b) s = execFminnum d a b s := rfl
@[simp] theorem exec_fmaxnum (d a b : Reg) (s : State) : exec (.fmaxnum d a b) s = execFmaxnum d a b s := rfl
@[simp] theorem exec_fsgnj (d a b : Reg) (s : State) : exec (.fsgnj d a b) s = execFsgnj d a b s := rfl
@[simp] theorem exec_fsgnjn (d a b : Reg) (s : State) : exec (.fsgnjn d a b) s = execFsgnjn d a b s := rfl
@[simp] theorem exec_fabs (d a : Reg) (s : State) : exec (.fabs d a) s = execFabs d a s := rfl
@[simp] theorem exec_fneg (d a : Reg) (s : State) : exec (.fneg d a) s = execFneg d a s := rfl
@[simp] theorem exec_fclass (d a : Reg) (s : State) : exec (.fclass d a) s = execFclass d a s := rfl
@[simp] theorem exec_fscale (d a b : Reg) (s : State) : exec (.fscale d a b) s = execFscale d a b s := rfl
@[simp] theorem exec_fcmp (p : PReg) (a b : Reg) (c : FCond) (s : State) : exec (.fcmp p a b c) s = execFcmp p a b c s := rfl
@[simp] theorem exec_fdot2 (d a b : Reg) (rm : Rm) (s : State) : exec (.fdot2 d a b rm) s = execFdot2 d a b rm s := rfl
@[simp] theorem exec_frcp (d a : Reg) (la : Fin 16) (s : State) : exec (.frcp d a la) s = execFrcp d a la s := rfl
@[simp] theorem exec_frsq (d a : Reg) (la : Fin 16) (s : State) : exec (.frsq d a la) s = execFrsq d a la s := rfl
@[simp] theorem exec_fsqrt (d a : Reg) (la : Fin 16) (s : State) : exec (.fsqrt d a la) s = execFsqrt d a la s := rfl
@[simp] theorem exec_fexp2 (d a : Reg) (la : Fin 16) (s : State) : exec (.fexp2 d a la) s = execFexp2 d a la s := rfl
@[simp] theorem exec_flog2 (d a : Reg) (la : Fin 16) (s : State) : exec (.flog2 d a la) s = execFlog2 d a la s := rfl
@[simp] theorem exec_fsin (d a : Reg) (la : Fin 16) (s : State) : exec (.fsin d a la) s = execFsin d a la s := rfl
@[simp] theorem exec_fcos (d a : Reg) (la : Fin 16) (s : State) : exec (.fcos d a la) s = execFcos d a la s := rfl
@[simp] theorem exec_ftanh (d a : Reg) (la : Fin 16) (s : State) : exec (.ftanh d a la) s = execFtanh d a la s := rfl
@[simp] theorem exec_fdiv (d a b : Reg) (la : Fin 16) (s : State) : exec (.fdiv d a b la) s = execFdiv d a b la s := rfl
@[simp] theorem exec_frnd (d a : Reg) (rm : Rm) (s : State) : exec (.frnd d a rm) s = execFrnd d a rm s := rfl
@[simp] theorem exec_cvt (d a : Reg) (ty : Ty) (rm : Rm) (s : State) : exec (.cvt d a ty rm) s = execCvt d a ty rm s := rfl
@[simp] theorem exec_fpack (d a b : Reg) (rm : Rm) (s : State) : exec (.fpack d a b rm) s = execFpack d a b rm s := rfl
@[simp] theorem exec_rnd (d : Reg) (s : State) : exec (.rnd d) s = execRnd d s := rfl
@[simp] theorem exec_rndf (d : Reg) (s : State) : exec (.rndf d) s = execRndf d s := rfl
@[simp] theorem exec_rndskip (a : Reg) (s : State) : exec (.rndskip a) s = execRndskip a s := rfl
@[simp] theorem exec_xshfl (d a b : Reg) (la : Fin 16) (s : State) : exec (.xshfl d a b la) s = execXshfl d a b la s := rfl
@[simp] theorem exec_xrot (d a b : Reg) (la : Fin 16) (s : State) : exec (.xrot d a b la) s = execXrot d a b la s := rfl
@[simp] theorem exec_xbcast (d a b : Reg) (la : Fin 16) (s : State) : exec (.xbcast d a b la) s = execXbcast d a b la s := rfl
@[simp] theorem exec_xreduce (d a : Reg) (op : XOp) (la : Fin 16) (s : State) : exec (.xreduce d a op la) s = execXreduce d a op la s := rfl
@[simp] theorem exec_xscani (d a : Reg) (op : XOp) (la : Fin 16) (s : State) : exec (.xscani d a op la) s = execXscani d a op la s := rfl
@[simp] theorem exec_xscane (d a : Reg) (op : XOp) (la : Fin 16) (s : State) : exec (.xscane d a op la) s = execXscane d a op la s := rfl
@[simp] theorem exec_xmadd (d a b : Reg) (la : Fin 16) (s : State) : exec (.xmadd d a b la) s = execXmadd d a b la s := rfl
@[simp] theorem exec_xmmin (d a b : Reg) (la : Fin 16) (s : State) : exec (.xmmin d a b la) s = execXmmin d a b la s := rfl
@[simp] theorem exec_xmmax (d a b : Reg) (la : Fin 16) (s : State) : exec (.xmmax d a b la) s = execXmmax d a b la s := rfl
@[simp] theorem exec_xmor (d a b : Reg) (la : Fin 16) (s : State) : exec (.xmor d a b la) s = execXmor d a b la s := rfl
@[simp] theorem exec_xballot (d : Reg) (p : PReg) (la : Fin 16) (s : State) : exec (.xballot d p la) s = execXballot d p la s := rfl
@[simp] theorem exec_xany (q p : PReg) (la : Fin 16) (s : State) : exec (.xany q p la) s = execXany q p la s := rfl
@[simp] theorem exec_xall (q p : PReg) (la : Fin 16) (s : State) : exec (.xall q p la) s = execXall q p la s := rfl
@[simp] theorem exec_xcount (d : Reg) (p : PReg) (la : Fin 16) (s : State) : exec (.xcount d p la) s = execXcount d p la s := rfl
@[simp] theorem exec_xfirst (d : Reg) (p : PReg) (la : Fin 16) (s : State) : exec (.xfirst d p la) s = execXfirst d p la s := rfl
@[simp] theorem exec_lkacq (d a : Reg) (m : LkMode) (s : State) : exec (.lkacq d a m) s = execLkacq d a m s := rfl
@[simp] theorem exec_lktry (d a : Reg) (m : LkMode) (s : State) : exec (.lktry d a m) s = execLktry d a m s := rfl
@[simp] theorem exec_lkup (d a : Reg) (m : LkMode) (s : State) : exec (.lkup d a m) s = execLkup d a m s := rfl
@[simp] theorem exec_lkdown (d a : Reg) (m : LkMode) (s : State) : exec (.lkdown d a m) s = execLkdown d a m s := rfl
@[simp] theorem exec_lkrel (d a : Reg) (s : State) : exec (.lkrel d a) s = execLkrel d a s := rfl
@[simp] theorem exec_lkstat (d a : Reg) (s : State) : exec (.lkstat d a) s = execLkstat d a s := rfl
@[simp] theorem exec_lktab (d a : Reg) (s : State) : exec (.lktab d a) s = execLktab d a s := rfl
@[simp] theorem exec_revocation (w : WarpKey) (s : State) : exec (.revocation w) s = execRevocation w s := rfl
@[simp] theorem exec_bar (n : Fin 16) (s : State) : exec (.bar n) s = execBar n s := rfl
@[simp] theorem exec_bararr (n : Fin 16) (s : State) : exec (.bararr n) s = execBararr n s := rfl
@[simp] theorem exec_barwait (n : Fin 16) (s : State) : exec (.barwait n) s = execBarwait n s := rfl
@[simp] theorem exec_tkwait (d : Reg) (k : Fin 4) (s : State) : exec (.tkwait d k) s = execTkwait d k s := rfl
@[simp] theorem exec_tkpass (d : Reg) (k : Fin 4) (s : State) : exec (.tkpass d k) s = execTkpass d k s := rfl
@[simp] theorem exec_tkpassPoison (d : Reg) (k : Fin 4) (s : State) : exec (.tkpassPoison d k) s = execTkpassPoison d k s := rfl
@[simp] theorem exec_fence (p q : BitVec 6) (s : State) : exec (.fence p q) s = execFence p q s := rfl
@[simp] theorem exec_hmake (d a : Reg) (buf : Buf) (s : State) : exec (.hmake d a buf) s = execHmake d a buf s := rfl
@[simp] theorem exec_hgive (d a b : Reg) (s : State) : exec (.hgive d a b) s = execHgive d a b s := rfl
@[simp] theorem exec_htake (d a : Reg) (s : State) : exec (.htake d a) s = execHtake d a s := rfl
@[simp] theorem exec_hdrop (d a : Reg) (s : State) : exec (.hdrop d a) s = execHdrop d a s := rfl
@[simp] theorem exec_hquery (d a : Reg) (s : State) : exec (.hquery d a) s = execHquery d a s := rfl
@[simp] theorem exec_vmov (d a : Reg) (s : State) : exec (.vmov d a) s = execVmov d a s := rfl
@[simp] theorem exec_vmovs (d a : Reg) (s : State) : exec (.vmovs d a) s = execVmovs d a s := rfl
@[simp] theorem exec_vrdl (d a b : Reg) (s : State) : exec (.vrdl d a b) s = execVrdl d a b s := rfl
@[simp] theorem exec_vwrl (d a b : Reg) (s : State) : exec (.vwrl d a b) s = execVwrl d a b s := rfl
@[simp] theorem exec_pand (d a b : PReg) (s : State) : exec (.pand d a b) s = execPand d a b s := rfl
@[simp] theorem exec_por (d a b : PReg) (s : State) : exec (.por d a b) s = execPor d a b s := rfl
@[simp] theorem exec_pxor (d a b : PReg) (s : State) : exec (.pxor d a b) s = execPxor d a b s := rfl
@[simp] theorem exec_pnot (d a : PReg) (s : State) : exec (.pnot d a) s = execPnot d a s := rfl
@[simp] theorem exec_pset (d : PReg) (s : State) : exec (.pset d) s = execPset d s := rfl
@[simp] theorem exec_pclr (d : PReg) (s : State) : exec (.pclr d) s = execPclr d s := rfl
@[simp] theorem exec_pmovs (p : PReg) (a : Reg) (s : State) : exec (.pmovs p a) s = execPmovs p a s := rfl
@[simp] theorem exec_smovp (d : Reg) (p : PReg) (s : State) : exec (.smovp d p) s = execSmovp d p s := rfl
@[simp] theorem exec_grow (imm : BitVec 18) (s : State) : exec (.grow imm) s = execGrow imm s := rfl
@[simp] theorem exec_shrink (imm : BitVec 18) (s : State) : exec (.shrink imm) s = execShrink imm s := rfl
@[simp] theorem exec_srd (d : Reg) (n : SpecReg) (s : State) : exec (.srd d n) s = execSrd d n s := rfl
@[simp] theorem exec_swr (a : Reg) (n : SpecReg) (s : State) : exec (.swr a n) s = execSwr a n s := rfl
@[simp] theorem exec_fflagsWrite (a : Reg) (s : State) : exec (.fflagsWrite a) s = execFflagsWrite a s := rfl
@[simp] theorem exec_clausestWrite (a : Reg) (s : State) : exec (.clausestWrite a) s = execClausestWrite a s := rfl
@[simp] theorem exec_trapmaskWrite (a : Reg) (s : State) : exec (.trapmaskWrite a) s = execTrapmaskWrite a s := rfl
@[simp] theorem exec_activityMaskWrite (k : Fin 3) (a : Reg) (s : State) : exec (.activityMaskWrite k a) s = execActivityMaskWrite k a s := rfl
@[simp] theorem exec_cyclehiRead (d : Reg) (clock : Bool) (s : State) : exec (.cyclehiRead d clock) s = execCyclehiRead d clock s := rfl
@[simp] theorem exec_trapbaseWrite (hi : Bool) (a : Reg) (s : State) : exec (.trapbaseWrite hi a) s = execTrapbaseWrite hi a s := rfl
@[simp] theorem exec_cpy (d a b : Reg) (stream : Fin 16) (s : State) : exec (.cpy d a b stream) s = execCpy d a b stream s := rfl
@[simp] theorem exec_mma (d a b : Reg) (stream : Fin 16) (s : State) : exec (.mma d a b stream) s = execMma d a b stream s := rfl
@[simp] theorem exec_coll (d a b : Reg) (stream : Fin 16) (s : State) : exec (.coll d a b stream) s = execColl d a b stream s := rfl
@[simp] theorem exec_tgload (d a b : Reg) (s : State) : exec (.tgload d a b) s = execTgload d a b s := rfl
@[simp] theorem exec_swait (d b : Reg) (stream : Fin 16) (s : State) : exec (.swait d b stream) s = execSwait d b stream s := rfl
@[simp] theorem exec_spoll (d b : Reg) (stream : Fin 16) (s : State) : exec (.spoll d b stream) s = execSpoll d b stream s := rfl
@[simp] theorem exec_ldg (d a b : Reg) (la : Fin 16) (s : State) : exec (.ldg d a b la) s = execLdg d a b la s := rfl
@[simp] theorem exec_stg (d a b : Reg) (la : Fin 16) (s : State) : exec (.stg d a b la) s = execStg d a b la s := rfl
@[simp] theorem exec_ldgs (d a b : Reg) (la : Fin 16) (s : State) : exec (.ldgs d a b la) s = execLdgs d a b la s := rfl
@[simp] theorem exec_stgs (d a b : Reg) (la : Fin 16) (s : State) : exec (.stgs d a b la) s = execStgs d a b la s := rfl
@[simp] theorem exec_ldsb (d a b : Reg) (la : Fin 16) (s : State) : exec (.ldsb d a b la) s = execLdsb d a b la s := rfl
@[simp] theorem exec_stsb (d a b : Reg) (la : Fin 16) (s : State) : exec (.stsb d a b la) s = execStsb d a b la s := rfl
@[simp] theorem exec_ldab (d a b : Reg) (la : Fin 16) (s : State) : exec (.ldab d a b la) s = execLdab d a b la s := rfl
@[simp] theorem exec_stab (d a b : Reg) (la : Fin 16) (s : State) : exec (.stab d a b la) s = execStab d a b la s := rfl
@[simp] theorem exec_ldcb (d a b : Reg) (la : Fin 16) (s : State) : exec (.ldcb d a b la) s = execLdcb d a b la s := rfl
@[simp] theorem exec_stcb (d a b : Reg) (la : Fin 16) (s : State) : exec (.stcb d a b la) s = execStcb d a b la s := rfl
@[simp] theorem exec_ldh (d a b : Reg) (la : Fin 16) (s : State) : exec (.ldh d a b la) s = execLdh d a b la s := rfl
@[simp] theorem exec_sth (d a b : Reg) (la : Fin 16) (s : State) : exec (.sth d a b la) s = execSth d a b la s := rfl
@[simp] theorem exec_pref (l2 : Bool) (a b : Reg) (s : State) : exec (.pref l2 a b) s = execPref l2 a b s := rfl
@[simp] theorem exec_cflush (a b : Reg) (s : State) : exec (.cflush a b) s = execCflush a b s := rfl
@[simp] theorem exec_cinv (a b : Reg) (s : State) : exec (.cinv a b) s = execCinv a b s := rfl
@[simp] theorem exec_aadd (d a b : Reg) (la : Fin 16) (s : State) : exec (.aadd d a b la) s = execAadd d a b la s := rfl
@[simp] theorem exec_amin (d a b : Reg) (la : Fin 16) (s : State) : exec (.amin d a b la) s = execAmin d a b la s := rfl
@[simp] theorem exec_amax (d a b : Reg) (la : Fin 16) (s : State) : exec (.amax d a b la) s = execAmax d a b la s := rfl
@[simp] theorem exec_aand (d a b : Reg) (la : Fin 16) (s : State) : exec (.aand d a b la) s = execAand d a b la s := rfl
@[simp] theorem exec_aor (d a b : Reg) (la : Fin 16) (s : State) : exec (.aor d a b la) s = execAor d a b la s := rfl
@[simp] theorem exec_axor (d a b : Reg) (la : Fin 16) (s : State) : exec (.axor d a b la) s = execAxor d a b la s := rfl
@[simp] theorem exec_axchg (d a b : Reg) (la : Fin 16) (s : State) : exec (.axchg d a b la) s = execAxchg d a b la s := rfl
@[simp] theorem exec_acas (d a b : Reg) (la : Fin 16) (s : State) : exec (.acas d a b la) s = execAcas d a b la s := rfl
@[simp] theorem exec_aincw (d a b : Reg) (la : Fin 16) (s : State) : exec (.aincw d a b la) s = execAincw d a b la s := rfl
@[simp] theorem exec_afadd (d a b : Reg) (la : Fin 16) (s : State) : exec (.afadd d a b la) s = execAfadd d a b la s := rfl
@[simp] theorem exec_afmin (d a b : Reg) (la : Fin 16) (s : State) : exec (.afmin d a b la) s = execAfmin d a b la s := rfl
@[simp] theorem exec_afmax (d a b : Reg) (la : Fin 16) (s : State) : exec (.afmax d a b la) s = execAfmax d a b la s := rfl
@[simp] theorem exec_waitcmp (d a b : Reg) (c : WCond) (s : State) : exec (.waitcmp d a b c) s = execWaitcmp d a b c s := rfl
@[simp] theorem exec_waitcmpRecheck (w : WarpKey) (sp : Fin 4) (s : State) : exec (.waitcmpRecheck w sp) s = execWaitcmpRecheck w sp s := rfl
@[simp] theorem exec_monitorRepoll (w : WarpKey) (sp : Fin 4) (s : State) : exec (.monitorRepoll w sp) s = execMonitorRepoll w sp s := rfl
@[simp] theorem exec_reductionPerform (w : WarpKey) (s : State) : exec (.reductionPerform w) s = execReductionPerform w s := rfl
@[simp] theorem exec_longComplete (w : WarpKey) (s : State) : exec (.longComplete w) s = execLongComplete w s := rfl
@[simp] theorem exec_cowService (id : Nat) (s : State) : exec (.cowService id) s = execCowService id s := rfl
@[simp] theorem exec_poolReplay (id : Nat) (s : State) : exec (.poolReplay id) s = execPoolReplay id s := rfl
@[simp] theorem exec_trapEntry (w : WarpKey) (s : State) : exec (.trapEntry w) s = execTrapEntry w s := rfl
@[simp] theorem exec_workgroupPlace (l : LaunchKey) (core : Nat) (halves : BitVec 12) (s : State) : exec (.workgroupPlace l core halves) s = execWorkgroupPlace l core halves s := rfl
@[simp] theorem exec_clusterPlace (l : LaunchKey) (coreCluster : Nat) (cores : List Nat) (halves : List (BitVec 12)) (s : State) : exec (.clusterPlace l coreCluster cores halves) s = execClusterPlace l coreCluster cores halves s := rfl
@[simp] theorem exec_swapOut (g : WgKey) (s : State) : exec (.swapOut g) s = execSwapOut g s := rfl
@[simp] theorem exec_quantumCommit (ctx : Nat) (s : State) : exec (.quantumCommit ctx) s = execQuantumCommit ctx s := rfl
@[simp] theorem exec_engineCommandStart (g : WgKey) (stream : Fin 16) (s : State) : exec (.engineCommandStart g stream) s = execEngineCommandStart g stream s := rfl
@[simp] theorem exec_copyChunk (g : WgKey) (stream : Fin 16) (s : State) : exec (.copyChunk g stream) s = execCopyChunk g stream s := rfl
@[simp] theorem exec_mmaChunkCommit (g : WgKey) (stream : Fin 16) (s : State) : exec (.mmaChunkCommit g stream) s = execMmaChunkCommit g stream s := rfl
@[simp] theorem exec_engineCommandComplete (g : WgKey) (stream : Fin 16) (s : State) : exec (.engineCommandComplete g stream) s = execEngineCommandComplete g stream s := rfl
@[simp] theorem exec_collInstanceComplete (ctx : Nat) (group : Nat) (tag : Word) (s : State) : exec (.collInstanceComplete ctx group tag) s = execCollInstanceComplete ctx group tag s := rfl
@[simp] theorem exec_launch (q : Nat) (s : State) : exec (.launch q) s = execLaunch q s := rfl
@[simp] theorem exec_ilaunch (q : Nat) (s : State) : exec (.ilaunch q) s = execIlaunch q s := rfl
@[simp] theorem exec_callbuf (q : Nat) (s : State) : exec (.callbuf q) s = execCallbuf q s := rfl
@[simp] theorem exec_retbuf (q : Nat) (s : State) : exec (.retbuf q) s = execRetbuf q s := rfl
@[simp] theorem exec_join (q : Nat) (s : State) : exec (.join q) s = execJoin q s := rfl
@[simp] theorem exec_signal (q : Nat) (s : State) : exec (.signal q) s = execSignal q s := rfl
@[simp] theorem exec_waitval (q : Nat) (s : State) : exec (.waitval q) s = execWaitval q s := rfl
@[simp] theorem exec_waitvalSatisfied (q : Nat) (s : State) : exec (.waitvalSatisfied q) s = execWaitvalSatisfied q s := rfl
@[simp] theorem exec_program (q : Nat) (s : State) : exec (.program q) s = execProgram q s := rfl
@[simp] theorem exec_mark (q : Nat) (s : State) : exec (.mark q) s = execMark q s := rfl
@[simp] theorem exec_lookaheadRead (q : Nat) (s : State) : exec (.lookaheadRead q) s = execLookaheadRead q s := rfl
@[simp] theorem exec_qpDone (q : Nat) (s : State) : exec (.qpDone q) s = execQpDone q s := rfl
@[simp] theorem exec_qpCancel (q : Nat) (s : State) : exec (.qpCancel q) s = execQpCancel q s := rfl
@[simp] theorem exec_qpRepeat (q : Nat) (s : State) : exec (.qpRepeat q) s = execQpRepeat q s := rfl
@[simp] theorem exec_qpMovi (q : Nat) (d : KReg) (imm : BitVec 32) (s : State) : exec (.qpMovi q d imm) s = execQpMovi q d imm s := rfl
@[simp] theorem exec_qpLui (q : Nat) (d : KReg) (imm : BitVec 32) (s : State) : exec (.qpLui q d imm) s = execQpLui q d imm s := rfl
@[simp] theorem exec_qpMov (q : Nat) (d a : KReg) (s : State) : exec (.qpMov q d a) s = execQpMov q d a s := rfl
@[simp] theorem exec_qpAdd (q : Nat) (d a b : KReg) (s : State) : exec (.qpAdd q d a b) s = execQpAdd q d a b s := rfl
@[simp] theorem exec_qpSub (q : Nat) (d a b : KReg) (s : State) : exec (.qpSub q d a b) s = execQpSub q d a b s := rfl
@[simp] theorem exec_qpMul (q : Nat) (d a b : KReg) (s : State) : exec (.qpMul q d a b) s = execQpMul q d a b s := rfl
@[simp] theorem exec_qpAnd (q : Nat) (d a b : KReg) (s : State) : exec (.qpAnd q d a b) s = execQpAnd q d a b s := rfl
@[simp] theorem exec_qpOr (q : Nat) (d a b : KReg) (s : State) : exec (.qpOr q d a b) s = execQpOr q d a b s := rfl
@[simp] theorem exec_qpXor (q : Nat) (d a b : KReg) (s : State) : exec (.qpXor q d a b) s = execQpXor q d a b s := rfl
@[simp] theorem exec_qpShl (q : Nat) (d a b : KReg) (s : State) : exec (.qpShl q d a b) s = execQpShl q d a b s := rfl
@[simp] theorem exec_qpShr (q : Nat) (d a b : KReg) (s : State) : exec (.qpShr q d a b) s = execQpShr q d a b s := rfl
@[simp] theorem exec_qpAddi (q : Nat) (d a : KReg) (imm : BitVec 32) (s : State) : exec (.qpAddi q d a imm) s = execQpAddi q d a imm s := rfl
@[simp] theorem exec_qpDivu (q : Nat) (d a b : KReg) (s : State) : exec (.qpDivu q d a b) s = execQpDivu q d a b s := rfl
@[simp] theorem exec_qpRemu (q : Nat) (d a b : KReg) (s : State) : exec (.qpRemu q d a b) s = execQpRemu q d a b s := rfl
@[simp] theorem exec_qpMinu (q : Nat) (d a b : KReg) (s : State) : exec (.qpMinu q d a b) s = execQpMinu q d a b s := rfl
@[simp] theorem exec_qpMaxu (q : Nat) (d a b : KReg) (s : State) : exec (.qpMaxu q d a b) s = execQpMaxu q d a b s := rfl
@[simp] theorem exec_qpLd64 (q : Nat) (d a : KReg) (win : Fin 4) (imm : BitVec 32) (s : State) : exec (.qpLd64 q d a win imm) s = execQpLd64 q d a win imm s := rfl
@[simp] theorem exec_qpLd32 (q : Nat) (d a : KReg) (win : Fin 4) (imm : BitVec 32) (s : State) : exec (.qpLd32 q d a win imm) s = execQpLd32 q d a win imm s := rfl
@[simp] theorem exec_qpSt64 (q : Nat) (d a : KReg) (win : Fin 4) (imm : BitVec 32) (s : State) : exec (.qpSt64 q d a win imm) s = execQpSt64 q d a win imm s := rfl
@[simp] theorem exec_qpSt32 (q : Nat) (d a : KReg) (win : Fin 4) (imm : BitVec 32) (s : State) : exec (.qpSt32 q d a win imm) s = execQpSt32 q d a win imm s := rfl
@[simp] theorem exec_qpHwr (q : Nat) (a : KReg) (off : BitVec 8) (size : Fin 4) (s : State) : exec (.qpHwr q a off size) s = execQpHwr q a off size s := rfl
@[simp] theorem exec_qpHrd (q : Nat) (d : KReg) (off : BitVec 8) (size : Fin 4) (s : State) : exec (.qpHrd q d off size) s = execQpHrd q d off size s := rfl
@[simp] theorem exec_qpRpt (q : Nat) (d : KReg) (s : State) : exec (.qpRpt q d) s = execQpRpt q d s := rfl
@[simp] theorem exec_qpBeq (q : Nat) (a b : KReg) (imm : BitVec 32) (s : State) : exec (.qpBeq q a b imm) s = execQpBeq q a b imm s := rfl
@[simp] theorem exec_qpBne (q : Nat) (a b : KReg) (imm : BitVec 32) (s : State) : exec (.qpBne q a b imm) s = execQpBne q a b imm s := rfl
@[simp] theorem exec_qpBltu (q : Nat) (a b : KReg) (imm : BitVec 32) (s : State) : exec (.qpBltu q a b imm) s = execQpBltu q a b imm s := rfl
@[simp] theorem exec_qpLoop (q : Nat) (d : KReg) (imm : BitVec 32) (s : State) : exec (.qpLoop q d imm) s = execQpLoop q d imm s := rfl
@[simp] theorem exec_qpArg (q : Nat) (d : KReg) (k : Fin 8) (s : State) : exec (.qpArg q d k) s = execQpArg q d k s := rfl
@[simp] theorem exec_qpNop (q : Nat) (s : State) : exec (.qpNop q) s = execQpNop q s := rfl
@[simp] theorem exec_create (record : Nat) (s : State) : exec (.create record) s = execCreate record s := rfl
@[simp] theorem exec_destroy (ctx : Nat) (s : State) : exec (.destroy ctx) s = execDestroy ctx s := rfl
@[simp] theorem exec_queue (ctx q : Nat) (desc : Nat) (s : State) : exec (.queue ctx q desc) s = execQueue ctx q desc s := rfl
@[simp] theorem exec_preempt (ctx : Nat) (save : Nat) (s : State) : exec (.preempt ctx save) s = execPreempt ctx save s := rfl
@[simp] theorem exec_plant (ctx : Nat) (image : Nat) (s : State) : exec (.plant ctx image) s = execPlant ctx image s := rfl
@[simp] theorem exec_answer (id : Nat) (ctx : Nat) (deliver : Bool) (s : State) : exec (.answer id ctx deliver) s = execAnswer id ctx deliver s := rfl
@[simp] theorem exec_keyload (slot : Nat) (key : Nat) (unused : Nat) (s : State) : exec (.keyload slot key unused) s = execKeyload slot key unused s := rfl
@[simp] theorem exec_attest (nonce : DWord) (report : Nat) (s : State) : exec (.attest nonce report) s = execAttest nonce report s := rfl
@[simp] theorem exec_group (ctx group : Nat) (record : Nat) (s : State) : exec (.group ctx group record) s = execGroup ctx group record s := rfl
@[simp] theorem exec_scrubComplete (s : State) : exec (.scrubComplete) s = execScrubComplete s := rfl
@[simp] theorem exec_hostAccess (a : HostAccess) (s : State) : exec (.hostAccess a) s = execHostAccess a s := rfl
@[simp] theorem exec_peerAccess (peer : Nat) (a : PeerAccess) (s : State) : exec (.peerAccess peer a) s = execPeerAccess peer a s := rfl
@[simp] theorem exec_linkDrop (peer : Nat) (s : State) : exec (.linkDrop peer) s = execLinkDrop peer s := rfl
@[simp] theorem exec_reset (s : State) : exec (.reset) s = execReset s := rfl
@[simp] theorem exec_queueRestart (q : Nat) (s : State) : exec (.queueRestart q) s = execQueueRestart q s := rfl
@[simp] theorem exec_queueDestroy (q : Nat) (s : State) : exec (.queueDestroy q) s = execQueueDestroy q s := rfl
@[simp] theorem exec_nop (s : State) : exec (.nop) s = execNop s := rfl
@[simp] theorem exec_exit (s : State) : exec (.exit) s = execExit s := rfl
@[simp] theorem exec_tret (s : State) : exec (.tret) s = execTret s := rfl
@[simp] theorem exec_yield (s : State) : exec (.yield) s = execYield s := rfl
@[simp] theorem exec_bkpt (s : State) : exec (.bkpt) s = execBkpt s := rfl
@[simp] theorem exec_icinv (s : State) : exec (.icinv) s = execIcinv s := rfl
@[simp] theorem exec_cbar (s : State) : exec (.cbar) s = execCbar s := rfl

end Sys2Proof.Machine
end

