-- ==== Sys2Proof/Laws/Elements.lean ====
section
/-! SUPPORT. The element operations of R119 against plain arithmetic on the elements' bits. -/

namespace Sys2Proof.Machine

theorem ofNat_toInt_lt {W x : Nat} (h : x < 2 ^ W) : (BitVec.ofNat W x).toInt = signedOf W x := by
  rw [← signedOf_toNat, BitVec.toNat_ofNat, Nat.mod_eq_of_lt h]

/-- Val of an element (R112), as a bit vector reads. -/
theorem Ty.val_eq (t : Ty) (x : Nat) (h : x < 2 ^ t.elemBits) :
    t.val x = if t.signed then (BitVec.ofNat t.elemBits x).toInt else ((BitVec.ofNat t.elemBits x).toNat : Int) := by
  unfold Ty.val
  split
  · exact (ofNat_toInt_lt h).symm
  · simp

theorem Ty.value_eq (t : Ty) (x : Nat) (h : x < 2 ^ t.elemBits) : Ty.value t x = t.val x := (Ty.val_eq t x h).symm
theorem Ty.wrap_eq (t : Ty) (v : Int) : Ty.wrap t v = wrapTo t.elemBits v := (wrapTo_eq_ofInt _ _).symm
theorem sum_range_list (n : Nat) (f : Nat → Int) : ((List.range n).map f).sum = ∑ e ∈ Finset.range n, f e := by
  rw [Finset.sum_eq_multiset_sum, Finset.range_val, Multiset.range, Multiset.map_coe, Multiset.sum_coe]

theorem Ty.elemBits_pos (t : Ty) : 0 < t.elemBits := by cases t <;> decide

theorem Ty.val_emod (t : Ty) (x : Nat) (h : x < 2 ^ t.elemBits) :
    t.val x % (2 ^ t.elemBits : Int) = (x : Int) % (2 ^ t.elemBits : Int) := by
  unfold Ty.val
  split
  · unfold signedOf
    simp only []
    rw [Nat.mod_eq_of_lt h]
    split
    · rfl
    · rw [Int.sub_emod_right]
  · push_cast
    rw [Int.emod_emod]

theorem wrapTo_of_emod {W : Nat} {v : Int} {n : Nat} (e : v % (2 ^ W : Int) = (n : Int) % (2 ^ W : Int)) :
    wrapTo W v = n % 2 ^ W := by
  rw [← wrapTo_natCast]
  unfold wrapTo
  rw [e]

theorem wrapTo_mod (W : Nat) (v : Int) : wrapTo W v % 2 ^ W = wrapTo W v := Nat.mod_eq_of_lt (wrapTo_lt _ _)

/-- Val lies in the type's range. -/
theorem Ty.val_range (t : Ty) (x : Nat) (h : x < 2 ^ t.elemBits) :
    -(2 ^ t.elemBits : Int) ≤ 2 * t.val x ∧ t.val x < 2 ^ t.elemBits ∧
    (t.signed = true → 2 * t.val x < 2 ^ t.elemBits) ∧ (t.signed = false → 0 ≤ t.val x) := by
  have hx' : (x : Int) < 2 ^ t.elemBits := by exact_mod_cast h
  have h2 : (0 : Int) < 2 ^ t.elemBits := by positivity
  unfold Ty.val
  split
  · next hs =>
    unfold signedOf
    simp only []
    rw [Nat.mod_eq_of_lt h]
    split
    · next h3 =>
      have h3' : (2 : Int) * x < 2 ^ t.elemBits := by exact_mod_cast h3
      exact ⟨by omega, by omega, fun _ => h3', by simp [hs]⟩
    · next h3 =>
      have h3' : ¬ (2 : Int) * x < 2 ^ t.elemBits := by exact_mod_cast h3
      exact ⟨by omega, by omega, fun _ => by omega, by simp [hs]⟩
  · next hs =>
    rw [Nat.mod_eq_of_lt h]
    exact ⟨by omega, hx', fun e => by simp [e] at hs, by omega⟩

theorem Ty.val_inj (t : Ty) (x y : Nat) (hx : x < 2 ^ t.elemBits) (hy : y < 2 ^ t.elemBits) (h : t.val x = t.val y) : x = y := by
  have := Ty.val_emod t x hx
  rw [h, Ty.val_emod t y hy] at this
  have e : y % 2 ^ t.elemBits = x % 2 ^ t.elemBits := by exact_mod_cast this
  rw [Nat.mod_eq_of_lt hx, Nat.mod_eq_of_lt hy] at e
  exact e.symm

variable (t : Ty) (x y : Nat) (hx : x < 2 ^ t.elemBits) (hy : y < 2 ^ t.elemBits)
include hx hy

theorem eAdd_elem : eAdd t x y % 2 ^ t.elemBits = (x + y) % 2 ^ t.elemBits := by
  unfold eAdd
  rw [wrapTo_of_emod (n := x + y), Nat.mod_mod]
  rw [Int.add_emod, Ty.val_emod t x hx, Ty.val_emod t y hy, ← Int.add_emod]
  push_cast
  rfl

theorem eSub_elem : eSub t x y % 2 ^ t.elemBits = (x + 2 ^ t.elemBits - y) % 2 ^ t.elemBits := by
  unfold eSub
  rw [wrapTo_of_emod (n := x + 2 ^ t.elemBits - y), Nat.mod_mod]
  rw [Int.sub_emod, Ty.val_emod t x hx, Ty.val_emod t y hy, ← Int.sub_emod, Nat.cast_sub (by omega)]
  push_cast
  rw [show (x : Int) + 2 ^ t.elemBits - y = x - y + 2 ^ t.elemBits by ring, Int.add_emod_right]

theorem eMul_elem : eMul t x y % 2 ^ t.elemBits = x * y % 2 ^ t.elemBits := by
  unfold eMul
  rw [wrapTo_of_emod (n := x * y), Nat.mod_mod]
  rw [Int.mul_emod, Ty.val_emod t x hx, Ty.val_emod t y hy, ← Int.mul_emod]
  push_cast
  rfl

omit hx hy in
theorem eMulhi_elem : eMulhi t x y % 2 ^ t.elemBits =
    (BitVec.ofInt t.elemBits (t.val x * t.val y / 2 ^ t.elemBits)).toNat := by
  unfold eMulhi
  rw [wrapTo_mod, wrapTo_eq_ofInt]

omit hx in
theorem eAnd_elem : eAnd t x y % 2 ^ t.elemBits = x &&& y := Nat.mod_eq_of_lt (Nat.and_lt_two_pow _ hy)
theorem eOr_elem : eOr t x y % 2 ^ t.elemBits = x ||| y := Nat.mod_eq_of_lt (Nat.or_lt_two_pow hx hy)
theorem eXor_elem : eXor t x y % 2 ^ t.elemBits = x ^^^ y := Nat.mod_eq_of_lt (Nat.xor_lt_two_pow hx hy)

theorem eAndn_elem : eAndn t x y % 2 ^ t.elemBits =
    (BitVec.ofNat t.elemBits x &&& ~~~(BitVec.ofNat t.elemBits y)).toNat := by
  unfold eAndn
  rw [Nat.mod_eq_of_lt (Nat.and_lt_two_pow _ (by omega))]
  simp [Nat.mod_eq_of_lt hx, Nat.mod_eq_of_lt hy]

omit hy in
theorem eShl_elem : eShl t x y % 2 ^ t.elemBits =
    if t.elemBits ≤ y then 0 else (BitVec.ofNat t.elemBits x <<< y).toNat := by
  unfold eShl
  split
  · simp
  · simp [Nat.shiftLeft_eq, Nat.mod_eq_of_lt hx]

omit hy in
theorem eShr_elem : eShr t x y % 2 ^ t.elemBits =
    if t.elemBits ≤ y then 0 else (BitVec.ofNat t.elemBits x >>> y).toNat := by
  unfold eShr
  split
  · simp
  · rw [Nat.mod_eq_of_lt (lt_of_le_of_lt (Nat.div_le_self _ _) hx)]
    simp [Nat.shiftRight_eq_div_pow, Nat.mod_eq_of_lt hx]

omit hy in
theorem eSar_elem : eSar t x y % 2 ^ t.elemBits = ((BitVec.ofNat t.elemBits x).sshiftRight y).toNat := by
  unfold eSar
  rw [wrapTo_mod, wrapTo_eq_ofInt, ← ofNat_toInt_lt hx]
  generalize BitVec.ofNat t.elemBits x = z
  have e1 : BitVec.ofInt t.elemBits (z.toInt / 2 ^ min y t.elemBits) = z.sshiftRight (min y t.elemBits) := by
    apply BitVec.eq_of_toInt_eq
    rw [BitVec.toInt_ofInt, ← Nat.cast_ofNat (R := Int), ← Nat.cast_pow, ← Int.shiftRight_eq_div_pow,
      ← BitVec.toInt_sshiftRight, BitVec.toInt_bmod_cancel]
  rw [e1]
  congr 1
  apply BitVec.eq_of_getLsbD_eq
  intro i hi
  rw [BitVec.getLsbD_sshiftRight, BitVec.getLsbD_sshiftRight]
  by_cases c : y ≤ t.elemBits
  · rw [Nat.min_eq_left c]
  · rw [Nat.min_eq_right (by omega)]
    simp [show ¬ t.elemBits + i < t.elemBits by omega, show ¬ y + i < t.elemBits by omega]

theorem eMin_elem : eMin t x y % 2 ^ t.elemBits = if t.val y < t.val x then y else x := by
  unfold eMin
  by_cases c : t.val x ≤ t.val y
  · rw [if_pos c, if_neg (by omega), Nat.mod_eq_of_lt hx]
  · rw [if_neg c, if_pos (by omega), Nat.mod_eq_of_lt hy]

theorem eMax_elem : eMax t x y % 2 ^ t.elemBits = if t.val x < t.val y then y else x := by
  unfold eMax
  by_cases c : t.val x < t.val y
  · rw [if_pos (by omega), if_pos c, Nat.mod_eq_of_lt hy]
  · by_cases c2 : t.val x = t.val y
    · have := Ty.val_inj t x y hx hy c2
      subst this
      simp [Nat.mod_eq_of_lt hx]
    · rw [if_neg (by omega), if_neg c, Nat.mod_eq_of_lt hx]

omit hx hy in
theorem Ty.sat_eq (v : Int) : Ty.sat t v % 2 ^ t.elemBits =
    (BitVec.ofInt t.elemBits (max (if t.signed then -(2 ^ (t.elemBits - 1)) else 0)
      (min (if t.signed then 2 ^ (t.elemBits - 1) - 1 else 2 ^ t.elemBits - 1) v))).toNat := by
  unfold Ty.sat
  exact (wrapTo_mod _ _).trans (wrapTo_eq_ofInt _ _)

theorem eAbsd_elem : eAbsd t x y % 2 ^ t.elemBits = (t.val x - t.val y).natAbs := by
  unfold eAbsd
  rw [Nat.mod_mod, Nat.mod_eq_of_lt]
  obtain ⟨a1, a2, a3, a4⟩ := Ty.val_range t x hx
  obtain ⟨b1, b2, b3, b4⟩ := Ty.val_range t y hy
  have : ((t.val x - t.val y).natAbs : Int) < ((2 ^ t.elemBits : Nat) : Int) := by
    push_cast
    rw [abs_lt]
    cases hs : t.signed
    · have := a4 hs
      have := b4 hs
      constructor <;> omega
    · have := a3 hs
      have := b3 hs
      constructor <;> omega
  exact_mod_cast this

end Sys2Proof.Machine
end

