-- ==== Sys2Proof/Laws/Encoding.lean ====
section
/-! SUPPORT. The fields of packed words, the slots they hold, and how a decoder reads each slot back. -/

namespace Sys2Proof

theorem extract_append_lo {n m k : Nat} (x : BitVec n) (y : BitVec m) (s : Nat) (h : s + k ≤ m) :
    (x ++ y).extractLsb' s k = y.extractLsb' s k := by
  apply BitVec.eq_of_getLsbD_eq; intro i hi
  simp only [BitVec.getLsbD_extractLsb', BitVec.getLsbD_append, hi, decide_true, Bool.true_and]
  rw [if_pos (by omega)]
theorem extract_append_hi {n m k : Nat} (x : BitVec n) (y : BitVec m) (s : Nat) (h : m ≤ s) :
    (x ++ y).extractLsb' s k = x.extractLsb' (s - m) k := by
  apply BitVec.eq_of_getLsbD_eq; intro i hi
  simp only [BitVec.getLsbD_extractLsb', BitVec.getLsbD_append, hi, decide_true, Bool.true_and]
  rw [if_neg (by omega)]; congr 1; omega
theorem extract_all {n : Nat} (x : BitVec n) : x.extractLsb' 0 n = x := by
  apply BitVec.eq_of_getLsbD_eq; intro i hi
  simp [hi]
theorem extract_ofFin {n : Nat} (r : Fin (2 ^ n)) : ((BitVec.ofFin r : BitVec n).extractLsb' 0 n).toFin = r := by
  rw [extract_all]
theorem fOp_packRRR (op : BitVec 7) (d a b : Reg) (x : Fin 16) : fOp (packRRR op d a b x) = op := by
  unfold fOp packRRR
  rw [extract_append_hi _ _ _ (by omega), extract_append_hi _ _ _ (by omega), extract_append_hi _ _ _ (by omega), extract_append_hi _ _ _ (by omega)]
  exact extract_all op
theorem fD_packRRR (op : BitVec 7) (d a b : Reg) (x : Fin 16) : fD (packRRR op d a b x) = d := by
  unfold fD packRRR
  rw [extract_append_hi _ _ _ (by omega), extract_append_hi _ _ _ (by omega), extract_append_hi _ _ _ (by omega), extract_append_lo _ _ _ (by omega)]
  exact extract_ofFin (n := 7) d
theorem fA_packRRR (op : BitVec 7) (d a b : Reg) (x : Fin 16) : fA (packRRR op d a b x) = a := by
  unfold fA packRRR
  rw [extract_append_hi _ _ _ (by omega), extract_append_hi _ _ _ (by omega), extract_append_lo _ _ _ (by omega)]
  exact extract_ofFin (n := 7) a
theorem fB_packRRR (op : BitVec 7) (d a b : Reg) (x : Fin 16) : fB (packRRR op d a b x) = b := by
  unfold fB packRRR
  rw [extract_append_hi _ _ _ (by omega), extract_append_lo _ _ _ (by omega)]
  exact extract_ofFin (n := 7) b
theorem fX_packRRR (op : BitVec 7) (d a b : Reg) (x : Fin 16) : fX (packRRR op d a b x) = x := by
  unfold fX packRRR
  rw [extract_append_lo _ _ _ (by omega)]
  exact extract_ofFin (n := 4) x
theorem fOp_packRRI (op : BitVec 7) (d a : Reg) (v : BitVec 11) : fOp (packRRI op d a v) = op := by
  unfold fOp packRRI
  rw [extract_append_hi _ _ _ (by omega), extract_append_hi _ _ _ (by omega), extract_append_hi _ _ _ (by omega)]
  exact extract_all op
theorem fD_packRRI (op : BitVec 7) (d a : Reg) (v : BitVec 11) : fD (packRRI op d a v) = d := by
  unfold fD packRRI
  rw [extract_append_hi _ _ _ (by omega), extract_append_hi _ _ _ (by omega), extract_append_lo _ _ _ (by omega)]
  exact extract_ofFin (n := 7) d
theorem fA_packRRI (op : BitVec 7) (d a : Reg) (v : BitVec 11) : fA (packRRI op d a v) = a := by
  unfold fA packRRI
  rw [extract_append_hi _ _ _ (by omega), extract_append_lo _ _ _ (by omega)]
  exact extract_ofFin (n := 7) a
theorem fImm11_packRRI (op : BitVec 7) (d a : Reg) (v : BitVec 11) : fImm11 (packRRI op d a v) = v := by
  unfold fImm11 packRRI
  rw [extract_append_lo _ _ _ (by omega), extract_all]
theorem fOp_packRI (op : BitVec 7) (d : Reg) (v : BitVec 18) : fOp (packRI op d v) = op := by
  unfold fOp packRI
  rw [extract_append_hi _ _ _ (by omega), extract_append_hi _ _ _ (by omega)]
  exact extract_all op
theorem fD_packRI (op : BitVec 7) (d : Reg) (v : BitVec 18) : fD (packRI op d v) = d := by
  unfold fD packRI
  rw [extract_append_hi _ _ _ (by omega), extract_append_lo _ _ _ (by omega)]
  exact extract_ofFin (n := 7) d
theorem fImm18_packRI (op : BitVec 7) (d : Reg) (v : BitVec 18) : fImm18 (packRI op d v) = v := by
  unfold fImm18 packRI
  rw [extract_append_lo _ _ _ (by omega), extract_all]
theorem fOp_packJ (op : BitVec 7) (v : BitVec 25) : fOp (packJ op v) = op := by
  unfold fOp packJ
  rw [extract_append_hi _ _ _ (by omega)]
  exact extract_all op
theorem fImm25_packJ (op : BitVec 7) (v : BitVec 25) : fImm25 (packJ op v) = v := by
  unfold fImm25 packJ
  rw [extract_append_lo _ _ _ (by omega), extract_all]
theorem decode_of_fields {w : Word} {i : Instr} (h : decodeFields w = .ok i) (hwf : i.wf = true) : decode w = .ok i := by
  unfold decode; rw [h]; exact if_pos hwf
theorem zero_zero {n : Nat} (k : Decoded) : zero (0 : Fin (n + 1)) k = k := if_pos rfl
theorem asFin_slot {m : Nat} (v : Fin m) (hm : m ≤ 128) (k : Fin m → Decoded) : asFin m (finSlot v) k = k v := by
  have : (finSlot v).val = v.val := Nat.mod_eq_of_lt (by have := v.isLt; omega)
  unfold asFin
  simp only [this, v.isLt, dif_pos]
theorem asMask_slot (m : BitVec 6) (k : BitVec 6 → Decoded) : asMask (maskSlot m) k = k m := by
  have : (maskSlot m).val = m.toNat := Nat.mod_eq_of_lt (by have := m.isLt; omega)
  unfold asMask
  rw [this, if_pos m.isLt, BitVec.ofNat_toNat, BitVec.setWidth_eq]
theorem asBool_slot (b : Bool) (k : Bool → Decoded) : asBool (boolSlot b) k = k b := by cases b <;> rfl
theorem predNeg_facts : ∀ (neg : Bool) (p : PReg), (predNegSlot neg p).val < 16 ∧ decide (8 ≤ (predNegSlot neg p).val) = neg ∧
    Fin.ofNat 8 (predNegSlot neg p).val = p ∧ decide (8 ≤ (predNegX neg p).val) = neg ∧
    Fin.ofNat 8 (predNegX neg p).val = p := by decide
theorem asPredNeg_slot (neg : Bool) (p : PReg) (k : Bool → PReg → Decoded) :
    asPredNeg (predNegSlot neg p) k = k neg p := by
  obtain ⟨h, h1, h2, -, -⟩ := predNeg_facts neg p
  unfold asPredNeg; rw [if_pos h, h1, h2]
theorem asPredNegX_slot (neg : Bool) (p : PReg) (k : Bool → PReg → Decoded) :
    asPredNegX (predNegX neg p) k = k neg p := by
  obtain ⟨-, -, -, h1, h2⟩ := predNeg_facts neg p
  unfold asPredNegX; rw [h1, h2]
theorem asCode_RmX (c : Rm) (k : Rm → Decoded) : asCode Rm.ofCode (codeX c.code).val k = k c := by cases c <;> rfl
theorem asCode_SCondX (c : SCond) (k : SCond → Decoded) : asCode SCond.ofCode (codeX c.code).val k = k c := by cases c <;> rfl
theorem asCode_VCondX (c : VCond) (k : VCond → Decoded) : asCode VCond.ofCode (codeX c.code).val k = k c := by cases c <;> rfl
theorem asCode_FCondX (c : FCond) (k : FCond → Decoded) : asCode FCond.ofCode (codeX c.code).val k = k c := by cases c <;> rfl
theorem asCode_WCondX (c : WCond) (k : WCond → Decoded) : asCode WCond.ofCode (codeX c.code).val k = k c := by cases c <;> rfl
theorem asCode_PrivRegSlot (c : PrivReg) (k : PrivReg → Decoded) : asCode PrivReg.ofCode (codeSlot c.code).val k = k c := by
  cases c <;> rfl
theorem asCode_BufSlot (c : Buf) (k : Buf → Decoded) : asCode Buf.ofCode (codeSlot c.code).val k = k c := by
  cases c <;> rfl
theorem asCode_TySlot (c : Ty) (k : Ty → Decoded) : asCode Ty.ofCode (codeSlot c.code).val k = k c := by
  cases c <;> rfl
theorem asCode_XOpSlot (c : XOp) (k : XOp → Decoded) : asCode XOp.ofCode (codeSlot c.code).val k = k c := by
  cases c <;> rfl
theorem asCode_LkModeSlot (c : LkMode) (k : LkMode → Decoded) : asCode LkMode.ofCode (codeSlot c.code).val k = k c := by
  cases c <;> rfl
theorem asCode_SpecReg (n : SpecReg) (k : SpecReg → Decoded) :
    asCode SpecReg.ofNumber (BitVec.ofNat 11 n.number).toNat k = k n := by
  cases n with
  | field j => match j with | 0 | 1 | 2 | 3 | 4 | 5 => rfl
  | _ => rfl

/-! CLAUSE's fields (R50). -/

theorem code_facts :
    (∀ t : Ty, Ty.ofCode (BitVec.ofNat 5 t.code).toNat = some t) ∧
    (∀ t : Rm, Rm.ofCode (BitVec.ofNat 3 t.code).toNat = some t) ∧
    (∀ t : GroupCode, GroupCode.ofCode (BitVec.ofNat 3 t.code).toNat = some t) ∧
    (∀ t : Scope, Scope.ofCode (BitVec.ofNat 4 t.code).toNat = some t) ∧
    (∀ t : Ordering4, Ordering4.ofCode (BitVec.ofNat 2 t.code).toNat = some t) :=
  ⟨fun t => by cases t <;> rfl, fun t => by cases t <;> rfl, fun t => by cases t <;> rfl,
    fun t => by cases t <;> rfl, fun t => by cases t <;> rfl⟩
theorem asCode_of_some {α : Type} {f : Nat → Option α} {n : Nat} {a : α} (h : f n = some a) (k : α → Decoded) :
    asCode f n k = k a := by unfold asCode; rw [h]
theorem decodeClause_packClause (c : ClauseWord) : decodeClause (packClause c) = .ok (.clause c) := by
  obtain ⟨count, neg, guard, ty, rm, grp, scope, ord⟩ := c
  have h0 : (packClause ⟨count, neg, guard, ty, rm, grp, scope, ord⟩).extractLsb' 0 2 = BitVec.ofNat 2 ord.code := by
    unfold packClause; rw [extract_append_lo _ _ _ (by omega), extract_all]
  have h2 : (packClause ⟨count, neg, guard, ty, rm, grp, scope, ord⟩).extractLsb' 2 4 = BitVec.ofNat 4 scope.code := by
    unfold packClause; rw [extract_append_hi _ _ _ (by omega), extract_append_lo _ _ _ (by omega), extract_all]
  have h6 : (packClause ⟨count, neg, guard, ty, rm, grp, scope, ord⟩).extractLsb' 6 3 = BitVec.ofNat 3 grp.code := by
    unfold packClause
    rw [extract_append_hi _ _ _ (by omega), extract_append_hi _ _ _ (by omega),
      extract_append_lo _ _ _ (by omega), extract_all]
  have h9 : (packClause ⟨count, neg, guard, ty, rm, grp, scope, ord⟩).extractLsb' 9 3 = BitVec.ofNat 3 rm.code := by
    unfold packClause
    rw [extract_append_hi _ _ _ (by omega), extract_append_hi _ _ _ (by omega), extract_append_hi _ _ _ (by omega),
      extract_append_lo _ _ _ (by omega), extract_all]
  have h12 : (packClause ⟨count, neg, guard, ty, rm, grp, scope, ord⟩).extractLsb' 12 5 = BitVec.ofNat 5 ty.code := by
    unfold packClause
    rw [extract_append_hi _ _ _ (by omega), extract_append_hi _ _ _ (by omega), extract_append_hi _ _ _ (by omega),
      extract_append_hi _ _ _ (by omega), extract_append_lo _ _ _ (by omega), extract_all]
  have h17 : ((packClause ⟨count, neg, guard, ty, rm, grp, scope, ord⟩).extractLsb' 17 3).toFin = guard := by
    unfold packClause
    rw [extract_append_hi _ _ _ (by omega), extract_append_hi _ _ _ (by omega), extract_append_hi _ _ _ (by omega),
      extract_append_hi _ _ _ (by omega), extract_append_hi _ _ _ (by omega), extract_append_lo _ _ _ (by omega)]
    exact extract_ofFin (n := 3) guard
  have h21 : ((packClause ⟨count, neg, guard, ty, rm, grp, scope, ord⟩).extractLsb' 21 4).toFin = count := by
    unfold packClause
    rw [extract_append_hi _ _ _ (by omega), extract_append_hi _ _ _ (by omega), extract_append_hi _ _ _ (by omega),
      extract_append_hi _ _ _ (by omega), extract_append_hi _ _ _ (by omega), extract_append_hi _ _ _ (by omega),
      extract_append_hi _ _ _ (by omega), extract_append_lo _ _ _ (by omega)]
    exact extract_ofFin (n := 4) count
  have h20 : (packClause ⟨count, neg, guard, ty, rm, grp, scope, ord⟩).getLsbD 20 = neg := by
    unfold packClause
    simp only [BitVec.getLsbD_append]
    simp
  obtain ⟨c1, c2, c3, c4, c5⟩ := code_facts
  unfold decodeClause
  rw [h0, h2, h6, h9, h12, h17, h20, h21]
  refine (asCode_of_some (c1 _) _).trans ?_
  refine (asCode_of_some (c2 _) _).trans ?_
  refine (asCode_of_some (c3 _) _).trans ?_
  refine (asCode_of_some (c4 _) _).trans ?_
  exact asCode_of_some (c5 _) _
theorem fOp_packClause (c : ClauseWord) : fOp (packClause c) = 0x02#7 := by
  unfold fOp packClause
  rw [extract_append_hi _ _ _ (by omega), extract_append_hi _ _ _ (by omega), extract_append_hi _ _ _ (by omega),
    extract_append_hi _ _ _ (by omega), extract_append_hi _ _ _ (by omega), extract_append_hi _ _ _ (by omega),
    extract_append_hi _ _ _ (by omega), extract_append_hi _ _ _ (by omega)]
  exact extract_all _
theorem decodeFields_clause (c : ClauseWord) : decodeFields (packClause c) = .ok (.clause c) := by
  unfold decodeFields
  rw [fOp_packClause]
  exact decodeClause_packClause c

theorem extract_append_extract {n : Nat} (w : BitVec n) (s k m : Nat) :
    w.extractLsb' (s + m) k ++ w.extractLsb' s m = w.extractLsb' s (k + m) := by
  apply BitVec.eq_of_getLsbD_eq; intro i hi
  simp only [BitVec.getLsbD_extractLsb', BitVec.getLsbD_append]
  by_cases h : i < m
  · simp [h, hi]
  · have : i - m < k := by omega
    simp only [h, if_false, this, hi, decide_true, Bool.true_and]
    congr 1; omega
theorem packRRR_fields (w : Word) : packRRR (fOp w) (fD w) (fA w) (fB w) (fX w) = w := by
  show w.extractLsb' 25 7 ++ w.extractLsb' 18 7 ++ w.extractLsb' 11 7 ++ w.extractLsb' 4 7 ++ w.extractLsb' 0 4 = w
  rw [extract_append_extract w 18 7 7, extract_append_extract w 11 14 7, extract_append_extract w 4 21 7,
    extract_append_extract w 0 28 4, extract_all]
theorem packRRI_fields (w : Word) : packRRI (fOp w) (fD w) (fA w) (fImm11 w) = w := by
  show w.extractLsb' 25 7 ++ w.extractLsb' 18 7 ++ w.extractLsb' 11 7 ++ w.extractLsb' 0 11 = w
  rw [extract_append_extract w 18 7 7, extract_append_extract w 11 14 7, extract_append_extract w 0 21 11,
    extract_all]
theorem packRI_fields (w : Word) : packRI (fOp w) (fD w) (fImm18 w) = w := by
  show w.extractLsb' 25 7 ++ w.extractLsb' 18 7 ++ w.extractLsb' 0 18 = w
  rw [extract_append_extract w 18 7 7, extract_append_extract w 0 14 18, extract_all]
theorem packJ_fields (w : Word) : packJ (fOp w) (fImm25 w) = w := by
  show w.extractLsb' 25 7 ++ w.extractLsb' 0 25 = w
  rw [extract_append_extract w 0 7 25, extract_all]
/-! What a slot held when a decoder accepted it. -/
theorem zero_ok {n : Nat} {r : Fin (n + 1)} {k : Decoded} {i : Instr} (h : zero r k = .ok i) : r = 0 ∧ k = .ok i := by
  unfold zero at h
  split at h
  next hr => exact ⟨Fin.ext hr, h⟩
  next => cases h
theorem asFin_ok {m : Nat} {r : Reg} {k : Fin m → Decoded} {i : Instr} (h : asFin m r k = .ok i) :
    ∃ v : Fin m, r = finSlot v ∧ k v = .ok i := by
  unfold asFin at h
  split at h
  next hr => exact ⟨⟨r.val, hr⟩, Fin.ext (Nat.mod_eq_of_lt r.isLt).symm, h⟩
  next => cases h
theorem asMask_ok {r : Reg} {k : BitVec 6 → Decoded} {i : Instr} (h : asMask r k = .ok i) :
    ∃ v : BitVec 6, r = maskSlot v ∧ k v = .ok i := by
  unfold asMask at h
  split at h
  next hr =>
    refine ⟨_, Fin.ext ?_, h⟩
    show r.val = (BitVec.ofNat 6 r.val).toNat % 128
    rw [BitVec.toNat_ofNat]; omega
  next => cases h
theorem asBool_ok {r : Reg} {k : Bool → Decoded} {i : Instr} (h : asBool r k = .ok i) :
    ∃ v : Bool, r = boolSlot v ∧ k v = .ok i := by
  unfold asBool at h
  split at h
  next hr => exact ⟨_, (by decide : ∀ r : Reg, r.val < 2 → r = boolSlot (r.val == 1)) r hr, h⟩
  next => cases h
theorem asPredNeg_ok {r : Reg} {k : Bool → PReg → Decoded} {i : Instr} (h : asPredNeg r k = .ok i) :
    ∃ (neg : Bool) (p : PReg), r = predNegSlot neg p ∧ k neg p = .ok i := by
  unfold asPredNeg at h
  split at h
  next hr =>
    exact ⟨_, _, (by decide : ∀ r : Reg, r.val < 16 → r = predNegSlot (8 ≤ r.val) (Fin.ofNat 8 r.val)) r hr, h⟩
  next => cases h
theorem asPredNegX_ok {r : Fin 16} {k : Bool → PReg → Decoded} {i : Instr} (h : asPredNegX r k = .ok i) :
    ∃ (neg : Bool) (p : PReg), r = predNegX neg p ∧ k neg p = .ok i :=
  ⟨_, _, (by decide : ∀ r : Fin 16, r = predNegX (8 ≤ r.val) (Fin.ofNat 8 r.val)) r, h⟩
theorem asCode_ok {α : Type} {f : Nat → Option α} {n : Nat} {k : α → Decoded} {i : Instr} (h : asCode f n k = .ok i) :
    ∃ a, f n = some a ∧ k a = .ok i := by
  unfold asCode at h
  split at h
  next a ha => exact ⟨a, ha, h⟩
  next => cases h
theorem fOp_eq {w : Word} {n : Nat} (h : (fOp w).toNat = n) : fOp w = BitVec.ofNat 7 n := by rw [← h]; simp
theorem Ty.code_eq {n : Nat} {c : Ty} (h : Ty.ofCode n = some c) : n = c.code := by
  unfold Ty.ofCode at h; split at h <;> cases h <;> rfl
theorem Rm.code_eq {n : Nat} {c : Rm} (h : Rm.ofCode n = some c) : n = c.code := by
  unfold Rm.ofCode at h; split at h <;> cases h <;> rfl
theorem GroupCode.code_eq {n : Nat} {c : GroupCode} (h : GroupCode.ofCode n = some c) : n = c.code := by
  unfold GroupCode.ofCode at h; split at h <;> cases h <;> rfl
theorem Scope.code_eq {n : Nat} {c : Scope} (h : Scope.ofCode n = some c) : n = c.code := by
  unfold Scope.ofCode at h; split at h <;> cases h <;> rfl
theorem Ordering4.code_eq {n : Nat} {c : Ordering4} (h : Ordering4.ofCode n = some c) : n = c.code := by
  unfold Ordering4.ofCode at h; split at h <;> cases h <;> rfl
theorem SCond.code_eq {n : Nat} {c : SCond} (h : SCond.ofCode n = some c) : n = c.code := by
  unfold SCond.ofCode at h; split at h <;> cases h <;> rfl
theorem VCond.code_eq {n : Nat} {c : VCond} (h : VCond.ofCode n = some c) : n = c.code := by
  unfold VCond.ofCode at h; split at h <;> cases h <;> rfl
theorem FCond.code_eq {n : Nat} {c : FCond} (h : FCond.ofCode n = some c) : n = c.code := by
  unfold FCond.ofCode at h; split at h <;> cases h <;> rfl
theorem WCond.code_eq {n : Nat} {c : WCond} (h : WCond.ofCode n = some c) : n = c.code := by
  unfold WCond.ofCode at h; split at h <;> cases h <;> rfl
theorem XOp.code_eq {n : Nat} {c : XOp} (h : XOp.ofCode n = some c) : n = c.code := by
  unfold XOp.ofCode at h; split at h <;> cases h <;> rfl
theorem LkMode.code_eq {n : Nat} {c : LkMode} (h : LkMode.ofCode n = some c) : n = c.code := by
  unfold LkMode.ofCode at h; split at h <;> cases h <;> rfl
theorem Buf.code_eq {n : Nat} {c : Buf} (h : Buf.ofCode n = some c) : n = c.code := by
  unfold Buf.ofCode at h; split at h <;> cases h <;> rfl
theorem PrivReg.code_eq {n : Nat} {c : PrivReg} (h : PrivReg.ofCode n = some c) : n = c.code := by
  unfold PrivReg.ofCode at h; split at h <;> cases h <;> rfl
theorem SpecReg.number_eq {n : Nat} {c : SpecReg} (h : SpecReg.ofNumber n = some c) : n = c.number := by
  unfold SpecReg.ofNumber at h; split at h <;> cases h <;> rfl

end Sys2Proof
end

