-- ==== Sys2Proof/Laws/State.lean ====
section
/-! SUPPORT. One lemma per field per update: what each update of the state, of a warp and of a split leaves as it was, and
what it writes. -/

namespace Sys2Proof.Machine

/-! One record of the state changes; every other field stays. -/

@[simp] theorem State.modWarp_member (s : State) (f : Warp → Warp) : (s.modWarp f).member = s.member := rfl
@[simp] theorem State.modWarp_up (s : State) (f : Warp → Warp) : (s.modWarp f).up = s.up := rfl
@[simp] theorem State.modWarp_now (s : State) (f : Warp → Warp) : (s.modWarp f).now = s.now := rfl
@[simp] theorem State.modWarp_fresh (s : State) (f : Warp → Warp) : (s.modWarp f).fresh = s.fresh := rfl
@[simp] theorem State.modWarp_agenda (s : State) (f : Warp → Warp) : (s.modWarp f).agenda = s.agenda := rfl
@[simp] theorem State.modWarp_mem (s : State) (f : Warp → Warp) : (s.modWarp f).mem = s.mem := rfl
@[simp] theorem State.modWarp_lineKeys (s : State) (f : Warp → Warp) : (s.modWarp f).lineKeys = s.lineKeys := rfl
@[simp] theorem State.modWarp_l2 (s : State) (f : Warp → Warp) : (s.modWarp f).l2 = s.l2 := rfl
@[simp] theorem State.modWarp_caches (s : State) (f : Warp → Warp) : (s.modWarp f).caches = s.caches := rfl
@[simp] theorem State.modWarp_late (s : State) (f : Warp → Warp) : (s.modWarp f).late = s.late := rfl
@[simp] theorem State.modWarp_slow (s : State) (f : Warp → Warp) : (s.modWarp f).slow = s.slow := rfl
@[simp] theorem State.modWarp_tlb (s : State) (f : Warp → Warp) : (s.modWarp f).tlb = s.tlb := rfl
@[simp] theorem State.modWarp_xlats (s : State) (f : Warp → Warp) : (s.modWarp f).xlats = s.xlats := rfl
@[simp] theorem State.modWarp_named (s : State) (f : Warp → Warp) : (s.modWarp f).named = s.named := rfl
@[simp] theorem State.modWarp_icache (s : State) (f : Warp → Warp) : (s.modWarp f).icache = s.icache := rfl
@[simp] theorem State.modWarp_codeLines (s : State) (f : Warp → Warp) : (s.modWarp f).codeLines = s.codeLines := rfl
@[simp] theorem State.modWarp_codeSince (s : State) (f : Warp → Warp) : (s.modWarp f).codeSince = s.codeSince := rfl
@[simp] theorem State.modWarp_contexts (s : State) (f : Warp → Warp) : (s.modWarp f).contexts = s.contexts := rfl
@[simp] theorem State.modWarp_launches (s : State) (f : Warp → Warp) : (s.modWarp f).launches = s.launches := rfl
@[simp] theorem State.modWarp_groups (s : State) (f : Warp → Warp) : (s.modWarp f).groups = s.groups := rfl
@[simp] theorem State.modWarp_others (s : State) (f : Warp → Warp) : (s.modWarp f).others = s.others := rfl
@[simp] theorem State.modWarp_queues (s : State) (f : Warp → Warp) : (s.modWarp f).queues = s.queues := rfl
@[simp] theorem State.modWarp_lastQueue (s : State) (f : Warp → Warp) : (s.modWarp f).lastQueue = s.lastQueue := rfl
@[simp] theorem State.modWarp_parks (s : State) (f : Warp → Warp) : (s.modWarp f).parks = s.parks := rfl
@[simp] theorem State.modWarp_events (s : State) (f : Warp → Warp) : (s.modWarp f).events = s.events := rfl
@[simp] theorem State.modWarp_keys (s : State) (f : Warp → Warp) : (s.modWarp f).keys = s.keys := rfl
@[simp] theorem State.modWarp_collGroups (s : State) (f : Warp → Warp) : (s.modWarp f).collGroups = s.collGroups := rfl
@[simp] theorem State.modWarp_instances (s : State) (f : Warp → Warp) : (s.modWarp f).instances = s.instances := rfl
@[simp] theorem State.modWarp_scrubs (s : State) (f : Warp → Warp) : (s.modWarp f).scrubs = s.scrubs := rfl
@[simp] theorem State.modWarp_scrubRestarted (s : State) (f : Warp → Warp) : (s.modWarp f).scrubRestarted = s.scrubRestarted := rfl
@[simp] theorem State.modWarp_poisoned (s : State) (f : Warp → Warp) : (s.modWarp f).poisoned = s.poisoned := rfl
@[simp] theorem State.modWarp_retiredCores (s : State) (f : Warp → Warp) : (s.modWarp f).retiredCores = s.retiredCores := rfl
@[simp] theorem State.modWarp_errors (s : State) (f : Warp → Warp) : (s.modWarp f).errors = s.errors := rfl
@[simp] theorem State.modWarp_peers (s : State) (f : Warp → Warp) : (s.modWarp f).peers = s.peers := rfl
@[simp] theorem State.modWarp_selfPeer (s : State) (f : Warp → Warp) : (s.modWarp f).selfPeer = s.selfPeer := rfl
@[simp] theorem State.modWarp_monitors (s : State) (f : Warp → Warp) : (s.modWarp f).monitors = s.monitors := rfl
@[simp] theorem State.modWarp_warp (s : State) (f : Warp → Warp) : (s.modWarp f).warp = f s.warp := rfl
@[simp] theorem State.modWarps_member (s : State) (p : Warp → Bool) (f : Warp → Warp) : (s.modWarps p f).member = s.member := rfl
@[simp] theorem State.modWarps_up (s : State) (p : Warp → Bool) (f : Warp → Warp) : (s.modWarps p f).up = s.up := rfl
@[simp] theorem State.modWarps_now (s : State) (p : Warp → Bool) (f : Warp → Warp) : (s.modWarps p f).now = s.now := rfl
@[simp] theorem State.modWarps_fresh (s : State) (p : Warp → Bool) (f : Warp → Warp) : (s.modWarps p f).fresh = s.fresh := rfl
@[simp] theorem State.modWarps_agenda (s : State) (p : Warp → Bool) (f : Warp → Warp) : (s.modWarps p f).agenda = s.agenda := rfl
@[simp] theorem State.modWarps_mem (s : State) (p : Warp → Bool) (f : Warp → Warp) : (s.modWarps p f).mem = s.mem := rfl
@[simp] theorem State.modWarps_lineKeys (s : State) (p : Warp → Bool) (f : Warp → Warp) : (s.modWarps p f).lineKeys = s.lineKeys := rfl
@[simp] theorem State.modWarps_l2 (s : State) (p : Warp → Bool) (f : Warp → Warp) : (s.modWarps p f).l2 = s.l2 := rfl
@[simp] theorem State.modWarps_caches (s : State) (p : Warp → Bool) (f : Warp → Warp) : (s.modWarps p f).caches = s.caches := rfl
@[simp] theorem State.modWarps_late (s : State) (p : Warp → Bool) (f : Warp → Warp) : (s.modWarps p f).late = s.late := rfl
@[simp] theorem State.modWarps_slow (s : State) (p : Warp → Bool) (f : Warp → Warp) : (s.modWarps p f).slow = s.slow := rfl
@[simp] theorem State.modWarps_tlb (s : State) (p : Warp → Bool) (f : Warp → Warp) : (s.modWarps p f).tlb = s.tlb := rfl
@[simp] theorem State.modWarps_xlats (s : State) (p : Warp → Bool) (f : Warp → Warp) : (s.modWarps p f).xlats = s.xlats := rfl
@[simp] theorem State.modWarps_named (s : State) (p : Warp → Bool) (f : Warp → Warp) : (s.modWarps p f).named = s.named := rfl
@[simp] theorem State.modWarps_icache (s : State) (p : Warp → Bool) (f : Warp → Warp) : (s.modWarps p f).icache = s.icache := rfl
@[simp] theorem State.modWarps_codeLines (s : State) (p : Warp → Bool) (f : Warp → Warp) : (s.modWarps p f).codeLines = s.codeLines := rfl
@[simp] theorem State.modWarps_codeSince (s : State) (p : Warp → Bool) (f : Warp → Warp) : (s.modWarps p f).codeSince = s.codeSince := rfl
@[simp] theorem State.modWarps_contexts (s : State) (p : Warp → Bool) (f : Warp → Warp) : (s.modWarps p f).contexts = s.contexts := rfl
@[simp] theorem State.modWarps_launches (s : State) (p : Warp → Bool) (f : Warp → Warp) : (s.modWarps p f).launches = s.launches := rfl
@[simp] theorem State.modWarps_groups (s : State) (p : Warp → Bool) (f : Warp → Warp) : (s.modWarps p f).groups = s.groups := rfl
@[simp] theorem State.modWarps_queues (s : State) (p : Warp → Bool) (f : Warp → Warp) : (s.modWarps p f).queues = s.queues := rfl
@[simp] theorem State.modWarps_lastQueue (s : State) (p : Warp → Bool) (f : Warp → Warp) : (s.modWarps p f).lastQueue = s.lastQueue := rfl
@[simp] theorem State.modWarps_parks (s : State) (p : Warp → Bool) (f : Warp → Warp) : (s.modWarps p f).parks = s.parks := rfl
@[simp] theorem State.modWarps_events (s : State) (p : Warp → Bool) (f : Warp → Warp) : (s.modWarps p f).events = s.events := rfl
@[simp] theorem State.modWarps_keys (s : State) (p : Warp → Bool) (f : Warp → Warp) : (s.modWarps p f).keys = s.keys := rfl
@[simp] theorem State.modWarps_collGroups (s : State) (p : Warp → Bool) (f : Warp → Warp) : (s.modWarps p f).collGroups = s.collGroups := rfl
@[simp] theorem State.modWarps_instances (s : State) (p : Warp → Bool) (f : Warp → Warp) : (s.modWarps p f).instances = s.instances := rfl
@[simp] theorem State.modWarps_scrubs (s : State) (p : Warp → Bool) (f : Warp → Warp) : (s.modWarps p f).scrubs = s.scrubs := rfl
@[simp] theorem State.modWarps_scrubRestarted (s : State) (p : Warp → Bool) (f : Warp → Warp) : (s.modWarps p f).scrubRestarted = s.scrubRestarted := rfl
@[simp] theorem State.modWarps_poisoned (s : State) (p : Warp → Bool) (f : Warp → Warp) : (s.modWarps p f).poisoned = s.poisoned := rfl
@[simp] theorem State.modWarps_retiredCores (s : State) (p : Warp → Bool) (f : Warp → Warp) : (s.modWarps p f).retiredCores = s.retiredCores := rfl
@[simp] theorem State.modWarps_errors (s : State) (p : Warp → Bool) (f : Warp → Warp) : (s.modWarps p f).errors = s.errors := rfl
@[simp] theorem State.modWarps_peers (s : State) (p : Warp → Bool) (f : Warp → Warp) : (s.modWarps p f).peers = s.peers := rfl
@[simp] theorem State.modWarps_selfPeer (s : State) (p : Warp → Bool) (f : Warp → Warp) : (s.modWarps p f).selfPeer = s.selfPeer := rfl
@[simp] theorem State.modWarps_monitors (s : State) (p : Warp → Bool) (f : Warp → Warp) : (s.modWarps p f).monitors = s.monitors := rfl
@[simp] theorem State.modWarpAt_member (s : State) (k : WarpKey) (f : Warp → Warp) : (s.modWarpAt k f).member = s.member := rfl
@[simp] theorem State.modWarpAt_up (s : State) (k : WarpKey) (f : Warp → Warp) : (s.modWarpAt k f).up = s.up := rfl
@[simp] theorem State.modWarpAt_now (s : State) (k : WarpKey) (f : Warp → Warp) : (s.modWarpAt k f).now = s.now := rfl
@[simp] theorem State.modWarpAt_fresh (s : State) (k : WarpKey) (f : Warp → Warp) : (s.modWarpAt k f).fresh = s.fresh := rfl
@[simp] theorem State.modWarpAt_agenda (s : State) (k : WarpKey) (f : Warp → Warp) : (s.modWarpAt k f).agenda = s.agenda := rfl
@[simp] theorem State.modWarpAt_mem (s : State) (k : WarpKey) (f : Warp → Warp) : (s.modWarpAt k f).mem = s.mem := rfl
@[simp] theorem State.modWarpAt_lineKeys (s : State) (k : WarpKey) (f : Warp → Warp) : (s.modWarpAt k f).lineKeys = s.lineKeys := rfl
@[simp] theorem State.modWarpAt_l2 (s : State) (k : WarpKey) (f : Warp → Warp) : (s.modWarpAt k f).l2 = s.l2 := rfl
@[simp] theorem State.modWarpAt_caches (s : State) (k : WarpKey) (f : Warp → Warp) : (s.modWarpAt k f).caches = s.caches := rfl
@[simp] theorem State.modWarpAt_late (s : State) (k : WarpKey) (f : Warp → Warp) : (s.modWarpAt k f).late = s.late := rfl
@[simp] theorem State.modWarpAt_slow (s : State) (k : WarpKey) (f : Warp → Warp) : (s.modWarpAt k f).slow = s.slow := rfl
@[simp] theorem State.modWarpAt_tlb (s : State) (k : WarpKey) (f : Warp → Warp) : (s.modWarpAt k f).tlb = s.tlb := rfl
@[simp] theorem State.modWarpAt_xlats (s : State) (k : WarpKey) (f : Warp → Warp) : (s.modWarpAt k f).xlats = s.xlats := rfl
@[simp] theorem State.modWarpAt_named (s : State) (k : WarpKey) (f : Warp → Warp) : (s.modWarpAt k f).named = s.named := rfl
@[simp] theorem State.modWarpAt_icache (s : State) (k : WarpKey) (f : Warp → Warp) : (s.modWarpAt k f).icache = s.icache := rfl
@[simp] theorem State.modWarpAt_codeLines (s : State) (k : WarpKey) (f : Warp → Warp) : (s.modWarpAt k f).codeLines = s.codeLines := rfl
@[simp] theorem State.modWarpAt_codeSince (s : State) (k : WarpKey) (f : Warp → Warp) : (s.modWarpAt k f).codeSince = s.codeSince := rfl
@[simp] theorem State.modWarpAt_contexts (s : State) (k : WarpKey) (f : Warp → Warp) : (s.modWarpAt k f).contexts = s.contexts := rfl
@[simp] theorem State.modWarpAt_launches (s : State) (k : WarpKey) (f : Warp → Warp) : (s.modWarpAt k f).launches = s.launches := rfl
@[simp] theorem State.modWarpAt_groups (s : State) (k : WarpKey) (f : Warp → Warp) : (s.modWarpAt k f).groups = s.groups := rfl
@[simp] theorem State.modWarpAt_queues (s : State) (k : WarpKey) (f : Warp → Warp) : (s.modWarpAt k f).queues = s.queues := rfl
@[simp] theorem State.modWarpAt_lastQueue (s : State) (k : WarpKey) (f : Warp → Warp) : (s.modWarpAt k f).lastQueue = s.lastQueue := rfl
@[simp] theorem State.modWarpAt_parks (s : State) (k : WarpKey) (f : Warp → Warp) : (s.modWarpAt k f).parks = s.parks := rfl
@[simp] theorem State.modWarpAt_events (s : State) (k : WarpKey) (f : Warp → Warp) : (s.modWarpAt k f).events = s.events := rfl
@[simp] theorem State.modWarpAt_keys (s : State) (k : WarpKey) (f : Warp → Warp) : (s.modWarpAt k f).keys = s.keys := rfl
@[simp] theorem State.modWarpAt_collGroups (s : State) (k : WarpKey) (f : Warp → Warp) : (s.modWarpAt k f).collGroups = s.collGroups := rfl
@[simp] theorem State.modWarpAt_instances (s : State) (k : WarpKey) (f : Warp → Warp) : (s.modWarpAt k f).instances = s.instances := rfl
@[simp] theorem State.modWarpAt_scrubs (s : State) (k : WarpKey) (f : Warp → Warp) : (s.modWarpAt k f).scrubs = s.scrubs := rfl
@[simp] theorem State.modWarpAt_scrubRestarted (s : State) (k : WarpKey) (f : Warp → Warp) : (s.modWarpAt k f).scrubRestarted = s.scrubRestarted := rfl
@[simp] theorem State.modWarpAt_poisoned (s : State) (k : WarpKey) (f : Warp → Warp) : (s.modWarpAt k f).poisoned = s.poisoned := rfl
@[simp] theorem State.modWarpAt_retiredCores (s : State) (k : WarpKey) (f : Warp → Warp) : (s.modWarpAt k f).retiredCores = s.retiredCores := rfl
@[simp] theorem State.modWarpAt_errors (s : State) (k : WarpKey) (f : Warp → Warp) : (s.modWarpAt k f).errors = s.errors := rfl
@[simp] theorem State.modWarpAt_peers (s : State) (k : WarpKey) (f : Warp → Warp) : (s.modWarpAt k f).peers = s.peers := rfl
@[simp] theorem State.modWarpAt_selfPeer (s : State) (k : WarpKey) (f : Warp → Warp) : (s.modWarpAt k f).selfPeer = s.selfPeer := rfl
@[simp] theorem State.modWarpAt_monitors (s : State) (k : WarpKey) (f : Warp → Warp) : (s.modWarpAt k f).monitors = s.monitors := rfl
@[simp] theorem State.modLaunch_member (s : State) (k : LaunchKey) (f : Launch → Launch) : (s.modLaunch k f).member = s.member := rfl
@[simp] theorem State.modLaunch_up (s : State) (k : LaunchKey) (f : Launch → Launch) : (s.modLaunch k f).up = s.up := rfl
@[simp] theorem State.modLaunch_now (s : State) (k : LaunchKey) (f : Launch → Launch) : (s.modLaunch k f).now = s.now := rfl
@[simp] theorem State.modLaunch_fresh (s : State) (k : LaunchKey) (f : Launch → Launch) : (s.modLaunch k f).fresh = s.fresh := rfl
@[simp] theorem State.modLaunch_agenda (s : State) (k : LaunchKey) (f : Launch → Launch) : (s.modLaunch k f).agenda = s.agenda := rfl
@[simp] theorem State.modLaunch_mem (s : State) (k : LaunchKey) (f : Launch → Launch) : (s.modLaunch k f).mem = s.mem := rfl
@[simp] theorem State.modLaunch_lineKeys (s : State) (k : LaunchKey) (f : Launch → Launch) : (s.modLaunch k f).lineKeys = s.lineKeys := rfl
@[simp] theorem State.modLaunch_l2 (s : State) (k : LaunchKey) (f : Launch → Launch) : (s.modLaunch k f).l2 = s.l2 := rfl
@[simp] theorem State.modLaunch_caches (s : State) (k : LaunchKey) (f : Launch → Launch) : (s.modLaunch k f).caches = s.caches := rfl
@[simp] theorem State.modLaunch_late (s : State) (k : LaunchKey) (f : Launch → Launch) : (s.modLaunch k f).late = s.late := rfl
@[simp] theorem State.modLaunch_slow (s : State) (k : LaunchKey) (f : Launch → Launch) : (s.modLaunch k f).slow = s.slow := rfl
@[simp] theorem State.modLaunch_tlb (s : State) (k : LaunchKey) (f : Launch → Launch) : (s.modLaunch k f).tlb = s.tlb := rfl
@[simp] theorem State.modLaunch_xlats (s : State) (k : LaunchKey) (f : Launch → Launch) : (s.modLaunch k f).xlats = s.xlats := rfl
@[simp] theorem State.modLaunch_named (s : State) (k : LaunchKey) (f : Launch → Launch) : (s.modLaunch k f).named = s.named := rfl
@[simp] theorem State.modLaunch_icache (s : State) (k : LaunchKey) (f : Launch → Launch) : (s.modLaunch k f).icache = s.icache := rfl
@[simp] theorem State.modLaunch_codeLines (s : State) (k : LaunchKey) (f : Launch → Launch) : (s.modLaunch k f).codeLines = s.codeLines := rfl
@[simp] theorem State.modLaunch_codeSince (s : State) (k : LaunchKey) (f : Launch → Launch) : (s.modLaunch k f).codeSince = s.codeSince := rfl
@[simp] theorem State.modLaunch_contexts (s : State) (k : LaunchKey) (f : Launch → Launch) : (s.modLaunch k f).contexts = s.contexts := rfl
@[simp] theorem State.modLaunch_groups (s : State) (k : LaunchKey) (f : Launch → Launch) : (s.modLaunch k f).groups = s.groups := rfl
@[simp] theorem State.modLaunch_warp (s : State) (k : LaunchKey) (f : Launch → Launch) : (s.modLaunch k f).warp = s.warp := rfl
@[simp] theorem State.modLaunch_others (s : State) (k : LaunchKey) (f : Launch → Launch) : (s.modLaunch k f).others = s.others := rfl
@[simp] theorem State.modLaunch_queues (s : State) (k : LaunchKey) (f : Launch → Launch) : (s.modLaunch k f).queues = s.queues := rfl
@[simp] theorem State.modLaunch_lastQueue (s : State) (k : LaunchKey) (f : Launch → Launch) : (s.modLaunch k f).lastQueue = s.lastQueue := rfl
@[simp] theorem State.modLaunch_parks (s : State) (k : LaunchKey) (f : Launch → Launch) : (s.modLaunch k f).parks = s.parks := rfl
@[simp] theorem State.modLaunch_events (s : State) (k : LaunchKey) (f : Launch → Launch) : (s.modLaunch k f).events = s.events := rfl
@[simp] theorem State.modLaunch_keys (s : State) (k : LaunchKey) (f : Launch → Launch) : (s.modLaunch k f).keys = s.keys := rfl
@[simp] theorem State.modLaunch_collGroups (s : State) (k : LaunchKey) (f : Launch → Launch) : (s.modLaunch k f).collGroups = s.collGroups := rfl
@[simp] theorem State.modLaunch_instances (s : State) (k : LaunchKey) (f : Launch → Launch) : (s.modLaunch k f).instances = s.instances := rfl
@[simp] theorem State.modLaunch_scrubs (s : State) (k : LaunchKey) (f : Launch → Launch) : (s.modLaunch k f).scrubs = s.scrubs := rfl
@[simp] theorem State.modLaunch_scrubRestarted (s : State) (k : LaunchKey) (f : Launch → Launch) : (s.modLaunch k f).scrubRestarted = s.scrubRestarted := rfl
@[simp] theorem State.modLaunch_poisoned (s : State) (k : LaunchKey) (f : Launch → Launch) : (s.modLaunch k f).poisoned = s.poisoned := rfl
@[simp] theorem State.modLaunch_retiredCores (s : State) (k : LaunchKey) (f : Launch → Launch) : (s.modLaunch k f).retiredCores = s.retiredCores := rfl
@[simp] theorem State.modLaunch_errors (s : State) (k : LaunchKey) (f : Launch → Launch) : (s.modLaunch k f).errors = s.errors := rfl
@[simp] theorem State.modLaunch_peers (s : State) (k : LaunchKey) (f : Launch → Launch) : (s.modLaunch k f).peers = s.peers := rfl
@[simp] theorem State.modLaunch_selfPeer (s : State) (k : LaunchKey) (f : Launch → Launch) : (s.modLaunch k f).selfPeer = s.selfPeer := rfl
@[simp] theorem State.modLaunch_monitors (s : State) (k : LaunchKey) (f : Launch → Launch) : (s.modLaunch k f).monitors = s.monitors := rfl
@[simp] theorem State.modGroup_member (s : State) (k : WgKey) (f : Workgroup → Workgroup) : (s.modGroup k f).member = s.member := rfl
@[simp] theorem State.modGroup_up (s : State) (k : WgKey) (f : Workgroup → Workgroup) : (s.modGroup k f).up = s.up := rfl
@[simp] theorem State.modGroup_now (s : State) (k : WgKey) (f : Workgroup → Workgroup) : (s.modGroup k f).now = s.now := rfl
@[simp] theorem State.modGroup_fresh (s : State) (k : WgKey) (f : Workgroup → Workgroup) : (s.modGroup k f).fresh = s.fresh := rfl
@[simp] theorem State.modGroup_agenda (s : State) (k : WgKey) (f : Workgroup → Workgroup) : (s.modGroup k f).agenda = s.agenda := rfl
@[simp] theorem State.modGroup_mem (s : State) (k : WgKey) (f : Workgroup → Workgroup) : (s.modGroup k f).mem = s.mem := rfl
@[simp] theorem State.modGroup_lineKeys (s : State) (k : WgKey) (f : Workgroup → Workgroup) : (s.modGroup k f).lineKeys = s.lineKeys := rfl
@[simp] theorem State.modGroup_l2 (s : State) (k : WgKey) (f : Workgroup → Workgroup) : (s.modGroup k f).l2 = s.l2 := rfl
@[simp] theorem State.modGroup_caches (s : State) (k : WgKey) (f : Workgroup → Workgroup) : (s.modGroup k f).caches = s.caches := rfl
@[simp] theorem State.modGroup_late (s : State) (k : WgKey) (f : Workgroup → Workgroup) : (s.modGroup k f).late = s.late := rfl
@[simp] theorem State.modGroup_slow (s : State) (k : WgKey) (f : Workgroup → Workgroup) : (s.modGroup k f).slow = s.slow := rfl
@[simp] theorem State.modGroup_tlb (s : State) (k : WgKey) (f : Workgroup → Workgroup) : (s.modGroup k f).tlb = s.tlb := rfl
@[simp] theorem State.modGroup_xlats (s : State) (k : WgKey) (f : Workgroup → Workgroup) : (s.modGroup k f).xlats = s.xlats := rfl
@[simp] theorem State.modGroup_named (s : State) (k : WgKey) (f : Workgroup → Workgroup) : (s.modGroup k f).named = s.named := rfl
@[simp] theorem State.modGroup_icache (s : State) (k : WgKey) (f : Workgroup → Workgroup) : (s.modGroup k f).icache = s.icache := rfl
@[simp] theorem State.modGroup_codeLines (s : State) (k : WgKey) (f : Workgroup → Workgroup) : (s.modGroup k f).codeLines = s.codeLines := rfl
@[simp] theorem State.modGroup_codeSince (s : State) (k : WgKey) (f : Workgroup → Workgroup) : (s.modGroup k f).codeSince = s.codeSince := rfl
@[simp] theorem State.modGroup_contexts (s : State) (k : WgKey) (f : Workgroup → Workgroup) : (s.modGroup k f).contexts = s.contexts := rfl
@[simp] theorem State.modGroup_launches (s : State) (k : WgKey) (f : Workgroup → Workgroup) : (s.modGroup k f).launches = s.launches := rfl
@[simp] theorem State.modGroup_warp (s : State) (k : WgKey) (f : Workgroup → Workgroup) : (s.modGroup k f).warp = s.warp := rfl
@[simp] theorem State.modGroup_others (s : State) (k : WgKey) (f : Workgroup → Workgroup) : (s.modGroup k f).others = s.others := rfl
@[simp] theorem State.modGroup_queues (s : State) (k : WgKey) (f : Workgroup → Workgroup) : (s.modGroup k f).queues = s.queues := rfl
@[simp] theorem State.modGroup_lastQueue (s : State) (k : WgKey) (f : Workgroup → Workgroup) : (s.modGroup k f).lastQueue = s.lastQueue := rfl
@[simp] theorem State.modGroup_parks (s : State) (k : WgKey) (f : Workgroup → Workgroup) : (s.modGroup k f).parks = s.parks := rfl
@[simp] theorem State.modGroup_events (s : State) (k : WgKey) (f : Workgroup → Workgroup) : (s.modGroup k f).events = s.events := rfl
@[simp] theorem State.modGroup_keys (s : State) (k : WgKey) (f : Workgroup → Workgroup) : (s.modGroup k f).keys = s.keys := rfl
@[simp] theorem State.modGroup_collGroups (s : State) (k : WgKey) (f : Workgroup → Workgroup) : (s.modGroup k f).collGroups = s.collGroups := rfl
@[simp] theorem State.modGroup_instances (s : State) (k : WgKey) (f : Workgroup → Workgroup) : (s.modGroup k f).instances = s.instances := rfl
@[simp] theorem State.modGroup_scrubs (s : State) (k : WgKey) (f : Workgroup → Workgroup) : (s.modGroup k f).scrubs = s.scrubs := rfl
@[simp] theorem State.modGroup_scrubRestarted (s : State) (k : WgKey) (f : Workgroup → Workgroup) : (s.modGroup k f).scrubRestarted = s.scrubRestarted := rfl
@[simp] theorem State.modGroup_poisoned (s : State) (k : WgKey) (f : Workgroup → Workgroup) : (s.modGroup k f).poisoned = s.poisoned := rfl
@[simp] theorem State.modGroup_retiredCores (s : State) (k : WgKey) (f : Workgroup → Workgroup) : (s.modGroup k f).retiredCores = s.retiredCores := rfl
@[simp] theorem State.modGroup_errors (s : State) (k : WgKey) (f : Workgroup → Workgroup) : (s.modGroup k f).errors = s.errors := rfl
@[simp] theorem State.modGroup_peers (s : State) (k : WgKey) (f : Workgroup → Workgroup) : (s.modGroup k f).peers = s.peers := rfl
@[simp] theorem State.modGroup_selfPeer (s : State) (k : WgKey) (f : Workgroup → Workgroup) : (s.modGroup k f).selfPeer = s.selfPeer := rfl
@[simp] theorem State.modGroup_monitors (s : State) (k : WgKey) (f : Workgroup → Workgroup) : (s.modGroup k f).monitors = s.monitors := rfl
@[simp] theorem State.modWg_member (s : State) (f : Workgroup → Workgroup) : (s.modWg f).member = s.member := rfl
@[simp] theorem State.modWg_up (s : State) (f : Workgroup → Workgroup) : (s.modWg f).up = s.up := rfl
@[simp] theorem State.modWg_now (s : State) (f : Workgroup → Workgroup) : (s.modWg f).now = s.now := rfl
@[simp] theorem State.modWg_fresh (s : State) (f : Workgroup → Workgroup) : (s.modWg f).fresh = s.fresh := rfl
@[simp] theorem State.modWg_agenda (s : State) (f : Workgroup → Workgroup) : (s.modWg f).agenda = s.agenda := rfl
@[simp] theorem State.modWg_mem (s : State) (f : Workgroup → Workgroup) : (s.modWg f).mem = s.mem := rfl
@[simp] theorem State.modWg_lineKeys (s : State) (f : Workgroup → Workgroup) : (s.modWg f).lineKeys = s.lineKeys := rfl
@[simp] theorem State.modWg_l2 (s : State) (f : Workgroup → Workgroup) : (s.modWg f).l2 = s.l2 := rfl
@[simp] theorem State.modWg_caches (s : State) (f : Workgroup → Workgroup) : (s.modWg f).caches = s.caches := rfl
@[simp] theorem State.modWg_late (s : State) (f : Workgroup → Workgroup) : (s.modWg f).late = s.late := rfl
@[simp] theorem State.modWg_slow (s : State) (f : Workgroup → Workgroup) : (s.modWg f).slow = s.slow := rfl
@[simp] theorem State.modWg_tlb (s : State) (f : Workgroup → Workgroup) : (s.modWg f).tlb = s.tlb := rfl
@[simp] theorem State.modWg_xlats (s : State) (f : Workgroup → Workgroup) : (s.modWg f).xlats = s.xlats := rfl
@[simp] theorem State.modWg_named (s : State) (f : Workgroup → Workgroup) : (s.modWg f).named = s.named := rfl
@[simp] theorem State.modWg_icache (s : State) (f : Workgroup → Workgroup) : (s.modWg f).icache = s.icache := rfl
@[simp] theorem State.modWg_codeLines (s : State) (f : Workgroup → Workgroup) : (s.modWg f).codeLines = s.codeLines := rfl
@[simp] theorem State.modWg_codeSince (s : State) (f : Workgroup → Workgroup) : (s.modWg f).codeSince = s.codeSince := rfl
@[simp] theorem State.modWg_contexts (s : State) (f : Workgroup → Workgroup) : (s.modWg f).contexts = s.contexts := rfl
@[simp] theorem State.modWg_launches (s : State) (f : Workgroup → Workgroup) : (s.modWg f).launches = s.launches := rfl
@[simp] theorem State.modWg_warp (s : State) (f : Workgroup → Workgroup) : (s.modWg f).warp = s.warp := rfl
@[simp] theorem State.modWg_others (s : State) (f : Workgroup → Workgroup) : (s.modWg f).others = s.others := rfl
@[simp] theorem State.modWg_queues (s : State) (f : Workgroup → Workgroup) : (s.modWg f).queues = s.queues := rfl
@[simp] theorem State.modWg_lastQueue (s : State) (f : Workgroup → Workgroup) : (s.modWg f).lastQueue = s.lastQueue := rfl
@[simp] theorem State.modWg_parks (s : State) (f : Workgroup → Workgroup) : (s.modWg f).parks = s.parks := rfl
@[simp] theorem State.modWg_events (s : State) (f : Workgroup → Workgroup) : (s.modWg f).events = s.events := rfl
@[simp] theorem State.modWg_keys (s : State) (f : Workgroup → Workgroup) : (s.modWg f).keys = s.keys := rfl
@[simp] theorem State.modWg_collGroups (s : State) (f : Workgroup → Workgroup) : (s.modWg f).collGroups = s.collGroups := rfl
@[simp] theorem State.modWg_instances (s : State) (f : Workgroup → Workgroup) : (s.modWg f).instances = s.instances := rfl
@[simp] theorem State.modWg_scrubs (s : State) (f : Workgroup → Workgroup) : (s.modWg f).scrubs = s.scrubs := rfl
@[simp] theorem State.modWg_scrubRestarted (s : State) (f : Workgroup → Workgroup) : (s.modWg f).scrubRestarted = s.scrubRestarted := rfl
@[simp] theorem State.modWg_poisoned (s : State) (f : Workgroup → Workgroup) : (s.modWg f).poisoned = s.poisoned := rfl
@[simp] theorem State.modWg_retiredCores (s : State) (f : Workgroup → Workgroup) : (s.modWg f).retiredCores = s.retiredCores := rfl
@[simp] theorem State.modWg_errors (s : State) (f : Workgroup → Workgroup) : (s.modWg f).errors = s.errors := rfl
@[simp] theorem State.modWg_peers (s : State) (f : Workgroup → Workgroup) : (s.modWg f).peers = s.peers := rfl
@[simp] theorem State.modWg_selfPeer (s : State) (f : Workgroup → Workgroup) : (s.modWg f).selfPeer = s.selfPeer := rfl
@[simp] theorem State.modWg_monitors (s : State) (f : Workgroup → Workgroup) : (s.modWg f).monitors = s.monitors := rfl
@[simp] theorem State.modContext_member (s : State) (c : Nat) (f : Context → Context) : (s.modContext c f).member = s.member := rfl
@[simp] theorem State.modContext_up (s : State) (c : Nat) (f : Context → Context) : (s.modContext c f).up = s.up := rfl
@[simp] theorem State.modContext_now (s : State) (c : Nat) (f : Context → Context) : (s.modContext c f).now = s.now := rfl
@[simp] theorem State.modContext_fresh (s : State) (c : Nat) (f : Context → Context) : (s.modContext c f).fresh = s.fresh := rfl
@[simp] theorem State.modContext_agenda (s : State) (c : Nat) (f : Context → Context) : (s.modContext c f).agenda = s.agenda := rfl
@[simp] theorem State.modContext_mem (s : State) (c : Nat) (f : Context → Context) : (s.modContext c f).mem = s.mem := rfl
@[simp] theorem State.modContext_lineKeys (s : State) (c : Nat) (f : Context → Context) : (s.modContext c f).lineKeys = s.lineKeys := rfl
@[simp] theorem State.modContext_l2 (s : State) (c : Nat) (f : Context → Context) : (s.modContext c f).l2 = s.l2 := rfl
@[simp] theorem State.modContext_caches (s : State) (c : Nat) (f : Context → Context) : (s.modContext c f).caches = s.caches := rfl
@[simp] theorem State.modContext_late (s : State) (c : Nat) (f : Context → Context) : (s.modContext c f).late = s.late := rfl
@[simp] theorem State.modContext_slow (s : State) (c : Nat) (f : Context → Context) : (s.modContext c f).slow = s.slow := rfl
@[simp] theorem State.modContext_tlb (s : State) (c : Nat) (f : Context → Context) : (s.modContext c f).tlb = s.tlb := rfl
@[simp] theorem State.modContext_xlats (s : State) (c : Nat) (f : Context → Context) : (s.modContext c f).xlats = s.xlats := rfl
@[simp] theorem State.modContext_named (s : State) (c : Nat) (f : Context → Context) : (s.modContext c f).named = s.named := rfl
@[simp] theorem State.modContext_icache (s : State) (c : Nat) (f : Context → Context) : (s.modContext c f).icache = s.icache := rfl
@[simp] theorem State.modContext_codeLines (s : State) (c : Nat) (f : Context → Context) : (s.modContext c f).codeLines = s.codeLines := rfl
@[simp] theorem State.modContext_codeSince (s : State) (c : Nat) (f : Context → Context) : (s.modContext c f).codeSince = s.codeSince := rfl
@[simp] theorem State.modContext_launches (s : State) (c : Nat) (f : Context → Context) : (s.modContext c f).launches = s.launches := rfl
@[simp] theorem State.modContext_groups (s : State) (c : Nat) (f : Context → Context) : (s.modContext c f).groups = s.groups := rfl
@[simp] theorem State.modContext_warp (s : State) (c : Nat) (f : Context → Context) : (s.modContext c f).warp = s.warp := rfl
@[simp] theorem State.modContext_others (s : State) (c : Nat) (f : Context → Context) : (s.modContext c f).others = s.others := rfl
@[simp] theorem State.modContext_queues (s : State) (c : Nat) (f : Context → Context) : (s.modContext c f).queues = s.queues := rfl
@[simp] theorem State.modContext_lastQueue (s : State) (c : Nat) (f : Context → Context) : (s.modContext c f).lastQueue = s.lastQueue := rfl
@[simp] theorem State.modContext_parks (s : State) (c : Nat) (f : Context → Context) : (s.modContext c f).parks = s.parks := rfl
@[simp] theorem State.modContext_events (s : State) (c : Nat) (f : Context → Context) : (s.modContext c f).events = s.events := rfl
@[simp] theorem State.modContext_keys (s : State) (c : Nat) (f : Context → Context) : (s.modContext c f).keys = s.keys := rfl
@[simp] theorem State.modContext_collGroups (s : State) (c : Nat) (f : Context → Context) : (s.modContext c f).collGroups = s.collGroups := rfl
@[simp] theorem State.modContext_instances (s : State) (c : Nat) (f : Context → Context) : (s.modContext c f).instances = s.instances := rfl
@[simp] theorem State.modContext_scrubs (s : State) (c : Nat) (f : Context → Context) : (s.modContext c f).scrubs = s.scrubs := rfl
@[simp] theorem State.modContext_scrubRestarted (s : State) (c : Nat) (f : Context → Context) : (s.modContext c f).scrubRestarted = s.scrubRestarted := rfl
@[simp] theorem State.modContext_poisoned (s : State) (c : Nat) (f : Context → Context) : (s.modContext c f).poisoned = s.poisoned := rfl
@[simp] theorem State.modContext_retiredCores (s : State) (c : Nat) (f : Context → Context) : (s.modContext c f).retiredCores = s.retiredCores := rfl
@[simp] theorem State.modContext_errors (s : State) (c : Nat) (f : Context → Context) : (s.modContext c f).errors = s.errors := rfl
@[simp] theorem State.modContext_peers (s : State) (c : Nat) (f : Context → Context) : (s.modContext c f).peers = s.peers := rfl
@[simp] theorem State.modContext_selfPeer (s : State) (c : Nat) (f : Context → Context) : (s.modContext c f).selfPeer = s.selfPeer := rfl
@[simp] theorem State.modContext_monitors (s : State) (c : Nat) (f : Context → Context) : (s.modContext c f).monitors = s.monitors := rfl
@[simp] theorem State.setCache_member (s : State) (cl : Nat) (c : List CacheByte) : (s.setCache cl c).member = s.member := rfl
@[simp] theorem State.setCache_up (s : State) (cl : Nat) (c : List CacheByte) : (s.setCache cl c).up = s.up := rfl
@[simp] theorem State.setCache_now (s : State) (cl : Nat) (c : List CacheByte) : (s.setCache cl c).now = s.now := rfl
@[simp] theorem State.setCache_fresh (s : State) (cl : Nat) (c : List CacheByte) : (s.setCache cl c).fresh = s.fresh := rfl
@[simp] theorem State.setCache_agenda (s : State) (cl : Nat) (c : List CacheByte) : (s.setCache cl c).agenda = s.agenda := rfl
@[simp] theorem State.setCache_mem (s : State) (cl : Nat) (c : List CacheByte) : (s.setCache cl c).mem = s.mem := rfl
@[simp] theorem State.setCache_lineKeys (s : State) (cl : Nat) (c : List CacheByte) : (s.setCache cl c).lineKeys = s.lineKeys := rfl
@[simp] theorem State.setCache_l2 (s : State) (cl : Nat) (c : List CacheByte) : (s.setCache cl c).l2 = s.l2 := rfl
@[simp] theorem State.setCache_late (s : State) (cl : Nat) (c : List CacheByte) : (s.setCache cl c).late = s.late := rfl
@[simp] theorem State.setCache_slow (s : State) (cl : Nat) (c : List CacheByte) : (s.setCache cl c).slow = s.slow := rfl
@[simp] theorem State.setCache_tlb (s : State) (cl : Nat) (c : List CacheByte) : (s.setCache cl c).tlb = s.tlb := rfl
@[simp] theorem State.setCache_xlats (s : State) (cl : Nat) (c : List CacheByte) : (s.setCache cl c).xlats = s.xlats := rfl
@[simp] theorem State.setCache_named (s : State) (cl : Nat) (c : List CacheByte) : (s.setCache cl c).named = s.named := rfl
@[simp] theorem State.setCache_icache (s : State) (cl : Nat) (c : List CacheByte) : (s.setCache cl c).icache = s.icache := rfl
@[simp] theorem State.setCache_codeLines (s : State) (cl : Nat) (c : List CacheByte) : (s.setCache cl c).codeLines = s.codeLines := rfl
@[simp] theorem State.setCache_codeSince (s : State) (cl : Nat) (c : List CacheByte) : (s.setCache cl c).codeSince = s.codeSince := rfl
@[simp] theorem State.setCache_contexts (s : State) (cl : Nat) (c : List CacheByte) : (s.setCache cl c).contexts = s.contexts := rfl
@[simp] theorem State.setCache_launches (s : State) (cl : Nat) (c : List CacheByte) : (s.setCache cl c).launches = s.launches := rfl
@[simp] theorem State.setCache_groups (s : State) (cl : Nat) (c : List CacheByte) : (s.setCache cl c).groups = s.groups := rfl
@[simp] theorem State.setCache_warp (s : State) (cl : Nat) (c : List CacheByte) : (s.setCache cl c).warp = s.warp := rfl
@[simp] theorem State.setCache_others (s : State) (cl : Nat) (c : List CacheByte) : (s.setCache cl c).others = s.others := rfl
@[simp] theorem State.setCache_queues (s : State) (cl : Nat) (c : List CacheByte) : (s.setCache cl c).queues = s.queues := rfl
@[simp] theorem State.setCache_lastQueue (s : State) (cl : Nat) (c : List CacheByte) : (s.setCache cl c).lastQueue = s.lastQueue := rfl
@[simp] theorem State.setCache_parks (s : State) (cl : Nat) (c : List CacheByte) : (s.setCache cl c).parks = s.parks := rfl
@[simp] theorem State.setCache_events (s : State) (cl : Nat) (c : List CacheByte) : (s.setCache cl c).events = s.events := rfl
@[simp] theorem State.setCache_keys (s : State) (cl : Nat) (c : List CacheByte) : (s.setCache cl c).keys = s.keys := rfl
@[simp] theorem State.setCache_collGroups (s : State) (cl : Nat) (c : List CacheByte) : (s.setCache cl c).collGroups = s.collGroups := rfl
@[simp] theorem State.setCache_instances (s : State) (cl : Nat) (c : List CacheByte) : (s.setCache cl c).instances = s.instances := rfl
@[simp] theorem State.setCache_scrubs (s : State) (cl : Nat) (c : List CacheByte) : (s.setCache cl c).scrubs = s.scrubs := rfl
@[simp] theorem State.setCache_scrubRestarted (s : State) (cl : Nat) (c : List CacheByte) : (s.setCache cl c).scrubRestarted = s.scrubRestarted := rfl
@[simp] theorem State.setCache_poisoned (s : State) (cl : Nat) (c : List CacheByte) : (s.setCache cl c).poisoned = s.poisoned := rfl
@[simp] theorem State.setCache_retiredCores (s : State) (cl : Nat) (c : List CacheByte) : (s.setCache cl c).retiredCores = s.retiredCores := rfl
@[simp] theorem State.setCache_errors (s : State) (cl : Nat) (c : List CacheByte) : (s.setCache cl c).errors = s.errors := rfl
@[simp] theorem State.setCache_peers (s : State) (cl : Nat) (c : List CacheByte) : (s.setCache cl c).peers = s.peers := rfl
@[simp] theorem State.setCache_selfPeer (s : State) (cl : Nat) (c : List CacheByte) : (s.setCache cl c).selfPeer = s.selfPeer := rfl
@[simp] theorem State.setCache_monitors (s : State) (cl : Nat) (c : List CacheByte) : (s.setCache cl c).monitors = s.monitors := rfl
@[simp] theorem State.setWait_member (s : State) (x : Wait) : (s.setWait x).member = s.member := rfl
@[simp] theorem State.setWait_up (s : State) (x : Wait) : (s.setWait x).up = s.up := rfl
@[simp] theorem State.setWait_now (s : State) (x : Wait) : (s.setWait x).now = s.now := rfl
@[simp] theorem State.setWait_fresh (s : State) (x : Wait) : (s.setWait x).fresh = s.fresh := rfl
@[simp] theorem State.setWait_agenda (s : State) (x : Wait) : (s.setWait x).agenda = s.agenda := rfl
@[simp] theorem State.setWait_mem (s : State) (x : Wait) : (s.setWait x).mem = s.mem := rfl
@[simp] theorem State.setWait_lineKeys (s : State) (x : Wait) : (s.setWait x).lineKeys = s.lineKeys := rfl
@[simp] theorem State.setWait_l2 (s : State) (x : Wait) : (s.setWait x).l2 = s.l2 := rfl
@[simp] theorem State.setWait_caches (s : State) (x : Wait) : (s.setWait x).caches = s.caches := rfl
@[simp] theorem State.setWait_late (s : State) (x : Wait) : (s.setWait x).late = s.late := rfl
@[simp] theorem State.setWait_slow (s : State) (x : Wait) : (s.setWait x).slow = s.slow := rfl
@[simp] theorem State.setWait_tlb (s : State) (x : Wait) : (s.setWait x).tlb = s.tlb := rfl
@[simp] theorem State.setWait_xlats (s : State) (x : Wait) : (s.setWait x).xlats = s.xlats := rfl
@[simp] theorem State.setWait_named (s : State) (x : Wait) : (s.setWait x).named = s.named := rfl
@[simp] theorem State.setWait_icache (s : State) (x : Wait) : (s.setWait x).icache = s.icache := rfl
@[simp] theorem State.setWait_codeLines (s : State) (x : Wait) : (s.setWait x).codeLines = s.codeLines := rfl
@[simp] theorem State.setWait_codeSince (s : State) (x : Wait) : (s.setWait x).codeSince = s.codeSince := rfl
@[simp] theorem State.setWait_contexts (s : State) (x : Wait) : (s.setWait x).contexts = s.contexts := rfl
@[simp] theorem State.setWait_launches (s : State) (x : Wait) : (s.setWait x).launches = s.launches := rfl
@[simp] theorem State.setWait_groups (s : State) (x : Wait) : (s.setWait x).groups = s.groups := rfl
@[simp] theorem State.setWait_others (s : State) (x : Wait) : (s.setWait x).others = s.others := rfl
@[simp] theorem State.setWait_queues (s : State) (x : Wait) : (s.setWait x).queues = s.queues := rfl
@[simp] theorem State.setWait_lastQueue (s : State) (x : Wait) : (s.setWait x).lastQueue = s.lastQueue := rfl
@[simp] theorem State.setWait_parks (s : State) (x : Wait) : (s.setWait x).parks = s.parks := rfl
@[simp] theorem State.setWait_events (s : State) (x : Wait) : (s.setWait x).events = s.events := rfl
@[simp] theorem State.setWait_keys (s : State) (x : Wait) : (s.setWait x).keys = s.keys := rfl
@[simp] theorem State.setWait_collGroups (s : State) (x : Wait) : (s.setWait x).collGroups = s.collGroups := rfl
@[simp] theorem State.setWait_instances (s : State) (x : Wait) : (s.setWait x).instances = s.instances := rfl
@[simp] theorem State.setWait_scrubs (s : State) (x : Wait) : (s.setWait x).scrubs = s.scrubs := rfl
@[simp] theorem State.setWait_scrubRestarted (s : State) (x : Wait) : (s.setWait x).scrubRestarted = s.scrubRestarted := rfl
@[simp] theorem State.setWait_poisoned (s : State) (x : Wait) : (s.setWait x).poisoned = s.poisoned := rfl
@[simp] theorem State.setWait_retiredCores (s : State) (x : Wait) : (s.setWait x).retiredCores = s.retiredCores := rfl
@[simp] theorem State.setWait_errors (s : State) (x : Wait) : (s.setWait x).errors = s.errors := rfl
@[simp] theorem State.setWait_peers (s : State) (x : Wait) : (s.setWait x).peers = s.peers := rfl
@[simp] theorem State.setWait_selfPeer (s : State) (x : Wait) : (s.setWait x).selfPeer = s.selfPeer := rfl
@[simp] theorem State.setWait_monitors (s : State) (x : Wait) : (s.setWait x).monitors = s.monitors := rfl
@[simp] theorem State.retire_member (s : State) : (s.retire).member = s.member := rfl
@[simp] theorem State.retire_up (s : State) : (s.retire).up = s.up := rfl
@[simp] theorem State.retire_now (s : State) : (s.retire).now = s.now := rfl
@[simp] theorem State.retire_fresh (s : State) : (s.retire).fresh = s.fresh := rfl
@[simp] theorem State.retire_agenda (s : State) : (s.retire).agenda = s.agenda := rfl
@[simp] theorem State.retire_mem (s : State) : (s.retire).mem = s.mem := rfl
@[simp] theorem State.retire_lineKeys (s : State) : (s.retire).lineKeys = s.lineKeys := rfl
@[simp] theorem State.retire_l2 (s : State) : (s.retire).l2 = s.l2 := rfl
@[simp] theorem State.retire_caches (s : State) : (s.retire).caches = s.caches := rfl
@[simp] theorem State.retire_late (s : State) : (s.retire).late = s.late := rfl
@[simp] theorem State.retire_slow (s : State) : (s.retire).slow = s.slow := rfl
@[simp] theorem State.retire_tlb (s : State) : (s.retire).tlb = s.tlb := rfl
@[simp] theorem State.retire_xlats (s : State) : (s.retire).xlats = s.xlats := rfl
@[simp] theorem State.retire_named (s : State) : (s.retire).named = s.named := rfl
@[simp] theorem State.retire_icache (s : State) : (s.retire).icache = s.icache := rfl
@[simp] theorem State.retire_codeLines (s : State) : (s.retire).codeLines = s.codeLines := rfl
@[simp] theorem State.retire_codeSince (s : State) : (s.retire).codeSince = s.codeSince := rfl
@[simp] theorem State.retire_contexts (s : State) : (s.retire).contexts = s.contexts := rfl
@[simp] theorem State.retire_launches (s : State) : (s.retire).launches = s.launches := rfl
@[simp] theorem State.retire_groups (s : State) : (s.retire).groups = s.groups := rfl
@[simp] theorem State.retire_others (s : State) : (s.retire).others = s.others := rfl
@[simp] theorem State.retire_queues (s : State) : (s.retire).queues = s.queues := rfl
@[simp] theorem State.retire_lastQueue (s : State) : (s.retire).lastQueue = s.lastQueue := rfl
@[simp] theorem State.retire_parks (s : State) : (s.retire).parks = s.parks := rfl
@[simp] theorem State.retire_events (s : State) : (s.retire).events = s.events := rfl
@[simp] theorem State.retire_keys (s : State) : (s.retire).keys = s.keys := rfl
@[simp] theorem State.retire_collGroups (s : State) : (s.retire).collGroups = s.collGroups := rfl
@[simp] theorem State.retire_instances (s : State) : (s.retire).instances = s.instances := rfl
@[simp] theorem State.retire_scrubs (s : State) : (s.retire).scrubs = s.scrubs := rfl
@[simp] theorem State.retire_scrubRestarted (s : State) : (s.retire).scrubRestarted = s.scrubRestarted := rfl
@[simp] theorem State.retire_poisoned (s : State) : (s.retire).poisoned = s.poisoned := rfl
@[simp] theorem State.retire_retiredCores (s : State) : (s.retire).retiredCores = s.retiredCores := rfl
@[simp] theorem State.retire_errors (s : State) : (s.retire).errors = s.errors := rfl
@[simp] theorem State.retire_peers (s : State) : (s.retire).peers = s.peers := rfl
@[simp] theorem State.retire_selfPeer (s : State) : (s.retire).selfPeer = s.selfPeer := rfl
@[simp] theorem State.retire_monitors (s : State) : (s.retire).monitors = s.monitors := rfl
@[simp] theorem State.commitWaitFor_member (s : State) (u : Option Nat) : (s.commitWaitFor u).member = s.member := by unfold State.commitWaitFor; dsimp only; split <;> rfl
@[simp] theorem State.commitWaitFor_up (s : State) (u : Option Nat) : (s.commitWaitFor u).up = s.up := by unfold State.commitWaitFor; dsimp only; split <;> rfl
@[simp] theorem State.commitWaitFor_now (s : State) (u : Option Nat) : (s.commitWaitFor u).now = s.now := by unfold State.commitWaitFor; dsimp only; split <;> rfl
@[simp] theorem State.commitWaitFor_fresh (s : State) (u : Option Nat) : (s.commitWaitFor u).fresh = s.fresh := by unfold State.commitWaitFor; dsimp only; split <;> rfl
@[simp] theorem State.commitWaitFor_agenda (s : State) (u : Option Nat) : (s.commitWaitFor u).agenda = s.agenda := by unfold State.commitWaitFor; dsimp only; split <;> rfl
@[simp] theorem State.commitWaitFor_mem (s : State) (u : Option Nat) : (s.commitWaitFor u).mem = s.mem := by unfold State.commitWaitFor; dsimp only; split <;> rfl
@[simp] theorem State.commitWaitFor_lineKeys (s : State) (u : Option Nat) : (s.commitWaitFor u).lineKeys = s.lineKeys := by unfold State.commitWaitFor; dsimp only; split <;> rfl
@[simp] theorem State.commitWaitFor_l2 (s : State) (u : Option Nat) : (s.commitWaitFor u).l2 = s.l2 := by unfold State.commitWaitFor; dsimp only; split <;> rfl
@[simp] theorem State.commitWaitFor_caches (s : State) (u : Option Nat) : (s.commitWaitFor u).caches = s.caches := by unfold State.commitWaitFor; dsimp only; split <;> rfl
@[simp] theorem State.commitWaitFor_late (s : State) (u : Option Nat) : (s.commitWaitFor u).late = s.late := by unfold State.commitWaitFor; dsimp only; split <;> rfl
@[simp] theorem State.commitWaitFor_slow (s : State) (u : Option Nat) : (s.commitWaitFor u).slow = s.slow := by unfold State.commitWaitFor; dsimp only; split <;> rfl
@[simp] theorem State.commitWaitFor_tlb (s : State) (u : Option Nat) : (s.commitWaitFor u).tlb = s.tlb := by unfold State.commitWaitFor; dsimp only; split <;> rfl
@[simp] theorem State.commitWaitFor_xlats (s : State) (u : Option Nat) : (s.commitWaitFor u).xlats = s.xlats := by unfold State.commitWaitFor; dsimp only; split <;> rfl
@[simp] theorem State.commitWaitFor_named (s : State) (u : Option Nat) : (s.commitWaitFor u).named = s.named := by unfold State.commitWaitFor; dsimp only; split <;> rfl
@[simp] theorem State.commitWaitFor_icache (s : State) (u : Option Nat) : (s.commitWaitFor u).icache = s.icache := by unfold State.commitWaitFor; dsimp only; split <;> rfl
@[simp] theorem State.commitWaitFor_codeLines (s : State) (u : Option Nat) : (s.commitWaitFor u).codeLines = s.codeLines := by unfold State.commitWaitFor; dsimp only; split <;> rfl
@[simp] theorem State.commitWaitFor_codeSince (s : State) (u : Option Nat) : (s.commitWaitFor u).codeSince = s.codeSince := by unfold State.commitWaitFor; dsimp only; split <;> rfl
@[simp] theorem State.commitWaitFor_contexts (s : State) (u : Option Nat) : (s.commitWaitFor u).contexts = s.contexts := by unfold State.commitWaitFor; dsimp only; split <;> rfl
@[simp] theorem State.commitWaitFor_launches (s : State) (u : Option Nat) : (s.commitWaitFor u).launches = s.launches := by unfold State.commitWaitFor; dsimp only; split <;> rfl
@[simp] theorem State.commitWaitFor_groups (s : State) (u : Option Nat) : (s.commitWaitFor u).groups = s.groups := by unfold State.commitWaitFor; dsimp only; split <;> rfl
@[simp] theorem State.commitWaitFor_others (s : State) (u : Option Nat) : (s.commitWaitFor u).others = s.others := by unfold State.commitWaitFor; dsimp only; split <;> rfl
@[simp] theorem State.commitWaitFor_queues (s : State) (u : Option Nat) : (s.commitWaitFor u).queues = s.queues := by unfold State.commitWaitFor; dsimp only; split <;> rfl
@[simp] theorem State.commitWaitFor_lastQueue (s : State) (u : Option Nat) : (s.commitWaitFor u).lastQueue = s.lastQueue := by unfold State.commitWaitFor; dsimp only; split <;> rfl
@[simp] theorem State.commitWaitFor_parks (s : State) (u : Option Nat) : (s.commitWaitFor u).parks = s.parks := by unfold State.commitWaitFor; dsimp only; split <;> rfl
@[simp] theorem State.commitWaitFor_events (s : State) (u : Option Nat) : (s.commitWaitFor u).events = s.events := by unfold State.commitWaitFor; dsimp only; split <;> rfl
@[simp] theorem State.commitWaitFor_keys (s : State) (u : Option Nat) : (s.commitWaitFor u).keys = s.keys := by unfold State.commitWaitFor; dsimp only; split <;> rfl
@[simp] theorem State.commitWaitFor_collGroups (s : State) (u : Option Nat) : (s.commitWaitFor u).collGroups = s.collGroups := by unfold State.commitWaitFor; dsimp only; split <;> rfl
@[simp] theorem State.commitWaitFor_instances (s : State) (u : Option Nat) : (s.commitWaitFor u).instances = s.instances := by unfold State.commitWaitFor; dsimp only; split <;> rfl
@[simp] theorem State.commitWaitFor_scrubs (s : State) (u : Option Nat) : (s.commitWaitFor u).scrubs = s.scrubs := by unfold State.commitWaitFor; dsimp only; split <;> rfl
@[simp] theorem State.commitWaitFor_scrubRestarted (s : State) (u : Option Nat) : (s.commitWaitFor u).scrubRestarted = s.scrubRestarted := by unfold State.commitWaitFor; dsimp only; split <;> rfl
@[simp] theorem State.commitWaitFor_poisoned (s : State) (u : Option Nat) : (s.commitWaitFor u).poisoned = s.poisoned := by unfold State.commitWaitFor; dsimp only; split <;> rfl
@[simp] theorem State.commitWaitFor_retiredCores (s : State) (u : Option Nat) : (s.commitWaitFor u).retiredCores = s.retiredCores := by unfold State.commitWaitFor; dsimp only; split <;> rfl
@[simp] theorem State.commitWaitFor_errors (s : State) (u : Option Nat) : (s.commitWaitFor u).errors = s.errors := by unfold State.commitWaitFor; dsimp only; split <;> rfl
@[simp] theorem State.commitWaitFor_peers (s : State) (u : Option Nat) : (s.commitWaitFor u).peers = s.peers := by unfold State.commitWaitFor; dsimp only; split <;> rfl
@[simp] theorem State.commitWaitFor_selfPeer (s : State) (u : Option Nat) : (s.commitWaitFor u).selfPeer = s.selfPeer := by unfold State.commitWaitFor; dsimp only; split <;> rfl
@[simp] theorem State.commitWaitFor_monitors (s : State) (u : Option Nat) : (s.commitWaitFor u).monitors = s.monitors := by unfold State.commitWaitFor; dsimp only; split <;> rfl
@[simp] theorem State.commitWait_member (s : State) : (s.commitWait).member = s.member := by simp [State.commitWait]
@[simp] theorem State.commitWait_up (s : State) : (s.commitWait).up = s.up := by simp [State.commitWait]
@[simp] theorem State.commitWait_now (s : State) : (s.commitWait).now = s.now := by simp [State.commitWait]
@[simp] theorem State.commitWait_fresh (s : State) : (s.commitWait).fresh = s.fresh := by simp [State.commitWait]
@[simp] theorem State.commitWait_agenda (s : State) : (s.commitWait).agenda = s.agenda := by simp [State.commitWait]
@[simp] theorem State.commitWait_mem (s : State) : (s.commitWait).mem = s.mem := by simp [State.commitWait]
@[simp] theorem State.commitWait_lineKeys (s : State) : (s.commitWait).lineKeys = s.lineKeys := by simp [State.commitWait]
@[simp] theorem State.commitWait_l2 (s : State) : (s.commitWait).l2 = s.l2 := by simp [State.commitWait]
@[simp] theorem State.commitWait_caches (s : State) : (s.commitWait).caches = s.caches := by simp [State.commitWait]
@[simp] theorem State.commitWait_late (s : State) : (s.commitWait).late = s.late := by simp [State.commitWait]
@[simp] theorem State.commitWait_slow (s : State) : (s.commitWait).slow = s.slow := by simp [State.commitWait]
@[simp] theorem State.commitWait_tlb (s : State) : (s.commitWait).tlb = s.tlb := by simp [State.commitWait]
@[simp] theorem State.commitWait_xlats (s : State) : (s.commitWait).xlats = s.xlats := by simp [State.commitWait]
@[simp] theorem State.commitWait_named (s : State) : (s.commitWait).named = s.named := by simp [State.commitWait]
@[simp] theorem State.commitWait_icache (s : State) : (s.commitWait).icache = s.icache := by simp [State.commitWait]
@[simp] theorem State.commitWait_codeLines (s : State) : (s.commitWait).codeLines = s.codeLines := by simp [State.commitWait]
@[simp] theorem State.commitWait_codeSince (s : State) : (s.commitWait).codeSince = s.codeSince := by simp [State.commitWait]
@[simp] theorem State.commitWait_contexts (s : State) : (s.commitWait).contexts = s.contexts := by simp [State.commitWait]
@[simp] theorem State.commitWait_launches (s : State) : (s.commitWait).launches = s.launches := by simp [State.commitWait]
@[simp] theorem State.commitWait_groups (s : State) : (s.commitWait).groups = s.groups := by simp [State.commitWait]
@[simp] theorem State.commitWait_others (s : State) : (s.commitWait).others = s.others := by simp [State.commitWait]
@[simp] theorem State.commitWait_queues (s : State) : (s.commitWait).queues = s.queues := by simp [State.commitWait]
@[simp] theorem State.commitWait_lastQueue (s : State) : (s.commitWait).lastQueue = s.lastQueue := by simp [State.commitWait]
@[simp] theorem State.commitWait_parks (s : State) : (s.commitWait).parks = s.parks := by simp [State.commitWait]
@[simp] theorem State.commitWait_events (s : State) : (s.commitWait).events = s.events := by simp [State.commitWait]
@[simp] theorem State.commitWait_keys (s : State) : (s.commitWait).keys = s.keys := by simp [State.commitWait]
@[simp] theorem State.commitWait_collGroups (s : State) : (s.commitWait).collGroups = s.collGroups := by simp [State.commitWait]
@[simp] theorem State.commitWait_instances (s : State) : (s.commitWait).instances = s.instances := by simp [State.commitWait]
@[simp] theorem State.commitWait_scrubs (s : State) : (s.commitWait).scrubs = s.scrubs := by simp [State.commitWait]
@[simp] theorem State.commitWait_scrubRestarted (s : State) : (s.commitWait).scrubRestarted = s.scrubRestarted := by simp [State.commitWait]
@[simp] theorem State.commitWait_poisoned (s : State) : (s.commitWait).poisoned = s.poisoned := by simp [State.commitWait]
@[simp] theorem State.commitWait_retiredCores (s : State) : (s.commitWait).retiredCores = s.retiredCores := by simp [State.commitWait]
@[simp] theorem State.commitWait_errors (s : State) : (s.commitWait).errors = s.errors := by simp [State.commitWait]
@[simp] theorem State.commitWait_peers (s : State) : (s.commitWait).peers = s.peers := by simp [State.commitWait]
@[simp] theorem State.commitWait_selfPeer (s : State) : (s.commitWait).selfPeer = s.selfPeer := by simp [State.commitWait]
@[simp] theorem State.commitWait_monitors (s : State) : (s.commitWait).monitors = s.monitors := by simp [State.commitWait]
@[simp] theorem State.freeBytes_member (s : State) (n : Nat) : ((s.freeBytes n).2).member = s.member := rfl
@[simp] theorem State.freeBytes_up (s : State) (n : Nat) : ((s.freeBytes n).2).up = s.up := rfl
@[simp] theorem State.freeBytes_now (s : State) (n : Nat) : ((s.freeBytes n).2).now = s.now := rfl
@[simp] theorem State.freeBytes_agenda (s : State) (n : Nat) : ((s.freeBytes n).2).agenda = s.agenda := rfl
@[simp] theorem State.freeBytes_mem (s : State) (n : Nat) : ((s.freeBytes n).2).mem = s.mem := rfl
@[simp] theorem State.freeBytes_lineKeys (s : State) (n : Nat) : ((s.freeBytes n).2).lineKeys = s.lineKeys := rfl
@[simp] theorem State.freeBytes_l2 (s : State) (n : Nat) : ((s.freeBytes n).2).l2 = s.l2 := rfl
@[simp] theorem State.freeBytes_caches (s : State) (n : Nat) : ((s.freeBytes n).2).caches = s.caches := rfl
@[simp] theorem State.freeBytes_late (s : State) (n : Nat) : ((s.freeBytes n).2).late = s.late := rfl
@[simp] theorem State.freeBytes_slow (s : State) (n : Nat) : ((s.freeBytes n).2).slow = s.slow := rfl
@[simp] theorem State.freeBytes_tlb (s : State) (n : Nat) : ((s.freeBytes n).2).tlb = s.tlb := rfl
@[simp] theorem State.freeBytes_xlats (s : State) (n : Nat) : ((s.freeBytes n).2).xlats = s.xlats := rfl
@[simp] theorem State.freeBytes_named (s : State) (n : Nat) : ((s.freeBytes n).2).named = s.named := rfl
@[simp] theorem State.freeBytes_icache (s : State) (n : Nat) : ((s.freeBytes n).2).icache = s.icache := rfl
@[simp] theorem State.freeBytes_codeLines (s : State) (n : Nat) : ((s.freeBytes n).2).codeLines = s.codeLines := rfl
@[simp] theorem State.freeBytes_codeSince (s : State) (n : Nat) : ((s.freeBytes n).2).codeSince = s.codeSince := rfl
@[simp] theorem State.freeBytes_contexts (s : State) (n : Nat) : ((s.freeBytes n).2).contexts = s.contexts := rfl
@[simp] theorem State.freeBytes_launches (s : State) (n : Nat) : ((s.freeBytes n).2).launches = s.launches := rfl
@[simp] theorem State.freeBytes_groups (s : State) (n : Nat) : ((s.freeBytes n).2).groups = s.groups := rfl
@[simp] theorem State.freeBytes_warp (s : State) (n : Nat) : ((s.freeBytes n).2).warp = s.warp := rfl
@[simp] theorem State.freeBytes_others (s : State) (n : Nat) : ((s.freeBytes n).2).others = s.others := rfl
@[simp] theorem State.freeBytes_queues (s : State) (n : Nat) : ((s.freeBytes n).2).queues = s.queues := rfl
@[simp] theorem State.freeBytes_lastQueue (s : State) (n : Nat) : ((s.freeBytes n).2).lastQueue = s.lastQueue := rfl
@[simp] theorem State.freeBytes_parks (s : State) (n : Nat) : ((s.freeBytes n).2).parks = s.parks := rfl
@[simp] theorem State.freeBytes_events (s : State) (n : Nat) : ((s.freeBytes n).2).events = s.events := rfl
@[simp] theorem State.freeBytes_keys (s : State) (n : Nat) : ((s.freeBytes n).2).keys = s.keys := rfl
@[simp] theorem State.freeBytes_collGroups (s : State) (n : Nat) : ((s.freeBytes n).2).collGroups = s.collGroups := rfl
@[simp] theorem State.freeBytes_instances (s : State) (n : Nat) : ((s.freeBytes n).2).instances = s.instances := rfl
@[simp] theorem State.freeBytes_scrubs (s : State) (n : Nat) : ((s.freeBytes n).2).scrubs = s.scrubs := rfl
@[simp] theorem State.freeBytes_scrubRestarted (s : State) (n : Nat) : ((s.freeBytes n).2).scrubRestarted = s.scrubRestarted := rfl
@[simp] theorem State.freeBytes_poisoned (s : State) (n : Nat) : ((s.freeBytes n).2).poisoned = s.poisoned := rfl
@[simp] theorem State.freeBytes_retiredCores (s : State) (n : Nat) : ((s.freeBytes n).2).retiredCores = s.retiredCores := rfl
@[simp] theorem State.freeBytes_errors (s : State) (n : Nat) : ((s.freeBytes n).2).errors = s.errors := rfl
@[simp] theorem State.freeBytes_peers (s : State) (n : Nat) : ((s.freeBytes n).2).peers = s.peers := rfl
@[simp] theorem State.freeBytes_selfPeer (s : State) (n : Nat) : ((s.freeBytes n).2).selfPeer = s.selfPeer := rfl
@[simp] theorem State.freeBytes_monitors (s : State) (n : Nat) : ((s.freeBytes n).2).monitors = s.monitors := rfl
@[simp] theorem State.tick_member (s : State) : (s.tick).member = s.member := rfl
@[simp] theorem State.tick_up (s : State) : (s.tick).up = s.up := rfl
@[simp] theorem State.tick_fresh (s : State) : (s.tick).fresh = s.fresh := rfl
@[simp] theorem State.tick_agenda (s : State) : (s.tick).agenda = s.agenda := rfl
@[simp] theorem State.tick_mem (s : State) : (s.tick).mem = s.mem := rfl
@[simp] theorem State.tick_lineKeys (s : State) : (s.tick).lineKeys = s.lineKeys := rfl
@[simp] theorem State.tick_l2 (s : State) : (s.tick).l2 = s.l2 := rfl
@[simp] theorem State.tick_caches (s : State) : (s.tick).caches = s.caches := rfl
@[simp] theorem State.tick_late (s : State) : (s.tick).late = s.late := rfl
@[simp] theorem State.tick_slow (s : State) : (s.tick).slow = s.slow := rfl
@[simp] theorem State.tick_tlb (s : State) : (s.tick).tlb = s.tlb := rfl
@[simp] theorem State.tick_xlats (s : State) : (s.tick).xlats = s.xlats := rfl
@[simp] theorem State.tick_named (s : State) : (s.tick).named = s.named := rfl
@[simp] theorem State.tick_icache (s : State) : (s.tick).icache = s.icache := rfl
@[simp] theorem State.tick_codeLines (s : State) : (s.tick).codeLines = s.codeLines := rfl
@[simp] theorem State.tick_codeSince (s : State) : (s.tick).codeSince = s.codeSince := rfl
@[simp] theorem State.tick_contexts (s : State) : (s.tick).contexts = s.contexts := rfl
@[simp] theorem State.tick_launches (s : State) : (s.tick).launches = s.launches := rfl
@[simp] theorem State.tick_groups (s : State) : (s.tick).groups = s.groups := rfl
@[simp] theorem State.tick_warp (s : State) : (s.tick).warp = s.warp := rfl
@[simp] theorem State.tick_others (s : State) : (s.tick).others = s.others := rfl
@[simp] theorem State.tick_queues (s : State) : (s.tick).queues = s.queues := rfl
@[simp] theorem State.tick_lastQueue (s : State) : (s.tick).lastQueue = s.lastQueue := rfl
@[simp] theorem State.tick_parks (s : State) : (s.tick).parks = s.parks := rfl
@[simp] theorem State.tick_events (s : State) : (s.tick).events = s.events := rfl
@[simp] theorem State.tick_keys (s : State) : (s.tick).keys = s.keys := rfl
@[simp] theorem State.tick_collGroups (s : State) : (s.tick).collGroups = s.collGroups := rfl
@[simp] theorem State.tick_instances (s : State) : (s.tick).instances = s.instances := rfl
@[simp] theorem State.tick_scrubs (s : State) : (s.tick).scrubs = s.scrubs := rfl
@[simp] theorem State.tick_scrubRestarted (s : State) : (s.tick).scrubRestarted = s.scrubRestarted := rfl
@[simp] theorem State.tick_poisoned (s : State) : (s.tick).poisoned = s.poisoned := rfl
@[simp] theorem State.tick_retiredCores (s : State) : (s.tick).retiredCores = s.retiredCores := rfl
@[simp] theorem State.tick_errors (s : State) : (s.tick).errors = s.errors := rfl
@[simp] theorem State.tick_peers (s : State) : (s.tick).peers = s.peers := rfl
@[simp] theorem State.tick_selfPeer (s : State) : (s.tick).selfPeer = s.selfPeer := rfl
@[simp] theorem State.tick_monitors (s : State) : (s.tick).monitors = s.monitors := rfl
@[simp] theorem State.tick_now (s : State) : s.tick.now = s.now + 1 := rfl
@[simp] theorem State.retire_warp (s : State) : s.retire.warp = (s.warp.modSp Split.advance).retired := rfl
@[simp] theorem State.freeBytes_fresh (s : State) (n : Nat) : (s.freeBytes n).2.fresh = s.fresh + n := rfl
@[simp] theorem State.freeBytes_length (s : State) (n : Nat) : (s.freeBytes n).1.length = n := by simp [State.freeBytes]
@[simp] theorem State.setWait_warp (s : State) (x : Wait) : (s.setWait x).warp = s.warp.modSp fun p => { p with wait := x } := rfl

/-! The running split of a warp is replaced. -/

@[simp] theorem Warp.setSp_key (w : Warp) (p : Split) : (w.setSp p).key = w.key := rfl
@[simp] theorem Warp.setSp_live (w : Warp) (p : Split) : (w.setSp p).live = w.live := rfl
@[simp] theorem Warp.setSp_core (w : Warp) (p : Split) : (w.setSp p).core = w.core := rfl
@[simp] theorem Warp.setSp_half (w : Warp) (p : Split) : (w.setSp p).half = w.half := rfl
@[simp] theorem Warp.setSp_threads (w : Warp) (p : Split) : (w.setSp p).threads = w.threads := rfl
@[simp] theorem Warp.setSp_cur (w : Warp) (p : Split) : (w.setSp p).cur = w.cur := rfl
@[simp] theorem Warp.setSp_overflow (w : Warp) (p : Split) : (w.setSp p).overflow = w.overflow := rfl
@[simp] theorem Warp.setSp_vregs (w : Warp) (p : Split) : (w.setSp p).vregs = w.vregs := rfl
@[simp] theorem Warp.setSp_sregs (w : Warp) (p : Split) : (w.setSp p).sregs = w.sregs := rfl
@[simp] theorem Warp.setSp_preds (w : Warp) (p : Split) : (w.setSp p).preds = w.preds := rfl
@[simp] theorem Warp.setSp_allot (w : Warp) (p : Split) : (w.setSp p).allot = w.allot := rfl
@[simp] theorem Warp.setSp_fflags (w : Warp) (p : Split) : (w.setSp p).fflags = w.fflags := rfl
@[simp] theorem Warp.setSp_clausest (w : Warp) (p : Split) : (w.setSp p).clausest = w.clausest := rfl
@[simp] theorem Warp.setSp_barcount (w : Warp) (p : Split) : (w.setSp p).barcount = w.barcount := rfl
@[simp] theorem Warp.setSp_trapcause (w : Warp) (p : Split) : (w.setSp p).trapcause = w.trapcause := rfl
@[simp] theorem Warp.setSp_trappc (w : Warp) (p : Split) : (w.setSp p).trappc = w.trappc := rfl
@[simp] theorem Warp.setSp_trapaddr (w : Warp) (p : Split) : (w.setSp p).trapaddr = w.trapaddr := rfl
@[simp] theorem Warp.setSp_trapli (w : Warp) (p : Split) : (w.setSp p).trapli = w.trapli := rfl
@[simp] theorem Warp.setSp_trapmask (w : Warp) (p : Split) : (w.setSp p).trapmask = w.trapmask := rfl
@[simp] theorem Warp.setSp_hold (w : Warp) (p : Split) : (w.setSp p).hold = w.hold := rfl
@[simp] theorem Warp.setSp_lklast (w : Warp) (p : Split) : (w.setSp p).lklast = w.lklast := rfl
@[simp] theorem Warp.setSp_clock (w : Warp) (p : Split) : (w.setSp p).clock = w.clock := rfl
@[simp] theorem Warp.setSp_cycleHi (w : Warp) (p : Split) : (w.setSp p).cycleHi = w.cycleHi := rfl
@[simp] theorem Warp.setSp_lclockHi (w : Warp) (p : Split) : (w.setSp p).lclockHi = w.lclockHi := rfl
@[simp] theorem Warp.setSp_rngstream (w : Warp) (p : Split) : (w.setSp p).rngstream = w.rngstream := rfl
@[simp] theorem Warp.setSp_counters (w : Warp) (p : Split) : (w.setSp p).counters = w.counters := rfl
@[simp] theorem Warp.setSp_outstanding (w : Warp) (p : Split) : (w.setSp p).outstanding = w.outstanding := rfl
@[simp] theorem Warp.setSp_reds (w : Warp) (p : Split) : (w.setSp p).reds = w.reds := rfl
@[simp] theorem Warp.setSp_wound (w : Warp) (p : Split) : (w.setSp p).wound = w.wound := rfl
@[simp] theorem Warp.setSp_revoked (w : Warp) (p : Split) : (w.setSp p).revoked = w.revoked := rfl
@[simp] theorem Warp.setSp_issued (w : Warp) (p : Split) : (w.setSp p).issued = w.issued := rfl
@[simp] theorem Warp.setSp_longSince (w : Warp) (p : Split) : (w.setSp p).longSince = w.longSince := rfl
@[simp] theorem Warp.setSp_yielded (w : Warp) (p : Split) : (w.setSp p).yielded = w.yielded := rfl
@[simp] theorem Warp.setSp_passed (w : Warp) (p : Split) : (w.setSp p).passed = w.passed := rfl
@[simp] theorem Warp.modSp_key (w : Warp) (f : Split → Split) : (w.modSp f).key = w.key := rfl
@[simp] theorem Warp.modSp_live (w : Warp) (f : Split → Split) : (w.modSp f).live = w.live := rfl
@[simp] theorem Warp.modSp_core (w : Warp) (f : Split → Split) : (w.modSp f).core = w.core := rfl
@[simp] theorem Warp.modSp_half (w : Warp) (f : Split → Split) : (w.modSp f).half = w.half := rfl
@[simp] theorem Warp.modSp_threads (w : Warp) (f : Split → Split) : (w.modSp f).threads = w.threads := rfl
@[simp] theorem Warp.modSp_cur (w : Warp) (f : Split → Split) : (w.modSp f).cur = w.cur := rfl
@[simp] theorem Warp.modSp_overflow (w : Warp) (f : Split → Split) : (w.modSp f).overflow = w.overflow := rfl
@[simp] theorem Warp.modSp_vregs (w : Warp) (f : Split → Split) : (w.modSp f).vregs = w.vregs := rfl
@[simp] theorem Warp.modSp_sregs (w : Warp) (f : Split → Split) : (w.modSp f).sregs = w.sregs := rfl
@[simp] theorem Warp.modSp_preds (w : Warp) (f : Split → Split) : (w.modSp f).preds = w.preds := rfl
@[simp] theorem Warp.modSp_allot (w : Warp) (f : Split → Split) : (w.modSp f).allot = w.allot := rfl
@[simp] theorem Warp.modSp_fflags (w : Warp) (f : Split → Split) : (w.modSp f).fflags = w.fflags := rfl
@[simp] theorem Warp.modSp_clausest (w : Warp) (f : Split → Split) : (w.modSp f).clausest = w.clausest := rfl
@[simp] theorem Warp.modSp_barcount (w : Warp) (f : Split → Split) : (w.modSp f).barcount = w.barcount := rfl
@[simp] theorem Warp.modSp_trapcause (w : Warp) (f : Split → Split) : (w.modSp f).trapcause = w.trapcause := rfl
@[simp] theorem Warp.modSp_trappc (w : Warp) (f : Split → Split) : (w.modSp f).trappc = w.trappc := rfl
@[simp] theorem Warp.modSp_trapaddr (w : Warp) (f : Split → Split) : (w.modSp f).trapaddr = w.trapaddr := rfl
@[simp] theorem Warp.modSp_trapli (w : Warp) (f : Split → Split) : (w.modSp f).trapli = w.trapli := rfl
@[simp] theorem Warp.modSp_trapmask (w : Warp) (f : Split → Split) : (w.modSp f).trapmask = w.trapmask := rfl
@[simp] theorem Warp.modSp_hold (w : Warp) (f : Split → Split) : (w.modSp f).hold = w.hold := rfl
@[simp] theorem Warp.modSp_lklast (w : Warp) (f : Split → Split) : (w.modSp f).lklast = w.lklast := rfl
@[simp] theorem Warp.modSp_clock (w : Warp) (f : Split → Split) : (w.modSp f).clock = w.clock := rfl
@[simp] theorem Warp.modSp_cycleHi (w : Warp) (f : Split → Split) : (w.modSp f).cycleHi = w.cycleHi := rfl
@[simp] theorem Warp.modSp_lclockHi (w : Warp) (f : Split → Split) : (w.modSp f).lclockHi = w.lclockHi := rfl
@[simp] theorem Warp.modSp_rngstream (w : Warp) (f : Split → Split) : (w.modSp f).rngstream = w.rngstream := rfl
@[simp] theorem Warp.modSp_counters (w : Warp) (f : Split → Split) : (w.modSp f).counters = w.counters := rfl
@[simp] theorem Warp.modSp_outstanding (w : Warp) (f : Split → Split) : (w.modSp f).outstanding = w.outstanding := rfl
@[simp] theorem Warp.modSp_reds (w : Warp) (f : Split → Split) : (w.modSp f).reds = w.reds := rfl
@[simp] theorem Warp.modSp_wound (w : Warp) (f : Split → Split) : (w.modSp f).wound = w.wound := rfl
@[simp] theorem Warp.modSp_revoked (w : Warp) (f : Split → Split) : (w.modSp f).revoked = w.revoked := rfl
@[simp] theorem Warp.modSp_issued (w : Warp) (f : Split → Split) : (w.modSp f).issued = w.issued := rfl
@[simp] theorem Warp.modSp_longSince (w : Warp) (f : Split → Split) : (w.modSp f).longSince = w.longSince := rfl
@[simp] theorem Warp.modSp_yielded (w : Warp) (f : Split → Split) : (w.modSp f).yielded = w.yielded := rfl
@[simp] theorem Warp.modSp_passed (w : Warp) (f : Split → Split) : (w.modSp f).passed = w.passed := rfl
@[simp] theorem Warp.setSp_sp (w : Warp) (p : Split) : (w.setSp p).sp = p := by
  simp [Warp.setSp, Warp.sp]
@[simp] theorem Warp.modSp_sp (w : Warp) (f : Split → Split) : (w.modSp f).sp = f w.sp := by
  simp [Warp.modSp]
theorem Warp.setSp_splits_ne (w : Warp) (p : Split) (k : Fin 4) (h : k ≠ w.cur) : (w.setSp p).splits[k] = w.splits[k] := by
  simp only [Warp.setSp]
  exact Vector.getElem_set_ne _ _ (fun e => h (Fin.ext e.symm))

/-! A vector register is written. -/

@[simp] theorem Warp.setV_key (w : Warp) (r : Reg) (m : LaneMask) (f : Lane → Word) : (w.setV r m f).key = w.key := rfl
@[simp] theorem Warp.setV_live (w : Warp) (r : Reg) (m : LaneMask) (f : Lane → Word) : (w.setV r m f).live = w.live := rfl
@[simp] theorem Warp.setV_core (w : Warp) (r : Reg) (m : LaneMask) (f : Lane → Word) : (w.setV r m f).core = w.core := rfl
@[simp] theorem Warp.setV_half (w : Warp) (r : Reg) (m : LaneMask) (f : Lane → Word) : (w.setV r m f).half = w.half := rfl
@[simp] theorem Warp.setV_threads (w : Warp) (r : Reg) (m : LaneMask) (f : Lane → Word) : (w.setV r m f).threads = w.threads := rfl
@[simp] theorem Warp.setV_splits (w : Warp) (r : Reg) (m : LaneMask) (f : Lane → Word) : (w.setV r m f).splits = w.splits := rfl
@[simp] theorem Warp.setV_cur (w : Warp) (r : Reg) (m : LaneMask) (f : Lane → Word) : (w.setV r m f).cur = w.cur := rfl
@[simp] theorem Warp.setV_overflow (w : Warp) (r : Reg) (m : LaneMask) (f : Lane → Word) : (w.setV r m f).overflow = w.overflow := rfl
@[simp] theorem Warp.setV_sregs (w : Warp) (r : Reg) (m : LaneMask) (f : Lane → Word) : (w.setV r m f).sregs = w.sregs := rfl
@[simp] theorem Warp.setV_preds (w : Warp) (r : Reg) (m : LaneMask) (f : Lane → Word) : (w.setV r m f).preds = w.preds := rfl
@[simp] theorem Warp.setV_allot (w : Warp) (r : Reg) (m : LaneMask) (f : Lane → Word) : (w.setV r m f).allot = w.allot := rfl
@[simp] theorem Warp.setV_fflags (w : Warp) (r : Reg) (m : LaneMask) (f : Lane → Word) : (w.setV r m f).fflags = w.fflags := rfl
@[simp] theorem Warp.setV_clausest (w : Warp) (r : Reg) (m : LaneMask) (f : Lane → Word) : (w.setV r m f).clausest = w.clausest := rfl
@[simp] theorem Warp.setV_barcount (w : Warp) (r : Reg) (m : LaneMask) (f : Lane → Word) : (w.setV r m f).barcount = w.barcount := rfl
@[simp] theorem Warp.setV_trapcause (w : Warp) (r : Reg) (m : LaneMask) (f : Lane → Word) : (w.setV r m f).trapcause = w.trapcause := rfl
@[simp] theorem Warp.setV_trappc (w : Warp) (r : Reg) (m : LaneMask) (f : Lane → Word) : (w.setV r m f).trappc = w.trappc := rfl
@[simp] theorem Warp.setV_trapaddr (w : Warp) (r : Reg) (m : LaneMask) (f : Lane → Word) : (w.setV r m f).trapaddr = w.trapaddr := rfl
@[simp] theorem Warp.setV_trapli (w : Warp) (r : Reg) (m : LaneMask) (f : Lane → Word) : (w.setV r m f).trapli = w.trapli := rfl
@[simp] theorem Warp.setV_trapmask (w : Warp) (r : Reg) (m : LaneMask) (f : Lane → Word) : (w.setV r m f).trapmask = w.trapmask := rfl
@[simp] theorem Warp.setV_hold (w : Warp) (r : Reg) (m : LaneMask) (f : Lane → Word) : (w.setV r m f).hold = w.hold := rfl
@[simp] theorem Warp.setV_lklast (w : Warp) (r : Reg) (m : LaneMask) (f : Lane → Word) : (w.setV r m f).lklast = w.lklast := rfl
@[simp] theorem Warp.setV_clock (w : Warp) (r : Reg) (m : LaneMask) (f : Lane → Word) : (w.setV r m f).clock = w.clock := rfl
@[simp] theorem Warp.setV_cycleHi (w : Warp) (r : Reg) (m : LaneMask) (f : Lane → Word) : (w.setV r m f).cycleHi = w.cycleHi := rfl
@[simp] theorem Warp.setV_lclockHi (w : Warp) (r : Reg) (m : LaneMask) (f : Lane → Word) : (w.setV r m f).lclockHi = w.lclockHi := rfl
@[simp] theorem Warp.setV_rngstream (w : Warp) (r : Reg) (m : LaneMask) (f : Lane → Word) : (w.setV r m f).rngstream = w.rngstream := rfl
@[simp] theorem Warp.setV_counters (w : Warp) (r : Reg) (m : LaneMask) (f : Lane → Word) : (w.setV r m f).counters = w.counters := rfl
@[simp] theorem Warp.setV_outstanding (w : Warp) (r : Reg) (m : LaneMask) (f : Lane → Word) : (w.setV r m f).outstanding = w.outstanding := rfl
@[simp] theorem Warp.setV_reds (w : Warp) (r : Reg) (m : LaneMask) (f : Lane → Word) : (w.setV r m f).reds = w.reds := rfl
@[simp] theorem Warp.setV_wound (w : Warp) (r : Reg) (m : LaneMask) (f : Lane → Word) : (w.setV r m f).wound = w.wound := rfl
@[simp] theorem Warp.setV_revoked (w : Warp) (r : Reg) (m : LaneMask) (f : Lane → Word) : (w.setV r m f).revoked = w.revoked := rfl
@[simp] theorem Warp.setV_issued (w : Warp) (r : Reg) (m : LaneMask) (f : Lane → Word) : (w.setV r m f).issued = w.issued := rfl
@[simp] theorem Warp.setV_longSince (w : Warp) (r : Reg) (m : LaneMask) (f : Lane → Word) : (w.setV r m f).longSince = w.longSince := rfl
@[simp] theorem Warp.setV_yielded (w : Warp) (r : Reg) (m : LaneMask) (f : Lane → Word) : (w.setV r m f).yielded = w.yielded := rfl
@[simp] theorem Warp.setV_passed (w : Warp) (r : Reg) (m : LaneMask) (f : Lane → Word) : (w.setV r m f).passed = w.passed := rfl
@[simp] theorem Warp.setV64_key (w : Warp) (r : Reg) (m : LaneMask) (f : Lane → DWord) : (w.setV64 r m f).key = w.key := rfl
@[simp] theorem Warp.setV64_live (w : Warp) (r : Reg) (m : LaneMask) (f : Lane → DWord) : (w.setV64 r m f).live = w.live := rfl
@[simp] theorem Warp.setV64_core (w : Warp) (r : Reg) (m : LaneMask) (f : Lane → DWord) : (w.setV64 r m f).core = w.core := rfl
@[simp] theorem Warp.setV64_half (w : Warp) (r : Reg) (m : LaneMask) (f : Lane → DWord) : (w.setV64 r m f).half = w.half := rfl
@[simp] theorem Warp.setV64_threads (w : Warp) (r : Reg) (m : LaneMask) (f : Lane → DWord) : (w.setV64 r m f).threads = w.threads := rfl
@[simp] theorem Warp.setV64_splits (w : Warp) (r : Reg) (m : LaneMask) (f : Lane → DWord) : (w.setV64 r m f).splits = w.splits := rfl
@[simp] theorem Warp.setV64_cur (w : Warp) (r : Reg) (m : LaneMask) (f : Lane → DWord) : (w.setV64 r m f).cur = w.cur := rfl
@[simp] theorem Warp.setV64_overflow (w : Warp) (r : Reg) (m : LaneMask) (f : Lane → DWord) : (w.setV64 r m f).overflow = w.overflow := rfl
@[simp] theorem Warp.setV64_sregs (w : Warp) (r : Reg) (m : LaneMask) (f : Lane → DWord) : (w.setV64 r m f).sregs = w.sregs := rfl
@[simp] theorem Warp.setV64_preds (w : Warp) (r : Reg) (m : LaneMask) (f : Lane → DWord) : (w.setV64 r m f).preds = w.preds := rfl
@[simp] theorem Warp.setV64_allot (w : Warp) (r : Reg) (m : LaneMask) (f : Lane → DWord) : (w.setV64 r m f).allot = w.allot := rfl
@[simp] theorem Warp.setV64_fflags (w : Warp) (r : Reg) (m : LaneMask) (f : Lane → DWord) : (w.setV64 r m f).fflags = w.fflags := rfl
@[simp] theorem Warp.setV64_clausest (w : Warp) (r : Reg) (m : LaneMask) (f : Lane → DWord) : (w.setV64 r m f).clausest = w.clausest := rfl
@[simp] theorem Warp.setV64_barcount (w : Warp) (r : Reg) (m : LaneMask) (f : Lane → DWord) : (w.setV64 r m f).barcount = w.barcount := rfl
@[simp] theorem Warp.setV64_trapcause (w : Warp) (r : Reg) (m : LaneMask) (f : Lane → DWord) : (w.setV64 r m f).trapcause = w.trapcause := rfl
@[simp] theorem Warp.setV64_trappc (w : Warp) (r : Reg) (m : LaneMask) (f : Lane → DWord) : (w.setV64 r m f).trappc = w.trappc := rfl
@[simp] theorem Warp.setV64_trapaddr (w : Warp) (r : Reg) (m : LaneMask) (f : Lane → DWord) : (w.setV64 r m f).trapaddr = w.trapaddr := rfl
@[simp] theorem Warp.setV64_trapli (w : Warp) (r : Reg) (m : LaneMask) (f : Lane → DWord) : (w.setV64 r m f).trapli = w.trapli := rfl
@[simp] theorem Warp.setV64_trapmask (w : Warp) (r : Reg) (m : LaneMask) (f : Lane → DWord) : (w.setV64 r m f).trapmask = w.trapmask := rfl
@[simp] theorem Warp.setV64_hold (w : Warp) (r : Reg) (m : LaneMask) (f : Lane → DWord) : (w.setV64 r m f).hold = w.hold := rfl
@[simp] theorem Warp.setV64_lklast (w : Warp) (r : Reg) (m : LaneMask) (f : Lane → DWord) : (w.setV64 r m f).lklast = w.lklast := rfl
@[simp] theorem Warp.setV64_clock (w : Warp) (r : Reg) (m : LaneMask) (f : Lane → DWord) : (w.setV64 r m f).clock = w.clock := rfl
@[simp] theorem Warp.setV64_cycleHi (w : Warp) (r : Reg) (m : LaneMask) (f : Lane → DWord) : (w.setV64 r m f).cycleHi = w.cycleHi := rfl
@[simp] theorem Warp.setV64_lclockHi (w : Warp) (r : Reg) (m : LaneMask) (f : Lane → DWord) : (w.setV64 r m f).lclockHi = w.lclockHi := rfl
@[simp] theorem Warp.setV64_rngstream (w : Warp) (r : Reg) (m : LaneMask) (f : Lane → DWord) : (w.setV64 r m f).rngstream = w.rngstream := rfl
@[simp] theorem Warp.setV64_counters (w : Warp) (r : Reg) (m : LaneMask) (f : Lane → DWord) : (w.setV64 r m f).counters = w.counters := rfl
@[simp] theorem Warp.setV64_outstanding (w : Warp) (r : Reg) (m : LaneMask) (f : Lane → DWord) : (w.setV64 r m f).outstanding = w.outstanding := rfl
@[simp] theorem Warp.setV64_reds (w : Warp) (r : Reg) (m : LaneMask) (f : Lane → DWord) : (w.setV64 r m f).reds = w.reds := rfl
@[simp] theorem Warp.setV64_wound (w : Warp) (r : Reg) (m : LaneMask) (f : Lane → DWord) : (w.setV64 r m f).wound = w.wound := rfl
@[simp] theorem Warp.setV64_revoked (w : Warp) (r : Reg) (m : LaneMask) (f : Lane → DWord) : (w.setV64 r m f).revoked = w.revoked := rfl
@[simp] theorem Warp.setV64_issued (w : Warp) (r : Reg) (m : LaneMask) (f : Lane → DWord) : (w.setV64 r m f).issued = w.issued := rfl
@[simp] theorem Warp.setV64_longSince (w : Warp) (r : Reg) (m : LaneMask) (f : Lane → DWord) : (w.setV64 r m f).longSince = w.longSince := rfl
@[simp] theorem Warp.setV64_yielded (w : Warp) (r : Reg) (m : LaneMask) (f : Lane → DWord) : (w.setV64 r m f).yielded = w.yielded := rfl
@[simp] theorem Warp.setV64_passed (w : Warp) (r : Reg) (m : LaneMask) (f : Lane → DWord) : (w.setV64 r m f).passed = w.passed := rfl
@[simp] theorem Warp.setVNat_key (w : Warp) (r : Reg) (n : Nat) (m : LaneMask) (f : Lane → Nat) : (w.setVNat r n m f).key = w.key := by unfold Warp.setVNat; split <;> rfl
@[simp] theorem Warp.setVNat_live (w : Warp) (r : Reg) (n : Nat) (m : LaneMask) (f : Lane → Nat) : (w.setVNat r n m f).live = w.live := by unfold Warp.setVNat; split <;> rfl
@[simp] theorem Warp.setVNat_core (w : Warp) (r : Reg) (n : Nat) (m : LaneMask) (f : Lane → Nat) : (w.setVNat r n m f).core = w.core := by unfold Warp.setVNat; split <;> rfl
@[simp] theorem Warp.setVNat_half (w : Warp) (r : Reg) (n : Nat) (m : LaneMask) (f : Lane → Nat) : (w.setVNat r n m f).half = w.half := by unfold Warp.setVNat; split <;> rfl
@[simp] theorem Warp.setVNat_threads (w : Warp) (r : Reg) (n : Nat) (m : LaneMask) (f : Lane → Nat) : (w.setVNat r n m f).threads = w.threads := by unfold Warp.setVNat; split <;> rfl
@[simp] theorem Warp.setVNat_splits (w : Warp) (r : Reg) (n : Nat) (m : LaneMask) (f : Lane → Nat) : (w.setVNat r n m f).splits = w.splits := by unfold Warp.setVNat; split <;> rfl
@[simp] theorem Warp.setVNat_cur (w : Warp) (r : Reg) (n : Nat) (m : LaneMask) (f : Lane → Nat) : (w.setVNat r n m f).cur = w.cur := by unfold Warp.setVNat; split <;> rfl
@[simp] theorem Warp.setVNat_overflow (w : Warp) (r : Reg) (n : Nat) (m : LaneMask) (f : Lane → Nat) : (w.setVNat r n m f).overflow = w.overflow := by unfold Warp.setVNat; split <;> rfl
@[simp] theorem Warp.setVNat_sregs (w : Warp) (r : Reg) (n : Nat) (m : LaneMask) (f : Lane → Nat) : (w.setVNat r n m f).sregs = w.sregs := by unfold Warp.setVNat; split <;> rfl
@[simp] theorem Warp.setVNat_preds (w : Warp) (r : Reg) (n : Nat) (m : LaneMask) (f : Lane → Nat) : (w.setVNat r n m f).preds = w.preds := by unfold Warp.setVNat; split <;> rfl
@[simp] theorem Warp.setVNat_allot (w : Warp) (r : Reg) (n : Nat) (m : LaneMask) (f : Lane → Nat) : (w.setVNat r n m f).allot = w.allot := by unfold Warp.setVNat; split <;> rfl
@[simp] theorem Warp.setVNat_fflags (w : Warp) (r : Reg) (n : Nat) (m : LaneMask) (f : Lane → Nat) : (w.setVNat r n m f).fflags = w.fflags := by unfold Warp.setVNat; split <;> rfl
@[simp] theorem Warp.setVNat_clausest (w : Warp) (r : Reg) (n : Nat) (m : LaneMask) (f : Lane → Nat) : (w.setVNat r n m f).clausest = w.clausest := by unfold Warp.setVNat; split <;> rfl
@[simp] theorem Warp.setVNat_barcount (w : Warp) (r : Reg) (n : Nat) (m : LaneMask) (f : Lane → Nat) : (w.setVNat r n m f).barcount = w.barcount := by unfold Warp.setVNat; split <;> rfl
@[simp] theorem Warp.setVNat_trapcause (w : Warp) (r : Reg) (n : Nat) (m : LaneMask) (f : Lane → Nat) : (w.setVNat r n m f).trapcause = w.trapcause := by unfold Warp.setVNat; split <;> rfl
@[simp] theorem Warp.setVNat_trappc (w : Warp) (r : Reg) (n : Nat) (m : LaneMask) (f : Lane → Nat) : (w.setVNat r n m f).trappc = w.trappc := by unfold Warp.setVNat; split <;> rfl
@[simp] theorem Warp.setVNat_trapaddr (w : Warp) (r : Reg) (n : Nat) (m : LaneMask) (f : Lane → Nat) : (w.setVNat r n m f).trapaddr = w.trapaddr := by unfold Warp.setVNat; split <;> rfl
@[simp] theorem Warp.setVNat_trapli (w : Warp) (r : Reg) (n : Nat) (m : LaneMask) (f : Lane → Nat) : (w.setVNat r n m f).trapli = w.trapli := by unfold Warp.setVNat; split <;> rfl
@[simp] theorem Warp.setVNat_trapmask (w : Warp) (r : Reg) (n : Nat) (m : LaneMask) (f : Lane → Nat) : (w.setVNat r n m f).trapmask = w.trapmask := by unfold Warp.setVNat; split <;> rfl
@[simp] theorem Warp.setVNat_hold (w : Warp) (r : Reg) (n : Nat) (m : LaneMask) (f : Lane → Nat) : (w.setVNat r n m f).hold = w.hold := by unfold Warp.setVNat; split <;> rfl
@[simp] theorem Warp.setVNat_lklast (w : Warp) (r : Reg) (n : Nat) (m : LaneMask) (f : Lane → Nat) : (w.setVNat r n m f).lklast = w.lklast := by unfold Warp.setVNat; split <;> rfl
@[simp] theorem Warp.setVNat_clock (w : Warp) (r : Reg) (n : Nat) (m : LaneMask) (f : Lane → Nat) : (w.setVNat r n m f).clock = w.clock := by unfold Warp.setVNat; split <;> rfl
@[simp] theorem Warp.setVNat_cycleHi (w : Warp) (r : Reg) (n : Nat) (m : LaneMask) (f : Lane → Nat) : (w.setVNat r n m f).cycleHi = w.cycleHi := by unfold Warp.setVNat; split <;> rfl
@[simp] theorem Warp.setVNat_lclockHi (w : Warp) (r : Reg) (n : Nat) (m : LaneMask) (f : Lane → Nat) : (w.setVNat r n m f).lclockHi = w.lclockHi := by unfold Warp.setVNat; split <;> rfl
@[simp] theorem Warp.setVNat_rngstream (w : Warp) (r : Reg) (n : Nat) (m : LaneMask) (f : Lane → Nat) : (w.setVNat r n m f).rngstream = w.rngstream := by unfold Warp.setVNat; split <;> rfl
@[simp] theorem Warp.setVNat_counters (w : Warp) (r : Reg) (n : Nat) (m : LaneMask) (f : Lane → Nat) : (w.setVNat r n m f).counters = w.counters := by unfold Warp.setVNat; split <;> rfl
@[simp] theorem Warp.setVNat_outstanding (w : Warp) (r : Reg) (n : Nat) (m : LaneMask) (f : Lane → Nat) : (w.setVNat r n m f).outstanding = w.outstanding := by unfold Warp.setVNat; split <;> rfl
@[simp] theorem Warp.setVNat_reds (w : Warp) (r : Reg) (n : Nat) (m : LaneMask) (f : Lane → Nat) : (w.setVNat r n m f).reds = w.reds := by unfold Warp.setVNat; split <;> rfl
@[simp] theorem Warp.setVNat_wound (w : Warp) (r : Reg) (n : Nat) (m : LaneMask) (f : Lane → Nat) : (w.setVNat r n m f).wound = w.wound := by unfold Warp.setVNat; split <;> rfl
@[simp] theorem Warp.setVNat_revoked (w : Warp) (r : Reg) (n : Nat) (m : LaneMask) (f : Lane → Nat) : (w.setVNat r n m f).revoked = w.revoked := by unfold Warp.setVNat; split <;> rfl
@[simp] theorem Warp.setVNat_issued (w : Warp) (r : Reg) (n : Nat) (m : LaneMask) (f : Lane → Nat) : (w.setVNat r n m f).issued = w.issued := by unfold Warp.setVNat; split <;> rfl
@[simp] theorem Warp.setVNat_longSince (w : Warp) (r : Reg) (n : Nat) (m : LaneMask) (f : Lane → Nat) : (w.setVNat r n m f).longSince = w.longSince := by unfold Warp.setVNat; split <;> rfl
@[simp] theorem Warp.setVNat_yielded (w : Warp) (r : Reg) (n : Nat) (m : LaneMask) (f : Lane → Nat) : (w.setVNat r n m f).yielded = w.yielded := by unfold Warp.setVNat; split <;> rfl
@[simp] theorem Warp.setVNat_passed (w : Warp) (r : Reg) (n : Nat) (m : LaneMask) (f : Lane → Nat) : (w.setVNat r n m f).passed = w.passed := by unfold Warp.setVNat; split <;> rfl

/-! A predicate is written. -/

@[simp] theorem Warp.setP_key (w : Warp) (k : PReg) (m bits : LaneMask) : (w.setP k m bits).key = w.key := by unfold Warp.setP; split <;> rfl
@[simp] theorem Warp.setP_live (w : Warp) (k : PReg) (m bits : LaneMask) : (w.setP k m bits).live = w.live := by unfold Warp.setP; split <;> rfl
@[simp] theorem Warp.setP_core (w : Warp) (k : PReg) (m bits : LaneMask) : (w.setP k m bits).core = w.core := by unfold Warp.setP; split <;> rfl
@[simp] theorem Warp.setP_half (w : Warp) (k : PReg) (m bits : LaneMask) : (w.setP k m bits).half = w.half := by unfold Warp.setP; split <;> rfl
@[simp] theorem Warp.setP_threads (w : Warp) (k : PReg) (m bits : LaneMask) : (w.setP k m bits).threads = w.threads := by unfold Warp.setP; split <;> rfl
@[simp] theorem Warp.setP_splits (w : Warp) (k : PReg) (m bits : LaneMask) : (w.setP k m bits).splits = w.splits := by unfold Warp.setP; split <;> rfl
@[simp] theorem Warp.setP_cur (w : Warp) (k : PReg) (m bits : LaneMask) : (w.setP k m bits).cur = w.cur := by unfold Warp.setP; split <;> rfl
@[simp] theorem Warp.setP_overflow (w : Warp) (k : PReg) (m bits : LaneMask) : (w.setP k m bits).overflow = w.overflow := by unfold Warp.setP; split <;> rfl
@[simp] theorem Warp.setP_vregs (w : Warp) (k : PReg) (m bits : LaneMask) : (w.setP k m bits).vregs = w.vregs := by unfold Warp.setP; split <;> rfl
@[simp] theorem Warp.setP_sregs (w : Warp) (k : PReg) (m bits : LaneMask) : (w.setP k m bits).sregs = w.sregs := by unfold Warp.setP; split <;> rfl
@[simp] theorem Warp.setP_allot (w : Warp) (k : PReg) (m bits : LaneMask) : (w.setP k m bits).allot = w.allot := by unfold Warp.setP; split <;> rfl
@[simp] theorem Warp.setP_fflags (w : Warp) (k : PReg) (m bits : LaneMask) : (w.setP k m bits).fflags = w.fflags := by unfold Warp.setP; split <;> rfl
@[simp] theorem Warp.setP_clausest (w : Warp) (k : PReg) (m bits : LaneMask) : (w.setP k m bits).clausest = w.clausest := by unfold Warp.setP; split <;> rfl
@[simp] theorem Warp.setP_barcount (w : Warp) (k : PReg) (m bits : LaneMask) : (w.setP k m bits).barcount = w.barcount := by unfold Warp.setP; split <;> rfl
@[simp] theorem Warp.setP_trapcause (w : Warp) (k : PReg) (m bits : LaneMask) : (w.setP k m bits).trapcause = w.trapcause := by unfold Warp.setP; split <;> rfl
@[simp] theorem Warp.setP_trappc (w : Warp) (k : PReg) (m bits : LaneMask) : (w.setP k m bits).trappc = w.trappc := by unfold Warp.setP; split <;> rfl
@[simp] theorem Warp.setP_trapaddr (w : Warp) (k : PReg) (m bits : LaneMask) : (w.setP k m bits).trapaddr = w.trapaddr := by unfold Warp.setP; split <;> rfl
@[simp] theorem Warp.setP_trapli (w : Warp) (k : PReg) (m bits : LaneMask) : (w.setP k m bits).trapli = w.trapli := by unfold Warp.setP; split <;> rfl
@[simp] theorem Warp.setP_trapmask (w : Warp) (k : PReg) (m bits : LaneMask) : (w.setP k m bits).trapmask = w.trapmask := by unfold Warp.setP; split <;> rfl
@[simp] theorem Warp.setP_hold (w : Warp) (k : PReg) (m bits : LaneMask) : (w.setP k m bits).hold = w.hold := by unfold Warp.setP; split <;> rfl
@[simp] theorem Warp.setP_lklast (w : Warp) (k : PReg) (m bits : LaneMask) : (w.setP k m bits).lklast = w.lklast := by unfold Warp.setP; split <;> rfl
@[simp] theorem Warp.setP_clock (w : Warp) (k : PReg) (m bits : LaneMask) : (w.setP k m bits).clock = w.clock := by unfold Warp.setP; split <;> rfl
@[simp] theorem Warp.setP_cycleHi (w : Warp) (k : PReg) (m bits : LaneMask) : (w.setP k m bits).cycleHi = w.cycleHi := by unfold Warp.setP; split <;> rfl
@[simp] theorem Warp.setP_lclockHi (w : Warp) (k : PReg) (m bits : LaneMask) : (w.setP k m bits).lclockHi = w.lclockHi := by unfold Warp.setP; split <;> rfl
@[simp] theorem Warp.setP_rngstream (w : Warp) (k : PReg) (m bits : LaneMask) : (w.setP k m bits).rngstream = w.rngstream := by unfold Warp.setP; split <;> rfl
@[simp] theorem Warp.setP_counters (w : Warp) (k : PReg) (m bits : LaneMask) : (w.setP k m bits).counters = w.counters := by unfold Warp.setP; split <;> rfl
@[simp] theorem Warp.setP_outstanding (w : Warp) (k : PReg) (m bits : LaneMask) : (w.setP k m bits).outstanding = w.outstanding := by unfold Warp.setP; split <;> rfl
@[simp] theorem Warp.setP_reds (w : Warp) (k : PReg) (m bits : LaneMask) : (w.setP k m bits).reds = w.reds := by unfold Warp.setP; split <;> rfl
@[simp] theorem Warp.setP_wound (w : Warp) (k : PReg) (m bits : LaneMask) : (w.setP k m bits).wound = w.wound := by unfold Warp.setP; split <;> rfl
@[simp] theorem Warp.setP_revoked (w : Warp) (k : PReg) (m bits : LaneMask) : (w.setP k m bits).revoked = w.revoked := by unfold Warp.setP; split <;> rfl
@[simp] theorem Warp.setP_issued (w : Warp) (k : PReg) (m bits : LaneMask) : (w.setP k m bits).issued = w.issued := by unfold Warp.setP; split <;> rfl
@[simp] theorem Warp.setP_longSince (w : Warp) (k : PReg) (m bits : LaneMask) : (w.setP k m bits).longSince = w.longSince := by unfold Warp.setP; split <;> rfl
@[simp] theorem Warp.setP_yielded (w : Warp) (k : PReg) (m bits : LaneMask) : (w.setP k m bits).yielded = w.yielded := by unfold Warp.setP; split <;> rfl
@[simp] theorem Warp.setP_passed (w : Warp) (k : PReg) (m bits : LaneMask) : (w.setP k m bits).passed = w.passed := by unfold Warp.setP; split <;> rfl

/-! A scalar register is written; s120 to s122 stand for the activity mask. -/

@[simp] theorem Warp.setS_key (w : Warp) (r : Reg) (v : Word) : (w.setS r v).key = w.key := by unfold Warp.setS; repeat (first | rfl | split)
@[simp] theorem Warp.setS_live (w : Warp) (r : Reg) (v : Word) : (w.setS r v).live = w.live := by unfold Warp.setS; repeat (first | rfl | split)
@[simp] theorem Warp.setS_core (w : Warp) (r : Reg) (v : Word) : (w.setS r v).core = w.core := by unfold Warp.setS; repeat (first | rfl | split)
@[simp] theorem Warp.setS_half (w : Warp) (r : Reg) (v : Word) : (w.setS r v).half = w.half := by unfold Warp.setS; repeat (first | rfl | split)
@[simp] theorem Warp.setS_threads (w : Warp) (r : Reg) (v : Word) : (w.setS r v).threads = w.threads := by unfold Warp.setS; repeat (first | rfl | split)
@[simp] theorem Warp.setS_cur (w : Warp) (r : Reg) (v : Word) : (w.setS r v).cur = w.cur := by unfold Warp.setS; repeat (first | rfl | split)
@[simp] theorem Warp.setS_overflow (w : Warp) (r : Reg) (v : Word) : (w.setS r v).overflow = w.overflow := by unfold Warp.setS; repeat (first | rfl | split)
@[simp] theorem Warp.setS_vregs (w : Warp) (r : Reg) (v : Word) : (w.setS r v).vregs = w.vregs := by unfold Warp.setS; repeat (first | rfl | split)
@[simp] theorem Warp.setS_preds (w : Warp) (r : Reg) (v : Word) : (w.setS r v).preds = w.preds := by unfold Warp.setS; repeat (first | rfl | split)
@[simp] theorem Warp.setS_allot (w : Warp) (r : Reg) (v : Word) : (w.setS r v).allot = w.allot := by unfold Warp.setS; repeat (first | rfl | split)
@[simp] theorem Warp.setS_fflags (w : Warp) (r : Reg) (v : Word) : (w.setS r v).fflags = w.fflags := by unfold Warp.setS; repeat (first | rfl | split)
@[simp] theorem Warp.setS_clausest (w : Warp) (r : Reg) (v : Word) : (w.setS r v).clausest = w.clausest := by unfold Warp.setS; repeat (first | rfl | split)
@[simp] theorem Warp.setS_barcount (w : Warp) (r : Reg) (v : Word) : (w.setS r v).barcount = w.barcount := by unfold Warp.setS; repeat (first | rfl | split)
@[simp] theorem Warp.setS_trapcause (w : Warp) (r : Reg) (v : Word) : (w.setS r v).trapcause = w.trapcause := by unfold Warp.setS; repeat (first | rfl | split)
@[simp] theorem Warp.setS_trappc (w : Warp) (r : Reg) (v : Word) : (w.setS r v).trappc = w.trappc := by unfold Warp.setS; repeat (first | rfl | split)
@[simp] theorem Warp.setS_trapaddr (w : Warp) (r : Reg) (v : Word) : (w.setS r v).trapaddr = w.trapaddr := by unfold Warp.setS; repeat (first | rfl | split)
@[simp] theorem Warp.setS_trapli (w : Warp) (r : Reg) (v : Word) : (w.setS r v).trapli = w.trapli := by unfold Warp.setS; repeat (first | rfl | split)
@[simp] theorem Warp.setS_trapmask (w : Warp) (r : Reg) (v : Word) : (w.setS r v).trapmask = w.trapmask := by unfold Warp.setS; repeat (first | rfl | split)
@[simp] theorem Warp.setS_hold (w : Warp) (r : Reg) (v : Word) : (w.setS r v).hold = w.hold := by unfold Warp.setS; repeat (first | rfl | split)
@[simp] theorem Warp.setS_lklast (w : Warp) (r : Reg) (v : Word) : (w.setS r v).lklast = w.lklast := by unfold Warp.setS; repeat (first | rfl | split)
@[simp] theorem Warp.setS_clock (w : Warp) (r : Reg) (v : Word) : (w.setS r v).clock = w.clock := by unfold Warp.setS; repeat (first | rfl | split)
@[simp] theorem Warp.setS_cycleHi (w : Warp) (r : Reg) (v : Word) : (w.setS r v).cycleHi = w.cycleHi := by unfold Warp.setS; repeat (first | rfl | split)
@[simp] theorem Warp.setS_lclockHi (w : Warp) (r : Reg) (v : Word) : (w.setS r v).lclockHi = w.lclockHi := by unfold Warp.setS; repeat (first | rfl | split)
@[simp] theorem Warp.setS_rngstream (w : Warp) (r : Reg) (v : Word) : (w.setS r v).rngstream = w.rngstream := by unfold Warp.setS; repeat (first | rfl | split)
@[simp] theorem Warp.setS_counters (w : Warp) (r : Reg) (v : Word) : (w.setS r v).counters = w.counters := by unfold Warp.setS; repeat (first | rfl | split)
@[simp] theorem Warp.setS_outstanding (w : Warp) (r : Reg) (v : Word) : (w.setS r v).outstanding = w.outstanding := by unfold Warp.setS; repeat (first | rfl | split)
@[simp] theorem Warp.setS_reds (w : Warp) (r : Reg) (v : Word) : (w.setS r v).reds = w.reds := by unfold Warp.setS; repeat (first | rfl | split)
@[simp] theorem Warp.setS_wound (w : Warp) (r : Reg) (v : Word) : (w.setS r v).wound = w.wound := by unfold Warp.setS; repeat (first | rfl | split)
@[simp] theorem Warp.setS_revoked (w : Warp) (r : Reg) (v : Word) : (w.setS r v).revoked = w.revoked := by unfold Warp.setS; repeat (first | rfl | split)
@[simp] theorem Warp.setS_issued (w : Warp) (r : Reg) (v : Word) : (w.setS r v).issued = w.issued := by unfold Warp.setS; repeat (first | rfl | split)
@[simp] theorem Warp.setS_longSince (w : Warp) (r : Reg) (v : Word) : (w.setS r v).longSince = w.longSince := by unfold Warp.setS; repeat (first | rfl | split)
@[simp] theorem Warp.setS_yielded (w : Warp) (r : Reg) (v : Word) : (w.setS r v).yielded = w.yielded := by unfold Warp.setS; repeat (first | rfl | split)
@[simp] theorem Warp.setS_passed (w : Warp) (r : Reg) (v : Word) : (w.setS r v).passed = w.passed := by unfold Warp.setS; repeat (first | rfl | split)
@[simp] theorem Warp.setS64_key (w : Warp) (r : Reg) (v : DWord) : (w.setS64 r v).key = w.key := by simp [Warp.setS64]
@[simp] theorem Warp.setS64_live (w : Warp) (r : Reg) (v : DWord) : (w.setS64 r v).live = w.live := by simp [Warp.setS64]
@[simp] theorem Warp.setS64_core (w : Warp) (r : Reg) (v : DWord) : (w.setS64 r v).core = w.core := by simp [Warp.setS64]
@[simp] theorem Warp.setS64_half (w : Warp) (r : Reg) (v : DWord) : (w.setS64 r v).half = w.half := by simp [Warp.setS64]
@[simp] theorem Warp.setS64_threads (w : Warp) (r : Reg) (v : DWord) : (w.setS64 r v).threads = w.threads := by simp [Warp.setS64]
@[simp] theorem Warp.setS64_cur (w : Warp) (r : Reg) (v : DWord) : (w.setS64 r v).cur = w.cur := by simp [Warp.setS64]
@[simp] theorem Warp.setS64_overflow (w : Warp) (r : Reg) (v : DWord) : (w.setS64 r v).overflow = w.overflow := by simp [Warp.setS64]
@[simp] theorem Warp.setS64_vregs (w : Warp) (r : Reg) (v : DWord) : (w.setS64 r v).vregs = w.vregs := by simp [Warp.setS64]
@[simp] theorem Warp.setS64_preds (w : Warp) (r : Reg) (v : DWord) : (w.setS64 r v).preds = w.preds := by simp [Warp.setS64]
@[simp] theorem Warp.setS64_allot (w : Warp) (r : Reg) (v : DWord) : (w.setS64 r v).allot = w.allot := by simp [Warp.setS64]
@[simp] theorem Warp.setS64_fflags (w : Warp) (r : Reg) (v : DWord) : (w.setS64 r v).fflags = w.fflags := by simp [Warp.setS64]
@[simp] theorem Warp.setS64_clausest (w : Warp) (r : Reg) (v : DWord) : (w.setS64 r v).clausest = w.clausest := by simp [Warp.setS64]
@[simp] theorem Warp.setS64_barcount (w : Warp) (r : Reg) (v : DWord) : (w.setS64 r v).barcount = w.barcount := by simp [Warp.setS64]
@[simp] theorem Warp.setS64_trapcause (w : Warp) (r : Reg) (v : DWord) : (w.setS64 r v).trapcause = w.trapcause := by simp [Warp.setS64]
@[simp] theorem Warp.setS64_trappc (w : Warp) (r : Reg) (v : DWord) : (w.setS64 r v).trappc = w.trappc := by simp [Warp.setS64]
@[simp] theorem Warp.setS64_trapaddr (w : Warp) (r : Reg) (v : DWord) : (w.setS64 r v).trapaddr = w.trapaddr := by simp [Warp.setS64]
@[simp] theorem Warp.setS64_trapli (w : Warp) (r : Reg) (v : DWord) : (w.setS64 r v).trapli = w.trapli := by simp [Warp.setS64]
@[simp] theorem Warp.setS64_trapmask (w : Warp) (r : Reg) (v : DWord) : (w.setS64 r v).trapmask = w.trapmask := by simp [Warp.setS64]
@[simp] theorem Warp.setS64_hold (w : Warp) (r : Reg) (v : DWord) : (w.setS64 r v).hold = w.hold := by simp [Warp.setS64]
@[simp] theorem Warp.setS64_lklast (w : Warp) (r : Reg) (v : DWord) : (w.setS64 r v).lklast = w.lklast := by simp [Warp.setS64]
@[simp] theorem Warp.setS64_clock (w : Warp) (r : Reg) (v : DWord) : (w.setS64 r v).clock = w.clock := by simp [Warp.setS64]
@[simp] theorem Warp.setS64_cycleHi (w : Warp) (r : Reg) (v : DWord) : (w.setS64 r v).cycleHi = w.cycleHi := by simp [Warp.setS64]
@[simp] theorem Warp.setS64_lclockHi (w : Warp) (r : Reg) (v : DWord) : (w.setS64 r v).lclockHi = w.lclockHi := by simp [Warp.setS64]
@[simp] theorem Warp.setS64_rngstream (w : Warp) (r : Reg) (v : DWord) : (w.setS64 r v).rngstream = w.rngstream := by simp [Warp.setS64]
@[simp] theorem Warp.setS64_counters (w : Warp) (r : Reg) (v : DWord) : (w.setS64 r v).counters = w.counters := by simp [Warp.setS64]
@[simp] theorem Warp.setS64_outstanding (w : Warp) (r : Reg) (v : DWord) : (w.setS64 r v).outstanding = w.outstanding := by simp [Warp.setS64]
@[simp] theorem Warp.setS64_reds (w : Warp) (r : Reg) (v : DWord) : (w.setS64 r v).reds = w.reds := by simp [Warp.setS64]
@[simp] theorem Warp.setS64_wound (w : Warp) (r : Reg) (v : DWord) : (w.setS64 r v).wound = w.wound := by simp [Warp.setS64]
@[simp] theorem Warp.setS64_revoked (w : Warp) (r : Reg) (v : DWord) : (w.setS64 r v).revoked = w.revoked := by simp [Warp.setS64]
@[simp] theorem Warp.setS64_issued (w : Warp) (r : Reg) (v : DWord) : (w.setS64 r v).issued = w.issued := by simp [Warp.setS64]
@[simp] theorem Warp.setS64_longSince (w : Warp) (r : Reg) (v : DWord) : (w.setS64 r v).longSince = w.longSince := by simp [Warp.setS64]
@[simp] theorem Warp.setS64_yielded (w : Warp) (r : Reg) (v : DWord) : (w.setS64 r v).yielded = w.yielded := by simp [Warp.setS64]
@[simp] theorem Warp.setS64_passed (w : Warp) (r : Reg) (v : DWord) : (w.setS64 r v).passed = w.passed := by simp [Warp.setS64]

/-! An instruction retires. -/

@[simp] theorem Warp.retired_key (w : Warp) : (w.retired).key = w.key := rfl
@[simp] theorem Warp.retired_live (w : Warp) : (w.retired).live = w.live := rfl
@[simp] theorem Warp.retired_core (w : Warp) : (w.retired).core = w.core := rfl
@[simp] theorem Warp.retired_half (w : Warp) : (w.retired).half = w.half := rfl
@[simp] theorem Warp.retired_threads (w : Warp) : (w.retired).threads = w.threads := rfl
@[simp] theorem Warp.retired_splits (w : Warp) : (w.retired).splits = w.splits := rfl
@[simp] theorem Warp.retired_cur (w : Warp) : (w.retired).cur = w.cur := rfl
@[simp] theorem Warp.retired_overflow (w : Warp) : (w.retired).overflow = w.overflow := rfl
@[simp] theorem Warp.retired_vregs (w : Warp) : (w.retired).vregs = w.vregs := rfl
@[simp] theorem Warp.retired_sregs (w : Warp) : (w.retired).sregs = w.sregs := rfl
@[simp] theorem Warp.retired_preds (w : Warp) : (w.retired).preds = w.preds := rfl
@[simp] theorem Warp.retired_allot (w : Warp) : (w.retired).allot = w.allot := rfl
@[simp] theorem Warp.retired_fflags (w : Warp) : (w.retired).fflags = w.fflags := rfl
@[simp] theorem Warp.retired_clausest (w : Warp) : (w.retired).clausest = w.clausest := rfl
@[simp] theorem Warp.retired_barcount (w : Warp) : (w.retired).barcount = w.barcount := rfl
@[simp] theorem Warp.retired_trapcause (w : Warp) : (w.retired).trapcause = w.trapcause := rfl
@[simp] theorem Warp.retired_trappc (w : Warp) : (w.retired).trappc = w.trappc := rfl
@[simp] theorem Warp.retired_trapaddr (w : Warp) : (w.retired).trapaddr = w.trapaddr := rfl
@[simp] theorem Warp.retired_trapli (w : Warp) : (w.retired).trapli = w.trapli := rfl
@[simp] theorem Warp.retired_trapmask (w : Warp) : (w.retired).trapmask = w.trapmask := rfl
@[simp] theorem Warp.retired_hold (w : Warp) : (w.retired).hold = w.hold := rfl
@[simp] theorem Warp.retired_lklast (w : Warp) : (w.retired).lklast = w.lklast := rfl
@[simp] theorem Warp.retired_cycleHi (w : Warp) : (w.retired).cycleHi = w.cycleHi := rfl
@[simp] theorem Warp.retired_lclockHi (w : Warp) : (w.retired).lclockHi = w.lclockHi := rfl
@[simp] theorem Warp.retired_rngstream (w : Warp) : (w.retired).rngstream = w.rngstream := rfl
@[simp] theorem Warp.retired_counters (w : Warp) : (w.retired).counters = w.counters := rfl
@[simp] theorem Warp.retired_reds (w : Warp) : (w.retired).reds = w.reds := rfl
@[simp] theorem Warp.retired_wound (w : Warp) : (w.retired).wound = w.wound := rfl
@[simp] theorem Warp.retired_revoked (w : Warp) : (w.retired).revoked = w.revoked := rfl
@[simp] theorem Warp.retired_longSince (w : Warp) : (w.retired).longSince = w.longSince := rfl
@[simp] theorem Warp.retired_yielded (w : Warp) : (w.retired).yielded = w.yielded := rfl
@[simp] theorem Warp.retired_passed (w : Warp) : (w.retired).passed = w.passed := rfl
@[simp] theorem Warp.retired_clock (w : Warp) : w.retired.clock = w.clock + 1 := rfl
@[simp] theorem Warp.retired_issued (w : Warp) : w.retired.issued = w.issued + 1 := rfl
@[simp] theorem Warp.retired_sp (w : Warp) : w.retired.sp = w.sp := rfl
@[simp] theorem Split.advance_member (p : Split) : (p.advance).member = p.member := rfl
@[simp] theorem Split.advance_active (p : Split) : (p.advance).active = p.active := rfl
@[simp] theorem Split.advance_trap (p : Split) : (p.advance).trap = p.trap := rfl
@[simp] theorem Split.advance_pc (p : Split) : p.advance.pc = p.pc.next := rfl
@[simp] theorem Split.goTo_member (p : Split) (t : Pc) : (p.goTo t).member = p.member := rfl
@[simp] theorem Split.goTo_active (p : Split) (t : Pc) : (p.goTo t).active = p.active := rfl
@[simp] theorem Split.goTo_trap (p : Split) (t : Pc) : (p.goTo t).trap = p.trap := rfl
@[simp] theorem Split.goTo_pc (p : Split) (t : Pc) : (p.goTo t).pc = t := rfl

/-! A trap is entered, and returned from. -/

@[simp] theorem Warp.enter_key (w : Warp) (base : DWord) (c : Cause) (addr : DWord) (pc li : Pc) : (w.enter base c addr pc li).key = w.key := rfl
@[simp] theorem Warp.enter_live (w : Warp) (base : DWord) (c : Cause) (addr : DWord) (pc li : Pc) : (w.enter base c addr pc li).live = w.live := rfl
@[simp] theorem Warp.enter_core (w : Warp) (base : DWord) (c : Cause) (addr : DWord) (pc li : Pc) : (w.enter base c addr pc li).core = w.core := rfl
@[simp] theorem Warp.enter_half (w : Warp) (base : DWord) (c : Cause) (addr : DWord) (pc li : Pc) : (w.enter base c addr pc li).half = w.half := rfl
@[simp] theorem Warp.enter_threads (w : Warp) (base : DWord) (c : Cause) (addr : DWord) (pc li : Pc) : (w.enter base c addr pc li).threads = w.threads := rfl
@[simp] theorem Warp.enter_cur (w : Warp) (base : DWord) (c : Cause) (addr : DWord) (pc li : Pc) : (w.enter base c addr pc li).cur = w.cur := rfl
@[simp] theorem Warp.enter_overflow (w : Warp) (base : DWord) (c : Cause) (addr : DWord) (pc li : Pc) : (w.enter base c addr pc li).overflow = w.overflow := rfl
@[simp] theorem Warp.enter_vregs (w : Warp) (base : DWord) (c : Cause) (addr : DWord) (pc li : Pc) : (w.enter base c addr pc li).vregs = w.vregs := rfl
@[simp] theorem Warp.enter_sregs (w : Warp) (base : DWord) (c : Cause) (addr : DWord) (pc li : Pc) : (w.enter base c addr pc li).sregs = w.sregs := rfl
@[simp] theorem Warp.enter_preds (w : Warp) (base : DWord) (c : Cause) (addr : DWord) (pc li : Pc) : (w.enter base c addr pc li).preds = w.preds := rfl
@[simp] theorem Warp.enter_allot (w : Warp) (base : DWord) (c : Cause) (addr : DWord) (pc li : Pc) : (w.enter base c addr pc li).allot = w.allot := rfl
@[simp] theorem Warp.enter_fflags (w : Warp) (base : DWord) (c : Cause) (addr : DWord) (pc li : Pc) : (w.enter base c addr pc li).fflags = w.fflags := rfl
@[simp] theorem Warp.enter_barcount (w : Warp) (base : DWord) (c : Cause) (addr : DWord) (pc li : Pc) : (w.enter base c addr pc li).barcount = w.barcount := rfl
@[simp] theorem Warp.enter_lklast (w : Warp) (base : DWord) (c : Cause) (addr : DWord) (pc li : Pc) : (w.enter base c addr pc li).lklast = w.lklast := rfl
@[simp] theorem Warp.enter_clock (w : Warp) (base : DWord) (c : Cause) (addr : DWord) (pc li : Pc) : (w.enter base c addr pc li).clock = w.clock := rfl
@[simp] theorem Warp.enter_cycleHi (w : Warp) (base : DWord) (c : Cause) (addr : DWord) (pc li : Pc) : (w.enter base c addr pc li).cycleHi = w.cycleHi := rfl
@[simp] theorem Warp.enter_lclockHi (w : Warp) (base : DWord) (c : Cause) (addr : DWord) (pc li : Pc) : (w.enter base c addr pc li).lclockHi = w.lclockHi := rfl
@[simp] theorem Warp.enter_rngstream (w : Warp) (base : DWord) (c : Cause) (addr : DWord) (pc li : Pc) : (w.enter base c addr pc li).rngstream = w.rngstream := rfl
@[simp] theorem Warp.enter_counters (w : Warp) (base : DWord) (c : Cause) (addr : DWord) (pc li : Pc) : (w.enter base c addr pc li).counters = w.counters := rfl
@[simp] theorem Warp.enter_outstanding (w : Warp) (base : DWord) (c : Cause) (addr : DWord) (pc li : Pc) : (w.enter base c addr pc li).outstanding = w.outstanding := rfl
@[simp] theorem Warp.enter_reds (w : Warp) (base : DWord) (c : Cause) (addr : DWord) (pc li : Pc) : (w.enter base c addr pc li).reds = w.reds := rfl
@[simp] theorem Warp.enter_wound (w : Warp) (base : DWord) (c : Cause) (addr : DWord) (pc li : Pc) : (w.enter base c addr pc li).wound = w.wound := rfl
@[simp] theorem Warp.enter_revoked (w : Warp) (base : DWord) (c : Cause) (addr : DWord) (pc li : Pc) : (w.enter base c addr pc li).revoked = w.revoked := rfl
@[simp] theorem Warp.enter_issued (w : Warp) (base : DWord) (c : Cause) (addr : DWord) (pc li : Pc) : (w.enter base c addr pc li).issued = w.issued := rfl
@[simp] theorem Warp.enter_longSince (w : Warp) (base : DWord) (c : Cause) (addr : DWord) (pc li : Pc) : (w.enter base c addr pc li).longSince = w.longSince := rfl
@[simp] theorem Warp.enter_yielded (w : Warp) (base : DWord) (c : Cause) (addr : DWord) (pc li : Pc) : (w.enter base c addr pc li).yielded = w.yielded := rfl
@[simp] theorem Warp.enter_passed (w : Warp) (base : DWord) (c : Cause) (addr : DWord) (pc li : Pc) : (w.enter base c addr pc li).passed = w.passed := rfl
@[simp] theorem Warp.enter_trappc (w : Warp) (base : DWord) (c : Cause) (addr : DWord) (pc li : Pc) : (w.enter base c addr pc li).trappc = ofPc pc := rfl
@[simp] theorem Warp.enter_trapaddr (w : Warp) (base : DWord) (c : Cause) (addr : DWord) (pc li : Pc) : (w.enter base c addr pc li).trapaddr = addr := rfl
@[simp] theorem Warp.enter_trapli (w : Warp) (base : DWord) (c : Cause) (addr : DWord) (pc li : Pc) : (w.enter base c addr pc li).trapli = ofPc li := rfl
@[simp] theorem Warp.enter_trapmask (w : Warp) (base : DWord) (c : Cause) (addr : DWord) (pc li : Pc) : (w.enter base c addr pc li).trapmask = true := rfl
@[simp] theorem Warp.enter_hold (w : Warp) (base : DWord) (c : Cause) (addr : DWord) (pc li : Pc) : (w.enter base c addr pc li).hold = some w.cur := rfl
@[simp] theorem Warp.enter_clausest (w : Warp) (base : DWord) (c : Cause) (addr : DWord) (pc li : Pc) : (w.enter base c addr pc li).clausest = clauseWordOpt w.sp.clause := rfl
@[simp] theorem Warp.trapReturn_key (w : Warp) : (w.trapReturn).key = w.key := rfl
@[simp] theorem Warp.trapReturn_live (w : Warp) : (w.trapReturn).live = w.live := rfl
@[simp] theorem Warp.trapReturn_core (w : Warp) : (w.trapReturn).core = w.core := rfl
@[simp] theorem Warp.trapReturn_half (w : Warp) : (w.trapReturn).half = w.half := rfl
@[simp] theorem Warp.trapReturn_threads (w : Warp) : (w.trapReturn).threads = w.threads := rfl
@[simp] theorem Warp.trapReturn_cur (w : Warp) : (w.trapReturn).cur = w.cur := rfl
@[simp] theorem Warp.trapReturn_overflow (w : Warp) : (w.trapReturn).overflow = w.overflow := rfl
@[simp] theorem Warp.trapReturn_vregs (w : Warp) : (w.trapReturn).vregs = w.vregs := rfl
@[simp] theorem Warp.trapReturn_sregs (w : Warp) : (w.trapReturn).sregs = w.sregs := rfl
@[simp] theorem Warp.trapReturn_preds (w : Warp) : (w.trapReturn).preds = w.preds := rfl
@[simp] theorem Warp.trapReturn_allot (w : Warp) : (w.trapReturn).allot = w.allot := rfl
@[simp] theorem Warp.trapReturn_fflags (w : Warp) : (w.trapReturn).fflags = w.fflags := rfl
@[simp] theorem Warp.trapReturn_clausest (w : Warp) : (w.trapReturn).clausest = w.clausest := rfl
@[simp] theorem Warp.trapReturn_barcount (w : Warp) : (w.trapReturn).barcount = w.barcount := rfl
@[simp] theorem Warp.trapReturn_trapcause (w : Warp) : (w.trapReturn).trapcause = w.trapcause := rfl
@[simp] theorem Warp.trapReturn_trappc (w : Warp) : (w.trapReturn).trappc = w.trappc := rfl
@[simp] theorem Warp.trapReturn_trapaddr (w : Warp) : (w.trapReturn).trapaddr = w.trapaddr := rfl
@[simp] theorem Warp.trapReturn_trapli (w : Warp) : (w.trapReturn).trapli = w.trapli := rfl
@[simp] theorem Warp.trapReturn_lklast (w : Warp) : (w.trapReturn).lklast = w.lklast := rfl
@[simp] theorem Warp.trapReturn_clock (w : Warp) : (w.trapReturn).clock = w.clock := rfl
@[simp] theorem Warp.trapReturn_cycleHi (w : Warp) : (w.trapReturn).cycleHi = w.cycleHi := rfl
@[simp] theorem Warp.trapReturn_lclockHi (w : Warp) : (w.trapReturn).lclockHi = w.lclockHi := rfl
@[simp] theorem Warp.trapReturn_rngstream (w : Warp) : (w.trapReturn).rngstream = w.rngstream := rfl
@[simp] theorem Warp.trapReturn_counters (w : Warp) : (w.trapReturn).counters = w.counters := rfl
@[simp] theorem Warp.trapReturn_outstanding (w : Warp) : (w.trapReturn).outstanding = w.outstanding := rfl
@[simp] theorem Warp.trapReturn_reds (w : Warp) : (w.trapReturn).reds = w.reds := rfl
@[simp] theorem Warp.trapReturn_wound (w : Warp) : (w.trapReturn).wound = w.wound := rfl
@[simp] theorem Warp.trapReturn_revoked (w : Warp) : (w.trapReturn).revoked = w.revoked := rfl
@[simp] theorem Warp.trapReturn_issued (w : Warp) : (w.trapReturn).issued = w.issued := rfl
@[simp] theorem Warp.trapReturn_longSince (w : Warp) : (w.trapReturn).longSince = w.longSince := rfl
@[simp] theorem Warp.trapReturn_yielded (w : Warp) : (w.trapReturn).yielded = w.yielded := rfl
@[simp] theorem Warp.trapReturn_passed (w : Warp) : (w.trapReturn).passed = w.passed := rfl
@[simp] theorem Warp.trapReturn_trapmask (w : Warp) : w.trapReturn.trapmask = false := rfl

end Sys2Proof.Machine
end

