-- ==== Sys2Proof/Laws/Registers.lean ====
section
/-! SUPPORT. Registers read after they are written: scalars (R100), vector registers (R7, R98), predicates (R102). -/

namespace Sys2Proof.Machine

/-! Masks. -/

theorem LaneMask.part_eq_iff (m : LaneMask) (k : Nat) (i : Nat) (h : i < 32) :
    (LaneMask.part m k).getLsbD i = m.getLsbD (32 * k + i) := by
  simp [LaneMask.part, h]

theorem LaneMask.getLsbD_ofParts (a b c : Word) (i : Nat) :
    (LaneMask.ofParts a b c).getLsbD i =
      if i < 32 then a.getLsbD i else if i < 64 then b.getLsbD (i - 32) else c.getLsbD (i - 64) := by
  have e : LaneMask.ofParts a b c = c ++ b ++ a := rfl
  rw [e, BitVec.getLsbD_append]
  by_cases h : i < 32
  · simp [h]
  · simp only [h, if_false, BitVec.getLsbD_append]
    by_cases h2 : i < 64
    · simp [h2, show i - 32 < 32 by omega]
    · simp [h2, show ¬ i - 32 < 32 by omega, show i - 32 - 32 = i - 64 by omega]

@[simp] theorem LaneMask.part_ofParts_0 (a b c : Word) : LaneMask.part (LaneMask.ofParts a b c) 0 = a := by
  apply BitVec.eq_of_getLsbD_eq
  intro i h
  rw [LaneMask.part_eq_iff _ _ _ h, LaneMask.getLsbD_ofParts]; simp [h]
@[simp] theorem LaneMask.part_ofParts_1 (a b c : Word) : LaneMask.part (LaneMask.ofParts a b c) 1 = b := by
  apply BitVec.eq_of_getLsbD_eq
  intro i h
  rw [LaneMask.part_eq_iff _ _ _ h, LaneMask.getLsbD_ofParts]
  simp [show 32 + i < 64 by omega]
@[simp] theorem LaneMask.part_ofParts_2 (a b c : Word) : LaneMask.part (LaneMask.ofParts a b c) 2 = c := by
  apply BitVec.eq_of_getLsbD_eq
  intro i h
  rw [LaneMask.part_eq_iff _ _ _ h, LaneMask.getLsbD_ofParts]
  simp [show ¬ 64 + i < 32 by omega]

theorem LaneMask.part_and (a b : LaneMask) (k : Nat) : LaneMask.part (a &&& b) k = LaneMask.part a k &&& LaneMask.part b k := by
  simp [LaneMask.part, BitVec.extractLsb'_and]
theorem LaneMask.part_or (a b : LaneMask) (k : Nat) : LaneMask.part (a ||| b) k = LaneMask.part a k ||| LaneMask.part b k := by
  simp [LaneMask.part, BitVec.extractLsb'_or]

theorem part_maskWithPart (m : LaneMask) (k j : Nat) (v : Word) (hj : j ≤ 2) :
    LaneMask.part (maskWithPart m k v) j = if k = j then v else LaneMask.part m j := by
  unfold maskWithPart
  obtain rfl | rfl | rfl : j = 0 ∨ j = 1 ∨ j = 2 := by omega
  · simp
  · simp
  · simp

theorem LaneMask.part_not (a : LaneMask) (k : Nat) (h : k ≤ 2) : LaneMask.part (~~~a) k = ~~~(LaneMask.part a k) := by
  apply BitVec.eq_of_getLsbD_eq
  intro i hi
  rw [BitVec.getLsbD_not, LaneMask.part_eq_iff _ _ _ hi, LaneMask.part_eq_iff _ _ _ hi, BitVec.getLsbD_not]
  simp [hi, show 32 * k + i < 96 by omega]

theorem Split.writeActive_part (p : Split) (k j : Nat) (v : Word) (hk : k ≤ 2) (hj : j ≤ 2) :
    LaneMask.part (p.writeActive k v).active j =
      if k = j then v &&& LaneMask.part p.member j
      else LaneMask.part p.active j := by
  have z : LaneMask.part (0 : LaneMask) j = 0 := by simp [LaneMask.part]
  simp only [Split.writeActive, LaneMask.part_or, LaneMask.part_and, LaneMask.part_not _ _ hj, part_maskWithPart _ _ _ _ hj]
  by_cases h : k = j
  · simp [h]
  · simp only [if_neg h, z]
    apply BitVec.eq_of_getLsbD_eq
    intro i hi
    have e : (4294967295#32)[i] = true := by
      have : (4294967295#32) = BitVec.allOnes 32 := rfl
      rw [this, BitVec.getElem_allOnes]
    simp [hi, e]
    intro a _
    exact a

theorem LaneMask.getLsbD_foldl (f : Lane → Bool) (L : List Lane) (m : LaneMask) (i : Lane) :
    (L.foldl (fun m l => if f l then m ||| (1#96 <<< l.val) else m) m).getLsbD i.val =
      (m.getLsbD i.val || (f i && decide (i ∈ L))) := by
  induction L generalizing m with
  | nil => simp
  | cons x xs ih =>
    rw [List.foldl_cons, ih]
    by_cases hx : f x = true
    · simp only [hx, if_true]
      by_cases e : i = x
      · subst e
        simp [hx]
      · have hv : i.val ≠ x.val := fun h => e (Fin.ext h)
        have h1 : (1#96 <<< x.val).getLsbD i.val = false := by
          rw [BitVec.getLsbD_shiftLeft]
          by_cases c : i.val < x.val
          · simp [c]
          · simp [c, show i.val - x.val ≠ 0 by omega]
        rw [BitVec.getLsbD_or, h1]
        simp [e]
    · simp only [hx]
      by_cases e : i = x
      · subst e; simp [hx]
      · simp [e]

/-- A mask of the lanes that satisfy a test. -/
theorem LaneMask.getLsbD_ofFn (f : Lane → Bool) (i : Lane) : (LaneMask.ofFn f).getLsbD i.val = f i := by
  unfold LaneMask.ofFn
  rw [LaneMask.getLsbD_foldl]
  simp

/-! Scalars. -/

@[simp] theorem Warp.s_zero (w : Warp) : w.s 0 = 0 := rfl
@[simp] theorem Warp.setS_zero (w : Warp) (v : Word) : w.setS 0 v = w := rfl

theorem Warp.s_setS_self (w : Warp) (r : Reg) (v : Word) (h0 : r.val ≠ 0) (h1 : r.val < 120 ∨ 122 < r.val) :
    (w.setS r v).s r = v := by
  have h : ¬(120 ≤ r.val ∧ r.val ≤ 122) := by omega
  simp [Warp.setS, Warp.s, h0, h]

/-- A write of the activity mask keeps it within the membership (R100). -/
theorem Warp.s_setS_mask (w : Warp) (r : Reg) (v : Word) (h : 120 ≤ r.val ∧ r.val ≤ 122) :
    (w.setS r v).s r = v &&& LaneMask.part w.sp.member (r.val - 120) := by
  have h0 : r.val ≠ 0 := by omega
  simp only [Warp.setS, Warp.s, h0, h, if_false, and_self, if_true, Warp.modSp_sp]
  rw [Split.writeActive_part _ _ _ _ (by omega) (by omega)]
  simp

theorem Warp.s_setS_ne (w : Warp) (r q : Reg) (v : Word) (h : q ≠ r) : (w.setS r v).s q = w.s q := by
  have hv : q.val ≠ r.val := fun e => h (Fin.ext e)
  by_cases h0 : r.val = 0
  · simp [Warp.setS, h0]
  by_cases hm : 120 ≤ r.val ∧ r.val ≤ 122
  · simp only [Warp.setS, h0, hm, if_false, and_self, if_true, Warp.s]
    by_cases q0 : q.val = 0
    · simp [q0]
    by_cases qm : 120 ≤ q.val ∧ q.val ≤ 122
    · simp only [q0, qm, if_false, and_self, if_true, Warp.modSp_sp]
      rw [Split.writeActive_part _ _ _ _ (by omega) (by omega)]
      rw [if_neg (by omega)]
    · simp [q0, qm]
  · have e : w.setS r v = { w with sregs := w.sregs.set r v } := by simp [Warp.setS, h0, hm]
    rw [e]
    simp only [Warp.s, Warp.sp]
    by_cases q0 : q.val = 0
    · simp [q0]
    by_cases qm : 120 ≤ q.val ∧ q.val ≤ 122
    · simp [q0, qm]
    · simp only [q0, qm, if_false]
      exact Vector.getElem_set_ne _ _ (fun e => hv e.symm)

/-! Vector registers. -/

theorem VReg.getElem_write (old : VReg) (m : LaneMask) (f : Lane → Word) (l : Lane) :
    (VReg.write old m f)[l] = if LaneMask.has m l then f l else old[l] := by
  simp [VReg.write]

theorem Warp.v_setV_self (w : Warp) (r : Reg) (m : LaneMask) (f : Lane → Word) (l : Lane) :
    (w.setV r m f).v r l = if LaneMask.has m l then f l else w.v r l := by
  simp [Warp.setV, Warp.v, VReg.write]

theorem Warp.v_setV_ne (w : Warp) (r q : Reg) (m : LaneMask) (f : Lane → Word) (l : Lane) (h : q ≠ r) :
    (w.setV r m f).v q l = w.v q l := by
  have hv : r.val ≠ q.val := fun e => h (Fin.ext e.symm)
  simp only [Warp.setV, Warp.v]
  congr 1
  exact Vector.getElem_set_ne _ _ hv

@[simp] theorem Warp.setV_sp (w : Warp) (r : Reg) (m : LaneMask) (f : Lane → Word) : (w.setV r m f).sp = w.sp := rfl
@[simp] theorem Warp.setV_s (w : Warp) (r q : Reg) (m : LaneMask) (f : Lane → Word) : (w.setV r m f).s q = w.s q := rfl
@[simp] theorem Warp.setV_p (w : Warp) (r : Reg) (k : PReg) (m : LaneMask) (f : Lane → Word) : (w.setV r m f).p k = w.p k := rfl
@[simp] theorem Warp.setV_guarded (w : Warp) (r : Reg) (m : LaneMask) (f : Lane → Word) :
    (w.setV r m f).guarded = w.guarded := rfl

/-! The words of a pair (R5). -/

@[simp] theorem lowWord_joinWords (a b : Word) : lowWord (joinWords a b) = a := by
  apply BitVec.eq_of_getLsbD_eq
  intro i h
  rw [lowWord, joinWords, BitVec.getLsbD_extractLsb', BitVec.getLsbD_append]
  simp [h]
@[simp] theorem highWord_joinWords (a b : Word) : highWord (joinWords a b) = b := by
  apply BitVec.eq_of_getLsbD_eq
  intro i h
  rw [highWord, joinWords, BitVec.getLsbD_extractLsb', BitVec.getLsbD_append]
  simp [h]
@[simp] theorem joinWords_low_high (v : DWord) : joinWords (lowWord v) (highWord v) = v := by
  apply BitVec.eq_of_getLsbD_eq
  intro i h
  rw [joinWords, BitVec.getLsbD_append, lowWord, highWord, BitVec.getLsbD_extractLsb', BitVec.getLsbD_extractLsb']
  by_cases h2 : i < 32
  · simp [h2]
  · simp [h2, show i - 32 < 32 by omega, show 32 + (i - 32) = i by omega]

theorem reg_add_one_ne (r : Reg) : r + 1 ≠ r := by
  intro e
  have := congrArg Fin.val e
  rw [Fin.val_add] at this
  have h := r.isLt
  simp at this
  omega

theorem Warp.v64_setV64_self (w : Warp) (r : Reg) (m : LaneMask) (f : Lane → DWord) (l : Lane) :
    (w.setV64 r m f).v64 r l = if LaneMask.has m l then f l else w.v64 r l := by
  have h := reg_add_one_ne r
  simp only [Warp.v64, Warp.setV64, Warp.v_setV_self, Warp.v_setV_ne _ _ _ _ _ _ h, Warp.v_setV_ne _ _ _ _ _ _ h.symm]
  by_cases e : LaneMask.has m l = true <;> simp [e]

/-- Two registers of 32 bits or a pair, as a number, after a write (R5, R98). -/
theorem Warp.vNat_setVNat_self (w : Warp) (r : Reg) (t : Ty) (ht : t.regs = 1 ∨ t.regs = 2) (m : LaneMask) (f : Lane → Nat)
    (l : Lane) :
    (w.setVNat r t.regs m f).vNat r t.regs l =
      if LaneMask.has m l then f l % 2 ^ (32 * t.regs) else w.vNat r t.regs l := by
  obtain h | h := ht
  · simp only [h, Warp.setVNat, Warp.vNat, Warp.v_setV_self]
    by_cases e : LaneMask.has m l = true <;> simp [e]
  · simp only [h, Warp.setVNat, Warp.vNat, Warp.v64_setV64_self]
    by_cases e : LaneMask.has m l = true <;> simp [e]

/-- A vector register outside the ones written keeps every lane. -/
theorem Warp.v_setVNat_ne (w : Warp) (r q : Reg) (n : Nat) (m : LaneMask) (f : Lane → Nat) (l : Lane)
    (h : ∀ i < max n 1, q ≠ r + Fin.ofNat 128 i) : (w.setVNat r n m f).v q l = w.v q l := by
  have h0 : q ≠ r := by simpa using h 0 (by omega)
  unfold Warp.setVNat
  split
  · have h1 : q ≠ r + 1 := h 1 (by omega)
    simp [Warp.setV64, Warp.v_setV_ne _ _ _ _ _ _ h0, Warp.v_setV_ne _ _ _ _ _ _ h1]
  · have h1 : q ≠ r + 1 := h 1 (by omega)
    have h2 : q ≠ r + 2 := h 2 (by omega)
    have h3 : q ≠ r + 2 + 1 := by
      have := h 3 (by omega)
      rw [add_assoc]; exact this
    simp [Warp.setV64, Warp.v_setV_ne _ _ _ _ _ _ h0, Warp.v_setV_ne _ _ _ _ _ _ h1, Warp.v_setV_ne _ _ _ _ _ _ h2,
      Warp.v_setV_ne _ _ _ _ _ _ h3]
  · simp [Warp.v_setV_ne _ _ _ _ _ _ h0]

/-! Predicates. -/

@[simp] theorem Warp.p_zero (w : Warp) : w.p 0 = ~~~0 := rfl
@[simp] theorem Warp.setP_zero (w : Warp) (m bits : LaneMask) : w.setP 0 m bits = w := rfl
theorem Warp.p_setP_self (w : Warp) (k : PReg) (m bits : LaneMask) (h : k.val ≠ 0) :
    (w.setP k m bits).p k = (w.p k &&& ~~~m ||| bits &&& m) := by
  simp [Warp.setP, Warp.p, h]
theorem Warp.p_setP_ne (w : Warp) (k q : PReg) (m bits : LaneMask) (h : q ≠ k) : (w.setP k m bits).p q = w.p q := by
  have hv : k.val ≠ q.val := fun e => h (Fin.ext e.symm)
  unfold Warp.setP
  split
  · rfl
  · simp only [Warp.p]
    split
    · rfl
    · exact Vector.getElem_set_ne _ _ hv

/-! What retirement leaves of the registers. -/

@[simp] theorem Warp.setSp_sregs' (w : Warp) (p : Split) (r : Reg) (h : p.active = w.sp.active) : (w.setSp p).s r = w.s r := by
  simp [Warp.s, h]
@[simp] theorem Warp.retired_s (w : Warp) (r : Reg) : w.retired.s r = w.s r := rfl
@[simp] theorem Warp.advance_s (w : Warp) (r : Reg) : (w.modSp Split.advance).s r = w.s r := by
  simp [Warp.s]
@[simp] theorem Warp.retired_v (w : Warp) (r : Reg) (l : Lane) : w.retired.v r l = w.v r l := rfl
@[simp] theorem Warp.modSp_v (w : Warp) (f : Split → Split) (r : Reg) (l : Lane) : (w.modSp f).v r l = w.v r l := rfl
@[simp] theorem Warp.retired_vNat (w : Warp) (r : Reg) (n : Nat) (l : Lane) : w.retired.vNat r n l = w.vNat r n l := rfl
@[simp] theorem Warp.modSp_vNat (w : Warp) (f : Split → Split) (r : Reg) (n : Nat) (l : Lane) :
    (w.modSp f).vNat r n l = w.vNat r n l := rfl
@[simp] theorem Warp.retired_p (w : Warp) (k : PReg) : w.retired.p k = w.p k := rfl
@[simp] theorem Warp.modSp_p (w : Warp) (f : Split → Split) (k : PReg) : (w.modSp f).p k = w.p k := rfl

end Sys2Proof.Machine
end

