-- ==== Sys2Proof/Laws/Issue.lean ====
section
/-! SUPPORT. What the frame in which every instruction issues can do: the gate, the windows, the causes that every instruction
shares, its own rule, and the entry of a trap. -/

namespace Sys2Proof.Machine

theorem Warp.complete_nil (w : Warp) (p : LongOp → Bool) (h : w.outstanding = []) : w.complete p = w := by
  cases w; subst h; rfl

/-- No access of the running warp waits when nothing is outstanding. -/
theorem State.performLong_nil (s : State) (p : LongOp → Bool) (h : s.warp.outstanding = []) : s.performLong p = s := by
  simp [State.performLong, h]

theorem Warp.drain_nil (w : Warp) (p : LongOp → Bool) (h : w.outstanding = []) : w.drain p = (w, none) := by
  unfold Warp.drain
  simp only [w.complete_nil p h]
  cases w; subst h; rfl

theorem State.drain_nil (s : State) (p : LongOp → Bool) (h : s.warp.outstanding = []) : s.drain p = (s, none) := by
  unfold State.drain
  simp only [s.performLong_nil p h, Warp.drain_nil _ _ h]

theorem State.modWarp_self (s : State) (f : Warp → Warp) (h : f s.warp = s.warp) : s.modWarp f = s := by
  cases s; simp only [State.modWarp] at *; rw [h]

theorem State.complete_nil (s : State) (p : LongOp → Bool) (h : s.warp.outstanding = []) : s.complete p = s := by
  unfold State.complete
  rw [s.performLong_nil p h, State.modWarp_self _ _ (Warp.complete_nil _ _ h)]

theorem State.drainSplit_nil (s : State) (h : s.warp.outstanding = []) : s.drainSplit = (s, none) := by
  unfold State.drainSplit
  simp only [s.complete_nil _ h, s.drain_nil _ h]

/-- With nothing outstanding, a cause that a rule ends in is the instruction's own. -/
theorem State.raise_clear (s t : State) (c : Cause) (a : DWord) (h : s.warp.outstanding = []) :
    s.raise t c a = t.trapHere c a := by
  unfold State.raise
  rw [s.drainSplit_nil h]

/-- With nothing outstanding, an instruction ends in its first shared cause, or in its own rule. -/
theorem State.issue_clear (s : State) (i : Instr) (f : Form) (rule : State → Res) (h : s.clearFor f.sync) :
    s.issue i f rule = match s.firstCause i f with
      | some (c, a) => s.trapHere c a
      | none => s.finish (rule s) := by
  obtain ⟨hg, ho⟩ := h
  unfold State.issue
  rw [if_neg (by simp [hg])]
  simp only [s.performLong_nil _ ho, s.complete_nil _ ho, s.drain_nil _ ho]
  cases e : s.firstCause i f with
  | some x => rfl
  | none =>
    dsimp only
    cases rule s with
    | trap t c a => exact s.raise_clear t c a ho
    | _ => rfl

theorem State.issue_rule (s : State) (i : Instr) (f : Form) (rule : State → Res) (h : s.clearFor f.sync)
    (hc : s.firstCause i f = none) : s.issue i f rule = s.finish (rule s) := by
  rw [State.issue_clear _ _ _ _ h, hc]

theorem State.issue_cause (s : State) (i : Instr) (f : Form) (rule : State → Res) (h : s.clearFor f.sync) (c : Cause)
    (a : DWord) (hc : s.firstCause i f = some (c, a)) : s.issue i f rule = s.trapHere c a := by
  rw [State.issue_clear _ _ _ _ h, hc]

/-- An instruction whose rule only computes has its effect and retires. -/
theorem State.compute_clear (s : State) (i : Instr) (f : Form) (g : Warp → Warp) (h : s.clearFor f.sync)
    (hc : s.firstCause i f = none) : s.compute i f g = s.after g := by
  unfold State.compute
  rw [State.issue_rule _ _ _ _ h hc]
  rfl

/-- No shared cause: no field makes it ill-formed, every register is allotted, the type is accepted, and nothing is
outstanding (R48, R53, R60, R61). -/
theorem State.firstCause_none (s : State) (i : Instr) (f : Form) (ho : s.warp.outstanding = []) (h1 : f.undef = false)
    (h2 : ∀ r ∈ f.use.vr ++ f.use.vw, r < s.warp.allot) (h3 : f.badType = false) : s.firstCause i f = none := by
  unfold State.firstCause
  have e : (f.use.vr ++ f.use.vw).any (fun r => decide (s.warp.allot ≤ r)) = false := by
    rw [List.any_eq_false]
    intro r hr
    have := h2 r hr
    simp; omega
  simp [h1, h3, e, ho]

/-- An instruction of no vector operand that accepts every clause type. -/
theorem State.firstCause_scalar (s : State) (i : Instr) (f : Form) (ho : s.warp.outstanding = []) (h1 : f.undef = false)
    (h2 : f.use.vr = []) (h3 : f.use.vw = []) (h4 : f.badType = false) : s.firstCause i f = none :=
  s.firstCause_none i f ho h1 (by simp [h2, h3]) h4

theorem State.compute_scalar (s : State) (i : Instr) (f : Form) (g : Warp → Warp) (h : s.clearFor f.sync)
    (h1 : f.undef = false) (h2 : f.use.vr = []) (h3 : f.use.vw = []) (h4 : f.badType = false) :
    s.compute i f g = s.after g :=
  s.compute_clear i f g h (s.firstCause_scalar i f h.2 h1 h2 h3 h4)

theorem mem_span (r : Reg) (n x : Nat) : x ∈ span r n ↔ ∃ i < n, x = r.val + i := by
  simp [span]; constructor <;> rintro ⟨i, h, rfl⟩ <;> exact ⟨i, h, rfl⟩

/-- Operands that fit raise neither UNDEF nor REGBOUND in a form of one operand type. -/
theorem State.vform_none (s : State) (i : Instr) (t : Ty) (cls : Cls) (reads writes : List Reg) (sr : List Nat) (f : Form)
    (ho : s.warp.outstanding = []) (hf : s.fits t (reads ++ writes))
    (e1 : f.undef = (s.vform true t cls reads writes sr).undef)
    (e2 : f.use.vr = (s.vform true t cls reads writes sr).use.vr)
    (e3 : f.use.vw = (s.vform true t cls reads writes sr).use.vw) (e4 : f.badType = false) : s.firstCause i f = none := by
  refine s.firstCause_none i f ho ?_ ?_ e4
  · rw [e1]
    simp only [State.vform, Bool.true_and, if_true]
    rw [List.any_eq_false]
    intro r hr
    simp [(hf r hr).1]
  · intro x hx
    rw [e2, e3] at hx
    simp only [State.vform, if_true, List.mem_append, List.mem_flatMap] at hx
    obtain ⟨r, hr, hx⟩ | ⟨r, hr, hx⟩ := hx
    all_goals
      rw [mem_span] at hx
      obtain ⟨j, hj, rfl⟩ := hx
      have := (hf r (by simp [hr])).2
      omega

theorem State.compute_vform (s : State) (i : Instr) (ok : Bool) (t : Ty) (reads writes : List Reg) (sr : List Nat)
    (g : Warp → Warp) (h : s.clearFor false) (hok : ok = true) (hf : s.fits t (reads ++ writes)) :
    s.compute i (s.vform ok t .s reads writes sr) g = s.after g := by
  subst hok
  exact s.compute_clear i _ g h (s.vform_none i t .s reads writes sr _ h.2 hf rfl rfl rfl rfl)

/-! Traps. -/

theorem State.trapHere_clear (s : State) (c : Cause) (a : DWord) (h : s.warp.outstanding = []) :
    s.trapHere c a = s.takeTrap c a s.warp.sp.pc 0 := by
  unfold State.trapHere
  rw [State.drainSplit_nil _ h]

theorem State.flushReds_nil (s : State) (h : s.warp.reds = []) : s.flushReds = s := by
  unfold State.flushReds
  rw [h, List.foldl_nil]
  apply State.modWarp_self
  cases e : s.warp
  rw [e] at h
  simp only at h
  subst h
  rfl

theorem State.mustCommit_nil (s : State) (h : s.warp.reds = []) : s.mustCommit = false := by
  simp [State.mustCommit, h]

theorem State.performWrites_none (s : State) (p : LateWrite → Bool) (h : ∀ x ∈ s.late, p x = false) :
    s.performWrites p = s := by
  have e : s.late.filter p = [] := List.filter_eq_nil_iff.2 fun x hx => by simp [h x hx]
  have e' : (s.late.filter fun x => !p x) = s.late := List.filter_eq_self.2 fun x hx => by simp [h x hx]
  unfold State.performWrites
  simp only [e, e', List.foldl_nil]

/-- Nothing of the running warp is left to be performed. -/
theorem State.flushOwn_clear (s : State) (ho : s.warp.outstanding = []) (h : s.mayEnter) : s.flushOwn = s := by
  unfold State.flushOwn State.flushPlain
  rw [s.performLong_nil _ ho, s.performWrites_none _ fun x hx => by simpa using h.2.2.2 x hx, s.flushReds_nil h.2.1]

/-- A trap enters at once (R383). -/
theorem State.takeTrap_enters (s : State) (c : Cause) (a : DWord) (pc li : Pc) (ho : s.warp.outstanding = [])
    (h : s.mayEnter) (hc : c ≠ .doublefault) :
    s.takeTrap c a pc li = s.modWarp fun w => w.enter s.trapBase c a pc li := by
  unfold State.takeTrap
  simp only [s.complete_nil _ ho, s.flushOwn_clear ho h]
  rw [if_neg (by simp [h.1, hc]), if_neg (by simp [s.mustCommit_nil h.2.1]), if_neg (by simp [h.2.2.1])]

theorem State.trapHere_enters (s : State) (c : Cause) (a : DWord) (ho : s.warp.outstanding = []) (h : s.mayEnter)
    (hc : c ≠ .doublefault) : s.trapHere c a = s.entered c a := by
  rw [State.trapHere_clear _ _ _ ho, State.takeTrap_enters _ _ _ _ _ ho h hc]
  rfl

/-! The state after an effect on the running warp. -/

/-- Only what an effect makes of the running warp counts. -/
theorem State.after_congr {s : State} {g g' : Warp → Warp} (h : g s.warp = g' s.warp) : s.after g = s.after g' := by
  unfold State.after State.modWarp
  rw [h]

@[simp] theorem State.after_warp (s : State) (g : Warp → Warp) :
    (s.after g).warp = ((g s.warp).modSp Split.advance).retired := rfl
@[simp] theorem State.after_mem (s : State) (g : Warp → Warp) : (s.after g).mem = s.mem := rfl
@[simp] theorem State.after_others (s : State) (g : Warp → Warp) : (s.after g).others = s.others := rfl
@[simp] theorem State.after_caches (s : State) (g : Warp → Warp) : (s.after g).caches = s.caches := rfl
@[simp] theorem State.after_groups (s : State) (g : Warp → Warp) : (s.after g).groups = s.groups := rfl
@[simp] theorem State.after_contexts (s : State) (g : Warp → Warp) : (s.after g).contexts = s.contexts := rfl

end Sys2Proof.Machine
end

