-- ==== Sys2Proof/Laws/Rules.lean ====
section
/-! SUPPORT. One spec lemma for each shared rule of the computing instructions: under plain premises it has its effect on the
running warp and retires. -/

namespace Sys2Proof.Machine

theorem State.fits_of_within (s : State) (t : Ty) (rs : List Reg) (ht : t.regs = 1) (h : s.within rs) : s.fits t rs := by
  intro r hr
  have := h r hr
  rw [ht]
  exact ⟨Nat.mod_one _, this⟩

/-- A form of single registers that takes the guard and no type. -/
theorem State.compute_b32 (s : State) (i : Instr) (reads writes : List Reg) (sr : List Nat) (g : Warp → Warp)
    (h : s.clearFor false) (hw : s.within (reads ++ writes)) :
    s.compute i (s.vform true .b32 .s reads writes sr) g = s.after g :=
  s.compute_vform i true .b32 reads writes sr g h rfl (s.fits_of_within _ _ rfl hw)

theorem State.salu_clear (s : State) (i : Instr) (d a b : Reg) (f : Word → Word → Word) (h : s.clearFor false) :
    s.salu i d a b f = s.after fun w => w.setS d (f (s.warp.s a) (s.warp.s b)) := by
  unfold State.salu
  rw [State.compute_scalar _ _ _ _ h rfl rfl rfl rfl]
  exact State.after_congr rfl

theorem State.sun_clear (s : State) (i : Instr) (d a : Reg) (f : Word → Word) (h : s.clearFor false) :
    s.sun i d a f = s.after fun w => w.setS d (f (s.warp.s a)) := by
  unfold State.sun
  rw [State.compute_scalar _ _ _ _ h rfl rfl rfl rfl]
  exact State.after_congr rfl

theorem State.salu64_clear (s : State) (i : Instr) (d a b : Reg) (f : DWord → DWord → DWord) (h : s.clearFor false) :
    s.salu64 i d a b f = s.after fun w => w.setS64 d (f (s.warp.s64 a) (s.warp.s64 b)) := by
  unfold State.salu64
  rw [State.compute_scalar _ _ _ _ h rfl rfl rfl rfl]
  exact State.after_congr rfl

theorem State.palu_clear (s : State) (i : Instr) (d : PReg) (reads : List PReg) (f : Warp → LaneMask)
    (h : s.clearFor false) : s.palu i d reads f = s.after fun w => w.setP d s.warp.guarded (f s.warp) := by
  unfold State.palu
  rw [State.compute_scalar _ _ _ _ h rfl rfl rfl rfl]
  exact State.after_congr rfl

theorem State.valu_clear (s : State) (i : Instr) (d a b : Reg) (f : ElemOp) (h : s.clearFor false)
    (ht : (s.warp.ty .i32).isInt = true) (hf : s.fits (s.warp.ty .i32) [a, b, d]) :
    s.valu i d a b f = s.after fun w => w.setVNat d (s.warp.ty .i32).regs s.warp.guarded fun l =>
      f.lane (s.warp.ty .i32) (s.warp.vNat a (s.warp.ty .i32).regs l) (s.warp.vNat b (s.warp.ty .i32).regs l) := by
  unfold State.valu
  rw [State.compute_vform _ _ _ _ _ _ _ _ h ht hf]
  exact State.after_congr rfl

theorem State.valuScalar_clear (s : State) (i : Instr) (d a b : Reg) (f : ElemOp) (h : s.clearFor false)
    (ht : (s.warp.ty .i32).isInt = true) (hf : s.fits (s.warp.ty .i32) [a, d])
    (hb : b.val % (s.warp.ty .i32).regs = 0) :
    s.valuScalar i d a b f = s.after fun w => w.setVNat d (s.warp.ty .i32).regs s.warp.guarded fun l =>
      f.lane (s.warp.ty .i32) (s.warp.vNat a (s.warp.ty .i32).regs l) (s.warp.sNat b (s.warp.ty .i32).regs) := by
  unfold State.valuScalar
  rw [State.compute_clear _ _ _ _ h]
  · exact State.after_congr rfl
  · refine s.vform_none i (s.warp.ty .i32) .s [a] [d] (span b (s.warp.ty .i32).regs) _ h.2 hf ?_ ?_ ?_ ?_
    · simp [ht, hb]
    · simp [ht]
    · simp [ht]
    · simp [State.vform, ht]

theorem State.valuImm_clear (s : State) (i : Instr) (d a : Reg) (imm : BitVec 11) (f : ElemOp) (h : s.clearFor false)
    (ht : (s.warp.ty .i32).isInt = true) (hf : s.fits (s.warp.ty .i32) [a, d]) :
    s.valuImm i d a imm f = s.after fun w => w.setVNat d (s.warp.ty .i32).regs s.warp.guarded fun l =>
      mapElems (s.warp.ty .i32).elemBits (s.warp.ty .i32).elems fun e =>
        f (s.warp.ty .i32) (elemOf (s.warp.ty .i32).elemBits e (s.warp.vNat a (s.warp.ty .i32).regs l))
          (wrapTo (s.warp.ty .i32).elemBits imm.toInt) := by
  unfold State.valuImm
  rw [State.compute_vform _ _ _ _ _ _ _ _ h ht hf]
  exact State.after_congr rfl

theorem State.vmadBy_clear (s : State) (i : Instr) (d a b : Reg) (f : Ty → Nat → Nat → Nat → Nat) (h : s.clearFor false)
    (ht : (s.warp.ty .i32).isInt = true) (hf : s.fits (s.warp.ty .i32) [a, b, d]) :
    s.vmadBy i d a b f = s.after fun w => w.setVNat d (s.warp.ty .i32).regs s.warp.guarded fun l =>
      mapElems (s.warp.ty .i32).elemBits (s.warp.ty .i32).elems fun e =>
        f (s.warp.ty .i32) (elemOf (s.warp.ty .i32).elemBits e (s.warp.vNat d (s.warp.ty .i32).regs l))
          (elemOf (s.warp.ty .i32).elemBits e (s.warp.vNat a (s.warp.ty .i32).regs l))
          (elemOf (s.warp.ty .i32).elemBits e (s.warp.vNat b (s.warp.ty .i32).regs l)) := by
  unfold State.vmadBy
  rw [State.compute_vform _ _ _ _ _ _ _ _ h ht]
  · exact State.after_congr rfl
  · intro r hr
    exact hf r (by simp at hr ⊢; tauto)

theorem State.vbit1_clear (s : State) (i : Instr) (d a : Reg) (f : Ty → Nat → Nat) (h : s.clearFor false)
    (ht : (s.warp.ty .i32).isInt = true) (hf : s.fits (s.warp.ty .i32) [a, d]) :
    s.vbit1 i d a f = s.after fun w => w.setVNat d (s.warp.ty .i32).regs s.warp.guarded fun l =>
      mapElems (s.warp.ty .i32).elemBits (s.warp.ty .i32).elems fun e =>
        f (s.warp.ty .i32) (elemOf (s.warp.ty .i32).elemBits e (s.warp.vNat a (s.warp.ty .i32).regs l)) := by
  unfold State.vbit1
  rw [State.compute_vform _ _ _ _ _ _ _ _ h ht hf]
  exact State.after_congr rfl

end Sys2Proof.Machine
end

