-- ==== Sys2Proof/Laws/Float.lean ====
section
/-! SUPPORT. What the frame of a short floating instruction can do (R131, R134, R152). -/

namespace Sys2Proof.Machine

theorem Warp.setV_congr (w : Warp) (r : Reg) (m : LaneMask) (f g : Lane → Word) (h : ∀ l, LaneMask.has m l = true → f l = g l) :
    w.setV r m f = w.setV r m g := by
  have e : VReg.write w.vregs[r] m f = VReg.write w.vregs[r] m g := by
    unfold VReg.write
    congr 1
    funext l
    by_cases c : LaneMask.has m l = true
    · simp only [c, if_true, h l c]
    · simp only [c]; rfl
  unfold Warp.setV
  rw [e]

theorem Warp.setV64_congr (w : Warp) (r : Reg) (m : LaneMask) (f g : Lane → DWord)
    (h : ∀ l, LaneMask.has m l = true → f l = g l) : w.setV64 r m f = w.setV64 r m g := by
  unfold Warp.setV64
  rw [Warp.setV_congr w r m (fun l => lowWord (f l)) (fun l => lowWord (g l)) fun l hl => by rw [h l hl]]
  exact Warp.setV_congr _ _ _ _ _ fun l hl => by rw [h l hl]

theorem Warp.setVNat_congr (w : Warp) (r : Reg) (n : Nat) (m : LaneMask) (f g : Lane → Nat)
    (h : ∀ l, LaneMask.has m l = true → f l = g l) : w.setVNat r n m f = w.setVNat r n m g := by
  unfold Warp.setVNat
  split
  · exact Warp.setV64_congr _ _ _ _ _ fun l hl => by rw [h l hl]
  · rw [Warp.setV64_congr w r m (fun l => BitVec.ofNat 64 (f l)) (fun l => BitVec.ofNat 64 (g l)) fun l hl => by rw [h l hl]]
    exact Warp.setV64_congr _ _ _ _ _ fun l hl => by rw [h l hl]
  · exact Warp.setV_congr _ _ _ _ _ fun l hl => by rw [h l hl]

theorem gatherFlags_eq (s : State) (rm : Rm) (f : LaneOp) :
    gatherFlags (laneResults s.hdr s.warp (rm == .sr) f) = s.raised fun l => f l (s.draw rm l) := by
  unfold gatherFlags laneResults State.raised LaneMask.lanes
  have e : (Vector.ofFn fun l : Lane => if LaneMask.has s.warp.guarded l = true then
      f l fun e => if (rm == .sr) = true then (drawAt s.hdr s.warp l e).toNat % 2 ^ 24 else 0 else []).toList =
      (List.finRange 96).map fun l => if LaneMask.has s.warp.guarded l = true then f l (s.draw rm l) else [] := by
    rw [Vector.toList_ofFn, List.ofFn_eq_map]
    apply List.map_congr_left
    intro l _
    split
    · congr 1
      funext e
      simp [State.draw]
    · rfl
  rw [e, List.foldl_map]
  generalize List.finRange 96 = L
  suffices ∀ n, L.foldl (fun n l => (if LaneMask.has s.warp.guarded l = true then f l (s.draw rm l) else []).foldl
      (fun n x => n ||| x.2) n) n = (L.filter (LaneMask.has s.warp.guarded)).foldl
      (fun n l => (f l (s.draw rm l)).foldl (fun n x => n ||| x.2) n) n from this 0
  intro n
  induction L generalizing n with
  | nil => rfl
  | cons x xs ih =>
    rw [List.foldl_cons, ih]
    by_cases c : LaneMask.has s.warp.guarded x = true
    · simp [c]
    · simp [c]

theorem laneResults_get (s : State) (rm : Rm) (f : LaneOp) (l : Lane) (h : LaneMask.has s.warp.guarded l = true) :
    (laneResults s.hdr s.warp (rm == .sr) f)[l] = f l (s.draw rm l) := by
  unfold laneResults
  simp only [Fin.getElem_fin, Vector.getElem_ofFn, h, if_true]
  congr 1
  funext e
  simp [State.draw]

theorem bitsOf_or_low (a b : Nat) (h : b < 256) : bitsOf (a ||| b) 8 5 = bitsOf a 8 5 := by
  unfold bitsOf
  rw [← Nat.shiftRight_eq_div_pow, ← Nat.shiftRight_eq_div_pow, Nat.shiftRight_or_distrib]
  have : b >>> 8 = 0 := by rw [Nat.shiftRight_eq_div_pow]; omega
  rw [this, Nat.or_zero]

/-- What is written and drawn does not touch the trap enables. -/
theorem Warp.flagTrap_raise (w v : Warp) (fl : Nat) (sr : Bool) (k : Nat) (h : v.fflags = w.fflags) :
    ((v.drew sr k).raiseFlags fl).flagTrap fl = w.flagTrap fl := by
  unfold Warp.flagTrap
  have e : bitsOf ((v.drew sr k).raiseFlags fl).fflags.toNat 8 5 = bitsOf w.fflags.toNat 8 5 := by
    unfold Warp.raiseFlags
    simp only [BitVec.toNat_or, BitVec.toNat_ofNat]
    rw [bitsOf_or_low _ _ (by omega)]
    unfold Warp.drew
    split
    · unfold Warp.advance
      simp only []
      split
      · rw [BitVec.toNat_or, bitsOf_or_low _ _ (by decide), h]
      · rw [h]
    · rw [h]
  rw [e]

/-- A short floating instruction, under plain premises. -/
theorem State.floatOp_floats (s : State) (i : Instr) (form : Form) (rm : Rm) (k : Nat) (f : Warp → LaneOp)
    (write : Warp → Vector (List (Nat × Nat)) 96 → Warp) (W : Warp → Warp) (h : s.clearFor false) (hs : form.sync = false)
    (hc : s.firstCause i form = none) (he : exec i s = .next (s.floatOp i form rm k f write))
    (hw : write s.warp (laneResults s.hdr s.warp (rm == .sr) (f s.warp)) = W s.warp)
    (h1 : (W s.warp).fflags = s.warp.fflags) (h2 : (W s.warp).outstanding = s.warp.outstanding)
    (h3 : (W s.warp).trapmask = s.warp.trapmask) (h4 : (W s.warp).reds = s.warp.reds)
    (h5 : (W s.warp).key = s.warp.key) (h6 : (W s.warp).splits = s.warp.splits) (h7 : (W s.warp).cur = s.warp.cur) :
    s.floats i rm k (fun l => f s.warp l (s.draw rm l)) W := by
  have hi : s.floatOp i form rm k f write =
      (let t := s.modWarp fun w => ((W w).drew (rm == .sr) k).raiseFlags (s.raised fun l => f s.warp l (s.draw rm l))
       if t.warp.flagTrap (s.raised fun l => f s.warp l (s.draw rm l)) then
         t.trapHere .fpe (BitVec.ofNat 64 (s.raised fun l => f s.warp l (s.draw rm l))) else t.retire) := by
    unfold State.floatOp
    rw [State.issue_rule _ _ _ _ (by rw [hs]; exact h) hc]
    simp only [gatherFlags_eq]
    have e : (s.modWarp fun w => ((write w (laneResults s.hdr s.warp (rm == .sr) (f s.warp))).drew (rm == .sr) k).raiseFlags
        (s.raised fun l => f s.warp l (s.draw rm l))) =
        s.modWarp fun w => ((W w).drew (rm == .sr) k).raiseFlags (s.raised fun l => f s.warp l (s.draw rm l)) := by
      unfold State.modWarp
      simp only [hw]
    rw [e]
    split <;> rfl
  have drew_out : ∀ v : Warp, (v.drew (rm == .sr) k).outstanding = v.outstanding ∧ (v.drew (rm == .sr) k).trapmask = v.trapmask ∧
      (v.drew (rm == .sr) k).reds = v.reds ∧ (v.drew (rm == .sr) k).key = v.key ∧
      (v.drew (rm == .sr) k).splits = v.splits ∧ (v.drew (rm == .sr) k).cur = v.cur := by
    intro v; unfold Warp.drew; split <;> exact ⟨rfl, rfl, rfl, rfl, rfl, rfl⟩
  obtain ⟨d1, d2, d3, d4, d5, d6⟩ := drew_out (W s.warp)
  have ft := Warp.flagTrap_raise s.warp (W s.warp) (s.raised fun l => f s.warp l (s.draw rm l)) (rm == .sr) k h1
  refine ⟨fun hf => ?_, fun hf hm => ?_⟩
  · rw [he, hi]
    simp only [State.modWarp_warp, ft, hf]
    rfl
  · rw [he, hi]
    simp only [State.modWarp_warp, ft, hf, if_true]
    refine congrArg _ (State.trapHere_enters _ _ _ ?_ ⟨?_, ?_, ?_, ?_⟩ (by decide))
    · simp only [State.modWarp_warp, Warp.raiseFlags, d1, h2]; exact h.2
    · simp only [State.modWarp_warp, Warp.raiseFlags, d2, h3]; exact hm.1
    · simp only [State.modWarp_warp, Warp.raiseFlags, d3, h4]; exact hm.2.1
    · rw [← hm.2.2.1]
      unfold State.accessParked
      simp only [State.modWarp_warp, Warp.raiseFlags, d5, d6, h6, h7]
    · simp only [State.modWarp_warp, State.modWarp_late, Warp.raiseFlags, d4, h5]; exact hm.2.2.2

/-- The same for a result of `n` registers. -/
theorem State.floatOp_floatsTo (s : State) (i : Instr) (form : Form) (rm : Rm) (k : Nat) (f : Warp → LaneOp)
    (d : Reg) (n bits : Nat) (h : s.clearFor false) (hs : form.sync = false) (hc : s.firstCause i form = none)
    (he : exec i s = .next (s.floatOp i form rm k f fun w r => w.writeElems d n bits r)) :
    s.floatsTo i d n bits rm k fun l => f s.warp l (s.draw rm l) := by
  refine s.floatOp_floats i form rm k f _ _ h hs hc he ?_ ?_ ?_ ?_ ?_ ?_ ?_ ?_
  · unfold Warp.writeElems
    refine Warp.setVNat_congr _ _ _ _ _ _ fun l hl => ?_
    rw [laneResults_get s rm _ l hl]
  all_goals simp

end Sys2Proof.Machine
end

