-- ==== Sys2Proof/Laws/Memory.lean ====
section
/-! SUPPORT. Every memory operation keeps the canonical form: the sparse cells, and the operations of Machine/Memory.lean over
the whole state. -/

namespace Sys2Proof.Machine

theorem Memory.wf_iff (m : Memory) :
    Memory.wf m = true ↔ m.Pairwise (fun x y => x.1 < y.1) ∧ ∀ c ∈ m, c.2 ≠ Memory.default := by
  simp [Memory.wf]

/-- A cell of a write is the written one or an old one. -/
theorem mem_cellSet {m : List Host.Cell} {a : Nat} {b : Byte} {c : Host.Cell} (h : c ∈ cellSet m a b) :
    c = (a, b) ∨ c ∈ m := by
  induction m with
  | nil => unfold cellSet at h; split at h <;> simp_all
  | cons x xs ih =>
    unfold cellSet at h
    split at h
    · split at h <;> simp_all
    · split at h
      · split at h <;> simp_all <;> tauto
      · rcases List.mem_cons.1 h with h | h
        · simp [h]
        · rcases ih h with h | h <;> simp [h]

theorem wf_cellSet {m : Memory} (h : Memory.wf m = true) (a : Nat) (b : Byte) : Memory.wf (cellSet m a b) = true := by
  induction m with
  | nil => unfold cellSet; split <;> simp_all [Memory.wf]
  | cons x xs ih =>
    rw [Memory.wf_iff, List.pairwise_cons] at h
    obtain ⟨⟨hx, hp⟩, hd⟩ := h
    have hw : Memory.wf xs = true := (Memory.wf_iff _).2 ⟨hp, fun c hc => hd c (List.mem_cons_of_mem _ hc)⟩
    have hall : Memory.wf (x :: xs) = true := (Memory.wf_iff _).2 ⟨List.pairwise_cons.2 ⟨hx, hp⟩, hd⟩
    unfold cellSet
    split
    · rename_i ha
      split
      · exact hall
      · rename_i hb
        refine (Memory.wf_iff _).2 ⟨List.pairwise_cons.2 ⟨fun y hy => ?_, List.pairwise_cons.2 ⟨hx, hp⟩⟩, fun y hy => ?_⟩
        · rcases List.mem_cons.1 hy with rfl | hy
          · exact ha
          · exact Nat.lt_trans ha (hx y hy)
        · rcases List.mem_cons.1 hy with rfl | hy
          · exact hb
          · exact hd y hy
    · split
      · rename_i ha
        split
        · exact hw
        · rename_i hb
          refine (Memory.wf_iff _).2 ⟨List.pairwise_cons.2 ⟨fun y hy => ?_, hp⟩, fun y hy => ?_⟩
          · show a < y.1
            rw [ha]; exact hx y hy
          · rcases List.mem_cons.1 hy with rfl | hy
            · exact hb
            · exact hd y (List.mem_cons_of_mem _ hy)
      · rename_i h1 h2
        have hr := (Memory.wf_iff _).1 (ih hw)
        refine (Memory.wf_iff _).2 ⟨List.pairwise_cons.2 ⟨fun y hy => ?_, hr.1⟩, fun y hy => ?_⟩
        · rcases mem_cellSet hy with rfl | hy
          · show x.1 < a
            omega
          · exact hx y hy
        · rcases List.mem_cons.1 hy with rfl | hy
          · exact hd _ List.mem_cons_self
          · exact hr.2 y hy

theorem wf_cellsSet (bs : List Byte) {m : Memory} (h : Memory.wf m = true) (a : Nat) :
    Memory.wf (cellsSet m a bs) = true := by
  induction bs generalizing m a with
  | nil => exact h
  | cons b bs ih => exact ih (wf_cellSet h a b) (a + 1)

theorem wf_filter {m : Memory} (h : Memory.wf m = true) (p : Host.Cell → Bool) : Memory.wf (m.filter p) = true := by
  rw [Memory.wf_iff] at h ⊢
  exact ⟨h.1.filter p, fun c hc => h.2 c (List.mem_filter.1 hc).1⟩

/-- A fold of steps that keep the form keeps it. -/
theorem memWf_foldl {α : Type} {f : State → α → State} (hf : ∀ s a, s.memWf → (f s a).memWf) (l : List α) {s : State}
    (h : s.memWf) : (l.foldl f s).memWf := by
  induction l generalizing s with
  | nil => exact h
  | cons x xs ih => exact ih (hf s x h)

/-- The form depends on the memory alone. -/
theorem State.memWf_of_mem {s t : State} (h : s.memWf) (e : t.mem = s.mem) : t.memWf := by
  unfold State.memWf at h ⊢; rw [e]; exact h
theorem State.memWf_of_eq {t : State} {m : Memory} (e : t.mem = m) (h : Memory.wf m = true) : t.memWf := by
  unfold State.memWf; rw [e]; exact h
theorem State.memWf_eq {s : State} (h : s.memWf) : Memory.wf s.mem = true := h

theorem State.memWf_setMem {s : State} {m : Memory} (h : Memory.wf m = true) : State.memWf { s with mem := m } := by
  unfold State.memWf; exact h

theorem State.memWf_putStored {s : State} (h : s.memWf) (pa : Nat) (b : Byte) : (s.putStored pa b).memWf := by
  have hw := State.memWf_setMem (s := s) (wf_cellSet h pa b)
  unfold State.putStored
  generalize s.place pa = q
  split
  iterate 3 exact h
  · split
    · exact State.memWf_of_mem h rfl
    · exact hw
  · exact hw

theorem State.memWf_rekeyLine {s : State} (h : s.memWf) (pa : Nat) (key : Option Nat) : (s.rekeyLine pa key).memWf := by
  have hf (n : Nat) (bs : List Byte) :
      ((List.range 64).foldl (fun s i => s.putStored (n + i) (bs.getD i 0)) s).memWf :=
    memWf_foldl (f := fun s i => s.putStored (n + i) (bs.getD i 0)) (fun t i ht => State.memWf_putStored ht (n + i) _) _ h
  have hl {t : State} (h : t.memWf) (k : List (Nat × Nat)) : State.memWf { t with lineKeys := k } := State.memWf_of_mem h rfl
  unfold State.rekeyLine
  split
  · exact h
  · exact hl (hf _ _) _

theorem State.memWf_modContext {s : State} (h : s.memWf) (c : Nat) (f : Context → Context) :
    (s.modContext c f).memWf :=
  State.memWf_of_mem h rfl

theorem State.memWf_logLine {s : State} (h : s.memWf) (c : Context) (pa : Nat) : (s.logLine c pa).memWf := by
  have hw (a : Nat) (bs : List Byte) := State.memWf_setMem (s := s) (wf_cellsSet bs h a)
  unfold State.logLine
  split
  · exact h
  · dsimp only
    split
    · exact State.memWf_modContext h _ _
    · exact State.memWf_modContext (hw _ _) _ _

theorem State.memWf_logWrite {s : State} (h : s.memWf) (w : Writer) (pa : Nat) : (s.logWrite w pa).memWf := by
  unfold State.logWrite
  split
  · exact h
  · exact memWf_foldl (fun t c ht => State.memWf_logLine ht c pa) _ h

theorem State.memWf_fireAt {s : State} (h : s.memWf) (w : Writer) (pa : Nat) : (s.fireAt w pa).memWf := by
  unfold State.fireAt
  split
  · exact State.memWf_of_mem h rfl
  · exact h

theorem State.memWf_keepCode {s : State} (h : s.memWf) (pa : Nat) : (s.keepCode pa).memWf := by
  unfold State.keepCode
  dsimp only
  split
  · exact h
  · exact State.memWf_of_mem h rfl

/-- What names frames is noted; memory stays. -/
theorem State.keepNamed_mem (s : State) (lo n : Nat) : (s.keepNamed lo n).mem = s.mem := by
  unfold State.keepNamed
  generalize s.contexts = l
  induction l generalizing s with
  | nil => rfl
  | cons c l ih =>
    rw [List.foldl_cons, ih]
    split <;> rfl

theorem State.memWf_keepNamed {s : State} (h : s.memWf) (lo n : Nat) : (s.keepNamed lo n).memWf :=
  State.memWf_of_mem h (s.keepNamed_mem lo n)

theorem State.memWf_homeWriteByte {s : State} (h : s.memWf) (w : Writer) (pa : Nat) (b : Byte) :
    (s.homeWriteByte w pa b).memWf := by
  unfold State.homeWriteByte
  dsimp only
  refine State.memWf_fireAt (State.memWf_putStored ?_ pa b) w pa
  split
  · exact State.memWf_rekeyLine (State.memWf_logWrite (State.memWf_keepCode h pa) w pa) pa w.key
  · exact State.memWf_logWrite (State.memWf_keepCode h pa) w pa

theorem State.memWf_homeWriteBytes (bs : List Byte) {s : State} (h : s.memWf) (w : Writer) (pa : Nat) :
    (s.homeWriteBytes w pa bs).memWf := by
  induction bs generalizing s pa with
  | nil => exact h
  | cons b bs ih => exact ih (State.memWf_homeWriteByte h w pa b) (pa + 1)

theorem State.memWf_homeWrite (bs : List Byte) {s : State} (h : s.memWf) (w : Writer) (pa : Nat) :
    (s.homeWrite w pa bs).memWf :=
  State.memWf_homeWriteBytes bs (State.memWf_keepNamed h _ _) w pa

theorem State.memWf_setCache {s : State} (h : s.memWf) (cl : Nat) (c : List CacheByte) : (s.setCache cl c).memWf :=
  State.memWf_of_mem h rfl

theorem State.memWf_writeBackByte {s : State} (h : s.memWf) (cl pa : Nat) :
    (s.writeBackByte cl pa).memWf := by
  unfold State.writeBackByte
  split
  · split
    · exact State.memWf_setCache (State.memWf_homeWriteByte (State.memWf_keepNamed h _ _) _ _ _) _ _
    · exact h
  · exact h

theorem State.memWf_dropCopyByte {s : State} (h : s.memWf) (cl pa : Nat) : (s.dropCopyByte cl pa).memWf :=
  State.memWf_of_mem h rfl

theorem State.memWf_lsReadByte {s : State} (h : s.memWf) (w : Writer) (cl : Nat) (narrow : Bool) (pa : Nat) :
    (s.lsReadByte w cl narrow pa).2.memWf := by
  unfold State.lsReadByte
  split
  · exact h
  · split
    · split
      · exact h
      · exact State.memWf_setCache h _ _
    · have := State.memWf_writeBackByte h cl pa
      dsimp only
      split
      · exact State.memWf_setCache this _ _
      · exact this

theorem State.memWf_lsRead (n : Nat) {s : State} (h : s.memWf) (w : Writer) (cl : Nat) (narrow : Bool) (pa : Nat) :
    (s.lsRead w cl narrow pa n).2.memWf := by
  induction n generalizing s pa with
  | zero => exact h
  | succ n ih => exact ih (State.memWf_lsReadByte h w cl narrow pa) (pa + 1)

theorem State.memWf_lsWriteByte {s : State} (h : s.memWf) (w : Writer) (cl : Nat) (narrow : Bool) (pa : Nat) (b : Byte) :
    (s.lsWriteByte w cl narrow pa b).memWf := by
  unfold State.lsWriteByte
  split
  · exact State.memWf_homeWriteByte h w pa b
  · split
    · exact State.memWf_setCache h _ _
    · have := State.memWf_homeWriteByte (State.memWf_writeBackByte h cl pa) w pa b
      dsimp only
      split
      · exact State.memWf_setCache this _ _
      · exact this

theorem State.memWf_lsWriteBytes (bs : List Byte) {s : State} (h : s.memWf) (w : Writer) (cl : Nat) (narrow : Bool) (pa : Nat) :
    (s.lsWriteBytes w cl narrow pa bs).memWf := by
  induction bs generalizing s pa with
  | nil => exact h
  | cons b bs ih => exact ih (State.memWf_lsWriteByte h w cl narrow pa b) (pa + 1)

theorem State.memWf_lsWrite (bs : List Byte) {s : State} (h : s.memWf) (w : Writer) (cl : Nat) (narrow : Bool) (pa : Nat) :
    (s.lsWrite w cl narrow pa bs).memWf := by
  unfold State.lsWrite
  split
  · exact State.memWf_lsWriteBytes bs h w cl narrow pa
  · exact State.memWf_lsWriteBytes bs (State.memWf_keepNamed h _ _) w cl narrow pa

theorem State.memWf_writeBackWhere {s : State} (h : s.memWf) (cl : Nat) (p : Nat → Bool) : (s.writeBackWhere cl p).memWf :=
  memWf_foldl (fun t (c : CacheByte) ht => State.memWf_writeBackByte ht cl c.addr) _ h

theorem State.memWf_dropWhere {s : State} (h : s.memWf) (cl : Nat) (p : Nat → Bool) : (s.dropWhere cl p).memWf :=
  State.memWf_setCache (State.memWf_writeBackWhere h cl p) _ _

theorem State.memWf_writeBackAll {s : State} (h : s.memWf) (p : Nat → Bool) : (s.writeBackAll p).memWf :=
  memWf_foldl (fun t cl ht => State.memWf_writeBackWhere ht cl p) _ h

theorem State.memWf_dropAll {s : State} (h : s.memWf) (p : Nat → Bool) : (s.dropAll p).memWf :=
  memWf_foldl (fun t cl ht => State.memWf_dropWhere ht cl p) _ h

theorem State.memWf_emptyCaches {s : State} (h : s.memWf) : s.emptyCaches.memWf :=
  State.memWf_of_mem (State.memWf_writeBackAll h fun _ => true) rfl

theorem State.memWf_l2Back {s : State} (h : s.memWf) (pa : Nat) (drop : Bool) : (s.l2Back pa drop).memWf := by
  unfold State.l2Back
  split
  · exact h
  · dsimp only
    split
    · exact State.memWf_of_mem (State.memWf_setMem (s := s) (wf_cellSet h _ _)) rfl
    · exact State.memWf_of_mem h rfl

@[simp] theorem State.fillTlb_mem (s : State) (t : TlbEntry) : (s.fillTlb t).mem = s.mem := by
  unfold State.fillTlb; split <;> rfl
@[simp] theorem State.fillXlat_mem (s : State) (t : TlbEntry) : (s.fillXlat t).mem = s.mem := rfl
@[simp] theorem State.nameFrame_mem (s : State) (c f n : Nat) : (s.nameFrame c f n).mem = s.mem := by
  unfold State.nameFrame; split <;> rfl

/-- A translation changes no memory. -/
@[simp] theorem State.translate_mem (s : State) (core ctx : Nat) (va : DWord) (kind : AccessKind) (ho : Bool) :
    (s.translate core ctx va kind ho).2.mem = s.mem := by
  unfold State.translate
  dsimp only
  split
  · rfl
  · split
    · rfl
    · split
      · simp
      · split
        · rfl
        · split <;> simp

theorem State.memWf_translate {s : State} (h : s.memWf) (core ctx : Nat) (va : DWord) (kind : AccessKind) (ho : Bool) :
    (s.translate core ctx va kind ho).2.memWf :=
  State.memWf_of_mem h (s.translate_mem core ctx va kind ho)

/-- With no object held under I, a read returns the bytes themselves. -/
theorem State.seen_none {s : State} (h : s.openSpans = []) (part pa : Nat) (bs : List Byte) : s.seen part pa bs = bs := by
  unfold State.seen; rw [h]

theorem State.memWf_tlbInvalidate {s : State} (h : s.memWf) (sel ctx va : Nat) : (s.tlbInvalidate sel ctx va).memWf :=
  State.memWf_of_mem h rfl

end Sys2Proof.Machine
end

