-- ==== Sys2Proof/Laws/PerInstr.lean ====
section
/-! SUPPORT. The round trip of the encoding, instruction by instruction. -/

/-- Decoding the word of a well-formed instruction gives the instruction back. -/
def Sys2Proof.Laws.RoundTrip.Statement (i : Sys2Proof.Instr) : Prop :=
  i.wf = true → ∀ w, Sys2Proof.encode i = some w → Sys2Proof.decode w = .ok i

namespace Sys2Proof

theorem Laws.RoundTrip.of_none {i : Instr} (hn : encode i = none) : Laws.RoundTrip.Statement i :=
  fun _ w hw => by rw [hn] at hw; cases hw

theorem Laws.RoundTrip.clause (c) : Laws.RoundTrip.Statement (.clause c) := fun h w hw => by
  cases hw; exact decode_of_fields (decodeFields_clause c) h
theorem Laws.RoundTrip.nop : Laws.RoundTrip.Statement .nop := fun h w hw => by
  cases hw; refine decode_of_fields ?_ h
  unfold decodeFields
  rw [fOp_packRRR, fX_packRRR, fD_packRRR, fA_packRRR, fB_packRRR]
  rfl
theorem Laws.RoundTrip.bra (imm) : Laws.RoundTrip.Statement (.bra imm) := fun h w hw => by
  cases hw; refine decode_of_fields ?_ h
  unfold decodeFields
  rw [fOp_packJ, fImm25_packJ]
  rfl
theorem Laws.RoundTrip.brnz (d) (imm) : Laws.RoundTrip.Statement (.brnz d imm) := fun h w hw => by
  cases hw; refine decode_of_fields ?_ h
  unfold decodeFields
  rw [fOp_packRI, fD_packRI, fImm18_packRI]
  rfl
theorem Laws.RoundTrip.brz (d) (imm) : Laws.RoundTrip.Statement (.brz d imm) := fun h w hw => by
  cases hw; refine decode_of_fields ?_ h
  unfold decodeFields
  rw [fOp_packRI, fD_packRI, fImm18_packRI]
  rfl
theorem Laws.RoundTrip.brv (neg) (p) (imm) : Laws.RoundTrip.Statement (.brv neg p imm) := fun h w hw => by
  cases hw; refine decode_of_fields ?_ h
  unfold decodeFields
  rw [fOp_packRI, fD_packRI, fImm18_packRI]
  exact asPredNeg_slot neg p _
theorem Laws.RoundTrip.brx (a) : Laws.RoundTrip.Statement (.brx a) := fun h w hw => by
  cases hw; refine decode_of_fields ?_ h
  unfold decodeFields
  rw [fOp_packRRR, fX_packRRR, fD_packRRR, fA_packRRR, fB_packRRR]
  rfl
theorem Laws.RoundTrip.call (d) (imm) : Laws.RoundTrip.Statement (.call d imm) := fun h w hw => by
  cases hw; refine decode_of_fields ?_ h
  unfold decodeFields
  rw [fOp_packRI, fD_packRI, fImm18_packRI]
  rfl
theorem Laws.RoundTrip.callx (d) (a) : Laws.RoundTrip.Statement (.callx d a) := fun h w hw => by
  cases hw; refine decode_of_fields ?_ h
  unfold decodeFields
  rw [fOp_packRRR, fX_packRRR, fD_packRRR, fA_packRRR, fB_packRRR]
  rfl
theorem Laws.RoundTrip.ret (a) : Laws.RoundTrip.Statement (.ret a) := fun h w hw => by
  cases hw; refine decode_of_fields ?_ h
  unfold decodeFields
  rw [fOp_packRRR, fX_packRRR, fD_packRRR, fA_packRRR, fB_packRRR]
  rfl
theorem Laws.RoundTrip.exit : Laws.RoundTrip.Statement .exit := fun h w hw => by
  cases hw; refine decode_of_fields ?_ h
  unfold decodeFields
  rw [fOp_packRRR, fX_packRRR, fD_packRRR, fA_packRRR, fB_packRRR]
  rfl
theorem Laws.RoundTrip.trap (imm) : Laws.RoundTrip.Statement (.trap imm) := fun h w hw => by
  cases hw; refine decode_of_fields ?_ h
  unfold decodeFields
  rw [fOp_packRI, fD_packRI, fImm18_packRI]
  rfl
theorem Laws.RoundTrip.tret : Laws.RoundTrip.Statement .tret := fun h w hw => by
  cases hw; refine decode_of_fields ?_ h
  unfold decodeFields
  rw [fOp_packRRR, fX_packRRR, fD_packRRR, fA_packRRR, fB_packRRR]
  rfl
theorem Laws.RoundTrip.yield : Laws.RoundTrip.Statement .yield := fun h w hw => by
  cases hw; refine decode_of_fields ?_ h
  unfold decodeFields
  rw [fOp_packRRR, fX_packRRR, fD_packRRR, fA_packRRR, fB_packRRR]
  rfl
theorem Laws.RoundTrip.sleep (imm) : Laws.RoundTrip.Statement (.sleep imm) := fun h w hw => by
  cases hw; refine decode_of_fields ?_ h
  unfold decodeFields
  rw [fOp_packRI, fD_packRI, fImm18_packRI]
  rfl
theorem Laws.RoundTrip.sadd (d) (a) (b) : Laws.RoundTrip.Statement (.sadd d a b) := fun h w hw => by
  cases hw; refine decode_of_fields ?_ h
  unfold decodeFields
  rw [fOp_packRRR, fX_packRRR, fD_packRRR, fA_packRRR, fB_packRRR]
  rfl
theorem Laws.RoundTrip.ssub (d) (a) (b) : Laws.RoundTrip.Statement (.ssub d a b) := fun h w hw => by
  cases hw; refine decode_of_fields ?_ h
  unfold decodeFields
  rw [fOp_packRRR, fX_packRRR, fD_packRRR, fA_packRRR, fB_packRRR]
  rfl
theorem Laws.RoundTrip.smul (d) (a) (b) : Laws.RoundTrip.Statement (.smul d a b) := fun h w hw => by
  cases hw; refine decode_of_fields ?_ h
  unfold decodeFields
  rw [fOp_packRRR, fX_packRRR, fD_packRRR, fA_packRRR, fB_packRRR]
  rfl
theorem Laws.RoundTrip.smulhi (d) (a) (b) : Laws.RoundTrip.Statement (.smulhi d a b) := fun h w hw => by
  cases hw; refine decode_of_fields ?_ h
  unfold decodeFields
  rw [fOp_packRRR, fX_packRRR, fD_packRRR, fA_packRRR, fB_packRRR]
  rfl
theorem Laws.RoundTrip.smulhin (d) (a) (b) : Laws.RoundTrip.Statement (.smulhin d a b) := fun h w hw => by
  cases hw; refine decode_of_fields ?_ h
  unfold decodeFields
  rw [fOp_packRRR, fX_packRRR, fD_packRRR, fA_packRRR, fB_packRRR]
  rfl
theorem Laws.RoundTrip.sand (d) (a) (b) : Laws.RoundTrip.Statement (.sand d a b) := fun h w hw => by
  cases hw; refine decode_of_fields ?_ h
  unfold decodeFields
  rw [fOp_packRRR, fX_packRRR, fD_packRRR, fA_packRRR, fB_packRRR]
  rfl
theorem Laws.RoundTrip.sor (d) (a) (b) : Laws.RoundTrip.Statement (.sor d a b) := fun h w hw => by
  cases hw; refine decode_of_fields ?_ h
  unfold decodeFields
  rw [fOp_packRRR, fX_packRRR, fD_packRRR, fA_packRRR, fB_packRRR]
  rfl
theorem Laws.RoundTrip.sxor (d) (a) (b) : Laws.RoundTrip.Statement (.sxor d a b) := fun h w hw => by
  cases hw; refine decode_of_fields ?_ h
  unfold decodeFields
  rw [fOp_packRRR, fX_packRRR, fD_packRRR, fA_packRRR, fB_packRRR]
  rfl
theorem Laws.RoundTrip.sshl (d) (a) (b) : Laws.RoundTrip.Statement (.sshl d a b) := fun h w hw => by
  cases hw; refine decode_of_fields ?_ h
  unfold decodeFields
  rw [fOp_packRRR, fX_packRRR, fD_packRRR, fA_packRRR, fB_packRRR]
  rfl
theorem Laws.RoundTrip.sshr (d) (a) (b) : Laws.RoundTrip.Statement (.sshr d a b) := fun h w hw => by
  cases hw; refine decode_of_fields ?_ h
  unfold decodeFields
  rw [fOp_packRRR, fX_packRRR, fD_packRRR, fA_packRRR, fB_packRRR]
  rfl
theorem Laws.RoundTrip.ssar (d) (a) (b) : Laws.RoundTrip.Statement (.ssar d a b) := fun h w hw => by
  cases hw; refine decode_of_fields ?_ h
  unfold decodeFields
  rw [fOp_packRRR, fX_packRRR, fD_packRRR, fA_packRRR, fB_packRRR]
  rfl
theorem Laws.RoundTrip.smin (d) (a) (b) : Laws.RoundTrip.Statement (.smin d a b) := fun h w hw => by
  cases hw; refine decode_of_fields ?_ h
  unfold decodeFields
  rw [fOp_packRRR, fX_packRRR, fD_packRRR, fA_packRRR, fB_packRRR]
  rfl
theorem Laws.RoundTrip.smax (d) (a) (b) : Laws.RoundTrip.Statement (.smax d a b) := fun h w hw => by
  cases hw; refine decode_of_fields ?_ h
  unfold decodeFields
  rw [fOp_packRRR, fX_packRRR, fD_packRRR, fA_packRRR, fB_packRRR]
  rfl
theorem Laws.RoundTrip.sminn (d) (a) (b) : Laws.RoundTrip.Statement (.sminn d a b) := fun h w hw => by
  cases hw; refine decode_of_fields ?_ h
  unfold decodeFields
  rw [fOp_packRRR, fX_packRRR, fD_packRRR, fA_packRRR, fB_packRRR]
  rfl
theorem Laws.RoundTrip.smaxn (d) (a) (b) : Laws.RoundTrip.Statement (.smaxn d a b) := fun h w hw => by
  cases hw; refine decode_of_fields ?_ h
  unfold decodeFields
  rw [fOp_packRRR, fX_packRRR, fD_packRRR, fA_packRRR, fB_packRRR]
  rfl
theorem Laws.RoundTrip.sandn (d) (a) (b) : Laws.RoundTrip.Statement (.sandn d a b) := fun h w hw => by
  cases hw; refine decode_of_fields ?_ h
  unfold decodeFields
  rw [fOp_packRRR, fX_packRRR, fD_packRRR, fA_packRRR, fB_packRRR]
  rfl
theorem Laws.RoundTrip.saddi (d) (a) (imm) : Laws.RoundTrip.Statement (.saddi d a imm) := fun h w hw => by
  cases hw; refine decode_of_fields ?_ h
  unfold decodeFields
  rw [fOp_packRRI, fD_packRRI, fA_packRRI, fImm11_packRRI]
  rfl
theorem Laws.RoundTrip.sandi (d) (a) (imm) : Laws.RoundTrip.Statement (.sandi d a imm) := fun h w hw => by
  cases hw; refine decode_of_fields ?_ h
  unfold decodeFields
  rw [fOp_packRRI, fD_packRRI, fA_packRRI, fImm11_packRRI]
  rfl
theorem Laws.RoundTrip.sori (d) (a) (imm) : Laws.RoundTrip.Statement (.sori d a imm) := fun h w hw => by
  cases hw; refine decode_of_fields ?_ h
  unfold decodeFields
  rw [fOp_packRRI, fD_packRRI, fA_packRRI, fImm11_packRRI]
  rfl
theorem Laws.RoundTrip.sxori (d) (a) (imm) : Laws.RoundTrip.Statement (.sxori d a imm) := fun h w hw => by
  cases hw; refine decode_of_fields ?_ h
  unfold decodeFields
  rw [fOp_packRRI, fD_packRRI, fA_packRRI, fImm11_packRRI]
  rfl
theorem Laws.RoundTrip.sshli (d) (a) (imm) : Laws.RoundTrip.Statement (.sshli d a imm) := fun h w hw => by
  cases hw; refine decode_of_fields ?_ h
  unfold decodeFields
  rw [fOp_packRRI, fD_packRRI, fA_packRRI, fImm11_packRRI]
  rfl
theorem Laws.RoundTrip.sshri (d) (a) (imm) : Laws.RoundTrip.Statement (.sshri d a imm) := fun h w hw => by
  cases hw; refine decode_of_fields ?_ h
  unfold decodeFields
  rw [fOp_packRRI, fD_packRRI, fA_packRRI, fImm11_packRRI]
  rfl
theorem Laws.RoundTrip.ssari (d) (a) (imm) : Laws.RoundTrip.Statement (.ssari d a imm) := fun h w hw => by
  cases hw; refine decode_of_fields ?_ h
  unfold decodeFields
  rw [fOp_packRRI, fD_packRRI, fA_packRRI, fImm11_packRRI]
  rfl
theorem Laws.RoundTrip.smovi (d) (imm) : Laws.RoundTrip.Statement (.smovi d imm) := fun h w hw => by
  cases hw; refine decode_of_fields ?_ h
  unfold decodeFields
  rw [fOp_packRI, fD_packRI, fImm18_packRI]
  rfl
theorem Laws.RoundTrip.slui (d) (imm) : Laws.RoundTrip.Statement (.slui d imm) := fun h w hw => by
  cases hw; refine decode_of_fields ?_ h
  unfold decodeFields
  rw [fOp_packRI, fD_packRI, fImm18_packRI]
  rfl
theorem Laws.RoundTrip.scmp (d) (a) (b) (c) : Laws.RoundTrip.Statement (.scmp d a b c) := fun h w hw => by
  cases hw; refine decode_of_fields ?_ h
  unfold decodeFields
  rw [fOp_packRRR, fX_packRRR, fD_packRRR, fA_packRRR, fB_packRRR]
  exact asCode_SCondX c _
theorem Laws.RoundTrip.ssel (d) (a) (b) : Laws.RoundTrip.Statement (.ssel d a b) := fun h w hw => by
  cases hw; refine decode_of_fields ?_ h
  unfold decodeFields
  rw [fOp_packRRR, fX_packRRR, fD_packRRR, fA_packRRR, fB_packRRR]
  rfl
theorem Laws.RoundTrip.spopc (d) (a) : Laws.RoundTrip.Statement (.spopc d a) := fun h w hw => by
  cases hw; refine decode_of_fields ?_ h
  unfold decodeFields
  rw [fOp_packRRR, fX_packRRR, fD_packRRR, fA_packRRR, fB_packRRR]
  rfl
theorem Laws.RoundTrip.sclz (d) (a) : Laws.RoundTrip.Statement (.sclz d a) := fun h w hw => by
  cases hw; refine decode_of_fields ?_ h
  unfold decodeFields
  rw [fOp_packRRR, fX_packRRR, fD_packRRR, fA_packRRR, fB_packRRR]
  rfl
theorem Laws.RoundTrip.sctz (d) (a) : Laws.RoundTrip.Statement (.sctz d a) := fun h w hw => by
  cases hw; refine decode_of_fields ?_ h
  unfold decodeFields
  rw [fOp_packRRR, fX_packRRR, fD_packRRR, fA_packRRR, fB_packRRR]
  rfl
theorem Laws.RoundTrip.sbrev (d) (a) : Laws.RoundTrip.Statement (.sbrev d a) := fun h w hw => by
  cases hw; refine decode_of_fields ?_ h
  unfold decodeFields
  rw [fOp_packRRR, fX_packRRR, fD_packRRR, fA_packRRR, fB_packRRR]
  rfl
theorem Laws.RoundTrip.sbfe (d) (a) (b) : Laws.RoundTrip.Statement (.sbfe d a b) := fun h w hw => by
  cases hw; refine decode_of_fields ?_ h
  unfold decodeFields
  rw [fOp_packRRR, fX_packRRR, fD_packRRR, fA_packRRR, fB_packRRR]
  rfl
theorem Laws.RoundTrip.sbfi (d) (a) (b) : Laws.RoundTrip.Statement (.sbfi d a b) := fun h w hw => by
  cases hw; refine decode_of_fields ?_ h
  unfold decodeFields
  rw [fOp_packRRR, fX_packRRR, fD_packRRR, fA_packRRR, fB_packRRR]
  rfl
theorem Laws.RoundTrip.sadd64 (d) (a) (b) : Laws.RoundTrip.Statement (.sadd64 d a b) := fun h w hw => by
  cases hw; refine decode_of_fields ?_ h
  unfold decodeFields
  rw [fOp_packRRR, fX_packRRR, fD_packRRR, fA_packRRR, fB_packRRR]
  rfl
theorem Laws.RoundTrip.ssub64 (d) (a) (b) : Laws.RoundTrip.Statement (.ssub64 d a b) := fun h w hw => by
  cases hw; refine decode_of_fields ?_ h
  unfold decodeFields
  rw [fOp_packRRR, fX_packRRR, fD_packRRR, fA_packRRR, fB_packRRR]
  rfl
theorem Laws.RoundTrip.smov (d) (a) : Laws.RoundTrip.Statement (.smov d a) := fun h w hw => by
  cases hw; refine decode_of_fields ?_ h
  unfold decodeFields
  rw [fOp_packRRR, fX_packRRR, fD_packRRR, fA_packRRR, fB_packRRR]
  rfl
theorem Laws.RoundTrip.tlbinv (a) (b) : Laws.RoundTrip.Statement (.tlbinv a b) := fun h w hw => by
  cases hw; refine decode_of_fields ?_ h
  unfold decodeFields
  rw [fOp_packRRR, fX_packRRR, fD_packRRR, fA_packRRR, fB_packRRR]
  rfl
theorem Laws.RoundTrip.srdp (d) (n) : Laws.RoundTrip.Statement (.srdp d n) := fun h w hw => by
  cases hw; refine decode_of_fields ?_ h
  unfold decodeFields
  rw [fOp_packRRR, fX_packRRR, fD_packRRR, fA_packRRR, fB_packRRR]
  refine (zero_zero _).trans ?_
  exact asCode_PrivRegSlot n _
theorem Laws.RoundTrip.swrp (a) (n) : Laws.RoundTrip.Statement (.swrp a n) := fun h w hw => by
  cases hw; refine decode_of_fields ?_ h
  unfold decodeFields
  rw [fOp_packRRR, fX_packRRR, fD_packRRR, fA_packRRR, fB_packRRR]
  refine (zero_zero _).trans ?_
  exact asCode_PrivRegSlot n _
theorem Laws.RoundTrip.bkpt : Laws.RoundTrip.Statement .bkpt := fun h w hw => by
  cases hw; refine decode_of_fields ?_ h
  unfold decodeFields
  rw [fOp_packRRR, fX_packRRR, fD_packRRR, fA_packRRR, fB_packRRR]
  rfl
theorem Laws.RoundTrip.icinv : Laws.RoundTrip.Statement .icinv := fun h w hw => by
  cases hw; refine decode_of_fields ?_ h
  unfold decodeFields
  rw [fOp_packRRR, fX_packRRR, fD_packRRR, fA_packRRR, fB_packRRR]
  rfl
theorem Laws.RoundTrip.vadd (d) (a) (b) : Laws.RoundTrip.Statement (.vadd d a b) := fun h w hw => by
  cases hw; refine decode_of_fields ?_ h
  unfold decodeFields
  rw [fOp_packRRR, fX_packRRR, fD_packRRR, fA_packRRR, fB_packRRR]
  rfl
theorem Laws.RoundTrip.vsub (d) (a) (b) : Laws.RoundTrip.Statement (.vsub d a b) := fun h w hw => by
  cases hw; refine decode_of_fields ?_ h
  unfold decodeFields
  rw [fOp_packRRR, fX_packRRR, fD_packRRR, fA_packRRR, fB_packRRR]
  rfl
theorem Laws.RoundTrip.vmul (d) (a) (b) : Laws.RoundTrip.Statement (.vmul d a b) := fun h w hw => by
  cases hw; refine decode_of_fields ?_ h
  unfold decodeFields
  rw [fOp_packRRR, fX_packRRR, fD_packRRR, fA_packRRR, fB_packRRR]
  rfl
theorem Laws.RoundTrip.vmulhi (d) (a) (b) : Laws.RoundTrip.Statement (.vmulhi d a b) := fun h w hw => by
  cases hw; refine decode_of_fields ?_ h
  unfold decodeFields
  rw [fOp_packRRR, fX_packRRR, fD_packRRR, fA_packRRR, fB_packRRR]
  rfl
theorem Laws.RoundTrip.vand (d) (a) (b) : Laws.RoundTrip.Statement (.vand d a b) := fun h w hw => by
  cases hw; refine decode_of_fields ?_ h
  unfold decodeFields
  rw [fOp_packRRR, fX_packRRR, fD_packRRR, fA_packRRR, fB_packRRR]
  rfl
theorem Laws.RoundTrip.vor (d) (a) (b) : Laws.RoundTrip.Statement (.vor d a b) := fun h w hw => by
  cases hw; refine decode_of_fields ?_ h
  unfold decodeFields
  rw [fOp_packRRR, fX_packRRR, fD_packRRR, fA_packRRR, fB_packRRR]
  rfl
theorem Laws.RoundTrip.vxor (d) (a) (b) : Laws.RoundTrip.Statement (.vxor d a b) := fun h w hw => by
  cases hw; refine decode_of_fields ?_ h
  unfold decodeFields
  rw [fOp_packRRR, fX_packRRR, fD_packRRR, fA_packRRR, fB_packRRR]
  rfl
theorem Laws.RoundTrip.vandn (d) (a) (b) : Laws.RoundTrip.Statement (.vandn d a b) := fun h w hw => by
  cases hw; refine decode_of_fields ?_ h
  unfold decodeFields
  rw [fOp_packRRR, fX_packRRR, fD_packRRR, fA_packRRR, fB_packRRR]
  rfl
theorem Laws.RoundTrip.vshl (d) (a) (b) : Laws.RoundTrip.Statement (.vshl d a b) := fun h w hw => by
  cases hw; refine decode_of_fields ?_ h
  unfold decodeFields
  rw [fOp_packRRR, fX_packRRR, fD_packRRR, fA_packRRR, fB_packRRR]
  rfl
theorem Laws.RoundTrip.vshr (d) (a) (b) : Laws.RoundTrip.Statement (.vshr d a b) := fun h w hw => by
  cases hw; refine decode_of_fields ?_ h
  unfold decodeFields
  rw [fOp_packRRR, fX_packRRR, fD_packRRR, fA_packRRR, fB_packRRR]
  rfl
theorem Laws.RoundTrip.vsar (d) (a) (b) : Laws.RoundTrip.Statement (.vsar d a b) := fun h w hw => by
  cases hw; refine decode_of_fields ?_ h
  unfold decodeFields
  rw [fOp_packRRR, fX_packRRR, fD_packRRR, fA_packRRR, fB_packRRR]
  rfl
theorem Laws.RoundTrip.vmin (d) (a) (b) : Laws.RoundTrip.Statement (.vmin d a b) := fun h w hw => by
  cases hw; refine decode_of_fields ?_ h
  unfold decodeFields
  rw [fOp_packRRR, fX_packRRR, fD_packRRR, fA_packRRR, fB_packRRR]
  rfl
theorem Laws.RoundTrip.vmax (d) (a) (b) : Laws.RoundTrip.Statement (.vmax d a b) := fun h w hw => by
  cases hw; refine decode_of_fields ?_ h
  unfold decodeFields
  rw [fOp_packRRR, fX_packRRR, fD_packRRR, fA_packRRR, fB_packRRR]
  rfl
theorem Laws.RoundTrip.vaddsat (d) (a) (b) : Laws.RoundTrip.Statement (.vaddsat d a b) := fun h w hw => by
  cases hw; refine decode_of_fields ?_ h
  unfold decodeFields
  rw [fOp_packRRR, fX_packRRR, fD_packRRR, fA_packRRR, fB_packRRR]
  rfl
theorem Laws.RoundTrip.vsubsat (d) (a) (b) : Laws.RoundTrip.Statement (.vsubsat d a b) := fun h w hw => by
  cases hw; refine decode_of_fields ?_ h
  unfold decodeFields
  rw [fOp_packRRR, fX_packRRR, fD_packRRR, fA_packRRR, fB_packRRR]
  rfl
theorem Laws.RoundTrip.vabsd (d) (a) (b) : Laws.RoundTrip.Statement (.vabsd d a b) := fun h w hw => by
  cases hw; refine decode_of_fields ?_ h
  unfold decodeFields
  rw [fOp_packRRR, fX_packRRR, fD_packRRR, fA_packRRR, fB_packRRR]
  rfl
theorem Laws.RoundTrip.vaddScalar (d) (a) (b) : Laws.RoundTrip.Statement (.vaddScalar d a b) := fun h w hw => by
  cases hw; refine decode_of_fields ?_ h
  unfold decodeFields
  rw [fOp_packRRR, fX_packRRR, fD_packRRR, fA_packRRR, fB_packRRR]
  rfl
theorem Laws.RoundTrip.vsubScalar (d) (a) (b) : Laws.RoundTrip.Statement (.vsubScalar d a b) := fun h w hw => by
  cases hw; refine decode_of_fields ?_ h
  unfold decodeFields
  rw [fOp_packRRR, fX_packRRR, fD_packRRR, fA_packRRR, fB_packRRR]
  rfl
theorem Laws.RoundTrip.vmulScalar (d) (a) (b) : Laws.RoundTrip.Statement (.vmulScalar d a b) := fun h w hw => by
  cases hw; refine decode_of_fields ?_ h
  unfold decodeFields
  rw [fOp_packRRR, fX_packRRR, fD_packRRR, fA_packRRR, fB_packRRR]
  rfl
theorem Laws.RoundTrip.vmulhiScalar (d) (a) (b) : Laws.RoundTrip.Statement (.vmulhiScalar d a b) := fun h w hw => by
  cases hw; refine decode_of_fields ?_ h
  unfold decodeFields
  rw [fOp_packRRR, fX_packRRR, fD_packRRR, fA_packRRR, fB_packRRR]
  rfl
theorem Laws.RoundTrip.vandScalar (d) (a) (b) : Laws.RoundTrip.Statement (.vandScalar d a b) := fun h w hw => by
  cases hw; refine decode_of_fields ?_ h
  unfold decodeFields
  rw [fOp_packRRR, fX_packRRR, fD_packRRR, fA_packRRR, fB_packRRR]
  rfl
theorem Laws.RoundTrip.vorScalar (d) (a) (b) : Laws.RoundTrip.Statement (.vorScalar d a b) := fun h w hw => by
  cases hw; refine decode_of_fields ?_ h
  unfold decodeFields
  rw [fOp_packRRR, fX_packRRR, fD_packRRR, fA_packRRR, fB_packRRR]
  rfl
theorem Laws.RoundTrip.vxorScalar (d) (a) (b) : Laws.RoundTrip.Statement (.vxorScalar d a b) := fun h w hw => by
  cases hw; refine decode_of_fields ?_ h
  unfold decodeFields
  rw [fOp_packRRR, fX_packRRR, fD_packRRR, fA_packRRR, fB_packRRR]
  rfl
theorem Laws.RoundTrip.vandnScalar (d) (a) (b) : Laws.RoundTrip.Statement (.vandnScalar d a b) := fun h w hw => by
  cases hw; refine decode_of_fields ?_ h
  unfold decodeFields
  rw [fOp_packRRR, fX_packRRR, fD_packRRR, fA_packRRR, fB_packRRR]
  rfl
theorem Laws.RoundTrip.vshlScalar (d) (a) (b) : Laws.RoundTrip.Statement (.vshlScalar d a b) := fun h w hw => by
  cases hw; refine decode_of_fields ?_ h
  unfold decodeFields
  rw [fOp_packRRR, fX_packRRR, fD_packRRR, fA_packRRR, fB_packRRR]
  rfl
theorem Laws.RoundTrip.vshrScalar (d) (a) (b) : Laws.RoundTrip.Statement (.vshrScalar d a b) := fun h w hw => by
  cases hw; refine decode_of_fields ?_ h
  unfold decodeFields
  rw [fOp_packRRR, fX_packRRR, fD_packRRR, fA_packRRR, fB_packRRR]
  rfl
theorem Laws.RoundTrip.vsarScalar (d) (a) (b) : Laws.RoundTrip.Statement (.vsarScalar d a b) := fun h w hw => by
  cases hw; refine decode_of_fields ?_ h
  unfold decodeFields
  rw [fOp_packRRR, fX_packRRR, fD_packRRR, fA_packRRR, fB_packRRR]
  rfl
theorem Laws.RoundTrip.vminScalar (d) (a) (b) : Laws.RoundTrip.Statement (.vminScalar d a b) := fun h w hw => by
  cases hw; refine decode_of_fields ?_ h
  unfold decodeFields
  rw [fOp_packRRR, fX_packRRR, fD_packRRR, fA_packRRR, fB_packRRR]
  rfl
theorem Laws.RoundTrip.vmaxScalar (d) (a) (b) : Laws.RoundTrip.Statement (.vmaxScalar d a b) := fun h w hw => by
  cases hw; refine decode_of_fields ?_ h
  unfold decodeFields
  rw [fOp_packRRR, fX_packRRR, fD_packRRR, fA_packRRR, fB_packRRR]
  rfl
theorem Laws.RoundTrip.vaddsatScalar (d) (a) (b) : Laws.RoundTrip.Statement (.vaddsatScalar d a b) := fun h w hw => by
  cases hw; refine decode_of_fields ?_ h
  unfold decodeFields
  rw [fOp_packRRR, fX_packRRR, fD_packRRR, fA_packRRR, fB_packRRR]
  rfl
theorem Laws.RoundTrip.vsubsatScalar (d) (a) (b) : Laws.RoundTrip.Statement (.vsubsatScalar d a b) := fun h w hw => by
  cases hw; refine decode_of_fields ?_ h
  unfold decodeFields
  rw [fOp_packRRR, fX_packRRR, fD_packRRR, fA_packRRR, fB_packRRR]
  rfl
theorem Laws.RoundTrip.vabsdScalar (d) (a) (b) : Laws.RoundTrip.Statement (.vabsdScalar d a b) := fun h w hw => by
  cases hw; refine decode_of_fields ?_ h
  unfold decodeFields
  rw [fOp_packRRR, fX_packRRR, fD_packRRR, fA_packRRR, fB_packRRR]
  rfl
theorem Laws.RoundTrip.vmad (d) (a) (b) : Laws.RoundTrip.Statement (.vmad d a b) := fun h w hw => by
  cases hw; refine decode_of_fields ?_ h
  unfold decodeFields
  rw [fOp_packRRR, fX_packRRR, fD_packRRR, fA_packRRR, fB_packRRR]
  rfl
theorem Laws.RoundTrip.vmadhi (d) (a) (b) : Laws.RoundTrip.Statement (.vmadhi d a b) := fun h w hw => by
  cases hw; refine decode_of_fields ?_ h
  unfold decodeFields
  rw [fOp_packRRR, fX_packRRR, fD_packRRR, fA_packRRR, fB_packRRR]
  rfl
theorem Laws.RoundTrip.vdot4 (d) (a) (b) : Laws.RoundTrip.Statement (.vdot4 d a b) := fun h w hw => by
  cases hw; refine decode_of_fields ?_ h
  unfold decodeFields
  rw [fOp_packRRR, fX_packRRR, fD_packRRR, fA_packRRR, fB_packRRR]
  rfl
theorem Laws.RoundTrip.vcmp (p) (a) (b) (c) : Laws.RoundTrip.Statement (.vcmp p a b c) := fun h w hw => by
  cases hw; refine decode_of_fields ?_ h
  unfold decodeFields
  rw [fOp_packRRR, fX_packRRR, fD_packRRR, fA_packRRR, fB_packRRR]
  refine (asFin_slot p (by decide) _).trans ?_
  exact asCode_VCondX c _
theorem Laws.RoundTrip.vsel (d) (a) (b) (neg) (p) : Laws.RoundTrip.Statement (.vsel d a b neg p) := fun h w hw => by
  cases hw; refine decode_of_fields ?_ h
  unfold decodeFields
  rw [fOp_packRRR, fX_packRRR, fD_packRRR, fA_packRRR, fB_packRRR]
  exact asPredNegX_slot neg p _
theorem Laws.RoundTrip.vpopc (d) (a) : Laws.RoundTrip.Statement (.vpopc d a) := fun h w hw => by
  cases hw; refine decode_of_fields ?_ h
  unfold decodeFields
  rw [fOp_packRRR, fX_packRRR, fD_packRRR, fA_packRRR, fB_packRRR]
  rfl
theorem Laws.RoundTrip.vclz (d) (a) : Laws.RoundTrip.Statement (.vclz d a) := fun h w hw => by
  cases hw; refine decode_of_fields ?_ h
  unfold decodeFields
  rw [fOp_packRRR, fX_packRRR, fD_packRRR, fA_packRRR, fB_packRRR]
  rfl
theorem Laws.RoundTrip.vctz (d) (a) : Laws.RoundTrip.Statement (.vctz d a) := fun h w hw => by
  cases hw; refine decode_of_fields ?_ h
  unfold decodeFields
  rw [fOp_packRRR, fX_packRRR, fD_packRRR, fA_packRRR, fB_packRRR]
  rfl
theorem Laws.RoundTrip.vbrev (d) (a) : Laws.RoundTrip.Statement (.vbrev d a) := fun h w hw => by
  cases hw; refine decode_of_fields ?_ h
  unfold decodeFields
  rw [fOp_packRRR, fX_packRRR, fD_packRRR, fA_packRRR, fB_packRRR]
  rfl
theorem Laws.RoundTrip.vbfe (d) (a) (b) : Laws.RoundTrip.Statement (.vbfe d a b) := fun h w hw => by
  cases hw; refine decode_of_fields ?_ h
  unfold decodeFields
  rw [fOp_packRRR, fX_packRRR, fD_packRRR, fA_packRRR, fB_packRRR]
  rfl
theorem Laws.RoundTrip.vbfi (d) (a) (b) : Laws.RoundTrip.Statement (.vbfi d a b) := fun h w hw => by
  cases hw; refine decode_of_fields ?_ h
  unfold decodeFields
  rw [fOp_packRRR, fX_packRRR, fD_packRRR, fA_packRRR, fB_packRRR]
  rfl
theorem Laws.RoundTrip.vpermb (d) (a) (b) : Laws.RoundTrip.Statement (.vpermb d a b) := fun h w hw => by
  cases hw; refine decode_of_fields ?_ h
  unfold decodeFields
  rw [fOp_packRRR, fX_packRRR, fD_packRRR, fA_packRRR, fB_packRRR]
  rfl
theorem Laws.RoundTrip.vnot (d) (a) : Laws.RoundTrip.Statement (.vnot d a) := fun h w hw => by
  cases hw; refine decode_of_fields ?_ h
  unfold decodeFields
  rw [fOp_packRRR, fX_packRRR, fD_packRRR, fA_packRRR, fB_packRRR]
  rfl
theorem Laws.RoundTrip.vneg (d) (a) : Laws.RoundTrip.Statement (.vneg d a) := fun h w hw => by
  cases hw; refine decode_of_fields ?_ h
  unfold decodeFields
  rw [fOp_packRRR, fX_packRRR, fD_packRRR, fA_packRRR, fB_packRRR]
  rfl
theorem Laws.RoundTrip.vabs (d) (a) : Laws.RoundTrip.Statement (.vabs d a) := fun h w hw => by
  cases hw; refine decode_of_fields ?_ h
  unfold decodeFields
  rw [fOp_packRRR, fX_packRRR, fD_packRRR, fA_packRRR, fB_packRRR]
  rfl
theorem Laws.RoundTrip.vaddc (d) (a) (b) : Laws.RoundTrip.Statement (.vaddc d a b) := fun h w hw => by
  cases hw; refine decode_of_fields ?_ h
  unfold decodeFields
  rw [fOp_packRRR, fX_packRRR, fD_packRRR, fA_packRRR, fB_packRRR]
  rfl
theorem Laws.RoundTrip.vsubb (d) (a) (b) : Laws.RoundTrip.Statement (.vsubb d a b) := fun h w hw => by
  cases hw; refine decode_of_fields ?_ h
  unfold decodeFields
  rw [fOp_packRRR, fX_packRRR, fD_packRRR, fA_packRRR, fB_packRRR]
  rfl
theorem Laws.RoundTrip.vlea (d) (a) (b) : Laws.RoundTrip.Statement (.vlea d a b) := fun h w hw => by
  cases hw; refine decode_of_fields ?_ h
  unfold decodeFields
  rw [fOp_packRRR, fX_packRRR, fD_packRRR, fA_packRRR, fB_packRRR]
  rfl
theorem Laws.RoundTrip.vsext (d) (a) (k) : Laws.RoundTrip.Statement (.vsext d a k) := fun h w hw => by
  cases hw; refine decode_of_fields ?_ h
  unfold decodeFields
  rw [fOp_packRRR, fX_packRRR, fD_packRRR, fA_packRRR, fB_packRRR]
  exact asFin_slot k (by decide) _
theorem Laws.RoundTrip.vzext (d) (a) (k) : Laws.RoundTrip.Statement (.vzext d a k) := fun h w hw => by
  cases hw; refine decode_of_fields ?_ h
  unfold decodeFields
  rw [fOp_packRRR, fX_packRRR, fD_packRRR, fA_packRRR, fB_packRRR]
  exact asFin_slot k (by decide) _
theorem Laws.RoundTrip.vaddi (d) (a) (imm) : Laws.RoundTrip.Statement (.vaddi d a imm) := fun h w hw => by
  cases hw; refine decode_of_fields ?_ h
  unfold decodeFields
  rw [fOp_packRRI, fD_packRRI, fA_packRRI, fImm11_packRRI]
  rfl
theorem Laws.RoundTrip.vandi (d) (a) (imm) : Laws.RoundTrip.Statement (.vandi d a imm) := fun h w hw => by
  cases hw; refine decode_of_fields ?_ h
  unfold decodeFields
  rw [fOp_packRRI, fD_packRRI, fA_packRRI, fImm11_packRRI]
  rfl
theorem Laws.RoundTrip.vori (d) (a) (imm) : Laws.RoundTrip.Statement (.vori d a imm) := fun h w hw => by
  cases hw; refine decode_of_fields ?_ h
  unfold decodeFields
  rw [fOp_packRRI, fD_packRRI, fA_packRRI, fImm11_packRRI]
  rfl
theorem Laws.RoundTrip.vshli (d) (a) (imm) : Laws.RoundTrip.Statement (.vshli d a imm) := fun h w hw => by
  cases hw; refine decode_of_fields ?_ h
  unfold decodeFields
  rw [fOp_packRRI, fD_packRRI, fA_packRRI, fImm11_packRRI]
  rfl
theorem Laws.RoundTrip.vshri (d) (a) (imm) : Laws.RoundTrip.Statement (.vshri d a imm) := fun h w hw => by
  cases hw; refine decode_of_fields ?_ h
  unfold decodeFields
  rw [fOp_packRRI, fD_packRRI, fA_packRRI, fImm11_packRRI]
  rfl
theorem Laws.RoundTrip.vsari (d) (a) (imm) : Laws.RoundTrip.Statement (.vsari d a imm) := fun h w hw => by
  cases hw; refine decode_of_fields ?_ h
  unfold decodeFields
  rw [fOp_packRRI, fD_packRRI, fA_packRRI, fImm11_packRRI]
  rfl
theorem Laws.RoundTrip.vmovi (d) (imm) : Laws.RoundTrip.Statement (.vmovi d imm) := fun h w hw => by
  cases hw; refine decode_of_fields ?_ h
  unfold decodeFields
  rw [fOp_packRI, fD_packRI, fImm18_packRI]
  rfl
theorem Laws.RoundTrip.vdiv (d) (a) (b) (la) : Laws.RoundTrip.Statement (.vdiv d a b la) := fun h w hw => by
  cases hw; refine decode_of_fields ?_ h
  unfold decodeFields
  rw [fOp_packRRR, fX_packRRR, fD_packRRR, fA_packRRR, fB_packRRR]
  rfl
theorem Laws.RoundTrip.vrem (d) (a) (b) (la) : Laws.RoundTrip.Statement (.vrem d a b la) := fun h w hw => by
  cases hw; refine decode_of_fields ?_ h
  unfold decodeFields
  rw [fOp_packRRR, fX_packRRR, fD_packRRR, fA_packRRR, fB_packRRR]
  rfl
theorem Laws.RoundTrip.fadd (d) (a) (b) (rm) : Laws.RoundTrip.Statement (.fadd d a b rm) := fun h w hw => by
  cases hw; refine decode_of_fields ?_ h
  unfold decodeFields
  rw [fOp_packRRR, fX_packRRR, fD_packRRR, fA_packRRR, fB_packRRR]
  exact asCode_RmX rm _
theorem Laws.RoundTrip.fsub (d) (a) (b) (rm) : Laws.RoundTrip.Statement (.fsub d a b rm) := fun h w hw => by
  cases hw; refine decode_of_fields ?_ h
  unfold decodeFields
  rw [fOp_packRRR, fX_packRRR, fD_packRRR, fA_packRRR, fB_packRRR]
  exact asCode_RmX rm _
theorem Laws.RoundTrip.fmul (d) (a) (b) (rm) : Laws.RoundTrip.Statement (.fmul d a b rm) := fun h w hw => by
  cases hw; refine decode_of_fields ?_ h
  unfold decodeFields
  rw [fOp_packRRR, fX_packRRR, fD_packRRR, fA_packRRR, fB_packRRR]
  exact asCode_RmX rm _
theorem Laws.RoundTrip.ffma (d) (a) (b) (rm) : Laws.RoundTrip.Statement (.ffma d a b rm) := fun h w hw => by
  cases hw; refine decode_of_fields ?_ h
  unfold decodeFields
  rw [fOp_packRRR, fX_packRRR, fD_packRRR, fA_packRRR, fB_packRRR]
  exact asCode_RmX rm _
theorem Laws.RoundTrip.ffms (d) (a) (b) (rm) : Laws.RoundTrip.Statement (.ffms d a b rm) := fun h w hw => by
  cases hw; refine decode_of_fields ?_ h
  unfold decodeFields
  rw [fOp_packRRR, fX_packRRR, fD_packRRR, fA_packRRR, fB_packRRR]
  exact asCode_RmX rm _
theorem Laws.RoundTrip.fnfma (d) (a) (b) (rm) : Laws.RoundTrip.Statement (.fnfma d a b rm) := fun h w hw => by
  cases hw; refine decode_of_fields ?_ h
  unfold decodeFields
  rw [fOp_packRRR, fX_packRRR, fD_packRRR, fA_packRRR, fB_packRRR]
  exact asCode_RmX rm _
theorem Laws.RoundTrip.fmin (d) (a) (b) : Laws.RoundTrip.Statement (.fmin d a b) := fun h w hw => by
  cases hw; refine decode_of_fields ?_ h
  unfold decodeFields
  rw [fOp_packRRR, fX_packRRR, fD_packRRR, fA_packRRR, fB_packRRR]
  rfl
theorem Laws.RoundTrip.fmax (d) (a) (b) : Laws.RoundTrip.Statement (.fmax d a b) := fun h w hw => by
  cases hw; refine decode_of_fields ?_ h
  unfold decodeFields
  rw [fOp_packRRR, fX_packRRR, fD_packRRR, fA_packRRR, fB_packRRR]
  rfl
theorem Laws.RoundTrip.fminnum (d) (a) (b) : Laws.RoundTrip.Statement (.fminnum d a b) := fun h w hw => by
  cases hw; refine decode_of_fields ?_ h
  unfold decodeFields
  rw [fOp_packRRR, fX_packRRR, fD_packRRR, fA_packRRR, fB_packRRR]
  rfl
theorem Laws.RoundTrip.fmaxnum (d) (a) (b) : Laws.RoundTrip.Statement (.fmaxnum d a b) := fun h w hw => by
  cases hw; refine decode_of_fields ?_ h
  unfold decodeFields
  rw [fOp_packRRR, fX_packRRR, fD_packRRR, fA_packRRR, fB_packRRR]
  rfl
theorem Laws.RoundTrip.fsgnj (d) (a) (b) : Laws.RoundTrip.Statement (.fsgnj d a b) := fun h w hw => by
  cases hw; refine decode_of_fields ?_ h
  unfold decodeFields
  rw [fOp_packRRR, fX_packRRR, fD_packRRR, fA_packRRR, fB_packRRR]
  rfl
theorem Laws.RoundTrip.fsgnjn (d) (a) (b) : Laws.RoundTrip.Statement (.fsgnjn d a b) := fun h w hw => by
  cases hw; refine decode_of_fields ?_ h
  unfold decodeFields
  rw [fOp_packRRR, fX_packRRR, fD_packRRR, fA_packRRR, fB_packRRR]
  rfl
theorem Laws.RoundTrip.fabs (d) (a) : Laws.RoundTrip.Statement (.fabs d a) := fun h w hw => by
  cases hw; refine decode_of_fields ?_ h
  unfold decodeFields
  rw [fOp_packRRR, fX_packRRR, fD_packRRR, fA_packRRR, fB_packRRR]
  rfl
theorem Laws.RoundTrip.fneg (d) (a) : Laws.RoundTrip.Statement (.fneg d a) := fun h w hw => by
  cases hw; refine decode_of_fields ?_ h
  unfold decodeFields
  rw [fOp_packRRR, fX_packRRR, fD_packRRR, fA_packRRR, fB_packRRR]
  rfl
theorem Laws.RoundTrip.fclass (d) (a) : Laws.RoundTrip.Statement (.fclass d a) := fun h w hw => by
  cases hw; refine decode_of_fields ?_ h
  unfold decodeFields
  rw [fOp_packRRR, fX_packRRR, fD_packRRR, fA_packRRR, fB_packRRR]
  rfl
theorem Laws.RoundTrip.fscale (d) (a) (b) : Laws.RoundTrip.Statement (.fscale d a b) := fun h w hw => by
  cases hw; refine decode_of_fields ?_ h
  unfold decodeFields
  rw [fOp_packRRR, fX_packRRR, fD_packRRR, fA_packRRR, fB_packRRR]
  rfl
theorem Laws.RoundTrip.fcmp (p) (a) (b) (c) : Laws.RoundTrip.Statement (.fcmp p a b c) := fun h w hw => by
  cases hw; refine decode_of_fields ?_ h
  unfold decodeFields
  rw [fOp_packRRR, fX_packRRR, fD_packRRR, fA_packRRR, fB_packRRR]
  refine (asFin_slot p (by decide) _).trans ?_
  exact asCode_FCondX c _
theorem Laws.RoundTrip.fdot2 (d) (a) (b) (rm) : Laws.RoundTrip.Statement (.fdot2 d a b rm) := fun h w hw => by
  cases hw; refine decode_of_fields ?_ h
  unfold decodeFields
  rw [fOp_packRRR, fX_packRRR, fD_packRRR, fA_packRRR, fB_packRRR]
  exact asCode_RmX rm _
theorem Laws.RoundTrip.frcp (d) (a) (la) : Laws.RoundTrip.Statement (.frcp d a la) := fun h w hw => by
  cases hw; refine decode_of_fields ?_ h
  unfold decodeFields
  rw [fOp_packRRR, fB_packRRR, fX_packRRR, fD_packRRR, fA_packRRR]
  rfl
theorem Laws.RoundTrip.frsq (d) (a) (la) : Laws.RoundTrip.Statement (.frsq d a la) := fun h w hw => by
  cases hw; refine decode_of_fields ?_ h
  unfold decodeFields
  rw [fOp_packRRR, fB_packRRR, fX_packRRR, fD_packRRR, fA_packRRR]
  rfl
theorem Laws.RoundTrip.fsqrt (d) (a) (la) : Laws.RoundTrip.Statement (.fsqrt d a la) := fun h w hw => by
  cases hw; refine decode_of_fields ?_ h
  unfold decodeFields
  rw [fOp_packRRR, fB_packRRR, fX_packRRR, fD_packRRR, fA_packRRR]
  rfl
theorem Laws.RoundTrip.fexp2 (d) (a) (la) : Laws.RoundTrip.Statement (.fexp2 d a la) := fun h w hw => by
  cases hw; refine decode_of_fields ?_ h
  unfold decodeFields
  rw [fOp_packRRR, fB_packRRR, fX_packRRR, fD_packRRR, fA_packRRR]
  rfl
theorem Laws.RoundTrip.flog2 (d) (a) (la) : Laws.RoundTrip.Statement (.flog2 d a la) := fun h w hw => by
  cases hw; refine decode_of_fields ?_ h
  unfold decodeFields
  rw [fOp_packRRR, fB_packRRR, fX_packRRR, fD_packRRR, fA_packRRR]
  rfl
theorem Laws.RoundTrip.fsin (d) (a) (la) : Laws.RoundTrip.Statement (.fsin d a la) := fun h w hw => by
  cases hw; refine decode_of_fields ?_ h
  unfold decodeFields
  rw [fOp_packRRR, fB_packRRR, fX_packRRR, fD_packRRR, fA_packRRR]
  rfl
theorem Laws.RoundTrip.fcos (d) (a) (la) : Laws.RoundTrip.Statement (.fcos d a la) := fun h w hw => by
  cases hw; refine decode_of_fields ?_ h
  unfold decodeFields
  rw [fOp_packRRR, fB_packRRR, fX_packRRR, fD_packRRR, fA_packRRR]
  rfl
theorem Laws.RoundTrip.ftanh (d) (a) (la) : Laws.RoundTrip.Statement (.ftanh d a la) := fun h w hw => by
  cases hw; refine decode_of_fields ?_ h
  unfold decodeFields
  rw [fOp_packRRR, fB_packRRR, fX_packRRR, fD_packRRR, fA_packRRR]
  rfl
theorem Laws.RoundTrip.fdiv (d) (a) (b) (la) : Laws.RoundTrip.Statement (.fdiv d a b la) := fun h w hw => by
  cases hw; refine decode_of_fields ?_ h
  unfold decodeFields
  rw [fOp_packRRR, fX_packRRR, fD_packRRR, fA_packRRR, fB_packRRR]
  rfl
theorem Laws.RoundTrip.frnd (d) (a) (rm) : Laws.RoundTrip.Statement (.frnd d a rm) := fun h w hw => by
  cases hw; refine decode_of_fields ?_ h
  unfold decodeFields
  rw [fOp_packRRR, fX_packRRR, fD_packRRR, fA_packRRR, fB_packRRR]
  refine (zero_zero _).trans ?_
  exact asCode_RmX rm _
theorem Laws.RoundTrip.cvt (d) (a) (ty) (rm) : Laws.RoundTrip.Statement (.cvt d a ty rm) := fun h w hw => by
  cases hw; refine decode_of_fields ?_ h
  unfold decodeFields
  rw [fOp_packRRR, fX_packRRR, fD_packRRR, fA_packRRR, fB_packRRR]
  refine (asCode_TySlot ty _).trans ?_
  exact asCode_RmX rm _
theorem Laws.RoundTrip.fpack (d) (a) (b) (rm) : Laws.RoundTrip.Statement (.fpack d a b rm) := fun h w hw => by
  cases hw; refine decode_of_fields ?_ h
  unfold decodeFields
  rw [fOp_packRRR, fX_packRRR, fD_packRRR, fA_packRRR, fB_packRRR]
  exact asCode_RmX rm _
theorem Laws.RoundTrip.rnd (d) : Laws.RoundTrip.Statement (.rnd d) := fun h w hw => by
  cases hw; refine decode_of_fields ?_ h
  unfold decodeFields
  rw [fOp_packRRR, fB_packRRR, fX_packRRR, fD_packRRR, fA_packRRR]
  rfl
theorem Laws.RoundTrip.rndf (d) : Laws.RoundTrip.Statement (.rndf d) := fun h w hw => by
  cases hw; refine decode_of_fields ?_ h
  unfold decodeFields
  rw [fOp_packRRR, fB_packRRR, fX_packRRR, fD_packRRR, fA_packRRR]
  rfl
theorem Laws.RoundTrip.rndskip (a) : Laws.RoundTrip.Statement (.rndskip a) := fun h w hw => by
  cases hw; refine decode_of_fields ?_ h
  unfold decodeFields
  rw [fOp_packRRR, fB_packRRR, fX_packRRR, fD_packRRR, fA_packRRR]
  rfl
theorem Laws.RoundTrip.xshfl (d) (a) (b) (la) : Laws.RoundTrip.Statement (.xshfl d a b la) := fun h w hw => by
  cases hw; refine decode_of_fields ?_ h
  unfold decodeFields
  rw [fOp_packRRR, fX_packRRR, fD_packRRR, fA_packRRR, fB_packRRR]
  rfl
theorem Laws.RoundTrip.xrot (d) (a) (b) (la) : Laws.RoundTrip.Statement (.xrot d a b la) := fun h w hw => by
  cases hw; refine decode_of_fields ?_ h
  unfold decodeFields
  rw [fOp_packRRR, fX_packRRR, fD_packRRR, fA_packRRR, fB_packRRR]
  rfl
theorem Laws.RoundTrip.xbcast (d) (a) (b) (la) : Laws.RoundTrip.Statement (.xbcast d a b la) := fun h w hw => by
  cases hw; refine decode_of_fields ?_ h
  unfold decodeFields
  rw [fOp_packRRR, fX_packRRR, fD_packRRR, fA_packRRR, fB_packRRR]
  rfl
theorem Laws.RoundTrip.xreduce (d) (a) (op) (la) : Laws.RoundTrip.Statement (.xreduce d a op la) := fun h w hw => by
  cases hw; refine decode_of_fields ?_ h
  unfold decodeFields
  rw [fOp_packRRR, fX_packRRR, fD_packRRR, fA_packRRR, fB_packRRR]
  exact asCode_XOpSlot op _
theorem Laws.RoundTrip.xscani (d) (a) (op) (la) : Laws.RoundTrip.Statement (.xscani d a op la) := fun h w hw => by
  cases hw; refine decode_of_fields ?_ h
  unfold decodeFields
  rw [fOp_packRRR, fX_packRRR, fD_packRRR, fA_packRRR, fB_packRRR]
  exact asCode_XOpSlot op _
theorem Laws.RoundTrip.xscane (d) (a) (op) (la) : Laws.RoundTrip.Statement (.xscane d a op la) := fun h w hw => by
  cases hw; refine decode_of_fields ?_ h
  unfold decodeFields
  rw [fOp_packRRR, fX_packRRR, fD_packRRR, fA_packRRR, fB_packRRR]
  exact asCode_XOpSlot op _
theorem Laws.RoundTrip.xmadd (d) (a) (b) (la) : Laws.RoundTrip.Statement (.xmadd d a b la) := fun h w hw => by
  cases hw; refine decode_of_fields ?_ h
  unfold decodeFields
  rw [fOp_packRRR, fX_packRRR, fD_packRRR, fA_packRRR, fB_packRRR]
  rfl
theorem Laws.RoundTrip.xmmin (d) (a) (b) (la) : Laws.RoundTrip.Statement (.xmmin d a b la) := fun h w hw => by
  cases hw; refine decode_of_fields ?_ h
  unfold decodeFields
  rw [fOp_packRRR, fX_packRRR, fD_packRRR, fA_packRRR, fB_packRRR]
  rfl
theorem Laws.RoundTrip.xmmax (d) (a) (b) (la) : Laws.RoundTrip.Statement (.xmmax d a b la) := fun h w hw => by
  cases hw; refine decode_of_fields ?_ h
  unfold decodeFields
  rw [fOp_packRRR, fX_packRRR, fD_packRRR, fA_packRRR, fB_packRRR]
  rfl
theorem Laws.RoundTrip.xmor (d) (a) (b) (la) : Laws.RoundTrip.Statement (.xmor d a b la) := fun h w hw => by
  cases hw; refine decode_of_fields ?_ h
  unfold decodeFields
  rw [fOp_packRRR, fX_packRRR, fD_packRRR, fA_packRRR, fB_packRRR]
  rfl
theorem Laws.RoundTrip.xballot (d) (p) (la) : Laws.RoundTrip.Statement (.xballot d p la) := fun h w hw => by
  cases hw; refine decode_of_fields ?_ h
  unfold decodeFields
  rw [fOp_packRRR, fB_packRRR, fX_packRRR, fD_packRRR, fA_packRRR]
  exact asFin_slot p (by decide) _
theorem Laws.RoundTrip.xany (q) (p) (la) : Laws.RoundTrip.Statement (.xany q p la) := fun h w hw => by
  cases hw; refine decode_of_fields ?_ h
  unfold decodeFields
  rw [fOp_packRRR, fB_packRRR, fX_packRRR, fD_packRRR, fA_packRRR]
  refine (asFin_slot q (by decide) _).trans ?_
  exact asFin_slot p (by decide) _
theorem Laws.RoundTrip.xall (q) (p) (la) : Laws.RoundTrip.Statement (.xall q p la) := fun h w hw => by
  cases hw; refine decode_of_fields ?_ h
  unfold decodeFields
  rw [fOp_packRRR, fB_packRRR, fX_packRRR, fD_packRRR, fA_packRRR]
  refine (asFin_slot q (by decide) _).trans ?_
  exact asFin_slot p (by decide) _
theorem Laws.RoundTrip.xcount (d) (p) (la) : Laws.RoundTrip.Statement (.xcount d p la) := fun h w hw => by
  cases hw; refine decode_of_fields ?_ h
  unfold decodeFields
  rw [fOp_packRRR, fB_packRRR, fX_packRRR, fD_packRRR, fA_packRRR]
  exact asFin_slot p (by decide) _
theorem Laws.RoundTrip.xfirst (d) (p) (la) : Laws.RoundTrip.Statement (.xfirst d p la) := fun h w hw => by
  cases hw; refine decode_of_fields ?_ h
  unfold decodeFields
  rw [fOp_packRRR, fB_packRRR, fX_packRRR, fD_packRRR, fA_packRRR]
  exact asFin_slot p (by decide) _
theorem Laws.RoundTrip.lkacq (d) (a) (m) : Laws.RoundTrip.Statement (.lkacq d a m) := fun h w hw => by
  cases hw; refine decode_of_fields ?_ h
  unfold decodeFields
  rw [fOp_packRRR, fX_packRRR, fD_packRRR, fA_packRRR, fB_packRRR]
  exact asCode_LkModeSlot m _
theorem Laws.RoundTrip.lktry (d) (a) (m) : Laws.RoundTrip.Statement (.lktry d a m) := fun h w hw => by
  cases hw; refine decode_of_fields ?_ h
  unfold decodeFields
  rw [fOp_packRRR, fX_packRRR, fD_packRRR, fA_packRRR, fB_packRRR]
  exact asCode_LkModeSlot m _
theorem Laws.RoundTrip.lkup (d) (a) (m) : Laws.RoundTrip.Statement (.lkup d a m) := fun h w hw => by
  cases hw; refine decode_of_fields ?_ h
  unfold decodeFields
  rw [fOp_packRRR, fX_packRRR, fD_packRRR, fA_packRRR, fB_packRRR]
  exact asCode_LkModeSlot m _
theorem Laws.RoundTrip.lkdown (d) (a) (m) : Laws.RoundTrip.Statement (.lkdown d a m) := fun h w hw => by
  cases hw; refine decode_of_fields ?_ h
  unfold decodeFields
  rw [fOp_packRRR, fX_packRRR, fD_packRRR, fA_packRRR, fB_packRRR]
  exact asCode_LkModeSlot m _
theorem Laws.RoundTrip.lkrel (d) (a) : Laws.RoundTrip.Statement (.lkrel d a) := fun h w hw => by
  cases hw; refine decode_of_fields ?_ h
  unfold decodeFields
  rw [fOp_packRRR, fX_packRRR, fD_packRRR, fA_packRRR, fB_packRRR]
  rfl
theorem Laws.RoundTrip.lkstat (d) (a) : Laws.RoundTrip.Statement (.lkstat d a) := fun h w hw => by
  cases hw; refine decode_of_fields ?_ h
  unfold decodeFields
  rw [fOp_packRRR, fX_packRRR, fD_packRRR, fA_packRRR, fB_packRRR]
  rfl
theorem Laws.RoundTrip.lktab (d) (a) : Laws.RoundTrip.Statement (.lktab d a) := fun h w hw => by
  cases hw; refine decode_of_fields ?_ h
  unfold decodeFields
  rw [fOp_packRRR, fX_packRRR, fD_packRRR, fA_packRRR, fB_packRRR]
  rfl
theorem Laws.RoundTrip.bar (n) : Laws.RoundTrip.Statement (.bar n) := fun h w hw => by
  cases hw; refine decode_of_fields ?_ h
  unfold decodeFields
  rw [fOp_packRRR, fX_packRRR, fD_packRRR, fA_packRRR, fB_packRRR]
  refine (zero_zero _).trans ?_
  refine (zero_zero _).trans ?_
  exact asFin_slot n (by decide) _
theorem Laws.RoundTrip.bararr (n) : Laws.RoundTrip.Statement (.bararr n) := fun h w hw => by
  cases hw; refine decode_of_fields ?_ h
  unfold decodeFields
  rw [fOp_packRRR, fX_packRRR, fD_packRRR, fA_packRRR, fB_packRRR]
  refine (zero_zero _).trans ?_
  refine (zero_zero _).trans ?_
  exact asFin_slot n (by decide) _
theorem Laws.RoundTrip.barwait (n) : Laws.RoundTrip.Statement (.barwait n) := fun h w hw => by
  cases hw; refine decode_of_fields ?_ h
  unfold decodeFields
  rw [fOp_packRRR, fX_packRRR, fD_packRRR, fA_packRRR, fB_packRRR]
  refine (zero_zero _).trans ?_
  refine (zero_zero _).trans ?_
  exact asFin_slot n (by decide) _
theorem Laws.RoundTrip.cbar : Laws.RoundTrip.Statement .cbar := fun h w hw => by
  cases hw; refine decode_of_fields ?_ h
  unfold decodeFields
  rw [fOp_packRRR, fX_packRRR, fD_packRRR, fA_packRRR, fB_packRRR]
  rfl
theorem Laws.RoundTrip.tkwait (d) (k) : Laws.RoundTrip.Statement (.tkwait d k) := fun h w hw => by
  cases hw; refine decode_of_fields ?_ h
  unfold decodeFields
  rw [fOp_packRRR, fX_packRRR, fD_packRRR, fA_packRRR, fB_packRRR]
  refine (zero_zero _).trans ?_
  exact asFin_slot k (by decide) _
theorem Laws.RoundTrip.tkpass (d) (k) : Laws.RoundTrip.Statement (.tkpass d k) := fun h w hw => by
  cases hw; refine decode_of_fields ?_ h
  unfold decodeFields
  rw [fOp_packRRR, fX_packRRR, fB_packRRR, fA_packRRR, fD_packRRR]
  exact asFin_slot k (by decide) _
theorem Laws.RoundTrip.tkpassPoison (d) (k) : Laws.RoundTrip.Statement (.tkpassPoison d k) := fun h w hw => by
  cases hw; refine decode_of_fields ?_ h
  unfold decodeFields
  rw [fOp_packRRR, fX_packRRR, fB_packRRR, fA_packRRR, fD_packRRR]
  exact asFin_slot k (by decide) _
theorem Laws.RoundTrip.fence (p) (q) : Laws.RoundTrip.Statement (.fence p q) := fun h w hw => by
  cases hw; refine decode_of_fields ?_ h
  unfold decodeFields
  rw [fOp_packRRR, fX_packRRR, fB_packRRR, fA_packRRR, fD_packRRR]
  refine (zero_zero _).trans ?_
  refine (asMask_slot p _).trans ?_
  exact asMask_slot q _
theorem Laws.RoundTrip.hmake (d) (a) (buf) : Laws.RoundTrip.Statement (.hmake d a buf) := fun h w hw => by
  cases hw; refine decode_of_fields ?_ h
  unfold decodeFields
  rw [fOp_packRRR, fX_packRRR, fD_packRRR, fA_packRRR, fB_packRRR]
  exact asCode_BufSlot buf _
theorem Laws.RoundTrip.hgive (d) (a) (b) : Laws.RoundTrip.Statement (.hgive d a b) := fun h w hw => by
  cases hw; refine decode_of_fields ?_ h
  unfold decodeFields
  rw [fOp_packRRR, fX_packRRR, fD_packRRR, fA_packRRR, fB_packRRR]
  rfl
theorem Laws.RoundTrip.htake (d) (a) : Laws.RoundTrip.Statement (.htake d a) := fun h w hw => by
  cases hw; refine decode_of_fields ?_ h
  unfold decodeFields
  rw [fOp_packRRR, fX_packRRR, fD_packRRR, fA_packRRR, fB_packRRR]
  rfl
theorem Laws.RoundTrip.hdrop (d) (a) : Laws.RoundTrip.Statement (.hdrop d a) := fun h w hw => by
  cases hw; refine decode_of_fields ?_ h
  unfold decodeFields
  rw [fOp_packRRR, fX_packRRR, fD_packRRR, fA_packRRR, fB_packRRR]
  rfl
theorem Laws.RoundTrip.hquery (d) (a) : Laws.RoundTrip.Statement (.hquery d a) := fun h w hw => by
  cases hw; refine decode_of_fields ?_ h
  unfold decodeFields
  rw [fOp_packRRR, fX_packRRR, fD_packRRR, fA_packRRR, fB_packRRR]
  rfl
theorem Laws.RoundTrip.vmov (d) (a) : Laws.RoundTrip.Statement (.vmov d a) := fun h w hw => by
  cases hw; refine decode_of_fields ?_ h
  unfold decodeFields
  rw [fOp_packRRR, fX_packRRR, fD_packRRR, fA_packRRR, fB_packRRR]
  rfl
theorem Laws.RoundTrip.vmovs (d) (a) : Laws.RoundTrip.Statement (.vmovs d a) := fun h w hw => by
  cases hw; refine decode_of_fields ?_ h
  unfold decodeFields
  rw [fOp_packRRR, fX_packRRR, fD_packRRR, fA_packRRR, fB_packRRR]
  rfl
theorem Laws.RoundTrip.vrdl (d) (a) (b) : Laws.RoundTrip.Statement (.vrdl d a b) := fun h w hw => by
  cases hw; refine decode_of_fields ?_ h
  unfold decodeFields
  rw [fOp_packRRR, fX_packRRR, fD_packRRR, fA_packRRR, fB_packRRR]
  rfl
theorem Laws.RoundTrip.vwrl (d) (a) (b) : Laws.RoundTrip.Statement (.vwrl d a b) := fun h w hw => by
  cases hw; refine decode_of_fields ?_ h
  unfold decodeFields
  rw [fOp_packRRR, fX_packRRR, fD_packRRR, fA_packRRR, fB_packRRR]
  rfl
theorem Laws.RoundTrip.pand (d) (a) (b) : Laws.RoundTrip.Statement (.pand d a b) := fun h w hw => by
  cases hw; refine decode_of_fields ?_ h
  unfold decodeFields
  rw [fOp_packRRR, fX_packRRR, fD_packRRR, fA_packRRR, fB_packRRR]
  refine (asFin_slot d (by decide) _).trans ?_
  refine (asFin_slot a (by decide) _).trans ?_
  exact asFin_slot b (by decide) _
theorem Laws.RoundTrip.por (d) (a) (b) : Laws.RoundTrip.Statement (.por d a b) := fun h w hw => by
  cases hw; refine decode_of_fields ?_ h
  unfold decodeFields
  rw [fOp_packRRR, fX_packRRR, fD_packRRR, fA_packRRR, fB_packRRR]
  refine (asFin_slot d (by decide) _).trans ?_
  refine (asFin_slot a (by decide) _).trans ?_
  exact asFin_slot b (by decide) _
theorem Laws.RoundTrip.pxor (d) (a) (b) : Laws.RoundTrip.Statement (.pxor d a b) := fun h w hw => by
  cases hw; refine decode_of_fields ?_ h
  unfold decodeFields
  rw [fOp_packRRR, fX_packRRR, fD_packRRR, fA_packRRR, fB_packRRR]
  refine (asFin_slot d (by decide) _).trans ?_
  refine (asFin_slot a (by decide) _).trans ?_
  exact asFin_slot b (by decide) _
theorem Laws.RoundTrip.pnot (d) (a) : Laws.RoundTrip.Statement (.pnot d a) := fun h w hw => by
  cases hw; refine decode_of_fields ?_ h
  unfold decodeFields
  rw [fOp_packRRR, fX_packRRR, fD_packRRR, fA_packRRR, fB_packRRR]
  refine (zero_zero _).trans ?_
  refine (asFin_slot d (by decide) _).trans ?_
  exact asFin_slot a (by decide) _
theorem Laws.RoundTrip.pset (d) : Laws.RoundTrip.Statement (.pset d) := fun h w hw => by
  cases hw; refine decode_of_fields ?_ h
  unfold decodeFields
  rw [fOp_packRRR, fX_packRRR, fD_packRRR, fA_packRRR, fB_packRRR]
  refine (zero_zero _).trans ?_
  refine (zero_zero _).trans ?_
  exact asFin_slot d (by decide) _
theorem Laws.RoundTrip.pclr (d) : Laws.RoundTrip.Statement (.pclr d) := fun h w hw => by
  cases hw; refine decode_of_fields ?_ h
  unfold decodeFields
  rw [fOp_packRRR, fX_packRRR, fD_packRRR, fA_packRRR, fB_packRRR]
  refine (zero_zero _).trans ?_
  refine (zero_zero _).trans ?_
  exact asFin_slot d (by decide) _
theorem Laws.RoundTrip.pmovs (p) (a) : Laws.RoundTrip.Statement (.pmovs p a) := fun h w hw => by
  cases hw; refine decode_of_fields ?_ h
  unfold decodeFields
  rw [fOp_packRRR, fX_packRRR, fD_packRRR, fA_packRRR, fB_packRRR]
  refine (zero_zero _).trans ?_
  refine (zero_zero _).trans ?_
  exact asFin_slot p (by decide) _
theorem Laws.RoundTrip.smovp (d) (p) : Laws.RoundTrip.Statement (.smovp d p) := fun h w hw => by
  cases hw; refine decode_of_fields ?_ h
  unfold decodeFields
  rw [fOp_packRRR, fX_packRRR, fD_packRRR, fA_packRRR, fB_packRRR]
  refine (zero_zero _).trans ?_
  refine (zero_zero _).trans ?_
  exact asFin_slot p (by decide) _
theorem Laws.RoundTrip.grow (imm) : Laws.RoundTrip.Statement (.grow imm) := fun h w hw => by
  cases hw; refine decode_of_fields ?_ h
  unfold decodeFields
  rw [fOp_packRI, fD_packRI, fImm18_packRI]
  rfl
theorem Laws.RoundTrip.shrink (imm) : Laws.RoundTrip.Statement (.shrink imm) := fun h w hw => by
  cases hw; refine decode_of_fields ?_ h
  unfold decodeFields
  rw [fOp_packRI, fD_packRI, fImm18_packRI]
  rfl
theorem Laws.RoundTrip.srd (d) (n) : Laws.RoundTrip.Statement (.srd d n) := fun h w hw => by
  cases hw; refine decode_of_fields ?_ h
  unfold decodeFields
  rw [fOp_packRRI, fD_packRRI, fA_packRRI, fImm11_packRRI]
  refine (zero_zero _).trans ?_
  exact asCode_SpecReg n _
theorem Laws.RoundTrip.swr (a) (n) : Laws.RoundTrip.Statement (.swr a n) := fun h w hw => by
  cases hw; refine decode_of_fields ?_ h
  unfold decodeFields
  rw [fOp_packRRI, fD_packRRI, fA_packRRI, fImm11_packRRI]
  refine (zero_zero _).trans ?_
  exact asCode_SpecReg n _
theorem Laws.RoundTrip.cpy (d) (a) (b) (stream) : Laws.RoundTrip.Statement (.cpy d a b stream) := fun h w hw => by
  cases hw; refine decode_of_fields ?_ h
  unfold decodeFields
  rw [fOp_packRRR, fX_packRRR, fD_packRRR, fA_packRRR, fB_packRRR]
  rfl
theorem Laws.RoundTrip.mma (d) (a) (b) (stream) : Laws.RoundTrip.Statement (.mma d a b stream) := fun h w hw => by
  cases hw; refine decode_of_fields ?_ h
  unfold decodeFields
  rw [fOp_packRRR, fX_packRRR, fD_packRRR, fA_packRRR, fB_packRRR]
  rfl
theorem Laws.RoundTrip.coll (d) (a) (b) (stream) : Laws.RoundTrip.Statement (.coll d a b stream) := fun h w hw => by
  cases hw; refine decode_of_fields ?_ h
  unfold decodeFields
  rw [fOp_packRRR, fX_packRRR, fD_packRRR, fA_packRRR, fB_packRRR]
  rfl
theorem Laws.RoundTrip.tgload (d) (a) (b) : Laws.RoundTrip.Statement (.tgload d a b) := fun h w hw => by
  cases hw; refine decode_of_fields ?_ h
  unfold decodeFields
  rw [fOp_packRRR, fX_packRRR, fD_packRRR, fA_packRRR, fB_packRRR]
  rfl
theorem Laws.RoundTrip.swait (d) (b) (stream) : Laws.RoundTrip.Statement (.swait d b stream) := fun h w hw => by
  cases hw; refine decode_of_fields ?_ h
  unfold decodeFields
  rw [fOp_packRRR, fX_packRRR, fD_packRRR, fA_packRRR, fB_packRRR]
  rfl
theorem Laws.RoundTrip.spoll (d) (b) (stream) : Laws.RoundTrip.Statement (.spoll d b stream) := fun h w hw => by
  cases hw; refine decode_of_fields ?_ h
  unfold decodeFields
  rw [fOp_packRRR, fX_packRRR, fD_packRRR, fA_packRRR, fB_packRRR]
  rfl
theorem Laws.RoundTrip.ldg (d) (a) (b) (la) : Laws.RoundTrip.Statement (.ldg d a b la) := fun h w hw => by
  cases hw; refine decode_of_fields ?_ h
  unfold decodeFields
  rw [fOp_packRRR, fX_packRRR, fD_packRRR, fA_packRRR, fB_packRRR]
  rfl
theorem Laws.RoundTrip.stg (d) (a) (b) (la) : Laws.RoundTrip.Statement (.stg d a b la) := fun h w hw => by
  cases hw; refine decode_of_fields ?_ h
  unfold decodeFields
  rw [fOp_packRRR, fX_packRRR, fD_packRRR, fA_packRRR, fB_packRRR]
  rfl
theorem Laws.RoundTrip.ldgs (d) (a) (b) (la) : Laws.RoundTrip.Statement (.ldgs d a b la) := fun h w hw => by
  cases hw; refine decode_of_fields ?_ h
  unfold decodeFields
  rw [fOp_packRRR, fX_packRRR, fD_packRRR, fA_packRRR, fB_packRRR]
  rfl
theorem Laws.RoundTrip.stgs (d) (a) (b) (la) : Laws.RoundTrip.Statement (.stgs d a b la) := fun h w hw => by
  cases hw; refine decode_of_fields ?_ h
  unfold decodeFields
  rw [fOp_packRRR, fX_packRRR, fD_packRRR, fA_packRRR, fB_packRRR]
  rfl
theorem Laws.RoundTrip.ldsb (d) (a) (b) (la) : Laws.RoundTrip.Statement (.ldsb d a b la) := fun h w hw => by
  cases hw; refine decode_of_fields ?_ h
  unfold decodeFields
  rw [fOp_packRRR, fX_packRRR, fD_packRRR, fA_packRRR, fB_packRRR]
  rfl
theorem Laws.RoundTrip.stsb (d) (a) (b) (la) : Laws.RoundTrip.Statement (.stsb d a b la) := fun h w hw => by
  cases hw; refine decode_of_fields ?_ h
  unfold decodeFields
  rw [fOp_packRRR, fX_packRRR, fD_packRRR, fA_packRRR, fB_packRRR]
  rfl
theorem Laws.RoundTrip.ldab (d) (a) (b) (la) : Laws.RoundTrip.Statement (.ldab d a b la) := fun h w hw => by
  cases hw; refine decode_of_fields ?_ h
  unfold decodeFields
  rw [fOp_packRRR, fX_packRRR, fD_packRRR, fA_packRRR, fB_packRRR]
  rfl
theorem Laws.RoundTrip.stab (d) (a) (b) (la) : Laws.RoundTrip.Statement (.stab d a b la) := fun h w hw => by
  cases hw; refine decode_of_fields ?_ h
  unfold decodeFields
  rw [fOp_packRRR, fX_packRRR, fD_packRRR, fA_packRRR, fB_packRRR]
  rfl
theorem Laws.RoundTrip.ldcb (d) (a) (b) (la) : Laws.RoundTrip.Statement (.ldcb d a b la) := fun h w hw => by
  cases hw; refine decode_of_fields ?_ h
  unfold decodeFields
  rw [fOp_packRRR, fX_packRRR, fD_packRRR, fA_packRRR, fB_packRRR]
  rfl
theorem Laws.RoundTrip.stcb (d) (a) (b) (la) : Laws.RoundTrip.Statement (.stcb d a b la) := fun h w hw => by
  cases hw; refine decode_of_fields ?_ h
  unfold decodeFields
  rw [fOp_packRRR, fX_packRRR, fD_packRRR, fA_packRRR, fB_packRRR]
  rfl
theorem Laws.RoundTrip.ldh (d) (a) (b) (la) : Laws.RoundTrip.Statement (.ldh d a b la) := fun h w hw => by
  cases hw; refine decode_of_fields ?_ h
  unfold decodeFields
  rw [fOp_packRRR, fX_packRRR, fD_packRRR, fA_packRRR, fB_packRRR]
  rfl
theorem Laws.RoundTrip.sth (d) (a) (b) (la) : Laws.RoundTrip.Statement (.sth d a b la) := fun h w hw => by
  cases hw; refine decode_of_fields ?_ h
  unfold decodeFields
  rw [fOp_packRRR, fX_packRRR, fD_packRRR, fA_packRRR, fB_packRRR]
  rfl
theorem Laws.RoundTrip.pref (l2) (a) (b) : Laws.RoundTrip.Statement (.pref l2 a b) := fun h w hw => by
  cases hw; refine decode_of_fields ?_ h
  unfold decodeFields
  rw [fOp_packRRR, fX_packRRR, fD_packRRR, fA_packRRR, fB_packRRR]
  refine (zero_zero _).trans ?_
  exact asBool_slot l2 _
theorem Laws.RoundTrip.cflush (a) (b) : Laws.RoundTrip.Statement (.cflush a b) := fun h w hw => by
  cases hw; refine decode_of_fields ?_ h
  unfold decodeFields
  rw [fOp_packRRR, fX_packRRR, fD_packRRR, fA_packRRR, fB_packRRR]
  rfl
theorem Laws.RoundTrip.cinv (a) (b) : Laws.RoundTrip.Statement (.cinv a b) := fun h w hw => by
  cases hw; refine decode_of_fields ?_ h
  unfold decodeFields
  rw [fOp_packRRR, fX_packRRR, fD_packRRR, fA_packRRR, fB_packRRR]
  rfl
theorem Laws.RoundTrip.aadd (d) (a) (b) (la) : Laws.RoundTrip.Statement (.aadd d a b la) := fun h w hw => by
  cases hw; refine decode_of_fields ?_ h
  unfold decodeFields
  rw [fOp_packRRR, fX_packRRR, fD_packRRR, fA_packRRR, fB_packRRR]
  rfl
theorem Laws.RoundTrip.amin (d) (a) (b) (la) : Laws.RoundTrip.Statement (.amin d a b la) := fun h w hw => by
  cases hw; refine decode_of_fields ?_ h
  unfold decodeFields
  rw [fOp_packRRR, fX_packRRR, fD_packRRR, fA_packRRR, fB_packRRR]
  rfl
theorem Laws.RoundTrip.amax (d) (a) (b) (la) : Laws.RoundTrip.Statement (.amax d a b la) := fun h w hw => by
  cases hw; refine decode_of_fields ?_ h
  unfold decodeFields
  rw [fOp_packRRR, fX_packRRR, fD_packRRR, fA_packRRR, fB_packRRR]
  rfl
theorem Laws.RoundTrip.aand (d) (a) (b) (la) : Laws.RoundTrip.Statement (.aand d a b la) := fun h w hw => by
  cases hw; refine decode_of_fields ?_ h
  unfold decodeFields
  rw [fOp_packRRR, fX_packRRR, fD_packRRR, fA_packRRR, fB_packRRR]
  rfl
theorem Laws.RoundTrip.aor (d) (a) (b) (la) : Laws.RoundTrip.Statement (.aor d a b la) := fun h w hw => by
  cases hw; refine decode_of_fields ?_ h
  unfold decodeFields
  rw [fOp_packRRR, fX_packRRR, fD_packRRR, fA_packRRR, fB_packRRR]
  rfl
theorem Laws.RoundTrip.axor (d) (a) (b) (la) : Laws.RoundTrip.Statement (.axor d a b la) := fun h w hw => by
  cases hw; refine decode_of_fields ?_ h
  unfold decodeFields
  rw [fOp_packRRR, fX_packRRR, fD_packRRR, fA_packRRR, fB_packRRR]
  rfl
theorem Laws.RoundTrip.axchg (d) (a) (b) (la) : Laws.RoundTrip.Statement (.axchg d a b la) := fun h w hw => by
  cases hw; refine decode_of_fields ?_ h
  unfold decodeFields
  rw [fOp_packRRR, fX_packRRR, fD_packRRR, fA_packRRR, fB_packRRR]
  rfl
theorem Laws.RoundTrip.acas (d) (a) (b) (la) : Laws.RoundTrip.Statement (.acas d a b la) := fun h w hw => by
  cases hw; refine decode_of_fields ?_ h
  unfold decodeFields
  rw [fOp_packRRR, fX_packRRR, fD_packRRR, fA_packRRR, fB_packRRR]
  rfl
theorem Laws.RoundTrip.aincw (d) (a) (b) (la) : Laws.RoundTrip.Statement (.aincw d a b la) := fun h w hw => by
  cases hw; refine decode_of_fields ?_ h
  unfold decodeFields
  rw [fOp_packRRR, fX_packRRR, fD_packRRR, fA_packRRR, fB_packRRR]
  rfl
theorem Laws.RoundTrip.afadd (d) (a) (b) (la) : Laws.RoundTrip.Statement (.afadd d a b la) := fun h w hw => by
  cases hw; refine decode_of_fields ?_ h
  unfold decodeFields
  rw [fOp_packRRR, fX_packRRR, fD_packRRR, fA_packRRR, fB_packRRR]
  rfl
theorem Laws.RoundTrip.afmin (d) (a) (b) (la) : Laws.RoundTrip.Statement (.afmin d a b la) := fun h w hw => by
  cases hw; refine decode_of_fields ?_ h
  unfold decodeFields
  rw [fOp_packRRR, fX_packRRR, fD_packRRR, fA_packRRR, fB_packRRR]
  rfl
theorem Laws.RoundTrip.afmax (d) (a) (b) (la) : Laws.RoundTrip.Statement (.afmax d a b la) := fun h w hw => by
  cases hw; refine decode_of_fields ?_ h
  unfold decodeFields
  rw [fOp_packRRR, fX_packRRR, fD_packRRR, fA_packRRR, fB_packRRR]
  rfl
theorem Laws.RoundTrip.waitcmp (d) (a) (b) (c) : Laws.RoundTrip.Statement (.waitcmp d a b c) := fun h w hw => by
  cases hw; refine decode_of_fields ?_ h
  unfold decodeFields
  rw [fOp_packRRR, fX_packRRR, fD_packRRR, fA_packRRR, fB_packRRR]
  exact asCode_WCondX c _
theorem Laws.RoundTrip.sleepExpiry (x0) (x1) : Laws.RoundTrip.Statement (.sleepExpiry x0 x1) := Laws.RoundTrip.of_none rfl
theorem Laws.RoundTrip.revocation (x0) : Laws.RoundTrip.Statement (.revocation x0) := Laws.RoundTrip.of_none rfl
theorem Laws.RoundTrip.fflagsWrite (x0) : Laws.RoundTrip.Statement (.fflagsWrite x0) := Laws.RoundTrip.of_none rfl
theorem Laws.RoundTrip.clausestWrite (x0) : Laws.RoundTrip.Statement (.clausestWrite x0) := Laws.RoundTrip.of_none rfl
theorem Laws.RoundTrip.trapmaskWrite (x0) : Laws.RoundTrip.Statement (.trapmaskWrite x0) := Laws.RoundTrip.of_none rfl
theorem Laws.RoundTrip.activityMaskWrite (x0) (x1) : Laws.RoundTrip.Statement (.activityMaskWrite x0 x1) := Laws.RoundTrip.of_none rfl
theorem Laws.RoundTrip.cyclehiRead (x0) (x1) : Laws.RoundTrip.Statement (.cyclehiRead x0 x1) := Laws.RoundTrip.of_none rfl
theorem Laws.RoundTrip.trapbaseWrite (x0) (x1) : Laws.RoundTrip.Statement (.trapbaseWrite x0 x1) := Laws.RoundTrip.of_none rfl
theorem Laws.RoundTrip.waitcmpRecheck (x0) (x1) : Laws.RoundTrip.Statement (.waitcmpRecheck x0 x1) := Laws.RoundTrip.of_none rfl
theorem Laws.RoundTrip.monitorRepoll (x0) (x1) : Laws.RoundTrip.Statement (.monitorRepoll x0 x1) := Laws.RoundTrip.of_none rfl
theorem Laws.RoundTrip.reductionPerform (x0) : Laws.RoundTrip.Statement (.reductionPerform x0) := Laws.RoundTrip.of_none rfl
theorem Laws.RoundTrip.longComplete (x0) : Laws.RoundTrip.Statement (.longComplete x0) := Laws.RoundTrip.of_none rfl
theorem Laws.RoundTrip.cowService (x0) : Laws.RoundTrip.Statement (.cowService x0) := Laws.RoundTrip.of_none rfl
theorem Laws.RoundTrip.poolReplay (x0) : Laws.RoundTrip.Statement (.poolReplay x0) := Laws.RoundTrip.of_none rfl
theorem Laws.RoundTrip.trapEntry (x0) : Laws.RoundTrip.Statement (.trapEntry x0) := Laws.RoundTrip.of_none rfl
theorem Laws.RoundTrip.workgroupPlace (x0) (x1) (x2) : Laws.RoundTrip.Statement (.workgroupPlace x0 x1 x2) := Laws.RoundTrip.of_none rfl
theorem Laws.RoundTrip.clusterPlace (x0) (x1) (x2) (x3) : Laws.RoundTrip.Statement (.clusterPlace x0 x1 x2 x3) := Laws.RoundTrip.of_none rfl
theorem Laws.RoundTrip.swapOut (x0) : Laws.RoundTrip.Statement (.swapOut x0) := Laws.RoundTrip.of_none rfl
theorem Laws.RoundTrip.quantumCommit (x0) : Laws.RoundTrip.Statement (.quantumCommit x0) := Laws.RoundTrip.of_none rfl
theorem Laws.RoundTrip.engineCommandStart (x0) (x1) : Laws.RoundTrip.Statement (.engineCommandStart x0 x1) := Laws.RoundTrip.of_none rfl
theorem Laws.RoundTrip.copyChunk (x0) (x1) : Laws.RoundTrip.Statement (.copyChunk x0 x1) := Laws.RoundTrip.of_none rfl
theorem Laws.RoundTrip.mmaChunkCommit (x0) (x1) : Laws.RoundTrip.Statement (.mmaChunkCommit x0 x1) := Laws.RoundTrip.of_none rfl
theorem Laws.RoundTrip.engineCommandComplete (x0) (x1) : Laws.RoundTrip.Statement (.engineCommandComplete x0 x1) := Laws.RoundTrip.of_none rfl
theorem Laws.RoundTrip.collInstanceComplete (x0) (x1) (x2) : Laws.RoundTrip.Statement (.collInstanceComplete x0 x1 x2) := Laws.RoundTrip.of_none rfl
theorem Laws.RoundTrip.launch (x0) : Laws.RoundTrip.Statement (.launch x0) := Laws.RoundTrip.of_none rfl
theorem Laws.RoundTrip.ilaunch (x0) : Laws.RoundTrip.Statement (.ilaunch x0) := Laws.RoundTrip.of_none rfl
theorem Laws.RoundTrip.callbuf (x0) : Laws.RoundTrip.Statement (.callbuf x0) := Laws.RoundTrip.of_none rfl
theorem Laws.RoundTrip.retbuf (x0) : Laws.RoundTrip.Statement (.retbuf x0) := Laws.RoundTrip.of_none rfl
theorem Laws.RoundTrip.join (x0) : Laws.RoundTrip.Statement (.join x0) := Laws.RoundTrip.of_none rfl
theorem Laws.RoundTrip.signal (x0) : Laws.RoundTrip.Statement (.signal x0) := Laws.RoundTrip.of_none rfl
theorem Laws.RoundTrip.waitval (x0) : Laws.RoundTrip.Statement (.waitval x0) := Laws.RoundTrip.of_none rfl
theorem Laws.RoundTrip.waitvalSatisfied (x0) : Laws.RoundTrip.Statement (.waitvalSatisfied x0) := Laws.RoundTrip.of_none rfl
theorem Laws.RoundTrip.program (x0) : Laws.RoundTrip.Statement (.program x0) := Laws.RoundTrip.of_none rfl
theorem Laws.RoundTrip.mark (x0) : Laws.RoundTrip.Statement (.mark x0) := Laws.RoundTrip.of_none rfl
theorem Laws.RoundTrip.lookaheadRead (x0) : Laws.RoundTrip.Statement (.lookaheadRead x0) := Laws.RoundTrip.of_none rfl
theorem Laws.RoundTrip.qpDone (x0) : Laws.RoundTrip.Statement (.qpDone x0) := Laws.RoundTrip.of_none rfl
theorem Laws.RoundTrip.qpCancel (x0) : Laws.RoundTrip.Statement (.qpCancel x0) := Laws.RoundTrip.of_none rfl
theorem Laws.RoundTrip.qpRepeat (x0) : Laws.RoundTrip.Statement (.qpRepeat x0) := Laws.RoundTrip.of_none rfl
theorem Laws.RoundTrip.qpMovi (x0) (x1) (x2) : Laws.RoundTrip.Statement (.qpMovi x0 x1 x2) := Laws.RoundTrip.of_none rfl
theorem Laws.RoundTrip.qpLui (x0) (x1) (x2) : Laws.RoundTrip.Statement (.qpLui x0 x1 x2) := Laws.RoundTrip.of_none rfl
theorem Laws.RoundTrip.qpMov (x0) (x1) (x2) : Laws.RoundTrip.Statement (.qpMov x0 x1 x2) := Laws.RoundTrip.of_none rfl
theorem Laws.RoundTrip.qpAdd (x0) (x1) (x2) (x3) : Laws.RoundTrip.Statement (.qpAdd x0 x1 x2 x3) := Laws.RoundTrip.of_none rfl
theorem Laws.RoundTrip.qpSub (x0) (x1) (x2) (x3) : Laws.RoundTrip.Statement (.qpSub x0 x1 x2 x3) := Laws.RoundTrip.of_none rfl
theorem Laws.RoundTrip.qpMul (x0) (x1) (x2) (x3) : Laws.RoundTrip.Statement (.qpMul x0 x1 x2 x3) := Laws.RoundTrip.of_none rfl
theorem Laws.RoundTrip.qpAnd (x0) (x1) (x2) (x3) : Laws.RoundTrip.Statement (.qpAnd x0 x1 x2 x3) := Laws.RoundTrip.of_none rfl
theorem Laws.RoundTrip.qpOr (x0) (x1) (x2) (x3) : Laws.RoundTrip.Statement (.qpOr x0 x1 x2 x3) := Laws.RoundTrip.of_none rfl
theorem Laws.RoundTrip.qpXor (x0) (x1) (x2) (x3) : Laws.RoundTrip.Statement (.qpXor x0 x1 x2 x3) := Laws.RoundTrip.of_none rfl
theorem Laws.RoundTrip.qpShl (x0) (x1) (x2) (x3) : Laws.RoundTrip.Statement (.qpShl x0 x1 x2 x3) := Laws.RoundTrip.of_none rfl
theorem Laws.RoundTrip.qpShr (x0) (x1) (x2) (x3) : Laws.RoundTrip.Statement (.qpShr x0 x1 x2 x3) := Laws.RoundTrip.of_none rfl
theorem Laws.RoundTrip.qpAddi (x0) (x1) (x2) (x3) : Laws.RoundTrip.Statement (.qpAddi x0 x1 x2 x3) := Laws.RoundTrip.of_none rfl
theorem Laws.RoundTrip.qpDivu (x0) (x1) (x2) (x3) : Laws.RoundTrip.Statement (.qpDivu x0 x1 x2 x3) := Laws.RoundTrip.of_none rfl
theorem Laws.RoundTrip.qpRemu (x0) (x1) (x2) (x3) : Laws.RoundTrip.Statement (.qpRemu x0 x1 x2 x3) := Laws.RoundTrip.of_none rfl
theorem Laws.RoundTrip.qpMinu (x0) (x1) (x2) (x3) : Laws.RoundTrip.Statement (.qpMinu x0 x1 x2 x3) := Laws.RoundTrip.of_none rfl
theorem Laws.RoundTrip.qpMaxu (x0) (x1) (x2) (x3) : Laws.RoundTrip.Statement (.qpMaxu x0 x1 x2 x3) := Laws.RoundTrip.of_none rfl
theorem Laws.RoundTrip.qpLd64 (x0) (x1) (x2) (x3) (x4) : Laws.RoundTrip.Statement (.qpLd64 x0 x1 x2 x3 x4) := Laws.RoundTrip.of_none rfl
theorem Laws.RoundTrip.qpLd32 (x0) (x1) (x2) (x3) (x4) : Laws.RoundTrip.Statement (.qpLd32 x0 x1 x2 x3 x4) := Laws.RoundTrip.of_none rfl
theorem Laws.RoundTrip.qpSt64 (x0) (x1) (x2) (x3) (x4) : Laws.RoundTrip.Statement (.qpSt64 x0 x1 x2 x3 x4) := Laws.RoundTrip.of_none rfl
theorem Laws.RoundTrip.qpSt32 (x0) (x1) (x2) (x3) (x4) : Laws.RoundTrip.Statement (.qpSt32 x0 x1 x2 x3 x4) := Laws.RoundTrip.of_none rfl
theorem Laws.RoundTrip.qpHwr (x0) (x1) (x2) (x3) : Laws.RoundTrip.Statement (.qpHwr x0 x1 x2 x3) := Laws.RoundTrip.of_none rfl
theorem Laws.RoundTrip.qpHrd (x0) (x1) (x2) (x3) : Laws.RoundTrip.Statement (.qpHrd x0 x1 x2 x3) := Laws.RoundTrip.of_none rfl
theorem Laws.RoundTrip.qpRpt (x0) (x1) : Laws.RoundTrip.Statement (.qpRpt x0 x1) := Laws.RoundTrip.of_none rfl
theorem Laws.RoundTrip.qpBeq (x0) (x1) (x2) (x3) : Laws.RoundTrip.Statement (.qpBeq x0 x1 x2 x3) := Laws.RoundTrip.of_none rfl
theorem Laws.RoundTrip.qpBne (x0) (x1) (x2) (x3) : Laws.RoundTrip.Statement (.qpBne x0 x1 x2 x3) := Laws.RoundTrip.of_none rfl
theorem Laws.RoundTrip.qpBltu (x0) (x1) (x2) (x3) : Laws.RoundTrip.Statement (.qpBltu x0 x1 x2 x3) := Laws.RoundTrip.of_none rfl
theorem Laws.RoundTrip.qpLoop (x0) (x1) (x2) : Laws.RoundTrip.Statement (.qpLoop x0 x1 x2) := Laws.RoundTrip.of_none rfl
theorem Laws.RoundTrip.qpArg (x0) (x1) (x2) : Laws.RoundTrip.Statement (.qpArg x0 x1 x2) := Laws.RoundTrip.of_none rfl
theorem Laws.RoundTrip.qpNop (x0) : Laws.RoundTrip.Statement (.qpNop x0) := Laws.RoundTrip.of_none rfl
theorem Laws.RoundTrip.create (x0) : Laws.RoundTrip.Statement (.create x0) := Laws.RoundTrip.of_none rfl
theorem Laws.RoundTrip.destroy (x0) : Laws.RoundTrip.Statement (.destroy x0) := Laws.RoundTrip.of_none rfl
theorem Laws.RoundTrip.queue (x0) (x1) (x2) : Laws.RoundTrip.Statement (.queue x0 x1 x2) := Laws.RoundTrip.of_none rfl
theorem Laws.RoundTrip.preempt (x0) (x1) : Laws.RoundTrip.Statement (.preempt x0 x1) := Laws.RoundTrip.of_none rfl
theorem Laws.RoundTrip.plant (x0) (x1) : Laws.RoundTrip.Statement (.plant x0 x1) := Laws.RoundTrip.of_none rfl
theorem Laws.RoundTrip.answer (x0) (x1) (x2) : Laws.RoundTrip.Statement (.answer x0 x1 x2) := Laws.RoundTrip.of_none rfl
theorem Laws.RoundTrip.keyload (x0) (x1) (x2) : Laws.RoundTrip.Statement (.keyload x0 x1 x2) := Laws.RoundTrip.of_none rfl
theorem Laws.RoundTrip.attest (x0) (x1) : Laws.RoundTrip.Statement (.attest x0 x1) := Laws.RoundTrip.of_none rfl
theorem Laws.RoundTrip.group (x0) (x1) (x2) : Laws.RoundTrip.Statement (.group x0 x1 x2) := Laws.RoundTrip.of_none rfl
theorem Laws.RoundTrip.checkpoint (x0) : Laws.RoundTrip.Statement (.checkpoint x0) := Laws.RoundTrip.of_none rfl
theorem Laws.RoundTrip.rollback (x0) : Laws.RoundTrip.Statement (.rollback x0) := Laws.RoundTrip.of_none rfl
theorem Laws.RoundTrip.scrubComplete : Laws.RoundTrip.Statement .scrubComplete := Laws.RoundTrip.of_none rfl
theorem Laws.RoundTrip.hostAccess (x0) : Laws.RoundTrip.Statement (.hostAccess x0) := Laws.RoundTrip.of_none rfl
theorem Laws.RoundTrip.peerAccess (x0) (x1) : Laws.RoundTrip.Statement (.peerAccess x0 x1) := Laws.RoundTrip.of_none rfl
theorem Laws.RoundTrip.linkDrop (x0) : Laws.RoundTrip.Statement (.linkDrop x0) := Laws.RoundTrip.of_none rfl
theorem Laws.RoundTrip.reset : Laws.RoundTrip.Statement .reset := Laws.RoundTrip.of_none rfl
theorem Laws.RoundTrip.undef (x0) : Laws.RoundTrip.Statement (.undef x0) := Laws.RoundTrip.of_none rfl
theorem Laws.RoundTrip.queueRestart (x0) : Laws.RoundTrip.Statement (.queueRestart x0) := Laws.RoundTrip.of_none rfl
theorem Laws.RoundTrip.queueDestroy (x0) : Laws.RoundTrip.Statement (.queueDestroy x0) := Laws.RoundTrip.of_none rfl

end Sys2Proof
end

