-- ==== Sys2Proof/Tests/Slice0.lean ====
section
/-! SUPPORT. Tests: what WellFormed refuses, words of each family decoded, states that meet the premises of each statement,
and small tests of single instructions whose results come from the rules. -/

open Sys2Proof Sys2Proof.Machine

namespace Sys2Proof.Tests

set_option Elab.async false

/-! States for the tests: one context, one launch, one workgroup whose one warp has three full lane groups. -/

def all96 : LaneMask := BitVec.allOnes 96
def split0 : Split := ⟨0x20000, all96, all96, none, .ready, 0, none, none⟩
def warp0 : Warp := { bootWarp with threads := all96, splits := (Vector.replicate 4 none).set 0 (some split0) }
def s0 : State := { State.reset with
  up := true, contexts := [bootContext], launches := [bootLaunch], groups := [Workgroup.blank ⟨0, 1, 0⟩], warp := warp0 }
/-- The same with pages that map the low 8 GiB. -/
def m0 : State := (State.reset.withFetchWord 32 0x02000000).modWarp fun _ =>
  { warp0 with splits := (Vector.replicate 4 none).set 0 (some { split0 with active := 3 }) }

def clauseOf (t : Ty) : ClauseWord := ⟨0, false, 0, t, .dflt, .g96, .device, .relaxed⟩
/-- In a clause of type `t`. -/
def typed (s : State) (t : Ty) : State := s.modWarp fun w => w.modSp fun p => { p with clause := some ⟨clauseOf t, 16⟩ }
/-- In a clause of scope `x` and ordering `o`. -/
def atScope (s : State) (x : Scope) (o : Ordering4) : State :=
  s.modWarp fun w => w.modSp fun p => { p with clause := some ⟨⟨0, false, 0, .b32, .dflt, .g96, x, o⟩, 16⟩ }
/-- With a header of its own: streams, tickets, flags, bytes of SB, AB and CB, lock domains. -/
def headed (s : State) (streams tickets flags buf domains : Nat) : State := { s with
  launches := [{ bootLaunch with hdr :=
    ⟨leBytes 8 0x20000 ++ leBytes 8 (1 + 1 * 2 ^ 36 + 1 * 2 ^ 39) ++ leBytes 4 1 ++ zeros 20 ++ zeros 8 ++
      [16, BitVec.ofNat 8 streams, BitVec.ofNat 8 tickets, 0] ++ leBytes 4 flags ++
      leBytes 4 buf ++ leBytes 4 buf ++ leBytes 4 buf ++ zeros 12 ++ leBytes 8 0x30000 ++ zeros 8 ++
      leBytes 4 domains ++ zeros 156⟩ }]
  groups := [{ Workgroup.blank ⟨0, 1, 0⟩ with bufs := Vector.replicate 4 ⟨buf, []⟩ }] }

/-- What `f` reads in the next state. -/
def got {α : Type} (o : Host.Outcome State Fault Refusal) (f : State → α) : Option α :=
  match o with
  | .next t => some (f t)
  | _ => none

theorem reaches_of {α : Type} (s : State) (kind : AccessKind) (w : Nat) (l : List (α × DWord))
    (h : (l.all fun x => x.2.toNat % w == 0 && decide (x.2.toNat < 2 ^ 57)) = true)
    (h2 : ((s.translateEach kind l).1.all fun x => match x.2.2 with | .ok _ => true | .error _ => false) = true) :
    s.reaches kind w l := by
  constructor
  · intro x hx; simpa using List.all_eq_true.1 h x hx
  · intro x hx
    have := List.all_eq_true.1 h2 x hx
    split at this
    · exact ⟨_, by assumption⟩
    · cases this

theorem clear0 : s0.clearFor false := ⟨by decide, rfl⟩
theorem clear0s : s0.clearFor true := ⟨by decide, rfl⟩
theorem enter_of (s : State) (h : s.warp.trapmask = false) (h1 : s.warp.reds = []) (h2 : s.accessParked = false)
    (h3 : s.late = []) : s.mayEnter := ⟨h, h1, h2, by simp [h3]⟩
theorem prompt_of (s : State) (h1 : s.warp.reds = []) (h3 : s.late = []) : s.prompt := ⟨h1, by simp [h3]⟩
theorem enter0 : s0.mayEnter := enter_of _ rfl rfl (by decide +kernel) rfl
theorem prompt0 : s0.prompt := prompt_of _ rfl rfl

/-! WellFormed refuses what breaks a limit (R48, R106, R110, R115, R120, R148, R251, R293, R392). -/

theorem test_wf_refuses_odd_pairs :
    Instr.wf (.brx 1) = false ∧ Instr.wf (.ret 3) = false ∧ Instr.wf (.call 5 0) = false ∧ Instr.wf (.callx 2 3) = false ∧
    Instr.wf (.callx 3 2) = false ∧ Instr.wf (.sadd64 1 2 4) = false ∧ Instr.wf (.ssub64 2 1 4) = false ∧
    Instr.wf (.sadd64 2 4 1) = false ∧ Instr.wf (.tlbinv 3 0) = false ∧ Instr.wf (.vlea 1 2 0) = false ∧
    Instr.wf (.vlea 2 1 0) = false ∧ Instr.wf (.lkacq 0 1 .s) = false ∧ Instr.wf (.lktry 0 1 .s) = false ∧
    Instr.wf (.lkup 0 1 .s) = false ∧ Instr.wf (.lkdown 0 1 .s) = false ∧ Instr.wf (.lkrel 0 1) = false ∧
    Instr.wf (.lkstat 0 1) = false ∧ Instr.wf (.lktab 0 1) = false ∧ Instr.wf (.hmake 0 1 .sb) = false := by decide
theorem test_wf_refuses_odd_pairs_of_accesses :
    Instr.wf (.cpy 0 1 0 0) = false ∧ Instr.wf (.mma 0 1 0 0) = false ∧ Instr.wf (.coll 0 1 0 0) = false ∧
    Instr.wf (.tgload 0 1 0) = false ∧ Instr.wf (.ldg 0 0 1 0) = false ∧ Instr.wf (.stg 0 0 1 0) = false ∧
    Instr.wf (.ldgs 0 0 1 0) = false ∧ Instr.wf (.stgs 0 0 1 0) = false ∧ Instr.wf (.ldsb 0 0 1 0) = false ∧
    Instr.wf (.stsb 0 0 1 0) = false ∧ Instr.wf (.ldab 0 0 1 0) = false ∧ Instr.wf (.stab 0 0 1 0) = false ∧
    Instr.wf (.ldcb 0 0 1 0) = false ∧ Instr.wf (.stcb 0 0 1 0) = false ∧ Instr.wf (.ldh 0 0 1 0) = false ∧
    Instr.wf (.sth 0 0 1 0) = false ∧ Instr.wf (.pref true 0 1) = false ∧ Instr.wf (.cflush 0 1) = false ∧
    Instr.wf (.cinv 0 1) = false ∧ Instr.wf (.waitcmp 0 0 1 .eq) = false ∧ Instr.wf (.aadd 0 0 1 0) = false ∧
    Instr.wf (.afmax 0 0 1 15) = false := by decide
theorem test_wf_refuses_triples_above_125 :
    Instr.wf (.xballot 126 0 0) = false ∧ Instr.wf (.hquery 127 0) = false ∧ Instr.wf (.pmovs 0 126) = false ∧
    Instr.wf (.smovp 126 0) = false ∧ Instr.wf (.xmadd 0 0 126 0) = false ∧ Instr.wf (.xmor 0 0 127 0) = false ∧
    Instr.wf (.xballot 125 0 0) = true := by decide
theorem test_wf_refuses_immediates_out_of_range :
    Instr.wf (.sshli 1 1 32) = false ∧ Instr.wf (.sshri 1 1 32) = false ∧ Instr.wf (.ssari 1 1 2047) = false ∧
    Instr.wf (.vshli 1 1 64) = false ∧ Instr.wf (.vshri 1 1 64) = false ∧ Instr.wf (.vsari 1 1 64) = false ∧
    Instr.wf (.grow 0) = false ∧ Instr.wf (.grow 12) = false ∧ Instr.wf (.shrink 128) = false ∧
    Instr.wf (.sshli 1 1 31) = true ∧ Instr.wf (.vshli 1 1 63) = true ∧ Instr.wf (.grow 120) = true := by decide
theorem test_wf_refuses_what_cannot_be_written_or_named :
    Instr.wf (.swr 1 .cycle) = false ∧ Instr.wf (.swr 1 .lane) = false ∧ Instr.wf (.swrp 1 .ctxnum) = false ∧
    Instr.wf (.cvt 0 0 .b32 .dflt) = false ∧ Instr.wf (.fence 0 1) = false ∧ Instr.wf (.fence 1 0) = false ∧
    Instr.wf (.spoll 4 4 0) = false ∧ Instr.wf (.undef 0) = false ∧ Instr.wf (.spoll 0 0 0) = true := by decide

/-! A word of every constructor that has one, from the encodings of the opcode table: registers d = 8, a = 4, b = 12, predicates
d = 5, a = 3, b = 6, p = 7, q = 2, immediates 0x1234567, 40 and 21, lookahead, barrier and stream 14, sequence 2, and one
code of each named field (R48, R62, R63). -/

theorem test_decode_control :
    decode 0x02000000#32 = .ok .nop ∧
    decode 0x047AF519#32 = .ok (.clause ⟨3, true, 5, .f32, .rtz, .g8, .device, .acquire⟩) ∧
    decode 0x07234567#32 = .ok (.bra 19088743) ∧ decode 0x08200028#32 = .ok (.brnz 8 40) ∧
    decode 0x0A200028#32 = .ok (.brz 8 40) ∧ decode 0x0C3C0028#32 = .ok (.brv true 7 40) ∧
    decode 0x0E002000#32 = .ok (.brx 4) ∧ decode 0x10200028#32 = .ok (.call 8 40) ∧
    decode 0x12202000#32 = .ok (.callx 8 4) ∧ decode 0x14002000#32 = .ok (.ret 4) ∧ decode 0x16000000#32 = .ok .exit ∧
    decode 0x18000028#32 = .ok (.trap 40) ∧ decode 0x1A000000#32 = .ok .tret ∧ decode 0x1C000000#32 = .ok .yield ∧
    decode 0x1E000028#32 = .ok (.sleep 40) := by decide
theorem test_decode_scalar_1 :
    decode 0x202020C0#32 = .ok (.sadd 8 4 12) ∧ decode 0x202020C1#32 = .ok (.ssub 8 4 12) ∧
    decode 0x202020C2#32 = .ok (.smul 8 4 12) ∧ decode 0x202020C3#32 = .ok (.smulhi 8 4 12) ∧
    decode 0x202020C4#32 = .ok (.smulhin 8 4 12) ∧ decode 0x202020C5#32 = .ok (.sand 8 4 12) ∧
    decode 0x202020C6#32 = .ok (.sor 8 4 12) ∧ decode 0x202020C7#32 = .ok (.sxor 8 4 12) ∧
    decode 0x202020C8#32 = .ok (.sshl 8 4 12) ∧ decode 0x202020C9#32 = .ok (.sshr 8 4 12) ∧
    decode 0x202020CA#32 = .ok (.ssar 8 4 12) ∧ decode 0x202020CB#32 = .ok (.smin 8 4 12) ∧
    decode 0x202020CC#32 = .ok (.smax 8 4 12) ∧ decode 0x202020CD#32 = .ok (.sminn 8 4 12) ∧
    decode 0x202020CE#32 = .ok (.smaxn 8 4 12) ∧ decode 0x202020CF#32 = .ok (.sandn 8 4 12) ∧
    decode 0x22202015#32 = .ok (.saddi 8 4 21) ∧ decode 0x24202015#32 = .ok (.sandi 8 4 21) ∧
    decode 0x26202015#32 = .ok (.sori 8 4 21) ∧ decode 0x28202015#32 = .ok (.sxori 8 4 21) ∧
    decode 0x2A202015#32 = .ok (.sshli 8 4 21) ∧ decode 0x2C202015#32 = .ok (.sshri 8 4 21) ∧
    decode 0x2E202015#32 = .ok (.ssari 8 4 21) ∧ decode 0x30200028#32 = .ok (.smovi 8 40) := by decide
theorem test_decode_scalar_2 :
    decode 0x32200028#32 = .ok (.slui 8 40) ∧ decode 0x342020C3#32 = .ok (.scmp 8 4 12 .le) ∧
    decode 0x362020C0#32 = .ok (.ssel 8 4 12) ∧ decode 0x38202000#32 = .ok (.spopc 8 4) ∧
    decode 0x38202001#32 = .ok (.sclz 8 4) ∧ decode 0x38202002#32 = .ok (.sctz 8 4) ∧
    decode 0x38202003#32 = .ok (.sbrev 8 4) ∧ decode 0x382020C4#32 = .ok (.sbfe 8 4 12) ∧
    decode 0x382020C5#32 = .ok (.sbfi 8 4 12) ∧ decode 0x382020C6#32 = .ok (.sadd64 8 4 12) ∧
    decode 0x382020C7#32 = .ok (.ssub64 8 4 12) ∧ decode 0x3A202000#32 = .ok (.smov 8 4) ∧
    decode 0x3C0020C0#32 = .ok (.tlbinv 4 12) ∧ decode 0x3C200011#32 = .ok (.srdp 8 .trapbase) ∧
    decode 0x3C002012#32 = .ok (.swrp 4 .trapbase) ∧ decode 0x3C000003#32 = .ok .bkpt ∧
    decode 0x3C000004#32 = .ok .icinv := by decide
theorem test_decode_vector_1 :
    decode 0x402020C0#32 = .ok (.vadd 8 4 12) ∧ decode 0x402020C1#32 = .ok (.vsub 8 4 12) ∧
    decode 0x402020C2#32 = .ok (.vmul 8 4 12) ∧ decode 0x402020C3#32 = .ok (.vmulhi 8 4 12) ∧
    decode 0x402020C4#32 = .ok (.vand 8 4 12) ∧ decode 0x402020C5#32 = .ok (.vor 8 4 12) ∧
    decode 0x402020C6#32 = .ok (.vxor 8 4 12) ∧ decode 0x402020C7#32 = .ok (.vandn 8 4 12) ∧
    decode 0x402020C8#32 = .ok (.vshl 8 4 12) ∧ decode 0x402020C9#32 = .ok (.vshr 8 4 12) ∧
    decode 0x402020CA#32 = .ok (.vsar 8 4 12) ∧ decode 0x402020CB#32 = .ok (.vmin 8 4 12) ∧
    decode 0x402020CC#32 = .ok (.vmax 8 4 12) ∧ decode 0x402020CD#32 = .ok (.vaddsat 8 4 12) ∧
    decode 0x402020CE#32 = .ok (.vsubsat 8 4 12) ∧ decode 0x402020CF#32 = .ok (.vabsd 8 4 12) ∧
    decode 0x422020C0#32 = .ok (.vaddScalar 8 4 12) ∧ decode 0x422020C1#32 = .ok (.vsubScalar 8 4 12) ∧
    decode 0x422020C2#32 = .ok (.vmulScalar 8 4 12) ∧ decode 0x422020C3#32 = .ok (.vmulhiScalar 8 4 12) ∧
    decode 0x422020C4#32 = .ok (.vandScalar 8 4 12) ∧ decode 0x422020C5#32 = .ok (.vorScalar 8 4 12) ∧
    decode 0x422020C6#32 = .ok (.vxorScalar 8 4 12) ∧ decode 0x422020C7#32 = .ok (.vandnScalar 8 4 12) := by decide
theorem test_decode_vector_2 :
    decode 0x422020C8#32 = .ok (.vshlScalar 8 4 12) ∧ decode 0x422020C9#32 = .ok (.vshrScalar 8 4 12) ∧
    decode 0x422020CA#32 = .ok (.vsarScalar 8 4 12) ∧ decode 0x422020CB#32 = .ok (.vminScalar 8 4 12) ∧
    decode 0x422020CC#32 = .ok (.vmaxScalar 8 4 12) ∧ decode 0x422020CD#32 = .ok (.vaddsatScalar 8 4 12) ∧
    decode 0x422020CE#32 = .ok (.vsubsatScalar 8 4 12) ∧ decode 0x422020CF#32 = .ok (.vabsdScalar 8 4 12) ∧
    decode 0x442020C0#32 = .ok (.vmad 8 4 12) ∧ decode 0x442020C1#32 = .ok (.vmadhi 8 4 12) ∧
    decode 0x462020C0#32 = .ok (.vdot4 8 4 12) ∧ decode 0x481C20C4#32 = .ok (.vcmp 7 4 12 .gt) ∧
    decode 0x4A2020CF#32 = .ok (.vsel 8 4 12 true 7) ∧ decode 0x4C202000#32 = .ok (.vpopc 8 4) ∧
    decode 0x4C202001#32 = .ok (.vclz 8 4) ∧ decode 0x4C202002#32 = .ok (.vctz 8 4) ∧
    decode 0x4C202003#32 = .ok (.vbrev 8 4) ∧ decode 0x4C2020C4#32 = .ok (.vbfe 8 4 12) ∧
    decode 0x4C2020C5#32 = .ok (.vbfi 8 4 12) ∧ decode 0x4C2020C6#32 = .ok (.vpermb 8 4 12) ∧
    decode 0x4C202007#32 = .ok (.vnot 8 4) ∧ decode 0x4C202008#32 = .ok (.vneg 8 4) ∧
    decode 0x4C202009#32 = .ok (.vabs 8 4) ∧ decode 0x4C2020CA#32 = .ok (.vaddc 8 4 12) := by decide
theorem test_decode_vector_3 :
    decode 0x4C2020CB#32 = .ok (.vsubb 8 4 12) ∧ decode 0x4C2020CC#32 = .ok (.vlea 8 4 12) ∧
    decode 0x4C20202D#32 = .ok (.vsext 8 4 2) ∧ decode 0x4C20202E#32 = .ok (.vzext 8 4 2) ∧
    decode 0x4E202015#32 = .ok (.vaddi 8 4 21) ∧ decode 0x50202015#32 = .ok (.vandi 8 4 21) ∧
    decode 0x52202015#32 = .ok (.vori 8 4 21) ∧ decode 0x54202015#32 = .ok (.vshli 8 4 21) ∧
    decode 0x56202015#32 = .ok (.vshri 8 4 21) ∧ decode 0x58202015#32 = .ok (.vsari 8 4 21) ∧
    decode 0x5A200028#32 = .ok (.vmovi 8 40) ∧ decode 0x5C2020CE#32 = .ok (.vdiv 8 4 12 14) ∧
    decode 0x5E2020CE#32 = .ok (.vrem 8 4 12 14) := by decide
theorem test_decode_float_1 :
    decode 0x602020C5#32 = .ok (.fadd 8 4 12 .rna) ∧ decode 0x622020C5#32 = .ok (.fsub 8 4 12 .rna) ∧
    decode 0x642020C5#32 = .ok (.fmul 8 4 12 .rna) ∧ decode 0x662020C5#32 = .ok (.ffma 8 4 12 .rna) ∧
    decode 0x682020C5#32 = .ok (.ffms 8 4 12 .rna) ∧ decode 0x6A2020C5#32 = .ok (.fnfma 8 4 12 .rna) ∧
    decode 0x6C2020C0#32 = .ok (.fmin 8 4 12) ∧ decode 0x6C2020C1#32 = .ok (.fmax 8 4 12) ∧
    decode 0x6C2020C2#32 = .ok (.fminnum 8 4 12) ∧ decode 0x6C2020C3#32 = .ok (.fmaxnum 8 4 12) ∧
    decode 0x6C2020C4#32 = .ok (.fsgnj 8 4 12) ∧ decode 0x6C2020C5#32 = .ok (.fsgnjn 8 4 12) ∧
    decode 0x6C202006#32 = .ok (.fabs 8 4) ∧ decode 0x6C202007#32 = .ok (.fneg 8 4) ∧
    decode 0x6C202008#32 = .ok (.fclass 8 4) ∧ decode 0x6C2020C9#32 = .ok (.fscale 8 4 12) ∧
    decode 0x6E1C20C6#32 = .ok (.fcmp 7 4 12 .un) ∧ decode 0x702020C5#32 = .ok (.fdot2 8 4 12 .rna) ∧
    decode 0x7220200E#32 = .ok (.frcp 8 4 14) ∧ decode 0x7220201E#32 = .ok (.frsq 8 4 14) ∧
    decode 0x7220202E#32 = .ok (.fsqrt 8 4 14) ∧ decode 0x7220203E#32 = .ok (.fexp2 8 4 14) ∧
    decode 0x7220204E#32 = .ok (.flog2 8 4 14) ∧ decode 0x7220205E#32 = .ok (.fsin 8 4 14) := by decide
theorem test_decode_float_2 :
    decode 0x7220206E#32 = .ok (.fcos 8 4 14) ∧ decode 0x7220207E#32 = .ok (.ftanh 8 4 14) ∧
    decode 0x742020CE#32 = .ok (.fdiv 8 4 12 14) ∧ decode 0x76202005#32 = .ok (.frnd 8 4 .rna) ∧
    decode 0x78202105#32 = .ok (.cvt 8 4 .f64 .rna) ∧ decode 0x7A2020C5#32 = .ok (.fpack 8 4 12 .rna) ∧
    decode 0x7E200000#32 = .ok (.rnd 8) ∧ decode 0x7E200010#32 = .ok (.rndf 8) ∧
    decode 0x7E002020#32 = .ok (.rndskip 4) := by decide
theorem test_decode_lanes_and_sync_1 :
    decode 0x802020CE#32 = .ok (.xshfl 8 4 12 14) ∧ decode 0x822020CE#32 = .ok (.xrot 8 4 12 14) ∧
    decode 0x842020CE#32 = .ok (.xbcast 8 4 12 14) ∧ decode 0x8620202E#32 = .ok (.xreduce 8 4 .max 14) ∧
    decode 0x8820202E#32 = .ok (.xscani 8 4 .max 14) ∧ decode 0x8A20202E#32 = .ok (.xscane 8 4 .max 14) ∧
    decode 0x8C2020CE#32 = .ok (.xmadd 8 4 12 14) ∧ decode 0x8E2020CE#32 = .ok (.xmmin 8 4 12 14) ∧
    decode 0x902020CE#32 = .ok (.xmmax 8 4 12 14) ∧ decode 0x922020CE#32 = .ok (.xmor 8 4 12 14) ∧
    decode 0x9420380E#32 = .ok (.xballot 8 7 14) ∧ decode 0x9408381E#32 = .ok (.xany 2 7 14) ∧
    decode 0x9408382E#32 = .ok (.xall 2 7 14) ∧ decode 0x9420383E#32 = .ok (.xcount 8 7 14) ∧
    decode 0x9420384E#32 = .ok (.xfirst 8 7 14) ∧ decode 0x98202040#32 = .ok (.lkacq 8 4 .six) ∧
    decode 0x98202041#32 = .ok (.lktry 8 4 .six) ∧ decode 0x98202042#32 = .ok (.lkup 8 4 .six) ∧
    decode 0x98202043#32 = .ok (.lkdown 8 4 .six) ∧ decode 0x98202004#32 = .ok (.lkrel 8 4) ∧
    decode 0x98202005#32 = .ok (.lkstat 8 4) ∧ decode 0x98202006#32 = .ok (.lktab 8 4) ∧
    decode 0x9A007000#32 = .ok (.bar 14) ∧ decode 0x9A007001#32 = .ok (.bararr 14) := by decide
theorem test_decode_lanes_and_sync_2 :
    decode 0x9A007002#32 = .ok (.barwait 14) ∧ decode 0x9A000003#32 = .ok .cbar ∧
    decode 0x9A201004#32 = .ok (.tkwait 8 2) ∧ decode 0x9A201005#32 = .ok (.tkpass 8 2) ∧
    decode 0x9A201015#32 = .ok (.tkpassPoison 8 2) ∧ decode 0x9A010866#32 = .ok (.fence 33 6) ∧
    decode 0x9C202020#32 = .ok (.hmake 8 4 .cb) ∧ decode 0x9C2020C1#32 = .ok (.hgive 8 4 12) ∧
    decode 0x9C202002#32 = .ok (.htake 8 4) ∧ decode 0x9C202003#32 = .ok (.hdrop 8 4) ∧
    decode 0x9C202004#32 = .ok (.hquery 8 4) := by decide
theorem test_decode_moves_special_engines :
    decode 0xA0202000#32 = .ok (.vmov 8 4) ∧ decode 0xA2202000#32 = .ok (.vmovs 8 4) ∧
    decode 0xA42020C0#32 = .ok (.vrdl 8 4 12) ∧ decode 0xA62020C0#32 = .ok (.vwrl 8 4 12) ∧
    decode 0xA8141860#32 = .ok (.pand 5 3 6) ∧ decode 0xA8141861#32 = .ok (.por 5 3 6) ∧
    decode 0xA8141862#32 = .ok (.pxor 5 3 6) ∧ decode 0xA8141803#32 = .ok (.pnot 5 3) ∧
    decode 0xA8140004#32 = .ok (.pset 5) ∧ decode 0xA8140005#32 = .ok (.pclr 5) ∧
    decode 0xAA1C2000#32 = .ok (.pmovs 7 4) ∧ decode 0xAC203800#32 = .ok (.smovp 8 7) ∧
    decode 0xAE000028#32 = .ok (.grow 40) ∧ decode 0xB0000028#32 = .ok (.shrink 40) ∧
    decode 0xB2200055#32 = .ok (.srd 8 .trapmask) ∧ decode 0xB4002055#32 = .ok (.swr 4 .trapmask) ∧
    decode 0xB62020CE#32 = .ok (.cpy 8 4 12 14) ∧ decode 0xB82020CE#32 = .ok (.mma 8 4 12 14) ∧
    decode 0xBA2020CE#32 = .ok (.coll 8 4 12 14) ∧ decode 0xBC2020C0#32 = .ok (.tgload 8 4 12) ∧
    decode 0xBE2000CE#32 = .ok (.swait 8 12 14) := by decide
theorem test_decode_memory :
    decode 0xDE2000CE#32 = .ok (.spoll 8 12 14) ∧ decode 0xC02020CE#32 = .ok (.ldg 8 4 12 14) ∧
    decode 0xC22020CE#32 = .ok (.stg 8 4 12 14) ∧ decode 0xC42020CE#32 = .ok (.ldgs 8 4 12 14) ∧
    decode 0xC62020CE#32 = .ok (.stgs 8 4 12 14) ∧ decode 0xC82020CE#32 = .ok (.ldsb 8 4 12 14) ∧
    decode 0xCA2020CE#32 = .ok (.stsb 8 4 12 14) ∧ decode 0xCC2020CE#32 = .ok (.ldab 8 4 12 14) ∧
    decode 0xCE2020CE#32 = .ok (.stab 8 4 12 14) ∧ decode 0xD02020CE#32 = .ok (.ldcb 8 4 12 14) ∧
    decode 0xD22020CE#32 = .ok (.stcb 8 4 12 14) ∧ decode 0xD42020CE#32 = .ok (.ldh 8 4 12 14) ∧
    decode 0xD62020CE#32 = .ok (.sth 8 4 12 14) ∧ decode 0xD80420C0#32 = .ok (.pref true 4 12) ∧
    decode 0xDA0020C0#32 = .ok (.cflush 4 12) ∧ decode 0xDC0020C0#32 = .ok (.cinv 4 12) := by decide
theorem test_decode_atomics :
    decode 0xE02020CE#32 = .ok (.aadd 8 4 12 14) ∧ decode 0xE22020CE#32 = .ok (.amin 8 4 12 14) ∧
    decode 0xE42020CE#32 = .ok (.amax 8 4 12 14) ∧ decode 0xE62020CE#32 = .ok (.aand 8 4 12 14) ∧
    decode 0xE82020CE#32 = .ok (.aor 8 4 12 14) ∧ decode 0xEA2020CE#32 = .ok (.axor 8 4 12 14) ∧
    decode 0xEC2020CE#32 = .ok (.axchg 8 4 12 14) ∧ decode 0xEE2020CE#32 = .ok (.acas 8 4 12 14) ∧
    decode 0xF02020CE#32 = .ok (.aincw 8 4 12 14) ∧ decode 0xF22020CE#32 = .ok (.afadd 8 4 12 14) ∧
    decode 0xF42020CE#32 = .ok (.afmin 8 4 12 14) ∧ decode 0xF62020CE#32 = .ok (.afmax 8 4 12 14) ∧
    decode 0xF82020C5#32 = .ok (.waitcmp 8 4 12 .lts) := by decide

/-! States and operands that meet the premises of the statements, at a boundary where a clause has a range. -/

theorem typed_clear (t : Ty) (h : (typed s0 t).gated false = false) : (typed s0 t).clearFor false := ⟨h, rfl⟩

theorem witness_ScalarArithmeticResults : s0.clearFor false := clear0
theorem witness_ScalarImmediateMoveSelectAndBitResults : s0.clearFor false ∧ (31#11).toNat ≤ 31 := ⟨clear0, by decide⟩
theorem witness_VectorArithmeticResults :
    s0.clearFor false ∧
    (s0.warp.ty .i32).isInt = true ∧
    s0.fits (s0.warp.ty .i32) [127, 0, 126] ∧
    (typed s0 .i64).clearFor false ∧
    ((typed s0 .i64).warp.ty .i32).isInt = true ∧
    (typed s0 .i64).fits ((typed s0 .i64).warp.ty .i32) [126, 0] ∧
    (126 : Reg).val % ((typed s0 .i64).warp.ty .i32).regs = 0 :=
  ⟨clear0,
    (by decide +kernel),
    (by unfold State.fits; decide +kernel),
    typed_clear _ (by decide +kernel),
    (by decide +kernel),
    (by unfold State.fits; decide +kernel),
    (by decide +kernel)⟩
theorem witness_VectorImmediateAndMultiplyAddResults :
    s0.clearFor false ∧
    (s0.warp.ty .i32).isInt = true ∧
    s0.fits (s0.warp.ty .i32) [127, 0] ∧
    (63#11).toNat ≤ 63 ∧
    s0.within [127] ∧
    s0.fits (s0.warp.ty .i32) [1, 2, 127] ∧
    (typed s0 .i8x4).clearFor false ∧
    (typed s0 .i8x4).warp.ty .i32 ∈ [Ty.i8x4, .n8x4, .i16x2, .n16x2] ∧
    (typed s0 .i8x4).within [1, 2, 127] :=
  ⟨clear0,
    (by decide +kernel),
    (by unfold State.fits; decide +kernel),
    (by decide +kernel),
    (by unfold State.within; decide +kernel),
    (by unfold State.fits; decide +kernel),
    typed_clear _ (by decide +kernel),
    (by decide +kernel),
    (by unfold State.within; decide +kernel)⟩
theorem witness_VectorBitResults :
    (typed s0 .i64).clearFor false ∧
    ((typed s0 .i64).warp.ty .i32).isInt = true ∧
    (typed s0 .i64).fits ((typed s0 .i64).warp.ty .i32) [2, 126] ∧
    (typed s0 .i64).warp.ty .i32 ∈ [Ty.i32, .n32, .i64, .n64] ∧
    (typed s0 .i64).fits ((typed s0 .i64).warp.ty .i32) [2, 4, 126] ∧
    s0.clearFor false ∧
    s0.warp.ty .i32 ∈ [Ty.i32, .n32] ∧
    s0.within [1, 2, 127] :=
  ⟨typed_clear _ (by decide +kernel),
    (by decide +kernel),
    (by unfold State.fits; decide +kernel),
    (by decide +kernel),
    (by unfold State.fits; decide +kernel),
    clear0,
    (by decide +kernel),
    (by unfold State.within; decide +kernel)⟩
theorem witness_VectorCarryAddressAndWidenResults :
    s0.clearFor false ∧
    s0.warp.ty .i32 ∈ [Ty.i32, .n32] ∧
    s0.within [1, 2, 127] ∧
    (s0.warp.ty .i32).isInt = true ∧
    s0.fits .b64 [2, 126] ∧
    s0.within [127] ∧
    (typed s0 .i8x4).clearFor false ∧
    (typed s0 .i8x4).warp.ty .i32 ∈ [Ty.i8x4, .n8x4, .i16x2, .n16x2] ∧
    (typed s0 .i8x4).within [1, 127] ∧
    s0.fits .b64 [126] :=
  ⟨clear0,
    (by decide +kernel),
    (by unfold State.within; decide +kernel),
    (by decide +kernel),
    (by unfold State.fits; decide +kernel),
    (by unfold State.within; decide +kernel),
    typed_clear _ (by decide +kernel),
    (by decide +kernel),
    (by unfold State.within; decide +kernel),
    (by unfold State.fits; decide +kernel)⟩
theorem witness_VectorCompareAndSelectResults :
    s0.clearFor false ∧
    s0.warp.ty .i32 ∈ [Ty.i32, .n32, .i64, .n64] ∧
    s0.fits (s0.warp.ty .i32) [1, 127] ∧
    (typed s0 .b64).clearFor false ∧
    ((typed s0 .b64).warp.ty .b32).isBits = true ∧
    (typed s0 .b64).fits ((typed s0 .b64).warp.ty .b32) [2, 4, 126] :=
  ⟨clear0,
    (by decide +kernel),
    (by unfold State.fits; decide +kernel),
    typed_clear _ (by decide +kernel),
    (by decide +kernel),
    (by unfold State.fits; decide +kernel)⟩
theorem witness_VectorDivisionResults :
    (typed s0 .i64).clearFor false ∧
    (typed s0 .i64).warp.ty .i32 ∈ [Ty.i32, .n32, .i64, .n64] ∧
    (typed s0 .i64).fits ((typed s0 .i64).warp.ty .i32) [2, 4, 126] :=
  ⟨typed_clear _ (by decide +kernel),
    (by decide +kernel),
    (by unfold State.fits; decide +kernel)⟩
theorem witness_MoveAndPredicateResults :
    s0.clearFor false ∧
    s0.within [1, 127] ∧
    s0.within [127] :=
  ⟨clear0,
    (by unfold State.within; decide +kernel),
    (by unfold State.within; decide +kernel)⟩
theorem witness_RegisterWritesChangeNothingElse :
    ((1 : Reg) ≠ 0 ∧ ((119 : Reg).val < 120 ∨ 122 < (119 : Reg).val) ∧ ((123 : Reg).val < 120 ∨ 122 < (123 : Reg).val)) ∧
    (120 ≤ (120 : Reg).val ∧ (122 : Reg).val ≤ 122) ∧
    ((2 : Reg) ≠ 1 ∧ (1 : PReg) ≠ 0 ∧ (2 : PReg) ≠ 1) ∧
    ((∀ i < max 4 1, (5 : Reg).val ≠ ((1 : Reg).val + i) % 128)) ∧
    (7 : LaneMask).getLsbD 3 = false :=
  ⟨(by decide +kernel),
    (by decide +kernel),
    (by decide +kernel),
    (by decide +kernel),
    (by decide +kernel)⟩
theorem witness_UniformControlTransfers :
    s0.clearFor false ∧
    s0.fits .b64 [126] :=
  ⟨clear0,
    (by unfold State.fits; decide +kernel)⟩

/-- Lanes 0 and 1 alone are active; p1 holds in lane 0. v[2:3] of every lane is 0x20000, but in the state `far1` lane 1's is
0x20004. -/
def two : State := s0.modWarp fun w =>
  (((w.setP 1 all96 1).modSp fun p => { p with active := 3 }).setV64 2 all96 fun _ => 0x20000)
def far1 : State := two.modWarp fun w => w.setV64 2 2 fun _ => 0x20004
def idle0 : State := s0.modWarp fun w => w.modSp fun p => { p with active := 0 }
theorem lanes_two (s : State) (h : ((LaneMask.lanes s.warp.sp.active).all fun l =>
      (s.warp.v64 2 l).toNat % 4 == 0 && decide ((s.warp.v64 2 l).toNat < 2 ^ 57)) = true) :
    ∀ l ∈ LaneMask.lanes s.warp.sp.active, (s.warp.v64 2 l).toNat % 4 = 0 ∧ (s.warp.v64 2 l).toNat < 2 ^ 57 := by
  intro l hl; simpa using List.all_eq_true.1 h l hl
theorem witness_PerLaneControlTransfers :
    two.clearFor false ∧
    two.warp.sp.active &&& two.warp.p 1 ≠ 0 ∧
    two.warp.sp.active &&& ~~~(two.warp.sp.active &&& two.warp.p 1) ≠ 0 ∧
    two.warp.freeSplit = some 1 ∧
    two.warp.sp.active &&& two.warp.p 2 = 0 ∧
    two.warp.sp.active &&& ~~~(two.warp.sp.active &&& two.warp.p 0) = 0 ∧
    two.fits .b64 [2] ∧
    two.fits .b64 [126] ∧
    LaneMask.lowest two.warp.sp.active = some 0 ∧
    ((∀ l ∈ LaneMask.lanes two.warp.sp.active, (two.warp.v64 2 l).toNat % 4 = 0 ∧ (two.warp.v64 2 l).toNat < 2 ^ 57)) ∧
    far1.clearFor false ∧
    far1.warp.v64 2 1 ≠ far1.warp.v64 2 0 ∧
    far1.warp.freeSplit = some 1 ∧
    ((∀ l ∈ LaneMask.lanes far1.warp.sp.active, (far1.warp.v64 2 l).toNat % 4 = 0 ∧ (far1.warp.v64 2 l).toNat < 2 ^ 57)) ∧
    idle0.clearFor false ∧
    idle0.warp.sp.active = 0 :=
  ⟨⟨by decide +kernel, rfl⟩,
    (by decide +kernel),
    (by decide +kernel),
    (by decide +kernel),
    (by decide +kernel),
    (by decide +kernel),
    (by unfold State.fits; decide +kernel),
    (by unfold State.fits; decide +kernel),
    (by decide +kernel),
    lanes_two _ (by decide +kernel),
    ⟨by decide +kernel, rfl⟩,
    (by decide +kernel),
    (by decide +kernel),
    lanes_two _ (by decide +kernel),
    ⟨by decide +kernel, rfl⟩,
    (by decide +kernel)⟩

/-- Lane 1's target is odd; every split number is taken; the overflow entry is taken too. -/
def odd2 : State := two.modWarp fun w => w.setV64 2 2 fun _ => 0x20001
def crowd : State := two.modWarp fun w => { w with
  splits := (Vector.replicate 4 (some { split0 with pc := 0x21000, member := 0, active := 0 })).set 0 w.splits[(0 : Fin 4)] }
def brim : State := crowd.modWarp fun w => { w with overflow := some ⟨0x22000, 4, 4, none⟩ }
/-- Two splits at one PC, and two in one barrier wait; a warp whose splits all wait for the overflow entry. -/
def twins (a b : Wait) : Warp := { warp0 with
  splits := ((Vector.replicate 4 none).set 0 (some { split0 with active := 1, wait := a })).set 1 (some { split0 with active := 2, wait := b })
  overflow := some ⟨0x22000, 4, 4, none⟩ }
def stuckAll : Warp := { warp0 with
  splits := (Vector.replicate 4 (some { split0 with wait := .overflow })).set 3 (some { split0 with pc := 0x20004, wait := .overflow })
  overflow := some ⟨0x22000, 4, 4, none⟩ }
theorem witness_TheOverflowEntryMergingAndExchange :
    crowd.clearFor false ∧
    (crowd.warp.sp.active &&& crowd.warp.p 1 ≠ 0 ∧ crowd.warp.sp.active &&& ~~~(crowd.warp.sp.active &&& crowd.warp.p 1) ≠ 0) ∧
    (crowd.warp.freeSplit = none ∧ crowd.warp.overflow = none) ∧
    brim.clearFor false ∧
    (brim.warp.freeSplit = none ∧ brim.warp.overflow ≠ none) ∧
    odd2.clearFor false ∧
    odd2.mayEnter ∧
    odd2.fits .b64 [2] ∧
    (odd2.warp.sp.active.getLsbD 1 = true ∧ (odd2.warp.v64 2 1).toNat % 4 ≠ 0 ∧ (odd2.warp.v64 2 0).toNat % 4 = 0) ∧
    ((twins .ready .ready).wound = none ∧ (twins .ready .ready).mayMerge 0 1 = true ∧ (twins (.barrier 3 0) (.barrier 3 0)).mayMerge 0 1 = true ∧ (twins (.barrier 3 0) .ready).mayMerge 0 1 = false) ∧
    ((twins .ready .ready).overflow = some ⟨0x22000, 4, 4, none⟩ ∧ (twins .ready .ready).splits[(2 : Fin 4)] = none ∧ ∀ j : Fin 4, j < 2 → (twins .ready .ready).splits[j] ≠ none) ∧
    (stuckAll.hold ≠ some 3 ∧ ∀ j : Fin 4, ((stuckAll.splits[j]).map fun q => decide (q.wait = .overflow ∧ (q.pc.toNat < (0x20004 : Pc).toNat ∨ (q.pc = 0x20004 ∧ j ≤ 3)))) = some true) :=
  ⟨⟨by decide +kernel, rfl⟩,
    (by decide +kernel),
    (by decide +kernel),
    ⟨by decide +kernel, rfl⟩,
    (by decide +kernel),
    ⟨by decide +kernel, rfl⟩,
    enter_of _ (by decide +kernel) (by decide +kernel) (by decide +kernel) (by decide +kernel),
    (by unfold State.fits; decide +kernel),
    (by decide +kernel),
    (by decide +kernel),
    (by decide +kernel),
    (by decide +kernel)⟩
theorem witness_TrapEntryAndReturn :
    s0.clearFor false ∧
    s0.mayEnter :=
  ⟨clear0,
    enter0⟩
def few0 : State := s0.modWarp fun w => { w with allot := 8 }
theorem witness_SharedCausesTrapInOrder :
    s0.clearFor false ∧
    s0.mayEnter ∧
    (typed s0 .i64).clearFor false ∧
    (typed s0 .i64).mayEnter ∧
    (typed s0 .i64).warp.ty .i32 = .i64 ∧
    (127 : Reg).val % 2 = 1 ∧
    ((∀ r ∈ [(0 : Reg), 0, 126], r.val % ((typed s0 .i64).warp.ty .i32).regs = 0)) ∧
    few0.clearFor false ∧
    ((∃ r ∈ [(8 : Reg), 0, 7], few0.warp.allot < r.val + (few0.warp.ty .i32).regs)) ∧
    (typed s0 .f32).clearFor false ∧
    (typed s0 .f32).mayEnter ∧
    ((typed s0 .f32).warp.ty .i32).isInt = false ∧
    (typed s0 .f32).within [127, 0, 1] :=
  ⟨clear0,
    enter0,
    typed_clear _ (by decide +kernel),
    enter_of _ (by decide +kernel) (by decide +kernel) (by decide +kernel) (by decide +kernel),
    (by decide +kernel),
    (by decide +kernel),
    (by decide +kernel),
    ⟨by decide +kernel, rfl⟩,
    (by decide +kernel),
    typed_clear _ (by decide +kernel),
    enter_of _ (by decide +kernel) (by decide +kernel) (by decide +kernel) (by decide +kernel),
    (by decide +kernel),
    (by unfold State.within; decide +kernel)⟩
theorem witness_SpecialRegisterReads :
    s0.clearFor false ∧
    s0.within [127] :=
  ⟨clear0,
    (by unfold State.within; decide +kernel)⟩
theorem witness_SpecialRegisterWrites :
    s0.clearFor false ∧
    (clausestFields 0).isSome = true ∧
    (clausestFields 0xFFFFFFFF).isNone = true ∧
    s0.mayEnter ∧
    s0.within [127] :=
  ⟨clear0,
    (by decide +kernel),
    (by decide +kernel),
    enter0,
    (by unfold State.within; decide +kernel)⟩
theorem witness_RandomDraws :
    s0.clearFor false ∧
    s0.within [127] :=
  ⟨clear0,
    (by unfold State.within; decide +kernel)⟩

/-- An allotment of 64 with 64 registers in reserve. -/
def half0 : State := (s0.modWarp fun w => { w with allot := 64 }).modWg fun g => { g with reserve := 64 }
theorem witness_GrowAndShrinkMoveTheAllotment :
    half0.clearFor false ∧
    half0.warp.allot + (64#18).toNat ≤ 128 ∧
    (64#18).toNat ≤ half0.wg.reserve ∧
    128 < half0.warp.allot + (72#18).toNat ∧
    half0.mayEnter ∧
    (128 - 64 ≤ half0.wg.reserve ∧ (64#18).toNat - half0.wg.reserve = 0) ∧
    (56#18).toNat + 8 ≤ half0.warp.allot ∧
    ((∀ w ∈ half0.warps, w.growSplit = none)) ∧
    half0.warp.allot < (64#18).toNat + 8 ∧
    (half0.group? half0.warp.key.wg).isSome = true :=
  ⟨⟨by decide +kernel, rfl⟩,
    (by decide +kernel),
    (by decide +kernel),
    (by decide +kernel),
    enter_of _ (by decide +kernel) (by decide +kernel) (by decide +kernel) (by decide +kernel),
    (by decide +kernel),
    (by decide +kernel),
    (by decide +kernel),
    (by decide +kernel),
    (by decide +kernel)⟩

/-- An allotment of 64 with nothing in reserve, where the pool of half 0 has registers left or, when `dry`, none; and the same
with the GROW of 64 already waiting. -/
def lean0 (dry : Bool) : State := { (s0.modWarp fun w => { w with allot := 64 }) with
  groups := [{ Workgroup.blank ⟨0, 1, 0⟩ with charge0 := if dry then 3072 else 0 }] }
def grown (dry : Bool) : State := (lean0 dry).modWarp fun w => w.modSp fun p => { p with wait := .grow 64 }
/-- A second live warp of the workgroup, of WARPIDX 1, that is ready. -/
def mate0 : State := { lean0 true with others := [{ warp0 with key := ⟨0, 1, 0, 1⟩ }] }
theorem witness_GrowWaitsForThePoolOrDies :
    (lean0 false).clearFor false ∧
    ((lean0 false).wg.reserve = 0 ∧ 64 ≤ (lean0 false).poolFree (lean0 false).warp.core (lean0 false).warp.half) ∧
    ((∀ x ∈ (lean0 false).warps, x.growSplit = none)) ∧
    mate0.clearFor false ∧
    (mate0.poolFree mate0.warp.core mate0.warp.half < 64 ∧ mate0.warp.allot + (64#18).toNat ≤ 128) ∧
    ((∃ w ∈ (mate0.setWait (.grow 64)).warpsOf mate0.warp.key.wg, w.stuckInGrow ((mate0.setWait (.grow 64)).hdrOf mate0.warp.key.wg.launch).det = false)) ∧
    (lean0 true).clearFor false ∧
    (lean0 true).mayEnter ∧
    ((lean0 true).poolFree (lean0 true).warp.core (lean0 true).warp.half < 64 ∧ (lean0 true).warp.live = true ∧ (lean0 true).warp.hold = none) ∧
    ((∀ w ∈ ((lean0 true).setWait (.grow 64)).warpsOf (lean0 true).warp.key.wg, w.stuckInGrow (((lean0 true).setWait (.grow 64)).hdrOf (lean0 true).warp.key.wg.launch).det = true ∧ w.key.widx ≤ 0)) ∧
    ((lean0 true).setWait (.grow 64)).warp.growSplit = some (lean0 true).warp.cur ∧
    ((grown false).warp.live = true ∧ (grown false).warp.sp.wait = .grow 64 ∧ ((grown false).warp.splits[(grown false).warp.cur]).isSome = true ∧ (grown false).gated false = false) ∧
    (64 ≤ (grown false).poolFree (grown false).warp.core (grown false).warp.half ∧ ((grown true).poolFree (grown true).warp.core (grown true).warp.half < 64)) :=
  ⟨⟨by decide +kernel, rfl⟩,
    (by decide +kernel),
    (by decide +kernel),
    ⟨by decide +kernel, rfl⟩,
    (by decide +kernel),
    (by decide +kernel),
    ⟨by decide +kernel, rfl⟩,
    enter_of _ (by decide +kernel) (by decide +kernel) (by decide +kernel) (by decide +kernel),
    (by decide +kernel),
    (by decide +kernel),
    (by decide +kernel),
    (by decide +kernel),
    (by decide +kernel)⟩
theorem witness_FloatArithmeticResults :
    (typed s0 .f64).clearFor false ∧
    Ty.arith ((typed s0 .f64).warp.ty .f32) = true ∧
    (typed s0 .f64).fits ((typed s0 .f64).warp.ty .f32) [2, 4, 126] ∧
    (typed s0 .f64).fits ((typed s0 .f64).warp.ty .f32) [2, 126] :=
  ⟨typed_clear _ (by decide +kernel),
    (by decide +kernel),
    (by unfold State.fits; decide +kernel),
    (by unfold State.fits; decide +kernel)⟩
theorem witness_FloatSignClassScaleCompareResults :
    (typed s0 .f64).clearFor false ∧
    Ty.isFloat ((typed s0 .f64).warp.ty .f32) = true ∧
    (typed s0 .f64).fits ((typed s0 .f64).warp.ty .f32) [2, 4, 126] ∧
    Ty.arith ((typed s0 .f64).warp.ty .f32) = true ∧
    (typed s0 .f64).within [127] ∧
    (((typed s0 .f64).warp.ty .f32 = .f32 ∨ (typed s0 .f64).warp.ty .f32 = .f64)) ∧
    (typed s0 .f16x2).clearFor false ∧
    (typed s0 .f16x2).warp.ty .f32 = .f16x2 ∧
    (typed s0 .f16x2).within [1, 2, 127] :=
  ⟨typed_clear _ (by decide +kernel),
    (by decide +kernel),
    (by unfold State.fits; decide +kernel),
    (by decide +kernel),
    (by unfold State.within; decide +kernel),
    (by decide +kernel),
    typed_clear _ (by decide +kernel),
    (by decide +kernel),
    (by unfold State.within; decide +kernel)⟩
theorem witness_FloatConversionResults :
    (typed s0 .i8x4).clearFor false ∧
    (((typed s0 .i8x4).warp.ty .i32).isInt || ((typed s0 .i8x4).warp.ty .i32).isFloat) = true ∧
    ((typed s0 .i8x4).warp.ty .i32).elems * Ty.f32.elemBits ≤ 128 ∧
    (typed s0 .i8x4).fits ((typed s0 .i8x4).warp.ty .i32) [127] ∧
    (124 : Reg).val % 4 = 0 ∧
    (124 : Reg).val + 4 ≤ (typed s0 .i8x4).warp.allot ∧
    (typed s0 .e4m3x4).clearFor false ∧
    (typed s0 .e4m3x4).warp.ty .f32 ∈ [Ty.f16x2, .bf16x2, .e4m3x4, .e5m2x4] ∧
    ((∀ r ∈ [(2 : Reg), 126], r.val % 2 = 0 ∧ r.val + 2 ≤ (typed s0 .e4m3x4).warp.allot)) ∧
    (typed s0 .e4m3x4).within [127] :=
  ⟨typed_clear _ (by decide +kernel),
    (by decide +kernel),
    (by decide +kernel),
    (by unfold State.fits; decide +kernel),
    (by decide +kernel),
    (by decide +kernel),
    typed_clear _ (by decide +kernel),
    (by decide +kernel),
    (by decide +kernel),
    (by unfold State.within; decide +kernel)⟩
theorem witness_LongFloatResults :
    s0.clearFor false ∧
    Ty.arith (s0.warp.ty .f32) = true ∧
    s0.fits (s0.warp.ty .f32) [1, 127] ∧
    Ty.transc (s0.warp.ty .f32) = true ∧
    s0.fits (s0.warp.ty .f32) [1, 2, 127] :=
  ⟨clear0,
    (by decide +kernel),
    (by unfold State.fits; decide +kernel),
    (by decide +kernel),
    (by unfold State.fits; decide +kernel)⟩
theorem witness_FloatArithmeticSpecialOperands :
    (FVal.isNan (.nan true) || FVal.isNan (.inf false)) = true ∧
    (true : Bool) ≠ false ∧
    ((f32F.nan = true ∧ f32F.inf = true)) ∧
    ((∀ n m : Bool, (∃ a b : FVal, a = .inf n ∧ b = .fin false 1 0) ∧ ∃ c : FVal, c = .inf m)) :=
  ⟨(by decide +kernel),
    (by decide +kernel),
    ⟨rfl, rfl⟩,
    fun _ _ => ⟨⟨_, _, rfl, rfl⟩, _, rfl⟩⟩
theorem witness_SpecialOperandsRootsAndExtremes :
    ((∃ y < 2 ^ f32F.bits, f32F.decode y = .fin false 0x800000 (-21))) ∧
    ((∃ y < 2 ^ f32F.bits, f32F.decode y = .fin true 0xC00000 (-22))) ∧
    (ratOf true 0xC00000 (-22) = ((-3 : Int) : Rat)) ∧
    (f16F.decode 0x7E00 = .nan false ∧ f16F.decode 0x7D00 = .nan true ∧ f16F.decode 0x8000 = .fin true 0 (-24)) :=
  ⟨⟨0x40800000, by decide, by decide +kernel⟩,
    ⟨0xC0400000, by decide, by decide +kernel⟩,
    (by norm_num [ratOf]),
    (by decide +kernel)⟩
theorem witness_LaneMoveAndVoteResults :
    s0.clearFor false ∧
    (s0.warp.ty .b32).isBits = true ∧
    s0.fits (s0.warp.ty .b32) [1, 127] ∧
    s0.within [127] :=
  ⟨clear0,
    (by decide +kernel),
    (by unfold State.fits; decide +kernel),
    (by unfold State.within; decide +kernel)⟩
theorem witness_LaneCombineResults :
    s0.clearFor false ∧
    xAccepts .add (s0.warp.ty .i32) = true ∧
    s0.fits (s0.warp.ty .i32) [1, 127] ∧
    s0.fits (s0.warp.ty .i32) [127] ∧
    s0.within [1] ∧
    ((s0.warp.ty .i32).isInt || Ty.arith (s0.warp.ty .i32)) = true ∧
    (s0.warp.ty .b32).isBits = true ∧
    s0.fits (s0.warp.ty .b32) [127] :=
  ⟨clear0,
    (by decide +kernel),
    (by unfold State.fits; decide +kernel),
    (by unfold State.fits; decide +kernel),
    (by unfold State.within; decide +kernel),
    (by decide +kernel),
    (by decide +kernel),
    (by unfold State.fits; decide +kernel)⟩

/-- At the bounds of the clauses: the largest finite number, infinity and the first NaN of f16; e4m3 has no infinity. -/
theorem witness_RoundToFollowsTheModes : 0x7BFF < 2 ^ f16F.bits ∧ 0x7BFF ≤ f16F.maxCode ∧ ¬ 0x7C00 ≤ f16F.maxCode ∧
    (f16F.inf && 0x7C00 == (2 ^ f16F.eb - 1) * 2 ^ f16F.fb) = true ∧ (f16F.inf && 0x7C01 == (2 ^ f16F.eb - 1) * 2 ^ f16F.fb) = false ∧
    e4m3F.inf = false ∧ ¬ 0x7F ≤ e4m3F.maxCode := by decide

/-- The step leaves its accesses to be performed later. -/
def m1 : State := { m0 with slow := true }
theorem witness_GlobalLoadsAndStoresComplete :
    m0.clearFor false ∧
    m0.prompt ∧
    (m0.warp.ty .b32).isBits = true ∧
    m0.fits (m0.warp.ty .b32) [127] ∧
    m0.within [127] ∧
    m0.reaches .load (m0.warp.ty .b32).bytes (m0.globalAddrs 127 126) ∧
    m0.reaches .store (m0.warp.ty .b32).bytes (m0.globalAddrs 127 126) ∧
    m0.slow = false ∧
    (127 : Reg).val % (m0.warp.ty .b32).regs = 0 ∧
    m0.reaches .load (m0.warp.ty .b32).bytes (([(none, m0.warp.s64 126 + (m0.warp.s 127).signExtend 64)] : List (Option Lane × DWord))) ∧
    m0.reaches .store (m0.warp.ty .b32).bytes (([(none, m0.warp.s64 126 + (m0.warp.s 127).signExtend 64)] : List (Option Lane × DWord))) ∧
    m1.clearFor false ∧
    m1.prompt ∧
    (m1.slow = true ∧ m1.warp.ord.acquires = false) ∧
    m1.reaches .load (m1.warp.ty .b32).bytes (m1.globalAddrs 127 126) ∧
    (atScope m1 .device .acquire).warp.ord.acquires = true :=
  ⟨⟨by decide +kernel, rfl⟩,
    prompt_of _ (by decide +kernel) (by decide +kernel),
    (by decide +kernel),
    (by unfold State.fits; decide +kernel),
    (by unfold State.within; decide +kernel),
    reaches_of _ _ _ _ (by decide +kernel) (by decide +kernel),
    reaches_of _ _ _ _ (by decide +kernel) (by decide +kernel),
    (by decide +kernel),
    (by decide +kernel),
    reaches_of _ _ _ _ (by decide +kernel) (by decide +kernel),
    reaches_of _ _ _ _ (by decide +kernel) (by decide +kernel),
    ⟨by decide +kernel, rfl⟩,
    prompt_of _ (by decide +kernel) (by decide +kernel),
    (by decide +kernel),
    reaches_of _ _ _ _ (by decide +kernel) (by decide +kernel),
    (by decide +kernel)⟩

/-- Buffers of 4,096 bytes, two active lanes at offset 4,092, the last word, from s4; a handle of slot 0 in s6, its offset in
s7. -/
def buf0 : State := ((headed s0 16 4 0 4096 4).modWarp fun w =>
  ((((w.setS 4 4092).setS 6 0x80010000).setS 7 124).modSp fun p => { p with active := 3 })).modWg fun g =>
    { g with handles := g.handles.set 0 ⟨.held 0, 1, .ab, 0, 128⟩ }
theorem witness_BufferAndHandleAccessesComplete :
    buf0.clearFor false ∧
    buf0.prompt ∧
    (buf0.warp.ty .b32).isBits = true ∧
    buf0.fits (buf0.warp.ty .b32) [127] ∧
    buf0.within [127] ∧
    buf0.bufCause .sb (buf0.warp.ty .b32).bytes ((buf0.laneAddrs 127 4).map fun x => (x.1, x.2.toNat)) = none ∧
    buf0.bufCause .ab 4 ((buf0.laneAddrs 127 4).map fun x => (x.1, x.2.toNat)) = none ∧
    buf0.bufCause .cb 4 ((buf0.laneAddrs 127 4).map fun x => (x.1, x.2.toNat)) = none ∧
    buf0.heldHandle buf0.warp.key.wg (buf0.warp.s 6) = some (⟨0, 1, 0⟩, 0) ∧
    (buf0.slotOf ⟨0, 1, 0⟩ 0).buf ≠ .wb ∧
    (124 + 4 ≤ (buf0.slotOf ⟨0, 1, 0⟩ 0).size ∧ 124 % 4 = 0) ∧
    LaneMask.lanes buf0.warp.guarded ≠ [] ∧
    buf0.slow = false ∧
    ({ buf0 with slow := true } : State).clearFor false ∧
    ({ buf0 with slow := true } : State).prompt ∧
    ({ buf0 with slow := true } : State).warp.ord.acquires = false :=
  ⟨⟨by decide +kernel, rfl⟩,
    prompt_of _ (by decide +kernel) (by decide +kernel),
    (by decide +kernel),
    (by unfold State.fits; decide +kernel),
    (by unfold State.within; decide +kernel),
    (by decide +kernel),
    (by decide +kernel),
    (by decide +kernel),
    (by decide +kernel),
    (by decide +kernel),
    (by decide +kernel),
    (by decide +kernel),
    (by decide +kernel),
    ⟨by decide +kernel, rfl⟩,
    prompt_of _ (by decide +kernel) (by decide +kernel),
    (by decide +kernel)⟩

/-- Lane 1's address is odd; every address is 2^57. -/
def odd0 : State := buf0.modWarp fun w => w.setV 1 2 fun _ => 1
def high0 : State := buf0.modWarp fun w => w.setS 3 0x2000000
theorem witness_AccessTrapsComeInOrder :
    odd0.clearFor false ∧
    odd0.mayEnter ∧
    (odd0.warp.ty .b32).isBits = true ∧
    odd0.fits (odd0.warp.ty .b32) [127] ∧
    odd0.within [1] ∧
    (odd0.laneAddrs 1 8).find? (fun y => y.2.toNat % (odd0.warp.ty .b32).bytes != 0) = some (1, 1) ∧
    high0.clearFor false ∧
    high0.mayEnter ∧
    ((high0.laneAddrs 1 2).all fun y => y.2.toNat % (high0.warp.ty .b32).bytes == 0) = true ∧
    ((high0.laneAddrs 1 2).find? (fun y => decide (2 ^ 57 ≤ y.2.toNat))).isSome = true ∧
    ((odd0.laneAddrs 1 4).find? (fun y => decide (odd0.bufSize odd0.warp.key.wg .sb < y.2.toNat + (odd0.warp.ty .b32).bytes))).isSome = true :=
  ⟨⟨by decide +kernel, rfl⟩,
    enter_of _ (by decide +kernel) (by decide +kernel) (by decide +kernel) (by decide +kernel),
    (by decide +kernel),
    (by unfold State.fits; decide +kernel),
    (by unfold State.within; decide +kernel),
    (by decide +kernel),
    ⟨by decide +kernel, rfl⟩,
    enter_of _ (by decide +kernel) (by decide +kernel) (by decide +kernel) (by decide +kernel),
    (by decide +kernel),
    (by decide +kernel),
    (by decide +kernel)⟩

/-- A handle over 128 bytes of AB at offset 0 with the lanes' offsets at 124, 126 and past it; a lane's offset in a lent region. -/
def handle0 (off : Word) : State := (buf0.modWarp fun w => w.setS 7 off).modWg fun g =>
  { g with handles := g.handles.set 0 ⟨.held 0, 1, .ab, 0, 128⟩ }
def lent0 : State := buf0.modWg fun g => { g with handles := g.handles.set 0 ⟨.held 1, 1, .sb, 3968, 128⟩ }
def hOffs (s : State) : List Nat := (LaneMask.lanes s.warp.guarded).map fun l =>
  ((s.warp.s 7).setWidth 64 + (s.warp.v 127 l).signExtend 64 : DWord).toNat
theorem witness_BufferHandleAndAtomicTraps :
    lent0.clearFor false ∧
    lent0.mayEnter ∧
    (((lent0.laneAddrs 127 4).map fun x => (x.1, x.2.toNat)).find? (fun o => decide (lent0.bufSize lent0.warp.key.wg .sb < o.2 + 4)) = none ∧ lent0.lentOut lent0.warp.key.wg .sb 4092 4 = true) ∧
    (buf0.laneAddrs 127 4).all (fun y => y.2.toNat == 4092 && y.2.toNat % (8 : Nat) != 0) = true ∧
    (handle0 126).clearFor false ∧
    (handle0 126).mayEnter ∧
    ((handle0 126).heldHandle (handle0 126).warp.key.wg ((handle0 126).warp.s 6) = some (⟨0, 1, 0⟩, 0) ∧ (handle0 126).heldHandle (handle0 126).warp.key.wg 0 = none) ∧
    (hOffs (handle0 126) = [126, 126] ∧ hOffs (handle0 122) = [122, 122] ∧ ((handle0 122).slotOf ⟨0, 1, 0⟩ 0).size = 128 ∧ ((handle0 122).slotOf ⟨0, 1, 0⟩ 0).buf ≠ .wb) ∧
    (lent0.modWg fun g => { g with handles := g.handles.set 0 ⟨.held 0, 1, .wb, 0, 128⟩ }).heldHandle ⟨0, 1, 0⟩ 0x80010000 = some (⟨0, 1, 0⟩, 0) ∧
    (((odd0.gated true = false ∧ odd0.gated false = false) ∧ odd0.warp.outstanding = [])) ∧
    (odd0.warp.sp.done = 0 ∧ AOp.accepts .add (odd0.warp.ty AOp.add.default) = true) ∧
    (odd0.laneAddrs 1 8).find? (fun y => y.2.toNat % (4 * (odd0.warp.ty AOp.add.default).regs) != 0) = some (1, 1) ∧
    (((LaneMask.lanes odd0.warp.guarded).map fun l => (odd0.warp.v 1 l).toNat).find? (fun o => o % 4 != 0) = some 1 ∧ (atScope odd0 .core .relaxed).warp.scope = .core ∧ odd0.warp.scope = .device) ∧
    AOp.accepts .fadd ((typed odd0 .i8x4).warp.ty AOp.fadd.default) = false :=
  ⟨⟨by decide +kernel, rfl⟩,
    enter_of _ (by decide +kernel) (by decide +kernel) (by decide +kernel) (by decide +kernel),
    (by decide +kernel),
    (by decide +kernel),
    ⟨by decide +kernel, rfl⟩,
    enter_of _ (by decide +kernel) (by decide +kernel) (by decide +kernel) (by decide +kernel),
    (by decide +kernel),
    (by decide +kernel),
    (by decide +kernel),
    ⟨by decide +kernel, rfl⟩,
    (by decide +kernel),
    (by decide +kernel),
    (by decide +kernel),
    (by decide +kernel)⟩
theorem witness_CacheLineOperationsComplete :
    m0.clearFor false ∧
    m0.prompt ∧
    (m0.warp.ty .b32).isBits = true ∧
    m0.within [127] ∧
    m0.reaches .load 1 (m0.globalAddrs 127 126) ∧
    (atScope m0 .system .relaxed).warp.scope = .system :=
  ⟨⟨by decide +kernel, rfl⟩,
    prompt_of _ (by decide +kernel) (by decide +kernel),
    (by decide +kernel),
    (by unfold State.within; decide +kernel),
    reaches_of _ _ _ _ (by decide +kernel) (by decide +kernel),
    (by decide +kernel)⟩
theorem witness_ByteMemoryReadAfterWrite :
    Memory.wf [(0, 1), (5, 2)] = true ∧
    0 < [1#8].length ∧
    ((4 : Nat) < 5 ∨ 5 + 1 ≤ 4) :=
  ⟨(by decide +kernel),
    (by decide +kernel),
    (by decide +kernel)⟩
theorem witness_CachedWritesFrame :
    m0.cacheable 64 = true ∧
    Memory.wf m0.mem = true ∧
    m0.place (2 ^ 36 - 1) = .local ∧
    ((∀ c ∈ m0.contexts, c.interval = 0)) ∧
    cacheGet (m0.cacheOf 0) (2 ^ 36 - 1) = none ∧
    m0.lineKey (2 ^ 36 - 1) = none ∧
    (m0.slow = false ∧ m1.slow = true) :=
  ⟨(by decide +kernel),
    (by decide +kernel),
    (by decide +kernel),
    (by decide +kernel),
    (by decide +kernel),
    (by decide +kernel),
    (by decide +kernel)⟩
theorem witness_AtomicOperationsApply :
    2 ^ 32 - 1 < 2 ^ (32 * Ty.i32.regs) ∧
    AOp.accepts .add .i32 = true ∧
    AOp.accepts .and .b64 = true ∧
    AOp.accepts .fadd .f16x2 = true :=
  ⟨(by decide +kernel),
    (by decide +kernel),
    (by decide +kernel),
    (by decide +kernel)⟩
theorem witness_AtomicsOnOneWordStayTogether :
    ([⟨0, 8, 8, none, 0⟩, ⟨95, 8, 8, none, 0⟩] : List AtomicLane).Pairwise (fun x y => x.lane.val < y.lane.val) ∧
    (buf0.group? ⟨0, 1, 0⟩).isSome = true ∧
    Memory.wf ((buf0.wg).bufs[(0 : Fin 4)]).cells = true ∧
    (pairsOfHalves .fadd .f16x2 = true ∧ 2 ^ 32 - 1 < 2 ^ 32) :=
  ⟨(by simp),
    (by decide +kernel),
    (by decide +kernel),
    (by decide +kernel)⟩
theorem witness_AtomicsComplete :
    m0.clearFor true ∧
    m0.clearFor false ∧
    m0.prompt ∧
    m0.warp.sp.done = 0 ∧
    m0.within [127] ∧
    AOp.accepts .add (m0.warp.ty AOp.add.default) = true ∧
    (127 : Reg).val % AOp.operandRegs .add (m0.warp.ty AOp.add.default) = 0 ∧
    (127 : Reg).val + AOp.operandRegs .add (m0.warp.ty AOp.add.default) ≤ m0.warp.allot ∧
    m0.reaches .atomic 4 (m0.laneAddrs 127 126) ∧
    (atScope buf0 .core .relaxed).clearFor true ∧
    (atScope buf0 .core .relaxed).warp.scope = .core ∧
    (atScope buf0 .core .relaxed).bufCause .sb 4 ((LaneMask.lanes (atScope buf0 .core .relaxed).warp.guarded).map fun l => (l, ((atScope buf0 .core .relaxed).warp.v 127 l).toNat)) = none ∧
    ((m0.slow = false ∨ m0.det = true)) ∧
    m1.clearFor true ∧
    (m1.slow = true ∧ m1.det = false ∧ m1.warp.ord.acquires = false) :=
  ⟨⟨by decide +kernel, rfl⟩,
    ⟨by decide +kernel, rfl⟩,
    prompt_of _ (by decide +kernel) (by decide +kernel),
    (by decide +kernel),
    (by unfold State.within; decide +kernel),
    (by decide +kernel),
    (by decide +kernel),
    (by decide +kernel),
    reaches_of _ _ _ _ (by decide +kernel) (by decide +kernel),
    ⟨by decide +kernel, rfl⟩,
    (by decide +kernel),
    (by decide +kernel),
    (by decide +kernel),
    ⟨by decide +kernel, rfl⟩,
    (by decide +kernel)⟩

/-- A split that waits in WAITCMP with one lane left, its monitor fired or polled. -/
def wait0 (fired poll : Bool) : State := { m0.modWarp fun w => w.modSp fun p => { p with wait := .waitcmp .ne 4 [⟨0, 64, 64, none, 0, 0⟩] } with
  monitors := [⟨bootKey, 0, 64, 4, poll, fired, none⟩] }
theorem witness_WaitcmpCompletesWhenSatisfied :
    m0.clearFor true ∧
    m0.prompt ∧
    m0.warp.ty .b32 = .b32 ∧
    m0.fits (m0.warp.ty .b32) [127] ∧
    m0.within [127] ∧
    (126 : Reg).val ≠ 0 ∧
    LaneMask.lanes m0.warp.guarded = [0, 1] ∧
    m0.reaches .load (4 * (m0.warp.ty .b32).regs) (m0.globalAddrs 127 126) ∧
    ((m0.places .load (m0.globalAddrs 127 126)).2.noMonitors.checkLanes .eq 4 ((m0.places .load (m0.globalAddrs 127 126)).1.filterMap fun x => x.1.map fun y => ⟨y, x.2.va, x.2.pa, x.2.key, x.2.page, m0.warp.vNat 127 1 y⟩)).1.length = 0 ∧
    ((m0.places .load (m0.globalAddrs 127 126)).2.noMonitors.checkLanes .ne 4 ((m0.places .load (m0.globalAddrs 127 126)).1.filterMap fun x => x.1.map fun y => ⟨y, x.2.va, x.2.pa, x.2.key, x.2.page, m0.warp.vNat 127 1 y⟩)).1.length = 2 ∧
    2 ^ 32 - 1 < 2 ^ (8 * 4) ∧
    (wait0 true false).warp.sp.wait = .waitcmp .ne 4 [⟨0, 64, 64, none, 0, 0⟩] ∧
    (wait0 true false).mayRecheck bootKey = true ∧
    ((∃ m ∈ (wait0 true false).monitors, m.warp = bootKey ∧ m.split = 0 ∧ m.fired = true)) ∧
    (wait0 false true).mayRecheck bootKey = true ∧
    ((∃ m ∈ (wait0 false true).monitors, m.warp = bootKey ∧ m.split = 0 ∧ m.poll = true)) ∧
    ((({ wait0 true false with poisoned := [1] } : State).spotFault (.global 64 none) true).isSome = true ∧ ((wait0 true false).spotFault (.global 64 none) true).isSome = false) :=
  ⟨⟨by decide +kernel, rfl⟩,
    prompt_of _ (by decide +kernel) (by decide +kernel),
    (by decide +kernel),
    (by unfold State.fits; decide +kernel),
    (by unfold State.within; decide +kernel),
    (by decide +kernel),
    (by decide +kernel),
    reaches_of _ _ _ _ (by decide +kernel) (by decide +kernel),
    (by decide +kernel),
    (by decide +kernel),
    (by decide +kernel),
    (by decide +kernel),
    (by decide +kernel),
    (by decide +kernel),
    (by decide +kernel),
    (by decide +kernel),
    (by decide +kernel)⟩
theorem witness_BarrierArrivalsCountDistinctThreads :
    ((⟨[(0, 5)], 0, some 0⟩ : Barrier).threads.Nodup ∧ ([95, 3] : List Nat).Nodup) ∧
    (((⟨[], 0, none⟩ : Barrier).arrived = [] ∧ (⟨[(0, 5)], 0, some 0⟩ : Barrier).arrived ≠ [])) ∧
    (((⟨[(0, 5)], 0, some 0⟩ : Barrier).first = some 0 ∧ (⟨[(0, 5)], 0, some 0x3FFF⟩ : Barrier).first = some 0x3FFF)) ∧
    (((⟨[(0, 5)], 0, none⟩ : Barrier).without [0]).arrived = [] ∧ ((⟨[(0, 5), (1, 5)], 0, none⟩ : Barrier).without [0]).arrived ≠ []) :=
  ⟨(by decide +kernel),
    ⟨rfl, by decide⟩,
    ⟨rfl, rfl⟩,
    (by decide +kernel)⟩

/-- A second warp of the workgroup that has not arrived; and the first one's members are in the arrival set of barrier 15. -/
def pair0 : State := { s0 with others := [{ warp0 with key := ⟨0, 1, 0, 1⟩ }] }
def came0 : State := pair0.arrive 15
theorem witness_BarriersCompleteOrWait :
    s0.clearFor false ∧
    s0.prompt ∧
    s0.warp.live = true ∧
    s0.warp.splits[s0.warp.cur] = some split0 ∧
    split0.member ≠ 0 ∧
    ((s0.group? s0.warp.key.wg).isSome = true ∧ (s0.launch s0.warp.key.launch).isSome = true) ∧
    s0.hdr.clsize ≠ 0 ∧
    ((s0.arrive 15).barrier s0.warp.key.wg 15).complete ((s0.arrive 15).scopeLive s0.warp.key.wg 15) = true ∧
    ((s0.arrive 16).barrier s0.warp.key.wg 16).complete ((s0.arrive 16).scopeLive s0.warp.key.wg 16) = true ∧
    pair0.clearFor false ∧
    ((pair0.arrive 15).barrier pair0.warp.key.wg 15).complete ((pair0.arrive 15).scopeLive pair0.warp.key.wg 15) = false ∧
    ((pair0.arrive 16).barrier pair0.warp.key.wg 16).complete ((pair0.arrive 16).scopeLive pair0.warp.key.wg 16) = false ∧
    pair0.clearFor false ∧
    pair0.prompt ∧
    came0.clearFor false ∧
    came0.prompt ∧
    ((∃ l ∈ LaneMask.lanes split0.member, came0.arrivalOf 15 l ∈ (came0.barrier came0.warp.key.wg 15).threads)) ∧
    (s0.barrier s0.warp.key.wg 15).arrived = [] :=
  ⟨clear0,
    prompt0,
    (by decide +kernel),
    (by decide +kernel),
    (by decide +kernel),
    (by decide +kernel),
    (by decide +kernel),
    (by decide +kernel),
    (by decide +kernel),
    ⟨by decide +kernel, rfl⟩,
    (by decide +kernel),
    (by decide +kernel),
    ⟨by decide +kernel, rfl⟩,
    prompt_of _ (by decide +kernel) (by decide +kernel),
    ⟨by decide +kernel, rfl⟩,
    prompt_of _ (by decide +kernel) (by decide +kernel),
    (by decide +kernel),
    (by decide +kernel)⟩

def tick0 (value : Nat) (poisoned : Bool) (wglin : Nat) : State := { (headed s0 16 3 0 4096 4).modWarp fun w => { w with key := ⟨0, 1, wglin, 0⟩ } with
  launches := (headed s0 16 3 0 4096 4).launches.map fun l => { l with tickets := l.tickets.set 2 ⟨value, poisoned, [], []⟩ } }
def tickOf (s : State) : Ticket := s.ticket s.warp.key.launch 2
theorem witness_TicketWaitsAndPasses :
    (tick0 0 false 0).clearFor true ∧
    (tick0 0 false 0).warp.reds = [] ∧
    (tick0 0 false 0).hdr.tickets ≤ (3 : Fin 4).val ∧
    (2 : Fin 4).val < (tick0 0 false 0).hdr.tickets ∧
    (tick0 0 true 0).clearFor true ∧
    (tickOf (tick0 0 true 0)).poisoned = true ∧
    ((tickOf (tick0 0 false 0)).poisoned = false ∧ (tickOf (tick0 0 false 0)).value = 0) ∧
    (tick0 1 false 0).clearFor true ∧
    0 < (tickOf (tick0 1 false 0)).value ∧
    (tick0 0 false 1).clearFor true ∧
    (tickOf (tick0 0 false 1)).value < (tick0 0 false 1).warp.key.wglin :=
  ⟨⟨by decide +kernel, rfl⟩,
    (by decide +kernel),
    (by decide +kernel),
    (by decide +kernel),
    ⟨by decide +kernel, rfl⟩,
    (by decide +kernel),
    (by decide +kernel),
    ⟨by decide +kernel, rfl⟩,
    (by decide +kernel),
    ⟨by decide +kernel, rfl⟩,
    (by decide +kernel)⟩

def lost0 (masked : Bool) : State := s0.modWarp fun w => { w with revoked := some 5, trapmask := masked }
theorem witness_FenceOrdersAndDeliversLocklost :
    s0.clearFor false ∧
    s0.prompt ∧
    s0.warp.revoked = none ∧
    (lost0 false).clearFor false ∧
    (lost0 false).prompt ∧
    (lost0 false).mayEnter ∧
    (lost0 false).warp.revoked = some 5 ∧
    (lost0 true).clearFor false ∧
    (lost0 true).prompt ∧
    ((lost0 true).warp.revoked = some 5 ∧ (lost0 true).warp.trapmask = true) ∧
    (atScope s0 .cluster .relaxed).clearFor false ∧
    ((atScope s0 .cluster .relaxed).warp.scope = .cluster ∧ (1 : BitVec 6) &&& 0x3E#6 = 0) :=
  ⟨clear0,
    prompt0,
    (by decide +kernel),
    ⟨by decide +kernel, rfl⟩,
    prompt_of _ (by decide +kernel) (by decide +kernel),
    enter_of _ (by decide +kernel) (by decide +kernel) (by decide +kernel) (by decide +kernel),
    (by decide +kernel),
    ⟨by decide +kernel, rfl⟩,
    prompt_of _ (by decide +kernel) (by decide +kernel),
    (by decide +kernel),
    ⟨by decide +kernel, rfl⟩,
    (by decide +kernel)⟩

/-- Domain 0 has 16 tiles of 4,096 bytes and the default matrix, under which nothing is compatible with X. The name in s2:s3 is
the whole domain. -/
def lockCtx (hs : List Holding) : Context := { bootContext with
  domains := [(0, ⟨0, 65536, 12, 0x00104A29F#36, []⟩)], holdings := hs }
def domainName : DWord := 0x000FFFFFFFFFFFFF
def lock0 (hs : List Holding) : State := { (headed s0 16 4 0 4096 4).modWarp fun w => w.setS64 2 domainName with
  contexts := [lockCtx hs] }
def otherKey : WarpKey := ⟨0, 1, 0, 1⟩
def locks (hs : List Holding) : Prop := (lock0 hs).clearFor true ∧ (lock0 hs).warp.revoked = none ∧ (lock0 hs).warp.live = true ∧
  (lock0 hs).warp.splits[(lock0 hs).warp.cur].isSome = true ∧ (lock0 hs).warp.inLockWait = false ∧
  (lock0 hs).context (lock0 hs).warp.key.ctx = some (lockCtx hs) ∧ (lockCtx hs).waiting = [] ∧ (lock0 hs).warp.s64 2 = domainName
theorem locks_of (hs : List Holding) (h1 : (lock0 hs).gated true = false) (h2 : (lock0 hs).warp.s64 2 = domainName) :
    locks hs := ⟨⟨h1, rfl⟩, rfl, rfl, rfl, rfl, rfl, rfl, h2⟩
theorem witness_LockRequestsAreGrantedOrWait :
    locks [] ∧
    ((lockCtx []).lkMalformed (lock0 []).hdr.domCount domainName = false ∧ (lockCtx []).parentOk bootKey domainName .x = true) ∧
    (lockCtx []).heldBy bootKey domainName = none ∧
    (lock0 []).entryFree domainName = true ∧
    locks [⟨domainName, otherKey, .x⟩] ∧
    (lockCtx [⟨domainName, otherKey, .x⟩]).compatible domainName .x .x = false ∧
    (lockCtx [⟨domainName, otherKey, .x⟩]).heldBy bootKey domainName = none ∧
    locks [⟨domainName, bootKey, .is⟩] ∧
    (lockCtx [⟨domainName, bootKey, .is⟩]).heldBy bootKey domainName = some .is ∧
    LkMode.mayUp .is .x = true ∧
    LkMode.mayUp .x .is = false ∧
    (lockCtx []).lkMalformed (lock0 []).hdr.domCount 0xFFF0000000000000 = true ∧
    (lock0 []).mayEnter :=
  ⟨locks_of _ (by decide +kernel) (by decide +kernel),
    (by decide +kernel),
    (by decide +kernel),
    (by decide +kernel),
    locks_of _ (by decide +kernel) (by decide +kernel),
    (by decide +kernel),
    (by decide +kernel),
    locks_of _ (by decide +kernel) (by decide +kernel),
    (by decide +kernel),
    (by decide +kernel),
    (by decide +kernel),
    (by decide +kernel),
    enter_of _ (by decide +kernel) (by decide +kernel) (by decide +kernel) (by decide +kernel)⟩

/-- A younger warp, not waiting, holds the object under X. -/
def rival0 : State := { lock0 [⟨domainName, otherKey, .x⟩] with others := [{ warp0 with key := otherKey }] }
/-- Every entry of the object's home is taken. -/
def filled (n : Nat) : State := lock0 (List.replicate n ⟨domainName, otherKey, .s⟩)
def packed0 : State := filled 8192
theorem filled_entries (n : Nat) : (filled n).entriesUsed (lockSlice (filled n).member domainName) = n := by
  have h : (filled n).contexts = [lockCtx (List.replicate n ⟨domainName, otherKey, .s⟩)] := rfl
  simp [State.entriesUsed, h, lockCtx, bootContext, Context.blank]
theorem packed_entries : packed0.entryFree domainName = false := by
  unfold State.entryFree packed0; rw [filled_entries]; decide
theorem filled_free (n : Nat) : (lockCtx (List.replicate n ⟨domainName, otherKey, .s⟩)).heldBy bootKey domainName = none := by
  simp [Context.heldBy, lockCtx, bootContext, otherKey, bootKey]
/-- The other warp waits for the object, which this warp alone holds. -/
def asked : LockReq := ⟨domainName, otherKey, .s, false, true⟩
def behind : Split := { split0 with wait := .lock (some 7) domainName .s false }
def waiter0 : State := { lock0 [⟨domainName, bootKey, .x⟩] with
  others := [{ warp0 with key := otherKey, splits := (Vector.replicate 4 none).set 0 (some behind) }]
  contexts := [{ lockCtx [⟨domainName, bootKey, .x⟩] with waiting := [asked] }] }
/-- This warp waits in LKACQ for one object and holds another; a wound that is due at a boundary. -/
def held0 : State := (lock0 [⟨5, bootKey, .x⟩]).modWarp fun w => w.modSp fun p => { p with wait := .lock (some 7) domainName .s false }
def hurt0 : State := s0.modWarp fun w => { w with wound := some ⟨5, 0, none, true, true⟩ }
def lockQueue0 : Context := { lockCtx [] with
  waiting := [asked, ⟨domainName, bootKey, .x, true, true⟩, ⟨domainName, bootKey, .s, false, true⟩] }
theorem witness_WoundsFullHomesAndQueues :
    rival0.clearFor true ∧
    (older bootKey otherKey = true ∧ (rival0.warpAt otherKey).isSome = true ∧ (rival0.others.all fun w => !w.inLockWait && w.wound == none) = true) ∧
    ((lockCtx [⟨domainName, otherKey, .x⟩]).compatible domainName .x .s = false ∧ rival0.entryFree domainName = true) ∧
    packed0.clearFor true ∧
    packed0.entryFree domainName = false ∧
    ((lockCtx (List.replicate 8192 ⟨domainName, otherKey, .s⟩)).heldBy bootKey domainName = none) ∧
    (lockCtx []).parentOk bootKey domainName .s = true :=
  ⟨⟨by decide +kernel, rfl⟩,
    (by decide +kernel),
    (by decide +kernel),
    ⟨by decide +kernel, rfl⟩,
    packed_entries,
    filled_free _,
    (by decide +kernel)⟩
theorem witness_ReleasesGrantAndWoundsEndWaits :
    waiter0.clearFor true ∧
    waiter0.prompt ∧
    (waiter0.warp.live = true ∧ (waiter0.context 0).map (·.waiting) = some [asked] ∧ waiter0.warp.s64 2 = domainName) ∧
    ((lockCtx [⟨domainName, bootKey, .x⟩]).heldBy otherKey domainName = none ∧ ({ lockCtx [⟨domainName, bootKey, .x⟩] with waiting := [asked] } : Context).parentOk otherKey domainName .s = true) ∧
    ((∀ h ∈ (lockCtx [⟨domainName, bootKey, .x⟩]).holdings, h.name = domainName → h.warp ≠ bootKey → (lockCtx []).compatible domainName h.mode .s = true)) ∧
    (waiter0.warpAt otherKey).map (fun x => (x.splits[(0 : Fin 4)], (List.finRange 4).countP fun k => (x.splits[k]).any fun q => isLockWait none q.wait)) = some (some behind, 1) ∧
    held0.clearFor true ∧
    held0.prompt ∧
    ((held0.hdrOf held0.warp.key.launch).det = false ∧ held0.warp.sp.wait = .lock (some 7) domainName .s false ∧ held0.warp.cur = 0) ∧
    hurt0.clearFor true ∧
    hurt0.mayEnter ∧
    hurt0.warp.wound = some ⟨5, 0, none, true, true⟩ ∧
    ((hurt0.modWarp Warp.boundary).warp.candidate hurt0.det = some 0 ∧ (hurt0.modWarp Warp.boundary).warp.woundDue = true ∧ (((hurt0.modWarp Warp.boundary).warp.splits[(0 : Fin 4)]).map (·.trap)) = some none) ∧
    (lockQueue0.queueOf domainName = [⟨domainName, bootKey, .x, true, true⟩] ++ asked :: [⟨domainName, bootKey, .s, false, true⟩] ∧ ∀ r ∈ lockQueue0.waiting, r.warp.seq < 2 ^ 23) :=
  ⟨⟨by decide +kernel, rfl⟩,
    prompt_of _ (by decide +kernel) (by decide +kernel),
    (by decide +kernel),
    (by decide +kernel),
    (by decide +kernel),
    (by decide +kernel),
    ⟨by decide +kernel, rfl⟩,
    prompt_of _ (by decide +kernel) (by decide +kernel),
    (by decide +kernel),
    ⟨by decide +kernel, rfl⟩,
    enter_of _ (by decide +kernel) (by decide +kernel) (by decide +kernel) (by decide +kernel),
    (by decide +kernel),
    (by decide +kernel),
    (by decide +kernel)⟩
theorem witness_LockReleasesReportsAndRevocation :
    locks [⟨domainName, bootKey, .x⟩] ∧
    (lock0 [⟨domainName, bootKey, .x⟩]).prompt ∧
    ((∀ h ∈ (lockCtx [⟨domainName, bootKey, .x⟩]).holdings, h.mode ≠ .nl)) ∧
    (lockCtx [⟨domainName, bootKey, .x⟩]).lkMalformed (lock0 [⟨domainName, bootKey, .x⟩]).hdr.domCount domainName = false ∧
    (lockCtx [⟨domainName, bootKey, .x⟩]).heldBy bootKey domainName = some .x ∧
    LkMode.mayDown .x .is = true ∧
    (lockCtx [⟨domainName, bootKey, .x⟩]).childrenOf bootKey domainName = [] ∧
    domainName.toNat / 2 ^ 52 < (lock0 []).hdr.domCount ∧
    ((0x0000000FFFFFFFFF : DWord).toNat / 2 ^ 36 % 2 ^ 16 = 0 ∧ matrixOk ((0x0000000FFFFFFFFF : DWord).toNat % 2 ^ 36) = true) ∧
    ((∃ h ∈ (lockCtx [⟨domainName, bootKey, .x⟩]).holdings, h.name.toNat / 2 ^ 52 = 0)) ∧
    ((lost0 false).warp.revoked = some 5 ∧ (lost0 true).warp.trapmask = true) ∧
    (lost0 false).mayEnter ∧
    (lock0 []).contextRuns (lock0 []).warp.key.ctx = true ∧
    ((lock0 []).modWarp fun w => { w with wound := some ⟨5, 0, none, false, false⟩ }).revokeDue ((lock0 []).modWarp fun w => { w with wound := some ⟨5, 0, none, false, false⟩ }).warp = true :=
  ⟨locks_of _ (by decide +kernel) (by decide +kernel),
    prompt_of _ (by decide +kernel) (by decide +kernel),
    (by decide +kernel),
    (by decide +kernel),
    (by decide +kernel),
    (by decide +kernel),
    (by decide +kernel),
    (by decide +kernel),
    (by decide +kernel),
    (by decide +kernel),
    (by decide +kernel),
    enter_of _ (by decide +kernel) (by decide +kernel) (by decide +kernel) (by decide +kernel),
    (by decide +kernel),
    (by decide +kernel)⟩

/-- A launch cluster of two workgroups; the other one holds slot 0 in transit to this one when `sent`, and has retired when `gone`. -/
def cluster0 (mine : HandleSlot) (sent gone : Bool) : State := { s0 with
  launches := [{ bootLaunch with hdr :=
    ⟨leBytes 8 0x20000 ++ leBytes 8 (1 + 2 ^ 6 + 2 * 2 ^ 36 + 1 * 2 ^ 39 + 2 * 2 ^ 42) ++ leBytes 4 1 ++ leBytes 4 2 ++ zeros 16 ++ zeros 8 ++
      [16, 16, 4, 0] ++ zeros 4 ++ leBytes 4 4096 ++ leBytes 4 4096 ++ leBytes 4 4096 ++ zeros 180⟩ }]
  groups := [{ Workgroup.blank ⟨0, 1, 0⟩ with bufs := Vector.replicate 4 ⟨4096, []⟩, handles := (Workgroup.blank ⟨0, 1, 0⟩).handles.set 0 mine },
    { Workgroup.blank ⟨0, 1, 1⟩ with
      state := if gone then .zombie else .resident
      handles := if sent then (Workgroup.blank ⟨0, 1, 1⟩).handles.set 0 ⟨.transit 0 1, 1, .sb, 0, 128⟩ else (Workgroup.blank ⟨0, 1, 1⟩).handles }]
  warp := (((warp0.setS 2 0).setS 3 128).setS 4 0x80010000).setS 5 1 }
def heldSlot : HandleSlot := ⟨.held 0, 1, .sb, 0, 128⟩
def freeSlot : HandleSlot := ⟨.free, 0, .sb, 0, 0⟩
theorem witness_HandlesAreMadeGivenTakenDroppedAndQueried :
    (cluster0 heldSlot false false).clearFor false ∧
    (cluster0 heldSlot false false).clearFor true ∧
    (cluster0 heldSlot false false).warp.reds = [] ∧
    (((cluster0 heldSlot false false).warp.s 2).toNat % 128 = 0 ∧ ((cluster0 heldSlot false false).warp.s 3).toNat % 128 = 0 ∧ ((cluster0 heldSlot false false).warp.s 3).toNat ≠ 0 ∧ ((cluster0 heldSlot false false).warp.s 2).toNat + ((cluster0 heldSlot false false).warp.s 3).toNat ≤ (cluster0 heldSlot false false).bufSize (cluster0 heldSlot false false).warp.key.wg .sb) ∧
    (((cluster0 heldSlot false false).wg.handles[(0 : Fin 16)]).state ≠ .free ∧ ((cluster0 heldSlot false false).wg.handles[(0 : Fin 16)]).buf = .sb) ∧
    ((cluster0 freeSlot true false).wg.handles[(0 : Fin 16)]).state = .free ∧
    (¬ (((cluster0 heldSlot false false).warp.s 4).toNat % 128 = 0 ∧ ((cluster0 heldSlot false false).warp.s 5).toNat % 128 = 0)) ∧
    (cluster0 heldSlot false false).mayEnter ∧
    (cluster0 heldSlot false false).heldHandle (cluster0 heldSlot false false).warp.key.wg 0 = none ∧
    (cluster0 heldSlot false false).heldHandle (cluster0 heldSlot false false).warp.key.wg ((cluster0 heldSlot false false).warp.s 4) = some (⟨0, 1, 0⟩, 0) ∧
    (((cluster0 heldSlot false false).warp.s 5).toNat < (cluster0 heldSlot false false).hdr.clsize ∧ ((cluster0 heldSlot false false).warp.s 5).toNat ≠ (cluster0 heldSlot false false).rank) ∧
    (cluster0 heldSlot false false).hdr.clsize ≤ 2 ∧
    ((cluster0 heldSlot false false).rankRetired (cluster0 heldSlot false false).warp.key.wg 1 = false ∧ (cluster0 heldSlot false false).handleBusy (cluster0 heldSlot false false).warp.key.wg ((cluster0 heldSlot false false).warp.s 4) ⟨0, 1, 0⟩ 0 = false) ∧
    (cluster0 freeSlot false true).rankRetired (cluster0 freeSlot false true).warp.key.wg 1 = true ∧
    (cluster0 freeSlot true false).clearFor false ∧
    ((cluster0 freeSlot true false).slotOf ((cluster0 freeSlot true false).clusterMate (cluster0 freeSlot true false).warp.key.wg 1) 0).state = .transit (cluster0 freeSlot true false).rank 1 ∧
    ((∀ r < (cluster0 heldSlot false false).hdr.clsize, ∀ j : Fin 16, ∀ g ∈ [(0 : Nat), 1], ((cluster0 heldSlot false false).slotOf ((cluster0 heldSlot false false).clusterMate (cluster0 heldSlot false false).warp.key.wg r) j).state ≠ .transit 0 g)) ∧
    (cluster0 freeSlot false true).clearFor false ∧
    (cluster0 heldSlot false false).liveHandle (cluster0 heldSlot false false).warp.key.wg 0 = none :=
  ⟨⟨by decide +kernel, rfl⟩,
    ⟨by decide +kernel, rfl⟩,
    (by decide +kernel),
    (by decide +kernel),
    (by decide +kernel),
    (by decide +kernel),
    (by decide +kernel),
    enter_of _ (by decide +kernel) (by decide +kernel) (by decide +kernel) (by decide +kernel),
    (by decide +kernel),
    (by decide +kernel),
    (by decide +kernel),
    (by decide +kernel),
    (by decide +kernel),
    (by decide +kernel),
    ⟨by decide +kernel, rfl⟩,
    (by decide +kernel),
    (by decide +kernel),
    ⟨by decide +kernel, rfl⟩,
    (by decide +kernel)⟩

/-- In a deterministic launch another warp has a reduction buffered in SB at `place`, and a copy of the caller reads through the handle. -/
def reach0 (place : Nat) : State := let s := cluster0 heldSlot false false
  { s with
    launches := s.launches.map fun l => { l with hdr := ⟨(l.hdr.bytes.set 0x34 1).set 0x33 4⟩ }
    groups := s.groups.map fun g => if g.key = ⟨0, 1, 0⟩ then { g with streams := g.streams.set 3 ⟨1, 0, 0, 0, [{
      Command.new .copy 1 ([1] ++ zeros 31 ++ [5] ++ zeros 7 ++ leBytes 4 0x80010000 ++ zeros 84) [] bootKey 0 0 with running := true }]⟩ } else g
    others := [{ warp0 with
      key := ⟨0, 1, 0, 1⟩
      reds := [⟨0, 0, 0, AOp.add.opcode, .i32, .core, true, BitVec.ofNat 64 place, place, none, 0, [1], none, .both⟩] }] }
theorem witness_HandlesWaitForCommandsAndReductions :
    (reach0 0).clearFor false ∧
    (reach0 0).clearFor true ∧
    ((reach0 0).warp.reds = [] ∧ (reach0 0).det = true ∧ (reach0 0).heldHandle (reach0 0).warp.key.wg ((reach0 0).warp.s 4) = some (⟨0, 1, 0⟩, 0)) ∧
    (reach0 128).handleBusy (reach0 128).warp.key.wg ((reach0 128).warp.s 4) ⟨0, 1, 0⟩ 0 = true ∧
    (((reach0 124).regionReds ⟨0, 1, 0⟩ ⟨0, 1, 0⟩ 0).length = 1 ∧ ((reach0 128).regionReds ⟨0, 1, 0⟩ ⟨0, 1, 0⟩ 0).length = 0) ∧
    ((∃ w ∈ (reach0 124).warpsOf ⟨0, 1, 0⟩, w.key ≠ (reach0 124).warp.key ∧ ∃ q ∈ w.reds, q.sb = true ∧ rangesMeet q.place (4 * q.ty.regs) 0 128 = true)) :=
  ⟨⟨by decide +kernel, rfl⟩,
    ⟨by decide +kernel, rfl⟩,
    (by decide +kernel),
    (by decide +kernel),
    (by decide +kernel),
    (by decide +kernel)⟩


/-- The 16-byte pieces of a record of n bytes, and what reading them answers. -/
def pieces (s : State) (n : Nat) : List (Option Lane × DWord) :=
  (List.range (n / 16)).map fun k => (none, s.warp.s64 2 + BitVec.ofNat 64 (16 * k))
def rd (s : State) (n : Nat) : List (Option Lane × Nat) × State := (s.places .load (pieces s n)).2.readEach 16
  ((s.places .load (pieces s n)).1.map fun x => ⟨x.1, .global x.2.pa x.2.key, BitVec.ofNat 64 x.2.va⟩)
def recOf (s : State) (n : Nat) : List Byte := (rd s n).1.flatMap fun x => leBytes 16 x.2

theorem read_of {ε α β : Type} (f : Except ε α × β) (p : α → β → Bool)
    (h : (match f.1 with | .ok a => p a f.2 | .error _ => false) = true) : ∃ a u, f = (.ok a, u) ∧ p a u = true := by
  obtain ⟨x, u⟩ := f
  cases x with
  | error e => cases h
  | ok a => exact ⟨a, u, rfl, h⟩
theorem ok_of {ε α : Type} (x : Except ε α) (p : α → Bool) (h : (match x with | .ok a => p a | .error _ => false) = true) :
    ∃ a, x = .ok a ∧ p a = true := by
  cases x with
  | error e => cases h
  | ok a => exact ⟨a, rfl, h⟩
theorem done_of {α β : Type} (f : Option α × β) (h : f.1.isNone = true) : ∃ u, f = (none, u) := by
  obtain ⟨x, u⟩ := f
  cases x with
  | none => exact ⟨u, rfl⟩
  | some a => cases h

theorem done3_of {α β γ : Type} (f : Option α × β × γ) (h : f.1.isNone = true) : ∃ u t, f = (none, u, t) := by
  obtain ⟨x, u, t⟩ := f
  cases x with
  | none => exact ⟨u, t, rfl⟩
  | some a => cases h

/-- Descriptors: a copy of one element of 8 bits, an MMA of 4 by 64 by 16 on 8-bit activations, a collective of one slot. -/
def copy1 : List Byte := [1] ++ zeros 31 ++ [0, 0, 10, 10] ++ zeros 4 ++ leBytes 8 0x50000 ++ leBytes 8 0x50100 ++
  leBytes 4 1 ++ leBytes 4 1 ++ leBytes 4 1 ++ zeros 60
def mma1 : List Byte := [2] ++ zeros 31 ++ leBytes 4 0 ++ leBytes 4 0 ++ leBytes 4 0 ++ [4, 0, 16, 0, 4, 1, 0, 0] ++
  leBytes 4 16 ++ leBytes 4 24 ++ leBytes 4 256
def coll1 : List Byte := [3] ++ zeros 31 ++ [0, 0, 0, 4] ++ leBytes 4 7 ++ leBytes 8 0x50000 ++ leBytes 8 0x50100 ++ leBytes 4 1 ++ [5, 0, 1, 0]
/-- The cells of `l` at `a`. -/
def cellsAt (a : Nat) (l : List Byte) : List Host.Cell := (l.zipIdx.filter fun x => x.1 != 0).map fun x => ⟨a + x.2, x.1⟩
/-- `n` streams; the three descriptors at 2^18, 2^18 + 256 and 2^18 + 512, zeros at 2^18 + 1,024; s2:s3 the address. -/
def eng0 (n addr sel : Nat) : State :=
  let s := headed m0 n 4 0 4096 4
  { s.modWarp fun w => (w.setS64 2 (BitVec.ofNat 64 addr)).setS 4 (BitVec.ofNat 32 sel) with
    mem := s.mem ++ cellsAt 0x40000 copy1 ++ cellsAt 0x40100 mma1 ++ cellsAt 0x40200 coll1,
    collGroups := [⟨0, 0, [(s.selfPeer, 5, 1)]⟩] }
def strm (s : State) (x : Stream) : State := s.modWg fun g => { g with streams := g.streams.set 3 x }
def issuesNone (kind : EngineKind) (desc : List Byte) (u : State) : Bool :=
  u.issueCodes kind desc (u.warp.s 4).toNat == [] && decide (u.windowUsed kind u.warp.core < kind.window)
def issuesCode (kind : EngineKind) (c : Nat) (desc : List Byte) (u : State) : Bool :=
  (u.issueCodes kind desc (u.warp.s 4).toNat).contains c && (u.issueCodes kind desc (u.warp.s 4).toNat).all (fun x => decide (c ≤ x)) &&
    decide (c < 256)
def full0 (kind : EngineKind) (addr : Nat) : State := strm (eng0 16 addr 0) ⟨200, 0, 0, 0, List.replicate 200
  (Command.new kind 1 [] [] bootKey 0 0)⟩
def issuesFull (kind : EngineKind) (desc : List Byte) (u : State) : Bool :=
  u.issueCodes kind desc (u.warp.s 4).toNat == [] && decide (kind.window ≤ u.windowUsed kind u.warp.core)
/-- In deterministic mode, with a second warp of the clock 1, whose quantum's end lies beyond R355's limit (when `ahead`). -/
def quant0 (ahead : Bool) : State := let s0 : State := headed s0 16 4 1 4096 4
  let s : State := { s0 with launches := s0.launches.map fun l => { l with hdr := ⟨l.hdr.bytes.set 0x33 4⟩ } }
  { s.modWarp fun w => { w with clock := if ahead then BitVec.ofNat 64 (2 * s.quantum) else 0 } with
    others := [{ warp0 with key := ⟨0, 1, 0, 1⟩, clock := 1 }] }
theorem witness_EngineInstructionsIssueCommands :
    (eng0 16 0x40000 0).clearFor false ∧
    (eng0 16 0x40000 0).mayEnter ∧
    (eng0 16 0x40000 0).warp.outstanding = [] ∧
    (eng0 3 0x40000 0).hdr.streams ≤ (3 : Fin 16).val ∧
    (((eng0 16 0x40000 0).wg.streams[(15 : Fin 16)]).err = 0 ∧ (15 : Fin 16).val < (eng0 16 0x40000 0).hdr.streams) ∧
    ((strm (eng0 16 0x40000 0) ⟨1, 1, 5, 1, []⟩).wg.streams[(3 : Fin 16)]).err ≠ 0 ∧
    (((eng0 16 0x40000 0).warp.s64 2).toNat % 64 = 0 ∧ (issuesNone .copy) (recOf (eng0 16 0x40000 0) 128) (rd (eng0 16 0x40000 0) 128).2 = true ∧ (rd (eng0 16 0x40000 0) 128).2.warp.outstanding = [] ∧ (rd (eng0 16 0x40000 0) 128).2.mayEnter) ∧
    (eng0 16 0x40000 0).prompt ∧
    (eng0 16 0x40000 0).reaches .load 16 (pieces (eng0 16 0x40000 0) 128) ∧
    (((eng0 16 0x40100 0).warp.s64 2).toNat % 64 = 0 ∧ (issuesNone .mma) (recOf (eng0 16 0x40100 0) 64) (rd (eng0 16 0x40100 0) 64).2 = true ∧ (rd (eng0 16 0x40100 0) 64).2.warp.outstanding = [] ∧ (rd (eng0 16 0x40100 0) 64).2.mayEnter) ∧
    (eng0 16 0x40100 0).prompt ∧
    (eng0 16 0x40100 0).reaches .load 16 (pieces (eng0 16 0x40100 0) 64) ∧
    (((eng0 16 0x40200 0).warp.s64 2).toNat % 64 = 0 ∧ (issuesNone .coll) (recOf (eng0 16 0x40200 0) 64) (rd (eng0 16 0x40200 0) 64).2 = true ∧ (rd (eng0 16 0x40200 0) 64).2.warp.outstanding = [] ∧ (rd (eng0 16 0x40200 0) 64).2.mayEnter) ∧
    (eng0 16 0x40200 0).prompt ∧
    (eng0 16 0x40200 0).reaches .load 16 (pieces (eng0 16 0x40200 0) 64) ∧
    (((eng0 16 0x40100 0).warp.s64 2).toNat % 64 = 0 ∧ (issuesCode .copy 3) (recOf (eng0 16 0x40100 0) 128) (rd (eng0 16 0x40100 0) 128).2 = true ∧ (rd (eng0 16 0x40100 0) 128).2.warp.outstanding = [] ∧ (rd (eng0 16 0x40100 0) 128).2.mayEnter) ∧
    (eng0 16 0x40100 0).prompt ∧
    (eng0 16 0x40100 0).reaches .load 16 (pieces (eng0 16 0x40100 0) 128) ∧
    (((eng0 16 0x40000 32).warp.s64 2).toNat % 64 = 0 ∧ (issuesCode .copy 3) (recOf (eng0 16 0x40000 32) 128) (rd (eng0 16 0x40000 32) 128).2 = true ∧ (rd (eng0 16 0x40000 32) 128).2.warp.outstanding = [] ∧ (rd (eng0 16 0x40000 32) 128).2.mayEnter) ∧
    (eng0 16 0x40000 32).prompt ∧
    (eng0 16 0x40000 32).reaches .load 16 (pieces (eng0 16 0x40000 32) 128) :=
  ⟨⟨by decide +kernel, rfl⟩,
    enter_of _ (by decide +kernel) (by decide +kernel) (by decide +kernel) (by decide +kernel),
    (by decide +kernel),
    (by decide +kernel),
    (by decide +kernel),
    (by decide +kernel),
    ⟨by decide +kernel, by decide +kernel, by decide +kernel, enter_of _ (by decide +kernel) (by decide +kernel) (by decide +kernel) (by decide +kernel)⟩,
    prompt_of _ (by decide +kernel) (by decide +kernel),
    reaches_of _ _ _ _ (by decide +kernel) (by decide +kernel),
    ⟨by decide +kernel, by decide +kernel, by decide +kernel, enter_of _ (by decide +kernel) (by decide +kernel) (by decide +kernel) (by decide +kernel)⟩,
    prompt_of _ (by decide +kernel) (by decide +kernel),
    reaches_of _ _ _ _ (by decide +kernel) (by decide +kernel),
    ⟨by decide +kernel, by decide +kernel, by decide +kernel, enter_of _ (by decide +kernel) (by decide +kernel) (by decide +kernel) (by decide +kernel)⟩,
    prompt_of _ (by decide +kernel) (by decide +kernel),
    reaches_of _ _ _ _ (by decide +kernel) (by decide +kernel),
    ⟨by decide +kernel, by decide +kernel, by decide +kernel, enter_of _ (by decide +kernel) (by decide +kernel) (by decide +kernel) (by decide +kernel)⟩,
    prompt_of _ (by decide +kernel) (by decide +kernel),
    reaches_of _ _ _ _ (by decide +kernel) (by decide +kernel),
    ⟨by decide +kernel, by decide +kernel, by decide +kernel, enter_of _ (by decide +kernel) (by decide +kernel) (by decide +kernel) (by decide +kernel)⟩,
    prompt_of _ (by decide +kernel) (by decide +kernel),
    reaches_of _ _ _ _ (by decide +kernel) (by decide +kernel)⟩
theorem witness_EngineWindowsGraphsAndWaits :
    (((full0 .copy 0x40000).warp.s64 2).toNat % 64 = 0 ∧ (issuesFull .copy) (recOf (full0 .copy 0x40000) 128) (rd (full0 .copy 0x40000) 128).2 = true ∧ (rd (full0 .copy 0x40000) 128).2.warp.outstanding = [] ∧ (rd (full0 .copy 0x40000) 128).2.mayEnter) ∧
    (full0 .copy 0x40000).prompt ∧
    (full0 .copy 0x40000).reaches .load 16 (pieces (full0 .copy 0x40000) 128) ∧
    (((full0 .mma 0x40100).warp.s64 2).toNat % 64 = 0 ∧ (issuesFull .mma) (recOf (full0 .mma 0x40100) 64) (rd (full0 .mma 0x40100) 64).2 = true ∧ (rd (full0 .mma 0x40100) 64).2.warp.outstanding = [] ∧ (rd (full0 .mma 0x40100) 64).2.mayEnter) ∧
    (full0 .mma 0x40100).prompt ∧
    (full0 .mma 0x40100).reaches .load 16 (pieces (full0 .mma 0x40100) 64) ∧
    (((full0 .coll 0x40200).warp.s64 2).toNat % 64 = 0 ∧ (issuesFull .coll) (recOf (full0 .coll 0x40200) 64) (rd (full0 .coll 0x40200) 64).2 = true ∧ (rd (full0 .coll 0x40200) 64).2.warp.outstanding = [] ∧ (rd (full0 .coll 0x40200) 64).2.mayEnter) ∧
    (full0 .coll 0x40200).prompt ∧
    (full0 .coll 0x40200).reaches .load 16 (pieces (full0 .coll 0x40200) 64) ∧
    (((eng0 16 0x40400 15).warp.s64 2).toNat % 64 = 0 ∧ (fun rec _ => graphOk rec) (recOf (eng0 16 0x40400 15) 256) (rd (eng0 16 0x40400 15) 256).2 = true ∧ (rd (eng0 16 0x40400 15) 256).2.warp.outstanding = [] ∧ (rd (eng0 16 0x40400 15) 256).2.mayEnter) ∧
    (eng0 16 0x40400 15).prompt ∧
    (eng0 16 0x40400 15).reaches .load 16 (pieces (eng0 16 0x40400 15) 256) ∧
    ((eng0 16 0x40400 15).warp.s 4).toNat = (15 : Fin 16).val ∧
    (((eng0 16 0x40100 0).warp.s64 2).toNat % 64 = 0 ∧ (fun rec _ => !graphOk rec) (recOf (eng0 16 0x40100 0) 256) (rd (eng0 16 0x40100 0) 256).2 = true ∧ (rd (eng0 16 0x40100 0) 256).2.warp.outstanding = [] ∧ (rd (eng0 16 0x40100 0) 256).2.mayEnter) ∧
    (eng0 16 0x40100 0).prompt ∧
    (eng0 16 0x40100 0).reaches .load 16 (pieces (eng0 16 0x40100 0) 256) ∧
    16 ≤ ((eng0 16 0x40400 16).warp.s 4).toNat ∧
    ((strm (eng0 16 0x40000 0) ⟨5, 5, 0, 0, []⟩).wg.streams[(3 : Fin 16)]).last - (strm (eng0 16 0x40000 0) ⟨5, 5, 0, 0, []⟩).warp.s 4 = 5 ∧
    ((5 - 0 : Word).toNat < 2147483648 ∧ ¬ (0 - 5 : Word).toNat < 2147483648 ∧ (5 - 5 : Word).toNat < 2147483648) ∧
    (quant0 false).clearFor false ∧
    ((quant0 false).det = true ∧ (quant0 false).beyond ((quant0 false).quantumEnd (quant0 false).warp.clock).toNat = false) ∧
    (quant0 true).clearFor false ∧
    ((quant0 true).det = true ∧ (quant0 true).beyond ((quant0 true).quantumEnd (quant0 true).warp.clock).toNat = true) :=
  ⟨⟨by decide +kernel, by decide +kernel, by decide +kernel, enter_of _ (by decide +kernel) (by decide +kernel) (by decide +kernel) (by decide +kernel)⟩,
    prompt_of _ (by decide +kernel) (by decide +kernel),
    reaches_of _ _ _ _ (by decide +kernel) (by decide +kernel),
    ⟨by decide +kernel, by decide +kernel, by decide +kernel, enter_of _ (by decide +kernel) (by decide +kernel) (by decide +kernel) (by decide +kernel)⟩,
    prompt_of _ (by decide +kernel) (by decide +kernel),
    reaches_of _ _ _ _ (by decide +kernel) (by decide +kernel),
    ⟨by decide +kernel, by decide +kernel, by decide +kernel, enter_of _ (by decide +kernel) (by decide +kernel) (by decide +kernel) (by decide +kernel)⟩,
    prompt_of _ (by decide +kernel) (by decide +kernel),
    reaches_of _ _ _ _ (by decide +kernel) (by decide +kernel),
    ⟨by decide +kernel, by decide +kernel, by decide +kernel, enter_of _ (by decide +kernel) (by decide +kernel) (by decide +kernel) (by decide +kernel)⟩,
    prompt_of _ (by decide +kernel) (by decide +kernel),
    reaches_of _ _ _ _ (by decide +kernel) (by decide +kernel),
    (by decide +kernel),
    ⟨by decide +kernel, by decide +kernel, by decide +kernel, enter_of _ (by decide +kernel) (by decide +kernel) (by decide +kernel) (by decide +kernel)⟩,
    prompt_of _ (by decide +kernel) (by decide +kernel),
    reaches_of _ _ _ _ (by decide +kernel) (by decide +kernel),
    (by decide +kernel),
    (by decide +kernel),
    (by decide +kernel),
    ⟨by decide +kernel, rfl⟩,
    (by decide +kernel),
    ⟨by decide +kernel, rfl⟩,
    (by decide +kernel)⟩


/-- A workgroup whose stream 3 has the one command `c`, and stream 4 the counter 5, or an error at 6. -/
def workWg (c : Command) : Workgroup := { Workgroup.blank ⟨0, 1, 0⟩ with
  bufs := Vector.replicate 4 ⟨4096, []⟩
  streams := ((Workgroup.blank ⟨0, 1, 0⟩).streams.set 3 ⟨1, 0, 0, 0, [c]⟩).set 4 ⟨9, 5, 0x1100, 6, []⟩ }
def work0 (c : Command) : State := { eng0 16 0x40000 0 with groups := [workWg c] }
theorem work0_group (c : Command) : (work0 c).group? (workWg c).key = some (workWg c) := rfl
def tagged (t : Nat) : List Byte := [1] ++ zeros 7 ++ leBytes 8 (t * 2 ^ 32 + 2 ^ 31 + 4) ++ copy1.drop 16
def recorded (l : List Byte) : List Byte := l.take 1 ++ [1] ++ (l.drop 2).take 22 ++ leBytes 8 0x50200 ++ l.drop 32
def cmd0 (kind : EngineKind) (desc : List Byte) : Command := Command.new kind 1 desc [] bootKey 0 0
def run0 (kind : EngineKind) (desc : List Byte) (progress : Nat) : Command := { cmd0 kind desc with running := true, progress := progress }
/-- The same in a deterministic launch whose quantum of issue has not been committed. -/
def det0 (c : Command) : State := { work0 c with
  launches := [{ bootLaunch with hdr := (headed m0 16 4 1 4096 4).hdr }] }
/-- `n` records from `b` on whose digits are all 0, their permutation the identity. -/
def recCells : Nat → Nat → List Host.Cell
  | _, 0 => []
  | b, n + 1 => (b + 8, 0x10) :: (b + 9, 0x32) :: (b + 10, 0x54) :: (b + 11, 0x76) :: (b + 12, 0x98) :: (b + 13, 0xBA) ::
      (b + 14, 0xDC) :: (b + 15, 0xFE) :: recCells (b + 24) n
theorem recCells_below (n : Nat) : ∀ b a, a < b → cellGet (recCells b n) a = Memory.default := by
  induction n with
  | zero => intros; rfl
  | succ n ih =>
    intro b a h
    simp only [recCells, cellGet]
    repeat rw [if_neg (by omega)]
    exact ih _ _ (by omega)
theorem recCells_get (n : Nat) : ∀ b i j, i < n → j < 24 → cellGet (recCells b n) (b + 24 * i + j) = cellGet (recCells 0 1) j := by
  induction n with
  | zero => intros; omega
  | succ n ih =>
    intro b i j hi hj
    cases i with
    | zero =>
      simp only [recCells, cellGet, Nat.mul_zero, Nat.add_zero, Nat.zero_add, Nat.add_left_cancel_iff]
      repeat' split
      all_goals first | rfl | omega | exact recCells_below _ _ _ (by omega)
    | succ i =>
      have e : b + 24 * (i + 1) + j = b + 24 + 24 * i + j := by omega
      rw [e, ← ih (b + 24) i j (by omega) hj]
      simp only [recCells, cellGet]
      repeat rw [if_neg (by omega)]
/-- WB holds 64 such records. -/
def loaded0 (c : Command) : State := { work0 c with groups := [{ workWg c with
  bufs := (workWg c).bufs.set (Buf.index .wb) ⟨4096, recCells 0 64⟩ }] }
theorem mmaChunk_done (s : State) (k : WgKey) (desc : List Byte) (c : Nat) (t : Tally)
    (h : ∀ n, n < 64 → ∀ g ∈ (mmaDesc desc).groups c, ((s.performTiles k).mmaRecord k (mmaDesc desc) n g).isSome = true) :
    ∃ u t', s.mmaChunk k desc none c t = (none, u, t') := by
  refine done3_of _ ?_
  have e : ∃ x, (s.performTiles k).mmaCompute k desc c t = .ok x := by
    unfold State.mmaCompute
    rw [if_neg]
    · exact ⟨_, rfl⟩
    intro e
    obtain ⟨x, hx, hy⟩ := List.any_eq_true.1 e
    obtain ⟨n, hn, rfl⟩ := List.mem_map.1 hx
    obtain ⟨y, hy, hz⟩ := List.any_eq_true.1 hy
    obtain ⟨g, hg, rfl⟩ := List.mem_map.1 hy
    have := h n (List.mem_range.1 hn) g hg
    rw [Option.isNone_iff_eq_none] at hz
    rw [hz] at this
    cases this
  obtain ⟨x, e⟩ := e
  simp only [State.mmaChunk, e]
  rfl
theorem mmaChunk_loaded : ∃ u t, (loaded0 (run0 .mma mma1 0)).mmaChunk ⟨0, 1, 0⟩ mma1 none 0 Tally.zero = (none, u, t) := by
  refine mmaChunk_done _ _ _ _ _ fun n hn g hg => ?_
  have e : (mmaDesc mma1).groups 0 = [0] := by decide +kernel
  rw [e, List.mem_singleton] at hg
  subst hg
  have r : (loaded0 (run0 .mma mma1 0)).bufRead ⟨0, 1, 0⟩ .wb (24 * n) 24 = (List.range 24).map (cellGet (recCells 0 1)) :=
    List.map_congr_left fun j hj => recCells_get 64 0 n j hn (List.mem_range.1 hj) ▸ by simp only [Nat.zero_add]; rfl
  have x : (mmaDesc mma1).b = 0 ∧ (mmaDesc mma1).sb = 24 ∧ (mmaDesc mma1).slot = 0 := by decide +kernel
  have y : (parseRecord ((List.range 24).map (cellGet (recCells 0 1))) 0).isSome = true := by decide +kernel
  rw [show (loaded0 (run0 .mma mma1 0)).performTiles ⟨0, 1, 0⟩ = loaded0 (run0 .mma mma1 0) from
    State.performWrites_none _ _ fun x hx => by
      rw [show (loaded0 (run0 .mma mma1 0)).late = [] from by decide +kernel] at hx; cases hx]
  unfold State.mmaRecord
  generalize mmaDesc mma1 = d at x ⊢
  obtain ⟨x1, x2, x3⟩ := x
  rw [x1, x2, x3, show recordBytes 0 = 24 from rfl, show 0 + n * 24 + 0 * 24 = 24 * n by omega, r]
  exact y
def inst0 : CollInstance := ⟨0, 0, 7, [⟨5, [1], none, 0⟩], false⟩
def one8 : Command := { cmd0 .copy copy1 with graph := [1] }
/-- Stream 5 runs a copy of eight operators. -/
def busyWg : Workgroup := { workWg one8 with
  streams := (workWg one8).streams.set 5 ⟨1, 0, 0, 0, [{ cmd0 .copy copy1 with running := true, graph := [8] }]⟩ }
def busy0 : State := { work0 one8 with groups := [busyWg] }
/-- Two bytes copied on to themselves, one further. -/
def copy2 : List Byte := copy1.take 48 ++ leBytes 8 0x50001 ++ leBytes 4 2 ++ copy1.drop 60
def over0 : Done := ({ work0 (run0 .copy copy2 0) with slow := false } : State).copyWhole ⟨0, 1, 0⟩ 3 copy2 [] 0 Tally.zero
def coll0 (c : Command) : State := { work0 c with instances := [inst0] }
theorem witness_EngineCommandsProgress :
    (work0 (cmd0 .copy copy1)).group? (workWg (cmd0 .copy copy1)).key = some (workWg (cmd0 .copy copy1)) ∧
    ((workWg (cmd0 .copy copy1)).streams[(3 : Fin 16)]).commands = [(cmd0 .copy copy1)] ∧
    ((cmd0 .copy copy1).parked = none ∧ (cmd0 .copy copy1).fail.1 = 0 ∧ (cmd0 .copy copy1).running = false) ∧
    (work0 (cmd0 .copy copy1)).engineRuns (workWg (cmd0 .copy copy1)).key = true ∧
    (workWg (cmd0 .copy (tagged 6))).tagState 3 (cmd0 .copy (tagged 6)) = .failed ∧
    (workWg (cmd0 .copy (tagged 5))).tagState 3 (cmd0 .copy (tagged 5)) = .ready ∧
    { workWg (cmd0 .copy (tagged 6)) with streams := (workWg (cmd0 .copy (tagged 6))).streams.set 4 ⟨9, 5, 0, 0, []⟩ }.tagState 3 (cmd0 .copy (tagged 6)) = .waiting ∧
    (workWg (cmd0 .copy copy1)).tagState 3 (cmd0 .copy copy1) = .ready ∧
    (((work0 (cmd0 .copy copy1)).performEngines ⟨0, 1, 0⟩).copyStart ⟨0, 1, 0⟩ copy1 []).isNone = true ∧
    (work0 (cmd0 .copy copy1)).operatorSlots 0 + graphCount [] ≤ 8 ∧
    (¬ (busy0.operatorSlots 0 + graphCount [1] ≤ 8)) ∧
    busy0.group? ⟨0, 1, 0⟩ = some (busyWg) ∧
    ((busyWg.streams[(3 : Fin 16)]).commands = [one8] ∧ busyWg.tagState 3 one8 = .ready ∧ busy0.engineRuns ⟨0, 1, 0⟩ = true ∧ one8.graph = [1]) ∧
    (((work0 (cmd0 .mma mma1)).performEngines ⟨0, 1, 0⟩).mmaStart ⟨0, 1, 0⟩ mma1).isNone = true ∧
    (work0 (cmd0 .mma mma1)).mmaHeld (workWg (cmd0 .mma mma1)) 3 (cmd0 .mma mma1) = false ∧
    (det0 (cmd0 .mma mma1)).mmaHeld (workWg (cmd0 .mma mma1)) 3 (cmd0 .mma mma1) = true ∧
    (∃ u, ((work0 (cmd0 .coll coll1)).performEngines ⟨0, 1, 0⟩).collContribute ⟨0, 1, 0⟩ 3 (cmd0 .coll coll1) = (none, u)) ∧
    ((run0 .copy copy1 0).running = true ∧ (run0 .copy copy1 0).progress < (run0 .copy copy1 0).chunks) ∧
    ((work0 (run0 .copy copy1 0)).copyOverlaps ⟨0, 1, 0⟩ copy1 [] = false ∧ (work0 (run0 .copy copy2 0)).copyOverlaps ⟨0, 1, 0⟩ copy2 [] = true) ∧
    (∃ u t, over0 = (none, u, t)) ∧
    ((({ over0.2.1 with slow := false } : State).modHead ⟨0, 1, 0⟩ 3 fun c => { c with tally := over0.2.2, spoilt := true, fail := (0, 0), progress := c.chunks }).head? ⟨0, 1, 0⟩ 3).any (fun z => z.spoilt && !wantsRecord z.desc) = true ∧
    (∃ u t, (work0 (run0 .copy copy1 0)).copyChunk ⟨0, 1, 0⟩ 3 copy1 [] 0 Tally.zero = (none, u, t)) ∧
    (∃ u t, (loaded0 (run0 .mma mma1 0)).mmaChunk ⟨0, 1, 0⟩ mma1 none 0 Tally.zero = (none, u, t)) ∧
    ((run0 .copy copy1 1).chunks ≤ (run0 .copy copy1 1).progress ∧ wantsRecord copy1 = false) ∧
    ((run0 .mma (recorded mma1) 1).chunks ≤ 1 ∧ wantsRecord (recorded mma1) = true) ∧
    (∃ u, (work0 (run0 .mma (recorded mma1) 1)).servedWrite 0 .copyWrite (recordAddr (recorded mma1)) ((run0 .mma (recorded mma1) 1).recordBytes 3 0 0) = (none, u)) ∧
    (({ run0 .copy (recorded copy2) 1 with spoilt := true } : Command).spoilt = true ∧ wantsRecord (recorded copy2) = true) ∧
    (coll0 (cmd0 .coll coll1)).instance? 0 0 7 = some inst0 ∧
    (coll0 (cmd0 .coll coll1)).collReady inst0 = true ∧
    (coll0 (cmd0 .coll coll1)).collCommands 0 0 7 = [] ∧
    (coll0 (run0 .coll coll1 0)).collCommands 0 0 7 = [(⟨0, 1, 0⟩, 3)] ∧
    (∃ vec fl, collResult (collDesc coll1) inst0 = (vec, fl) ∧ ∃ u, ((coll0 (run0 .coll coll1 0)).setInstance { inst0 with done := true }).collWrite 0 (collDesc coll1) vec = (none, u)) :=
  ⟨work0_group _,
    (by decide +kernel),
    (by decide +kernel),
    (by decide +kernel),
    (by decide +kernel),
    (by decide +kernel),
    (by decide +kernel),
    (by decide +kernel),
    (by decide +kernel),
    (by decide +kernel),
    (by decide +kernel),
    rfl,
    (by decide +kernel),
    (by decide +kernel),
    (by decide +kernel),
    (by decide +kernel),
    done_of _ (by decide +kernel),
    (by decide +kernel),
    (by decide +kernel),
    done3_of _ (by decide +kernel),
    (by decide +kernel),
    done3_of _ (by decide +kernel),
    mmaChunk_loaded,
    (by decide +kernel),
    (by decide +kernel),
    done_of _ (by decide +kernel),
    (by decide +kernel),
    (by decide +kernel),
    (by decide +kernel),
    (by decide +kernel),
    (by decide +kernel),
    ⟨_, _, rfl, done_of _ (by decide +kernel)⟩⟩

def red0 : Reduction := ⟨0, 0, 0, 0x6B, .i32, .device, false, 0x50000, 0x50000, none, 4096, [1], none, .both⟩
def sys0 (system : Bool) : State := { s0 with contexts := [{ bootContext with system := system }] }
/-- Another warp of a deterministic launch has a reduction buffered. -/
def kept0 : State := { headed s0 16 4 1 4096 4 with
  contexts := [{ bootContext with system := true }]
  others := [{ warp0 with key := ⟨0, 1, 0, 1⟩, reds := [red0] }] }
theorem witness_PrivilegedInstructions :
    (sys0 true).clearFor false ∧
    ((sys0 true).warp.reds = [] ∧ (sys0 true).ctx.system = true) ∧
    ((∀ w ∈ (sys0 true).flushAll.warps, w.reds = [])) ∧
    kept0.clearFor false ∧
    (kept0.warp.reds = [] ∧ kept0.ctx.system = true ∧ ∃ w ∈ kept0.flushAll.warps, ∃ r ∈ w.reds, r.sb = false ∧ w.key.ctx = 0) ∧
    (PrivReg.ctxnum ≠ .trapbase ∧ PrivReg.ctxnum ≠ .trapbasehi) ∧
    (sys0 false).clearFor false ∧
    ((sys0 false).warp.reds = [] ∧ (sys0 false).ctx.system = false) ∧
    (sys0 false).mayEnter :=
  ⟨⟨by decide +kernel, rfl⟩,
    (by decide +kernel),
    (by decide +kernel),
    ⟨by decide +kernel, rfl⟩,
    (by decide +kernel),
    (by decide +kernel),
    ⟨by decide +kernel, rfl⟩,
    (by decide +kernel),
    enter_of _ (by decide +kernel) (by decide +kernel) (by decide +kernel) (by decide +kernel)⟩

def slept0 : State := { s0.modWarp fun w => w.modSp fun p => { p with wait := .sleep 5 } with now := 5 }
/-- A split with a trap pending and one with an outstanding long instruction. -/
def due0 : State := s0.modWarp fun w => w.modSp fun p => { p with trap := some ⟨.ecc, 0x80, 0x20000, 0⟩ }
def long0 : State := s0.modWarp fun w => { w with outstanding := [⟨0, 0x1FFFC, 3, [.s 5 7], 0, none, [], [.s 5], none⟩] }
def reds0 : State := s0.modWarp fun w => { w with reds := [red0] }
def part0 : State := s0.modWarp fun w => w.modSp fun p => { p with active := 1 }
theorem witness_WarpStepsOfTheDevice :
    (slept0.warp.live = true ∧ slept0.warp.splits[(0 : Fin 4)] = some { split0 with wait := .sleep 5 } ∧ 5 ≤ slept0.now) ∧
    (due0.warp.live = true ∧ due0.mayIssue due0.warp = true) ∧
    due0.mayEnter ∧
    (due0.warp.outstanding = [] ∧ due0.warp.woundDue = false ∧ due0.warp.candidate due0.det = some due0.warp.cur) ∧
    due0.warp.boundary = due0.warp ∧
    (((due0.warp.splits[due0.warp.cur]).bind (·.trap)) = some ⟨.ecc, 0x80, 0x20000, 0⟩ ∧ Cause.ecc ≠ .doublefault) ∧
    (long0.warp.outstanding.length = 1 ∧ long0.warp.outstanding.all (fun l => !l.done && l.flags == 0) = true) ∧
    (reds0.det = false ∧ reds0.warp.reds = [red0]) ∧
    s0.clearFor false ∧
    s0.prompt ∧
    part0.prompt ∧
    (s0.accessParked = false ∧ part0.accessParked = false ∧ s0.warp.splits[s0.warp.cur] = some split0 ∧ split0.member &&& ~~~split0.active = 0) ∧
    part0.clearFor false ∧
    (part0.warp.splits[part0.warp.cur] = some { split0 with active := 1 } ∧ split0.member &&& ~~~1 ≠ 0) ∧
    (lost0 true).clearFor false ∧
    ((lost0 true).warp.trapmask = true ∧ ((lost0 true).context (lost0 true).warp.key.ctx).isSome = true) :=
  ⟨(by decide +kernel),
    (by decide +kernel),
    enter_of _ (by decide +kernel) (by decide +kernel) (by decide +kernel) (by decide +kernel),
    (by decide +kernel),
    rfl,
    (by decide +kernel),
    (by decide +kernel),
    (by decide +kernel),
    ⟨by decide +kernel, rfl⟩,
    prompt_of _ (by decide +kernel) (by decide +kernel),
    prompt_of _ (by decide +kernel) (by decide +kernel),
    (by decide +kernel),
    ⟨by decide +kernel, rfl⟩,
    (by decide +kernel),
    ⟨by decide +kernel, rfl⟩,
    (by decide +kernel)⟩


/-- The state once the end of the packet is assured, and that it is. -/
def ends (s : State) (x : Queue) (p : List Byte) : State :=
  match s.ending x p with
  | .inside => s
  | .release => (s.probe x.ctx .store (x.slotAt x.issued)).2
  | .publish => ((s.probe x.ctx .store (x.slotAt x.issued)).2.probe x.ctx .store x.publishedAt).2
def endsOk (s : State) (x : Queue) (p : List Byte) : Bool :=
  match s.ending x p with
  | .inside => true
  | .release => (s.probe x.ctx .store (x.slotAt x.issued)).1.isNone
  | .publish => (s.probe x.ctx .store (x.slotAt x.issued)).1.isNone &&
      ((s.probe x.ctx .store (x.slotAt x.issued)).2.probe x.ctx .store x.publishedAt).1.isNone
theorem pair_none {α β : Type} (f : Option α × β) (h : f.1.isNone = true) : f = (none, f.2) :=
  Prod.ext (Option.isNone_iff_eq_none.1 h) rfl
theorem assures_of (s : State) (x : Queue) (p : List Byte) (h : endsOk s x p = true) :
    s.assures x p (ends s x p) := by
  unfold State.assures ends
  unfold endsOk at h
  split at h
  · rename_i e; simp only [e]
  · rename_i e; simp only [e]; exact pair_none _ h
  · rename_i e; simp only [e]; rw [Bool.and_eq_true] at h; exact ⟨_, pair_none _ h.1, pair_none _ h.2⟩
def assured (s : State) (x : Queue) (p : List Byte) : Prop := s.assures x p (ends s x p) ∧ True
theorem assured_of (s : State) (x : Queue) (p : List Byte) (h : endsOk s x p = true) : assured s x p :=
  ⟨assures_of s x p h, trivial⟩
def startOk (s : State) (x : Queue) (p : List Byte) : Bool :=
  s.queueRuns x && x.prologue.isNone && x.ahead.head? == some p && s.issuesNext x && !x.overwritten
theorem atIssue_of (s : State) (x : Queue) (p : List Byte) (h : s.queue? 7 = some x) (h' : startOk s x p = true) :
    s.atIssue 7 x p := by
  unfold startOk at h'
  simp only [Bool.and_eq_true, Option.isNone_iff_eq_none, beq_iff_eq, Bool.not_eq_true'] at h'
  exact ⟨h, h'.1.1.1.1, h'.1.1.1.2, h'.1.1.2, h'.1.2, h'.2⟩
theorem takes_of (s : State) (x : Queue) (p : List Byte) (ty : Nat) (h : s.queue? 7 = some x) (h1 : startOk s x p = true)
    (h2 : bytesAt p 0 1 = ty) (h3 : (packetBad p (s.protects x.ctx)).isNone = true) (h4 : s.packetReady x p = true)
    (h5 : endsOk (s.served 7 x) x p = true) : s.takes 7 x p ty (ends (s.served 7 x) x p) :=
  ⟨atIssue_of s x p h h1, h2, Option.isNone_iff_eq_none.1 h3, h4, assures_of _ x p h5⟩
def hitOk (s : State) (ctx va : Nat) : Bool :=
  decide ((BitVec.ofNat 64 va).toNat < 2 ^ 57) && s.tlb.isEmpty &&
    (s.xlats.find? (TlbEntry.covers · (fabric / 8) ctx (BitVec.ofNat 64 va).toNat)).isSome &&
    match (s.translate fabric ctx (BitVec.ofNat 64 va) .load false).1 with | .ok _ => true | .error _ => false
theorem translate_hit (s : State) (ctx va : Nat) (h : hitOk s ctx va = true) :
    ∃ t, s.translate fabric ctx (BitVec.ofNat 64 va) .load false = (.ok t, s) := by
  unfold hitOk at h
  rw [Bool.and_eq_true, Bool.and_eq_true, Bool.and_eq_true, decide_eq_true_eq, List.isEmpty_iff] at h
  obtain ⟨⟨⟨h1, h0⟩, h2⟩, h3⟩ := h
  obtain ⟨e, he⟩ := Option.isSome_iff_exists.1 h2
  unfold State.translate at h3 ⊢
  simp only [h0, List.find?_nil, he, if_neg (Nat.not_le.2 h1)] at h3 ⊢
  split at h3
  · rename_i t e; exact ⟨t, by rw [e]; rfl⟩
  · cases h3
/-- A read whose every piece hits the fabric's translation cache. -/
theorem queueLoad_hit (s : State) (x : Queue) (va n : Nat) (h : ((chunks16 (n + 1) va n).all fun c => hitOk s x.ctx c.1) = true) :
    ∃ b, s.queueLoad x va n = (.ok b, s) := by
  unfold State.queueLoad State.homeReadVa
  generalize chunks16 (n + 1) va n = l at h ⊢
  generalize ([] : List Byte) = b
  induction l generalizing b with
  | nil => exact ⟨b, rfl⟩
  | cons c l ih =>
    rw [List.all_cons, Bool.and_eq_true] at h
    obtain ⟨t, e⟩ := translate_hit _ _ _ h.1
    rw [List.foldl_cons]
    simp only [e]
    exact ih h.2 _

/-- A queue of 16 slots at 0x60000 whose published index is at 0x61000, its packets the ones given. -/
def queue0 (ahead : List (List Byte)) : Queue := { newQueue 0 7
    (leBytes 8 0x60000 ++ leBytes 4 16 ++ zeros 12 ++ leBytes 8 0x61000 ++ zeros 8 ++ leBytes 8 0x61100 ++ zeros 16) with ahead := ahead }
/-- No launch; the boot header at 0x62000, the word of a NOP at 0x63000, a window of 4,096 bytes at 0x50000 at 0x64000, a valid
JOIN in the ring's slot 0, or the packet read ahead. -/
def que0 (x : Queue) : State := { m0 with
  queues := [x], launches := [], contexts := [bootContext]
  mem := m0.mem ++ cellsAt 0x60000 (x.ahead.headD (leBytes 8 0x105)) ++ cellsAt 0x62000 bootHeader.bytes ++ cellsAt 0x63000 (leBytes 8 0x2000000000000000) ++
    cellsAt 0x64000 (leBytes 8 0x50000 ++ leBytes 4 4096 ++ leBytes 4 1) }
def pro0 (pc steps repeats : Nat) : Prologue := ⟨Vector.replicate 16 0x50010, pc, repeats, steps, bootHeader.bytes⟩
def ilaunch0 : List Byte := leBytes 8 2 ++ leBytes 8 0x62000 ++ zeros 48
def prg0 (w : DWord) : QProgram := ⟨[(0x50000, 4096, true)], [w]⟩
def qq0 (w : DWord) (pc steps repeats : Nat) (p : List Byte) : Queue :=
  { queue0 [p] with prologue := some (pro0 pc steps repeats), slots := (Vector.replicate 16 none).set 0 (some (prg0 w)) }
/-- A prologue that stands at the word `w`. -/
def qp0 (w : DWord) (pc steps repeats : Nat) (p : List Byte) : State := que0 (qq0 w pc steps repeats p)
def qpr0 (w : DWord) (pc steps repeats : Nat) (p : List Byte) : QpRun := ⟨qq0 w pc steps repeats p, p, prg0 w, pro0 pc steps repeats⟩
theorem runs0 (w : DWord) (steps repeats : Nat) : (qp0 w 0 steps repeats ilaunch0).qpRun 7 = some (qpr0 w 0 steps repeats ilaunch0) := by with_unfolding_all rfl
theorem witness_QueueProgramComputation :
    ((∀ w, (qp0 w 0 4095 0 ilaunch0).qpRun 7 = some (qpr0 w 0 4095 0 ilaunch0))) ∧
    ((∀ w, (qpr0 w 0 4095 0 ilaunch0).word = w)) ∧
    ((qpr0 0 0 4095 0 ilaunch0).p.pc < (qpr0 0 0 4095 0 ilaunch0).prg.words.length ∧ (qpr0 0 0 4095 0 ilaunch0).p.steps < 4096) ∧
    (6 : Fin 8).val < 7 ∧
    ((0x50010 : DWord) ≠ 0 ∧ (0x50010 : DWord) ≠ 1) :=
  ⟨fun _ => runs0 _ _ _,
    fun _ => rfl,
    (by decide +kernel),
    (by decide +kernel),
    (by decide +kernel)⟩

def prologueAt (pc steps repeats : Nat) (p : List Byte) : Prop := ∀ w,
  (qp0 w pc steps repeats p).qpRun 7 = some (qpr0 w pc steps repeats p) ∧ (qpr0 w pc steps repeats p).word = w ∧
    (qpr0 w pc steps repeats p).p.pc < (qpr0 w pc steps repeats p).prg.words.length
/-- A queue at an ILAUNCH whose program is in slot 0, and its state. -/
def withSlot (p : List Byte) : Queue := { queue0 [p] with slots := (Vector.replicate 16 none).set 0 (some (prg0 0)) }
def wordsOf (st : State) (x : Queue) (p : List Byte) : Option Nat :=
  match (st.queueLoad x (bytesAt p 8 8) (8 * bytesAt p 0x10 4)).1,
    ((st.queueLoad x (bytesAt p 8 8) (8 * bytesAt p 0x10 4)).2.queueLoad x (bytesAt p 0x18 8) (16 * bytesAt p 0x20 8)).1 with
  | .ok code, .ok tab =>
    let table := (List.range (bytesAt p 0x20 8)).map fun k => (tab.drop (16 * k)).take 16
    (programBad table (table.map fun e => (bytesAt e 0 8, bytesAt e 8 4, bytesAt e 0xC 4 % 2 == 1))
      ((List.range (bytesAt p 0x10 4)).map fun k => BitVec.ofNat 64 (bytesAt code (8 * k) 8))).elim (some 0) fun b => some (b + 1)
  | _, _ => none

def signed0 : List Byte := (leBytes 8 8 ++ leBytes 8 0x63000 ++ leBytes 4 1 ++ leBytes 4 15 ++ leBytes 8 0x64000 ++ leBytes 8 1 ++ leBytes 8 0x65000 ++ zeros 16)
/-- The same in a protected context whose program key is 32 zero bytes. -/
def guarded0 (x : Queue) : State := (({ que0 x with contexts := [{ bootContext with protect := true, programKey := some (zeros 32) }] } :
  State).translate fabric 0 0x65000 .load false).2
theorem witness_QueueProgramMemoryAndEnds :
    prologueAt 0 4095 0 ilaunch0 ∧
    prologueAt 0 4096 255 ilaunch0 ∧
    prologueAt 0 0 0 (leBytes 8 2 ++ leBytes 8 0x62000 ++ zeros 16 ++ leBytes 8 0x50008 ++ leBytes 8 9 ++ zeros 16) ∧
    ((0x50010 + (BitVec.ofInt 32 (4088 - 0x50010)).signExtend 64 : DWord).toNat + 8 = 4096 ∧ (0x50000 + 4088) % 8 = 0) ∧
    (¬ (0x50010 + (0 : BitVec 32).signExtend 64 : DWord).toNat + 4 ≤ 4096) ∧
    (∃ y, ((qp0 0 0 4095 0 ilaunch0).queueLoad (qq0 0 0 4095 0 ilaunch0) (0x50000 + 4088) 8).1 = .ok y ∧ (fun b => b.length == 8) y = true) ∧
    (∃ y, ((qp0 0 0 4095 0 ilaunch0).queueLoad (qq0 0 0 4095 0 ilaunch0) (0x50000 + 4088) 4).1 = .ok y ∧ (fun b => b.length == 4) y = true) ∧
    (∃ u, (qp0 0 0 4095 0 ilaunch0).servedWrite 0 .store (0x50000 + 4088) (leBytes 8 0x50010) = (none, u)) ∧
    (∃ u, (qp0 0 0 4095 0 ilaunch0).servedWrite 0 .store (0x50000 + 4088) (leBytes 4 0x50010) = (none, u)) ∧
    assured (qp0 0 0 4095 0 ilaunch0) (qq0 0 0 4095 0 ilaunch0) ilaunch0 ∧
    ((ends (qp0 0 0 4095 0 ilaunch0) (qq0 0 0 4095 0 ilaunch0) ilaunch0).seqHeld 0 = false ∧ (qp0 0 0 4095 0 ilaunch0).seqHeld 0 = false) ∧
    (∃ y, ((qp0 0 0 4095 0 ilaunch0).launchCheck (qq0 0 0 4095 0 ilaunch0) ⟨bootHeader.bytes⟩).1 = .ok y ∧ (fun _ => true) y = true) ∧
    (∃ y, ((ends (qp0 0 0 4095 0 ilaunch0) (qq0 0 0 4095 0 ilaunch0) ilaunch0).launchCheck (qq0 0 0 4095 0 ilaunch0) ⟨bootHeader.bytes⟩).1 = .ok y ∧ (fun _ => true) y = true) ∧
    assured (qp0 0 0 0 0 (leBytes 8 2 ++ leBytes 8 0x62000 ++ zeros 16 ++ leBytes 8 0x50008 ++ leBytes 8 9 ++ zeros 16)) (qq0 0 0 0 0 (leBytes 8 2 ++ leBytes 8 0x62000 ++ zeros 16 ++ leBytes 8 0x50008 ++ leBytes 8 9 ++ zeros 16)) (leBytes 8 2 ++ leBytes 8 0x62000 ++ zeros 16 ++ leBytes 8 0x50008 ++ leBytes 8 9 ++ zeros 16) ∧
    (bytesAt ilaunch0 0x20 8 = 0 ∧ bytesAt (leBytes 8 2 ++ leBytes 8 0x62000 ++ zeros 16 ++ leBytes 8 0x50008 ++ leBytes 8 9 ++ zeros 16) 0x20 8 ≠ 0) ∧
    (∃ u, (ends (qp0 0 0 0 0 (leBytes 8 2 ++ leBytes 8 0x62000 ++ zeros 16 ++ leBytes 8 0x50008 ++ leBytes 8 9 ++ zeros 16)) (qq0 0 0 0 0 (leBytes 8 2 ++ leBytes 8 0x62000 ++ zeros 16 ++ leBytes 8 0x50008 ++ leBytes 8 9 ++ zeros 16)) (leBytes 8 2 ++ leBytes 8 0x62000 ++ zeros 16 ++ leBytes 8 0x50008 ++ leBytes 8 9 ++ zeros 16)).carryAll.servedWrite 0 .store (bytesAt (leBytes 8 2 ++ leBytes 8 0x62000 ++ zeros 16 ++ leBytes 8 0x50008 ++ leBytes 8 9 ++ zeros 16) 0x20 8) (((leBytes 8 2 ++ leBytes 8 0x62000 ++ zeros 16 ++ leBytes 8 0x50008 ++ leBytes 8 9 ++ zeros 16).drop 0x28).take 8) = (none, u)) ∧
    (que0 (withSlot ilaunch0)).takes 7 (withSlot ilaunch0) ilaunch0 2 (ends ((que0 (withSlot ilaunch0)).served 7 (withSlot ilaunch0)) (withSlot ilaunch0) ilaunch0) ∧
    (withSlot ilaunch0).slots[(Fin.ofNat 16 (bytesAt ilaunch0 0x38 1))] = some (prg0 0) ∧
    (∃ y, ((ends ((que0 (withSlot ilaunch0)).served 7 (withSlot ilaunch0)) (withSlot ilaunch0) ilaunch0).queueLoad (withSlot ilaunch0) 0x62000 256).1 = .ok y ∧ (fun b => b.length == 256) y = true) ∧
    (que0 (queue0 [ilaunch0])).takes 7 (queue0 [ilaunch0]) ilaunch0 2 (ends ((que0 (queue0 [ilaunch0])).served 7 (queue0 [ilaunch0])) (queue0 [ilaunch0]) ilaunch0) ∧
    (queue0 [ilaunch0]).slots[(Fin.ofNat 16 (bytesAt ilaunch0 0x38 1))] = none ∧
    (que0 (queue0 [(leBytes 8 8 ++ leBytes 8 0x63000 ++ leBytes 4 1 ++ leBytes 4 15 ++ leBytes 8 0x64000 ++ leBytes 8 1 ++ zeros 24)])).takes 7 (queue0 [(leBytes 8 8 ++ leBytes 8 0x63000 ++ leBytes 4 1 ++ leBytes 4 15 ++ leBytes 8 0x64000 ++ leBytes 8 1 ++ zeros 24)]) (leBytes 8 8 ++ leBytes 8 0x63000 ++ leBytes 4 1 ++ leBytes 4 15 ++ leBytes 8 0x64000 ++ leBytes 8 1 ++ zeros 24) 8 (ends ((que0 (queue0 [(leBytes 8 8 ++ leBytes 8 0x63000 ++ leBytes 4 1 ++ leBytes 4 15 ++ leBytes 8 0x64000 ++ leBytes 8 1 ++ zeros 24)])).served 7 (queue0 [(leBytes 8 8 ++ leBytes 8 0x63000 ++ leBytes 4 1 ++ leBytes 4 15 ++ leBytes 8 0x64000 ++ leBytes 8 1 ++ zeros 24)])) (queue0 [(leBytes 8 8 ++ leBytes 8 0x63000 ++ leBytes 4 1 ++ leBytes 4 15 ++ leBytes 8 0x64000 ++ leBytes 8 1 ++ zeros 24)]) (leBytes 8 8 ++ leBytes 8 0x63000 ++ leBytes 4 1 ++ leBytes 4 15 ++ leBytes 8 0x64000 ++ leBytes 8 1 ++ zeros 24)) ∧
    (ends ((que0 (queue0 [(leBytes 8 8 ++ leBytes 8 0x63000 ++ leBytes 4 1 ++ leBytes 4 15 ++ leBytes 8 0x64000 ++ leBytes 8 1 ++ zeros 24)])).served 7 (queue0 [(leBytes 8 8 ++ leBytes 8 0x63000 ++ leBytes 4 1 ++ leBytes 4 15 ++ leBytes 8 0x64000 ++ leBytes 8 1 ++ zeros 24)])) (queue0 [(leBytes 8 8 ++ leBytes 8 0x63000 ++ leBytes 4 1 ++ leBytes 4 15 ++ leBytes 8 0x64000 ++ leBytes 8 1 ++ zeros 24)]) (leBytes 8 8 ++ leBytes 8 0x63000 ++ leBytes 4 1 ++ leBytes 4 15 ++ leBytes 8 0x64000 ++ leBytes 8 1 ++ zeros 24)).protects 0 = false ∧
    wordsOf (ends ((que0 (queue0 [(leBytes 8 8 ++ leBytes 8 0x63000 ++ leBytes 4 1 ++ leBytes 4 15 ++ leBytes 8 0x64000 ++ leBytes 8 1 ++ zeros 24)])).served 7 (queue0 [(leBytes 8 8 ++ leBytes 8 0x63000 ++ leBytes 4 1 ++ leBytes 4 15 ++ leBytes 8 0x64000 ++ leBytes 8 1 ++ zeros 24)])) (queue0 [(leBytes 8 8 ++ leBytes 8 0x63000 ++ leBytes 4 1 ++ leBytes 4 15 ++ leBytes 8 0x64000 ++ leBytes 8 1 ++ zeros 24)]) (leBytes 8 8 ++ leBytes 8 0x63000 ++ leBytes 4 1 ++ leBytes 4 15 ++ leBytes 8 0x64000 ++ leBytes 8 1 ++ zeros 24)) (queue0 [(leBytes 8 8 ++ leBytes 8 0x63000 ++ leBytes 4 1 ++ leBytes 4 15 ++ leBytes 8 0x64000 ++ leBytes 8 1 ++ zeros 24)]) (leBytes 8 8 ++ leBytes 8 0x63000 ++ leBytes 4 1 ++ leBytes 4 15 ++ leBytes 8 0x64000 ++ leBytes 8 1 ++ zeros 24) = some 0 ∧
    (que0 (queue0 [(leBytes 8 8 ++ leBytes 8 0x62000 ++ leBytes 4 1 ++ leBytes 4 15 ++ leBytes 8 0x64000 ++ leBytes 8 1 ++ zeros 24)])).takes 7 (queue0 [(leBytes 8 8 ++ leBytes 8 0x62000 ++ leBytes 4 1 ++ leBytes 4 15 ++ leBytes 8 0x64000 ++ leBytes 8 1 ++ zeros 24)]) (leBytes 8 8 ++ leBytes 8 0x62000 ++ leBytes 4 1 ++ leBytes 4 15 ++ leBytes 8 0x64000 ++ leBytes 8 1 ++ zeros 24) 8 (ends ((que0 (queue0 [(leBytes 8 8 ++ leBytes 8 0x62000 ++ leBytes 4 1 ++ leBytes 4 15 ++ leBytes 8 0x64000 ++ leBytes 8 1 ++ zeros 24)])).served 7 (queue0 [(leBytes 8 8 ++ leBytes 8 0x62000 ++ leBytes 4 1 ++ leBytes 4 15 ++ leBytes 8 0x64000 ++ leBytes 8 1 ++ zeros 24)])) (queue0 [(leBytes 8 8 ++ leBytes 8 0x62000 ++ leBytes 4 1 ++ leBytes 4 15 ++ leBytes 8 0x64000 ++ leBytes 8 1 ++ zeros 24)]) (leBytes 8 8 ++ leBytes 8 0x62000 ++ leBytes 4 1 ++ leBytes 4 15 ++ leBytes 8 0x64000 ++ leBytes 8 1 ++ zeros 24)) ∧
    wordsOf (ends ((que0 (queue0 [(leBytes 8 8 ++ leBytes 8 0x62000 ++ leBytes 4 1 ++ leBytes 4 15 ++ leBytes 8 0x64000 ++ leBytes 8 1 ++ zeros 24)])).served 7 (queue0 [(leBytes 8 8 ++ leBytes 8 0x62000 ++ leBytes 4 1 ++ leBytes 4 15 ++ leBytes 8 0x64000 ++ leBytes 8 1 ++ zeros 24)])) (queue0 [(leBytes 8 8 ++ leBytes 8 0x62000 ++ leBytes 4 1 ++ leBytes 4 15 ++ leBytes 8 0x64000 ++ leBytes 8 1 ++ zeros 24)]) (leBytes 8 8 ++ leBytes 8 0x62000 ++ leBytes 4 1 ++ leBytes 4 15 ++ leBytes 8 0x64000 ++ leBytes 8 1 ++ zeros 24)) (queue0 [(leBytes 8 8 ++ leBytes 8 0x62000 ++ leBytes 4 1 ++ leBytes 4 15 ++ leBytes 8 0x64000 ++ leBytes 8 1 ++ zeros 24)]) (leBytes 8 8 ++ leBytes 8 0x62000 ++ leBytes 4 1 ++ leBytes 4 15 ++ leBytes 8 0x64000 ++ leBytes 8 1 ++ zeros 24) = some 1 ∧
    (guarded0 (queue0 [signed0])).takes 7 (queue0 [signed0]) signed0 8 (ends ((guarded0 (queue0 [signed0])).served 7 (queue0 [signed0])) (queue0 [signed0]) signed0) ∧
    wordsOf (ends ((guarded0 (queue0 [signed0])).served 7 (queue0 [signed0])) (queue0 [signed0]) signed0) (queue0 [signed0]) signed0 = some 0 ∧
    (ends ((guarded0 (queue0 [signed0])).served 7 (queue0 [signed0])) (queue0 [signed0]) signed0).contexts = [{ bootContext with protect := true, programKey := some (zeros 32) }] ∧
    bytesAt signed0 0x28 8 ≠ 0 ∧
    ((∃ b, (ends ((guarded0 (queue0 [signed0])).served 7 (queue0 [signed0])) (queue0 [signed0]) signed0).queueLoad (queue0 [signed0]) 0x65000 Slh.signatureBytes = (.ok b, (ends ((guarded0 (queue0 [signed0])).served 7 (queue0 [signed0])) (queue0 [signed0]) signed0)))) :=
  ⟨fun _ => ⟨by with_unfolding_all rfl, rfl, Nat.zero_lt_one⟩,
    fun _ => ⟨by with_unfolding_all rfl, rfl, Nat.zero_lt_one⟩,
    fun _ => ⟨by with_unfolding_all rfl, rfl, Nat.zero_lt_one⟩,
    (by decide +kernel),
    (by decide +kernel),
    ok_of _ _ (by decide +kernel),
    ok_of _ _ (by decide +kernel),
    done_of _ (by decide +kernel),
    done_of _ (by decide +kernel),
    assured_of _ _ _ (by decide +kernel),
    (by decide +kernel),
    ok_of _ _ (by decide +kernel),
    ok_of _ _ (by decide +kernel),
    assured_of _ _ _ (by decide +kernel),
    (by decide +kernel),
    done_of _ (by decide +kernel),
    takes_of _ _ _ _ (by decide +kernel) (by decide +kernel) (by decide +kernel) (by decide +kernel) (by decide +kernel) (by decide +kernel),
    (by decide +kernel),
    ok_of _ _ (by decide +kernel),
    takes_of _ _ _ _ (by decide +kernel) (by decide +kernel) (by decide +kernel) (by decide +kernel) (by decide +kernel) (by decide +kernel),
    (by decide +kernel),
    takes_of _ _ _ _ (by decide +kernel) (by decide +kernel) (by decide +kernel) (by decide +kernel) (by decide +kernel) (by decide +kernel),
    (by decide +kernel),
    (by decide +kernel),
    takes_of _ _ _ _ (by decide +kernel) (by decide +kernel) (by decide +kernel) (by decide +kernel) (by decide +kernel) (by decide +kernel),
    (by decide +kernel),
    takes_of _ _ _ _ (by decide +kernel) (by decide +kernel) (by decide +kernel) (by decide +kernel) (by decide +kernel) (by decide +kernel),
    (by decide +kernel),
    (by decide +kernel),
    (by decide +kernel),
    queueLoad_hit _ _ _ _ (by decide +kernel)⟩

/-- The queue's first launch still runs. -/
def joins0 (x : Queue) : State := { que0 x with launches := [{ bootLaunch with queue := 7 }] }
theorem witness_PacketsIssueInTheirOrder :
    (que0 (queue0 [(leBytes 8 1 ++ leBytes 8 0x62000 ++ zeros 48)])).takes 7 (queue0 [(leBytes 8 1 ++ leBytes 8 0x62000 ++ zeros 48)]) (leBytes 8 1 ++ leBytes 8 0x62000 ++ zeros 48) 1 (ends ((que0 (queue0 [(leBytes 8 1 ++ leBytes 8 0x62000 ++ zeros 48)])).served 7 (queue0 [(leBytes 8 1 ++ leBytes 8 0x62000 ++ zeros 48)])) (queue0 [(leBytes 8 1 ++ leBytes 8 0x62000 ++ zeros 48)]) (leBytes 8 1 ++ leBytes 8 0x62000 ++ zeros 48)) ∧
    (∃ y, ((ends ((que0 (queue0 [(leBytes 8 1 ++ leBytes 8 0x62000 ++ zeros 48)])).served 7 (queue0 [(leBytes 8 1 ++ leBytes 8 0x62000 ++ zeros 48)])) (queue0 [(leBytes 8 1 ++ leBytes 8 0x62000 ++ zeros 48)]) (leBytes 8 1 ++ leBytes 8 0x62000 ++ zeros 48)).queueLoad (queue0 [(leBytes 8 1 ++ leBytes 8 0x62000 ++ zeros 48)]) (bytesAt (leBytes 8 1 ++ leBytes 8 0x62000 ++ zeros 48) 8 8) 256).1 = .ok y ∧ (fun h => (ends ((que0 (queue0 [(leBytes 8 1 ++ leBytes 8 0x62000 ++ zeros 48)])).served 7 (queue0 [(leBytes 8 1 ++ leBytes 8 0x62000 ++ zeros 48)])) (queue0 [(leBytes 8 1 ++ leBytes 8 0x62000 ++ zeros 48)]) (leBytes 8 1 ++ leBytes 8 0x62000 ++ zeros 48)).seqHeld 0 == false && (match ((ends ((que0 (queue0 [(leBytes 8 1 ++ leBytes 8 0x62000 ++ zeros 48)])).served 7 (queue0 [(leBytes 8 1 ++ leBytes 8 0x62000 ++ zeros 48)])) (queue0 [(leBytes 8 1 ++ leBytes 8 0x62000 ++ zeros 48)]) (leBytes 8 1 ++ leBytes 8 0x62000 ++ zeros 48)).launchCheck (queue0 [(leBytes 8 1 ++ leBytes 8 0x62000 ++ zeros 48)]) (suppliedHeader (leBytes 8 1 ++ leBytes 8 0x62000 ++ zeros 48) h)).1 with | .ok _ => true | .error _ => false)) y = true) ∧
    (que0 (queue0 [(leBytes 8 3 ++ leBytes 8 0x62000 ++ leBytes 4 65536 ++ zeros 44)])).takes 7 (queue0 [(leBytes 8 3 ++ leBytes 8 0x62000 ++ leBytes 4 65536 ++ zeros 44)]) (leBytes 8 3 ++ leBytes 8 0x62000 ++ leBytes 4 65536 ++ zeros 44) 3 (ends ((que0 (queue0 [(leBytes 8 3 ++ leBytes 8 0x62000 ++ leBytes 4 65536 ++ zeros 44)])).served 7 (queue0 [(leBytes 8 3 ++ leBytes 8 0x62000 ++ leBytes 4 65536 ++ zeros 44)])) (queue0 [(leBytes 8 3 ++ leBytes 8 0x62000 ++ leBytes 4 65536 ++ zeros 44)]) (leBytes 8 3 ++ leBytes 8 0x62000 ++ leBytes 4 65536 ++ zeros 44)) ∧
    (que0 ({ queue0 [(leBytes 8 3 ++ leBytes 8 0x62000 ++ leBytes 4 65536 ++ zeros 44)] with levels := List.replicate 4 ⟨0x62000, 0, 2⟩ } : Queue)).takes 7 ({ queue0 [(leBytes 8 3 ++ leBytes 8 0x62000 ++ leBytes 4 65536 ++ zeros 44)] with levels := List.replicate 4 ⟨0x62000, 0, 2⟩ } : Queue) (leBytes 8 3 ++ leBytes 8 0x62000 ++ leBytes 4 65536 ++ zeros 44) 3 (ends ((que0 ({ queue0 [(leBytes 8 3 ++ leBytes 8 0x62000 ++ leBytes 4 65536 ++ zeros 44)] with levels := List.replicate 4 ⟨0x62000, 0, 2⟩ } : Queue)).served 7 ({ queue0 [(leBytes 8 3 ++ leBytes 8 0x62000 ++ leBytes 4 65536 ++ zeros 44)] with levels := List.replicate 4 ⟨0x62000, 0, 2⟩ } : Queue)) ({ queue0 [(leBytes 8 3 ++ leBytes 8 0x62000 ++ leBytes 4 65536 ++ zeros 44)] with levels := List.replicate 4 ⟨0x62000, 0, 2⟩ } : Queue) (leBytes 8 3 ++ leBytes 8 0x62000 ++ leBytes 4 65536 ++ zeros 44)) ∧
    (({ queue0 [(leBytes 8 3 ++ leBytes 8 0x62000 ++ leBytes 4 65536 ++ zeros 44)] with levels := List.replicate 4 ⟨0x62000, 0, 2⟩ } : Queue).levels.length = 4 ∧ (queue0 [(leBytes 8 3 ++ leBytes 8 0x62000 ++ leBytes 4 65536 ++ zeros 44)]).levels.length ≠ 4) ∧
    (que0 (queue0 [(leBytes 8 4 ++ zeros 56)])).takes 7 (queue0 [(leBytes 8 4 ++ zeros 56)]) (leBytes 8 4 ++ zeros 56) 4 (ends ((que0 (queue0 [(leBytes 8 4 ++ zeros 56)])).served 7 (queue0 [(leBytes 8 4 ++ zeros 56)])) (queue0 [(leBytes 8 4 ++ zeros 56)]) (leBytes 8 4 ++ zeros 56)) ∧
    (que0 ({ queue0 [(leBytes 8 4 ++ zeros 56)] with levels := List.replicate 4 ⟨0x62000, 0, 2⟩ } : Queue)).takes 7 ({ queue0 [(leBytes 8 4 ++ zeros 56)] with levels := List.replicate 4 ⟨0x62000, 0, 2⟩ } : Queue) (leBytes 8 4 ++ zeros 56) 4 (ends ((que0 ({ queue0 [(leBytes 8 4 ++ zeros 56)] with levels := List.replicate 4 ⟨0x62000, 0, 2⟩ } : Queue)).served 7 ({ queue0 [(leBytes 8 4 ++ zeros 56)] with levels := List.replicate 4 ⟨0x62000, 0, 2⟩ } : Queue)) ({ queue0 [(leBytes 8 4 ++ zeros 56)] with levels := List.replicate 4 ⟨0x62000, 0, 2⟩ } : Queue) (leBytes 8 4 ++ zeros 56)) ∧
    ((queue0 [(leBytes 8 4 ++ zeros 56)]).levels = [] ∧ ({ queue0 [(leBytes 8 4 ++ zeros 56)] with levels := List.replicate 4 ⟨0x62000, 0, 2⟩ } : Queue).levels ≠ []) ∧
    (que0 (queue0 [(leBytes 8 5 ++ zeros 56)])).takes 7 (queue0 [(leBytes 8 5 ++ zeros 56)]) (leBytes 8 5 ++ zeros 56) 5 (ends ((que0 (queue0 [(leBytes 8 5 ++ zeros 56)])).served 7 (queue0 [(leBytes 8 5 ++ zeros 56)])) (queue0 [(leBytes 8 5 ++ zeros 56)]) (leBytes 8 5 ++ zeros 56)) ∧
    (ends ((que0 (queue0 [(leBytes 8 5 ++ zeros 56)])).served 7 (queue0 [(leBytes 8 5 ++ zeros 56)])) (queue0 [(leBytes 8 5 ++ zeros 56)]) (leBytes 8 5 ++ zeros 56)).launchesDone 7 = true ∧
    (que0 (queue0 [(leBytes 8 6 ++ leBytes 8 0x50008 ++ leBytes 8 5 ++ leBytes 8 1 ++ zeros 32)])).takes 7 (queue0 [(leBytes 8 6 ++ leBytes 8 0x50008 ++ leBytes 8 5 ++ leBytes 8 1 ++ zeros 32)]) (leBytes 8 6 ++ leBytes 8 0x50008 ++ leBytes 8 5 ++ leBytes 8 1 ++ zeros 32) 6 (ends ((que0 (queue0 [(leBytes 8 6 ++ leBytes 8 0x50008 ++ leBytes 8 5 ++ leBytes 8 1 ++ zeros 32)])).served 7 (queue0 [(leBytes 8 6 ++ leBytes 8 0x50008 ++ leBytes 8 5 ++ leBytes 8 1 ++ zeros 32)])) (queue0 [(leBytes 8 6 ++ leBytes 8 0x50008 ++ leBytes 8 5 ++ leBytes 8 1 ++ zeros 32)]) (leBytes 8 6 ++ leBytes 8 0x50008 ++ leBytes 8 5 ++ leBytes 8 1 ++ zeros 32)) ∧
    (que0 (queue0 [(leBytes 8 6 ++ leBytes 8 0x50008 ++ leBytes 8 5 ++ zeros 40)])).takes 7 (queue0 [(leBytes 8 6 ++ leBytes 8 0x50008 ++ leBytes 8 5 ++ zeros 40)]) (leBytes 8 6 ++ leBytes 8 0x50008 ++ leBytes 8 5 ++ zeros 40) 6 (ends ((que0 (queue0 [(leBytes 8 6 ++ leBytes 8 0x50008 ++ leBytes 8 5 ++ zeros 40)])).served 7 (queue0 [(leBytes 8 6 ++ leBytes 8 0x50008 ++ leBytes 8 5 ++ zeros 40)])) (queue0 [(leBytes 8 6 ++ leBytes 8 0x50008 ++ leBytes 8 5 ++ zeros 40)]) (leBytes 8 6 ++ leBytes 8 0x50008 ++ leBytes 8 5 ++ zeros 40)) ∧
    ((ends ((que0 (queue0 [(leBytes 8 6 ++ leBytes 8 0x50008 ++ leBytes 8 5 ++ leBytes 8 1 ++ zeros 32)])).served 7 (queue0 [(leBytes 8 6 ++ leBytes 8 0x50008 ++ leBytes 8 5 ++ leBytes 8 1 ++ zeros 32)])) (queue0 [(leBytes 8 6 ++ leBytes 8 0x50008 ++ leBytes 8 5 ++ leBytes 8 1 ++ zeros 32)]) (leBytes 8 6 ++ leBytes 8 0x50008 ++ leBytes 8 5 ++ leBytes 8 1 ++ zeros 32)).launchesDone 7 = true ∧ (ends ((que0 (queue0 [(leBytes 8 6 ++ leBytes 8 0x50008 ++ leBytes 8 5 ++ zeros 40)])).served 7 (queue0 [(leBytes 8 6 ++ leBytes 8 0x50008 ++ leBytes 8 5 ++ zeros 40)])) (queue0 [(leBytes 8 6 ++ leBytes 8 0x50008 ++ leBytes 8 5 ++ zeros 40)]) (leBytes 8 6 ++ leBytes 8 0x50008 ++ leBytes 8 5 ++ zeros 40)).launchesDone 7 = true) ∧
    (∃ u, (ends ((que0 (queue0 [(leBytes 8 6 ++ leBytes 8 0x50008 ++ leBytes 8 5 ++ leBytes 8 1 ++ zeros 32)])).served 7 (queue0 [(leBytes 8 6 ++ leBytes 8 0x50008 ++ leBytes 8 5 ++ leBytes 8 1 ++ zeros 32)])) (queue0 [(leBytes 8 6 ++ leBytes 8 0x50008 ++ leBytes 8 5 ++ leBytes 8 1 ++ zeros 32)]) (leBytes 8 6 ++ leBytes 8 0x50008 ++ leBytes 8 5 ++ leBytes 8 1 ++ zeros 32)).carryAll.probe 0 .atomic (bytesAt (leBytes 8 6 ++ leBytes 8 0x50008 ++ leBytes 8 5 ++ leBytes 8 1 ++ zeros 32) 8 8) = (none, u)) ∧
    (∃ u, (ends ((que0 (queue0 [(leBytes 8 6 ++ leBytes 8 0x50008 ++ leBytes 8 5 ++ zeros 40)])).served 7 (queue0 [(leBytes 8 6 ++ leBytes 8 0x50008 ++ leBytes 8 5 ++ zeros 40)])) (queue0 [(leBytes 8 6 ++ leBytes 8 0x50008 ++ leBytes 8 5 ++ zeros 40)]) (leBytes 8 6 ++ leBytes 8 0x50008 ++ leBytes 8 5 ++ zeros 40)).carryAll.probe 0 .store (bytesAt (leBytes 8 6 ++ leBytes 8 0x50008 ++ leBytes 8 5 ++ zeros 40) 8 8) = (none, u)) ∧
    (∃ u, ((ends ((que0 (queue0 [(leBytes 8 6 ++ leBytes 8 0x50008 ++ leBytes 8 5 ++ leBytes 8 1 ++ zeros 32)])).served 7 (queue0 [(leBytes 8 6 ++ leBytes 8 0x50008 ++ leBytes 8 5 ++ leBytes 8 1 ++ zeros 32)])) (queue0 [(leBytes 8 6 ++ leBytes 8 0x50008 ++ leBytes 8 5 ++ leBytes 8 1 ++ zeros 32)]) (leBytes 8 6 ++ leBytes 8 0x50008 ++ leBytes 8 5 ++ leBytes 8 1 ++ zeros 32)).carryAll.probe 0 .atomic (bytesAt (leBytes 8 6 ++ leBytes 8 0x50008 ++ leBytes 8 5 ++ leBytes 8 1 ++ zeros 32) 8 8)).2.servedWrite 0 .atomic (bytesAt (leBytes 8 6 ++ leBytes 8 0x50008 ++ leBytes 8 5 ++ leBytes 8 1 ++ zeros 32) 8 8) (leBytes 8 (0 + bytesAt (leBytes 8 6 ++ leBytes 8 0x50008 ++ leBytes 8 5 ++ leBytes 8 1 ++ zeros 32) 0x10 8)) = (none, u)) ∧
    (∃ u, ((ends ((que0 (queue0 [(leBytes 8 6 ++ leBytes 8 0x50008 ++ leBytes 8 5 ++ zeros 40)])).served 7 (queue0 [(leBytes 8 6 ++ leBytes 8 0x50008 ++ leBytes 8 5 ++ zeros 40)])) (queue0 [(leBytes 8 6 ++ leBytes 8 0x50008 ++ leBytes 8 5 ++ zeros 40)]) (leBytes 8 6 ++ leBytes 8 0x50008 ++ leBytes 8 5 ++ zeros 40)).carryAll.probe 0 .store (bytesAt (leBytes 8 6 ++ leBytes 8 0x50008 ++ leBytes 8 5 ++ zeros 40) 8 8)).2.servedWrite 0 .store (bytesAt (leBytes 8 6 ++ leBytes 8 0x50008 ++ leBytes 8 5 ++ zeros 40) 8 8) (leBytes 8 (bytesAt (leBytes 8 6 ++ leBytes 8 0x50008 ++ leBytes 8 5 ++ zeros 40) 0x10 8)) = (none, u)) ∧
    (que0 (queue0 [(leBytes 8 7 ++ leBytes 8 0x50008 ++ zeros 8 ++ leBytes 8 255 ++ zeros 32)])).takes 7 (queue0 [(leBytes 8 7 ++ leBytes 8 0x50008 ++ zeros 8 ++ leBytes 8 255 ++ zeros 32)]) (leBytes 8 7 ++ leBytes 8 0x50008 ++ zeros 8 ++ leBytes 8 255 ++ zeros 32) 7 (ends ((que0 (queue0 [(leBytes 8 7 ++ leBytes 8 0x50008 ++ zeros 8 ++ leBytes 8 255 ++ zeros 32)])).served 7 (queue0 [(leBytes 8 7 ++ leBytes 8 0x50008 ++ zeros 8 ++ leBytes 8 255 ++ zeros 32)])) (queue0 [(leBytes 8 7 ++ leBytes 8 0x50008 ++ zeros 8 ++ leBytes 8 255 ++ zeros 32)]) (leBytes 8 7 ++ leBytes 8 0x50008 ++ zeros 8 ++ leBytes 8 255 ++ zeros 32)) ∧
    (∃ y, ((ends ((que0 (queue0 [(leBytes 8 7 ++ leBytes 8 0x50008 ++ zeros 8 ++ leBytes 8 255 ++ zeros 32)])).served 7 (queue0 [(leBytes 8 7 ++ leBytes 8 0x50008 ++ zeros 8 ++ leBytes 8 255 ++ zeros 32)])) (queue0 [(leBytes 8 7 ++ leBytes 8 0x50008 ++ zeros 8 ++ leBytes 8 255 ++ zeros 32)]) (leBytes 8 7 ++ leBytes 8 0x50008 ++ zeros 8 ++ leBytes 8 255 ++ zeros 32)).queueLoad (queue0 [(leBytes 8 7 ++ leBytes 8 0x50008 ++ zeros 8 ++ leBytes 8 255 ++ zeros 32)]) (bytesAt (leBytes 8 7 ++ leBytes 8 0x50008 ++ zeros 8 ++ leBytes 8 255 ++ zeros 32) 8 8) 8).1 = .ok y ∧ (fun b => waitvalHolds (leBytes 8 7 ++ leBytes 8 0x50008 ++ zeros 8 ++ leBytes 8 255 ++ zeros 32) (ofLeBytes b) == true) y = true) ∧
    (que0 ({ queue0 [(leBytes 8 7 ++ leBytes 8 0x50008 ++ zeros 8 ++ leBytes 8 255 ++ zeros 32)] with armed := true } : Queue)).takes 7 ({ queue0 [(leBytes 8 7 ++ leBytes 8 0x50008 ++ zeros 8 ++ leBytes 8 255 ++ zeros 32)] with armed := true } : Queue) (leBytes 8 7 ++ leBytes 8 0x50008 ++ zeros 8 ++ leBytes 8 255 ++ zeros 32) 7 (ends ((que0 ({ queue0 [(leBytes 8 7 ++ leBytes 8 0x50008 ++ zeros 8 ++ leBytes 8 255 ++ zeros 32)] with armed := true } : Queue)).served 7 ({ queue0 [(leBytes 8 7 ++ leBytes 8 0x50008 ++ zeros 8 ++ leBytes 8 255 ++ zeros 32)] with armed := true } : Queue)) ({ queue0 [(leBytes 8 7 ++ leBytes 8 0x50008 ++ zeros 8 ++ leBytes 8 255 ++ zeros 32)] with armed := true } : Queue) (leBytes 8 7 ++ leBytes 8 0x50008 ++ zeros 8 ++ leBytes 8 255 ++ zeros 32)) ∧
    (∃ y, ((ends ((que0 ({ queue0 [(leBytes 8 7 ++ leBytes 8 0x50008 ++ zeros 8 ++ leBytes 8 255 ++ zeros 32)] with armed := true } : Queue)).served 7 ({ queue0 [(leBytes 8 7 ++ leBytes 8 0x50008 ++ zeros 8 ++ leBytes 8 255 ++ zeros 32)] with armed := true } : Queue)) ({ queue0 [(leBytes 8 7 ++ leBytes 8 0x50008 ++ zeros 8 ++ leBytes 8 255 ++ zeros 32)] with armed := true } : Queue) (leBytes 8 7 ++ leBytes 8 0x50008 ++ zeros 8 ++ leBytes 8 255 ++ zeros 32)).queueLoad ({ queue0 [(leBytes 8 7 ++ leBytes 8 0x50008 ++ zeros 8 ++ leBytes 8 255 ++ zeros 32)] with armed := true } : Queue) (bytesAt (leBytes 8 7 ++ leBytes 8 0x50008 ++ zeros 8 ++ leBytes 8 255 ++ zeros 32) 8 8) 8).1 = .ok y ∧ (fun b => waitvalHolds (leBytes 8 7 ++ leBytes 8 0x50008 ++ zeros 8 ++ leBytes 8 255 ++ zeros 32) (ofLeBytes b) == true) y = true) ∧
    (({ queue0 [(leBytes 8 7 ++ leBytes 8 0x50008 ++ zeros 8 ++ leBytes 8 255 ++ zeros 32)] with armed := true } : Queue).armed = true ∧ (queue0 [(leBytes 8 7 ++ leBytes 8 0x50008 ++ zeros 8 ++ leBytes 8 255 ++ zeros 32)]).armed = false) ∧
    (que0 (queue0 [(leBytes 8 9 ++ leBytes 8 77 ++ zeros 48)])).takes 7 (queue0 [(leBytes 8 9 ++ leBytes 8 77 ++ zeros 48)]) (leBytes 8 9 ++ leBytes 8 77 ++ zeros 48) 9 (ends ((que0 (queue0 [(leBytes 8 9 ++ leBytes 8 77 ++ zeros 48)])).served 7 (queue0 [(leBytes 8 9 ++ leBytes 8 77 ++ zeros 48)])) (queue0 [(leBytes 8 9 ++ leBytes 8 77 ++ zeros 48)]) (leBytes 8 9 ++ leBytes 8 77 ++ zeros 48)) ∧
    (queue0 [(leBytes 8 9 ++ leBytes 8 77 ++ zeros 48)]).markAt ≠ 0 ∧
    (∃ u, (ends ((que0 (queue0 [(leBytes 8 9 ++ leBytes 8 77 ++ zeros 48)])).served 7 (queue0 [(leBytes 8 9 ++ leBytes 8 77 ++ zeros 48)])) (queue0 [(leBytes 8 9 ++ leBytes 8 77 ++ zeros 48)]) (leBytes 8 9 ++ leBytes 8 77 ++ zeros 48)).queueStore (queue0 [(leBytes 8 9 ++ leBytes 8 77 ++ zeros 48)]) (queue0 [(leBytes 8 9 ++ leBytes 8 77 ++ zeros 48)]).markAt (((leBytes 8 9 ++ leBytes 8 77 ++ zeros 48).drop 8).take 8) = (none, u)) ∧
    (que0 ({ queue0 [(leBytes 8 9 ++ leBytes 8 77 ++ zeros 48)] with desc := (queue0 []).desc.take 0x28 ++ zeros 24 } : Queue)).takes 7 ({ queue0 [(leBytes 8 9 ++ leBytes 8 77 ++ zeros 48)] with desc := (queue0 []).desc.take 0x28 ++ zeros 24 } : Queue) (leBytes 8 9 ++ leBytes 8 77 ++ zeros 48) 9 (ends ((que0 ({ queue0 [(leBytes 8 9 ++ leBytes 8 77 ++ zeros 48)] with desc := (queue0 []).desc.take 0x28 ++ zeros 24 } : Queue)).served 7 ({ queue0 [(leBytes 8 9 ++ leBytes 8 77 ++ zeros 48)] with desc := (queue0 []).desc.take 0x28 ++ zeros 24 } : Queue)) ({ queue0 [(leBytes 8 9 ++ leBytes 8 77 ++ zeros 48)] with desc := (queue0 []).desc.take 0x28 ++ zeros 24 } : Queue) (leBytes 8 9 ++ leBytes 8 77 ++ zeros 48)) ∧
    ({ queue0 [(leBytes 8 9 ++ leBytes 8 77 ++ zeros 48)] with desc := (queue0 []).desc.take 0x28 ++ zeros 24 } : Queue).markAt = 0 ∧
    (joins0 (queue0 [(leBytes 8 5 ++ zeros 56)])).queue? 7 = some (queue0 [(leBytes 8 5 ++ zeros 56)]) ∧
    (joins0 (queue0 [(leBytes 8 6 ++ leBytes 8 0x50008 ++ leBytes 8 5 ++ leBytes 8 1 ++ zeros 32)])).queue? 7 = some (queue0 [(leBytes 8 6 ++ leBytes 8 0x50008 ++ leBytes 8 5 ++ leBytes 8 1 ++ zeros 32)]) ∧
    ((joins0 (queue0 [(leBytes 8 5 ++ zeros 56)])).launchesDone 7 = false ∧ (joins0 (queue0 [(leBytes 8 6 ++ leBytes 8 0x50008 ++ leBytes 8 5 ++ leBytes 8 1 ++ zeros 32)])).launchesDone 7 = false ∧ packetBad (leBytes 8 5 ++ zeros 56) false = none ∧ packetBad (leBytes 8 6 ++ leBytes 8 0x50008 ++ leBytes 8 5 ++ leBytes 8 1 ++ zeros 32) false = none) ∧
    (que0 (queue0 [(leBytes 8 7 ++ leBytes 8 0x50008 ++ leBytes 8 1 ++ leBytes 8 255 ++ zeros 32)])).atIssue 7 (queue0 [(leBytes 8 7 ++ leBytes 8 0x50008 ++ leBytes 8 1 ++ leBytes 8 255 ++ zeros 32)]) (leBytes 8 7 ++ leBytes 8 0x50008 ++ leBytes 8 1 ++ leBytes 8 255 ++ zeros 32) ∧
    (∃ y, ((que0 (queue0 [(leBytes 8 7 ++ leBytes 8 0x50008 ++ leBytes 8 1 ++ leBytes 8 255 ++ zeros 32)])).queueLoad (queue0 [(leBytes 8 7 ++ leBytes 8 0x50008 ++ leBytes 8 1 ++ leBytes 8 255 ++ zeros 32)]) (bytesAt (leBytes 8 7 ++ leBytes 8 0x50008 ++ leBytes 8 1 ++ leBytes 8 255 ++ zeros 32) 8 8) 8).1 = .ok y ∧ (fun b => waitvalHolds (leBytes 8 7 ++ leBytes 8 0x50008 ++ leBytes 8 1 ++ leBytes 8 255 ++ zeros 32) (ofLeBytes b) == false) y = true) ∧
    packetBad (leBytes 8 7 ++ leBytes 8 0x50008 ++ leBytes 8 1 ++ leBytes 8 255 ++ zeros 32) ((que0 (queue0 [(leBytes 8 7 ++ leBytes 8 0x50008 ++ leBytes 8 1 ++ leBytes 8 255 ++ zeros 32)])).protects 0) = none ∧
    (que0 ({ queue0 [(leBytes 8 7 ++ leBytes 8 0x50008 ++ leBytes 8 1 ++ leBytes 8 255 ++ zeros 32)] with armed := true } : Queue)).atIssue 7 ({ queue0 [(leBytes 8 7 ++ leBytes 8 0x50008 ++ leBytes 8 1 ++ leBytes 8 255 ++ zeros 32)] with armed := true } : Queue) (leBytes 8 7 ++ leBytes 8 0x50008 ++ leBytes 8 1 ++ leBytes 8 255 ++ zeros 32) ∧
    (∃ y, ((que0 ({ queue0 [(leBytes 8 7 ++ leBytes 8 0x50008 ++ leBytes 8 1 ++ leBytes 8 255 ++ zeros 32)] with armed := true } : Queue)).queueLoad ({ queue0 [(leBytes 8 7 ++ leBytes 8 0x50008 ++ leBytes 8 1 ++ leBytes 8 255 ++ zeros 32)] with armed := true } : Queue) (bytesAt (leBytes 8 7 ++ leBytes 8 0x50008 ++ leBytes 8 1 ++ leBytes 8 255 ++ zeros 32) 8 8) 8).1 = .ok y ∧ (fun b => waitvalHolds (leBytes 8 7 ++ leBytes 8 0x50008 ++ leBytes 8 1 ++ leBytes 8 255 ++ zeros 32) (ofLeBytes b) == false) y = true) ∧
    (que0 (queue0 [(leBytes 8 1 ++ leBytes 8 0x62001 ++ zeros 48)])).atIssue 7 (queue0 [(leBytes 8 1 ++ leBytes 8 0x62001 ++ zeros 48)]) (leBytes 8 1 ++ leBytes 8 0x62001 ++ zeros 48) ∧
    (que0 (queue0 [(leBytes 8 9 ++ zeros 48 ++ leBytes 8 1)])).atIssue 7 (queue0 [(leBytes 8 9 ++ zeros 48 ++ leBytes 8 1)]) (leBytes 8 9 ++ zeros 48 ++ leBytes 8 1) ∧
    (packetBad (leBytes 8 1 ++ leBytes 8 0x62001 ++ zeros 48) ((que0 (queue0 [(leBytes 8 1 ++ leBytes 8 0x62001 ++ zeros 48)])).protects 0) = some 8 ∧ packetBad (leBytes 8 9 ++ zeros 48 ++ leBytes 8 1) ((que0 (queue0 [(leBytes 8 9 ++ zeros 48 ++ leBytes 8 1)])).protects 0) = some 16 ∧ bytesAt (leBytes 8 1 ++ leBytes 8 0x62001 ++ zeros 48) 0 1 = 1 ∧ bytesAt (leBytes 8 9 ++ zeros 48 ++ leBytes 8 1) 0 1 = 9 ∧ (queue0 [(leBytes 8 1 ++ leBytes 8 0x62001 ++ zeros 48)]).armed = false ∧ (queue0 [(leBytes 8 9 ++ zeros 48 ++ leBytes 8 1)]).armed = false) ∧
    (que0 { queue0 [(leBytes 8 1 ++ leBytes 8 0x62000 ++ zeros 48)] with rewritten := [0] }).queue? 7 = some ({ queue0 [(leBytes 8 1 ++ leBytes 8 0x62000 ++ zeros 48)] with rewritten := [0] } : Queue) ∧
    ((que0 { queue0 [(leBytes 8 1 ++ leBytes 8 0x62000 ++ zeros 48)] with rewritten := [0] }).queueRuns ({ queue0 [(leBytes 8 1 ++ leBytes 8 0x62000 ++ zeros 48)] with rewritten := [0] } : Queue) = true ∧ (que0 { queue0 [(leBytes 8 1 ++ leBytes 8 0x62000 ++ zeros 48)] with rewritten := [0] }).issuesNext ({ queue0 [(leBytes 8 1 ++ leBytes 8 0x62000 ++ zeros 48)] with rewritten := [0] } : Queue) = true ∧ ({ queue0 [(leBytes 8 1 ++ leBytes 8 0x62000 ++ zeros 48)] with rewritten := [0] } : Queue).rewritten.contains ({ queue0 [(leBytes 8 1 ++ leBytes 8 0x62000 ++ zeros 48)] with rewritten := [0] } : Queue).issued = true ∧ ({ queue0 [(leBytes 8 1 ++ leBytes 8 0x62000 ++ zeros 48)] with rewritten := [0] } : Queue).spoilt = false ∧ ({ queue0 [(leBytes 8 1 ++ leBytes 8 0x62000 ++ zeros 48)] with rewritten := [0] } : Queue).levels = [] ∧ ({ queue0 [(leBytes 8 1 ++ leBytes 8 0x62000 ++ zeros 48)] with rewritten := [0] } : Queue).armed = false) ∧
    (que0 { queue0 [(leBytes 8 1 ++ leBytes 8 0x62000 ++ zeros 48)] with rewritten := [1] }).queue? 7 = some ({ queue0 [(leBytes 8 1 ++ leBytes 8 0x62000 ++ zeros 48)] with rewritten := [1] } : Queue) ∧
    ((que0 { queue0 [(leBytes 8 1 ++ leBytes 8 0x62000 ++ zeros 48)] with rewritten := [1] }).queueRuns ({ queue0 [(leBytes 8 1 ++ leBytes 8 0x62000 ++ zeros 48)] with rewritten := [1] } : Queue) = true ∧ ({ queue0 [(leBytes 8 1 ++ leBytes 8 0x62000 ++ zeros 48)] with rewritten := [1] } : Queue).lookAt = (1, []) ∧ 1 < ({ queue0 [(leBytes 8 1 ++ leBytes 8 0x62000 ++ zeros 48)] with rewritten := [1] } : Queue).read + ({ queue0 [(leBytes 8 1 ++ leBytes 8 0x62000 ++ zeros 48)] with rewritten := [1] } : Queue).size ∧ ({ queue0 [(leBytes 8 1 ++ leBytes 8 0x62000 ++ zeros 48)] with rewritten := [1] } : Queue).rewritten.contains 1 = true ∧ ({ queue0 [(leBytes 8 1 ++ leBytes 8 0x62000 ++ zeros 48)] with rewritten := [1] } : Queue).ahead.length < 64 ∧ ({ queue0 [(leBytes 8 1 ++ leBytes 8 0x62000 ++ zeros 48)] with rewritten := [1] } : Queue).joinHold = false) ∧
    (que0 (queue0 [])).queue? 7 = some (queue0 []) ∧
    ((que0 (queue0 [])).queueRuns (queue0 []) = true ∧ (queue0 []).ahead = [] ∧ (queue0 []).lookAt.2 = [] ∧ (queue0 []).lookAt.1 < (queue0 []).read + (queue0 []).size ∧ (queue0 []).rewritten = []) ∧
    (∃ y, ((que0 (queue0 [])).queueLoad (queue0 []) ((queue0 []).addrAt (queue0 []).lookAt) 8).1 = .ok y ∧ (fun h => (ofLeBytes h).testBit 8 && decide (1 ≤ ofLeBytes h % 256 ∧ ofLeBytes h % 256 ≤ 9)) y = true) ∧
    (∃ y, (((que0 (queue0 [])).queueLoad (queue0 []) ((queue0 []).addrAt (queue0 []).lookAt) 8).2.queueLoad (queue0 []) ((queue0 []).addrAt (queue0 []).lookAt) 64).1 = .ok y ∧ (fun p => p.length == 64) y = true) ∧
    (que0 { queue0 [] with levels := [⟨0x60000, 0, 2⟩] }).queue? 7 = some ({ queue0 [] with levels := [⟨0x60000, 0, 2⟩] } : Queue) ∧
    ((que0 { queue0 [] with levels := [⟨0x60000, 0, 2⟩] }).queueRuns ({ queue0 [] with levels := [⟨0x60000, 0, 2⟩] } : Queue) = true ∧ ({ queue0 [] with levels := [⟨0x60000, 0, 2⟩] } : Queue).lookAt = (0, [⟨0x60000, 0, 2⟩])) ∧
    (∃ y, ((que0 { queue0 [] with levels := [⟨0x60000, 0, 2⟩] }).queueLoad ({ queue0 [] with levels := [⟨0x60000, 0, 2⟩] } : Queue) (({ queue0 [] with levels := [⟨0x60000, 0, 2⟩] } : Queue).addrAt ({ queue0 [] with levels := [⟨0x60000, 0, 2⟩] } : Queue).lookAt) 8).1 = .ok y ∧ (fun h => (ofLeBytes h).testBit 8 && decide (ofLeBytes h % 256 = 5)) y = true) ∧
    (que0 { queue0 [] with halted := true, err := 5 }).queue? 7 = some { queue0 [] with halted := true, err := 5 } ∧
    (que0 { queue0 [] with halted := true, err := 5 }).contextRuns 0 = true :=
  ⟨takes_of _ _ _ _ (by decide +kernel) (by decide +kernel) (by decide +kernel) (by decide +kernel) (by decide +kernel) (by decide +kernel),
    ok_of _ _ (by decide +kernel),
    takes_of _ _ _ _ (by decide +kernel) (by decide +kernel) (by decide +kernel) (by decide +kernel) (by decide +kernel) (by decide +kernel),
    takes_of _ _ _ _ (by decide +kernel) (by decide +kernel) (by decide +kernel) (by decide +kernel) (by decide +kernel) (by decide +kernel),
    (by decide +kernel),
    takes_of _ _ _ _ (by decide +kernel) (by decide +kernel) (by decide +kernel) (by decide +kernel) (by decide +kernel) (by decide +kernel),
    takes_of _ _ _ _ (by decide +kernel) (by decide +kernel) (by decide +kernel) (by decide +kernel) (by decide +kernel) (by decide +kernel),
    (by decide +kernel),
    takes_of _ _ _ _ (by decide +kernel) (by decide +kernel) (by decide +kernel) (by decide +kernel) (by decide +kernel) (by decide +kernel),
    (by decide +kernel),
    takes_of _ _ _ _ (by decide +kernel) (by decide +kernel) (by decide +kernel) (by decide +kernel) (by decide +kernel) (by decide +kernel),
    takes_of _ _ _ _ (by decide +kernel) (by decide +kernel) (by decide +kernel) (by decide +kernel) (by decide +kernel) (by decide +kernel),
    (by decide +kernel),
    done_of _ (by decide +kernel),
    done_of _ (by decide +kernel),
    done_of _ (by decide +kernel),
    done_of _ (by decide +kernel),
    takes_of _ _ _ _ (by decide +kernel) (by decide +kernel) (by decide +kernel) (by decide +kernel) (by decide +kernel) (by decide +kernel),
    ok_of _ _ (by decide +kernel),
    takes_of _ _ _ _ (by decide +kernel) (by decide +kernel) (by decide +kernel) (by decide +kernel) (by decide +kernel) (by decide +kernel),
    ok_of _ _ (by decide +kernel),
    (by decide +kernel),
    takes_of _ _ _ _ (by decide +kernel) (by decide +kernel) (by decide +kernel) (by decide +kernel) (by decide +kernel) (by decide +kernel),
    (by decide +kernel),
    done_of _ (by decide +kernel),
    takes_of _ _ _ _ (by decide +kernel) (by decide +kernel) (by decide +kernel) (by decide +kernel) (by decide +kernel) (by decide +kernel),
    (by decide +kernel),
    rfl,
    rfl,
    (by decide +kernel),
    atIssue_of _ _ _ (by decide +kernel) (by decide +kernel),
    ok_of _ _ (by decide +kernel),
    (by decide +kernel),
    atIssue_of _ _ _ (by decide +kernel) (by decide +kernel),
    ok_of _ _ (by decide +kernel),
    atIssue_of _ _ _ (by decide +kernel) (by decide +kernel),
    atIssue_of _ _ _ (by decide +kernel) (by decide +kernel),
    (by decide +kernel),
    rfl,
    (by decide +kernel),
    rfl,
    (by decide +kernel),
    rfl,
    (by decide +kernel),
    ok_of _ _ (by decide +kernel),
    ok_of _ _ (by decide +kernel),
    rfl,
    (by decide +kernel),
    ok_of _ _ (by decide +kernel),
    rfl,
    (by decide +kernel)⟩


theorem err_of {ε α : Type} (x : Except ε α) (h : (match x with | .ok _ => false | .error _ => true) = true) : ∃ e, x = .error e := by
  cases x with
  | error e => exact ⟨e, rfl⟩
  | ok a => cases h
theorem pair_of {α β : Type} [DecidableEq α] (f : α × β) (a : α) (h : decide (f.1 = a) = true) : ∃ u, f = (a, u) := by
  obtain ⟨x, u⟩ := f
  obtain rfl : x = a := of_decide_eq_true h
  exact ⟨u, rfl⟩
/-- The boot header with bytes of its own from `off`. -/
def withBytes (off : Nat) (b : List Byte) : Header := ⟨putBytes bootHeader.bytes off b⟩
/-- One launch that has placed nothing. -/
def place0 (h : Header) : State := { State.reset with
  up := true, contexts := [bootContext], launches := [{ bootLaunch with hdr := h, next := 0 }] }
def placeL (h : Header) : Launch := { bootLaunch with hdr := h, next := 0 }
/-- 1,152 threads in one field of 11 bits; a cluster of two workgroups. -/
def wide0 : Header := withBytes 0x08 (leBytes 8 (11 + 1 * 2 ^ 36 + 1 * 2 ^ 39) ++ leBytes 4 1152)
def pairs0 : Header := withBytes 0x08 (leBytes 8 (1 + 2 ^ 6 + 2 * 2 ^ 36 + 1 * 2 ^ 39 + 2 * 2 ^ 42) ++ leBytes 4 1 ++ leBytes 4 2)
/-- A workgroup whose warp has waited at a barrier since cycle 0, at cycle 150,000. -/
def swap0 : State := { s0.modWarp fun w => ({ w with longSince := some 0 } : Warp).modSp fun p => { p with wait := .barrier 0 0 } with now := 150000 }
/-- A deterministic context whose one warp's clock is `t`, with one reduction buffered at clock 0. -/
def commit0 (t : DWord) : State := { s0.modWarp fun w => { w with reds := [red0], clock := t } with
  launches := [{ bootLaunch with hdr := (headed s0 16 4 1 4096 4).hdr }] }
theorem witness_PlacementSwapAndCommit :
    (place0 wide0).launch (placeL wide0).key = some (placeL wide0) ∧
    (place0 wide0).placesNext (placeL wide0) = true ∧
    ((placeL wide0).hdr.c = 0 ∧ (placeL wide0).hdr.warps = 12 ∧ (placeL wide0).hdr.bad = none) ∧
    (place0 wide0).hasRoom 0 (placeL wide0).hdr 0xFFF = true ∧
    (placeL wide0).next = 0 ∧
    (place0 pairs0).launch (placeL pairs0).key = some (placeL pairs0) ∧
    (place0 pairs0).placesNext (placeL pairs0) = true ∧
    ((placeL pairs0).hdr.c ≠ 0 ∧ [(0 : Nat), 7].length = (placeL pairs0).hdr.clsize ∧ [(0 : Nat), 7].Nodup) ∧
    ([((0 : Nat), (0 : BitVec 12)), (7, 1)].all fun x => x.1 / 8 == 0 && (place0 pairs0).hasRoom x.1 pairs0 x.2) = true ∧
    swap0.contextRuns 0 = true ∧
    swap0.swapUnit ⟨0, 1, 0⟩ = [Workgroup.blank ⟨0, 1, 0⟩] ∧
    ((Workgroup.blank ⟨0, 1, 0⟩).state = .resident ∧ swap0.swapReady (Workgroup.blank ⟨0, 1, 0⟩) = true) ∧
    (((commit0 0).detLaunch 0).isSome = true ∧ ((commit0 5).detLaunch 0).isSome = true) ∧
    (commit0 5).context 0 = some bootContext ∧
    (commit0 5).contextRuns 0 = true ∧
    ((commit0 5).warps.all fun w => w.reds.all fun r => r.parked.isNone) = true ∧
    ((commit0 0).commitTarget 0 1 0 = 0 ∧ (commit0 5).commitTarget 0 1 0 ≠ 0) :=
  ⟨rfl,
    (by decide +kernel),
    (by decide +kernel),
    (by decide +kernel),
    (by decide +kernel),
    rfl,
    (by decide +kernel),
    (by decide +kernel),
    (by decide +kernel),
    (by decide +kernel),
    (by decide +kernel),
    (by decide +kernel),
    (by decide +kernel),
    rfl,
    (by decide +kernel),
    (by decide +kernel),
    (by decide +kernel)⟩

/-- A reduction at a byte of peer 5, whose link is down. -/
def far0 : Reduction := { red0 with place := peerBase + 5 * 2 ^ 41 + 64 }
def cut0 : State := { reds0 with peers := [⟨5, 2 ^ 30, false⟩] }
theorem witness_LostLinksAndConditionsThatFail :
    (far0.sb = false ∧ far0.spot ⟨0, 1, 0⟩ = .global far0.place none) ∧
    (cut0.performOn bootKey [(far0.spot ⟨0, 1, 0⟩, 4)]).place far0.place = .peer 5 ∧
    ((∀ y ∈ (cut0.performOn bootKey [(far0.spot ⟨0, 1, 0⟩, 4)]).peers, y.num = 5 → y.up = false)) ∧
    ((((warp0.splits[(0 : Fin 4)]).map fun p => p.member.getLsbD 0 && p.trap.isNone) = some true) ∧ ∀ j : Fin 4, j ≠ 0 → warp0.splits[j] = none) ∧
    ((place0 wide0).hasRoom 0 (placeL wide0).hdr 0xFFF = true ∧ ({ place0 wide0 with retiredCores := [0] } : State).hasRoom 0 (placeL wide0).hdr 0xFFF = false) ∧
    ((place0 pairs0).placesNext (placeL pairs0) = true ∧ ¬ [(0 : Nat), 0].Nodup ∧ ([(0 : Nat), 7].zip [(0 : BitVec 12)]).length ≠ (placeL pairs0).hdr.clsize) ∧
    (s0.contextRuns 0 = true ∧ (∃ g ∈ s0.swapUnit ⟨0, 1, 0⟩, s0.swapReady g = false) ∧ s0.detLaunch 0 = none) :=
  ⟨(by decide +kernel),
    (by decide +kernel),
    (by decide +kernel),
    (by decide +kernel),
    (by decide +kernel),
    (by decide +kernel),
    (by decide +kernel)⟩

/-- The interface is open, these bytes at 0x70000, these contexts. -/
def host0 (b : List Byte) (cs : List Context) : State := { State.reset with up := true, mem := cellsAt 0x20 [1] ++ cellsAt 0x70000 b, contexts := cs }
def ring16 : List Byte := leBytes 8 0 ++ leBytes 4 16 ++ zeros 52
def group1 : List Byte := leBytes 8 1 ++ leBytes 2 255 ++ leBytes 2 4095 ++ leBytes 2 1
def park0 (cause : Option Cause) : Park := ⟨3, 0, .queue 7, cause, .load, 0x50000, false⟩
def parked0 (cause : Option Cause) : State := { host0 [] [bootContext] with parks := [park0 cause], queues := [{ newQueue 0 7 ring16 with parked := some 3 }] }
def scrub0 : Scrub := ⟨0, some 3, [(0x8000, 16), (0x9000, 16)], 0, 0, [7], [], false⟩
theorem witness_HostCommandsAct :
    ((host0 [] []).up = true ∧ contextRecordOk ((host0 [] []).homeBytes none 0x70000 128) = true ∧ (host0 [] []).scrubs = []) ∧
    (host0 [] []).mayCreate ((host0 [] []).newContext ((host0 [] []).homeBytes none 0x70000 128)) = true ∧
    contextRecordOk ((host0 [0xFF, 0xFF] []).homeBytes none 0x70000 128) = false ∧
    (host0 [] [bootContext]).mayCreate ((host0 [] [bootContext]).newContext ((host0 [] [bootContext]).homeBytes none 0x70000 128)) = false ∧
    (((host0 ring16 [bootContext]).context 0).any (fun c => !c.dead) = true ∧ queueDescOk ((host0 ring16 [bootContext]).homeBytes none 0x70000 64) = true) ∧
    (host0 ring16 [bootContext]).queue? 1023 = none ∧
    ((∀ x ∈ (host0 ring16 [bootContext]).scrubs, 1023 ∉ x.queues)) ∧
    queueDescOk ((host0 [] [bootContext]).homeBytes none 0x70000 64) = false ∧
    ((∀ k ∈ (host0 [] []).keys, k.slot ≠ 63)) ∧
    ((∀ x, (host0 [] []).context 0 = some x → x.protect = true)) ∧
    (1 = ofLeBytes ((host0 group1 [bootContext]).homeBytes none 0x70000 4) ∧ rangesOk (groupRanges ((host0 group1 [bootContext]).homeBytes none 0x70000 16) 1) = true) ∧
    (((host0 group1 [bootContext]).context 0).isSome = true ∧ (host0 group1 [bootContext]).groups = []) ∧
    (parked0 (some .page)).parks.find? (fun x => x.cause.isSome && x.ctx == 0 && (parked0 (some .page)).requesterNum x == (parked0 (some .page)).requesterNum (park0 (some .page))) = some (park0 (some .page)) ∧
    ((park0 (some .page)).cause = some .page ∧ (park0 (some .page)).ctx = 0) ∧
    ((∀ x ∈ (parked0 none).parks, ¬ (x.cause.isSome = true ∧ x.ctx = 0 ∧ (parked0 none).requesterNum x = 7))) ∧
    (parked0 none).context 0 = some bootContext ∧
    ({ host0 [1] [] with scrubs := [scrub0] } : State).scrubs = scrub0 :: [] ∧
    ((∃ f ∈ scrub0.frames, f.1 ≤ 0x800F ∧ 0x800F < f.1 + f.2)) ∧
    (scrubPieces scrub0.frames 0 scrub0.size = scrub0.frames ∧ scrubPieces scrub0.frames 20 (scrub0.size - 20) = [(0x9004, 12)]) ∧
    (host0 [1] []).mayCreate { (host0 [1] []).newContext ((host0 [1] []).homeBytes none 0x70000 128) with pages := 0x70000 } = false ∧
    (({ (host0 ring16 [bootContext]) with queues := [{ newQueue 0 7 ring16 with halted := true }] } : State).queue? 7).any (·.halted) = true ∧
    ((host0 group1 [bootContext]).context 5 = none ∧ rangesOk (groupRanges ((host0 (leBytes 8 1 ++ zeros 8) [bootContext]).homeBytes none 0x70000 16) 1) = false) ∧
    ((∃ k ∈ ({ (host0 [] []) with keys := [⟨63, 5⟩] } : State).keys, k.slot = 63)) :=
  ⟨(by decide +kernel),
    (by decide +kernel),
    (by decide +kernel),
    (by decide +kernel),
    (by decide +kernel),
    rfl,
    (by decide +kernel),
    (by decide +kernel),
    (by decide +kernel),
    (by intro x h; cases h),
    (by decide +kernel),
    (by decide +kernel),
    (by decide +kernel),
    (by decide +kernel),
    (by decide +kernel),
    rfl,
    rfl,
    (by decide +kernel),
    (by decide +kernel),
    (by decide +kernel),
    (by decide +kernel),
    (by decide +kernel),
    (by decide +kernel)⟩

/-- Pages of context 0 that map the low 8 GiB by the leaf; the frame of address 0 is shared by two; a pool of `n` frames. -/
def paged0 (leaf n : Nat) (m : Member) : State := { State.reset with
  member := m, up := true, contexts := [bootContext]
  mem := cellsAt 0x1000 (leBytes 8 0x10000 ++ zeros 32 ++ leBytes 4 n ++ zeros 4 ++ leBytes 8 0x8000) ++ cellsAt 0x4000 (leBytes 8 leaf) ++
    cellsAt 0x8000 (leBytes 8 2) ++ cellsAt 0x10000 (leBytes 8 0x4001)
  peers := [⟨5, 2 ^ 30, true⟩, ⟨6, 2 ^ 30, false⟩] }

/-- ADD.N32 of 5, as another agent asks for it. -/
def add4 : OuterAtomic := ⟨0x70, .n32, 5, 0⟩
/-- Small pages: address 0x50000 maps by `leaf` to its own frame, shared by two. -/
def paged1 (leaf n : Nat) : State := { paged0 0xF n .g960 with
  mem := cellsAt 0x1000 (leBytes 8 0x10000 ++ zeros 32 ++ leBytes 4 n ++ zeros 4 ++ leBytes 8 0x8000) ++ cellsAt 0x4000 (leBytes 8 0x18001) ++
    cellsAt 0x8280 (leBytes 8 2) ++ cellsAt 0xC280 (leBytes 8 (0x50000 + leaf)) ++ cellsAt 0x10000 (leBytes 8 0x4001) ++
    cellsAt 0x18000 (leBytes 8 0xC001) }
theorem witness_OutsideAccessesAndReset :
    ((paged0 0x4F 0 .g960).up = true ∧ Config.windowed (paged0 0x4F 0 .g960).member = false) ∧
    (∃ y, ((paged0 0x4F 0 .g960).hostPlaces 0 0x50000 16 .load).1 = .ok y ∧ (fun l => l.length == 16) y = true) ∧
    (∃ e, ((paged0 0x4F 0 .g960).hostPlaces 0 (2 ^ 57) 16 .load).1 = .error e) ∧
    (∃ y, (((paged0 0x4F 0 .g960).hostCow 0 0x50000 2).hostPlaces 0 0x50000 2 .store).1 = .ok y ∧ (fun l => l.length == 2) y = true) ∧
    (∃ y, (((paged0 0x4F 0 .g960).hostCow 0 0x50000 4).hostPlaces 0 0x50000 4 .atomic).1 = .ok y ∧ (fun l => l.head? == some (0x50000, none)) y = true) ∧
    (4 * add4.ty.regs = 4 ∧ (AOp.ofOpcode add4.opcode).opcode = add4.opcode ∧ (AOp.ofOpcode add4.opcode).accepts add4.ty = true ∧ 0x50000 % 4 = 0) ∧
    ((((paged0 0x4F 0 .g960).hostCow 0 0x50000 4).hostPlaces 0 0x50000 4 .atomic).2.cacheable 0x50000 = true ∧ (paged0 0x4F 0 .g960).cacheable 0x50000 = true ∧ (paged0 0x4F 0 .g960).place 0x50000 = .local) ∧
    ((paged0 0x4F 0 .g48).up = true ∧ Config.windowed (paged0 0x4F 0 .g48).member = true ∧ 65534 + 2 ≤ 65536) ∧
    State.reset.up = false ∧
    ((∃ x ∈ (paged0 0x4F 0 .g960).peers, x.num = 5 ∧ x.up = true)) ∧
    ((∀ x ∈ (paged0 0x4F 0 .g960).peers, x.num = 6 → x.up = false)) ∧
    (paged0 0x4F 0 .g960).groups = [] :=
  ⟨(by decide +kernel),
    ok_of _ _ (by decide +kernel),
    err_of _ (by decide +kernel),
    ok_of _ _ (by decide +kernel),
    ok_of _ _ (by decide +kernel),
    (by decide +kernel),
    (by decide +kernel),
    (by decide +kernel),
    (by decide +kernel),
    (by decide +kernel),
    (by decide +kernel),
    (by decide +kernel)⟩

def check0 (due : Bool) (current : Option Bool) : Context := { bootContext with interval := 1, checkDue := due, current := current, areaA := 0x90000, areaB := 0xA0000 }
def saved0 (c : Context) : State := { s0 with contexts := [c] }
/-- A deterministic warp that has not stopped. -/
def going0 : State := { commit0 5 with launches := [{ bootLaunch with hdr := withBytes 0x33 [8, 1] }] }
theorem witness_CheckpointRollbackPreemptPlantAndPages :
    (saved0 (check0 true none)).context 0 = some (check0 true none) ∧
    (saved0 (check0 true none)).contextRuns 0 = true ∧
    ((saved0 (check0 true none)).checkpointDue (check0 true none) = true ∧ (check0 true none).saves = []) ∧
    ((saved0 (check0 true none)).modContext 0 fun c => { c with checkDue := true }).canonical 0 = true ∧
    ((saved0 (check0 false none)).checkpointDue (check0 false none) = false ∧ (check0 false none).checkDue = false) ∧
    ((saved0 (check0 false none)).up = true ∧ (({ saved0 (check0 false none) with events := [.answer 4 true] } : State).modContext 0 fun c => { c with saves := [0x90000] }).canonical 0 = true) ∧
    (going0.up = true ∧ (({ going0 with events := [.answer 4 true] } : State).modContext 0 fun c => { c with saves := [0x90000] }).canonical 0 = false) ∧
    going0.context 0 = some bootContext ∧
    (bootContext.saves = [] ∧ bootContext.checkDue = false) ∧
    ((saved0 (check0 false (some true))).canRollback 0 = true ∧ (saved0 (check0 false (some false))).canRollback 0 = true ∧ (saved0 (check0 false none)).canRollback 0 = false) ∧
    ((paged0 0xF 0 .g960).plantable 0 = true ∧ s0.plantable 0 = false) ∧
    ({ paged1 0x2F 0 with parks := [park0 none] } : State).parkOf (park0 none).id = some (park0 none) ∧
    ((park0 none).cause = none ∧ (park0 (some .pagepool)).cause = some .pagepool) ∧
    (∃ u, (paged0 0xF 0 .g960).cowServe 0 0x50000 = (true, u)) ∧
    (∃ u, (paged1 0x2F 0).cowServe 0 0x50000 = (false, u)) ∧
    ({ paged1 0x2F 1 with parks := [park0 (some .pagepool)] } : State).parkOf 3 = some (park0 (some .pagepool)) ∧
    ((paged1 0x2F 1).poolCount 0 ≠ 0 ∧ (paged1 0x2F 0).poolCount 0 = 0) :=
  ⟨rfl,
    (by decide +kernel),
    (by decide +kernel),
    (by decide +kernel),
    (by decide +kernel),
    (by decide +kernel),
    (by decide +kernel),
    rfl,
    (by decide +kernel),
    (by decide +kernel),
    (by decide +kernel),
    rfl,
    (by decide +kernel),
    pair_of _ _ (by decide +kernel),
    pair_of _ _ (by decide +kernel),
    rfl,
    (by decide +kernel)⟩

def longs0 (left : Nat) (trap : Option (Cause × DWord)) : LongOp := ⟨0, 0x1FFFC, left, [.s 5 7], 0, trap, [.s 1], [.s 5], none⟩
def window0 (left : Nat) (trap : Option (Cause × DWord)) (flags : Nat) : State :=
  (headed s0 16 4 flags 4096 4).modWarp fun w => { w with outstanding := [longs0 left trap] }
/-- One that is an atomic with acquire, not performed yet. -/
def acquires0 : LongOp := { longs0 3 none with wb := [], late := some (.atomic 5 AOp.add.opcode .i32 .device true [] none) }
def formS : Form := { use := { vr := [127] } }
def formB : Form := { cls := .b }
def formW : Form := { waits := true }
def formT : Form := { use := { sr := [5] } }
theorem witness_LongInstructionWindows :
    (window0 3 none 0).gated formS.sync = false ∧
    (window0 3 none 0).warp.outstanding = [longs0 3 none] ∧
    ((longs0 3 none).split = (window0 3 none 0).warp.cur ∧ (longs0 3 none).flags = 0) ∧
    (formS.undef = false ∧ formS.badType = false) ∧
    ((∀ r ∈ formS.use.vr ++ formS.use.vw, r < (window0 3 none 0).warp.allot)) ∧
    ((∃ (rule : State → Res) (u : State) (c : Cause) (a : DWord), rule s0 = .trap u c a)) ∧
    ((longs0 3 none).trap = none ∧ (formB.cls = .b ∧ (longs0 0 none).left = 0)) ∧
    (¬ (formS.cls = .b ∨ (longs0 3 none).left = 0) ∧ formW.waits = true ∧ ¬ (formW.cls = .b)) ∧
    (acquires0.acquires = true ∧ acquires0.trap = none ∧ acquires0.left = 3 ∧ acquires0.flags = 0) ∧
    ((window0 3 none 2).hdr.debug = true ∧ (window0 3 none 0).hdr.debug = false) ∧
    ((∃ r ∈ formT.use.reads, r ∈ (longs0 3 none).writes)) ∧
    (¬ ∃ r ∈ formS.use.reads, r ∈ (longs0 3 none).writes) ∧
    (longs0 0 (some (.page, 5))).trap = some (.page, 5) ∧
    (window0 0 (some (.page, 5)) 0).mayEnter ∧
    ((longs0 3 none).wb ≠ [] ∧ (1 : Fin 4) ≠ (window0 3 none 0).warp.cur) :=
  ⟨(by decide +kernel),
    rfl,
    ⟨rfl, rfl⟩,
    (by decide +kernel),
    (by decide +kernel),
    ⟨fun s => .trap s .ecc 0, _, _, _, rfl⟩,
    (by decide +kernel),
    (by decide +kernel),
    (by decide +kernel),
    (by decide +kernel),
    (by decide +kernel),
    (by decide +kernel),
    (by decide +kernel),
    enter_of _ (by decide +kernel) (by decide +kernel) (by decide +kernel) (by decide +kernel),
    (by decide +kernel)⟩

/-- The machine at a word, and the same with the word's warp at its first fetch. -/
def first0 (w : Nat) : State := State.reset.withFetchWord 32 w
def issueTurn (s : State) : Bool := match s.agenda with | [.issue _] => true | _ => false
theorem next_of {σ φ ρ : Type} (o : Host.Outcome σ φ ρ) (h : (match o with | .next _ => true | _ => false) = true) : ∃ t, o = .next t := by
  cases o with
  | next t => exact ⟨t, rfl⟩
  | fault _ => cases h
  | refused _ => cases h
/-- The state that fetches: the boot warp chosen, pages readable. -/
def fetch0 (w : Nat) : State := ((first0 w).focus bootKey).atBoundary.1
/-- With the code's pages not mapped. -/
def unmapped0 : State := { s0 with agenda := [] }
/-- A warp with a trap pending. -/
def bound0 : State := due0.focus bootKey
theorem witness_EveryStepKeepsMemoryCanonical :
    Memory.wf (first0 0x02000000).mem = true ∧
    (∃ t, step (first0 0x02000000) = .next t) :=
  ⟨(by decide +kernel),
    next_of _ (by decide +kernel)⟩
theorem witness_AStepRunsTheDecodedInstruction :
    (first0 0x02000000).agenda = .issue bootKey :: [] ∧
    ((({ first0 0x02000000 with agenda := [] } : State).agenda = [] ∧ ({ first0 0x02000000 with agenda := [] } : State).begun.pick = some bootKey ∧ ({ first0 0x02000000 with agenda := [] } : State).begun.now % 2 = 1)) ∧
    ({ first0 0x02000000 with agenda := [.issueLate bootKey] } : State).agenda = .issueLate bootKey :: [] ∧
    (slept0.agenda = [] ∧ slept0.begun.pick = none ∧ slept0.begun.deviceMove.isSome = true) ∧
    ((s0.focus bootKey).passedOver (s0.focus bootKey).warp = false ∧ ∀ y ∈ (s0.focus bootKey).warps, y.passed = false) ∧
    ({ first0 0x02000000 with agenda := [.event .reset] } : State).agenda = .event .reset :: [] ∧
    (¬ ((s0.focus bootKey).warp.key = bootKey ∧ (({ s0 with contexts := [] } : State).focus bootKey).mayIssue (s0.focus bootKey).warp = true)) ∧
    ((s0.focus bootKey).warp.key = bootKey ∧ (s0.focus bootKey).mayIssue (s0.focus bootKey).warp = true) ∧
    (bound0.atBoundary.2 = false ∧ (s0.focus bootKey).atBoundary.2 = true) ∧
    (∃ w u, (fetch0 0x02000000).fetched = (.ok w, u) ∧ ((match decode w with | .ok i => i == .nop | .error _ => false) = true)) ∧
    (∃ w u, (fetch0 0xFFFFFFFF).fetched = (.ok w, u) ∧ ((match decode w with | .ok _ => false | .error _ => true) = true)) ∧
    (∃ x, (unmapped0.fetched).1 = .error x) ∧
    ((∀ c ∈ (fetch0 0x02000000).icache, ¬(c.core = 0 ∧ c.ctx = 0 ∧ c.addr = 0x20000))) ∧
    (∃ y, ((fetch0 0x02000000).translate 0 0 0x20000 .fetch false).1 = .ok y ∧ (fun _ => true) y = true) ∧
    ((fetch0 0x02000000).translate 0 0 0x20000 .fetch false).2.codeLines = [] ∧
    (s0.warp.outstanding = [] ∧ s0.warp.candidate s0.det = some 0 ∧ s0.warp.woundDue = false ∧ (s0.warp.splits[(0 : Fin 4)].getD Split.empty).trap = none) ∧
    s0.warp.boundary = s0.warp :=
  ⟨(by decide +kernel),
    (by decide +kernel),
    (by decide +kernel),
    (by decide +kernel),
    (by decide +kernel),
    (by decide +kernel),
    (by decide +kernel),
    (by decide +kernel),
    (by decide +kernel),
    read_of _ _ (by decide +kernel),
    read_of _ _ (by decide +kernel),
    err_of _ (by decide +kernel),
    (by decide +kernel),
    ok_of _ _ (by decide +kernel),
    (by decide +kernel),
    (by decide +kernel),
    rfl⟩


/-! Single instructions, each on a small state; the results are worked out by hand from the rule named. Scalars s1 and s2 hold
`a` and `b`, as v1 and v2 do in every lane. -/

def sc (a b : Word) : State := s0.modWarp fun w => (w.setS 1 a).setS 2 b
def vc (t : Ty) (a b : Word) : State :=
  (typed s0 t).modWarp fun w => (((w.setV 1 all96 fun _ => a).setV 2 all96 fun _ => b).setS 1 a).setS 2 b
def sOf (r : Reg) (t : State) : Word := t.warp.s r
/-- What the outstanding long instructions will write, in lane 0. -/
def written (t : State) : List Word := t.warp.outstanding.flatMap fun l => l.wb.map fun x => match x with
  | .v _ _ vals => vals[(0 : Lane)]
  | .s _ v => v
  | .p _ _ _ => 0
def vOf (r : Reg) (l : Lane) (t : State) : Word := t.warp.v r l

theorem test_sadd_wraps : got (exec (.sadd 3 1 2) (sc 0xFFFFFFFF 2)) (sOf 3) = some 1 := by decide +kernel  -- R114
theorem test_ssub_wraps : got (exec (.ssub 3 1 2) (sc 0 1)) (sOf 3) = some 0xFFFFFFFF := by decide +kernel  -- R114
theorem test_smulhi_signed : got (exec (.smulhi 3 1 2) (sc 0xFFFFFFFF 0xFFFFFFFF)) (sOf 3) = some 0 := by decide +kernel  -- R114
theorem test_smulhin_unsigned : got (exec (.smulhin 3 1 2) (sc 0xFFFFFFFF 0xFFFFFFFF)) (sOf 3) = some 0xFFFFFFFE := by decide +kernel  -- R114
theorem test_ssar_sign : got (exec (.ssar 3 1 2) (sc 0x80000000 31)) (sOf 3) = some 0xFFFFFFFF := by decide +kernel  -- R114
theorem test_sminn_unsigned : got (exec (.sminn 3 1 2) (sc 0xFFFFFFFF 1)) (sOf 3) = some 1 := by decide +kernel  -- R114
theorem test_smin_signed : got (exec (.smin 3 1 2) (sc 0xFFFFFFFF 1)) (sOf 3) = some 0xFFFFFFFF := by decide +kernel  -- R114
theorem test_sandn : got (exec (.sandn 3 1 2) (sc 0b1100 0b1010)) (sOf 3) = some 0b0100 := by decide +kernel  -- R114
theorem test_scmp_lt_signed : got (exec (.scmp 3 1 2 .lt) (sc 0xFFFFFFFF 0)) (sOf 3) = some 1 := by decide +kernel  -- R117
theorem test_ssel_reads_d : got (exec (.ssel 1 2 3) (sc 5 7)) (sOf 1) = some 7 := by decide +kernel  -- R117
theorem test_sclz : got (exec (.sclz 3 1) (sc 1 0)) (sOf 3) = some 31 := by decide +kernel  -- R118
theorem test_sbrev : got (exec (.sbrev 3 1) (sc 1 0)) (sOf 3) = some 0x80000000 := by decide +kernel  -- R118
theorem test_sbfe_signed : got (exec (.sbfe 3 1 2) (sc 0x000000F0 0x00010404)) (sOf 3) = some 0xFFFFFFFF := by decide +kernel  -- R118
theorem test_vadd_lanes_i8 : got (exec (.vadd 3 1 2) (vc .i8x4 0x7FFFFF01 0x01010101)) (vOf 3 95) = some 0x80000002 := by decide +kernel  -- R119
theorem test_vaddsat_i16 : got (exec (.vaddsat 3 1 2) (vc .i16x2 0x7FFF8000 0x0001FFFF)) (vOf 3 95) = some 0x7FFF8000 := by decide +kernel  -- R119
theorem test_vaddsat_unsigned : got (exec (.vaddsat 3 1 2) (vc .n8x4 0xFF000001 0x01000001)) (vOf 3 95) = some 0xFF000002 := by decide +kernel  -- R119
theorem test_vabsd_unsigned : got (exec (.vabsd 3 1 2) (vc .n16x2 0x00010005 0xFFFF0003)) (vOf 3 95) = some 0xFFFE0002 := by decide +kernel  -- R119
theorem test_vmulhi_unsigned : got (exec (.vmulhi 3 1 2) (vc .n32 0xFFFFFFFF 0xFFFFFFFF)) (vOf 3 95) = some 0xFFFFFFFE := by decide +kernel  -- R119
theorem test_vmad_adds_d : got (exec (.vmad 1 1 2) (vc .i32 3 4)) (vOf 1 95) = some 15 := by decide +kernel  -- R121
theorem test_vdot4_signed : got (exec (.vdot4 3 1 2) (vc .i8x4 0xFF010203 0x02020202)) (vOf 3 95) = some 10 := by decide +kernel  -- R122
theorem test_vsel_false_takes_b : got (exec (.vsel 3 1 2 false 1) (vc .b32 5 7)) (vOf 3 95) = some 7 := by decide +kernel  -- R123
theorem test_vsext_byte : got (exec (.vsext 3 1 0) (vc .i8x4 0x00000080 0)) (vOf 3 95) = some 0xFFFFFF80 := by decide +kernel  -- R124
theorem test_vneg_i8 : got (exec (.vneg 3 1) (vc .i8x4 0x01FF8000 0)) (vOf 3 95) = some 0xFF018000 := by decide +kernel  -- R124
theorem test_vmovs_scalar : got (exec (.vmovs 3 1) (vc .b32 9 0)) (vOf 3 95) = some 9 := by decide +kernel  -- R126
theorem test_fadd_f32 : got (exec (.fadd 3 1 2 .rne) (vc .f32 0x3F800000 0x40000000)) (vOf 3 95) = some 0x40400000 := by decide +kernel  -- R135
theorem test_fmul_signed_zero : got (exec (.fmul 3 1 2 .rne) (vc .f32 0x80000000 0x3F800000)) (vOf 3 95) = some 0x80000000 := by decide +kernel  -- R135
theorem test_fadd_rounds_up : got (exec (.fadd 3 1 2 .rup) (vc .f32 0x3F800000 0x00000001)) (vOf 3 95) = some 0x3F800001 := by decide +kernel  -- R135
theorem test_fadd_f16x2 : got (exec (.fadd 3 1 2 .rne) (vc .f16x2 0x3C003C00 0x40003C00)) (vOf 3 95) = some 0x42004000 := by decide +kernel  -- R135
theorem test_fneg_nan : got (exec (.fneg 3 1) (vc .f32 0x7FC00000 0)) (vOf 3 95) = some 0xFFC00000 := by decide +kernel  -- R138
theorem test_fabs_f16x2 : got (exec (.fabs 3 1) (vc .f16x2 0xBC008000 0)) (vOf 3 95) = some 0x3C000000 := by decide +kernel  -- R138
theorem test_cvt_i32_to_f32 : got (exec (.cvt 3 1 .f32 .rne) (vc .i32 3 0)) (vOf 3 95) = some 0x40400000 := by decide +kernel  -- R148
theorem test_cvt_f32_to_i32_saturates : got (exec (.cvt 3 1 .i32 .rtz) (vc .f32 0x7F800000 0)) (vOf 3 95) = some 0x7FFFFFFF := by decide +kernel  -- R148
theorem test_bra_back : got (exec (.bra 0x1FFFFFF) (s0)) (fun t => t.warp.sp.pc) = some (0x1FFFC) := by decide +kernel  -- R168
theorem test_brnz_taken : got (exec (.brnz 1 2) (sc 1 0)) (fun t => t.warp.sp.pc) = some (0x20008) := by decide +kernel  -- R168
theorem test_call_links : got (exec (.call 4 4) (s0)) (fun t => (t.warp.v64 4 0, t.warp.sp.pc)) = some (0x20004, 0x20010) := by decide +kernel  -- R171
theorem test_trap_enters : got (exec (.trap 5) (s0)) (fun t => (t.warp.sp.pc, t.warp.trapmask)) = some (0x30400, true) := by decide +kernel  -- R383
theorem test_bkpt_saves_pc : got (exec (.bkpt) (s0)) (fun t => t.warp.trappc) = some (0x20000) := by decide +kernel  -- R383
theorem test_clause_opens : got (exec (.clause ⟨3, false, 0, .i64, .dflt, .g96, .device, .relaxed⟩) (s0)) (fun t => (t.warp.sp.clause.isSome, t.warp.sp.pc)) = some (true, 0x20004) := by decide +kernel  -- R50
theorem test_srd_nwarps : got (exec (.srd 3 .nwarps) (s0)) (sOf 3) = some (1) := by decide +kernel  -- R105
theorem test_pand_false : got (exec (.pand 1 0 2) (s0)) (fun t => t.warp.p 1) = some (0) := by decide +kernel  -- R127
theorem test_xcount_all : got (exec (.xcount 3 0 0) (s0)) (written) = some ([96]) := by decide +kernel  -- R163
theorem test_ldg_reads : got (exec (.ldg 8 127 4 0) (((State.reset.withFetchWord 32 0x02000000).modWarp fun w => w.setS64 4 0x20000))) (written) = some ([0x02000000]) := by decide +kernel  -- R223
theorem test_exit_ends_warp : got (exec (.exit) (s0)) (fun t => t.warp.live) = some (false) := by decide +kernel  -- R174
theorem test_copy_overlap : (work0 (run0 .copy copy2 0)).copyOverlap ⟨0, 1, 0⟩ copy2 [] = [(0x50001, 0xFF)] := by decide +kernel  -- R310
theorem test_copy_apart : (work0 (run0 .copy copy1 0)).copyOverlaps ⟨0, 1, 0⟩ copy1 [] = false := by decide +kernel  -- R310
end Sys2Proof.Tests
end

section
/-! PROOFS. Registers read after they are written, and what a retired register write leaves as it was (R7, R49, R52, R98,
R100, R102). -/

namespace Sys2Proof.Machine

/-! The running split after a register write. -/

theorem Warp.setS_of_mask (w : Warp) (r : Reg) (v : Word) (h : 120 ≤ r.val ∧ r.val ≤ 122) :
    w.setS r v = w.modSp fun p => p.writeActive (r.val - 120) v := by
  rw [Warp.setS, if_neg (by omega), if_pos h]

theorem Warp.setS_sp_of_not_mask (w : Warp) (r : Reg) (v : Word) (h : r.val < 120 ∨ 122 < r.val) :
    (w.setS r v).sp = w.sp := by
  rw [Warp.setS, if_neg (show ¬(120 ≤ r.val ∧ r.val ≤ 122) by omega)]
  split <;> rfl

@[simp] theorem Warp.setS_sp_pc (w : Warp) (r : Reg) (v : Word) : (w.setS r v).sp.pc = w.sp.pc := by
  by_cases h : 120 ≤ r.val ∧ r.val ≤ 122
  · rw [w.setS_of_mask r v h, Warp.modSp_sp, Split.writeActive]
  · rw [w.setS_sp_of_not_mask r v (by omega)]

@[simp] theorem Warp.setS_sp_member (w : Warp) (r : Reg) (v : Word) : (w.setS r v).sp.member = w.sp.member := by
  by_cases h : 120 ≤ r.val ∧ r.val ≤ 122
  · rw [w.setS_of_mask r v h, Warp.modSp_sp, Split.writeActive]
  · rw [w.setS_sp_of_not_mask r v (by omega)]

@[simp] theorem Warp.setVNat_sp (w : Warp) (r : Reg) (n : Nat) (m : LaneMask) (f : Lane → Nat) :
    (w.setVNat r n m f).sp = w.sp := by
  simp [Warp.sp]
@[simp] theorem Warp.setP_sp (w : Warp) (k : PReg) (m bits : LaneMask) : (w.setP k m bits).sp = w.sp := by
  simp [Warp.sp]

/-! Lanes outside the mask of a write (R7). -/

theorem Warp.v_setV_of_not_has (w : Warp) (r q : Reg) (m : LaneMask) (f : Lane → Word) (l : Lane)
    (h : LaneMask.has m l = false) : (w.setV r m f).v q l = w.v q l := by
  by_cases e : q = r
  · rw [e, Warp.v_setV_self, h]; rfl
  · exact w.v_setV_ne r q m f l e

theorem Warp.v_setV64_of_not_has (w : Warp) (r q : Reg) (m : LaneMask) (f : Lane → DWord) (l : Lane)
    (h : LaneMask.has m l = false) : (w.setV64 r m f).v q l = w.v q l := by
  rw [Warp.setV64, Warp.v_setV_of_not_has _ _ _ _ _ _ h, Warp.v_setV_of_not_has _ _ _ _ _ _ h]

theorem Warp.v_setVNat_of_not_has (w : Warp) (r q : Reg) (n : Nat) (m : LaneMask) (f : Lane → Nat) (l : Lane)
    (h : LaneMask.has m l = false) : (w.setVNat r n m f).v q l = w.v q l := by
  unfold Warp.setVNat
  split
  · exact Warp.v_setV64_of_not_has _ _ _ _ _ _ h
  · rw [Warp.v_setV64_of_not_has _ _ _ _ _ _ h, Warp.v_setV64_of_not_has _ _ _ _ _ _ h]
  · exact Warp.v_setV_of_not_has _ _ _ _ _ _ h

/-- Settles O10: each register file by its read-after-write lemmas, the frame by those of the three writes. -/
theorem registerWritesChangeNothingElse : Obligations.RegisterWritesChangeNothingElse := by
  intro s w r q k j m bits v n h f g l
  refine ⟨⟨rfl, rfl, fun h0 => w.s_setS_self r v (fun e => h0 (Fin.ext e)), w.s_setS_mask r v, w.s_setS_ne r q v⟩,
    ⟨w.v_setV_self r m f l, w.v_setV_ne r q m f l, w.v64_setV64_self r m g l, ?_⟩,
    ⟨rfl, rfl, fun hk => ?_, w.p_setP_ne k j m bits⟩, ?_, by simp, by simp, by simp⟩
  · rintro (hq | hm)
    · refine w.v_setVNat_ne r q n m h l fun i hi e => hq i hi ?_
      rw [e, Fin.val_add]
      simp
    · exact w.v_setVNat_of_not_has r q n m h l hm
  · rw [w.p_setP_self k m bits (fun e => hk (Fin.ext e)), BitVec.or_comm]
  · rintro e (rfl | rfl | rfl)
    · refine ⟨rfl, ?_⟩
      simpa [Pc.next] using fun hr => congrArg Split.active (s.warp.setS_sp_of_not_mask r v hr)
    · exact ⟨rfl, by simp [Pc.next]⟩
    · exact ⟨rfl, by simp [Pc.next]⟩

end Sys2Proof.Machine
end

section
/-! PROOFS. Writes of special registers (R3, R54, R100, R109, R110, R384). -/

namespace Sys2Proof.Machine

/-- A warp-uniform special register that takes the value is set, and the instruction retires (R110). -/
theorem State.specialWrite_uniform (s : State) (i : Instr) (a : Reg) (n : SpecReg) (h : s.clearFor false)
    (hl : SpecReg.perLane n = false) (hw : SpecReg.writable n = true)
    (hc : n = .clausest → (clausestFields (s.warp.s a)).isSome = true) :
    s.specialWrite i a n = s.after fun w => w.writeSpecial n (s.warp.s a) := by
  have hn : (n == .clausest && (clausestFields (s.warp.s a)).isNone) = false := by
    by_cases e : n = .clausest
    · have := hc e
      simp_all
    · simp [e]
  unfold State.specialWrite
  simp only [hl]
  rw [State.issue_rule _ _ _ _ h (s.firstCause_scalar _ _ h.2 (by simp [hw]) rfl rfl rfl)]
  simp only [hn, Bool.false_eq_true, if_false]
  exact s.after_congr (g := fun w => w.writeSpecial n (w.s a)) rfl

/-- A CLAUSEST value that no clause word may hold traps UNDEF (R54). -/
theorem State.specialWrite_clausest_undef (s : State) (i : Instr) (a : Reg) (h : s.clearFor false) (hm : s.mayEnter)
    (hc : (clausestFields (s.warp.s a)).isNone = true) :
    s.specialWrite i a .clausest = s.entered .undef (BitVec.setWidth 64 (wordOf i)) := by
  have hl : SpecReg.perLane .clausest = false := rfl
  unfold State.specialWrite
  simp only [hl]
  rw [State.issue_rule _ _ _ _ h (s.firstCause_scalar _ _ h.2 rfl rfl rfl rfl)]
  simp only [hc]
  exact s.trapHere_enters _ _ h.2 hm (by decide)

/-- A write of one of s120 to s122 replaces that part of the activity mask (R100). -/
theorem Warp.setS_maskPart (w : Warp) (k : Fin 3) (v : Word) :
    w.setS ⟨120 + k.val, by omega⟩ v = w.modSp fun p => p.writeActive k.val v := by
  rw [w.setS_of_mask _ v ⟨Nat.le_add_right _ _, by dsimp only; omega⟩, Nat.add_sub_cancel_left]

/-- A lane's random counter is written in the lanes of the activity mask (R109, R110). -/
theorem State.specialWrite_counter (s : State) (i : Instr) (a : Reg) (n : SpecReg) (h : s.clearFor false)
    (hl : SpecReg.perLane n = true) (hw : SpecReg.writable n = true) (ha : s.within [a]) :
    s.specialWrite i a n = s.after fun w => w.writeLaneSpecial n a := by
  unfold State.specialWrite
  simp only [hl]
  rw [State.issue_rule _ _ _ _ h (s.firstCause_none _ _ h.2 (by simp [hw]) ?_ rfl)]
  · rfl
  · simpa [State.within] using ha

/-- Settles O16: every write but that of the mask is a `specialWrite`, and the mask is written part by part. -/
theorem specialRegisterWrites : Obligations.SpecialRegisterWrites := by
  intro s a k h
  have next {t u : State} (e : t = u) : (.next t : Host.Outcome State Fault Refusal) = .next u := congrArg _ e
  have uniform (i : Instr) (n : SpecReg) (hl : SpecReg.perLane n = false) (hw : SpecReg.writable n = true)
      (hn : n ≠ .clausest) := next (s.specialWrite_uniform i a n h hl hw fun e => absurd e hn)
  have clausest (i : Instr) (hc : (clausestFields (s.warp.s a)).isSome = true) :=
    next (s.specialWrite_uniform i a .clausest h rfl rfl fun _ => hc)
  have undef (i : Instr) (hc : (clausestFields (s.warp.s a)).isNone = true) (hm : s.mayEnter) :=
    next (s.specialWrite_clausest_undef i a h hm hc)
  refine ⟨uniform _ .fflags rfl rfl (by decide), uniform _ .fflags rfl rfl (by decide),
    uniform _ .trapmask rfl rfl (by decide), uniform _ .trapmask rfl rfl (by decide),
    uniform _ .rngstream rfl rfl (by decide), uniform _ .barcount rfl rfl (by decide),
    uniform _ .trappc rfl rfl (by decide), uniform _ .trappchi rfl rfl (by decide),
    fun hc => ⟨clausest _ hc, clausest _ hc⟩, fun hc hm => ⟨undef _ hc hm, undef _ hc hm⟩, fun ha => ⟨?_, ?_⟩,
    _, next (s.sun_clear _ _ _ _ h), fun j hj => ?_, by simp, ?_, by simp, by simp, rfl⟩
  · exact next ((s.specialWrite_counter _ a .rctr h rfl rfl ha).trans (State.after_congr rfl))
  · exact next ((s.specialWrite_counter _ a .rctrhi h rfl rfl ha).trans (State.after_congr rfl))
  · simp only [State.after_warp, Warp.retired_sp, Warp.modSp_sp, Split.advance_active, Warp.setS_maskPart]
    rw [Split.writeActive_part _ _ _ _ (by omega) hj]
    simp only [eq_comm]
  · simp [Warp.setS_maskPart]

end Sys2Proof.Machine
end

section
/-! PROOFS. Bytes of memory read back after they are written (R5). -/

namespace Sys2Proof.Machine

/-- Below every listed address a byte reads as an unlisted one. -/
theorem cellGet_of_forall_lt {m : List Host.Cell} {a : Nat} (h : ∀ c ∈ m, a < c.1) : cellGet m a = Memory.default := by
  induction m with
  | nil => rfl
  | cons c cs ih =>
    rw [cellGet, if_neg (Nat.ne_of_gt (h c List.mem_cons_self))]
    exact ih fun d hd => h d (List.mem_cons_of_mem _ hd)

theorem cellGet_cellSet {m : Memory} (hm : Memory.wf m = true) (a x : Nat) (v : Byte) :
    cellGet (cellSet m a v) x = if x = a then v else cellGet m x := by
  induction m with
  | nil =>
    by_cases hv : v = Memory.default <;> simp [cellSet, cellGet, hv, eq_comm]
  | cons c cs ih =>
    obtain ⟨hp, hd⟩ := (Memory.wf_iff _).1 hm
    obtain ⟨hlt, hcs⟩ := List.pairwise_cons.1 hp
    have ih := ih ((Memory.wf_iff _).2 ⟨hcs, fun d hd' => hd d (List.mem_cons_of_mem _ hd')⟩)
    have below (h : a ≤ c.1) : cellGet cs a = Memory.default :=
      cellGet_of_forall_lt fun d hd' => Nat.lt_of_le_of_lt h (hlt d hd')
    rcases Nat.lt_trichotomy a c.1 with h | h | h
    · have hv : v = Memory.default ∨ v ≠ Memory.default := em _
      obtain rfl | hx := eq_or_ne x a
      · obtain hv | hv := hv <;> simp [cellSet, cellGet, h, hv, h.ne', below h.le]
      · obtain hv | hv := hv <;> simp [cellSet, cellGet, h, hv, hx, hx.symm]
    · have hv : v = Memory.default ∨ v ≠ Memory.default := em _
      obtain rfl | hx := eq_or_ne x a
      · obtain hv | hv := hv <;> simp [cellSet, cellGet, ← h, hv, below h.le]
      · obtain hv | hv := hv <;> simp [cellSet, cellGet, ← h, hv, hx, hx.symm]
    · have hs : cellSet (c :: cs) a v = c :: cellSet cs a v := by
        rw [cellSet, if_neg (by omega), if_neg (by omega)]
      by_cases hx : c.1 = x
      · rw [hs, cellGet, cellGet, if_pos hx, if_pos hx, if_neg (by omega)]
      · rw [hs, cellGet, cellGet, if_neg hx, if_neg hx, ih]

theorem cellGet_cellsSet_outside {m : Memory} (hm : Memory.wf m = true) (a x : Nat) (bs : List Byte)
    (hx : x < a ∨ a + bs.length ≤ x) : cellGet (cellsSet m a bs) x = cellGet m x := by
  induction bs generalizing m a with
  | nil => rfl
  | cons b bs ih =>
    simp only [List.length_cons] at hx
    rw [cellsSet, ih (wf_cellSet hm a b) (a + 1) (by omega), cellGet_cellSet hm, if_neg (by omega)]

theorem cellGet_cellsSet_inside {m : Memory} (hm : Memory.wf m = true) (a : Nat) (bs : List Byte) (i : Nat)
    (h : i < bs.length) : cellGet (cellsSet m a bs) (a + i) = bs[i] := by
  induction bs generalizing m a i with
  | nil => cases h
  | cons b bs ih =>
    have hw := wf_cellSet hm a b
    cases i with
    | zero =>
      rw [cellsSet, cellGet_cellsSet_outside hw _ _ _ (by omega), cellGet_cellSet hm, if_pos (by omega)]
      rfl
    | succ i =>
      have := ih hw (a + 1) i (by simpa using h)
      rwa [Nat.add_right_comm, Nat.add_assoc] at this

theorem ofLeBytes_leBytes (n k : Nat) : ofLeBytes (leBytes n k) = k % 2 ^ (8 * n) := by
  induction n generalizing k with
  | zero => simp [leBytes, ofLeBytes, Nat.mod_one]
  | succ n ih =>
    rw [leBytes, ofLeBytes, ih, BitVec.toNat_ofNat, Nat.mul_succ, Nat.add_comm (8 * n) 8, Nat.pow_add, Nat.mod_mul]

/-- Settles O31, by induction on the cells and on the bytes written. -/
theorem byteMemoryReadAfterWrite : Obligations.ByteMemoryReadAfterWrite := by
  intro m hm a x v bs n k
  refine ⟨⟨?_, fun hx => ?_, wf_cellSet hm a v⟩,
    ⟨cellGet_cellsSet_inside hm a bs, cellGet_cellsSet_outside hm a x bs, wf_cellsSet bs hm a⟩, ofLeBytes_leBytes n k⟩
  · rw [cellGet_cellSet hm, if_pos rfl]
  · rw [cellGet_cellSet hm, if_neg hx]

end Sys2Proof.Machine
end

section
/-! PROOFS. The magnitudes of codes (R83, R84), and the fraction that a place leaves of a magnitude. -/

namespace Sys2Proof.Machine

/-! Magnitudes of codes. -/

/-- A unit in the last place is positive, whatever its exponent. -/
theorem two_zpow_pos (e : Int) : (0 : Rat) < 2 ^ e := zpow_pos two_pos e

theorem FFmt.magnitude_subnormal (F : FFmt) {n : Nat} (h : n < 2 ^ F.fb) : F.magnitude n = n * 2 ^ F.emin := by
  simp only [FFmt.magnitude, h, if_true]
  rfl

theorem FFmt.magnitude_normal (F : FFmt) (D : Nat) {n : Nat} (h : n < 2 ^ F.fb) :
    F.magnitude ((D + 1) * 2 ^ F.fb + n) = (2 ^ F.fb + n : Nat) * 2 ^ (F.emin + D) := by
  have hp : 0 < 2 ^ F.fb := by positivity
  have hle : ¬ (D + 1) * 2 ^ F.fb + n < 2 ^ F.fb := by
    rw [Nat.succ_mul]
    omega
  have hdiv : ((D + 1) * 2 ^ F.fb + n) / 2 ^ F.fb = D + 1 := by
    rw [Nat.add_comm, Nat.add_mul_div_right _ _ hp, Nat.div_eq_of_lt h, Nat.zero_add]
  have hmod : ((D + 1) * 2 ^ F.fb + n) % 2 ^ F.fb = n := by
    rw [Nat.add_comm, Nat.add_mul_mod_self_right, Nat.mod_eq_of_lt h]
  have he : 1 - (F.bias : Int) - F.fb + (D + 1 : Nat) - 1 = F.emin + D := by
    unfold FFmt.emin
    push_cast
    omega
  simp only [FFmt.magnitude, hle, if_false, hdiv, hmod, he]

/-- The code `D` binades above the smallest place, with significand `n`: up to the first code of the next binade. -/
theorem FFmt.magnitude_place (F : FFmt) (D n : Nat) (h : D = 0 ∨ 2 ^ F.fb ≤ n) (hn : n ≤ 2 ^ (F.fb + 1)) :
    F.magnitude (D * 2 ^ F.fb + n) = n * 2 ^ (F.emin + D) := by
  have hp : 2 ^ (F.fb + 1) = 2 ^ F.fb + 2 ^ F.fb := by rw [pow_succ]; omega
  by_cases h1 : n < 2 ^ F.fb
  · obtain rfl : D = 0 := by omega
    simp [F.magnitude_subnormal h1]
  by_cases h2 : n < 2 ^ (F.fb + 1)
  · obtain ⟨f, rfl⟩ : ∃ f, n = 2 ^ F.fb + f := ⟨n - 2 ^ F.fb, by omega⟩
    rw [← F.magnitude_normal D (show f < 2 ^ F.fb by omega)]
    congr 1
    ring
  · obtain rfl : n = 2 ^ (F.fb + 1) := by omega
    have := F.magnitude_normal (D + 1) (n := 0) (by positivity)
    rw [show D * 2 ^ F.fb + 2 ^ (F.fb + 1) = (D + 1 + 1) * 2 ^ F.fb + 0 by ring, this]
    push_cast
    rw [← add_assoc, zpow_add₀ two_ne_zero _ 1]
    ring

/-! The fraction of a place. -/

/-- `θ` is the fraction `rem / unit`; with `more`, where the unit is fine enough for a draw, it lies above that and below the
next one. -/
structure IsFraction (rem unit : Nat) (more : Bool) (θ : Rat) : Prop where
  rem_lt : rem < unit
  exact_eq : more = false → θ * unit = rem
  above : more = true → rem < θ * unit
  below : more = true → θ * unit < rem + 1
  fine : more = true → 2 ^ 24 ∣ unit

namespace IsFraction
variable {rem unit : Nat} {more : Bool} {θ : Rat}

theorem unit_pos (h : IsFraction rem unit more θ) : (0 : Rat) < unit := by
  have := h.rem_lt
  exact_mod_cast (by omega : 0 < unit)

theorem rem_le (h : IsFraction rem unit more θ) : (rem : Rat) ≤ θ * unit := by
  cases more with
  | false => exact (h.exact_eq rfl).ge
  | true => exact (h.above rfl).le

theorem lt_succ_rem (h : IsFraction rem unit more θ) : θ * unit < rem + 1 := by
  cases more with
  | false => linarith [h.exact_eq rfl]
  | true => exact h.below rfl

theorem nonneg (h : IsFraction rem unit more θ) : 0 ≤ θ := by
  have := h.rem_le
  have := h.unit_pos
  by_contra hn
  nlinarith [Nat.cast_nonneg (α := Rat) rem]

theorem lt_one (h : IsFraction rem unit more θ) : θ < 1 := by
  have hr : (rem : Rat) + 1 ≤ unit := by exact_mod_cast h.rem_lt
  have := h.lt_succ_rem
  have := h.unit_pos
  by_contra hn
  nlinarith

theorem eq_zero_iff (h : IsFraction rem unit more θ) : θ = 0 ↔ rem = 0 ∧ more = false := by
  have hu := h.unit_pos
  cases more with
  | false =>
    have hp := h.exact_eq rfl
    simp only [and_true]
    exact ⟨fun e => by simpa [e, eq_comm] using hp, fun e => by simpa [e, hu.ne'] using hp⟩
  | true =>
    simp only [Bool.true_eq_false, and_false, iff_false]
    rintro rfl
    have := h.above rfl
    rw [zero_mul] at this
    exact absurd this (not_lt.2 (Nat.cast_nonneg rem))

theorem inexact_eq (h : IsFraction rem unit more θ) : (rem != 0 || more) = !decide (θ = 0) := by
  simp only [h.eq_zero_iff, Bool.decide_and, Bool.not_and]
  cases more <;> simp
  rfl

theorem even_of_more (h : IsFraction rem unit true θ) : ∃ u, unit = 2 * u := by
  obtain ⟨u, hu⟩ := h.fine rfl
  exact ⟨2 ^ 23 * u, by omega⟩

theorem half_le_iff (h : IsFraction rem unit more θ) : 1 ≤ 2 * θ ↔ unit ≤ 2 * rem := by
  rw [← le_mul_iff_one_le_left h.unit_pos, mul_assoc]
  cases more with
  | false =>
    rw [h.exact_eq rfl]
    exact_mod_cast Iff.rfl
  | true =>
    obtain ⟨u, rfl⟩ := h.even_of_more
    have h1 := h.above rfl
    have h2 := h.below rfl
    generalize θ * ((2 * u : Nat) : Rat) = p at h1 h2
    push_cast
    constructor
    · intro hp
      have : (u : Rat) < rem + 1 := by linarith
      have : u < rem + 1 := by exact_mod_cast this
      omega
    · intro hp
      have : (u : Rat) ≤ rem := by exact_mod_cast (by omega : u ≤ rem)
      linarith

theorem half_eq_iff (h : IsFraction rem unit more θ) : 2 * θ = 1 ↔ 2 * rem = unit ∧ more = false := by
  rw [← mul_eq_right₀ h.unit_pos.ne', mul_assoc]
  cases more with
  | false =>
    rw [h.exact_eq rfl, and_iff_left rfl]
    exact_mod_cast Iff.rfl
  | true =>
    obtain ⟨u, rfl⟩ := h.even_of_more
    have h1 := h.above rfl
    have h2 := h.below rfl
    generalize θ * ((2 * u : Nat) : Rat) = p at h1 h2
    simp only [Bool.true_eq_false, and_false, iff_false]
    intro hp
    obtain rfl : p = u := by push_cast at hp; linarith
    have : rem < u := by exact_mod_cast h1
    have : u < rem + 1 := by exact_mod_cast h2
    omega

theorem half_lt_iff (h : IsFraction rem unit more θ) : 1 < 2 * θ ↔ unit < 2 * rem ∨ 2 * rem = unit ∧ more = true := by
  have hle := h.half_le_iff
  have heq := h.half_eq_iff
  rw [lt_iff_le_and_ne, ne_comm, Ne, heq, hle]
  cases more <;> simp <;> omega

/-- What SR compares with the draw: the fraction in units of 2^-24 (R91). -/
theorem floor_draw (h : IsFraction rem unit more θ) : ⌊θ * 2 ^ 24⌋ = ((rem * 2 ^ 24 / unit : Nat) : Int) := by
  have hu := h.unit_pos
  have hpos : 0 < unit := by exact_mod_cast hu
  generalize hk : rem * 2 ^ 24 / unit = k
  have hlo : k * unit ≤ rem * 2 ^ 24 := hk ▸ Nat.div_mul_le_self _ _
  have hhi : rem * 2 ^ 24 < (k + 1) * unit := (Nat.div_lt_iff_lt_mul hpos).1 (by omega)
  have hlo : (k : Rat) * unit ≤ rem * 2 ^ 24 := by exact_mod_cast hlo
  have hlt : θ * unit * 2 ^ 24 < ((k + 1 : Nat) : Rat) * unit := by
    cases more with
    | false =>
      rw [h.exact_eq rfl]
      exact_mod_cast hhi
    | true =>
      obtain ⟨u, rfl⟩ := h.fine rfl
      have hnext : (rem + 1) * 2 ^ 24 ≤ (k + 1) * (2 ^ 24 * u) := by
        rw [Nat.mul_left_comm] at hhi ⊢
        omega
      have hnext : ((rem : Rat) + 1) * 2 ^ 24 ≤ ((k + 1 : Nat) : Rat) * (2 ^ 24 * u : Nat) := by exact_mod_cast hnext
      linarith [h.below rfl]
  have hle := h.rem_le
  rw [Int.floor_eq_iff, ← mul_le_mul_iff_left₀ hu, ← mul_lt_mul_iff_left₀ hu]
  push_cast at hlt ⊢
  constructor <;> linarith

end IsFraction

end Sys2Proof.Machine
end

section
/-! PROOFS. The rounding decision as one on the fraction, and a magnitude cut at a place (R90, R91). -/

namespace Sys2Proof.Machine

/-! Rounding away. -/

/-- Which neighbour a mode chooses depends only on the fraction between them. -/
theorem roundsAway_place (rm : Rm) (neg odd : Bool) (n w θ : Rat) (r : Nat) (hw : 0 < w) :
    roundsAway rm neg odd (n * w) ((n + 1) * w) ((n + θ) * w) r = roundsAway rm neg odd 0 1 θ r := by
  have hlt : n * w + (n + 1) * w < 2 * ((n + θ) * w) ↔ 0 + 1 < 2 * θ :=
    (by constructor <;> intro _ <;> linarith : _ ↔ (0 + 1) * w < 2 * θ * w).trans (mul_lt_mul_iff_left₀ hw)
  have hle : n * w + (n + 1) * w ≤ 2 * ((n + θ) * w) ↔ 0 + 1 ≤ 2 * θ :=
    (by constructor <;> intro _ <;> linarith : _ ↔ (0 + 1) * w ≤ 2 * θ * w).trans (mul_le_mul_iff_left₀ hw)
  have heq : 2 * ((n + θ) * w) = n * w + (n + 1) * w ↔ 2 * θ = 0 + 1 :=
    (by constructor <;> intro _ <;> linarith : _ ↔ 2 * θ * w = (0 + 1) * w).trans (mul_left_inj' hw.ne')
  have hfr : ((n + θ) * w - n * w) / ((n + 1) * w - n * w) = (θ - 0) / (1 - 0) := by
    rw [show (n + θ) * w - n * w = θ * w by ring, show (n + 1) * w - n * w = w by ring, mul_div_cancel_right₀ _ hw.ne']
    ring
  unfold roundsAway
  simp only [hlt, hle, heq, hfr]

/-- The model's rounding decision is that of the fraction, where there is one (R90, R91). -/
theorem IsFraction.roundsUp_eq {rem unit : Nat} {more : Bool} {θ : Rat} (h : IsFraction rem unit more θ) (rm : Rm) (neg : Bool)
    (n r : Nat) : roundsUp rm neg n rem unit more r = (!decide (θ = 0) && roundsAway rm neg (n % 2 == 1) 0 1 θ r) := by
  have h0 : θ = 0 → ¬ unit ≤ 2 * rem := by
    rw [← h.half_le_iff]
    rintro rfl
    norm_num
  have hlt := h.half_lt_iff
  have heq := h.half_eq_iff
  cases rm with
  | dflt | rne =>
    simp only [roundsUp, roundsAway, zero_add, hlt, heq]
    by_cases e : θ = 0
    · have := h0 e
      simp [e, show ¬ unit < 2 * rem by omega, show ¬ 2 * rem = unit by omega]
    · cases more <;> simp [e, Bool.beq_eq_decide_eq]
  | rtz => simp [roundsUp, roundsAway]
  | rup | rdn => simp only [roundsUp, roundsAway, h.inexact_eq]
  | rna =>
    simp only [roundsUp, roundsAway, zero_add, h.half_le_iff]
    by_cases e : θ = 0 <;> simp [e, h0]
  | sr =>
    simp only [roundsUp, roundsAway, h.inexact_eq, sub_zero, div_one, h.floor_draw]
    norm_cast

/-! Magnitudes. -/

/-- `v` is a magnitude that `x` stands for. -/
structure Mag.Holds (x : Mag) (v : Rat) : Prop where
  exact_eq : x.more = false → v = x.m * 2 ^ x.e
  above : x.more = true → x.m * 2 ^ x.e < v
  below : x.more = true → v < (x.m + 1) * 2 ^ x.e

/-- A magnitude in units of its own place. -/
theorem Mag.Holds.exists_units {x : Mag} {v : Rat} (h : x.Holds v) :
    ∃ t : Rat, v = t * 2 ^ x.e ∧ (x.more = false → t = x.m) ∧ (x.more = true → x.m < t) ∧ (x.more = true → t < x.m + 1) := by
  have hp := two_zpow_pos x.e
  refine ⟨v / 2 ^ x.e, (div_mul_cancel₀ v hp.ne').symm, fun e => ?_, fun e => (lt_div_iff₀ hp).2 (h.above e),
    fun e => (div_lt_iff₀ hp).2 (h.below e)⟩
  rw [h.exact_eq e, mul_div_cancel_right₀ _ hp.ne']

theorem Mag.Holds.exists_units_between {x : Mag} {v : Rat} (h : x.Holds v) :
    ∃ t : Rat, v = t * 2 ^ x.e ∧ x.m ≤ t ∧ t < x.m + 1 := by
  obtain ⟨t, hv, he, ha, hb⟩ := h.exists_units
  refine ⟨t, hv, ?_⟩
  cases hm : x.more with
  | false => simp [he hm]
  | true => exact ⟨(ha hm).le, hb hm⟩

theorem Mag.two_pow_top_le {x : Mag} {v : Rat} (h : x.Holds v) (hm : x.m ≠ 0) : 2 ^ x.top ≤ v := by
  obtain ⟨t, rfl, ht, -⟩ := h.exists_units_between
  have hl : ((2 ^ floorLog2 x.m : Nat) : Rat) ≤ x.m := by exact_mod_cast Nat.log2_self_le hm
  rw [Mag.top, zpow_add₀ two_ne_zero, zpow_natCast]
  push_cast at hl
  exact mul_le_mul_of_nonneg_right (hl.trans ht) (two_zpow_pos _).le

theorem Mag.lt_two_pow_top {x : Mag} {v : Rat} (h : x.Holds v) : v < 2 ^ (x.top + 1) := by
  obtain ⟨t, rfl, -, ht⟩ := h.exists_units_between
  have hl : ((x.m + 1 : Nat) : Rat) ≤ (2 ^ (floorLog2 x.m + 1) : Nat) := by exact_mod_cast Nat.lt_log2_self
  rw [Mag.top, add_right_comm, zpow_add₀ two_ne_zero, ← Nat.cast_succ, zpow_natCast]
  push_cast at hl
  exact mul_lt_mul_of_pos_right (ht.trans_le hl) (two_zpow_pos _)

/-- A place cuts a magnitude into a whole number of units and a fraction of one. -/
theorem Mag.split_spec {x : Mag} {v : Rat} (h : x.Holds v) (q : Int) (hq : x.more = true → x.e + 24 ≤ q) :
    ∃ θ, IsFraction (x.split q).2.1 (x.split q).2.2 x.more θ ∧ v = ((x.split q).1 + θ) * 2 ^ q := by
  obtain ⟨t, rfl, he, ha, hb⟩ := h.exists_units
  unfold Mag.split
  dsimp only
  split
  · next hs =>
    have hmore : x.more = false := by
      by_contra hn
      have := hq (by simpa using hn)
      omega
    refine ⟨0, ⟨Nat.one_pos, by simp, by simp [hmore], by simp [hmore], by simp [hmore]⟩, ?_⟩
    have hu : (2 : Rat) ^ x.e = (2 ^ (-(q - x.e)).toNat : Nat) * 2 ^ q := by
      push_cast
      rw [← zpow_natCast, ← zpow_add₀ two_ne_zero]
      congr 1
      omega
    rw [he hmore, hu]
    push_cast
    ring
  · next hs =>
    generalize hu : 2 ^ (q - x.e).toNat = u
    have hpos : 0 < u := hu ▸ by positivity
    have hposR : (0 : Rat) < u := by exact_mod_cast hpos
    have hdm : (u : Rat) * (x.m / u : Nat) + (x.m % u : Nat) = x.m := by exact_mod_cast Nat.div_add_mod x.m u
    have hθ : (t / u - (x.m / u : Nat)) * u = t - x.m + (x.m % u : Nat) := by
      rw [sub_mul, div_mul_cancel₀ _ hposR.ne', ← hdm]
      ring
    refine ⟨t / u - (x.m / u : Nat), ⟨Nat.mod_lt _ hpos, fun e => ?_, fun e => ?_, fun e => ?_, fun e => ?_⟩, ?_⟩
    · rw [hθ, he e]; ring
    · rw [hθ]; linarith [ha e]
    · rw [hθ]; linarith [hb e]
    · have := hq e
      exact hu ▸ pow_dvd_pow 2 (by omega)
    · have hq' : (2 : Rat) ^ q = u * 2 ^ x.e := by
        rw [← hu]
        push_cast
        rw [← zpow_natCast, ← zpow_add₀ two_ne_zero]
        congr 1
        omega
      rw [hq', add_sub_cancel, ← mul_assoc, div_mul_cancel₀ _ hposR.ne']

end Sys2Proof.Machine
end

section
/-! PROOFS. RoundTo of a magnitude, with its tininess, on the exact values it stands for (R8, R90, R91, R93). -/

namespace Sys2Proof.Machine

/-! A magnitude rounded at a place. -/

/-- The whole units of the place `q` that a magnitude is rounded to. -/
def Mag.roundedAt (x : Mag) (rm : Rm) (r : Nat) (neg : Bool) (q : Int) : Nat :=
  if roundsUp rm neg (x.split q).1 (x.split q).2.1 (x.split q).2.2 x.more r then (x.split q).1 + 1 else (x.split q).1

/-- A magnitude is not a whole number of units of the place `q`. -/
def Mag.inexactAt (x : Mag) (q : Int) : Bool := (x.split q).2.1 != 0 || x.more

theorem Mag.roundedAt_spec {x : Mag} {v : Rat} (h : x.Holds v) (rm : Rm) (r : Nat) (neg : Bool) (q : Int)
    (hq : x.more = true → x.e + 24 ≤ q) :
    ∃ (n : Nat) (θ : Rat), 0 ≤ θ ∧ θ < 1 ∧ v = (n + θ) * 2 ^ q ∧ x.inexactAt q = !decide (θ = 0) ∧
      x.roundedAt rm r neg q = if !decide (θ = 0) && roundsAway rm neg (n % 2 == 1) 0 1 θ r then n + 1 else n := by
  obtain ⟨θ, hθ, hv⟩ := Mag.split_spec h q hq
  exact ⟨(x.split q).1, θ, hθ.nonneg, hθ.lt_one, hv, hθ.inexact_eq, by rw [Mag.roundedAt, hθ.roundsUp_eq]⟩

/-- The magnitude is tiny after rounding, as the model finds it: from its highest bit, and from its rounding with the exponent's
range unbounded (R8, R91). -/
def FFmt.tinyMag (F : FFmt) (rm : Rm) (r : Nat) (neg : Bool) (x : Mag) : Bool :=
  decide (x.top < F.emin + F.fb) &&
    !(x.top == F.emin + F.fb - 1 && x.roundedAt rm r neg (x.top - F.fb) == 2 ^ (F.fb + 1))

/-- The code of `n` units of the place `q`. -/
def FFmt.codeAt (F : FFmt) (q : Int) (n : Nat) : Nat := if n < 2 ^ F.fb then n else (q - F.emin).toNat * 2 ^ F.fb + n

theorem FFmt.round_zero (F : FFmt) (rm : Rm) (r : Nat) (neg : Bool) (e : Int) :
    F.round rm r neg ⟨0, e, false⟩ = (if neg then F.signBit else 0, 0) := rfl

/-- A magnitude beyond the largest finite one goes to infinity, where there is one (R90, R93). -/
def overflowsToInf (rm : Rm) (neg : Bool) : Bool := match rm with
  | .rtz => false | .rup => !neg | .rdn => neg | _ => true

/-- RoundTo of a nonzero magnitude, by its rounding at the quantum. -/
theorem FFmt.round_of_ne_zero (F : FFmt) (rm : Rm) (r : Nat) (neg : Bool) (x : Mag) (hm : x.m ≠ 0) :
    F.round rm r neg x =
      let code := F.codeAt (F.quantum x) (x.roundedAt rm r neg (F.quantum x))
      let sign := if neg then F.signBit else 0
      if F.maxCode < code then (sign + (if F.inf && overflowsToInf rm neg then F.infCode else F.maxCode), flOF ||| flNX)
      else (sign + code, if x.inexactAt (F.quantum x) then (if F.tinyMag rm r neg x then flUF ||| flNX else flNX) else 0) := by
  unfold FFmt.round
  rw [if_neg (by simp [hm])]
  simp only [hm, if_false]
  rfl

/-! The value lies between two neighbouring codes. -/

theorem FFmt.codeAt_eq (F : FFmt) {q : Int} {n : Nat} (h : q = F.emin ∨ 2 ^ F.fb ≤ n) :
    F.codeAt q n = (q - F.emin).toNat * 2 ^ F.fb + n := by
  unfold FFmt.codeAt
  split
  · rw [show (q - F.emin).toNat = 0 by omega, Nat.zero_mul, Nat.zero_add]
  · rfl

theorem FFmt.codeAt_succ (F : FFmt) {q : Int} {n : Nat} (h : q = F.emin ∨ 2 ^ F.fb ≤ n) :
    F.codeAt q (n + 1) = F.codeAt q n + 1 := by
  rw [F.codeAt_eq h, F.codeAt_eq (h.imp_right Nat.le_succ_of_le), add_assoc]

theorem FFmt.codeAt_mod_two (F : FFmt) (hf : 1 ≤ F.fb) (q : Int) (n : Nat) : F.codeAt q n % 2 = n % 2 := by
  obtain ⟨f, hf⟩ : ∃ f, F.fb = f + 1 := ⟨F.fb - 1, by omega⟩
  unfold FFmt.codeAt
  rw [hf, pow_succ, ← mul_assoc]
  split <;> omega

theorem FFmt.magnitude_codeAt (F : FFmt) {q : Int} {n : Nat} (hq : F.emin ≤ q) (hn : n ≤ 2 ^ (F.fb + 1))
    (h : q = F.emin ∨ 2 ^ F.fb ≤ n) : F.magnitude (F.codeAt q n) = n * 2 ^ q := by
  rw [F.codeAt_eq h, F.magnitude_place _ n (by omega) hn]
  congr 2
  omega

/-- At the quantum a magnitude has at most the significand's bits, and all of them unless it is subnormal. -/
theorem FFmt.quantum_bounds (F : FFmt) {x : Mag} {v : Rat} (h : x.Holds v) (hm : x.m ≠ 0) {n : Nat} {θ : Rat} (h0 : 0 ≤ θ)
    (h1 : θ < 1) (hv : v = (n + θ) * 2 ^ F.quantum x) :
    n < 2 ^ (F.fb + 1) ∧ (F.quantum x = F.emin ∨ 2 ^ F.fb ≤ n) := by
  have hw := two_zpow_pos (F.quantum x)
  constructor
  · have htop : x.top + 1 ≤ (F.fb + 1 : Nat) + F.quantum x := by
      have : x.top - F.fb ≤ F.quantum x := le_max_left _ _
      push_cast
      omega
    have hlt : n * 2 ^ F.quantum x < (2 ^ (F.fb + 1) : Nat) * (2 : Rat) ^ F.quantum x := by
      calc n * (2 : Rat) ^ F.quantum x ≤ v := by rw [hv]; nlinarith
        _ < 2 ^ (x.top + 1) := Mag.lt_two_pow_top h
        _ ≤ 2 ^ (((F.fb + 1 : Nat) : Int) + F.quantum x) := zpow_le_zpow_right₀ one_le_two htop
        _ = _ := by rw [zpow_add₀ two_ne_zero, zpow_natCast]; push_cast; rfl
    exact_mod_cast lt_of_mul_lt_mul_right hlt hw.le
  · by_cases hq : F.quantum x = F.emin
    · exact .inl hq
    have htop : x.top = (F.fb : Int) + F.quantum x := by
      have : F.quantum x = x.top - F.fb ∨ F.quantum x = F.emin := max_choice _ _
      omega
    have hlt : (2 ^ F.fb : Nat) * (2 : Rat) ^ F.quantum x < (n + 1 : Nat) * 2 ^ F.quantum x := by
      calc (2 ^ F.fb : Nat) * (2 : Rat) ^ F.quantum x = 2 ^ x.top := by
            rw [htop, zpow_add₀ two_ne_zero, zpow_natCast]; push_cast; rfl
        _ ≤ v := Mag.two_pow_top_le h hm
        _ < _ := by rw [hv]; push_cast; nlinarith
    have : 2 ^ F.fb < n + 1 := by exact_mod_cast lt_of_mul_lt_mul_right hlt hw.le
    exact .inr (by omega)

/-- The smallest normal magnitude is `N` halves of the smallest place. -/
theorem FFmt.magnitude_normal_min (F : FFmt) : ∃ (N : Nat) (w : Rat), N = 2 ^ (F.fb + 1) ∧ w = 2 ^ (F.emin - 1) ∧
    N * w = 2 ^ (F.emin + F.fb) ∧ F.magnitude (2 ^ F.fb) = N * w ∧ F.magnitude 1 / 2 = w := by
  have h1 := F.magnitude_place 0 1 (.inl rfl) Nat.one_le_two_pow
  have hn := F.magnitude_place 0 (2 ^ F.fb) (.inl rfl) (Nat.pow_le_pow_right two_pos (Nat.le_succ _))
  simp only [Nat.zero_mul, Nat.zero_add, Int.natCast_zero, add_zero] at h1 hn
  have he : (2 : Rat) ^ F.emin = 2 * 2 ^ (F.emin - 1) := by
    rw [← zpow_one_add₀ two_ne_zero]; congr 1; omega
  refine ⟨_, _, rfl, rfl, ?_, ?_, ?_⟩
  · rw [zpow_add₀ two_ne_zero, zpow_natCast, he]; push_cast; ring
  · rw [hn, he]; push_cast; ring
  · rw [h1, he]; push_cast; ring

/-- In the binade of `N` units below the smallest normal `N * w`, rounding stays below it just when the value lies up to the
last unit, or its rounding does not go up from there. -/
theorem rounded_ne_iff_tiny (rm : Rm) (neg : Bool) (r : Nat) {N n : Nat} {θ w : Rat} (hN : N % 2 = 0) (hn : n < N)
    (h0 : 0 ≤ θ) (h1 : θ < 1) (hw : 0 < w) :
    (!((if !decide (θ = 0) && roundsAway rm neg (n % 2 == 1) 0 1 θ r then n + 1 else n) == N)) =
      (decide ((n + θ) * w ≤ N * w - w) ||
        (decide ((n + θ) * w < N * w) && !roundsAway rm neg true (N * w - w) (N * w) ((n + θ) * w) r)) := by
  by_cases hlast : n + 1 = N
  · subst hlast
    have hodd : (n % 2 == 1) = true := by simp; omega
    have hlo : ((n + 1 : Nat) : Rat) * w - w = n * w := by push_cast; ring
    have hz : (n + θ) * w ≤ n * w ↔ θ = 0 := by
      rw [mul_le_mul_iff_left₀ hw]
      constructor <;> intro _ <;> linarith
    have hlt : (n + θ) * w < ((n + 1 : Nat) : Rat) * w := by push_cast; nlinarith
    rw [hlo, Nat.cast_succ, roundsAway_place rm neg true n w θ r hw, hodd]
    push_cast at hlt
    simp only [hz, hlt]
    cases decide (θ = 0) <;> cases roundsAway rm neg true 0 1 θ r <;> simp
  · have hle : (n + θ) * w ≤ N * w - w := by
      have : ((n + 2 : Nat) : Rat) ≤ N := by exact_mod_cast (by omega : n + 2 ≤ N)
      push_cast at this
      nlinarith
    rw [decide_eq_true hle, Bool.true_or]
    split <;> simp <;> omega

theorem FFmt.tinyMag_eq (F : FFmt) {x : Mag} {v : Rat} (h : x.Holds v) (hm : x.m ≠ 0) (rm : Rm) (r : Nat) (neg : Bool)
    (hx : x.more = true → x.e + 24 ≤ x.top - F.fb) : F.tinyMag rm r neg x = F.tinyRat rm neg v r := by
  obtain ⟨N, w, hN, hw, hNw, hnormal, hone⟩ := F.magnitude_normal_min
  have hpos : 0 < w := hw ▸ two_zpow_pos _
  have hge := Mag.two_pow_top_le h hm
  have hlt := Mag.lt_two_pow_top h
  unfold FFmt.tinyMag FFmt.tinyRat
  dsimp only
  rw [hone, hnormal, ← hN]
  rcases lt_trichotomy x.top (F.emin + F.fb - 1) with hT | hT | hT
  · have hhalf : v ≤ N * w / 2 := by
      have hh : (2 : Rat) ^ (F.emin + F.fb) = 2 * 2 ^ (F.emin + F.fb - 1) := by
        rw [← zpow_one_add₀ two_ne_zero]; congr 1; omega
      have : v ≤ 2 ^ (F.emin + F.fb - 1) := hlt.le.trans (zpow_le_zpow_right₀ one_le_two (by omega))
      linarith
    have h2 : (2 : Rat) ≤ N := by
      have : 1 ≤ 2 ^ F.fb := Nat.one_le_two_pow
      exact_mod_cast (by rw [hN, pow_succ]; omega : 2 ≤ N)
    have hle : v ≤ N * w - w := by nlinarith
    simp [hle, hT.ne, show x.top < F.emin + F.fb by omega]
  · obtain ⟨n, θ, h0, h1, hv, -, hr⟩ := Mag.roundedAt_spec h rm r neg (x.top - F.fb) hx
    rw [show x.top - F.fb = F.emin - 1 by omega, ← hw] at hv
    have hn : n < N := by
      rw [show x.top + 1 = F.emin + F.fb by omega, ← hNw] at hlt
      have : (n : Rat) * w < N * w := by nlinarith
      exact_mod_cast lt_of_mul_lt_mul_right this hpos.le
    rw [hr, hv, ← rounded_ne_iff_tiny rm neg r (by rw [hN, pow_succ]; omega) hn h0 h1 hpos]
    simp [hT]
  · have hle : N * w ≤ v := by
      rw [hNw]
      exact le_trans (zpow_le_zpow_right₀ one_le_two (by omega)) hge
    have hbelow : ¬ v ≤ N * w - w := by linarith
    simp [hle, hbelow, show ¬ x.top < F.emin + F.fb by omega]

/-- RoundTo of a magnitude is the rounding of every value that it stands for. -/
theorem FFmt.round_roundsTo (F : FFmt) (hf : 1 ≤ F.fb) {x : Mag} {v : Rat} (h : x.Holds v) (hm : x.m ≠ 0) (rm : Rm) (r : Nat)
    (neg : Bool) (hx : x.more = true → x.e + 24 ≤ x.top - F.fb) : F.RoundsTo rm r neg v (F.round rm r neg x) := by
  have hround := F.round_of_ne_zero rm r neg x hm
  have hq : F.emin ≤ F.quantum x := le_max_right _ _
  have hqt : x.top - F.fb ≤ F.quantum x := le_max_left _ _
  obtain ⟨n, θ, h0, h1, hv, hin, hr⟩ := Mag.roundedAt_spec h rm r neg (F.quantum x) fun e => (hx e).trans hqt
  obtain ⟨hn, hpl⟩ := F.quantum_bounds h hm h0 h1 hv
  generalize F.quantum x = q at *
  have hw := two_zpow_pos q
  have hlo := F.magnitude_codeAt hq hn.le hpl
  have hhi : F.magnitude (F.codeAt q n + 1) = (n + 1) * 2 ^ q := by
    rw [← F.codeAt_succ hpl, F.magnitude_codeAt hq hn (hpl.imp_right Nat.le_succ_of_le), Nat.cast_succ]
  have hex : v = F.magnitude (F.codeAt q n) ↔ θ = 0 := by
    rw [hlo, hv, mul_left_inj' hw.ne', add_eq_left]
  have haway : roundsAway rm neg (F.codeAt q n % 2 == 1) (F.magnitude (F.codeAt q n)) (F.magnitude (F.codeAt q n + 1)) v r =
      roundsAway rm neg (n % 2 == 1) 0 1 θ r := by
    rw [F.codeAt_mod_two hf, hlo, hhi, hv, roundsAway_place _ _ _ _ _ _ _ hw]
  have hcode (b : Bool) : F.codeAt q (if b then n + 1 else n) = if b then F.codeAt q n + 1 else F.codeAt q n := by
    rw [← F.codeAt_succ hpl]
    split <;> rfl
  refine ⟨F.codeAt q n, by rw [hlo, hv]; nlinarith, by rw [hhi, hv]; nlinarith, ?_⟩
  simp only [hround, hr, hin, F.tinyMag_eq h hm rm r neg hx, haway, hex, hcode]
  cases decide (θ = 0) <;> rfl

end Sys2Proof.Machine
end

section
/-! PROOFS. RoundTo and the values of codes, for the nine binary formats (R83, R84, R89, R93). -/

namespace Sys2Proof.Machine

/-- RoundTo of a finite value is its rounding. -/
theorem FFmt.ofVal_fin_roundsTo (F : FFmt) (hf : 1 ≤ F.fb) (rm : Rm) (r : Nat) (neg : Bool) (m : Nat) (e : Int) :
    F.RoundsTo rm r neg (m * 2 ^ e) (F.ofVal rm r (.fin neg m e)) := by
  show F.RoundsTo rm r neg (m * 2 ^ e) (F.round rm r neg ⟨m, e, false⟩)
  by_cases hm : m = 0
  · subst hm
    have h0 : F.magnitude 0 = 0 := by simp [F.magnitude_subnormal (n := 0) (by positivity)]
    have h1 : 0 < F.magnitude 1 := by
      have := F.magnitude_place 0 1 (.inl rfl) Nat.one_le_two_pow
      simp only [Nat.zero_mul, Nat.zero_add] at this
      rw [this]
      positivity
    refine ⟨0, by simp [h0], by simpa using h1, ?_⟩
    simp [h0, F.round_zero, FFmt.signBit]
  · have hx : (Mag.mk m e false).Holds (m * 2 ^ e) := ⟨fun _ => rfl, nofun, nofun⟩
    exact F.round_roundsTo hf hx hm rm r neg nofun

/-! The fields of a code. -/

theorem bitsOf_exponent (y fb eb : Nat) : bitsOf y fb eb = y % 2 ^ (eb + fb) / 2 ^ fb := by
  rw [bitsOf, Nat.add_comm eb, Nat.pow_add, Nat.mod_mul_right_div_self]

theorem bitsOf_fraction (y fb eb : Nat) : bitsOf y 0 fb = y % 2 ^ (eb + fb) % 2 ^ fb := by
  rw [bitsOf, pow_zero, Nat.div_one, Nat.mod_mod_of_dvd _ (pow_dvd_pow 2 (Nat.le_add_left fb eb))]

theorem bitsOf_eq_zero (v i : Nat) : (bitsOf v i 1 == 0) = !v.testBit i := by
  rw [← bitsOf_one]
  have : bitsOf v i 1 < 2 := Nat.mod_lt _ (by decide)
  rcases (by omega : bitsOf v i 1 = 0 ∨ bitsOf v i 1 = 1) with h | h <;> rw [h] <;> rfl

theorem FFmt.infCode_eq (F : FFmt) : F.infCode = (2 ^ F.eb - 1) * 2 ^ F.fb := by
  rw [FFmt.infCode, Nat.pow_add, Nat.sub_mul, Nat.one_mul]

/-- The exponent field is all ones from the code of infinity up. -/
theorem FFmt.exponent_eq_ones_iff (F : FFmt) {c : Nat} (hc : c < 2 ^ (F.eb + F.fb)) :
    c / 2 ^ F.fb = 2 ^ F.eb - 1 ↔ F.infCode ≤ c := by
  have hp : 0 < 2 ^ F.fb := by positivity
  have hlt : c / 2 ^ F.fb < 2 ^ F.eb := (Nat.div_lt_iff_lt_mul hp).2 (Nat.pow_add 2 F.eb F.fb ▸ hc)
  rw [F.infCode_eq, ← Nat.le_div_iff_mul_le hp]
  omega

/-- Exponent and fraction all ones: the last code. -/
theorem FFmt.fields_eq_ones_iff (F : FFmt) {c : Nat} (hc : c < 2 ^ (F.eb + F.fb)) :
    (c / 2 ^ F.fb = 2 ^ F.eb - 1 ∧ c % 2 ^ F.fb = 2 ^ F.fb - 1) ↔ c = 2 ^ (F.eb + F.fb) - 1 := by
  have hp : 0 < 2 ^ F.fb := by positivity
  have hle : 2 ^ F.fb ≤ 2 ^ (F.eb + F.fb) := Nat.pow_le_pow_right two_pos (Nat.le_add_left _ _)
  have hcode : c / 2 ^ F.fb = 2 ^ F.eb - 1 → c = F.infCode + c % 2 ^ F.fb := fun h => by
    rw [F.infCode_eq, ← h, Nat.div_add_mod']
  have hones := F.exponent_eq_ones_iff hc
  have hinf : F.infCode = 2 ^ (F.eb + F.fb) - 2 ^ F.fb := rfl
  constructor
  · rintro ⟨h1, h2⟩
    have := hcode h1
    omega
  · intro h
    have h1 := hones.2 (by omega)
    have := hcode h1
    exact ⟨h1, by omega⟩

/-- What a code beyond the largest finite one is (R83, R84). -/
theorem FFmt.maxCode_lt_iff (F : FFmt) (he : 1 ≤ F.eb) {c : Nat} (hc : c < 2 ^ (F.eb + F.fb)) : F.maxCode < c ↔
    (F.inf && c / 2 ^ F.fb == 2 ^ F.eb - 1) = true ∨
      (F.nan && !F.inf && c / 2 ^ F.fb == 2 ^ F.eb - 1 && c % 2 ^ F.fb == 2 ^ F.fb - 1) = true := by
  have hones := F.exponent_eq_ones_iff hc
  have hlast := F.fields_eq_ones_iff hc
  have hle : 2 * 2 ^ F.fb ≤ 2 ^ (F.eb + F.fb) := by
    rw [← pow_succ']
    exact Nat.pow_le_pow_right two_pos (by omega)
  have hp : 0 < 2 ^ F.fb := by positivity
  have hinf : F.infCode = 2 ^ (F.eb + F.fb) - 2 ^ F.fb := rfl
  unfold FFmt.maxCode
  cases F.inf with
  | true => 
    simp [hones]
    omega
  | false => cases F.nan <;> simp [hlast] <;> omega

/-- The codes up to the largest finite one (R83, R84). -/
theorem FFmt.decode_finite (F : FFmt) (he : 1 ≤ F.eb) (y : Nat) (hc : ¬ F.maxCode < y % 2 ^ (F.eb + F.fb)) :
    ∃ m e, F.decode y = .fin (y.testBit (F.eb + F.fb)) m e ∧ (m : Rat) * 2 ^ e = F.magnitude (y % 2 ^ (F.eb + F.fb)) := by
  rw [F.maxCode_lt_iff he (Nat.mod_lt _ (by positivity)), not_or, Bool.not_eq_true, Bool.not_eq_true] at hc
  simp only [FFmt.decode, bitsOf_exponent y F.fb F.eb, bitsOf_fraction y F.fb F.eb, bitsOf_one, hc, Bool.false_eq_true, if_false]
  generalize y % 2 ^ (F.eb + F.fb) = c
  have hdm := Nat.div_add_mod' c (2 ^ F.fb)
  have hmod : c % 2 ^ F.fb < 2 ^ F.fb := Nat.mod_lt _ (by positivity)
  cases hE : c / 2 ^ F.fb with
  | zero =>
    rw [hE, Nat.zero_mul, Nat.zero_add] at hdm
    exact ⟨_, _, rfl, by rw [← F.magnitude_subnormal hmod, hdm]⟩
  | succ E =>
    have hm := F.magnitude_normal E hmod
    rw [hE] at hdm
    rw [hdm] at hm
    refine ⟨_, _, rfl, ?_⟩
    rw [hm]
    congr 2
    push_cast
    ring

/-- The codes beyond it: infinity, and NaNs, whose top fraction bit is 0 in the signalling ones (R83, R84, R89). -/
theorem FFmt.decode_special (F : FFmt) (he : 1 ≤ F.eb) (hf : 1 ≤ F.fb) (y : Nat) (hc : F.maxCode < y % 2 ^ (F.eb + F.fb)) :
    F.decode y = if F.inf && y % 2 ^ (F.eb + F.fb) == F.infCode then .inf (y.testBit (F.eb + F.fb))
      else .nan (F.inf && F.eb + F.fb != 7 && !(y % 2 ^ (F.eb + F.fb)).testBit (F.fb - 1)) := by
  rw [F.maxCode_lt_iff he (Nat.mod_lt _ (by positivity))] at hc
  simp only [FFmt.decode, bitsOf_exponent y F.fb F.eb, bitsOf_fraction y F.fb F.eb, bitsOf_one, bitsOf_eq_zero]
  generalize y % 2 ^ (F.eb + F.fb) = c at hc
  rcases hc with hc | hc
  · obtain ⟨hinf, hex⟩ := Bool.and_eq_true_iff.1 hc
    have hdm := Nat.div_add_mod' c (2 ^ F.fb)
    have hcode : (c % 2 ^ F.fb == 0) = (c == F.infCode) := by
      rw [F.infCode_eq, ← beq_iff_eq.1 hex, Bool.eq_iff_iff, beq_iff_eq, beq_iff_eq]
      omega
    have hbit : (c % 2 ^ F.fb).testBit (F.fb - 1) = c.testBit (F.fb - 1) := by
      rw [Nat.testBit_mod_two_pow, decide_eq_true (by omega), Bool.true_and]
    simp only [hex, if_true, hcode, hbit, hinf, Bool.true_and]
  · have hinf : F.inf = false := by
      cases h : F.inf <;> simp [h] at hc ⊢
    rw [hinf] at hc
    simp only [hc, hinf, Bool.false_and, Bool.false_eq_true, if_false, if_true]

/-! NaNs and infinities narrowed to a format. -/

theorem FFmt.ofVal_inf (F : FFmt) (rm : Rm) (r : Nat) (neg : Bool) : F.ofVal rm r (.inf neg) =
    if F.inf then ((if neg then F.signBit else 0) + F.infCode, 0) else ((if neg then F.signBit else 0) + F.maxCode, flNV) :=
  rfl

/-- The nine binary formats of the table (R83, R84). -/
def binaryFormats : List FFmt := [f64F, f32F, f16F, bf16F, e4m3F, e5m2F, e2m3F, e3m2F, e2m1F]

/-- What RoundTo needs of a format, and which of the nine have infinities, signalling NaNs and no NaN. -/
theorem binaryFormats_facts : ∀ F ∈ binaryFormats, 1 ≤ F.eb ∧ 1 ≤ F.fb ∧
    (F.inf && F.eb + F.fb != 7) = decide (F ∈ [f64F, f32F, f16F, bf16F]) ∧
    F.inf = !decide (F ∈ [e4m3F, e2m3F, e3m2F, e2m1F]) ∧ F.nan = !decide (F ∈ [e2m3F, e3m2F, e2m1F]) := by
  decide

/-- Settles O24: codes by their fields, finite values by the rounding of a magnitude, NaNs and infinities by their table. -/
theorem roundToFollowsTheModes : Obligations.RoundToFollowsTheModes := by
  refine ⟨by decide, fun F hF => ?_⟩
  obtain ⟨he, hf, hieee, hinf, hnan⟩ := binaryFormats_facts F hF
  refine ⟨fun y _ => ?_, F.ofVal_fin_roundsTo hf, fun rm r => ⟨fun sig => ?_, fun neg => ?_⟩⟩
  · intro neg c ieee
    by_cases hc : c ≤ F.maxCode
    · rw [if_pos hc]
      exact F.decode_finite he y (not_lt.2 hc)
    · rw [if_neg hc, F.decode_special he hf y (not_le.1 hc), hieee, F.infCode_eq]
      split <;> rfl
  · show F.special (.nan sig) = _
    rw [FFmt.special, hnan, Bool.not_not]
  · dsimp only
    rw [F.ofVal_inf, hinf, F.infCode_eq]
    by_cases h : F ∈ [e4m3F, e2m3F, e3m2F, e2m1F]
    · rw [if_pos h, decide_eq_true h]; rfl
    · rw [if_neg h, decide_eq_false h]; rfl

end Sys2Proof.Machine
end

section
/-! PROOFS. Memory keeps its canonical form: how the form is carried through written-out states, choices, folds and pairs, and
what the ends of rules and of steps carry. Of a function that leaves memory as it is the lemma is an equivalence, of one that writes
an implication. -/

namespace Sys2Proof.Machine

/-- A state written out has the form when the memory it is given has it. -/
@[simp] theorem State.memWf_mk {x0 x1 x2 x3 x4 m x6 x7 x8 x9 x10 x11 x12 x13 x14 x15 x16 x17 x18 x19 x20 x21 x22 x23 x24 x25
    x26 x27 x28 x29 x30 x31 x32 x33 x34 x35 x36} :
    State.memWf ⟨x0, x1, x2, x3, x4, m, x6, x7, x8, x9, x10, x11, x12, x13, x14, x15, x16, x17, x18, x19, x20, x21, x22, x23,
      x24, x25, x26, x27, x28, x29, x30, x31, x32, x33, x34, x35, x36⟩ ↔ Memory.wf m = true :=
  Iff.rfl
@[simp] theorem State.wf_mem (s : State) : Memory.wf s.mem = true ↔ s.memWf := Iff.rfl

@[simp] theorem State.memWf_ite (c : Prop) [Decidable c] (s t : State) :
    (if c then s else t).memWf ↔ (c → s.memWf) ∧ (¬c → t.memWf) := by
  by_cases h : c <;> simp [h]
@[simp] theorem State.memWf_snd_ite {α : Type} (c : Prop) [Decidable c] (p q : α × State) :
    (if c then p else q).2.memWf ↔ (c → p.2.memWf) ∧ (¬c → q.2.memWf) := by
  by_cases h : c <;> simp [h]

/-- The state in a pair that a function has answered. -/
theorem State.memWf_snd {α : Type} {p : α × State} {a : α} {t : State} (e : p = (a, t)) (h : p.2.memWf) : t.memWf := by
  rw [e] at h; exact h
theorem State.memWf_fst {α : Type} {p : State × α} {a : α} {t : State} (e : p = (t, a)) (h : p.1.memWf) : t.memWf := by
  rw [e] at h; exact h

/-- A fold that carries a state beside what it gathers. -/
theorem memWf_snd_foldl {α β : Type} {f : β × State → α → β × State} (hf : ∀ p a, p.2.memWf → (f p a).2.memWf)
    (l : List α) {p : β × State} (h : p.2.memWf) : (l.foldl f p).2.memWf :=
  List.foldlRecOn (motive := fun p => p.2.memWf) l f h fun p hp a _ => hf p a hp
theorem memWf_fst_foldl {α β : Type} {f : State × β → α → State × β} (hf : ∀ p a, p.1.memWf → (f p a).1.memWf)
    (l : List α) {p : State × β} (h : p.1.memWf) : (l.foldl f p).1.memWf :=
  List.foldlRecOn (motive := fun p => p.1.memWf) l f h fun p hp a _ => hf p a hp

/-- The state that a rule ends in has the form. -/
def Res.memWf : Res → Prop
  | .done t | .moved t | .stay t | .trap t _ _ => t.memWf
@[simp] theorem Res.memWf_done (t : State) : (Res.done t).memWf ↔ t.memWf := Iff.rfl
@[simp] theorem Res.memWf_moved (t : State) : (Res.moved t).memWf ↔ t.memWf := Iff.rfl
@[simp] theorem Res.memWf_stay (t : State) : (Res.stay t).memWf ↔ t.memWf := Iff.rfl
@[simp] theorem Res.memWf_trap (t : State) (c : Cause) (a : DWord) : (Res.trap t c a).memWf ↔ t.memWf := Iff.rfl
@[simp] theorem Res.memWf_ite (c : Prop) [Decidable c] (r q : Res) :
    (if c then r else q).memWf ↔ (c → r.memWf) ∧ (¬c → q.memWf) := by
  by_cases h : c <;> simp [h]

/-- The next state that a step answers, if any, has the form. -/
def nextWf (o : Host.Outcome State Fault Refusal) : Prop := ∀ t, o = .next t → t.memWf
@[simp] theorem nextWf_next (t : State) : nextWf (.next t) ↔ t.memWf := by simp [nextWf]

/-- The state that a move answers, if it can be made, has the form. -/
def moveWf (o : Option State) : Prop := ∀ t, o = some t → t.memWf
@[simp] theorem moveWf_none : moveWf none := by simp [moveWf]
@[simp] theorem moveWf_some (t : State) : moveWf (some t) ↔ t.memWf := by simp [moveWf]
@[simp] theorem moveWf_ite (c : Prop) [Decidable c] (o q : Option State) :
    moveWf (if c then o else q) ↔ (c → moveWf o) ∧ (¬c → moveWf q) := by
  by_cases h : c <;> simp [h]
/-- A move that cannot be made leaves the state as it was. -/
@[simp] theorem moveWf.getD {o : Option State} (ho : moveWf o) {s : State} (h : s.memWf) : (o.getD s).memWf := by
  cases o with
  | none => exact h
  | some t => exact ho t rfl

end Sys2Proof.Machine
end

section
/-! PROOFS. Memory keeps its canonical form under translations, accesses of the fabric's agents, the records of the state, and the
accesses that are performed after their instruction has issued. -/

namespace Sys2Proof.Machine
variable {s : State}

/-! Accesses of the fabric's agents (R244). -/

theorem State.memWf_homeReadVa (h : s.memWf) (core ctx : Nat) (kind : AccessKind) (ho : Bool) (va n : Nat) :
    (s.homeReadVa core ctx kind ho va n).2.memWf := by
  refine memWf_snd_foldl (fun p c hp => ?_) _ h
  obtain ⟨_ | bs, u⟩ := p
  · exact hp
  · dsimp only
    split
    all_goals next e => exact State.memWf_snd e (State.memWf_translate hp ..)

theorem State.memWf_homeWriteVa (h : s.memWf) (core ctx : Nat) (kind : AccessKind) (ho : Bool) (va : Nat) (bytes : List Byte) :
    (s.homeWriteVa core ctx kind ho va bytes).2.memWf := by
  refine memWf_snd_foldl (fun p c hp => ?_) _ h
  obtain ⟨_ | x, u⟩ := p
  · dsimp only
    split
    all_goals next e => have := State.memWf_snd e (State.memWf_translate hp ..); simp [this, State.memWf_homeWrite]
  · exact hp

/-! The records of the state. -/

@[simp] theorem State.memWf_modWarp (s : State) (f : Warp → Warp) : (s.modWarp f).memWf ↔ s.memWf := Iff.rfl
@[simp] theorem State.memWf_modWarps (s : State) (p : Warp → Bool) (f : Warp → Warp) : (s.modWarps p f).memWf ↔ s.memWf := Iff.rfl
@[simp] theorem State.memWf_modWarpAt (s : State) (k : WarpKey) (f : Warp → Warp) : (s.modWarpAt k f).memWf ↔ s.memWf := Iff.rfl
@[simp] theorem State.memWf_modLaunch (s : State) (k : LaunchKey) (f : Launch → Launch) : (s.modLaunch k f).memWf ↔ s.memWf :=
  Iff.rfl
@[simp] theorem State.memWf_modGroup (s : State) (k : WgKey) (f : Workgroup → Workgroup) : (s.modGroup k f).memWf ↔ s.memWf :=
  Iff.rfl
@[simp] theorem State.memWf_modWg (s : State) (f : Workgroup → Workgroup) : (s.modWg f).memWf ↔ s.memWf := Iff.rfl
@[simp] theorem State.memWf_modContext_iff (s : State) (c : Nat) (f : Context → Context) : (s.modContext c f).memWf ↔ s.memWf :=
  Iff.rfl
@[simp] theorem State.memWf_modQueue (s : State) (q : Nat) (f : Queue → Queue) : (s.modQueue q f).memWf ↔ s.memWf := Iff.rfl
@[simp] theorem State.memWf_setCache_iff (s : State) (cl : Nat) (c : List CacheByte) : (s.setCache cl c).memWf ↔ s.memWf :=
  Iff.rfl
@[simp] theorem State.memWf_keepBeside (s : State) (ctx : Nat) : (s.keepBeside ctx).memWf ↔ s.memWf := Iff.rfl
@[simp] theorem State.memWf_tlbInvalidate_iff (s : State) (sel ctx va : Nat) : (s.tlbInvalidate sel ctx va).memWf ↔ s.memWf :=
  Iff.rfl
@[simp] theorem State.memWf_nameFrame (s : State) (ctx frame size : Nat) : (s.nameFrame ctx frame size).memWf ↔ s.memWf := by
  unfold State.nameFrame
  split <;> rfl

@[simp] theorem State.memWf_focus (s : State) (k : WarpKey) : (s.focus k).memWf ↔ s.memWf := by
  unfold State.focus
  split
  · rfl
  · split <;> rfl

/-- Work in another split keeps the form when the work does. -/
@[simp] theorem State.memWf_inSplit {f : State → State} (h : s.memWf) (hf : ∀ u : State, u.memWf → (f u).memWf) (k : WarpKey)
    (i : Fin 4) : (s.inSplit k i f).memWf := by
  have := hf ((s.focus k).modWarp fun w => { w with cur := i }) (by simpa)
  simpa [State.inSplit]

/-! Reads, writes and atomics at a place. -/

@[simp] theorem State.memWf_readSpot (h : s.memWf) (w : Writer) (cl : Nat) (narrow : Bool) (p : Spot) (n : Nat) :
    (s.readSpot w cl narrow p n).2.memWf := by
  cases p with
  | global pa key => exact State.memWf_lsRead n h _ cl narrow pa
  | buffer g b o => exact h

@[simp] theorem State.memWf_writeSpot (h : s.memWf) (w : Writer) (cl : Nat) (narrow : Bool) (p : Spot) (bytes : List Byte) :
    (s.writeSpot w cl narrow p bytes).memWf := by
  cases p with
  | global pa key => exact State.memWf_lsWrite bytes h _ cl narrow pa
  | buffer g b o => exact h

@[simp] theorem State.memWf_atomicAt (h : s.memWf) (w : Writer) (cl : Nat) (place : AtomicPlace) (op : AOp) (t : Ty) (hv : Halves)
    (p : Spot) (v c : Nat) : (s.atomicAt w cl place op t hv p v c).2.memWf := by
  cases p with
  | buffer g b o => exact h
  | global pa key =>
    refine State.memWf_lsWrite _ (State.memWf_lsRead _ ?_ ..) ..
    have hd (p : Nat → Bool) (l : List Nat) : (l.foldl (fun s k => s.dropWhere k p) s).memWf :=
      memWf_foldl (fun _ k ht => State.memWf_dropWhere ht k p) l h
    simp [h, hd, State.memWf_writeBackAll]

@[simp] theorem State.memWf_applyLanes (h : s.memWf) (w : Writer) (cl : Nat) (place : AtomicPlace) (op : AOp) (t : Ty)
    (hv : Halves) (l : List LateLane) : (s.applyLanes w cl place op t hv l).2.memWf := by
  refine memWf_snd_foldl (fun _ _ hp => ?_) _ h
  exact State.memWf_atomicAt hp ..

/-! What was left to be performed. -/

@[simp] theorem State.memWf_performLate (h : s.memWf) (x : LateWrite) : (s.performLate x).memWf := by
  unfold State.performLate
  split <;> simp [h, State.memWf_homeWrite]

@[simp] theorem State.memWf_performWrites (h : s.memWf) (p : LateWrite → Bool) : (s.performWrites p).memWf :=
  memWf_foldl (fun _ x ht => State.memWf_performLate ht x) _ h

@[simp] theorem State.memWf_performEngines (h : s.memWf) (k : WgKey) : (s.performEngines k).memWf := s.memWf_performWrites h _
@[simp] theorem State.memWf_performStream (h : s.memWf) (k : WgKey) (st : Fin 16) : (s.performStream k st).memWf :=
  State.memWf_performWrites h _
@[simp] theorem State.memWf_performStep (h : s.memWf) (k : WgKey) : (s.performStep k).memWf := State.memWf_performWrites h _
@[simp] theorem State.memWf_performTiles (h : s.memWf) (k : WgKey) : (s.performTiles k).memWf := State.memWf_performWrites h _

@[simp] theorem State.memWf_acquireAt (h : s.memWf) (sc : Scope) : (s.acquireAt sc).memWf := by
  simp [State.acquireAt, h, State.memWf_dropWhere]

@[simp] theorem State.memWf_performOp (h : s.memWf) (l : LongOp) (hv : Halves) : (s.performOp l hv).2.memWf := by
  unfold State.performOp
  dsimp only
  split
  · exact h
  · split
    · exact h
    · split
      · exact h
      · refine memWf_snd_foldl (fun _ _ hp => ?_) _ h
        exact State.memWf_readSpot hp ..
  · split
    · split <;> simp [h]
    · split <;> simp [h]

theorem State.memWf_performOps (p : LongOp → Bool) (l : List LongOp) (h : s.memWf) : (State.performOps p l s).memWf := by
  induction l generalizing s with
  | nil => exact h
  | cons x l ih =>
    have hx : (if p x then s.performOp x .both else (x, s)).2.memWf := by simp [h]
    exact ih hx

@[simp] theorem State.memWf_performLong (h : s.memWf) (p : LongOp → Bool) : (s.performLong p).memWf := by
  simp [State.performLong, h, State.memWf_performOps]

@[simp] theorem State.memWf_complete (h : s.memWf) (p : LongOp → Bool) : (s.complete p).memWf := by simp [State.complete, h]
@[simp] theorem State.memWf_drain (h : s.memWf) (p : LongOp → Bool) : (s.drain p).1.memWf := by simp [State.drain, h]
@[simp] theorem State.memWf_drainSplit (h : s.memWf) : s.drainSplit.1.memWf := by simp [State.drainSplit, h]

@[simp] theorem State.memWf_performOn (h : s.memWf) (k : WarpKey) (l : List (Spot × Nat)) : (s.performOn k l).memWf := by
  unfold State.performOn
  split
  · exact h
  · have := memWf_inSplit h (fun u hu => State.memWf_performLong hu (·.touches l)) k
    simp [h, this]

/-! Reductions. -/

@[simp] theorem State.memWf_performHalf (h : s.memWf) (w : Warp) (clock : Option Nat) (r : Reduction) (hv : Halves) :
    (s.performHalf w clock r hv).memWf := by
  simp [State.performHalf, h]

@[simp] theorem State.memWf_performRed (h : s.memWf) (w : Warp) (clock : Option Nat) (r : Reduction) :
    (s.performRed w clock r).memWf := by
  unfold State.performRed
  dsimp only
  split <;> simp [h]

@[simp] theorem State.memWf_flushReds (h : s.memWf) : s.flushReds.memWf :=
  memWf_foldl (fun _ r ht => State.memWf_performRed ht s.warp none r) _ h
@[simp] theorem State.memWf_flushPlain (h : s.memWf) : s.flushPlain.memWf := by simp [State.flushPlain, h]
@[simp] theorem State.memWf_flushOwn (h : s.memWf) : s.flushOwn.memWf := by simp [State.flushOwn, h]

@[simp] theorem State.memWf_redoLanes (s : State) (hit : WarpKey → WaitLane → Bool) : (s.redoLanes hit).memWf ↔ s.memWf := Iff.rfl
@[simp] theorem State.memWf_redoWaits (s : State) (sel ctx va : Nat) : (s.redoWaits sel ctx va).memWf ↔ s.memWf := Iff.rfl

@[simp] theorem State.memWf_performWithin (h : s.memWf) (pa n : Nat) : (s.performWithin pa n).memWf := by
  refine memWf_foldl (fun u w hu => ?_) _ (State.memWf_performWrites h _)
  simp +contextual [hu]

/-! The page engine's frames (R193 to R197). -/

theorem State.memWf_takeFrameFuel (ctx : Nat) (n : Nat) (h : s.memWf) : (State.takeFrameFuel ctx n s).2.memWf := by
  induction n generalizing s with
  | zero => exact h
  | succ n ih => simp [State.takeFrameFuel, h, ih, State.memWf_homeWrite]
@[simp] theorem State.memWf_takeFrame (h : s.memWf) (ctx : Nat) : (s.takeFrame ctx).2.memWf :=
  State.memWf_takeFrameFuel ctx _ h

@[simp] theorem State.memWf_setFrameRec (h : s.memWf) (ctx frame : Nat) (r : FrameRec) : (s.setFrameRec ctx frame r).memWf :=
  State.memWf_homeWrite _ h ..
@[simp] theorem State.memWf_setBucketEntry (h : s.memWf) (ctx b i : Nat) (valid : Bool) (print frame : Nat) :
    (s.setBucketEntry ctx b i valid print frame).memWf :=
  State.memWf_homeWrite _ h ..
@[simp] theorem State.memWf_unindex (h : s.memWf) (ctx b frame : Nat) : (s.unindex ctx b frame).memWf := by
  refine memWf_foldl (fun u i hu => ?_) _ h
  simp [hu]

@[simp] theorem State.memWf_cowServe (h : s.memWf) (ctx : Nat) (va : DWord) : (s.cowServe ctx va).2.memWf := by
  unfold State.cowServe
  split
  · exact h
  · extract_lets f u r write drop v
    have hu : u.memWf := State.memWf_performWithin h ..
    have hwrite {x : State} (e : DWord) (hx : x.memWf) : (write x e).memWf := State.memWf_homeWrite _ hx ..
    have hdrop {x : State} (hx : x.memWf) : (drop x).memWf := hx
    split
    · exact h
    · split
      · have ht := State.memWf_takeFrame hu ctx
        split
        · next e => exact State.memWf_snd e ht
        · next e =>
          have hg := State.memWf_dropAll (State.memWf_snd e ht)
          exact hdrop (State.memWf_setFrameRec (hwrite _ (State.memWf_setFrameRec (State.memWf_homeWrite _ (hg _) ..) ..)) ..)
      · have hv : v.memWf := by simp [v, hu]
        exact hdrop (hwrite _ hv)

theorem State.memWf_servedWriteFuel (ctx : Nat) (kind : AccessKind) (va : Nat) (bytes : List Byte) (n : Nat) (h : s.memWf) :
    (State.servedWriteFuel ctx kind va bytes n s).2.memWf := by
  induction n generalizing s with
  | zero => exact State.memWf_homeWriteVa h ..
  | succ n ih =>
    have hw := State.memWf_homeWriteVa h fabric ctx kind false va bytes
    unfold State.servedWriteFuel
    split
    · next e =>
      have hc := State.memWf_cowServe (State.memWf_snd e hw)
      split
      all_goals next e => have := State.memWf_snd e (hc ..); simp [this, ih]
    · exact hw
@[simp] theorem State.memWf_servedWrite (h : s.memWf) (ctx : Nat) (kind : AccessKind) (va : Nat) (bytes : List Byte) :
    (s.servedWrite ctx kind va bytes).2.memWf :=
  State.memWf_servedWriteFuel ctx kind va bytes _ h

end Sys2Proof.Machine
end

section
/-! PROOFS. Memory keeps its canonical form: the passing of an operation, from waits, parks and records to its issue, its
boundary and its fetch. -/

namespace Sys2Proof.Machine
variable {s : State}

@[simp] theorem State.memWf_freeBytes (s : State) (n : Nat) : (s.freeBytes n).2.memWf ↔ s.memWf := Iff.rfl
@[simp] theorem State.memWf_commitWaitFor (s : State) (upTo : Option Nat) : (s.commitWaitFor upTo).memWf ↔ s.memWf := by
  unfold State.commitWaitFor
  dsimp only
  split <;> rfl

@[simp] theorem State.memWf_commitWait (s : State) : s.commitWait.memWf ↔ s.memWf := by simp [State.commitWait]
@[simp] theorem State.memWf_setWait (s : State) (x : Wait) : (s.setWait x).memWf ↔ s.memWf := Iff.rfl
@[simp] theorem State.memWf_wake (s : State) (who : Warp → Bool) (p : Wait → Bool) (clock : Option Nat) :
    (s.wake who p clock).memWf ↔ s.memWf :=
  Iff.rfl

@[simp] theorem State.memWf_parkAt (s : State) (who : Requester) (ctx : Nat) (c : Option Cause) (k : AccessKind)
    (va : DWord) (long : Bool) (level : Nat) (malformed : Bool) :
    (s.parkAt who ctx c k va long level malformed).2.memWf ↔ s.memWf := by
  unfold State.parkAt
  dsimp only
  split <;> rfl

@[simp] theorem State.memWf_parkSplit (s : State) (c : Option Cause) (k : AccessKind) (va : DWord) (long : Bool)
    (level : Nat) (malformed : Bool) : (s.parkSplit c k va long level malformed).memWf ↔ s.memWf := by
  simp [State.parkSplit]

@[simp] theorem State.memWf_parkQueue (s : State) (q : Nat) (ctx : Nat) (x : XFault) (kind : AccessKind) (va : Nat) :
    (s.parkQueue q ctx x kind va).memWf ↔ s.memWf :=
  Iff.rfl

@[simp] theorem State.memWf_writeQueueRecord (h : s.memWf) (n : Nat) : (s.writeQueueRecord n).memWf := by
  unfold State.writeQueueRecord
  split
  · exact h
  · split
    · exact h
    · extract_lets wrote
      split
      all_goals
        next e =>
          have := State.memWf_snd e (State.memWf_servedWrite h ..)
          simp [wrote, this]

@[simp] theorem State.memWf_haltQueue (h : s.memWf) (n code detail : Nat) : (s.haltQueue n code detail).memWf := by
  unfold State.haltQueue
  split <;> simp [h]

@[simp] theorem State.memWf_quiet (h : s.memWf) (ctx : Nat) : (s.quiet ctx).memWf := by
  refine State.memWf_emptyCaches (memWf_foldl (fun u w hu => ?_) _ (State.memWf_performWrites h _))
  split
  · exact hu
  · exact State.memWf_inSplit hu (fun v hv => by simp [hv]) _ _

@[simp] theorem State.memWf_saveImage (h : s.memWf) (ctx addr : Nat) (mark : FaultMark) :
    (s.saveImage ctx addr mark).memWf := by
  simp [State.saveImage, h, State.memWf_homeWrite]

@[simp] theorem State.memWf_doubleFault (h : s.memWf) (c : Cause) : (s.doubleFault c).memWf := by
  unfold State.doubleFault
  split
  next u c e =>
    have hu : u.memWf := State.memWf_fst e (by split <;> simp [h])
    simp only [State.memWf_mk, State.wf_mem]
    refine memWf_foldl (fun _ q ht => State.memWf_haltQueue ht ..) _ ?_
    simp [hu]

@[simp] theorem State.memWf_takeTrap (h : s.memWf) (c : Cause) (addr : DWord) (pc li : Pc) :
    (s.takeTrap c addr pc li).memWf := by
  simp [State.takeTrap, h]

@[simp] theorem State.memWf_trapHere (h : s.memWf) (c : Cause) (addr : DWord) : (s.trapHere c addr).memWf := by
  unfold State.trapHere
  dsimp only
  split <;> simp [h]

@[simp] theorem State.memWf_trapWaiting (h : s.memWf) (c : Cause) (addr : DWord) : (s.trapWaiting c addr).memWf := by
  simp [State.trapWaiting, h]

/-- The states before and after a rule, of which one goes on into the trap. -/
@[simp] theorem State.memWf_raise {t : State} (h : s.memWf) (ht : t.memWf) (c : Cause) (addr : DWord) :
    (s.raise t c addr).memWf := by
  unfold State.raise
  split
  · next e => exact State.memWf_takeTrap (State.memWf_fst e (State.memWf_drainSplit h)) ..
  · exact State.memWf_trapHere ht ..

@[simp] theorem State.memWf_retire (s : State) : s.retire.memWf ↔ s.memWf := Iff.rfl
@[simp] theorem State.memWf_finish (s : State) {r : Res} (h : r.memWf) : (s.finish r).memWf := by
  cases r with
  | done t => exact h
  | moved t => exact h
  | stay t => exact h
  | trap t c a => exact State.memWf_trapHere h c a

/-- What comes before an instruction's own rule keeps the form, and the instruction does when its rule does. -/
@[simp] theorem State.memWf_issue {rule : State → Res} (h : s.memWf) (hr : ∀ u : State, u.memWf → (rule u).memWf) (i : Instr)
    (f : Form) : (s.issue i f rule).memWf := by
  unfold State.issue
  split
  · exact h
  · extract_lets full cur u v
    have hv : v.memWf := by simp [v, u, h]
    split
    next w t e =>
      have hw := State.memWf_fst e (State.memWf_drain hv _)
      split
      · exact State.memWf_takeTrap hw ..
      · split
        · exact State.memWf_trapHere hw ..
        · have := hr w hw
          split
          · next er => exact State.memWf_raise hw (by rw [er] at this; exact this) ..
          · exact State.memWf_finish w this

@[simp] theorem State.memWf_compute (h : s.memWf) (i : Instr) (f : Form) (g : Warp → Warp) : (s.compute i f g).memWf := by
  refine State.memWf_issue h (fun u hu => ?_) i f
  exact hu

@[simp] theorem State.memWf_faultRes (h : s.memWf) (x : XFault) (kind : AccessKind) (va : DWord) (long : Bool) :
    (s.faultRes x kind va long).memWf := by
  unfold State.faultRes
  split <;> simp [h]

@[simp] theorem State.memWf_fetch (h : s.memWf) : s.fetch.2.memWf := by
  unfold State.fetch
  dsimp only
  split
  · exact h
  · split
    all_goals next e => simpa using State.memWf_snd e (State.memWf_translate h ..)

@[simp] theorem State.memWf_enterWound (h : s.memWf) : s.enterWound.memWf := by
  unfold State.enterWound
  split
  · simp [h]
  · split
    · exact h
    · dsimp only
      split <;> simp [h]

@[simp] theorem State.memWf_atBoundary (h : s.memWf) : s.atBoundary.1.memWf := by
  unfold State.atBoundary
  split
  next u t e =>
    have hu : u.memWf := State.memWf_fst e (by split <;> simp [h])
    split
    · exact State.memWf_takeTrap hu ..
    · dsimp only
      split
      · exact hu
      · split
        · split <;> simp [hu]
        · split <;> simp [hu]

@[simp] theorem State.memWf_fetched (h : s.memWf) : s.fetched.2.memWf := by
  unfold State.fetched
  split
  all_goals next e => simpa using State.memWf_snd e (State.memWf_fetch h)

@[simp] theorem State.memWf_fetchFault (h : s.memWf) (x : XFault) : (s.fetchFault x).memWf :=
  State.memWf_finish s (State.memWf_faultRes h ..)

end Sys2Proof.Machine
end

section
/-! PROOFS. Memory keeps its canonical form: scalar and vector integer operations, and special registers. -/

namespace Sys2Proof.Machine
variable {s : State}

@[simp] theorem State.memWf_salu (h : s.memWf) (i : Instr) (d a b : Reg) (f : Word → Word → Word) :
    (s.salu i d a b f).memWf := by
  simp [State.salu, h]

@[simp] theorem State.memWf_sun (h : s.memWf) (i : Instr) (d a : Reg) (f : Word → Word) : (s.sun i d a f).memWf := by
  simp [State.sun, h]

@[simp] theorem State.memWf_salu64 (h : s.memWf) (i : Instr) (d a b : Reg) (f : DWord → DWord → DWord) :
    (s.salu64 i d a b f).memWf := by
  simp [State.salu64, h]

@[simp] theorem State.memWf_valu (h : s.memWf) (i : Instr) (d a b : Reg) (f : ElemOp) : (s.valu i d a b f).memWf := by
  simp [State.valu, h]

@[simp] theorem State.memWf_valuScalar (h : s.memWf) (i : Instr) (d a b : Reg) (f : ElemOp) :
    (s.valuScalar i d a b f).memWf := by
  simp [State.valuScalar, h]

@[simp] theorem State.memWf_valuImm (h : s.memWf) (i : Instr) (d a : Reg) (imm : BitVec 11) (f : ElemOp) :
    (s.valuImm i d a imm f).memWf := by
  simp [State.valuImm, h]

@[simp] theorem State.memWf_vmadBy (h : s.memWf) (i : Instr) (d a b : Reg) (f : Ty → Nat → Nat → Nat → Nat) :
    (s.vmadBy i d a b f).memWf := by
  simp [State.vmadBy, h]

@[simp] theorem State.memWf_vbit1 (h : s.memWf) (i : Instr) (d a : Reg) (f : Ty → Nat → Nat) : (s.vbit1 i d a f).memWf := by
  simp [State.vbit1, h]

@[simp] theorem State.memWf_vcarry (h : s.memWf) (i : Instr) (d a b : Reg) (f : Nat → Nat → Nat → Nat × Bool) :
    (s.vcarry i d a b f).memWf := by
  simp [State.vcarry, h]

@[simp] theorem State.memWf_vwiden (h : s.memWf) (i : Instr) (d a : Reg) (k : Fin 4) (signed : Bool) :
    (s.vwiden i d a k signed).memWf := by
  simp [State.vwiden, h]

@[simp] theorem State.memWf_vdivBy (h : s.memWf) (i : Instr) (d a b : Reg) (la : Fin 16) (f : Ty → Nat → Nat → Nat) :
    (s.vdivBy i d a b la f).memWf := by
  simp [State.vdivBy, h]

@[simp] theorem State.memWf_palu (h : s.memWf) (i : Instr) (d : PReg) (reads : List PReg) (f : Warp → LaneMask) :
    (s.palu i d reads f).memWf := by
  simp [State.palu, h]

@[simp] theorem State.memWf_specialRead (h : s.memWf) (i : Instr) (d : Reg) (n : SpecReg) : (s.specialRead i d n).memWf := by
  simp [State.specialRead, h]

@[simp] theorem State.memWf_specialWrite (h : s.memWf) (i : Instr) (a : Reg) (n : SpecReg) : (s.specialWrite i a n).memWf := by
  simp +contextual [State.specialWrite, h]

@[simp] theorem State.moveWf_growGrant (h : s.memWf) (n : Nat) : moveWf (s.growGrant n) := by simp [State.growGrant, h]
@[simp] theorem State.memWf_retryGrow (h : s.memWf) (k : WarpKey) (i : Fin 4) : (s.retryGrow k i).memWf := by
  unfold State.retryGrow
  split
  · exact h
  · split
    · refine State.memWf_inSplit h (fun u hu => ?_) k i
      split
      · next e => exact (State.memWf_retire _).2 (State.moveWf_growGrant hu _ _ e)
      · exact hu
    · exact h

@[simp] theorem State.memWf_retryGrows (h : s.memWf) : s.retryGrows.memWf :=
  memWf_foldl (fun _ k ht => memWf_foldl (fun _ i hu => State.memWf_retryGrow hu k i) _ ht) _ h

@[simp] theorem State.memWf_growDead (h : s.memWf) (g : WgKey) : (s.growDead g).memWf := by
  unfold State.growDead
  dsimp only
  split
  · split
    · split
      · exact State.memWf_inSplit h (fun u hu => State.memWf_trapWaiting hu ..) _ _
      · exact h
    · exact h
  · exact h

@[simp] theorem State.memWf_growTime (h : s.memWf) : s.growTime.memWf :=
  memWf_foldl (fun _ g ht => State.memWf_growDead ht g) _ (State.memWf_retryGrows h)

end Sys2Proof.Machine
end

section
/-! PROOFS. Memory keeps its canonical form: barriers, tickets and fences. -/

namespace Sys2Proof.Machine
variable {s : State}

@[simp] theorem State.memWf_giveOwn (s : State) : s.giveOwn.memWf ↔ s.memWf := by
  unfold State.giveOwn
  split <;> simp

@[simp] theorem State.memWf_releaseAt (h : s.memWf) (sc : Scope) : (s.releaseAt sc).memWf := by
  simp [State.releaseAt, h, State.memWf_writeBackWhere]

@[simp] theorem State.memWf_setBarrier (s : State) (k : WgKey) (n : Nat) (b : Barrier) :
    (s.setBarrier k n b).memWf ↔ s.memWf := by
  unfold State.setBarrier
  split <;> simp

@[simp] theorem State.memWf_testBarrier (h : s.memWf) (k : WgKey) (n clock : Nat) : (s.testBarrier k n clock).memWf := by
  simp [State.testBarrier, h]

@[simp] theorem State.memWf_arrive (h : s.memWf) (n : Nat) : (s.arrive n).memWf := by simp [State.arrive, h]
@[simp] theorem State.memWf_barrierWait (s : State) (n : Nat) : (s.barrierWait n).memWf ↔ s.memWf := by
  unfold State.barrierWait
  dsimp only
  split <;> rfl

@[simp] theorem State.memWf_barRule (h : s.memWf) (n : Nat) : (s.barRule n).memWf := by
  unfold State.barRule
  split
  · simp [h]
  · extract_lets k u
    have hu : u.memWf := State.memWf_arrive h n
    have hw : (u.barrierWait n).memWf := (u.memWf_barrierWait n).2 hu
    split
    · next e => exact State.memWf_testBarrier (by rw [e] at hw; exact hw) ..
    · exact hw

@[simp] theorem State.memWf_setTicket (s : State) (k : LaunchKey) (i : Fin 4) (t : Ticket) :
    (s.setTicket k i t).memWf ↔ s.memWf :=
  Iff.rfl

@[simp] theorem State.memWf_serveTickets (h : s.memWf) (k : LaunchKey) (i : Fin 4) (clock : Option Nat) :
    (s.serveTickets k i clock).memWf := by
  refine memWf_foldl (fun u key hu => ?_) _ h
  split
  · exact hu
  · simp [hu, State.memWf_dropWhere]

@[simp] theorem State.memWf_tkpassRule (h : s.memWf) (d : Reg) (k : Fin 4) (poison : Bool) :
    (s.tkpassRule d k poison).memWf := by
  simp [State.tkpassRule, h]

@[simp] theorem State.memWf_retireTickets (h : s.memWf) (g : Workgroup) (clock : Option Nat) :
    (s.retireTickets g clock).memWf := by
  refine memWf_foldl (fun u i hu => ?_) _ h
  simp [hu]

@[simp] theorem State.memWf_fenceRule (h : s.memWf) (p q : BitVec 6) (sc : Scope) : (s.fenceRule p q sc).memWf := by
  unfold State.fenceRule
  extract_lets a b c
  have ha : a.memWf := by simp [a, h]
  have hb : b.memWf := by simp [b, ha, State.memWf_dropWhere]
  have hc : c.memWf := by simp [c, hb, State.memWf_writeBackWhere]
  simp [hc]

end Sys2Proof.Machine
end

section
/-! PROOFS. Memory keeps its canonical form: the lock manager. -/

namespace Sys2Proof.Machine
variable {s : State}

@[simp] theorem State.memWf_endLocks (s : State) (k : WarpKey) (p : DWord → LkMode → Bool → Bool) (clock : Option Nat)
    (st : Word) : (s.endLocks k p clock st).memWf ↔ s.memWf := by
  unfold State.endLocks
  split <;> simp

@[simp] theorem State.memWf_lockAcquire (h : s.memWf) (w : WarpKey) : (s.lockAcquire w).memWf := by
  unfold State.lockAcquire
  split <;> simp [h, State.memWf_dropWhere]

@[simp] theorem State.memWf_lockRelease (h : s.memWf) : s.lockRelease.memWf := by
  simp [State.lockRelease, h, State.memWf_writeBackAll]

@[simp] theorem State.memWf_grant (h : s.memWf) (ctx : Nat) (clock : Option Nat) (r : LockReq) :
    (s.grant ctx clock r).memWf := by
  simp [State.grant, h]

@[simp] theorem State.memWf_refuseGrant (h : s.memWf) (ctx : Nat) (r : LockReq) : (s.refuseGrant ctx r).memWf := by
  unfold State.refuseGrant
  extract_lets u
  have hu : u.memWf := h
  split
  · exact State.memWf_inSplit hu (fun v hv => State.memWf_trapWaiting hv ..) ..
  · exact hu

@[simp] theorem State.memWf_woundWait (s : State) (w : WarpKey) (clock : Option Nat) :
    (s.woundWait w clock).memWf ↔ s.memWf := by
  simp [State.woundWait]

@[simp] theorem State.memWf_woundWarp (h : s.memWf) (r : LockReq) (w : WarpKey) : (s.woundWarp r w).memWf := by
  simp [State.woundWarp, h]

theorem State.memWf_lockSettle (ctx : Nat) (clock : Option Nat) (n : Nat) (h : s.memWf) :
    (State.lockSettle ctx clock n s).memWf := by
  induction n generalizing s with
  | zero => exact h
  | succ n ih =>
    unfold State.lockSettle
    split
    · exact h
    · split
      · exact h
      · split
        · exact ih (by simp [h])
        · split
          · exact ih (by simp [h])
          · split
            · exact ih (by simp [h])
            · exact h

@[simp] theorem State.memWf_settleLocks (h : s.memWf) (ctx : Nat) (clock : Option Nat) : (s.settleLocks ctx clock).memWf := by
  unfold State.settleLocks
  split
  · exact h
  · exact State.memWf_lockSettle _ _ _ h

@[simp] theorem State.memWf_clearWound (s : State) (w : WarpKey) : (s.clearWound w).memWf ↔ s.memWf := by
  unfold State.clearWound
  split
  · rfl
  · split <;> rfl

@[simp] theorem State.memWf_dropHolding (h : s.memWf) (w : WarpKey) (n : DWord) (clock : Option Nat) :
    (s.dropHolding w n clock).memWf := by
  simp [State.dropHolding, h]

@[simp] theorem State.memWf_exitLocks (h : s.memWf) (w : WarpKey) (clock : Option Nat) : (s.exitLocks w clock).memWf := by
  rw [State.exitLocks, State.memWf_modWarpAt]
  exact memWf_foldl (fun _ x ht => State.memWf_dropHolding ht ..) _ h

@[simp] theorem State.memWf_revokedWait (h : s.memWf) (d : Option Reg) (name : DWord) : (s.revokedWait d name).memWf := by
  unfold State.revokedWait
  split <;> simp [h]

@[simp] theorem State.memWf_revoke (h : s.memWf) (w : WarpKey) (clock : Option Nat) : (s.revoke w clock).memWf := by
  unfold State.revoke
  split
  · exact h
  · refine memWf_foldl (fun u k hu => ?_) _ (by simp [h])
    split
    · split
      · exact State.memWf_inSplit hu (fun v hv => State.memWf_revokedWait hv ..) ..
      · exact hu
    · exact hu

@[simp] theorem State.memWf_woundReach (h : s.memWf) (w : Warp) : (s.woundReach w).memWf := by
  unfold State.woundReach
  split
  · split
    · simp [h]
    · exact h
  · exact h

@[simp] theorem State.memWf_lockTime (h : s.memWf) : s.lockTime.memWf := by
  refine memWf_foldl (fun u k hu => ?_) _ (memWf_foldl (fun u c hu => ?_) _ h)
  · split
    · exact hu
    · dsimp only
      split <;> simp [hu]
  · simp [hu]

@[simp] theorem State.memWf_resumed (h : s.memWf) {rule : Res} (hr : rule.memWf) (d : Reg) (n : DWord) (m : LkMode)
    (up : Bool) : (s.resumed d n m up rule).memWf := by
  unfold State.resumed
  dsimp only
  split
  · exact h
  · split
    · simp [h]
    · exact hr

@[simp] theorem State.memWf_lockForm {rule : State → Res} (h : s.memWf) (hr : ∀ u : State, u.memWf → (rule u).memWf)
    (d : Reg) : (s.lockForm d rule).memWf := by
  unfold State.lockForm
  split
  · exact hr s h
  · dsimp only
    split <;> simp [h]

@[simp] theorem State.memWf_lockRequest (h : s.memWf) (d a : Reg) (m : LkMode) (isTry : Bool) :
    (s.lockRequest d a m isTry).memWf := by
  refine State.memWf_lockForm h (fun u hu => ?_) d
  extract_lets n key r c queued granted waiting afresh
  have ha : afresh.memWf := by
    simp [afresh, granted, waiting, hu]
  split
  · exact ha
  · exact State.memWf_resumed hu ha ..

end Sys2Proof.Machine
end

section
/-! PROOFS. Memory keeps its canonical form: handles, the page engine, and the retiring of workgroups and launches. -/

namespace Sys2Proof.Machine
variable {s : State}

@[simp] theorem State.memWf_setSlot (s : State) (home : WgKey) (i : Fin 16) (f : HandleSlot → HandleSlot) :
    (s.setSlot home i f).memWf ↔ s.memWf :=
  Iff.rfl

theorem State.memWf_tryTake (h : s.memWf) (k : WgKey) (filter : Word) : ∀ x, s.tryTake k filter = some x → x.2.memWf := by
  rintro ⟨v, t⟩ e
  unfold State.tryTake at e
  dsimp only at e
  split at e
  · simp_all
  · split at e
    · simp only [Option.some.injEq, Prod.mk.injEq] at e
      obtain ⟨_, rfl⟩ := e
      simp [h]
    · split at e <;> simp_all

@[simp] theorem State.memWf_serveTakes (h : s.memWf) (k : WgKey) (clock : Option Nat) : (s.serveTakes k clock).memWf := by
  refine memWf_foldl (fun u key hu => memWf_foldl (fun v j hv => ?_) _ hu) _ h
  split
  · split
    · split
      · next e => exact (State.memWf_modWarpAt ..).2 (State.memWf_tryTake hv _ _ _ e)
      · exact hv
    · exact hv
  · exact hv

@[simp] theorem State.memWf_othersWait (s : State) (l : List (Warp × Reduction)) : (s.othersWait l).memWf ↔ s.memWf := by
  unfold State.othersWait
  split <;> simp

@[simp] theorem State.memWf_flushGroup (h : s.memWf) (k : WgKey) : (s.flushGroup k).memWf :=
  memWf_foldl (fun _ w ht => State.memWf_inSplit ht (fun u hu => by simp [hu]) ..) _ (State.memWf_performWrites h _)

@[simp] theorem State.memWf_afterAccesses {rule : State → Res} (h : s.memWf) (hr : ∀ u : State, u.memWf → (rule u).memWf)
    (x : Word) (home : WgKey) (i : Fin 16) : (s.afterAccesses x home i rule).memWf := by
  simp [State.afterAccesses, h, hr]

@[simp] theorem State.memWf_zombieEnd (h : s.memWf) (home : WgKey) : (s.zombieEnd home).memWf := by
  unfold State.zombieEnd
  split <;> simp [h]

@[simp] theorem State.memWf_returnHandle (h : s.memWf) (home : WgKey) (i : Fin 16) : (s.returnHandle home i).memWf := by
  unfold State.returnHandle
  split <;> simp [h]

@[simp] theorem State.memWf_retireHandles (h : s.memWf) (k : WgKey) : (s.retireHandles k).1.memWf := by
  refine memWf_foldl (fun u x hu => ?_) _ h
  simp [hu]

@[simp] theorem State.memWf_dropPark (s : State) (id : Nat) : (s.dropPark id).memWf ↔ s.memWf := Iff.rfl
@[simp] theorem State.memWf_freshCode (s : State) (ctx : Nat) (core page : Option Nat) :
    (s.freshCode ctx core page).memWf ↔ s.memWf :=
  Iff.rfl

@[simp] theorem State.memWf_freshPark (s : State) (p : Park) : (s.freshPark p).memWf ↔ s.memWf := by simp [State.freshPark]
@[simp] theorem State.memWf_replay (h : s.memWf) (p : Park) : (s.replay p).memWf := by
  unfold State.replay
  split <;> simp [h]

@[simp] theorem State.memWf_offerPool (s : State) (p : Park) : (s.offerPool p).memWf ↔ s.memWf := Iff.rfl
@[simp] theorem State.memWf_queueFault (h : s.memWf) (q : Nat) (ctx : Nat) (x : XFault) (kind : AccessKind) (va : Nat) :
    (s.queueFault q ctx x kind va).memWf := by
  simp [State.queueFault, h]

@[simp] theorem State.memWf_carryAll (h : s.memWf) : s.carryAll.memWf :=
  memWf_foldl (fun _ a ht => State.memWf_l2Back ht a false) _ (State.memWf_emptyCaches (State.memWf_performWrites h _))

@[simp] theorem State.memWf_completeLaunch (h : s.memWf) (k : LaunchKey) : (s.completeLaunch k).memWf := by
  unfold State.completeLaunch
  split
  · exact h
  · split
    · exact h
    · extract_lets u done
      have hu : u.memWf := State.memWf_carryAll h
      have hdone {v : State} (hv : v.memWf) : (done v).memWf := hv
      split
      · exact hdone hu
      · have hw := State.memWf_servedWrite hu k.ctx .store
        split
        · next e => exact hdone (State.memWf_snd e (hw ..))
        · next e =>
          have hf := State.memWf_queueFault (State.memWf_snd e (hw ..))
          simp [hf, hdone]

@[simp] theorem State.memWf_retireGroup (h : s.memWf) (k : WgKey) : (s.retireGroup k).memWf := by
  unfold State.retireGroup
  split
  · exact h
  · extract_lets clock u
    have hu : u.memWf := State.memWf_writeBackWhere (State.memWf_performWrites h _) ..
    have hr := State.memWf_retireHandles hu k
    split
    next v loans e =>
      have hv : v.memWf := State.memWf_fst e hr
      refine State.memWf_completeLaunch (State.memWf_retryGrows ?_) _
      simp [hv]

@[simp] theorem State.memWf_drainGroup (h : s.memWf) (k : WgKey) : (s.drainGroup k).memWf := by
  unfold State.drainGroup
  split <;> simp [h]

@[simp] theorem State.memWf_exitWarp (h : s.memWf) (clock : Option Nat) : (s.exitWarp clock).memWf := by
  unfold State.exitWarp
  extract_lets w k released charged idle left draining
  have hi : idle.memWf := by simp [idle, charged, released, h]
  have hl : left.memWf := by simp [left, hi]
  have hd : draining.memWf := by simp [draining, hl]
  split
  · exact State.memWf_drainGroup (State.memWf_retryGrows hd) k
  · exact hl

@[simp] theorem State.memWf_leaveBarriers (h : s.memWf) (k : WgKey) (w : Warp) (gone : LaneMask) (clock : Nat) :
    (s.leaveBarriers k w gone clock).memWf := by
  refine memWf_foldl (fun u n hu => ?_) _ h
  simp [hu]

@[simp] theorem State.memWf_exitRule (h : s.memWf) : s.exitRule.memWf := by simp [State.exitRule, h]

end Sys2Proof.Machine
end

section
/-! PROOFS. Memory keeps its canonical form: control flow, loads, stores, atomics and WAITCMP. -/

namespace Sys2Proof.Machine
variable {s : State}

@[simp] theorem State.memWf_jump (s : State) (t : Pc) : (s.jump t).memWf ↔ s.memWf := Iff.rfl
@[simp] theorem State.memWf_uniform (s : State) (taken : Bool) (imm : BitVec 18) : (s.uniform taken imm).memWf ↔ s.memWf := by
  unfold State.uniform
  split <;> simp

@[simp] theorem State.memWf_diverge (s : State) (stay : LaneMask) (pc t : Pc) (f : Warp → Warp) :
    (s.diverge stay pc t f).memWf ↔ s.memWf := by
  unfold State.diverge
  split <;> simp

@[simp] theorem State.memWf_drained {rule : State → Res} (h : s.memWf) (hr : ∀ u : State, u.memWf → (rule u).memWf) :
    (s.drained rule).memWf := by
  unfold State.drained
  dsimp only
  split
  · simp [h]
  · exact hr _ (State.memWf_drain h _)

@[simp] theorem State.memWf_brvRule (s : State) (neg : Bool) (p : PReg) (imm : BitVec 18) :
    (s.brvRule neg p imm).memWf ↔ s.memWf := by
  simp [State.brvRule]

@[simp] theorem State.memWf_indirectRule (s : State) (a : Reg) (f : LaneMask → Warp → Warp) :
    (s.indirectRule a f).memWf ↔ s.memWf := by
  unfold State.indirectRule
  dsimp only
  split
  · rfl
  · split
    · rfl
    · split <;> simp

@[simp] theorem State.memWf_indirect (h : s.memWf) (i : Instr) (a : Reg) (u : Use) (f : LaneMask → Warp → Warp) :
    (s.indirect i a u f).memWf :=
  State.memWf_issue h (fun v hv => by simp +contextual [hv]) ..

@[simp] theorem State.memWf_reductionHalf (h : s.memWf) (w : WarpKey) (high : Bool) : (s.reductionHalf w high).memWf := by
  unfold State.reductionHalf
  split
  · exact h
  · dsimp only
    split
    · exact h
    · exact memWf_foldl (fun _ r ht => State.memWf_performHalf ht ..) _ (State.memWf_performOn h ..)

@[simp] theorem State.memWf_translateEach (h : s.memWf) (kind : AccessKind) {α : Type} (l : List (α × DWord)) :
    (s.translateEach kind l).2.memWf := by
  refine memWf_snd_foldl (fun _ _ hp => ?_) _ h
  exact State.memWf_translate hp ..

@[simp] theorem State.memWf_inOrder {rule : State → Res} (h : s.memWf) (hr : ∀ u : State, u.memWf → (rule u).memWf)
    (n : Nat) (l : List PlacedLane) : (s.inOrder n l rule).memWf := by
  unfold State.inOrder
  dsimp only
  split
  · split
    · simp [h]
    · exact hr _ (by simp [h])
  · exact hr _ (by simp [h])

@[simp] theorem State.memWf_acquired (h : s.memWf) : s.acquired.memWf := by simp [State.acquired, h]
@[simp] theorem State.memWf_readEach (h : s.memWf) (n : Nat) (l : List PlacedLane) : (s.readEach n l).2.memWf := by
  refine memWf_snd_foldl (fun _ _ hp => ?_) _ h
  exact State.memWf_readSpot hp ..

@[simp] theorem State.memWf_loadAt (h : s.memWf) (f : Form) (la : Fin 16) (d : Reg) (m : MemShape) (scalar : Bool)
    (l : List PlacedLane) : (s.loadAt f la d m scalar l).memWf :=
  State.memWf_inOrder h (fun u hu => by simp [hu]) ..

@[simp] theorem State.memWf_writeAt (h : s.memWf) (x : PlacedLane) (bytes : List Byte) : (s.writeAt x bytes).memWf := by
  simp [State.writeAt, h]

@[simp] theorem State.memWf_storeAt (h : s.memWf) (f : Form) (la : Fin 16) (m : MemShape) (l : List PlacedLane)
    (v : Option Lane → Nat) : (s.storeAt f la m l v).memWf := by
  unfold State.storeAt
  split
  · simp [h]
  · refine State.memWf_inOrder (by simp [h]) (fun u hu => ?_) ..
    exact memWf_foldl (fun _ x ht => State.memWf_writeAt ht ..) _ hu

@[simp] theorem State.memWf_checked {α : Type} {rule : List (α × Xlat) → State → Res} (h : s.memWf)
    (hr : ∀ l (u : State), u.memWf → (rule l u).memWf) (w : Nat) (kind : AccessKind) (long : Bool) (l : List (α × DWord)) :
    (s.checked w kind long l rule).memWf := by
  unfold State.checked
  split
  · exact h
  · dsimp only
    split
    · simp [h]
    · exact hr _ _ (State.memWf_translateEach h ..)

@[simp] theorem State.memWf_ldgRule (h : s.memWf) (f : Form) (d a b : Reg) (la : Fin 16) : (s.ldgRule f d a b la).memWf := by
  unfold State.ldgRule
  refine State.memWf_checked h (fun l u hu => ?_) ..
  simp [hu]

@[simp] theorem State.memWf_stgRule (h : s.memWf) (f : Form) (d a b : Reg) (la : Fin 16) : (s.stgRule f d a b la).memWf := by
  unfold State.stgRule
  refine State.memWf_checked h (fun l u hu => ?_) ..
  simp [hu]

@[simp] theorem State.memWf_bufLoadRule (h : s.memWf) (f : Form) (buf : Buf) (d a b : Reg) (la : Fin 16) :
    (s.bufLoadRule f buf d a b la).memWf := by
  unfold State.bufLoadRule
  dsimp only
  split <;> simp [h]

@[simp] theorem State.memWf_bufStoreRule (h : s.memWf) (f : Form) (buf : Buf) (d a b : Reg) (la : Fin 16) :
    (s.bufStoreRule f buf d a b la).memWf := by
  unfold State.bufStoreRule
  dsimp only
  split <;> simp [h]

@[simp] theorem State.memWf_viaHandle {rule : WgKey → HandleSlot → Res} (h : s.memWf) (hr : ∀ k x, (rule k x).memWf)
    (x : Word) (w : Nat) (lanes : List (Lane × Nat)) : (s.viaHandle x w lanes rule).memWf := by
  unfold State.viaHandle
  split
  · exact hr ..
  · split
    · exact h
    · dsimp only
      split
      · exact h
      · split
        · exact h
        · split
          · exact h
          · exact hr ..

@[simp] theorem State.memWf_lineRule (h : s.memWf) (drop : Bool) (a b : Reg) : (s.lineRule drop a b).memWf := by
  refine State.memWf_checked h (fun l u hu => State.memWf_inOrder hu (fun v hv => ?_) ..) ..
  refine memWf_foldl (fun w x hw => ?_) _ hv
  extract_lets inLine moved
  have hm : moved.memWf := by simp [moved, hw, State.memWf_dropWhere, State.memWf_writeBackWhere]
  split
  · exact memWf_foldl (fun _ p ht => State.memWf_l2Back ht p drop) _ hm
  · exact hm

@[simp] theorem State.memWf_atomicRun (h : s.memWf) (f : Form) (op : AOp) (t : Ty) (sb : Bool) (d : Reg) (la : Fin 16)
    (ready : List AtomicLane) (fault : Option (XFault × DWord)) : (s.atomicRun f op t sb d la ready fault).memWf := by
  unfold State.atomicRun
  extract_lets red u sc spots v lanes late
  have hu : u.memWf := by simp [u, h]
  have hv : v.memWf := by simp [v, hu]
  split
  · split
    · split <;> simp [hu]
    · simp [hu]
  · split
    · split <;> simp [late, hv]
    · split <;> simp [late, hv]

@[simp] theorem State.memWf_atomicRule (h : s.memWf) (f : Form) (op : AOp) (d a b : Reg) (la : Fin 16) :
    (s.atomicRule f op d a b la).memWf := by
  unfold State.atomicRule
  extract_lets t w active gate
  have hg {r : Res} (hr : r.memWf) : (gate r).memWf := by simp [gate, h, hr]
  split
  · split
    · exact h
    · exact hg (State.memWf_atomicRun h ..)
  · split
    · exact h
    · refine hg ?_
      split
      next u e =>
        have hu : u.memWf := State.memWf_snd e (State.memWf_translateEach h ..)
        split
        · exact State.memWf_atomicRun hu ..
        · split <;> simp [hu]

@[simp] theorem State.memWf_armMonitor (s : State) (pa w : Nat) : (s.armMonitor pa w).memWf ↔ s.memWf := by
  unfold State.armMonitor
  dsimp only
  split <;> rfl

@[simp] theorem State.memWf_freeMonitor (s : State) (pa : Nat) : (s.freeMonitor pa).memWf ↔ s.memWf := Iff.rfl
@[simp] theorem State.memWf_noMonitors (s : State) : s.noMonitors.memWf ↔ s.memWf := Iff.rfl
@[simp] theorem State.memWf_checkAddr (h : s.memWf) (c : WCond) (w : Nat) (l : List WaitLane) (pa : Nat) :
    (s.checkAddr c w l pa).2.memWf := by
  simp [State.checkAddr, h, State.memWf_lsRead]

@[simp] theorem State.memWf_checkLanes (h : s.memWf) (c : WCond) (w : Nat) (l : List WaitLane) :
    (s.checkLanes c w l).2.memWf :=
  memWf_snd_foldl (fun _ _ hp => State.memWf_checkAddr hp ..) _ h

@[simp] theorem State.memWf_waitcmpRule (h : s.memWf) (d a b : Reg) (c : WCond) : (s.waitcmpRule d a b c).memWf := by
  unfold State.waitcmpRule
  dsimp only
  split
  · exact h
  · split
    · exact h
    · exact State.memWf_checked h (fun l u hu => State.memWf_inOrder hu (fun v hv => by simp [hv]) ..) ..

@[simp] theorem State.memWf_recheck (h : s.memWf) : s.recheck.2.memWf := by
  unfold State.recheck
  split
  · dsimp only
    split
    · exact h
    · have hc {l : List WaitLane} (c : WCond) (w : Nat) (as : List Nat) :
          (as.foldl (fun acc pa => acc.2.checkAddr c w acc.1 pa) (l, s)).2.memWf :=
        memWf_snd_foldl (fun _ _ hp => State.memWf_checkAddr hp ..) _ h
      split <;> simp [hc]
  · exact h

end Sys2Proof.Machine
end

section
/-! PROOFS. Memory keeps its canonical form: the privileged operations, the issue of commands, and the copy engine. -/

namespace Sys2Proof.Machine
variable {s : State}

@[simp] theorem State.memWf_recheckIf (h : s.memWf) (k : WarpKey) (i : Fin 4) (p : Monitor → Bool) :
    (s.recheckIf k i p).memWf := by
  simp +contextual [State.recheckIf, h]

@[simp] theorem State.memWf_privileged {rule : State → Res} (h : s.memWf) (hr : (rule s).memWf) (i : Instr) :
    (s.privileged i rule).memWf := by
  simp [State.privileged, h, hr]

@[simp] theorem State.memWf_flushAll (h : s.memWf) : s.flushAll.memWf :=
  memWf_foldl (fun _ w ht => State.memWf_inSplit ht (fun u hu => by simp [hu]) ..) _ (State.memWf_performWrites h _)

@[simp] theorem State.memWf_privWrite (h : s.memWf) (i : Instr) (a : Reg) (n : PrivReg) : (s.privWrite i a n).memWf := by
  simp +contextual [State.privWrite, h]

@[simp] theorem State.memWf_readRecord {rule : List Byte → State → Res} (h : s.memWf)
    (hr : ∀ b (u : State), u.memWf → (rule b u).memWf) (va : DWord) (n : Nat) : (s.readRecord va n rule).memWf := by
  unfold State.readRecord
  split
  · exact h
  · dsimp only
    split
    · simp [h]
    · exact State.memWf_inOrder (State.memWf_translateEach h ..) (fun u hu => hr _ _ (State.memWf_readEach hu ..)) ..

@[simp] theorem State.memWf_engineRule (h : s.memWf) (kind : EngineKind) (d a b : Reg) (x : Fin 16) :
    (s.engineRule kind d a b x).memWf := by
  unfold State.engineRule
  extract_lets trap
  split
  · exact h
  · split
    · exact h
    · refine State.memWf_readRecord h (fun desc u hu => ?_) ..
      dsimp only
      split
      · exact hu
      · split <;> exact hu

@[simp] theorem State.memWf_enginePut (h : s.memWf) (g : WgKey) (mma : Bool) (p : Spot) (bytes : List Byte) :
    (s.enginePut g mma p bytes).memWf := by
  simp [State.enginePut, h]

@[simp] theorem State.memWf_cpPut (h : s.memWf) (g : WgKey) (p : Spot) (bytes : List Byte) : (s.cpPut g p bytes).memWf := by
  simp [State.cpPut, h]

@[simp] theorem State.memWf_cpPutBuf (h : s.memWf) (g home : WgKey) (b : Buf) (o : Nat) (bytes : List Byte) :
    (s.cpPutBuf g home b o bytes).memWf :=
  memWf_foldl (fun _ _ ht => State.memWf_cpPut ht ..) _ h

@[simp] theorem State.memWf_cpWriteGlobal (h : s.memWf) (g : WgKey) (va : Nat) (bytes : List Byte) :
    (s.cpWriteGlobal g va bytes).2.memWf := by
  refine memWf_snd_foldl (fun p c hp => ?_) _ h
  obtain ⟨_ | x, u⟩ := p
  · dsimp only
    have ht := State.memWf_translate (s := u) hp fabric g.ctx (BitVec.ofNat 64 c.1) .copyWrite false
    split
    · next e => simp [State.memWf_snd e ht]
    · next e =>
      have hc := State.memWf_cowServe (State.memWf_snd e ht) g.ctx (BitVec.ofNat 64 c.1)
      split
      · next e' => exact State.memWf_snd e' hc
      · next e' =>
        have hv := State.memWf_translate (State.memWf_snd e' hc) fabric g.ctx (BitVec.ofNat 64 c.1) .copyWrite false
        split
        all_goals next e'' => simp [State.memWf_snd e'' hv]
    · next e => exact State.memWf_snd e ht
  · exact hp

@[simp] theorem State.memWf_cpWrite (h : s.memWf) (g : WgKey) (space v o : Nat) (bytes : List Byte) :
    (s.cpWrite g space v o bytes).2.memWf := by
  unfold State.cpWrite
  dsimp only
  split
  · simp [h]
  · split
    · split <;> simp [h]
    · split <;> simp [h]

@[simp] theorem State.memWf_cpWriteMasked (h : s.memWf) (g : WgKey) (st : Fin 16) (space v o : Nat) (l : Masked) :
    (s.cpWriteMasked g st space v o l).2.memWf := by
  unfold State.cpWriteMasked
  split
  · simp [h]
  · refine memWf_snd_foldl (fun p x hp => ?_) _ (State.memWf_performStep (State.memWf_performStream h g st) g)
    obtain ⟨_ | e, u⟩ := p
    · dsimp only
      split
      · exact hp
      · exact State.memWf_cpWrite hp ..
    · exact hp

@[simp] theorem CopyEnv.memWf_spoil (s : State) (e : CopyEnv) (o : Nat) (l : Masked) : (e.spoil o l s).2.memWf ↔ s.memWf := by
  simp [CopyEnv.spoil]
/-! What a chunk of a copy has done (R309). -/

/-- The state that a chunk's progress stands in. -/
theorem Done.memWf_of_eq {d : Done} {z : Option Stop} {u : State} {t : Tally} (e : d = (z, u, t)) (h : d.2.1.memWf) : u.memWf := by
  rw [e] at h; exact h

@[simp] theorem Done.memWf_andThen {d : Done} {f : State → Tally → Done} (h : d.2.1.memWf)
    (hf : ∀ (u : State) t, u.memWf → (f u t).2.1.memWf) : (d.andThen f).2.1.memWf := by
  obtain ⟨_ | z, u, t⟩ := d
  · exact hf u t h
  · exact h

/-- A fold whose steps keep the form of what is done. -/
theorem Done.memWf_foldl {α : Type} {f : Done → α → Done} (hf : ∀ d a, d.2.1.memWf → (f d a).2.1.memWf) (l : List α) {d : Done}
    (h : d.2.1.memWf) : (l.foldl f d).2.1.memWf :=
  List.foldlRecOn (motive := fun d : Done => d.2.1.memWf) l f h fun d hd a _ => hf d a hd

@[simp] theorem CopyEnv.memWf_put (h : s.memWf) (e : CopyEnv) (o : Nat) (l : Masked) (fl : Nat) (t : Tally) :
    (e.put o l fl s t).2.1.memWf := by
  unfold CopyEnv.put
  split
  next m u e' =>
    have hu : u.memWf := State.memWf_snd e' (by simp [h])
    have hw := State.memWf_cpWriteMasked hu e.g e.st e.c.sd e.c.dst o m
    split
    all_goals next e'' => exact State.memWf_snd e'' hw

@[simp] theorem CopyEnv.memWf_writeRows (h : s.memWf) (e : CopyEnv) (p : CopyPlan) (lo hi : Nat) (t : Tally) :
    (e.writeRows p lo hi s t).2.1.memWf := by
  refine Done.memWf_foldl (fun d x hd => Done.memWf_andThen hd fun u t hu => ?_) _ h
  dsimp only
  split
  · exact hu
  · exact CopyEnv.memWf_put hu ..

@[simp] theorem CopyEnv.memWf_putElem (h : s.memWf) (e : CopyEnv) (p : CopyPlan) (i0 i1 i2 b fl : Nat) (t : Tally) :
    (e.putElem p i0 i1 i2 b fl s t).2.1.memWf :=
  CopyEnv.memWf_put h ..

@[simp] theorem CopyEnv.memWf_writeScatter (h : s.memWf) (e : CopyEnv) (p : CopyPlan) (x : LoadedNode) (lo hi : Nat) (t : Tally) :
    (e.writeScatter p x lo hi s t).2.1.memWf := by
  unfold CopyEnv.writeScatter
  extract_lets w post pre rb d
  have hd : d.2.1.memWf := by
    refine Done.memWf_foldl (fun d y hd => ?_) _ h
    refine Done.memWf_foldl (fun d k hd => Done.memWf_andThen hd fun u t hu => ?_) _ hd
    dsimp only
    split
    · exact hu
    · split
      · exact hu
      · exact hu
      · exact Done.memWf_andThen (CopyEnv.memWf_putElem hu ..) fun _ _ hv => hv
  clear_value d
  obtain ⟨_ | z, u, t⟩ := d <;> exact hd

@[simp] theorem CopyEnv.memWf_writeRecords (h : s.memWf) (e : CopyEnv) (p : CopyPlan) (k lo hi : Nat) (t : Tally) :
    (e.writeRecords p k lo hi s t).2.1.memWf := by
  refine Done.memWf_foldl (fun d x hd => Done.memWf_andThen hd fun u t hu => ?_) _ h
  dsimp only
  split
  · exact hu
  · split
    · exact hu
    · exact CopyEnv.memWf_put (by simpa using hu) ..

@[simp] theorem State.memWf_writeFramePage (h : s.memWf) (ctx : Nat) (key : Option Nat) (e : DWord) (frame : Nat)
    (bytes : List Byte) : (s.writeFramePage ctx key e frame bytes).memWf :=
  memWf_foldl (fun _ _ ht => State.memWf_homeWriteByte ht ..) _ (State.memWf_keepNamed h ..)

@[simp] theorem CopyEnv.memWf_dedupInPlace (h : s.memWf) (e : CopyEnv) (va : Nat) (l : Masked) (t : Tally) :
    (e.dedupInPlace va l s t).2.1.memWf := by
  have hp := CopyEnv.memWf_put h e va l 0 t
  unfold CopyEnv.dedupInPlace
  split
  · next e' =>
    have hu := Done.memWf_of_eq e' hp
    split
    · exact hu
    · exact hu
    · exact hu
  · next e' => exact Done.memWf_of_eq e' hp

@[simp] theorem CopyEnv.memWf_dedupPage (h : s.memWf) (e : CopyEnv) (va : Nat) (l : Masked) (t : Tally) :
    (e.dedupPage va l s t).2.1.memWf := by
  unfold CopyEnv.dedupPage
  extract_lets +onlyGivenNames ctx
  split
  · exact h
  · split
    · exact CopyEnv.memWf_dedupInPlace h ..
    · exact h
    · split
      · exact h
      · split
        · exact h
        · extract_lets +onlyGivenNames page print w map entry noIndex b found bad
          have hmap {u : State} (hu : u.memWf) (frame : Nat) (cow : Bool) : (map u frame cow).memWf :=
            State.memWf_homeWrite _ hu ..
          clear_value map found bad
          split
          · split
            · exact h
            · exact hmap (State.memWf_setFrameRec h ..) ..
          · extract_lets +onlyGivenNames free
            clear_value free
            split
            · exact h
            · have ht := State.memWf_takeFrame h ctx
              split
              · next e' => exact State.memWf_snd e' ht
              · next e' =>
                have hf := State.memWf_writeFramePage (State.memWf_snd e' ht)
                extract_lets +onlyGivenNames u tag
                split
                · exact hmap (State.memWf_setBucketEntry (State.memWf_setFrameRec (hf ..) ..) ..) ..
                · exact hmap (State.memWf_setFrameRec (hf ..) ..) ..

@[simp] theorem CopyEnv.memWf_hashPages (h : s.memWf) (e : CopyEnv) (pages : List Nat) (t : Tally) :
    (e.hashPages pages s t).2.1.memWf := by
  refine Done.memWf_foldl (fun d k hd => Done.memWf_andThen hd fun u t hu => ?_) _ (by simp [h])
  split <;> exact hu

@[simp] theorem State.memWf_copySpoil (h : s.memWf) (g : WgKey) (st : Fin 16) (c : CopyDesc) (l : List (Nat × Byte)) :
    (s.copySpoil g st c l).memWf := by
  refine memWf_foldl (fun _ x ht => ?_) _ h
  exact State.memWf_cpWriteMasked ht ..

@[simp] theorem State.memWf_copyWarm (h : s.memWf) (g : WgKey) (desc graph : List Byte) : (s.copyWarm g desc graph).memWf :=
  memWf_foldl (fun _ _ ht => State.memWf_translate ht ..) _ h

@[simp] theorem CopyEnv.memWf_writes (h : s.memWf) (e : CopyEnv) (p : CopyPlan) (k : Nat) (t : Tally) :
    (e.writes p k s t).2.1.memWf := by
  unfold CopyEnv.writes
  extract_lets lo hi slow t' d
  split
  · split
    · exact h
    · simp [h]
  · have hd : d.2.1.memWf := by
      simp only [d]
      split <;> simp [h]
    split
    · exact hd
    · split
      · exact Done.memWf_andThen hd fun u t hu => CopyEnv.memWf_hashPages hu ..
      · split
        · exact Done.memWf_andThen hd fun u t hu => CopyEnv.memWf_hashPages hu ..
        · exact hd

@[simp] theorem CopyEnv.memWf_chunk (h : s.memWf) (e : CopyEnv) (graph : List Byte) (k : Nat) (t : Tally) :
    (e.chunk graph k s t).2.1.memWf := by
  unfold CopyEnv.chunk
  split
  · exact h
  · dsimp only
    split
    · next e' =>
      have hu := Done.memWf_of_eq e' (CopyEnv.memWf_writes h ..)
      split <;> exact hu
    · next e' => exact Done.memWf_of_eq e' (CopyEnv.memWf_writes h ..)

@[simp] theorem State.memWf_copyChunk (h : s.memWf) (g : WgKey) (st : Fin 16) (desc graph : List Byte) (k : Nat) (t : Tally) :
    (s.copyChunk g st desc graph k t).2.1.memWf :=
  CopyEnv.memWf_chunk (State.memWf_copyWarm h ..) ..

@[simp] theorem State.memWf_copyWhole (h : s.memWf) (g : WgKey) (st : Fin 16) (desc graph : List Byte) (k : Nat) (t : Tally) :
    (s.copyWhole g st desc graph k t).2.1.memWf := by
  unfold State.copyWhole
  extract_lets u c e chunks
  have hu : u.memWf := by simp [u, h]
  have hd (ks : List Nat) :
      (ks.foldl (fun (d : Done) k => d.andThen fun s t => e.chunk graph k s t) ((none, u, t) : Done)).2.1.memWf :=
    Done.memWf_foldl (fun _ _ hd => Done.memWf_andThen hd fun _ _ hv => CopyEnv.memWf_chunk hv ..) ks hu
  split
  · next e' => exact State.memWf_copySpoil (Done.memWf_of_eq e' (hd _)) ..
  · exact hd _

end Sys2Proof.Machine
end

section
/-! PROOFS. Memory keeps its canonical form: floating point and cross-lane operations, the matrix array and collectives. -/

namespace Sys2Proof.Machine
variable {s : State}

@[simp] theorem State.memWf_floatOp (h : s.memWf) (i : Instr) (form : Form) (rm : Rm) (draws : Nat) (f : Warp → LaneOp)
    (write : Warp → Vector (List (Nat × Nat)) 96 → Warp) : (s.floatOp i form rm draws f write).memWf := by
  refine State.memWf_issue h (fun u hu => ?_) i form
  dsimp only
  split <;> simp [hu]

@[simp] theorem State.memWf_fpu (h : s.memWf) (i : Instr) (ok : Ty → Bool) (rm : Rm) (draws : Bool) (reads : List Reg)
    (d a b : Reg) (f : FOp) : (s.fpu i ok rm draws reads d a b f).memWf := by
  simp [State.fpu, h]

@[simp] theorem State.memWf_longFloat (h : s.memWf) (i : Instr) (ok : Ty → Bool) (reads : List Reg) (d a b : Reg)
    (la : Fin 16) (f : FOp) : (s.longFloat i ok reads d a b la f).memWf := by
  simp [State.longFloat, h]

@[simp] theorem State.memWf_xmove (h : s.memWf) (i : Instr) (d a : Reg) (la : Fin 16) (vr sr : List Nat)
    (src : Warp → Nat → Lane → Nat) : (s.xmove i d a la vr sr src).memWf := by
  simp [State.xmove, h]

@[simp] theorem State.memWf_xcombine (h : s.memWf) (i : Instr) (d a : Reg) (op : XOp) (la : Fin 16)
    (present : Nat → Nat → Bool) : (s.xcombine i d a op la present).memWf := by
  simp [State.xcombine, h]

@[simp] theorem State.memWf_xmatch (h : s.memWf) (i : Instr) (t : Ty) (ok : Bool) (d a b : Reg) (la : Fin 16)
    (node : Rm → Nat × Nat → Nat × Nat → Nat × Nat) : (s.xmatch i t ok d a b la node).memWf := by
  simp [State.xmatch, h]

@[simp] theorem State.memWf_xvote (h : s.memWf) (i : Instr) (p : PReg) (la : Fin 16) (writes : Use)
    (f : Warp → LaneMask → LaneMask → List WriteBack) : (s.xvote i p la writes f).memWf := by
  simp [State.xvote, h]

@[simp] theorem State.memWf_mmaCommit (h : s.memWf) (k : WgKey) (l : List (Nat × Nat)) : (s.mmaCommit k l).memWf :=
  memWf_foldl (fun _ _ hu => State.memWf_enginePut hu ..) _ h

@[simp] theorem State.memWf_mmaChunk (h : s.memWf) (k : WgKey) (desc : List Byte)
    (ahead : Option (List (Nat × Nat) × Tally)) (c : Nat) (t : Tally) : (s.mmaChunk k desc ahead c t).2.1.memWf := by
  have hp := State.memWf_performTiles h k
  unfold State.mmaChunk
  split
  · exact State.memWf_mmaCommit hp ..
  · dsimp only
    split
    · exact hp
    · exact State.memWf_mmaCommit hp ..

@[simp] theorem State.memWf_setInstance (s : State) (i : CollInstance) : (s.setInstance i).memWf ↔ s.memWf := Iff.rfl
@[simp] theorem State.memWf_collContribute (h : s.memWf) (g : WgKey) (st : Fin 16) (cmd : Command) :
    (s.collContribute g st cmd).2.memWf := by
  unfold State.collContribute
  extract_lets +onlyGivenNames x owner slots
  split
  · exact h
  · extract_lets +onlyGivenNames i mine i'
    split
    · exact h
    · split
      · exact h
      · have hr := State.memWf_homeReadVa h fabric g.ctx .collective false x.src
        extract_lets +onlyGivenNames w
        split
        · next e => exact State.memWf_snd e (hr _)
        · next e => simpa using State.memWf_snd e (hr _)

@[simp] theorem State.memWf_forgetOwners (s : State) (ctx : Nat) (cycle : Int) : (s.forgetOwners ctx cycle).memWf ↔ s.memWf :=
  Iff.rfl

@[simp] theorem State.memWf_collWrite (h : s.memWf) (ctx : Nat) (x : CollDesc) (v : List Nat) :
    (s.collWrite ctx x v).2.memWf := by
  have hw := State.memWf_servedWrite h ctx .copyWrite x.dst
  unfold State.collWrite
  split
  · next e => exact State.memWf_snd e (hw _)
  · next e => exact State.memWf_snd e (hw _)

end Sys2Proof.Machine
end

section
/-! PROOFS. Memory keeps its canonical form: the life of a command. -/

namespace Sys2Proof.Machine
variable {s : State}

@[simp] theorem State.memWf_modStream (s : State) (g : WgKey) (st : Fin 16) (f : Stream → Stream) :
    (s.modStream g st f).memWf ↔ s.memWf :=
  Iff.rfl

@[simp] theorem State.memWf_modHead (s : State) (g : WgKey) (st : Fin 16) (f : Command → Command) :
    (s.modHead g st f).memWf ↔ s.memWf :=
  Iff.rfl

@[simp] theorem State.memWf_serveSwaits (h : s.memWf) (g : WgKey) : (s.serveSwaits g).memWf := by
  refine memWf_foldl (fun u k hu => memWf_foldl (fun v i hv => ?_) _ hu) _ h
  split
  · split
    · split
      · exact (State.memWf_modWarpAt ..).2 hv
      · exact State.memWf_inSplit hv (fun _ hw => (State.memWf_setWait ..).2 hw) ..
      · exact hv
    · exact hv
  · exact hv

@[simp] theorem State.memWf_streamChanged (h : s.memWf) (g : WgKey) : (s.streamChanged g).memWf := by
  simp [State.streamChanged, h]

@[simp] theorem State.memWf_streamError (h : s.memWf) (g : WgKey) (st : Fin 16) (code : Nat) :
    (s.streamError g st code).memWf := by
  simp [State.streamError, h]

@[simp] theorem State.memWf_parkCommand (s : State) (g : WgKey) (st : Fin 16) (c : Cause) (kind : AccessKind)
    (va level : Nat) (bad : Bool) : (s.parkCommand g st c kind va level bad).memWf ↔ s.memWf :=
  Iff.rfl

@[simp] theorem State.memWf_writeRecord (h : s.memWf) (g : WgKey) (st : Fin 16) (c : Command) :
    (s.writeRecord g st c).2.memWf := by
  unfold State.writeRecord
  split
  · exact h
  · extract_lets +onlyGivenNames bytes
    have hb : (if c.spoilt = true then s.freeBytes bytes.length else (bytes, s)).2.memWf := by
      split
      · exact (State.memWf_freeBytes ..).2 h
      · exact h
    generalize (if c.spoilt = true then s.freeBytes bytes.length else (bytes, s)) = p at hb ⊢
    have hw := State.memWf_servedWrite hb g.ctx .copyWrite (recordAddr c.desc) p.1
    dsimp only
    split
    · next e => exact State.memWf_snd e hw
    · next e => exact State.memWf_snd e hw

@[simp] theorem State.memWf_finishFail (h : s.memWf) (g : WgKey) (st : Fin 16) : (s.finishFail g st).memWf := by
  unfold State.finishFail
  split
  · exact h
  · next c _ =>
    have hw := State.memWf_writeRecord h g st c
    split
    · next e => exact (State.memWf_parkCommand ..).2 (State.memWf_snd e hw)
    · next e => exact (State.memWf_parkCommand ..).2 (State.memWf_snd e hw)
    · next e => exact (State.memWf_parkCommand ..).2 (State.memWf_snd e hw)
    · next e => exact State.memWf_streamError (State.memWf_snd e hw) ..

@[simp] theorem State.memWf_failCommand (h : s.memWf) (g : WgKey) (st : Fin 16) (code at_ : Nat) :
    (s.failCommand g st code at_).memWf := by
  simp [State.failCommand, h]

@[simp] theorem State.memWf_stopCommand (h : s.memWf) (g : WgKey) (st : Fin 16) (e : Stop) : (s.stopCommand g st e).memWf := by
  cases e with
  | fail code a => exact State.memWf_failCommand h ..
  | fault x kind va =>
    simp only [State.stopCommand]
    split <;> simp [h]

@[simp] theorem State.memWf_stampStep (s : State) (g : WgKey) (st : Fin 16) : (s.stampStep g st).memWf ↔ s.memWf := Iff.rfl
@[simp] theorem State.memWf_chunkStep {f : Command → Done} (h : s.memWf) (hf : ∀ c, (f c).2.1.memWf) (g : WgKey)
    (st : Fin 16) (kind : EngineKind) : (s.chunkStep g st kind f).memWf := by
  unfold State.chunkStep
  split
  · exact h
  · next c _ =>
    split
    · next e => simpa using Done.memWf_of_eq e (hf c)
    · next e => exact State.memWf_stopCommand (by simpa using Done.memWf_of_eq e (hf c)) ..

@[simp] theorem State.memWf_dropAhead (s : State) (g : WgKey) (st : Fin 16) (x : MmaDesc) :
    (s.dropAhead g st x).memWf ↔ s.memWf :=
  Iff.rfl

@[simp] theorem State.memWf_mmaRead (h : s.memWf) (g : WgKey) (st : Fin 16) : (s.mmaRead g st).memWf := by
  have hp := State.memWf_performTiles h g
  unfold State.mmaRead
  split
  · exact h
  · dsimp only
    split <;> exact hp

@[simp] theorem State.memWf_completeCommand (h : s.memWf) (g : WgKey) (st : Fin 16) : (s.completeCommand g st).memWf := by
  simp [State.completeCommand, h]

@[simp] theorem State.memWf_deliverCommand (h : s.memWf) (g : WgKey) (st : Fin 16) (va : Nat) :
    (s.deliverCommand g st va).memWf := by
  unfold State.deliverCommand
  dsimp only
  split <;> simp [h]

end Sys2Proof.Machine
end

section
/-! PROOFS. Memory keeps its canonical form: placement, swap-out and the commit of quanta. -/

namespace Sys2Proof.Machine
variable {s : State}

@[simp] theorem State.memWf_startOn (s : State) (l : Launch) (wglin core : Nat) (halves : BitVec 12) :
    (s.startOn l wglin core halves).memWf ↔ s.memWf :=
  Iff.rfl

@[simp] theorem State.memWf_firstPlace (h : s.memWf) (l : Launch) : (s.firstPlace l).memWf := by
  simp [State.firstPlace, h, State.memWf_emptyCaches]

@[simp] theorem State.memWf_placeGroup (h : s.memWf) (k : LaunchKey) (core : Nat) (halves : BitVec 12) :
    (s.placeGroup k core halves).memWf := by
  unfold State.placeGroup
  split <;> simp [h]

@[simp] theorem State.memWf_placeCluster (h : s.memWf) (k : LaunchKey) (cc : Nat) (cores : List Nat)
    (halves : List (BitVec 12)) : (s.placeCluster k cc cores halves).memWf := by
  unfold State.placeCluster
  split
  · next l _ =>
    extract_lets +onlyGivenNames at'
    split
    · exact (State.memWf_modLaunch ..).2 (memWf_foldl (fun _ _ hu => (State.memWf_startOn ..).2 hu) _ (State.memWf_firstPlace h l))
    · exact h
  · exact h

@[simp] theorem State.memWf_markLong (s : State) : s.markLong.memWf ↔ s.memWf := Iff.rfl
@[simp] theorem State.memWf_quietGroups (h : s.memWf) (keys : List WgKey) : (s.quietGroups keys).memWf := by
  refine State.memWf_emptyCaches (memWf_foldl (fun u w hu => State.memWf_inSplit hu (fun v hv => ?_) ..) _
    (State.memWf_performWrites (memWf_foldl (fun u k hu => (State.memWf_modGroup ..).2 hu) _ h) _))
  have hc : (v.complete fun _ => true).memWf := State.memWf_complete hv _
  dsimp only
  split
  · exact hc
  · exact State.memWf_flushReds hc

@[simp] theorem State.memWf_swapOut (h : s.memWf) (k : WgKey) : (s.swapOut k).memWf := by
  unfold State.swapOut
  extract_lets +onlyGivenNames unit
  split
  · extract_lets +onlyGivenNames keys u at' v w
    have hu : u.memWf := State.memWf_quietGroups h keys
    have hv : v.memWf := State.memWf_homeWrite _ hu ..
    have hw : w.memWf := memWf_foldl (fun _ _ ht => (State.memWf_modGroup ..).2 ht) _ hv
    exact (State.memWf_wake ..).2 (State.memWf_retryGrows hw)
  · exact h

@[simp] theorem State.memWf_putBack (h : s.memWf) (k : WgKey) (core : Nat) (halves : BitVec 12) :
    (s.putBack k core halves).memWf := by
  unfold State.putBack
  split <;> simp [h]

@[simp] theorem State.memWf_plantBack (h : s.memWf) (k : WgKey) : (s.plantBack k).memWf := by
  unfold State.plantBack
  extract_lets +onlyGivenNames unit all ways
  split
  · exact memWf_foldl (fun _ _ hu => State.memWf_putBack hu ..) _ h
  · exact h

@[simp] theorem State.memWf_plantDue (h : s.memWf) : s.plantDue.memWf := by
  unfold State.plantDue
  refine memWf_fst_foldl (fun p k hp => ?_) _ h
  dsimp only
  split
  · exact hp
  · exact State.memWf_plantBack hp k

@[simp] theorem State.memWf_commitQuanta (h : s.memWf) (ctx : Nat) : (s.commitQuanta ctx).memWf := by
  unfold State.commitQuanta
  split
  · next l c _ _ =>
    extract_lets +onlyGivenNames q target
    split
    · exact h
    · extract_lets +onlyGivenNames all due u v w
      have hu : u.memWf := memWf_foldl (fun _ _ ht => State.memWf_performRed ht ..) _ h
      have hw : w.memWf := (State.memWf_modContext_iff ..).2 ((State.memWf_modWarps ..).2 hu)
      exact (State.memWf_wake ..).2 hw
  · exact h

end Sys2Proof.Machine
end

section
/-! PROOFS. Memory keeps its canonical form: the front end and the steps of queue programs. -/

namespace Sys2Proof.Machine
variable {s : State}

@[simp] theorem State.memWf_queueLoad (h : s.memWf) (x : Queue) (va n : Nat) : (s.queueLoad x va n).2.memWf :=
  State.memWf_homeReadVa h ..

@[simp] theorem State.memWf_queueStore (h : s.memWf) (x : Queue) (va : Nat) (bytes : List Byte) :
    (s.queueStore x va bytes).2.memWf := by
  simp [State.queueStore, h]

@[simp] theorem State.memWf_probe (h : s.memWf) (ctx : Nat) (kind : AccessKind) (va : Nat) :
    (s.probe ctx kind va).2.memWf := by
  have ht := State.memWf_translate h fabric ctx (BitVec.ofNat 64 va) kind false
  unfold State.probe
  split
  · next e => exact State.memWf_snd e ht
  · next e =>
    have hc := State.memWf_cowServe (State.memWf_snd e ht) ctx (BitVec.ofNat 64 va)
    split
    · next e' => exact State.memWf_snd e' hc
    · next e' => exact State.memWf_snd e' hc
  · next e => exact State.memWf_snd e ht

@[simp] theorem State.memWf_publish (h : s.memWf) (x : Queue) : (s.publish x).memWf := by
  have hq := State.memWf_queueStore h x x.publishedAt (leBytes 8 x.read)
  unfold State.publish
  split
  · next e => exact (State.memWf_modQueue ..).2 (State.memWf_snd e hq)
  · next e => exact State.memWf_queueFault (State.memWf_snd e hq) ..

@[simp] theorem State.moveWf_assured {rule : State → Option State} (h : s.memWf)
    (hr : ∀ u : State, u.memWf → moveWf (rule u)) (x : Queue) (p : List Byte) : moveWf (s.assured x p rule) := by
  unfold State.assured
  extract_lets probe
  have hp {go : State → Option State} (hg : ∀ u : State, u.memWf → moveWf (go u)) (va : Nat) (u : State) (hu : u.memWf) :
      moveWf (probe va go u) := by
    have hp := State.memWf_probe hu x.ctx .store va
    simp only [probe]
    split
    · next e => exact (moveWf_some _).2 (State.memWf_queueFault (State.memWf_snd e hp) ..)
    · next e => exact hg _ (State.memWf_snd e hp)
  clear_value probe
  split
  · exact hr s h
  · exact hp hr _ s h
  · exact hp (hp hr _) _ s h

@[simp] theorem State.memWf_finishPacket (h : s.memWf) (q : Nat) : (s.finishPacket q).memWf := by
  unfold State.finishPacket
  split
  · exact h
  · next x _ =>
    split
    · exact h
    · extract_lets +onlyGivenNames e u
      have hu : u.memWf := (State.memWf_modQueue ..).2 h
      clear_value u
      split
      · exact hu
      · have hb : (if (x.spoilt || x.rewritten.contains x.issued) = true then u.freeBytes 64 else (zeros 8, u)).2.memWf := by
          split
          · exact (State.memWf_freeBytes ..).2 hu
          · exact hu
        generalize (if (x.spoilt || x.rewritten.contains x.issued) = true then u.freeBytes 64 else (zeros 8, u)) = r at hb ⊢
        have hv : ((r.2.queueStore x (x.slotAt x.issued) r.1).2.modQueue q fun x =>
            { x with issued := x.issued + 1, read := x.read + 1 }).memWf :=
          (State.memWf_modQueue ..).2 (State.memWf_queueStore hb ..)
        dsimp only
        split
        · exact State.memWf_publish hv _
        · exact hv

@[simp] theorem State.memWf_watchRings (s : State) : s.watchRings.memWf ↔ s.memWf := Iff.rfl
@[simp] theorem State.moveWf_lookahead (h : s.memWf) (q : Nat) : moveWf (s.lookahead q) := by
  unfold State.lookahead
  split
  · exact moveWf_none
  · next x _ =>
    extract_lets +onlyGivenNames place
    split
    · exact moveWf_none
    · split
      · simp [h]
      · extract_lets +onlyGivenNames a head
        have hl (n : Nat) := State.memWf_queueLoad h x a n
        split
        · next e => simp [State.memWf_snd e (hl 8)]
        · next e =>
          have hu := State.memWf_snd e (hl 8)
          extract_lets +onlyGivenNames w
          split
          · simp [hu]
          · split
            · simp [hu]
            · split
              · exact moveWf_none
              · have hp := State.memWf_queueLoad hu x a 64
                split
                · next e' => simp [State.memWf_snd e' hp]
                · next e' => simp [State.memWf_snd e' hp]

@[simp] theorem State.memWf_spoilPacket (s : State) (q : Nat) : (s.spoilPacket q).memWf ↔ s.memWf := Iff.rfl
@[simp] theorem State.moveWf_issuePacket {rule : Queue → List Byte → State → Option State} (h : s.memWf)
    (hr : ∀ x p (u : State), u.memWf → moveWf (rule x p u)) (q ty : Nat) : moveWf (s.issuePacket q ty rule) := by
  unfold State.issuePacket
  split
  · exact moveWf_none
  · split
    · exact moveWf_none
    · split
      · exact moveWf_none
      · split
        · simp [h]
        · extract_lets +onlyGivenNames u
          have hu : u.memWf := h
          split
          · simp [hu]
          · exact State.moveWf_assured hu (hr _ _) _ _

@[simp] theorem State.memWf_readEntries (h : s.memWf) (x : Queue) (base size n : Nat) :
    (s.readEntries x base size n).2.memWf := by
  have hl := State.memWf_queueLoad h x base (size * n)
  unfold State.readEntries
  split
  · next e => exact State.memWf_snd e hl
  · next e => exact State.memWf_snd e hl

@[simp] theorem State.memWf_launchDomains (h : s.memWf) (x : Queue) (hd : Header) : (s.launchDomains x hd).2.memWf := by
  have he : (if hd.domCount = 0 then (.ok [], s) else s.readEntries x hd.domTable 32 hd.domCount).2.memWf := by
    split
    · exact h
    · exact State.memWf_readEntries h ..
  unfold State.launchDomains
  split
  · next e => exact State.memWf_snd e he
  · next e =>
    dsimp only
    split
    · exact State.memWf_snd e he
    · exact State.memWf_snd e he

@[simp] theorem State.memWf_launchGraphs (h : s.memWf) (x : Queue) (hd : Header) : (s.launchGraphs x hd).2.memWf := by
  have hr := State.memWf_readEntries h x hd.graphTable 256 16
  unfold State.launchGraphs
  split
  · exact h
  · split
    · next e => exact State.memWf_snd e hr
    · next e => split <;> exact State.memWf_snd e hr

@[simp] theorem State.memWf_launchCheck (h : s.memWf) (x : Queue) (hd : Header) : (s.launchCheck x hd).2.memWf := by
  have hl := State.memWf_launchDomains h x hd
  unfold State.launchCheck
  split
  · exact h
  · split
    · next e => exact State.memWf_snd e hl
    · next e =>
      have hg := State.memWf_launchGraphs (State.memWf_snd e hl) x hd
      split
      · next e' => exact State.memWf_snd e' hg
      · next e' => exact State.memWf_snd e' hg

@[simp] theorem State.memWf_startLaunch (s : State) (q : Queue) (h' : Header) (signal value : DWord) (es : List (List Byte))
    (gs : Vector (List Byte) 16) : (s.startLaunch q h' signal value es gs).memWf ↔ s.memWf :=
  Iff.rfl

@[simp] theorem State.moveWf_tryLaunch {next : State → State} (h : s.memWf) (hn : ∀ u : State, u.memWf → (next u).memWf)
    (q : Queue) (hd : Header) (p : List Byte) : moveWf (s.tryLaunch q hd p next) := by
  have hc := State.memWf_launchCheck h q hd
  unfold State.tryLaunch
  split
  · exact moveWf_none
  · split
    · next e => simp [State.memWf_snd e hc]
    · next e => simp [State.memWf_snd e hc]
    · next e => exact (moveWf_some _).2 (hn _ ((State.memWf_startLaunch ..).2 (State.memWf_snd e hc)))

@[simp] theorem State.moveWf_withHeader {go : Header → State → Option State} (h : s.memWf)
    (hg : ∀ hd (u : State), u.memWf → moveWf (go hd u)) (q : Queue) (p : List Byte) : moveWf (s.withHeader q p go) := by
  have hl := State.memWf_queueLoad h q (bytesAt p 8 8) 256
  unfold State.withHeader
  split
  · next e => simp [State.memWf_snd e hl]
  · next e => exact hg _ _ (State.memWf_snd e hl)

@[simp] theorem State.moveWf_launchPacket (h : s.memWf) (q : Nat) : moveWf (s.launchPacket q) :=
  State.moveWf_issuePacket h (fun _ _ _ hu => State.moveWf_withHeader hu (fun _ _ hv =>
    State.moveWf_tryLaunch hv (fun _ hw => State.memWf_finishPacket hw q) _ _ _) _ _) _ _

@[simp] theorem State.moveWf_callbufPacket (h : s.memWf) (q : Nat) : moveWf (s.callbufPacket q) :=
  State.moveWf_issuePacket h (fun _ _ _ hu => by simp [hu]) _ _

@[simp] theorem State.moveWf_retbufPacket (h : s.memWf) (q : Nat) : moveWf (s.retbufPacket q) :=
  State.moveWf_issuePacket h (fun _ _ _ hu => by simp [hu]) _ _

@[simp] theorem State.moveWf_joinPacket (h : s.memWf) (q : Nat) : moveWf (s.joinPacket q) :=
  State.moveWf_issuePacket h (fun _ _ _ hu => by simp [hu]) _ _

@[simp] theorem State.moveWf_signalPacket (h : s.memWf) (q : Nat) : moveWf (s.signalPacket q) := by
  refine State.moveWf_issuePacket h (fun x p u hu => ?_) _ _
  split
  · exact moveWf_none
  · extract_lets +onlyGivenNames va v add kind c
    have hc : c.memWf := State.memWf_carryAll hu
    clear_value c
    have hp := State.memWf_probe hc x.ctx kind va
    split
    · next e => simp [State.memWf_snd e hp]
    · next e =>
      have hw := State.memWf_servedWrite (State.memWf_snd e hp) x.ctx kind va
      extract_lets +onlyGivenNames old
      split
      · next e' => simp [State.memWf_snd e' (hw _)]
      · next e' => simp [State.memWf_snd e' (hw _)]

@[simp] theorem State.moveWf_waitvalCheck (h : s.memWf) (q : Nat) (armed : Bool) : moveWf (s.waitvalCheck q armed) := by
  unfold State.waitvalCheck
  split
  · exact moveWf_none
  · split
    · exact moveWf_none
    · extract_lets +onlyGivenNames p
      split
      · simp [h]
      · refine State.moveWf_issuePacket h (fun x p u hu => ?_) _ _
        have hl := State.memWf_queueLoad hu x (bytesAt p 8 8) 8
        split
        · next e => simp [State.memWf_snd e hl]
        · next e => simp [State.memWf_snd e hl]

@[simp] theorem State.moveWf_markPacket (h : s.memWf) (q : Nat) : moveWf (s.markPacket q) := by
  refine State.moveWf_issuePacket h (fun x p u hu => ?_) _ _
  have hs := State.memWf_queueStore hu x x.markAt ((p.drop 8).take 8)
  split
  · simp [hu]
  · split
    · next e => simp [State.memWf_snd e hs]
    · next e => simp [State.memWf_snd e hs]

@[simp] theorem State.memWf_dropQueueParks (s : State) (q : Nat) : (s.dropQueueParks q).memWf ↔ s.memWf := Iff.rfl
@[simp] theorem State.memWf_signatureOk (h : s.memWf) (x : Queue) (c : Context) (sig : Nat) (msg : List Byte) :
    (s.signatureOk x c sig msg).2.memWf := by
  have hl := State.memWf_queueLoad h x sig Slh.signatureBytes
  unfold State.signatureOk
  split
  · exact h
  · split
    · exact h
    · split
      · next e => exact State.memWf_snd e hl
      · next e => exact State.memWf_snd e hl

@[simp] theorem State.moveWf_programPacket (h : s.memWf) (q : Nat) : moveWf (s.programPacket q) := by
  refine State.moveWf_issuePacket h (fun x p u hu => ?_) _ _
  extract_lets +onlyGivenNames c fault
  have hf (f : XFault × Nat) {v : State} (hv : v.memWf) : moveWf (fault f v) := by simp [fault, hv]
  clear_value fault
  have hl := State.memWf_queueLoad hu x (bytesAt p 8 8) (8 * bytesAt p 0x10 4)
  split
  · next e => exact hf _ (State.memWf_snd e hl)
  · next v e =>
    have ht := State.memWf_queueLoad (State.memWf_snd e hl) x (bytesAt p 0x18 8) (16 * bytesAt p 0x20 8)
    split
    · next e' => exact hf _ (State.memWf_snd e' ht)
    · next e' =>
      have hv := State.memWf_snd e' ht
      extract_lets +onlyGivenNames windows words
      split
      · simp [hv]
      · extract_lets +onlyGivenNames load
        have hd {w : State} (hw : w.memWf) : moveWf (some (load w)) := by simp [load, hw]
        clear_value load
        split
        · exact hd hv
        · have hs := State.memWf_signatureOk hv x c (bytesAt p 0x28 8)
          split
          · next e => exact hf _ (State.memWf_snd e (hs _))
          · next e => simp [State.memWf_snd e (hs _)]
          · next e => exact hd ((State.memWf_modContext_iff ..).2 (State.memWf_snd e (hs _)))

@[simp] theorem State.moveWf_ilaunchPacket (h : s.memWf) (q : Nat) : moveWf (s.ilaunchPacket q) := by
  refine State.moveWf_issuePacket h (fun x p u hu => ?_) _ _
  split
  · simp [hu]
  · exact State.moveWf_withHeader hu (fun _ _ hv => by simp [hv]) _ _

@[simp] theorem State.memWf_setPrologue (s : State) (q : Nat) (p : Prologue) : (s.setPrologue q p).memWf ↔ s.memWf := Iff.rfl
@[simp] theorem State.memWf_qpStep {rule : QpRun → Option State} (h : s.memWf) (hr : ∀ r, moveWf (rule r)) (q : Nat)
    (w : DWord) : (s.qpStep q w rule).memWf := by
  unfold State.qpStep
  split
  · exact h
  · split
    · exact h
    · split
      · exact (hr _).getD h
      · split
        · exact State.memWf_haltQueue h ..
        · exact (hr _).getD h

@[simp] theorem State.memWf_qpCompute (h : s.memWf) (q : Nat) (w : DWord) (f : Prologue → Prologue) :
    (s.qpCompute q w f).memWf := by
  simp [State.qpCompute, h]

@[simp] theorem State.memWf_qpAlu (h : s.memWf) (q op : Nat) (d a b : KReg) (imm : BitVec 32) (f : DWord → DWord → DWord) :
    (s.qpAlu q op d a b imm f).memWf := by
  simp [State.qpAlu, h]

@[simp] theorem State.memWf_qpLoad (h : s.memWf) (q op : Nat) (d a : KReg) (win : Fin 4) (imm : BitVec 32) (n : Nat) :
    (s.qpLoad q op d a win imm n).memWf := by
  refine State.memWf_qpStep h (fun r => ?_) ..
  split
  · simp [h]
  · next va _ =>
    have hl := State.memWf_queueLoad h r.q va n
    split
    · next e => simp [State.memWf_snd e hl]
    · next e => simp [State.memWf_snd e hl]

@[simp] theorem State.memWf_qpStore (h : s.memWf) (q op : Nat) (d a : KReg) (win : Fin 4) (imm : BitVec 32) (n : Nat) :
    (s.qpStore q op d a win imm n).memWf := by
  refine State.memWf_qpStep h (fun r => ?_) ..
  split
  · simp [h]
  · next va _ =>
    split
    · simp [h]
    · have hs := State.memWf_queueStore h r.q va
      split
      · next e => simp [State.memWf_snd e (hs _)]
      · next e => simp [State.memWf_snd e (hs _)]

end Sys2Proof.Machine
end

section
/-! PROOFS. Memory keeps its canonical form: planting an image, freezes, checkpoints and rollback. -/

namespace Sys2Proof.Machine
variable {s : State}

@[simp] theorem State.memWf_plantWounds (h : s.memWf) (ctx : Nat) (rs : List ImgRec) : (s.plantWounds ctx rs).memWf := by
  refine memWf_foldl (fun u r hu => ?_) _ h
  extract_lets +onlyGivenNames name k left d bit
  split
  · exact (State.memWf_modWarpAt ..).2 hu
  · exact (State.memWf_modWarpAt ..).2 hu
  · exact hu

@[simp] theorem State.memWf_plantLaunches (s : State) (ctx : Nat) (kept : Kept) (ss : List (List ImgRec)) :
    (s.plantLaunches ctx kept ss).memWf ↔ s.memWf :=
  Iff.rfl

@[simp] theorem State.memWf_plantQueues (s : State) (ctx : Nat) (rs : List ImgRec) : (s.plantQueues ctx rs).memWf ↔ s.memWf :=
  Iff.rfl

@[simp] theorem State.memWf_plantGroups (h : s.memWf) (ctx : Nat) (kept : Kept) (ss : List (List ImgRec)) :
    (s.plantGroups ctx kept ss).memWf :=
  memWf_foldl (fun _ _ hu => (State.memWf_modWarpAt ..).2 hu) _ h

@[simp] theorem State.memWf_dropReduction (s : State) (k : WarpKey) (id : Nat) (c : Cause) (va : DWord) :
    (s.dropReduction k id c va).memWf ↔ s.memWf :=
  Iff.rfl

@[simp] theorem State.memWf_translateReduction (h : s.memWf) (k : WarpKey) (id : Nat) :
    (s.translateReduction k id).memWf := by
  unfold State.translateReduction
  split
  · exact h
  · next r _ =>
    extract_lets +onlyGivenNames place park try2
    have hp {u : State} (hu : u.memWf) (t : Xlat) : (place u t).memWf := hu
    have ht {u : State} (hu : u.memWf) (x : XFault) : (try2 u x).memWf := by
      simp only [try2]
      split <;> exact hu
    clear_value place try2
    have hx {u : State} (hu : u.memWf) := State.memWf_translate hu fabric k.ctx r.va .atomic false
    split
    · next e => exact hp (State.memWf_snd e (hx h)) _
    · next e =>
      have hc := State.memWf_cowServe (State.memWf_snd e (hx h)) k.ctx r.va
      split
      · next e' => exact ht (State.memWf_snd e' hc) _
      · next e' =>
        have hv := hx (State.memWf_snd e' hc)
        split
        · next e => exact hp (State.memWf_snd e hv) _
        · next e => exact ht (State.memWf_snd e hv) _
    · next e => exact ht (State.memWf_snd e (hx h)) _

@[simp] theorem State.memWf_recordTime (h : s.memWf) : s.recordTime.memWf :=
  memWf_foldl (fun _ q hu => State.memWf_writeQueueRecord hu q.num) _ h

@[simp] theorem State.memWf_redTime (h : s.memWf) : s.redTime.memWf := by
  refine memWf_foldl (fun u w hu => memWf_foldl (fun v id hv => ?_) _ hu) _ h
  split
  · exact hv
  · exact State.memWf_translateReduction hv ..

@[simp] theorem State.memWf_plantReductions (h : s.memWf) (ctx : Nat) (rs : List ImgRec) :
    (s.plantReductions ctx rs).memWf := by
  refine memWf_foldl (fun u r hu => ?_) _ h
  extract_lets +onlyGivenNames k x add
  have ha {v : State} (hv : v.memWf) (x : Reduction) : (add v x).memWf := hv
  split
  · exact ha hu x
  · exact State.memWf_translateReduction (ha (v := { u with fresh := u.fresh + 1 }) hu _) ..

@[simp] theorem State.memWf_enterPending (h : s.memWf) (ctx : Nat) : (s.enterPending ctx).memWf := by
  refine memWf_foldl (fun u k hu => ?_) _ h
  split
  · exact hu
  · refine State.memWf_inSplit hu (fun v hv => ?_) ..
    split <;> simp [hv]

@[simp] theorem State.memWf_plantAll (h : s.memWf) (ctx : Nat) (img : List Byte) (ss : List (List ImgRec)) :
    (s.plantAll ctx img ss).memWf := by
  unfold State.plantAll
  extract_lets +onlyGivenNames u v kept w x y z q r
  have hw : w.memWf := (State.memWf_plantLaunches ..).2 ((State.memWf_plantQueues ..).2 ((State.memWf_modContext_iff ..).2 h))
  have hx : x.memWf := State.memWf_emptyCaches ((State.memWf_freshCode ..).2 hw)
  have hz : z.memWf := (State.memWf_forgetOwners ..).2 (State.memWf_plantGroups (s := y) hx ..)
  have hr : r.memWf := State.memWf_plantReductions (State.memWf_plantWounds hz ..) ..
  exact State.memWf_enterPending (State.memWf_plantDue hr) ctx

@[simp] theorem State.memWf_plantImage (h : s.memWf) (ctx addr : Nat) : (s.plantImage ctx addr).2.memWf := by
  unfold State.plantImage
  dsimp only
  split <;> simp [h]

@[simp] theorem State.memWf_dropWork (h : s.memWf) (ctx : Nat) : (s.dropWork ctx).memWf := by simp [State.dropWork, h]
@[simp] theorem State.memWf_takeCheckpoint (h : s.memWf) (ctx : Nat) : (s.takeCheckpoint ctx).memWf := by
  unfold State.takeCheckpoint
  dsimp only
  split <;> simp [h, State.memWf_homeWrite]

@[simp] theorem State.memWf_preemptNow (h : s.memWf) (ctx : Nat) : (s.preemptNow ctx).memWf := by
  unfold State.preemptNow
  split
  · exact h
  · exact (State.memWf_modContext_iff ..).2
      (State.memWf_dropWork (memWf_foldl (fun _ a hu => State.memWf_saveImage hu ..) _ h) ctx)

@[simp] theorem State.memWf_finishFreeze (h : s.memWf) (ctx : Nat) : (s.finishFreeze ctx).memWf := by
  simp [State.finishFreeze, h]

@[simp] theorem State.memWf_restoreLine (h : s.memWf) (base : Nat) (bytes : List Byte) :
    (s.restoreLine base bytes).memWf :=
  memWf_foldl (fun _ _ hu => State.memWf_putStored hu ..) _ h

@[simp] theorem State.memWf_undoWrites (h : s.memWf) (c : Context) : (s.undoWrites c).memWf :=
  memWf_foldl (fun _ _ hu => State.memWf_restoreLine hu ..) _
    (memWf_foldl (fun _ _ hu => State.memWf_restoreLine hu ..) _ (State.memWf_emptyCaches h))

@[simp] theorem State.memWf_rollback (h : s.memWf) (ctx : Nat) : (s.rollback ctx).memWf := by
  unfold State.rollback
  split
  · exact h
  · next c _ =>
    split
    · exact h
    · extract_lets +onlyGivenNames u v
      have hu : u.memWf := State.memWf_dropWork (State.memWf_undoWrites h c) ctx
      generalize (if c.current == some true then c.areaB else c.areaA) = area
      have hp := State.memWf_plantImage (s := v) hu ctx area
      split
      next e => exact State.memWf_of_mem (State.memWf_snd e hp) rfl

end Sys2Proof.Machine
end

section
/-! PROOFS. Memory keeps its canonical form: the host, the scrub, peers and errors. -/

namespace Sys2Proof.Machine
variable {s : State}

@[simp] theorem State.memWf_say (s : State) (e : HostEvent) : (s.say e).memWf ↔ s.memWf := Iff.rfl
@[simp] theorem State.memWf_reply (s : State) (code : Nat) (ok : Bool) : (s.reply code ok).memWf ↔ s.memWf := Iff.rfl
@[simp] theorem State.memWf_command {f : Option State} (h : s.memWf) (hf : moveWf f) (code : Nat) : (s.command code f).memWf := by
  unfold State.command
  split
  · exact h
  · split
    · exact (State.memWf_reply ..).2 (hf _ rfl)
    · exact h

@[simp] theorem State.memWf_failColls (h : s.memWf) (p : CollGroup → Bool) : (s.failColls p).memWf :=
  memWf_foldl (fun _ _ hu => State.memWf_failCommand hu ..) _ h

@[simp] theorem State.memWf_deliverTrap (h : s.memWf) (p : Park) (c : Cause) : (s.deliverTrap p c).memWf := by
  simp [State.deliverTrap, h]

@[simp] theorem State.memWf_deliverQueue (h : s.memWf) (q va : Nat) (kind : AccessKind) : (s.deliverQueue q va kind).memWf := by
  unfold State.deliverQueue
  dsimp only
  split <;> simp [h]

@[simp] theorem State.memWf_deliverPark (h : s.memWf) (p : Park) (c : Cause) : (s.deliverPark p c).memWf := by
  unfold State.deliverPark
  extract_lets +onlyGivenNames u
  have hu : u.memWf := by simp [u, h]
  clear_value u
  split
  · refine State.memWf_inSplit hu (fun v hv => ?_) ..
    split
    · split
      · exact State.memWf_deliverTrap hv ..
      · exact hv
    · exact hv
  · exact State.memWf_deliverCommand hu ..
  · exact State.memWf_deliverQueue hu ..
  · exact (State.memWf_dropReduction ..).2 hu

@[simp] theorem State.memWf_replayPark (h : s.memWf) (p : Park) : (s.replayPark p).memWf := by
  unfold State.replayPark
  split <;> simp [h]

@[simp] theorem State.memWf_zeroFrame (h : s.memWf) (f : Nat × Nat) : (s.zeroFrame f).memWf := by
  unfold State.zeroFrame
  extract_lets +onlyGivenNames out u v w
  have hu : u.memWf := State.memWf_keepNamed h ..
  have hv : v.memWf := by
    simp only [v]
    split
    · exact hu
    · exact memWf_foldl (fun _ _ ht => State.memWf_logWrite (State.memWf_keepCode ht _) ..) _ hu
  have hw : w.memWf := wf_filter hv _
  refine memWf_foldl (fun t m ht => ?_) _ hw
  split
  · exact State.memWf_fireAt ht ..
  · exact ht

@[simp] theorem State.memWf_scrubSome (h : s.memWf) (bytes : Nat) : (s.scrubSome bytes).memWf := by
  unfold State.scrubSome
  split
  · exact h
  · exact memWf_foldl (fun _ f hu => State.memWf_zeroFrame hu f) _ h

@[simp] theorem State.memWf_memoryWrite (h : s.memWf) (w : Writer) (pa : Nat) (b : Byte) : (s.memoryWrite w pa b).memWf := by
  unfold State.memoryWrite
  extract_lets +onlyGivenNames u v
  have hu : u.memWf := State.memWf_logWrite (State.memWf_keepCode (State.memWf_keepNamed h ..) _) ..
  have hv : v.memWf := by
    simp only [v]
    split
    · exact State.memWf_rekeyLine hu ..
    · exact hu
  split
  · exact hv
  · exact hv
  · exact hv
  · exact State.memWf_fireAt (State.memWf_setMem (wf_cellSet hv pa b)) ..

@[simp] theorem State.memWf_hostPlaces (h : s.memWf) (ctx va n : Nat) (kind : AccessKind) :
    (s.hostPlaces ctx va n kind).2.memWf := by
  refine memWf_snd_foldl (fun p c hp => ?_) _ h
  split
  · exact hp
  · have ht := State.memWf_translate hp fabric ctx (BitVec.ofNat 64 c.1) kind true
    split
    · next e => exact State.memWf_snd e ht
    · next e => exact State.memWf_snd e ht

@[simp] theorem State.memWf_healLines (s : State) (places : List Nat) : (s.healLines places).memWf ↔ s.memWf := Iff.rfl
@[simp] theorem State.memWf_hostCow (h : s.memWf) (ctx va n : Nat) : (s.hostCow ctx va n).memWf := by
  refine memWf_foldl (fun u c hu => ?_) _ h
  have ht := State.memWf_translate hu fabric ctx (BitVec.ofNat 64 c.1) .store true
  split
  · next e => exact State.memWf_cowServe (State.memWf_snd e ht) ..
  · next e => exact State.memWf_snd e ht

@[simp] theorem State.memWf_outerAtomic (h : s.memWf) (ctx key : Option Nat) (pa : Nat) (a : OuterAtomic) :
    (s.outerAtomic ctx key pa a).memWf := by
  simp [State.outerAtomic, h]

@[simp] theorem State.memWf_hostMemory (h : s.memWf) (a : HostAccess) : (s.hostMemory a).memWf := by
  unfold State.hostMemory
  extract_lets +onlyGivenNames u
  have hu : u.memWf := by
    simp only [u]
    split
    · exact State.memWf_hostCow h ..
    · exact h
  clear_value u
  have hp := State.memWf_hostPlaces hu a.ctx a.addr (hostSize a) (hostKind a)
  split
  · next e => exact (State.memWf_say ..).2 (State.memWf_snd e hp)
  · next e =>
    have hv := State.memWf_snd e hp
    extract_lets +onlyGivenNames windowed
    split
    · split
      · exact State.memWf_outerAtomic hv ..
      · exact hv
    · exact (State.memWf_say ..).2 hv
    · refine (State.memWf_healLines ..).2 (memWf_foldl (fun t p ht => ?_) _ hv)
      dsimp only
      split
      · exact State.memWf_memoryWrite ht ..
      · exact State.memWf_homeWrite _ ht ..

@[simp] theorem State.memWf_hostWindow (h : s.memWf) (a : HostAccess) : (s.hostWindow a).memWf := by
  unfold State.hostWindow
  extract_lets +onlyGivenNames place
  split
  · exact (State.memWf_say ..).2 h
  · split
    · exact State.memWf_outerAtomic h ..
    · exact (State.memWf_say ..).2 h
    · exact State.memWf_homeWrite _ h ..

@[simp] theorem State.memWf_peerWrite (h : s.memWf) (a : Nat) (bytes : List Byte) : (s.peerWrite a bytes).memWf := by
  refine memWf_foldl (fun u b hu => ?_) _ h
  split
  · exact State.memWf_homeWrite _ hu ..
  · exact hu

@[simp] theorem State.memWf_peerAtomic (h : s.memWf) (pa : Nat) (a : OuterAtomic) : (s.peerAtomic pa a).memWf := by
  simp [State.peerAtomic, h]

@[simp] theorem State.memWf_failLate (h : s.memWf) (x : LateWrite) : (s.failLate x).memWf := by
  unfold State.failLate
  split <;> simp [h]

@[simp] theorem State.memWf_failInFlight (h : s.memWf) (p : Nat) : (s.failInFlight p).memWf := by
  unfold State.failInFlight
  extract_lets +onlyGivenNames hit u
  have hu : u.memWf := memWf_foldl (fun _ x ht => State.memWf_failLate ht x) _ (by simpa using h)
  refine (State.memWf_redoLanes ..).2 (memWf_foldl (fun t w ht => (State.memWf_modWarpAt ..).2 ?_) _ hu)
  exact memWf_foldl (fun _ _ hv => State.memWf_performRed hv ..) _
    (State.memWf_inSplit ht (fun v hv => State.memWf_performLong hv _) ..)

@[simp] theorem State.memWf_transientError (s : State) (ctx : Nat) : (s.transientError ctx).memWf ↔ s.memWf := Iff.rfl
@[simp] theorem State.memWf_lineError (h : s.memWf) (ctx line : Nat) : (s.lineError ctx line).memWf := by
  simp [State.lineError, h]

@[simp] theorem State.memWf_retireCore (s : State) (core : Nat) : (s.retireCore core).memWf ↔ s.memWf := Iff.rfl
@[simp] theorem State.memWf_readError (h : s.memWf) (w : WarpKey) (sp : Fin 4) (addr : DWord) :
    (s.readError w sp addr).memWf := by
  simp +contextual [State.readError, h]

@[simp] theorem State.memWf_coreError (h : s.memWf) (w : WarpKey) (sp : Fin 4) (addr : DWord) :
    (s.coreError w sp addr).memWf := by
  unfold State.coreError
  split <;> simp [h]

@[simp] theorem State.memWf_cacheError (h : s.memWf) (w : WarpKey) (sp : Fin 4) (line : Nat) (va : DWord) :
    (s.cacheError w sp line va).memWf := by
  unfold State.cacheError
  split <;> simp [h]

@[simp] theorem State.memWf_dropCode (s : State) (core ctx va : Nat) : (s.dropCode core ctx va).memWf ↔ s.memWf := Iff.rfl
@[simp] theorem State.memWf_fetchError (h : s.memWf) (w : WarpKey) (sp : Fin 4) : (s.fetchError w sp).memWf := by
  unfold State.fetchError
  split
  · exact h
  · split
    · exact h
    · exact State.memWf_readError ((State.memWf_say ..).2 ((State.memWf_dropCode ..).2 h)) ..

@[simp] theorem State.memWf_dropL2 (s : State) (line : Nat) : (s.dropL2 line).memWf ↔ s.memWf := Iff.rfl
@[simp] theorem State.memWf_l2Error (h : s.memWf) (w : WarpKey) (sp : Fin 4) (line : Nat) (va : DWord) :
    (s.l2Error w sp line va).memWf := by
  unfold State.l2Error
  split <;> simp [h]

@[simp] theorem State.memWf_commandError {f : Workgroup → State → State} (h : s.memWf)
    (hf : ∀ x (u : State), u.memWf → (f x u).memWf) (g : WgKey) (st : Fin 16) : (s.commandError g st f).memWf := by
  unfold State.commandError
  split
  · next x _ _ _ =>
    split
    · exact h
    · dsimp only
      split
      · exact State.memWf_rollback (hf x s h) _
      · exact State.memWf_failCommand (hf x s h) ..
  · exact h

@[simp] theorem State.memWf_engineError (h : s.memWf) (g : WgKey) (st : Fin 16) : (s.engineError g st).memWf := by
  simp [State.engineError, h]

end Sys2Proof.Machine
end

section
/-! PROOFS. Memory keeps its canonical form: the instructions and steps that have a rule of their own. -/

namespace Sys2Proof.Machine
variable {s : State}

@[simp] theorem nextWf_execVlea (h : s.memWf) (d a b : Reg) : nextWf (execVlea d a b s) := by simp [execVlea, h]

@[simp] theorem nextWf_execGrow (h : s.memWf) (imm : BitVec 18) : nextWf (execGrow imm s) := by
  refine (nextWf_next _).2 (State.memWf_issue h (fun u hu => ?_) ..)
  split
  · exact hu
  · split
    · next e => exact State.moveWf_growGrant hu _ _ e
    · exact State.memWf_growDead ((State.memWf_setWait ..).2 hu) _

@[simp] theorem nextWf_execShrink (h : s.memWf) (imm : BitVec 18) : nextWf (execShrink imm s) := by
  simp +contextual [execShrink, h]

@[simp] theorem nextWf_execBar (h : s.memWf) (n : Fin 16) : nextWf (execBar n s) := by simp +contextual [execBar, h]
@[simp] theorem nextWf_execBararr (h : s.memWf) (n : Fin 16) : nextWf (execBararr n s) := by
  refine (nextWf_next _).2 (State.memWf_issue h (fun u hu => ?_) ..)
  split
  · exact (State.memWf_commitWait u).2 hu
  · exact State.memWf_testBarrier (State.memWf_arrive hu _) ..

@[simp] theorem nextWf_execBarwait (h : s.memWf) (n : Fin 16) : nextWf (execBarwait n s) := by simp [execBarwait, h]
@[simp] theorem nextWf_execCbar (h : s.memWf) : nextWf (execCbar s) := by simp +contextual [execCbar, h]
@[simp] theorem nextWf_execTkwait (h : s.memWf) (d : Reg) (k : Fin 4) : nextWf (execTkwait d k s) := by
  refine (nextWf_next _).2 (State.memWf_issue h (fun u hu => ?_) ..)
  split
  · exact hu
  · split
    · exact hu
    · dsimp only
      split
      · exact State.memWf_acquireAt hu _
      · exact hu

@[simp] theorem nextWf_execTkpass (h : s.memWf) (d : Reg) (k : Fin 4) : nextWf (execTkpass d k s) := by
  simp +contextual [execTkpass, h]

@[simp] theorem nextWf_execTkpassPoison (h : s.memWf) (d : Reg) (k : Fin 4) : nextWf (execTkpassPoison d k s) := by
  simp +contextual [execTkpassPoison, h]

@[simp] theorem nextWf_execFence (h : s.memWf) (p q : BitVec 6) : nextWf (execFence p q s) := by
  refine (nextWf_next _).2 (State.memWf_issue h (fun u hu => ?_) ..)
  split
  · exact hu
  · split
    · exact (State.memWf_commitWait u).2 hu
    · refine State.memWf_fenceRule ?_ ..
      split
      · exact hu
      · exact hu

@[simp] theorem nextWf_execLkacq (h : s.memWf) (d a : Reg) (m : LkMode) : nextWf (execLkacq d a m s) := by
  simp +contextual [execLkacq, h]

@[simp] theorem nextWf_execLktry (h : s.memWf) (d a : Reg) (m : LkMode) : nextWf (execLktry d a m s) := by
  simp +contextual [execLktry, h]

@[simp] theorem nextWf_execLkup (h : s.memWf) (d a : Reg) (m : LkMode) : nextWf (execLkup d a m s) := by
  refine (nextWf_next _).2 (State.memWf_issue h (fun u hu => State.memWf_lockForm hu (fun v hv => ?_) _) ..)
  refine State.memWf_resumed hv ?_ ..
  split
  · exact hv
  · exact State.memWf_settleLocks ((State.memWf_modContext_iff ..).2 ((State.memWf_setWait ..).2 hv)) ..

@[simp] theorem nextWf_execLkdown (h : s.memWf) (d a : Reg) (m : LkMode) : nextWf (execLkdown d a m s) := by
  refine (nextWf_next _).2 (State.memWf_issue h (fun u hu => State.memWf_lockForm hu (fun v hv => ?_) _) ..)
  extract_lets +onlyGivenNames n key held
  split
  · exact hv
  · extract_lets +onlyGivenNames releases
    split
    · exact (State.memWf_commitWait v).2 hv
    · refine (State.memWf_modWarp ..).2 (State.memWf_settleLocks ((State.memWf_modContext_iff ..).2 ?_) ..)
      split
      · exact State.memWf_lockRelease (State.memWf_flushOwn hv)
      · exact hv

@[simp] theorem nextWf_execLkrel (h : s.memWf) (d a : Reg) : nextWf (execLkrel d a s) := by
  refine (nextWf_next _).2 (State.memWf_issue h (fun u hu => State.memWf_lockForm hu (fun v hv => ?_) _) ..)
  extract_lets +onlyGivenNames n key
  split
  · exact hv
  · split
    · exact (State.memWf_commitWait v).2 hv
    · exact (State.memWf_modWarp ..).2 (State.memWf_dropHolding (State.memWf_flushOwn hv) ..)

@[simp] theorem nextWf_execLkstat (h : s.memWf) (d a : Reg) : nextWf (execLkstat d a s) := by simp +contextual [execLkstat, h]
@[simp] theorem nextWf_execLktab (h : s.memWf) (d a : Reg) : nextWf (execLktab d a s) := by simp +contextual [execLktab, h]
@[simp] theorem nextWf_execRevocation (h : s.memWf) (w : WarpKey) : nextWf (execRevocation w s) := by
  unfold execRevocation
  split <;> simp [h]

@[simp] theorem nextWf_execHmake (h : s.memWf) (d a : Reg) (buf : Buf) : nextWf (execHmake d a buf s) := by
  refine (nextWf_next _).2 (State.memWf_issue h (fun u hu => ?_) ..)
  extract_lets +onlyGivenNames base size k
  split
  · exact hu
  · extract_lets +onlyGivenNames answer hs
    split
    · exact hu
    · split
      · exact hu
      · exact hu

@[simp] theorem nextWf_execHtake (h : s.memWf) (d a : Reg) : nextWf (execHtake d a s) := by
  refine (nextWf_next _).2 (State.memWf_issue h (fun u hu => ?_) ..)
  extract_lets +onlyGivenNames filter
  split
  · next e => exact State.memWf_tryTake hu _ _ _ e
  · exact hu

@[simp] theorem nextWf_execHgive (h : s.memWf) (d a b : Reg) : nextWf (execHgive d a b s) := by
  refine (nextWf_next _).2 (State.memWf_issue h (fun u hu => ?_) ..)
  extract_lets +onlyGivenNames x r k answer
  have ha {v : State} (hv : v.memWf) (w : Word) : (answer v w).memWf := hv
  split
  · exact hu
  · split
    · exact hu
    · split
      · exact hu
      · refine State.memWf_afterAccesses hu (fun v hv => ?_) ..
        exact ha (State.memWf_serveTakes ((State.memWf_setSlot ..).2 hv) ..) _

@[simp] theorem nextWf_execHdrop (h : s.memWf) (d a : Reg) : nextWf (execHdrop d a s) := by
  refine (nextWf_next _).2 (State.memWf_issue h (fun u hu => ?_) ..)
  extract_lets +onlyGivenNames x k
  split
  · exact hu
  · refine State.memWf_afterAccesses hu (fun v hv => ?_) ..
    refine (Res.memWf_done _).2 ((State.memWf_modWarp ..).2 ?_)
    split
    · exact hv
    · exact State.memWf_returnHandle hv ..

@[simp] theorem nextWf_execHquery (h : s.memWf) (d a : Reg) : nextWf (execHquery d a s) := by
  refine (nextWf_next _).2 (State.memWf_issue h (fun u hu => ?_) ..)
  extract_lets +onlyGivenNames k put
  have hp (v base size : Nat) : (put v base size).memWf := hu
  split
  · exact hp ..
  · exact hp ..

@[simp] theorem nextWf_execCowService (h : s.memWf) (id : Nat) : nextWf (execCowService id s) := by
  refine (nextWf_next _).2 ?_
  split
  · next p _ =>
    have hc := State.memWf_cowServe h p.ctx p.va
    split
    · split
      · next e => exact State.memWf_replay (State.memWf_snd e hc) p
      · next e => exact (State.memWf_offerPool ..).2 (State.memWf_snd e hc)
    · exact h
  · exact h

@[simp] theorem nextWf_execPoolReplay (h : s.memWf) (id : Nat) : nextWf (execPoolReplay id s) := by
  unfold execPoolReplay
  split <;> simp [h]

@[simp] theorem nextWf_execExit (h : s.memWf) : nextWf (execExit s) := by simp +contextual [execExit, h]
@[simp] theorem nextWf_execNop (h : s.memWf) : nextWf (execNop s) := by simp [execNop, h]
@[simp] theorem nextWf_execClause (h : s.memWf) (c : ClauseWord) : nextWf (execClause c s) := by simp [execClause, h]
@[simp] theorem nextWf_execBra (h : s.memWf) (imm : BitVec 25) : nextWf (execBra imm s) := by simp [execBra, h]
@[simp] theorem nextWf_execBrnz (h : s.memWf) (d : Reg) (imm : BitVec 18) : nextWf (execBrnz d imm s) := by simp [execBrnz, h]
@[simp] theorem nextWf_execBrz (h : s.memWf) (d : Reg) (imm : BitVec 18) : nextWf (execBrz d imm s) := by simp [execBrz, h]
@[simp] theorem nextWf_execCall (h : s.memWf) (d : Reg) (imm : BitVec 18) : nextWf (execCall d imm s) := by simp [execCall, h]
@[simp] theorem nextWf_execBrv (h : s.memWf) (neg : Bool) (p : PReg) (imm : BitVec 18) : nextWf (execBrv neg p imm s) := by
  simp +contextual [execBrv, h]

@[simp] theorem nextWf_execYield (h : s.memWf) : nextWf (execYield s) := by simp [execYield, h]
@[simp] theorem nextWf_execSleep (h : s.memWf) (imm : BitVec 18) : nextWf (execSleep imm s) := by simp [execSleep, h]
@[simp] theorem nextWf_execSleepExpiry (h : s.memWf) (w : WarpKey) (sp : Fin 4) : nextWf (execSleepExpiry w sp s) := by
  simp [execSleepExpiry, h]

@[simp] theorem nextWf_execUndef (h : s.memWf) (w : Word) : nextWf (execUndef w s) := by simp [execUndef, h]
@[simp] theorem nextWf_execTrap (h : s.memWf) (imm : BitVec 18) : nextWf (execTrap imm s) := by simp +contextual [execTrap, h]
@[simp] theorem nextWf_execTret (h : s.memWf) : nextWf (execTret s) := by simp [execTret, h]
@[simp] theorem nextWf_execBkpt (h : s.memWf) : nextWf (execBkpt s) := by simp [execBkpt, h]
@[simp] theorem nextWf_execTrapEntry (h : s.memWf) (w : WarpKey) : nextWf (execTrapEntry w s) := by simp [execTrapEntry, h]
@[simp] theorem nextWf_execLongComplete (h : s.memWf) (w : WarpKey) : nextWf (execLongComplete w s) := by
  refine (nextWf_next _).2 ?_
  split
  · refine State.memWf_inSplit h (fun u hu => ?_) ..
    have hp := State.memWf_performLong hu
    dsimp only
    split
    · exact (State.memWf_modWarp ..).2 (hp _)
    · exact hp _
  · exact h

@[simp] theorem nextWf_execReductionPerform (h : s.memWf) (w : WarpKey) : nextWf (execReductionPerform w s) := by
  refine (nextWf_next _).2 ?_
  split
  · split
    · exact h
    · exact (State.memWf_modWarpAt ..).2 (memWf_foldl (fun _ _ hu => State.memWf_performRed hu ..) _ h)
  · exact h

@[simp] theorem nextWf_execLdg (h : s.memWf) (d a b : Reg) (la : Fin 16) : nextWf (execLdg d a b la s) := by
  simp +contextual [execLdg, h]

@[simp] theorem nextWf_execStg (h : s.memWf) (d a b : Reg) (la : Fin 16) : nextWf (execStg d a b la s) := by
  simp +contextual [execStg, h]

@[simp] theorem nextWf_execLdgs (h : s.memWf) (d a b : Reg) (la : Fin 16) : nextWf (execLdgs d a b la s) :=
  (nextWf_next _).2 (State.memWf_issue h (fun _ hu =>
    State.memWf_checked hu (fun _ _ hv => State.memWf_loadAt hv ..) ..) ..)

@[simp] theorem nextWf_execStgs (h : s.memWf) (d a b : Reg) (la : Fin 16) : nextWf (execStgs d a b la s) :=
  (nextWf_next _).2 (State.memWf_issue h (fun _ hu =>
    State.memWf_checked hu (fun _ _ hv => State.memWf_storeAt hv ..) ..) ..)

@[simp] theorem nextWf_execLdsb (h : s.memWf) (d a b : Reg) (la : Fin 16) : nextWf (execLdsb d a b la s) := by
  simp +contextual [execLdsb, h]

@[simp] theorem nextWf_execStsb (h : s.memWf) (d a b : Reg) (la : Fin 16) : nextWf (execStsb d a b la s) := by
  simp +contextual [execStsb, h]

@[simp] theorem nextWf_execLdab (h : s.memWf) (d a b : Reg) (la : Fin 16) : nextWf (execLdab d a b la s) := by
  simp +contextual [execLdab, h]

@[simp] theorem nextWf_execStab (h : s.memWf) (d a b : Reg) (la : Fin 16) : nextWf (execStab d a b la s) := by
  simp +contextual [execStab, h]

@[simp] theorem nextWf_execLdcb (h : s.memWf) (d a b : Reg) (la : Fin 16) : nextWf (execLdcb d a b la s) := by
  simp +contextual [execLdcb, h]

@[simp] theorem nextWf_execStcb (h : s.memWf) (d a b : Reg) (la : Fin 16) : nextWf (execStcb d a b la s) := by
  simp +contextual [execStcb, h]

@[simp] theorem nextWf_execLdh (h : s.memWf) (d a b : Reg) (la : Fin 16) : nextWf (execLdh d a b la s) :=
  (nextWf_next _).2 (State.memWf_issue h (fun _ hu =>
    State.memWf_viaHandle hu (fun _ _ => State.memWf_loadAt hu ..) ..) ..)

@[simp] theorem nextWf_execSth (h : s.memWf) (d a b : Reg) (la : Fin 16) : nextWf (execSth d a b la s) :=
  (nextWf_next _).2 (State.memWf_issue h (fun _ hu =>
    State.memWf_viaHandle hu (fun _ _ => State.memWf_storeAt hu ..) ..) ..)

@[simp] theorem nextWf_execPref (h : s.memWf) (l2 : Bool) (a b : Reg) : nextWf (execPref l2 a b s) := by simp [execPref, h]
@[simp] theorem nextWf_execCflush (h : s.memWf) (a b : Reg) : nextWf (execCflush a b s) := by simp +contextual [execCflush, h]
@[simp] theorem nextWf_execCinv (h : s.memWf) (a b : Reg) : nextWf (execCinv a b s) := by simp +contextual [execCinv, h]
@[simp] theorem nextWf_execAadd (h : s.memWf) (d a b : Reg) (la : Fin 16) : nextWf (execAadd d a b la s) := by
  simp +contextual [execAadd, h]

@[simp] theorem nextWf_execAmin (h : s.memWf) (d a b : Reg) (la : Fin 16) : nextWf (execAmin d a b la s) := by
  simp +contextual [execAmin, h]

@[simp] theorem nextWf_execAmax (h : s.memWf) (d a b : Reg) (la : Fin 16) : nextWf (execAmax d a b la s) := by
  simp +contextual [execAmax, h]

@[simp] theorem nextWf_execAand (h : s.memWf) (d a b : Reg) (la : Fin 16) : nextWf (execAand d a b la s) := by
  simp +contextual [execAand, h]

@[simp] theorem nextWf_execAor (h : s.memWf) (d a b : Reg) (la : Fin 16) : nextWf (execAor d a b la s) := by
  simp +contextual [execAor, h]

@[simp] theorem nextWf_execAxor (h : s.memWf) (d a b : Reg) (la : Fin 16) : nextWf (execAxor d a b la s) := by
  simp +contextual [execAxor, h]

@[simp] theorem nextWf_execAxchg (h : s.memWf) (d a b : Reg) (la : Fin 16) : nextWf (execAxchg d a b la s) := by
  simp +contextual [execAxchg, h]

@[simp] theorem nextWf_execAcas (h : s.memWf) (d a b : Reg) (la : Fin 16) : nextWf (execAcas d a b la s) := by
  simp +contextual [execAcas, h]

@[simp] theorem nextWf_execAincw (h : s.memWf) (d a b : Reg) (la : Fin 16) : nextWf (execAincw d a b la s) := by
  simp +contextual [execAincw, h]

@[simp] theorem nextWf_execAfadd (h : s.memWf) (d a b : Reg) (la : Fin 16) : nextWf (execAfadd d a b la s) := by
  simp +contextual [execAfadd, h]

@[simp] theorem nextWf_execAfmin (h : s.memWf) (d a b : Reg) (la : Fin 16) : nextWf (execAfmin d a b la s) := by
  simp +contextual [execAfmin, h]

@[simp] theorem nextWf_execAfmax (h : s.memWf) (d a b : Reg) (la : Fin 16) : nextWf (execAfmax d a b la s) := by
  simp +contextual [execAfmax, h]

@[simp] theorem nextWf_execWaitcmp (h : s.memWf) (d a b : Reg) (c : WCond) : nextWf (execWaitcmp d a b c s) := by
  simp +contextual [execWaitcmp, h]

@[simp] theorem nextWf_execTlbinv (h : s.memWf) (a b : Reg) : nextWf (execTlbinv a b s) := by
  refine (nextWf_next _).2 (State.memWf_issue h (fun u hu => State.memWf_privileged hu ?_ _) ..)
  extract_lets +onlyGivenNames va c sel ctx v held
  have hv : v.memWf := State.memWf_flushAll hu
  split
  · exact (State.memWf_othersWait ..).2 hv
  · exact (State.memWf_tlbInvalidate_iff ..).2 ((State.memWf_redoWaits ..).2 hv)

@[simp] theorem nextWf_execSrdp (h : s.memWf) (d : Reg) (n : PrivReg) : nextWf (execSrdp d n s) := by
  simp +contextual [execSrdp, h]

@[simp] theorem nextWf_execIcinv (h : s.memWf) : nextWf (execIcinv s) := by
  refine (nextWf_next _).2 (State.memWf_issue h (fun u hu => State.memWf_privileged hu ?_ _) ..)
  split
  · exact (State.memWf_commitWait u).2 hu
  · exact (State.memWf_freshCode ..).2 (State.memWf_releaseAt hu _)

@[simp] theorem nextWf_execCpy (h : s.memWf) (d a b : Reg) (stream : Fin 16) : nextWf (execCpy d a b stream s) := by
  simp +contextual [execCpy, h]

@[simp] theorem nextWf_execMma (h : s.memWf) (d a b : Reg) (stream : Fin 16) : nextWf (execMma d a b stream s) := by
  simp +contextual [execMma, h]

@[simp] theorem nextWf_execColl (h : s.memWf) (d a b : Reg) (stream : Fin 16) : nextWf (execColl d a b stream s) := by
  simp +contextual [execColl, h]

@[simp] theorem nextWf_execTgload (h : s.memWf) (d a b : Reg) : nextWf (execTgload d a b s) := by
  simp +contextual [execTgload, h]

@[simp] theorem nextWf_execSwait (h : s.memWf) (d b : Reg) (stream : Fin 16) : nextWf (execSwait d b stream s) := by
  refine (nextWf_next _).2 (State.memWf_issue h (fun u hu => ?_) ..)
  extract_lets +onlyGivenNames t
  split
  · exact hu
  · extract_lets +onlyGivenNames st
    split
    · exact hu
    · split
      · exact hu
      · split
        · exact hu
        · split
          · exact hu
          · exact hu
          · exact hu

@[simp] theorem nextWf_execSpoll (h : s.memWf) (d b : Reg) (stream : Fin 16) : nextWf (execSpoll d b stream s) := by
  simp +contextual [execSpoll, h]

@[simp] theorem nextWf_execFpack (h : s.memWf) (d a b : Reg) (rm : Rm) : nextWf (execFpack d a b rm s) := by simp [execFpack, h]

@[simp] theorem nextWf_execEngineCommandStart (h : s.memWf) (g : WgKey) (stream : Fin 16) :
    nextWf (execEngineCommandStart g stream s) := by
  refine (nextWf_next _).2 ?_
  split
  · next x c _ _ =>
    split
    · exact h
    · split
      · exact h
      · exact State.memWf_failCommand h ..
      · split
        · exact h
        · extract_lets +onlyGivenNames start
          split
          · split
            · exact State.memWf_stopCommand h ..
            · exact h
          · split
            · exact State.memWf_stopCommand h ..
            · exact h
          · have hc := State.memWf_collContribute h g stream c
            split
            · next e => exact State.memWf_stopCommand (State.memWf_snd e hc) ..
            · next e => exact (State.memWf_modHead ..).2 ((State.memWf_modHead ..).2 (State.memWf_snd e hc))
  · exact h

@[simp] theorem nextWf_execMmaChunkCommit (h : s.memWf) (g : WgKey) (stream : Fin 16) : nextWf
    (execMmaChunkCommit g stream s) := by
  simp [execMmaChunkCommit, h]

@[simp] theorem nextWf_execCollInstanceComplete (h : s.memWf) (ctx group : Nat) (tag : Word) :
    nextWf (execCollInstanceComplete ctx group tag s) := by
  refine (nextWf_next _).2 ?_
  split
  · exact h
  · next i _ =>
    split
    · exact h
    · refine memWf_foldl (fun u k hu => ?_) _ ((State.memWf_setInstance ..).2 h)
      split
      · exact hu
      · next c _ =>
        have hw := State.memWf_collWrite hu ctx (collDesc c.desc)
        dsimp only
        split
        · next e => exact State.memWf_stopCommand (State.memWf_snd e (hw _)) ..
        · next e => exact (State.memWf_modHead ..).2 (State.memWf_snd e (hw _))

@[simp] theorem nextWf_execCopyChunk (h : s.memWf) (g : WgKey) (stream : Fin 16) : nextWf (execCopyChunk g stream s) := by
  refine (nextWf_next _).2 ?_
  split
  · next c _ =>
    split
    · exact State.memWf_chunkStep h (fun c => State.memWf_copyChunk h ..) ..
    · extract_lets +onlyGivenNames slow d again
      have ha (t : Tally) (e : Stop) : (again t e).memWf := State.memWf_stopCommand (s := s.modHead ..) h ..
      have hd : d.2.1.memWf := State.memWf_copyWhole (s := { s with slow := false }) h ..
      clear_value again d
      split
      · exact ha ..
      · extract_lets +onlyGivenNames fail v u
        have hu : u.memWf := hd
        clear_value fail u
        have hr := State.memWf_writeRecord hu g stream ((u.head? g stream).getD c)
        split
        · next e =>
          have hv := State.memWf_snd e hr
          split
          · exact ha ..
          · exact State.memWf_streamError hv ..
        · next e =>
          have hv := State.memWf_snd e hr
          split
          · exact State.memWf_completeCommand hv ..
          · exact State.memWf_streamError hv ..
  · exact h

@[simp] theorem nextWf_execEngineCommandComplete (h : s.memWf) (g : WgKey) (stream : Fin 16) :
    nextWf (execEngineCommandComplete g stream s) := by
  refine (nextWf_next _).2 ?_
  split
  · exact h
  · next c _ =>
    have hr := State.memWf_writeRecord h g stream c
    split
    · exact h
    · split
      · exact State.memWf_finishFail h ..
      · split
        · exact h
        · split
          · next e => exact State.memWf_completeCommand (State.memWf_snd e hr) ..
          · next e => exact State.memWf_streamError (State.memWf_snd e hr) ..
          · next e => exact State.memWf_stopCommand (State.memWf_snd e hr) ..

@[simp] theorem nextWf_execWorkgroupPlace (h : s.memWf) (l : LaunchKey) (core : Nat) (halves : BitVec 12) : nextWf
    (execWorkgroupPlace l core halves s) := by
  simp [execWorkgroupPlace, h]

@[simp] theorem nextWf_execClusterPlace (h : s.memWf) (l : LaunchKey) (coreCluster : Nat) (cores : List Nat)
    (halves : List (BitVec 12)) : nextWf (execClusterPlace l coreCluster cores halves s) := by
  simp [execClusterPlace, h]

@[simp] theorem nextWf_execSwapOut (h : s.memWf) (g : WgKey) : nextWf (execSwapOut g s) := by simp [execSwapOut, h]

@[simp] theorem nextWf_execQuantumCommit (h : s.memWf) (ctx : Nat) : nextWf (execQuantumCommit ctx s) := by
  simp [execQuantumCommit, h]

@[simp] theorem nextWf_execLookaheadRead (h : s.memWf) (q : Nat) : nextWf (execLookaheadRead q s) := by
  simp [execLookaheadRead, h]

@[simp] theorem nextWf_execLaunch (h : s.memWf) (q : Nat) : nextWf (execLaunch q s) := by simp [execLaunch, h]
@[simp] theorem nextWf_execCallbuf (h : s.memWf) (q : Nat) : nextWf (execCallbuf q s) := by simp [execCallbuf, h]
@[simp] theorem nextWf_execRetbuf (h : s.memWf) (q : Nat) : nextWf (execRetbuf q s) := by simp [execRetbuf, h]
@[simp] theorem nextWf_execJoin (h : s.memWf) (q : Nat) : nextWf (execJoin q s) := by simp [execJoin, h]
@[simp] theorem nextWf_execSignal (h : s.memWf) (q : Nat) : nextWf (execSignal q s) := by simp [execSignal, h]
@[simp] theorem nextWf_execWaitval (h : s.memWf) (q : Nat) : nextWf (execWaitval q s) := by simp [execWaitval, h]
@[simp] theorem nextWf_execWaitvalSatisfied (h : s.memWf) (q : Nat) : nextWf (execWaitvalSatisfied q s) := by
  simp [execWaitvalSatisfied, h]

@[simp] theorem nextWf_execMark (h : s.memWf) (q : Nat) : nextWf (execMark q s) := by simp [execMark, h]
@[simp] theorem nextWf_execQueueRestart (h : s.memWf) (q : Nat) : nextWf (execQueueRestart q s) := by
  unfold execQueueRestart
  split <;> simp [h]

@[simp] theorem nextWf_execQueueDestroy (h : s.memWf) (q : Nat) : nextWf (execQueueDestroy q s) := by simp [execQueueDestroy, h]
@[simp] theorem nextWf_execProgram (h : s.memWf) (q : Nat) : nextWf (execProgram q s) := by simp [execProgram, h]
@[simp] theorem nextWf_execIlaunch (h : s.memWf) (q : Nat) : nextWf (execIlaunch q s) := by simp [execIlaunch, h]
@[simp] theorem nextWf_execQpDone (h : s.memWf) (q : Nat) : nextWf (execQpDone q s) :=
  (nextWf_next _).2 (State.memWf_qpStep h (fun _ => State.moveWf_assured h (fun _ hu =>
    State.moveWf_tryLaunch hu (fun _ hv => State.memWf_finishPacket hv q) _ _ _) _ _) ..)

@[simp] theorem nextWf_execQpCancel (h : s.memWf) (q : Nat) : nextWf (execQpCancel q s) := by
  refine (nextWf_next _).2 (State.memWf_qpStep h (fun r => State.moveWf_assured h (fun u hu => ?_) _ _) ..)
  have hs := State.memWf_queueStore (State.memWf_carryAll hu) r.q
  extract_lets +onlyGivenNames place
  split
  · simp [hu]
  · split
    · next e => simp [State.memWf_snd e (hs ..)]
    · next e => simp [State.memWf_snd e (hs ..)]

@[simp] theorem nextWf_execQpRepeat (h : s.memWf) (q : Nat) : nextWf (execQpRepeat q s) := by simp [execQpRepeat, h]
@[simp] theorem nextWf_execQpMovi (h : s.memWf) (q : Nat) (d : KReg) (imm : BitVec 32) : nextWf (execQpMovi q d imm s) := by
  simp [execQpMovi, h]

@[simp] theorem nextWf_execQpLui (h : s.memWf) (q : Nat) (d : KReg) (imm : BitVec 32) : nextWf (execQpLui q d imm s) := by
  simp [execQpLui, h]

@[simp] theorem nextWf_execQpMov (h : s.memWf) (q : Nat) (d a : KReg) : nextWf (execQpMov q d a s) := by simp [execQpMov, h]
@[simp] theorem nextWf_execQpAdd (h : s.memWf) (q : Nat) (d a b : KReg) : nextWf (execQpAdd q d a b s) := by simp [execQpAdd, h]
@[simp] theorem nextWf_execQpSub (h : s.memWf) (q : Nat) (d a b : KReg) : nextWf (execQpSub q d a b s) := by simp [execQpSub, h]
@[simp] theorem nextWf_execQpMul (h : s.memWf) (q : Nat) (d a b : KReg) : nextWf (execQpMul q d a b s) := by simp [execQpMul, h]
@[simp] theorem nextWf_execQpAnd (h : s.memWf) (q : Nat) (d a b : KReg) : nextWf (execQpAnd q d a b s) := by simp [execQpAnd, h]
@[simp] theorem nextWf_execQpOr (h : s.memWf) (q : Nat) (d a b : KReg) : nextWf (execQpOr q d a b s) := by simp [execQpOr, h]
@[simp] theorem nextWf_execQpXor (h : s.memWf) (q : Nat) (d a b : KReg) : nextWf (execQpXor q d a b s) := by simp [execQpXor, h]
@[simp] theorem nextWf_execQpShl (h : s.memWf) (q : Nat) (d a b : KReg) : nextWf (execQpShl q d a b s) := by simp [execQpShl, h]
@[simp] theorem nextWf_execQpShr (h : s.memWf) (q : Nat) (d a b : KReg) : nextWf (execQpShr q d a b s) := by simp [execQpShr, h]
@[simp] theorem nextWf_execQpAddi (h : s.memWf) (q : Nat) (d a : KReg) (imm : BitVec 32) : nextWf (execQpAddi q d a imm s) := by
  simp [execQpAddi, h]

@[simp] theorem nextWf_execQpDivu (h : s.memWf) (q : Nat) (d a b : KReg) : nextWf (execQpDivu q d a b s) := by
  simp [execQpDivu, h]

@[simp] theorem nextWf_execQpRemu (h : s.memWf) (q : Nat) (d a b : KReg) : nextWf (execQpRemu q d a b s) := by
  simp [execQpRemu, h]

@[simp] theorem nextWf_execQpMinu (h : s.memWf) (q : Nat) (d a b : KReg) : nextWf (execQpMinu q d a b s) := by
  simp [execQpMinu, h]

@[simp] theorem nextWf_execQpMaxu (h : s.memWf) (q : Nat) (d a b : KReg) : nextWf (execQpMaxu q d a b s) := by
  simp [execQpMaxu, h]

@[simp] theorem nextWf_execQpLd64 (h : s.memWf) (q : Nat) (d a : KReg) (win : Fin 4) (imm : BitVec 32) : nextWf
    (execQpLd64 q d a win imm s) := by
  simp [execQpLd64, h]

@[simp] theorem nextWf_execQpLd32 (h : s.memWf) (q : Nat) (d a : KReg) (win : Fin 4) (imm : BitVec 32) : nextWf
    (execQpLd32 q d a win imm s) := by
  simp [execQpLd32, h]

@[simp] theorem nextWf_execQpSt64 (h : s.memWf) (q : Nat) (d a : KReg) (win : Fin 4) (imm : BitVec 32) : nextWf
    (execQpSt64 q d a win imm s) := by
  simp [execQpSt64, h]

@[simp] theorem nextWf_execQpSt32 (h : s.memWf) (q : Nat) (d a : KReg) (win : Fin 4) (imm : BitVec 32) : nextWf
    (execQpSt32 q d a win imm s) := by
  simp [execQpSt32, h]

@[simp] theorem nextWf_execQpHwr (h : s.memWf) (q : Nat) (a : KReg) (off : BitVec 8) (size : Fin 4) : nextWf
    (execQpHwr q a off size s) := by
  simp [execQpHwr, h]

@[simp] theorem nextWf_execQpHrd (h : s.memWf) (q : Nat) (d : KReg) (off : BitVec 8) (size : Fin 4) : nextWf
    (execQpHrd q d off size s) := by
  simp [execQpHrd, h]

@[simp] theorem nextWf_execQpRpt (h : s.memWf) (q : Nat) (d : KReg) : nextWf (execQpRpt q d s) := by simp [execQpRpt, h]
@[simp] theorem nextWf_execQpBeq (h : s.memWf) (q : Nat) (a b : KReg) (imm : BitVec 32) : nextWf (execQpBeq q a b imm s) := by
  simp [execQpBeq, h]

@[simp] theorem nextWf_execQpBne (h : s.memWf) (q : Nat) (a b : KReg) (imm : BitVec 32) : nextWf (execQpBne q a b imm s) := by
  simp [execQpBne, h]

@[simp] theorem nextWf_execQpBltu (h : s.memWf) (q : Nat) (a b : KReg) (imm : BitVec 32) : nextWf (execQpBltu q a b imm s) := by
  simp [execQpBltu, h]

@[simp] theorem nextWf_execQpLoop (h : s.memWf) (q : Nat) (d : KReg) (imm : BitVec 32) : nextWf (execQpLoop q d imm s) := by
  simp [execQpLoop, h]

@[simp] theorem nextWf_execQpArg (h : s.memWf) (q : Nat) (d : KReg) (k : Fin 8) : nextWf (execQpArg q d k s) := by
  simp [execQpArg, h]

@[simp] theorem nextWf_execQpNop (h : s.memWf) (q : Nat) : nextWf (execQpNop q s) := by simp [execQpNop, h]
@[simp] theorem nextWf_execPlant (h : s.memWf) (ctx : Nat) (image : Nat) : nextWf (execPlant ctx image s) := by
  simp [execPlant, h]

@[simp] theorem nextWf_execPreempt (h : s.memWf) (ctx : Nat) (save : Nat) : nextWf (execPreempt ctx save s) := by
  simp [execPreempt, h]

@[simp] theorem nextWf_execCheckpoint (h : s.memWf) (ctx : Nat) : nextWf (execCheckpoint ctx s) := by simp [execCheckpoint, h]
@[simp] theorem nextWf_execRollback (h : s.memWf) (ctx : Nat) : nextWf (execRollback ctx s) := by simp [execRollback, h]
@[simp] theorem nextWf_execCreate (h : s.memWf) (record : Nat) : nextWf (execCreate record s) := by simp [execCreate, h]
@[simp] theorem nextWf_execQueue (h : s.memWf) (ctx q : Nat) (desc : Nat) : nextWf (execQueue ctx q desc s) := by
  unfold execQueue
  split <;> simp [h]

@[simp] theorem nextWf_execKeyload (h : s.memWf) (slot : Nat) (key : Nat) (unused : Nat) : nextWf
    (execKeyload slot key unused s) := by
  simp [execKeyload, h]

@[simp] theorem nextWf_execAttest (h : s.memWf) (nonce : DWord) (report : Nat) : nextWf (execAttest nonce report s) := by
  simp [execAttest, h, State.memWf_homeWrite]

@[simp] theorem nextWf_execGroup (h : s.memWf) (ctx group : Nat) (record : Nat) : nextWf (execGroup ctx group record s) := by
  simp [execGroup, h]

@[simp] theorem nextWf_execAnswer (h : s.memWf) (id ctx : Nat) (deliver : Bool) : nextWf (execAnswer id ctx deliver s) := by
  refine (nextWf_next _).2 (State.memWf_command h ?_ _)
  split
  · next p _ =>
    cases p.cause with
    | none => exact moveWf_none
    | some c =>
      refine (moveWf_some _).2 ?_
      split
      · exact State.memWf_deliverPark h ..
      · exact State.memWf_replayPark h ..
  · exact moveWf_none

@[simp] theorem nextWf_execDestroy (h : s.memWf) (ctx : Nat) : nextWf (execDestroy ctx s) := by
  refine (nextWf_next _).2 (State.memWf_command h ?_ _)
  cases s.context ctx with
  | none => exact moveWf_none
  | some c => exact (moveWf_some _).2 (State.memWf_dropWork h ctx)

@[simp] theorem nextWf_execScrubComplete (h : s.memWf) : nextWf (execScrubComplete s) := by
  refine (nextWf_next _).2 ?_
  split
  · exact h
  · exact memWf_foldl (fun _ f hu => State.memWf_zeroFrame hu f) _ h

@[simp] theorem nextWf_execHostAccess (h : s.memWf) (a : HostAccess) : nextWf (execHostAccess a s) := by
  simp [execHostAccess, h]

@[simp] theorem nextWf_execPeerAccess (h : s.memWf) (peer : Nat) (a : PeerAccess) : nextWf (execPeerAccess peer a s) := by
  refine (nextWf_next _).2 ?_
  split
  · exact h
  · split
    · exact h
    · exact State.memWf_peerWrite h ..
    · exact State.memWf_peerAtomic h ..
    · exact State.memWf_peerAtomic h ..

@[simp] theorem nextWf_execLinkDrop (h : s.memWf) (peer : Nat) : nextWf (execLinkDrop peer s) := by simp [execLinkDrop, h]
@[simp] theorem nextWf_execReset (h : s.memWf) : nextWf (execReset s) := by simp [execReset, h]

end Sys2Proof.Machine
end

section
/-! PROOFS. Memory keeps its canonical form: every instruction and step of the table. -/

namespace Sys2Proof.Machine
variable {s : State}

/-- Every instruction and step that answers a next state keeps the form, by the operation that it is. -/
theorem nextWf_exec (h : s.memWf) (i : Instr) : nextWf (exec i s) := by
  cases i
  case brx | callx | ret =>
    exact (nextWf_next _).2 (State.memWf_indirect h ..)
  case sadd | ssub | smul | smulhi | smulhin | sand | sor | sxor | sshl | sshr | ssar | smin | smax | sminn | smaxn |
    sandn | scmp | sbfe =>
    exact (nextWf_next _).2 (State.memWf_salu h ..)
  case saddi | sandi | sori | sxori | sshli | sshri | ssari | spopc | sclz | sctz | sbrev | smov | activityMaskWrite =>
    exact (nextWf_next _).2 (State.memWf_sun h ..)
  case smovi | slui | ssel | sbfi | vdot4 | vcmp | vsel | vbfe | vbfi | vpermb | vmovi | rnd | rndf | rndskip | vmov |
    vmovs | vrdl | vwrl | pmovs | smovp =>
    exact (nextWf_next _).2 (State.memWf_compute h ..)
  case sadd64 | ssub64 =>
    exact (nextWf_next _).2 (State.memWf_salu64 h ..)
  case swrp | trapbaseWrite =>
    exact (nextWf_next _).2 (State.memWf_privWrite h ..)
  case vadd | vsub | vmul | vmulhi | vand | vor | vxor | vandn | vshl | vshr | vsar | vmin | vmax | vaddsat | vsubsat |
    vabsd =>
    exact (nextWf_next _).2 (State.memWf_valu h ..)
  case vaddScalar | vsubScalar | vmulScalar | vmulhiScalar | vandScalar | vorScalar | vxorScalar | vandnScalar |
    vshlScalar | vshrScalar | vsarScalar | vminScalar | vmaxScalar | vaddsatScalar | vsubsatScalar | vabsdScalar =>
    exact (nextWf_next _).2 (State.memWf_valuScalar h ..)
  case vmad | vmadhi =>
    exact (nextWf_next _).2 (State.memWf_vmadBy h ..)
  case vpopc | vclz | vctz | vbrev | vnot | vneg | vabs =>
    exact (nextWf_next _).2 (State.memWf_vbit1 h ..)
  case vaddc | vsubb =>
    exact (nextWf_next _).2 (State.memWf_vcarry h ..)
  case vsext | vzext =>
    exact (nextWf_next _).2 (State.memWf_vwiden h ..)
  case vaddi | vandi | vori | vshli | vshri | vsari =>
    exact (nextWf_next _).2 (State.memWf_valuImm h ..)
  case vdiv | vrem =>
    exact (nextWf_next _).2 (State.memWf_vdivBy h ..)
  case fadd | fsub | fmul | ffma | ffms | fnfma | fmin | fmax | fminnum | fmaxnum | fsgnj | fsgnjn | fabs | fneg | frnd
    =>
    exact (nextWf_next _).2 (State.memWf_fpu h ..)
  case fclass | fscale | fcmp | fdot2 | cvt =>
    exact (nextWf_next _).2 (State.memWf_floatOp h ..)
  case frcp | frsq | fsqrt | fexp2 | flog2 | fsin | fcos | ftanh | fdiv =>
    exact (nextWf_next _).2 (State.memWf_longFloat h ..)
  case xshfl | xrot | xbcast =>
    exact (nextWf_next _).2 (State.memWf_xmove h ..)
  case xreduce | xscani | xscane =>
    exact (nextWf_next _).2 (State.memWf_xcombine h ..)
  case xmadd | xmmin | xmmax | xmor =>
    exact (nextWf_next _).2 (State.memWf_xmatch h ..)
  case xballot | xany | xall | xcount | xfirst =>
    exact (nextWf_next _).2 (State.memWf_xvote h ..)
  case pand | por | pxor | pnot | pset | pclr =>
    exact (nextWf_next _).2 (State.memWf_palu h ..)
  case srd | cyclehiRead =>
    exact (nextWf_next _).2 (State.memWf_specialRead h ..)
  case swr | fflagsWrite | clausestWrite | trapmaskWrite =>
    exact (nextWf_next _).2 (State.memWf_specialWrite h ..)
  case waitcmpRecheck | monitorRepoll =>
    exact (nextWf_next _).2 (State.memWf_plantDue (State.memWf_recheckIf h ..))
  all_goals simp [h]

end Sys2Proof.Machine
end

section
/-! PROOFS. Memory keeps its canonical form: the moves of the device, turns, and a step. -/

namespace Sys2Proof.Machine
variable {s : State}

@[simp] theorem State.memWf_settle (h : s.memWf) : s.settle.memWf := by
  refine memWf_foldl (fun _ n hu => State.memWf_finishFreeze hu n) _ ?_
  have hc := memWf_foldl (f := State.commitQuanta) (fun _ n hu => State.memWf_commitQuanta hu n) (s.contexts.map (·.num)) h
  have hl := State.memWf_lockTime (State.memWf_recordTime (State.memWf_redTime (State.memWf_growTime
    ((State.memWf_watchRings _).2 hc))))
  exact State.memWf_plantDue ((State.memWf_markLong _).2 hl)

@[simp] theorem State.memWf_takesCycle (s : State) : s.takesCycle.memWf ↔ s.memWf := by
  unfold State.takesCycle
  split <;> simp

@[simp] theorem State.memWf_issuing (s : State) (i : Instr) : (s.issuing i).memWf ↔ s.memWf := by
  unfold State.issuing
  split <;> simp

@[simp] theorem State.memWf_performLateAt (h : s.memWf) (k : Nat) : (s.performLateAt k).memWf := by
  unfold State.performLateAt
  split
  · exact h
  · exact memWf_foldl (fun _ x hu => State.memWf_performLate hu x) _ (by simpa using h)

@[simp] theorem State.memWf_performLongAt (h : s.memWf) (w : WarpKey) (k : Nat) (hv : Halves) :
    (s.performLongAt w k hv).memWf := by
  unfold State.performLongAt
  split
  · exact h
  · next l _ =>
    refine State.memWf_inSplit h (fun u hu => ?_) ..
    have hp := State.memWf_performOp hu l hv
    split
    next e => exact (State.memWf_modWarp ..).2 (State.memWf_snd e hp)

/-! A move that is one of several, and one that is a step of the table. -/

theorem moveWf_moved {o : Host.Outcome State Fault Refusal} (h : nextWf o) : moveWf (moved o) := by
  cases o with
  | next t => exact (moveWf_some t).2 (h t rfl)
  | _ => exact moveWf_none
theorem moveWf_bind {α : Type} {f : α → Option State} (hf : ∀ a, moveWf (f a)) (o : Option α) : moveWf (o.bind f) := by
  cases o with
  | none => exact moveWf_none
  | some a => exact hf a
theorem moveWf_map {α : Type} {f : α → State} (hf : ∀ a, (f a).memWf) (o : Option α) : moveWf (o.map f) := by
  cases o with
  | none => exact moveWf_none
  | some a => exact (moveWf_some _).2 (hf a)
theorem moveWf_findSome {α : Type} {f : α → Option State} {l : List α} (hf : ∀ a ∈ l, moveWf (f a)) :
    moveWf (l.findSome? f) := by
  intro t e
  obtain ⟨a, ha, e⟩ := List.exists_of_findSome?_eq_some e
  exact hf a ha t e

@[simp] theorem State.moveWf_qpMove (h : s.memWf) (q : Nat) : moveWf (s.qpMove q) := by
  unfold State.qpMove
  split
  · exact moveWf_none
  · extract_lets +onlyGivenNames w d a b i o
    have ho : nextWf o := by
      simp only [o]
      split <;> simp [h]
    clear_value o
    split
    · split
      · exact moveWf_none
      · exact (moveWf_some _).2 (ho _ rfl)
    · exact moveWf_none

@[simp] theorem State.moveWf_queueMove (h : s.memWf) (q : Nat) : moveWf (s.queueMove q) := by
  unfold State.queueMove
  split
  · exact moveWf_none
  · split
    · exact State.moveWf_lookahead h q
    · split
      · exact State.moveWf_qpMove h q
      · split <;> simp +contextual [h]

@[simp] theorem State.nextWf_hostCommand (h : s.memWf) (b : List Byte) : nextWf (s.hostCommand b) := by
  unfold State.hostCommand
  extract_lets +onlyGivenNames op only
  have hn (c : Nat) : nextWf (.next (s.command c none)) := (nextWf_next _).2 (State.memWf_command h moveWf_none c)
  have ho {o : Host.Outcome State Fault Refusal} (ho : nextWf o) (n : Nat) : nextWf (only n o) := by
    simp only [only]
    split
    · exact ho
    · exact hn _
  clear_value only
  split
  · exact ho (nextWf_execCreate h _) _
  · exact ho (nextWf_execDestroy h _) _
  · exact ho (nextWf_execQueue h _ _ _) _
  · exact ho (nextWf_execPreempt h _ _) _
  · exact ho (nextWf_execPlant h _ _) _
  · refine ho ?_ _
    split
    · exact nextWf_execAnswer h _ _ _
    · exact hn _
  · exact ho (nextWf_execKeyload h _ _ _) _
  · exact ho (nextWf_execAttest h _ _) _
  · exact ho (nextWf_execGroup h _ _ _) _
  · exact hn _

/-! The moves of the device. -/

theorem State.moveWf_longMove (h : s.memWf) : moveWf s.longMove := by
  refine moveWf_bind (fun w => moveWf_moved ?_) _
  exact nextWf_exec h (.longComplete w.key)

theorem State.moveWf_redMove (h : s.memWf) : moveWf s.redMove := by
  refine moveWf_bind (fun w => moveWf_moved ?_) _
  exact nextWf_exec h (.reductionPerform w.key)

theorem State.moveWf_sleepMove (h : s.memWf) : moveWf s.sleepMove := by
  refine moveWf_bind (fun x => moveWf_moved ?_) _
  exact nextWf_exec h (.sleepExpiry x.1 x.2)

theorem State.moveWf_monitorMove (h : s.memWf) (poll : Bool) : moveWf (s.monitorMove poll) := by
  refine moveWf_bind (fun m => moveWf_moved ?_) _
  split
  · exact nextWf_exec h (.monitorRepoll m.warp m.split)
  · exact nextWf_exec h (.waitcmpRecheck m.warp m.split)

theorem State.moveWf_pageMove (h : s.memWf) : moveWf s.pageMove := by
  refine moveWf_bind (fun p => moveWf_moved ?_) _
  split
  · exact nextWf_exec h (.cowService p.id)
  · exact nextWf_exec h (.poolReplay p.id)

theorem State.moveWf_commandMove (h : s.memWf) (g : Workgroup) (st : Fin 16) : moveWf (s.commandMove g st) := by
  have hc := moveWf_moved (nextWf_exec h (.engineCommandComplete g.key st))
  unfold State.commandMove
  split
  · exact moveWf_none
  · split
    · exact moveWf_none
    · split
      · exact hc
      · split
        · split
          · exact moveWf_none
          · exact moveWf_moved (nextWf_exec h (.engineCommandStart g.key st))
        · split
          · exact hc
          · split
            · exact moveWf_moved (nextWf_exec h (.copyChunk g.key st))
            · exact moveWf_moved (nextWf_exec h (.mmaChunkCommit g.key st))
            · exact moveWf_none

theorem State.moveWf_engineMove (h : s.memWf) : moveWf s.engineMove :=
  moveWf_findSome fun g _ => moveWf_findSome fun st _ => State.moveWf_commandMove h g st

theorem State.moveWf_collMove (h : s.memWf) : moveWf s.collMove := by
  refine moveWf_bind (fun i => moveWf_moved ?_) _
  exact nextWf_exec h (.collInstanceComplete i.ctx i.group i.tag)

theorem State.moveWf_completionMove (h : s.memWf) : moveWf s.completionMove := by
  refine moveWf_map (fun l => ?_) _
  exact State.memWf_completeLaunch h l.key

theorem State.moveWf_frontMove (h : s.memWf) : moveWf s.frontMove := moveWf_findSome fun q _ => State.moveWf_queueMove h q
theorem State.moveWf_placeMove (h : s.memWf) : moveWf s.placeMove := by
  refine moveWf_bind (fun l => ?_) _
  dsimp only
  split
  · exact moveWf_findSome fun _ _ => moveWf_map (fun _ => State.memWf_placeGroup h ..) _
  · refine moveWf_findSome fun _ _ => ?_
    split
    · exact (moveWf_some _).2 (State.memWf_placeCluster h ..)
    · exact moveWf_none

theorem State.moveWf_checkpointMove (h : s.memWf) : moveWf s.checkpointMove := by
  refine moveWf_bind (fun c => moveWf_moved ?_) _
  exact nextWf_exec h (.checkpoint c.num)

theorem State.moveWf_lateMove (h : s.memWf) : moveWf s.lateMove := by simp [State.lateMove, h]
theorem State.moveWf_cacheMove (h : s.memWf) : moveWf s.cacheMove := by
  refine moveWf_map (fun c => ?_) _
  exact State.memWf_dropWhere h ..

theorem State.moveWf_of_mem_deviceMoves (h : s.memWf) : ∀ o ∈ s.deviceMoves, moveWf o := by
  simp only [State.deviceMoves, List.forall_mem_cons, List.not_mem_nil, false_imp_iff, implies_true, and_true]
  exact ⟨moveWf_longMove h, moveWf_redMove h, moveWf_lateMove h, moveWf_sleepMove h, moveWf_monitorMove h false,
    moveWf_pageMove h, moveWf_engineMove h, moveWf_collMove h, moveWf_completionMove h, moveWf_frontMove h, moveWf_placeMove h,
    moveWf_checkpointMove h, moveWf_monitorMove h true, moveWf_cacheMove h⟩

theorem State.moveWf_deviceMove (h : s.memWf) : moveWf s.deviceMove := by
  refine moveWf_findSome fun o ho => State.moveWf_of_mem_deviceMoves h o ?_
  rcases List.mem_append.1 ho with ho | ho
  · exact List.mem_of_mem_drop ho
  · exact List.mem_of_mem_take ho

/-! Turns and steps. -/

@[simp] theorem State.memWf_hostPhysical (h : s.memWf) (addr : Nat) (bytes : List Byte) :
    (s.hostPhysical addr bytes).memWf := by
  refine (State.memWf_healLines ..).2 ?_
  split
  · exact memWf_foldl (fun _ _ hu => State.memWf_memoryWrite hu ..) _ h
  · exact State.memWf_homeWrite _ h ..

@[simp] theorem State.memWf_peerContribute (h : s.memWf) (ctx group : Nat) (tag : Word) (slot : Nat) (vec : List Nat) :
    (s.peerContribute ctx group tag slot vec).memWf := by
  unfold State.peerContribute
  split <;> simp [h]

@[simp] theorem State.memWf_l2Fill (s : State) (a : Nat) : (s.l2Fill a).memWf ↔ s.memWf := by
  unfold State.l2Fill
  split <;> simp

@[simp] theorem State.memWf_otherTurn (h : s.memWf) (t : Turn) : (s.otherTurn t).memWf := by
  unfold State.otherTurn
  split <;> simp [h, State.memWf_l2Back, State.memWf_dropCopyByte, State.memWf_writeBackByte]

theorem nextWf_issueFrom (h : s.memWf) (k : WarpKey) : nextWf (issueFrom k s) := by
  unfold issueFrom
  extract_lets +onlyGivenNames u
  have hu : u.memWf := (State.memWf_focus ..).2 h
  clear_value u
  have hb := State.memWf_atBoundary hu
  split
  · split
    · next e => exact (nextWf_next _).2 (State.memWf_fst e hb)
    · next v e =>
      have hf := State.memWf_fetched (State.memWf_fst e hb)
      split
      · next e' => exact nextWf_exec ((State.memWf_issuing ..).2 (State.memWf_snd e' hf)) _
      · next e' => exact (nextWf_next _).2 (State.memWf_fetchFault (State.memWf_snd e' hf) _)
  · exact (nextWf_next _).2 hu

theorem nextWf_later {turn : State → Host.Outcome State Fault Refusal} (h : s.memWf)
    (ht : ∀ u : State, u.memWf → nextWf (turn u)) : nextWf (later s turn) := by
  have hs := ht { s with slow := true } h
  unfold later
  split
  · next t e => exact (nextWf_next _).2 (hs t e)
  · exact hs

theorem nextWf_takeTurn (h : s.memWf) (t : Turn) : nextWf (takeTurn t s) := by
  unfold takeTurn
  split
  · exact nextWf_issueFrom h _
  · exact nextWf_exec h _
  · exact nextWf_later h fun _ hu => nextWf_issueFrom hu _
  · exact nextWf_later h fun _ hu => nextWf_exec hu _
  · exact State.nextWf_hostCommand h _
  · exact (nextWf_next _).2 (State.memWf_otherTurn h _)

theorem State.nextWf_guardLog (s : State) {o : Host.Outcome State Fault Refusal} (ho : nextWf o) (h : s.memWf) :
    nextWf (s.guardLog o) := by
  unfold State.guardLog
  split
  · next t =>
    refine (nextWf_next _).2 ?_
    split
    · exact ho t rfl
    · exact memWf_foldl (fun _ _ hu => (State.memWf_modContext_iff ..).2 hu) _ h
  · exact ho

@[simp] theorem State.memWf_tick (s : State) : s.tick.memWf ↔ s.memWf := Iff.rfl
theorem State.nextWf_anyone (h : s.memWf) : nextWf s.anyone := by
  have hd : nextWf (.next (s.deviceMove.getD s)) := (nextWf_next _).2 ((State.moveWf_deviceMove h).getD h)
  unfold State.anyone
  split
  · split
    · exact hd
    · exact nextWf_issueFrom h _
  · exact hd

@[simp] theorem State.memWf_begun (h : s.memWf) : s.begun.memWf := by simp [State.begun, h]
theorem nextWf_step (h : s.memWf) : nextWf (step s) := by
  have hb := State.memWf_begun h
  unfold step
  generalize s.begun = b at hb ⊢
  refine State.nextWf_guardLog _ ?_ hb
  split
  · refine nextWf_takeTurn ?_ _
    exact hb
  · exact State.nextWf_anyone hb

/-- Settles O57: each operation of the model keeps the form of the memory it is given, and a step is made of them. -/
theorem everyStepKeepsMemoryCanonical : Obligations.EveryStepKeepsMemoryCanonical := by
  intro s t h e
  exact nextWf_step h t e

end Sys2Proof.Machine
end

section
/-! PROOFS. What the steps of a stream's head command answer (R289, R299, R308 to R310, R328, R332, R427). -/

namespace Sys2Proof.Machine

theorem State.head?_eq_of_group? {s : State} {g : Workgroup} {k : WgKey} {st : Fin 16} {c : Command} {cs : List Command}
    (hg : s.group? k = some g) (hc : (g.streams[st]).commands = c :: cs) : s.head? k st = some c := by
  rw [State.head?, hg, Option.bind_some, hc, List.head?_cons]

@[simp] theorem State.head?_setInstance (s : State) (i : CollInstance) (k : WgKey) (st : Fin 16) :
    (s.setInstance i).head? k st = s.head? k st := rfl

/-- A copy waits for room among the 8 slots of its core's transform stage (R11, R287). -/
theorem State.startHeld_copy {s : State} {g : Workgroup} {st : Fin 16} {c : Command} (hk : c.kind = .copy) :
    s.startHeld g st c = decide (¬ (s.operatorSlots g.core + graphCount c.graph ≤ 8)) := by
  simp only [State.startHeld, hk, transformSlots]
  exact decide_eq_decide.2 not_le.symm
/-- An MMA waits for its turn in deterministic mode (R333). -/
theorem State.startHeld_mma {s : State} {g : Workgroup} {st : Fin 16} {c : Command} (hk : c.kind = .mma) :
    s.startHeld g st c = s.mmaHeld g st c := by
  simp only [State.startHeld, hk]

/-! Start: a head command that is neither running, parked nor failed. -/

section
variable {s u : State} {g : Workgroup} {k : WgKey} {st : Fin 16} {c : Command} (hg : s.group? k = some g)
  (hh : s.head? k st = some c) (hp : c.parked = none) (hf : c.fail.1 = 0) (he : s.engineRuns k = true) (hr : c.running = false)
include hg hh hp hf he hr

theorem execEngineCommandStart_of_waiting (ht : g.tagState st c = .waiting) : execEngineCommandStart k st s = .next s := by
  simp [execEngineCommandStart, hg, hh, hr, hp, hf, he, ht]

theorem execEngineCommandStart_of_failed (ht : g.tagState st c = .failed) :
    execEngineCommandStart k st s = .next (s.failCommand k st eTagErr 0) := by
  simp [execEngineCommandStart, hg, hh, hr, hp, hf, he, ht]

theorem execEngineCommandStart_of_held (ht : g.tagState st c = .ready) (hs : s.startHeld g st c = true) :
    execEngineCommandStart k st s = .next s := by
  simp [execEngineCommandStart, hg, hh, hr, hp, hf, he, ht, hs]

theorem execEngineCommandStart_copy (ht : g.tagState st c = .ready) (hs : s.startHeld g st c = false) (hk : c.kind = .copy)
    (hc : s.copyStart k c.desc c.graph = none) :
    execEngineCommandStart k st s = .next ((s.modHead k st fun c => { c with running := true }).modHead k st fun c =>
      { c with whole := (barePlan (copyDesc c.desc) c.graph).total / 4096 }) := by
  simp [execEngineCommandStart, hg, hh, hr, hp, hf, he, ht, hs, hk, hc]

theorem execEngineCommandStart_mma (ht : g.tagState st c = .ready) (hs : s.startHeld g st c = false) (hk : c.kind = .mma)
    (hc : s.mmaStart k c.desc = none) :
    execEngineCommandStart k st s = .next (s.modHead k st fun c => { c with running := true }) := by
  simp [execEngineCommandStart, hg, hh, hr, hp, hf, he, ht, hs, hk, hc]

theorem execEngineCommandStart_coll (ht : g.tagState st c = .ready) (hk : c.kind = .coll)
    (hc : s.collContribute k st c = (none, u)) :
    execEngineCommandStart k st s = .next ((u.modHead k st fun c => { c with running := true }).modHead k st fun c =>
      { c with contributed := true }) := by
  have hs : s.startHeld g st c = false := by simp [State.startHeld, hk]
  simp [execEngineCommandStart, hg, hh, hr, hp, hf, he, ht, hs, hk, hc]

end

/-! Chunks and the end of a head command that runs, and is neither parked nor failed. -/

/-- The record of a command is written, if it asked for one: free bytes where it is undefined (R308, R310). -/
theorem State.writeRecord_eq_none {s w : State} {k : WgKey} {st : Fin 16} {c : Command}
    (h : (wantsRecord c.desc = false ∧ w = s) ∨ (wantsRecord c.desc = true ∧
      let bytes := c.recordBytes st.val c.fail.1 c.fail.2
      let v := if c.spoilt then s.freeBytes bytes.length else (bytes, s)
      v.2.servedWrite k.ctx .copyWrite (recordAddr c.desc) v.1 = (none, w))) :
    s.writeRecord k st c = (none, w) := by
  rcases h with ⟨hn, rfl⟩ | ⟨hw, hv⟩
  · simp [State.writeRecord, hn]
  · dsimp only at hv
    simp [State.writeRecord, hw, hv]

section
variable {s u w : State} {k : WgKey} {st : Fin 16} {c : Command} {t : Tally} (hh : s.head? k st = some c) (hp : c.parked = none)
  (hf : c.fail.1 = 0) (he : s.engineRuns k = true) (hr : c.running = true)
include hh hp hf he hr

theorem State.atChunk_eq (hlt : c.progress < c.chunks) : s.atChunk k st c.kind = some c := by
  simp [State.atChunk, hh, hr, hp, hf, hlt, he]

theorem execCopyChunk_of_disjoint (hlt : c.progress < c.chunks) (hk : c.kind = .copy)
    (ho : s.copyOverlaps k c.desc c.graph = false)
    (hc : s.copyChunk k st c.desc c.graph c.progress c.tally = (none, u, t)) :
    execCopyChunk k st s = .next ((u.stampStep k st).modHead k st fun c => c.onward t) := by
  have ha := State.atChunk_eq hh hp hf he hr hlt
  rw [hk] at ha
  simp [execCopyChunk, State.chunkStep, ha, ho, hc]

/-- A copy that overlaps its own inputs or record is carried out and completed in one step (R310; log entry 72). -/
theorem execCopyChunk_of_overlaps {z : Command} (hlt : c.progress < c.chunks) (hk : c.kind = .copy)
    (ho : s.copyOverlaps k c.desc c.graph = true)
    (hc : ({ s with slow := false } : State).copyWhole k st c.desc c.graph c.progress c.tally = (none, u, t))
    (hz : (({ u with slow := s.slow } : State).modHead k st fun c =>
      { c with tally := t, spoilt := true, fail := (0, 0), progress := c.chunks }).head? k st = some z)
    (hw : (({ u with slow := s.slow } : State).modHead k st fun c =>
      { c with tally := t, spoilt := true, fail := (0, 0), progress := c.chunks }).writeRecord k st z = (none, w)) :
    execCopyChunk k st s = .next (w.completeCommand k st) := by
  have ha := State.atChunk_eq hh hp hf he hr hlt
  rw [hk] at ha
  simp [execCopyChunk, ha, ho, hc, hz, hw]

theorem execMmaChunkCommit_of_chunk (hlt : c.progress < c.chunks) (hk : c.kind = .mma)
    (hc : s.mmaChunk k c.desc c.ahead c.progress c.tally = (none, u, t)) :
    execMmaChunkCommit k st s =
      .next (((u.dropAhead k st (mmaDesc c.desc)).stampStep k st).modHead k st fun c => c.onward t) := by
  have ha := State.atChunk_eq hh hp hf he hr hlt
  rw [hk] at ha
  simp [execMmaChunkCommit, State.chunkStep, ha, hc]

omit hr in
theorem execEngineCommandComplete_of_chunks_left (hlt : c.progress < c.chunks) : execEngineCommandComplete k st s = .next s := by
  simp [execEngineCommandComplete, hh, hp, hf, he, hlt]

theorem execEngineCommandComplete_of_last (hle : c.chunks ≤ c.progress) (hw : s.writeRecord k st c = (none, w)) :
    execEngineCommandComplete k st s = .next (w.completeCommand k st) := by
  simp [execEngineCommandComplete, hh, hp, hf, he, hr, Nat.not_lt.2 hle, hw]

end

/-- Settles O45: a clause for each way in which a step of the head command, or of a collective, goes on. -/
theorem engineCommandsProgress : Obligations.EngineCommandsProgress := by
  intro s g st c cs hg hc hp hf he k running done recorded
  have hh : s.head? k st = some c := State.head?_eq_of_group? hg hc
  refine ⟨fun hr ht => execEngineCommandStart_of_waiting hg hh hp hf he hr ht,
    fun hr ht => execEngineCommandStart_of_failed hg hh hp hf he hr ht, fun hr ht => ⟨fun hk hroom hs => ?_, fun hk hroom => ?_,
      fun hk hheld hs => ?_, fun hk hheld => ?_, fun u hk hs => ?_⟩, fun hr hlt => ⟨fun hk ho u t hs => ?_,
      fun hk ho u t z w hs hz hw => ?_, fun u t hk hs => ?_, ?_⟩, fun hr hle w hw => ?_, fun i hi hr hl => ?_,
    fun i vec fl u hi hr hl hv hw => ?_⟩
  -- a copy starts where its operators find room
  · have hheld := (State.startHeld_copy (st := st) hk).trans (decide_eq_false (not_not.2 hroom))
    exact execEngineCommandStart_copy hg hh hp hf he hr ht hheld hk hs
  · exact execEngineCommandStart_of_held hg hh hp hf he hr ht ((State.startHeld_copy hk).trans (decide_eq_true hroom))
  -- an MMA starts where deterministic mode does not hold it
  · exact execEngineCommandStart_mma hg hh hp hf he hr ht ((State.startHeld_mma hk).trans hheld) hk hs
  · exact execEngineCommandStart_of_held hg hh hp hf he hr ht ((State.startHeld_mma hk).trans hheld)
  · exact execEngineCommandStart_coll hg hh hp hf he hr ht hk hs
  -- chunks of a running command
  · exact execCopyChunk_of_disjoint hh hp hf he hr hlt hk ho hs
  · exact execCopyChunk_of_overlaps hh hp hf he hr hlt hk ho hs hz (State.writeRecord_eq_none hw)
  · exact execMmaChunkCommit_of_chunk hh hp hf he hr hlt hk hs
  · exact execEngineCommandComplete_of_chunks_left hh hp hf he hlt
  -- completion, and the completion of a collective
  · exact execEngineCommandComplete_of_last hh hp hf he hr hle (State.writeRecord_eq_none hw)
  · simp [execCollInstanceComplete, hi, hr, hl]
  · simp [execCollInstanceComplete, hi, hr, hl, hh, hv, hw]

end Sys2Proof.Machine
end

section
/-! PROOFS. The round trip of the encoding (R47, R48, R50, R62, R63, R65): what the decoder accepts, read field by field, is what
the encoder writes. -/

namespace Sys2Proof

/-- An answer of the decoder is what the word encodes: where it is an instruction, the word is that instruction's. -/
def EncodedBy (w : Word) (r : Decoded) : Prop := ∀ i, r = .ok i → encode i = some w

@[simp] theorem encodedBy_ok {w : Word} {i : Instr} : EncodedBy w (.ok i) ↔ encode i = some w := by
  simp [EncodedBy]

@[simp] theorem encodedBy_error {w : Word} {e : DecodeError} : EncodedBy w (.error e) := fun _ h => by cases h

@[simp] theorem encodedBy_zero {n : Nat} {w : Word} {r : Fin (n + 1)} {k : Decoded} :
    EncodedBy w (zero r k) ↔ (r = 0 → EncodedBy w k) := by
  refine ⟨?_, fun h i e => (h (zero_ok e).1) i (zero_ok e).2⟩
  rintro h rfl
  rwa [zero_zero] at h

@[simp] theorem encodedBy_asFin {m : Nat} (hm : m ≤ 128) {w : Word} {r : Reg} {k : Fin m → Decoded} :
    EncodedBy w (asFin m r k) ↔ ∀ v, r = finSlot v → EncodedBy w (k v) := by
  refine ⟨?_, fun h i e => ?_⟩
  · rintro h v rfl
    rwa [asFin_slot v hm] at h
  · obtain ⟨v, hr, hk⟩ := asFin_ok e
    exact h v hr i hk

@[simp] theorem encodedBy_asMask {w : Word} {r : Reg} {k : BitVec 6 → Decoded} :
    EncodedBy w (asMask r k) ↔ ∀ v, r = maskSlot v → EncodedBy w (k v) := by
  refine ⟨?_, fun h i e => ?_⟩
  · rintro h v rfl
    rwa [asMask_slot] at h
  · obtain ⟨v, hr, hk⟩ := asMask_ok e
    exact h v hr i hk

@[simp] theorem encodedBy_asBool {w : Word} {r : Reg} {k : Bool → Decoded} :
    EncodedBy w (asBool r k) ↔ ∀ v, r = boolSlot v → EncodedBy w (k v) := by
  refine ⟨?_, fun h i e => ?_⟩
  · rintro h v rfl
    rwa [asBool_slot] at h
  · obtain ⟨v, hr, hk⟩ := asBool_ok e
    exact h v hr i hk

@[simp] theorem encodedBy_asPredNeg {w : Word} {r : Reg} {k : Bool → PReg → Decoded} :
    EncodedBy w (asPredNeg r k) ↔ ∀ neg p, r = predNegSlot neg p → EncodedBy w (k neg p) := by
  refine ⟨?_, fun h i e => ?_⟩
  · rintro h neg p rfl
    rwa [asPredNeg_slot] at h
  · obtain ⟨neg, p, hr, hk⟩ := asPredNeg_ok e
    exact h neg p hr i hk

@[simp] theorem encodedBy_asPredNegX {w : Word} {r : Fin 16} {k : Bool → PReg → Decoded} :
    EncodedBy w (asPredNegX r k) ↔ ∀ neg p, r = predNegX neg p → EncodedBy w (k neg p) := by
  refine ⟨?_, fun h i e => ?_⟩
  · rintro h neg p rfl
    rwa [asPredNegX_slot] at h
  · obtain ⟨neg, p, hr, hk⟩ := asPredNegX_ok e
    exact h neg p hr i hk

@[simp] theorem encodedBy_asCode {α : Type} {w : Word} {f : Nat → Option α} {n : Nat} {k : α → Decoded} :
    EncodedBy w (asCode f n k) ↔ ∀ a, f n = some a → EncodedBy w (k a) := by
  refine ⟨fun h a ha => ?_, fun h i e => ?_⟩
  · rwa [asCode_of_some ha] at h
  · obtain ⟨a, ha, hk⟩ := asCode_ok e
    exact h a ha i hk

@[simp] theorem packRRR_eq_iff {op : BitVec 7} {d a b : Reg} {x : Fin 16} {w : Word} :
    packRRR op d a b x = w ↔
      (fOp w).toNat = op.toNat ∧ (fD w).val = d.val ∧ (fA w).val = a.val ∧ (fB w).val = b.val ∧ (fX w).val = x.val := by
  simp only [Fin.val_inj, BitVec.toNat_inj]
  constructor
  · rintro rfl
    simp only [fOp_packRRR, fD_packRRR, fA_packRRR, fB_packRRR, fX_packRRR, and_self]
  · rintro ⟨rfl, rfl, rfl, rfl, rfl⟩
    exact packRRR_fields w

@[simp] theorem packRRI_eq_iff {op : BitVec 7} {d a : Reg} {v : BitVec 11} {w : Word} :
    packRRI op d a v = w ↔ (fOp w).toNat = op.toNat ∧ (fD w).val = d.val ∧ (fA w).val = a.val ∧ fImm11 w = v := by
  simp only [Fin.val_inj, BitVec.toNat_inj]
  constructor
  · rintro rfl
    simp only [fOp_packRRI, fD_packRRI, fA_packRRI, fImm11_packRRI, and_self]
  · rintro ⟨rfl, rfl, rfl, rfl⟩
    exact packRRI_fields w

@[simp] theorem packRI_eq_iff {op : BitVec 7} {d : Reg} {v : BitVec 18} {w : Word} :
    packRI op d v = w ↔ (fOp w).toNat = op.toNat ∧ (fD w).val = d.val ∧ fImm18 w = v := by
  simp only [Fin.val_inj, BitVec.toNat_inj]
  constructor
  · rintro rfl
    simp only [fOp_packRI, fD_packRI, fImm18_packRI, and_self]
  · rintro ⟨rfl, rfl, rfl⟩
    exact packRI_fields w

@[simp] theorem packJ_eq_iff {op : BitVec 7} {v : BitVec 25} {w : Word} :
    packJ op v = w ↔ (fOp w).toNat = op.toNat ∧ fImm25 w = v := by
  simp only [BitVec.toNat_inj]
  constructor
  · rintro rfl
    simp only [fOp_packJ, fImm25_packJ, and_self]
  · rintro ⟨rfl, rfl⟩
    exact packJ_fields w


@[simp] theorem codeSlot_val (r : Reg) : codeSlot r.val = r := Fin.ext (Nat.mod_eq_of_lt r.isLt)
@[simp] theorem codeX_val (x : Fin 16) : codeX x.val = x := Fin.ext (Nat.mod_eq_of_lt x.isLt)

@[simp] theorem Rm.ofCode_eq_some_iff {n : Nat} {c : Rm} : Rm.ofCode n = some c ↔ c.code = n :=
  ⟨fun h => (Rm.code_eq h).symm, by rintro rfl; cases c <;> rfl⟩
@[simp] theorem SCond.ofCode_eq_some_iff {n : Nat} {c : SCond} : SCond.ofCode n = some c ↔ c.code = n :=
  ⟨fun h => (SCond.code_eq h).symm, by rintro rfl; cases c <;> rfl⟩
@[simp] theorem VCond.ofCode_eq_some_iff {n : Nat} {c : VCond} : VCond.ofCode n = some c ↔ c.code = n :=
  ⟨fun h => (VCond.code_eq h).symm, by rintro rfl; cases c <;> rfl⟩
@[simp] theorem FCond.ofCode_eq_some_iff {n : Nat} {c : FCond} : FCond.ofCode n = some c ↔ c.code = n :=
  ⟨fun h => (FCond.code_eq h).symm, by rintro rfl; cases c <;> rfl⟩
@[simp] theorem WCond.ofCode_eq_some_iff {n : Nat} {c : WCond} : WCond.ofCode n = some c ↔ c.code = n :=
  ⟨fun h => (WCond.code_eq h).symm, by rintro rfl; cases c <;> rfl⟩
@[simp] theorem Ty.ofCode_eq_some_iff {n : Nat} {c : Ty} : Ty.ofCode n = some c ↔ c.code = n :=
  ⟨fun h => (Ty.code_eq h).symm, by rintro rfl; cases c <;> rfl⟩
@[simp] theorem XOp.ofCode_eq_some_iff {n : Nat} {c : XOp} : XOp.ofCode n = some c ↔ c.code = n :=
  ⟨fun h => (XOp.code_eq h).symm, by rintro rfl; cases c <;> rfl⟩
@[simp] theorem LkMode.ofCode_eq_some_iff {n : Nat} {c : LkMode} : LkMode.ofCode n = some c ↔ c.code = n :=
  ⟨fun h => (LkMode.code_eq h).symm, by rintro rfl; cases c <;> rfl⟩
@[simp] theorem Buf.ofCode_eq_some_iff {n : Nat} {c : Buf} : Buf.ofCode n = some c ↔ c.code = n :=
  ⟨fun h => (Buf.code_eq h).symm, by rintro rfl; cases c <;> rfl⟩
@[simp] theorem PrivReg.ofCode_eq_some_iff {n : Nat} {c : PrivReg} : PrivReg.ofCode n = some c ↔ c.code = n :=
  ⟨fun h => (PrivReg.code_eq h).symm, by rintro rfl; cases c <;> rfl⟩

@[simp] theorem GroupCode.ofCode_eq_some_iff {n : Nat} {c : GroupCode} : GroupCode.ofCode n = some c ↔ c.code = n :=
  ⟨fun h => (GroupCode.code_eq h).symm, by rintro rfl; cases c <;> rfl⟩
@[simp] theorem Scope.ofCode_eq_some_iff {n : Nat} {c : Scope} : Scope.ofCode n = some c ↔ c.code = n :=
  ⟨fun h => (Scope.code_eq h).symm, by rintro rfl; cases c <;> rfl⟩
@[simp] theorem Ordering4.ofCode_eq_some_iff {n : Nat} {c : Ordering4} : Ordering4.ofCode n = some c ↔ c.code = n :=
  ⟨fun h => (Ordering4.code_eq h).symm, by rintro rfl; cases c <;> rfl⟩
@[simp] theorem SpecReg.ofNumber_eq_some_iff {n : Nat} {c : SpecReg} : SpecReg.ofNumber n = some c ↔ c.number = n := by
  refine ⟨fun h => (SpecReg.number_eq h).symm, ?_⟩
  rintro rfl
  cases c with
  | field k => match k with | 0 | 1 | 2 | 3 | 4 | 5 => rfl
  | _ => rfl

theorem packClause_fields {w : Word} {c : ClauseWord} (ho : fOp w = 0x02#7)
    (hcount : (w.extractLsb' 21 4).toFin = c.count) (hneg : w.getLsbD 20 = c.neg)
    (hguard : (w.extractLsb' 17 3).toFin = c.guard)
    (hty : c.ty.code = (w.extractLsb' 12 5).toNat) (hrm : c.rm.code = (w.extractLsb' 9 3).toNat)
    (hgrp : c.grp.code = (w.extractLsb' 6 3).toNat) (hscope : c.scope.code = (w.extractLsb' 2 4).toNat)
    (hord : c.ord.code = (w.extractLsb' 0 2).toNat) : packClause c = w := by
  have hbit : BitVec.ofBool (w.getLsbD 20) = w.extractLsb' 20 1 := by
    apply BitVec.eq_of_getLsbD_eq
    intro i hi
    simp [show i = 0 by omega]
  simp only [packClause, hty, hrm, hgrp, hscope, hord, ← hcount, ← hneg, ← hguard, hbit, BitVec.ofNat_toNat,
    BitVec.setWidth_eq, ← ho, fOp]
  show w.extractLsb' 25 7 ++ w.extractLsb' 21 4 ++ w.extractLsb' 20 1 ++ w.extractLsb' 17 3 ++ w.extractLsb' 12 5 ++
    w.extractLsb' 9 3 ++ w.extractLsb' 6 3 ++ w.extractLsb' 2 4 ++ w.extractLsb' 0 2 = w
  rw [extract_append_extract w 21 7 4, extract_append_extract w 20 11 1, extract_append_extract w 17 12 3,
    extract_append_extract w 12 15 5, extract_append_extract w 9 20 3, extract_append_extract w 6 23 3,
    extract_append_extract w 2 26 4, extract_append_extract w 0 30 2, extract_all]

@[simp] theorem encodedBy_decodeClause {w : Word} (ho : (fOp w).toNat = 2) : EncodedBy w (decodeClause w) := by
  simp only [decodeClause, encodedBy_asCode, encodedBy_ok, encode, Option.some.injEq, Ty.ofCode_eq_some_iff,
    Rm.ofCode_eq_some_iff, GroupCode.ofCode_eq_some_iff, Scope.ofCode_eq_some_iff, Ordering4.ofCode_eq_some_iff]
  intro ty hty rm hrm grp hgrp scope hscope ord hord
  exact packClause_fields (fOp_eq ho) rfl rfl rfl hty hrm hgrp hscope hord

/-- Whatever the opcode map makes of a word, the word is its encoding: opcode by opcode, and minor by minor. -/
theorem encodedBy_decodeFields (w : Word) : EncodedBy w (decodeFields w) := by
  unfold decodeFields
  split
  case h_1 hop => exact encodedBy_decodeClause hop
  -- the minor, and the form of opcode 0x4D's minor 5
  all_goals try split
  all_goals try split
  all_goals simp [encode, -Bool.forall_bool]
  all_goals
    intros
    simp_all

theorem decode_eq_ok_iff {w : Word} {i : Instr} : decode w = .ok i ↔ decodeFields w = .ok i ∧ i.wf = true := by
  unfold decode
  cases h : decodeFields w with
  | error e => simp
  | ok j =>
    by_cases hj : j.wf = true
    · simp only [hj, if_true, Except.ok.injEq]
      exact ⟨by rintro rfl; exact ⟨rfl, hj⟩, And.left⟩
    · simp only [hj, Except.ok.injEq]
      simp only [Bool.false_eq_true, if_false, reduceCtorEq, false_iff, not_and]
      rintro rfl
      exact hj

open Laws.RoundTrip in
/-- Decoding the word of a well-formed instruction gives the instruction back, by the law of its constructor. -/
theorem decode_of_encode (i : Instr) : Laws.RoundTrip.Statement i := by
  cases i
  case clause | nop | bra | brnz | brz | brv | brx | call | callx | ret | exit | trap | tret | yield | sleep | sadd
    | ssub | smul | smulhi | smulhin | sand | sor | sxor | sshl | sshr | ssar | smin | smax | sminn | smaxn | sandn
    | saddi | sandi | sori | sxori | sshli | sshri | ssari | smovi | slui | scmp | ssel | spopc | sclz | sctz |
    sbrev | sbfe | sbfi | sadd64 | ssub64 | smov | tlbinv | srdp | swrp | bkpt | icinv | vadd | vsub | vmul | vmulhi
    | vand | vor | vxor | vandn | vshl | vshr | vsar | vmin | vmax | vaddsat | vsubsat | vabsd | vaddScalar |
    vsubScalar | vmulScalar | vmulhiScalar | vandScalar | vorScalar | vxorScalar | vandnScalar | vshlScalar |
    vshrScalar | vsarScalar | vminScalar | vmaxScalar | vaddsatScalar | vsubsatScalar | vabsdScalar | vmad | vmadhi
    | vdot4 | vcmp | vsel | vpopc | vclz | vctz | vbrev | vbfe | vbfi | vpermb | vnot | vneg | vabs | vaddc | vsubb
    | vlea | vsext | vzext | vaddi | vandi | vori | vshli | vshri | vsari | vmovi | vdiv | vrem | fadd | fsub | fmul
    | ffma | ffms | fnfma | fmin | fmax | fminnum | fmaxnum | fsgnj | fsgnjn | fabs | fneg | fclass | fscale | fcmp
    | fdot2 | frcp | frsq | fsqrt | fexp2 | flog2 | fsin | fcos | ftanh | fdiv | frnd | cvt | fpack | rnd | rndf |
    rndskip | xshfl | xrot | xbcast | xreduce | xscani | xscane | xmadd | xmmin | xmmax | xmor | xballot | xany |
    xall | xcount | xfirst | lkacq | lktry | lkup | lkdown | lkrel | lkstat | lktab | bar | bararr | barwait | cbar
    | tkwait | tkpass | tkpassPoison | fence | hmake | hgive | htake | hdrop | hquery | vmov | vmovs | vrdl | vwrl |
    pand | por | pxor | pnot | pset | pclr | pmovs | smovp | grow | shrink | srd | swr | cpy | mma | coll | tgload |
    swait | spoll | ldg | stg | ldgs | stgs | ldsb | stsb | ldab | stab | ldcb | stcb | ldh | sth | pref | cflush |
    cinv | aadd | amin | amax | aand | aor | axor | axchg | acas | aincw | afadd | afmin | afmax | waitcmp =>
    simp only [
      clause, nop, bra, brnz, brz, brv, brx, call, callx, ret, exit, trap, tret, yield, sleep, sadd, ssub, smul,
      smulhi, smulhin, sand, sor, sxor, sshl, sshr, ssar, smin, smax, sminn, smaxn, sandn, saddi, sandi, sori, sxori,
      sshli, sshri, ssari, smovi, slui, scmp, ssel, spopc, sclz, sctz, sbrev, sbfe, sbfi, sadd64, ssub64, smov,
      tlbinv, srdp, swrp, bkpt, icinv, vadd, vsub, vmul, vmulhi, vand, vor, vxor, vandn, vshl, vshr, vsar, vmin, vmax,
      vaddsat, vsubsat, vabsd, vaddScalar, vsubScalar, vmulScalar, vmulhiScalar, vandScalar, vorScalar, vxorScalar,
      vandnScalar, vshlScalar, vshrScalar, vsarScalar, vminScalar, vmaxScalar, vaddsatScalar, vsubsatScalar,
      vabsdScalar, vmad, vmadhi, vdot4, vcmp, vsel, vpopc, vclz, vctz, vbrev, vbfe, vbfi, vpermb, vnot, vneg, vabs,
      vaddc, vsubb, vlea, vsext, vzext, vaddi, vandi, vori, vshli, vshri, vsari, vmovi, vdiv, vrem, fadd, fsub, fmul,
      ffma, ffms, fnfma, fmin, fmax, fminnum, fmaxnum, fsgnj, fsgnjn, fabs, fneg, fclass, fscale, fcmp, fdot2, frcp,
      frsq, fsqrt, fexp2, flog2, fsin, fcos, ftanh, fdiv, frnd, cvt, fpack, rnd, rndf, rndskip, xshfl, xrot, xbcast,
      xreduce, xscani, xscane, xmadd, xmmin, xmmax, xmor, xballot, xany, xall, xcount, xfirst, lkacq, lktry, lkup,
      lkdown, lkrel, lkstat, lktab, bar, bararr, barwait, cbar, tkwait, tkpass, tkpassPoison, fence, hmake, hgive,
      htake, hdrop, hquery, vmov, vmovs, vrdl, vwrl, pand, por, pxor, pnot, pset, pclr, pmovs, smovp, grow, shrink,
      srd, swr, cpy, mma, coll, tgload, swait, spoll, ldg, stg, ldgs, stgs, ldsb, stsb, ldab, stab, ldcb, stcb, ldh,
      sth, pref, cflush, cinv, aadd, amin, amax, aand, aor, axor, axchg, acas, aincw, afadd, afmin, afmax, waitcmp]
  all_goals exact of_none rfl

/-- Settles O59: what decodes is well-formed and encoded, by the fields of the word; what is well-formed and encoded decodes, by
the law of its constructor. -/
theorem encodedInstructionsDecodeToThemselves : Obligations.EncodedInstructionsDecodeToThemselves := by
  intro i w
  constructor
  · intro h
    obtain ⟨hf, hwf⟩ := decode_eq_ok_iff.1 h
    exact ⟨hwf, encodedBy_decodeFields w i hf⟩
  · rintro ⟨hwf, he⟩
    exact decode_of_encode i hwf w he

/-- Settles O60: the words are closed terms that the decoder evaluates. -/
theorem wordsOfTheEncodingDecode : Obligations.WordsOfTheEncodingDecode := by
  unfold Obligations.WordsOfTheEncodingDecode
  decide

end Sys2Proof
end

section
/-! PROOFS. The uniform control instructions (R49, R50, R52, R168, R171, R176, R177). -/

namespace Sys2Proof.Machine

theorem branchTarget_eq_target (s : State) {n : Nat} (imm : BitVec n) :
    branchTarget s.warp.sp.pc imm.toNat n = s.target imm := by
  rw [branchTarget, signedOf_toNat, State.target]

/-- An instruction without vector operands, which accepts every clause type, issues by its own rule alone. -/
theorem State.issue_scalar (s : State) (i : Instr) (f : Form) (rule : State → Res) (h : s.clearFor f.sync)
    (h1 : f.undef = false) (h2 : f.use.vr = []) (h3 : f.use.vw = []) (h4 : f.badType = false) :
    s.issue i f rule = s.finish (rule s) :=
  s.issue_rule i f rule h (s.firstCause_scalar i f h.2 h1 h2 h3 h4)

theorem State.finish_jump (s : State) (t : Pc) (g : Warp → Warp) : s.finish ((s.modWarp g).jump t) = s.goes t g := rfl

/-- Only what a change makes of the running warp counts. -/
theorem State.modWarp_congr {s : State} {f g : Warp → Warp} (h : f s.warp = g s.warp) : s.modWarp f = s.modWarp g := by
  unfold State.modWarp
  rw [h]

theorem State.goes_congr {s : State} {t : Pc} {g g' : Warp → Warp} (h : g s.warp = g' s.warp) : s.goes t g = s.goes t g' :=
  State.modWarp_congr (congrArg (fun w => (w.modSp fun p => p.goTo t).retired) h)

/-- A uniform branch goes to its target, or falls through (R168). -/
theorem State.finish_uniform (s : State) (taken : Bool) (imm : BitVec 18) :
    s.finish (s.uniform taken imm) = if taken then s.goes (s.target imm) id else s.after id := by
  cases taken
  · rfl
  · rw [State.uniform, if_pos rfl, branchTarget_eq_target]
    rfl

/-- CALL names a pair that it writes, and no other operand (R171). -/
theorem State.firstCause_call (s : State) (d : Reg) (imm : BitVec 18) (ho : s.warp.outstanding = []) (hd : s.fits .b64 [d]) :
    s.firstCause (.call d imm) { use := { vw := span d 2, sr := maskUse } } = none := by
  refine s.firstCause_none _ _ ho rfl (fun r hr => ?_) rfl
  obtain ⟨j, hj, rfl⟩ := (mem_span d 2 r).1 (by simpa using hr)
  have hlt : d.val + 2 ≤ s.warp.allot := (hd d (by simp)).2
  omega

/-- Settles O11: each instruction issues by its own rule alone. -/
theorem uniformControlTransfers : Obligations.UniformControlTransfers := by
  intro s d far imm c h
  refine ⟨?_, ?_, ?_, fun hd => ?_, ?_, ?_, ?_, ?_⟩
  · rw [exec_bra, execBra, s.issue_scalar _ _ _ h rfl rfl rfl rfl, branchTarget_eq_target]
    rfl
  · rw [exec_brnz, execBrnz, s.issue_scalar _ _ _ h rfl rfl rfl rfl, s.finish_uniform]
    simp
  · rw [exec_brz, execBrz, s.issue_scalar _ _ _ h rfl rfl rfl rfl, s.finish_uniform]
    simp
  · rw [exec_call, execCall, s.issue_rule _ _ _ h (s.firstCause_call d imm h.2 hd), branchTarget_eq_target, s.finish_jump]
    exact congrArg _ (State.goes_congr rfl)
  · exact congrArg _ (s.issue_scalar .nop {} _ h rfl rfl rfl rfl)
  · exact congrArg _ (s.issue_scalar .yield {} _ h rfl rfl rfl rfl)
  · exact congrArg _ (s.issue_scalar (.clause c) {} _ h rfl rfl rfl rfl)
  · rw [exec_sleep, execSleep, s.issue_scalar _ _ _ h rfl rfl rfl rfl]
    split <;> rfl

end Sys2Proof.Machine
end

section
/-! PROOFS. The causes that every instruction shares, in their order (R48, R53, R60, R61, R65, R104). -/

namespace Sys2Proof.Machine
variable {s : State} {i : Instr} {f : Form}

/-- An instruction that raises a shared cause, with nothing before it, enters it at once (R61, R383). -/
theorem State.issue_enters {rule : State → Res} {c : Cause} {x : DWord} (h : s.clearFor f.sync) (he : s.mayEnter)
    (hc : s.firstCause i f = some (c, x)) (hd : c ≠ .doublefault) : s.issue i f rule = s.entered c x := by
  rw [s.issue_cause i f rule h c x hc, s.trapHere_enters c x h.2 he hd]

theorem State.firstCause_undef (hu : f.undef = true) : s.firstCause i f = some (.undef, BitVec.setWidth 64 (wordOf i)) := by
  rw [State.firstCause, if_pos hu]

theorem State.firstCause_regbound (hu : f.undef = false) (hr : ∃ r ∈ f.use.vr ++ f.use.vw, s.warp.allot ≤ r) :
    s.firstCause i f = some (.regbound, BitVec.setWidth 64 (wordOf i)) := by
  rw [State.firstCause, if_neg (by simp [hu]), if_pos (by simpa only [List.any_eq_true, decide_eq_true_eq] using hr)]

theorem State.firstCause_type (hu : f.undef = false) (hr : ∀ r ∈ f.use.vr ++ f.use.vw, r < s.warp.allot)
    (ht : f.badType = true) : s.firstCause i f = some (.type, BitVec.setWidth 64 (wordOf i)) := by
  have hany : (f.use.vr ++ f.use.vw).any (fun r => decide (s.warp.allot ≤ r)) = false :=
    List.any_eq_false.2 fun r hm => by simpa using hr r hm
  rw [State.firstCause, if_neg (by simp [hu]), if_neg (by simp [hany]), if_pos ht]

/-! The form of a vector instruction of one operand type. -/

variable {t : Ty} {cls : Cls} {reads writes : List Reg} {sr : List Nat} {ok : Bool}

theorem State.vform_undef_iff :
    (s.vform ok t cls reads writes sr).undef = true ↔ ok = true ∧ ∃ r ∈ reads ++ writes, r.val % t.regs ≠ 0 := by
  cases ok <;> simp [State.vform, or_and_right, exists_or]

theorem State.mem_vform_use_iff {x : Nat} :
    x ∈ (s.vform ok t cls reads writes sr).use.vr ++ (s.vform ok t cls reads writes sr).use.vw ↔
      ∃ r ∈ reads ++ writes, ∃ j < (if ok then t.regs else 1), x = r.val + j := by
  simp only [State.vform, List.mem_append, List.mem_flatMap, mem_span]
  constructor
  · rintro (⟨r, hr, h⟩ | ⟨r, hr, h⟩)
    · exact ⟨r, .inl hr, h⟩
    · exact ⟨r, .inr hr, h⟩
  · rintro ⟨r, hr | hr, h⟩
    · exact .inl ⟨r, hr, h⟩
    · exact .inr ⟨r, hr, h⟩

theorem State.firstCause_vform_undef (hok : ok = true) (hr : ∃ r ∈ reads ++ writes, r.val % t.regs ≠ 0) :
    s.firstCause i (s.vform ok t cls reads writes sr) = some (.undef, BitVec.setWidth 64 (wordOf i)) :=
  State.firstCause_undef (State.vform_undef_iff.2 ⟨hok, hr⟩)

theorem State.firstCause_vform_regbound (hok : ok = true) (hm : ∀ r ∈ reads ++ writes, r.val % t.regs = 0)
    (hr : ∃ r ∈ reads ++ writes, s.warp.allot < r.val + t.regs) :
    s.firstCause i (s.vform ok t cls reads writes sr) = some (.regbound, BitVec.setWidth 64 (wordOf i)) := by
  refine State.firstCause_regbound (Bool.eq_false_iff.2 fun hu => ?_) ?_
  · obtain ⟨-, r, hr, hn⟩ := State.vform_undef_iff.1 hu
    exact hn (hm r hr)
  · obtain ⟨r, hr, hlt⟩ := hr
    have hpos : 0 < t.regs := by cases t <;> decide
    exact ⟨r.val + (t.regs - 1), State.mem_vform_use_iff.2 ⟨r, hr, t.regs - 1, by rw [if_pos hok]; omega, rfl⟩, by omega⟩

theorem State.firstCause_vform_type (hok : ok = false) (hr : s.within (reads ++ writes)) :
    s.firstCause i (s.vform ok t cls reads writes sr) = some (.type, BitVec.setWidth 64 (wordOf i)) := by
  subst hok
  refine State.firstCause_type rfl (fun x hx => ?_) rfl
  obtain ⟨r, hm, j, hj, rfl⟩ := State.mem_vform_use_iff.1 hx
  have hlt := hr r hm
  have hj0 : j < 1 := hj
  omega

/-- Settles O14: each shared cause is raised where those before it are not. -/
theorem sharedCausesTrapInOrder : Obligations.SharedCausesTrapInOrder := by
  intro s w d a b h he t word
  have enters (c : Cause) (hd : c ≠ .doublefault)
      (hc : s.firstCause (.vadd d a b) (s.vform t.isInt t .s [a, b] [d] []) = some (c, word)) :
      exec (.vadd d a b) s = .next (s.entered c word) := by
    rw [exec_vadd, execVadd, State.valu, State.compute, State.issue_enters h he hc hd]
  have perm (p : Reg → Prop) : (∃ r ∈ [a, b] ++ [d], p r) ↔ (∃ r ∈ [d, a, b], p r) := by simp; tauto
  have permAll (p : Reg → Prop) : (∀ r ∈ [a, b] ++ [d], p r) ↔ (∀ r ∈ [d, a, b], p r) := by simp; tauto
  refine ⟨?_, fun ht hodd => ?_, fun ht hm hr => ?_, fun ht hr => ?_⟩
  · exact congrArg _ (State.issue_enters h he (State.firstCause_undef rfl) (by decide))
  · have hregs : t.regs = 2 ∧ t.isInt = true := by rcases ht with ht | ht <;> rw [ht] <;> decide
    refine enters .undef (by decide) (State.firstCause_vform_undef hregs.2 ((perm _).2 ?_))
    rw [hregs.1]
    simp only [List.mem_cons, List.not_mem_nil, or_false, exists_eq_or_imp, exists_eq_left]
    omega
  · exact enters .regbound (by decide) (State.firstCause_vform_regbound ht ((permAll _).2 hm) ((perm _).2 hr))
  · exact enters .type (by decide) (State.firstCause_vform_type ht ((permAll _).2 hr))

end Sys2Proof.Machine
end

section
/-! PROOFS. The results that a long instruction holds in its window (R55, R56), and those of FSFU and FDIV (R129, R134, R143, R145,
R146). -/

namespace Sys2Proof.Machine

theorem lowWord_ofNat (x : Nat) : lowWord (BitVec.ofNat 64 x) = BitVec.ofNat 32 x := by
  apply BitVec.eq_of_toNat_eq
  simp only [lowWord, BitVec.extractLsb'_toNat, BitVec.toNat_ofNat, Nat.shiftRight_zero]
  omega

theorem highWord_ofNat (x : Nat) : highWord (BitVec.ofNat 64 x) = BitVec.ofNat 32 (x / 2 ^ 32) := by
  apply BitVec.eq_of_toNat_eq
  simp only [highWord, BitVec.extractLsb'_toNat, BitVec.toNat_ofNat, Nat.shiftRight_eq_div_pow]
  omega

@[simp] theorem wbV_apply (w : Warp) (r : Reg) (m : LaneMask) (f : Lane → Word) :
    WriteBack.apply w (wbV r m f) = w.setV r m f := by
  simp [wbV, WriteBack.apply]

/-- Written back, an operand's registers hold it (R55, R56). -/
theorem wbNat_apply (w : Warp) (r : Reg) (t : Ty) (m : LaneMask) (f : Lane → Nat) :
    (wbNat r t.regs m f).foldl WriteBack.apply w = w.setVNat r t.regs m f := by
  have hr : r + 2 + 1 = r + 3 := by rw [add_assoc]; rfl
  have hregs : t.regs = 1 ∨ t.regs = 2 ∨ t.regs = 4 := by cases t <;> decide
  obtain h | h | h := hregs <;> rw [h]
  · simp [wbNat, List.range_succ, Warp.setVNat]
  · simp [wbNat, List.range_succ, Warp.setVNat, Warp.setV64, lowWord_ofNat, highWord_ofNat]
    rfl
  · simp [wbNat, List.range_succ, Warp.setVNat, Warp.setV64, lowWord_ofNat, highWord_ofNat, Nat.div_div_eq_div_mul, hr]
    rfl

/-- A long floating form retires with its results and flags in its window, and its draws taken (R146). -/
theorem State.longFloat_pends {s : State} {i : Instr} {ok : Ty → Bool} {reads : List Reg} {d a b : Reg} {la : Fin 16} {f : FOp}
    (h : s.clearFor false) (hok : ok (s.warp.ty .f32) = true) (hf : s.fits (s.warp.ty .f32) (reads ++ [d])) :
    let t := s.warp.ty .f32
    let rm := s.warp.rm .dflt
    let r (l : Lane) : List (Nat × Nat) := f.lane t rm d a b s.warp l (s.draw rm l)
    ∃ (u : Use) (wb : List WriteBack), (∀ k, RegName.v k ∈ u.writes ↔ d.val ≤ k ∧ k < d.val + t.regs) ∧
      (∀ w : Warp, wb.foldl WriteBack.apply w =
        w.setVNat d t.regs s.warp.guarded fun l => packElems (tyFmt t).bits ((r l).map (·.1))) ∧
      s.longFloat i ok reads d a b la f =
        s.after fun w => (w.pushLong la.val u wb (s.raised r) none).drew (rm == .sr) t.elems := by
  intro t rm r
  have hk (k : Nat) : k ∈ span d t.regs ↔ d.val ≤ k ∧ k < d.val + t.regs := by
    rw [mem_span]
    exact ⟨by rintro ⟨j, hj, rfl⟩; omega, fun ⟨h1, h2⟩ => ⟨k - d.val, by omega, by omega⟩⟩
  have hnone : s.firstCause i (s.vform (ok t) t .l reads [d] []) = none := by
    rw [show ok t = true from hok]
    exact s.vform_none i t .l reads [d] [] _ h.2 hf rfl rfl rfl rfl
  refine ⟨(s.vform (ok t) t .l reads [d] []).use, wbNat d t.regs s.warp.guarded fun l => packElems (tyFmt t).bits
    ((laneResults s.hdr s.warp (rm == .sr) (f.lane t rm d a b s.warp))[l].map (·.1)), fun k => ?_, fun w => ?_, ?_⟩
  · simpa [Use.writes, State.vform, show ok t = true from hok] using hk k
  · rw [wbNat_apply]
    exact w.setVNat_congr d t.regs s.warp.guarded _ _ fun l hl => by rw [laneResults_get s rm _ l hl]
  · rw [State.longFloat, s.issue_rule _ _ _ h hnone]
    simp only [gatherFlags_eq]
    exact State.after_congr rfl

/-- Settles O22: each form is a long floating form of its operation. -/
theorem longFloatResults : Obligations.LongFloatResults := by
  intro s d a b la h t F rm v pends
  have sfu (i : Instr) (op : Sfu) (ok : Ty → Bool) (hok : ok t = true) (hf : s.fits t [a, d])
      (he : exec i s = .next (s.longFloat i ok [a] d a a la (fSfu op))) :
      pends i fun l e => F.sfu op rm (s.draw rm l e) (v a l e) := by
    obtain ⟨u, wb, hu, hw, hs⟩ := State.longFloat_pends (i := i) (reads := [a]) (d := d)
      (a := a) (b := a) (la := la) (f := fSfu op) h hok hf
    exact ⟨u, wb, hu, hw, he.trans (congrArg _ hs)⟩
  refine ⟨fun ht hf => ⟨?_, ?_, ?_⟩, fun ht hf => ⟨?_, ?_, ?_, ?_, ?_⟩, fun ht hf => ?_⟩
  · exact sfu _ .rcp Ty.arith ht hf rfl
  · exact sfu _ .rsq Ty.arith ht hf rfl
  · exact sfu _ .sqrt Ty.arith ht hf rfl
  · exact sfu _ .exp2 Ty.transc ht hf rfl
  · exact sfu _ .log2 Ty.transc ht hf rfl
  · exact sfu _ .sin Ty.transc ht hf rfl
  · exact sfu _ .cos Ty.transc ht hf rfl
  · exact sfu _ .tanh Ty.transc ht hf rfl
  · obtain ⟨u, wb, hu, hw, hs⟩ := State.longFloat_pends (i := .fdiv d a b la) (ok := Ty.arith) (reads := [a, b]) (a := a)
      (b := b) (la := la) (f := fun f rm r _ x y => f.div rm r (f.decode x) (f.decode y)) h ht hf
    exact ⟨u, wb, hu, hw, congrArg _ hs⟩

end Sys2Proof.Machine
end

section
/-! PROOFS. The moves between lanes and the votes (R55, R154, R157, R158, R163). -/

namespace Sys2Proof.Machine
variable {s : State}

/-- A form that computes what its window will hold retires at once with it (R55). -/
theorem State.pends_of_compute {i : Instr} {f : Form} {la : Fin 16} {fl : Nat} {u : Use} {wb : Warp → List WriteBack}
    {W : Warp → Warp} (h : s.clearFor f.sync) (hc : s.firstCause i f = none)
    (he : exec i s = .next (s.compute i f fun w => w.pushLong la.val u (wb w) fl none))
    (hw : ∀ w, (wb s.warp).foldl WriteBack.apply w = W w) : s.pends i la fl W :=
  ⟨u, wb s.warp, hw, by rw [he, s.compute_clear i f _ h hc]; exact congrArg _ (State.after_congr rfl)⟩

/-- The form of a move between lanes, which reads `vr` besides its operand (R158). -/
def State.moveForm (s : State) (d a : Reg) (vr sr : List Nat) : Form :=
  let form := s.vform (s.warp.ty .b32).isBits (s.warp.ty .b32) .l [a] [d] sr
  { form with use := { form.use with vr := vr ++ form.use.vr } }

theorem State.firstCause_moveForm {i : Instr} {d a : Reg} {vr sr : List Nat} (ho : s.warp.outstanding = [])
    (ht : (s.warp.ty .b32).isBits = true) (hf : s.fits (s.warp.ty .b32) [a, d]) (hr : ∀ r ∈ vr, r < s.warp.allot) :
    s.firstCause i (s.moveForm d a vr sr) = none := by
  refine s.firstCause_none i _ ho (Bool.eq_false_iff.2 fun hu => ?_) (fun x hx => ?_) (by simp [State.moveForm, State.vform, ht])
  · obtain ⟨-, r, hm, hn⟩ := (State.vform_undef_iff (s := s) (cls := .l) (sr := sr)).1 hu
    exact hn (hf r hm).1
  · rw [State.moveForm, List.append_assoc, List.mem_append] at hx
    rcases hx with hx | hx
    · exact hr x hx
    · obtain ⟨r, hm, j, hj, rfl⟩ := State.mem_vform_use_iff.1 hx
      have hlt := (hf r hm).2
      rw [if_pos ht] at hj
      omega

/-- A move between lanes holds each active lane's source in its window (R158). -/
theorem State.xmove_pends {i : Instr} {d a : Reg} {la : Fin 16} {vr sr : List Nat} (src : Warp → Nat → Lane → Nat)
    (h : s.clearFor false) (ht : (s.warp.ty .b32).isBits = true) (hf : s.fits (s.warp.ty .b32) [a, d])
    (hr : ∀ r ∈ vr, r < s.warp.allot) (he : exec i s = .next (s.xmove i d a la vr sr src)) :
    s.pends i la 0 fun w => w.setVNat d (s.warp.ty .b32).regs s.warp.guarded fun l =>
      let p := laneAt (l.val - l.val % s.warp.groupSize) (src s.warp s.warp.groupSize l % s.warp.groupSize)
      if LaneMask.has s.warp.guarded p then s.warp.vNat a (s.warp.ty .b32).regs p else 0 :=
  State.pends_of_compute (f := s.moveForm d a vr sr) h (State.firstCause_moveForm h.2 ht hf hr) he fun _ => wbNat_apply ..

/-- A vote, whose destination vector registers, if any, are allotted (R163). -/
theorem State.xvote_pends {i : Instr} {p : PReg} {la : Fin 16} {writes : Use} {W : Warp → Warp}
    {f : Warp → LaneMask → LaneMask → List WriteBack} (h : s.clearFor false) (hr : writes.vr = [])
    (hv : ∀ r ∈ writes.vw, r < s.warp.allot) (he : exec i s = .next (s.xvote i p la writes f))
    (hw : ∀ w, (f s.warp (s.warp.p p &&& s.warp.guarded) s.warp.guarded).foldl WriteBack.apply w = W w) :
    s.pends i la 0 W :=
  State.pends_of_compute (s := s) (f := { cls := .l, use := { writes with pr := p.val :: s.warp.guardUse, sr := maskUse } }) h
    (s.firstCause_none i _ h.2 rfl (by simpa [hr] using hv) rfl) he hw

/-- The lanes of a group that a mask holds, as the group's lanes that are in the mask (R163). -/
theorem groupLanes_eq (g : Nat) (m : LaneMask) (l : Lane) :
    groupLanes g m l = ((List.finRange 96).filter fun k => k.val / g == l.val / g).filter m.has := by
  rw [groupLanes, LaneMask.lanes, List.filter_filter, List.filter_filter]
  exact List.filter_congr fun k _ => Bool.and_comm ..

theorem filter_beq_filter {α : Type} [DecidableEq α] (L : List α) (p q : α → Bool) (hpq : ∀ x, p x = true → q x = true) :
    (L.filter p == L.filter q) = L.all fun x => p x || !q x := by
  rw [Bool.eq_iff_iff, beq_iff_eq, List.all_eq_true]
  constructor
  · intro h x hx
    have hm : x ∈ L.filter p ↔ x ∈ L.filter q := by rw [h]
    simp only [List.mem_filter, hx, true_and] at hm
    cases hp : p x <;> simp_all
  · intro h
    refine List.filter_congr fun x hx => ?_
    have hx := h x hx
    have hi := hpq x
    cases hp : p x <;> simp_all

theorem maskParts_apply (m : LaneMask) (d : Reg) (w : Warp) :
    ((List.range 3).map fun k => WriteBack.s (d + Fin.ofNat 128 k) (m.part k)).foldl WriteBack.apply w =
      ((w.setS d (m.part 0)).setS (d + 1) (m.part 1)).setS (d + 2) (m.part 2) := by
  simp [List.range_succ, WriteBack.apply]
  rfl

/-- Settles O25: the moves and the votes each by their rule, and the lists of a group's lanes as its statement has them. -/
theorem laneMoveAndVoteResults : Obligations.LaneMoveAndVoteResults := by
  intro s d a b p q la h G act vote group
  have hvote (k : Lane) : LaneMask.has (s.warp.p p &&& s.warp.guarded) k = vote k := by
    simp [LaneMask.has, vote, act, Bool.and_comm]
  have hlanes (l : Lane) : groupLanes G (s.warp.p p &&& s.warp.guarded) l = (group l).filter vote := by
    rw [groupLanes_eq]
    exact List.filter_congr fun k _ => hvote k
  refine ⟨?_, ?_, ?_, ?_, ?_⟩
  · intro t moves ht hf
    refine ⟨fun hb => ?_, ?_, ?_⟩
    · have hr : ∀ r ∈ [b.val], r < s.warp.allot := by simpa [State.within] using hb
      exact State.xmove_pends (fun w _ l => (w.v b l).toNat) h ht hf hr rfl
    · exact State.xmove_pends (fun w g l => l.val % g + (w.s b).toNat) h ht hf (by simp) rfl
    · exact State.xmove_pends (fun w _ _ => (w.s b).toNat) h ht hf (by simp) rfl
  · refine ⟨s.warp.p p &&& s.warp.guarded, hvote, State.xvote_pends h rfl (by simp) rfl fun w => maskParts_apply ..⟩
  · refine ⟨LaneMask.ofFn fun l => (group l).any vote, LaneMask.getLsbD_ofFn _, State.xvote_pends h rfl (by simp) rfl fun w => ?_⟩
    have hany (l : Lane) : (groupLanes G (s.warp.p p &&& s.warp.guarded) l != []) = (group l).any vote := by
      rw [hlanes, Bool.eq_iff_iff, bne_iff_ne, ne_eq, List.filter_eq_nil_iff, List.any_eq_true]
      simp
    exact congrArg (w.setP q s.warp.guarded <| LaneMask.ofFn ·) (funext hany)
  · refine ⟨LaneMask.ofFn fun l => (group l).all fun k => vote k || !act k, LaneMask.getLsbD_ofFn _,
      State.xvote_pends h rfl (by simp) rfl fun w => ?_⟩
    have hall (l : Lane) : (groupLanes G (s.warp.p p &&& s.warp.guarded) l == groupLanes G s.warp.guarded l) =
        (group l).all fun k => vote k || !act k := by
      rw [hlanes, groupLanes_eq]
      exact filter_beq_filter (group l) vote act fun k hk => (Bool.and_eq_true_iff.1 hk).1
    exact congrArg (w.setP q s.warp.guarded <| LaneMask.ofFn ·) (funext hall)
  · intro hd
    have hr : ∀ r ∈ [d.val], r < s.warp.allot := by simpa [State.within] using hd
    refine ⟨State.xvote_pends h rfl hr rfl fun w => ?_, State.xvote_pends h rfl hr rfl fun w => ?_⟩
    · rw [List.foldl_cons, List.foldl_nil, wbV_apply]
      exact congrArg (w.setV d s.warp.guarded) (funext fun l => by rw [← hlanes])
    · rw [List.foldl_cons, List.foldl_nil, wbV_apply]
      refine congrArg (w.setV d s.warp.guarded) (funext fun l => ?_)
      rw [← List.head?_filter, ← hlanes] <;> rfl

end Sys2Proof.Machine
end

section
/-! PROOFS. The privileged instructions (R66, R78, R190, R192, R390, R392, R393, R437). -/

namespace Sys2Proof.Machine

theorem State.after_id (s : State) : s.after id = s.retire := rfl

/-- In a system context a privileged instruction issues by its rule (R66). -/
theorem State.issue_privileged {s : State} {i : Instr} {f : Form} {rule : State → Res} (h : s.clearFor f.sync)
    (h1 : f.undef = false) (h2 : f.use.vr = []) (h3 : f.use.vw = []) (h4 : f.badType = false) (hs : s.ctx.system = true) :
    s.issue i f (fun s => s.privileged i rule) = s.finish (rule s) := by
  rw [s.issue_scalar i f _ h h1 h2 h3 h4, State.privileged, if_pos hs]

/-- In any other context it enters ACCESS with its word (R66, R390). -/
theorem State.issue_unprivileged {s : State} {i : Instr} {f : Form} {rule : State → Res} (h : s.clearFor f.sync)
    (he : s.mayEnter) (h1 : f.undef = false) (h2 : f.use.vr = []) (h3 : f.use.vw = []) (h4 : f.badType = false)
    (hs : s.ctx.system = false) :
    s.issue i f (fun s => s.privileged i rule) = s.entered .access (BitVec.setWidth 64 (wordOf i)) := by
  rw [s.issue_scalar i f _ h h1 h2 h3 h4, State.privileged, if_neg (by simp [hs])]
  exact s.trapHere_enters .access _ h.2 he (by decide)

/-! TLBINV's control word (R192). -/

theorem toNat_and_low16 (c : Word) : (c &&& 0xFFFF#32).toNat = bitsOf c.toNat 0 16 := by
  rw [bitsOf, pow_zero, Nat.div_one, BitVec.toNat_and]
  exact Nat.and_two_pow_sub_one_eq_mod c.toNat 16

theorem toNat_shift16_and_low2 (c : Word) : (c >>> 16 &&& 3#32).toNat = bitsOf c.toNat 16 2 := by
  rw [bitsOf, BitVec.toNat_and, BitVec.toNat_ushiftRight, Nat.shiftRight_eq_div_pow]
  exact Nat.and_two_pow_sub_one_eq_mod (c.toNat / 2 ^ 16) 2

theorem selects_eq (sel ctx va c vpage size : Nat) :
    selects sel ctx va c vpage size =
      if sel = 0 then c == ctx && va % 2 ^ 57 / size == vpage else if sel = 1 then c == ctx else true := by
  match sel with
  | 0 => rfl
  | 1 => rfl
  | n + 2 => simp [selects]

/-- TLBINV in a system context, by its control word's fields and by the reductions that were translated through what they
select. -/
theorem execTlbinv_system {s : State} {a b : Reg} {sel ctx va : Nat} {held : List (Warp × Reduction)} (h : s.clearFor false)
    (hs : s.ctx.system = true) (hsel : bitsOf (s.warp.s b).toNat 16 2 = sel) (hctx : bitsOf (s.warp.s b).toNat 0 16 = ctx)
    (hva : (s.warp.s64 a).toNat = va)
    (hheld : (s.flushAll.warps.flatMap fun w => (w.reds.filter fun r => redDropped sel ctx va w r).map fun r => (w, r)) =
      held) :
    execTlbinv a b s = .next (s.finish (if held ≠ [] then .stay (s.flushAll.othersWait held)
      else .done ((s.flushAll.redoWaits sel ctx va).tlbInvalidate sel ctx va))) := by
  subst hsel hctx hva hheld
  rw [execTlbinv, State.issue_privileged h rfl rfl rfl rfl hs]

/-! The trap base (R392), and the code that a core fetches afresh (R78). -/

/-- A write of a word of the trap base, in a system context (R392). -/
theorem State.privWrite_system {s : State} {i : Instr} {a : Reg} {n : PrivReg} (h : s.clearFor false)
    (hw : PrivReg.writable n = true) (hs : s.ctx.system = true) :
    s.privWrite i a n = (s.modLaunch s.warp.key.launch fun l =>
      { l with trapBase := trapBaseWith l.trapBase (n == .trapbasehi) (s.warp.s a) }).after id := by
  rw [State.privWrite, State.issue_privileged h (by simp [hw]) rfl rfl rfl hs]
  rfl

theorem State.privWrite_undef {s : State} {i : Instr} {a : Reg} {n : PrivReg} (h : s.clearFor false) (he : s.mayEnter)
    (hw : PrivReg.writable n = false) : s.privWrite i a n = s.entered .undef (BitVec.setWidth 64 (wordOf i)) :=
  State.issue_enters h he (State.firstCause_undef (by simp [hw])) (by decide)

theorem State.privWrite_access {s : State} {i : Instr} {a : Reg} {n : PrivReg} (h : s.clearFor false) (he : s.mayEnter)
    (hw : PrivReg.writable n = true) (hs : s.ctx.system = false) :
    s.privWrite i a n = s.entered .access (BitVec.setWidth 64 (wordOf i)) :=
  State.issue_unprivileged h he (by simp [hw]) rfl rfl rfl hs

theorem State.icache_freshCode (s : State) (ctx core : Nat) :
    (s.freshCode ctx (some core) none).icache = s.icache.filter fun x => !(x.core == core && x.ctx == ctx) := by
  refine List.filter_congr fun x _ => ?_
  have hc : (core == x.core) = (x.core == core) := by rw [Bool.eq_iff_iff]; simp only [beq_iff_eq]; exact eq_comm
  simp [hc, Bool.or_comm]

/-- Settles O46: each instruction by its rule in a system context, and by ACCESS in any other. -/
theorem privilegedInstructions : Obligations.PrivilegedInstructions := by
  intro s a b d n hi h hr word c va ctx sel covers base privileged based
  have hctx : ctx = bitsOf c.toNat 0 16 := toNat_and_low16 c
  have hsel : sel = bitsOf c.toNat 16 2 := toNat_shift16_and_low2 c
  refine ⟨fun hs => ⟨?_, ?_, ?_, ?_, ?_, ?_⟩, fun h1 h2 he => ?_, fun hs he => ⟨?_, ?_, fun hn => ?_, ?_, ?_⟩⟩
  · intro u held v
    have hheld : (u.warps.flatMap fun w => (w.reds.filter fun r => redDropped sel ctx va w r).map fun r => (w, r)) = held := by
      simp only [redDropped, selects_eq]
      rfl
    have hdrop : v.tlbInvalidate sel ctx va =
        { v with tlb := v.tlb.filter fun t => !covers t, xlats := v.xlats.filter fun t => !covers t } := by
      have hcovers : (fun t : TlbEntry => !t.selected sel ctx va) = fun t => !covers t :=
        funext fun t => congrArg _ (selects_eq ..)
      rw [State.tlbInvalidate, hcovers]
    have hrule := execTlbinv_system h hs hsel.symm hctx.symm rfl hheld
    refine ⟨fun hn => ?_, fun hn => ?_⟩
    · rw [exec_tlbinv, hrule, if_neg (by simp [hn]), State.after_id, ← hdrop]
      rfl
    · rw [exec_tlbinv, hrule, if_pos hn]
      rfl
  · rw [exec_srdp, execSrdp, State.issue_privileged h rfl rfl rfl rfl hs]
    cases n <;> exact congrArg _ (State.after_congr rfl)
  · exact congrArg _ (State.privWrite_system h rfl hs)
  · exact congrArg _ (State.privWrite_system h rfl hs)
  · cases hi <;> exact congrArg _ (State.privWrite_system h rfl hs)
  · intro u
    refine ⟨?_, u.icache_freshCode ..⟩
    rw [exec_icinv, execIcinv, State.issue_privileged h rfl rfl rfl rfl hs, if_neg (by simp [s.mustCommit_nil hr]), State.after_id]
    rfl
  · exact congrArg _ (State.privWrite_undef h he (by cases n <;> simp_all [PrivReg.writable]))
  · exact congrArg _ (State.issue_unprivileged h he rfl rfl rfl rfl hs)
  · exact congrArg _ (State.issue_unprivileged h he rfl rfl rfl rfl hs)
  · exact congrArg _ (State.privWrite_access h he (by rcases hn with rfl | rfl <;> rfl) hs)
  · cases hi <;> exact congrArg _ (State.privWrite_access h he rfl hs)
  · exact congrArg _ (State.issue_unprivileged h he rfl rfl rfl rfl hs)

end Sys2Proof.Machine
end

section
/-! PROOFS. What an access to memory leaves as it is: the running warp but for its clock, the launches, and the writes that are
left to be performed. -/

namespace Sys2Proof.Machine

/-- What no access to memory changes. A monitor that a write fires may advance the running warp's clock (R438). -/
structure Frame where
  warp     : Warp
  launches : List Launch
  late     : List LateWrite

def State.frame (s : State) : Frame := ⟨{ s.warp with clock := 0 }, s.launches, s.late⟩

theorem State.frame_foldl {α : Type} {f : State → α → State} (hf : ∀ t a, (f t a).frame = t.frame) (l : List α) (s : State) :
    (l.foldl f s).frame = s.frame :=
  List.foldlRecOn (motive := fun t => t.frame = s.frame) l f rfl fun t ht a _ => (hf t a).trans ht

theorem State.frame_snd_foldl {α β : Type} {f : β × State → α → β × State} (hf : ∀ p a, (f p a).2.frame = p.2.frame) (l : List α)
    (p : β × State) : (l.foldl f p).2.frame = p.2.frame :=
  List.foldlRecOn (motive := fun q => q.2.frame = p.2.frame) l f rfl fun q hq a _ => (hf q a).trans hq

/-! At the home slices. -/

theorem State.frame_modContext (s : State) (n : Nat) (f : Context → Context) : (s.modContext n f).frame = s.frame := rfl
theorem State.frame_setMem (s : State) (m : Memory) : ({ s with mem := m } : State).frame = s.frame := rfl
theorem State.frame_setLineKeys (s : State) (l : List (Nat × Nat)) : ({ s with lineKeys := l } : State).frame = s.frame := rfl

theorem State.frame_putStored (s : State) (pa : Nat) (b : Byte) : (s.putStored pa b).frame = s.frame := by
  unfold State.putStored
  split
  case h_4 => split <;> rfl
  all_goals rfl

theorem State.frame_rekeyLine (s : State) (pa : Nat) (key : Option Nat) : (s.rekeyLine pa key).frame = s.frame := by
  unfold State.rekeyLine
  split
  · rfl
  · exact (State.frame_setLineKeys ..).trans (State.frame_foldl (fun t i => t.frame_putStored ..) _ s)

theorem State.frame_logLine (s : State) (c : Context) (pa : Nat) : (s.logLine c pa).frame = s.frame := by
  unfold State.logLine
  dsimp only
  split
  · rfl
  · split
    · exact s.frame_modContext ..
    · exact (State.frame_modContext ..).trans (s.frame_setMem _)

theorem State.frame_logWrite (s : State) (w : Writer) (pa : Nat) : (s.logWrite w pa).frame = s.frame := by
  unfold State.logWrite
  split
  · rfl
  · exact State.frame_foldl (fun t c => t.frame_logLine c pa) _ s

theorem State.frame_keepCode (s : State) (pa : Nat) : (s.keepCode pa).frame = s.frame := by
  unfold State.keepCode
  dsimp only
  split <;> rfl

theorem State.frame_keepNamed (s : State) (lo n : Nat) : (s.keepNamed lo n).frame = s.frame := by
  refine State.frame_foldl (fun t c => ?_) _ s
  split <;> rfl

theorem Warp.wakeClock_unclocked (w : Warp) (c : Nat) : ({ w.wakeClock c with clock := 0 } : Warp) = { w with clock := 0 } := by
  unfold Warp.wakeClock
  dsimp only
  split <;> rfl

theorem State.frame_fireAt (s : State) (w : Writer) (pa : Nat) : (s.fireAt w pa).frame = s.frame := by
  unfold State.fireAt
  dsimp only
  split
  · cases w.clock with
    | none => rfl
    | some c =>
      dsimp only [State.frame]
      split
      · exact congrArg (Frame.mk · _ _) (Warp.wakeClock_unclocked ..)
      · rfl
  · rfl

theorem State.frame_homeWriteByte (s : State) (w : Writer) (pa : Nat) (b : Byte) : (s.homeWriteByte w pa b).frame = s.frame := by
  unfold State.homeWriteByte
  dsimp only
  rw [State.frame_fireAt, State.frame_putStored]
  split <;> simp only [State.frame_rekeyLine, State.frame_logWrite, State.frame_keepCode]

theorem State.frame_homeWriteBytes (bs : List Byte) (s : State) (w : Writer) (pa : Nat) :
    (s.homeWriteBytes w pa bs).frame = s.frame := by
  induction bs generalizing s pa with
  | nil => rfl
  | cons b bs ih => exact (ih ..).trans (s.frame_homeWriteByte w pa b)

@[simp] theorem State.frame_homeWrite (s : State) (w : Writer) (pa : Nat) (bs : List Byte) : (s.homeWrite w pa bs).frame = s.frame :=
  (State.frame_homeWriteBytes ..).trans (s.frame_keepNamed ..)

/-! Through the cluster caches. -/

@[simp] theorem State.frame_setCache (s : State) (cl : Nat) (c : List CacheByte) : (s.setCache cl c).frame = s.frame := rfl

theorem State.frame_writeBackByte (s : State) (cl pa : Nat) : (s.writeBackByte cl pa).frame = s.frame := by
  unfold State.writeBackByte
  split
  · split
    · exact (State.frame_homeWriteByte ..).trans (s.frame_keepNamed ..)
    · rfl
  · rfl

theorem State.frame_lsReadByte (s : State) (w : Writer) (cl : Nat) (narrow : Bool) (pa : Nat) :
    (s.lsReadByte w cl narrow pa).2.frame = s.frame := by
  unfold State.lsReadByte
  split
  · rfl
  · split
    · split <;> rfl
    · dsimp only
      split <;> exact s.frame_writeBackByte cl pa

@[simp] theorem State.frame_lsRead (n : Nat) (s : State) (w : Writer) (cl : Nat) (narrow : Bool) (pa : Nat) :
    (s.lsRead w cl narrow pa n).2.frame = s.frame := by
  induction n generalizing s pa with
  | zero => rfl
  | succ n ih => exact (ih ..).trans (s.frame_lsReadByte ..)

theorem State.frame_lsWriteByte (s : State) (w : Writer) (cl : Nat) (narrow : Bool) (pa : Nat) (b : Byte) :
    (s.lsWriteByte w cl narrow pa b).frame = s.frame := by
  unfold State.lsWriteByte
  split
  · exact s.frame_homeWriteByte w pa b
  · split
    · rfl
    · dsimp only
      split <;> exact (State.frame_homeWriteByte ..).trans (s.frame_writeBackByte cl pa)

theorem State.frame_lsWriteBytes (bs : List Byte) (s : State) (w : Writer) (cl : Nat) (narrow : Bool) (pa : Nat) :
    (s.lsWriteBytes w cl narrow pa bs).frame = s.frame := by
  induction bs generalizing s pa with
  | nil => rfl
  | cons b bs ih => exact (ih ..).trans (s.frame_lsWriteByte ..)

@[simp] theorem State.frame_lsWrite (s : State) (w : Writer) (cl : Nat) (narrow : Bool) (pa : Nat) (bs : List Byte) :
    (s.lsWrite w cl narrow pa bs).frame = s.frame := by
  rw [State.lsWrite, State.frame_lsWriteBytes]
  split
  · rfl
  · exact s.frame_keepNamed ..

theorem State.frame_writeBackWhere (s : State) (cl : Nat) (p : Nat → Bool) : (s.writeBackWhere cl p).frame = s.frame :=
  State.frame_foldl (fun t (c : CacheByte) => t.frame_writeBackByte cl c.addr) _ s

@[simp] theorem State.frame_dropWhere (s : State) (cl : Nat) (p : Nat → Bool) : (s.dropWhere cl p).frame = s.frame :=
  s.frame_writeBackWhere cl p

@[simp] theorem State.frame_writeBackAll (s : State) (p : Nat → Bool) : (s.writeBackAll p).frame = s.frame :=
  State.frame_foldl (fun t cl => t.frame_writeBackWhere cl p) _ s

/-! At a place. -/

@[simp] theorem State.frame_readSpot (s : State) (w : Writer) (cl : Nat) (narrow : Bool) (p : Spot) (n : Nat) :
    (s.readSpot w cl narrow p n).2.frame = s.frame := by
  cases p with
  | global pa key => exact State.frame_lsRead ..
  | buffer g b o => rfl

@[simp] theorem State.frame_writeSpot (s : State) (w : Writer) (cl : Nat) (narrow : Bool) (p : Spot) (bs : List Byte) :
    (s.writeSpot w cl narrow p bs).frame = s.frame := by
  cases p with
  | global pa key => exact State.frame_lsWrite ..
  | buffer g b o => rfl

@[simp] theorem State.frame_atomicAt (s : State) (w : Writer) (cl : Nat) (place : AtomicPlace) (op : AOp) (t : Ty) (h : Halves)
    (p : Spot) (v c : Nat) : (s.atomicAt w cl place op t h p v c).2.frame = s.frame := by
  cases p with
  | buffer g b o => rfl
  | global pa key =>
    have hdrops (p : Nat → Bool) (l : List Nat) : (l.foldl (fun s k => s.dropWhere k p) s).frame = s.frame :=
      State.frame_foldl (fun t k => t.frame_dropWhere k p) l s
    refine (State.frame_lsWrite ..).trans ((State.frame_lsRead ..).trans ?_)
    dsimp only
    split <;> simp [hdrops]

@[simp] theorem State.frame_applyLanes (s : State) (w : Writer) (cl : Nat) (place : AtomicPlace) (op : AOp) (t : Ty) (h : Halves)
    (l : List LateLane) : (s.applyLanes w cl place op t h l).2.frame = s.frame := by
  refine State.frame_snd_foldl (fun p _ => ?_) l _
  exact p.2.frame_atomicAt ..

@[simp] theorem State.frame_acquireAt (s : State) (sc : Scope) : (s.acquireAt sc).frame = s.frame := by
  unfold State.acquireAt
  split <;> simp

/-- The access of a long instruction. -/
@[simp] theorem State.frame_performOp (s : State) (l : LongOp) (h : Halves) : (s.performOp l h).2.frame = s.frame := by
  unfold State.performOp
  dsimp only
  split
  · rfl
  · split
    · rfl
    · split
      · rfl
      · refine State.frame_snd_foldl (fun p _ => ?_) _ ([], s)
        exact p.2.frame_readSpot ..
  · split
    · split <;> simp
    · split <;> split <;> simp

end Sys2Proof.Machine
end

section
/-! PROOFS. The window of one outstanding long instruction: its access, its results and the trap it ends with (R55 to R58). -/

namespace Sys2Proof.Machine

/-! What an access and the writing of results leave of the warp. -/

/-- `v` is `w` but for its registers, its clock, its windows and the running split's activity mask. -/
structure Warp.Alike (w v : Warp) : Prop where
  key      : v.key = w.key
  live     : v.live = w.live
  cur      : v.cur = w.cur
  allot    : v.allot = w.allot
  trapmask : v.trapmask = w.trapmask
  reds     : v.reds = w.reds
  pc       : v.sp.pc = w.sp.pc
  others   : ∀ j, j ≠ w.cur → v.splits[j] = w.splits[j]

theorem Warp.Alike.refl (w : Warp) : w.Alike w := ⟨rfl, rfl, rfl, rfl, rfl, rfl, rfl, fun _ _ => rfl⟩

theorem Warp.Alike.trans {u v w : Warp} (h : u.Alike v) (g : v.Alike w) : u.Alike w where
  key := g.key.trans h.key
  live := g.live.trans h.live
  cur := g.cur.trans h.cur
  allot := g.allot.trans h.allot
  trapmask := g.trapmask.trans h.trapmask
  reds := g.reds.trans h.reds
  pc := g.pc.trans h.pc
  others j hj := (g.others j (h.cur ▸ hj)).trans (h.others j hj)

theorem Warp.alike_setS (w : Warp) (r : Reg) (v : Word) : w.Alike (w.setS r v) where
  key := by simp
  live := by simp
  cur := by simp
  allot := by simp
  trapmask := by simp
  reds := by simp
  pc := by
    unfold Warp.setS
    split
    · rfl
    · split
      · rw [Warp.modSp_sp]; rfl
      · rfl
  others j hj := by
    unfold Warp.setS
    split
    · rfl
    · split
      · exact w.setSp_splits_ne _ j hj
      · rfl

theorem Warp.alike_setP (w : Warp) (k : PReg) (m bits : LaneMask) : w.Alike (w.setP k m bits) := by
  unfold Warp.setP
  split
  · exact .refl w
  · exact ⟨rfl, rfl, rfl, rfl, rfl, rfl, rfl, fun _ _ => rfl⟩

theorem WriteBack.apply_alike (w : Warp) (x : WriteBack) : w.Alike (x.apply w) := by
  cases x with
  | v r m vals => exact ⟨rfl, rfl, rfl, rfl, rfl, rfl, rfl, fun _ _ => rfl⟩
  | s r v => exact w.alike_setS r v
  | p r m bits => exact w.alike_setP r m bits

theorem WriteBack.apply_outstanding (w : Warp) (x : WriteBack) : (x.apply w).outstanding = w.outstanding := by
  cases x <;> simp [WriteBack.apply]

theorem writeBacks_alike (l : List WriteBack) (w : Warp) : w.Alike (l.foldl WriteBack.apply w) := by
  induction l generalizing w with
  | nil => exact .refl w
  | cons x l ih => exact (WriteBack.apply_alike w x).trans (ih _)

theorem writeBacks_outstanding (l : List WriteBack) (w : Warp) : (l.foldl WriteBack.apply w).outstanding = w.outstanding := by
  induction l generalizing w with
  | nil => rfl
  | cons x l ih => exact (ih _).trans (WriteBack.apply_outstanding w x)

/-- The running warps are alike, and the launches and what is left to be performed are the same. -/
structure State.Alike (s u : State) : Prop where
  warp     : s.warp.Alike u.warp
  launches : u.launches = s.launches
  late     : u.late = s.late

theorem State.Alike.trans {s t u : State} (h : s.Alike t) (g : t.Alike u) : s.Alike u :=
  ⟨h.warp.trans g.warp, g.launches.trans h.launches, g.late.trans h.late⟩

/-- A part of the running warp that does not look at its clock. -/
theorem State.warp_of_frame {s u : State} (h : u.frame = s.frame) {α : Type} (g : Warp → α)
    (hg : ∀ w c, g { w with clock := c } = g w) : g u.warp = g s.warp := by
  rw [← hg u.warp 0, ← hg s.warp 0]
  exact congrArg (fun f => g f.warp) h

theorem State.alike_of_frame {s u : State} (h : u.frame = s.frame) : s.Alike u where
  warp :=
    { key := State.warp_of_frame h (·.key) fun _ _ => rfl
      live := State.warp_of_frame h (·.live) fun _ _ => rfl
      cur := State.warp_of_frame h (·.cur) fun _ _ => rfl
      allot := State.warp_of_frame h (·.allot) fun _ _ => rfl
      trapmask := State.warp_of_frame h (·.trapmask) fun _ _ => rfl
      reds := State.warp_of_frame h (·.reds) fun _ _ => rfl
      pc := State.warp_of_frame h (·.sp.pc) fun _ _ => rfl
      others := fun j _ => State.warp_of_frame h (·.splits[j]) fun _ _ => rfl }
  launches := congrArg Frame.launches h
  late := congrArg Frame.late h

section
variable {s u : State} (h : s.Alike u)
include h

theorem State.Alike.hdr : u.hdr = s.hdr := by
  simp only [State.hdr, State.hdrOf, State.launch, h.launches, h.warp.key]

theorem State.Alike.trapBase : u.trapBase = s.trapBase := by
  simp only [State.trapBase, State.launch, h.launches, h.warp.key]

theorem State.Alike.accessParked : u.accessParked = s.accessParked := by
  unfold State.accessParked
  rw [h.warp.cur]
  congr 1
  funext j
  by_cases hj : j = s.warp.cur
  · simp [hj]
  · rw [h.warp.others j hj]

theorem State.Alike.mayEnter (he : s.mayEnter) : u.mayEnter := by
  unfold State.mayEnter
  rwa [h.warp.trapmask, h.warp.reds, h.accessParked, h.late, h.warp.key]

end

/-! The access of a long instruction. -/

/-- What the access leaves of it. -/
theorem State.performOp_fst (s : State) (l : LongOp) :
    ∃ wb trap, (s.performOp l .both).1 = { l with late := none, wb := wb, trap := trap } := by
  unfold State.performOp
  dsimp only
  split
  · next h => exact ⟨l.wb, l.trap, by rw [← h]⟩
  · rw [if_neg (by decide)]
    split
    · exact ⟨_, _, rfl⟩
    · exact ⟨_, _, rfl⟩
  · rw [if_neg (by decide)]
    split <;> exact ⟨_, _, rfl⟩

theorem State.performOp_none (s : State) {l : LongOp} (h : l.late = none) (hv : Halves) : s.performOp l hv = (l, s) := by
  unfold State.performOp
  rw [h]

/-- Nothing is outstanding. -/
def State.vacated (s : State) : State := s.modWarp fun w => { w with outstanding := [] }
/-- Nothing but the long instruction is outstanding. -/
def State.windowed (s : State) (l : LongOp) : State := s.modWarp fun w => { w with outstanding := [l] }
/-- The access of an outstanding long instruction performed, from a state in which it has left its window. -/
def State.performed (s : State) (l : LongOp) : LongOp × State := s.vacated.performOp l .both

theorem State.vacated_self {s : State} (h : s.warp.outstanding = []) : s.vacated = s :=
  s.modWarp_self _ (by rw [← h])

theorem State.windowed_self {s : State} {l : LongOp} (h : s.warp.outstanding = [l]) : s.windowed l = s :=
  s.modWarp_self _ (by rw [← h])

theorem State.vacated_alike (s : State) : s.Alike s.vacated := ⟨⟨rfl, rfl, rfl, rfl, rfl, rfl, rfl, fun _ _ => rfl⟩, rfl, rfl⟩

theorem State.windowed_alike (s : State) (l : LongOp) : s.Alike (s.windowed l) :=
  ⟨⟨rfl, rfl, rfl, rfl, rfl, rfl, rfl, fun _ _ => rfl⟩, rfl, rfl⟩

theorem State.performed_alike (s : State) (l : LongOp) : s.Alike (s.performed l).2 :=
  s.vacated_alike.trans (State.alike_of_frame (State.frame_performOp ..))

theorem State.performed_outstanding (s : State) (l : LongOp) : (s.performed l).2.warp.outstanding = [] :=
  State.warp_of_frame (State.frame_performOp ..) (·.outstanding) fun _ _ => rfl

theorem State.performed_windowed {u : State} {l : LongOp} (hu : u.warp.outstanding = []) (hl : l.late = none) :
    (u.windowed l).performed l = (l, u) := by
  rw [State.performed, State.performOp_none _ hl]
  exact congrArg (l, ·) (State.vacated_self hu)

theorem State.performLong_window {s : State} {l : LongOp} {p : LongOp → Bool} (h : s.warp.outstanding = [l]) (hp : p l = true) :
    s.performLong p = (s.performed l).2.windowed (s.performed l).1 := by
  unfold State.performLong
  rw [h]
  cases hl : l.late with
  | none =>
    rw [if_neg (by simp [hl]), State.performed, State.performOp_none _ hl]
    exact (State.windowed_self h).symm
  | some x =>
    rw [if_pos (by simp [hp, hl])]
    have happ : (s.performed l).2.windowed (s.performed l).1 =
        (s.performed l).2.modWarp fun w => { w with outstanding := w.outstanding ++ [(s.performed l).1] } :=
      State.modWarp_congr (by rw [s.performed_outstanding l]; rfl)
    simp only [State.performOps, hp, if_true, happ]
    rfl

theorem State.performLong_skip {s : State} {l : LongOp} {p : LongOp → Bool} (h : s.warp.outstanding = [l]) (hp : p l = false) :
    s.performLong p = s := by
  simp [State.performLong, h, hp]

end Sys2Proof.Machine
end

section
/-! PROOFS. The completion of one long instruction that is outstanding in the running split, and the closing of its window
(R55 to R58). -/

namespace Sys2Proof.Machine

/-! The completion of one long instruction. -/

theorem Warp.raiseFlags_zero (w : Warp) : w.raiseFlags 0 = w := by simp [Warp.raiseFlags]

theorem Warp.completeLong_here {w : Warp} {l : LongOp} (hs : l.split = w.cur) (hf : l.flags = 0) :
    w.completeLong l = (l.wb.foldl WriteBack.apply w, { l with wb := [] }) := by
  have hcur := (writeBacks_alike l.wb w).cur
  have hself : ({ w with cur := l.split } : Warp) = w := by rw [hs]
  have hback : ({ l.wb.foldl WriteBack.apply w with cur := w.cur } : Warp) = l.wb.foldl WriteBack.apply w := by rw [← hcur]
  unfold Warp.completeLong
  simp [hself, hf, Warp.raiseFlags_zero, hback, Warp.flagTrap]

theorem Warp.complete_window {w : Warp} {l : LongOp} {p : LongOp → Bool} (h : w.outstanding = [l]) (hp : p l = true)
    (hs : l.split = w.cur) (hf : l.flags = 0) :
    w.complete p = { l.wb.foldl WriteBack.apply { w with outstanding := [] } with outstanding := [{ l with wb := [] }] } := by
  have hout := writeBacks_outstanding l.wb { w with outstanding := [] }
  rw [Warp.complete, h, Warp.completeList, if_pos hp,
    Warp.completeLong_here (w := { w with outstanding := [] }) hs hf]
  simp only [Warp.completeList, hout, List.nil_append]

theorem Warp.complete_skip {w : Warp} {l : LongOp} {p : LongOp → Bool} (h : w.outstanding = [l]) (hp : p l = false) :
    w.complete p = w := by
  rw [Warp.complete, h, Warp.completeList, if_neg (by simp [hp])]
  simp [Warp.completeList, ← h]

/-! The window of the running split. -/

/-- The state with a long instruction's results written, once its access has been performed. -/
def written (x : LongOp × State) : State := x.2.modWarp fun w => x.1.wb.foldl WriteBack.apply w
/-- The long instruction then, in its window. -/
def completed (x : LongOp × State) : LongOp := { x.1 with wb := [] }
/-- The trap that it ends with, and its address. -/
def delivered (x : LongOp × State) : Option (Cause × DWord × Pc) := x.1.trap.map fun c => (c.1, c.2, x.1.pc)

/-- `l` alone is outstanding, in the running split, raises no flag, and its access performed gives `x`. -/
structure State.Window (s : State) (l : LongOp) (x : LongOp × State) : Prop where
  opened    : s.warp.outstanding = [l]
  here      : l.split = s.warp.cur
  flags     : l.flags = 0
  performed : s.performed l = x

section
variable {s : State} {l : LongOp} {x : LongOp × State} {p : LongOp → Bool} (h : s.Window l x)
include h

/-- The long instruction stays what it was, but for its access, its results and its trap. -/
theorem State.Window.fst_eq : ∃ wb trap, x.1 = { l with late := none, wb := wb, trap := trap } := by
  rw [← h.performed]
  exact State.performOp_fst ..

theorem State.Window.late_none : x.1.late = none := by
  obtain ⟨_, _, e⟩ := h.fst_eq
  rw [e]
theorem State.Window.split_eq : x.1.split = l.split := by
  obtain ⟨_, _, e⟩ := h.fst_eq
  rw [e]
theorem State.Window.left_eq : x.1.left = l.left := by
  obtain ⟨_, _, e⟩ := h.fst_eq
  rw [e]
theorem State.Window.pc_eq : x.1.pc = l.pc := by
  obtain ⟨_, _, e⟩ := h.fst_eq
  rw [e]

theorem State.Window.snd_outstanding : x.2.warp.outstanding = [] := h.performed ▸ s.performed_outstanding l
theorem State.Window.snd_alike : s.Alike x.2 := h.performed ▸ s.performed_alike l

theorem State.Window.written_outstanding : (written x).warp.outstanding = [] :=
  (writeBacks_outstanding ..).trans h.snd_outstanding
theorem State.Window.written_alike : s.Alike (written x) := h.snd_alike.trans ⟨writeBacks_alike .., rfl, rfl⟩

/-- With its access performed the window stays open. -/
theorem State.Window.access : (x.2.windowed x.1).Window x.1 x where
  opened := rfl
  here := h.split_eq.trans (h.here.trans h.snd_alike.warp.cur.symm)
  flags := by
    obtain ⟨_, _, e⟩ := h.fst_eq
    rw [e]
    exact h.flags
  performed := State.performed_windowed h.snd_outstanding h.late_none

/-- So it does with its results written. -/
theorem State.Window.results : ((written x).windowed (completed x)).Window (completed x) (completed x, written x) where
  opened := rfl
  here := h.split_eq.trans (h.here.trans h.written_alike.warp.cur.symm)
  flags := h.access.flags
  performed := State.performed_windowed h.written_outstanding h.late_none

theorem State.Window.performLong (hp : p l = true) : s.performLong p = x.2.windowed x.1 := by
  rw [State.performLong_window h.opened hp, h.performed]

/-- The completion of a long instruction whose access has been performed. -/
theorem State.Window.complete_access (hp : p x.1 = true) :
    ((x.2.windowed x.1).modWarp fun w => w.complete p) = (written x).windowed (completed x) := by
  have hw := Warp.complete_window (w := (x.2.windowed x.1).warp) (p := p) h.access.opened hp h.access.here h.access.flags
  have hback : ({ (x.2.windowed x.1).warp with outstanding := [] } : Warp) = x.2.warp :=
    congrArg State.warp (State.vacated_self h.snd_outstanding)
  rw [hback] at hw
  exact congrArg (fun w => ({ x.2 with warp := w } : State)) hw

theorem State.Window.complete (hp : ∀ y : LongOp, y.split = l.split → p y = true) :
    s.complete p = (written x).windowed (completed x) := by
  rw [State.complete, h.performLong (hp l rfl), h.complete_access (hp _ h.split_eq)]

theorem State.Window.complete_skip (hp : p l = false) : s.complete p = s := by
  rw [State.complete, State.performLong_skip h.opened hp]
  exact s.modWarp_self _ (Warp.complete_skip h.opened hp)

theorem State.Window.drain (hp : ∀ y : LongOp, y.split = l.split → y.left = l.left → p y = true) :
    s.drain p = (written x, delivered x) := by
  have hw := Warp.complete_window (w := (x.2.windowed x.1).warp) (p := p) h.access.opened (hp _ h.split_eq h.left_eq)
    h.access.here h.access.flags
  have hback : ({ (x.2.windowed x.1).warp with outstanding := [] } : Warp) = x.2.warp :=
    congrArg State.warp (State.vacated_self h.snd_outstanding)
  have hself : ({ (written x).warp with outstanding := [] } : Warp) = (written x).warp :=
    congrArg State.warp (State.vacated_self h.written_outstanding)
  have hclosed : closeWindows p [completed x] = (if x.1.trap.isNone then none else some (completed x), []) := by
    simp only [closeWindows, hp (completed x) h.split_eq h.left_eq, Bool.not_true, Bool.false_eq_true, if_false]
    split <;> simp_all [completed]
  rw [hback] at hw
  rw [State.drain, h.performLong (hp l rfl rfl)]
  simp only [Warp.drain, hw]
  rw [show [({ x.1 with wb := [] } : LongOp)] = [completed x] from rfl, hclosed]
  refine Prod.ext (congrArg (fun w => ({ x.2 with warp := w } : State)) hself) ?_
  cases ht : x.1.trap <;> simp [delivered, completed, ht]

theorem State.Window.drain_skip (hp : p l = false) : s.drain p = (s, none) := by
  rw [State.drain, State.performLong_skip h.opened hp, Warp.drain, Warp.complete_skip h.opened hp, h.opened]
  simp only [closeWindows, hp, Bool.not_false, if_true, Option.bind_none]
  exact Prod.ext (State.windowed_self h.opened) rfl

theorem State.Window.drainSplit : s.drainSplit = (written x, delivered x) := by
  rw [State.drainSplit, h.complete fun _ _ => rfl]
  refine h.results.drain fun y hy _ => ?_
  rw [hy]
  simpa using h.results.here

end

end Sys2Proof.Machine
end

section
/-! PROOFS. An instruction issues while one long instruction of its split is outstanding (R55 to R58, R60, R106, R247). -/

namespace Sys2Proof.Machine
variable {s : State} {i : Instr} {f : Form} {rule : State → Res}

/-! The causes that every instruction shares. -/

/-- The instruction touches a register of the long one (R58, R60). -/
def Form.touches (f : Form) (l : LongOp) : Prop :=
  (∃ r ∈ f.use.reads, r ∈ l.writes) ∨ ∃ r ∈ f.use.writes, r ∈ l.writes ∨ r ∈ l.reads

/-- The form names nothing ill-formed and nothing beyond the allotment (R48, R53, R60). -/
def State.wellFormed (s : State) (f : Form) : Prop :=
  f.undef = false ∧ f.badType = false ∧ ∀ r ∈ f.use.vr ++ f.use.vw, r < s.warp.allot

theorem State.wellFormed.of_alike {u : State} (hf : s.wellFormed f) (ha : s.Alike u) : u.wellFormed f := by
  obtain ⟨hu, hb, hr⟩ := hf
  exact ⟨hu, hb, by rwa [ha.warp.allot]⟩

/-- Up to HAZARD a well-formed instruction raises nothing (R61). -/
theorem State.firstCause_wellFormed (hf : s.wellFormed f) : s.firstCause i f =
    if s.hdr.debug = true then
      (s.warp.outstanding.find? fun l => l.split == s.warp.cur &&
        (f.use.reads.any (fun r => l.writes.contains r) ||
          f.use.writes.any (fun r => l.writes.contains r || l.reads.contains r))).map fun l => (.hazard, ofPc l.pc)
    else none := by
  obtain ⟨hu, hb, hr⟩ := hf
  have hany : (f.use.vr ++ f.use.vw).any (fun r => decide (s.warp.allot ≤ r)) = false :=
    List.any_eq_false.2 fun r hm => by simpa using hr r hm
  unfold State.firstCause
  rw [if_neg (by simp [hu]), if_neg (by simp [hany]), if_neg (by simp [hb])]
  cases s.hdr.debug <;> rfl

theorem Form.touches_iff (f : Form) (l : LongOp) : f.touches l ↔
    (f.use.reads.any (fun r => l.writes.contains r) ||
      f.use.writes.any (fun r => l.writes.contains r || l.reads.contains r)) = true := by
  simp [Form.touches]

/-! What comes before the instruction's own rule. -/

/-- Any window closes before a B-class form, and one that admits no more before any form (R55, R57). -/
def Form.closes (f : Form) (l : LongOp) : Prop := f.cls = .b ∨ l.left = 0

/-- The long instructions that complete before the form issues. -/
def State.waitsFor (s : State) (f : Form) (l : LongOp) : Bool :=
  f.cls == .l && decide (8 ≤ (s.warp.outstanding.filter fun l => !l.done).length) || f.cls == .b || f.waits || l.split != s.warp.cur

/-- What precedes the shared causes: an acquire that still waits, the long instructions that the form waits for, and the windows
that close. -/
def State.beforeIssue (s : State) (f : Form) : State × Option (Cause × DWord × Pc) :=
  let u := (s.performLong LongOp.acquires).complete (s.waitsFor f)
  u.drain (u.mustDrain f)

/-- The shared causes, then the instruction's own rule. -/
def State.issueHere (s : State) (i : Instr) (f : Form) (rule : State → Res) : State :=
  match s.firstCause i f with
  | some (c, a) => s.trapHere c a
  | none => match rule s with
    | .trap t c a => s.raise t c a
    | r => s.finish r

theorem State.issueHere_cause {c : Cause} {a : DWord}
    (hc : s.firstCause i f = some (c, a)) : s.issueHere i f rule = s.trapHere c a := by
  unfold State.issueHere
  rw [hc]

theorem State.issueHere_clear (ho : s.warp.outstanding = [])
    (hn : s.firstCause i f = none) : s.issueHere i f rule = s.finish (rule s) := by
  unfold State.issueHere
  rw [hn]
  cases hr : rule s with
  | trap t c a => exact s.raise_clear t c a ho
  | _ => rfl

/-- The trap that a window closes with enters; else the instruction itself runs. -/
def issueAfter (r : State × Option (Cause × DWord × Pc)) (i : Instr) (f : Form) (rule : State → Res) : State :=
  match r.2 with
  | some (c, a, li) => r.1.takeTrap c a r.1.warp.sp.pc li
  | none => r.1.issueHere i f rule

theorem State.issue_eq (hg : s.gated f.sync = false) :
    s.issue i f rule = issueAfter (s.beforeIssue f) i f rule := by
  unfold State.issue
  rw [if_neg (by simp [hg])]
  rfl

theorem State.issue_of_before {u : State} (hg : s.gated f.sync = false)
    (hb : s.beforeIssue f = (u, none)) : s.issue i f rule = u.issueHere i f rule := by
  rw [State.issue_eq hg, hb]
  rfl

theorem State.issue_of_before_trap {u : State} {c : Cause} {a : DWord} {li : Pc}
    (hg : s.gated f.sync = false) (hb : s.beforeIssue f = (u, some (c, a, li))) :
    s.issue i f rule = u.takeTrap c a u.warp.sp.pc li := by
  rw [State.issue_eq hg, hb]
  rfl

/-- The state in which an instruction inside the window runs. -/
def insideWindow (s : State) (f : Form) (l : LongOp) (x : LongOp × State) : State :=
  if f.waits = true then (written x).windowed (completed x) else if l.acquires = true then x.2.windowed x.1 else s

section
variable {l : LongOp} {x : LongOp × State} (h : s.Window l x)
include h

/-! The shared causes inside a window. -/

theorem State.Window.firstCause_none (hf : s.wellFormed f) (ht : s.hdr.debug = true → ¬f.touches l) :
    s.firstCause i f = none := by
  rw [State.firstCause_wellFormed hf, h.opened]
  split
  · next hd =>
    have := ht hd
    rw [f.touches_iff, Bool.not_eq_true] at this
    simp only [List.find?_cons, this, Bool.and_false, List.find?_nil, Option.map_none]
  · rfl

theorem State.Window.firstCause_hazard (hf : s.wellFormed f) (hd : s.hdr.debug = true)
    (ht : f.touches l) : s.firstCause i f = some (.hazard, ofPc l.pc) := by
  rw [f.touches_iff] at ht
  rw [State.firstCause_wellFormed hf, h.opened, if_pos hd]
  simp only [List.find?_cons, ht, h.here, BEq.rfl, Bool.and_self, Option.map_some]

/-! What comes before the instruction, by whether the window closes. -/

/-- One long instruction is fewer than eight. -/
theorem State.Window.waitsFor_eq (f : Form) {y : LongOp} (hy : y.split = l.split) :
    s.waitsFor f y = (f.cls == .b || f.waits) := by
  have hle := List.length_filter_le (fun l => !LongOp.done l) s.warp.outstanding
  have hfew : decide (8 ≤ (s.warp.outstanding.filter fun l => !l.done).length) = false := by
    rw [h.opened] at hle ⊢
    exact decide_eq_false (by simp only [List.length_singleton] at hle; omega)
  simp [State.waitsFor, hfew, hy, h.here]

/-- With an acquire performed the window is still open. -/
theorem State.Window.acquire : ∃ y, y.split = l.split ∧ y.left = l.left ∧ (s.performLong LongOp.acquires).Window y x := by
  cases ha : l.acquires with
  | true => exact ⟨x.1, h.split_eq, h.left_eq, h.performLong ha ▸ h.access⟩
  | false => exact ⟨l, rfl, rfl, (State.performLong_skip h.opened ha).symm ▸ h⟩

theorem State.Window.beforeIssue_closes (hc : f.closes l) : s.beforeIssue f = (written x, delivered x) := by
  obtain ⟨y, hsplit, hleft, hy⟩ := h.acquire
  have hcur := hy.here.symm.trans (hsplit.trans h.here)
  have hmust {u : State} (hu : u.warp.cur = s.warp.cur) (z : LongOp) (hzs : z.split = l.split) (hzl : z.left = l.left) :
      u.mustDrain f z = true := by
    obtain hc | hc := hc <;> simp [State.mustDrain, hu, hzs, hzl, h.here, hc]
  unfold State.beforeIssue
  cases hw : f.cls == .b || f.waits with
  | true =>
    rw [hy.complete fun z hz => (h.waitsFor_eq f (hz.trans hsplit)).trans hw]
    exact hy.results.drain fun z hzs hzl => hmust h.written_alike.warp.cur z (hzs.trans h.split_eq) (hzl.trans h.left_eq)
  | false =>
    rw [hy.complete_skip ((h.waitsFor_eq f hsplit).trans hw)]
    exact hy.drain fun z hzs hzl => hmust hcur z (hzs.trans hsplit) (hzl.trans hleft)

theorem State.Window.beforeIssue_inside (hc : ¬f.closes l) : s.beforeIssue f = (insideWindow s f l x, none) := by
  obtain ⟨y, hsplit, hleft, hy⟩ := h.acquire
  simp only [Form.closes, not_or] at hc
  obtain ⟨hcls, hl⟩ := hc
  have hmust (u : State) (z : LongOp) (hz : z.left = l.left) : u.mustDrain f z = false := by
    simp [State.mustDrain, hcls, hz, hl]
  unfold State.beforeIssue insideWindow
  by_cases hw : f.waits = true
  · rw [hy.complete fun z hz => (h.waitsFor_eq f (hz.trans hsplit)).trans (by simp [hw]), if_pos hw]
    exact hy.results.drain_skip (hmust _ _ h.left_eq)
  · rw [hy.complete_skip ((h.waitsFor_eq f hsplit).trans (by simp [hcls, hw])), if_neg hw]
    refine (hy.drain_skip (hmust _ _ hleft)).trans ?_
    split
    · next ha => rw [h.performLong ha]
    · next ha => rw [State.performLong_skip h.opened (by simpa using ha)]

/-! The instruction inside the window. -/

/-- The window in which it runs, with the same results and trap to come. -/
theorem State.Window.inside (f : Form) : ∃ y z, (insideWindow s f l x).Window y z ∧ written z = written x ∧
    delivered z = delivered x ∧ s.Alike (insideWindow s f l x) ∧ y.pc = l.pc ∧ (f.touches y ↔ f.touches l) := by
  obtain ⟨wb, trap, e⟩ := h.fst_eq
  have htouch : f.touches x.1 ↔ f.touches l := by rw [e]; rfl
  unfold insideWindow
  split
  · exact ⟨_, _, h.results, rfl, rfl, h.written_alike.trans (State.windowed_alike ..), h.pc_eq, htouch⟩
  · split
    · exact ⟨_, _, h.access, rfl, rfl, h.snd_alike.trans (State.windowed_alike ..), h.pc_eq, htouch⟩
    · exact ⟨_, _, h, rfl, rfl, ⟨.refl _, rfl, rfl⟩, rfl, Iff.rfl⟩

/-- Where no trap is delivered the instruction ends as its rule says. -/
theorem State.Window.issueHere_finish (hn : s.firstCause i f = none)
    (hd : delivered x = none) : s.issueHere i f rule = s.finish (rule s) := by
  unfold State.issueHere
  rw [hn]
  cases hr : rule s with
  | trap t c a =>
    simp only [State.raise, h.drainSplit, hd]
    rfl
  | _ => rfl

/-- Where one is, it enters in place of a cause that the rule ends in. -/
theorem State.Window.issueHere_trap (hn : s.firstCause i f = none) {c : Cause}
    {a : DWord} {li : Pc} (hd : delivered x = some (c, a, li)) {u : State} {c' : Cause} {a' : DWord} (hr : rule s = .trap u c' a') :
    s.issueHere i f rule = (written x).takeTrap c a (written x).warp.sp.pc li := by
  unfold State.issueHere
  rw [hn, hr]
  simp only [State.raise, h.drainSplit, hd]

/-- A trap of the long instruction enters with its results written (R58, R383). -/
theorem State.Window.takeTrap_written (he : s.mayEnter) {c : Cause} (hc : c ≠ .doublefault) (a : DWord) (li : Pc) :
    (written x).takeTrap c a (written x).warp.sp.pc li =
      (written x).modWarp fun w => w.enter s.trapBase c a s.warp.sp.pc li := by
  rw [State.takeTrap_enters _ _ _ _ _ h.written_outstanding (h.written_alike.mayEnter he) hc, h.written_alike.trapBase,
    h.written_alike.warp.pc]

end

/-- A long instruction that has results to write keeps the other splits from issuing (R57). -/
theorem Warp.splitReady_other {w : Warp} {l : LongOp} (h : w.outstanding = [l]) (hs : l.split = w.cur) (hw : l.wb ≠ []) {k : Fin 4}
    (hk : k ≠ w.cur) : w.splitReady k = false := by
  have hdone : (l.split == k || l.done) = false := by
    have hne : (l.split == k) = false := beq_false_of_ne (hs ▸ hk.symm)
    have hwb : (l.wb == []) = false := beq_false_of_ne hw
    simp [LongOp.done, hne, hwb]
  unfold Warp.splitReady
  split
  · rfl
  · simp [h, hdone]

/-- Settles O55: what closes before the instruction by `beforeIssue`, and its end by the window in which it runs. -/
theorem longInstructionWindows : Obligations.LongInstructionWindows := by
  intro s i f rule l hg ho hs hf hu hb hr closes x t keeps inside touches
  have h : s.Window l x := ⟨ho, hs, hf, rfl⟩
  have hwf : s.wellFormed f := ⟨hu, hb, hr⟩
  obtain ⟨y, z, hin, hwritten, hdeliv, halike, hpc, htouch⟩ : ∃ y z, inside.Window y z ∧ written z = written x ∧
      delivered z = delivered x ∧ s.Alike inside ∧ y.pc = l.pc ∧ (f.touches y ↔ f.touches l) := h.inside f
  have hwfin := hwf.of_alike halike
  have hnone (ht : s.hdr.debug = true → ¬touches) : inside.firstCause i f = none :=
    hin.firstCause_none hwfin fun hd => htouch.not.2 (ht (halike.hdr ▸ hd))
  have hinside (hc : ¬closes) : s.issue i f rule = inside.issueHere i f rule :=
    State.issue_of_before hg (h.beforeIssue_inside hc)
  have hends {c a} (hx : x.1.trap = some (c, a)) : delivered x = some (c, a, l.pc) := by
    rw [delivered, hx, h.pc_eq]; rfl
  refine ⟨fun hx hc => ?_, fun hx hc ht => ?_, fun hc hd ht => ?_, fun c a hx hcd he hor => ?_, ?_, fun hw k hk => ?_⟩
  · have hd : delivered x = none := by rw [delivered, hx]; rfl
    rw [State.issue_of_before hg ((h.beforeIssue_closes hc).trans (by rw [hd]))]
    exact State.issueHere_clear h.written_outstanding
      (State.firstCause_none _ _ _ h.written_outstanding hu (hwf.of_alike h.written_alike).2.2 hb)
  · have hd : delivered z = none := by rw [hdeliv, delivered, hx]; rfl
    rw [hinside hc, hin.issueHere_finish (hnone ht) hd]
  · rw [hinside hc, State.issueHere_cause (hin.firstCause_hazard hwfin (halike.hdr ▸ hd) (htouch.2 ht)), hpc]
  · by_cases hc : closes
    · rw [State.issue_of_before_trap hg ((h.beforeIssue_closes hc).trans (by rw [hends hx])), h.takeTrap_written he hcd]
      rfl
    · obtain ⟨ht, u, c', a', hrule⟩ := hor.resolve_left hc
      rw [hinside hc, hin.issueHere_trap (hnone ht) (hdeliv.trans (hends hx)) hrule, hwritten, h.takeTrap_written he hcd]
      rfl
  · simp [State.retire, State.modWarp, Warp.retired, ho, hs]
  · exact Warp.splitReady_other ho hs hw hk

end Sys2Proof.Machine
end

section
/-! PROOFS. What refutes O47. Its REDUCTION_PERFORM drops one reduction of each live warp under the key; the model drops of each
the oldest merge group (R232), which is another number where a second live warp under that key has two lanes merged. -/

namespace Sys2Proof.Machine

/-- A reduction on SB that is not yet performed. -/
def bufferedRed : Reduction := ⟨0, 0, 0, 0x6B, .i32, .group, true, 0, 0, none, 4096, [1], none, .both⟩

/-- Two live warps under one key: the running one has one reduction buffered, the other a merge group of two. -/
def sharedKey : State := { State.reset with
  warp := { State.reset.warp with live := true, reds := [bufferedRed] }
  others := [{ State.reset.warp with live := true, reds := [bufferedRed, bufferedRed] }] }

/-- How many reductions each other warp has buffered once a step has been made. -/
def otherReds : Host.Outcome State Fault Refusal → List Nat
  | .next t => t.others.map (·.reds.length)
  | _ => []

/-- The step drops the whole merge group of the other warp. -/
theorem otherReds_reductionPerform : otherReds (exec (.reductionPerform sharedKey.warp.key) sharedKey) = [0] := by decide

/-- Refutes O47: at `sharedKey` REDUCTION_PERFORM leaves the other warp under the key no reduction, not one. -/
theorem not_warpStepsOfTheDevice : ¬ Obligations.WarpStepsOfTheDevice := by
  intro h
  obtain ⟨-, -, -, hred, -⟩ := h sharedKey 0 Split.empty rfl
  have hstep := congrArg otherReds (hred bufferedRed rfl rfl)
  rw [otherReds_reductionPerform] at hstep
  exact absurd hstep (by decide)

end Sys2Proof.Machine
end

section
/-! PROOFS. The conversions CVT and FPACK, and one element of CVT by its pair of types (R94, R112, R148 to R150). -/

namespace Sys2Proof.Machine

/-! Integers of a type (R112). -/

/-- Only an element's own bits count in its Val. -/
theorem Ty.value_eq_val (t : Ty) (y : Nat) : Ty.value t y = t.val y := by
  have hs : signedOf t.elemBits y = (BitVec.ofNat t.elemBits y).toInt := by
    rw [← signedOf_toNat, BitVec.toNat_ofNat, signedOf, signedOf, Nat.mod_mod]
  rw [Ty.value, Ty.val, hs, BitVec.toNat_ofNat]

theorem Ty.not_isInt_of_isFloat {t : Ty} (h : t.isFloat = true) : t.isInt = false := by
  cases t <;> trivial

theorem tyFmt_fb_pos (t : Ty) : 1 ≤ (tyFmt t).fb := by cases t <;> decide

/-! A value rounded to an integer (R94). -/

/-- Rounded to an integer, a magnitude goes to the floor of its value or to the integer above (R90, R91, R94). -/
theorem roundInt_eq (rm : Rm) (r : Nat) (neg : Bool) (m : Nat) (e : Int) :
    let q : Rat := m * 2 ^ e
    let k : Int := ⌊q⌋
    let exact : Bool := q = k
    ((roundInt rm r neg ⟨m, e, false⟩).1 : Int) =
        (if !exact && roundsAway rm neg (k % 2 == 1) k (k + 1) q r then k + 1 else k) ∧
      (roundInt rm r neg ⟨m, e, false⟩).2 = !exact := by
  intro q k exact
  have hx : (Mag.mk m e false).Holds q := ⟨fun _ => rfl, nofun, nofun⟩
  obtain ⟨n, θ, h0, h1, hq, hin, hr⟩ := Mag.roundedAt_spec hx rm r neg 0 nofun
  rw [zpow_zero, mul_one] at hq
  have hk : k = n := by
    rw [show k = ⌊q⌋ from rfl, hq, Int.floor_eq_iff]
    push_cast
    constructor <;> linarith
  have hexact : exact = decide (θ = 0) := by
    rw [show exact = decide (q = k) from rfl, hk, hq]
    simp
  have hodd : (k % 2 == 1) = (n % 2 == 1) := by
    rw [hk, Bool.eq_iff_iff, beq_iff_eq, beq_iff_eq]
    omega
  have haway : roundsAway rm neg (k % 2 == 1) k (k + 1) q r = roundsAway rm neg (n % 2 == 1) 0 1 θ r := by
    have := roundsAway_place rm neg (n % 2 == 1) n 1 θ r one_pos
    rw [mul_one, mul_one, mul_one] at this
    rw [← this, hodd, hk, hq]
    rfl
  refine ⟨?_, hin.trans (by rw [hexact])⟩
  rw [haway, hexact, hk]
  refine (congrArg Nat.cast hr).trans ?_
  split <;> rfl

/-- A finite value goes to the nearest bound of the type beyond it, or to its integer (R94). -/
theorem toIntType_fin (u : Ty) (rm : Rm) (r : Nat) (neg : Bool) (m : Nat) (e : Int) :
    let q : Rat := m * 2 ^ e
    let k : Int := ⌊q⌋
    let exact : Bool := q = k
    let z := if !exact && roundsAway rm neg (k % 2 == 1) k (k + 1) q r then k + 1 else k
    let v := if neg then -z else z
    let lo := intMin u.elemBits u.signed
    let hi := intMax u.elemBits u.signed
    toIntType u.elemBits u.signed rm r (.fin neg m e) =
      if v < lo then (Ty.wrap u lo, flNV) else if hi < v then (Ty.wrap u hi, flNV)
      else (Ty.wrap u v, if exact then 0 else flNX) := by
  intro q k exact z v lo hi
  obtain ⟨hz, hin⟩ := roundInt_eq rm r neg m e
  have hflag : (if !exact then flNX else 0) = if exact then 0 else flNX := by cases exact <;> rfl
  simp only [toIntType, hz, hin, Ty.wrap_eq]
  rw [← hflag]

/-! One element (R149). -/

section
variable {t u : Ty} (rm : Rm) (r y : Nat)

theorem cvtElem_int_int (ht : t.isInt = true) (hu : u.isInt = true) : cvtElem t u rm r y = (u.sat (t.val y), 0) := by
  rw [cvtElem, if_pos ht, if_pos hu]

theorem cvtElem_int_float (ht : t.isInt = true) (hu : u.isFloat = true) :
    cvtElem t u rm r y = (tyFmt u).ofVal rm r (.fin (decide (t.val y < 0)) (t.val y).natAbs 0) := by
  rw [cvtElem, if_pos ht, Ty.not_isInt_of_isFloat hu]
  rfl

theorem cvtElem_float_int (ht : t.isFloat = true) (hu : u.isInt = true) :
    cvtElem t u rm r y = toIntType u.elemBits u.signed rm r ((tyFmt t).decode y) := by
  rw [cvtElem, Ty.not_isInt_of_isFloat ht, hu]
  rfl

theorem cvtElem_float_float (ht : t.isFloat = true) (hu : u.isFloat = true) :
    cvtElem t u rm r y = (tyFmt u).ofVal rm r ((tyFmt t).decode y) := by
  rw [cvtElem, Ty.not_isInt_of_isFloat ht, Ty.not_isInt_of_isFloat hu]
  rfl

end

/-! The instructions (R148, R150). -/

theorem lt_of_mem_span {r : Reg} {n x k : Nat} (h : r.val + n ≤ k) (hx : x ∈ span r n) : x < k := by
  obtain ⟨j, hj, rfl⟩ := (mem_span r n x).1 hx
  omega

/-- What CVT computes in a lane, from source type `t` to `u`. -/
def cvtLane (t u : Ty) (rm : Rm) (a : Reg) (w : Warp) : LaneOp := fun l draw =>
  (List.range t.elems).map fun e => cvtElem t u rm (draw e) (elemOf t.elemBits e (w.vNat a t.regs l))

/-- The form of a CVT whose source type is accepted. -/
def State.cvtForm (s : State) (d a : Reg) (u : Ty) : Form :=
  let t := s.warp.ty .i32
  let form := s.vform true t .s [a] [] []
  { form with
    undef := form.undef || (decide (128 < cvtBits t u) || d.val % cvtRegs t u != 0)
    use := { form.use with vw := span d (min (cvtRegs t u) 4) } }

theorem exec_cvt_of_accepted (s : State) (d a : Reg) (u : Ty) (x : Rm) :
    let t := s.warp.ty .i32
    (t.isInt || t.isFloat) = true → exec (.cvt d a u x) s =
      .next (s.floatOp (.cvt d a u x) (s.cvtForm d a u) (s.warp.rm x) (if t.isInt && u.isInt then 0 else t.elems)
        (cvtLane t u (s.warp.rm x) a) fun w r => w.writeElems d (cvtRegs t u) u.elemBits r) := by
  intro t hok
  simp only [exec_cvt, execCvt, hok, t, if_true, Bool.true_and]
  rfl

theorem State.firstCause_cvtForm {s : State} {i : Instr} {d a : Reg} {u : Ty} (ho : s.warp.outstanding = [])
    (hb : cvtBits (s.warp.ty .i32) u ≤ 128) (hf : s.fits (s.warp.ty .i32) [a]) (hm : d.val % cvtRegs (s.warp.ty .i32) u = 0)
    (hd : d.val + cvtRegs (s.warp.ty .i32) u ≤ s.warp.allot) : s.firstCause i (s.cvtForm d a u) = none := by
  obtain ⟨ham, hal⟩ := hf a (List.mem_singleton_self a)
  refine s.firstCause_none i _ ho (by simp [State.cvtForm, State.vform, ham, hb, hm]) (fun k hk => ?_) rfl
  rcases List.mem_append.1 hk with hk | hk
  · exact lt_of_mem_span hal (by simpa [State.cvtForm, State.vform] using hk)
  · exact lt_of_mem_span (by omega) hk

/-- What FPACK computes in a lane, into elements of type `t`. -/
def fpackLane (t : Ty) (rm : Rm) (a b : Reg) (w : Warp) : LaneOp := fun l draw =>
  let n := t.elems / 2
  (List.range t.elems).map fun e =>
    (tyFmt t).ofVal rm (draw e) (f32F.decode (elemOf 32 (e % n) (if e < n then w.vNat a n l else w.vNat b n l)))

/-- The form of an FPACK whose clause type is accepted, its sources of `n` registers each. -/
def State.fpackForm (s : State) (d a b : Reg) (n : Nat) : Form where
  undef := a.val % n != 0 || b.val % n != 0
  use := { vr := span a n ++ span b n, vw := [d.val], sr := maskUse, pr := s.warp.guardUse }

theorem exec_fpack_of_accepted (s : State) (d a b : Reg) (x : Rm) :
    let t := s.warp.ty .f32
    t ∈ [Ty.f16x2, .bf16x2, .e4m3x4, .e5m2x4] → exec (.fpack d a b x) s =
      .next (s.floatOp (.fpack d a b x) (s.fpackForm d a b (t.elems / 2)) (s.warp.rm x) t.elems
        (fpackLane t (s.warp.rm x) a b) fun w r => w.writeElems d 1 (tyFmt t).bits r) := by
  intro t ht
  have hok : (t == .f16x2 || t == .bf16x2 || t == .e4m3x4 || t == .e5m2x4) = true := by simpa [or_assoc] using ht
  simp only [exec_fpack, execFpack, show s.warp.ty .f32 = t from rfl, hok, if_true, Bool.true_and]
  rfl

theorem State.firstCause_fpackForm {s : State} {i : Instr} {d a b : Reg} {n : Nat} (ho : s.warp.outstanding = [])
    (hab : ∀ r ∈ [a, b], r.val % n = 0 ∧ r.val + n ≤ s.warp.allot) (hd : s.within [d]) :
    s.firstCause i (s.fpackForm d a b n) = none := by
  obtain ⟨ha, hal⟩ := hab a (by simp)
  obtain ⟨hb, hbl⟩ := hab b (by simp)
  refine s.firstCause_none i _ ho (by simp [State.fpackForm, ha, hb]) (fun k hk => ?_) rfl
  simp only [State.fpackForm, List.mem_append, List.mem_singleton] at hk
  obtain (hk | hk) | rfl := hk
  · exact lt_of_mem_span hal hk
  · exact lt_of_mem_span hbl hk
  · exact hd d (List.mem_singleton_self d)

/-- FPACK takes the elements of a, then those of b (R150). -/
theorem fpackLane_eq (t : Ty) (rm : Rm) (a b : Reg) (w : Warp) (l : Lane) (draw : Nat → Nat)
    (ht : t ∈ [Ty.f16x2, .bf16x2, .e4m3x4, .e5m2x4]) :
    let n := t.elems / 2
    fpackLane t rm a b w l draw = (List.range t.elems).map fun e => (tyFmt t).ofVal rm (draw e)
      (f32F.decode (if e < n then elemOf 32 e (w.vNat a n l) else elemOf 32 (e - n) (w.vNat b n l))) := by
  intro n
  have helems : t.elems = 2 * n := by
    simp only [List.mem_cons, List.not_mem_nil, or_false] at ht
    obtain h | h | h | h := ht <;> simp only [n, h] <;> rfl
  refine List.map_congr_left fun e he => ?_
  have hlt := List.mem_range.1 he
  change (tyFmt t).ofVal rm (draw e) (f32F.decode (elemOf 32 (e % n) (if e < n then w.vNat a n l else w.vNat b n l))) = _
  by_cases h : e < n
  · rw [if_pos h, if_pos h, Nat.mod_eq_of_lt h]
  · rw [if_neg h, if_neg h, Nat.mod_eq_sub_mod (by omega), Nat.mod_eq_of_lt (by omega)]

/-- Settles O21: each instruction by its form, and one element by the category of its two types. -/
theorem floatConversionResults : Obligations.FloatConversionResults := by
  intro s d a b u x h rm
  refine ⟨?_, ?_, ?_⟩
  · intro t bits n hok hb hf hm hd
    exact s.floatOp_floatsTo _ _ _ _ (cvtLane t u rm a) d _ _ h rfl (State.firstCause_cvtForm h.2 hb hf hm hd)
      (exec_cvt_of_accepted s d a u x hok)
  · intro t F n src ht hab hd
    have hp := s.floatOp_floatsTo _ _ _ _ (fpackLane t rm a b) d _ _ h rfl (State.firstCause_fpackForm h.2 hab hd)
      (exec_fpack_of_accepted s d a b x ht)
    simpa only [fpackLane_eq t rm a b s.warp _ _ ht] using hp
  · intro t u rm r y W lo hi v sat
    refine ⟨fun ht hu => ?_, fun ht hu => ?_, fun ht hu => ?_, cvtElem_float_float rm r y⟩
    · rw [cvtElem_int_int rm r y ht hu, Ty.wrap_eq, ← Ty.value_eq_val]
      rfl
    · have hround := (tyFmt u).ofVal_fin_roundsTo (tyFmt_fb_pos u) rm r (decide (v < 0)) v.natAbs 0
      rw [zpow_zero, mul_one] at hround
      rwa [cvtElem_int_float rm r y ht hu, ← Ty.value_eq_val]
    · rw [cvtElem_float_int rm r y ht hu]
      cases (tyFmt t).decode y with
      | nan sig => rfl
      | inf n => exact congrArg (·, flNV) (Ty.wrap_eq u _).symm
      | fin n m e => exact toIntType_fin u rm r n m e

end Sys2Proof.Machine
end

section
/-! PROOFS. The scalar integer instructions (R114 to R118). -/

namespace Sys2Proof.Machine
variable {s : State} {i : Instr} {d a b : Reg}

theorem State.salu_writesS {f : Word → Word → Word} {v : Word} (h : s.clearFor false)
    (he : exec i s = .next (s.salu i d a b f)) (hv : f (s.warp.s a) (s.warp.s b) = v) : s.writesS i d v := by
  rw [State.writesS, he, s.salu_clear i d a b f h, hv]

theorem State.sun_writesS {f : Word → Word} {v : Word} (h : s.clearFor false)
    (he : exec i s = .next (s.sun i d a f)) (hv : f (s.warp.s a) = v) : s.writesS i d v := by
  rw [State.writesS, he, s.sun_clear i d a f h, hv]

/-- A scalar result of any scalars, which the instruction names in its form. -/
theorem State.compute_writesS {f : Form} {g : Warp → Word} (h : s.clearFor f.sync) (hu : f.undef = false)
    (hr : f.use.vr = []) (hw : f.use.vw = []) (ht : f.badType = false)
    (he : exec i s = .next (s.compute i f fun w => w.setS d (g w))) : s.writesS i d (g s.warp) := by
  rw [State.writesS, he, s.compute_scalar i f _ h hu hr hw ht]
  exact congrArg _ (State.after_congr rfl)

/-- Settles O1: every row is an SALU result; the shifts, products and comparisons by their words. -/
theorem scalarArithmeticResults : Obligations.ScalarArithmeticResults := by
  intro s d a b h x y
  exact ⟨State.salu_writesS h rfl rfl, State.salu_writesS h rfl rfl, State.salu_writesS h rfl rfl,
    State.salu_writesS h rfl (smulhi_word x y), State.salu_writesS h rfl (smulhin_word x y),
    State.salu_writesS h rfl rfl, State.salu_writesS h rfl rfl, State.salu_writesS h rfl rfl,
    State.salu_writesS h rfl rfl, State.salu_writesS h rfl rfl, State.salu_writesS h rfl (sar32_word x y),
    State.salu_writesS h rfl (smin_word x y x y id), State.salu_writesS h rfl (smin_word x y y x Eq.symm),
    State.salu_writesS h rfl (sminn_word x y x y id), State.salu_writesS h rfl (sminn_word x y y x Eq.symm),
    State.salu_writesS h rfl rfl⟩

/-! The immediate shifts (R115). -/

theorem sImm_toNat {imm : BitVec 11} (h : imm.toNat ≤ 31) : (sImm imm).toNat = imm.toNat := by
  have hmsb : imm.msb = false := by rw [BitVec.msb_eq_decide, decide_eq_false_iff_not]; omega
  rw [sImm, BitVec.signExtend_eq_setWidth_of_msb_false hmsb, BitVec.toNat_setWidth, Nat.mod_eq_of_lt (by omega)]

theorem shl32_of_lt {x y : Word} (h : y.toNat < 32) : shl32 x y = x <<< y.toNat := if_neg (by omega)
theorem shr32_of_lt {x y : Word} (h : y.toNat < 32) : shr32 x y = x >>> y.toNat := if_neg (by omega)
theorem sar32_of_lt {x y : Word} (h : y.toNat < 32) : sar32 x y = x.sshiftRight y.toNat := by
  rw [sar32_word, if_neg (by omega)]

/-! The bit forms (R118). -/

theorem popc_word (x : Word) : popc 32 x.toNat = ((List.range 32).filter fun i => x.getLsbD i).length := popc_eq 32 x.toNat

theorem clz_word (x : Word) :
    if x = 0 then clz 32 x.toNat = 32 else clz 32 x.toNat < 32 ∧ x.getLsbD (31 - clz 32 x.toNat) = true ∧
      ∀ i < 32, 31 - clz 32 x.toNat < i → x.getLsbD i = false := by
  split
  · next h => rw [h]; exact clz_zero 32
  · next h => exact clz_spec 32 x.toNat (fun e => h (BitVec.eq_of_toNat_eq e)) x.isLt

theorem ctz_word (x : Word) :
    if x = 0 then ctz 32 x.toNat = 32 else ctz 32 x.toNat < 32 ∧ x.getLsbD (ctz 32 x.toNat) = true ∧
      ∀ i < ctz 32 x.toNat, x.getLsbD i = false := by
  split
  · next h => rw [h]; exact ctz_zero 32
  · next h => exact ctz_spec 32 x.toNat (fun e => h (BitVec.eq_of_toNat_eq e)) x.isLt

theorem brev_word (x : Word) (i : Nat) (h : i < 32) : (BitVec.ofNat 32 (brev 32 x.toNat)).getLsbD i = x.getLsbD (31 - i) := by
  rw [BitVec.getLsbD_ofNat, decide_eq_true h, Bool.true_and, testBit_brev 32 _ i h]
  rfl

/-- The control word of the bit-field forms: the offset in bits 5 to 0, the width in bits 14 to 8 (R118). -/
theorem bitsOf_offset (c : Nat) : bitsOf c 0 6 = c % 64 := by simp [bitsOf]
theorem bitsOf_width (c : Nat) : bitsOf c 8 7 = c / 256 % 128 := rfl

theorem bfi_word (z x y : Word) (i : Nat) (h : i < 32) :
    (BitVec.ofNat 32 (bfi 32 z.toNat x.toNat y.toNat)).getLsbD i =
      if y.toNat % 64 ≤ i ∧ i < y.toNat % 64 + min (y.toNat / 256 % 128) 32 then x.getLsbD (i - y.toNat % 64)
      else z.getLsbD i := by
  rw [BitVec.getLsbD_ofNat, decide_eq_true h, Bool.true_and, bfi_testBit 32 _ _ _ i z.isLt, bitsOf_offset, bitsOf_width]
  simp only [h, and_true]
  rfl

/-- Settles O2: every row is a scalar result; the shifts by counts below 32, the bit forms bit by bit. -/
theorem scalarImmediateMoveSelectAndBitResults : Obligations.ScalarImmediateMoveSelectAndBitResults := by
  intro s d a b imm n h x y k bit
  refine ⟨State.sun_writesS h rfl rfl, State.sun_writesS h rfl rfl, State.sun_writesS h rfl rfl, State.sun_writesS h rfl rfl,
    fun hc => ?_, State.compute_writesS (f := { use := { sw := [d.val] } }) (g := fun _ => n.signExtend 32) h rfl rfl rfl rfl rfl,
    State.compute_writesS (f := { use := { sr := [d.val], sw := [d.val] } })
      (g := fun w => n.setWidth 32 <<< 14 ||| (w.s d &&& 0x3FFF#32)) h rfl rfl rfl rfl rfl,
    State.sun_writesS h rfl rfl, State.salu_writesS h rfl rfl, State.salu_writesS h rfl rfl,
    State.salu_writesS h rfl rfl, State.salu_writesS h rfl rfl, State.salu_writesS h rfl rfl,
    State.salu_writesS h rfl rfl, State.compute_writesS (f := { use := { sr := [d.val, a.val, b.val], sw := [d.val] } })
      (g := fun w => if w.s d ≠ 0 then w.s a else w.s b) h rfl rfl rfl rfl rfl,
    State.sun_writesS h rfl (congrArg _ (popc_word x)), ⟨_, State.sun_writesS h rfl rfl, clz_word x⟩,
    ⟨_, State.sun_writesS h rfl rfl, ctz_word x⟩, ⟨_, State.sun_writesS h rfl rfl, brev_word x⟩,
    State.salu_writesS h rfl ?_, ⟨_, State.compute_writesS (f := { use := { sr := [d.val, a.val, b.val], sw := [d.val] } })
      (g := fun w => BitVec.ofNat 32 (bfi 32 (w.s d).toNat (w.s a).toNat (w.s b).toNat)) h rfl rfl rfl rfl rfl, bfi_word _ x y⟩,
    congrArg _ (s.salu64_clear _ d a b _ h), congrArg _ (s.salu64_clear _ d a b _ h)⟩
  · have hk : (sImm imm).toNat = imm.toNat := sImm_toNat hc
    have hlt : (sImm imm).toNat < 32 := by omega
    rw [← hk]
    exact ⟨State.sun_writesS h rfl (shl32_of_lt hlt), State.sun_writesS h rfl (shr32_of_lt hlt),
      State.sun_writesS h rfl (sar32_of_lt hlt)⟩
  · exact (bfe_bits _ x y.toNat).trans (by rw [bitsOf_offset, bitsOf_width])

end Sys2Proof.Machine
end

section
/-! PROOFS. The element operations of VALU, its immediate forms, and the multiply-adds (R112, R119 to R122). -/

namespace Sys2Proof.Machine
variable {s : State} {i j : Instr} {d a b : Reg}

/-- An operand computed element by element is known by its elements' low bits (R81, R112). -/
theorem State.mapElems_writesElems {t : Ty} {F f : Lane → Nat → Nat}
    (he : exec i s = .next (s.after fun w => w.setVNat d t.regs s.warp.guarded fun l => mapElems t.elemBits t.elems (F l)))
    (hf : ∀ l, ∀ e < t.elems, F l e % 2 ^ t.elemBits = f l e) : s.writesElems i d t f :=
  ⟨_, he, fun l e h => by rw [elemOf_mapElems _ _ _ _ h, hf l e h]⟩

theorem State.valu_writesElems {f : ElemOp} {g : Nat → Nat → Nat} (h : s.clearFor false)
    (ht : (s.warp.ty .i32).isInt = true) (hf : s.fits (s.warp.ty .i32) [a, b, d])
    (he : exec i s = .next (s.valu i d a b f))
    (hg : ∀ x y, x < 2 ^ (s.warp.ty .i32).elemBits → y < 2 ^ (s.warp.ty .i32).elemBits →
      f (s.warp.ty .i32) x y % 2 ^ (s.warp.ty .i32).elemBits = g x y) :
    let t := s.warp.ty .i32
    s.writesElems i d t fun l e =>
      g (elemOf t.elemBits e (s.warp.vNat a t.regs l)) (elemOf t.elemBits e (s.warp.vNat b t.regs l)) :=
  State.mapElems_writesElems (he.trans (congrArg _ (s.valu_clear i d a b f h ht hf)))
    fun _ _ _ => hg _ _ (elemOf_lt ..) (elemOf_lt ..)

theorem State.valuScalar_writesElems {f : ElemOp} {g : Nat → Nat → Nat} (h : s.clearFor false)
    (ht : (s.warp.ty .i32).isInt = true) (hf : s.fits (s.warp.ty .i32) [a, d])
    (hb : b.val % (s.warp.ty .i32).regs = 0) (he : exec i s = .next (s.valuScalar i d a b f))
    (hg : ∀ x y, x < 2 ^ (s.warp.ty .i32).elemBits → y < 2 ^ (s.warp.ty .i32).elemBits →
      f (s.warp.ty .i32) x y % 2 ^ (s.warp.ty .i32).elemBits = g x y) :
    let t := s.warp.ty .i32
    s.writesElems i d t fun l e =>
      g (elemOf t.elemBits e (s.warp.vNat a t.regs l)) (elemOf t.elemBits e (s.warp.sNat b t.regs)) :=
  State.mapElems_writesElems (he.trans (congrArg _ (s.valuScalar_clear i d a b f h ht hf hb)))
    fun _ _ _ => hg _ _ (elemOf_lt ..) (elemOf_lt ..)

/-- Settles O3: each row is one element operation, for a vector and for a scalar b. -/
theorem vectorArithmeticResults : Obligations.VectorArithmeticResults := by
  intro s d a b h ht t W lo hi sat both
  have row {i j : Instr} (f : ElemOp) {g : Nat → Nat → Nat}
      (hi : exec i s = .next (s.valu i d a b f)) (hj : exec j s = .next (s.valuScalar j d a b f))
      (hg : ∀ x y, x < 2 ^ W → y < 2 ^ W → f t x y % 2 ^ W = g x y) : both i j g :=
    ⟨fun hf => State.valu_writesElems h ht hf hi hg, fun hf hb => State.valuScalar_writesElems h ht hf hb hj hg⟩
  clear_value both
  simp only [Ty.value_eq_val]
  exact ⟨row eAdd rfl rfl (eAdd_elem t), row eSub rfl rfl (eSub_elem t), row eMul rfl rfl (eMul_elem t),
    row eMulhi rfl rfl fun x y _ _ => eMulhi_elem t x y, row eAnd rfl rfl fun x y _ => eAnd_elem t x y,
    row eOr rfl rfl (eOr_elem t), row eXor rfl rfl (eXor_elem t), row eAndn rfl rfl (eAndn_elem t),
    row eShl rfl rfl fun x y hx _ => eShl_elem t x y hx, row eShr rfl rfl fun x y hx _ => eShr_elem t x y hx,
    row eSar rfl rfl fun x y hx _ => eSar_elem t x y hx, row eMin rfl rfl (eMin_elem t), row eMax rfl rfl (eMax_elem t),
    row eAddsat rfl rfl fun x y _ _ => Ty.sat_eq t (t.val x + t.val y),
    row eSubsat rfl rfl fun x y _ _ => Ty.sat_eq t (t.val x - t.val y), row eAbsd rfl rfl (eAbsd_elem t)⟩

theorem State.valuImm_writesElems {imm : BitVec 11} {f : ElemOp} {g : Nat → Nat} (h : s.clearFor false)
    (ht : (s.warp.ty .i32).isInt = true) (hf : s.fits (s.warp.ty .i32) [a, d])
    (he : exec i s = .next (s.valuImm i d a imm f))
    (hg : ∀ x < 2 ^ (s.warp.ty .i32).elemBits,
      f (s.warp.ty .i32) x (Ty.wrap (s.warp.ty .i32) imm.toInt) % 2 ^ (s.warp.ty .i32).elemBits = g x) :
    let t := s.warp.ty .i32
    s.writesElems i d t fun l e => g (elemOf t.elemBits e (s.warp.vNat a t.regs l)) := by
  simp only [Ty.wrap_eq] at hg
  exact State.mapElems_writesElems (he.trans (congrArg _ (s.valuImm_clear i d a imm f h ht hf)))
    fun _ _ _ => hg _ (elemOf_lt ..)

/-- A multiply-add takes bits of each element's exact Val(a) × Val(b) + Val(d) (R121). -/
theorem State.vmadBy_writesElems (part : Ty → Int → Int) (h : s.clearFor false)
    (ht : (s.warp.ty .i32).isInt = true) (hf : s.fits (s.warp.ty .i32) [a, b, d])
    (he : exec i s = .next (s.vmadBy i d a b fun t z x y => wrapTo t.elemBits (part t (t.val x * t.val y + t.val z)))) :
    let t := s.warp.ty .i32
    let value (r : Reg) (l : Lane) (e : Nat) : Int := Ty.value t (elemOf t.elemBits e (s.warp.vNat r t.regs l))
    s.writesElems i d t fun l e => Ty.wrap t (part t (value a l e * value b l e + value d l e)) := by
  simp only [Ty.value_eq_val, Ty.wrap_eq]
  exact State.mapElems_writesElems (he.trans (congrArg _ (s.vmadBy_clear i d a b _ h ht hf))) fun _ _ _ => wrapTo_mod ..

theorem Ty.wrap_lt (t : Ty) (v : Int) : Ty.wrap t v < 2 ^ t.elemBits := BitVec.isLt _

/-- The packed integer types: more than one element in one register. -/
theorem Ty.packed_of_mem {t : Ty} (h : t ∈ [Ty.i8x4, .n8x4, .i16x2, .n16x2]) : Ty.packed t = true ∧ t.regs = 1 := by
  cases t <;> simp_all [Ty.packed, Ty.isInt, Ty.elems, Ty.regs]

/-- VDOT4 adds the exact sum of the elements' products (R122). -/
theorem State.vdot4_writesV (h : s.clearFor false) (ht : Ty.packed (s.warp.ty .i32) = true)
    (hr : (s.warp.ty .i32).regs = 1) (hw : s.within [a, b, d]) :
    let t := s.warp.ty .i32
    s.writesV (.vdot4 d a b) d fun l => s.warp.v d l + BitVec.ofInt 32 (∑ e ∈ Finset.range t.elems,
      Ty.value t (elemOf t.elemBits e (s.warp.vNat a t.regs l)) * Ty.value t (elemOf t.elemBits e (s.warp.vNat b t.regs l))) := by
  have hf : s.fits (s.warp.ty .i32) ([a, b, d] ++ [d]) :=
    s.fits_of_within _ _ hr fun r hm => hw r (by simp at hm ⊢; tauto)
  simp only [State.writesV, Ty.value_eq_val, ← sum_range_list, hr]
  rw [exec_vdot4, execVdot4, s.compute_vform _ _ _ _ _ _ _ h ht hf]
  exact congrArg _ (State.after_congr rfl)

/-- Settles O4: each element by its operation, VDOT4 by the sum over the elements. -/
theorem vectorImmediateAndMultiplyAddResults : Obligations.VectorImmediateAndMultiplyAddResults := by
  intro s d a b imm n h t W x y z c k
  refine ⟨fun ht hf => ⟨?_, ?_, ?_, fun _ => ⟨?_, ?_, ?_⟩⟩, fun hw => ?_, fun ht hf => ⟨?_, ?_⟩, fun ht hw => ?_⟩
  · exact State.valuImm_writesElems h ht hf rfl fun x hx => eAdd_elem t x k hx (Ty.wrap_lt t _)
  · exact State.valuImm_writesElems h ht hf rfl fun x _ => eAnd_elem t x k (Ty.wrap_lt t _)
  · exact State.valuImm_writesElems h ht hf rfl fun x hx => eOr_elem t x k hx (Ty.wrap_lt t _)
  · exact State.valuImm_writesElems (f := fun t x _ => eShl t x imm.toNat) h ht hf rfl fun x hx => eShl_elem t x c hx
  · exact State.valuImm_writesElems (f := fun t x _ => eShr t x imm.toNat) h ht hf rfl fun x hx => eShr_elem t x c hx
  · exact State.valuImm_writesElems (f := fun t x _ => eSar t x imm.toNat) h ht hf rfl fun x hx => eSar_elem t x c hx
  · rw [State.writesV, exec_vmovi, execVmovi, s.compute_b32 _ [] [d] [] _ h hw]
    exact congrArg _ (State.after_congr rfl)
  · exact State.vmadBy_writesElems (fun _ p => p) h ht hf rfl
  · exact State.vmadBy_writesElems (fun t p => p / 2 ^ t.elemBits) h ht hf rfl
  · obtain ⟨hp, hr⟩ := Ty.packed_of_mem ht
    exact State.vdot4_writesV h hp hr hw

end Sys2Proof.Machine
end

section
/-! PROOFS. The bit forms, on every integer type and on the unpacked ones (R118, R124). -/

namespace Sys2Proof.Machine
variable {s : State} {i : Instr} {d a b : Reg}

theorem elemOf_zero (w v : Nat) : elemOf w 0 v = v % 2 ^ w := by simp [elemOf, bitsOf]

/-- The unpacked integer types: one element, which fills its registers. -/
theorem Ty.wide_of_mem {t : Ty} (h : t ∈ [Ty.i32, .n32, .i64, .n64]) :
    t.isInt = true ∧ Ty.wide t = true ∧ t.elems = 1 := by
  cases t <;> simp_all [Ty.wide, Ty.isInt, Ty.elems]

/-- The 32-bit integer types: one element in one register. -/
theorem Ty.word_of_mem {t : Ty} (h : t ∈ [Ty.i32, .n32]) :
    (t == .i32 || t == .n32) = true ∧ t.regs = 1 ∧ t.elemBits = 32 ∧ t.elems = 1 := by
  cases t <;> simp_all [Ty.regs, Ty.elemBits, Ty.elems]

theorem Warp.vNat_lt (w : Warp) (r : Reg) (t : Ty) (ht : t.regs = 1 ∨ t.regs = 2) (l : Lane) :
    w.vNat r t.regs l < 2 ^ (32 * t.regs) := by
  obtain h | h := ht <;> rw [h]
  · exact (w.v r l).isLt
  · exact (w.v64 r l).isLt

/-- An operand of an unpacked type has its element's width. -/
theorem Warp.vNat_lt_elemBits (w : Warp) (r : Reg) {t : Ty} (h : t.isInt = true) (he : t.elems = 1) (l : Lane) :
    w.vNat r t.regs l < 2 ^ t.elemBits := by
  have hbits := Ty.bits_elems t h
  rw [he, mul_one] at hbits
  rw [hbits]
  exact w.vNat_lt r t (Ty.int_regs t h) l

/-- A result of one element is known by its low bits. -/
theorem State.setVNat_writesElems {t : Ty} {g : Lane → Nat} {f : Lane → Nat → Nat} (ht : t.elems = 1)
    (he : exec i s = .next (s.after fun w => w.setVNat d t.regs s.warp.guarded g))
    (hf : ∀ l, g l % 2 ^ t.elemBits = f l 0) : s.writesElems i d t f := by
  refine ⟨g, he, fun l e h => ?_⟩
  obtain rfl : e = 0 := by omega
  rw [elemOf_zero, hf l]

/-- A unary element operation whose results have the element's width (R124). -/
theorem State.vbit1_writesElems (f : Ty → Nat → Nat) (h : s.clearFor false)
    (ht : (s.warp.ty .i32).isInt = true) (hf : s.fits (s.warp.ty .i32) [a, d])
    (he : exec i s = .next (s.vbit1 i d a f))
    (hg : ∀ x < 2 ^ (s.warp.ty .i32).elemBits, f (s.warp.ty .i32) x < 2 ^ (s.warp.ty .i32).elemBits) :
    let t := s.warp.ty .i32
    s.writesElems i d t fun l e => f t (elemOf t.elemBits e (s.warp.vNat a t.regs l)) :=
  State.mapElems_writesElems (he.trans (congrArg _ (s.vbit1_clear i d a f h ht hf)))
    fun _ _ _ => Nat.mod_eq_of_lt (hg _ (elemOf_lt ..))

/-! The unary operations keep the element's width. -/

theorem lt_two_pow_of_le_width {w n : Nat} (h : n ≤ w) : n < 2 ^ w := Nat.lt_of_le_of_lt h Nat.lt_two_pow_self

theorem complement_toNat {w x : Nat} (h : x < 2 ^ w) : 2 ^ w - 1 - x = (~~~(BitVec.ofNat w x)).toNat := by
  rw [BitVec.toNat_not, BitVec.toNat_ofNat, Nat.mod_eq_of_lt h]

theorem Ty.natAbs_val_lt (t : Ty) {x : Nat} (h : x < 2 ^ t.elemBits) : (t.val x).natAbs < 2 ^ t.elemBits := by
  obtain ⟨hlo, hhi, -, -⟩ := Ty.val_range t x h
  have hpos : (0 : Int) < 2 ^ t.elemBits := by positivity
  have habs : ((t.val x).natAbs : Int) < ((2 ^ t.elemBits : Nat) : Int) := by push_cast; rw [abs_lt]; omega
  exact_mod_cast habs

theorem clz_elem (w : Nat) {x : Nat} (h : x < 2 ^ w) :
    if x = 0 then clz w x = w else clz w x < w ∧ x.testBit (w - 1 - clz w x) = true ∧
      ∀ i < w, w - 1 - clz w x < i → x.testBit i = false := by
  split
  · next hx => rw [hx, clz_zero]
  · next hx => exact clz_spec w x hx h

theorem ctz_elem (w : Nat) {x : Nat} (h : x < 2 ^ w) :
    if x = 0 then ctz w x = w else ctz w x < w ∧ x.testBit (ctz w x) = true ∧
      ∀ i < ctz w x, x.testBit i = false := by
  split
  · next hx => rw [hx, ctz_zero]
  · next hx => exact ctz_spec w x hx h

/-! The bit fields of an unpacked element. -/

/-- VBFE extracts the field that the lane's control word names (R118, R124). -/
theorem State.vbfe_writesElems (h : s.clearFor false) (ht : (s.warp.ty .i32) ∈ [Ty.i32, .n32, .i64, .n64])
    (hf : s.fits (s.warp.ty .i32) [a, b, d]) :
    let t := s.warp.ty .i32
    s.writesElems (.vbfe d a b) d t fun l _ =>
      let c := (s.warp.v b l).toNat
      let x := BitVec.ofNat t.elemBits (elemOf t.elemBits 0 (s.warp.vNat a t.regs l))
      (if t.signed then ((x.sshiftRight (c % 64)).setWidth (min (c / 256 % 128) t.elemBits)).signExtend t.elemBits
        else ((x >>> (c % 64)).setWidth (min (c / 256 % 128) t.elemBits)).setWidth t.elemBits).toNat := by
  intro t
  obtain ⟨hint, hwide, helems⟩ := Ty.wide_of_mem ht
  refine State.setVNat_writesElems (g := fun l => bfe t.elemBits t.signed (s.warp.vNat a t.regs l) (s.warp.v b l).toNat)
    helems ?_ fun l => ?_
  · rw [exec_vbfe, execVbfe, s.compute_vform _ _ _ _ _ _ _ h hwide hf]
    exact congrArg _ (State.after_congr rfl)
  · have hx : s.warp.vNat a t.regs l < 2 ^ t.elemBits := s.warp.vNat_lt_elemBits a hint helems l
    have hbits := bfe_bits t.signed (BitVec.ofNat t.elemBits (s.warp.vNat a t.regs l)) (s.warp.v b l).toNat
    rw [bitsOf_offset, bitsOf_width, BitVec.toNat_ofNat, Nat.mod_eq_of_lt hx] at hbits
    rw [elemOf_zero, Nat.mod_eq_of_lt hx]
    exact congrArg BitVec.toNat hbits

/-- VBFI replaces the field that the lane's control word names (R118, R124). -/
theorem State.vbfi_writesElems (h : s.clearFor false) (ht : (s.warp.ty .i32) ∈ [Ty.i32, .n32, .i64, .n64])
    (hf : s.fits (s.warp.ty .i32) [a, b, d]) :
    let t := s.warp.ty .i32
    s.writesElems (.vbfi d a b) d t fun l _ =>
      bfi t.elemBits (s.warp.vNat d t.regs l) (s.warp.vNat a t.regs l) (s.warp.v b l).toNat := by
  intro t
  obtain ⟨hint, hwide, helems⟩ := Ty.wide_of_mem ht
  refine State.setVNat_writesElems
    (g := fun l => bfi t.elemBits (s.warp.vNat d t.regs l) (s.warp.vNat a t.regs l) (s.warp.v b l).toNat)
    helems ?_ fun l => Nat.mod_eq_of_lt (bfi_lt _ _ _ _ (s.warp.vNat_lt_elemBits d hint helems l))
  have hfit : s.fits (s.warp.ty .i32) ([a, b, d] ++ [d]) := fun r hr => hf r (by simp at hr ⊢; tauto)
  rw [exec_vbfi, execVbfi, s.compute_vform _ _ _ _ _ _ _ h hwide hfit]
  exact congrArg _ (State.after_congr rfl)

/-! The bytes of VPERMB. -/

/-- Byte `j` of the pool that `x` and `y` make: those of `x`, then those of `y` (R124). -/
theorem elemOf_pool (x y : Word) (j : Nat) (h : j < 8) :
    elemOf 8 j (x.toNat + y.toNat * 2 ^ 32) = if j < 4 then elemOf 8 j x.toNat else elemOf 8 (j - 4) y.toNat := by
  have hx := x.isLt
  simp only [elemOf, bitsOf]
  split
  · interval_cases j <;> omega
  · interval_cases j <;> omega

/-- A selector's byte: 0 with its bit 3 set, else the byte of the pool that it names (R124). -/
theorem permByte_pool (x y : Word) (sel : Nat) :
    permByte (x.toNat + y.toNat * 2 ^ 32) sel = if sel.testBit 3 then 0
      else if sel % 8 < 4 then elemOf 8 (sel % 8) x.toNat else elemOf 8 (sel % 8 - 4) y.toNat := by
  rw [permByte, elemOf_pool _ _ _ (Nat.mod_lt _ (by decide)), ← bitsOf_one]
  simp only [beq_iff_eq]

theorem permByte_lt (pool sel : Nat) : permByte pool sel < 2 ^ 8 := by
  unfold permByte
  split
  · decide
  · exact elemOf_lt ..

/-- VPERMB picks each byte of its result from the pool of a and d (R124). -/
theorem State.vpermb_writesV (h : s.clearFor false) (ht : (s.warp.ty .i32) ∈ [Ty.i32, .n32]) (hw : s.within [a, b, d]) :
    s.writesV (.vpermb d a b) d fun l => BitVec.ofNat 32 (mapElems 8 4 fun k =>
      permByte ((s.warp.v a l).toNat + (s.warp.v d l).toNat * 2 ^ 32) (elemOf 8 k (s.warp.v b l).toNat)) := by
  obtain ⟨hok, hregs, -⟩ := Ty.word_of_mem ht
  have hf : s.fits (s.warp.ty .i32) ([a, b, d] ++ [d]) :=
    s.fits_of_within _ _ hregs fun r hr => hw r (by simp at hr ⊢; tauto)
  rw [State.writesV, exec_vpermb, execVpermb, s.compute_vform _ _ _ _ _ _ _ h hok hf]
  exact congrArg _ (State.after_congr rfl)

/-- Settles O5: the unary forms element by element, the fields and VPERMB bit by bit and byte by byte. -/
theorem vectorBitResults : Obligations.VectorBitResults := by
  intro s d a b h t W x o w field
  refine ⟨fun ht hf => ?_,
    fun ht hf => ⟨State.vbfe_writesElems h ht hf, _, State.vbfi_writesElems h ht hf, fun l i hi => ?_⟩,
    fun ht hw => ⟨_, State.vpermb_writesV h ht hw, fun l k hk => ?_⟩⟩
  · have hx (l : Lane) (e : Nat) : x l e < 2 ^ W := elemOf_lt ..
    have unary {i : Instr} (f : Ty → Nat → Nat) (he : exec i s = .next (s.vbit1 i d a f))
        (hg : ∀ y < 2 ^ W, f t y < 2 ^ W) : s.writesElems i d t fun l e => f t (x l e) :=
      State.vbit1_writesElems f h ht hf he hg
    refine ⟨?_, ⟨_, unary (fun t y => clz t.elemBits y) rfl fun y _ => lt_two_pow_of_le_width (clz_le W y),
        fun l e _ => clz_elem W (hx l e)⟩,
      ⟨_, unary (fun t y => ctz t.elemBits y) rfl fun y hy => lt_two_pow_of_le_width (ctz_le W y hy),
        fun l e _ => ctz_elem W (hx l e)⟩,
      ⟨_, unary (fun t y => brev t.elemBits y) rfl fun y _ => brev_lt W y, fun l e _ i hi => testBit_brev W _ i hi⟩,
      ?_, ?_, ?_⟩
    · simp only [← popc_eq]
      exact unary (fun t y => popc t.elemBits y) rfl fun y _ => lt_two_pow_of_le_width (popc_le W y)
    · simp only [← complement_toNat (hx _ _)]
      exact unary (fun t y => 2 ^ t.elemBits - 1 - y) rfl fun y hy => by
        have hpos : 0 < 2 ^ t.elemBits := by positivity
        change _ < 2 ^ t.elemBits
        omega
    · simp only [Ty.value_eq_val, Ty.wrap_eq]
      exact unary (fun t y => wrapTo t.elemBits (-t.val y)) rfl fun y _ => wrapTo_lt ..
    · have habs := unary (i := .vabs d a) (fun t y => (t.val y).natAbs % 2 ^ t.elemBits) rfl
        fun y _ => Nat.mod_lt _ (by positivity)
      simpa only [Ty.value_eq_val, Nat.mod_eq_of_lt (Ty.natAbs_val_lt t (hx _ _))] using habs
  · obtain ⟨hint, -, helems⟩ := Ty.wide_of_mem ht
    have ha : x l 0 = s.warp.vNat a t.regs l := by
      simp only [x, elemOf_zero]
      exact Nat.mod_eq_of_lt (s.warp.vNat_lt_elemBits a hint helems l)
    rw [ha, bfi_testBit _ _ _ _ _ (s.warp.vNat_lt_elemBits d hint helems l), bitsOf_offset, bitsOf_width]
    simp only [show i < t.elemBits from hi, and_true]
    rfl
  · have hlt := mapElems_lt 8 4 fun k =>
      permByte ((s.warp.v a l).toNat + (s.warp.v d l).toNat * 2 ^ 32) (elemOf 8 k (s.warp.v b l).toNat)
    simp only [BitVec.toNat_ofNat]
    rw [Nat.mod_eq_of_lt hlt, elemOf_mapElems _ _ _ _ hk, Nat.mod_eq_of_lt (permByte_lt ..), permByte_pool]

end Sys2Proof.Machine
end

section
/-! PROOFS. The carry forms, VLEA and the widenings (R102, R112, R124). -/

namespace Sys2Proof.Machine
variable {s : State} {i : Instr} {d a b : Reg}

/-- A form of one operand type that names predicates of its own beside its operands. -/
theorem State.compute_vformPreds {ok : Bool} {t : Ty} {reads writes : List Reg} {sr pr pw : List Nat} {g : Warp → Warp}
    (h : s.clearFor false) (hok : ok = true) (hf : s.fits t (reads ++ writes)) :
    s.compute i { s.vform ok t .s reads writes sr with
      use := { (s.vform ok t .s reads writes sr).use with pr := pr, pw := pw } } g = s.after g := by
  subst hok
  exact s.compute_clear i _ g h (s.vform_none i t .s reads writes sr _ h.2 hf rfl rfl rfl rfl)

/-- A carry form writes each active lane's word, and its carry to p6, from the lane's operands and p6 (R124). -/
theorem State.vcarry_exec {f : Nat → Nat → Nat → Nat × Bool} (v : Word → Word → Nat → Word) (h : s.clearFor false)
    (ht : (s.warp.ty .i32) ∈ [Ty.i32, .n32]) (hw : s.within [a, b, d]) (he : exec i s = .next (s.vcarry i d a b f))
    (hv : ∀ x y : Word, ∀ c ≤ 1, BitVec.ofNat 32 (f x.toNat y.toNat c).1 = v x y c) :
    let cin (l : Lane) : Nat := if (s.warp.p 6).getLsbD l.val then 1 else 0
    ∃ m : LaneMask, exec i s = .next (s.after fun w =>
        (w.setV d s.warp.guarded fun l => v (s.warp.v a l) (s.warp.v b l) (cin l)).setP 6 s.warp.guarded m) ∧
      ∀ l : Lane, m.getLsbD l.val = (f (s.warp.v a l).toNat (s.warp.v b l).toNat (cin l)).2 := by
  intro cin
  obtain ⟨hok, hregs, -⟩ := Ty.word_of_mem ht
  have hcin (l : Lane) : cin l ≤ 1 := by simp only [cin]; split <;> decide
  have hclear : s.vcarry i d a b f = s.after fun w => (w.setV d s.warp.guarded fun l => BitVec.ofNat 32
      (f (s.warp.v a l).toNat (s.warp.v b l).toNat (cin l)).1).setP 6 s.warp.guarded
        (LaneMask.ofFn fun l => (f (s.warp.v a l).toNat (s.warp.v b l).toNat (cin l)).2) := by
    have hf : s.fits (s.warp.ty .i32) ([a, b] ++ [d]) := s.fits_of_within _ _ hregs hw
    exact (State.compute_vformPreds h hok hf).trans (State.after_congr rfl)
  refine ⟨_, ?_, fun l => LaneMask.getLsbD_ofFn _ l⟩
  simp only [he, hclear, hv _ _ _ (hcin _)]

theorem add_carry_word (x y : Word) (c : Nat) : BitVec.ofNat 32 (x.toNat + y.toNat + c) = x + y + BitVec.ofNat 32 c := by
  simp [BitVec.ofNat_add]

theorem sub_borrow_word (x y : Word) (c : Nat) (hc : c ≤ 1) :
    BitVec.ofNat 32 (x.toNat + 2 ^ 33 - y.toNat - c) = x - y - BitVec.ofNat 32 c := by
  have hx := x.isLt
  have hy := y.isLt
  apply BitVec.eq_of_toNat_eq
  simp only [BitVec.toNat_sub, BitVec.toNat_ofNat]
  omega

/-- VLEA names two pairs and a single register (R124). -/
theorem State.vlea_clear (h : s.clearFor false) (ht : (s.warp.ty .i32).isInt = true) (hf : s.fits .b64 [a, d])
    (hb : s.within [b]) : let t := s.warp.ty .i32
    exec (.vlea d a b) s = .next (s.after fun w => w.setV64 d s.warp.guarded fun l =>
      s.warp.v64 a l + (if t.signed then (s.warp.v b l).signExtend 64 else (s.warp.v b l).setWidth 64) *
        BitVec.ofNat 64 (t.elemBits / 8)) := by
  rw [exec_vlea, execVlea, s.compute_clear _ _ _ h]
  · exact congrArg _ (State.after_congr rfl)
  · refine s.firstCause_none _ _ h.2 rfl (fun k hk => ?_) (by simp [ht])
    simp only [List.mem_append, List.mem_singleton] at hk
    obtain (hk | rfl) | hk := hk
    · exact lt_of_mem_span (hf a (by simp)).2 hk
    · exact hb b (by simp)
    · exact lt_of_mem_span (hf d (by simp)).2 hk

/-- A widening writes one register, or a pair from 32 bits (R124). -/
theorem State.vwiden_clear {k : Fin 4} {signed : Bool} (n : Nat) (h : s.clearFor false)
    (ht : (s.warp.ty .i32).isInt = true ∧ (s.warp.ty .i32).is64 = false)
    (hn : (if (s.warp.ty .i32).elemBits = 32 then 2 else 1) = n) (ha : s.within [a])
    (hd : d.val % n = 0 ∧ d.val + n ≤ s.warp.allot) :
    let t := s.warp.ty .i32
    s.vwiden i d a k signed = s.after fun w => w.setVNat d n s.warp.guarded fun l =>
      let e := elemOf t.elemBits (k.val % t.elems) (s.warp.v a l).toNat
      if signed then wrapTo (32 * n) (signedOf t.elemBits e) else e := by
  obtain ⟨hint, h64⟩ := ht
  obtain ⟨hmod, hlt⟩ := hd
  unfold State.vwiden
  simp only [hn]
  rw [s.compute_clear i _ _ h]
  · exact State.after_congr rfl
  · refine s.firstCause_none _ _ h.2 (by simp [hmod]) (fun r hr => ?_) (by simp [hint, h64])
    simp only [hint, h64, Bool.not_false, Bool.and_self, if_true, List.mem_append, List.mem_singleton] at hr
    obtain rfl | hr := hr
    · exact ha a (by simp)
    · exact lt_of_mem_span hlt hr

/-- An element read as two's complement and kept in `n` bits is its sign extension (R112). -/
theorem ofNat_wrapTo_signedOf {W e : Nat} (n : Nat) (h : e < 2 ^ W) :
    BitVec.ofNat n (wrapTo n (signedOf W e)) = (BitVec.ofNat W e).signExtend n := by
  rw [wrapTo_eq_ofInt, BitVec.ofNat_toNat, BitVec.setWidth_eq, ← ofNat_toInt_lt h]
  rfl

theorem ofNat_eq_setWidth {W e : Nat} (n : Nat) (h : e < 2 ^ W) : BitVec.ofNat n e = (BitVec.ofNat W e).setWidth n := by
  apply BitVec.eq_of_toNat_eq
  rw [BitVec.toNat_setWidth, BitVec.toNat_ofNat, BitVec.toNat_ofNat, Nat.mod_eq_of_lt h]

/-- A widening to one register (R124). -/
theorem State.vwiden_writesV {k : Fin 4} {signed : Bool} (h : s.clearFor false)
    (ht : (s.warp.ty .i32) ∈ [Ty.i8x4, .n8x4, .i16x2, .n16x2]) (hw : s.within [a, d])
    (he : exec i s = .next (s.vwiden i d a k signed)) :
    let t := s.warp.ty .i32
    s.writesV i d fun l =>
      let x := BitVec.ofNat t.elemBits (elemOf t.elemBits (k.val % t.elems) (s.warp.v a l).toNat)
      if signed then x.signExtend 32 else x.setWidth 32 := by
  have hpacked (t : Ty) (ht : t ∈ [Ty.i8x4, .n8x4, .i16x2, .n16x2]) :
      (t.isInt = true ∧ t.is64 = false) ∧ (if t.elemBits = 32 then 2 else 1) = 1 := by
    cases t <;> simp_all [Ty.isInt, Ty.is64, Ty.regs, Ty.elemBits]
  obtain ⟨hint, hn⟩ := hpacked _ ht
  have hclear := State.vwiden_clear (i := i) (d := d) (a := a) (k := k) (signed := signed) 1 h hint hn
    (fun r hr => hw r (by simp at hr ⊢; tauto)) ⟨Nat.mod_one d.val, hw d (by simp)⟩
  simp only [State.writesV, ← ofNat_wrapTo_signedOf 32 (elemOf_lt ..), ← ofNat_eq_setWidth 32 (elemOf_lt ..)]
  rw [he, hclear]
  cases signed <;> rfl

/-- A widening to a pair (R124). -/
theorem State.vwiden_exec_pair {k : Fin 4} {signed : Bool} (h : s.clearFor false)
    (ht : (s.warp.ty .i32) ∈ [Ty.i32, .n32]) (ha : s.within [a]) (hf : s.fits .b64 [d])
    (he : exec i s = .next (s.vwiden i d a k signed)) :
    exec i s = .next (s.after fun w => w.setV64 d s.warp.guarded fun l =>
      if signed then (s.warp.v a l).signExtend 64 else (s.warp.v a l).setWidth 64) := by
  obtain ⟨-, hregs, hbits, helems⟩ := Ty.word_of_mem ht
  have hint : (s.warp.ty .i32).isInt = true ∧ (s.warp.ty .i32).is64 = false :=
    ⟨(Ty.wide_of_mem (by simp at ht ⊢; tauto)).1, by rw [Ty.is64, hregs]; rfl⟩
  have hclear := State.vwiden_clear (i := i) (d := d) (a := a) (k := k) (signed := signed) 2 h hint (if_pos hbits) ha
    (hf d (by simp))
  have helem (l : Lane) : elemOf 32 (k.val % 1) (s.warp.v a l).toNat = (s.warp.v a l).toNat := by
    rw [Nat.mod_one, elemOf_zero, Nat.mod_eq_of_lt (s.warp.v a l).isLt]
  simp only [hbits, helems, helem] at hclear
  have hword (x : Word) : BitVec.ofNat 64 (if signed then wrapTo 64 (signedOf 32 x.toNat) else x.toNat) =
      if signed then x.signExtend 64 else x.setWidth 64 := by
    cases signed
    · exact BitVec.ofNat_toNat 64 x
    · exact (ofNat_wrapTo_signedOf 64 x.isLt).trans (by rw [BitVec.ofNat_toNat, BitVec.setWidth_eq, if_pos rfl])
  simp only [he, hclear, ← hword]
  rfl

/-- Settles O6: the carries by the lane's sum, the widenings by the element's extension. -/
theorem vectorCarryAddressAndWidenResults : Obligations.VectorCarryAddressAndWidenResults := by
  intro s d a b k h t W cin
  refine ⟨fun ht hw => ⟨?_, ?_⟩, fun ht hf hb => State.vlea_clear h ht hf hb,
    fun ht hw => ?_, fun ht ha hf => ⟨?_, ?_⟩⟩
  · exact State.vcarry_exec (f := fun x y c => (x + y + c, decide (2 ^ 32 ≤ x + y + c)))
      (fun x y c => x + y + BitVec.ofNat 32 c) h ht hw rfl fun x y c _ => add_carry_word x y c
  · exact State.vcarry_exec (f := fun x y c => (x + 2 ^ 33 - y - c, decide (x < y + c)))
      (fun x y c => x - y - BitVec.ofNat 32 c) h ht hw rfl sub_borrow_word
  · exact ⟨State.vwiden_writesV (signed := true) h ht hw rfl, State.vwiden_writesV (signed := false) h ht hw rfl⟩
  · exact State.vwiden_exec_pair (signed := true) h ht ha hf rfl
  · exact State.vwiden_exec_pair (signed := false) h ht ha hf rfl

end Sys2Proof.Machine
end

section
/-! PROOFS. VCMP and VSEL (R123). -/

namespace Sys2Proof.Machine
variable {s : State} {p : PReg} {d a b : Reg}

/-- VCMP writes its condition's outcome in each active lane (R123). -/
theorem State.vcmp_writesP (c : VCond) (h : s.clearFor false) (ht : (s.warp.ty .i32) ∈ [Ty.i32, .n32, .i64, .n64])
    (hf : s.fits (s.warp.ty .i32) [a, b]) :
    let t := s.warp.ty .i32
    ∃ m : LaneMask, s.writesP (.vcmp p a b c) p m ∧ ∀ l : Lane,
      m.getLsbD l.val = VCond.holds c (Ty.value t (s.warp.vNat a t.regs l)) (Ty.value t (s.warp.vNat b t.regs l)) := by
  obtain ⟨-, hwide, -⟩ := Ty.wide_of_mem ht
  simp only [Ty.value_eq_val]
  refine ⟨_, ?_, fun l => LaneMask.getLsbD_ofFn _ l⟩
  rw [State.writesP, exec_vcmp, execVcmp]
  dsimp only
  rw [State.compute_vformPreds h hwide (show s.fits (s.warp.ty .i32) ([a, b] ++ []) from hf)]
  exact congrArg _ (State.after_congr rfl)

/-- VSEL takes v[a] where the predicate, negated when asked, holds (R123). -/
theorem State.vsel_exec {neg : Bool} (h : s.clearFor false) (ht : (s.warp.ty .b32).isBits = true)
    (hf : s.fits (s.warp.ty .b32) [a, b, d]) :
    let t := s.warp.ty .b32
    exec (.vsel d a b neg p) s = .next (s.after fun w => w.setVNat d t.regs s.warp.guarded fun l =>
      if (s.warp.p p).getLsbD l.val = !neg then s.warp.vNat a t.regs l else s.warp.vNat b t.regs l) := by
  have htest (x : Bool) (u v : Nat) : (if x = !neg then u else v) = if x != neg then u else v := by
    cases x <;> cases neg <;> rfl
  simp only [htest, exec_vsel, execVsel]
  rw [State.compute_vformPreds h ht (show s.fits (s.warp.ty .b32) ([a, b] ++ [d]) from hf)]
  exact congrArg _ (State.after_congr rfl)

/-- Settles O7: each condition of VCMP on Val of its operands, VSEL lane by lane. -/
theorem vectorCompareAndSelectResults : Obligations.VectorCompareAndSelectResults := by
  intro s p d a b neg h
  refine ⟨?_, fun ht hf => State.vsel_exec h ht hf⟩
  intro t x y tests ht hf
  have vcmp (c : VCond) (f : Lane → Bool) (hc : ∀ l, VCond.holds c (x l) (y l) = f l) : tests c f := by
    obtain ⟨m, hm, hbit⟩ := State.vcmp_writesP (p := p) c h ht hf
    exact ⟨m, hm, fun l => (hbit l).trans (hc l)⟩
  exact ⟨vcmp .eq _ fun _ => rfl, vcmp .ne _ fun _ => (decide_not ..).symm, vcmp .lt _ fun _ => rfl, vcmp .le _ fun _ => rfl,
    vcmp .gt _ fun _ => rfl, vcmp .ge _ fun _ => rfl⟩

end Sys2Proof.Machine
end

section
/-! PROOFS. VDIV and VREM (R55, R112, R125). -/

namespace Sys2Proof.Machine
variable {s : State} {i : Instr} {d a b : Reg}

/-- Of a signed type's elements only that of the sign bit alone has the least Val, and it is its own negation (R112). -/
theorem Ty.wrap_neg_least (t : Ty) {x : Nat} (h : x < 2 ^ t.elemBits) (hx : t.val x = -(2 ^ (t.elemBits - 1))) :
    wrapTo t.elemBits (-t.val x) = x := by
  have hpow : (2 : Int) ^ t.elemBits = 2 ^ (t.elemBits - 1) * 2 := by
    rw [← pow_succ, Nat.sub_add_cancel (Ty.elemBits_pos t)]
  have hneg : -t.val x = t.val x + 2 ^ t.elemBits := by rw [hx, hpow]; ring
  have hmod : (-t.val x) % (2 ^ t.elemBits : Int) = (x : Int) % 2 ^ t.elemBits := by
    rw [hneg, Int.add_emod_right, Ty.val_emod t x h]
  rw [wrapTo_of_emod hmod, Nat.mod_eq_of_lt h]

/-- The quotient of an element: all ones for a zero divisor, truncated toward zero otherwise (R125). -/
theorem divRem_quotient (t : Ty) {x y : Nat} (h : x < 2 ^ t.elemBits) :
    (divRem t x y).1 % 2 ^ t.elemBits = if t.val y = 0 then 2 ^ t.elemBits - 1
      else if t.signed ∧ t.val x = -(2 ^ (t.elemBits - 1)) ∧ t.val y = -1 then x
      else Ty.wrap t ((t.val x).tdiv (t.val y)) := by
  have hpos : 0 < 2 ^ t.elemBits := by positivity
  simp only [divRem]
  split
  · exact Nat.mod_eq_of_lt (by omega)
  · rw [wrapTo_mod]
    split
    · next hov =>
      obtain ⟨-, hx, hy⟩ := hov
      rw [hy, Int.tdiv_neg, Int.tdiv_one, Ty.wrap_neg_least t h hx]
    · rw [Ty.wrap_eq]

/-- The remainder of an element: the dividend for a zero divisor, else with the dividend's sign (R125). -/
theorem divRem_remainder (t : Ty) {x y : Nat} (h : x < 2 ^ t.elemBits) :
    (divRem t x y).2 % 2 ^ t.elemBits = if t.val y = 0 then x
      else if t.signed ∧ t.val x = -(2 ^ (t.elemBits - 1)) ∧ t.val y = -1 then 0
      else Ty.wrap t ((t.val x).tmod (t.val y)) := by
  simp only [divRem]
  split
  · exact Nat.mod_eq_of_lt h
  · rw [wrapTo_mod, mul_comm, ← Int.tmod_def]
    split
    · next hov =>
      obtain ⟨-, -, hy⟩ := hov
      rw [hy, Int.tmod_neg, Int.tmod_one]
      simp [wrapTo]
    · rw [Ty.wrap_eq]

theorem mem_span_iff (r : Reg) (n k : Nat) : k ∈ span r n ↔ r.val ≤ k ∧ k < r.val + n := by
  rw [mem_span]
  exact ⟨by rintro ⟨j, hj, rfl⟩; omega, fun ⟨h1, h2⟩ => ⟨k - r.val, by omega, by omega⟩⟩

/-- A long division holds its results in its window, which writes the destination's registers alone (R55, R125). -/
theorem State.vdivBy_exec {la : Fin 16} {f : Ty → Nat → Nat → Nat} (h : s.clearFor false)
    (ht : (s.warp.ty .i32) ∈ [Ty.i32, .n32, .i64, .n64]) (hf : s.fits (s.warp.ty .i32) [a, b, d])
    (he : exec i s = .next (s.vdivBy i d a b la f)) :
    let t := s.warp.ty .i32
    ∃ u : Use, exec i s = .next (s.after fun w => w.pushLong la.val u (wbNat d t.regs s.warp.guarded fun l =>
        f t (s.warp.vNat a t.regs l) (s.warp.vNat b t.regs l)) 0 none) ∧
      ∀ r, RegName.v r ∈ u.writes ↔ d.val ≤ r ∧ r < d.val + t.regs := by
  intro t
  obtain ⟨-, hwide, -⟩ := Ty.wide_of_mem ht
  refine ⟨(s.vform (Ty.wide t) t .l [a, b] [d] []).use, ?_, fun r => ?_⟩
  · have hnone : s.firstCause i (s.vform (Ty.wide t) t .l [a, b] [d] []) = none := by
      rw [show Ty.wide t = true from hwide]
      exact s.vform_none i t .l [a, b] [d] [] _ h.2 hf rfl rfl rfl rfl
    rw [he, State.vdivBy, s.compute_clear i _ _ h hnone]
    exact congrArg _ (State.after_congr rfl)
  · simpa [Use.writes, State.vform, show Ty.wide t = true from hwide] using mem_span_iff d t.regs r

/-- Settles O8: the window by the division's rule, its elements by the quotient and the remainder. -/
theorem vectorDivisionResults : Obligations.VectorDivisionResults := by
  intro s d a b la h t W x X Y pends ht hf
  obtain ⟨hint, -, helems⟩ := Ty.wide_of_mem ht
  have hx (l : Lane) : x l < 2 ^ W := s.warp.vNat_lt_elemBits a hint helems l
  have long {i : Instr} (f : Ty → Nat → Nat → Nat) {g : Lane → Nat} (he : exec i s = .next (s.vdivBy i d a b la f))
      (hg : ∀ l, f t (x l) (s.warp.vNat b t.regs l) % 2 ^ W = g l) : pends i g := by
    obtain ⟨u, hu, hw⟩ := State.vdivBy_exec h ht hf he
    exact ⟨u, _, hu, hw, hg⟩
  simp only [X, Y, Ty.value_eq_val]
  exact ⟨long (fun t a b => (divRem t a b).1) rfl fun l => divRem_quotient t (hx l),
    long (fun t a b => (divRem t a b).2) rfl fun l => divRem_remainder t (hx l)⟩

end Sys2Proof.Machine
end

section
/-! PROOFS. The moves, the predicate logic, and the moves between predicates and scalars (R126 to R128). -/

namespace Sys2Proof.Machine
variable {s : State} {i : Instr} {d a b : Reg} {p : PReg}

theorem State.compute_writesV {reads writes : List Reg} {sr : List Nat} {g : Warp → Lane → Word} (h : s.clearFor false)
    (hw : s.within (reads ++ writes))
    (he : exec i s = .next (s.compute i (s.vform true .b32 .s reads writes sr) fun w => w.setV d w.guarded (g w))) :
    s.writesV i d (g s.warp) := by
  rw [State.writesV, he, s.compute_b32 i reads writes sr _ h hw]
  exact congrArg _ (State.after_congr rfl)

theorem State.palu_writesP {reads : List PReg} {f : Warp → LaneMask} {m : LaneMask} (h : s.clearFor false)
    (he : exec i s = .next (s.palu i p reads f)) (hm : f s.warp = m) : s.writesP i p m := by
  rw [State.writesP, he, s.palu_clear i p reads f h, hm]

theorem laneOf_of_lt {v : Word} (h : v.toNat < 96) : laneOf v = some ⟨v.toNat, h⟩ := dif_pos h
theorem laneOf_of_not_lt {v : Word} (h : ¬v.toNat < 96) : laneOf v = none := dif_neg h

/-- VRDL reads the lane that s[b] names, 0 from 96 up (R126). -/
theorem State.vrdl_writesS (h : s.clearFor false) (hw : s.within [a]) :
    s.writesS (.vrdl d a b) d (if hn : (s.warp.s b).toNat < 96 then s.warp.v a ⟨(s.warp.s b).toNat, hn⟩ else 0) := by
  rw [State.writesS, exec_vrdl, execVrdl, s.compute_clear _ _ _ h (s.firstCause_none _ _ h.2 rfl ?_ rfl)]
  · refine congrArg _ (State.after_congr (congrArg (s.warp.setS d) ?_))
    by_cases hn : (s.warp.s b).toNat < 96
    · rw [laneOf_of_lt hn, dif_pos hn]
    · rw [laneOf_of_not_lt hn, dif_neg hn]
  · simpa [State.within] using hw

/-- VWRL writes the lane that s[b] names, in the activity mask (R126). -/
theorem State.vwrl_exec (h : s.clearFor false) (hw : s.within [d]) :
    let n := (s.warp.s b).toNat
    exec (.vwrl d a b) s = .next (s.after fun w =>
      if n < 96 then w.setV d (s.warp.sp.active &&& (1#96 <<< n)) fun _ => s.warp.s a else w) := by
  rw [exec_vwrl, execVwrl, s.compute_clear _ _ _ h (s.firstCause_none _ _ h.2 rfl ?_ rfl)]
  · refine congrArg _ (State.after_congr ?_)
    by_cases hn : (s.warp.s b).toNat < 96
    · rw [laneOf_of_lt hn, if_pos hn]
    · rw [laneOf_of_not_lt hn, if_neg hn]
  · simpa [State.within] using hw

/-- Settles O9: the moves by their forms, the predicate logic by PALU's rule. -/
theorem moveAndPredicateResults : Obligations.MoveAndPredicateResults := by
  intro s d a b p q r h n
  refine ⟨fun hw => State.compute_writesV (g := fun w l => w.v a l) h hw rfl,
    fun hw => State.compute_writesV (reads := []) (g := fun w _ => w.s a) h hw rfl,
    State.vrdl_writesS h, State.vwrl_exec h, State.palu_writesP h rfl rfl, State.palu_writesP h rfl rfl, State.palu_writesP h rfl rfl,
    State.palu_writesP h rfl rfl, State.palu_writesP h rfl rfl, State.palu_writesP h rfl rfl, ?_, ?_⟩
  · rw [exec_pmovs, execPmovs, s.compute_scalar _ _ _ h rfl rfl rfl rfl]
    exact congrArg _ (State.after_congr rfl)
  · rw [exec_smovp, execSmovp, s.compute_scalar _ _ _ h rfl rfl rfl rfl]
    exact congrArg _ (State.after_congr rfl)

end Sys2Proof.Machine
end

section
/-! PROOFS. Reads of special registers (R109 to R111). -/

namespace Sys2Proof.Machine
variable {s : State} {i j : Instr} {d : Reg}

theorem lowWord_eq_setWidth (v : DWord) : lowWord v = v.setWidth 32 := by
  apply BitVec.eq_of_toNat_eq
  simp [lowWord]

/-- A read of a special register writes it, latches what its number latches, and retires (R110, R111). -/
theorem State.specialRead_clear {n : SpecReg} (h : s.clearFor false) (hd : SpecReg.perLane n = true → s.within [d]) :
    s.specialRead i d n = s.after fun w => s.latch n
      (if SpecReg.perLane n then w.setV d w.sp.active (s.laneSpecial n) else w.setS d (s.warpSpecial n)) := by
  unfold State.specialRead
  cases hl : SpecReg.perLane n
  · exact s.issue_rule _ _ _ h (s.firstCause_scalar _ _ h.2 rfl rfl rfl rfl)
  · exact s.issue_rule _ _ _ h (s.firstCause_none _ _ h.2 rfl (by simpa [State.within] using hd hl) rfl)

/-- A per-lane special register, read in the lanes of the activity mask (R110). -/
theorem State.srd_lane (n : SpecReg) {f : Lane → Word} (h : s.clearFor false) (hf : ∀ l, s.laneSpecial n l = f l)
    (hl : SpecReg.perLane n = true := by rfl) (hn : ∀ w, s.latch n w = w := by exact fun _ => rfl) :
    s.within [d] → exec (.srd d n) s = .next (s.after fun w => w.setV d s.warp.sp.active f) := by
  intro hd
  rw [exec_srd, execSrd, State.specialRead_clear h fun _ => hd, ← funext hf]
  refine congrArg _ (State.after_congr ?_)
  rw [hn, if_pos hl]

/-- A warp-uniform special register that latches nothing, read by SRD or by the step of its name (R110, R111). -/
theorem State.special_writesS (n : SpecReg) {v : Word} (h : s.clearFor false)
    (he : exec i s = .next (s.specialRead j d n)) (hv : s.warpSpecial n = v)
    (hl : SpecReg.perLane n = false := by rfl) (hn : ∀ w, s.latch n w = w := by exact fun _ => rfl) :
    s.writesS i d v := by
  rw [State.writesS, he, State.specialRead_clear h (by simp [hl]), ← hv]
  refine congrArg _ (State.after_congr ?_)
  rw [hn, hl]
  rfl

/-- A read of a warp-uniform register latches beside what it writes (R111). -/
theorem State.srd_latching (n : SpecReg) (h : s.clearFor false) (hl : SpecReg.perLane n = false) :
    exec (.srd d n) s = .next (s.after fun w => s.latch n (w.setS d (s.warpSpecial n))) := by
  rw [exec_srd, execSrd, State.specialRead_clear h (by simp [hl]), hl]
  rfl

theorem SpecReg.perLane_field (k : Fin 6) : SpecReg.perLane (.field k) = true :=
  decide_eq_true (show 2 + k.val < 64 by omega)

/-- Settles O15: every register by its row of `laneSpecial` or `warpSpecial`, low words as the 32 low bits of their pairs. -/
theorem specialRegisterReads : Obligations.SpecialRegisterReads := by
  intro s d k h w hdr lo hi cyc tidx lane one
  have low (v : DWord) : lowWord v = lo v := lowWord_eq_setWidth v
  have uniform (n : SpecReg) {v : Word} (hv : s.warpSpecial n = v) (hl : SpecReg.perLane n = false := by rfl)
      (hn : ∀ w, s.latch n w = w := by exact fun _ => rfl) : one n v := State.special_writesS n h rfl hv hl hn
  refine ⟨State.srd_lane .lane h fun _ => rfl, State.srd_lane .tidx h fun _ => rfl,
    State.srd_lane (.field k) h (fun _ => rfl) (SpecReg.perLane_field k), State.srd_lane .wid h fun _ => low _,
    State.srd_lane .widhi h fun _ => rfl, State.srd_lane .rctr h fun _ => rfl, State.srd_lane .rctrhi h fun _ => rfl,
    uniform .warpidx rfl, uniform .nwarps rfl, uniform .wglin rfl, uniform .wglinhi rfl, uniform .clrank rfl,
    uniform .clsize rfl, uniform .allot rfl, uniform .fflags rfl, uniform .clausest rfl, uniform .rngseed (low _),
    uniform .rngseedhi rfl, uniform .rngstream rfl, uniform .trapcause rfl, uniform .trappc (low _), uniform .trappchi rfl,
    uniform .trapaddr (low _), uniform .trapaddrhi rfl, uniform .trapmask rfl, uniform .trapli (low _),
    uniform .traplihi rfl, uniform .splitid rfl, uniform .nsplits rfl, uniform .lklast rfl, uniform .barcount rfl,
    uniform .age (low _), uniform .agehi rfl, uniform .agex rfl, ?_, ?_, uniform .cyclehi rfl, uniform .lclockhi rfl,
    State.special_writesS .cyclehi h rfl rfl, State.special_writesS .lclockhi h rfl rfl⟩
  · simp only [State.srd_latching .cycle h rfl, ← low]
    rfl
  · simp only [State.srd_latching .lclock h rfl, ← low]
    exact congrArg _ (State.after_congr rfl)

end Sys2Proof.Machine
end

section
/-! PROOFS. The operations of atomics (R112, R137, R230). -/

namespace Sys2Proof.Machine

/-- An integer atomic takes the unpacked types, whose one element is the whole operand (R230). -/
theorem elemBits_of_accepts_add {t : Ty} (h : AOp.accepts .add t = true) : t.elemBits = 32 * t.regs := by
  cases t <;> simp_all [AOp.accepts, Ty.elemBits, Ty.regs]

/-- A floating atomic takes the types whose elements have the format's width (R230). -/
theorem tyFmt_bits_of_accepts_fadd {t : Ty} (h : AOp.accepts .fadd t = true) : (tyFmt t).bits = t.elemBits := by
  cases t <;> simp_all [AOp.accepts, Ty.elemBits, tyFmt, FFmt.bits, f16F, bf16F, f32F, f64F]

variable {t : Ty} {m v : Nat}

/-- AADD leaves the wrapped sum of the operands' values (R230). -/
theorem atomic_add (c : Nat) (hb : t.elemBits = 32 * t.regs) (hm : m < 2 ^ (32 * t.regs)) (hv : v < 2 ^ (32 * t.regs)) :
    AOp.apply .add t m v c = Ty.wrap t (Ty.value t m + Ty.value t v) := by
  rw [← hb] at hm hv
  rw [Ty.value_eq_val, Ty.value_eq_val, Ty.wrap_eq, ← wrapTo_mod]
  exact ((eAdd_elem t m v hm hv).trans (by rw [hb]; rfl)).symm

/-- AMIN leaves the operand of the smaller value (R230). -/
theorem atomic_min (c : Nat) : AOp.apply .min t m v c ∈ [m, v] ∧
    Ty.value t (AOp.apply .min t m v c) = min (Ty.value t m) (Ty.value t v) := by
  rw [show AOp.apply .min t m v c = if Ty.value t v < Ty.value t m then v else m by simp only [Ty.value_eq_val]; rfl]
  split
  · next h => exact ⟨by simp, (min_eq_right h.le).symm⟩
  · next h => exact ⟨by simp, (min_eq_left (not_lt.1 h)).symm⟩

/-- AMAX leaves the operand of the larger value (R230). -/
theorem atomic_max (c : Nat) : AOp.apply .max t m v c ∈ [m, v] ∧
    Ty.value t (AOp.apply .max t m v c) = max (Ty.value t m) (Ty.value t v) := by
  rw [show AOp.apply .max t m v c = if Ty.value t m < Ty.value t v then v else m by simp only [Ty.value_eq_val]; rfl]
  split
  · next h => exact ⟨by simp, (max_eq_right h.le).symm⟩
  · next h => exact ⟨by simp, (max_eq_left (not_lt.1 h)).symm⟩

/-- Settles O33: the integer forms by value, the bitwise forms as written, the floating forms element by element. -/
theorem atomicOperationsApply : Obligations.AtomicOperationsApply := by
  intro t m v c hm hv F el
  refine ⟨fun ht => ?_, fun _ => ⟨rfl, rfl, rfl, rfl, rfl⟩, fun ht e he => ?_⟩
  · obtain ⟨hmin, hminv⟩ := atomic_min (t := t) (m := m) (v := v) c
    obtain ⟨hmax, hmaxv⟩ := atomic_max (t := t) (m := m) (v := v) c
    exact ⟨atomic_add c (elemBits_of_accepts_add ht) hm hv, hmin, hminv, hmax, hmaxv, rfl⟩
  · have hbits : F.bits = t.elemBits := tyFmt_bits_of_accepts_fadd ht
    simp only [el, ← hbits]
    exact ⟨elemOf_mapElems _ _ _ _ he, elemOf_mapElems _ _ _ _ he, elemOf_mapElems _ _ _ _ he⟩

end Sys2Proof.Machine
end

section
/-! PROOFS. GROW and SHRINK: the grant from the reserve and the half's pool, the wait, GROWDEAD, and what is given back (R98, R104
to R107). -/

namespace Sys2Proof.Machine
variable {s : State} {n : Nat}

/-! Registers and groups after an allotment has moved. -/

/-- The registers from `lo` up to `hi` hold 0 (R104); opaque, so that no comparison of states unfolds its 128 registers. -/
@[irreducible] def zeroed (v : Vector VReg 128) (lo hi : Nat) : Vector VReg 128 :=
  Vector.ofFn fun r => if lo ≤ r.val ∧ r.val < hi then VReg.zero else v[r]

theorem zeroed_eq (v : Vector VReg 128) (lo hi : Nat) :
    zeroed v lo hi = Vector.ofFn fun r => if lo ≤ r.val ∧ r.val < hi then VReg.zero else v[r] := by
  unfold zeroed
  rfl

/-- The allotment becomes `allot`, and the registers from `lo` up to `hi` hold 0 (R98, R104). -/
def Warp.allotted (w : Warp) (allot lo hi : Nat) : Warp := { w with vregs := zeroed w.vregs lo hi, allot := allot }

theorem Warp.allotted_v (w : Warp) (allot lo hi : Nat) (r : Reg) (l : Lane) :
    (w.allotted allot lo hi).v r l = if lo ≤ r.val ∧ r.val < hi then 0 else w.v r l := by
  simp only [Warp.allotted, Warp.v, zeroed_eq, Fin.getElem_fin, Vector.getElem_ofFn]
  split
  · simp [VReg.zero]
  · rfl

section
variable (w : Warp) (allot lo hi : Nat)
@[simp] theorem Warp.allotted_key : (w.allotted allot lo hi).key = w.key := rfl
@[simp] theorem Warp.allotted_live : (w.allotted allot lo hi).live = w.live := rfl
@[simp] theorem Warp.allotted_cur : (w.allotted allot lo hi).cur = w.cur := rfl
@[simp] theorem Warp.allotted_splits : (w.allotted allot lo hi).splits = w.splits := rfl
@[simp] theorem Warp.allotted_sp : (w.allotted allot lo hi).sp = w.sp := rfl
@[simp] theorem Warp.allotted_allot : (w.allotted allot lo hi).allot = allot := rfl
@[simp] theorem Warp.allotted_sregs : (w.allotted allot lo hi).sregs = w.sregs := rfl
@[simp] theorem Warp.allotted_preds : (w.allotted allot lo hi).preds = w.preds := rfl
end

/-- A change of the running warp's workgroup that keeps its name. -/
theorem State.group?_of_modWg {t : State} {f : Workgroup → Workgroup} {g : Workgroup} (ht : t.groups = (s.modWg f).groups)
    (hf : ∀ g, (f g).key = g.key) (hg : s.group? s.warp.key.wg = some g) : t.group? s.warp.key.wg = some (f g) := by
  have hkey : g.key = s.warp.key.wg := by simpa using List.find?_some hg
  have hcomp : ((fun x : Workgroup => x.key == s.warp.key.wg) ∘ fun x => if x.key == s.warp.key.wg then f x else x) =
      fun x => x.key == s.warp.key.wg := by
    funext x
    simp only [Function.comp]
    split <;> simp [hf]
  rw [State.group?, ht, State.modWg, State.modGroup, List.find?_map, hcomp, show s.groups.find? _ = some g from hg]
  simp [hkey]

theorem State.wg_of_group? {g : Workgroup} (hg : s.group? s.warp.key.wg = some g) : s.wg = g := by
  rw [State.wg, hg, Option.getD_some]

@[simp] theorem Workgroup.addCharge_key (g : Workgroup) (half : Bool) (k : Nat) : (g.addCharge half k).key = g.key := by
  cases half <;> rfl

/-! The grant (R98, R106). -/

/-- The reserve supplies GROW `n`, or the rest is free in the half's pool and no older GROW waits for it (R106). -/
def State.suppliesGrow (s : State) (n : Nat) : Prop :=
  n - s.wg.reserve = 0 ∨ (n - s.wg.reserve ≤ s.poolFree s.warp.core s.warp.half ∧
    ∀ x ∈ s.warps, x.core = s.warp.core → x.half = s.warp.half → x.growSplit ≠ none → older x.key s.warp.key = false)

/-- What the grant takes from the reserve and charges to the warp's half (R106). -/
def Workgroup.grants (g : Workgroup) (half : Bool) (take need : Nat) : Workgroup :=
  ({ g with reserve := g.reserve - take } : Workgroup).addCharge half need

/-- The state after GROW `n` has its registers, but has not retired (R106). -/
def State.granted (s : State) (n : Nat) : State :=
  (s.modWg fun g => g.grants s.warp.half (min n s.wg.reserve) (n - s.wg.reserve)).modWarp fun w =>
    w.allotted (w.allot + n) w.allot (w.allot + n)

@[simp] theorem State.granted_warp :
    (s.granted n).warp = s.warp.allotted (s.warp.allot + n) s.warp.allot (s.warp.allot + n) := rfl

theorem State.olderGrow_eq_false_iff : s.olderGrow s.warp = false ↔
    ∀ x ∈ s.warps, x.core = s.warp.core → x.half = s.warp.half → x.growSplit ≠ none → older x.key s.warp.key = false := by
  simp [State.olderGrow, Option.isSome_iff_ne_none]

theorem State.suppliesGrow_iff : s.suppliesGrow n ↔ n - s.wg.reserve = 0 ∨
    (n - s.wg.reserve ≤ s.poolFree s.warp.core s.warp.half ∧ (!s.olderGrow s.warp) = true) := by
  rw [State.suppliesGrow, ← State.olderGrow_eq_false_iff, Bool.not_eq_true']

theorem State.growGrant_granted (ha : s.warp.allot + n ≤ 128) (hs : s.suppliesGrow n) :
    s.growGrant n = some (s.granted n) := by
  have hneed : n - min n s.wg.reserve = n - s.wg.reserve := by omega
  simp only [State.growGrant, hneed]
  rw [if_neg (by omega), if_pos (State.suppliesGrow_iff.1 hs)]
  simp only [State.granted, Warp.allotted, zeroed_eq]
  rfl

theorem State.growGrant_none (h : ¬(s.warp.allot + n ≤ 128 ∧ s.suppliesGrow n)) : s.growGrant n = none := by
  have hneed : n - min n s.wg.reserve = n - s.wg.reserve := by omega
  simp only [State.growGrant, hneed]
  by_cases ha : s.warp.allot + n ≤ 128
  · rw [if_neg (by omega), if_neg fun hs => h ⟨ha, State.suppliesGrow_iff.2 hs⟩]
  · rw [if_pos (by omega)]

theorem Workgroup.grants_fields {g : Workgroup} {half : Bool} {need : Nat} :
    let g' := g.grants half (min n g.reserve) need
    g'.reserve = g.reserve - n ∧ g'.charge0 = g.charge0 + (if half then 0 else need) ∧
      g'.charge1 = g.charge1 + (if half then need else 0) := by
  cases half <;> simp [Workgroup.grants, Workgroup.addCharge] <;> omega

/-! A split of the running warp, by its name. -/

/-- Work in the running warp's own split stays there, as long as the warp lives on under its name. -/
theorem State.inSplit_self {f : State → State} (hl : s.warp.live = true) (hl' : (f s).warp.live = true)
    (hk : (f s).warp.key = s.warp.key) (hc : (f s).warp.cur = s.warp.cur) :
    s.inSplit s.warp.key s.warp.cur f = f s := by
  have hfocus (u : State) (hu : u.warp.live = true) (hku : u.warp.key = s.warp.key) : u.focus s.warp.key = u := by
    rw [State.focus, if_pos (by simp [hu, hku])]
  have hcur (u : State) (hcu : u.warp.cur = s.warp.cur) : (u.modWarp fun w => { w with cur := s.warp.cur }) = u :=
    State.modWarp_self u _ (by rw [← hcu])
  simp only [State.inSplit, hfocus s hl rfl, hcur s rfl, hcur (f s) hc, hfocus (f s) hl' hk]

theorem State.warps_of_live (hl : s.warp.live = true) : s.warps = s.warp :: s.others.filter (·.live) := by
  rw [State.warps, List.filter_cons_of_pos hl]

theorem State.warpAt_self (hl : s.warp.live = true) : s.warpAt s.warp.key = some s.warp := by
  rw [State.warpAt, State.warps_of_live hl, List.find?_cons_of_pos (by simp)]

theorem State.warpsOf_self (hl : s.warp.live = true) :
    ∃ ws, s.warpsOf s.warp.key.wg = s.warp :: ws := by
  rw [State.warpsOf, State.warps_of_live hl, List.filter_cons_of_pos (by simp)]
  exact ⟨_, rfl⟩

/-! A GROW that is tried again (R106). -/

theorem State.retryGrow_self (hl : s.warp.live = true) (hw : s.warp.sp.wait = .grow n)
    (hsp : (s.warp.splits[s.warp.cur]).isSome = true) : s.retryGrow s.warp.key s.warp.cur =
      s.inSplit s.warp.key s.warp.cur fun u => ((u.growGrant n).map State.retire).getD u := by
  obtain ⟨p, hp⟩ := Option.isSome_iff_exists.1 hsp
  have hwait : p.wait = .grow n := by rw [← hw, Warp.sp, hp, Option.getD_some]
  have hsplit : (s.warpAt s.warp.key).bind (·.splits[s.warp.cur]) = some p := by rw [State.warpAt_self hl]; exact hp
  simp only [State.retryGrow, hsplit, hwait]
  exact congrArg _ (funext fun u => by cases u.growGrant n <;> rfl)

theorem State.retryGrow_granted (hl : s.warp.live = true) (hw : s.warp.sp.wait = .grow n)
    (hsp : (s.warp.splits[s.warp.cur]).isSome = true) (hg : s.growGrant n = some (s.granted n)) :
    s.retryGrow s.warp.key s.warp.cur = (s.granted n).retire := by
  have heq : ((s.growGrant n).map State.retire).getD s = (s.granted n).retire := by rw [hg]; rfl
  rw [State.retryGrow_self hl hw hsp, State.inSplit_self hl, heq] <;> simp [heq, hl]

theorem State.retryGrow_refused (hl : s.warp.live = true) (hw : s.warp.sp.wait = .grow n)
    (hsp : (s.warp.splits[s.warp.cur]).isSome = true) (hg : s.growGrant n = none) :
    s.retryGrow s.warp.key s.warp.cur = s := by
  have heq : ((s.growGrant n).map State.retire).getD s = s := by rw [hg]; rfl
  rw [State.retryGrow_self hl hw hsp, State.inSplit_self hl, heq] <;> simp [heq, hl]

/-! GROWDEAD (R107). -/

theorem State.growDead_of_free {g : WgKey} (h : ∃ w ∈ s.warpsOf g, w.stuckInGrow (s.hdrOf g.launch).det = false) :
    s.growDead g = s := by
  obtain ⟨w, hw, hfree⟩ := h
  simp only [State.growDead]
  rw [if_neg]
  rintro ⟨-, hall⟩
  exact absurd (List.all_eq_true.1 hall w hw) (by simp [hfree])

theorem foldl_max_of_le {α : Type} (f : α → Nat) (l : List α) (m : Nat) (h : ∀ y ∈ l, f y ≤ m) :
    l.foldl (fun k y => max k (f y)) m = m := by
  induction l with
  | nil => rfl
  | cons x xs ih =>
    rw [List.foldl_cons, max_eq_left (h x List.mem_cons_self)]
    exact ih fun y hy => h y (List.mem_cons_of_mem _ hy)

theorem Warp.deadSplit_of_growSplit {w : Warp} (hh : w.hold = none ∨ w.hold = some w.cur)
    (hg : w.growSplit = some w.cur) : w.deadSplit = some w.cur := by
  unfold Warp.deadSplit
  obtain hh | hh := hh
  · simp only [hh, hg]
  · simp only [hh, hg, ite_self]

/-- Where every live warp of the workgroup waits in GROW, and none has a higher WARPIDX than the running one, GROWDEAD is raised
in its waiting split (R107; log entry 10). -/
theorem State.growDead_running (hl : s.warp.live = true)
    (hall : ∀ w ∈ s.warpsOf s.warp.key.wg, w.stuckInGrow (s.hdrOf s.warp.key.wg.launch).det = true)
    (htop : ∀ w ∈ s.warpsOf s.warp.key.wg, w.key.widx ≤ s.warp.key.widx)
    (hdead : s.warp.deadSplit = some s.warp.cur) :
    s.growDead s.warp.key.wg = s.inSplit s.warp.key s.warp.cur fun s => s.trapWaiting .growdead 0 := by
  obtain ⟨ws, hws⟩ := State.warpsOf_self hl
  have hmax : (s.warpsOf s.warp.key.wg).foldl (fun (m : Nat) w => max m w.key.widx) 0 = s.warp.key.widx := by
    rw [hws] at htop ⊢
    rw [List.foldl_cons, Nat.zero_max]
    exact foldl_max_of_le (fun w : Warp => w.key.widx) ws _ fun w hw => htop w (List.mem_cons_of_mem _ hw)
  have hfind : (s.warpsOf s.warp.key.wg).find? (fun w => w.key.widx == s.warp.key.widx) = some s.warp := by
    rw [hws, List.find?_cons_of_pos (by simp)]
  simp only [State.growDead]
  rw [if_pos ⟨by simp [hws], List.all_eq_true.2 hall⟩]
  simp only [hmax, hfind, hdead]

theorem Warp.enter_setWait (w : Warp) (x : Wait) (base : DWord) (c : Cause) (addr : DWord) (pc li : Pc) :
    (w.modSp fun p => { p with wait := x }).enter base c addr pc li = w.enter base c addr pc li := by
  simp only [Warp.enter, Warp.modSp, Warp.setSp_sp]
  simp [Warp.setSp, Vector.set_set]

theorem State.entered_setWait (x : Wait) (c : Cause) (addr : DWord) : (s.setWait x).entered c addr = s.entered c addr := by
  have hpc : (s.setWait x).warp.sp.pc = s.warp.sp.pc := by rw [State.setWait_warp, Warp.modSp_sp]
  have hwarp := s.warp.enter_setWait x s.trapBase c addr s.warp.sp.pc 0
  rw [← State.setWait_warp, ← hpc] at hwarp
  exact congrArg (fun w => { s with warp := w }) (hwarp.trans (by rw [hpc]))

theorem State.alike_setWait (x : Wait) : s.Alike (s.setWait x) where
  warp :=
    { key := rfl
      live := rfl
      cur := rfl
      allot := rfl
      trapmask := rfl
      reds := rfl
      pc := by rw [State.setWait_warp, Warp.modSp_sp]
      others := fun j hj => s.warp.setSp_splits_ne _ j hj }
  launches := rfl
  late := rfl

/-- A cause raised in a waiting split that no other's hold keeps back enters at once (R383, R384). -/
theorem State.trapWaiting_enters {c : Cause} {addr : DWord} (ho : s.warp.outstanding = [])
    (hh : s.warp.hold = none ∨ s.warp.hold = some s.warp.cur) (he : s.mayEnter) (hc : c ≠ .doublefault) :
    s.trapWaiting c addr = s.entered c addr := by
  have hhold : ((s.setWait .ready).warp.hold.any (· != (s.setWait .ready).warp.cur)) = false := by
    obtain hh | hh := hh <;> simp [hh]
  simp only [State.trapWaiting, hhold, Bool.false_and, Bool.false_eq_true, if_false]
  rw [State.trapHere_enters (s.setWait .ready) c addr ho ((State.alike_setWait .ready).mayEnter he) hc,
    State.entered_setWait]

/-! SHRINK (R106). -/

/-- The state after SHRINK `n`, its split moved on, before the waiting GROWs are tried again (R106). -/
def State.shrunk (s : State) (n : Nat) : State :=
  ((s.modWarp fun w => w.allotted (w.allot - n) (w.allot - n) w.allot).modWg fun g =>
    { g with reserve := g.reserve + n }).modWarp fun w => w.modSp Split.advance

@[simp] theorem State.shrunk_warp : (s.shrunk n).warp =
    (s.warp.allotted (s.warp.allot - n) (s.warp.allot - n) s.warp.allot).modSp Split.advance := rfl

@[simp] theorem State.shrunk_mem : (s.shrunk n).mem = s.mem := by simp [State.shrunk]

theorem Warp.growSplit_eq_none_iff {w : Warp} :
    w.growSplit = none ↔ ∀ (k : Fin 4) (p : Split), w.splits[k] = some p → p.wait.growing = false := by
  simp only [Warp.growSplit, List.find?_eq_none, List.mem_finRange, true_implies]
  refine forall_congr' fun k => ?_
  cases h : w.splits[k] <;> simp

theorem Warp.growSplit_advance {w v : Warp} (hs : v.splits = (w.modSp Split.advance).splits) (h : w.growSplit = none) :
    v.growSplit = none := by
  rw [Warp.growSplit_eq_none_iff] at h ⊢
  rw [hs]
  intro k p hp
  by_cases hk : k = w.cur
  · have hadv : some w.sp.advance = some p := by rw [← hp, hk]; simp [Warp.modSp, Warp.setSp]
    rw [← Option.some.inj hadv]
    rfl
  · exact h k p ((w.setSp_splits_ne _ k hk).symm.trans hp)

theorem State.shrunk_growSplit (h : ∀ w ∈ s.warps, w.growSplit = none) :
    ∀ w ∈ (s.shrunk n).warps, w.growSplit = none := by
  intro w hw
  obtain ⟨hmem, hlive⟩ := List.mem_filter.1 hw
  obtain rfl | hmem := List.mem_cons.1 hmem
  · rw [State.shrunk_warp, Warp.modSp_live, Warp.allotted_live] at hlive
    have hs : s.warp ∈ s.warps := List.mem_filter.2 ⟨List.mem_cons_self, hlive⟩
    exact Warp.growSplit_advance (by simp [Warp.modSp, Warp.setSp]) (h _ hs)
  · exact h w (List.mem_filter.2 ⟨List.mem_cons_of_mem _ hmem, hlive⟩)

theorem State.retryGrows_of_none (h : ∀ w ∈ s.warps, w.growSplit = none) : s.retryGrows = s := by
  have hnil : (s.warps.filter fun w => w.growSplit.isSome && s.contextRuns w.key.ctx) = [] :=
    List.filter_eq_nil_iff.2 fun w hw => by simp [h w hw]
  rw [State.retryGrows, hnil]
  rfl

/-! The two instructions. -/

theorem State.exec_grow_past {imm : BitVec 18} (h : s.clearFor false) (ha : 128 < s.warp.allot + imm.toNat) (he : s.mayEnter) :
    exec (.grow imm) s = .next (s.entered .regbound (BitVec.setWidth 64 (wordOf (.grow imm)))) := by
  rw [exec_grow, execGrow, s.issue_scalar _ _ _ h rfl rfl rfl rfl, if_pos ha]
  exact congrArg _ (s.trapHere_enters _ _ h.2 he (by decide))

theorem State.exec_grow_granted {imm : BitVec 18} (h : s.clearFor false) (ha : s.warp.allot + imm.toNat ≤ 128)
    (hs : s.suppliesGrow imm.toNat) : exec (.grow imm) s = .next (s.granted imm.toNat).retire := by
  rw [exec_grow, execGrow, s.issue_scalar _ _ _ h rfl rfl rfl rfl, if_neg (by omega), State.growGrant_granted ha hs]
  rfl

theorem State.exec_grow_waits {imm : BitVec 18} (h : s.clearFor false) (ha : s.warp.allot + imm.toNat ≤ 128)
    (hs : ¬s.suppliesGrow imm.toNat) :
    exec (.grow imm) s = .next ((s.setWait (.grow imm.toNat)).growDead s.warp.key.wg) := by
  rw [exec_grow, execGrow, s.issue_scalar _ _ _ h rfl rfl rfl rfl, if_neg (by omega),
    State.growGrant_none fun hg => hs hg.2]
  rfl

theorem State.exec_shrink_past {imm : BitVec 18} (h : s.clearFor false) (ha : s.warp.allot < imm.toNat + 8) (he : s.mayEnter) :
    exec (.shrink imm) s = .next (s.entered .regbound (BitVec.setWidth 64 (wordOf (.shrink imm)))) := by
  rw [exec_shrink, execShrink, s.issue_scalar _ _ _ h rfl rfl rfl rfl, if_pos ha]
  exact congrArg _ (s.trapHere_enters _ _ h.2 he (by decide))

theorem State.exec_shrink_shrunk {imm : BitVec 18} (h : s.clearFor false) (ha : imm.toNat + 8 ≤ s.warp.allot)
    (hg : ∀ w ∈ s.warps, w.growSplit = none) :
    exec (.shrink imm) s = .next ((s.shrunk imm.toNat).modWarp Warp.retired) := by
  rw [exec_shrink, execShrink, s.issue_scalar _ _ _ h rfl rfl rfl rfl, if_neg (by omega)]
  simp only [← zeroed_eq]
  exact congrArg (fun t : State => Host.Outcome.next (t.modWarp Warp.retired))
    (State.retryGrows_of_none (State.shrunk_growSplit (n := imm.toNat) hg))

theorem State.granted_group {g : Workgroup} (hg : s.group? s.warp.key.wg = some g) :
    ∃ g', (s.granted n).retire.group? s.warp.key.wg = some g' ∧ g'.reserve = g.reserve - n ∧
      g'.charge0 = g.charge0 + (if s.warp.half then 0 else n - s.wg.reserve) ∧
      g'.charge1 = g.charge1 + (if s.warp.half then n - s.wg.reserve else 0) := by
  refine ⟨_, State.group?_of_modWg rfl (fun g => Workgroup.addCharge_key _ _ _) hg, ?_⟩
  rw [State.wg_of_group? hg]
  exact Workgroup.grants_fields

theorem State.shrunk_group {g : Workgroup} (hg : s.group? s.warp.key.wg = some g) :
    ∃ g', ((s.shrunk n).modWarp Warp.retired).group? s.warp.key.wg = some g' ∧ g'.reserve = g.reserve + n :=
  ⟨_, State.group?_of_modWg (f := fun g => { g with reserve := g.reserve + n }) rfl (fun _ => rfl) hg, rfl⟩

/-- GROW that is not supplied, while every live warp of its workgroup waits in GROW and none has a higher WARPIDX, meets GROWDEAD
at once (R107). -/
theorem State.growDead_setWait (hl : s.warp.live = true) (ho : s.warp.outstanding = []) (he : s.mayEnter) {x : Wait}
    (hh : s.warp.hold = none ∨ s.warp.hold = some s.warp.cur) (hg : (s.setWait x).warp.growSplit = some s.warp.cur)
    (hall : ∀ w ∈ (s.setWait x).warpsOf s.warp.key.wg,
      w.stuckInGrow ((s.setWait x).hdrOf s.warp.key.wg.launch).det = true)
    (htop : ∀ w ∈ (s.setWait x).warpsOf s.warp.key.wg, w.key.widx ≤ s.warp.key.widx) :
    (s.setWait x).growDead s.warp.key.wg = s.entered .growdead 0 := by
  have htrap : (s.setWait x).trapWaiting .growdead 0 = s.entered .growdead 0 :=
    (State.trapWaiting_enters (s := s.setWait x) ho hh ((State.alike_setWait x).mayEnter he) (by decide)).trans
      (State.entered_setWait x _ _)
  refine (State.growDead_running (s := s.setWait x) hl hall htop (Warp.deadSplit_of_growSplit hh hg)).trans ?_
  rw [State.inSplit_self (s := s.setWait x) hl, htrap] <;> rw [htrap]
  exacts [hl, rfl, rfl]

/-- Settles O18: GROW by whether the grant is made, its wait by the workgroup's other warps, SHRINK by what it gives back. -/
theorem growAndShrinkMoveTheAllotment : Obligations.GrowAndShrinkMoveTheAllotment := by
  intro s imm h n word need supplied waits mates stuck
  refine ⟨fun ha hs => ⟨(s.granted n).retire, State.exec_grow_granted h ha hs, by simp, by simp [Pc.next],
      by simp [Warp.allotted_v], fun g hg => State.granted_group hg, by simp, by simp, rfl⟩,
    State.exec_grow_past h, fun ha hs hfree => ?_, fun ha hs hl hall htop hh hg he => ?_,
    fun hl hw hsp => ⟨fun ha hs => ?_, fun hno => State.retryGrow_refused hl hw hsp (State.growGrant_none hno)⟩,
    fun ha hg => ⟨(s.shrunk n).modWarp Warp.retired, State.exec_shrink_shrunk h ha hg, by simp, by simp [Pc.next],
      by simp only [State.modWarp_warp, State.shrunk_warp, Warp.retired_v, Warp.modSp_v, Warp.allotted_v, implies_true],
      fun g hg => State.shrunk_group hg, by simp, by simp, by simp⟩,
    State.exec_shrink_past h⟩
  · rw [State.exec_grow_waits h ha hs, State.growDead_of_free hfree]
  · rw [State.exec_grow_waits h ha hs, State.growDead_setWait hl h.2 he hh hg hall htop]
  · rw [State.exec_grow_granted h ha hs, State.retryGrow_granted hl hw hsp (State.growGrant_granted ha hs)]

end Sys2Proof.Machine
end

section
/-! PROOFS. Sums, products and the order of exact values, as those of the rationals that they stand for (R132, R136, R137, R141). -/

namespace Sys2Proof.Machine

/-- Counted in units of a place at or below its own, a finite value is that many of them. -/
theorem unitsOf_mul_zpow (neg : Bool) (m : Nat) {e q : Int} (h : q ≤ e) : (unitsOf neg m e q : Rat) * 2 ^ q = ratOf neg m e := by
  have hp : (2 : Rat) ^ e = 2 ^ (e - q).toNat * 2 ^ q := by
    rw [← zpow_natCast, ← zpow_add₀ two_ne_zero]
    congr 1
    omega
  rw [ratOf, hp]
  cases neg <;> simp [unitsOf] <;> ring

@[simp] theorem ratOf_zero (neg : Bool) (e : Int) : ratOf neg 0 e = 0 := by simp [ratOf]

theorem ratOf_eq_zero_iff {neg : Bool} {m : Nat} {e : Int} : ratOf neg m e = 0 ↔ m = 0 := by
  have := (two_zpow_pos e).ne'
  cases neg <;> simp [ratOf, this]

theorem ratOf_mul (n1 n2 : Bool) (m1 m2 : Nat) (e1 e2 : Int) :
    ratOf (n1 != n2) (m1 * m2) (e1 + e2) = ratOf n1 m1 e1 * ratOf n2 m2 e2 := by
  rw [ratOf, ratOf, ratOf, zpow_add₀ two_ne_zero, Nat.cast_mul]
  cases n1 <;> cases n2 <;> simp <;> ring

theorem ratOf_not (n : Bool) (m : Nat) (e : Int) : ratOf (!n) m e = -ratOf n m e := by
  cases n <;> simp [ratOf]

/-- A signed count of units of a place as a value: a count of 0 takes the sign given for it. -/
theorem FVal.ofInt_eq_fin (i e : Int) (z : Bool) :
    ∃ n m, FVal.ofInt i e z = .fin n m e ∧ ratOf n m e = i * 2 ^ e ∧ (m = 0 → n = z) := by
  unfold FVal.ofInt
  split
  · next h => exact ⟨z, 0, rfl, by simp [h], fun _ => rfl⟩
  · next h =>
    refine ⟨_, _, rfl, ?_, fun h0 => absurd (Int.natAbs_eq_zero.1 h0) h⟩
    have habs : (i.natAbs : Rat) = |(i : Rat)| := by
      rw [← Int.cast_natCast, Int.natCast_natAbs, Int.cast_abs]
    rw [ratOf, habs]
    by_cases hi : i < 0
    · have : (i : Rat) < 0 := by exact_mod_cast hi
      simp [hi, abs_of_neg this]
    · have : (0 : Rat) ≤ i := by exact_mod_cast not_lt.1 hi
      simp [hi, abs_of_nonneg this]

/-- The sum of finite values is exact, and a zero sum has the sign that IEEE 754 gives it (R132). -/
theorem FVal.add_fin (rm : Rm) (n1 n2 : Bool) (m1 m2 : Nat) (e1 e2 : Int) :
    ∃ n m e, FVal.add rm (.fin n1 m1 e1) (.fin n2 m2 e2) = (.fin n m e, 0) ∧
      ratOf n m e = ratOf n1 m1 e1 + ratOf n2 m2 e2 ∧
      (m = 0 → n = if m1 = 0 ∧ m2 = 0 ∧ n1 = n2 then n1 else decide (rm = .rdn)) := by
  obtain ⟨n, m, hv, hr, hz⟩ := FVal.ofInt_eq_fin (unitsOf n1 m1 e1 (min e1 e2) + unitsOf n2 m2 e2 (min e1 e2)) (min e1 e2)
    (if m1 = 0 ∧ m2 = 0 ∧ n1 = n2 then n1 else decide (rm = .rdn))
  refine ⟨n, m, _, congrArg (·, 0) hv, ?_, hz⟩
  rw [hr, Int.cast_add, add_mul, unitsOf_mul_zpow _ _ (min_le_left _ _), unitsOf_mul_zpow _ _ (min_le_right _ _)]

@[simp] theorem FVal.mul_fin (n1 n2 : Bool) (m1 m2 : Nat) (e1 e2 : Int) :
    FVal.mul (.fin n1 m1 e1) (.fin n2 m2 e2) = (.fin (n1 != n2) (m1 * m2) (e1 + e2), 0) := rfl

/-- Finite values are ordered as the rationals that they stand for. -/
theorem FVal.lt_fin (n1 n2 : Bool) (m1 m2 : Nat) (e1 e2 : Int) :
    FVal.lt (.fin n1 m1 e1) (.fin n2 m2 e2) = decide (ratOf n1 m1 e1 < ratOf n2 m2 e2) := by
  rw [← unitsOf_mul_zpow n1 m1 (min_le_left e1 e2), ← unitsOf_mul_zpow n2 m2 (min_le_right e1 e2)]
  simp only [mul_lt_mul_iff_left₀ (two_zpow_pos _), Int.cast_lt]
  rfl

/-- Where a number stands: beyond the finite values or among them, and its rational there. -/
def FVal.orderKey : FVal → Int × Rat
  | .inf n => (if n then -1 else 1, 0)
  | .fin n m e => (0, ratOf n m e)
  | .nan _ => (0, 0)

/-- `v` stands below `u`. -/
def FVal.below (v u : FVal) : Bool :=
  decide (v.orderKey.1 < u.orderKey.1) || (decide (v.orderKey.1 = u.orderKey.1) && decide (v.orderKey.2 < u.orderKey.2))

theorem FVal.lt_eq_below {v u : FVal} (hv : v.isNan = false) (hu : u.isNan = false) : v.lt u = v.below u := by
  cases v with
  | nan sig => cases hv
  | inf n =>
    cases u with
    | nan sig => cases hu
    | inf n' => cases n <;> cases n' <;> decide
    | fin n' m e => cases n <;> rfl
  | fin n m e =>
    cases u with
    | nan sig => cases hu
    | inf n' => cases n' <;> rfl
    | fin n' m' e' => rw [FVal.lt_fin]; rfl

end Sys2Proof.Machine
end

section
/-! PROOFS. The floating arithmetic forms, FRND, and the minimum and maximum forms (R129, R131, R133, R134, R136, R137, R147,
R152). -/

namespace Sys2Proof.Machine

theorem State.fits_mono {s : State} {t : Ty} {rs qs : List Reg} (h : s.fits t rs) (hq : ∀ r ∈ qs, r ∈ rs) : s.fits t qs :=
  fun r hr => h r (hq r hr)

/-- A form whose operands all have the clause type writes its operation on each element, and draws as it says (R130, R134). -/
theorem State.fpu_floatsTo {s : State} {i : Instr} {ok : Ty → Bool} {rm : Rm} {draws : Bool} {reads : List Reg} {d a b : Reg}
    {f : FOp} (he : exec i s = .next (s.fpu i ok rm draws reads d a b f)) (h : s.clearFor false)
    (hok : ok (s.warp.ty .f32) = true) (hf : s.fits (s.warp.ty .f32) (reads ++ [d])) :
    let t := s.warp.ty .f32
    s.floatsTo i d t.regs (tyFmt t).bits rm (if draws then t.elems else 0) fun l =>
      f.lane t rm d a b s.warp l (s.draw rm l) := by
  intro t
  refine s.floatOp_floatsTo i _ rm _ (f.lane t rm d a b) d _ _ h rfl ?_ he
  rw [show ok t = true from hok]
  exact s.vform_none i t .s reads [d] [] _ h.2 hf rfl rfl rfl rfl

/-! The operand that a minimum or maximum picks (R137). -/

/-- `v` stands below `u`, -0 below +0. -/
def FVal.belowSigned (v u : FVal) : Bool := v.lt u || (v.isZero && u.isZero && v.neg && !u.neg)

/-- Where a number stands, and -0 below +0. -/
def FVal.signedKey : FVal → Int × Rat × Int
  | .inf n => (if n then -1 else 1, 0, 0)
  | .fin n m e => (0, ratOf n m e, if n && m == 0 then -1 else 0)
  | .nan _ => (0, 0, 0)

theorem FVal.belowSigned_eq_key {v u : FVal} (hv : v.isNan = false) (hu : u.isNan = false) : v.belowSigned u =
    (decide (v.signedKey.1 < u.signedKey.1) || (decide (v.signedKey.1 = u.signedKey.1) &&
      (decide (v.signedKey.2.1 < u.signedKey.2.1) ||
        (decide (v.signedKey.2.1 = u.signedKey.2.1) && decide (v.signedKey.2.2 < u.signedKey.2.2))))) := by
  rw [FVal.belowSigned, FVal.lt_eq_below hv hu]
  cases v with
  | nan sig => cases hv
  | inf n =>
    cases u with
    | nan sig => cases hu
    | inf n' => cases n <;> cases n' <;> decide
    | fin n' m e => cases n <;> rfl
  | fin n m e =>
    cases u with
    | nan sig => cases hu
    | inf n' => cases n' <;> simp [FVal.below, FVal.orderKey, FVal.signedKey, FVal.isZero]
    | fin n' m' e' =>
      have hz : ratOf n m e = ratOf n' m' e' → (m = 0 ↔ m' = 0) := fun he => by
        rw [← ratOf_eq_zero_iff (neg := n) (e := e), he, ratOf_eq_zero_iff]
      simp only [FVal.below, FVal.orderKey, FVal.signedKey, FVal.isZero, FVal.neg]
      by_cases he : ratOf n m e = ratOf n' m' e'
      · have := hz he
        by_cases hm : m = 0 <;> cases n <;> cases n' <;> simp_all
      · have : ¬ (m = 0 ∧ m' = 0) := fun ⟨h1, h2⟩ => he (by simp [h1, h2])
        simp [he]
        grind

/-- A minimum or maximum form picks an operand by the order of the numbers, -0 below +0, where neither is a NaN. -/
theorem fMinMax_eq_pick (G : FFmt) (isMax num : Bool) (y z : Nat) {below : FVal → FVal → Bool}
    (hb : ∀ v u : FVal, v.isNan = false → u.isNan = false → v.belowSigned u = below v u) :
    let p := G.decode y
    let q := G.decode z
    fMinMax G isMax num y z =
      (if p.isNan && q.isNan then G.nanCode else if p.isNan then (if num then z else G.nanCode)
       else if q.isNan then (if num then y else G.nanCode)
       else if isMax then (if below p q then z else y) else (if below q p then z else y),
       if p.isSnan || q.isSnan then flNV else 0) := by
  unfold fMinMax
  generalize G.decode y = p
  generalize G.decode z = q
  have hcomm : (q.isZero && p.isZero) = (p.isZero && q.isZero) := Bool.and_comm _ _
  dsimp only
  cases hp : p.isNan with
  | true => cases q.isNan <;> simp
  | false =>
    cases hq : q.isNan with
    | true => simp
    | false => simp [← hb p q hp hq, ← hb q p hq hp, FVal.belowSigned, hcomm]

/-- The element operation of a minimum or maximum form. -/
def fPick (isMax num : Bool) : FOp := fun f _ _ _ y z => fMinMax f isMax num y z

/-- FRND's element operation. -/
def fRndOp : FOp := fun f rm r _ y _ => fRnd f rm r y

/-- Settles O19: each instruction by the operation of its elements, the minimum and maximum forms by the order of the values. -/
theorem floatArithmeticResults : Obligations.FloatArithmeticResults := by
  intro s d a b x h t F rm el roundTo v elems exact ht
  have elem {reads : List Reg} (i : Instr) (b : Reg) (m : Rm) (draws : Bool) (f : FOp) (hf : s.fits t (reads ++ [d]))
      (he : exec i s = .next (s.fpu i Ty.arith m draws reads d a b f)) :
      elems i m (if draws then t.elems else 0) fun l e => f F m (s.draw m l e) (el d l e) (el a l e) (el b l e) :=
    State.fpu_floatsTo he h ht hf
  refine ⟨fun hf => ?_, fun hf => elem (.frnd d a x) a rm true fRndOp (reads := [a]) hf rfl, ?_⟩
  · have two : s.fits t ([a, b] ++ [d]) := hf
    have three : s.fits t ([a, b, d] ++ [d]) := State.fits_mono hf (by simp)
    exact ⟨elem (.fadd d a b x) b rm true fAdd two rfl, elem (.fsub d a b x) b rm true fSub two rfl,
      elem (.fmul d a b x) b rm true fMul two rfl, elem (.ffma d a b x) b rm true fFma three rfl,
      elem (.ffms d a b x) b rm true fFms three rfl, elem (.fnfma d a b x) b rm true fNfma three rfl,
      elem (.fmin d a b) b .rne false (fPick false false) two rfl, elem (.fmax d a b) b .rne false (fPick true false) two rfl,
      elem (.fminnum d a b) b .rne false (fPick false true) two rfl,
      elem (.fmaxnum d a b) b .rne false (fPick true true) two rfl⟩
  · intro G _ isMax num y z _ _ p q key below
    refine fMinMax_eq_pick G isMax num y z fun u w hu hw => ?_
    rw [FVal.belowSigned_eq_key hu hw]
    cases u <;> cases w <;> rfl

end Sys2Proof.Machine
end

section
/-! PROOFS. The four IEEE formats, the order of the magnitudes of codes, and what RoundTo gives at a code, beyond the largest finite
value and far below the smallest (R8, R83, R90, R91, R93). -/

namespace Sys2Proof.Machine

/-! The four formats of the arithmetic forms (R129). -/

/-- What the proofs need of a format's parameters. -/
structure FFmt.Ieee (F : FFmt) : Prop where
  inf : F.inf = true
  eb_pos : 1 ≤ F.eb
  fb_pos : 2 ≤ F.fb
  fb_le : F.fb ≤ 52
  fb_lt_bias : F.fb < F.bias
  bias_le : F.bias ≤ 1023
  exponents : 2 ^ F.eb = 2 * F.bias + 2
  signalling : (F.eb + F.fb != 7) = true

theorem ieee_of_mem {F : FFmt} (h : F ∈ [f16F, bf16F, f32F, f64F]) : F.Ieee := by
  simp only [List.mem_cons, List.not_mem_nil, or_false] at h
  obtain rfl | rfl | rfl | rfl := h <;> constructor <;> decide

/-! The order of magnitudes. -/

/-- Every code is a place and a significand in it. -/
theorem FFmt.exists_place (F : FFmt) (c : Nat) :
    ∃ D n, c = D * 2 ^ F.fb + n ∧ (D = 0 ∨ 2 ^ F.fb ≤ n) ∧ n < 2 ^ (F.fb + 1) := by
  have hp : 0 < 2 ^ F.fb := by positivity
  have hs : 2 ^ (F.fb + 1) = 2 ^ F.fb + 2 ^ F.fb := by rw [pow_succ]; omega
  have hm : c % 2 ^ F.fb < 2 ^ F.fb := Nat.mod_lt _ hp
  have hdm := Nat.div_add_mod' c (2 ^ F.fb)
  cases hD : c / 2 ^ F.fb with
  | zero => exact ⟨0, c, by omega, .inl rfl, by rw [hD] at hdm; omega⟩
  | succ D =>
    rw [hD, Nat.succ_mul] at hdm
    exact ⟨D, 2 ^ F.fb + c % 2 ^ F.fb, by omega, .inr (by omega), by omega⟩

theorem FFmt.magnitude_strictMono (F : FFmt) : StrictMono F.magnitude := by
  refine strictMono_nat_of_lt_succ fun c => ?_
  obtain ⟨D, n, rfl, hD, hn⟩ := F.exists_place c
  rw [add_assoc, F.magnitude_place D n hD hn.le, F.magnitude_place D (n + 1) (hD.imp_right Nat.le_succ_of_le) hn, Nat.cast_succ]
  linarith [two_zpow_pos (F.emin + D)]

@[simp] theorem FFmt.magnitude_zero (F : FFmt) : F.magnitude 0 = 0 := by
  rw [F.magnitude_subnormal (by positivity), Nat.cast_zero, zero_mul]

theorem FFmt.magnitude_one (F : FFmt) : F.magnitude 1 = 2 ^ F.emin := by
  simpa using F.magnitude_place 0 1 (.inl rfl) Nat.one_le_two_pow

/-- A power of two from the smallest normal value up is the first code of its binade. -/
theorem FFmt.magnitude_binade (F : FFmt) {k : Nat} (hk : 1 ≤ k) : F.magnitude (k * 2 ^ F.fb) = 2 ^ ((k : Int) - F.bias) := by
  obtain ⟨D, rfl⟩ : ∃ D, k = D + 1 := ⟨k - 1, by omega⟩
  have := F.magnitude_normal D (n := 0) (by positivity)
  rw [add_zero, add_zero] at this
  rw [this, Nat.cast_pow, Nat.cast_two, ← zpow_natCast, ← zpow_add₀ two_ne_zero, FFmt.emin]
  congr 1
  push_cast
  ring

/-- A code is its sign bit and the rest. -/
theorem FFmt.eq_sign_add (F : FFmt) {y : Nat} (hy : y < 2 ^ F.bits) :
    y = (if y.testBit (F.eb + F.fb) then 2 ^ (F.eb + F.fb) else 0) + y % 2 ^ (F.eb + F.fb) := by
  have hlt : y / 2 ^ (F.eb + F.fb) < 2 := by
    rw [Nat.div_lt_iff_lt_mul (by positivity), ← pow_succ']
    exact hy.trans_eq (by rw [FFmt.bits]; congr 1; omega)
  have hdm := Nat.div_add_mod' y (2 ^ (F.eb + F.fb))
  have hbit : y.testBit (F.eb + F.fb) = (y / 2 ^ (F.eb + F.fb) == 1) := by
    rw [← bitsOf_one, bitsOf, pow_one, Nat.mod_eq_of_lt hlt]
  rw [hbit]
  generalize y / 2 ^ (F.eb + F.fb) = h at *
  obtain rfl | rfl : h = 0 ∨ h = 1 := by omega
  · simpa using hdm.symm
  · simpa using hdm.symm

namespace FFmt.Ieee
variable {F : FFmt} (hF : F.Ieee)
include hF

theorem maxCode_succ : F.maxCode + 1 = (2 * F.bias + 1) * 2 ^ F.fb := by
  have hinf := F.infCode_eq
  rw [hF.exponents] at hinf
  have hpos : 1 ≤ (2 * F.bias + 1) * 2 ^ F.fb := Nat.one_le_iff_ne_zero.2 (by simp)
  rw [FFmt.maxCode, hF.inf, if_pos rfl, show 2 ^ (F.eb + F.fb) - 2 ^ F.fb = F.infCode from rfl, hinf]
  exact Nat.sub_add_cancel hpos

theorem magnitude_maxCode_succ : F.magnitude (F.maxCode + 1) = 2 ^ ((F.bias : Int) + 1) := by
  rw [hF.maxCode_succ, F.magnitude_binade (by omega)]
  congr 1
  push_cast
  ring

theorem one_le_maxCode : 1 ≤ F.maxCode := by
  have := hF.maxCode_succ
  have := Nat.mul_le_mul_left (2 * F.bias + 1) (Nat.one_le_two_pow (n := F.fb))
  have := hF.fb_lt_bias
  omega

/-- A code that stands for a finite value, by its sign and magnitude (R83). -/
theorem of_decode_eq_fin {y : Nat} {n : Bool} {m : Nat} {e : Int} (h : F.decode y = .fin n m e) :
    n = y.testBit (F.eb + F.fb) ∧ y % 2 ^ (F.eb + F.fb) ≤ F.maxCode ∧
      (m : Rat) * 2 ^ e = F.magnitude (y % 2 ^ (F.eb + F.fb)) := by
  by_cases hc : F.maxCode < y % 2 ^ (F.eb + F.fb)
  · have hs := F.decode_special hF.eb_pos (by linarith [hF.fb_pos]) y hc
    rw [h] at hs
    split at hs <;> cases hs
  · obtain ⟨m', e', hd, hv⟩ := F.decode_finite hF.eb_pos y hc
    rw [h] at hd
    cases hd
    exact ⟨rfl, not_lt.1 hc, hv⟩

/-- A nonzero finite value lies between the smallest and the largest. -/
theorem finite_bounds {y : Nat} {n : Bool} {m : Nat} {e : Int} (h : F.decode y = .fin n m e) (hm : m ≠ 0) :
    2 ^ F.emin ≤ (m : Rat) * 2 ^ e ∧ (m : Rat) * 2 ^ e < 2 ^ ((F.bias : Int) + 1) := by
  obtain ⟨-, hc, hv⟩ := hF.of_decode_eq_fin h
  rw [← hF.magnitude_maxCode_succ, ← F.magnitude_one, hv]
  refine ⟨F.magnitude_strictMono.monotone ?_, F.magnitude_strictMono (by omega)⟩
  rw [Nat.one_le_iff_ne_zero]
  intro h0
  rw [h0, F.magnitude_zero, mul_eq_zero] at hv
  exact hv.elim (by simpa using hm) (two_zpow_pos e).ne'

end FFmt.Ieee

/-! RoundTo at and beyond the codes. -/

section
variable {F : FFmt} {rm : Rm} {r : Nat} {neg : Bool} {x : Rat} {y : Nat × Nat}

/-- RoundTo of a value that lies at the code `k` or between it and the next. -/
def FFmt.roundAbove (F : FFmt) (rm : Rm) (r : Nat) (neg : Bool) (x : Rat) (k : Nat) : Nat × Nat :=
  let exact : Bool := x = F.magnitude k
  let n := if !exact && roundsAway rm neg (k % 2 == 1) (F.magnitude k) (F.magnitude (k + 1)) x r then k + 1 else k
  let sign := if neg then 2 ^ (F.eb + F.fb) else 0
  if F.maxCode < n then (sign + (if F.inf && overflowsToInf rm neg then F.infCode else F.maxCode), flOF ||| flNX)
  else (sign + n, if exact then 0 else if F.tinyRat rm neg x r then flUF ||| flNX else flNX)

/-- A value has one such code, so that RoundTo has one outcome. -/
theorem FFmt.roundsTo_iff {k : Nat} (hlo : F.magnitude k ≤ x) (hhi : x < F.magnitude (k + 1)) :
    F.RoundsTo rm r neg x y ↔ y = F.roundAbove rm r neg x k := by
  constructor
  · rintro ⟨k', hlo', hhi', hy⟩
    obtain rfl : k' = k := by
      have := F.magnitude_strictMono.lt_iff_lt.1 (hlo.trans_lt hhi')
      have := F.magnitude_strictMono.lt_iff_lt.1 (hlo'.trans_lt hhi)
      omega
    exact hy
  · rintro rfl
    exact ⟨k, hlo, hhi, rfl⟩

/-- RoundTo of a finite code's own value is the code, and raises nothing. -/
theorem FFmt.RoundsTo.of_magnitude {c : Nat} (h : F.RoundsTo rm r neg x y) (hx : x = F.magnitude c) (hc : c ≤ F.maxCode) :
    y = ((if neg then 2 ^ (F.eb + F.fb) else 0) + c, 0) := by
  subst hx
  rw [(FFmt.roundsTo_iff le_rfl (F.magnitude_strictMono c.lt_succ_self)).1 h, FFmt.roundAbove]
  simp [not_lt.2 hc]

/-- Every value from the first power of two beyond the largest finite one up is rounded alike (R90, R93). -/
theorem FFmt.roundsTo_iff_overflow {k : Nat} (hx : F.magnitude (F.maxCode + 1) ≤ x) (hlo : F.magnitude k ≤ x)
    (hhi : x < F.magnitude (k + 1)) : F.RoundsTo rm r neg x y ↔
      y = ((if neg then 2 ^ (F.eb + F.fb) else 0) + (if F.inf && overflowsToInf rm neg then F.infCode else F.maxCode),
        flOF ||| flNX) := by
  have hk := F.magnitude_strictMono.lt_iff_lt.1 (hx.trans_lt hhi)
  have hover (b : Bool) : F.maxCode < if b then k + 1 else k := by split <;> omega
  rw [FFmt.roundsTo_iff hlo hhi, FFmt.roundAbove]
  rw [if_pos (hover _)]

theorem FFmt.RoundsTo.of_overflow {x' : Rat} {y' : Nat × Nat} (h : F.RoundsTo rm r neg x y) (h' : F.RoundsTo rm r neg x' y')
    (hx : F.magnitude (F.maxCode + 1) ≤ x) (hx' : F.magnitude (F.maxCode + 1) ≤ x') : F.RoundsTo rm r neg x' y := by
  obtain ⟨k, hlo, hhi, -⟩ := id h
  obtain ⟨k', hlo', hhi', -⟩ := h'
  rw [FFmt.roundsTo_iff_overflow hx hlo hhi] at h
  exact (FFmt.roundsTo_iff_overflow hx' hlo' hhi').2 h

/-- Where a mode rounds a magnitude far below the smallest: up to it, or to zero (R90, R91). -/
def roundsAwayFromZero (rm : Rm) (neg : Bool) (r : Nat) : Bool := match rm with
  | .rup => !neg | .rdn => neg | .sr => decide (2 ^ 24 ≤ r) | _ => false

/-- Far below the smallest place all values are rounded alike. -/
theorem roundsAway_tiny {hi : Rat} (odd : Bool) (h0 : 0 < x) (hx : x * 2 ^ 25 ≤ hi) :
    roundsAway rm neg odd 0 hi x r = roundsAwayFromZero rm neg r := by
  have hhi : 0 < hi := lt_of_lt_of_le (by positivity) hx
  have h1 : ¬ hi < 2 * x := by linarith
  have h2 : ¬ hi ≤ 2 * x := by linarith
  have h3 : ¬ 2 * x = hi := by linarith
  have h4 : ⌊x / hi * 2 ^ 24⌋ = 0 := by
    rw [Int.floor_eq_iff]
    refine ⟨by positivity, ?_⟩
    rw [div_mul_eq_mul_div, div_lt_iff₀ hhi]
    push_cast
    linarith
  cases rm <;> simp [roundsAway, roundsAwayFromZero, h1, h2, h3, h4]

theorem FFmt.roundsTo_iff_underflow (hf : 1 ≤ F.fb) (hmax : 1 ≤ F.maxCode) (h0 : 0 < x) (hx : x * 2 ^ 25 ≤ 2 ^ F.emin) :
    F.RoundsTo rm r neg x y ↔
      y = ((if neg then 2 ^ (F.eb + F.fb) else 0) + (if roundsAwayFromZero rm neg r then 1 else 0), flUF ||| flNX) := by
  have hx1 : x < F.magnitude (0 + 1) := by
    rw [F.magnitude_one]
    linarith
  have haway : roundsAway rm neg (0 % 2 == 1) (F.magnitude 0) (F.magnitude (0 + 1)) x r = roundsAwayFromZero rm neg r := by
    rw [F.magnitude_zero, F.magnitude_one]
    exact roundsAway_tiny _ h0 hx
  have htiny : F.tinyRat rm neg x r = true := by
    have h2 : 2 * F.magnitude 1 ≤ F.magnitude (2 ^ F.fb) := by
      have := F.magnitude_place 0 (2 ^ F.fb) (.inl rfl) (Nat.pow_le_pow_right two_pos (Nat.le_succ _))
      have h2 : (2 : Rat) ≤ (2 ^ F.fb : Nat) := by exact_mod_cast (Nat.pow_le_pow_right two_pos hf : 2 ^ 1 ≤ 2 ^ F.fb)
      rw [Nat.zero_mul, Nat.zero_add, Nat.cast_zero, add_zero] at this
      rw [this, F.magnitude_one]
      exact mul_le_mul_of_nonneg_right h2 (two_zpow_pos _).le
    have : x ≤ F.magnitude (2 ^ F.fb) - F.magnitude 1 / 2 := by
      rw [F.magnitude_one] at h2 ⊢
      linarith
    simp [FFmt.tinyRat, this]
  have hne : decide (x = F.magnitude 0) = false := by simpa using h0.ne'
  have hval (b : Bool) : ¬ F.maxCode < if b then 0 + 1 else 0 := by split <;> omega
  rw [FFmt.roundsTo_iff (by rw [F.magnitude_zero]; exact h0.le) hx1, FFmt.roundAbove]
  simp only [hne, haway, htiny, Bool.not_false, Bool.true_and, hval, if_false, if_true, Bool.false_eq_true, Nat.zero_add]

end

end Sys2Proof.Machine
end

section
/-! PROOFS. The sign forms, FCLASS, FSCALE, FCMP and FDOT2 (R129, R130, R138 to R142, R152). -/

namespace Sys2Proof.Machine

/-! Signs and classes (R138, R139). -/

/-- An element's sign is its top bit. -/
theorem signOf_eq_testBit (F : FFmt) {y : Nat} (hy : y < 2 ^ F.bits) : signOf F y = y.testBit (F.bits - 1) := by
  have hb : F.bits - 1 = F.eb + F.fb := by rw [FFmt.bits]; omega
  have hlt : y % 2 ^ (F.eb + F.fb) < 2 ^ (F.eb + F.fb) := Nat.mod_lt _ (by positivity)
  have hy := F.eq_sign_add hy
  rw [hb, signOf, FFmt.signBit]
  cases hbit : y.testBit (F.eb + F.fb) <;> rw [hbit] at hy <;> simp at hy ⊢ <;> omega

theorem withSign_eq (F : FFmt) (g : Bool) (y : Nat) :
    withSign F g y = y % 2 ^ (F.bits - 1) + if g then 2 ^ (F.bits - 1) else 0 := by
  rw [show F.bits - 1 = F.eb + F.fb by rw [FFmt.bits]; omega]
  rfl

/-- The class bit by the fields of a code (R139). -/
theorem FFmt.Ieee.classBit_eq {G : FFmt} (hG : G.Ieee) (y : Nat) :
    let neg := y.testBit (G.eb + G.fb)
    let ex := y / 2 ^ G.fb % 2 ^ G.eb
    let fr := y % 2 ^ G.fb
    classBit G y =
      if ex = 2 ^ G.eb - 1 then (if fr = 0 then (if neg then 0 else 7) else if fr < 2 ^ (G.fb - 1) then 8 else 9)
      else if ex = 0 then (if fr = 0 then (if neg then 3 else 4) else if neg then 2 else 5)
      else if neg then 1 else 6 := by
  intro neg ex fr
  have hfr : bitsOf y 0 G.fb = fr := by rw [bitsOf, pow_zero, Nat.div_one]
  have hlt : fr < 2 ^ G.fb := Nat.mod_lt _ (by positivity)
  have hquiet : (bitsOf fr (G.fb - 1) 1 == 0) = decide (fr < 2 ^ (G.fb - 1)) := by
    have hp : 2 ^ G.fb = 2 * 2 ^ (G.fb - 1) := by
      rw [← pow_succ', Nat.sub_add_cancel (by linarith [hG.fb_pos])]
    have hdiv : fr / 2 ^ (G.fb - 1) < 2 := by
      rw [Nat.div_lt_iff_lt_mul (by positivity)]
      omega
    rw [bitsOf, pow_one, Nat.mod_eq_of_lt hdiv, Bool.eq_iff_iff, beq_iff_eq, decide_eq_true_eq, Nat.div_eq_zero_iff]
    simp
  have hdec : G.decode y = if ex = 2 ^ G.eb - 1 then (if fr = 0 then .inf neg else .nan (decide (fr < 2 ^ (G.fb - 1))))
      else if ex = 0 then .fin neg fr G.emin else .fin neg (2 ^ G.fb + fr) (G.emin + ex - 1) := by
    rw [FFmt.decode]
    simp only [hG.inf, hfr, hG.signalling, hquiet, bitsOf_one]
    simp [bitsOf, ex, neg]
  rw [classBit, hdec]
  by_cases h1 : ex = 2 ^ G.eb - 1
  · simp only [h1, if_true]
    by_cases h2 : fr = 0
    · simp [h2]
    · by_cases h3 : fr < 2 ^ (G.fb - 1) <;> simp [h2, h3]
  · by_cases h2 : ex = 0
    · have h0 : (0 : Nat) ≠ 2 ^ G.eb - 1 := h2 ▸ h1
      by_cases h3 : fr = 0 <;> simp [h0, h2, h3, hlt]
    · simp [h1, h2]

/-! The conditions (R141). -/

theorem FVal.isNan_of_isSnan {v : FVal} (h : v.isSnan = true) : v.isNan = true := by
  cases v <;> trivial

/-- Each condition by the order of the values. -/
theorem FCond.holds_eq (y z : FVal) {below : FVal → FVal → Bool}
    (hb : ∀ v u : FVal, v.isNan = false → u.isNan = false → v.lt u = below v u) :
    let un := y.isNan || z.isNan
    let sn := if y.isSnan || z.isSnan then flNV else 0
    let qn := if un then flNV else 0
    FCond.holds .eq y z = (!un && !below y z && !below z y, sn) ∧ FCond.holds .ne y z = (un || below y z || below z y, sn) ∧
    FCond.holds .lt y z = (!un && below y z, qn) ∧ FCond.holds .le y z = (!un && !below z y, qn) ∧
    FCond.holds .gt y z = (!un && below z y, qn) ∧ FCond.holds .ge y z = (!un && !below y z, qn) ∧
    FCond.holds .un y z = (un, sn) ∧ FCond.holds .ord y z = (!un, sn) := by
  intro un sn qn
  have hq : (un || y.isSnan || z.isSnan) = un := by
    have hy := FVal.isNan_of_isSnan (v := y)
    have hz := FVal.isNan_of_isSnan (v := z)
    cases h1 : y.isSnan <;> cases h2 : z.isSnan <;> simp_all [un]
  have hfl (quiet : Bool) : (if un && !quiet || y.isSnan || z.isSnan then flNV else 0) = if quiet then sn else qn := by
    cases quiet with
    | false => rw [Bool.not_false, Bool.and_true, hq]; rfl
    | true => rw [Bool.not_true, Bool.and_false, Bool.false_or]; rfl
  simp only [FCond.holds, show (y.isNan || z.isNan) = un from rfl, hfl, if_true, Bool.false_eq_true, if_false]
  cases hun : un with
  | true => simp
  | false =>
    obtain ⟨hy, hz⟩ := Bool.or_eq_false_iff.1 hun
    simp [hb y z hy hz, hb z y hz hy]

/-! FSCALE (R140). -/

/-- FSCALE holds its exponent where every format has overflowed or vanished, so that RoundTo is that of the exact value. -/
theorem FFmt.Ieee.fScale_roundsTo {G : FFmt} (hG : G.Ieee) {y : Nat} {n : Bool} {m : Nat} {e : Int} (h : G.decode y = .fin n m e)
    (hm : m ≠ 0) (rm : Rm) (r : Nat) (N : Int) : G.RoundsTo rm r n (m * 2 ^ (e + N)) (fScale G rm r y N) := by
  have hf : 1 ≤ G.fb := by linarith [hG.fb_pos]
  have hround (M : Int) : G.RoundsTo rm r n (m * 2 ^ (e + M)) (G.round rm r n ⟨m, e + M, false⟩) :=
    G.ofVal_fin_roundsTo hf rm r n m (e + M)
  obtain ⟨hlo, hhi⟩ := hG.finite_bounds h hm
  have hemin : G.emin = 1 - (G.bias : Int) - G.fb := rfl
  have hbias := hG.bias_le
  have hfb := hG.fb_le
  have hover {M : Int} (hM : 5000 ≤ M) : G.magnitude (G.maxCode + 1) ≤ m * 2 ^ (e + M) := by
    calc G.magnitude (G.maxCode + 1) = 2 ^ ((G.bias : Int) + 1) := hG.magnitude_maxCode_succ
      _ ≤ 2 ^ (G.emin + M) := zpow_le_zpow_right₀ one_le_two (by omega)
      _ ≤ m * 2 ^ e * 2 ^ M := by
        rw [zpow_add₀ two_ne_zero]
        exact mul_le_mul_of_nonneg_right hlo (two_zpow_pos M).le
      _ = m * 2 ^ (e + M) := by rw [zpow_add₀ two_ne_zero, mul_assoc]
  have hunder {M : Int} (hM : M ≤ -5000) : (m : Rat) * 2 ^ (e + M) * 2 ^ 25 ≤ 2 ^ G.emin := by
    calc (m : Rat) * 2 ^ (e + M) * 2 ^ 25 = m * 2 ^ e * (2 ^ M * 2 ^ (25 : Int)) := by
          rw [zpow_add₀ two_ne_zero]
          norm_cast
          ring
      _ ≤ 2 ^ ((G.bias : Int) + 1) * (2 ^ M * 2 ^ (25 : Int)) := mul_le_mul_of_nonneg_right hhi.le (by positivity)
      _ = 2 ^ ((G.bias : Int) + 1 + (M + 25)) := by rw [← zpow_add₀ two_ne_zero, ← zpow_add₀ two_ne_zero]
      _ ≤ 2 ^ G.emin := zpow_le_zpow_right₀ one_le_two (by omega)
  have hpos (M : Int) : 0 < (m : Rat) * 2 ^ (e + M) := by positivity
  rw [fScale, h]
  dsimp only
  rw [if_neg hm]
  rcases lt_trichotomy N (-5000) with hN | hN | hN
  · rw [show max (-5000) (min 5000 N) = -5000 by omega]
    have hmax := hG.one_le_maxCode
    exact (FFmt.roundsTo_iff_underflow hf hmax (hpos _) (hunder hN.le)).2
      ((FFmt.roundsTo_iff_underflow hf hmax (hpos _) (hunder le_rfl)).1 (hround _))
  · rw [show max (-5000) (min 5000 N) = N by omega]
    exact hround N
  · by_cases hN' : N ≤ 5000
    · rw [show max (-5000) (min 5000 N) = N by omega]
      exact hround N
    · rw [show max (-5000) (min 5000 N) = 5000 by omega]
      exact (hround _).of_overflow (hround N) (hover le_rfl) (hover (by omega))

/-! FDOT2's sum (R142). -/

theorem elemOf_one (w v : Nat) : elemOf w 1 v = v / 2 ^ w % 2 ^ w := by simp [elemOf, bitsOf]

/-- The sum of finite values is finite, exact and raises nothing. -/
theorem dot2_fin (G : FFmt) (rm : Rm) {x y z : Nat} {n n0 n1 k0 k1 : Bool} {m m0 m1 p0 p1 : Nat} {e e0 e1 q0 q1 : Int}
    (hz : f32F.decode z = .fin n m e) (hx0 : G.decode (x % 2 ^ 16) = .fin n0 m0 e0)
    (hx1 : G.decode (x / 2 ^ 16 % 2 ^ 16) = .fin n1 m1 e1) (hy0 : G.decode (y % 2 ^ 16) = .fin k0 p0 q0)
    (hy1 : G.decode (y / 2 ^ 16 % 2 ^ 16) = .fin k1 p1 q1) :
    ∃ nz mz ez, dot2 G rm z x y = (.fin nz mz ez, 0) ∧
      ratOf nz mz ez = ratOf n m e + ratOf n0 m0 e0 * ratOf k0 p0 q0 + ratOf n1 m1 e1 * ratOf k1 p1 q1 := by
  obtain ⟨na, ma, ea, ha, hra, -⟩ := FVal.add_fin rm n (n0 != k0) m (m0 * p0) e (e0 + q0)
  obtain ⟨nb, mb, eb, hb, hrb, -⟩ := FVal.add_fin rm na (n1 != k1) ma (m1 * p1) ea (e1 + q1)
  refine ⟨nb, mb, eb, ?_, by rw [hrb, hra, ratOf_mul, ratOf_mul]⟩
  simp only [dot2, elemOf_zero, elemOf_one, hz, hx0, hx1, hy0, hy1, FVal.mul_fin, ha, hb]
  rfl

/-! The instructions. -/

/-- Vector operands that fit, and further registers below the allotment, raise neither UNDEF nor REGBOUND. -/
theorem State.firstCause_vform_and {s : State} {i : Instr} {t : Ty} {reads writes : List Reg} {f : Form}
    (ho : s.warp.outstanding = []) (hf : s.fits t (reads ++ writes))
    (hu : f.undef = (s.vform true t .s reads writes []).undef)
    (hr : ∀ k ∈ f.use.vr ++ f.use.vw, k < s.warp.allot ∨
      k ∈ (s.vform true t .s reads writes []).use.vr ++ (s.vform true t .s reads writes []).use.vw)
    (ht : f.badType = false) : s.firstCause i f = none := by
  refine s.firstCause_none i f ho ?_ (fun k hk => (hr k hk).elim id fun hk => ?_) ht
  · rw [hu, State.vform]
    simp only [Bool.true_and, if_true, List.any_eq_false]
    exact fun r h => by simp [(hf r h).1]
  · simp only [State.vform, if_true, List.mem_append, List.mem_flatMap] at hk
    obtain ⟨r, h, hk⟩ | ⟨r, h, hk⟩ := hk <;> exact lt_of_mem_span (hf r (by simp [h])).2 hk

/-- Of the results only the flags count for FPE and FFLAGS, beside what is written (R152). -/
theorem State.floats_congr {s : State} {i : Instr} {rm : Rm} {k : Nat} {r r' : Lane → List (Nat × Nat)} {W : Warp → Warp}
    (h : s.floats i rm k r W) (hr : ∀ l, (r l).map (·.2) = (r' l).map (·.2)) : s.floats i rm k r' W := by
  have : s.raised r = s.raised r' := by
    unfold State.raised
    congr 1
    funext n l
    have := congrArg (List.foldl (· ||| ·) n) (hr l)
    rwa [List.foldl_map, List.foldl_map] at this
  unfold State.floats at h ⊢
  rwa [this] at h

theorem elemOf_toNat (x : Word) (w e : Nat) : elemOf w e x.toNat = (BitVec.extractLsb' (w * e) w x).toNat := by
  rw [BitVec.extractLsb'_toNat, Nat.shiftRight_eq_div_pow]
  rfl

/-- What FCLASS computes in a lane (R139). -/
def fclassLane (t : Ty) (a : Reg) (w : Warp) : LaneOp := fun l _ => (List.range t.elems).map fun e =>
  (2 ^ classBit (tyFmt t) (elemOf (tyFmt t).bits e (w.vNat a t.regs l)), 0)

theorem State.fclass_floatsTo {s : State} {d a : Reg} (h : s.clearFor false) :
    let t := s.warp.ty .f32
    Ty.arith t = true → s.fits t [a] → s.within [d] → s.floatsTo (.fclass d a) d 1 16 .rne 0 fun l =>
      (List.range t.elems).map fun e => (2 ^ classBit (tyFmt t) (elemOf (tyFmt t).bits e (s.warp.vNat a t.regs l)), 0) := by
  intro t ht hf hd
  refine s.floatOp_floatsTo _ _ .rne 0 (fclassLane t a) d 1 16 h rfl ?_ rfl
  rw [show Ty.arith (s.warp.ty .f32) = true from ht]
  refine State.firstCause_vform_and (reads := [a]) (writes := []) h.2 hf rfl (fun k hk => ?_) rfl
  obtain hk | hk := List.mem_append.1 hk
  · exact .inr (List.mem_append_left _ hk)
  · rw [List.mem_singleton.1 hk]
    exact .inl (hd d (List.mem_singleton_self d))

/-- What FSCALE computes in a lane (R140). -/
def fscaleLane (t : Ty) (rm : Rm) (a b : Reg) (w : Warp) : LaneOp := fun l draw => (List.range t.elems).map fun e =>
  fScale (tyFmt t) rm (draw e) (elemOf (tyFmt t).bits e (w.vNat a t.regs l))
    (if t.elems = 1 then (w.v b l).toInt else signedOf 16 (elemOf 16 e (w.v b l).toNat))

theorem State.fscale_floatsTo {s : State} {d a b : Reg} (h : s.clearFor false) :
    let t := s.warp.ty .f32
    let F := tyFmt t
    let rm := s.warp.rm .dflt
    Ty.arith t = true → s.fits t [a, d] → s.within [b] → s.floatsTo (.fscale d a b) d t.regs F.bits rm t.elems fun l =>
      (List.range t.elems).map fun e => fScale F rm (s.draw rm l e) (elemOf F.bits e (s.warp.vNat a t.regs l))
        (if t.elems = 1 then (s.warp.v b l).toInt else (BitVec.extractLsb' (16 * e) 16 (s.warp.v b l)).toInt) := by
  intro t F rm ht hf hb
  simp only [← signedOf_toNat (BitVec.extractLsb' _ 16 _), ← elemOf_toNat]
  refine s.floatOp_floatsTo _ _ rm t.elems (fscaleLane t rm a b) d t.regs F.bits h rfl ?_ rfl
  rw [show Ty.arith (s.warp.ty .f32) = true from ht]
  refine State.firstCause_vform_and (reads := [a]) (writes := [d]) h.2 hf rfl (fun k hk => ?_) rfl
  obtain rfl | hk := List.mem_cons.1 hk
  · exact .inl (hb b (List.mem_singleton_self b))
  · exact .inr hk

/-- What FCMP computes in a lane: its outcome as a number, and the flags (R141). -/
def fcmpLane (t : Ty) (c : FCond) (a b : Reg) (w : Warp) : LaneOp := fun l _ =>
  let o := FCond.holds c ((tyFmt t).decode (w.vNat a t.regs l)) ((tyFmt t).decode (w.vNat b t.regs l))
  [(if o.1 then 1 else 0, o.2)]

theorem State.fcmp_floats {s : State} {p : PReg} {a b : Reg} {c : FCond} (h : s.clearFor false) :
    let t := s.warp.ty .f32
    t = .f32 ∨ t = .f64 → s.fits t [a, b] →
      let o (l : Lane) : Bool × Nat :=
        FCond.holds c ((tyFmt t).decode (s.warp.vNat a t.regs l)) ((tyFmt t).decode (s.warp.vNat b t.regs l))
      ∃ m : LaneMask, (∀ l : Lane, s.warp.guarded.getLsbD l.val = true → m.getLsbD l.val = (o l).1) ∧
        s.floats (.fcmp p a b c) .rne 0 (fun l => [(0, (o l).2)]) fun w => w.setP p s.warp.guarded m := by
  intro t ht hf o
  have hok : (t == .f32 || t == .f64) = true := by simpa using ht
  refine ⟨LaneMask.ofFn fun l => (laneResults s.hdr s.warp (Rm.rne == .sr) (fcmpLane t c a b s.warp))[l].any (·.1 == 1),
    fun l hl => ?_, State.floats_congr
      (s.floatOp_floats _ _ .rne 0 (fcmpLane t c a b) _ _ h rfl ?_ rfl rfl ?_ ?_ ?_ ?_ ?_ ?_ ?_) fun l => rfl⟩
  · rw [LaneMask.getLsbD_ofFn, laneResults_get s .rne _ l hl]
    show ((if (o l).1 then 1 else 0) == 1 || false) = (o l).1
    cases (o l).1 <;> rfl
  · rw [show (s.warp.ty .f32 == .f32 || s.warp.ty .f32 == .f64) = true from hok]
    exact s.vform_none _ t .s [a, b] [] [] _ h.2 hf rfl rfl rfl rfl
  all_goals simp

/-- What FDOT2 computes in a lane (R142). -/
def fdot2Lane (t : Ty) (rm : Rm) (d a b : Reg) (w : Warp) : LaneOp := fun l draw =>
  [f32F.finish rm (draw 0) (dot2 (tyFmt t) rm (w.v d l).toNat (w.v a l).toNat (w.v b l).toNat)]

theorem State.fdot2_floatsTo {s : State} {d a b : Reg} {x : Rm} (h : s.clearFor false) :
    let t := s.warp.ty .f32
    let rm := s.warp.rm x
    t = .f16x2 ∨ t = .bf16x2 → s.within [a, b, d] → s.floatsTo (.fdot2 d a b x) d 1 32 rm 1 fun l =>
      [f32F.finish rm (s.draw rm l 0) (dot2 (tyFmt t) rm (s.warp.v d l).toNat (s.warp.v a l).toNat (s.warp.v b l).toNat)] := by
  intro t rm ht hr
  have hok : (t == .f16x2 || t == .bf16x2) = true := by simpa using ht
  have hregs : t.regs = 1 := by rcases ht with h | h <;> rw [h] <;> rfl
  refine s.floatOp_floatsTo _ _ rm 1 (fdot2Lane t rm d a b) d 1 32 h rfl ?_ rfl
  rw [show (s.warp.ty .f32 == .f16x2 || s.warp.ty .f32 == .bf16x2) = true from hok]
  refine s.vform_none _ t .s [a, b, d] [d] [] _ h.2 (s.fits_of_within t _ hregs fun r hr' => hr r ?_) rfl rfl rfl rfl
  simpa using hr'

/-- A sign form's element operation: `g` gives the sign from the elements of a and b (R138). -/
def fSign (g : FFmt → Nat → Nat → Bool) : FOp := fun f _ _ _ x y => (withSign f (g f x y) x, 0)

/-- Settles O20: each instruction by its form, then its element by the fields of the code, the order of the values, or RoundTo. -/
theorem floatSignClassScaleCompareResults : Obligations.FloatSignClassScaleCompareResults := by
  intro s d a b p c x h t F el sign signed quiet
  have hsign (r : Reg) (l : Lane) (e : Nat) : signOf F (el r l e) = sign (el r l e) := signOf_eq_testBit F (elemOf_lt _ _ _)
  have form {reads : List Reg} (i : Instr) (b : Reg) (g : FFmt → Nat → Nat → Bool) (ht : Ty.isFloat t = true)
      (hf : s.fits t (reads ++ [d])) (he : exec i s = .next (s.fpu i Ty.isFloat .rne false reads d a b (fSign g))) :
      quiet i fun l e => signed (g F (el a l e) (el b l e)) (el a l e) := by
    have := State.fpu_floatsTo he h ht hf
    simp only [FOp.lane, fSign, withSign_eq] at this
    exact this
  refine ⟨fun ht hf => ⟨?_, ?_⟩, fun ht hf => ⟨?_, ?_⟩, State.fclass_floatsTo h, State.fscale_floatsTo h, State.fcmp_floats h,
    State.fdot2_floatsTo h, fun G hG y _ => (ieee_of_mem hG).classBit_eq y, fun y z => ?_, fun G hG rm r y N _ => ?_,
    fun G _ rm x y z n m e n0 m0 e0 n1 m1 e1 k0 p0 q0 k1 p1 q1 hz hx0 hx1 hy0 hy1 => dot2_fin G rm hz hx0 hx1 hy0 hy1⟩
  · simp only [← hsign]
    exact form (reads := [a, b]) (.fsgnj d a b) b (fun f _ y => signOf f y) ht hf rfl
  · simp only [← hsign]
    exact form (reads := [a, b]) (.fsgnjn d a b) b (fun f _ y => !signOf f y) ht hf rfl
  · exact form (reads := [a]) (.fabs d a) a (fun _ _ _ => false) ht hf rfl
  · simp only [← hsign]
    exact form (reads := [a]) (.fneg d a) a (fun f y _ => !signOf f y) ht hf rfl
  · intro key below
    refine FCond.holds_eq y z fun v u hv hu => (FVal.lt_eq_below hv hu).trans ?_
    cases v <;> cases u <;> rfl
  · split
    · next sig h => simp [fScale, h]
    · next n h => simp [fScale, h]
    · next n m e h =>
      by_cases hm : m = 0
      · simp [fScale, h, hm]
      · rw [if_neg hm]
        exact (ieee_of_mem hG).fScale_roundsTo h hm rm r N

end Sys2Proof.Machine
end

section
/-! PROOFS. Quotients and roots as magnitudes: what the model encloses them between (R143, R145). -/

namespace Sys2Proof.Machine

/-! The integer square root. -/

theorem isqrtStep_spec (k n r : Nat) (hlo : r * r ≤ n) (hhi : n < (r + 2 ^ k) * (r + 2 ^ k)) :
    isqrtStep k n r * isqrtStep k n r ≤ n ∧ n < (isqrtStep k n r + 1) * (isqrtStep k n r + 1) := by
  induction k generalizing r with
  | zero => exact ⟨hlo, hhi⟩
  | succ k ih =>
    rw [isqrtStep]
    split
    · next h => exact ih _ h (by rwa [pow_succ, mul_two, ← add_assoc] at hhi)
    · next h => exact ih _ hlo (not_le.1 h)

theorem isqrt_spec (n : Nat) : isqrt n * isqrt n ≤ n ∧ n < (isqrt n + 1) * (isqrt n + 1) := by
  refine isqrtStep_spec _ n 0 (Nat.zero_le n) ?_
  rw [Nat.zero_add, ← pow_add]
  exact Nat.lt_log2_self.trans_le (Nat.pow_le_pow_right two_pos (by unfold floorLog2; omega))

theorem le_isqrt {a n : Nat} (h : a * a ≤ n) : a ≤ isqrt n := by
  by_contra hn
  have : (isqrt n + 1) * (isqrt n + 1) ≤ a * a := Nat.mul_le_mul (by omega) (by omega)
  have := (isqrt_spec n).2
  omega

/-! Quotients. -/

theorem lt_two_pow_floorLog2 (m : Nat) : m < 2 ^ (floorLog2 m + 1) := Nat.lt_log2_self

/-- The division keeps its remainder as what lies beyond the quotient. -/
theorem divMag_holds (m1 : Nat) (e1 : Int) {m2 : Nat} (e2 : Int) (h : m2 ≠ 0) :
    (divMag m1 e1 m2 e2).Holds (m1 * 2 ^ e1 / (m2 * 2 ^ e2)) := by
  have hpos : (0 : Rat) < m2 := by exact_mod_cast Nat.pos_of_ne_zero h
  unfold divMag
  generalize 200 + floorLog2 m2 = k
  have hdm : (m2 : Rat) * (m1 * 2 ^ k / m2 : Nat) + (m1 * 2 ^ k % m2 : Nat) = m1 * 2 ^ k := by
    exact_mod_cast Nat.div_add_mod (m1 * 2 ^ k) m2
  have hlt : ((m1 * 2 ^ k % m2 : Nat) : Rat) < m2 := by exact_mod_cast Nat.mod_lt _ (Nat.pos_of_ne_zero h)
  have hval : (m1 : Rat) * 2 ^ e1 / (m2 * 2 ^ e2) = m1 * 2 ^ k / m2 * 2 ^ (e1 - e2 - k) := by
    rw [zpow_sub₀ two_ne_zero, zpow_sub₀ two_ne_zero, zpow_natCast]
    field_simp
  have hu := two_zpow_pos (e1 - e2 - k)
  rw [hval, ← hdm]
  refine ⟨fun hr => ?_, fun hr => ?_, fun _ => ?_⟩
  · have hr : m1 * 2 ^ k % m2 = 0 := by simpa using hr
    rw [hr, Nat.cast_zero, add_zero, mul_div_cancel_left₀ _ hpos.ne']
  · have hr : (0 : Rat) < (m1 * 2 ^ k % m2 : Nat) := by exact_mod_cast Nat.pos_of_ne_zero (by simpa using hr)
    refine mul_lt_mul_of_pos_right ?_ hu
    rw [lt_div_iff₀ hpos]
    linarith
  · refine mul_lt_mul_of_pos_right ?_ hu
    rw [div_lt_iff₀ hpos]
    linarith

theorem le_divMag_m {m1 m2 : Nat} (e1 e2 : Int) (h1 : m1 ≠ 0) (h2 : m2 ≠ 0) : 2 ^ 100 ≤ (divMag m1 e1 m2 e2).m := by
  refine (Nat.le_div_iff_mul_le (Nat.pos_of_ne_zero h2)).2 ?_
  calc 2 ^ 100 * m2 ≤ 2 ^ 100 * 2 ^ (floorLog2 m2 + 1) := Nat.mul_le_mul_left _ (lt_two_pow_floorLog2 m2).le
    _ = 2 ^ (100 + (floorLog2 m2 + 1)) := (pow_add ..).symm
    _ ≤ 2 ^ (200 + floorLog2 m2) := Nat.pow_le_pow_right two_pos (by omega)
    _ ≤ m1 * 2 ^ (200 + floorLog2 m2) := Nat.le_mul_of_pos_left _ (Nat.pos_of_ne_zero h1)

/-- RoundTo of a magnitude given to a hundred bits and beyond. -/
theorem FFmt.Ieee.round_roundsTo {F : FFmt} (hF : F.Ieee) {x : Mag} {v : Rat} (h : x.Holds v) (hm : 2 ^ 100 ≤ x.m) (rm : Rm)
    (r : Nat) (neg : Bool) : F.RoundsTo rm r neg v (F.round rm r neg x) := by
  have hne : x.m ≠ 0 := (lt_of_lt_of_le (by positivity) hm).ne'
  have hlog : 100 ≤ floorLog2 x.m := (Nat.le_log2 hne).2 hm
  have hfb := hF.fb_le
  exact F.round_roundsTo (by linarith [hF.fb_pos]) h hne rm r neg fun _ => by rw [Mag.top]; omega

/-- FRCP and FDIV of finite nonzero values give RoundTo of the exact quotient (R143, R145). -/
theorem FFmt.Ieee.divMag_roundsTo {F : FFmt} (hF : F.Ieee) (rm : Rm) (r : Nat) (neg : Bool) {m1 m2 : Nat} (e1 e2 : Int)
    (h1 : m1 ≠ 0) (h2 : m2 ≠ 0) :
    F.RoundsTo rm r neg (m1 * 2 ^ e1 / (m2 * 2 ^ e2)) (F.round rm r neg (divMag m1 e1 m2 e2)) :=
  hF.round_roundsTo (divMag_holds m1 e1 e2 h2) (le_divMag_m e1 e2 h1 h2) rm r neg

/-! Roots, by their squares. -/

/-- `x` stands for the square root of `v`. -/
structure Mag.HoldsRoot (x : Mag) (v : Rat) : Prop where
  exact_eq : x.more = false → (x.m * 2 ^ x.e) ^ 2 = v
  above : x.more = true → (x.m * 2 ^ x.e) ^ 2 < v
  below : x.more = true → v < ((x.m + 1) * 2 ^ x.e) ^ 2

theorem Mag.holdsRoot_of_units {s : Nat} {E : Int} {more : Bool} {v t : Rat} (hv : v = t * (2 ^ E) ^ 2)
    (he : more = false → (s : Rat) ^ 2 = t) (ha : more = true → (s : Rat) ^ 2 < t) (hb : t < (s + 1) ^ 2) :
    (Mag.mk s E more).HoldsRoot v := by
  have hu : (0 : Rat) < (2 ^ E) ^ 2 := by positivity
  subst hv
  refine ⟨fun h => ?_, fun h => ?_, fun _ => ?_⟩ <;> rw [mul_pow]
  · rw [← he h]
  · exact mul_lt_mul_of_pos_right (ha h) hu
  · exact mul_lt_mul_of_pos_right hb hu

theorem zpow_half_sq {a : Int} (h : a % 2 = 0) : ((2 : Rat) ^ (a / 2)) ^ 2 = 2 ^ a := by
  rw [← zpow_natCast, ← zpow_mul]
  congr 1
  push_cast
  omega

theorem sqrtMag_holdsRoot (m : Nat) (e : Int) : (sqrtMag m e).HoldsRoot (m * 2 ^ e) := by
  unfold sqrtMag
  generalize hk : 400 + (if (e - 400) % 2 = 0 then 0 else 1) = k
  have hpar : (e - (k : Nat)) % 2 = 0 := by split at hk <;> omega
  obtain ⟨hlo, hhi⟩ := isqrt_spec (m * 2 ^ k)
  refine Mag.holdsRoot_of_units (t := (m * 2 ^ k : Nat)) ?_ (fun h => ?_) (fun h => ?_) ?_
  · rw [zpow_half_sq hpar, zpow_sub₀ two_ne_zero, zpow_natCast]
    push_cast
    field_simp
  · rw [pow_two]
    exact_mod_cast (by simpa using h : isqrt (m * 2 ^ k) * isqrt (m * 2 ^ k) = m * 2 ^ k)
  · rw [pow_two]
    exact_mod_cast lt_of_le_of_ne hlo (by simpa using h)
  · rw [pow_two]
    exact_mod_cast hhi

theorem le_sqrtMag_m {m : Nat} (e : Int) (h : m ≠ 0) : 2 ^ 100 ≤ (sqrtMag m e).m := by
  refine le_isqrt ?_
  rw [← pow_add]
  exact (Nat.pow_le_pow_right two_pos (by omega)).trans (Nat.le_mul_of_pos_left _ (Nat.pos_of_ne_zero h))

/-- A square times an odd power of two is no power of two of even exponent: what the model excludes before it takes rsqMag. -/
theorem sq_mul_ne_two_pow {s m k : Nat} (h : ∀ a, m = 2 ^ a → (k + a) % 2 = 1) : s * s * m ≠ 2 ^ k := by
  intro he
  obtain ⟨a, -, ha⟩ := (Nat.dvd_prime_pow Nat.prime_two).1 (he ▸ Dvd.intro_left (s * s) rfl : m ∣ 2 ^ k)
  obtain ⟨b, -, hb⟩ := (Nat.dvd_prime_pow Nat.prime_two).1 (he ▸ Dvd.intro (s * m) (by ring) : s ∣ 2 ^ k)
  rw [ha, hb, ← pow_add, ← pow_add] at he
  have := Nat.pow_right_injective le_rfl he
  have := h a ha
  omega

theorem rsqMag_holdsRoot {m : Nat} (e : Int) (h : m ≠ 0) (hodd : m = 2 ^ floorLog2 m → (e + floorLog2 m) % 2 = 1) :
    (rsqMag m e).HoldsRoot (1 / (m * 2 ^ e)) := by
  unfold rsqMag
  dsimp only
  generalize hk : 400 + floorLog2 m + (if (e + floorLog2 m) % 2 = 0 then 0 else 1) = k
  have hpar : (-e - (k : Nat)) % 2 = 0 := by split at hk <;> omega
  obtain ⟨hlo, hhi⟩ := isqrt_spec (2 ^ k / m)
  have hm : (0 : Rat) < m := by exact_mod_cast Nat.pos_of_ne_zero h
  have hne : isqrt (2 ^ k / m) * isqrt (2 ^ k / m) * m ≠ 2 ^ k := sq_mul_ne_two_pow fun a ha => by
    have hlog : floorLog2 m = a := by rw [ha]; exact Nat.log2_two_pow
    have := hodd (by rw [hlog]; exact ha)
    rw [hlog] at this hk
    split at hk <;> omega
  rw [Nat.le_div_iff_mul_le (Nat.pos_of_ne_zero h)] at hlo
  rw [Nat.div_lt_iff_lt_mul (Nat.pos_of_ne_zero h)] at hhi
  refine Mag.holdsRoot_of_units (t := (2 ^ k : Nat) / m) ?_ nofun (fun _ => ?_) ?_
  · rw [zpow_half_sq hpar, zpow_sub₀ two_ne_zero, zpow_natCast, zpow_neg]
    push_cast
    field_simp
  · rw [pow_two, lt_div_iff₀ hm]
    exact_mod_cast lt_of_le_of_ne hlo hne
  · rw [pow_two, div_lt_iff₀ hm]
    exact_mod_cast hhi

theorem le_rsqMag_m {m : Nat} (e : Int) (h : m ≠ 0) : 2 ^ 100 ≤ (rsqMag m e).m := by
  refine le_isqrt ((Nat.le_div_iff_mul_le (Nat.pos_of_ne_zero h)).2 ?_)
  calc 2 ^ 100 * 2 ^ 100 * m ≤ 2 ^ 100 * 2 ^ 100 * 2 ^ (floorLog2 m + 1) := Nat.mul_le_mul_left _ (lt_two_pow_floorLog2 m).le
    _ = 2 ^ (100 + 100 + (floorLog2 m + 1)) := by rw [← pow_add, ← pow_add]
    _ ≤ _ := Nat.pow_le_pow_right two_pos (by omega)

end Sys2Proof.Machine
end

section
/-! PROOFS. RoundTo of a root: what is known of a value by its comparisons with the multiples of a unit decides its rounding (R90,
R91, R143). -/

namespace Sys2Proof.Machine

/-- `w` stands to every multiple of the unit `u` as the square root of `v` does. -/
structure IsRootBy (u w v : Rat) : Prop where
  le_iff : ∀ j : Nat, j * u ≤ w ↔ (j * u) ^ 2 ≤ v
  eq_iff : ∀ j : Nat, j * u = w ↔ (j * u) ^ 2 = v

theorem IsRootBy.lt_iff {u w v : Rat} (h : IsRootBy u w v) (j : Nat) : j * u < w ↔ (j * u) ^ 2 < v := by
  rw [lt_iff_le_and_ne, lt_iff_le_and_ne, h.le_iff, Ne, h.eq_iff]

theorem IsRootBy.of_sq {u w : Rat} (hu : 0 < u) (hw : 0 ≤ w) : IsRootBy u w (w ^ 2) :=
  ⟨fun j => (pow_le_pow_iff_left₀ (by positivity) hw two_ne_zero).symm,
    fun j => (pow_left_inj₀ (by positivity) hw two_ne_zero).symm⟩

/-- A magnitude and the root that it stands for have one such value. -/
theorem Mag.HoldsRoot.exists_isRootBy {x : Mag} {v : Rat} (h : x.HoldsRoot v) : ∃ w, x.Holds w ∧ IsRootBy (2 ^ x.e) w v := by
  have hu := two_zpow_pos x.e
  cases hm : x.more with
  | false => 
    refine ⟨x.m * 2 ^ x.e, ⟨fun _ => rfl, by simp [hm], by simp [hm]⟩, ?_⟩
    rw [← h.exact_eq hm]
    exact IsRootBy.of_sq hu (by positivity)
  | true =>
    have ha := h.above hm
    have hb := h.below hm
    have hle {j : Nat} : j ≤ x.m ∨ x.m + 1 ≤ j := by omega
    refine ⟨(x.m + 1 / 2) * 2 ^ x.e, ⟨by simp [hm], fun _ => ?_, fun _ => ?_⟩, fun j => ?_, fun j => ?_⟩
    · nlinarith
    · nlinarith
    all_goals
      have hsq {a b : Rat} (h0 : 0 ≤ a) (hab : a ≤ b) : (a * 2 ^ x.e) ^ 2 ≤ (b * 2 ^ x.e) ^ 2 :=
        pow_le_pow_left₀ (by positivity) (mul_le_mul_of_nonneg_right hab hu.le) 2
      rcases hle (j := j) with hj | hj
    · have hj : (j : Rat) ≤ x.m := by exact_mod_cast hj
      exact iff_of_true (by nlinarith) ((hsq (by positivity) hj).trans ha.le)
    · have hj : (x.m : Rat) + 1 ≤ j := by exact_mod_cast hj
      exact iff_of_false (by nlinarith) (by linarith [hsq (by positivity) hj])
    · have hj : (j : Rat) ≤ x.m := by exact_mod_cast hj
      exact iff_of_false (by nlinarith) (by linarith [hsq (by positivity) hj])
    · have hj : (x.m : Rat) + 1 ≤ j := by exact_mod_cast hj
      exact iff_of_false (by nlinarith) (by linarith [hsq (by positivity) hj])

/-- Which neighbour a mode chooses for a root, by squares (R90, R91). -/
def rootRoundsAway (rm : Rm) (odd : Bool) (lo hi v : Rat) (r : Nat) : Bool :=
  match rm with
  | .dflt | .rne => decide ((lo + hi) ^ 2 < 4 * v) || (decide (4 * v = (lo + hi) ^ 2) && odd)
  | .rtz | .rdn => false
  | .rup => true
  | .rna => decide ((lo + hi) ^ 2 ≤ 4 * v)
  | .sr => decide ((lo + (hi - lo) * (1 - r / 2 ^ 24)) ^ 2 ≤ v)

/-- Between two neighbours whose place is 2^24 units or more, all that a mode compares a root with is a multiple of the unit. -/
theorem IsRootBy.roundsAway_eq {u w v : Rat} (h : IsRootBy u w v) (hu : 0 < u) (rm : Rm) (odd : Bool) (n i : Nat) {r : Nat}
    (hr : r < 2 ^ 24) :
    let p : Rat := 2 ^ (24 + i) * u
    roundsAway rm false odd (n * p) ((n + 1) * p) w r = rootRoundsAway rm odd (n * p) ((n + 1) * p) v r := by
  intro p
  have hp : 0 < p := by positivity
  obtain ⟨c, hc⟩ : ∃ c, r + c = 2 ^ 24 := ⟨2 ^ 24 - r, by omega⟩
  -- half way, and what SR rounds up from, in units
  let mid : Nat := (2 * n + 1) * 2 ^ (23 + i)
  let top : Nat := n * 2 ^ (24 + i) + c * 2 ^ i
  have hmid : n * p + (n + 1) * p = 2 * (mid * u) := by
    simp only [p, mid]
    push_cast
    ring
  have htop : n * p + ((n + 1) * p - n * p) * (1 - r / 2 ^ 24) = top * u := by
    have hc : (r : Rat) = 2 ^ 24 - c := eq_sub_of_add_eq (by exact_mod_cast hc)
    simp only [p, top, hc]
    push_cast
    ring
  have hsr : 2 ^ 24 ≤ ⌊(w - n * p) / ((n + 1) * p - n * p) * 2 ^ 24⌋ + (r : Int) ↔ top * u ≤ w := by
    rw [← htop, ← sub_le_iff_le_add, Int.le_floor, show (n + 1) * p - n * p = p by ring, div_mul_eq_mul_div, le_div_iff₀ hp]
    push_cast
    constructor <;> intro _ <;> linarith
  have hsq : (2 * ((mid : Rat) * u)) ^ 2 = 4 * (mid * u) ^ 2 := by ring
  cases rm with
  | dflt | rne =>
    have hlt : 2 * (mid * u) < 2 * w ↔ 4 * (mid * u) ^ 2 < 4 * v := by
      rw [mul_lt_mul_iff_right₀ two_pos, h.lt_iff, mul_lt_mul_iff_right₀ four_pos]
    have heq : 2 * w = 2 * (mid * u) ↔ 4 * v = 4 * (mid * u) ^ 2 := by
      rw [mul_right_inj' two_ne_zero, mul_right_inj' four_ne_zero, eq_comm, h.eq_iff, eq_comm]
    simp only [roundsAway, rootRoundsAway, hmid, hsq, hlt, heq]
  | rtz | rup | rdn => rfl
  | rna =>
    have hle : 2 * (mid * u) ≤ 2 * w ↔ 4 * (mid * u) ^ 2 ≤ 4 * v := by
      rw [mul_le_mul_iff_right₀ two_pos, h.le_iff, mul_le_mul_iff_right₀ four_pos]
    simp only [roundsAway, rootRoundsAway, hmid, hsq, hle]
  | sr => simp only [roundsAway, rootRoundsAway, hsr, htop, h.le_iff]

/-- A value far above the unit lies between two codes whose place is 2^24 units or more. -/
theorem FFmt.exists_place_of_fine (F : FFmt) {w : Rat} {E : Int} {k : Nat} (hE : 2 ^ (E + F.fb + 24) ≤ w)
    (hk : w < F.magnitude (k + 1)) :
    ∃ n i : Nat, F.magnitude k = n * (2 ^ (24 + i) * 2 ^ E) ∧ F.magnitude (k + 1) = (n + 1) * (2 ^ (24 + i) * 2 ^ E) := by
  obtain ⟨D, n, rfl, hD, hn⟩ := F.exists_place k
  have hlo := F.magnitude_place D n hD hn.le
  have hhi := F.magnitude_place D (n + 1) (hD.imp_right Nat.le_succ_of_le) hn
  rw [← add_assoc] at hhi
  have hlt : (2 : Rat) ^ (E + F.fb + 24) < 2 ^ ((F.fb : Int) + 1 + (F.emin + D)) := by
    calc (2 : Rat) ^ (E + F.fb + 24) ≤ w := hE
      _ < (n + 1 : Nat) * 2 ^ (F.emin + D) := hhi ▸ hk
      _ ≤ (2 ^ (F.fb + 1) : Nat) * 2 ^ (F.emin + D) := mul_le_mul_of_nonneg_right (by exact_mod_cast hn) (two_zpow_pos _).le
      _ = 2 ^ ((F.fb : Int) + 1 + (F.emin + D)) := by
        rw [zpow_add₀ two_ne_zero ((F.fb : Int) + 1), ← Nat.cast_succ, zpow_natCast, Nat.cast_pow, Nat.cast_two]
  have := (zpow_lt_zpow_iff_right₀ one_lt_two).1 hlt
  have hplace : (2 : Rat) ^ (F.emin + D) = 2 ^ (24 + (F.emin + D - E - 24).toNat) * 2 ^ E := by
    rw [← zpow_natCast, ← zpow_add₀ two_ne_zero]
    congr 1
    push_cast
    omega
  exact ⟨n, _, by rw [hlo, hplace], by rw [hhi, hplace, Nat.cast_succ]⟩

theorem FFmt.tinyRat_of_normal (F : FFmt) (rm : Rm) (neg : Bool) (r : Nat) {w : Rat} (h : F.magnitude (2 ^ F.fb) ≤ w) :
    F.tinyRat rm neg w r = false := by
  have h1 : 0 < F.magnitude 1 := F.magnitude_one ▸ two_zpow_pos _
  have h2 : ¬ w ≤ F.magnitude (2 ^ F.fb) - F.magnitude 1 / 2 := by linarith
  simp [FFmt.tinyRat, h2, h]

/-- RoundTo of a value in the normal range, above and below whose codes there are more, is RoundTo of the root that it stands
for. -/
theorem FFmt.RoundsTo.root {F : FFmt} {w v : Rat} {E : Int} {rm : Rm} {r : Nat} {y : Nat × Nat} (h : F.RoundsTo rm r false w y)
    (hroot : IsRootBy (2 ^ E) w v) (hr : r < 2 ^ 24) (hE : 2 ^ (E + F.fb + 24) ≤ w) (hlo : F.magnitude (2 ^ F.fb) ≤ w)
    (hhi : w < F.magnitude F.maxCode) : F.RootRoundsTo rm r v y := by
  obtain ⟨k, hklo, hkhi, hy⟩ := h
  obtain ⟨n, i, hm0, hm1⟩ := F.exists_place_of_fine hE hkhi
  have haway := hroot.roundsAway_eq (two_zpow_pos E) rm (k % 2 == 1) n i hr
  dsimp only at haway
  rw [← hm0, ← hm1] at haway
  -- codes are whole units, so that the root compares with them as the value does
  have hunit (j : Nat) : (j : Rat) * (2 ^ (24 + i) * 2 ^ E) = (j * 2 ^ (24 + i) : Nat) * 2 ^ E := by
    push_cast
    ring
  rw [hunit] at hm0
  rw [← Nat.cast_succ, hunit] at hm1
  have hexact : w = F.magnitude k ↔ F.magnitude k ^ 2 = v := by rw [hm0, eq_comm, hroot.eq_iff]
  have hmax := F.magnitude_strictMono.lt_iff_lt.1 (hklo.trans_lt hhi)
  have hcode (b : Bool) : ¬ F.maxCode < if b then k + 1 else k := by split <;> omega
  refine ⟨k, ?_, ?_, ?_⟩
  · rwa [hm0, ← hroot.le_iff, ← hm0]
  · rwa [hm1, ← not_le, ← hroot.le_iff, ← hm1, not_le]
  · simp only [hexact, haway, F.tinyRat_of_normal rm false r hlo, hcode, if_false, Bool.false_eq_true, Nat.zero_add] at hy
    exact hy

/-! In the IEEE formats roots lie in the normal range. -/

theorem IsRootBy.two_zpow_le_iff {w v : Rat} {E t : Int} (h : IsRootBy (2 ^ E) w v) (ht : E ≤ t) :
    2 ^ t ≤ w ↔ 2 ^ (2 * t) ≤ v := by
  have hj := h.le_iff (2 ^ (t - E).toNat)
  rw [Nat.cast_pow, Nat.cast_two, ← zpow_natCast, ← zpow_add₀ two_ne_zero, show ((t - E).toNat : Int) + E = t by omega,
    ← zpow_natCast, ← zpow_mul, mul_comm] at hj
  exact hj

theorem FFmt.Ieee.root_roundsTo {F : FFmt} (hF : F.Ieee) {w v : Rat} {E : Int} {rm : Rm} {r : Nat} {y : Nat × Nat}
    (h : F.RoundsTo rm r false w y) (hroot : IsRootBy (2 ^ E) w v) (hr : r < 2 ^ 24) (hE : 2 ^ (E + F.fb + 24) ≤ w)
    (hlo : 2 ^ (2 * (1 - (F.bias : Int))) ≤ v) (hhi : v < 2 ^ (2 * (F.bias : Int))) : F.RootRoundsTo rm r v y := by
  have hfb := hF.fb_pos
  have hbias := hF.fb_lt_bias
  refine h.root hroot hr hE ?_ ?_
  · have hnormal := F.magnitude_binade le_rfl
    rw [one_mul, Nat.cast_one] at hnormal
    rw [hnormal]
    by_cases hc : E ≤ 1 - F.bias
    · exact (hroot.two_zpow_le_iff hc).2 hlo
    · exact (zpow_le_zpow_right₀ one_le_two (by omega)).trans hE
  · have hmax : F.magnitude (2 * F.bias * 2 ^ F.fb) ≤ F.magnitude F.maxCode := by
      have hsucc := hF.maxCode_succ
      have := Nat.one_le_two_pow (n := F.fb)
      rw [Nat.add_mul, Nat.one_mul] at hsucc
      exact F.magnitude_strictMono.monotone (by omega)
    rw [F.magnitude_binade (by omega), show ((2 * F.bias : Nat) : Int) - F.bias = F.bias by push_cast; ring] at hmax
    refine lt_of_lt_of_le (not_le.1 fun hn => ?_) hmax
    by_cases hc : E ≤ F.bias
    · exact absurd ((hroot.two_zpow_le_iff hc).1 hn) (not_le.2 hhi)
    · have h1 := (hroot.two_zpow_le_iff le_rfl).1 ((zpow_le_zpow_right₀ one_le_two (by omega)).trans hE)
      have h2 := (zpow_lt_zpow_iff_right₀ one_lt_two).1 (h1.trans_lt hhi)
      omega

/-- RoundTo of a magnitude given to a hundred bits, as of the root that it stands for. -/
theorem FFmt.Ieee.round_rootRoundsTo {F : FFmt} (hF : F.Ieee) {x : Mag} {v : Rat} (h : x.HoldsRoot v)
    (hm : 2 ^ 100 ≤ x.m) (rm : Rm) {r : Nat} (hr : r < 2 ^ 24) (hlo : 2 ^ (2 * (1 - (F.bias : Int))) ≤ v) (hhi : v < 2 ^ (2 * (F.bias : Int))) :
    F.RootRoundsTo rm r v (F.round rm r false x) := by
  obtain ⟨w, hw, hroot⟩ := h.exists_isRootBy
  have hne : x.m ≠ 0 := (lt_of_lt_of_le (by positivity) hm).ne'
  have hlog : 100 ≤ floorLog2 x.m := (Nat.le_log2 hne).2 hm
  have hfb := hF.fb_le
  refine hF.root_roundsTo (hF.round_roundsTo hw hm rm r false) hroot hr (le_trans ?_ (Mag.two_pow_top_le hw hne)) hlo hhi
  exact zpow_le_zpow_right₀ one_le_two (by rw [Mag.top]; omega)

theorem FFmt.sfu_rsq_of_even_power (F : FFmt) (rm : Rm) (r : Nat) {m : Nat} {e : Int} (hm : m ≠ 0) (hpow : m = 2 ^ floorLog2 m)
    (heven : (e + floorLog2 m) % 2 = 0) :
    F.sfu .rsq rm r (.fin false m e) = F.round rm r false ⟨1, -((e + floorLog2 m) / 2), false⟩ := by
  simp [FFmt.sfu, hm, pow2Exp, ← hpow, heven]

theorem FFmt.sfu_rsq_of_odd (F : FFmt) (rm : Rm) (r : Nat) {m : Nat} {e : Int} (hm : m ≠ 0)
    (hodd : m = 2 ^ floorLog2 m → (e + floorLog2 m) % 2 = 1) :
    F.sfu .rsq rm r (.fin false m e) = F.round rm r false (rsqMag m e) := by
  by_cases hp : m = 2 ^ floorLog2 m
  · simp [FFmt.sfu, hm, pow2Exp, ← hp, hodd hp]
  · simp [FFmt.sfu, hm, pow2Exp, hp]

theorem inv_eq_sq_of_even_power {m : Nat} {e : Int} (hpow : m = 2 ^ floorLog2 m) (heven : (e + floorLog2 m) % 2 = 0) :
    1 / ((m : Rat) * 2 ^ e) = (2 ^ (-((e + floorLog2 m) / 2))) ^ 2 := by
  have hm : (m : Rat) * 2 ^ e = 2 ^ (e + floorLog2 m) := by
    rw [add_comm, zpow_add₀ two_ne_zero, zpow_natCast]
    congr 1
    exact_mod_cast hpow
  rw [hm, zpow_neg, inv_pow, zpow_half_sq heven, one_div]

section
variable {F : FFmt} (hF : F.Ieee) (rm : Rm) {r y m : Nat} {e : Int} (h : F.decode y = .fin false m e) (hm : m ≠ 0)
include hF h hm

/-- FSQRT (R143). -/
theorem FFmt.Ieee.sqrt_rootRoundsTo (hr : r < 2 ^ 24) :
    F.RootRoundsTo rm r (m * 2 ^ e) (F.sfu .sqrt rm r (.fin false m e)) := by
  obtain ⟨hlo, hhi⟩ := hF.finite_bounds h hm
  have hemin : F.emin = 1 - (F.bias : Int) - F.fb := rfl
  have hfb := hF.fb_lt_bias
  rw [show F.sfu .sqrt rm r (.fin false m e) = F.round rm r false (sqrtMag m e) by simp [FFmt.sfu, hm]]
  exact hF.round_rootRoundsTo (sqrtMag_holdsRoot m e) (le_sqrtMag_m e hm) rm hr
    ((zpow_le_zpow_right₀ one_le_two (by omega)).trans hlo) (hhi.trans_le (zpow_le_zpow_right₀ one_le_two (by omega)))

/-- The reciprocal too lies where its root is a normal value. -/
theorem FFmt.Ieee.inv_bounds : (2 : Rat) ^ (2 * (1 - (F.bias : Int))) ≤ 1 / (m * 2 ^ e) ∧
    1 / ((m : Rat) * 2 ^ e) < 2 ^ (2 * (F.bias : Int)) := by
  obtain ⟨hlo, hhi⟩ := hF.finite_bounds h hm
  have hemin : F.emin = 1 - (F.bias : Int) - F.fb := rfl
  have hfb := hF.fb_lt_bias
  have hfb2 := hF.fb_pos
  constructor
  · refine le_trans ?_ (one_div_le_one_div_of_le (by positivity) hhi.le)
    rw [one_div, ← zpow_neg]
    exact zpow_le_zpow_right₀ one_le_two (by omega)
  · refine lt_of_le_of_lt (one_div_le_one_div_of_le (two_zpow_pos _) hlo) ?_
    rw [one_div, ← zpow_neg]
    exact zpow_lt_zpow_right₀ one_lt_two (by omega)

/-- FRSQ: an even power of two has an exact root, every other value one between two units (R143). -/
theorem FFmt.Ieee.rsq_rootRoundsTo (hr : r < 2 ^ 24) :
    F.RootRoundsTo rm r (1 / (m * 2 ^ e)) (F.sfu .rsq rm r (.fin false m e)) := by
  obtain ⟨hlo, hhi⟩ := hF.inv_bounds h hm
  by_cases hpow : m = 2 ^ floorLog2 m ∧ (e + floorLog2 m) % 2 = 0
  · obtain ⟨hpow, heven⟩ := hpow
    rw [F.sfu_rsq_of_even_power rm r hm hpow heven]
    rw [inv_eq_sq_of_even_power hpow heven] at hlo hhi ⊢
    generalize -((e + floorLog2 m) / 2) = t at *
    have hround := F.ofVal_fin_roundsTo (by linarith [hF.fb_pos]) rm r false 1 t
    rw [Nat.cast_one, one_mul] at hround
    exact hF.root_roundsTo (E := t - F.fb - 24) hround (IsRootBy.of_sq (two_zpow_pos _) (two_zpow_pos t).le) hr
      (zpow_le_zpow_right₀ one_le_two (by omega)) hlo hhi
  · have hodd (hp : m = 2 ^ floorLog2 m) : (e + floorLog2 m) % 2 = 1 := by
      have := fun he => hpow ⟨hp, he⟩
      omega
    rw [F.sfu_rsq_of_odd rm r hm hodd]
    exact hF.round_rootRoundsTo (rsqMag_holdsRoot e hm hodd) (le_rsqMag_m e hm) rm hr hlo hhi

end

end Sys2Proof.Machine
end

section
/-! PROOFS. FEXP2 of integers, FLOG2 of powers of two, and FRND (R143, R144, R147). -/

namespace Sys2Proof.Machine

/-! FLOG2 of a power of two (R143). -/

theorem eq_two_pow_of_mul_zpow {m : Nat} {e k : Int} (h : (m : Rat) * 2 ^ e = 2 ^ k) : ∃ a : Nat, m = 2 ^ a ∧ e + a = k := by
  have hv : (m : Rat) = 2 ^ (k - e) := by
    rw [zpow_sub₀ two_ne_zero, eq_div_iff (two_zpow_pos e).ne', h]
  have hm : m ≠ 0 := by
    rintro rfl
    exact (two_zpow_pos (k - e)).ne hv
  have h0 : 0 ≤ k - e := by
    rw [← zpow_le_zpow_iff_right₀ (one_lt_two (α := Rat)), zpow_zero, ← hv]
    exact_mod_cast Nat.one_le_iff_ne_zero.2 hm
  obtain ⟨a, ha⟩ := Int.eq_ofNat_of_zero_le h0
  rw [ha, zpow_natCast] at hv
  exact ⟨a, by exact_mod_cast hv, by omega⟩

theorem pow2Exp_two_pow (a : Nat) (e : Int) : pow2Exp (2 ^ a) e = some (e + a) := by
  have : floorLog2 (2 ^ a) = a := Nat.log2_two_pow
  simp [pow2Exp, this]

theorem FFmt.sfu_log2_two_pow (F : FFmt) (rm : Rm) (r a : Nat) (e : Int) : F.sfu .log2 rm r (.fin false (2 ^ a) e) =
    if e + a = 0 then (0, 0) else F.round rm r (decide (e + a < 0)) ⟨(e + a).natAbs, 0, false⟩ := by
  simp [FFmt.sfu, pow2Exp_two_pow]

theorem FFmt.Ieee.log2_roundsTo {F : FFmt} (hF : F.Ieee) (rm : Rm) (r : Nat) {m : Nat} {e k : Int} (h : (m : Rat) * 2 ^ e = 2 ^ k) :
    F.RoundsTo rm r (decide (k < 0)) (k.natAbs : Rat) (F.sfu .log2 rm r (.fin false m e)) := by
  obtain ⟨a, rfl, rfl⟩ := eq_two_pow_of_mul_zpow h
  have hround := F.ofVal_fin_roundsTo (by linarith [hF.fb_pos]) rm r (decide (e + a < 0)) (e + a).natAbs 0
  rw [zpow_zero, mul_one] at hround
  rw [F.sfu_log2_two_pow]
  by_cases h0 : e + a = 0
  · rw [h0] at hround ⊢
    exact hround
  · rwa [if_neg h0]

/-! FEXP2 of an integer (R143). -/

/-- Where the finite value is an integer, the model holds its magnitude within what a format can tell apart. -/
theorem exp2_exponent {m : Nat} {e : Int} {a : Nat} (hm : m ≠ 0) (h : (m : Rat) * 2 ^ e = a) :
    (0 ≤ e ∨ m % 2 ^ (-e).toNat = 0) ∧
      min (if 0 ≤ e then ((m * 2 ^ (min e.toNat 20) : Nat) : Int) else (m / 2 ^ (-e).toNat : Nat)) 65536 = min (a : Int) 65536 := by
  by_cases he : 0 ≤ e
  · obtain ⟨j, rfl⟩ := Int.eq_ofNat_of_zero_le he
    have ha : a = m * 2 ^ j := by
      rw [zpow_natCast] at h
      exact_mod_cast h.symm
    refine ⟨.inl he, ?_⟩
    rw [if_pos he, Int.toNat_natCast, ha]
    by_cases hj : j ≤ 20
    · rw [min_eq_left hj]
    · have h1 : 2 ^ 20 ≤ m * 2 ^ 20 := Nat.le_mul_of_pos_left _ (Nat.pos_of_ne_zero hm)
      have h2 : m * 2 ^ 20 ≤ m * 2 ^ j := Nat.mul_le_mul_left m (Nat.pow_le_pow_right two_pos (by omega))
      rw [show min j 20 = 20 by omega]
      omega
  · obtain ⟨j, hj⟩ : ∃ j : Nat, e = -j := ⟨(-e).toNat, by omega⟩
    subst hj
    have ha : m = a * 2 ^ j := by
      rw [zpow_neg, zpow_natCast, ← div_eq_mul_inv, div_eq_iff (by positivity)] at h
      exact_mod_cast h
    rw [neg_neg, Int.toNat_natCast, if_neg he, ha]
    exact ⟨.inr (Nat.mul_mod_left _ _), by rw [Nat.mul_div_cancel _ (by positivity)]⟩

/-- An integer that a finite value stands for has the value's sign. -/
theorem exists_nat_of_ratOf_eq_int {n : Bool} {m : Nat} {e k : Int} (h : ratOf n m e = k) :
    ∃ a : Nat, k = (if n then -(a : Int) else a) ∧ (m : Rat) * 2 ^ e = a := by
  have hpos : (0 : Rat) ≤ m * 2 ^ e := by positivity
  cases n with
  | false =>
    have hv : (m : Rat) * 2 ^ e = k := by simpa [ratOf] using h
    obtain ⟨a, rfl⟩ := Int.eq_ofNat_of_zero_le (a := k) (by exact_mod_cast hv ▸ hpos)
    exact ⟨a, rfl, by exact_mod_cast hv⟩
  | true =>
    have hv : (m : Rat) * 2 ^ e = (-k : Int) := by
      have : -((m : Rat) * 2 ^ e) = k := by simpa [ratOf] using h
      rw [Int.cast_neg, ← this, neg_neg]
    obtain ⟨a, ha⟩ := Int.eq_ofNat_of_zero_le (a := -k) (by exact_mod_cast hv ▸ hpos)
    exact ⟨a, by rw [if_pos rfl]; omega, by rw [hv, ha]; rfl⟩

theorem FFmt.Ieee.exp2_roundsTo {F : FFmt} (hF : F.Ieee) (rm : Rm) (r : Nat) {n : Bool} {m : Nat} {e k : Int} (hm : m ≠ 0)
    (h : ratOf n m e = k) : F.RoundsTo rm r false (2 ^ k) (F.sfu .exp2 rm r (.fin n m e)) := by
  obtain ⟨a, hk, ha⟩ := exists_nat_of_ratOf_eq_int h
  obtain ⟨hint, hexp⟩ := exp2_exponent hm ha
  have hf : 1 ≤ F.fb := by linarith [hF.fb_pos]
  have hround (K : Int) : F.RoundsTo rm r false (2 ^ K) (F.round rm r false ⟨1, K, false⟩) := by
    have := F.ofVal_fin_roundsTo hf rm r false 1 K
    rwa [Nat.cast_one, one_mul] at this
  have hsfu : F.sfu .exp2 rm r (.fin n m e) =
      F.round rm r false ⟨1, if n then -min (a : Int) 65536 else min (a : Int) 65536, false⟩ := by
    simp only [FFmt.sfu, hm, hint, hexp, if_false, if_true]
  have hbias := hF.bias_le
  have hfb := hF.fb_le
  have hemin : F.emin = 1 - (F.bias : Int) - F.fb := rfl
  rw [hsfu, hk]
  by_cases hle : (a : Int) ≤ 65536
  · rw [min_eq_left hle]
    exact hround _
  · rw [min_eq_right (by omega)]
    cases n with
    | false =>
      show F.RoundsTo rm r false (2 ^ (a : Int)) (F.round rm r false ⟨1, 65536, false⟩)
      have hover {K : Int} (hK : 65536 ≤ K) : F.magnitude (F.maxCode + 1) ≤ 2 ^ K := by
        rw [hF.magnitude_maxCode_succ]
        exact zpow_le_zpow_right₀ one_le_two (by omega)
      exact (hround 65536).of_overflow (hround a) (hover le_rfl) (hover (by omega))
    | true =>
      show F.RoundsTo rm r false (2 ^ (-(a : Int))) (F.round rm r false ⟨1, -65536, false⟩)
      have hunder {K : Int} (hK : K ≤ -65536) : (2 : Rat) ^ K * 2 ^ 25 ≤ 2 ^ F.emin := by
        rw [← zpow_natCast, ← zpow_add₀ two_ne_zero]
        exact zpow_le_zpow_right₀ one_le_two (by push_cast; omega)
      have hmax := hF.one_le_maxCode
      exact (FFmt.roundsTo_iff_underflow hf hmax (two_zpow_pos _) (hunder (by omega))).2
        ((FFmt.roundsTo_iff_underflow hf hmax (two_zpow_pos _) (hunder le_rfl)).1 (hround _))

/-! FRND (R147). -/

/-- A small integer has a code. -/
theorem FFmt.Ieee.exists_magnitude_eq_natCast {F : FFmt} (hF : F.Ieee) {N : Nat} (hN : N ≤ 2 ^ F.fb) :
    ∃ c ≤ F.maxCode, F.magnitude c = N := by
  obtain ⟨c, hc⟩ : ∃ c, F.magnitude c = N := by
    by_cases h0 : N = 0
    · exact ⟨0, by rw [h0, F.magnitude_zero, Nat.cast_zero]⟩
    have hlo : 2 ^ floorLog2 N ≤ N := Nat.log2_self_le h0
    have hl : floorLog2 N ≤ F.fb := (Nat.pow_le_pow_iff_right one_lt_two).1 (hlo.trans hN)
    obtain ⟨j, hj⟩ := Nat.exists_eq_add_of_le hl
    have hbias := hF.fb_lt_bias
    have hemin : F.emin = 1 - (F.bias : Int) - F.fb := rfl
    have h1 : 2 ^ F.fb ≤ N * 2 ^ j := by
      rw [hj, pow_add]
      exact Nat.mul_le_mul_right _ hlo
    have h2 : N * 2 ^ j ≤ 2 ^ (F.fb + 1) := by
      rw [hj, add_right_comm, pow_add]
      exact Nat.mul_le_mul_right _ (lt_two_pow_floorLog2 N).le
    refine ⟨_, (F.magnitude_place (floorLog2 N + F.bias - 1) (N * 2 ^ j) (.inr h1) h2).trans ?_⟩
    rw [show F.emin + (floorLog2 N + F.bias - 1 : Nat) = -(j : Int) by omega, zpow_neg, zpow_natCast]
    push_cast
    field_simp
  refine ⟨c, Nat.lt_succ_iff.1 (F.magnitude_strictMono.lt_iff_lt.1 ?_), hc⟩
  have hle : (N : Rat) ≤ 2 ^ (F.fb : Int) := by
    rw [zpow_natCast]
    exact_mod_cast hN
  rw [hc, hF.magnitude_maxCode_succ]
  exact hle.trans_lt (zpow_lt_zpow_right₀ one_lt_two (by linarith [hF.fb_lt_bias]))

/-- Only below 2^fb has a code a fraction. -/
theorem FFmt.magnitude_lt_of_fraction (F : FFmt) {c : Nat} (h : F.magnitude c ≠ ⌊F.magnitude c⌋) : F.magnitude c < 2 ^ F.fb := by
  obtain ⟨D, n, rfl, hD, hn⟩ := F.exists_place c
  rw [F.magnitude_place D n hD hn.le] at h ⊢
  by_cases hp : 0 ≤ F.emin + D
  · obtain ⟨j, hj⟩ := Int.eq_ofNat_of_zero_le hp
    refine absurd ?_ h
    rw [hj, zpow_natCast]
    exact_mod_cast (Int.floor_natCast (R := Rat) (n * 2 ^ j)).symm
  · calc (n : Rat) * 2 ^ (F.emin + D) < (2 ^ (F.fb + 1) : Nat) * 2 ^ (F.emin + D) :=
          mul_lt_mul_of_pos_right (by exact_mod_cast hn) (two_zpow_pos _)
      _ ≤ (2 ^ (F.fb + 1) : Nat) * 2 ^ (-1 : Int) :=
        mul_le_mul_of_nonneg_left (zpow_le_zpow_right₀ one_le_two (by omega)) (by simp)
      _ = 2 ^ F.fb := by rw [pow_succ, zpow_neg_one]; push_cast; ring

theorem fRnd_of_integer (F : FFmt) (rm : Rm) (r : Nat) {y : Nat} {n : Bool} {m : Nat} {e : Int} (h : F.decode y = .fin n m e)
    (hint : m = 0 ∨ 0 ≤ e) : fRnd F rm r y = (y, 0) ∧ (m : Rat) * 2 ^ e = ⌊(m : Rat) * 2 ^ e⌋ := by
  refine ⟨by simp [fRnd, h, hint], ?_⟩
  obtain ⟨N, hN⟩ : ∃ N : Nat, (m : Rat) * 2 ^ e = N := by
    rcases hint with rfl | he
    · exact ⟨0, by simp⟩
    · obtain ⟨j, rfl⟩ := Int.eq_ofNat_of_zero_le he
      exact ⟨m * 2 ^ j, by simp⟩
  rw [hN, Int.floor_natCast, Int.cast_natCast]

theorem fRnd_of_fraction (F : FFmt) (rm : Rm) (r : Nat) {y : Nat} {n : Bool} {m : Nat} {e : Int} (h : F.decode y = .fin n m e)
    (hint : ¬ (m = 0 ∨ 0 ≤ e)) : fRnd F rm r y =
      ((F.round .rne 0 n ⟨(roundInt rm r n ⟨m, e, false⟩).1, 0, false⟩).1,
        if (roundInt rm r n ⟨m, e, false⟩).2 then flNX else 0) := by
  rw [fRnd, h]
  exact if_neg hint

/-- FRND of a finite value is its integer of the mode (R94, R147). -/
theorem FFmt.Ieee.fRnd_fin {F : FFmt} (hF : F.Ieee) (rm : Rm) (r : Nat) {y : Nat} (hy : y < 2 ^ F.bits) {n : Bool} {m : Nat}
    {e : Int} (h : F.decode y = .fin n m e) :
    let x : Rat := m * 2 ^ e
    let k : Int := ⌊x⌋
    let exact : Bool := x = k
    let z := if !exact && roundsAway rm n (k % 2 == 1) k (k + 1) x r then k + 1 else k
    (exact = true → fRnd F rm r y = (y, 0)) ∧
    (exact = false → (fRnd F rm r y).2 = flNX ∧
      ∃ c, F.magnitude c = z ∧ (fRnd F rm r y).1 = (if n then 2 ^ (F.eb + F.fb) else 0) + c) := by
  intro x k exact z
  obtain ⟨hn, hc, hv⟩ := hF.of_decode_eq_fin h
  by_cases hint : m = 0 ∨ 0 ≤ e
  · obtain ⟨hrnd, hexact⟩ := fRnd_of_integer F rm r h hint
    exact ⟨fun _ => hrnd, fun hf => absurd hexact (of_decide_eq_false hf)⟩
  · obtain ⟨hz, hin⟩ := roundInt_eq rm r n m e
    change _ = z at hz
    change _ = !exact at hin
    have hrnd := fRnd_of_fraction F rm r h hint
    rw [hin] at hrnd
    have hround := F.ofVal_fin_roundsTo (by linarith [hF.fb_pos]) .rne 0 n (roundInt rm r n ⟨m, e, false⟩).1 0
    rw [zpow_zero, mul_one] at hround
    generalize (roundInt rm r n ⟨m, e, false⟩).1 = N at *
    have hNz : (N : Rat) = z := by rw [← hz]; rfl
    refine ⟨fun hex => ?_, fun hex => ?_⟩
    · have hxk : x = k := of_decide_eq_true hex
      have hzk : z = k := by simp only [z, hex]; rfl
      have hcode := hround.of_magnitude (by rw [hNz, hzk, ← hxk]; exact hv) hc
      rw [hrnd, hex, show F.round .rne 0 n ⟨N, 0, false⟩ = _ from hcode, hn, ← F.eq_sign_add hy]
      rfl
    · have hN : N ≤ 2 ^ F.fb := by
        have hlt : x < 2 ^ F.fb := by
          have := F.magnitude_lt_of_fraction (c := y % 2 ^ (F.eb + F.fb)) (by rw [← hv]; exact of_decide_eq_false hex)
          rwa [← hv] at this
        have hk : k < 2 ^ F.fb := Int.floor_lt.2 (by push_cast; exact hlt)
        have hzk : z ≤ k + 1 := by simp only [z]; split <;> omega
        have : ((2 ^ F.fb : Nat) : Int) = 2 ^ F.fb := by push_cast; rfl
        omega
      obtain ⟨c, hcm, hcN⟩ := hF.exists_magnitude_eq_natCast hN
      have hcode := hround.of_magnitude hcN.symm hcm
      rw [hrnd, hex, show F.round .rne 0 n ⟨N, 0, false⟩ = _ from hcode]
      exact ⟨rfl, c, by rw [hcN, hNz], rfl⟩

end Sys2Proof.Machine
end

section
/-! PROOFS. The special operands of the arithmetic forms, of FSFU and of FDIV (R132, R136, R144, R145). -/

namespace Sys2Proof.Machine

/-! Special operands of sums and products (R132, R136). -/

/-- The factors are a zero and an infinity. -/
def FVal.zeroTimesInf : FVal → FVal → Bool
  | .inf _, .fin _ m _ => m == 0
  | .fin _ m _, .inf _ => m == 0
  | _, _ => false

theorem FVal.fma_eq (rm : Rm) (neg : Bool) (a b c : FVal) : FVal.fma rm neg a b c =
    if a.zeroTimesInf b then nvNan else if a.isNan || b.isNan || c.isNan then anyNan [a, b, c]
    else FVal.add rm (if neg then (FVal.mul a b).1.negate else (FVal.mul a b).1) c := by
  cases a <;> cases b <;> rfl

theorem FVal.add_of_isNan (rm : Rm) {x y : FVal} (h : (x.isNan || y.isNan) = true) :
    FVal.add rm x y = (.nan false, if x.isSnan || y.isSnan then flNV else 0) := by
  cases x with
  | nan sig => simp [FVal.add, anyNan]
  | _ => cases y <;> simp_all [FVal.add, anyNan, FVal.isNan]

theorem FVal.mul_of_isNan {x y : FVal} (h : (x.isNan || y.isNan) = true) :
    FVal.mul x y = (.nan false, if x.isSnan || y.isSnan then flNV else 0) := by
  cases x with
  | nan sig => cases y <;> simp [FVal.mul, anyNan]
  | _ => cases y <;> simp_all [FVal.mul, anyNan, FVal.isNan]

/-- A product with an infinity is the infinity of the product's sign. -/
theorem FVal.mul_inf {a b : FVal} {n : Bool} (h : a = .inf n ∨ b = .inf n) (hz : a.zeroTimesInf b = false)
    (hn : (a.isNan || b.isNan) = false) : FVal.mul a b = (.inf (a.neg != b.neg), 0) := by
  cases a <;> cases b <;> simp_all [FVal.mul, FVal.zeroTimesInf, FVal.isNan, FVal.neg]
  exact bne_comm

theorem FVal.add_inf_left (rm : Rm) (n : Bool) {c : FVal} (hc : c.isNan = false) (hi : ∀ m, c ≠ .inf m) :
    FVal.add rm (.inf n) c = (.inf n, 0) := by
  cases c <;> simp_all [FVal.add, FVal.isNan]

theorem FVal.add_inf_right (rm : Rm) (n : Bool) {c : FVal} (hc : c.isNan = false) (hi : ∀ m, c ≠ .inf m) :
    FVal.add rm c (.inf n) = (.inf n, 0) := by
  cases c <;> simp_all [FVal.add, FVal.isNan]

theorem FVal.add_inf_inf (rm : Rm) {m n : Bool} (h : m ≠ n) : FVal.add rm (.inf m) (.inf n) = (.nan false, flNV) :=
  if_neg h

section
variable {rm : Rm} {neg : Bool} {a b c : FVal} (hz : a.zeroTimesInf b = false) (hn : (a.isNan || b.isNan || c.isNan) = false)
include hz hn

theorem FVal.fma_of_not_isNan : FVal.fma rm neg a b c =
    FVal.add rm (if neg then (FVal.mul a b).1.negate else (FVal.mul a b).1) c := by
  rw [FVal.fma_eq, hz, hn]
  rfl

/-- With an infinite factor the sum is that of the product's infinity. -/
theorem FVal.fma_inf_factor {n : Bool} (h : a = .inf n ∨ b = .inf n) :
    FVal.fma rm neg a b c = FVal.add rm (.inf ((a.neg != b.neg) != neg)) c := by
  rw [FVal.fma_of_not_isNan hz hn, FVal.mul_inf h hz (Bool.or_eq_false_iff.1 hn).1]
  cases neg <;> simp [FVal.negate]

/-- With finite factors an infinite addend is the sum. -/
theorem FVal.fma_inf_addend {m : Bool} (hc : c = .inf m) (h : ∀ n, a ≠ .inf n ∧ b ≠ .inf n) :
    FVal.fma rm neg a b c = (.inf m, 0) := by
  rw [FVal.fma_of_not_isNan hz hn, hc]
  cases a with
  | nan sig => simp [FVal.isNan] at hn
  | inf n => exact absurd rfl (h n).1
  | fin n1 m1 e1 =>
    cases b with
    | nan sig => simp [FVal.isNan] at hn
    | inf n => exact absurd rfl (h n).2
    | fin n2 m2 e2 => cases neg <;> exact FVal.add_inf_right _ _ rfl nofun

end

/-- A finite product and sum is exact. -/
theorem FVal.fma_fin (rm : Rm) (neg n1 n2 n3 : Bool) (m1 m2 m3 : Nat) (e1 e2 e3 : Int) :
    ∃ n m e, FVal.fma rm neg (.fin n1 m1 e1) (.fin n2 m2 e2) (.fin n3 m3 e3) = (.fin n m e, 0) ∧
      ratOf n m e = (if neg then -1 else 1) * (ratOf n1 m1 e1 * ratOf n2 m2 e2) + ratOf n3 m3 e3 := by
  rw [FVal.fma_of_not_isNan rfl rfl, FVal.mul_fin, ← ratOf_mul]
  cases neg with
  | false =>
    obtain ⟨n, m, e, hv, hr, -⟩ := FVal.add_fin rm (n1 != n2) n3 (m1 * m2) m3 (e1 + e2) e3
    exact ⟨n, m, e, hv, by rw [hr]; simp⟩
  | true =>
    obtain ⟨n, m, e, hv, hr, -⟩ := FVal.add_fin rm (!(n1 != n2)) n3 (m1 * m2) m3 (e1 + e2) e3
    exact ⟨n, m, e, hv, by rw [hr, ratOf_not]; simp⟩

/-! Special operands of FSFU and FDIV (R144, R145). -/

/-- The code of 1 with a sign. -/
theorem FFmt.Ieee.round_one {F : FFmt} (hF : F.Ieee) (n : Bool) :
    F.round .rne 0 n ⟨1, 0, false⟩ = ((if n then 2 ^ (F.eb + F.fb) else 0) + F.bias * 2 ^ F.fb, 0) := by
  have hbias := hF.fb_lt_bias
  have hround := F.ofVal_fin_roundsTo (by linarith [hF.fb_pos]) .rne 0 n 1 0
  have hmax : F.bias * 2 ^ F.fb < F.maxCode + 1 := by
    rw [hF.maxCode_succ]
    exact Nat.mul_lt_mul_of_pos_right (by omega) (by positivity)
  refine hround.of_magnitude ?_ (Nat.lt_succ_iff.1 hmax)
  rw [F.magnitude_binade (by omega), sub_self]
  simp

theorem FFmt.div_of_isNan (F : FFmt) (rm : Rm) (r : Nat) {x y : FVal} (h : (x.isNan || y.isNan) = true) :
    F.div rm r x y = (F.nanCode, if x.isSnan || y.isSnan then flNV else 0) := by
  cases x with
  | nan sig => simp [FFmt.div, anyNan]
  | _ => cases y <;> simp_all [FFmt.div, anyNan, FVal.isNan]

/-- FDIV of finite values by a nonzero one is RoundTo of the exact quotient (R145). -/
theorem FFmt.Ieee.div_roundsTo {F : FFmt} (hF : F.Ieee) (rm : Rm) (r : Nat) (n1 n2 : Bool) (m1 : Nat) {m2 : Nat} (e1 e2 : Int)
    (h2 : m2 ≠ 0) : F.RoundsTo rm r (n1 != n2) (m1 * 2 ^ e1 / (m2 * 2 ^ e2)) (F.div rm r (.fin n1 m1 e1) (.fin n2 m2 e2)) := by
  by_cases h1 : m1 = 0
  · have hzero := F.ofVal_fin_roundsTo (by linarith [hF.fb_pos]) rm r (n1 != n2) 0 0
    rw [show F.div rm r (.fin n1 m1 e1) (.fin n2 m2 e2) = F.ofVal rm r (.fin (n1 != n2) 0 0) by
      simp only [FFmt.div, h1, h2, if_false, if_true]
      rfl, h1]
    simpa using hzero
  · rw [show F.div rm r (.fin n1 m1 e1) (.fin n2 m2 e2) = F.round rm r (n1 != n2) (divMag m1 e1 m2 e2) by
      simp [FFmt.div, h1, h2, FVal.neg]]
    exact hF.divMag_roundsTo rm r (n1 != n2) e1 e2 h1 h2

/-- Settles O23: the arithmetic forms by their infinities, the special operands by the tables, finite ones by RoundTo. -/
theorem floatArithmeticSpecialOperands : Obligations.FloatArithmeticSpecialOperands := by
  intro F rm q neg a b c fma zeroInf anyNan sNan
  have hzero : zeroInf = a.zeroTimesInf b := by cases a <;> cases b <;> rfl
  refine ⟨fun hz => ?_, fun hz hn => ?_, fun hz hn => ⟨fun n m h hc hm => ?_, fun m hc h => ?_, fun n h hc => ?_⟩,
    fun x y h => ⟨FVal.add_of_isNan rm h, FVal.mul_of_isNan h⟩, fun m n => FVal.add_inf_inf rm, fun m n e => ⟨rfl, rfl⟩,
    fun hnan => ?_, fun hinf n => ?_, fun n1 m1 e1 n2 m2 e2 => FVal.add_fin rm n1 n2 m1 m2 e1 e2,
    fun n1 m1 e1 n2 m2 e2 => ⟨_, _, rfl, ratOf_mul n1 n2 m1 m2 e1 e2⟩,
    fun n1 m1 e1 n2 m2 e2 n3 m3 e3 => FVal.fma_fin rm neg n1 n2 n3 m1 m2 m3 e1 e2 e3, fun hF => ?_⟩
  · rw [hzero] at hz
    exact (FVal.fma_eq rm neg a b c).trans (by rw [hz]; rfl)
  · rw [hzero] at hz
    refine (FVal.fma_eq rm neg a b c).trans ?_
    rw [hz, show (a.isNan || b.isNan || c.isNan) = true from hn]
    simp [Machine.anyNan, sNan, Bool.or_assoc]
  · rw [hzero] at hz
    exact (FVal.fma_inf_factor hz hn h).trans (hc ▸ FVal.add_inf_inf rm hm.symm)
  · rw [hzero] at hz
    exact FVal.fma_inf_addend hz hn hc h
  · rw [hzero] at hz
    exact (FVal.fma_inf_factor hz hn h).trans (FVal.add_inf_left rm _ (Bool.or_eq_false_iff.1 hn).2 hc)
  · simp [FFmt.ofVal, FFmt.special, hnan]
  · rw [F.ofVal_inf, hinf]
    rfl
  · have hF := ieee_of_mem hF
    intro sg inf dz zero one nv
    have hinf (n : Bool) : (if n then F.signBit else 0) + F.infCode = (inf n).1 := by rw [F.infCode_eq]; rfl
    have hone (n : Bool) : F.round .rne 0 n ⟨1, 0, false⟩ = one n := hF.round_one n
    refine ⟨fun op sig => rfl, fun op => ?_, fun op => ?_, fun op n e => ?_, fun op m e hm hop => ?_, fun k => ?_, fun n m e hm => ?_,
      fun m e hm hq ⟨y, _, hy⟩ => ⟨hF.sqrt_rootRoundsTo rm hy hm hq, hF.rsq_rootRoundsTo rm hy hm hq⟩,
      fun n m e k hm _ hk => hF.exp2_roundsTo rm q hm hk, fun m e k _ hk => hF.log2_roundsTo rm q hk,
      fun x y => ⟨fun h => ?_, fun n1 n2 m e => ⟨rfl, ?_, ?_⟩, fun n1 n2 m1 e1 e2 => ?_,
        fun n1 n2 m1 m2 e1 e2 h2 => hF.div_roundsTo rm q n1 n2 m1 e1 e2 h2⟩, fun y hy => ?_⟩
    · cases op with
      | tanh => exact congrArg (fun y => (y.1, 0)) (hone true)
      | _ => rfl
    · cases op with
      | sqrt | exp2 | log2 => exact congrArg (·, 0) (hinf false)
      | tanh => exact congrArg (fun y => (y.1, 0)) (hone false)
      | _ => rfl
    · cases op with
      | rcp | rsq => exact congrArg (·, flDZ) (hinf n)
      | exp2 | cos => exact congrArg (fun y => (y.1, 0)) (hone false)
      | log2 => exact congrArg (·, flDZ) (hinf true)
      | _ => rfl
    · obtain rfl | rfl | rfl := hop <;> exact if_neg hm
    · rw [F.sfu_log2_two_pow, if_pos (by omega)]
      rfl
    · have hdiv := hF.divMag_roundsTo rm q n 0 e one_ne_zero hm
      rw [Nat.cast_one, zpow_zero, one_mul] at hdiv
      rwa [show F.sfu .rcp rm q (.fin n m e) = F.round rm q n (divMag 1 0 m e) from if_neg hm]
    · exact F.div_of_isNan rm q h
    · exact congrArg (·, 0) (hinf (n1 != n2))
    · show (if n2 != n1 then F.signBit else 0, 0) = zero (n1 != n2)
      rw [bne_comm]
      rfl
    · show (if m1 = 0 then nv else ((if n1 != n2 then F.signBit else 0) + F.infCode, flDZ)) = _
      rw [hinf]
    · split
      · next sig hd => simp [fRnd, hd]
      · next n hd => simp [fRnd, hd]
      · next n m e hd => exact hF.fRnd_fin rm q hy hd

end Sys2Proof.Machine
end

section
/-! PROOFS. The reductions, scans and match forms: the tree of a group, its nodes and empty values, and the windows that hold
it (R55, R154, R157, R159 to R162, R164). -/

namespace Sys2Proof.Machine

/-! The tree (R159). -/

/-- A node of the tree over its two sides, where an absent side passes the other through (R159). -/
def joinSides {α : Type} (op : α → α → α) : Option α → Option α → Option α
  | some x, some y => some (op x y)
  | some x, none => some x
  | none, y => y

section
variable {α β : Type} {op : α → α → α} {leaf : Nat → Option α}

theorem tree_succ (fuel lo n : Nat) : tree op leaf (fuel + 1) lo n =
    if n ≤ 1 then leaf lo else joinSides op (tree op leaf fuel lo (n / 2)) (tree op leaf fuel (lo + n / 2) (n - n / 2)) := rfl

theorem tree_of_le_one (fuel lo : Nat) {n : Nat} (h : n ≤ 1) : tree op leaf fuel lo n = leaf lo := by
  cases fuel with
  | zero => rfl
  | succ fuel => rw [tree_succ, if_pos h]

/-- A tree whose fuel reaches its leaves is not changed by more. -/
theorem tree_add_fuel {fuel n : Nat} (h : n ≤ 2 ^ fuel) (lo : Nat) : tree op leaf (fuel + 1) lo n = tree op leaf fuel lo n := by
  induction fuel generalizing lo n with
  | zero => exact tree_of_le_one 1 lo h
  | succ fuel ih =>
    have hlo : n / 2 ≤ 2 ^ fuel := by rw [pow_succ] at h; omega
    have hhi : n - n / 2 ≤ 2 ^ fuel := by rw [pow_succ] at h; omega
    rw [tree_succ, ih hlo, ih hhi, tree_succ]

/-- A tree whose fuel reaches its leaves is the node of the trees of its halves, by the same fuel (R159). -/
theorem tree_eq_joinSides {fuel n : Nat} (h : n ≤ 2 ^ (fuel + 1)) (lo : Nat) :
    tree op leaf (fuel + 1) lo n = if n ≤ 1 then leaf lo
      else joinSides op (tree op leaf (fuel + 1) lo (n / 2)) (tree op leaf (fuel + 1) (lo + n / 2) (n - n / 2)) := by
  have hlo : n / 2 ≤ 2 ^ fuel := by rw [pow_succ] at h; omega
  have hhi : n - n / 2 ≤ 2 ^ fuel := by rw [pow_succ] at h; omega
  rw [tree_add_fuel hlo, tree_add_fuel hhi, tree_succ]

theorem map_joinSides {op' : β → β → β} {g : α → β} (hg : ∀ x y, g (op x y) = op' (g x) (g y)) (x y : Option α) :
    (joinSides op x y).map g = joinSides op' (x.map g) (y.map g) := by
  cases x with
  | none => rfl
  | some x => cases y with
    | none => rfl
    | some y => exact congrArg some (hg x y)

/-- A map that the nodes respect goes through the tree to its leaves. -/
theorem map_tree {op' : β → β → β} {g : α → β} (hg : ∀ x y, g (op x y) = op' (g x) (g y)) (fuel lo n : Nat) :
    (tree op leaf fuel lo n).map g = tree op' (fun j => (leaf j).map g) fuel lo n := by
  induction fuel generalizing lo n with
  | zero => rfl
  | succ fuel ih =>
    rw [tree_succ, tree_succ, apply_ite (Option.map g), map_joinSides hg, ih, ih]

end

/-! Its nodes (R160, R164). -/

theorem elemOf_xNode (op : XOp) {t : Ty} (rm : Rm) (x y : Nat × Nat) {e : Nat} (he : e < t.elems) :
    elemOf t.elemBits e (xNode op t rm x y).1 =
      (xElem op t rm (elemOf t.elemBits e x.1) (elemOf t.elemBits e y.1)).1 % 2 ^ t.elemBits := by
  rw [xNode, List.map_map]
  exact elemOf_mapElems _ _ _ _ he

theorem xNode_flags (op : XOp) (t : Ty) (rm : Rm) (x y : Nat × Nat) : (xNode op t rm x y).2 = (List.range t.elems).foldl
    (fun n e => n ||| (xElem op t rm (elemOf t.elemBits e x.1) (elemOf t.elemBits e y.1)).2) (x.2 ||| y.2) :=
  List.foldl_map

theorem Ty.not_isFloat_of_isInt {t : Ty} (h : t.isInt = true) : t.isFloat = false := by
  cases t <;> trivial

/-- An operation on integer elements (R160). -/
def xIntElem (t : Ty) (x y : Nat) : XOp → Nat
  | .add => eAdd t x y
  | .min => eMin t x y
  | .max => eMax t x y
  | .and => x &&& y
  | .or => x ||| y
  | .xor => x ^^^ y

theorem xElem_int {t : Ty} (ht : t.isInt = true) (op : XOp) (rm : Rm) (x y : Nat) :
    xElem op t rm x y = (xIntElem t x y op, 0) := by
  have hf : ¬ t.isFloat = true := by rw [Ty.not_isFloat_of_isInt ht]; decide
  cases op <;> exact if_neg hf

/-- An integer element of a node, in the element's own bits (R160). -/
theorem elemOf_xNode_int {t : Ty} (ht : t.isInt = true) (rm : Rm) (x y : Nat × Nat) {e : Nat} (he : e < t.elems) (op : XOp) :
    elemOf t.elemBits e (xNode op t rm x y).1 =
      xIntElem t (elemOf t.elemBits e x.1) (elemOf t.elemBits e y.1) op % 2 ^ t.elemBits := by
  rw [elemOf_xNode op rm x y he, xElem_int ht]

/-- A node over integers raises no flag of its own. -/
theorem xNode_flags_int {t : Ty} (ht : t.isInt = true) (op : XOp) (rm : Rm) (x y : Nat × Nat) :
    (xNode op t rm x y).2 = x.2 ||| y.2 := by
  simp only [xNode_flags, xElem_int ht, Nat.or_zero]
  exact List.foldl_fixed _

theorem Ty.isFloat_of_arith {t : Ty} (h : Ty.arith t = true) : t.isFloat = true := by
  cases t <;> trivial

/-- A floating node's elements: a sum is rounded, a minimum or maximum picked (R137, R160). -/
theorem xElem_add_float {t : Ty} (ht : t.isFloat = true) (rm : Rm) (x y : Nat) :
    xElem .add t rm x y = (tyFmt t).finish rm 0 (FVal.add rm ((tyFmt t).decode x) ((tyFmt t).decode y)) := if_pos ht

theorem xElem_min_float {t : Ty} (ht : t.isFloat = true) (rm : Rm) (x y : Nat) :
    xElem .min t rm x y = fMinMax (tyFmt t) false false x y := if_pos ht

theorem xElem_max_float {t : Ty} (ht : t.isFloat = true) (rm : Rm) (x y : Nat) :
    xElem .max t rm x y = fMinMax (tyFmt t) true false x y := if_pos ht

/-! The empty values (R161). -/

/-- An integer of the type's range, as an element, has itself as its Val (R112). -/
theorem Ty.value_wrap (t : Ty) {v : Int} (h1 : intMin t.elemBits t.signed ≤ v) (h2 : v ≤ intMax t.elemBits t.signed) :
    Ty.value t (Ty.wrap t v) = v := by
  rw [Ty.value, Ty.wrap, BitVec.ofNat_toNat, BitVec.setWidth_eq]
  cases hs : t.signed with
  | true =>
    rw [intMin, hs, if_pos rfl] at h1
    rw [intMax, hs, if_pos rfl] at h2
    rw [if_pos rfl]
    exact BitVec.toInt_ofInt_eq_self (Ty.elemBits_pos t) h1 (by omega)
  | false =>
    rw [intMin, hs, if_neg (by decide)] at h1
    rw [intMax, hs, if_neg (by decide)] at h2
    have hv : v < (2 ^ t.elemBits : Nat) := by push_cast; omega
    rw [if_neg (by decide), BitVec.toNat_ofInt, Int.emod_eq_of_lt h1 hv, Int.toNat_of_nonneg h1]

theorem intMin_le_intMax (w : Nat) (signed : Bool) : intMin w signed ≤ intMax w signed := by
  have h1 : (0 : Int) < 2 ^ (w - 1) := by positivity
  have h2 : (0 : Int) < 2 ^ w := by positivity
  cases signed with
  | false =>
    rw [intMin, intMax, if_neg (by decide), if_neg (by decide)]
    omega
  | true =>
    rw [intMin, intMax, if_pos rfl, if_pos rfl]
    omega

/-- Sat stays in the type's range (R112). -/
theorem Ty.value_sat (t : Ty) (v : Int) : Ty.value t (t.sat v) =
    max (intMin t.elemBits t.signed) (min (intMax t.elemBits t.signed) v) := by
  rw [show t.sat v = Ty.wrap t (max (intMin t.elemBits t.signed) (min (intMax t.elemBits t.signed) v)) from (Ty.wrap_eq t _).symm]
  exact Ty.value_wrap t (le_max_left _ _) (max_le (intMin_le_intMax _ _) (min_le_left _ _))

theorem Ty.elemBits_le_of_isInt {t : Ty} (h : t.isInt = true) : t.elemBits ≤ 64 := by
  revert h
  cases t <;> decide

/-- No integer element reaches 2^64, which stands above them all (R161). -/
theorem intMax_le {w : Nat} (hw : w ≤ 64) (signed : Bool) : intMax w signed ≤ 2 ^ 64 := by
  have h1 : (2 : Int) ^ w ≤ 2 ^ 64 := pow_le_pow_right₀ (by decide) hw
  have h2 : (2 : Int) ^ (w - 1) ≤ 2 ^ 64 := pow_le_pow_right₀ (by decide) (by omega)
  cases signed <;> simp only [intMax, Bool.false_eq_true, if_false, if_true] <;> omega

theorem neg_le_intMin {w : Nat} (hw : w ≤ 64) (signed : Bool) : -(2 ^ 64) ≤ intMin w signed := by
  have h2 : (2 : Int) ^ (w - 1) ≤ 2 ^ 64 := pow_le_pow_right₀ (by decide) (by omega)
  cases signed <;> simp only [intMin, Bool.false_eq_true, if_false, if_true] <;> omega

theorem elemOf_xEmpty {op : XOp} {t : Ty} {e z : Nat} (he : e < t.elems)
    (h : xEmpty op t = mapElems t.elemBits t.elems fun _ => z) : elemOf t.elemBits e (xEmpty op t) = z % 2 ^ t.elemBits := by
  rw [h, elemOf_mapElems _ _ _ _ he]

theorem elemOf_xEmpty_zero {op : XOp} {t : Ty} {e : Nat} (he : e < t.elems) (h : op = .add ∨ op = .or ∨ op = .xor) :
    elemOf t.elemBits e (xEmpty op t) = 0 := by
  obtain rfl | rfl | rfl := h <;> exact (elemOf_xEmpty he rfl).trans (Nat.zero_mod _)

theorem elemOf_xEmpty_and {t : Ty} {e : Nat} (he : e < t.elems) : elemOf t.elemBits e (xEmpty .and t) = 2 ^ t.elemBits - 1 :=
  (elemOf_xEmpty he rfl).trans (Nat.mod_eq_of_lt (Nat.sub_lt (by positivity) one_pos))

theorem xEmpty_min (t : Ty) : xEmpty .min t =
    mapElems t.elemBits t.elems fun _ => if t.isFloat then (tyFmt t).infCode else t.sat (2 ^ 64) := rfl

theorem xEmpty_max (t : Ty) : xEmpty .max t =
    mapElems t.elemBits t.elems fun _ => if t.isFloat then (tyFmt t).signBit + (tyFmt t).infCode else t.sat (-(2 ^ 64)) := rfl

theorem Ty.sat_mod (t : Ty) (v : Int) : t.sat v % 2 ^ t.elemBits = t.sat v := wrapTo_mod _ _

/-- The empty minimum is the largest integer of the type (R161). -/
theorem value_xEmpty_min {t : Ty} {e : Nat} (ht : t.isInt = true) (he : e < t.elems) :
    Ty.value t (elemOf t.elemBits e (xEmpty .min t)) = intMax t.elemBits t.signed := by
  have hmax := intMax_le (Ty.elemBits_le_of_isInt ht) t.signed
  rw [elemOf_xEmpty he (xEmpty_min t), if_neg (by simp [Ty.not_isFloat_of_isInt ht]), Ty.sat_mod, Ty.value_sat, min_eq_left hmax,
    max_eq_right (intMin_le_intMax _ _)]

/-- The empty maximum is the smallest integer of the type (R161). -/
theorem value_xEmpty_max {t : Ty} {e : Nat} (ht : t.isInt = true) (he : e < t.elems) :
    Ty.value t (elemOf t.elemBits e (xEmpty .max t)) = intMin t.elemBits t.signed := by
  have hmin := neg_le_intMin (Ty.elemBits_le_of_isInt ht) t.signed
  rw [elemOf_xEmpty he (xEmpty_max t), if_neg (by simp [Ty.not_isFloat_of_isInt ht]), Ty.sat_mod, Ty.value_sat,
    max_eq_left ((min_le_right _ _).trans hmin)]

/-- The empty floating minimum and maximum are the infinities (R161). -/
theorem decode_xEmpty {t : Ty} {e : Nat} (ht : Ty.arith t = true) (he : e < t.elems) :
    (tyFmt t).decode (elemOf t.elemBits e (xEmpty .min t)) = .inf false ∧
      (tyFmt t).decode (elemOf t.elemBits e (xEmpty .max t)) = .inf true := by
  have hfl := Ty.isFloat_of_arith ht
  rw [elemOf_xEmpty he (xEmpty_min t), elemOf_xEmpty he (xEmpty_max t), if_pos hfl, if_pos hfl]
  simp only [Ty.arith, Bool.or_eq_true, beq_iff_eq] at ht
  obtain ((rfl | rfl) | rfl) | rfl := ht <;> decide

/-! The windows (R55, R154, R161, R162, R164). -/

/-- What a lane holds where it is active, and nothing elsewhere. -/
def Warp.whereActive (w : Warp) (r : Lane → Nat × Nat) (l : Lane) : Nat × Nat := if w.guarded.has l then r l else (0, 0)

/-- The flags of every active lane's tree, ORed (R164). -/
def Warp.activeFlags (w : Warp) (r : Lane → Nat × Nat) : Nat :=
  (List.finRange 96).foldl (fun n l => n ||| if w.guarded.has l then (r l).2 else 0) 0

theorem Warp.activeFlags_of_zero (w : Warp) {r : Lane → Nat × Nat} (h : ∀ l, (r l).2 = 0) : w.activeFlags r = 0 := by
  simp only [activeFlags, h, ite_self, Nat.or_zero]
  exact List.foldl_fixed _

/-- A form whose window holds each active lane's result in d, and then `more`, retires at once with it (R55). -/
theorem State.pends_of_lanes {s : State} {i : Instr} {f : Form} {la : Fin 16} {u : Use} {d : Reg} {t : Ty}
    {g M : Warp → Warp} {more : List WriteBack} (r : Lane → Nat × Nat) (h : s.clearFor f.sync) (hc : s.firstCause i f = none)
    (he : exec i s = .next (s.compute i f g))
    (hg : g s.warp = s.warp.pushLong la.val u ((wbNat d t.regs s.warp.guarded fun l => (s.warp.whereActive r l).1) ++ more)
      ((List.finRange 96).foldl (fun n l => n ||| (s.warp.whereActive r l).2) 0) none)
    (hm : ∀ w, more.foldl WriteBack.apply w = M w) :
    s.pends i la (s.warp.activeFlags r) fun w => M (w.setVNat d t.regs s.warp.guarded fun l => (r l).1) := by
  have hfl : (List.finRange 96).foldl (fun n l => n ||| (s.warp.whereActive r l).2) 0 = s.warp.activeFlags r := by
    simp only [Warp.whereActive, Warp.activeFlags, apply_ite Prod.snd]
  refine ⟨u, _, fun w => ?_, by rw [he, s.compute_clear i f g h hc]; exact congrArg _ (State.after_congr (hfl ▸ hg))⟩
  rw [List.foldl_append, wbNat_apply, hm]
  exact congrArg M (w.setVNat_congr d t.regs s.warp.guarded _ _ fun l hl => by rw [Warp.whereActive, if_pos hl])

/-- The tree of lane `l`'s group over the active lanes at the present positions (R161). -/
def Warp.combined (w : Warp) (op : XOp) (t : Ty) (a : Reg) (present : Nat → Nat → Bool) (l : Lane) : Nat × Nat :=
  let g := w.groupSize
  (tree (xNode op t w.xRm) (fun j =>
    let p := laneAt (l.val - l.val % g) j
    if w.guarded.has p && present j (l.val % g) then some (w.vNat a t.regs p, 0) else none) 7 0 g).getD (xEmpty op t, 0)

/-- A reduction or scan holds in its window the tree of each active lane (R161). -/
theorem State.xcombine_pends {s : State} {i : Instr} {d a : Reg} {op : XOp} {la : Fin 16} {present : Nat → Nat → Bool}
    (h : s.clearFor false) (ht : xAccepts op (s.warp.ty .i32) = true) (hf : s.fits (s.warp.ty .i32) [a, d])
    (he : exec i s = .next (s.xcombine i d a op la present)) :
    let r := s.warp.combined op (s.warp.ty .i32) a present
    s.pends i la (s.warp.activeFlags r) fun w => w.setVNat d (s.warp.ty .i32).regs s.warp.guarded fun l => (r l).1 := by
  intro r
  have hc : s.firstCause i (s.vform (xAccepts op (s.warp.ty .i32)) (s.warp.ty .i32) .l [a] [d] []) = none := by
    rw [ht]
    exact s.vform_none i _ .l [a] [d] [] _ h.2 hf rfl rfl rfl rfl
  exact State.pends_of_lanes (M := id) (more := []) r h hc he (by rw [List.append_nil]; rfl) fun _ => rfl

/-- The form of a match, which reads its keys besides its operand and writes three scalars (R162). -/
def State.matchForm (s : State) (ok : Bool) (t : Ty) (d a b : Reg) : Form :=
  let form := s.vform ok t .l [d] [d] []
  { form with use := { form.use with vr := a.val :: form.use.vr, sw := span b 3 } }

theorem State.firstCause_matchForm {s : State} {i : Instr} {ok : Bool} {t : Ty} {d a b : Reg} (ho : s.warp.outstanding = [])
    (hok : ok = true) (hf : s.fits t [d]) (ha : s.within [a]) : s.firstCause i (s.matchForm ok t d a b) = none := by
  subst hok
  have hd := hf d (List.mem_singleton_self d)
  refine s.firstCause_none i _ ho (by simp [State.matchForm, State.vform, hd.1]) (fun x hx => ?_) rfl
  rw [State.matchForm, List.cons_append, List.mem_cons] at hx
  obtain rfl | hx := hx
  · exact ha a (List.mem_singleton_self a)
  · obtain ⟨r, hr, j, hj, rfl⟩ := State.mem_vform_use_iff.1 hx
    obtain rfl : r = d := by simpa using hr
    rw [if_pos rfl] at hj
    omega

/-- The tree of d over lane `l`'s class (R162). -/
def Warp.matched {α : Type} (w : Warp) (node : α → α → α) (leaf : Nat → α) (empty : α) (t : Ty) (d a : Reg)
    (l : Lane) : α :=
  let g := w.groupSize
  (tree node (fun j =>
    let p := laneAt (l.val - l.val % g) j
    if sameClass w g a l p then some (leaf (w.vNat d t.regs p)) else none) 7 0 g).getD empty

/-- The lowest lane of each class of active lanes (R162). -/
def Warp.leads (w : Warp) (a : Reg) (l : Lane) : Bool :=
  w.guarded.has l && (List.finRange 96).all fun m => !(decide (m.val < l.val) && sameClass w w.groupSize a l m)

/-- A match form holds in its window the tree of each active lane's class, and the mask of the lowest lanes (R162). -/
theorem State.xmatch_pends {s : State} {i : Instr} {t : Ty} {ok : Bool} {d a b : Reg} {la : Fin 16}
    {node : Rm → Nat × Nat → Nat × Nat → Nat × Nat} (h : s.clearFor false) (hok : ok = true) (hf : s.fits t [d])
    (ha : s.within [a]) (he : exec i s = .next (s.xmatch i t ok d a b la node)) :
    let r := s.warp.matched (node s.warp.xRm) (·, 0) (0, 0) t d a
    ∃ lead : LaneMask, (∀ l : Lane, lead.getLsbD l.val = s.warp.leads a l) ∧
      s.pends i la (s.warp.activeFlags r) fun w =>
        (((w.setVNat d t.regs s.warp.guarded fun l => (r l).1).setS b (lead.part 0)).setS (b + 1) (lead.part 1)).setS
          (b + 2) (lead.part 2) := by
  intro r
  exact ⟨LaneMask.ofFn (s.warp.leads a), LaneMask.getLsbD_ofFn _,
    State.pends_of_lanes r h (State.firstCause_matchForm (b := b) h.2 hok hf ha) he rfl fun w => maskParts_apply ..⟩

/-- XMOR's node raises no flag: its tree is that of the bits, which no flag accompanies (R162). -/
theorem Warp.matched_or (w : Warp) (t : Ty) (d a : Reg) :
    w.matched (fun x y : Nat × Nat => (x.1 ||| y.1, 0)) (·, 0) (0, 0) t d a =
      fun l => (w.matched (fun x y : Nat => x ||| y) id 0 t d a l, 0) := by
  funext l
  rw [Warp.matched, Warp.matched, ← Option.getD_map (fun v : Nat => (v, 0)),
    map_tree (op' := fun x y : Nat × Nat => (x.1 ||| y.1, 0)) fun _ _ => rfl]
  simp only [apply_ite (Option.map _), Option.map_some, Option.map_none, id]

/-- Settles O26: each form by its window, the tree by its halves, the nodes and empty values element by element. -/
theorem laneCombineResults : Obligations.LaneCombineResults := by
  intro s d a b op la h G act at_ flags
  refine ⟨?_, ?_, ?_, ?_, ?_, ?_⟩
  · intro t combines ht hf
    exact ⟨State.xcombine_pends (present := fun _ _ => true) h ht hf rfl,
      State.xcombine_pends (present := fun j k => decide (j ≤ k)) h ht hf rfl,
      State.xcombine_pends (present := fun j k => decide (j < k)) h ht hf rfl⟩
  · intro matches_ t ht
    exact ⟨fun hf ha => State.xmatch_pends (node := xNode .add t) h ht hf ha rfl,
      fun hf ha => State.xmatch_pends (node := xNode .min t) h ht hf ha rfl,
      fun hf ha => State.xmatch_pends (node := xNode .max t) h ht hf ha rfl⟩
  · intro t same r ht hf ha
    obtain ⟨lead, hlead, hp⟩ := State.xmatch_pends (i := .xmor d a b la) (la := la) (b := b) h ht hf ha rfl
    rw [Warp.matched_or, Warp.activeFlags_of_zero _ fun _ => rfl] at hp
    exact ⟨lead, hlead, hp⟩
  · intro leaf node lo n hn T
    refine (tree_eq_joinSides (fuel := 6) (hn.trans (by decide)) lo).trans (if_congr Iff.rfl rfl ?_)
    change joinSides node (T lo (n / 2)) (T (lo + n / 2) (n - n / 2)) = _
    cases T lo (n / 2) <;> cases T (lo + n / 2) (n - n / 2) <;> rfl
  · intro t rm x y e he W F u v z sum
    have hu : u < 2 ^ W := elemOf_lt ..
    have hv : v < 2 ^ W := elemOf_lt ..
    refine ⟨fun ht => ?_, fun ht => ?_⟩
    · have hz (o : XOp) : z o = xIntElem t u v o % 2 ^ W := elemOf_xNode_int ht rm x y he o
      refine ⟨?_, ?_, ?_, ?_, ?_, ?_, fun o => xNode_flags_int ht o rm x y⟩
      · rw [hz, Ty.wrap_eq, Ty.value_eq_val, Ty.value_eq_val]
        exact wrapTo_mod ..
      · exact (hz _).trans (eAnd_elem t u v hv)
      · exact (hz _).trans (eOr_elem t u v hu hv)
      · exact (hz _).trans (eXor_elem t u v hu hv)
      · rw [hz, Ty.value_eq_val, Ty.value_eq_val]
        refine (eMin_elem t u v hu hv).trans ?_
        simp only [← not_le, ite_not]
      · rw [hz, Ty.value_eq_val, Ty.value_eq_val]
        exact eMax_elem t u v hu hv
    · have hfl := Ty.isFloat_of_arith ht
      refine ⟨?_, ?_, ?_, ?_⟩
      · exact (elemOf_xNode .add rm x y he).trans (by rw [xElem_add_float hfl]; rfl)
      · exact (elemOf_xNode .min rm x y he).trans (by rw [xElem_min_float hfl])
      · exact (elemOf_xNode .max rm x y he).trans (by rw [xElem_max_float hfl])
      · simp only [xNode_flags, xElem_add_float hfl, FFmt.finish, Nat.or_assoc]
        rfl
  · intro t e he W z
    exact ⟨fun ht => ⟨elemOf_xEmpty_zero he (by simp), elemOf_xEmpty_zero he (by simp), elemOf_xEmpty_zero he (by simp),
      elemOf_xEmpty_and he, value_xEmpty_min ht he, value_xEmpty_max ht he⟩,
      fun ht => ⟨elemOf_xEmpty_zero he (by simp), decode_xEmpty ht he⟩⟩

end Sys2Proof.Machine
end

section
/-! PROOFS. The traps of loads, stores and atomics: the causes of their checks, in order, and the first lane that meets each (R201,
R202, R213, R214, R222, R225, R231). -/

namespace Sys2Proof.Machine
variable {s : State}

/-- A rule that ends in a cause, with nothing before it and no shared cause, enters it at once (R225, R383). -/
theorem State.issue_rule_enters {i : Instr} {f : Form} {rule : State → Res} {c : Cause} {x : DWord} (h : s.clearFor f.sync)
    (he : s.mayEnter) (hc : s.firstCause i f = none) (hr : rule s = .trap s c x) (hd : c ≠ .doublefault) :
    s.issue i f rule = s.entered c x := by
  rw [s.issue_rule i f rule h hc, hr]
  exact s.trapHere_enters c x h.2 he hd

/-! The first address that a check refuses. -/

section
variable {α β : Type} {l : List (α × β)} {p : β → Bool} {x : β}

theorem find?_of_find?_snd (h : (l.map (·.2)).find? p = some x) : ∃ y, l.find? (fun y => p y.2) = some y ∧ y.2 = x := by
  rw [List.find?_map] at h
  exact Option.map_eq_some_iff.1 h

theorem find?_none_of_find?_snd (h : (l.map (·.2)).find? p = none) : l.find? (fun y => p y.2) = none := by
  rw [List.find?_map] at h
  exact Option.map_eq_none_iff.1 h

end

/-- The causes of a global access: ALIGN at the first misaligned address, and with none ACCESS at the first past the space (R222,
R225). -/
theorem globalCause_align {α : Type} {n : Nat} {l : List (α × DWord)} {x : DWord}
    (h : (l.map (·.2)).find? (fun y => y.toNat % n != 0) = some x) : globalCause n l = some (.align, x) := by
  obtain ⟨y, hy, rfl⟩ := find?_of_find?_snd h
  rw [globalCause, hy]

theorem globalCause_access {α : Type} {n : Nat} {l : List (α × DWord)} {x : DWord} (ha : ∀ y ∈ l.map (·.2), y.toNat % n = 0)
    (h : (l.map (·.2)).find? (fun y => decide (2 ^ 57 ≤ y.toNat)) = some x) : globalCause n l = some (.access, x) := by
  have hn : (l.map (·.2)).find? (fun y => y.toNat % n != 0) = none := List.find?_eq_none.2 fun y hy => by simp [ha y hy]
  obtain ⟨y, hy, rfl⟩ := find?_of_find?_snd h
  rw [globalCause, find?_none_of_find?_snd hn, hy, Option.map_some]

theorem globalCause_ne_doublefault {α : Type} {n : Nat} {l : List (α × DWord)} {c : Cause} {x : DWord}
    (h : globalCause n l = some (c, x)) : c ≠ .doublefault := by
  unfold globalCause at h
  split at h
  · cases h; decide
  · obtain ⟨y, -, hy⟩ := Option.map_eq_some_iff.1 h
    cases hy; decide

/-- The causes of a direct access to a buffer: BUFSPACE, then HANDLE, then ALIGN, each at the first offset (R201, R202, R214). -/
theorem State.bufCause_bufspace {α : Type} {b : Buf} {n : Nat} {l : List (α × Nat)} {o : Nat}
    (h : (l.map (·.2)).find? (fun o => decide (s.bufSize s.warp.key.wg b < o + n)) = some o) :
    s.bufCause b n l = some (.bufspace, bufAddr b false o) := by
  obtain ⟨y, hy, rfl⟩ := find?_of_find?_snd h
  simp only [State.bufCause, hy]

theorem State.bufCause_handle {α : Type} {b : Buf} {n : Nat} {l : List (α × Nat)} {o : Nat}
    (hs : (l.map (·.2)).find? (fun o => decide (s.bufSize s.warp.key.wg b < o + n)) = none)
    (h : (l.map (·.2)).find? (fun o => s.lentOut s.warp.key.wg b o n) = some o) :
    s.bufCause b n l =
      some (.handle, BitVec.ofNat 64 ((s.lendingHandle s.warp.key.wg b o n).toNat + o % 2 ^ 32 * 2 ^ 32)) := by
  obtain ⟨y, hy, rfl⟩ := find?_of_find?_snd h
  simp only [State.bufCause, find?_none_of_find?_snd hs, hy]

theorem State.bufCause_align {α : Type} {b : Buf} {n : Nat} {l : List (α × Nat)} {o : Nat}
    (hs : (l.map (·.2)).find? (fun o => decide (s.bufSize s.warp.key.wg b < o + n)) = none)
    (hl : (l.map (·.2)).find? (fun o => s.lentOut s.warp.key.wg b o n) = none)
    (h : (l.map (·.2)).find? (fun o => o % n != 0) = some o) : s.bufCause b n l = some (.align, bufAddr b false o) := by
  obtain ⟨y, hy, rfl⟩ := find?_of_find?_snd h
  simp only [State.bufCause, find?_none_of_find?_snd hs, find?_none_of_find?_snd hl, hy, Option.map_some]

theorem State.bufCause_ne_doublefault {α : Type} {b : Buf} {n : Nat} {l : List (α × Nat)} {c : Cause} {x : DWord}
    (h : s.bufCause b n l = some (c, x)) : c ≠ .doublefault := by
  unfold State.bufCause at h
  dsimp only at h
  split at h
  · cases h; decide
  · split at h
    · cases h; decide
    · obtain ⟨y, -, hy⟩ := Option.map_eq_some_iff.1 h
      cases hy; decide

/-! Through a handle (R201, R213). -/

section
variable {h : Word} {n o : Nat} {os : List Nat} {l : List (Lane × Nat)} {home : WgKey} {i : Fin 16} (rule : WgKey → HandleSlot → Res)
  (hl : l.map (·.2) = o :: os)
include hl

theorem State.viaHandle_unheld (hh : s.heldHandle s.warp.key.wg h = none) :
    s.viaHandle h n l rule = .trap s .handle (BitVec.ofNat 64 (h.toNat + o % 2 ^ 32 * 2 ^ 32)) := by
  obtain ⟨y, l, rfl, rfl, -⟩ := List.map_eq_cons_iff.1 hl
  simp only [State.viaHandle, hh]

variable (hh : s.heldHandle s.warp.key.wg h = some (home, i))
include hh

theorem State.viaHandle_wb (hb : (s.slotOf home i).buf = .wb) :
    s.viaHandle h n l rule = .trap s .bufspace (bufAddr .wb true o) := by
  obtain ⟨y, l, rfl, rfl, -⟩ := List.map_eq_cons_iff.1 hl
  simp only [State.viaHandle, hh, hb, if_true]

variable (hb : (s.slotOf home i).buf ≠ .wb)
include hb

theorem State.viaHandle_past {y : Nat} (hp : (o :: os).find? (fun y => decide ((s.slotOf home i).size < y + n)) = some y) :
    s.viaHandle h n l rule = .trap s .bufspace (bufAddr (s.slotOf home i).buf true y) := by
  rw [← hl] at hp
  obtain ⟨z, hz, rfl⟩ := find?_of_find?_snd hp
  obtain ⟨y, l, rfl, rfl, -⟩ := List.map_eq_cons_iff.1 hl
  simp only [State.viaHandle, hh, if_neg hb, hz]

theorem State.viaHandle_misaligned {y : Nat} (hs : ∀ y ∈ o :: os, y + n ≤ (s.slotOf home i).size)
    (hp : (o :: os).find? (fun y => y % n != 0) = some y) :
    s.viaHandle h n l rule = .trap s .align (bufAddr (s.slotOf home i).buf true y) := by
  have hn : (o :: os).find? (fun y => decide ((s.slotOf home i).size < y + n)) = none :=
    List.find?_eq_none.2 fun y hy => by simpa using hs y hy
  rw [← hl] at hp hn
  obtain ⟨z, hz, rfl⟩ := find?_of_find?_snd hp
  have hn' := find?_none_of_find?_snd hn
  obtain ⟨y, l, rfl, rfl, -⟩ := List.map_eq_cons_iff.1 hl
  simp only [State.viaHandle, hh, if_neg hb, hn', hz]

end

/-! The forms raise no shared cause (R219, R223, R230). -/

theorem Warp.memShape_eq (w : Warp) : w.memShape = ⟨w.ty .b32, (w.ty .b32).bytes, (w.ty .b32).regs⟩ := rfl

section
variable {i : Instr} {d a b : Reg} (ho : s.warp.outstanding = [])
include ho

section
variable (ht : (s.warp.ty .b32).isBits = true) (hd : d.val % (s.warp.ty .b32).regs = 0)
include ht hd

theorem State.firstCause_scalarForm (load : Bool) : s.firstCause i (s.warp.scalarForm d a b load) = none := by
  refine s.firstCause_scalar i _ ho ?_ ?_ ?_ ?_ <;> cases load <;> simp [Warp.scalarForm, Warp.memShape, ht, hd]

variable (ha : a.val < s.warp.allot) (hw : d.val + (s.warp.ty .b32).regs ≤ s.warp.allot)
include ha hw

theorem State.firstCause_loadForm (extra : List Nat) : s.firstCause i (s.warp.loadForm d a b extra) = none := by
  refine s.firstCause_none i _ ho ?_ (fun r hr => ?_) ?_
  · simp [Warp.loadForm, Warp.memShape, hd]
  · simp only [Warp.loadForm, Warp.memShape, List.singleton_append, List.mem_cons, mem_span] at hr
    obtain rfl | ⟨j, hj, rfl⟩ := hr <;> omega
  · simp [Warp.loadForm, Warp.memShape, ht]

theorem State.firstCause_storeForm (extra : List Nat) : s.firstCause i (s.warp.storeForm d a b extra) = none := by
  refine s.firstCause_none i _ ho ?_ (fun r hr => ?_) ?_
  · simp [Warp.storeForm, Warp.memShape, hd]
  · simp only [Warp.storeForm, Warp.memShape, List.append_nil, List.mem_cons, mem_span] at hr
    obtain rfl | ⟨j, hj, rfl⟩ := hr <;> omega
  · simp [Warp.storeForm, Warp.memShape, ht]

end

end

variable {i : Instr} {d a b : Reg}

theorem AOp.regs_le_operandRegs (op : AOp) (t : Ty) : t.regs ≤ op.operandRegs t := by
  unfold AOp.operandRegs
  split <;> omega

theorem Warp.atomicForm_within (w : Warp) {op : AOp} (la : Fin 16) (hw : d.val + op.operandRegs (w.ty op.default) ≤ w.allot)
    (ha : a.val < w.allot) :
    ∀ r ∈ (w.atomicForm op d a b la).use.vr ++ (w.atomicForm op d a b la).use.vw, r < w.allot := by
  have hle := op.regs_le_operandRegs (w.ty op.default)
  intro r hr
  simp only [Warp.atomicForm, List.cons_append, List.mem_cons, List.mem_append, mem_span] at hr
  obtain rfl | ⟨j, hj, rfl⟩ | hr := hr
  · exact ha
  · omega
  · split at hr
    · exact absurd hr List.not_mem_nil
    · obtain ⟨j, hj, rfl⟩ := (mem_span ..).1 hr
      omega

/-- The form of an atomic whose fields fit its operands and whose type and scope it accepts (R230, R231). -/
theorem State.firstCause_atomicForm {op : AOp} (la : Fin 16) (ho : s.warp.outstanding = [])
    (ht : op.accepts (s.warp.ty op.default) = true) (hb : b.val ≠ 0 ∨ Scope.inCore s.warp.scope = true)
    (hd : d.val % op.operandRegs (s.warp.ty op.default) = 0) (hw : d.val + op.operandRegs (s.warp.ty op.default) ≤ s.warp.allot)
    (ha : a.val < s.warp.allot) : s.firstCause i (s.warp.atomicForm op d a b la) = none := by
  refine s.firstCause_none i _ ho ?_ (s.warp.atomicForm_within la hw ha) ?_
  · simp [Warp.atomicForm, hd]
  · obtain hb | hb := hb <;> simp [Warp.atomicForm, ht, hb]

/-- An atomic on SB at a scope wider than its core is of no type it accepts (R231). -/
theorem State.firstCause_atomicForm_type {op : AOp} (la : Fin 16) (hb : b.val = 0) (hs : Scope.inCore s.warp.scope = false)
    (hd : d.val % op.operandRegs (s.warp.ty op.default) = 0) (hw : d.val + op.operandRegs (s.warp.ty op.default) ≤ s.warp.allot)
    (ha : a.val < s.warp.allot) :
    s.firstCause i (s.warp.atomicForm op d a b la) = some (.type, BitVec.setWidth 64 (wordOf i)) :=
  State.firstCause_type (by simp [Warp.atomicForm, hd]) (s.warp.atomicForm_within la hw ha) (by simp [Warp.atomicForm, hb, hs])

/-! What enters where a check refuses an address. -/

/-- Each of the instructions enters the cause, if there is one. -/
def State.TrapsAt (s : State) (is : List Instr) (cause : Option (Cause × DWord)) : Prop :=
  ∀ c x, cause = some (c, x) → ∀ i ∈ is, exec i s = .next (s.entered c x)

/-- The causes of a global access, by the first address that each refuses. -/
theorem State.TrapsAt.global {α : Type} {is : List Instr} {n : Nat} {l : List (α × DWord)} (h : s.TrapsAt is (globalCause n l)) :
    (∀ x, (l.map (·.2)).find? (fun y => y.toNat % n != 0) = some x → ∀ i ∈ is, exec i s = .next (s.entered .align x)) ∧
      ((∀ y ∈ l.map (·.2), y.toNat % n = 0) → ∀ x, (l.map (·.2)).find? (fun y => decide (2 ^ 57 ≤ y.toNat)) = some x →
        ∀ i ∈ is, exec i s = .next (s.entered .access x)) :=
  ⟨fun _ hx => h _ _ (globalCause_align hx), fun ha _ hx => h _ _ (globalCause_access ha hx)⟩

/-- The causes of a direct access to a buffer, by the first offset that each refuses. -/
theorem State.TrapsAt.direct {α : Type} {is : List Instr} {b : Buf} {n : Nat} {l : List (α × Nat)}
    (h : s.TrapsAt is (s.bufCause b n l)) :
    let k := s.warp.key.wg
    let past := (l.map (·.2)).find? fun o => decide (s.bufSize k b < o + n)
    let lent := (l.map (·.2)).find? fun o => s.lentOut k b o n
    (∀ o, past = some o → ∀ i ∈ is, exec i s = .next (s.entered .bufspace (bufAddr b false o))) ∧
      (∀ o, past = none → lent = some o → ∀ i ∈ is, exec i s = .next (s.entered .handle
        (BitVec.ofNat 64 ((s.lendingHandle k b o n).toNat + o % 2 ^ 32 * 2 ^ 32)))) ∧
      (∀ o, past = none → lent = none → (l.map (·.2)).find? (fun o => o % n != 0) = some o →
        ∀ i ∈ is, exec i s = .next (s.entered .align (bufAddr b false o))) :=
  ⟨fun _ hp => h _ _ (State.bufCause_bufspace hp), fun _ hp hl => h _ _ (State.bufCause_handle hp hl),
    fun _ hp hl ha => h _ _ (State.bufCause_align hp hl ha)⟩

theorem State.checked_trap {α : Type} {n : Nat} {kind : AccessKind} {long : Bool} {l : List (α × DWord)}
    {rule : List (α × Xlat) → State → Res} {c : Cause} {x : DWord} (h : globalCause n l = some (c, x)) :
    s.checked n kind long l rule = .trap s c x := by
  rw [State.checked, h]

section
variable {d a b : Reg} (la : Fin 16) (h : s.clearFor false) (he : s.mayEnter) (ht : (s.warp.ty .b32).isBits = true)
  (hd : d.val % (s.warp.ty .b32).regs = 0)
include h he ht hd

/-- LDGS and STGS (R227). -/
theorem State.scalarAccess_traps :
    s.TrapsAt [.ldgs d a b la, .stgs d a b la] (globalCause (s.warp.ty .b32).bytes (s.warp.scalarAddr a b)) := by
  intro c x hc i hi
  have enters (j : Instr) (load : Bool) {rule : State → Res} (hr : rule s = .trap s c x) :
      s.issue j (s.warp.scalarForm d a b load) rule = s.entered c x :=
    State.issue_rule_enters h he (s.firstCause_scalarForm h.2 ht hd load) hr (globalCause_ne_doublefault hc)
  obtain rfl | rfl := List.mem_pair.1 hi
  · exact congrArg _ (enters _ true (State.checked_trap hc))
  · exact congrArg _ (enters _ false (State.checked_trap hc))

variable (ha : a.val < s.warp.allot) (hw : d.val + (s.warp.ty .b32).regs ≤ s.warp.allot)
include ha hw

/-- A load or store of vector data whose rule ends in a cause enters it. -/
theorem State.load_enters (i : Instr) {rule : State → Res} {c : Cause} {x : DWord} (hr : rule s = .trap s c x)
    (hc : c ≠ .doublefault) : s.issue i (s.warp.loadForm d a b []) rule = s.entered c x :=
  State.issue_rule_enters h he (s.firstCause_loadForm h.2 ht hd ha hw []) hr hc

theorem State.store_enters (i : Instr) {rule : State → Res} {c : Cause} {x : DWord} (hr : rule s = .trap s c x)
    (hc : c ≠ .doublefault) : s.issue i (s.warp.storeForm d a b []) rule = s.entered c x :=
  State.issue_rule_enters h he (s.firstCause_storeForm h.2 ht hd ha hw []) hr hc

/-- LDG and STG (R225). -/
theorem State.globalAccess_traps :
    s.TrapsAt [.ldg d a b la, .stg d a b la] (globalCause (s.warp.ty .b32).bytes (s.warp.globalLanes a b)) := by
  intro c x hc i hi
  have hn := globalCause_ne_doublefault hc
  obtain rfl | rfl := List.mem_pair.1 hi
  · exact congrArg _ (State.load_enters h he ht hd ha hw _ (by rw [State.ldgRule]; exact State.checked_trap hc) hn)
  · exact congrArg _ (State.store_enters h he ht hd ha hw _ (by rw [State.stgRule]; exact State.checked_trap hc) hn)

/-- A direct load from a buffer and a direct store to it (R201, R225). -/
theorem State.directAccess_traps {load store : Instr} {buf : Buf}
    (hl : exec load s = .next (s.issue load (s.warp.loadForm d a b []) fun u =>
      u.bufLoadRule (s.warp.loadForm d a b []) buf d a b la))
    (hs : exec store s = .next (s.issue store (s.warp.storeForm d a b []) fun u =>
      u.bufStoreRule (s.warp.storeForm d a b []) buf d a b la)) :
    s.TrapsAt [load, store] (s.bufCause buf (s.warp.ty .b32).bytes (s.warp.bufLanes a b)) := by
  intro c x hc i hi
  have hn := State.bufCause_ne_doublefault hc
  obtain rfl | rfl := List.mem_pair.1 hi
  · rw [hl, State.load_enters h he ht hd ha hw _ _ hn]
    simp only [State.bufLoadRule, Warp.memShape_eq, hc]
  · rw [hs, State.store_enters h he ht hd ha hw _ _ hn]
    simp only [State.bufStoreRule, Warp.memShape_eq, hc]

/-- LDH and STH (R213, R225). -/
theorem State.handleAccess_traps {c : Cause} {x : DWord} (hn : c ≠ .doublefault)
    (hr : ∀ rule, s.viaHandle (s.warp.s b) (s.warp.ty .b32).bytes (s.warp.handleLanes a b) rule = .trap s c x) :
    ∀ i ∈ [Instr.ldh d a b la, .sth d a b la], exec i s = .next (s.entered c x) := by
  intro i hi
  obtain rfl | rfl := List.mem_pair.1 hi
  · exact congrArg _ (State.load_enters h he ht hd ha hw _ (hr _) hn)
  · exact congrArg _ (State.store_enters h he ht hd ha hw _ (hr _) hn)

end

/-- The lanes of an atomic none of whose lanes is done (R226). -/
theorem Warp.atomic_active {w : Warp} (h : w.sp.done = 0) : w.guarded &&& ~~~w.sp.done = w.guarded := by
  rw [h]
  exact BitVec.and_allOnes

/-- The instruction issues as the atomic of an operation (R230). -/
def State.IssuesAtomic (s : State) (i : Instr) (op : AOp) (d a b : Reg) (la : Fin 16) : Prop :=
  exec i s = .next (s.issue i (s.warp.atomicForm op d a b la) fun u => u.atomicRule (s.warp.atomicForm op d a b la) op d a b la)

section
variable {i : Instr} {op : AOp} {d a b : Reg} {la : Fin 16} (h : s.clearFor (la.val != 15)) (he : s.mayEnter) (hdone : s.warp.sp.done = 0)
  (hi : s.IssuesAtomic i op d a b la)
  (hd : d.val % op.operandRegs (s.warp.ty op.default) = 0) (hw : d.val + op.operandRegs (s.warp.ty op.default) ≤ s.warp.allot)
  (ha : a.val < s.warp.allot)
include h he hdone hi hd hw ha

/-- An atomic on global memory (R225). -/
theorem State.globalAtomic_traps (ht : op.accepts (s.warp.ty op.default) = true) (hb : b.val ≠ 0) :
    s.TrapsAt [i] (globalCause (4 * (s.warp.ty op.default).regs) (s.laneAddrs a b)) := by
  intro c x hc j hj
  have hc' : globalCause (4 * (s.warp.ty op.default).regs)
      ((LaneMask.lanes s.warp.guarded).map fun l => (l, s.warp.laneAddr (s.warp.s64 b) a l)) = some (c, x) := hc
  rw [List.mem_singleton.1 hj, hi, State.issue_rule_enters h he (s.firstCause_atomicForm la h.2 ht (.inl hb) hd hw ha) _
    (globalCause_ne_doublefault hc)]
  simp only [State.atomicRule, if_neg hb, Warp.atomic_active hdone]
  rw [hc']

/-- An atomic on SB at a scope of its core (R225, R231). -/
theorem State.bufferAtomic_traps (ht : op.accepts (s.warp.ty op.default) = true) (hb : b.val = 0)
    (hs : Scope.inCore s.warp.scope = true) :
    s.TrapsAt [i] (s.bufCause .sb (4 * (s.warp.ty op.default).regs)
      ((LaneMask.lanes s.warp.guarded).map fun l => (l, (s.warp.v a l).toNat))) := by
  intro c x hc j hj
  rw [List.mem_singleton.1 hj, hi, State.issue_rule_enters h he (s.firstCause_atomicForm la h.2 ht (.inr hs) hd hw ha) _
    (State.bufCause_ne_doublefault hc)]
  simp only [State.atomicRule, if_pos hb, Warp.atomic_active hdone, hc]

omit hdone in
/-- An atomic on SB at a wider scope (R231). -/
theorem State.wideAtomic_traps (hb : b.val = 0) (hs : Scope.inCore s.warp.scope = false) :
    ∀ j ∈ [i], exec j s = .next (s.entered .type ((wordOf i).setWidth 64)) := by
  intro j hj
  rw [List.mem_singleton.1 hj, hi, State.issue_enters h he (s.firstCause_atomicForm_type la hb hs hd hw ha) (by decide)]

end

theorem Scope.inCore_iff (sc : Scope) : Scope.inCore sc = true ↔ sc = .thread ∨ sc = .warp ∨ sc = .group ∨ sc = .core := by
  cases sc <;> decide

/-- The addresses of the lanes, as a load or store lists them and as an atomic does. -/
theorem State.globalLanes_addrs (s : State) (a b : Reg) : (s.warp.globalLanes a b).map (·.2) = (s.laneAddrs a b).map (·.2) := by
  simp only [Warp.globalLanes, State.laneAddrs, List.map_map]
  rfl

theorem State.bufLanes_offsets (s : State) (a b : Reg) :
    (s.warp.bufLanes a b).map (·.2) = ((s.laneAddrs a b).map (·.2)).map (·.toNat) := by
  simp only [Warp.bufLanes, State.laneAddrs, List.map_map]
  rfl

theorem State.handleLanes_offsets (s : State) (a b : Reg) : (s.warp.handleLanes a b).map (·.2) =
    (LaneMask.lanes s.warp.guarded).map fun l =>
      ((s.warp.s (b + 1)).setWidth 64 + (s.warp.v a l).signExtend 64 : DWord).toNat := by
  simp only [Warp.handleLanes, List.map_map]
  rfl

/-- Settles O29: the checks of each kind of access by the first address that each refuses, in the order of the rules. -/
theorem accessTrapsComeInOrder : Obligations.AccessTrapsComeInOrder := by
  intro s d a b la ho he hin t k addrs traps global direct
  have ha : a.val < s.warp.allot := hin a (List.mem_singleton.2 rfl)
  refine ⟨fun hg ht hd => ?_, ?_⟩
  · have h : s.clearFor false := ⟨hg, ho⟩
    refine ⟨(State.scalarAccess_traps la h he ht hd).global, fun hw => ?_⟩
    intro offs
    have buffer {is : List Instr} {buf : Buf} (hc : s.TrapsAt is (s.bufCause buf t.bytes (s.warp.bufLanes a b))) :
        direct is t.bytes buf offs := by
      have := hc.direct
      rwa [State.bufLanes_offsets] at this
    refine ⟨?_, buffer (State.directAccess_traps la h he ht hd ha hw (exec_ldsb ..) (exec_stsb ..)),
      buffer (State.directAccess_traps la h he ht hd ha hw (exec_ldab ..) (exec_stab ..)),
      buffer (State.directAccess_traps la h he ht hd ha hw (exec_ldcb ..) (exec_stcb ..)), ?_⟩
    · have := (State.globalAccess_traps (b := b) la h he ht hd ha hw).global
      rwa [State.globalLanes_addrs] at this
    · intro is hv l o os hl
      have hl' := (s.handleLanes_offsets a b).trans hl
      have enters {c : Cause} {x : DWord} (hn : c ≠ .doublefault)
          (hr : ∀ rule, s.viaHandle hv t.bytes (s.warp.handleLanes a b) rule = .trap s c x) : traps is c x :=
        State.handleAccess_traps la h he ht hd ha hw hn hr
      rw [hl]
      exact ⟨fun hh => enters (by decide) fun rule => State.viaHandle_unheld rule hl' hh, fun home i hh =>
        ⟨fun hb => enters (by decide) fun rule => State.viaHandle_wb rule hl' hh hb,
          fun hb y hp => enters (by decide) fun rule => State.viaHandle_past rule hl' hh hb hp,
          fun hb hs y hp => enters (by decide) fun rule => State.viaHandle_misaligned rule hl' hh hb hs hp⟩⟩
  · intro atomic hg hdone
    have all {i : Instr} {op : AOp} (hi : s.IssuesAtomic i op d a b la) : atomic i op := by
      intro ht hd hw
      have h : s.clearFor (la.val != 15) := ⟨hg, ho⟩
      refine ⟨fun hb => (State.globalAtomic_traps h he hdone hi hd hw ha ht hb).global, fun hb hs => ?_, fun hb hs => ?_⟩
      · have := (State.bufferAtomic_traps h he hdone hi hd hw ha ht hb ((Scope.inCore_iff _).2 hs)).direct
        rwa [List.map_map] at this
      · exact State.wideAtomic_traps h he hi hd hw ha hb (Bool.eq_false_iff.2 fun hc => hs ((Scope.inCore_iff _).1 hc))
    exact ⟨all (exec_aadd ..), all (exec_amin ..), all (exec_amax ..), all (exec_aand ..), all (exec_aor ..), all (exec_axor ..),
      all (exec_axchg ..), all (exec_acas ..), all (exec_aincw ..), all (exec_afadd ..), all (exec_afmin ..), all (exec_afmax ..)⟩

end Sys2Proof.Machine
end

section
/-! PROOFS. What no access to memory changes of the host's interface and of the contexts: whether the interface is open, which
contexts there are, and where each is to be saved (R394, R418). -/

namespace Sys2Proof.Machine
variable {s : State}

/-- Whether the host's interface is open, and the contexts with the addresses at which each is to be saved. -/
structure Standing where
  up    : Bool
  saves : List (Nat × List Nat)

def State.standing (s : State) : Standing := ⟨s.up, s.contexts.map fun c => (c.num, c.saves)⟩

theorem State.up_of_standing {t : State} (h : t.standing = s.standing) : t.up = s.up := congrArg Standing.up h

theorem State.standing_foldl {α : Type} {f : State → α → State} (hf : ∀ t a, (f t a).standing = t.standing) (l : List α)
    (s : State) : (l.foldl f s).standing = s.standing :=
  List.foldlRecOn (motive := fun t => t.standing = s.standing) l f rfl fun t ht a _ => (hf t a).trans ht

theorem State.standing_snd_foldl {α β : Type} {f : β × State → α → β × State}
    (hf : ∀ p a, (f p a).2.standing = p.2.standing) (l : List α) (p : β × State) : (l.foldl f p).2.standing = p.2.standing :=
  List.foldlRecOn (motive := fun q => q.2.standing = p.2.standing) l f rfl fun q hq a _ => (hf q a).trans hq

/-! At the home slices. -/

/-- A change of a context's record that keeps its name and the addresses at which it is to be saved. -/
theorem State.standing_modContext {t : State} {n : Nat} {f : Context → Context} (h : s.standing = t.standing)
    (hn : ∀ c, (f c).num = c.num := by exact fun _ => rfl) (hs : ∀ c, (f c).saves = c.saves := by exact fun _ => rfl) :
    (s.modContext n f).standing = t.standing := by
  refine Eq.trans (congrArg (Standing.mk _) ?_) h
  rw [State.modContext, List.map_map]
  refine List.map_congr_left fun c _ => ?_
  simp only [Function.comp]
  split
  · rw [hn, hs]
  · rfl

theorem State.standing_setMem (s : State) (m : Memory) : ({ s with mem := m } : State).standing = s.standing := rfl

@[simp] theorem State.standing_putStored (s : State) (pa : Nat) (b : Byte) : (s.putStored pa b).standing = s.standing := by
  unfold State.putStored
  split
  case h_4 => split <;> rfl
  all_goals rfl

@[simp] theorem State.standing_rekeyLine (s : State) (pa : Nat) (key : Option Nat) :
    (s.rekeyLine pa key).standing = s.standing := by
  have hkeys (t : State) (l : List (Nat × Nat)) : ({ t with lineKeys := l } : State).standing = t.standing := rfl
  unfold State.rekeyLine
  split
  · rfl
  · exact (hkeys ..).trans (State.standing_foldl (fun t i => t.standing_putStored ..) _ s)

@[simp] theorem State.standing_logLine (s : State) (c : Context) (pa : Nat) : (s.logLine c pa).standing = s.standing := by
  unfold State.logLine
  dsimp only
  split
  · rfl
  · split
    · exact State.standing_modContext rfl
    · exact State.standing_modContext (s.standing_setMem _)

@[simp] theorem State.standing_logWrite (s : State) (w : Writer) (pa : Nat) : (s.logWrite w pa).standing = s.standing := by
  unfold State.logWrite
  split
  · rfl
  · exact State.standing_foldl (fun t c => t.standing_logLine c pa) _ s

@[simp] theorem State.standing_keepCode (s : State) (pa : Nat) : (s.keepCode pa).standing = s.standing := by
  unfold State.keepCode
  dsimp only
  split <;> rfl

@[simp] theorem State.standing_keepNamed (s : State) (lo n : Nat) : (s.keepNamed lo n).standing = s.standing := by
  refine State.standing_foldl (fun t c => ?_) _ s
  split <;> rfl

@[simp] theorem State.standing_fireAt (s : State) (w : Writer) (pa : Nat) : (s.fireAt w pa).standing = s.standing := by
  unfold State.fireAt
  dsimp only
  split <;> rfl

@[simp] theorem State.standing_homeWriteByte (s : State) (w : Writer) (pa : Nat) (b : Byte) :
    (s.homeWriteByte w pa b).standing = s.standing := by
  unfold State.homeWriteByte
  dsimp only
  split <;> simp

@[simp] theorem State.standing_homeWriteBytes (bs : List Byte) (s : State) (w : Writer) (pa : Nat) :
    (s.homeWriteBytes w pa bs).standing = s.standing := by
  induction bs generalizing s pa with
  | nil => rfl
  | cons b bs ih => exact (ih ..).trans (s.standing_homeWriteByte w pa b)

@[simp] theorem State.standing_homeWrite (s : State) (w : Writer) (pa : Nat) (bs : List Byte) :
    (s.homeWrite w pa bs).standing = s.standing := by
  simp [State.homeWrite]

/-! Through the cluster caches. -/

@[simp] theorem State.standing_setCache (s : State) (cl : Nat) (c : List CacheByte) : (s.setCache cl c).standing = s.standing := rfl

@[simp] theorem State.standing_writeBackByte (s : State) (cl pa : Nat) : (s.writeBackByte cl pa).standing = s.standing := by
  unfold State.writeBackByte
  split
  · split <;> simp
  · rfl

@[simp] theorem State.standing_lsReadByte (s : State) (w : Writer) (cl : Nat) (narrow : Bool) (pa : Nat) :
    (s.lsReadByte w cl narrow pa).2.standing = s.standing := by
  unfold State.lsReadByte
  split
  · rfl
  · split
    · split <;> rfl
    · dsimp only
      split <;> simp

@[simp] theorem State.standing_lsRead (n : Nat) (s : State) (w : Writer) (cl : Nat) (narrow : Bool) (pa : Nat) :
    (s.lsRead w cl narrow pa n).2.standing = s.standing := by
  induction n generalizing s pa with
  | zero => rfl
  | succ n ih => exact (ih ..).trans (s.standing_lsReadByte ..)

@[simp] theorem State.standing_lsWriteByte (s : State) (w : Writer) (cl : Nat) (narrow : Bool) (pa : Nat) (b : Byte) :
    (s.lsWriteByte w cl narrow pa b).standing = s.standing := by
  unfold State.lsWriteByte
  split
  · simp
  · split
    · rfl
    · dsimp only
      split <;> simp

@[simp] theorem State.standing_lsWriteBytes (bs : List Byte) (s : State) (w : Writer) (cl : Nat) (narrow : Bool) (pa : Nat) :
    (s.lsWriteBytes w cl narrow pa bs).standing = s.standing := by
  induction bs generalizing s pa with
  | nil => rfl
  | cons b bs ih => exact (ih ..).trans (s.standing_lsWriteByte ..)

@[simp] theorem State.standing_lsWrite (s : State) (w : Writer) (cl : Nat) (narrow : Bool) (pa : Nat) (bs : List Byte) :
    (s.lsWrite w cl narrow pa bs).standing = s.standing := by
  unfold State.lsWrite
  split <;> simp

@[simp] theorem State.standing_writeBackWhere (s : State) (cl : Nat) (p : Nat → Bool) :
    (s.writeBackWhere cl p).standing = s.standing :=
  State.standing_foldl (fun t (c : CacheByte) => t.standing_writeBackByte cl c.addr) _ s

@[simp] theorem State.standing_dropWhere (s : State) (cl : Nat) (p : Nat → Bool) : (s.dropWhere cl p).standing = s.standing :=
  s.standing_writeBackWhere cl p

@[simp] theorem State.standing_writeBackAll (s : State) (p : Nat → Bool) : (s.writeBackAll p).standing = s.standing :=
  State.standing_foldl (fun t cl => t.standing_writeBackWhere cl p) _ s

@[simp] theorem State.standing_emptyCaches (s : State) : s.emptyCaches.standing = s.standing := s.standing_writeBackAll _

/-! At a place. -/

@[simp] theorem State.standing_readSpot (s : State) (w : Writer) (cl : Nat) (narrow : Bool) (p : Spot) (n : Nat) :
    (s.readSpot w cl narrow p n).2.standing = s.standing := by
  cases p with
  | global pa key => exact State.standing_lsRead ..
  | buffer g b o => rfl

@[simp] theorem State.standing_writeSpot (s : State) (w : Writer) (cl : Nat) (narrow : Bool) (p : Spot) (bs : List Byte) :
    (s.writeSpot w cl narrow p bs).standing = s.standing := by
  cases p with
  | global pa key => exact State.standing_lsWrite ..
  | buffer g b o => rfl

@[simp] theorem State.standing_atomicAt (s : State) (w : Writer) (cl : Nat) (place : AtomicPlace) (op : AOp) (t : Ty) (h : Halves)
    (p : Spot) (v c : Nat) : (s.atomicAt w cl place op t h p v c).2.standing = s.standing := by
  cases p with
  | buffer g b o => rfl
  | global pa key =>
    have hdrops (p : Nat → Bool) (l : List Nat) : (l.foldl (fun s k => s.dropWhere k p) s).standing = s.standing :=
      State.standing_foldl (fun t k => t.standing_dropWhere k p) l s
    refine (State.standing_lsWrite ..).trans ((State.standing_lsRead ..).trans ?_)
    dsimp only
    split <;> simp [hdrops]

@[simp] theorem State.standing_applyLanes (s : State) (w : Writer) (cl : Nat) (place : AtomicPlace) (op : AOp) (t : Ty) (h : Halves)
    (l : List LateLane) : (s.applyLanes w cl place op t h l).2.standing = s.standing := by
  refine State.standing_snd_foldl (fun p _ => ?_) l _
  exact p.2.standing_atomicAt ..

/-! Accesses that are performed after their instruction has issued. -/

@[simp] theorem State.standing_modWarp (s : State) (f : Warp → Warp) : (s.modWarp f).standing = s.standing := rfl
@[simp] theorem State.standing_modWarpAt (s : State) (k : WarpKey) (f : Warp → Warp) : (s.modWarpAt k f).standing = s.standing := rfl

@[simp] theorem State.standing_performOp (s : State) (l : LongOp) (h : Halves) : (s.performOp l h).2.standing = s.standing := by
  have hacq (t : State) (sc : Scope) : (t.acquireAt sc).standing = t.standing := by
    unfold State.acquireAt
    split <;> simp
  unfold State.performOp
  dsimp only
  split
  · rfl
  · split
    · rfl
    · split
      · rfl
      · refine State.standing_snd_foldl (fun p _ => ?_) _ ([], s)
        exact p.2.standing_readSpot ..
  · split
    · split <;> simp
    · split <;> split <;> simp [hacq]

@[simp] theorem State.standing_performOps (p : LongOp → Bool) (l : List LongOp) (s : State) :
    (State.performOps p l s).standing = s.standing := by
  induction l generalizing s with
  | nil => rfl
  | cons x l ih =>
    have hx : (if p x then s.performOp x .both else (x, s)).2.standing = s.standing := by split <;> simp
    exact (ih _).trans hx

@[simp] theorem State.standing_performLong (s : State) (p : LongOp → Bool) : (s.performLong p).standing = s.standing := by
  unfold State.performLong
  split <;> simp

@[simp] theorem State.standing_complete (s : State) (p : LongOp → Bool) : (s.complete p).standing = s.standing :=
  s.standing_performLong p

@[simp] theorem State.standing_performWrites (s : State) (p : LateWrite → Bool) : (s.performWrites p).standing = s.standing := by
  refine State.standing_foldl (fun t x => ?_) _ { s with late := s.late.filter fun x => !p x }
  unfold State.performLate
  dsimp only
  split <;> simp

@[simp] theorem State.standing_focus (s : State) (k : WarpKey) : (s.focus k).standing = s.standing := by
  unfold State.focus
  split
  · rfl
  · split <;> rfl

theorem State.standing_inSplit {f : State → State} (hf : ∀ t, (f t).standing = t.standing) (s : State) (k : WarpKey) (i : Fin 4) :
    (s.inSplit k i f).standing = s.standing := by
  simp [State.inSplit, hf]

@[simp] theorem State.standing_performOn (s : State) (k : WarpKey) (l : List (Spot × Nat)) : (s.performOn k l).standing = s.standing := by
  unfold State.performOn
  split
  · rfl
  · split
    · rw [State.standing_performWrites, State.standing_inSplit fun t => t.standing_performLong _]
    · rfl

@[simp] theorem State.standing_performRed (s : State) (w : Warp) (clock : Option Nat) (r : Reduction) :
    (s.performRed w clock r).standing = s.standing := by
  unfold State.performRed
  dsimp only
  split <;> simp [State.performHalf]

@[simp] theorem State.standing_flushReds (s : State) : s.flushReds.standing = s.standing :=
  State.standing_foldl (fun t r => t.standing_performRed s.warp none r) _ s

/-! The canonical point (R394). -/

@[simp] theorem State.standing_quiet (s : State) (ctx : Nat) : (s.quiet ctx).standing = s.standing := by
  rw [State.quiet, State.standing_emptyCaches]
  refine (State.standing_foldl (fun t w => ?_) _ _).trans (s.standing_performWrites _)
  split
  · rfl
  · refine State.standing_inSplit (fun u => ?_) t ..
    dsimp only
    split <;> simp

@[simp] theorem State.standing_keepBeside (s : State) (ctx : Nat) : (s.keepBeside ctx).standing = s.standing :=
  State.standing_modContext rfl

end Sys2Proof.Machine
end

section
/-! PROOFS. Checkpoints, pre-emption, rollback and planting (R394, R408, R410, R415 to R417), and the page engine's services (R191,
R195, R196). -/

namespace Sys2Proof.Machine
variable {s : State} {ctx : Nat} {c : Context}

/-! A context's record after a change of it. -/

theorem State.context_modContext {f : Context → Context} (hf : ∀ c, (f c).num = c.num) (h : s.context ctx = some c) :
    (s.modContext ctx f).context ctx = some (f c) := by
  have hnum : c.num = ctx := by simpa using List.find?_some h
  have hcomp : ((fun x : Context => x.num == ctx) ∘ fun x => if x.num == ctx then f x else x) = fun x => x.num == ctx := by
    funext x
    simp only [Function.comp]
    split <;> simp [hf]
  rw [State.context, State.modContext, List.find?_map, hcomp, show s.contexts.find? _ = some c from h]
  simp [hnum]

theorem State.contextRuns_iff (h : s.context ctx = some c) : s.contextRuns ctx = true ↔ c.dead = false ∧ c.frozen = false := by
  simp [State.contextRuns, h]

/-- Accesses to memory leave the addresses at which a context is to be saved. -/
theorem State.saves_of_standing {t : State} (h : t.standing = s.standing) (ctx : Nat) :
    (t.context ctx).map (·.saves) = (s.context ctx).map (·.saves) := by
  have key (u : State) : (u.context ctx).map (·.saves) = (u.standing.saves.find? fun x => x.1 == ctx).map (·.2) := by
    rw [State.standing, List.find?_map, Option.map_map]
    rfl
  rw [key, key, h]

/-! A freeze that was asked for (R394, R417). -/

theorem State.takeCheckpoint_standing (s : State) (ctx : Nat) : (s.takeCheckpoint ctx).standing = s.standing := by
  unfold State.takeCheckpoint
  dsimp only
  split
  · exact s.standing_quiet ctx
  · exact State.standing_modContext (by simp)

/-- A due checkpoint of a context that is to be saved nowhere is taken at its canonical point (R415). -/
theorem State.finishFreeze_checkpoint (h : s.context ctx = some c) (hr : s.contextRuns ctx = true) (hp : s.canonical ctx = true)
    (hd : c.checkDue = true) (hs : c.saves = []) : s.finishFreeze ctx = s.takeCheckpoint ctx := by
  have hsaves : ((s.takeCheckpoint ctx).context ctx).any (fun c => c.saves != []) = false := by
    have hmap := State.saves_of_standing (s.takeCheckpoint_standing ctx) ctx
    rw [h, Option.map_some, hs] at hmap
    obtain ⟨d, hd, hnil⟩ := Option.map_eq_some_iff.1 hmap
    simp [hd, hnil]
  rw [State.finishFreeze, if_neg (by simp [State.freezing, h, hd, hr, hp])]
  simp [h, hd, hsaves]

/-- A context that no checkpoint is due for is pre-empted at its canonical point (R394). -/
theorem State.finishFreeze_preempt (h : s.context ctx = some c) (hr : s.contextRuns ctx = true) (hp : s.canonical ctx = true)
    (hd : c.checkDue = false) (hs : c.saves ≠ []) : s.finishFreeze ctx = s.preemptNow ctx := by
  rw [State.finishFreeze, if_neg (by simp [State.freezing, h, hs, hr, hp])]
  simp [h, hd, hs]

theorem State.finishFreeze_waits (hp : s.canonical ctx = false) : s.finishFreeze ctx = s := by
  rw [State.finishFreeze, if_pos (by simp [hp])]

theorem State.preemptNow_one {a : Nat} (h : s.context ctx = some c) (hs : c.saves = [a]) : s.preemptNow ctx =
    ((s.saveImage ctx a none).dropWork ctx).modContext ctx fun c => { c with saves := [], frozen := true } := by
  rw [State.preemptNow, h]
  simp only [hs]
  rfl

/-! The steps. -/

/-- A change of a context's record that keeps its name and its life keeps whether it runs. -/
theorem State.contextRuns_modContext {f : Context → Context} (hf : ∀ c, (f c).num = c.num) (hd : ∀ c, (f c).dead = c.dead)
    (hz : ∀ c, (f c).frozen = c.frozen) (h : s.context ctx = some c) (hr : s.contextRuns ctx = true) :
    (s.modContext ctx f).contextRuns ctx = true := by
  rw [State.contextRuns_iff (State.context_modContext hf h), hd, hz]
  exact (State.contextRuns_iff h).1 hr

/-- A checkpoint of the context is due (R415). -/
def State.withCheckDue (s : State) (ctx : Nat) : State := s.modContext ctx fun c => { c with checkDue := true }
/-- The host has asked for the context's image at an address (R394). -/
def State.withSave (s : State) (ctx a : Nat) : State :=
  ({ s with events := s.events ++ [.answer 4 true] } : State).modContext ctx fun c => { c with saves := c.saves ++ [a] }

theorem State.execCheckpoint_due (h : s.context ctx = some c) (hr : s.contextRuns ctx = true) (hd : s.checkpointDue c = true)
    (hs : c.saves = []) (hp : (s.withCheckDue ctx).canonical ctx = true) :
    execCheckpoint ctx s = .next ((s.withCheckDue ctx).takeCheckpoint ctx) := by
  rw [execCheckpoint, if_pos (by simp [h, hd])]
  exact congrArg _ (State.finishFreeze_checkpoint (State.context_modContext (fun _ => rfl) h)
    (State.contextRuns_modContext (fun _ => rfl) (fun _ => rfl) (fun _ => rfl) h hr) hp rfl hs)

theorem State.execCheckpoint_not_due (h : s.context ctx = some c) (hd : s.checkpointDue c = false) :
    execCheckpoint ctx s = .next s := by
  rw [execCheckpoint, if_neg (by simp [h, hd])]

theorem State.execPreempt_up {a : Nat} (hr : s.contextRuns ctx = true) (hu : s.up = true) :
    execPreempt ctx a s = .next ((s.withSave ctx a).finishFreeze ctx) := by
  rw [execPreempt, if_neg (by simp [hu]), if_neg (by simp [hr])]
  rfl

theorem State.execPreempt_canonical {a : Nat} (h : s.context ctx = some c) (hr : s.contextRuns ctx = true) (hu : s.up = true)
    (hs : c.saves = []) (hd : c.checkDue = false) (hp : (s.withSave ctx a).canonical ctx = true) :
    execPreempt ctx a s = .next ((((s.withSave ctx a).saveImage ctx a none).dropWork ctx).modContext ctx
      fun c => { c with saves := [], frozen := true }) := by
  have hctx : (s.withSave ctx a).context ctx = some { c with saves := c.saves ++ [a] } :=
    State.context_modContext (s := { s with events := s.events ++ [.answer 4 true] }) (fun _ => rfl) h
  have hruns : (s.withSave ctx a).contextRuns ctx = true := by
    rw [State.contextRuns_iff hctx]
    exact (State.contextRuns_iff h).1 hr
  rw [State.execPreempt_up hr hu, State.finishFreeze_preempt hctx hruns hp hd (by simp),
    State.preemptNow_one (a := a) hctx (by simp [hs])]

theorem State.execRollback_to (h : s.context ctx = some c) (hr : s.canRollback ctx = true) :
    execRollback ctx s = .next (
      let v := (s.undoWrites c).dropWork ctx
      let v : State := { v with queues := v.queues.map fun (x : Queue) => if x.ctx == ctx then { x with rewritten := [] } else x }
      let u := (v.plantImage ctx (if c.current == some true then c.areaB else c.areaA)).2
      { u with events := u.events ++ [.rolledBack ctx] }) := by
  rw [execRollback, State.rollback, h]
  simp only [hr, Bool.not_true, Bool.false_eq_true, if_false]

theorem State.execRollback_not (hr : s.canRollback ctx = false) : execRollback ctx s = .next s := by
  rw [execRollback, State.rollback]
  split <;> simp [hr]

/-- A protected context has its key when its slot is loaded (R420). -/
theorem State.keyOf_isSome (h : s.context ctx = some c) :
    (s.keyOf ctx).isSome = (c.protect && s.keys.any fun k => k.slot == c.keySlot) := by
  rw [State.keyOf, h]
  cases hp : c.protect <;> simp [hp, List.isSome_find?]

theorem State.plantImage_eq (h : s.context ctx = some c) (a : Nat) :
    let img := s.readImage a
    let status := imageStatus (c.protect && s.keys.any fun k => k.slot == c.keySlot) img
    s.plantImage ctx a = (status.1, if status.1 = 0 then s.plantAll ctx img status.2 else s) := by
  intro img status
  rw [State.plantImage]
  simp only [State.keyOf_isSome h]
  split
  · next ss hs => simp [status, img, hs]
  · next code ss hne hs =>
    have hc : status = (code, ss) := hs
    have hz : code ≠ 0 := fun hz => hne hz
    simp [hc, hz]

theorem State.execPlant_plantable (hu : s.up = true) {a : Nat} (hp : s.plantable ctx = true) :
    execPlant ctx a s = .next (
      let x := s.plantImage ctx a
      { x.2 with events := x.2.events ++ [.plantStatus ctx x.1, .answer 5 (x.1 == 0)] }) := by
  rw [execPlant, if_neg (by simp [hu]), if_neg (by simp [hp])]

theorem State.execPlant_refused (hu : s.up = true) {a : Nat} (hp : s.plantable ctx = false) :
    execPlant ctx a s = .next { s with events := s.events ++ [.answer 5 false] } := by
  rw [execPlant, if_neg (by simp [hu]), if_pos (by simp [hp])]

/-- The page engine's service of a parked write: it is replayed, or offered as PAGEPOOL (R195, R196). -/
theorem State.execCowService_eq {p : Park} (h : s.parkOf p.id = some p) (hc : p.cause = none) :
    execCowService p.id s = .next (if (s.cowServe p.ctx p.va).1 then (s.cowServe p.ctx p.va).2.replay p
      else (s.cowServe p.ctx p.va).2.offerPool p) := by
  rw [execCowService, h]
  simp only [hc, if_true]
  split <;> next e => simp [e]

theorem State.execPoolReplay_eq {p : Park} (h : s.parkOf p.id = some p) (hc : p.cause = some .pagepool) :
    execPoolReplay p.id s = .next (if s.poolCount p.ctx = 0 then s else s.replay p) := by
  rw [execPoolReplay, h]
  simp only [hc, true_and, ite_not]

/-- Settles O54: each step by its condition; a checkpoint leaves no address at which the context is still to be saved, so that no
pre-emption follows it. -/
theorem checkpointRollbackPreemptPlantAndPages : Obligations.CheckpointRollbackPreemptPlantAndPages := by
  intro s ctx a c p h hr dueNow asked checkpoint
  refine ⟨fun hd hs hp => ?_, fun hd => ?_, fun hu hs hd hp => ?_, fun hu hs hd hp => ?_, fun hb => ?_, fun hb => ?_,
    fun hu hp => ?_, fun hu hp => ?_, fun hpark hc => ⟨fun u hs => ?_, fun u hs => ?_⟩,
    fun hpark hc => ⟨fun hn => ?_, fun hn => ?_⟩⟩
  · exact (exec_checkpoint ..).trans (State.execCheckpoint_due h hr hd hs hp)
  · rw [exec_checkpoint, State.execCheckpoint_not_due h hd]
  · exact (exec_preempt ..).trans (State.execPreempt_canonical h hr hu hs hd hp)
  · rw [exec_preempt, State.execPreempt_up hr hu]
    exact congrArg _ (State.finishFreeze_waits hp)
  · rw [exec_rollback, State.execRollback_to h hb]
  · rw [exec_rollback, State.execRollback_not hb]
  · intro img status u
    rw [exec_plant, State.execPlant_plantable hu hp, State.plantImage_eq h]
  · rw [exec_plant, State.execPlant_refused hu hp]
  · rw [exec_cowService, State.execCowService_eq hpark hc, hs]
    rfl
  · rw [exec_cowService, State.execCowService_eq hpark hc, hs]
    rfl
  · rw [exec_poolReplay, State.execPoolReplay_eq hpark hc, if_neg hn]
  · rw [exec_poolReplay, State.execPoolReplay_eq hpark hc, if_pos hn]

end Sys2Proof.Machine
end

section
/-! PROOFS. What dropping a context's work leaves: the member's memory, keys and scrubs, and what the work of other contexts is
(R106, R423). -/

namespace Sys2Proof.Machine
variable {s : State} {ctx : Nat}

/-- What a GROW that is tried again does not change, with the names of the workgroups and of the live warps. -/
structure Roster where
  mem      : Memory
  keys     : List KeySlot
  scrubs   : List Scrub
  launches : List Launch
  groups   : List WgKey
  warps    : Set WarpKey

def State.roster (s : State) : Roster :=
  ⟨s.mem, s.keys, s.scrubs, s.launches, s.groups.map (·.key), {k | ∃ w ∈ s.warps, w.key = k}⟩

theorem State.roster_foldl {α : Type} {f : State → α → State} (hf : ∀ t a, (f t a).roster = t.roster) (l : List α) (s : State) :
    (l.foldl f s).roster = s.roster :=
  List.foldlRecOn (motive := fun t => t.roster = s.roster) l f rfl fun t ht a _ => (hf t a).trans ht

theorem State.mem_warps_iff {x : Warp} : x ∈ s.warps ↔ (x = s.warp ∨ x ∈ s.others) ∧ x.live = true := by
  simp [State.warps]

theorem State.roster_focus (s : State) (k : WarpKey) : (s.focus k).roster = s.roster := by
  unfold State.focus
  split
  · rfl
  · split
    · rfl
    · next w hw =>
      have hmem := List.mem_of_find?_eq_some hw
      obtain ⟨hlive, hkey⟩ : w.live = true ∧ w.key = k := by simpa using List.find?_some hw
      refine congrArg (Roster.mk _ _ _ _ _) (Set.ext fun j => ⟨?_, ?_⟩)
      · rintro ⟨x, hx, rfl⟩
        obtain ⟨hx, hl⟩ := State.mem_warps_iff.1 hx
        refine ⟨x, State.mem_warps_iff.2 ⟨?_, hl⟩, rfl⟩
        obtain rfl | hx := hx
        · exact .inr hmem
        · dsimp only at hx
          split at hx
          · obtain hx | hx := List.mem_append.1 hx
            · exact .inr (List.mem_filter.1 hx).1
            · exact .inl (List.mem_singleton.1 hx)
          · exact .inr (List.mem_filter.1 hx).1
      · rintro ⟨x, hx, rfl⟩
        obtain ⟨hx, hl⟩ := State.mem_warps_iff.1 hx
        by_cases hk : x.key = k
        · exact ⟨w, State.mem_warps_iff.2 ⟨.inl rfl, hlive⟩, hkey.trans hk.symm⟩
        · refine ⟨x, State.mem_warps_iff.2 ⟨.inr ?_, hl⟩, rfl⟩
          dsimp only
          obtain rfl | hx := hx
          · rw [if_pos hl]
            exact List.mem_append_right _ (List.mem_singleton.2 rfl)
          · have hrest : x ∈ s.others.filter fun x => !(x.live && x.key == k) := List.mem_filter.2 ⟨hx, by simp [hk]⟩
            split
            · exact List.mem_append_left _ hrest
            · exact hrest

/-- Changes of warps that keep their names and lives. -/
theorem State.roster_modWarps {f : Warp → Warp} (p : Warp → Bool) (hk : ∀ w, (f w).key = w.key) (hl : ∀ w, (f w).live = w.live)
    (s : State) : (s.modWarps p f).roster = s.roster := by
  have hkey (w : Warp) : (if p w then f w else w).key = w.key := by split <;> simp [hk]
  have hlive (w : Warp) : (if p w then f w else w).live = w.live := by split <;> simp [hl]
  have hwarps : (s.modWarps p f).warps = s.warps.map fun w => if p w then f w else w := by
    rw [show (s.modWarps p f).warps = ((s.warp :: s.others).map fun w => if p w then f w else w).filter (·.live) from rfl,
      List.filter_map]
    exact congrArg _ (List.filter_congr fun w _ => hlive w)
  refine congrArg (Roster.mk _ _ _ _ _) (Set.ext fun j => ?_)
  simp [hwarps, hkey]

theorem State.roster_modWarp {f : Warp → Warp} (hk : (f s.warp).key = s.warp.key) (hl : (f s.warp).live = s.warp.live) :
    (s.modWarp f).roster = s.roster := by
  refine congrArg (Roster.mk _ _ _ _ _) (Set.ext fun j => ?_)
  simp [State.mem_warps_iff, or_and_right, exists_or, hk, hl]

theorem State.roster_inSplit {f : State → State} (hf : ∀ t, (f t).roster = t.roster) (s : State) (k : WarpKey) (i : Fin 4) :
    (s.inSplit k i f).roster = s.roster := by
  dsimp only [State.inSplit]
  rw [State.roster_focus, State.roster_modWarp rfl rfl, hf, State.roster_modWarp rfl rfl, State.roster_focus]

/-- A change of a workgroup that keeps its name. -/
theorem State.roster_modGroup {f : Workgroup → Workgroup} (hf : ∀ g, (f g).key = g.key) (s : State) (k : WgKey) :
    (s.modGroup k f).roster = s.roster := by
  have hkeys : (s.modGroup k f).groups.map (·.key) = s.groups.map (·.key) := by
    rw [State.modGroup, List.map_map]
    refine List.map_congr_left fun g _ => ?_
    simp only [Function.comp]
    split <;> simp [hf]
  exact congrArg (fun l => Roster.mk _ _ _ _ l _) hkeys

theorem Workgroup.grants_key (g : Workgroup) (half : Bool) (take need : Nat) : (g.grants half take need).key = g.key :=
  Workgroup.addCharge_key ..

theorem State.roster_growGrant {t : State} {n : Nat} (h : s.growGrant n = some t) : t.roster = s.roster := by
  by_cases hg : s.warp.allot + n ≤ 128 ∧ s.suppliesGrow n
  · obtain ⟨ha, hs⟩ := hg
    rw [State.growGrant_granted ha hs] at h
    obtain rfl := Option.some.inj h
    exact (State.roster_modWarp rfl rfl).trans (State.roster_modGroup (fun g => g.grants_key ..) s _)
  · rw [State.growGrant_none hg] at h
    cases h

theorem State.roster_retryGrow (s : State) (k : WarpKey) (i : Fin 4) : (s.retryGrow k i).roster = s.roster := by
  unfold State.retryGrow
  split
  · rfl
  · split
    · refine State.roster_inSplit (fun t => ?_) s k i
      split
      · next e => exact (State.roster_modWarp (by simp) (by simp)).trans (State.roster_growGrant e)
      · rfl
    · rfl

theorem State.roster_retryGrows (s : State) : s.retryGrows.roster = s.roster :=
  State.roster_foldl (fun _ k => State.roster_foldl (fun t i => t.roster_retryGrow k i) _ _) _ s

theorem State.roster_wake (s : State) (who : Warp → Bool) (p : Wait → Bool) (clock : Option Nat) :
    (s.wake who p clock).roster = s.roster := by
  refine State.roster_modWarps who (fun w => ?_) (fun w => ?_) s
  all_goals dsimp only; split <;> rfl

/-- The context's work, before those that waited for what it held go on. -/
def State.withoutWork (s : State) (ctx : Nat) : State :=
  { s with
    launches := s.launches.filter fun l => l.key.ctx != ctx
    groups := s.groups.filter fun g => g.key.ctx != ctx
    warp := if s.warp.live && s.warp.key.ctx == ctx then Warp.idle else s.warp
    others := s.others.filter fun w => !(w.live && w.key.ctx == ctx) }

theorem State.roster_dropWork (s : State) (ctx : Nat) : (s.dropWork ctx).roster = (s.withoutWork ctx).roster :=
  (State.roster_wake ..).trans (State.roster_retryGrows _)

theorem State.withoutWork_warps {x : Warp} (h : x ∈ (s.withoutWork ctx).warps) : x.key.ctx ≠ ctx := by
  obtain ⟨hx, hl⟩ := State.mem_warps_iff.1 h
  obtain rfl | hx := hx
  · dsimp only [State.withoutWork] at hl ⊢
    split at hl
    · cases hl
    · next hn => rw [if_neg hn]; simpa [hl] using hn
  · simpa [hl] using (List.mem_filter.1 hx).2

section
variable (s : State) (ctx : Nat)

theorem State.dropWork_mem : (s.dropWork ctx).mem = s.mem := congrArg Roster.mem (s.roster_dropWork ctx)
theorem State.dropWork_keys : (s.dropWork ctx).keys = s.keys := congrArg Roster.keys (s.roster_dropWork ctx)
theorem State.dropWork_scrubs : (s.dropWork ctx).scrubs = s.scrubs := congrArg Roster.scrubs (s.roster_dropWork ctx)
theorem State.dropWork_launches : (s.dropWork ctx).launches = s.launches.filter fun l => l.key.ctx != ctx :=
  congrArg Roster.launches (s.roster_dropWork ctx)

end

theorem State.dropWork_groups {g : Workgroup} (h : g ∈ (s.dropWork ctx).groups) : g.key.ctx ≠ ctx := by
  have hkeys : (s.dropWork ctx).groups.map (·.key) = (s.withoutWork ctx).groups.map (·.key) :=
    congrArg Roster.groups (s.roster_dropWork ctx)
  have hg := List.mem_map_of_mem (f := (·.key)) h
  rw [hkeys] at hg
  obtain ⟨g', hg', hk⟩ := List.mem_map.1 hg
  simpa [← hk] using (List.mem_filter.1 hg').2

theorem State.dropWork_warps {x : Warp} (h : x ∈ (s.dropWork ctx).warps) : x.key.ctx ≠ ctx := by
  have hkeys := congrArg Roster.warps (s.roster_dropWork ctx)
  have hx : x.key ∈ (s.dropWork ctx).roster.warps := ⟨x, h, rfl⟩
  obtain ⟨y, hy, hk⟩ : x.key ∈ (s.withoutWork ctx).roster.warps := hkeys ▸ hx
  exact hk ▸ State.withoutWork_warps hy

end Sys2Proof.Machine
end

section
/-! PROOFS. What the scrub engine zeroes (R423, R424). -/

namespace Sys2Proof.Machine
variable {s : State}

/-- A byte of what is left of memory once some addresses are taken out. -/
theorem cellGet_filter (m : List Host.Cell) (p : Nat → Bool) (a : Nat) :
    cellGet (m.filter fun c => p c.1) a = if p a then cellGet m a else Memory.default := by
  induction m with
  | nil => simp [cellGet]
  | cons c cs ih =>
    by_cases hc : p c.1 = true
    · rw [List.filter_cons_of_pos (by exact hc), cellGet, cellGet, ih]
      by_cases ha : c.1 = a
      · rw [if_pos ha, if_pos ha, if_pos (ha ▸ hc)]
      · rw [if_neg ha, if_neg ha]
    · rw [List.filter_cons_of_neg (by exact hc), ih, cellGet]
      by_cases ha : c.1 = a
      · rw [if_neg (ha ▸ hc), if_neg (ha ▸ hc)]
      · rw [if_neg ha]

/-! One piece. -/

/-- An address lies outside a frame. -/
def outsideFrame (f : Nat × Nat) (a : Nat) : Bool := decide (a < f.1 ∨ f.1 + f.2 ≤ a)

/-- What the scrub engine's write to a frame keeps for those that share it (R78, R415, R423). -/
def State.frameKept (s : State) (f : Nat × Nat) : State :=
  let s := s.keepNamed f.1 f.2
  if s.launches.isEmpty && s.contexts.all (·.interval == 0) then s
  else (List.range (f.2 / 64)).foldl (fun s i => (s.keepCode (f.1 + 64 * i)).logWrite Writer.device (f.1 + 64 * i)) s

/-- The scrub engine's write, before the monitors that it meets are fired. -/
def State.frameZeroed (s : State) (f : Nat × Nat) : State :=
  let s := s.frameKept f
  { s with
    mem := s.mem.filter fun c => outsideFrame f c.1
    l2 := s.l2.filter fun c => outsideFrame f c.addr
    caches := s.caches.map fun (k : Nat × List CacheByte) => (k.1, k.2.filter fun b => outsideFrame f b.addr)
    lineKeys := s.lineKeys.filter fun k => outsideFrame f (64 * k.1) }

theorem State.zeroFrame_eq (s : State) (f : Nat × Nat) : s.zeroFrame f = (s.frameZeroed f).monitors.foldl (fun s m =>
    if rangesMeet f.1 f.2 m.addr m.width then s.fireAt Writer.device (max f.1 m.addr) else s) (s.frameZeroed f) := rfl

theorem State.frameKept_standing (s : State) (f : Nat × Nat) : (s.frameKept f).standing = s.standing := by
  refine Eq.trans ?_ (s.standing_keepNamed f.1 f.2)
  unfold State.frameKept
  dsimp only
  split
  · rfl
  · exact State.standing_foldl (fun t i => by simp) _ _

theorem State.zeroFrame_standing (s : State) (f : Nat × Nat) : (s.zeroFrame f).standing = s.standing := by
  rw [State.zeroFrame_eq]
  refine (State.standing_foldl (fun t m => ?_) _ _).trans (s.frameKept_standing f)
  split <;> simp

/-- The contexts, and memory. -/
def State.stored (s : State) : List Context × Memory := (s.contexts, s.mem)

theorem State.stored_foldl {α : Type} {f : State → α → State} {P : State → Prop} (hP : ∀ t u, t.stored = u.stored → P u → P t)
    (hf : ∀ t a, P t → (f t a).stored = t.stored) (l : List α) {s : State} (h : P s) : (l.foldl f s).stored = s.stored :=
  List.foldlRecOn (motive := fun t => t.stored = s.stored) l f rfl fun t ht a _ => (hf t a (hP t s ht h)).trans ht

/-- No context is checkpointed. -/
def State.unlogged (s : State) : Prop := ∀ c ∈ s.contexts, c.interval = 0

theorem State.unlogged_of_stored {t : State} (h : t.stored = s.stored) (hu : s.unlogged) : t.unlogged := by
  rwa [State.unlogged, show t.contexts = s.contexts from congrArg Prod.fst h]

/-- Where no context is checkpointed no write is logged (R415). -/
theorem State.logWrite_unlogged (h : s.unlogged) (w : Writer) (pa : Nat) : s.logWrite w pa = s := by
  have hnil : (s.contexts.filter fun c => c.interval != 0 && (w.ctx == some c.num || s.hasNamed c.num pa)) = [] :=
    List.filter_eq_nil_iff.2 fun c hc => by simp [h c hc]
  rw [State.logWrite, hnil]
  exact ite_self _

theorem State.keepCode_stored (s : State) (pa : Nat) : (s.keepCode pa).stored = s.stored := by
  unfold State.keepCode
  dsimp only
  split <;> rfl

theorem State.keepNamed_stored (s : State) (lo n : Nat) : (s.keepNamed lo n).stored = s.stored := by
  refine List.foldlRecOn (motive := fun t : State => t.stored = s.stored) s.contexts _ rfl fun t ht c _ => ?_
  split <;> exact ht

theorem State.fireAt_stored (s : State) (w : Writer) (pa : Nat) : (s.fireAt w pa).stored = s.stored := by
  unfold State.fireAt
  dsimp only
  split <;> rfl

theorem State.frameKept_stored (h : s.unlogged) (f : Nat × Nat) : (s.frameKept f).stored = s.stored := by
  have hcode (t : State) (i : Nat) (ht : t.unlogged) :
      ((t.keepCode (f.1 + 64 * i)).logWrite Writer.device (f.1 + 64 * i)).stored = t.stored := by
    rw [State.logWrite_unlogged (State.unlogged_of_stored (t.keepCode_stored _) ht), State.keepCode_stored]
  have hu : (s.keepNamed f.1 f.2).unlogged := State.unlogged_of_stored (s.keepNamed_stored ..) h
  refine Eq.trans ?_ (s.keepNamed_stored f.1 f.2)
  unfold State.frameKept
  dsimp only
  split
  · rfl
  · exact State.stored_foldl (fun _ _ => State.unlogged_of_stored) hcode _ hu

theorem State.zeroFrame_stored (h : s.unlogged) (f : Nat × Nat) :
    (s.zeroFrame f).stored = (s.contexts, s.mem.filter fun c => outsideFrame f c.1) := by
  rw [State.zeroFrame_eq]
  refine (List.foldlRecOn (motive := fun t : State => t.stored = (s.frameZeroed f).stored) _ _ rfl fun t ht m _ => ?_).trans ?_
  · split
    · exact (t.fireAt_stored ..).trans ht
    · exact ht
  · exact congrArg (fun x : List Context × Memory => (x.1, x.2.filter fun c => outsideFrame f c.1)) (State.frameKept_stored h f)

/-! All the pieces. -/

theorem State.zeroFrames_standing (l : List (Nat × Nat)) (s : State) : (l.foldl State.zeroFrame s).standing = s.standing :=
  State.standing_foldl State.zeroFrame_standing l s

theorem State.zeroFrames_contexts (l : List (Nat × Nat)) (h : s.unlogged) : (l.foldl State.zeroFrame s).contexts = s.contexts :=
  List.foldlRecOn (motive := fun t => t.contexts = s.contexts) l _ rfl fun t ht f _ =>
    (congrArg Prod.fst (State.zeroFrame_stored (s := t) (by rwa [State.unlogged, ht]) f)).trans ht

/-- What the scrub engine zeroes reads as 0, and every other address as before. -/
theorem State.zeroFrames_byte (l : List (Nat × Nat)) (h : s.unlogged) (a : Nat) :
    cellGet (l.foldl State.zeroFrame s).mem a = if l.all (outsideFrame · a) then cellGet s.mem a else 0 := by
  induction l generalizing s with
  | nil => simp
  | cons f l ih =>
    have hz := State.zeroFrame_stored h f
    have hc : (s.zeroFrame f).contexts = s.contexts := congrArg Prod.fst hz
    rw [List.foldl_cons, ih (by rwa [State.unlogged, hc]), show (s.zeroFrame f).mem = _ from congrArg Prod.snd hz,
      cellGet_filter]
    rw [List.all_cons]
    cases hf : outsideFrame f a
    · simp [Memory.default]
    · rw [if_pos rfl, Bool.true_and]

/-- A scrub that has zeroed nothing has every frame left. -/
theorem mem_scrubPieces_of_mem {fs : List (Nat × Nat)} {f : Nat × Nat} (h : f ∈ fs) (hpos : 0 < f.2) :
    f ∈ scrubPieces fs 0 (fs.map (·.2)).sum := by
  induction fs with
  | nil => cases h
  | cons g fs ih =>
    simp only [scrubPieces, List.map_cons, List.sum_cons]
    obtain rfl | h := List.mem_cons.1 h
    · rw [if_neg (by omega), if_neg (by omega), show min (f.2 + (fs.map (·.2)).sum) (f.2 - 0) = f.2 by omega]
      exact List.mem_cons_self
    · split
      · rw [show g.2 + (fs.map (·.2)).sum = (fs.map (·.2)).sum by omega, Nat.zero_sub]
        exact ih h
      · rw [show min (g.2 + (fs.map (·.2)).sum) (g.2 - 0) = g.2 by omega, if_neg (by omega), Nat.add_sub_cancel_left]
        exact List.mem_cons_of_mem _ (ih h)

end Sys2Proof.Machine
end

section
/-! PROOFS. The bytes of a host command: its code and its operands as quadwords (R418; log entry 92). -/

namespace Sys2Proof.Machine

theorem length_leBytes (n v : Nat) : (leBytes n v).length = n := by
  induction n generalizing v with
  | zero => rfl
  | succ n ih => rw [leBytes, List.length_cons, ih]

/-- Quadwords one after the other. -/
def quads (l : List Nat) : List Byte := l.flatMap (leBytes 8)

theorem length_quads (l : List Nat) : (quads l).length = 8 * l.length := by
  simp [quads, List.length_flatMap, length_leBytes, Nat.mul_comm]

theorem drop_quads (l : List Nat) (i : Nat) : (quads l).drop (8 * i) = quads (l.drop i) := by
  induction i generalizing l with
  | zero => rfl
  | succ i ih =>
    cases l with
    | nil => simp [quads]
    | cons x l =>
      rw [quads, List.flatMap_cons, Nat.mul_succ, Nat.add_comm, ← List.drop_drop,
        List.drop_left' (length_leBytes ..)]
      exact ih l

theorem bytesAt_quads (l : List Nat) (i : Nat) : bytesAt (quads l) (8 * i) 8 = l.getD i 0 % 2 ^ 64 := by
  rw [bytesAt, drop_quads]
  cases h : l.drop i with
  | nil => simp [quads, ofLeBytes, List.drop_eq_nil_iff.1 h]
  | cons x t =>
    have hx : l.getD i 0 = x := by
      rw [List.getD_eq_getElem?_getD, ← List.head?_drop, h]
      rfl
    rw [quads, List.flatMap_cons, List.take_left' (length_leBytes ..), ofLeBytes_leBytes, hx]

theorem zeroAt_quads {l : List Nat} {i : Nat} (h : ∀ x ∈ l.drop i, x = 0) (n : Nat) : zeroAt (quads l) (8 * i) n = true := by
  rw [zeroAt, drop_quads, List.all_eq_true]
  intro b hb
  obtain ⟨x, hx, hb⟩ := List.mem_flatMap.1 (List.mem_of_mem_take hb)
  rw [h x hx] at hb
  exact List.all_eq_true.1 (show (leBytes 8 0).all (· == 0) = true by decide) b hb

/-- A command of 64 bytes: its code, its first `k` operands, and zeros. -/
def commandQuads (code k : Nat) (op : Fin 4 → DWord) : List Nat :=
  code :: ((List.finRange 4).map fun i => if i.val < k then (op i).toNat else 0) ++ [0, 0, 0]
def commandBytes (code k : Nat) (op : Fin 4 → DWord) : List Byte := quads (commandQuads code k op)

theorem commandBytes_eq (code k : Nat) (op : Fin 4 → DWord) : commandBytes code k op = leBytes 8 code ++
    ((List.finRange 4).flatMap fun i => if i.val < k then leBytes 8 (op i).toNat else zeros 8) ++ zeros 24 := by
  have hop : (List.finRange 4).flatMap (fun i => if i.val < k then leBytes 8 (op i).toNat else zeros 8) =
      quads ((List.finRange 4).map fun i => if i.val < k then (op i).toNat else 0) := by
    rw [quads, List.flatMap_map]
    refine congrArg (List.flatMap · _) (funext fun i => ?_)
    split <;> rfl
  rw [hop, commandBytes, commandQuads, quads, List.flatMap_append, List.flatMap_cons]
  rfl

section
variable (k : Nat) (op : Fin 4 → DWord)

theorem length_commandBytes (code : Nat) : (commandBytes code k op).length = 64 := by
  rw [commandBytes, length_quads, commandQuads]
  rfl

/-- The code of a command, and the zeros after it. -/
theorem bytesAt_commandBytes_code {code : Nat} (h : code < 256) : bytesAt (commandBytes code k op) 0 1 = code := by
  change (BitVec.ofNat 8 code).toNat + 256 * 0 = code
  simp
  omega

theorem zeroAt_commandBytes_code {code : Nat} (h : code < 256) : zeroAt (commandBytes code k op) 1 7 = true := by
  change (((leBytes 7 (code / 256)) ++ _).take 7).all (· == 0) = true
  rw [List.take_left' (length_leBytes ..), Nat.div_eq_of_lt h]
  decide

theorem bytesAt_commandBytes_operand (code : Nat) (i : Fin 4) :
    bytesAt (commandBytes code k op) (8 * (i.val + 1)) 8 = if i.val < k then (op i).toNat else 0 := by
  have hget : (commandQuads code k op).getD (i.val + 1) 0 = if i.val < k then (op i).toNat else 0 := by
    fin_cases i <;> rfl
  rw [commandBytes, bytesAt_quads, hget]
  split
  · exact Nat.mod_eq_of_lt (op i).isLt
  · rfl

/-- What follows the operands is zero. -/
theorem zeroAt_commandBytes_rest (code : Nat) {m : Nat} (h : k ≤ m) (n : Nat) :
    zeroAt (commandBytes code k op) (8 + 8 * m) n = true := by
  rw [show 8 + 8 * m = 8 * (m + 1) by omega]
  refine zeroAt_quads (fun x hx => ?_) n
  rw [commandQuads, List.cons_append, List.drop_succ_cons] at hx
  obtain hx | hx := List.mem_append.1 (List.drop_append ▸ hx)
  · obtain ⟨j, hj, rfl⟩ := List.mem_drop_iff_getElem.1 hx
    rw [List.getElem_map, if_neg (by simp; omega)]
  · simpa using List.mem_of_mem_drop hx

end

end Sys2Proof.Machine
end

section
/-! PROOFS. The commands of the host (R191, R361, R362, R418 to R423, R427, R431). -/

namespace Sys2Proof.Machine
variable {s : State} {ctx : Nat}

/-! A command and its answer (R418, R431). -/

theorem State.command_some (hu : s.up = true) (code : Nat) (t : State) : s.command code (some t) = t.reply code true := by
  rw [State.command, if_neg (by simp [hu])]

theorem State.command_none (hu : s.up = true) (code : Nat) : s.command code none = s.reply code false := by
  rw [State.command, if_neg (by simp [hu])]

theorem State.command_closed (hu : s.up = false) (code : Nat) (f : Option State) : s.command code f = s := by
  rw [State.command.eq_def, if_pos (by simp [hu])]

section
variable (hu : s.up = true)
include hu

/-! Contexts, queues and keys. -/

theorem State.execCreate_made {record : Nat} (hr : contextRecordOk (s.homeBytes none record 128) = true)
    (hm : s.mayCreate (s.newContext (s.homeBytes none record 128)) = true) : execCreate record s =
      .next (({ s with contexts := s.contexts ++ [s.newContext (s.homeBytes none record 128)] } : State).reply 1 true) := by
  rw [execCreate, if_neg (by simp [hu]), if_pos (by simp [hr, hm]), State.command_some hu]

theorem State.execCreate_refused {record : Nat} (h : contextRecordOk (s.homeBytes none record 128) = false ∨
    s.mayCreate (s.newContext (s.homeBytes none record 128)) = false) : execCreate record s = .next (s.reply 1 false) := by
  rw [execCreate, if_neg (by simp [hu]), if_neg (by simpa [or_iff_not_imp_left] using h), State.command_none hu]

theorem State.execQueue_refused {q desc : Nat} (h : queueDescOk (s.homeBytes none desc 64) = false) :
    execQueue ctx q desc s = .next (s.reply 3 false) := by
  rw [execQueue, if_pos (by simp [h]), State.command_none hu]

section
variable {q desc : Nat} (hc : (s.context ctx).any (fun c => !c.dead) = true) (hq : q < 1024)
  (hd : queueDescOk (s.homeBytes none desc 64) = true) (hs : ∀ x ∈ s.scrubs, q ∉ x.queues)
include hc hq hd hs

theorem State.execQueue_free (hf : s.queue? q = none) : execQueue ctx q desc s =
    .next (({ s with queues := s.queues ++ [newQueue ctx q (s.homeBytes none desc 64)] } : State).reply 3 true) := by
  rw [execQueue, if_neg (by simpa [hc, hq, hd] using hs), hf]
  exact congrArg _ (State.command_some hu ..)

theorem State.execQueue_used {x : Queue} (hx : s.queue? q = some x) : execQueue ctx q desc s = .next (
    if x.ctx = ctx ∧ x.halted = true then
      (s.modQueue q fun x => { x with desc := s.homeBytes none desc 64, valid := [], rewritten := [] }).reply 3 true
    else s.reply 3 false) := by
  rw [execQueue, if_neg (by simpa [hc, hq, hd] using hs), hx]
  dsimp only
  split
  · rw [State.command_some hu]
  · rw [State.command_none hu]

end

theorem State.execKeyload_free {slot key : Nat} (hs : slot < 64) (hf : ∀ k ∈ s.keys, k.slot ≠ slot) :
    execKeyload slot key 0 s =
      .next (({ s with keys := s.keys ++ [⟨slot, Config.unwrapKey (s.homeBytes none key 72)⟩] } : State).reply 7 true) := by
  rw [execKeyload, if_neg (by simpa [hs] using hf), State.command_some hu]
  rfl

theorem State.execKeyload_refused {slot key unused : Nat} (h : unused ≠ 0 ∨ 64 ≤ slot ∨ ∃ k ∈ s.keys, k.slot = slot) :
    execKeyload slot key unused s = .next (s.reply 7 false) := by
  rw [execKeyload, if_pos (by simpa using h), State.command_none hu]

theorem State.execAttest_up {nonce : DWord} {report : Nat} : execAttest nonce report s =
    .next ((s.homeWrite Writer.device report
      (s.measurements nonce ++ (List.range 7856).map (Config.deviceSignature (s.measurements nonce)))).reply 8 true) := by
  rw [execAttest]
  exact congrArg _ (State.command_some hu ..)

/-! Groups (R427). -/

/-- The running COLLs of the groups that `left` names fail, and the group takes its new ranges. -/
def State.regrouped (s : State) (ctx slot : Nat) (ranges : List (Nat × Nat × Nat)) : State :=
  let left (x : CollGroup) : Bool := x.ctx == ctx && x.num == slot && x.ranges.any fun y => !ranges.any fun z => z.1 == y.1
  { (s.failColls left) with
    collGroups := ⟨ctx, slot, ranges⟩ :: (s.failColls left).collGroups.filter fun x => !(x.ctx == ctx && x.num == slot) }

theorem State.execGroup_eq {slot record n : Nat} (hn : n = ofLeBytes (s.homeBytes none record 4)) (hle : n ≤ 256) :
    let ranges := groupRanges (s.homeBytes none record (8 + 8 * n)) n
    execGroup ctx slot record s = .next (
      if 64 ≤ slot ∨ s.context ctx = none ∨ rangesOk ranges = false then s.reply 9 false
      else (s.regrouped ctx slot ranges).reply 9 true) := by
  intro ranges
  rw [execGroup]
  have hrefuses : ((s.context ctx).isNone = true ∨ 64 ≤ slot ∨ 256 < n ∨ (!rangesOk ranges) = true) ↔
      (64 ≤ slot ∨ s.context ctx = none ∨ rangesOk ranges = false) := by
    simp [Nat.not_lt.2 hle, or_left_comm]
  simp only [← hn, min_eq_left hle, ranges, hrefuses]
  split
  · rw [State.command_none hu]
  · rw [State.command_some hu]
    rfl

/-! Answers to fault records (R191). -/

theorem State.execAnswer_found {id : Nat} {deliver : Bool} {p : Park} {a : Cause}
    (hf : s.parks.find? (fun x => x.cause.isSome && x.ctx == ctx && s.requesterNum x == id) = some p) (ha : p.cause = some a) :
    execAnswer id ctx deliver s = .next ((if deliver then s.deliverPark p a else s.replayPark p).reply 6 true) := by
  rw [execAnswer, hf]
  simp only [ha, Option.map_some, State.command_some hu]

theorem State.execAnswer_none {id : Nat} {deliver : Bool}
    (hf : ∀ x ∈ s.parks, ¬(x.cause.isSome = true ∧ x.ctx = ctx ∧ s.requesterNum x = id)) :
    execAnswer id ctx deliver s = .next (s.reply 6 false) := by
  have hnone : s.parks.find? (fun x => x.cause.isSome && x.ctx == ctx && s.requesterNum x == id) = none :=
    List.find?_eq_none.2 fun x hx => by simpa [and_assoc] using hf x hx
  rw [execAnswer, hnone, State.command_none hu]

/-! Teardown (R423). -/

/-- The state in which a context and its work, queues and groups are gone, and its scrub has begun. -/
def State.destroyed (s : State) (c : Context) : State :=
  let t := s.dropWork c.num
  { t with
    contexts := t.contexts.filter fun x => x.num != c.num
    queues := t.queues.filter fun q => q.ctx != c.num
    keys := t.keys.filter fun k => !(c.protect && k.slot == c.keySlot)
    named := t.named.filter fun f => f.1 != c.num
    collGroups := t.collGroups.filter fun g => g.ctx != c.num
    instances := t.instances.filter fun i => i.ctx != c.num
    caches := t.caches.map fun (k : Nat × List CacheByte) => (k.1, k.2.filter fun b => b.ctx != some c.num)
    scrubs := t.scrubs ++ [s.scrubOf c] }

theorem State.execDestroy_some {c : Context} (h : s.context ctx = some c) :
    execDestroy ctx s = .next ((s.destroyed c).reply 2 true) := by
  obtain rfl : c.num = ctx := by simpa using List.find?_some h
  rw [execDestroy, h, Option.map_some, State.command_some hu]
  rfl

theorem State.execDestroy_none (h : s.context ctx = none) : execDestroy ctx s = .next (s.reply 2 false) := by
  rw [execDestroy, h, Option.map_none, State.command_none hu]

end

theorem State.destroyed_context (s : State) (c : Context) : (s.destroyed c).context c.num = none :=
  List.find?_eq_none.2 fun x hx => by simpa using (List.mem_filter.1 hx).2

theorem State.destroyed_keys (s : State) (c : Context) :
    (s.destroyed c).keys = s.keys.filter fun k => !(c.protect && k.slot == c.keySlot) := by
  rw [← s.dropWork_keys c.num]
  rfl

theorem State.destroyed_scrubs (s : State) (c : Context) : (s.destroyed c).scrubs = s.scrubs ++ [s.scrubOf c] := by
  rw [← s.dropWork_scrubs c.num]
  rfl

theorem State.destroyed_mem (s : State) (c : Context) : (s.destroyed c).mem = s.mem := by
  rw [← s.dropWork_mem c.num]
  rfl

/-- What the destroyed context had of work is gone. -/
theorem State.destroyed_work (s : State) (c : Context) :
    (∀ x ∈ (s.destroyed c).groups, x.key.ctx ≠ c.num) ∧ (∀ x ∈ (s.destroyed c).launches, x.key.ctx ≠ c.num) ∧
      ∀ x ∈ (s.destroyed c).warps, x.key.ctx ≠ c.num := by
  have hl : (s.destroyed c).launches = s.launches.filter fun l => l.key.ctx != c.num := by
    rw [← s.dropWork_launches c.num]
    rfl
  refine ⟨fun x => State.dropWork_groups, fun x hx => ?_, fun x => State.dropWork_warps⟩
  rw [hl] at hx
  simpa using (List.mem_filter.1 hx).2

/-! The scrub engine (R423, R424). -/

/-- The state in which the first scrub has ended. -/
def State.scrubbed (s : State) (x : Scrub) (rest : List Scrub) : State :=
  let t := (scrubPieces x.frames x.zeroed (x.size - x.zeroed)).foldl State.zeroFrame s
  { t with scrubs := rest, scrubRestarted := x.restarted, up := t.up || (x.restarted && !rest.any (·.restarted)) }

theorem State.execScrubComplete_cons {x : Scrub} {rest : List Scrub} (h : s.scrubs = x :: rest) :
    execScrubComplete s = .next (s.scrubbed x rest) := by
  rw [execScrubComplete, h]
  rfl

theorem State.scrubbed_up (s : State) (x : Scrub) (rest : List Scrub) :
    (s.scrubbed x rest).up = (s.up || (x.restarted && !rest.any (·.restarted))) :=
  congrArg (· || _) (State.up_of_standing (State.zeroFrames_standing _ s))

theorem State.scrubbed_byte {x : Scrub} {rest : List Scrub} (h : s.unlogged) (a : Nat) :
    cellGet (s.scrubbed x rest).mem a =
      if (scrubPieces x.frames x.zeroed (x.size - x.zeroed)).all (outsideFrame · a) then cellGet s.mem a else 0 :=
  State.zeroFrames_byte _ h a

theorem State.scrubbed_inside {x : Scrub} {rest : List Scrub} (h : s.unlogged) {f : Nat × Nat}
    (hf : f ∈ scrubPieces x.frames x.zeroed (x.size - x.zeroed)) {a : Nat} (hlo : f.1 ≤ a) (hhi : a < f.1 + f.2) :
    cellGet (s.scrubbed x rest).mem a = 0 := by
  rw [State.scrubbed_byte h, if_neg]
  intro hall
  have := List.all_eq_true.1 hall f hf
  simp only [outsideFrame, decide_eq_true_eq] at this
  omega

theorem State.scrubbed_outside {x : Scrub} {rest : List Scrub} (h : s.unlogged) {a : Nat}
    (ha : ∀ f ∈ scrubPieces x.frames x.zeroed (x.size - x.zeroed), a < f.1 ∨ f.1 + f.2 ≤ a) :
    cellGet (s.scrubbed x rest).mem a = cellGet s.mem a := by
  rw [State.scrubbed_byte h, if_pos]
  exact List.all_eq_true.2 fun f hf => decide_eq_true (ha f hf)

/-! A command as the host writes it (R418). -/

/-- How many operands a command has. -/
def operandCount : Nat → Nat
  | 1 | 2 => 1
  | 4 | 5 | 8 => 2
  | 3 | 7 | 9 => 3
  | 6 => 4
  | _ => 0

/-- What a command does by its code and operands. -/
def State.commandOf (s : State) (code : Nat) (v : Fin 4 → Nat) : Host.Outcome State Fault Refusal :=
  match code with
  | 1 => execCreate (v 0) s
  | 2 => execDestroy (v 0) s
  | 3 => execQueue (v 0) (v 1) (v 2) s
  | 4 => execPreempt (v 0) (v 1) s
  | 5 => execPlant (v 0) (v 1) s
  | 6 => if v 3 < 2 then execAnswer (v 0 + v 1 * 2 ^ 64) (v 2) (v 3 == 1) s else .next (s.command 6 none)
  | 7 => execKeyload (v 0) (v 1) (v 2) s
  | 8 => execAttest (BitVec.ofNat 64 (v 0)) (v 1) s
  | 9 => execGroup (v 0) (v 1) (v 2) s
  | n => .next (s.command n none)

/-- A command of at most its operands does what its code names. -/
theorem State.hostCommand_commandBytes (s : State) {code k : Nat} (op : Fin 4 → DWord) (hc : code < 256)
    (hk : k ≤ operandCount code) :
    s.hostCommand (commandBytes code k op) = s.commandOf code fun i => if i.val < k then (op i).toNat else 0 := by
  obtain ⟨v, hv⟩ : ∃ v : Fin 4 → Nat, v = fun i => if i.val < k then (op i).toNat else 0 := ⟨_, rfl⟩
  have hop (i : Fin 4) : bytesAt (commandBytes code k op) (8 * (i.val + 1)) 8 = v i := by
    rw [hv, bytesAt_commandBytes_operand]
  have hform (n : Nat) (h : k ≤ n) : (commandBytes code k op).length = 64 ∧ zeroAt (commandBytes code k op) 1 7 = true ∧
      zeroAt (commandBytes code k op) (8 + 8 * n) (56 - 8 * n) = true :=
    ⟨length_commandBytes k op code, zeroAt_commandBytes_code k op hc, zeroAt_commandBytes_rest k op code h _⟩
  unfold State.hostCommand
  rw [bytesAt_commandBytes_code k op hc]
  generalize commandBytes code k op = b at hop hform
  rw [← hv]
  extract_lets o only
  have honly (n : Nat) (h : k ≤ n) (r : Host.Outcome State Fault Refusal) : only n r = r := if_pos (hform n h)
  have h0 : o 1 = v 0 := hop 0
  have h1 : o 2 = v 1 := hop 1
  have h2 : o 3 = v 2 := hop 2
  have h3 : o 4 = v 3 := hop 3
  rw [h0, h1, h2, h3]
  clear_value o only
  unfold State.commandOf
  split
  case h_10 => simp only [*]
  all_goals exact honly _ hk _

/-- No command does anything before the interface is open (R431). -/
theorem exec_closed (hu : s.up = false) (hs : s.scrubs = []) {q slot n record unused : Nat} {nonce : DWord} {deliver : Bool} :
    ∀ i ∈ [Instr.create record, .destroy ctx, .queue ctx q record, .answer n ctx deliver, .keyload slot record unused,
      .attest nonce record, .group ctx slot record], exec i s = .next s := by
  have hclosed (code : Nat) (f : Option State) : Host.Outcome.next (s.command code f) = (.next s : Host.Outcome State Fault Refusal) :=
    congrArg _ (State.command_closed hu code f)
  simp only [List.forall_mem_cons, List.not_mem_nil, false_implies, implies_true, and_true]
  refine ⟨?_, ?_, ?_, ?_, ?_, ?_, ?_⟩
  · rw [exec_create, execCreate, if_neg (by simp [hs])]
    split
    · exact hclosed ..
    · exact hclosed ..
  · rw [exec_destroy, execDestroy]
    exact hclosed ..
  · rw [exec_queue, execQueue]
    split
    · exact hclosed ..
    · exact hclosed ..
  · rw [exec_answer, execAnswer]
    split
    · exact hclosed ..
    · exact hclosed ..
  · rw [exec_keyload, execKeyload]
    split
    · exact hclosed ..
    · exact hclosed ..
  · rw [exec_attest, execAttest]
    exact hclosed ..
  · rw [exec_group, execGroup]
    dsimp only
    split
    · exact hclosed ..
    · exact hclosed ..

/-- What a destruction leaves of the context and its work (R423). -/
theorem State.execDestroy_removes (hu : s.up = true) {c : Context} (h : s.context ctx = some c) :
    ∃ t, execDestroy ctx s = .next t ∧ t.context ctx = none ∧ (∀ x ∈ t.queues, x.ctx ≠ ctx) ∧
      t.keys = s.keys.filter (fun x => !(c.protect && x.slot == c.keySlot)) ∧ (∀ x ∈ t.collGroups, x.ctx ≠ ctx) ∧
      (∀ x ∈ t.groups, x.key.ctx ≠ ctx) ∧ (∀ x ∈ t.launches, x.key.ctx ≠ ctx) ∧ (∀ x ∈ t.warps, x.key.ctx ≠ ctx) ∧
      t.scrubs = s.scrubs ++ [s.scrubOf c] ∧ t.mem = s.mem := by
  obtain rfl : c.num = ctx := by simpa using List.find?_some h
  obtain ⟨hgroups, hlaunches, hwarps⟩ := s.destroyed_work c
  exact ⟨_, State.execDestroy_some hu h, s.destroyed_context c, fun x hx => by simpa using (List.mem_filter.1 hx).2,
    s.destroyed_keys c, fun x hx => by simpa using (List.mem_filter.1 hx).2, hgroups, hlaunches, hwarps,
    s.destroyed_scrubs c, s.destroyed_mem c⟩

/-- Settles O52: each command by its own equation; a destruction by what dropping the context's work leaves, the scrub engine by
what each of its pieces zeroes, and a command of 64 bytes by the operands that are read back out of it. -/
theorem hostCommandsAct : Obligations.HostCommandsAct := by
  intro s ctx q slot n record unused nonce p deliver c op tells at_ made desc ranges left
  refine ⟨fun hu => ⟨fun hr hm => ⟨?_, rfl, rfl, rfl, rfl, rfl, rfl⟩, fun h => ?_, fun hc hq hd hf hs => ?_,
    fun x hc hq hd hx hs => ?_, fun hd => ?_, fun hs hf => ?_, fun h => ?_, ?_, fun hn hle hs hc hr => ?_, fun hn hle h => ?_,
    fun a hf ha => ?_, fun hf => ?_, fun h => ?_, fun h => ?_, ?_⟩, fun hu hs => exec_closed hu hs, fun x rest hx => ?_⟩
  · exact (exec_create ..).trans (State.execCreate_made hu hr hm)
  · exact (exec_create ..).trans (State.execCreate_refused hu h)
  · exact (exec_queue ..).trans (State.execQueue_free hu hc hq hd hs hf)
  · exact (exec_queue ..).trans (State.execQueue_used hu hc hq hd hs hx)
  · exact (exec_queue ..).trans (State.execQueue_refused hu hd)
  · exact (exec_keyload ..).trans (State.execKeyload_free hu hs hf)
  · exact (exec_keyload ..).trans (State.execKeyload_refused hu h)
  · exact (exec_attest ..).trans (State.execAttest_up hu)
  · rw [exec_group, State.execGroup_eq hu hn hle, if_neg]
    · rfl
    · rintro (h | h | h)
      · exact Nat.not_le.2 hs h
      · exact Option.isSome_iff_ne_none.1 hc h
      · exact Bool.false_ne_true (h.symm.trans hr)
  · rw [exec_group, State.execGroup_eq hu hn hle, if_pos h]
    rfl
  · exact (exec_answer ..).trans (State.execAnswer_found hu hf ha)
  · exact (exec_answer ..).trans (State.execAnswer_none hu hf)
  · rw [exec_destroy]
    exact State.execDestroy_removes hu h
  · exact (exec_destroy ..).trans (State.execDestroy_none hu h)
  · intro bytes v
    have hbytes (code k : Nat) (h : code < 256 ∧ k ≤ operandCount code := by decide) :
        s.hostCommand (bytes code k) = s.commandOf code fun i => if i.val < k then v i else 0 :=
      (congrArg _ (commandBytes_eq code k op).symm).trans (s.hostCommand_commandBytes op h.1 h.2)
    exact ⟨hbytes 1 1, hbytes 2 1, hbytes 3 3, hbytes 4 2, hbytes 5 2, fun h => (hbytes 6 4).trans (if_pos h), hbytes 7 2,
      (hbytes 8 2).trans (congrArg (execAttest · (v 1) s) (BitVec.ofNat_toNat ..)), hbytes 9 3⟩
  · rw [exec_scrubComplete]
    refine ⟨_, State.execScrubComplete_cons hx, rfl, rfl, s.scrubbed_up x rest, fun hi => ⟨fun hz f hf a hlo hhi => ?_,
      fun f hf a => State.scrubbed_inside hi hf, fun a => State.scrubbed_outside hi, State.zeroFrames_contexts _ hi⟩⟩
    refine State.scrubbed_inside hi ?_ hlo hhi
    rw [hz]
    exact mem_scrubPieces_of_mem hf (by omega)

end Sys2Proof.Machine
end

section
/-! PROOFS. Loads from buffers and stores to them, direct and through a handle, where nothing of the running warp is left to be
performed (R200, R201, R213, R219, R220, R223, R224, R247). -/

namespace Sys2Proof.Machine
variable {s : State}

/-! Nothing of the running warp is left to be performed (R245, R249). -/

theorem State.prompt_of_frame {t : State} (h : t.frame = s.frame) (hp : s.prompt) : t.prompt := by
  have hlate : t.late = s.late := congrArg Frame.late h
  have hkey : t.warp.key = s.warp.key := State.warp_of_frame h (·.key) fun _ _ => rfl
  have hreds : t.warp.reds = s.warp.reds := State.warp_of_frame h (·.reds) fun _ _ => rfl
  exact ⟨hreds.trans hp.1, by rw [hlate, hkey]; exact hp.2⟩

section
variable (ho : s.warp.outstanding = []) (hp : s.prompt)
include ho hp

theorem State.ownTouches_prompt (l : List (Spot × Nat)) : s.ownTouches l = false := by
  have hlate : s.late.any (·.touches s.warp.key l) = false :=
    List.any_eq_false.2 fun x hx => by simp [LateWrite.touches, hp.2 x hx]
  simp [State.ownTouches, State.touchesOf, hlate, ho]

theorem State.inOrder_prompt (n : Nat) (l : List PlacedLane) (rule : State → Res) : s.inOrder n l rule = rule s := by
  simp [State.inOrder, State.ownTouches_prompt ho hp, hp.1]

theorem State.flushOwn_prompt : s.flushOwn = s := by
  rw [State.flushOwn, State.flushPlain, s.performLong_nil _ ho, s.performWrites_none _ fun x hx => by simpa using hp.2 x hx,
    s.flushReds_nil hp.1]

/-- A release then only carries home what the cluster cache holds (R247). -/
theorem State.frame_releaseAt (sc : Scope) : (s.releaseAt sc).frame = s.frame := by
  have hlate : (s.late.map fun x => if x.warp == some s.warp.key then { x with narrow := x.narrow || Scope.narrow sc } else x) =
      s.late := by
    rw [List.map_congr_left fun x hx => if_neg (by simpa using hp.2 x hx), List.map_id']
  have hgive : s.giveOwn.frame = s.frame := by
    unfold State.giveOwn
    split <;> rfl
  simp only [State.releaseAt, hlate]
  rw [State.flushOwn_prompt ho hp]
  split
  · exact hgive
  · exact (State.frame_writeBackWhere ..).trans hgive

theorem State.frame_releasing : s.releasing.frame = s.frame := by
  unfold State.releasing
  split
  · exact State.frame_releaseAt ho hp _
  · rfl

/-- A store whose places are known writes them in order, after its release (R224, R247). -/
theorem State.storeAt_prompt (f : Form) (la : Fin 16) (m : MemShape) (l : List PlacedLane) (v : Option Lane → Nat) :
    s.storeAt f la m l v = .done ((l.foldl (fun u x => u.writeAt x (leBytes m.bytes (v x.lane))) s.releasing).modWarp fun w =>
      w.pushLong la.val f.use [] 0 none) := by
  have hf := State.frame_releasing ho hp
  have ho' : s.releasing.warp.outstanding = [] := (State.warp_of_frame hf (·.outstanding) fun _ _ => rfl).trans ho
  rw [State.storeAt, if_neg (by simp [s.mustCommit_nil hp.1])]
  exact State.inOrder_prompt ho' (State.prompt_of_frame hf hp) ..

/-- A load that waits holds its places (R242; log entry 8). -/
theorem State.loadAt_late (f : Form) (la : Fin 16) (d : Reg) (m : MemShape) (scalar : Bool) (l : List PlacedLane)
    (hs : s.slow = true) (ha : s.warp.ord.acquires = false) :
    s.loadAt f la d m scalar l = .done (s.modWarp fun w => w.pushLate la.val f.use (.load d m.regs m.bytes scalar
      (Scope.narrow w.scope) (l.zipIdx.map fun x => ⟨x.1.lane.getD 0, x.2, x.1.spot, x.1.va, []⟩))) := by
  rw [State.loadAt, State.inOrder_prompt ho hp, if_pos (by simp [hs, ha])]

/-- A load that is performed as it issues reads its places, then acquires (R224, R247). -/
theorem State.loadAt_now (f : Form) (la : Fin 16) (d : Reg) (m : MemShape) (scalar : Bool) (l : List PlacedLane)
    (h : s.slow = false ∨ s.warp.ord.acquires = true) :
    s.loadAt f la d m scalar l = .done ((s.readEach m.bytes l).2.acquiring.modWarp fun w =>
      w.pushLong la.val f.use (loadBack d m scalar (s.readEach m.bytes l).1) 0 none) := by
  rw [State.loadAt, State.inOrder_prompt ho hp, if_neg (by obtain h | h := h <;> simp [h])]
  rfl

end

/-! Places in a buffer. -/

/-- The places of a region are those of its buffer past its base (R213). -/
theorem inBuffer_base (g : WgKey) (b : Buf) (base : Nat) (l : List (Lane × Nat)) :
    inBuffer g b base l = inBuffer g b 0 (l.map fun y => (y.1, base + y.2)) := by
  simp [inBuffer]

/-- Reading a buffer changes nothing (R224). -/
theorem State.readEach_inBuffer (s : State) (n : Nat) (g : WgKey) (b : Buf) (l : List (Lane × Nat)) :
    s.readEach n (inBuffer g b 0 l) = (l.map fun x => (some x.1, ofLeBytes (s.bufRead g b x.2 n)), s) := by
  unfold State.readEach inBuffer
  induction l using List.reverseRecOn with
  | nil => rfl
  | append_singleton l x ih =>
    rw [List.map_append, List.foldl_append, ih]
    simp [State.readSpot, State.seenAt]

/-- Written back, a load's registers hold each lane's value (R56, R223). -/
theorem wbLanes_apply (w : Warp) (d : Reg) (t : Ty) (vals : List (Lane × Nat)) :
    (wbLanes d t.regs vals).foldl WriteBack.apply w =
      w.setVNat d t.regs (LaneMask.ofFn fun l => vals.any fun x => x.1 == l)
        fun l => ((vals.find? fun x => x.1 == l).map (·.2)).getD 0 :=
  wbNat_apply w d t (laneMask vals) (laneVals vals)

theorem loadBack_lanes (d : Reg) (m : MemShape) (l : List (Lane × Nat)) (f : Lane × Nat → Nat) :
    loadBack d m false (l.map fun x => (some x.1, f x)) = wbLanes d m.regs (l.map fun x => (x.1, f x)) := by
  simp [loadBack, List.filterMap_map]

/-! The instructions. -/

/-- A load will write to the active lanes what stands at the places `l` of a buffer, and acquires; left to be performed later, it
holds its places (R224, R247; log entry 8). -/
def State.LoadsBuffer (s : State) (i : Instr) (d : Reg) (la : Fin 16) (home : WgKey) (buf : Buf) (l : List (Lane × Nat)) : Prop :=
  let t := s.warp.ty .b32
  let n := t.bytes
  let vals := l.map fun x => (x.1, ofLeBytes (s.bufRead home buf x.2 n))
  (s.slow = false ∨ s.warp.ord.acquires = true →
    ∃ (u : Use) (wb : List WriteBack), (∀ w : Warp, wb.foldl WriteBack.apply w =
        w.setVNat d t.regs (LaneMask.ofFn fun l => vals.any fun x => x.1 == l)
          fun l => ((vals.find? fun x => x.1 == l).map (·.2)).getD 0) ∧
      exec i s = .next (s.acquiring.after fun w => w.pushLong la.val u wb 0 none)) ∧
  (s.slow = true → s.warp.ord.acquires = false →
    ∃ u : Use, exec i s = .next (s.after fun w => w.pushLate la.val u (.load d t.regs n false (Scope.narrow w.scope)
      (l.zipIdx.map fun x => ⟨x.1.1, x.2, .buffer home buf x.1.2, bufAddr buf false x.1.2, []⟩))))

/-- A store writes each lane's data at the places `l` of a buffer in their order, after its release (R224, R247). -/
def State.StoresBuffer (s : State) (i : Instr) (d : Reg) (la : Fin 16) (home : WgKey) (buf : Buf) (l : List (Lane × Nat)) :
    Prop :=
  let t := s.warp.ty .b32
  ∃ u : Use, exec i s = .next ((l.foldl (fun s' x => s'.writeAt ⟨some x.1, .buffer home buf x.2, bufAddr buf false x.2⟩
    (leBytes t.bytes (s.warp.vNat d t.regs x.1))) s.releasing).after fun w => w.pushLong la.val u [] 0 none)

section
variable {i : Instr} {d a b : Reg} {la : Fin 16} {home : WgKey} {buf : Buf} {rule : State → Res} (h : s.clearFor false)
  (hp : s.prompt) (ht : (s.warp.ty .b32).isBits = true) (hf : s.fits (s.warp.ty .b32) [d]) (hin : s.within [a])
include h hp ht hf hin

/-- An instruction of a load's form whose rule loads from places of a buffer. -/
theorem State.loadsBuffer {l : List (Lane × Nat)} (hi : exec i s = .next (s.issue i (s.warp.loadForm d a b []) rule))
    (hr : rule s = s.loadAt (s.warp.loadForm d a b []) la d s.warp.memShape false (inBuffer home buf 0 l)) :
    s.LoadsBuffer i d la home buf l := by
  obtain ⟨hd, hw⟩ := hf d (List.mem_singleton.2 rfl)
  have ha := hin a (List.mem_singleton.2 rfl)
  rw [s.issue_rule _ _ _ h (State.firstCause_loadForm h.2 ht hd ha hw []), hr] at hi
  constructor
  · intro hnow
    rw [State.loadAt_now h.2 hp _ _ _ _ _ _ hnow, State.readEach_inBuffer] at hi
    refine ⟨_, _, fun w => ?_, hi⟩
    rw [loadBack_lanes]
    exact wbLanes_apply ..
  · intro hs hq
    rw [State.loadAt_late h.2 hp _ _ _ _ _ _ hs hq, inBuffer, List.zipIdx_map, List.map_map] at hi
    simp only [Nat.zero_add] at hi
    exact ⟨_, hi⟩

/-- An instruction of a store's form whose rule stores to places of a buffer. -/
theorem State.storesBuffer {l : List (Lane × Nat)} (hi : exec i s = .next (s.issue i (s.warp.storeForm d a b []) rule))
    (hr : rule s = s.storeAt (s.warp.storeForm d a b []) la s.warp.memShape (inBuffer home buf 0 l)
      (s.warp.storeData d s.warp.memShape)) :
    s.StoresBuffer i d la home buf l := by
  obtain ⟨hd, hw⟩ := hf d (List.mem_singleton.2 rfl)
  have ha := hin a (List.mem_singleton.2 rfl)
  rw [s.issue_rule _ _ _ h (State.firstCause_storeForm h.2 ht hd ha hw []), hr, State.storeAt_prompt h.2 hp, inBuffer,
    List.foldl_map] at hi
  simp only [Nat.zero_add] at hi
  exact ⟨_, hi⟩

end

theorem State.bufLoadRule_checked {f : Form} {buf : Buf} {d a b : Reg} {la : Fin 16}
    (hc : s.bufCause buf (s.warp.ty .b32).bytes (s.warp.bufLanes a b) = none) :
    s.bufLoadRule f buf d a b la =
      s.loadAt f la d s.warp.memShape false (inBuffer s.warp.key.wg buf 0 (s.warp.bufLanes a b)) := by
  simp only [State.bufLoadRule, Warp.memShape_eq, hc]

theorem State.bufStoreRule_checked {f : Form} {buf : Buf} {d a b : Reg} {la : Fin 16}
    (hc : s.bufCause buf (s.warp.ty .b32).bytes (s.warp.bufLanes a b) = none) :
    s.bufStoreRule f buf d a b la = s.storeAt f la s.warp.memShape (inBuffer s.warp.key.wg buf 0 (s.warp.bufLanes a b))
      (s.warp.storeData d s.warp.memShape) := by
  simp only [State.bufStoreRule, Warp.memShape_eq, hc]

/-- The checks of a held handle's region, passed by every lane (R201, R213). -/
theorem State.viaHandle_checked {hv : Word} {n : Nat} {l : List (Lane × Nat)} {home : WgKey} {i : Fin 16}
    (rule : WgKey → HandleSlot → Res) (hl : l ≠ []) (hh : s.heldHandle s.warp.key.wg hv = some (home, i))
    (hb : (s.slotOf home i).buf ≠ .wb) (hc : ∀ y ∈ l, y.2 + n ≤ (s.slotOf home i).size ∧ y.2 % n = 0) :
    s.viaHandle hv n l rule = rule home (s.slotOf home i) := by
  have hsize : l.find? (fun y => decide ((s.slotOf home i).size < y.2 + n)) = none :=
    List.find?_eq_none.2 fun y hy => by simpa using (hc y hy).1
  have halign : l.find? (fun y => y.2 % n != 0) = none := List.find?_eq_none.2 fun y hy => by simpa using (hc y hy).2
  obtain ⟨x, l, rfl⟩ := List.exists_cons_of_ne_nil hl
  simp only [State.viaHandle, hh, if_neg hb, hsize, halign]

/-- Settles O28: the rule of each form, once its checks pass, is a load or a store at places of a buffer. -/
theorem bufferAndHandleAccessesComplete : Obligations.BufferAndHandleAccessesComplete := by
  intro s d a b la h hp t n k loads stores direct ht hf hin
  have hlanes : s.warp.bufLanes a b = (s.laneAddrs a b).map fun x => (x.1, x.2.toNat) := by
    simp only [Warp.bufLanes, State.laneAddrs, List.map_map]
    rfl
  have directly {buf : Buf} {i j : Instr}
      (hi : exec i s = .next (s.issue i (s.warp.loadForm d a b []) fun u =>
        u.bufLoadRule (s.warp.loadForm d a b []) buf d a b la))
      (hj : exec j s = .next (s.issue j (s.warp.storeForm d a b []) fun u =>
        u.bufStoreRule (s.warp.storeForm d a b []) buf d a b la)) : direct buf i j := by
    intro hc
    have hc' : s.bufCause buf (s.warp.ty .b32).bytes (s.warp.bufLanes a b) = none := hlanes ▸ hc
    exact hlanes ▸ ⟨State.loadsBuffer h hp ht hf hin hi (State.bufLoadRule_checked hc'),
      State.storesBuffer h hp ht hf hin hj (State.bufStoreRule_checked hc')⟩
  refine ⟨directly (exec_ldsb ..) (exec_stsb ..), directly (exec_ldab ..) (exec_stab ..),
    directly (exec_ldcb ..) (exec_stcb ..), ?_⟩
  intro l
  have hl : s.warp.handleLanes a b = l := rfl
  have handled {home : WgKey} {x : HandleSlot}
      (hx : ∀ rule, s.viaHandle (s.warp.s b) (s.warp.ty .b32).bytes (s.warp.handleLanes a b) rule = rule home x) :
      let m := l.map fun y => (y.1, x.base + y.2)
      loads (.ldh d a b la) home x.buf m ∧ stores (.sth d a b la) home x.buf m := by
    refine ⟨State.loadsBuffer h hp ht hf hin (exec_ldh ..) ?_, State.storesBuffer h hp ht hf hin (exec_sth ..) ?_⟩
    · exact (hx _).trans (by rw [inBuffer_base]; rfl)
    · exact (hx _).trans (by rw [inBuffer_base]; rfl)
  constructor
  · intro hnil
    have := handled (home := k) (x := ⟨.free, 0, .sb, 0, 0⟩) fun rule => by rw [hl, hnil]; rfl
    rwa [hnil] at this
  · intro home i hne hh x hb hc
    exact handled fun rule => State.viaHandle_checked rule hne hh hb hc

end Sys2Proof.Machine
end

section
/-! PROOFS. Handles made, given, taken, dropped and queried (R206 to R212, R436). -/

namespace Sys2Proof.Machine
variable {s : State}

/-! HMAKE (R208). -/

/-- A region that HMAKE accepts: aligned to 128 bytes, not empty, and within its buffer. -/
def State.RegionFits (s : State) (buf : Buf) (base size : Nat) : Prop :=
  base % 128 = 0 ∧ size % 128 = 0 ∧ size ≠ 0 ∧ base + size ≤ s.bufSize s.warp.key.wg buf

/-- The region meets that of a made slot of its buffer. -/
def State.RegionMeets (s : State) (buf : Buf) (base size : Nat) : Prop :=
  ∃ j : Fin 16, let x := s.wg.handles[j]; x.state ≠ .free ∧ x.buf = buf ∧ base < x.base + x.size ∧ x.base < base + size

theorem State.regionMeets_iff {buf : Buf} {base size : Nat} :
    (s.wg.handles.toList.any fun h => h.state != .free && h.buf == buf && decide (base < h.base + h.size) &&
      decide (h.base < base + size)) = true ↔ s.RegionMeets buf base size := by
  simp only [List.any_eq_true, Vector.mem_toList_iff, Vector.mem_iff_getElem, State.RegionMeets, Bool.and_eq_true, bne_iff_ne,
    beq_iff_eq, decide_eq_true_eq, and_assoc]
  constructor
  · rintro ⟨_, ⟨j, hj, rfl⟩, hx⟩
    exact ⟨⟨j, hj⟩, hx⟩
  · rintro ⟨j, hx⟩
    exact ⟨_, ⟨j.val, j.isLt, rfl⟩, hx⟩

/-- The lowest index that satisfies a test. -/
theorem find?_finRange_lowest {n : Nat} {p : Fin n → Bool} {i : Fin n} (hi : p i = true) (hlow : ∀ j < i, p j = false) :
    (List.finRange n).find? p = some i := by
  rw [List.find?_eq_some_iff_getElem]
  refine ⟨hi, i.val, by simp, by simp, fun j hj => ?_⟩
  simpa using hlow ⟨j, by omega⟩ hj

section
variable {d a : Reg} {buf : Buf} (h : s.clearFor false)
include h

theorem State.execHmake_unfit (he : s.mayEnter) (hf : ¬ s.RegionFits buf (s.warp.s a).toNat (s.warp.s (a + 1)).toNat) :
    execHmake d a buf s = .next (s.entered .bufspace (bufAddr buf false (s.warp.s a).toNat)) := by
  unfold State.RegionFits at hf
  rw [execHmake, s.issue_scalar _ _ _ h rfl rfl rfl rfl]
  dsimp only
  rw [if_pos (by omega)]
  exact congrArg _ (s.trapHere_enters _ _ h.2 he (by decide))

variable (hf : s.RegionFits buf (s.warp.s a).toNat (s.warp.s (a + 1)).toNat)
include hf

theorem State.execHmake_overlap (hm : s.RegionMeets buf (s.warp.s a).toNat (s.warp.s (a + 1)).toNat) :
    execHmake d a buf s = .next (s.after fun w => w.setS d hOverlap) := by
  unfold State.RegionFits at hf
  rw [execHmake, s.issue_scalar _ _ _ h rfl rfl rfl rfl]
  dsimp only
  rw [if_neg (by omega), if_pos (State.regionMeets_iff.2 hm)]
  rfl

variable (hm : ¬ s.RegionMeets buf (s.warp.s a).toNat (s.warp.s (a + 1)).toNat)
include hm

theorem State.execHmake_full (hn : ∀ j : Fin 16, (s.wg.handles[j]).state ≠ .free) :
    execHmake d a buf s = .next (s.after fun w => w.setS d hFull) := by
  have hfind : (List.finRange 16).find? (fun i => s.wg.handles[i].state == .free) = none :=
    List.find?_eq_none.2 fun j _ => by simpa using hn j
  unfold State.RegionFits at hf
  rw [execHmake, s.issue_scalar _ _ _ h rfl rfl rfl rfl]
  dsimp only
  rw [if_neg (by omega), if_neg fun hc => hm (State.regionMeets_iff.1 hc), hfind]
  rfl

theorem State.execHmake_makes {i : Fin 16} (hi : (s.wg.handles[i]).state = .free)
    (hlow : ∀ j : Fin 16, j < i → (s.wg.handles[j]).state ≠ .free) :
    let gen := ((s.wg.handles[i]).gen + 1) % 2 ^ 15
    execHmake d a buf s = .next ((s.setSlot s.warp.key.wg i fun _ =>
      ⟨.held s.rank, gen, buf, (s.warp.s a).toNat, (s.warp.s (a + 1)).toNat⟩).after fun w =>
        w.setS d (handleValue gen s.rank i.val)) := by
  have hfind : (List.finRange 16).find? (fun i => s.wg.handles[i].state == .free) = some i :=
    find?_finRange_lowest (by simpa using hi) fun j hj => by simpa using hlow j hj
  unfold State.RegionFits at hf
  rw [execHmake, s.issue_scalar _ _ _ h rfl rfl rfl rfl]
  dsimp only
  rw [if_neg (by omega), if_neg fun hc => hm (State.regionMeets_iff.1 hc), hfind]
  rfl

end

/-! HGIVE and HDROP (R209, R211). -/

/-- Another warp of the home has a reduction buffered on the region (R209). -/
theorem State.regionReds_ne_nil_iff {k home : WgKey} {i : Fin 16} :
    s.regionReds k home i ≠ [] ↔ home = k ∧ (s.slotOf home i).buf = .sb ∧ ∃ w ∈ s.warpsOf k, w.key ≠ s.warp.key ∧
      ∃ q ∈ w.reds, q.sb = true ∧
        rangesMeet q.place (4 * q.ty.regs) (s.slotOf home i).base (s.slotOf home i).size = true := by
  unfold State.regionReds
  dsimp only
  split
  next hn =>
    refine iff_of_false (fun hne => hne rfl) fun ⟨hk, hb, _⟩ => ?_
    exact hn.elim (absurd hk) (absurd hb)
  next hn =>
    obtain ⟨hk, hb⟩ := not_or.1 hn
    simp only [ne_eq, not_not] at hk hb
    rw [hk]
    constructor
    · intro hne
      refine ⟨rfl, hk ▸ hb, ?_⟩
      obtain ⟨x, hx⟩ := List.exists_mem_of_ne_nil _ hne
      obtain ⟨w, hw, hx⟩ := List.mem_flatMap.1 hx
      split at hx
      · cases hx
      · next hkey =>
        obtain ⟨q, hq, -⟩ := List.mem_map.1 hx
        obtain ⟨hq, hmeet⟩ := List.mem_filter.1 hq
        exact ⟨w, hw, hkey, q, hq, by simpa using hmeet⟩
    · rintro ⟨-, -, w, hw, hkey, q, hq, hmeet⟩
      refine List.ne_nil_of_mem (List.mem_flatMap.2 ⟨w, hw, ?_⟩) (a := (w, q))
      rw [if_neg hkey]
      exact List.mem_map.2 ⟨q, List.mem_filter.2 ⟨hq, by simpa using hmeet⟩, rfl⟩

/-! What comes of an instruction that first waits for the accesses to a handle's bytes, where its own warp has no reduction
buffered (R209, R436). -/

section
variable {hv : Word} {home : WgKey} {i : Fin 16} (rule : State → Res) (hreds : s.warp.reds = [])
include hreds

theorem State.afterAccesses_reds (hd : s.det = true) (hr : s.regionReds s.warp.key.wg home i ≠ []) :
    s.afterAccesses hv home i rule = .stay (s.othersWait (s.regionReds s.warp.key.wg home i)) := by
  rw [State.afterAccesses, if_neg (by simp [s.mustCommit_nil hreds]), if_pos ⟨hd, hr⟩]

variable (hr : ¬ (s.det = true ∧ s.regionReds s.warp.key.wg home i ≠ []))
include hr

theorem State.afterAccesses_busy (hb : s.handleBusy s.warp.key.wg hv home i = true) :
    s.afterAccesses hv home i rule = .stay (s.setWait .hgive) := by
  rw [State.afterAccesses, if_neg (by simp [s.mustCommit_nil hreds]), if_neg hr, if_pos hb]

theorem State.afterAccesses_free (hb : s.handleBusy s.warp.key.wg hv home i = false) :
    s.afterAccesses hv home i rule = rule (s.flushGroup s.warp.key.wg) := by
  rw [State.afterAccesses, if_neg (by simp [s.mustCommit_nil hreds]), if_neg hr, if_neg (by simp [hb])]

end

section
variable {d a b : Reg} (h : s.clearFor true)
include h

theorem State.execHgive_unheld (he : s.mayEnter) (hh : s.heldHandle s.warp.key.wg (s.warp.s a) = none) :
    execHgive d a b s = .next (s.entered .handle (handleTrap (s.warp.s a))) := by
  rw [execHgive, s.issue_scalar _ _ _ h rfl rfl rfl rfl]
  simp only [hh]
  exact congrArg _ (s.trapHere_enters _ _ h.2 he (by decide))

theorem State.execHdrop_unheld (he : s.mayEnter) (hh : s.heldHandle s.warp.key.wg (s.warp.s a) = none) :
    execHdrop d a s = .next (s.entered .handle (handleTrap (s.warp.s a))) := by
  rw [execHdrop, s.issue_scalar _ _ _ h rfl rfl rfl rfl]
  simp only [hh]
  exact congrArg _ (s.trapHere_enters _ _ h.2 he (by decide))

variable {home : WgKey} {i : Fin 16} (hh : s.heldHandle s.warp.key.wg (s.warp.s a) = some (home, i))
include hh

/-- HDROP of a held handle (R211). -/
theorem State.execHdrop_held : execHdrop d a s = .next (s.finish (s.afterAccesses (s.warp.s a) home i fun u =>
    .done ((if home = s.warp.key.wg then u.setSlot home i fun x => { x with state := .free } else u.returnHandle home i).modWarp
      fun w => w.setS d hOk))) := by
  rw [execHdrop, s.issue_scalar _ _ _ h rfl rfl rfl rfl]
  simp only [hh]

/-- HGIVE of a held handle, by the rank it names (R209). -/
theorem State.execHgive_norank (hr : s.hdr.clsize ≤ (s.warp.s b).toNat ∨ (s.warp.s b).toNat = s.rank) :
    execHgive d a b s = .next (s.after fun w => w.setS d hNorank) := by
  rw [execHgive, s.issue_scalar _ _ _ h rfl rfl rfl rfl]
  simp only [hh, if_pos hr]
  rfl

variable (hr : (s.warp.s b).toNat < s.hdr.clsize ∧ (s.warp.s b).toNat ≠ s.rank)
include hr

theorem State.execHgive_exited (hx : s.rankRetired s.warp.key.wg (s.warp.s b).toNat = true) :
    execHgive d a b s = .next (s.after fun w => w.setS d hExited) := by
  rw [execHgive, s.issue_scalar _ _ _ h rfl rfl rfl rfl]
  simp only [hh, if_neg (show ¬ (s.hdr.clsize ≤ (s.warp.s b).toNat ∨ (s.warp.s b).toNat = s.rank) by omega), if_pos hx]
  rfl

theorem State.execHgive_live (hx : s.rankRetired s.warp.key.wg (s.warp.s b).toNat = false) :
    execHgive d a b s = .next (s.finish (s.afterAccesses (s.warp.s a) home i fun u =>
      let t := u.setSlot home i fun x => { x with state := .transit (s.warp.s b).toNat u.rank }
      .done ((t.serveTakes s.warp.key.wg t.wakeClock).modWarp fun w => w.setS d hOk))) := by
  rw [execHgive, s.issue_scalar _ _ _ h rfl rfl rfl rfl]
  simp only [hh, if_neg (show ¬ (s.hdr.clsize ≤ (s.warp.s b).toNat ∨ (s.warp.s b).toNat = s.rank) by omega), hx,
    Bool.false_eq_true, if_false]

end

/-! HTAKE (R210). -/

/-- The model's insertion sort is the library's. -/
theorem sortBy_eq_insertionSort {α : Type} (le : α → α → Bool) (l : List α) :
    sortBy le l = l.insertionSort fun x y => le x y = true := by
  have hins (x : α) (l : List α) : insertBy le x l = l.orderedInsert (fun x y => le x y = true) x := by
    induction l with
    | nil => rfl
    | cons y l ih => rw [insertBy, List.orderedInsert, ih]
  induction l with
  | nil => rfl
  | cons x l ih => rw [List.insertionSort_cons, ← ih, ← hins]; rfl

theorem mem_sortBy {α : Type} {le : α → α → Bool} {l : List α} {x : α} : x ∈ sortBy le l ↔ x ∈ l := by
  rw [sortBy_eq_insertionSort, List.mem_insertionSort]

/-- An element below every other, and not above another, comes first. -/
theorem sortBy_least {α : Type} {le : α → α → Bool} {l : List α} {x : α} (hx : x ∈ l)
    (hle : ∀ y ∈ l, le x y = true ∧ (le y x = true → y = x)) : ∃ t, sortBy le l = x :: t := by
  induction l with
  | nil => cases hx
  | cons y l ih =>
    have hs : sortBy le (y :: l) = insertBy le y (sortBy le l) := rfl
    rw [hs]
    by_cases hl : x ∈ l
    · obtain ⟨t, ht⟩ := ih hl fun z hz => hle z (List.mem_cons_of_mem _ hz)
      rw [ht, insertBy]
      split
      next hyx => exact ⟨x :: t, by rw [(hle y List.mem_cons_self).2 hyx]⟩
      next => exact ⟨_, rfl⟩
    · obtain rfl := (List.mem_cons.1 hx).resolve_right hl
      cases hz : sortBy le l with
      | nil => exact ⟨[], rfl⟩
      | cons z t =>
        have hzl : z ∈ l := mem_sortBy.1 (hz ▸ List.mem_cons_self)
        rw [insertBy, if_pos (hle z (List.mem_cons_of_mem _ hzl)).1]
        exact ⟨_, rfl⟩

/-- The order in which HTAKE takes: by giver, then home, then slot. -/
def takeBefore (x y : Nat × Nat × Fin 16) : Bool :=
  decide (x.1 < y.1) || (x.1 == y.1 && (decide (x.2.1 < y.2.1) || (x.2.1 == y.2.1 && decide (x.2.2.val ≤ y.2.2.val))))

theorem takeBefore_iff {x y : Nat × Nat × Fin 16} :
    takeBefore x y = true ↔ x.1 < y.1 ∨ x.1 = y.1 ∧ (x.2.1 < y.2.1 ∨ x.2.1 = y.2.1 ∧ x.2.2 ≤ y.2.2) := by
  simp only [takeBefore, Bool.or_eq_true, Bool.and_eq_true, beq_iff_eq, decide_eq_true_eq, Fin.le_def]

theorem takeBefore_antisymm {x y : Nat × Nat × Fin 16} (h : takeBefore x y = true) (h' : takeBefore y x = true) : y = x := by
  rw [takeBefore_iff, Fin.le_def] at h h'
  refine Prod.ext (by omega) (Prod.ext (by omega) (Fin.ext (by omega)))

/-- The handles in transit to a member that the filter names. -/
theorem State.mem_inTransit {k : WgKey} {f : Word} {g r : Nat} {i : Fin 16} :
    (g, r, i) ∈ s.inTransit k f ↔ r < (s.hdrOf k.launch).clsize ∧ (f = anySource ∨ f.toNat = g) ∧
      (s.slotOf (s.clusterMate k r) i).state = .transit ((s.hdrOf k.launch).rank k.wglin) g := by
  simp only [State.inTransit, List.mem_flatMap, List.mem_filterMap, List.mem_range, List.mem_finRange, true_and]
  constructor
  · rintro ⟨r', hr, i', hx⟩
    split at hx
    next dst g' hst =>
      split at hx
      next hc => cases hx; exact ⟨hr, hc.2, hc.1 ▸ hst⟩
      next => cases hx
    next => cases hx
  · rintro ⟨hr, hf, hst⟩
    refine ⟨r, hr, i, ?_⟩
    rw [hst]
    exact if_pos ⟨rfl, hf⟩

section
variable {k : WgKey} {f : Word}

/-- Every other member that the filter names has retired. -/
theorem State.giversRetired_iff :
    (((List.range (s.hdrOf k.launch).clsize).filter fun r => r != (s.hdrOf k.launch).rank k.wglin &&
      (f == anySource || r == f.toNat)).all fun r => s.rankRetired k r) = true ↔
      ∀ r < (s.hdrOf k.launch).clsize, r ≠ (s.hdrOf k.launch).rank k.wglin → f = anySource ∨ f.toNat = r →
        s.rankRetired k r = true := by
  simp only [List.all_eq_true, List.mem_filter, List.mem_range, Bool.and_eq_true, bne_iff_ne, Bool.or_eq_true, beq_iff_eq, and_imp,
    eq_comm (b := f.toNat)]

theorem State.tryTake_norank (hf : f ≠ anySource)
    (hr : (s.hdrOf k.launch).clsize ≤ f.toNat ∨ f.toNat = (s.hdrOf k.launch).rank k.wglin) :
    s.tryTake k f = some (hNorank, s) := by
  simp only [State.tryTake, if_pos (And.intro hf hr)]

variable (hf : f = anySource ∨ f.toNat < (s.hdrOf k.launch).clsize ∧ f.toNat ≠ (s.hdrOf k.launch).rank k.wglin)
include hf

theorem State.filter_accepted :
    ¬ (f ≠ anySource ∧ ((s.hdrOf k.launch).clsize ≤ f.toNat ∨ f.toNat = (s.hdrOf k.launch).rank k.wglin)) := by
  rintro ⟨hany, hr⟩
  obtain ⟨hlt, hne⟩ := hf.resolve_left hany
  omega

/-- The lowest handle in transit is taken. -/
theorem State.tryTake_lowest {g r : Nat} {i : Fin 16} (hx : (g, r, i) ∈ s.inTransit k f)
    (hlow : ∀ y ∈ s.inTransit k f, takeBefore (g, r, i) y = true) :
    s.tryTake k f = some (handleValue (s.slotOf (s.clusterMate k r) i).gen r i.val,
      s.setSlot (s.clusterMate k r) i fun x => { x with state := .held ((s.hdrOf k.launch).rank k.wglin) }) := by
  obtain ⟨t, ht⟩ := sortBy_least hx fun y hy => ⟨hlow y hy, takeBefore_antisymm (hlow y hy)⟩
  unfold takeBefore at ht
  simp only [State.tryTake, if_neg (State.filter_accepted hf), ht]

variable (hn : s.inTransit k f = [])
include hn

/-- With none in transit HTAKE ends once every member that may still give has retired. -/
theorem State.tryTake_exited (hr : ∀ r < (s.hdrOf k.launch).clsize, r ≠ (s.hdrOf k.launch).rank k.wglin →
    f = anySource ∨ f.toNat = r → s.rankRetired k r = true) : s.tryTake k f = some (hExited, s) := by
  simp only [State.tryTake, if_neg (State.filter_accepted hf), hn]
  exact if_pos (State.giversRetired_iff.2 hr)

theorem State.tryTake_waits (hr : ∃ r < (s.hdrOf k.launch).clsize, r ≠ (s.hdrOf k.launch).rank k.wglin ∧
    (f = anySource ∨ f.toNat = r) ∧ s.rankRetired k r = false) : s.tryTake k f = none := by
  obtain ⟨r, hlt, hne, hname, hret⟩ := hr
  simp only [State.tryTake, if_neg (State.filter_accepted hf), hn]
  exact if_neg fun hall => Bool.false_ne_true (hret.symm.trans (State.giversRetired_iff.1 hall r hlt hne hname))

end

section
variable {d a : Reg} (h : s.clearFor true)
include h

theorem State.execHtake_answers {v : Word} {t : State} (ht : s.tryTake s.warp.key.wg (s.warp.s a) = some (v, t)) :
    execHtake d a s = .next (t.after fun w => w.setS d v) := by
  rw [execHtake, s.issue_scalar _ _ _ h rfl rfl rfl rfl]
  simp only [ht]
  rfl

theorem State.execHtake_waits (ht : s.tryTake s.warp.key.wg (s.warp.s a) = none) :
    execHtake d a s = .next (s.setWait (.htake d (s.warp.s a))) := by
  rw [execHtake, s.issue_scalar _ _ _ h rfl rfl rfl rfl]
  simp only [ht]
  rfl

end

/-! HQUERY (R212). -/

/-- HQUERY's first word. -/
def queryWord (mine zombie transit : Bool) (rank buf who : Nat) : Nat :=
  2 ^ 31 + (if mine then 4096 else 0) + (if zombie then 2048 else 0) + rank * 256 + buf * 16 + (if transit then 8 else 0) + who

/-- That number, its flags as digits. -/
theorem queryWord_eq (mine zombie transit : Bool) (rank buf who : Nat) :
    queryWord mine zombie transit rank buf who =
      2 ^ 31 + mine.toNat * 4096 + zombie.toNat * 2048 + rank * 256 + buf * 16 + transit.toNat * 8 + who := by
  cases mine <;> cases zombie <;> cases transit <;> rfl

theorem toNat_ushiftRight_and_low (x : Word) (i : Nat) {k : Nat} (hk : k ≤ 32) :
    (x >>> i &&& BitVec.ofNat 32 (2 ^ k - 1)).toNat = x.toNat / 2 ^ i % 2 ^ k := by
  have hlt : 2 ^ k - 1 < 2 ^ 32 := (Nat.sub_lt (by positivity) one_pos).trans_le (Nat.pow_le_pow_right (by norm_num) hk)
  rw [BitVec.toNat_and, BitVec.toNat_ushiftRight, Nat.shiftRight_eq_div_pow, BitVec.toNat_ofNat, Nat.mod_eq_of_lt hlt,
    Nat.and_two_pow_sub_one_eq_mod]

/-- A bit of a word, by the digit at its place. -/
theorem getLsbD_ofNat_eq {n i : Nat} {b : Bool} (hi : i < 32) (h : n / 2 ^ i % 2 = b.toNat) :
    (BitVec.ofNat 32 n).getLsbD i = b := by
  rw [BitVec.getLsbD_ofNat, decide_eq_true hi, Bool.true_and, Nat.testBit_eq_decide_div_mod_eq, h]
  cases b <;> rfl

theorem and_shiftLeft_eq_zero {x c : Word} {i : Nat} (h : x >>> i &&& c = 0#32) : x &&& c <<< i = 0#32 := by
  refine BitVec.eq_of_getLsbD_eq fun j hj => ?_
  have hbit := congrArg (fun y : Word => y.getLsbD (j - i)) h
  rw [BitVec.getLsbD_and, BitVec.getLsbD_shiftLeft, BitVec.getLsbD_zero, decide_eq_true hj, Bool.true_and]
  by_cases hji : j < i
  · simp [hji]
  · rw [BitVec.getLsbD_and, BitVec.getLsbD_ushiftRight, show i + (j - i) = j by omega, BitVec.getLsbD_zero] at hbit
    rwa [decide_eq_false hji, Bool.not_false, Bool.true_and]

/-- The fields of HQUERY's first word, each at its place, and the bits between them. -/
theorem queryWord_fields (mine zombie transit : Bool) {rank buf who : Nat} (hr : rank < 8) (hb : buf < 4) (hw : who < 8) :
    let r : Word := BitVec.ofNat 32 (queryWord mine zombie transit rank buf who)
    r.getLsbD 31 = true ∧ r.getLsbD 12 = mine ∧ r.getLsbD 11 = zombie ∧ (r >>> 8 &&& 7#32).toNat = rank ∧
      (r >>> 4 &&& 3#32).toNat = buf ∧ r.getLsbD 3 = transit ∧ (r &&& 7#32).toNat = who ∧ r &&& 0x7FFFE0C0#32 = 0 := by
  have hm := mine.toNat_lt
  have hz := zombie.toNat_lt
  have ht := transit.toNat_lt
  generalize hn : queryWord mine zombie transit rank buf who = n
  rw [queryWord_eq] at hn
  intro r
  have htoNat : r.toNat = n := Nat.mod_eq_of_lt (by omega)
  have field (i k v : Nat) (hk : k ≤ 32) (hv : n / 2 ^ i % 2 ^ k = v) : (r >>> i &&& BitVec.ofNat 32 (2 ^ k - 1)).toNat = v := by
    rw [toNat_ushiftRight_and_low r i hk, htoNat, hv]
  have gap : r &&& (3#32 <<< 6 ||| 0x3FFFF#32 <<< 13) = 0 := by
    have hlow : r &&& 3#32 <<< 6 = 0 := and_shiftLeft_eq_zero (BitVec.eq_of_toNat_eq (field 6 2 0 (by decide) (by omega)))
    have hhigh : r &&& 0x3FFFF#32 <<< 13 = 0 :=
      and_shiftLeft_eq_zero (BitVec.eq_of_toNat_eq (field 13 18 0 (by decide) (by omega)))
    rw [BitVec.and_or_distrib_left, hlow, hhigh]
    rfl
  refine ⟨getLsbD_ofNat_eq (by decide) ?_, getLsbD_ofNat_eq (by decide) ?_, getLsbD_ofNat_eq (by decide) ?_,
    field 8 3 _ (by decide) ?_, field 4 2 _ (by decide) ?_, getLsbD_ofNat_eq (by decide) ?_, field 0 3 _ (by decide) ?_, gap⟩
  · rw [Bool.toNat_true]; omega
  all_goals omega

/-- Whether a handle in a slot is in transit, and to whom, or else who holds it. -/
def HState.place : HState → Bool × Nat
  | .transit r _ => (true, r)
  | .held r => (false, r)
  | .free => (false, 0)

section
variable {d a : Reg} (h : s.clearFor false)
include h

theorem State.execHquery_dead (hl : s.liveHandle s.warp.key.wg (s.warp.s a) = none) :
    execHquery d a s = .next (s.after fun w => ((w.setS d 0).setS (d + 1) 0).setS (d + 2) 0) := by
  rw [execHquery, s.issue_scalar _ _ _ h rfl rfl rfl rfl]
  simp only [hl]
  rfl

theorem State.execHquery_live {home : WgKey} {i : Fin 16} (hl : s.liveHandle s.warp.key.wg (s.warp.s a) = some (home, i)) :
    let z := s.slotOf home i
    let mine := !z.state.place.1 && z.state.place.2 == s.rank
    let zombie := ((s.group? home).map fun g => g.state == .zombie).getD false
    let r := queryWord mine zombie z.state.place.1 (s.hdr.rank home.wglin) (Buf.index z.buf).val z.state.place.2
    execHquery d a s = .next (s.after fun w =>
      ((w.setS d (BitVec.ofNat 32 r)).setS (d + 1) (BitVec.ofNat 32 z.base)).setS (d + 2) (BitVec.ofNat 32 z.size)) := by
  rw [execHquery, s.issue_scalar _ _ _ h rfl rfl rfl rfl]
  simp only [hl]
  cases (s.slotOf home i).state <;> rfl

end

/-- Settles O43: each instruction by its own rule, case by case. -/
theorem handlesAreMadeGivenTakenDroppedAndQueried : Obligations.HandlesAreMadeGivenTakenDroppedAndQueried := by
  intro s d a b buf i home h h' hreds k C tells base size fitsIn meets
  refine ⟨fun hf he => State.execHmake_unfit h he hf, fun hf hm => State.execHmake_overlap h hf hm,
    fun hf hm hn => State.execHmake_full h hf hm hn, fun hf hm hi hlow => State.execHmake_makes h hf hm hi hlow,
    fun hh he => ⟨State.execHgive_unheld h' he hh, State.execHdrop_unheld h' he hh⟩, fun hh => ?_, ?_, ?_⟩
  · intro r x busy reds u given dropped
    have hreds' : (s.det = true ∧ s.regionReds k home i ≠ []) ↔ reds := and_congr_right fun _ => State.regionReds_ne_nil_iff
    have frees (hn : ¬ reds) (hb : busy = false) (rule : State → Res) :
        s.afterAccesses (s.warp.s a) home i rule = rule u :=
      State.afterAccesses_free rule hreds (hreds'.not.2 hn) hb
    have waits (hn : ¬ reds) (hb : busy = true) (rule : State → Res) :
        s.afterAccesses (s.warp.s a) home i rule = .stay (s.setWait .hgive) :=
      State.afterAccesses_busy rule hreds (hreds'.not.2 hn) hb
    have commits (hc : reds) (rule : State → Res) :
        s.afterAccesses (s.warp.s a) home i rule = .stay (s.othersWait (s.regionReds k home i)) :=
      State.afterAccesses_reds rule hreds hc.1 (hreds'.2 hc).2
    refine ⟨State.execHgive_norank h' hh, fun hr hne => State.execHgive_exited h' hh ⟨hr, hne⟩, fun hr hne hx => ?_,
      ?_, ?_, ?_⟩
    · have hgive := State.execHgive_live (d := d) h' hh ⟨hr, hne⟩ hx
      exact ⟨fun hn hb => hgive.trans (by rw [frees hn hb]; rfl), fun hn hb => hgive.trans (by rw [waits hn hb]; rfl),
        fun hc => hgive.trans (by rw [commits hc]; rfl)⟩
    · exact fun hn hb => (State.execHdrop_held h' hh).trans (by rw [frees hn hb]; rfl)
    · exact fun hn hb => (State.execHdrop_held h' hh).trans (by rw [waits hn hb]; rfl)
    · exact fun hc => (State.execHdrop_held h' hh).trans (by rw [commits hc]; rfl)
  · intro f names comes
    have hcomes {g r : Nat} {j : Fin 16} : (g, r, j) ∈ s.inTransit k f ↔ comes g r j := State.mem_inTransit
    have hnil (hn : ∀ g r j, ¬ comes g r j) : s.inTransit k f = [] :=
      List.eq_nil_iff_forall_not_mem.2 fun ⟨g, r, j⟩ hx => hn g r j (hcomes.1 hx)
    refine ⟨fun hf hr => State.execHtake_answers h' (State.tryTake_norank hf hr), fun hf => ⟨fun g r hx hlow => ?_,
      fun hn hr => ?_, fun hn hr => ?_⟩⟩
    · have hlow' : ∀ y ∈ s.inTransit k f, takeBefore (g, r, i) y = true := fun ⟨g', r', j⟩ hy =>
        takeBefore_iff.2 (hlow g' r' j (hcomes.1 hy))
      have htry := State.tryTake_lowest (k := k) hf (hcomes.2 hx) hlow'
      exact State.execHtake_answers h' htry
    · exact State.execHtake_answers h' (State.tryTake_exited hf (hnil hn) hr)
    · exact State.execHtake_waits h' (State.tryTake_waits hf (hnil hn) hr)
  · cases hl : s.liveHandle k (s.warp.s a) with
    | none => exact ⟨0, 0, 0, State.execHquery_dead h hl, fun _ => ⟨rfl, rfl, rfl⟩, fun hc => by cases hc⟩
    | some x =>
      obtain ⟨home', i'⟩ := x
      refine ⟨_, _, _, State.execHquery_live h hl, nofun, fun hc => ?_⟩
      obtain ⟨rfl, rfl⟩ := Prod.mk.inj (Option.some.inj hc)
      intro z
      -- the statement's own match on the slot's state is `HState.place`
      suffices z.state.place.2 < 8 → s.hdr.rank home'.wglin < 8 → _ from this
      intro hw hr
      obtain ⟨hlive, hmine, hzombie, hrank, hbuf, htransit, hwho, hgap⟩ :=
        queryWord_fields (!z.state.place.1 && z.state.place.2 == s.rank)
          (((s.group? home').map fun g => g.state == .zombie).getD false) z.state.place.1 hr (Buf.index z.buf).isLt hw
      exact ⟨hlive, hmine, hzombie, hrank, hbuf, htransit, hwho, hgap, rfl, rfl⟩

end Sys2Proof.Machine
end
